-- ==== Sys2Proof/Word.lean ====
section
/-! DEFINITION. The word types of the BXQ-512: scalar, vector and predicate registers, bytes (R1, R136, R206). -/
namespace Sys2Proof

/-- A scalar register, a CSR or a 64-bit quantity of a record (R136, R198). -/
abbrev Word := BitVec 64

/-- One byte of scratchpad or of global memory (R1, R295, R314). -/
abbrev Byte := BitVec 8

/-- A vector register: 2048 bits (R7, R206). -/
abbrev VWord := BitVec 2048

/-- A predicate register: one bit for each of the 256 byte lanes (R206). -/
abbrev PWord := BitVec 256

end Sys2Proof
end

