-- ==== Sys2Proof/Machine/Aes.lean ====
section
/-! DEFINITION. AES-XTS with 256-bit keys in 16-byte units (R70). The spec names the cipher and states its keys, its unit and its tweak;
its rounds, and how the tweak stands in bytes, are those of the published standards (PRESUMED, log entry 11). -/
namespace Sys2Proof.Machine

/-! ### Bytes as the field of 256 elements -/

def gfDouble (b : Byte) : Byte := (b <<< 1) ^^^ (if b.msb then 0x1b#8 else 0)

/-- `a` times the lowest `n` bits of `b`. -/
def gfMulBits (a b : Byte) : Nat → Byte
  | 0 => 0
  | n + 1 => (if b.getLsbD 0 then a else 0) ^^^ gfMulBits (gfDouble a) (b >>> 1) n

def gfMul (a b : Byte) : Byte := gfMulBits a b 8

/-- The product of the first `n` of the successive squares `a`, a², a⁴ … -/
def gfSquares (a : Byte) : Nat → Byte
  | 0 => 1
  | n + 1 => gfMul a (gfSquares (gfMul a a) n)

/-- The inverse of an element, a²⁵⁴; zero for zero. -/
def gfInv (a : Byte) : Byte := gfSquares (gfMul a a) 7

def subByte (b : Byte) : Byte :=
  let x := gfInv b
  x ^^^ x.rotateLeft 1 ^^^ x.rotateLeft 2 ^^^ x.rotateLeft 3 ^^^ x.rotateLeft 4 ^^^ 0x63#8

def unsubByte (b : Byte) : Byte := gfInv (b.rotateLeft 1 ^^^ b.rotateLeft 3 ^^^ b.rotateLeft 6 ^^^ 0x05#8)

/-! ### The rounds of AES-256 -/

def byteOf (l : List Byte) (i : Nat) : Byte := l[i]?.getD 0
def xorBytes (a b : List Byte) : List Byte := List.zipWith (· ^^^ ·) a b

/-- The next four bytes of the key schedule, after `n` words of it; the latest word comes first. -/
def scheduleWord (ws : List (List Byte)) (n : Nat) (rcon : Byte) : List Byte :=
  let last := ws.headD []
  let t := if n % 8 = 0 then xorBytes ((last.drop 1 ++ last.take 1).map subByte) [rcon, 0, 0, 0]
    else if n % 8 = 4 then last.map subByte
    else last
  xorBytes (ws[7]?.getD []) t

/-- `k` further words of the key schedule. -/
def schedule (ws : List (List Byte)) (n : Nat) (rcon : Byte) : Nat → List (List Byte)
  | 0 => ws.reverse
  | k + 1 => schedule (scheduleWord ws n rcon :: ws) (n + 1) (if n % 8 = 0 then gfDouble rcon else rcon) k

/-- The 15 round keys of a 32-byte key. -/
def roundKeys (key : List Byte) : List (List Byte) :=
  let ws := schedule ((List.range 8).map fun i => (key.drop (4 * i)).take 4).reverse 8 1 52
  (List.range 15).map fun r => ((ws.drop (4 * r)).take 4).flatten

/-- Byte 4·column + row of a block; rows turn left by their number. -/
def shiftRows (l : List Byte) : List Byte := (List.range 16).map fun i => byteOf l ((i + 4 * (i % 4)) % 16)
def unshiftRows (l : List Byte) : List Byte := (List.range 16).map fun i => byteOf l ((i + 12 * (i % 4)) % 16)

/-- Each column times a circulant matrix whose first row is `m`. -/
def mixWith (m l : List Byte) : List Byte :=
  (List.range 16).map fun i => (List.range 4).foldl (fun x j => x ^^^ gfMul (byteOf m ((j + 4 - i % 4) % 4)) (byteOf l (i / 4 * 4 + j))) 0

def mixColumns : List Byte → List Byte := mixWith [2, 3, 1, 1]
def unmixColumns : List Byte → List Byte := mixWith [14, 11, 13, 9]

def encryptRounds (l : List Byte) : List (List Byte) → List Byte
  | [] => l
  | [k] => xorBytes (shiftRows (l.map subByte)) k
  | k :: rest => encryptRounds (xorBytes (mixColumns (shiftRows (l.map subByte))) k) rest

/-- AES-256 of one block. -/
def aesEncrypt (key block : List Byte) : List Byte :=
  let ks := roundKeys key
  encryptRounds (xorBytes block (ks.headD [])) (ks.drop 1)

def decryptRounds (l : List Byte) : List (List Byte) → List Byte
  | [] => l
  | [k] => xorBytes ((unshiftRows l).map unsubByte) k
  | k :: rest => decryptRounds (unmixColumns (xorBytes ((unshiftRows l).map unsubByte) k)) rest

/-- The inverse of AES-256 on one block. -/
def aesDecrypt (key block : List Byte) : List Byte :=
  let ks := (roundKeys key).reverse
  decryptRounds (xorBytes block (ks.headD [])) (ks.drop 1)

/-! ### XTS over the units of a sector -/

def bytesOf (n : Nat) (x : Nat) : List Byte := (List.range n).map fun i => BitVec.ofNat 8 (x / 256 ^ i)

/-- A mask doubled in the field of 2¹²⁸ elements. -/
def maskDouble (x : BitVec 128) : BitVec 128 := (x <<< 1) ^^^ (if x.msb then 0x87#128 else 0)

def maskAt (x : BitVec 128) : Nat → BitVec 128
  | 0 => x
  | n + 1 => maskDouble (maskAt x n)

/-- The data key of a slot: its first 32 bytes (R409). -/
def dataKey (k : BitVec 512) : List Byte := bytesOf 32 k.toNat
/-- The tweak key of a slot: its last 32 bytes (R409). -/
def tweakKey (k : BitVec 512) : List Byte := bytesOf 32 (k.toNat / 2 ^ 256)

/-- The mask of unit `j` of the sector at physical address `sector`, which is the tweak (R70). -/
def unitMask (k : BitVec 512) (sector j : Nat) : List Byte :=
  let t := aesEncrypt (tweakKey k) (bytesOf 16 sector)
  bytesOf 16 (maskAt (BitVec.ofNat 128 (t.foldr (fun b n => n * 256 + b.toNat) 0)) j).toNat

def xtsEncrypt (k : BitVec 512) (sector j : Nat) (l : List Byte) : List Byte :=
  let m := unitMask k sector j
  xorBytes (aesEncrypt (dataKey k) (xorBytes l m)) m

def xtsDecrypt (k : BitVec 512) (sector j : Nat) (l : List Byte) : List Byte :=
  let m := unitMask k sector j
  xorBytes (aesDecrypt (dataKey k) (xorBytes l m)) m

/-- A unit written under one key (none for clear) at one sector address as it reads under another key at another (R71): the two
addresses differ when a window has moved over the home in between (R69, R70). -/
def rekey (wsec rsec j : Nat) (wk rk : Option (BitVec 512)) (l : List Byte) : List Byte :=
  let stored := match wk with
    | some k => xtsEncrypt k wsec j l
    | none => l
  match rk with
  | some k => xtsDecrypt k rsec j stored
  | none => stored

end Sys2Proof.Machine
end

