-- ==== Sys2Proof/Config.lean ====
section
/-! DEFINITION. What an implementation fixes and the free values: constants without a body, so that nothing can prove a
value of one. Each is named in the assumption log. The plain counter `State.free` is the argument of the free values that
differ from one use to the next. -/
namespace Sys2Proof.Config

/-- Extra core cycles a global access waits between issue and its start, beyond what the spec fixes (log entry 8). -/
opaque lsuDelay : Nat → Nat
/-- Core cycles from the start of a global access to the instant at which it performs (R315; log entry 8). -/
opaque performDelay : Nat → Nat
/-- Core cycles a copy command takes from its start to its completion (R299, R305; log entry 8). -/
opaque copyDelay : Nat → Nat
/-- Core cycles a page walk takes (R72; log entry 8). -/
opaque walkDelay : Nat → Nat
/-- Core cycles an instruction-cache fill takes (R110; log entry 8). -/
opaque fillDelay : Nat → Nat
/-- Core cycles between two actions of a graph walker (R83; log entry 8). -/
opaque walkerDelay : Nat → Nat
/-- Core cycles from a SPAWN's descriptor read to its completion (R90; log entry 8). -/
opaque spawnDelay : Nat → Nat
/-- Core cycles of transit and service of one collective request or block (R347; log entry 8). -/
opaque collDelay : Nat → Nat
/-- Extra core cycles of contention on a splice message, beyond R163's least time (log entry 8). -/
opaque meshDelay : Nat → Nat
/-- Core cycles that a PMMA partial tile, commit or abort takes between partner cores (R264; log entry 8). -/
opaque pairDelay : Nat → Nat
/-- Extra core cycles a matrix command waits for a port of the scratchpad (R296, R414; log entry 8). -/
opaque portDelay : Nat → Nat

/-- Which of the sixteen entries of a broken 64 KiB page a translation uses (R62; log entry 9). -/
opaque brokenPage : Nat → Nat
/-- Whether a walk takes a non-leaf entry from its die's cache, where the cache has it, or reads it again (R76; log entry 24). -/
opaque cachedEntry : Nat → Bool
/-- Which entry of a full TLB or L2 set a fill replaces (R72, R311; log entry 10). -/
opaque victim : Nat → Nat

/-- Virtual address at which the loader places the `n`-th loaded object (R22, R23: the spec does not say where;
log entry 13). -/
opaque loadAddress : Nat → BitVec 64

/-- The DDR-5 capacity in GiB found at reset (R69; log entry 2). -/
opaque ddrSize : BitVec 11

/-- The DDR-5 channel that holds a window offset (the spec gives no interleave; log entry 17). -/
opaque ddrChannel : Nat → Nat

/-- Average power in W over the last millisecond, and hottest junction in °C, at the `n`-th check (R412; log entry 14). -/
opaque measuredPower : Nat → Nat
opaque measuredTemp : Nat → Nat

/-- The hash of a line address that a reuse tag register holds (R394 says only that it is a 32-bit hash; log entry 15). -/
opaque reuseHash : Nat → BitVec 32

/-- The VALUE bytes of a pending-write record in lanes that the write does not change (R365 shows the field and no value for
them; log entry 20). -/
opaque deadLanes : Nat → BitVec 2048

/-- A value the spec leaves open, `n`-th of the run (log entry 7). -/
opaque freeWord : Nat → BitVec 64

end Sys2Proof.Config
end

