-- ==== Sys2Proof/Syntax.lean ====
section
/-! DEFINITION. The instructions of the BXQ-512: one constructor of `Instr` for each row of spec/opcode_table.json (slot
operations, engine events, walker nodes, host commands and register events), with the operand shapes they share. -/
namespace Sys2Proof

/-- A bypass latch (R123). -/
inductive LatchId where
  | s0 | s1 | v | x
deriving DecidableEq, Repr

/-- A six-bit source field: a register of the file the operand calls for, or a latch (R123). -/
inductive Src where
  | reg (n : Fin 32)
  | lat (l : LatchId)
deriving DecidableEq, Repr

/-- Rounding modes (R39). -/
inductive Rm where
  | rne | rtz | ru | rd | sr
deriving DecidableEq, Repr

/-- Element types of ty4 (R120). -/
inductive Ty where
  | i8 | i16 | i32 | n8 | n16 | n32 | f16 | bf16 | f32 | e4m3 | e5m2 | e2m1 | l8
deriving DecidableEq, Repr

/-- Scopes (R317). -/
inductive Scope where
  | ctx | core | clu | die | dev | sys
deriving DecidableEq, Repr

/-- Conditions of BCZ: a register against zero (R188). -/
inductive CondZ where
  | eq | ne | lt | ge | le | gt
deriving DecidableEq, Repr

/-- Conditions of BC (R188). -/
inductive CondB where
  | eq | ne | lt | ge | ltn | gen
deriving DecidableEq, Repr

/-- Tests of BP (R189). -/
inductive PTest where
  | any | none | all | nall | first | nfirst
deriving DecidableEq, Repr

/-- Compare conditions of VCMP and VFCMP (R211). VCMP takes the first six. -/
inductive CmpC where
  | eq | ne | lt | le | gt | ge | un | or
deriving DecidableEq, Repr

/-- Engines with a timeline (R329, R337). -/
inductive Engine where
  | lsu | cpy | mat | dda | col
deriving DecidableEq, Repr

/-- Slots of a bundle, in PM bit order (R118). -/
inductive Slot where
  | s0 | s1 | v | x | m | q
deriving DecidableEq, Repr

/-- Sizes of a global load (R337). -/
inductive LdSz where
  | i8 | n8 | i16 | n16 | i32 | n32 | d
deriving DecidableEq, Repr

/-- Sizes of a global store (R337). -/
inductive StSz where
  | b | h | w | d
deriving DecidableEq, Repr

/-! ### S-slot operand shapes (R119) -/

structure SR3 where
  d : Fin 32
  nw : Bool
  a : Src
  b : Src
deriving DecidableEq, Repr

structure SR2 where
  d : Fin 32
  nw : Bool
  a : Src
deriving DecidableEq, Repr

structure SF3 where
  d : Fin 32
  nw : Bool
  a : Src
  b : Src
  rm : Rm
deriving DecidableEq, Repr

structure SF2 where
  d : Fin 32
  nw : Bool
  a : Src
  rm : Rm
deriving DecidableEq, Repr

structure SImm where
  d : Fin 32
  nw : Bool
  a : Src
  imm : BitVec 14
deriving DecidableEq, Repr

structure SSh where
  d : Fin 32
  nw : Bool
  a : Src
  sh : BitVec 6
deriving DecidableEq, Repr

structure SLong where
  d : Fin 32
  nw : Bool
  imm : BitVec 20
deriving DecidableEq, Repr

/-- A local store: `d` names the data register (R185). -/
structure SSt where
  d : Fin 32
  a : Src
  imm : BitVec 14
deriving DecidableEq, Repr

structure LdgOp where
  d : Fin 32
  a : Src
  tok : Fin 32
  sz : LdSz
  sc : Scope
  acq : Bool
deriving DecidableEq, Repr

structure StgOp where
  d : Fin 32
  a : Src
  tok : Fin 32
  sz : StSz
  sc : Scope
  rel : Bool
deriving DecidableEq, Repr

structure AmoOp where
  d : Fin 32
  a : Src
  b : Src
  dw : Bool
  sc : Scope
deriving DecidableEq, Repr

structure CsrOp where
  d : Fin 32
  nw : Bool
  csr : BitVec 12
  a : Src
deriving DecidableEq, Repr

/-! ### V- and X-slot operand shapes (R120, R208, R229). `pg` is the guard predicate. -/

/-- Integer element operation with SB and SAT. -/
structure VInt where
  d : Fin 32
  nw : Bool
  a : Src
  b : Src
  sb : Bool
  sat : Bool
  pg : Fin 16
  ty : Ty
deriving DecidableEq, Repr

structure VMadOp where
  d : Fin 32
  nw : Bool
  a : Src
  b : Src
  c : Src
  sb : Bool
  sat : Bool
  pg : Fin 16
  ty : Ty
deriving DecidableEq, Repr

/-- Two sources, SB, no SAT. -/
structure VBin where
  d : Fin 32
  nw : Bool
  a : Src
  b : Src
  sb : Bool
  pg : Fin 16
  ty : Ty
deriving DecidableEq, Repr

/-- One source with SAT. -/
structure VUnSat where
  d : Fin 32
  nw : Bool
  a : Src
  sat : Bool
  pg : Fin 16
  ty : Ty
deriving DecidableEq, Repr

/-- One source. -/
structure VUn where
  d : Fin 32
  nw : Bool
  a : Src
  pg : Fin 16
  ty : Ty
deriving DecidableEq, Repr

structure VFlt where
  d : Fin 32
  nw : Bool
  a : Src
  b : Src
  sb : Bool
  rm : Rm
  pg : Fin 16
  ty : Ty
deriving DecidableEq, Repr

structure VFmaOp where
  d : Fin 32
  nw : Bool
  a : Src
  b : Src
  c : Src
  sb : Bool
  rm : Rm
  pg : Fin 16
  ty : Ty
deriving DecidableEq, Repr

structure VCmpOp where
  pd : Fin 16
  nw : Bool
  a : Src
  b : Src
  sb : Bool
  cc : CmpC
  pg : Fin 16
  ty : Ty
deriving DecidableEq, Repr

/-- Three six-bit sources, no SB (VSEL: `c` a predicate). -/
structure VTri where
  d : Fin 32
  nw : Bool
  a : Src
  b : Src
  c : Src
  pg : Fin 16
  ty : Ty
deriving DecidableEq, Repr

/-- Two six-bit sources, no SB (VINS, VEXT, VLDS, VGATH, DIV's kin, VIDX, SHUF's sources). -/
structure VTwo where
  d : Fin 32
  nw : Bool
  a : Src
  b : Src
  pg : Fin 16
  ty : Ty
deriving DecidableEq, Repr

/-- Local vector load or store with a 12-bit immediate in rows of 256 bytes (R213). -/
structure VLoc where
  d : Fin 32
  nw : Bool
  a : Src
  imm : BitVec 12
  pg : Fin 16
  ty : Ty
deriving DecidableEq, Repr

/-- Global vector load or store (R217, R218). `cb` is the codebook slot of VLDG. -/
structure VGlob where
  d : Fin 32
  a : Src
  imm : BitVec 12
  cb : Fin 8
  rm : Rm
  pg : Fin 16
  ty : Ty
deriving DecidableEq, Repr

/-- Horizontal reduction to a scalar (R220). -/
structure VRed where
  d : Fin 32
  nw : Bool
  a : Src
  rm : Rm
  pg : Fin 16
  ty : Ty
deriving DecidableEq, Repr

structure VRmrsOp where
  d : Fin 32
  nw : Bool
  a : Src
  c : Src
  pd : Fin 16
  pg : Fin 16
  ty : Ty
deriving DecidableEq, Repr

structure VPushOp where
  a : Src
  q : Fin 16
  flush : Bool
  pg : Fin 16
  ty : Ty
deriving DecidableEq, Repr

structure VPopOp where
  d : Fin 32
  nw : Bool
  a : Src
  q : Fin 16
  k : Fin 4
  pop : Bool
  pg : Fin 16
  ty : Ty
deriving DecidableEq, Repr

/-- Predicate result from one or two predicate sources (R225). -/
structure PBin where
  pd : Fin 16
  nw : Bool
  a : Src
  b : Src
  pg : Fin 16
deriving DecidableEq, Repr

structure PUn where
  pd : Fin 16
  nw : Bool
  a : Src
  pg : Fin 16
deriving DecidableEq, Repr

/-- Element-wise predicate operation with a predicate result (R226). -/
structure PElt where
  pd : Fin 16
  nw : Bool
  a : Src
  pg : Fin 16
  ty : Ty
deriving DecidableEq, Repr

/-- SQRT (one source) with a rounding mode. -/
structure XSqrt where
  d : Fin 32
  nw : Bool
  a : Src
  rm : Rm
  pg : Fin 16
  ty : Ty
deriving DecidableEq, Repr

structure XDiv where
  d : Fin 32
  nw : Bool
  a : Src
  b : Src
  rm : Rm
  pg : Fin 16
  ty : Ty
deriving DecidableEq, Repr

/-- Integer division with WD (R233). -/
structure XIDiv where
  d : Fin 32
  nw : Bool
  a : Src
  b : Src
  wd : Bool
  pg : Fin 16
  ty : Ty
deriving DecidableEq, Repr

/-- MAXEXP: target 0 e4m3, 1 e5m2, 2 e2m1, 3 i8; block 0, 1, 2 for 16, 32, 64 (R235). -/
structure XMaxexp where
  d : Fin 32
  nw : Bool
  a : Src
  tgt : Fin 4
  blk : Fin 3
  pg : Fin 16
  ty : Ty
deriving DecidableEq, Repr

/-- Conversion: `src` the source type, `part` the part index, `mode` fn4[2:0] (R237, R238). -/
structure XCvt where
  d : Fin 32
  nw : Bool
  a : Src
  src : Ty
  part : Fin 8
  mode : Fin 8
  pg : Fin 16
  ty : Ty
deriving DecidableEq, Repr

structure XCbdec where
  d : Fin 32
  nw : Bool
  a : Src
  part : Fin 64
  cb : Fin 8
  rm : Rm
  pg : Fin 16
  ty : Ty
deriving DecidableEq, Repr

structure XShuf where
  d : Fin 32
  nw : Bool
  a : Src
  b : Src
  entry : Fin 64
  pg : Fin 16
  ty : Ty
deriving DecidableEq, Repr

/-! ### M- and Q-slot operand shapes -/

/-- M operand descriptor (R121). -/
structure MDesc where
  rem : Bool
  core : Fin 8
  queue : Fin 16
  off : Fin 4
  pop : Bool
  geo : Fin 6
deriving DecidableEq, Repr

/-- The tile word (R249), fields as encoded. -/
structure TileWord where
  mm : Fin 128
  nn : Fin 192
  kk : Fin 128
  af : BitVec 4
  pf : Fin 9
deriving DecidableEq, Repr

structure MmaOp where
  da : MDesc
  db : MDesc
  acc : Fin 4
  z : Bool
  cba : Fin 8
  cbb : Fin 8
deriving DecidableEq, Repr

structure PmmaOp where
  da : MDesc
  db : MDesc
  acc : Fin 4
  z : Bool
  cba : Fin 8
  cbb : Fin 8
  role : Bool
deriving DecidableEq, Repr

/-- Types of ACCRD (R267). -/
inductive AccTy where
  | i8 | i32 | f16 | bf16 | f32
deriving DecidableEq, Repr

structure AccrdOp where
  q : Fin 16
  acc : Fin 4
  ty : AccTy
  rm : Rm
  clr : Bool
deriving DecidableEq, Repr

structure AccrvOp where
  acc : Fin 4
  d : Fin 32
  row : Fin 128
  grp : Fin 3
deriving DecidableEq, Repr

structure AccwrOp where
  q : Fin 16
  off : Fin 4
  pop : Bool
  acc : Fin 4
deriving DecidableEq, Repr

structure AccsaveOp where
  acc : Fin 4
  a : Src
  imm : BitVec 12
deriving DecidableEq, Repr

structure AccrestOp where
  acc : Fin 4
  a : Src
  imm : BitVec 12
  data : Bool
  cfg : Bool
deriving DecidableEq, Repr

/-- Queue configuration word and addend of QCFG (R167, R168). -/
structure QcfgOp where
  q : Fin 16
  a : Src
  rx : Bool
  log2n : BitVec 4
  slotsz : BitVec 8
  base256 : BitVec 14
deriving DecidableEq, Repr

structure QrdOp where
  q : Fin 16
  d : Fin 32
  k : Fin 16
  pop : Bool
  a : Src
  row : BitVec 8
deriving DecidableEq, Repr

structure QwrOp where
  q : Fin 16
  a : Src
  b : Src
  o : Bool
  c : Bool
  tag : BitVec 6
  row : BitVec 8
deriving DecidableEq, Repr

/-- Queue, scalar address base and signed byte offset (QSAVE, QREST, QSTAT). -/
structure QMemOp where
  q : Fin 16
  a : Src
  imm : BitVec 13
deriving DecidableEq, Repr

/-- CPLD: destination queue, address, descriptor (R300). -/
structure CpldOp where
  q : Fin 16
  a : Src
  b : Src
deriving DecidableEq, Repr

structure CpstOp where
  q : Fin 16
  a : Src
  b : Src
  k : Fin 16
  pop : Bool
deriving DecidableEq, Repr

structure CpllOp where
  q : Fin 16
  a : Src
  b : Src
  tag : BitVec 6
deriving DecidableEq, Repr

structure CpgaOp where
  q : Fin 16
  a : Src
  b : Src
  c : Src
deriving DecidableEq, Repr

structure CpmemOp where
  a : Src
  b : Src
  c : Src
  ld : Bool
  ls : Bool
deriving DecidableEq, Repr

/-- Fields of an integrator cell named by FIELD (R286). -/
inductive CellField where
  | y | res | cnt | par
deriving DecidableEq, Repr

/-- DPATCH: entries − 1 and address (R286, R287). -/
structure DpatchOp where
  a : Src
  n11 : BitVec 11
  imm : BitVec 13
deriving DecidableEq, Repr

structure DsetOp where
  f : CellField
  a : Src
  cell : BitVec 9
  b : Src
deriving DecidableEq, Repr

structure DreadOp where
  f : CellField
  a : Src
  cell : BitVec 9
  imm : BitVec 13
deriving DecidableEq, Repr

structure DcntOp where
  q : Fin 16
  clr : Bool
  cell : BitVec 9
  rows : Fin 8
deriving DecidableEq, Repr

/-! ### Host commands, records and messages -/

/-- Levels of the work hierarchy that a cancel names (R80, R94). -/
inductive Level where
  | launch | graph | phase | job
deriving DecidableEq, Repr

/-- The fields common to the node records of R82 after the translation of R95: WC and NEXT. -/
structure NodeHdr where
  wc : Bool
  nxt : Nat
deriving DecidableEq, Repr

/-- LAUNCH node, words 1 to 5 (R82). -/
structure LaunchNode where
  hdr : NodeHdr
  code : Word
  placement : Word
  args : Word
  counter : Word
  sbud : Nat
  vbud : Nat
  pbud : Nat
deriving DecidableEq, Repr

structure CopyNode where
  hdr : NodeHdr
  src : Word
  dst : Word
  bytes : Word
  counter : Word
deriving DecidableEq, Repr

structure CondNode where
  hdr : NodeHdr
  cond : Word
  taken : Nat
deriving DecidableEq, Repr

structure WhileNode where
  hdr : NodeHdr
  cond : Word
  body : Nat
  maxiter : Nat
  count : Word
deriving DecidableEq, Repr

structure SignalNode where
  hdr : NodeHdr
  target : Word
  value : Word
  add : Bool
  dev : Bool
deriving DecidableEq, Repr

structure WaitNode where
  hdr : NodeHdr
  watched : Word
  value : Word
  test : Fin 3
  g : Bool
  timeout : Word
deriving DecidableEq, Repr

/-- Rights a page request asks for (R73). -/
inductive Right where
  | r | w | x
deriving DecidableEq, Repr

/-- Answers of the host to a page request (R73). -/
inductive PrAnswer where
  | success | failure | invalid
deriving DecidableEq, Repr

/-- The queue of a context that a splice target word names (R172). -/
structure QName where
  core : Nat
  ctx : Nat
  queue : Nat
deriving DecidableEq, Repr

/-- Which end a splice message is for: the unit (by the model's key), its queue, and the core of that unit. -/
structure QEnd where
  unit : Nat
  queue : Nat
  core : Nat
deriving DecidableEq, Repr

/-- Resources that count error events (R373). -/
inductive Resource where
  | core (n : Nat)
  | slice (n : Nat)
  | link (n : Nat)
  | halyard (die : Nat)
  | hbm (n : Nat)
  | ddr (n : Nat)
deriving DecidableEq, Repr

/-- Functions with a bit in READY (R410). -/
inductive Func where
  | die (n : Fin 4)
  | hbm (n : Fin 8)
  | ddr (n : Fin 12)
  | link (n : Fin 16)
  | hal (n : Fin 4)
  | port (n : Fin 2)
  | cp
deriving DecidableEq, Repr

/-- Device registers without a row of their own that a host writes (REGISTER_WRITE; R408). -/
inductive DevReg where
  | asidtab | prqto | placeto | gangto | savebase | dpmaxdev | fabid
  | linkrt (n : Fin 64) | fltwin | fltthr | pwrcap | maint (n : Fin 8)
  | cqctl (port : Fin 2) | cplctl (port : Fin 2)
  | ttptr (die : Fin 4) | ttbp (die : Fin 4) (n : Fin 8) | ttwp (die : Fin 4) (n : Fin 4)
deriving DecidableEq, Repr

/-- An identifier of a member of a collective: device (fabric identifier) and die (R345). -/
structure Member where
  dev : Nat
  die : Nat
deriving DecidableEq, Repr

/-- Key of a collective record that is open at a member: job identity, TAG (R347). -/
structure CollKey where
  gang : Bool
  job : Nat
  tag : BitVec 32
deriving DecidableEq, Repr

/-- Who hit an uncorrectable or corrected error event: the resource, the byte affected, whether it can be corrected. -/
structure ErrorInfo where
  res : Resource
  pa : Nat
  correctable : Bool
deriving DecidableEq, Repr

/-- One row of a splice delivery (R162): `off` bytes into the slot of counter `ctr`; `close` sets tag and presence.
`eng` names the engine and number that complete on presence at the target, none for an issue-pipeline append (R164). -/
structure SpliceRow where
  tgt : QEnd
  snd : QEnd
  ctr : BitVec 16
  off : Nat
  data : List Byte
  close : Bool
  tag : BitVec 6
  eng : Option (Engine × Nat)
  /-- for an append of the issue pipeline: the target acknowledges this row -/
  ack : Bool
deriving DecidableEq, Repr

/-- A pull request to a serving Halyard (R347): the serving die, the requester (`dev` none for this device), its record,
transfer and block count. -/
structure CollReq where
  die : Nat
  key : CollKey
  server : Nat
  requester : Member
  rid : Nat
  xfer : Nat
  src : Word
  bytes : Nat
deriving DecidableEq, Repr

/-- What became of one block (R350, R353): served with its bytes, failed its link check, or not served. -/
inductive BlockFate where
  | good (data : List Byte)
  | badCheck
  | notServed
deriving DecidableEq, Repr

/-- One 128-byte block of a transfer arriving at the requester's record (R346, R350). -/
structure CollBlock where
  die : Nat
  rid : Nat
  xfer : Nat
  blk : Nat
  fate : BlockFate
  /-- the device link it came over, if any -/
  link : Option Nat
deriving DecidableEq, Repr

/-- The instructions: one constructor per row of spec/opcode_table.json, the slot operations in the table's order, then the rest in the table's order. Slot operations act on the
context that `State.iss` names; events carry the part of the device they happen in (`c` core, `k` context, `u` unit,
`l` launch, `j` job, `n` timeline number). -/
inductive Instr where
  /-- NOP: A pure bundle with no slot operation issues and takes one context cycle plus its wait cycles. (R118) -/
  | nop (wt : Fin 8) (dp st : Bool)
  /-- ADD: Writes a + b, wrapping, at latency 1. (R176) -/
  | add (o : SR3)
  /-- SUB: Writes a − b, wrapping. (R176) -/
  | sub (o : SR3)
  /-- AND: Writes a AND b. (R176) -/
  | and (o : SR3)
  /-- OR: Writes a OR b. (R176) -/
  | or (o : SR3)
  /-- XOR: Writes a XOR b. (R176) -/
  | xor (o : SR3)
  /-- ANDN: Writes a AND NOT b. (R176) -/
  | andn (o : SR3)
  /-- SHL: Shifts a left by b[5:0]. (R176) -/
  | shl (o : SR3)
  /-- SHR: Shifts a right logically by b[5:0]. (R176) -/
  | shr (o : SR3)
  /-- SRA: Shifts a right arithmetically by b[5:0]. (R176) -/
  | sra (o : SR3)
  /-- ROL: Rotates a left by b[5:0]. (R176) -/
  | rol (o : SR3)
  /-- MIN: Writes the signed lesser of a and b. (R176) -/
  | min (o : SR3)
  /-- MAX: Writes the signed greater of a and b. (R176) -/
  | max (o : SR3)
  /-- MINN: Writes the unsigned lesser of a and b. (R176) -/
  | minn (o : SR3)
  /-- MAXN: Writes the unsigned greater of a and b. (R176) -/
  | maxn (o : SR3)
  /-- SEQ: Writes 1 if a equals b, else 0. (R176) -/
  | seq (o : SR3)
  /-- SNE: Writes 1 if a differs from b, else 0. (R176) -/
  | sne (o : SR3)
  /-- SLT: Writes 1 if a < b signed. (R176) -/
  | slt (o : SR3)
  /-- SLTN: Writes 1 if a < b unsigned. (R176) -/
  | sltn (o : SR3)
  /-- SLE: Writes 1 if a ≤ b signed. (R176) -/
  | sle (o : SR3)
  /-- SLEN: Writes 1 if a ≤ b unsigned. (R176) -/
  | slen (o : SR3)
  /-- CLZ: Writes the count of leading zero bits of a. (R176) -/
  | clz (o : SR2)
  /-- CTZ: Writes the count of trailing zero bits of a. (R176) -/
  | ctz (o : SR2)
  /-- POPC: Writes the count of set bits of a. (R176) -/
  | popc (o : SR2)
  /-- BFX: Extracts a sign-extended bit field of a. (R177) -/
  | bfx (o : SR3)
  /-- BFXN: Extracts a zero-extended bit field of a. (R177) -/
  | bfxn (o : SR3)
  /-- BFI: Inserts the low bits of a into a field of the old destination. (R177) -/
  | bfi (o : SR3)
  /-- MUL: Writes the low 64 bits of a × b at latency 3. (R178) -/
  | mul (o : SR3)
  /-- MULH: Writes the high 64 bits of the signed product. (R178) -/
  | mulh (o : SR3)
  /-- MULHN: Writes the high 64 bits of the unsigned product. (R178) -/
  | mulhn (o : SR3)
  /-- FADD: Writes the rounded FP32 sum at latency 4. (R181) -/
  | fadd (o : SF3)
  /-- FSUB: Writes the rounded FP32 difference. (R181) -/
  | fsub (o : SF3)
  /-- FMUL: Writes the rounded FP32 product. (R181) -/
  | fmul (o : SF3)
  /-- FMA: Writes x × y + old d with one rounding. (R181) -/
  | fma (o : SF3)
  /-- FMIN: Writes the FP32 lesser, NaN-aware. (R182) -/
  | fmin (o : SR3)
  /-- FMAX: Writes the FP32 greater, NaN-aware. (R182) -/
  | fmax (o : SR3)
  /-- FABS: Clears the FP32 sign bit. (R182) -/
  | fabs (o : SR2)
  /-- FNEG: Inverts the FP32 sign bit. (R182) -/
  | fneg (o : SR2)
  /-- FEQ: Writes 1 if the FP32 operands are equal. (R182) -/
  | feq (o : SR3)
  /-- FLT: Writes 1 if x < y. (R182) -/
  | flt (o : SR3)
  /-- FLE: Writes 1 if x ≤ y. (R182) -/
  | fle (o : SR3)
  /-- FCVTI: Converts FP32 to a saturated signed 64-bit integer. (R183) -/
  | fcvti (o : SF2)
  /-- ICVTF: Converts a signed 64-bit integer to rounded FP32. (R183) -/
  | icvtf (o : SF2)
  /-- ADDI: Adds a sign-extended 14-bit immediate. (R179) -/
  | addi (o : SImm)
  /-- ANDI: ANDs with a sign-extended immediate. (R179) -/
  | andi (o : SImm)
  /-- ORI: ORs with a sign-extended immediate. (R179) -/
  | ori (o : SImm)
  /-- XORI: XORs with a sign-extended immediate. (R179) -/
  | xori (o : SImm)
  /-- SHLI: Shifts left by an immediate amount. (R179) -/
  | shli (o : SSh)
  /-- SHRI: Shifts right logically by an immediate amount. (R179) -/
  | shri (o : SSh)
  /-- SRAI: Shifts right arithmetically by an immediate amount. (R179) -/
  | srai (o : SSh)
  /-- SLTI: Writes 1 if a is below the immediate, signed. (R179) -/
  | slti (o : SImm)
  /-- SLTNI: Writes 1 if a is below the immediate, unsigned. (R179) -/
  | sltni (o : SImm)
  /-- LI: Loads a sign-extended 20-bit immediate. (R180) -/
  | li (o : SLong)
  /-- LIM: Places an immediate in bits [39:20] above the old low bits. (R180) -/
  | lim (o : SLong)
  /-- LIT: Places an immediate in bits [59:40] above the old low bits. (R180) -/
  | lit (o : SLong)
  /-- LD_L_I8: Loads a sign-extended byte from local scratchpad at latency 6. (R185) -/
  | ldLI8 (o : SImm)
  /-- LD_L_N8: Loads a zero-extended byte from local scratchpad. (R185) -/
  | ldLN8 (o : SImm)
  /-- LD_L_I16: Loads a sign-extended halfword from local scratchpad. (R185) -/
  | ldLI16 (o : SImm)
  /-- LD_L_N16: Loads a zero-extended halfword from local scratchpad. (R185) -/
  | ldLN16 (o : SImm)
  /-- LD_L_I32: Loads a sign-extended word from local scratchpad. (R185) -/
  | ldLI32 (o : SImm)
  /-- LD_L_N32: Loads a zero-extended word from local scratchpad. (R185) -/
  | ldLN32 (o : SImm)
  /-- LD_L_D: Loads a doubleword from local scratchpad. (R185) -/
  | ldLD (o : SImm)
  /-- ST_L_B: Stores a byte to local scratchpad at the end of the cycle. (R185) -/
  | stLB (o : SSt)
  /-- ST_L_H: Stores a halfword to local scratchpad. (R185) -/
  | stLH (o : SSt)
  /-- ST_L_W: Stores a word to local scratchpad. (R185) -/
  | stLW (o : SSt)
  /-- ST_L_D: Stores a doubleword to local scratchpad. (R185) -/
  | stLD (o : SSt)
  /-- LDG: Issues a global load that lands through a landing buffer, optionally acquiring or ordered by a token. (R338) -/
  | ldg (o : LdgOp)
  /-- STG: Issues a global store, optionally a release, optionally writing its LSU number as a token. (R338) -/
  | stg (o : StgOp)
  /-- AMO_ADD: Atomically adds to memory and returns the old value. (R341) -/
  | amoAdd (o : AmoOp)
  /-- AMO_AND: Atomically ANDs memory and returns the old value. (R341) -/
  | amoAnd (o : AmoOp)
  /-- AMO_OR: Atomically ORs memory and returns the old value. (R341) -/
  | amoOr (o : AmoOp)
  /-- AMO_XOR: Atomically XORs memory and returns the old value. (R341) -/
  | amoXor (o : AmoOp)
  /-- AMO_MIN: Atomically stores the signed lesser. (R341) -/
  | amoMin (o : AmoOp)
  /-- AMO_MAX: Atomically stores the signed greater. (R341) -/
  | amoMax (o : AmoOp)
  /-- AMO_MINN: Atomically stores the unsigned lesser. (R341) -/
  | amoMinn (o : AmoOp)
  /-- AMO_MAXN: Atomically stores the unsigned greater. (R341) -/
  | amoMaxn (o : AmoOp)
  /-- AMO_SWAP: Atomically swaps memory with the operand. (R341) -/
  | amoSwap (o : AmoOp)
  /-- AMO_FADD: Atomically adds an FP32 value to memory. (R341) -/
  | amoFadd (o : AmoOp)
  /-- AMOCAS: Atomically compares memory with the expected value and stores the new value if equal. (R342) -/
  | amocas (o : AmoOp)
  /-- FENCE: Full fence: holds its bundle until every earlier LSU operation completes. (R339) -/
  | fence (sc : Scope)
  /-- FENCE_REL: Release fence: orders later writes after earlier LSU accesses without waiting. (R339) -/
  | fenceRel (sc : Scope)
  /-- WAITTL: Holds its bundle until an engine's operations up to a number complete, acquiring them. (R340) -/
  | waittl (a : Src) (e : Engine)
  /-- BCZ: Branches if a register compares with zero under the condition. (R188) -/
  | bcz (cc : CondZ) (a : Src) (disp : BitVec 16)
  /-- BC: Branches if two registers compare under the condition. (R188) -/
  | bc (cc : CondB) (a b : Src) (disp : BitVec 11)
  /-- BP: Branches on a test of a predicate register. (R189) -/
  | bp (p : Fin 16) (t : PTest) (disp : BitVec 16)
  /-- JMP: Jumps by a displacement. (R190) -/
  | jmp (disp : BitVec 21)
  /-- BRL: Calls by displacement, writing the link and starting the prefetcher. (R190) -/
  | brl (d : Fin 32) (disp : BitVec 21)
  /-- JR: Jumps to a register address. (R190) -/
  | jr (a : Src)
  /-- JRL: Calls a register address, writing the link. (R190) -/
  | jrl (d : Fin 32) (a : Src)
  /-- LOOP: Sets a hardware loop level with a register count, skipping the body when zero. (R192) -/
  | loop (n : Fin 2) (a : Src) (disp : BitVec 11)
  /-- LOOPI: Sets a hardware loop level with an immediate count. (R192) -/
  | loopi (n : Fin 2) (cnt : BitVec 10) (disp : BitVec 14)
  /-- ENTER: Opens a frame, saving fp and link and moving sp. (R195) -/
  | enter (imm : BitVec 14)
  /-- LEAVE: Closes the frame, restoring link, fp and sp. (R196) -/
  | leave
  /-- CSRR: Reads a CSR. (R197) -/
  | csrr (d : Fin 32) (nw : Bool) (csr : BitVec 12)
  /-- CSRW: Writes a CSR and returns its old value. (R197) -/
  | csrw (o : CsrOp)
  /-- CSRS: Sets bits of a CSR and returns its old value. (R197) -/
  | csrs (o : CsrOp)
  /-- CSRC: Clears bits of a CSR and returns its old value. (R197) -/
  | csrc (o : CsrOp)
  /-- TRAP: Sets TVAL and raises software trap. (R201) -/
  | trap (a : Src)
  /-- SYSC: Sets TVAL and raises system call. (R201) -/
  | sysc (a : Src)
  /-- BRK: Raises breakpoint instruction. (R201) -/
  | brk
  /-- TRET: Restores state from the trap record, replays or drops a faulted engine record and resumes the bundle. (R367) -/
  | tret
  /-- ICLK: Locks consecutive instruction-cache lines and reports the count through a landing buffer. (R113) -/
  | iclk (d : Fin 32) (a b : Src)
  /-- IUNLK: Releases the unit's instruction-cache locks on a range or all. (R114) -/
  | iunlk (a b : Src)
  /-- YIELD: Declares the run to the next yield and lets the arbiter decide. (R202) -/
  | yield (n : BitVec 20)
  /-- SPAWN: Splits weight and starts an LSU record that reads a spawn descriptor. (R90) -/
  | spawn (d : Fin 32) (a b : Src)
  /-- EXIT: Ends the unit: no further bundle, later fixed-latency writes discarded, retirement begins. (R91) -/
  | exit
  /-- CANCEL_LAUNCH: Cancels the issuing unit's launch. (R92) -/
  | cancelLaunch (a : Src)
  /-- CANCEL_GRAPH: Cancels the issuing unit's graph. (R92) -/
  | cancelGraph (a : Src)
  /-- CANCEL_PHASE: Cancels the issuing unit's phase. (R92) -/
  | cancelPhase (a : Src)
  /-- CANCEL_JOB: Cancels the issuing unit's job. (R92) -/
  | cancelJob (a : Src)
  /-- BAR_CLU: Arrives at a cluster barrier and waits for the count. (R93) -/
  | barClu (n : Fin 32) (a : Src)
  /-- BAR_DIE: Arrives at a die barrier and waits for the count. (R93) -/
  | barDie (n : Fin 32) (a : Src)
  /-- BAR_DEV: Arrives at a device barrier and waits for the count. (R93) -/
  | barDev (n : Fin 32) (a : Src)
  /-- VADD: Element-wise integer add. (R209) -/
  | vadd (o : VInt)
  /-- VSUB: Element-wise integer subtract. (R209) -/
  | vsub (o : VInt)
  /-- VMUL: Element-wise integer multiply. (R209) -/
  | vmul (o : VInt)
  /-- VMAD: Element-wise integer multiply-add. (R209) -/
  | vmad (o : VMadOp)
  /-- VMULH: Element-wise high half of the product. (R209) -/
  | vmulh (o : VBin)
  /-- VMIN: Element-wise integer minimum. (R209) -/
  | vmin (o : VBin)
  /-- VMAX: Element-wise integer maximum. (R209) -/
  | vmax (o : VBin)
  /-- VABS: Element-wise absolute value. (R209) -/
  | vabs (o : VUnSat)
  /-- VNEG: Element-wise negation. (R209) -/
  | vneg (o : VUnSat)
  /-- VAND: Bitwise AND. (R209) -/
  | vand (o : VBin)
  /-- VOR: Bitwise OR. (R209) -/
  | vor (o : VBin)
  /-- VXOR: Bitwise XOR. (R209) -/
  | vxor (o : VBin)
  /-- VSHL: Element-wise shift left. (R209) -/
  | vshl (o : VBin)
  /-- VSHR: Element-wise logical shift right. (R209) -/
  | vshr (o : VBin)
  /-- VSRA: Element-wise arithmetic shift right. (R209) -/
  | vsra (o : VBin)
  /-- VFADD: Element-wise floating add. (R210) -/
  | vfadd (o : VFlt)
  /-- VFSUB: Element-wise floating subtract. (R210) -/
  | vfsub (o : VFlt)
  /-- VFMUL: Element-wise floating multiply. (R210) -/
  | vfmul (o : VFlt)
  /-- VFMA: Element-wise fused multiply-add. (R210) -/
  | vfma (o : VFmaOp)
  /-- VFMIN: Element-wise floating minimum. (R210) -/
  | vfmin (o : VBin)
  /-- VFMAX: Element-wise floating maximum. (R210) -/
  | vfmax (o : VBin)
  /-- VFABS: Element-wise floating absolute value. (R210) -/
  | vfabs (o : VUn)
  /-- VFNEG: Element-wise floating negation. (R210) -/
  | vfneg (o : VUn)
  /-- VCMP: Integer compare into a predicate. (R211) -/
  | vcmp (o : VCmpOp)
  /-- VFCMP: Floating compare into a predicate. (R211) -/
  | vfcmp (o : VCmpOp)
  /-- VSEL: Selects elements by predicate. (R212) -/
  | vsel (o : VTri)
  /-- VBCST: Broadcasts a scalar to every element. (R212) -/
  | vbcst (o : VUn)
  /-- VINS: Inserts a scalar into one element. (R212) -/
  | vins (o : VTwo)
  /-- VEXT: Extracts one element to a scalar. (R212) -/
  | vext (o : VTwo)
  /-- VMOV: Copies a vector register. (R212) -/
  | vmov (o : VUn)
  /-- VLD: Loads 256 bytes of local scratchpad at latency 8. (R213) -/
  | vld (o : VLoc)
  /-- VST: Stores enabled elements to local scratchpad. (R213) -/
  | vst (d : Fin 32) (a : Src) (imm : BitVec 12) (pg : Fin 16) (ty : Ty)
  /-- VLDS: Strided local vector load. (R214) -/
  | vlds (o : VTwo)
  /-- VGATH: Indexed local gather. (R215) -/
  | vgath (o : VTwo)
  /-- VSCAT: Indexed local scatter. (R215) -/
  | vscat (d : Fin 32) (a b : Src) (pg : Fin 16) (ty : Ty)
  /-- VLDG: Global vector load decoding the page format and block scales into a landing buffer. (R217) -/
  | vldg (o : VGlob)
  /-- VSTG: Global vector store encoding into the page format. (R218) -/
  | vstg (o : VGlob)
  /-- VRSUM: Exact horizontal sum to a scalar at latency 6. (R220) -/
  | vrsum (o : VRed)
  /-- VRMAX: Horizontal maximum to a scalar. (R220) -/
  | vrmax (o : VUn)
  /-- VRMIN: Horizontal minimum to a scalar. (R220) -/
  | vrmin (o : VUn)
  /-- VRMRS: Rescaled sum of valid contributors with a validity predicate. (R221) -/
  | vrmrs (o : VRmrsOp)
  /-- VCPUSH: Compacts enabled elements into a queue's partial record, closing slots as they fill. (R222) -/
  | vcpush (o : VPushOp)
  /-- VCPOP: Expands one queue record into enabled elements, optionally popping. (R223) -/
  | vcpop (o : VPopOp)
  /-- PAND: Predicate AND under the guard. (R225) -/
  | pand (o : PBin)
  /-- POR: Predicate OR under the guard. (R225) -/
  | por (o : PBin)
  /-- PXOR: Predicate XOR under the guard. (R225) -/
  | pxor (o : PBin)
  /-- PANDN: Predicate AND NOT under the guard. (R225) -/
  | pandn (o : PBin)
  /-- PNOT: Predicate NOT under the guard. (R225) -/
  | pnot (o : PUn)
  /-- PMOV: Predicate copy under the guard. (R225) -/
  | pmov (o : PUn)
  /-- PCNT: Counts set elements into a scalar. (R226) -/
  | pcnt (o : VUn)
  /-- PFIRST: Keeps the lowest set element. (R226) -/
  | pfirst (o : PElt)
  /-- PSETN: Sets the first m elements. (R226) -/
  | psetn (o : PElt)
  /-- PPACK: Packs eight predicates into a vector. (R227) -/
  | ppack (d : Fin 32) (nw : Bool) (f : Fin 9)
  /-- PUNPK: Unpacks a vector into eight predicates. (R227) -/
  | punpk (f : Fin 9) (a : Src)
  /-- EXP2: Correctly rounded 2^x at latency 12. (R230) -/
  | exp2 (o : VUn)
  /-- LOG2: Correctly rounded log2 x. (R230) -/
  | log2 (o : VUn)
  /-- RCP: Correctly rounded reciprocal. (R230) -/
  | rcp (o : VUn)
  /-- RSQRT: Correctly rounded reciprocal square root. (R230) -/
  | rsqrt (o : VUn)
  /-- SQRT: Correctly rounded square root at latency 20. (R232) -/
  | sqrt (o : XSqrt)
  /-- DIV: Correctly rounded floating division. (R232) -/
  | div (o : XDiv)
  /-- TANH: Correctly rounded tanh. (R230) -/
  | tanh (o : VUn)
  /-- SIGM: Correctly rounded logistic sigmoid. (R230) -/
  | sigm (o : VUn)
  /-- DIVS: Signed integer quotient per element. (R233) -/
  | divs (o : XIDiv)
  /-- REMS: Signed integer remainder per element. (R233) -/
  | rems (o : XIDiv)
  /-- DIVN: Unsigned integer quotient per element. (R233) -/
  | divn (o : XIDiv)
  /-- REMN: Unsigned integer remainder per element. (R233) -/
  | remn (o : XIDiv)
  /-- MAXEXP: Computes block scales into a register and the scale latch. (R235) -/
  | maxexp (o : XMaxexp)
  /-- CVTQ: Quantises elements by the scale latch into the target format. (R236) -/
  | cvtq (o : VRed)
  /-- CVT: Converts elements between formats of equal or double width. (R237) -/
  | cvt (o : XCvt)
  /-- CVTW: Widening conversion by 4 or 8. (R237) -/
  | cvtw (o : XCvt)
  /-- CVTN: Narrowing conversion by 4 or 8. (R237) -/
  | cvtn (o : XCvt)
  /-- CBLD: Loads a core codebook slot. (R239) -/
  | cbld (cb : Fin 8) (a : Src)
  /-- CBDEC: Decodes l8 indices with a codebook slot. (R240) -/
  | cbdec (o : XCbdec)
  /-- SHUF: Shuffles bytes by an active pattern entry. (R245) -/
  | shuf (o : XShuf)
  /-- PATLD: Writes an entry of the inactive pattern bank. (R243) -/
  | patld (entry : Fin 64) (a b : Src)
  /-- PATSW: Exchanges the active and inactive pattern banks. (R244) -/
  | patsw
  /-- VIDX: Builds an arithmetic index vector. (R246) -/
  | vidx (o : VTwo)
  /-- TCFG: Serialises the matrix stream, writes the tile word and clears the accumulators. (R259) -/
  | tcfg (t : TileWord)
  /-- MMA: Multiplies A by B transposed into an accumulator. (R260) -/
  | mma (o : MmaOp)
  /-- PMMA: Pairs a K-split product with the partner core as owner or partner. (R264) -/
  | pmma (o : PmmaOp)
  /-- ACCZ: Zeroes the masked accumulators. (R266) -/
  | accz (mask : BitVec 4)
  /-- ACCRD: Converts an accumulator and appends it as one queue slot. (R267) -/
  | accrd (o : AccrdOp)
  /-- ACCRV: Copies 64 accumulator elements to a vector register through a landing buffer. (R268) -/
  | accrv (o : AccrvOp)
  /-- ACCWR: Writes a queue slot into an accumulator. (R269) -/
  | accwr (o : AccwrOp)
  /-- ACCSAVE: Stores an accumulator image to scratchpad. (R270) -/
  | accsave (o : AccsaveOp)
  /-- ACCREST: Loads an accumulator image and/or the tile word. (R270) -/
  | accrest (o : AccrestOp)
  /-- LEASE: Requests the matrix lease, granted at once if free. (R255) -/
  | lease
  /-- UNLEASE: Gives up or withdraws the lease. (R271) -/
  | unlease
  /-- QCFG: Configures a queue and resets its counters. (R168) -/
  | qcfg (o : QcfgOp)
  /-- QPOP: Pops n slots of a queue. (R169) -/
  | qpop (q : Fin 16) (n : BitVec 8)
  /-- QRD: Reads one row of a queue slot into a vector register. (R170) -/
  | qrd (o : QrdOp)
  /-- QWR: Writes one row of the open slot, opening or closing it. (R171) -/
  | qwr (o : QwrOp)
  /-- QSPL: Sends a splice request for a queue to a target queue. (R172) -/
  | qspl (q : Fin 16) (a : Src)
  /-- QUNS: Ends an outgoing splice for later appends. (R172) -/
  | quns (q : Fin 16)
  /-- QSAVE: Stores a queue image to scratchpad. (R173) -/
  | qsave (o : QMemOp)
  /-- QREST: Loads a queue image from scratchpad. (R173) -/
  | qrest (o : QMemOp)
  /-- QSTAT: Stores a queue status word. (R174) -/
  | qstat (o : QMemOp)
  /-- CPLD: Copies a global tile with its scales into a queue slot. (R302) -/
  | cpld (o : CpldOp)
  /-- CPST: Stores a queue slot to global memory with its scales. (R303) -/
  | cpst (o : CpstOp)
  /-- CPLL: Copies local or cluster scratchpad rows into a queue slot. (R303) -/
  | cpll (o : CpllOp)
  /-- CPGA: Gathers global rows by an index list into a queue slot. (R301) -/
  | cpga (o : CpgaOp)
  /-- CPMEM: Copies raw bytes in bulk between spaces. (R304) -/
  | cpmem (o : CpmemOp)
  /-- TLOOK: Looks up a key in the tag table. (R298) -/
  | tlook (d : Fin 32) (a : Src)
  /-- TINS: Inserts a key at a tag-table entry. (R298) -/
  | tins (a b : Src)
  /-- TINV: Invalidates a tag-table entry by key or index. (R298) -/
  | tinv (a : Src) (idx : Bool)
  /-- SDRV: Drives a word onto a row stream. (R310) -/
  | sdrv (w : Bool) (str : Fin 8) (b : Src)
  /-- STAP: Taps a row stream word into a vector register. (R310) -/
  | stap (w : Bool) (str : Fin 8) (d : Fin 32)
  /-- STAPQ: Taps a row stream word into a new queue slot. (R310) -/
  | stapq (w : Bool) (str : Fin 8) (q : Fin 16) (tag : BitVec 6)
  /-- DPATCH: Applies a table of patch entries to integrator selectors. (R287) -/
  | dpatch (o : DpatchOp)
  /-- DCLK: Sets the divisors of named step-clock domains. (R288) -/
  | dclk (mask : BitVec 4) (a : Src)
  /-- DSET: Writes one field of one integrator cell. (R289) -/
  | dset (o : DsetOp)
  /-- DINJ: Adds credits to the 64 external lanes. (R290) -/
  | dinj (b : Src)
  /-- DSTEP: Adds step budgets to named domains. (R291) -/
  | dstep (mask : BitVec 4) (a : Src)
  /-- DREAD: Writes one field of 64 cells to scratchpad. (R292) -/
  | dread (o : DreadOp)
  /-- DCNT: Appends the counts of cells as one queue slot. (R293) -/
  | dcnt (o : DcntOp)
  /-- DSAVE: Writes the integrator image, optionally releasing the array. (R294) -/
  | dsave (a : Src) (imm : BitVec 13) (rel : Bool)
  /-- DLOAD: Loads an integrator image with budgets set to zero. (R294) -/
  | dload (a : Src) (imm : BitVec 13)
  /-- COLL: Submits a collective record to the die's Halyard. (R355) -/
  | coll (a b : Src)
  /-- CQRY: Writes the status of a collective operation. (R356) -/
  | cqry (a : Src) (imm : BitVec 13) (b : Src)
  /-- FIXED_LATENCY_LAND: A fixed-latency result lands in its register and latch, with its flags, when its count of context cycles has passed. (R32) -/
  | fixedLatencyLand (c k : Nat)
  /-- SPAWN_COMPLETE: The descriptor read finishes and the child is created, refused for capacity or faulted. (R90) -/
  | spawnComplete (u n : Nat)
  /-- MAT_COMMAND_START: A matrix command starts in the engine once its stream, accumulator, presence and ports allow. (R414) -/
  | matCommandStart (c st : Nat)
  /-- MAT_COMMAND_DONE: A matrix command's effect is done and its MAT number completes with its flags. (R252) -/
  | matCommandDone (c id : Nat)
  /-- REMOTE_SLICE_SERVE: The owning core serves remote operand slice requests by multicast at a 16-cycle boundary. (R263) -/
  | remoteSliceServe (c : Nat)
  /-- PAIR_PARTIAL_ARRIVE: The partner's partial tile arrives and the owner commits the pair. (R264) -/
  | pairPartialArrive (u idx : Nat) (rows cols : Nat) (isInt : Bool) (tile : List (BitVec 32))
  /-- PAIR_COMMIT_ARRIVE: The owner's commit reaches the partner and its number completes. (R264) -/
  | pairCommitArrive (u idx : Nat)
  /-- PAIR_TIMEOUT: PAIRWIN expires on either side and both abort with pair timeout. (R265) -/
  | pairTimeout (u idx : Nat)
  /-- SPLICE_REQUEST_ARRIVE: A splice request reaches the target core and is judged, accepted or refused. (R161) -/
  | spliceRequestArrive (snd : QEnd) (target : Word) (slotsz : BitVec 8)
  /-- SPLICE_ANSWER_ARRIVE: The answer reaches the sender, setting SPO with STAIL and SFREE or a refusal reason. (R161) -/
  | spliceAnswerArrive (snd : QEnd) (tgt : Option QEnd) (reason : BitVec 3) (log2n : BitVec 4) (tail free : BitVec 16)
  /-- SPLICE_HEADER_ARRIVE: A splice header arrives and the target's TAIL advances. (R162) -/
  | spliceHeaderArrive (tgt : QEnd) (ctr : BitVec 16)
  /-- SPLICE_ROW_ARRIVE: A splice row is written at the target, setting tag and presence when the slot completes. (R162) -/
  | spliceRowArrive (m : SpliceRow)
  /-- HEAD_REPORT_ARRIVE: A head report reaches the sender and updates SFREE. (R162) -/
  | headReportArrive (snd : QEnd) (free : BitVec 16)
  /-- DELIVERY_ACK_ARRIVE: A delivery acknowledgement lowers the unit's delivery count. (R164) -/
  | deliveryAckArrive (u : Nat)
  /-- SPLICE_END_MARKER_ARRIVE: The end marker reaches the target, which clears SPI. (R165) -/
  | spliceEndMarkerArrive (tgt : QEnd)
  /-- SPLICE_TARGET_END: The end of a splice by target retirement reaches the sender, clearing SPO and setting REF 7. (R164) -/
  | spliceTargetEnd (snd tgt : QEnd)
  /-- COPY_COMMAND_START: The copy engine starts the next accepted command, one per cycle. (R299) -/
  | copyCommandStart (c : Nat)
  /-- COPY_COMMAND_DONE: A copy completes by presence or performed stores and its CPY number completes. (R305) -/
  | copyCommandDone (u n : Nat)
  /-- DDA_COMMAND_EXECUTE: The array executes the next accepted DDA command after that cycle's steps. (R284) -/
  | ddaCommandExecute (c : Nat)
  /-- DDA_DOMAIN_STEP: A due domain with budget steps its active cells and lanes and publishes increments. (R276) -/
  | ddaDomainStep (c : Nat)
  /-- COLL_RECORD_START: A record starts when a staging share is free, reading and checking its record. (R343) -/
  | collRecordStart (die : Nat)
  /-- COLL_REQUEST_ARRIVE: A pull request reaches a serving Halyard and is served, held or not served. (R347) -/
  | collRequestArrive (r : CollReq)
  /-- COLL_BLOCK_ARRIVE: A 128-byte block arrives, is checked, retransmitted or delivered and combined. (R346) -/
  | collBlockArrive (b : CollBlock)
  /-- COLL_DONE_ARRIVE: A peer's done arrives and the record completes when all are in. (R349) -/
  | collDoneArrive (die : Nat) (key : CollKey) (rank : Nat)
  /-- COLL_DEADLINE: DEADLINE passes: lossy blocks deliver invalid zeros, exact records fault. (R350) -/
  | collDeadline (die rid : Nat)
  /-- LANDING_BUFFER_WRITE: A landing buffer writes its register whole, clears the pending mark and frees the entry. (R145) -/
  | landingBufferWrite (u id : Nat)
  /-- STORE_PERFORM_AT_HOME: A global store is performed at its home and its LSU number completes. (R315) -/
  | storePerformAtHome (u n : Nat)
  /-- LSU_ACCESS_START: The LSU takes a queued operation, translates it and checks watchpoints. (R338) -/
  | lsuAccessStart (u n : Nat)
  /-- TLB_WALK_DONE: A page walk ends, installing translations, faulting or sending a page request. (R72) -/
  | tlbWalkDone (die id : Nat)
  /-- PAGE_REQUEST_RESPONSE: A response arrives: success walks again and replays, failure faults. (R73) -/
  | pageRequestResponse (asid page : Nat) (right : Right) (ans : PrAnswer)
  /-- PAGE_REQUEST_TIMEOUT: PRQTO expires and every waiting operation faults with page request timeout. (R74) -/
  | pageRequestTimeout (asid page : Nat) (right : Right)
  /-- ATS_INVALIDATE: An ATS invalidate drops matching translations and completes once stale accesses are done. (R76) -/
  | atsInvalidate (pasid : BitVec 20) (va : Word) (bytes : Word)
  /-- IFETCH_FILL: An instruction-cache miss fills its sectors through L2 and the waiting bundle may issue. (R110) -/
  | ifetchFill (c k : Nat)
  /-- ASYNC_TRAP: A pending engine fault is taken as an asynchronous trap before the unit's next bundle. (R364) -/
  | asyncTrap (c k : Nat)
  /-- DOMAIN_FREEZE: A failed presence lookahead freezes the whole timing domain from the due cycle. (R148) -/
  | domainFreeze (l : Nat)
  /-- DOMAIN_RESUME: All blocked static contexts pass and the domain resumes four cycles later. (R148) -/
  | domainResume (l : Nat)
  /-- SLICE_EXPIRY: The slice count reaches zero, making a switch pending or reloading the slice. (R375) -/
  | sliceExpiry (c k : Nat)
  /-- YIELD_OVERRUN: The run since the last YIELD exceeds n plus YTOL, writing an event and maybe making a switch pending. (R375) -/
  | yieldOverrun (c k : Nat)
  /-- DRAIN_SAVE: A completed drain saves the outgoing unit and makes the picked unit resident. (R378) -/
  | drainSave (c k : Nat)
  /-- FORCED_SAVE: DPMAX passes without a drain and the device saves the unit with pending-write records. (R379) -/
  | forcedSave (c k : Nat)
  /-- UNIT_RESTORE: After the save completes, the incoming unit is restored and its first bundle issues. (R384) -/
  | unitRestore (c k : Nat)
  /-- BANK_RETENTION: An idle bank enters retention after 4,096 idle core cycles. (R109) -/
  | bankRetention (c k : Nat)
  /-- BANK_ROUSE_DONE: A retained bank finishes rousing after 16 cycles and its context becomes eligible. (R154) -/
  | bankRouseDone (c k : Nat)
  /-- BANK_WAKE: A powered-off bank wakes cleared after 64 core cycles. (R109) -/
  | bankWake (c k : Nat)
  /-- UNIT_RETIRE: After the drain waits, the unit's counts, weight and resources are returned and it retires. (R385) -/
  | unitRetire (u : Nat)
  /-- RUN_QUEUE_ENTRY_TAKEN: An empty reserved context takes at once the first unit that enters a run queue. (R404) -/
  | runQueueEntryTaken (c k : Nat)
  /-- CQTAIL: A host write of CQTAIL makes new commands available for consumption. (R79) -/
  | cqtail (port : Fin 2) (v : Word)
  /-- CPLHEAD: A host write of CPLHEAD frees completion entries so held completions and commands proceed. (R79) -/
  | cplhead (port : Fin 2) (v : Word)
  /-- MALFORMED_COMMAND: A command with an unlisted CMD or non-zero reserved byte completes with STATUS 1. (R80) -/
  | malformedCommand (port : Fin 2) (tag : BitVec 16)
  /-- SUBMIT: Starts a job on a die's graph walker. (R81) -/
  | submit (port : Fin 2) (tag : BitVec 16) (asid : BitVec 11) (job : Word) (die : Fin 4)
  /-- CANCEL: Host cancel of the level whose counter lies at the given VA. (R94) -/
  | cancel (port : Fin 2) (tag : BitVec 16) (asid : BitVec 11) (level : Level) (va : Word) (reason : BitVec 16)
  /-- ASIDINV: Drops the cached ASID entry and its translations. (R80) -/
  | asidinv (port : Fin 2) (tag : BitVec 16) (asid : BitVec 11)
  /-- TLBINV: Drops translations of an address range. (R76) -/
  | tlbinv (port : Fin 2) (tag : BitVec 16) (asid : BitVec 11) (va bytes : Word)
  /-- GANGARM: Arms a gang member, reserving its first phase's contexts. (R96) -/
  | gangarm (port : Fin 2) (tag : BitVec 16) (rec : Word) (asid : BitVec 11) (die : Fin 4)
  /-- GANGGO: Starts an armed gang member. (R96) -/
  | ganggo (port : Fin 2) (tag : BitVec 16) (gang : Word)
  /-- GANGABORT: Disarms a member that has not gone, cancelling its job. (R96) -/
  | gangabort (port : Fin 2) (tag : BitVec 16) (gang : Word)
  /-- KEYLD: Loads a memory-encryption key slot after writing back its L2 sectors. (R409) -/
  | keyld (port : Fin 2) (tag : BitVec 16) (key : BitVec 7) (pa : Word)
  /-- KEYCLR: Zeroes a key slot after writing back its L2 sectors. (R409) -/
  | keyclr (port : Fin 2) (tag : BitVec 16) (key : BitVec 7)
  /-- GANG_ARM_TIMEOUT: An armed member receives no GANGGO within GANGTO and aborts. (R96) -/
  | gangArmTimeout (gang : Word)
  /-- GANG_WAIT_TIMEOUT: A cross-device wait exceeds GANGTO, cancelling the job and sending gang cancels. (R97) -/
  | gangWaitTimeout (gang : Word)
  /-- GANG_CANCEL_RECEIVE: A gang cancel arrives over a link and the member cancels its job. (R97) -/
  | gangCancelReceive (gang : Word) (cause : BitVec 16)
  /-- LAUNCH: The walker loads, checks and reserves a launch from a LAUNCH node. (R86) -/
  | launch (j : Nat) (n : LaunchNode)
  /-- LAUNCH_PLACE: A waiting launch obtains its contexts and unit-table entries and places its units. (R101) -/
  | launchPlace (l : Nat)
  /-- PLACE_TIMEOUT: A launch waits beyond PLACETO and is refused with DETAIL 4. (R101) -/
  | placeTimeout (l : Nat)
  /-- CORE_CLEAR: A core passing to another protection domain is cleared in 3,072 cycles. (R102) -/
  | coreClear (c : Nat)
  /-- COPY: The walker starts a raw copy from a COPY node. (R83) -/
  | copyNode (j : Nat) (n : CopyNode)
  /-- COND: The walker reads a condition word and chooses the next node. (R82) -/
  | condNode (j : Nat) (n : CondNode)
  /-- WHILE: The walker reads the condition and runs a body pass or stores the count and leaves. (R85) -/
  | whileNode (j : Nat) (n : WhileNode)
  /-- WHILE_PASS_END: After a body pass's launches complete, one iteration is counted and the condition re-read. (R85) -/
  | whilePassEnd (j : Nat)
  /-- SIGNAL: Stores or atomically adds a value as a release. (R82) -/
  | signal (j : Nat) (n : SignalNode)
  /-- WAIT: The walker starts waiting on a watched word. (R84) -/
  | waitNode (j : Nat) (n : WaitNode)
  /-- WAIT_POLL: The walker re-reads the watched word and proceeds when the test holds. (R84) -/
  | waitPoll (j : Nat)
  /-- WAIT_TIMEOUT: A WAIT's timeout passes and the graph faults, cancelling the job. (R84) -/
  | waitTimeout (j : Nat)
  /-- PHASEEND: Ends the current phase once its work completes. (R83) -/
  | phaseend (j : Nat) (h : NodeHdr)
  /-- HOSTIRQ: Sends an MSI-X message after earlier writes are visible. (R82) -/
  | hostirq (j : Nat) (h : NodeHdr) (vec : BitVec 11)
  /-- GRAPH_END: After every launch and copy of the graph ends, the graph counter is written and the next graph or phase begins. (R83) -/
  | graphEnd (j : Nat)
  /-- HBMWIN: A write sets, clears or is ignored according to the window's EN. (R69) -/
  | hbmwin (port : Fin 2) (v : Word)
  /-- DDRWIN: A write sets, clears or is ignored according to the window's EN. (R69) -/
  | ddrwin (port : Fin 2) (v : Word)
  /-- HSEM_ACQ: Grants the semaphore to the writing port if free. (R408) -/
  | hsemAcq (port : Fin 2)
  /-- HSEM_REL: Releases the semaphore if the writing port holds it. (R408) -/
  | hsemRel (port : Fin 2)
  /-- REGISTER_WRITE: A host write of a device register without its own row, discarded if the semaphore is needed and not held. (R408) -/
  | registerWrite (port : Fin 2) (r : DevReg) (v : Word)
  /-- MAINT_MODE_CHANGE: A changed MAINT bit takes effect once no launch reserves the core. (R49) -/
  | maintModeChange (c : Nat)
  /-- TTCTL: A write sets trace classes, clearing LOST when EN goes from 0 to 1. (R388) -/
  | ttctl (port : Fin 2) (die : Fin 4) (v : Word)
  /-- TTBUF: A write sets the trace ring, ignored while tracing is enabled. (R387) -/
  | ttbuf (port : Fin 2) (die : Fin 4) (v : Word)
  /-- TTDUMP: A write of GO requests a dump of a context. (R397) -/
  | ttdump (port : Fin 2) (die : Fin 4) (v : Word)
  /-- DUMP_RECORD: At the context's next bundle boundary Telltale writes the dump record and clears GO. (R397) -/
  | dumpRecord (die : Nat)
  /-- ERRLOG: A read removes and returns the oldest error log entry. (R411) -/
  | errlog (port : Fin 2)
  /-- HDM_COMMIT: A CXL HDM decoder commit enables a window from the semaphore holder or fails. (R407) -/
  | hdmCommit (port : Fin 2) (dec : Fin 2) (base : BitVec 22)
  /-- HOST_SNOOP: A host snoop of a host-memory line acts on the containing sector in every holding die. (R313) -/
  | hostSnoop (pa : Nat) (inv : Bool)
  /-- HOST_HDM_READ: The host reads a device-homed line through HDM and its HOST bit sets. (R313) -/
  | hostHdmRead (port : Fin 2) (pa : Nat)
  /-- L2_LINE_REQUEST: A home serves a read or ownership request, recalling and invalidating holders and back-invalidating the host. (R312) -/
  | l2LineRequest (die pa : Nat) (own : Bool)
  /-- ERROR_EVENT: A corrected or uncorrectable error is counted against its resource. (R373) -/
  | errorEvent (e : ErrorInfo)
  /-- FAULT_WINDOW_RESET: Every error counter returns to zero when CYCLE is a multiple of FLTWIN. (R373) -/
  | faultWindowReset
  /-- POWER_CHECK: Every millisecond the device compares power and temperature and lowers or raises the clock. (R412) -/
  | powerCheck
  /-- FUNCTION_READY: A function finishes training and self-test and sets its READY bit. (R410) -/
  | functionReady (f : Func)
  /-- DEVICE_RESET: Device reset clears every core, powers off every bank and resets registers. (R102) -/
  | deviceReset
  /-- PORT_RESET: A link-down, hot reset or function-level reset of a port loses its semaphore. (R408) -/
  | portReset (port : Fin 2)
  /-- ROW_STREAM_SHIFT: At the end of every non-freeze core cycle every row-stream word moves one position in its direction, leaving the stream at the edge column. (R308) -/
  | rowStreamShift (die row : Nat)
  /-- PAIR_ABORT_ARRIVE: An abort sent by one side of a PMMA pair after an engine fault reaches the other side, which aborts with pair abort. (R265) -/
  | pairAbortArrive (u idx : Nat)
  /-- COPY_NODE_COMPLETE: A graph COPY node's raw copy through L2 finishes and its counter takes STATE 2 with COUNT 2^63, which may end a WC=1 wait or a graph end. (R83) -/
  | copyNodeComplete (j id : Nat)
deriving DecidableEq, Repr

/-- What can be due at a core cycle or arrive from outside the slots of a bundle: the rows of spec/opcode_table.json that
are no slot operations, with the same arguments. `Event.instr` (Sys2Proof/Laws) names the instruction that each stands for. -/
inductive Event where
  | fixedLatencyLand (c k : Nat)
  | spawnComplete (u n : Nat)
  | matCommandStart (c st : Nat)
  | matCommandDone (c id : Nat)
  | remoteSliceServe (c : Nat)
  | pairPartialArrive (u idx : Nat) (rows cols : Nat) (isInt : Bool) (tile : List (BitVec 32))
  | pairCommitArrive (u idx : Nat)
  | pairTimeout (u idx : Nat)
  | spliceRequestArrive (snd : QEnd) (target : Word) (slotsz : BitVec 8)
  | spliceAnswerArrive (snd : QEnd) (tgt : Option QEnd) (reason : BitVec 3) (log2n : BitVec 4) (tail free : BitVec 16)
  | spliceHeaderArrive (tgt : QEnd) (ctr : BitVec 16)
  | spliceRowArrive (m : SpliceRow)
  | headReportArrive (snd : QEnd) (free : BitVec 16)
  | deliveryAckArrive (u : Nat)
  | spliceEndMarkerArrive (tgt : QEnd)
  | spliceTargetEnd (snd tgt : QEnd)
  | copyCommandStart (c : Nat)
  | copyCommandDone (u n : Nat)
  | ddaCommandExecute (c : Nat)
  | ddaDomainStep (c : Nat)
  | collRecordStart (die : Nat)
  | collRequestArrive (r : CollReq)
  | collBlockArrive (b : CollBlock)
  | collDoneArrive (die : Nat) (key : CollKey) (rank : Nat)
  | collDeadline (die rid : Nat)
  | landingBufferWrite (u id : Nat)
  | storePerformAtHome (u n : Nat)
  | lsuAccessStart (u n : Nat)
  | tlbWalkDone (die id : Nat)
  | pageRequestResponse (asid page : Nat) (right : Right) (ans : PrAnswer)
  | pageRequestTimeout (asid page : Nat) (right : Right)
  | atsInvalidate (pasid : BitVec 20) (va : Word) (bytes : Word)
  | ifetchFill (c k : Nat)
  | asyncTrap (c k : Nat)
  | domainFreeze (l : Nat)
  | domainResume (l : Nat)
  | sliceExpiry (c k : Nat)
  | yieldOverrun (c k : Nat)
  | drainSave (c k : Nat)
  | forcedSave (c k : Nat)
  | unitRestore (c k : Nat)
  | bankRetention (c k : Nat)
  | bankRouseDone (c k : Nat)
  | bankWake (c k : Nat)
  | unitRetire (u : Nat)
  | runQueueEntryTaken (c k : Nat)
  | cqtail (port : Fin 2) (v : Word)
  | cplhead (port : Fin 2) (v : Word)
  | malformedCommand (port : Fin 2) (tag : BitVec 16)
  | submit (port : Fin 2) (tag : BitVec 16) (asid : BitVec 11) (job : Word) (die : Fin 4)
  | cancel (port : Fin 2) (tag : BitVec 16) (asid : BitVec 11) (level : Level) (va : Word) (reason : BitVec 16)
  | asidinv (port : Fin 2) (tag : BitVec 16) (asid : BitVec 11)
  | tlbinv (port : Fin 2) (tag : BitVec 16) (asid : BitVec 11) (va bytes : Word)
  | gangarm (port : Fin 2) (tag : BitVec 16) (rec : Word) (asid : BitVec 11) (die : Fin 4)
  | ganggo (port : Fin 2) (tag : BitVec 16) (gang : Word)
  | gangabort (port : Fin 2) (tag : BitVec 16) (gang : Word)
  | keyld (port : Fin 2) (tag : BitVec 16) (key : BitVec 7) (pa : Word)
  | keyclr (port : Fin 2) (tag : BitVec 16) (key : BitVec 7)
  | gangArmTimeout (gang : Word)
  | gangWaitTimeout (gang : Word)
  | gangCancelReceive (gang : Word) (cause : BitVec 16)
  | launch (j : Nat) (n : LaunchNode)
  | launchPlace (l : Nat)
  | placeTimeout (l : Nat)
  | coreClear (c : Nat)
  | copyNode (j : Nat) (n : CopyNode)
  | condNode (j : Nat) (n : CondNode)
  | whileNode (j : Nat) (n : WhileNode)
  | whilePassEnd (j : Nat)
  | signal (j : Nat) (n : SignalNode)
  | waitNode (j : Nat) (n : WaitNode)
  | waitPoll (j : Nat)
  | waitTimeout (j : Nat)
  | phaseend (j : Nat) (h : NodeHdr)
  | hostirq (j : Nat) (h : NodeHdr) (vec : BitVec 11)
  | graphEnd (j : Nat)
  | hbmwin (port : Fin 2) (v : Word)
  | ddrwin (port : Fin 2) (v : Word)
  | hsemAcq (port : Fin 2)
  | hsemRel (port : Fin 2)
  | registerWrite (port : Fin 2) (r : DevReg) (v : Word)
  | maintModeChange (c : Nat)
  | ttctl (port : Fin 2) (die : Fin 4) (v : Word)
  | ttbuf (port : Fin 2) (die : Fin 4) (v : Word)
  | ttdump (port : Fin 2) (die : Fin 4) (v : Word)
  | dumpRecord (die : Nat)
  | errlog (port : Fin 2)
  | hdmCommit (port : Fin 2) (dec : Fin 2) (base : BitVec 22)
  | hostSnoop (pa : Nat) (inv : Bool)
  | hostHdmRead (port : Fin 2) (pa : Nat)
  | l2LineRequest (die pa : Nat) (own : Bool)
  | errorEvent (e : ErrorInfo)
  | faultWindowReset
  | powerCheck
  | functionReady (f : Func)
  | deviceReset
  | portReset (port : Fin 2)
  | rowStreamShift (die row : Nat)
  | pairAbortArrive (u idx : Nat)
  | copyNodeComplete (j id : Nat)
deriving DecidableEq, Repr

end Sys2Proof
end

