-- ==== Sys2Proof/WellFormed.lean ====
section
/-! DEFINITION. Which instructions are well formed: the limits of the encoding tables that the operand types do not carry
(R128, R157, R167, R208, R229, R258, R286, R337). A syllable whose instruction breaks one is illegal for its slot. -/
namespace Sys2Proof

/-- Width of an element in half bytes (R206). -/
def Ty.nibbles : Ty → Nat
  | .e2m1 => 1
  | .i8 | .n8 | .e4m3 | .e5m2 => 2
  | .i16 | .n16 | .f16 | .bf16 | .l8 => 4
  | .i32 | .n32 | .f32 => 8

/-- Codes 0 to 5: the integer types. -/
def Ty.isInt : Ty → Bool
  | .i8 | .i16 | .i32 | .n8 | .n16 | .n32 => true
  | _ => false

/-- Codes 0 to 2: the signed integer types. -/
def Ty.isSigned : Ty → Bool
  | .i8 | .i16 | .i32 => true
  | _ => false

/-- Codes 6 to 8: f16, bf16, f32. -/
def Ty.isWideFloat : Ty → Bool
  | .f16 | .bf16 | .f32 => true
  | _ => false

/-- Codes 0 to 8. -/
def Ty.isPlain (t : Ty) : Bool := t.isInt || t.isWideFloat

/-- Types of VGATH and VSCAT: 1, 2, 4 to 8 (R208). -/
def Ty.isGather (t : Ty) : Bool := t.isPlain && decide (4 ≤ t.nibbles)

/-- A predicate named in a six-bit field needs bit 4 of the field clear (R208). -/
def Src.predOk : Src → Bool
  | .reg n => decide (n.val < 16)
  | .lat _ => true

/-- The format tags that R157 defines. -/
def tagOk (t : BitVec 6) : Bool :=
  let n := t.toNat
  decide (n ≤ 10) || (decide (16 ≤ n) && decide (n < 48) && decide (n % 8 ≤ 5)) || (decide (48 ≤ n) && decide (n ≤ 52))

/-- Descriptor limits (R121, R128): CORE zero with REM = 0, POP zero with REM = 1. -/
def MDesc.wf (d : MDesc) : Bool := (d.rem || decide (d.core = 0)) && !(d.rem && d.pop)

/-- Ratio, part and mode limits of a conversion from `src` to `dst` (R237, R238): `lo` and `hi` bound the ratio, `wide` and
`narrow` say which directions are accepted. -/
def cvtOk (o : XCvt) (lo hi : Nat) (same wide narrow : Bool) : Bool :=
  let s := o.src.nibbles
  let d := o.ty.nibbles
  let modeOk := if o.src.isInt && o.ty.isInt then decide (o.mode.val ≤ 1) else decide (o.mode.val ≤ 4)
  let r := if s ≤ d then d / s else s / d
  let dirOk := if s = d then same else if s < d then wide && decide (lo ≤ r) && decide (r ≤ hi)
    else narrow && decide (lo ≤ r) && decide (r ≤ hi)
  decide (o.src ≠ .l8) && decide (o.ty ≠ .l8) && modeOk && dirOk && decide (o.part.val < r)

/-- Elements of type `t` in a vector register (R206). -/
def Ty.count (t : Ty) : Nat := 512 / t.nibbles

/-- The well-formed instructions. Events carry no encoding and are always well formed. -/
def Instr.wf : Instr → Bool
  | .iclk d _ _ => decide (d ≠ 0)
  | .enter imm => decide (imm ≠ 0)
  | .ldg o => o.acq || decide (o.sc = .ctx)
  | .stg o => o.rel || decide (o.sc = .ctx)
  | .amoFadd o => !o.dw
  | .vadd o | .vsub o | .vmul o => o.ty.isInt
  | .vmad o => o.ty.isInt
  | .vmulh o | .vmin o | .vmax o | .vshl o | .vshr o | .vsra o => o.ty.isInt
  | .vand o | .vor o | .vxor o => o.ty.isPlain
  | .vfmin o | .vfmax o => o.ty.isWideFloat
  | .vabs o | .vneg o => o.ty.isSigned
  | .vfadd o | .vfsub o | .vfmul o => o.ty.isWideFloat
  | .vfma o => o.ty.isWideFloat
  | .vfabs o | .vfneg o => o.ty.isWideFloat
  | .exp2 o | .log2 o | .rcp o | .rsqrt o | .tanh o | .sigm o => o.ty.isWideFloat
  | .vbcst o | .vmov o => o.ty.isPlain
  | .pcnt o => o.ty.isPlain && o.a.predOk
  | .vrmax o | .vrmin o => o.ty.isPlain
  | .vcmp o => o.ty.isInt && decide (o.cc ≠ .un) && decide (o.cc ≠ .or)
  | .vfcmp o => o.ty.isWideFloat
  | .vsel o => o.ty.isPlain && o.c.predOk
  | .vins o | .vlds o => o.ty.isPlain
  | .vext o => o.ty.isPlain && decide (o.pg = 0)
  | .vgath o => o.ty.isGather
  | .vscat _ _ _ _ ty => ty.isGather
  | .vld o => o.ty.isPlain
  | .vst _ _ _ _ ty => ty.isPlain
  | .vstg o => decide (o.cb = 0)
  | .vrsum o => o.ty.isPlain && (o.ty.isWideFloat || decide (o.rm = .rne))
  | .vrmrs o => o.ty.isWideFloat && o.c.predOk
  | .vcpush o => o.ty.isPlain
  | .vcpop o => o.ty.isPlain
  | .pand o | .por o | .pxor o | .pandn o => o.a.predOk && o.b.predOk
  | .pnot o | .pmov o => o.a.predOk
  | .pfirst o => o.ty.isPlain && o.a.predOk
  | .psetn o => o.ty.isPlain
  | .sqrt o => o.ty.isWideFloat
  | .div o => o.ty.isWideFloat
  | .divs o | .rems o => o.ty.isSigned && (!o.wd || decide (o.ty = .i32))
  | .divn o | .remn o => o.ty.isInt && !o.ty.isSigned && (!o.wd || decide (o.ty = .n32))
  | .maxexp o => o.ty.isWideFloat
  | .cvtq o => decide (o.ty = .i8) || decide (o.ty = .e4m3) || decide (o.ty = .e5m2) || decide (o.ty = .e2m1)
  | .cvt o => cvtOk o 2 2 true true true
  | .cvtw o => cvtOk o 4 8 false true false
  | .cvtn o => cvtOk o 4 8 false false true
  | .cbdec o => (o.ty.isWideFloat || decide (o.ty = .e4m3)) && decide (o.part.val < 1024 / o.ty.count)
  | .shuf o => o.ty.isPlain
  | .vidx o => o.ty.isInt
  | .mma o => o.da.wf && o.db.wf
  | .pmma o => o.da.wf && o.db.wf && (!o.role || (decide (o.acc = 0) && !o.z))
  | .accz m => decide (m ≠ 0)
  | .accrest o => o.data || o.cfg
  | .qwr o => if o.c then tagOk o.tag else decide (o.tag = 0)
  | .cpll o => tagOk o.tag
  | .stapq _ _ _ t => tagOk t
  | .dclk m _ | .dstep m _ => decide (m ≠ 0)
  | _ => true

end Sys2Proof
end

