-- ==== Sys2Proof/Decode.lean ====
section
/-! DEFINITION. The decoder, total on any bytes, and after it the encoder, from the encoding tables of the spec
(R117 to R123, R130 to R132, R167, R208, R229, R258, R286, R298, R300, R310, R337, R354, R89, R114), and the decoders of
graph node records (R82, R95) and host commands (R80, R409). The decoder reads the fields an instruction uses; a syllable
whose other fields are not what the encoder writes (non-zero where R128 wants zero), or whose instruction is not well
formed, is illegal. -/
namespace Sys2Proof

/-- What a syllable is: an instruction, illegal for its slot (R128), or unassigned (R129). -/
inductive Syllable where
  | op (i : Instr)
  | illegal
  | unassigned
deriving DecidableEq, Repr

/-! ### Field codes -/

def encodeLatch : LatchId → BitVec 2
  | .s0 => 0 | .s1 => 1 | .v => 2 | .x => 3

def decodeLatch (b : BitVec 2) : LatchId :=
  match b.toNat with
  | 0 => .s0 | 1 => .s1 | 2 => .v | _ => .x

/-- Six-bit source field (R123): bit 5 selects a latch, whose number stands in bits [1:0]. -/
def encodeSrc : Src → BitVec 6
  | .reg n => (0#1) ++ (BitVec.ofFin n : BitVec 5)
  | .lat l => (0b1000#4) ++ encodeLatch l

def decodeSrc (b : BitVec 6) : Src :=
  if b.getLsbD 5 then .lat (decodeLatch (b.extractLsb' 0 2)) else .reg (b.extractLsb' 0 5).toFin

/-- A codebook of `α` by an encoding function on a list of all values: the inverse by search. -/
def findCode {α : Type} {w : Nat} (enc : α → BitVec w) (all : List α) (b : BitVec w) : Option α :=
  all.find? (fun x => enc x == b)

def encodeRm : Rm → BitVec 3
  | .rne => 0 | .rtz => 1 | .ru => 2 | .rd => 3 | .sr => 4
def allRm : List Rm := [.rne, .rtz, .ru, .rd, .sr]

def encodeTy : Ty → BitVec 4
  | .i8 => 0 | .i16 => 1 | .i32 => 2 | .n8 => 3 | .n16 => 4 | .n32 => 5 | .f16 => 6 | .bf16 => 7 | .f32 => 8
  | .e4m3 => 9 | .e5m2 => 10 | .e2m1 => 11 | .l8 => 12
def allTy : List Ty := [.i8, .i16, .i32, .n8, .n16, .n32, .f16, .bf16, .f32, .e4m3, .e5m2, .e2m1, .l8]

def encodeScope : Scope → BitVec 3
  | .ctx => 0 | .core => 1 | .clu => 2 | .die => 3 | .dev => 4 | .sys => 5
def allScope : List Scope := [.ctx, .core, .clu, .die, .dev, .sys]

def encodeCondZ : CondZ → BitVec 4
  | .eq => 0 | .ne => 1 | .lt => 2 | .ge => 3 | .le => 4 | .gt => 5
def allCondZ : List CondZ := [.eq, .ne, .lt, .ge, .le, .gt]

def encodeCondB : CondB → BitVec 3
  | .eq => 0 | .ne => 1 | .lt => 2 | .ge => 3 | .ltn => 4 | .gen => 5
def allCondB : List CondB := [.eq, .ne, .lt, .ge, .ltn, .gen]

def encodePTest : PTest → BitVec 6
  | .any => 0 | .none => 1 | .all => 2 | .nall => 3 | .first => 4 | .nfirst => 5
def allPTest : List PTest := [.any, .none, .all, .nall, .first, .nfirst]

def encodeCmp : CmpC → BitVec 3
  | .eq => 0 | .ne => 1 | .lt => 2 | .le => 3 | .gt => 4 | .ge => 5 | .un => 6 | .or => 7
def allCmp : List CmpC := [.eq, .ne, .lt, .le, .gt, .ge, .un, .or]

def encodeEngine : Engine → BitVec 3
  | .lsu => 0 | .cpy => 1 | .mat => 2 | .dda => 3 | .col => 4
def allEngine : List Engine := [.lsu, .cpy, .mat, .dda, .col]

def encodeLdSz : LdSz → BitVec 3
  | .i8 => 0 | .n8 => 1 | .i16 => 2 | .n16 => 3 | .i32 => 4 | .n32 => 5 | .d => 6
def allLdSz : List LdSz := [.i8, .n8, .i16, .n16, .i32, .n32, .d]

def encodeStSz : StSz → BitVec 3
  | .b => 0 | .h => 1 | .w => 2 | .d => 3
def allStSz : List StSz := [.b, .h, .w, .d]

def encodeAccTy : AccTy → BitVec 4
  | .i8 => 0 | .i32 => 2 | .f16 => 6 | .bf16 => 7 | .f32 => 8
def allAccTy : List AccTy := [.i8, .i32, .f16, .bf16, .f32]

def encodeCellField : CellField → BitVec 2
  | .y => 0 | .res => 1 | .cnt => 2 | .par => 3
def decodeCellField (b : BitVec 2) : CellField :=
  match b.toNat with
  | 0 => .y | 1 => .res | 2 => .cnt | _ => .par

def bit (b : Bool) : BitVec 1 := if b then 1#1 else 0#1

def fin2 (n : Fin 2) : BitVec 1 := BitVec.ofNat 1 n.val
def fin3 (n : Fin 3) : BitVec 2 := BitVec.ofNat 2 n.val
def fin4 (n : Fin 4) : BitVec 2 := BitVec.ofFin n
def fin8 (n : Fin 8) : BitVec 3 := BitVec.ofFin n
def fin9 (n : Fin 9) : BitVec 4 := BitVec.ofNat 4 n.val
def fin16 (n : Fin 16) : BitVec 4 := BitVec.ofFin n
def fin32 (n : Fin 32) : BitVec 5 := BitVec.ofFin n
def fin64 (n : Fin 64) : BitVec 6 := BitVec.ofFin n
def fin128 (n : Fin 128) : BitVec 7 := BitVec.ofFin n
def fin192 (n : Fin 192) : BitVec 8 := BitVec.ofNat 8 n.val

/-- A bounded number from its field, none when the field is out of range. -/
def toFin? {w : Nat} (n : Nat) (b : BitVec w) : Option (Fin n) :=
  if h : b.toNat < n then some ⟨b.toNat, h⟩ else none

/-! ### S-slot formats (R119) -/

def wordSR (op : BitVec 6) (d : Fin 32) (nw : Bool) (a b : BitVec 6) (fn : BitVec 8) : BitVec 32 :=
  op ++ fin32 d ++ bit nw ++ a ++ b ++ fn
def wordSI (op : BitVec 6) (d : Fin 32) (nw : Bool) (a : BitVec 6) (imm : BitVec 14) : BitVec 32 :=
  op ++ fin32 d ++ bit nw ++ a ++ imm
def wordSL (op : BitVec 6) (d : Fin 32) (nw : Bool) (imm : BitVec 20) : BitVec 32 :=
  op ++ fin32 d ++ bit nw ++ imm
def wordSB (op : BitVec 6) (cc : BitVec 4) (a : BitVec 6) (disp : BitVec 16) : BitVec 32 :=
  op ++ cc ++ a ++ disp
def wordSC (op : BitVec 6) (cc : BitVec 3) (a b : BitVec 6) (disp : BitVec 11) : BitVec 32 :=
  op ++ cc ++ a ++ b ++ disp
def wordSJ (op : BitVec 6) (d : Fin 32) (disp : BitVec 21) : BitVec 32 :=
  op ++ fin32 d ++ disp

def opOf (w : BitVec 32) : BitVec 6 := w.extractLsb' 26 6
def dOf (w : BitVec 32) : Fin 32 := (w.extractLsb' 21 5).toFin
def nwOf (w : BitVec 32) : Bool := w.getLsbD 20
def aOf (w : BitVec 32) : Src := decodeSrc (w.extractLsb' 14 6)
def bOf (w : BitVec 32) : Src := decodeSrc (w.extractLsb' 8 6)
def fnOf (w : BitVec 32) : BitVec 8 := w.extractLsb' 0 8
def immOf (w : BitVec 32) : BitVec 14 := w.extractLsb' 0 14

def sr3 (w : BitVec 32) : SR3 := ⟨dOf w, nwOf w, aOf w, bOf w⟩
def sr2 (w : BitVec 32) : SR2 := ⟨dOf w, nwOf w, aOf w⟩
def sImm (w : BitVec 32) : SImm := ⟨dOf w, nwOf w, aOf w, immOf w⟩
def sSh (w : BitVec 32) : SSh := ⟨dOf w, nwOf w, aOf w, w.extractLsb' 0 6⟩
def sLong (w : BitVec 32) : SLong := ⟨dOf w, nwOf w, w.extractLsb' 0 20⟩
def sSt (w : BitVec 32) : SSt := ⟨dOf w, aOf w, immOf w⟩
def sCsr (w : BitVec 32) : CsrOp := ⟨dOf w, nwOf w, w.extractLsb' 0 12, aOf w⟩
def rmOf (w : BitVec 32) : Option Rm := findCode encodeRm allRm (w.extractLsb' 4 3)
def sf3 (w : BitVec 32) : Option SF3 := (rmOf w).map fun r => ⟨dOf w, nwOf w, aOf w, bOf w, r⟩
def sf2 (w : BitVec 32) : Option SF2 := (rmOf w).map fun r => ⟨dOf w, nwOf w, aOf w, r⟩
def ldgOf (w : BitVec 32) : Option LdgOp := do
  let sz ← findCode encodeLdSz allLdSz (w.extractLsb' 6 3)
  let sc ← findCode encodeScope allScope (w.extractLsb' 3 3)
  some ⟨dOf w, aOf w, (w.extractLsb' 9 5).toFin, sz, sc, w.getLsbD 2⟩
def stgOf (w : BitVec 32) : Option StgOp := do
  let sz ← findCode encodeStSz allStSz (w.extractLsb' 6 3)
  let sc ← findCode encodeScope allScope (w.extractLsb' 3 3)
  some ⟨dOf w, aOf w, (w.extractLsb' 9 5).toFin, sz, sc, w.getLsbD 2⟩
def amoOf (w : BitVec 32) : Option AmoOp :=
  (findCode encodeScope allScope (w.extractLsb' 5 3)).map fun sc => ⟨dOf w, aOf w, bOf w, w.getLsbD 4, sc⟩

/-- A parsed instruction, or illegal where a field has no meaning. -/
def parsed (i : Option Instr) : Syllable :=
  match i with
  | some i => .op i
  | none => .illegal

/-- op6 0x00: the integer register group by fn8 (R131). -/
def parseAlu (w : BitVec 32) : Syllable :=
  match (fnOf w).toNat with
  | 0x00 => .op (.add (sr3 w))
  | 0x01 => .op (.sub (sr3 w))
  | 0x02 => .op (.and (sr3 w))
  | 0x03 => .op (.or (sr3 w))
  | 0x04 => .op (.xor (sr3 w))
  | 0x05 => .op (.andn (sr3 w))
  | 0x06 => .op (.shl (sr3 w))
  | 0x07 => .op (.shr (sr3 w))
  | 0x08 => .op (.sra (sr3 w))
  | 0x09 => .op (.rol (sr3 w))
  | 0x0a => .op (.min (sr3 w))
  | 0x0b => .op (.max (sr3 w))
  | 0x0c => .op (.minn (sr3 w))
  | 0x0d => .op (.maxn (sr3 w))
  | 0x0e => .op (.seq (sr3 w))
  | 0x0f => .op (.sne (sr3 w))
  | 0x10 => .op (.slt (sr3 w))
  | 0x11 => .op (.sltn (sr3 w))
  | 0x12 => .op (.sle (sr3 w))
  | 0x13 => .op (.slen (sr3 w))
  | 0x14 => .op (.clz (sr2 w))
  | 0x15 => .op (.ctz (sr2 w))
  | 0x16 => .op (.popc (sr2 w))
  | 0x17 => .op (.bfx (sr3 w))
  | 0x18 => .op (.bfxn (sr3 w))
  | 0x19 => .op (.bfi (sr3 w))
  | _ => .unassigned

/-- op6 0x01: multiplications by fn8 (R130, R178). -/
def parseMul (w : BitVec 32) : Syllable :=
  match (fnOf w).toNat with
  | 0 => .op (.mul (sr3 w))
  | 1 => .op (.mulh (sr3 w))
  | 2 => .op (.mulhn (sr3 w))
  | _ => .unassigned

/-- op6 0x02: the scalar FP32 group by fn8[3:0], rounding mode in fn8[6:4] (R131, R181). -/
def parseFp (w : BitVec 32) : Syllable :=
  match (w.extractLsb' 0 4).toNat with
  | 0 => parsed ((sf3 w).map .fadd)
  | 1 => parsed ((sf3 w).map .fsub)
  | 2 => parsed ((sf3 w).map .fmul)
  | 3 => parsed ((sf3 w).map .fma)
  | 4 => .op (.fmin (sr3 w))
  | 5 => .op (.fmax (sr3 w))
  | 6 => .op (.fabs (sr2 w))
  | 7 => .op (.fneg (sr2 w))
  | 8 => .op (.feq (sr3 w))
  | 9 => .op (.flt (sr3 w))
  | 10 => .op (.fle (sr3 w))
  | 11 => parsed ((sf2 w).map .fcvti)
  | 12 => parsed ((sf2 w).map .icvtf)
  | _ => .unassigned

/-- op6 0x26: atomics by fn8[3:0] (R337, R341). -/
def parseAmo (w : BitVec 32) : Syllable :=
  match (w.extractLsb' 0 4).toNat with
  | 0 => parsed ((amoOf w).map .amoAdd)
  | 1 => parsed ((amoOf w).map .amoAnd)
  | 2 => parsed ((amoOf w).map .amoOr)
  | 3 => parsed ((amoOf w).map .amoXor)
  | 4 => parsed ((amoOf w).map .amoMin)
  | 5 => parsed ((amoOf w).map .amoMax)
  | 6 => parsed ((amoOf w).map .amoMinn)
  | 7 => parsed ((amoOf w).map .amoMaxn)
  | 8 => parsed ((amoOf w).map .amoSwap)
  | 9 => parsed ((amoOf w).map .amoFadd)
  | _ => .unassigned

/-- op6 0x38: the system group by fn8 (R130). -/
def parseSystem (w : BitVec 32) : Syllable :=
  match (fnOf w).toNat with
  | 0x00 => .op (.trap (aOf w))
  | 0x01 => .op (.sysc (aOf w))
  | 0x02 => .op .brk
  | 0x03 => .op .tret
  | 0x10 => .op (.iclk (dOf w) (aOf w) (bOf w))
  | 0x11 => .op (.iunlk (aOf w) (bOf w))
  | _ => .unassigned

/-- op6 0x3A: the work-hierarchy group by fn8 (R89). -/
def parseHier (w : BitVec 32) : Syllable :=
  match (fnOf w).toNat with
  | 0x10 => .op (.spawn (dOf w) (aOf w) (bOf w))
  | 0x20 => .op .exit
  | 0x31 => .op (.cancelLaunch (aOf w))
  | 0x32 => .op (.cancelGraph (aOf w))
  | 0x33 => .op (.cancelPhase (aOf w))
  | 0x34 => .op (.cancelJob (aOf w))
  | 0x41 => .op (.barClu (dOf w) (aOf w))
  | 0x42 => .op (.barDie (dOf w) (aOf w))
  | 0x43 => .op (.barDev (dOf w) (aOf w))
  | _ => .unassigned

/-- op6 0x3B: FENCE and WAITTL by fn8[7:4] (R130, R337). -/
def parseFence (w : BitVec 32) : Syllable :=
  match (w.extractLsb' 4 4).toNat with
  | 0 => parsed ((findCode encodeScope allScope (w.extractLsb' 0 3)).map
      (fun sc => if w.getLsbD 3 then Instr.fenceRel sc else Instr.fence sc))
  | 1 => parsed ((findCode encodeEngine allEngine (w.extractLsb' 0 3)).map (Instr.waittl (aOf w)))
  | _ => .unassigned

/-- The op6 map of the S slots (R130). -/
def parseS (w : BitVec 32) : Syllable :=
  match (opOf w).toNat with
  | 0x00 => parseAlu w
  | 0x01 => parseMul w
  | 0x02 => parseFp w
  | 0x08 => .op (.addi (sImm w))
  | 0x09 => .op (.andi (sImm w))
  | 0x0a => .op (.ori (sImm w))
  | 0x0b => .op (.xori (sImm w))
  | 0x0c => .op (.shli (sSh w))
  | 0x0d => .op (.shri (sSh w))
  | 0x0e => .op (.srai (sSh w))
  | 0x0f => .op (.slti (sImm w))
  | 0x10 => .op (.sltni (sImm w))
  | 0x11 => .op (.li (sLong w))
  | 0x12 => .op (.lim (sLong w))
  | 0x13 => .op (.lit (sLong w))
  | 0x18 => .op (.ldLI8 (sImm w))
  | 0x19 => .op (.ldLN8 (sImm w))
  | 0x1a => .op (.ldLI16 (sImm w))
  | 0x1b => .op (.ldLN16 (sImm w))
  | 0x1c => .op (.ldLI32 (sImm w))
  | 0x1d => .op (.ldLN32 (sImm w))
  | 0x1e => .op (.ldLD (sImm w))
  | 0x20 => .op (.stLB (sSt w))
  | 0x21 => .op (.stLH (sSt w))
  | 0x22 => .op (.stLW (sSt w))
  | 0x23 => .op (.stLD (sSt w))
  | 0x24 => parsed ((ldgOf w).map .ldg)
  | 0x25 => parsed ((stgOf w).map .stg)
  | 0x26 => parseAmo w
  | 0x27 => parsed ((amoOf w).map .amocas)
  | 0x28 => parsed ((findCode encodeCondZ allCondZ (w.extractLsb' 22 4)).map
      (fun cc => Instr.bcz cc (decodeSrc (w.extractLsb' 16 6)) (w.extractLsb' 0 16)))
  | 0x29 => parsed ((findCode encodeCondB allCondB (w.extractLsb' 23 3)).map
      (fun cc => Instr.bc cc (decodeSrc (w.extractLsb' 17 6)) (decodeSrc (w.extractLsb' 11 6)) (w.extractLsb' 0 11)))
  | 0x2A => parsed ((findCode encodePTest allPTest (w.extractLsb' 16 6)).map
      (fun t => Instr.bp (w.extractLsb' 22 4).toFin t (w.extractLsb' 0 16)))
  | 0x2B => .op (.jmp (w.extractLsb' 0 21))
  | 0x2C => .op (.brl (dOf w) (w.extractLsb' 0 21))
  | 0x2D => .op (.jr (aOf w))
  | 0x2E => .op (.jrl (dOf w) (aOf w))
  | 0x30 => .op (.loop (w.extractLsb' 23 1).toFin (decodeSrc (w.extractLsb' 17 6)) (w.extractLsb' 0 11))
  | 0x31 => .op (.loopi (w.extractLsb' 25 1).toFin (w.extractLsb' 21 4 ++ w.extractLsb' 14 6) (immOf w))
  | 0x32 => .op (.enter (immOf w))
  | 0x33 => .op .leave
  | 0x34 => .op (.csrr (dOf w) (nwOf w) (w.extractLsb' 0 12))
  | 0x35 => .op (.csrw (sCsr w))
  | 0x36 => .op (.csrs (sCsr w))
  | 0x37 => .op (.csrc (sCsr w))
  | 0x38 => parseSystem w
  | 0x39 => .op (.yield (w.extractLsb' 0 20))
  | 0x3A => parseHier w
  | 0x3B => parseFence w
  | _ => .unassigned

/-- The 32-bit word of an S-slot instruction; none for an instruction of another slot. -/
def encodeS : Instr → Option (BitVec 32)
  | .add o => some (wordSR 0x00 o.d o.nw (encodeSrc o.a) (encodeSrc o.b) 0x00)
  | .sub o => some (wordSR 0x00 o.d o.nw (encodeSrc o.a) (encodeSrc o.b) 0x01)
  | .and o => some (wordSR 0x00 o.d o.nw (encodeSrc o.a) (encodeSrc o.b) 0x02)
  | .or o => some (wordSR 0x00 o.d o.nw (encodeSrc o.a) (encodeSrc o.b) 0x03)
  | .xor o => some (wordSR 0x00 o.d o.nw (encodeSrc o.a) (encodeSrc o.b) 0x04)
  | .andn o => some (wordSR 0x00 o.d o.nw (encodeSrc o.a) (encodeSrc o.b) 0x05)
  | .shl o => some (wordSR 0x00 o.d o.nw (encodeSrc o.a) (encodeSrc o.b) 0x06)
  | .shr o => some (wordSR 0x00 o.d o.nw (encodeSrc o.a) (encodeSrc o.b) 0x07)
  | .sra o => some (wordSR 0x00 o.d o.nw (encodeSrc o.a) (encodeSrc o.b) 0x08)
  | .rol o => some (wordSR 0x00 o.d o.nw (encodeSrc o.a) (encodeSrc o.b) 0x09)
  | .min o => some (wordSR 0x00 o.d o.nw (encodeSrc o.a) (encodeSrc o.b) 0x0a)
  | .max o => some (wordSR 0x00 o.d o.nw (encodeSrc o.a) (encodeSrc o.b) 0x0b)
  | .minn o => some (wordSR 0x00 o.d o.nw (encodeSrc o.a) (encodeSrc o.b) 0x0c)
  | .maxn o => some (wordSR 0x00 o.d o.nw (encodeSrc o.a) (encodeSrc o.b) 0x0d)
  | .seq o => some (wordSR 0x00 o.d o.nw (encodeSrc o.a) (encodeSrc o.b) 0x0e)
  | .sne o => some (wordSR 0x00 o.d o.nw (encodeSrc o.a) (encodeSrc o.b) 0x0f)
  | .slt o => some (wordSR 0x00 o.d o.nw (encodeSrc o.a) (encodeSrc o.b) 0x10)
  | .sltn o => some (wordSR 0x00 o.d o.nw (encodeSrc o.a) (encodeSrc o.b) 0x11)
  | .sle o => some (wordSR 0x00 o.d o.nw (encodeSrc o.a) (encodeSrc o.b) 0x12)
  | .slen o => some (wordSR 0x00 o.d o.nw (encodeSrc o.a) (encodeSrc o.b) 0x13)
  | .clz o => some (wordSR 0x00 o.d o.nw (encodeSrc o.a) 0 0x14)
  | .ctz o => some (wordSR 0x00 o.d o.nw (encodeSrc o.a) 0 0x15)
  | .popc o => some (wordSR 0x00 o.d o.nw (encodeSrc o.a) 0 0x16)
  | .bfx o => some (wordSR 0x00 o.d o.nw (encodeSrc o.a) (encodeSrc o.b) 0x17)
  | .bfxn o => some (wordSR 0x00 o.d o.nw (encodeSrc o.a) (encodeSrc o.b) 0x18)
  | .bfi o => some (wordSR 0x00 o.d o.nw (encodeSrc o.a) (encodeSrc o.b) 0x19)
  | .mul o => some (wordSR 0x01 o.d o.nw (encodeSrc o.a) (encodeSrc o.b) 0)
  | .mulh o => some (wordSR 0x01 o.d o.nw (encodeSrc o.a) (encodeSrc o.b) 1)
  | .mulhn o => some (wordSR 0x01 o.d o.nw (encodeSrc o.a) (encodeSrc o.b) 2)
  | .fadd o => some (wordSR 0x02 o.d o.nw (encodeSrc o.a) (encodeSrc o.b) ((0#1) ++ encodeRm o.rm ++ 0#4))
  | .fsub o => some (wordSR 0x02 o.d o.nw (encodeSrc o.a) (encodeSrc o.b) ((0#1) ++ encodeRm o.rm ++ 1#4))
  | .fmul o => some (wordSR 0x02 o.d o.nw (encodeSrc o.a) (encodeSrc o.b) ((0#1) ++ encodeRm o.rm ++ 2#4))
  | .fma o => some (wordSR 0x02 o.d o.nw (encodeSrc o.a) (encodeSrc o.b) ((0#1) ++ encodeRm o.rm ++ 3#4))
  | .fmin o => some (wordSR 0x02 o.d o.nw (encodeSrc o.a) (encodeSrc o.b) 4)
  | .fmax o => some (wordSR 0x02 o.d o.nw (encodeSrc o.a) (encodeSrc o.b) 5)
  | .fabs o => some (wordSR 0x02 o.d o.nw (encodeSrc o.a) 0 6)
  | .fneg o => some (wordSR 0x02 o.d o.nw (encodeSrc o.a) 0 7)
  | .feq o => some (wordSR 0x02 o.d o.nw (encodeSrc o.a) (encodeSrc o.b) 8)
  | .flt o => some (wordSR 0x02 o.d o.nw (encodeSrc o.a) (encodeSrc o.b) 9)
  | .fle o => some (wordSR 0x02 o.d o.nw (encodeSrc o.a) (encodeSrc o.b) 10)
  | .fcvti o => some (wordSR 0x02 o.d o.nw (encodeSrc o.a) 0 ((0#1) ++ encodeRm o.rm ++ 11#4))
  | .icvtf o => some (wordSR 0x02 o.d o.nw (encodeSrc o.a) 0 ((0#1) ++ encodeRm o.rm ++ 12#4))
  | .addi o => some (wordSI 0x08 o.d o.nw (encodeSrc o.a) o.imm)
  | .andi o => some (wordSI 0x09 o.d o.nw (encodeSrc o.a) o.imm)
  | .ori o => some (wordSI 0x0a o.d o.nw (encodeSrc o.a) o.imm)
  | .xori o => some (wordSI 0x0b o.d o.nw (encodeSrc o.a) o.imm)
  | .shli o => some (wordSI 0x0c o.d o.nw (encodeSrc o.a) ((0#8) ++ o.sh))
  | .shri o => some (wordSI 0x0d o.d o.nw (encodeSrc o.a) ((0#8) ++ o.sh))
  | .srai o => some (wordSI 0x0e o.d o.nw (encodeSrc o.a) ((0#8) ++ o.sh))
  | .slti o => some (wordSI 0x0f o.d o.nw (encodeSrc o.a) o.imm)
  | .sltni o => some (wordSI 0x10 o.d o.nw (encodeSrc o.a) o.imm)
  | .li o => some (wordSL 0x11 o.d o.nw o.imm)
  | .lim o => some (wordSL 0x12 o.d o.nw o.imm)
  | .lit o => some (wordSL 0x13 o.d o.nw o.imm)
  | .ldLI8 o => some (wordSI 0x18 o.d o.nw (encodeSrc o.a) o.imm)
  | .ldLN8 o => some (wordSI 0x19 o.d o.nw (encodeSrc o.a) o.imm)
  | .ldLI16 o => some (wordSI 0x1a o.d o.nw (encodeSrc o.a) o.imm)
  | .ldLN16 o => some (wordSI 0x1b o.d o.nw (encodeSrc o.a) o.imm)
  | .ldLI32 o => some (wordSI 0x1c o.d o.nw (encodeSrc o.a) o.imm)
  | .ldLN32 o => some (wordSI 0x1d o.d o.nw (encodeSrc o.a) o.imm)
  | .ldLD o => some (wordSI 0x1e o.d o.nw (encodeSrc o.a) o.imm)
  | .stLB o => some (wordSI 0x20 o.d false (encodeSrc o.a) o.imm)
  | .stLH o => some (wordSI 0x21 o.d false (encodeSrc o.a) o.imm)
  | .stLW o => some (wordSI 0x22 o.d false (encodeSrc o.a) o.imm)
  | .stLD o => some (wordSI 0x23 o.d false (encodeSrc o.a) o.imm)
  | .ldg o => some (wordSI 0x24 o.d false (encodeSrc o.a)
      (fin32 o.tok ++ encodeLdSz o.sz ++ encodeScope o.sc ++ bit o.acq ++ 0#2))
  | .stg o => some (wordSI 0x25 o.d false (encodeSrc o.a)
      (fin32 o.tok ++ encodeStSz o.sz ++ encodeScope o.sc ++ bit o.rel ++ 0#2))
  | .amoAdd o => some (wordSR 0x26 o.d false (encodeSrc o.a) (encodeSrc o.b) (encodeScope o.sc ++ bit o.dw ++ 0#4))
  | .amoAnd o => some (wordSR 0x26 o.d false (encodeSrc o.a) (encodeSrc o.b) (encodeScope o.sc ++ bit o.dw ++ 1#4))
  | .amoOr o => some (wordSR 0x26 o.d false (encodeSrc o.a) (encodeSrc o.b) (encodeScope o.sc ++ bit o.dw ++ 2#4))
  | .amoXor o => some (wordSR 0x26 o.d false (encodeSrc o.a) (encodeSrc o.b) (encodeScope o.sc ++ bit o.dw ++ 3#4))
  | .amoMin o => some (wordSR 0x26 o.d false (encodeSrc o.a) (encodeSrc o.b) (encodeScope o.sc ++ bit o.dw ++ 4#4))
  | .amoMax o => some (wordSR 0x26 o.d false (encodeSrc o.a) (encodeSrc o.b) (encodeScope o.sc ++ bit o.dw ++ 5#4))
  | .amoMinn o => some (wordSR 0x26 o.d false (encodeSrc o.a) (encodeSrc o.b) (encodeScope o.sc ++ bit o.dw ++ 6#4))
  | .amoMaxn o => some (wordSR 0x26 o.d false (encodeSrc o.a) (encodeSrc o.b) (encodeScope o.sc ++ bit o.dw ++ 7#4))
  | .amoSwap o => some (wordSR 0x26 o.d false (encodeSrc o.a) (encodeSrc o.b) (encodeScope o.sc ++ bit o.dw ++ 8#4))
  | .amoFadd o => some (wordSR 0x26 o.d false (encodeSrc o.a) (encodeSrc o.b) (encodeScope o.sc ++ bit o.dw ++ 9#4))
  | .amocas o => some (wordSR 0x27 o.d false (encodeSrc o.a) (encodeSrc o.b) (encodeScope o.sc ++ bit o.dw ++ 0#4))
  | .bcz cc a disp => some (wordSB 0x28 (encodeCondZ cc) (encodeSrc a) disp)
  | .bc cc a b disp => some (wordSC 0x29 (encodeCondB cc) (encodeSrc a) (encodeSrc b) disp)
  | .bp p t disp => some (wordSB 0x2A (fin16 p) (encodePTest t) disp)
  | .jmp disp => some (wordSJ 0x2B 0 disp)
  | .brl d disp => some (wordSJ 0x2C d disp)
  | .jr a => some (wordSR 0x2D 0 false (encodeSrc a) 0 0)
  | .jrl d a => some (wordSR 0x2E d false (encodeSrc a) 0 0)
  | .loop n a disp => some (wordSC 0x30 ((0#2) ++ fin2 n) (encodeSrc a) 0 disp)
  | .loopi n cnt disp => some (wordSI 0x31 ((fin2 n ++ cnt.extractLsb' 6 4).toFin) false (cnt.extractLsb' 0 6) disp)
  | .enter imm => some (wordSI 0x32 0 false 0 imm)
  | .leave => some (wordSI 0x33 0 false 0 0)
  | .csrr d nw csr => some (wordSI 0x34 d nw 0 ((0#2) ++ csr))
  | .csrw o => some (wordSI 0x35 o.d o.nw (encodeSrc o.a) ((0#2) ++ o.csr))
  | .csrs o => some (wordSI 0x36 o.d o.nw (encodeSrc o.a) ((0#2) ++ o.csr))
  | .csrc o => some (wordSI 0x37 o.d o.nw (encodeSrc o.a) ((0#2) ++ o.csr))
  | .trap a => some (wordSR 0x38 0 false (encodeSrc a) 0 0x00)
  | .sysc a => some (wordSR 0x38 0 false (encodeSrc a) 0 0x01)
  | .brk => some (wordSR 0x38 0 false 0 0 0x02)
  | .tret => some (wordSR 0x38 0 false 0 0 0x03)
  | .iclk d a b => some (wordSR 0x38 d false (encodeSrc a) (encodeSrc b) 0x10)
  | .iunlk a b => some (wordSR 0x38 0 false (encodeSrc a) (encodeSrc b) 0x11)
  | .yield n => some (wordSL 0x39 0 false n)
  | .spawn d a b => some (wordSR 0x3A d false (encodeSrc a) (encodeSrc b) 0x10)
  | .exit => some (wordSR 0x3A 0 false 0 0 0x20)
  | .cancelLaunch a => some (wordSR 0x3A 0 false (encodeSrc a) 0 0x31)
  | .cancelGraph a => some (wordSR 0x3A 0 false (encodeSrc a) 0 0x32)
  | .cancelPhase a => some (wordSR 0x3A 0 false (encodeSrc a) 0 0x33)
  | .cancelJob a => some (wordSR 0x3A 0 false (encodeSrc a) 0 0x34)
  | .barClu n a => some (wordSR 0x3A n false (encodeSrc a) 0 0x41)
  | .barDie n a => some (wordSR 0x3A n false (encodeSrc a) 0 0x42)
  | .barDev n a => some (wordSR 0x3A n false (encodeSrc a) 0 0x43)
  | .fence sc => some (wordSR 0x3B 0 false 0 0 ((0#5) ++ encodeScope sc))
  | .fenceRel sc => some (wordSR 0x3B 0 false 0 0 ((1#5) ++ encodeScope sc))
  | .waittl a e => some (wordSR 0x3B 0 false (encodeSrc a) 0 ((2#5) ++ encodeEngine e))
  | _ => none

/-- A parsed syllable stands if its instruction is well formed and encodes to the very word read (every field the
instruction does not use is zero, R128). -/
def confirm {w : Nat} (enc : Instr → Option (BitVec w)) (word : BitVec w) : Syllable → Syllable
  | .op i => if i.wf && enc i == some word then .op i else .illegal
  | .illegal => .illegal
  | .unassigned => .unassigned

/-- Decoder of an S-slot syllable. -/
def decodeS (w : BitVec 32) : Syllable := confirm encodeS w (parseS w)

/-! ### V and X slots (R120, R208, R229) -/

/-- The fields of a 48-bit V or X syllable. -/
structure VxFields where
  op : BitVec 8
  d : BitVec 5
  nw : Bool
  a : BitVec 6
  b : BitVec 6
  c : BitVec 6
  pg : Fin 16
  pd : BitVec 4
  ty : BitVec 4
  fn : BitVec 4
deriving DecidableEq, Repr

def VxFields.word (f : VxFields) : BitVec 48 :=
  f.op ++ f.d ++ bit f.nw ++ f.a ++ f.b ++ f.c ++ fin16 f.pg ++ f.pd ++ f.ty ++ f.fn

def vxFields (w : BitVec 48) : VxFields where
  op := w.extractLsb' 40 8
  d := w.extractLsb' 35 5
  nw := w.getLsbD 34
  a := w.extractLsb' 28 6
  b := w.extractLsb' 22 6
  c := w.extractLsb' 16 6
  pg := (w.extractLsb' 12 4).toFin
  pd := w.extractLsb' 8 4
  ty := w.extractLsb' 4 4
  fn := w.extractLsb' 0 4

def VxFields.sb (f : VxFields) : Bool := f.fn.getLsbD 3
def VxFields.low (f : VxFields) : Bool := f.fn.getLsbD 0
def VxFields.dReg (f : VxFields) : Fin 32 := f.d.toFin
def VxFields.ty? (f : VxFields) : Option Ty := findCode encodeTy allTy f.ty
def VxFields.rm? (f : VxFields) : Option Rm := findCode encodeRm allRm (f.fn.extractLsb' 0 3)
def VxFields.imm (f : VxFields) : BitVec 12 := f.b ++ f.c

def VxFields.int (f : VxFields) : Option VInt :=
  f.ty?.map fun t => ⟨f.dReg, f.nw, decodeSrc f.a, decodeSrc f.b, f.sb, f.low, f.pg, t⟩
def VxFields.mad (f : VxFields) : Option VMadOp :=
  f.ty?.map fun t => ⟨f.dReg, f.nw, decodeSrc f.a, decodeSrc f.b, decodeSrc f.c, f.sb, f.low, f.pg, t⟩
def VxFields.bin (f : VxFields) : Option VBin :=
  f.ty?.map fun t => ⟨f.dReg, f.nw, decodeSrc f.a, decodeSrc f.b, f.sb, f.pg, t⟩
def VxFields.unSat (f : VxFields) : Option VUnSat :=
  f.ty?.map fun t => ⟨f.dReg, f.nw, decodeSrc f.a, f.low, f.pg, t⟩
def VxFields.un (f : VxFields) : Option VUn := f.ty?.map fun t => ⟨f.dReg, f.nw, decodeSrc f.a, f.pg, t⟩
def VxFields.flt (f : VxFields) : Option VFlt := do
  let t ← f.ty?
  let r ← f.rm?
  some ⟨f.dReg, f.nw, decodeSrc f.a, decodeSrc f.b, f.sb, r, f.pg, t⟩
def VxFields.fmaOp (f : VxFields) : Option VFmaOp := do
  let t ← f.ty?
  let r ← f.rm?
  some ⟨f.dReg, f.nw, decodeSrc f.a, decodeSrc f.b, decodeSrc f.c, f.sb, r, f.pg, t⟩
def VxFields.cmp (f : VxFields) : Option VCmpOp := do
  let t ← f.ty?
  let c ← findCode encodeCmp allCmp (f.fn.extractLsb' 0 3)
  some ⟨f.pd.toFin, f.nw, decodeSrc f.a, decodeSrc f.b, f.sb, c, f.pg, t⟩
def VxFields.tri (f : VxFields) : Option VTri :=
  f.ty?.map fun t => ⟨f.dReg, f.nw, decodeSrc f.a, decodeSrc f.b, decodeSrc f.c, f.pg, t⟩
def VxFields.two (f : VxFields) : Option VTwo :=
  f.ty?.map fun t => ⟨f.dReg, f.nw, decodeSrc f.a, decodeSrc f.b, f.pg, t⟩
def VxFields.loc (f : VxFields) : Option VLoc :=
  f.ty?.map fun t => ⟨f.dReg, f.nw, decodeSrc f.a, f.imm, f.pg, t⟩
def VxFields.glob (f : VxFields) : Option VGlob := do
  let t ← f.ty?
  let r ← f.rm?
  let cb ← toFin? 8 f.pd
  some ⟨f.dReg, decodeSrc f.a, f.imm, cb, r, f.pg, t⟩
def VxFields.red (f : VxFields) : Option VRed := do
  let t ← f.ty?
  let r ← f.rm?
  some ⟨f.dReg, f.nw, decodeSrc f.a, r, f.pg, t⟩
def VxFields.rmrs (f : VxFields) : Option VRmrsOp :=
  f.ty?.map fun t => ⟨f.dReg, f.nw, decodeSrc f.a, decodeSrc f.c, f.pd.toFin, f.pg, t⟩
def VxFields.push (f : VxFields) : Option VPushOp := do
  let t ← f.ty?
  let q ← toFin? 16 f.c
  some ⟨decodeSrc f.a, q, f.low, f.pg, t⟩
def VxFields.popOp (f : VxFields) : Option VPopOp :=
  f.ty?.map fun t =>
    ⟨f.dReg, f.nw, decodeSrc f.a, (f.c.extractLsb' 0 4).toFin, (f.c.extractLsb' 4 2).toFin, f.low, f.pg, t⟩
def VxFields.pbin (f : VxFields) : PBin := ⟨f.pd.toFin, f.nw, decodeSrc f.a, decodeSrc f.b, f.pg⟩
def VxFields.pun (f : VxFields) : PUn := ⟨f.pd.toFin, f.nw, decodeSrc f.a, f.pg⟩
def VxFields.pelt (f : VxFields) : Option PElt := f.ty?.map fun t => ⟨f.pd.toFin, f.nw, decodeSrc f.a, f.pg, t⟩
def VxFields.xsqrt (f : VxFields) : Option XSqrt := do
  let t ← f.ty?
  let r ← f.rm?
  some ⟨f.dReg, f.nw, decodeSrc f.a, r, f.pg, t⟩
def VxFields.xdiv (f : VxFields) : Option XDiv := do
  let t ← f.ty?
  let r ← f.rm?
  some ⟨f.dReg, f.nw, decodeSrc f.a, decodeSrc f.b, r, f.pg, t⟩
def VxFields.xidiv (f : VxFields) : Option XIDiv :=
  f.ty?.map fun t => ⟨f.dReg, f.nw, decodeSrc f.a, decodeSrc f.b, f.sb, f.pg, t⟩
def VxFields.maxexpOp (f : VxFields) : Option XMaxexp := do
  let t ← f.ty?
  let b ← toFin? 3 (f.fn.extractLsb' 0 2)
  some ⟨f.dReg, f.nw, decodeSrc f.a, (f.fn.extractLsb' 2 2).toFin, b, f.pg, t⟩
/-- CVT: the part index is HI = fn4[3]. -/
def VxFields.cvtHi (f : VxFields) : Option XCvt := do
  let t ← f.ty?
  let s ← findCode encodeTy allTy (f.c.extractLsb' 0 4)
  some ⟨f.dReg, f.nw, decodeSrc f.a, s, if f.sb then 1 else 0, (f.fn.extractLsb' 0 3).toFin, f.pg, t⟩
/-- CVTW and CVTN: the part index is b6[2:0]. -/
def VxFields.cvtPart (f : VxFields) : Option XCvt := do
  let t ← f.ty?
  let s ← findCode encodeTy allTy (f.c.extractLsb' 0 4)
  some ⟨f.dReg, f.nw, decodeSrc f.a, s, (f.b.extractLsb' 0 3).toFin, (f.fn.extractLsb' 0 3).toFin, f.pg, t⟩
def VxFields.cbdecOp (f : VxFields) : Option XCbdec := do
  let t ← f.ty?
  let r ← f.rm?
  some ⟨f.dReg, f.nw, decodeSrc f.a, f.b.toFin, (f.c.extractLsb' 0 3).toFin, r, f.pg, t⟩
def VxFields.shufOp (f : VxFields) : Option XShuf :=
  f.ty?.map fun t => ⟨f.dReg, f.nw, decodeSrc f.a, decodeSrc f.b, f.c.toFin, f.pg, t⟩

/-- The op8 map of the V slot (R132). -/
def parseV (f : VxFields) : Syllable :=
  match f.op.toNat with
  | 0x00 => parsed (f.int.map .vadd)
  | 0x01 => parsed (f.int.map .vsub)
  | 0x02 => parsed (f.int.map .vmul)
  | 0x03 => parsed (f.mad.map .vmad)
  | 0x04 => parsed (f.bin.map .vmulh)
  | 0x05 => parsed (f.bin.map .vmin)
  | 0x06 => parsed (f.bin.map .vmax)
  | 0x07 => parsed (f.unSat.map .vabs)
  | 0x08 => parsed (f.unSat.map .vneg)
  | 0x09 => parsed (f.bin.map .vand)
  | 0x0a => parsed (f.bin.map .vor)
  | 0x0b => parsed (f.bin.map .vxor)
  | 0x0c => parsed (f.bin.map .vshl)
  | 0x0d => parsed (f.bin.map .vshr)
  | 0x0e => parsed (f.bin.map .vsra)
  | 0x10 => parsed (f.flt.map .vfadd)
  | 0x11 => parsed (f.flt.map .vfsub)
  | 0x12 => parsed (f.flt.map .vfmul)
  | 0x13 => parsed (f.fmaOp.map .vfma)
  | 0x14 => parsed (f.bin.map .vfmin)
  | 0x15 => parsed (f.bin.map .vfmax)
  | 0x16 => parsed (f.un.map .vfabs)
  | 0x17 => parsed (f.un.map .vfneg)
  | 0x20 => parsed (f.cmp.map .vcmp)
  | 0x21 => parsed (f.cmp.map .vfcmp)
  | 0x22 => parsed (f.tri.map .vsel)
  | 0x23 => parsed (f.un.map .vbcst)
  | 0x24 => parsed (f.two.map .vins)
  | 0x25 => parsed (f.two.map .vext)
  | 0x26 => parsed (f.un.map .vmov)
  | 0x30 => parsed (f.loc.map .vld)
  | 0x31 => parsed (f.ty?.map (Instr.vst f.dReg (decodeSrc f.a) f.imm f.pg))
  | 0x32 => parsed (f.two.map .vlds)
  | 0x33 => parsed (f.two.map .vgath)
  | 0x34 => parsed (f.ty?.map (Instr.vscat f.dReg (decodeSrc f.a) (decodeSrc f.b) f.pg))
  | 0x35 => parsed (f.glob.map .vldg)
  | 0x36 => parsed (f.glob.map .vstg)
  | 0x40 => parsed (f.red.map .vrsum)
  | 0x41 => parsed (f.un.map .vrmax)
  | 0x42 => parsed (f.un.map .vrmin)
  | 0x43 => parsed (f.rmrs.map .vrmrs)
  | 0x48 => parsed (f.push.map .vcpush)
  | 0x49 => parsed (f.popOp.map .vcpop)
  | 0x50 => .op (.pand f.pbin)
  | 0x51 => .op (.por f.pbin)
  | 0x52 => .op (.pxor f.pbin)
  | 0x53 => .op (.pandn f.pbin)
  | 0x54 => .op (.pnot f.pun)
  | 0x55 => .op (.pmov f.pun)
  | 0x56 => parsed (f.un.map .pcnt)
  | 0x57 => parsed (f.pelt.map .pfirst)
  | 0x58 => parsed (f.pelt.map .psetn)
  | 0x59 => parsed ((toFin? 9 f.a).map (Instr.ppack f.dReg f.nw))
  | 0x5a => parsed ((toFin? 9 f.pd).map (fun p => Instr.punpk p (decodeSrc f.a)))
  | _ => .unassigned

/-- The op8 map of the X slot (R132). -/
def parseX (f : VxFields) : Syllable :=
  match f.op.toNat with
  | 0x00 => parsed (f.un.map .exp2)
  | 0x01 => parsed (f.un.map .log2)
  | 0x02 => parsed (f.un.map .rcp)
  | 0x03 => parsed (f.un.map .rsqrt)
  | 0x04 => parsed (f.xsqrt.map .sqrt)
  | 0x05 => parsed (f.xdiv.map .div)
  | 0x06 => parsed (f.un.map .tanh)
  | 0x07 => parsed (f.un.map .sigm)
  | 0x08 => parsed (f.xidiv.map .divs)
  | 0x09 => parsed (f.xidiv.map .rems)
  | 0x0a => parsed (f.xidiv.map .divn)
  | 0x0b => parsed (f.xidiv.map .remn)
  | 0x10 => parsed (f.maxexpOp.map .maxexp)
  | 0x11 => parsed (f.red.map .cvtq)
  | 0x12 => parsed (f.cvtHi.map .cvt)
  | 0x13 => parsed (f.cvtPart.map .cvtw)
  | 0x14 => parsed (f.cvtPart.map .cvtn)
  | 0x18 => parsed ((toFin? 8 f.d).map (fun k => Instr.cbld k (decodeSrc f.a)))
  | 0x19 => parsed (f.cbdecOp.map .cbdec)
  | 0x20 => parsed (f.shufOp.map .shuf)
  | 0x21 => .op (.patld f.c.toFin (decodeSrc f.a) (decodeSrc f.b))
  | 0x22 => .op .patsw
  | 0x23 => parsed (f.two.map .vidx)
  | _ => .unassigned

/-- A row of the V and X encoding tables: the fields that an instruction fills, the rest zero. -/
def vx (op : BitVec 8) (d : BitVec 5) (nw : Bool) (a b c : BitVec 6) (pg : Fin 16) (pd ty fn : BitVec 4) : VxFields :=
  ⟨op, d, nw, a, b, c, pg, pd, ty, fn⟩

/-- The fields of a V-slot instruction (R208). -/
def encodeVf : Instr → Option VxFields
  | .vadd o => some (vx 0x00 (fin32 o.d) o.nw (encodeSrc o.a) (encodeSrc o.b) 0 o.pg 0 (encodeTy o.ty) (bit o.sb ++ 0#2 ++ bit o.sat))
  | .vsub o => some (vx 0x01 (fin32 o.d) o.nw (encodeSrc o.a) (encodeSrc o.b) 0 o.pg 0 (encodeTy o.ty) (bit o.sb ++ 0#2 ++ bit o.sat))
  | .vmul o => some (vx 0x02 (fin32 o.d) o.nw (encodeSrc o.a) (encodeSrc o.b) 0 o.pg 0 (encodeTy o.ty) (bit o.sb ++ 0#2 ++ bit o.sat))
  | .vmad o => some (vx 0x03 (fin32 o.d) o.nw (encodeSrc o.a) (encodeSrc o.b) (encodeSrc o.c) o.pg 0 (encodeTy o.ty) (bit o.sb ++ 0#2 ++ bit o.sat))
  | .vmulh o => some (vx 0x04 (fin32 o.d) o.nw (encodeSrc o.a) (encodeSrc o.b) 0 o.pg 0 (encodeTy o.ty) (bit o.sb ++ 0#3))
  | .vmin o => some (vx 0x05 (fin32 o.d) o.nw (encodeSrc o.a) (encodeSrc o.b) 0 o.pg 0 (encodeTy o.ty) (bit o.sb ++ 0#3))
  | .vmax o => some (vx 0x06 (fin32 o.d) o.nw (encodeSrc o.a) (encodeSrc o.b) 0 o.pg 0 (encodeTy o.ty) (bit o.sb ++ 0#3))
  | .vabs o => some (vx 0x07 (fin32 o.d) o.nw (encodeSrc o.a) 0 0 o.pg 0 (encodeTy o.ty) ((0#3) ++ bit o.sat))
  | .vneg o => some (vx 0x08 (fin32 o.d) o.nw (encodeSrc o.a) 0 0 o.pg 0 (encodeTy o.ty) ((0#3) ++ bit o.sat))
  | .vand o => some (vx 0x09 (fin32 o.d) o.nw (encodeSrc o.a) (encodeSrc o.b) 0 o.pg 0 (encodeTy o.ty) (bit o.sb ++ 0#3))
  | .vor o => some (vx 0x0a (fin32 o.d) o.nw (encodeSrc o.a) (encodeSrc o.b) 0 o.pg 0 (encodeTy o.ty) (bit o.sb ++ 0#3))
  | .vxor o => some (vx 0x0b (fin32 o.d) o.nw (encodeSrc o.a) (encodeSrc o.b) 0 o.pg 0 (encodeTy o.ty) (bit o.sb ++ 0#3))
  | .vshl o => some (vx 0x0c (fin32 o.d) o.nw (encodeSrc o.a) (encodeSrc o.b) 0 o.pg 0 (encodeTy o.ty) (bit o.sb ++ 0#3))
  | .vshr o => some (vx 0x0d (fin32 o.d) o.nw (encodeSrc o.a) (encodeSrc o.b) 0 o.pg 0 (encodeTy o.ty) (bit o.sb ++ 0#3))
  | .vsra o => some (vx 0x0e (fin32 o.d) o.nw (encodeSrc o.a) (encodeSrc o.b) 0 o.pg 0 (encodeTy o.ty) (bit o.sb ++ 0#3))
  | .vfadd o => some (vx 0x10 (fin32 o.d) o.nw (encodeSrc o.a) (encodeSrc o.b) 0 o.pg 0 (encodeTy o.ty) (bit o.sb ++ encodeRm o.rm))
  | .vfsub o => some (vx 0x11 (fin32 o.d) o.nw (encodeSrc o.a) (encodeSrc o.b) 0 o.pg 0 (encodeTy o.ty) (bit o.sb ++ encodeRm o.rm))
  | .vfmul o => some (vx 0x12 (fin32 o.d) o.nw (encodeSrc o.a) (encodeSrc o.b) 0 o.pg 0 (encodeTy o.ty) (bit o.sb ++ encodeRm o.rm))
  | .vfma o => some (vx 0x13 (fin32 o.d) o.nw (encodeSrc o.a) (encodeSrc o.b) (encodeSrc o.c) o.pg 0 (encodeTy o.ty) (bit o.sb ++ encodeRm o.rm))
  | .vfmin o => some (vx 0x14 (fin32 o.d) o.nw (encodeSrc o.a) (encodeSrc o.b) 0 o.pg 0 (encodeTy o.ty) (bit o.sb ++ 0#3))
  | .vfmax o => some (vx 0x15 (fin32 o.d) o.nw (encodeSrc o.a) (encodeSrc o.b) 0 o.pg 0 (encodeTy o.ty) (bit o.sb ++ 0#3))
  | .vfabs o => some (vx 0x16 (fin32 o.d) o.nw (encodeSrc o.a) 0 0 o.pg 0 (encodeTy o.ty) 0)
  | .vfneg o => some (vx 0x17 (fin32 o.d) o.nw (encodeSrc o.a) 0 0 o.pg 0 (encodeTy o.ty) 0)
  | .vcmp o => some (vx 0x20 0 o.nw (encodeSrc o.a) (encodeSrc o.b) 0 o.pg (fin16 o.pd) (encodeTy o.ty) (bit o.sb ++ encodeCmp o.cc))
  | .vfcmp o => some (vx 0x21 0 o.nw (encodeSrc o.a) (encodeSrc o.b) 0 o.pg (fin16 o.pd) (encodeTy o.ty) (bit o.sb ++ encodeCmp o.cc))
  | .vsel o => some (vx 0x22 (fin32 o.d) o.nw (encodeSrc o.a) (encodeSrc o.b) (encodeSrc o.c) o.pg 0 (encodeTy o.ty) 0)
  | .vbcst o => some (vx 0x23 (fin32 o.d) o.nw (encodeSrc o.a) 0 0 o.pg 0 (encodeTy o.ty) 0)
  | .vins o => some (vx 0x24 (fin32 o.d) o.nw (encodeSrc o.a) (encodeSrc o.b) 0 o.pg 0 (encodeTy o.ty) 0)
  | .vext o => some (vx 0x25 (fin32 o.d) o.nw (encodeSrc o.a) (encodeSrc o.b) 0 o.pg 0 (encodeTy o.ty) 0)
  | .vmov o => some (vx 0x26 (fin32 o.d) o.nw (encodeSrc o.a) 0 0 o.pg 0 (encodeTy o.ty) 0)
  | .vld o => some (vx 0x30 (fin32 o.d) o.nw (encodeSrc o.a) (o.imm.extractLsb' 6 6) (o.imm.extractLsb' 0 6) o.pg 0 (encodeTy o.ty) 0)
  | .vst d a imm pg ty => some (vx 0x31 (fin32 d) false (encodeSrc a) (imm.extractLsb' 6 6) (imm.extractLsb' 0 6) pg 0 (encodeTy ty) 0)
  | .vlds o => some (vx 0x32 (fin32 o.d) o.nw (encodeSrc o.a) (encodeSrc o.b) 0 o.pg 0 (encodeTy o.ty) 0)
  | .vgath o => some (vx 0x33 (fin32 o.d) o.nw (encodeSrc o.a) (encodeSrc o.b) 0 o.pg 0 (encodeTy o.ty) 0)
  | .vscat d a b pg ty => some (vx 0x34 (fin32 d) false (encodeSrc a) (encodeSrc b) 0 pg 0 (encodeTy ty) 0)
  | .vldg o => some (vx 0x35 (fin32 o.d) false (encodeSrc o.a) (o.imm.extractLsb' 6 6) (o.imm.extractLsb' 0 6) o.pg ((0#1) ++ fin8 o.cb) (encodeTy o.ty) ((0#1) ++ encodeRm o.rm))
  | .vstg o => some (vx 0x36 (fin32 o.d) false (encodeSrc o.a) (o.imm.extractLsb' 6 6) (o.imm.extractLsb' 0 6) o.pg ((0#1) ++ fin8 o.cb) (encodeTy o.ty) ((0#1) ++ encodeRm o.rm))
  | .vrsum o => some (vx 0x40 (fin32 o.d) o.nw (encodeSrc o.a) 0 0 o.pg 0 (encodeTy o.ty) ((0#1) ++ encodeRm o.rm))
  | .vrmax o => some (vx 0x41 (fin32 o.d) o.nw (encodeSrc o.a) 0 0 o.pg 0 (encodeTy o.ty) 0)
  | .vrmin o => some (vx 0x42 (fin32 o.d) o.nw (encodeSrc o.a) 0 0 o.pg 0 (encodeTy o.ty) 0)
  | .vrmrs o => some (vx 0x43 (fin32 o.d) o.nw (encodeSrc o.a) 0 (encodeSrc o.c) o.pg (fin16 o.pd) (encodeTy o.ty) 0)
  | .vcpush o => some (vx 0x48 0 false (encodeSrc o.a) 0 ((0#2) ++ fin16 o.q) o.pg 0 (encodeTy o.ty) ((0#3) ++ bit o.flush))
  | .vcpop o => some (vx 0x49 (fin32 o.d) o.nw (encodeSrc o.a) 0 (fin4 o.k ++ fin16 o.q) o.pg 0 (encodeTy o.ty) ((0#3) ++ bit o.pop))
  | .pand o => some (vx 0x50 0 o.nw (encodeSrc o.a) (encodeSrc o.b) 0 o.pg (fin16 o.pd) 0 0)
  | .por o => some (vx 0x51 0 o.nw (encodeSrc o.a) (encodeSrc o.b) 0 o.pg (fin16 o.pd) 0 0)
  | .pxor o => some (vx 0x52 0 o.nw (encodeSrc o.a) (encodeSrc o.b) 0 o.pg (fin16 o.pd) 0 0)
  | .pandn o => some (vx 0x53 0 o.nw (encodeSrc o.a) (encodeSrc o.b) 0 o.pg (fin16 o.pd) 0 0)
  | .pnot o => some (vx 0x54 0 o.nw (encodeSrc o.a) 0 0 o.pg (fin16 o.pd) 0 0)
  | .pmov o => some (vx 0x55 0 o.nw (encodeSrc o.a) 0 0 o.pg (fin16 o.pd) 0 0)
  | .pcnt o => some (vx 0x56 (fin32 o.d) o.nw (encodeSrc o.a) 0 0 o.pg 0 (encodeTy o.ty) 0)
  | .pfirst o => some (vx 0x57 0 o.nw (encodeSrc o.a) 0 0 o.pg (fin16 o.pd) (encodeTy o.ty) 0)
  | .psetn o => some (vx 0x58 0 o.nw (encodeSrc o.a) 0 0 o.pg (fin16 o.pd) (encodeTy o.ty) 0)
  | .ppack d nw p => some (vx 0x59 (fin32 d) nw ((0#2) ++ fin9 p) 0 0 0 0 0 0)
  | .punpk p a => some (vx 0x5a 0 false (encodeSrc a) 0 0 0 (fin9 p) 0 0)
  | _ => none

/-- The fields of an X-slot instruction (R229). -/
def encodeXf : Instr → Option VxFields
  | .exp2 o => some (vx 0x00 (fin32 o.d) o.nw (encodeSrc o.a) 0 0 o.pg 0 (encodeTy o.ty) 0)
  | .log2 o => some (vx 0x01 (fin32 o.d) o.nw (encodeSrc o.a) 0 0 o.pg 0 (encodeTy o.ty) 0)
  | .rcp o => some (vx 0x02 (fin32 o.d) o.nw (encodeSrc o.a) 0 0 o.pg 0 (encodeTy o.ty) 0)
  | .rsqrt o => some (vx 0x03 (fin32 o.d) o.nw (encodeSrc o.a) 0 0 o.pg 0 (encodeTy o.ty) 0)
  | .sqrt o => some (vx 0x04 (fin32 o.d) o.nw (encodeSrc o.a) 0 0 o.pg 0 (encodeTy o.ty) ((0#1) ++ encodeRm o.rm))
  | .div o => some (vx 0x05 (fin32 o.d) o.nw (encodeSrc o.a) (encodeSrc o.b) 0 o.pg 0 (encodeTy o.ty) ((0#1) ++ encodeRm o.rm))
  | .tanh o => some (vx 0x06 (fin32 o.d) o.nw (encodeSrc o.a) 0 0 o.pg 0 (encodeTy o.ty) 0)
  | .sigm o => some (vx 0x07 (fin32 o.d) o.nw (encodeSrc o.a) 0 0 o.pg 0 (encodeTy o.ty) 0)
  | .divs o => some (vx 0x08 (fin32 o.d) o.nw (encodeSrc o.a) (encodeSrc o.b) 0 o.pg 0 (encodeTy o.ty) (bit o.wd ++ 0#3))
  | .rems o => some (vx 0x09 (fin32 o.d) o.nw (encodeSrc o.a) (encodeSrc o.b) 0 o.pg 0 (encodeTy o.ty) (bit o.wd ++ 0#3))
  | .divn o => some (vx 0x0a (fin32 o.d) o.nw (encodeSrc o.a) (encodeSrc o.b) 0 o.pg 0 (encodeTy o.ty) (bit o.wd ++ 0#3))
  | .remn o => some (vx 0x0b (fin32 o.d) o.nw (encodeSrc o.a) (encodeSrc o.b) 0 o.pg 0 (encodeTy o.ty) (bit o.wd ++ 0#3))
  | .maxexp o => some (vx 0x10 (fin32 o.d) o.nw (encodeSrc o.a) 0 0 o.pg 0 (encodeTy o.ty) (fin4 o.tgt ++ fin3 o.blk))
  | .cvtq o => some (vx 0x11 (fin32 o.d) o.nw (encodeSrc o.a) 0 0 o.pg 0 (encodeTy o.ty) ((0#1) ++ encodeRm o.rm))
  | .cvt o => some (vx 0x12 (fin32 o.d) o.nw (encodeSrc o.a) 0 ((0#2) ++ encodeTy o.src) o.pg 0 (encodeTy o.ty) (bit (decide (o.part.val ≠ 0)) ++ fin8 o.mode))
  | .cvtw o => some (vx 0x13 (fin32 o.d) o.nw (encodeSrc o.a) ((0#3) ++ fin8 o.part) ((0#2) ++ encodeTy o.src) o.pg 0 (encodeTy o.ty) ((0#1) ++ fin8 o.mode))
  | .cvtn o => some (vx 0x14 (fin32 o.d) o.nw (encodeSrc o.a) ((0#3) ++ fin8 o.part) ((0#2) ++ encodeTy o.src) o.pg 0 (encodeTy o.ty) ((0#1) ++ fin8 o.mode))
  | .cbld k a => some (vx 0x18 ((0#2) ++ fin8 k) false (encodeSrc a) 0 0 0 0 0 0)
  | .cbdec o => some (vx 0x19 (fin32 o.d) o.nw (encodeSrc o.a) (fin64 o.part) ((0#3) ++ fin8 o.cb) o.pg 0 (encodeTy o.ty) ((0#1) ++ encodeRm o.rm))
  | .shuf o => some (vx 0x20 (fin32 o.d) o.nw (encodeSrc o.a) (encodeSrc o.b) (fin64 o.entry) o.pg 0 (encodeTy o.ty) 0)
  | .patld e a b => some (vx 0x21 0 false (encodeSrc a) (encodeSrc b) (fin64 e) 0 0 0 0)
  | .patsw => some (vx 0x22 0 false 0 0 0 0 0 0 0)
  | .vidx o => some (vx 0x23 (fin32 o.d) o.nw (encodeSrc o.a) (encodeSrc o.b) 0 o.pg 0 (encodeTy o.ty) 0)
  | _ => none

def encodeV (i : Instr) : Option (BitVec 48) := (encodeVf i).map VxFields.word
def encodeX (i : Instr) : Option (BitVec 48) := (encodeXf i).map VxFields.word

/-- Decoders of a V-slot and of an X-slot syllable. -/
def decodeV (w : BitVec 48) : Syllable := confirm encodeV w (parseV (vxFields w))
def decodeX (w : BitVec 48) : Syllable := confirm encodeX w (parseX (vxFields w))

/-! ### M slot (R121, R258) -/

def encodeDesc (d : MDesc) : BitVec 14 :=
  bit d.rem ++ fin8 d.core ++ fin16 d.queue ++ fin4 d.off ++ bit d.pop ++ (BitVec.ofNat 3 d.geo.val)

def decodeDesc (b : BitVec 14) : Option MDesc :=
  (toFin? 6 (b.extractLsb' 0 3)).map fun g =>
    ⟨b.getLsbD 13, (b.extractLsb' 10 3).toFin, (b.extractLsb' 6 4).toFin, (b.extractLsb' 4 2).toFin, b.getLsbD 3, g⟩

/-- A descriptor that names only a local queue, offset and pop (ACCRD, ACCWR). -/
def plainDesc (q : Fin 16) (off : Fin 4) (pop : Bool) : MDesc := ⟨false, 0, q, off, pop, 0⟩

/-- The 30-bit tile word (R249). -/
def encodeTile (t : TileWord) : BitVec 30 :=
  fin128 t.mm ++ fin192 t.nn ++ fin128 t.kk ++ t.af ++ fin9 t.pf

def decodeTile (b : BitVec 30) : Option TileWord := do
  let nn ← toFin? 192 (b.extractLsb' 15 8)
  let pf ← toFin? 9 (b.extractLsb' 0 4)
  some ⟨(b.extractLsb' 23 7).toFin, nn, (b.extractLsb' 8 7).toFin, b.extractLsb' 4 4, pf⟩

def wordM (op : BitVec 8) (a b : BitVec 14) (lo : BitVec 28) : BitVec 64 := op ++ a ++ b ++ lo

def encodeM : Instr → Option (BitVec 64)
  | .tcfg t => some ((0x00#8) ++ encodeTile t ++ 0#26)
  | .mma o => some (wordM 0x01 (encodeDesc o.da) (encodeDesc o.db)
      (fin4 o.acc ++ bit o.z ++ fin8 o.cba ++ fin8 o.cbb ++ 0#19))
  | .pmma o => some (wordM 0x02 (encodeDesc o.da) (encodeDesc o.db)
      (fin4 o.acc ++ bit o.z ++ fin8 o.cba ++ fin8 o.cbb ++ bit o.role ++ 0#18))
  | .accz m => some (wordM 0x03 0 0 (m ++ 0#24))
  | .accrd o => some (wordM 0x04 (encodeDesc (plainDesc o.q 0 false)) 0
      (fin4 o.acc ++ encodeAccTy o.ty ++ encodeRm o.rm ++ bit o.clr ++ 0#18))
  | .accrv o => some (wordM 0x05 0 0 (fin4 o.acc ++ fin32 o.d ++ fin128 o.row ++ fin3 o.grp ++ 0#12))
  | .accwr o => some (wordM 0x06 (encodeDesc (plainDesc o.q o.off o.pop)) 0 (fin4 o.acc ++ 0#26))
  | .accsave o => some (wordM 0x07 0 0 (fin4 o.acc ++ encodeSrc o.a ++ o.imm ++ 0#8))
  | .accrest o => some (wordM 0x08 0 0 (fin4 o.acc ++ encodeSrc o.a ++ o.imm ++ bit o.data ++ bit o.cfg ++ 0#6))
  | .lease => some (wordM 0x09 0 0 0)
  | .unlease => some (wordM 0x0A 0 0 0)
  | _ => none

def mAcc (w : BitVec 64) : Fin 4 := (w.extractLsb' 26 2).toFin
def mA (w : BitVec 64) : Option MDesc := decodeDesc (w.extractLsb' 42 14)
def mB (w : BitVec 64) : Option MDesc := decodeDesc (w.extractLsb' 28 14)

/-- The op8 map of the M slot (R132, R258). -/
def parseM (w : BitVec 64) : Syllable :=
  match (w.extractLsb' 56 8).toNat with
  | 0x00 => parsed ((decodeTile (w.extractLsb' 26 30)).map .tcfg)
  | 0x01 => parsed (do
      let a ← mA w
      let b ← mB w
      some (.mma ⟨a, b, mAcc w, w.getLsbD 25, (w.extractLsb' 22 3).toFin, (w.extractLsb' 19 3).toFin⟩))
  | 0x02 => parsed (do
      let a ← mA w
      let b ← mB w
      some (.pmma ⟨a, b, mAcc w, w.getLsbD 25, (w.extractLsb' 22 3).toFin, (w.extractLsb' 19 3).toFin, w.getLsbD 18⟩))
  | 0x03 => .op (.accz (w.extractLsb' 24 4))
  | 0x04 => parsed (do
      let ty ← findCode encodeAccTy allAccTy (w.extractLsb' 22 4)
      let rm ← findCode encodeRm allRm (w.extractLsb' 19 3)
      some (.accrd ⟨(w.extractLsb' 48 4).toFin, mAcc w, ty, rm, w.getLsbD 18⟩))
  | 0x05 => parsed ((toFin? 3 (w.extractLsb' 12 2)).map fun g =>
      .accrv ⟨mAcc w, (w.extractLsb' 21 5).toFin, (w.extractLsb' 14 7).toFin, g⟩)
  | 0x06 => .op (.accwr ⟨(w.extractLsb' 48 4).toFin, (w.extractLsb' 46 2).toFin, w.getLsbD 45, mAcc w⟩)
  | 0x07 => .op (.accsave ⟨mAcc w, decodeSrc (w.extractLsb' 20 6), w.extractLsb' 8 12⟩)
  | 0x08 => .op (.accrest ⟨mAcc w, decodeSrc (w.extractLsb' 20 6), w.extractLsb' 8 12, w.getLsbD 7, w.getLsbD 6⟩)
  | 0x09 => .op .lease
  | 0x0A => .op .unlease
  | _ => .unassigned

def decodeM (w : BitVec 64) : Syllable := confirm encodeM w (parseM w)

/-! ### Q slot (R167, R286, R298, R300, R310, R354) -/

def wordQ (op : BitVec 8) (q : BitVec 4) (a b : BitVec 6) (lo : BitVec 40) : BitVec 64 := op ++ q ++ a ++ b ++ lo
/-- Bits [39:0] of the queue instructions other than QCFG (R167). -/
def loQueue (d : BitVec 5) (k : BitVec 4) (pop o c : Bool) (tag : BitVec 6) (imm8 : BitVec 8) (imm13 : BitVec 13) :
    BitVec 40 :=
  d ++ 0#1 ++ k ++ bit pop ++ bit o ++ bit c ++ tag ++ imm8 ++ imm13
/-- Bits [39:0] of the copy syllables (R300). -/
def loCopy (c : BitVec 6) (k : BitVec 4) (pop ld ls : Bool) (tag : BitVec 6) : BitVec 40 :=
  (0#6) ++ c ++ k ++ bit pop ++ bit ld ++ bit ls ++ tag ++ 0#15
/-- Bits [39:0] of the stream syllables (R310). -/
def loStream (d : BitVec 5) (dir : Bool) (str : Fin 8) (tag : BitVec 6) : BitVec 40 :=
  d ++ 0#1 ++ bit dir ++ fin8 str ++ 0#9 ++ tag ++ 0#15
/-- Bits [39:0] of the integrator syllables (R286). -/
def loDda (mask : BitVec 4) (field : BitVec 2) (flag : Bool) (cell : BitVec 9) (n : BitVec 11) (imm : BitVec 13) :
    BitVec 40 :=
  mask ++ field ++ bit flag ++ cell ++ n ++ imm

def encodeQ : Instr → Option (BitVec 64)
  | .qcfg o => some ((0x00#8) ++ fin16 o.q ++ encodeSrc o.a ++ 0#15 ++ bit o.rx ++ o.log2n ++ o.slotsz ++ 0#4 ++ o.base256)
  | .qpop q n => some (wordQ 0x01 (fin16 q) 0 0 (loQueue 0 0 false false false 0 n 0))
  | .qrd o => some (wordQ 0x02 (fin16 o.q) (encodeSrc o.a) 0 (loQueue (fin32 o.d) (fin16 o.k) o.pop false false 0 o.row 0))
  | .qwr o => some (wordQ 0x03 (fin16 o.q) (encodeSrc o.a) (encodeSrc o.b) (loQueue 0 0 false o.o o.c o.tag o.row 0))
  | .qspl q a => some (wordQ 0x04 (fin16 q) (encodeSrc a) 0 0)
  | .quns q => some (wordQ 0x05 (fin16 q) 0 0 0)
  | .qsave o => some (wordQ 0x06 (fin16 o.q) (encodeSrc o.a) 0 (loQueue 0 0 false false false 0 0 o.imm))
  | .qrest o => some (wordQ 0x07 (fin16 o.q) (encodeSrc o.a) 0 (loQueue 0 0 false false false 0 0 o.imm))
  | .qstat o => some (wordQ 0x08 (fin16 o.q) (encodeSrc o.a) 0 (loQueue 0 0 false false false 0 0 o.imm))
  | .cpld o => some (wordQ 0x10 (fin16 o.q) (encodeSrc o.a) (encodeSrc o.b) 0)
  | .cpst o => some (wordQ 0x11 (fin16 o.q) (encodeSrc o.a) (encodeSrc o.b) (loCopy 0 (fin16 o.k) o.pop false false 0))
  | .cpll o => some (wordQ 0x12 (fin16 o.q) (encodeSrc o.a) (encodeSrc o.b) (loCopy 0 0 false false false o.tag))
  | .cpga o => some (wordQ 0x13 (fin16 o.q) (encodeSrc o.a) (encodeSrc o.b) (loCopy (encodeSrc o.c) 0 false false false 0))
  | .cpmem o => some (wordQ 0x14 0 (encodeSrc o.a) (encodeSrc o.b) (loCopy (encodeSrc o.c) 0 false o.ld o.ls 0))
  | .tlook d a => some (wordQ 0x18 0 (encodeSrc a) 0 (fin32 d ++ 0#35))
  | .tins a b => some (wordQ 0x19 0 (encodeSrc a) (encodeSrc b) 0)
  | .tinv a i => some (wordQ 0x1A 0 (encodeSrc a) 0 ((0#6) ++ bit i ++ 0#33))
  | .sdrv dir n b => some (wordQ 0x1C 0 0 (encodeSrc b) (loStream 0 dir n 0))
  | .stap dir n d => some (wordQ 0x1D 0 0 0 (loStream (fin32 d) dir n 0))
  | .stapq dir n q tag => some (wordQ 0x1E (fin16 q) 0 0 (loStream 0 dir n tag))
  | .dpatch o => some (wordQ 0x20 0 (encodeSrc o.a) 0 (loDda 0 0 false 0 o.n11 o.imm))
  | .dclk m a => some (wordQ 0x21 0 (encodeSrc a) 0 (loDda m 0 false 0 0 0))
  | .dset o => some (wordQ 0x22 0 (encodeSrc o.a) (encodeSrc o.b) (loDda 0 (encodeCellField o.f) false o.cell 0 0))
  | .dinj b => some (wordQ 0x23 0 0 (encodeSrc b) 0)
  | .dstep m a => some (wordQ 0x24 0 (encodeSrc a) 0 (loDda m 0 false 0 0 0))
  | .dread o => some (wordQ 0x25 0 (encodeSrc o.a) 0 (loDda 0 (encodeCellField o.f) false o.cell 0 o.imm))
  | .dcnt o => some (wordQ 0x26 (fin16 o.q) 0 0 (loDda 0 0 o.clr o.cell ((0#8) ++ fin8 o.rows) 0))
  | .dsave a imm rel => some (wordQ 0x27 0 (encodeSrc a) 0 (loDda 0 0 rel 0 0 imm))
  | .dload a imm => some (wordQ 0x28 0 (encodeSrc a) 0 (loDda 0 0 false 0 0 imm))
  | .coll a b => some (wordQ 0x30 0 (encodeSrc a) (encodeSrc b) 0)
  | .cqry a imm b => some (wordQ 0x31 0 (encodeSrc a) (encodeSrc b) ((0#27) ++ imm))
  | _ => none

def qQ (w : BitVec 64) : Fin 16 := (w.extractLsb' 52 4).toFin
def qA (w : BitVec 64) : Src := decodeSrc (w.extractLsb' 46 6)
def qB (w : BitVec 64) : Src := decodeSrc (w.extractLsb' 40 6)
def qC (w : BitVec 64) : Src := decodeSrc (w.extractLsb' 28 6)
def qD (w : BitVec 64) : Fin 32 := (w.extractLsb' 35 5).toFin
def qImm8 (w : BitVec 64) : BitVec 8 := w.extractLsb' 13 8
def qImm13 (w : BitVec 64) : BitVec 13 := w.extractLsb' 0 13
def qMem (w : BitVec 64) : QMemOp := ⟨qQ w, qA w, qImm13 w⟩
def qField (w : BitVec 64) : CellField := decodeCellField (w.extractLsb' 34 2)
def qCell (w : BitVec 64) : BitVec 9 := w.extractLsb' 24 9
def qStr (w : BitVec 64) : Fin 8 := (w.extractLsb' 30 3).toFin
def qTag15 (w : BitVec 64) : BitVec 6 := w.extractLsb' 15 6

/-- The op8 map of the Q slot (R132). -/
def parseQ (w : BitVec 64) : Syllable :=
  match (w.extractLsb' 56 8).toNat with
  | 0x00 => .op (.qcfg ⟨qQ w, qA w, w.getLsbD 30, w.extractLsb' 26 4, w.extractLsb' 18 8, w.extractLsb' 0 14⟩)
  | 0x01 => .op (.qpop (qQ w) (qImm8 w))
  | 0x02 => .op (.qrd ⟨qQ w, qD w, (w.extractLsb' 30 4).toFin, w.getLsbD 29, qA w, qImm8 w⟩)
  | 0x03 => .op (.qwr ⟨qQ w, qA w, qB w, w.getLsbD 28, w.getLsbD 27, w.extractLsb' 21 6, qImm8 w⟩)
  | 0x04 => .op (.qspl (qQ w) (qA w))
  | 0x05 => .op (.quns (qQ w))
  | 0x06 => .op (.qsave (qMem w))
  | 0x07 => .op (.qrest (qMem w))
  | 0x08 => .op (.qstat (qMem w))
  | 0x10 => .op (.cpld ⟨qQ w, qA w, qB w⟩)
  | 0x11 => .op (.cpst ⟨qQ w, qA w, qB w, (w.extractLsb' 24 4).toFin, w.getLsbD 23⟩)
  | 0x12 => .op (.cpll ⟨qQ w, qA w, qB w, qTag15 w⟩)
  | 0x13 => .op (.cpga ⟨qQ w, qA w, qB w, qC w⟩)
  | 0x14 => .op (.cpmem ⟨qA w, qB w, qC w, w.getLsbD 22, w.getLsbD 21⟩)
  | 0x18 => .op (.tlook (qD w) (qA w))
  | 0x19 => .op (.tins (qA w) (qB w))
  | 0x1A => .op (.tinv (qA w) (w.getLsbD 33))
  | 0x1C => .op (.sdrv (w.getLsbD 33) (qStr w) (qB w))
  | 0x1D => .op (.stap (w.getLsbD 33) (qStr w) (qD w))
  | 0x1E => .op (.stapq (w.getLsbD 33) (qStr w) (qQ w) (qTag15 w))
  | 0x20 => .op (.dpatch ⟨qA w, w.extractLsb' 13 11, qImm13 w⟩)
  | 0x21 => .op (.dclk (w.extractLsb' 36 4) (qA w))
  | 0x22 => .op (.dset ⟨qField w, qA w, qCell w, qB w⟩)
  | 0x23 => .op (.dinj (qB w))
  | 0x24 => .op (.dstep (w.extractLsb' 36 4) (qA w))
  | 0x25 => .op (.dread ⟨qField w, qA w, qCell w, qImm13 w⟩)
  | 0x26 => .op (.dcnt ⟨qQ w, w.getLsbD 33, qCell w, (w.extractLsb' 13 3).toFin⟩)
  | 0x27 => .op (.dsave (qA w) (qImm13 w) (w.getLsbD 33))
  | 0x28 => .op (.dload (qA w) (qImm13 w))
  | 0x30 => .op (.coll (qA w) (qB w))
  | 0x31 => .op (.cqry (qA w) (qImm13 w) (qB w))
  | _ => .unassigned

def decodeQ (w : BitVec 64) : Syllable := confirm encodeQ w (parseQ w)

/-! ### What a syllable reads and writes (R126, R127, and the operand tables of the instruction chapters) -/

/-- The register files, and the classes of a latch (R124). -/
inductive RegCls where
  | s | v | p
deriving DecidableEq, Repr

/-- The registers of one syllable: six-bit sources, registers read through d5 or implicitly, the guard, destinations
written at a fixed latency (with NW), destinations written through a landing buffer, direct scratchpad accesses, predicate
reads beyond those of sources and guard, and the counted predicate writes where they differ from the destinations. -/
structure Uses where
  srcs : List (RegCls × Src) := []
  reads : List (RegCls × Nat) := []
  guard : Nat := 0
  dsts : List (RegCls × Nat × Bool) := []
  lands : List (RegCls × Nat) := []
  access : Nat := 0
  preads : Nat := 0
  /-- predicates that it reads and `preads` counts -/
  also : List (RegCls × Nat) := []
  pwrites : Option Nat := none
deriving DecidableEq, Repr

def sDst (d : Fin 32) (nw : Bool) : RegCls × Nat × Bool := (.s, d.val, nw)
def vDst (d : Fin 32) (nw : Bool) : RegCls × Nat × Bool := (.v, d.val, nw)
def pDst (d : Fin 16) (nw : Bool) : RegCls × Nat × Bool := (.p, d.val, nw)
/-- The class of the b operand under SB (R208). -/
def sbCls (sb : Bool) : RegCls := if sb then .s else .v
/-- A landing destination (R145); only an LDG to s0 takes no entry (R338). -/
def sLand (d : Fin 32) : List (RegCls × Nat) := [(.s, d.val)]
def tokReg (t : Fin 32) : List (RegCls × Nat) := if t = 0 then [] else [(.s, t.val)]

def SR3.uses (o : SR3) : Uses := { srcs := [(.s, o.a), (.s, o.b)], dsts := [sDst o.d o.nw] }
def SR2.uses (o : SR2) : Uses := { srcs := [(.s, o.a)], dsts := [sDst o.d o.nw] }
def SF3.uses (o : SF3) : Uses := { srcs := [(.s, o.a), (.s, o.b)], dsts := [sDst o.d o.nw] }
def SF2.uses (o : SF2) : Uses := { srcs := [(.s, o.a)], dsts := [sDst o.d o.nw] }
def SImm.uses (o : SImm) : Uses := { srcs := [(.s, o.a)], dsts := [sDst o.d o.nw] }
def SSh.uses (o : SSh) : Uses := { srcs := [(.s, o.a)], dsts := [sDst o.d o.nw] }
def SLong.uses (o : SLong) : Uses := { dsts := [sDst o.d o.nw] }
def SSt.uses (o : SSt) : Uses := { srcs := [(.s, o.a)], reads := [(.s, o.d.val)], access := 1 }
def AmoOp.uses (o : AmoOp) : Uses := { srcs := [(.s, o.a), (.s, o.b)], lands := sLand o.d }
def CsrOp.uses (o : CsrOp) : Uses := { srcs := [(.s, o.a)], dsts := [sDst o.d o.nw] }
def VInt.uses (o : VInt) : Uses := { srcs := [(.v, o.a), (sbCls o.sb, o.b)], guard := o.pg.val, dsts := [vDst o.d o.nw] }
def VBin.uses (o : VBin) : Uses := { srcs := [(.v, o.a), (sbCls o.sb, o.b)], guard := o.pg.val, dsts := [vDst o.d o.nw] }
def VMadOp.uses (o : VMadOp) : Uses :=
  { srcs := [(.v, o.a), (sbCls o.sb, o.b), (.v, o.c)], reads := [(.v, o.d.val)], guard := o.pg.val, dsts := [vDst o.d o.nw] }
def VUnSat.uses (o : VUnSat) : Uses := { srcs := [(.v, o.a)], guard := o.pg.val, dsts := [vDst o.d o.nw] }
def VUn.uses (o : VUn) (c : RegCls) : Uses := { srcs := [(c, o.a)], guard := o.pg.val, dsts := [vDst o.d o.nw] }
def VUn.usesS (o : VUn) (c : RegCls) : Uses := { srcs := [(c, o.a)], guard := o.pg.val, dsts := [sDst o.d o.nw] }
def VFlt.uses (o : VFlt) : Uses := { srcs := [(.v, o.a), (sbCls o.sb, o.b)], guard := o.pg.val, dsts := [vDst o.d o.nw] }
def VFmaOp.uses (o : VFmaOp) : Uses :=
  { srcs := [(.v, o.a), (sbCls o.sb, o.b), (.v, o.c)], reads := [(.v, o.d.val)], guard := o.pg.val, dsts := [vDst o.d o.nw] }
def VCmpOp.uses (o : VCmpOp) : Uses := { srcs := [(.v, o.a), (sbCls o.sb, o.b)], guard := o.pg.val, dsts := [pDst o.pd o.nw] }
def VTri.uses (o : VTri) : Uses := { srcs := [(.v, o.a), (.v, o.b), (.p, o.c)], guard := o.pg.val, dsts := [vDst o.d o.nw] }
def VTwo.uses (o : VTwo) (ca cb : RegCls) : Uses :=
  { srcs := [(ca, o.a), (cb, o.b)], guard := o.pg.val, dsts := [vDst o.d o.nw] }
def PBin.uses (o : PBin) : Uses := { srcs := [(.p, o.a), (.p, o.b)], guard := o.pg.val, dsts := [pDst o.pd o.nw] }
def PUn.uses (o : PUn) : Uses := { srcs := [(.p, o.a)], guard := o.pg.val, dsts := [pDst o.pd o.nw] }
def PElt.uses (o : PElt) (c : RegCls) : Uses := { srcs := [(c, o.a)], guard := o.pg.val, dsts := [pDst o.pd o.nw] }
def XIDiv.uses (o : XIDiv) : Uses := { srcs := [(.v, o.a), (.v, o.b)], guard := o.pg.val, dsts := [vDst o.d o.nw] }
def XCvt.uses (o : XCvt) : Uses := { srcs := [(.v, o.a)], guard := o.pg.val, dsts := [vDst o.d o.nw] }
def QMemOp.uses (o : QMemOp) : Uses := { srcs := [(.s, o.a)] }

/-- The registers of a slot operation; nothing for the events. -/
def Instr.uses : Instr → Uses
  | .add o => o.uses
  | .sub o => o.uses
  | .and o => o.uses
  | .or o => o.uses
  | .xor o => o.uses
  | .andn o => o.uses
  | .shl o => o.uses
  | .shr o => o.uses
  | .sra o => o.uses
  | .rol o => o.uses
  | .min o => o.uses
  | .max o => o.uses
  | .minn o => o.uses
  | .maxn o => o.uses
  | .seq o => o.uses
  | .sne o => o.uses
  | .slt o => o.uses
  | .sltn o => o.uses
  | .sle o => o.uses
  | .slen o => o.uses
  | .bfx o => o.uses
  | .bfxn o => o.uses
  | .mul o => o.uses
  | .mulh o => o.uses
  | .mulhn o => o.uses
  | .fmin o => o.uses
  | .fmax o => o.uses
  | .feq o => o.uses
  | .flt o => o.uses
  | .fle o => o.uses
  | .fadd o => o.uses
  | .fsub o => o.uses
  | .fmul o => o.uses
  | .clz o => o.uses
  | .ctz o => o.uses
  | .popc o => o.uses
  | .fabs o => o.uses
  | .fneg o => o.uses
  | .fcvti o => o.uses
  | .icvtf o => o.uses
  | .addi o => o.uses
  | .andi o => o.uses
  | .ori o => o.uses
  | .xori o => o.uses
  | .slti o => o.uses
  | .sltni o => o.uses
  | .shli o => o.uses
  | .shri o => o.uses
  | .srai o => o.uses
  | .li o => o.uses
  | .bfi o => { o.uses with reads := [(.s, o.d.val)] }
  | .fma o => { o.uses with reads := [(.s, o.d.val)] }
  | .lim o => { o.uses with reads := [(.s, o.d.val)] }
  | .lit o => { o.uses with reads := [(.s, o.d.val)] }
  | .ldLI8 o => { o.uses with access := 1 }
  | .ldLN8 o => { o.uses with access := 1 }
  | .ldLI16 o => { o.uses with access := 1 }
  | .ldLN16 o => { o.uses with access := 1 }
  | .ldLI32 o => { o.uses with access := 1 }
  | .ldLN32 o => { o.uses with access := 1 }
  | .ldLD o => { o.uses with access := 1 }
  | .stLB o => o.uses
  | .stLH o => o.uses
  | .stLW o => o.uses
  | .stLD o => o.uses
  | .ldg o => { srcs := [(.s, o.a)], reads := tokReg o.tok, lands := if o.d = 0 then [] else sLand o.d }
  | .stg o => { srcs := [(.s, o.a)], reads := [(.s, o.d.val)], dsts := if o.tok = 0 then [] else [sDst o.tok false] }
  | .amoAdd o => o.uses
  | .amoAnd o => o.uses
  | .amoOr o => o.uses
  | .amoXor o => o.uses
  | .amoMin o => o.uses
  | .amoMax o => o.uses
  | .amoMinn o => o.uses
  | .amoMaxn o => o.uses
  | .amoSwap o => o.uses
  | .amoFadd o => o.uses
  | .amocas o => { o.uses with reads := [(.s, o.d.val)] }
  | .waittl a _ => { srcs := [(.s, a)] }
  | .bcz _ a _ => { srcs := [(.s, a)] }
  | .bc _ a b _ => { srcs := [(.s, a), (.s, b)] }
  | .bp p _ _ => { preads := if p = 0 then 0 else 1, also := [(.p, p.val)] }
  | .brl d _ => { dsts := [sDst d false] }
  | .jr a => { srcs := [(.s, a)] }
  | .jrl d a => { srcs := [(.s, a)], dsts := [sDst d false] }
  | .loop _ a _ => { srcs := [(.s, a)] }
  | .enter _ => { reads := [(.s, 30), (.s, 28), (.s, 31)], dsts := [(.s, 28, false), (.s, 30, false)], access := 2 }
  | .leave => { reads := [(.s, 28)], dsts := [(.s, 31, false), (.s, 28, false), (.s, 30, false)], access := 2 }
  | .csrr d nw _ => { dsts := [sDst d nw] }
  | .csrw o => o.uses
  | .csrs o => o.uses
  | .csrc o => o.uses
  | .trap a => { srcs := [(.s, a)] }
  | .sysc a => { srcs := [(.s, a)] }
  | .iclk d a b => { srcs := [(.s, a), (.s, b)], lands := sLand d }
  | .iunlk a b => { srcs := [(.s, a), (.s, b)] }
  | .spawn d a b => { srcs := [(.s, a), (.s, b)], lands := sLand d }
  | .cancelLaunch a => { srcs := [(.s, a)] }
  | .cancelGraph a => { srcs := [(.s, a)] }
  | .cancelPhase a => { srcs := [(.s, a)] }
  | .cancelJob a => { srcs := [(.s, a)] }
  | .barClu _ a => { srcs := [(.s, a)] }
  | .barDie _ a => { srcs := [(.s, a)] }
  | .barDev _ a => { srcs := [(.s, a)] }
  | .vadd o => o.uses
  | .vsub o => o.uses
  | .vmul o => o.uses
  | .vmad o => o.uses
  | .vmulh o => o.uses
  | .vmin o => o.uses
  | .vmax o => o.uses
  | .vabs o => o.uses
  | .vneg o => o.uses
  | .vand o => o.uses
  | .vor o => o.uses
  | .vxor o => o.uses
  | .vshl o => o.uses
  | .vshr o => o.uses
  | .vsra o => o.uses
  | .vfadd o => o.uses
  | .vfsub o => o.uses
  | .vfmul o => o.uses
  | .vfma o => o.uses
  | .vfmin o => o.uses
  | .vfmax o => o.uses
  | .vcmp o => o.uses
  | .vfcmp o => o.uses
  | .vsel o => o.uses
  | .pand o => o.uses
  | .por o => o.uses
  | .pxor o => o.uses
  | .pandn o => o.uses
  | .pnot o => o.uses
  | .pmov o => o.uses
  | .divs o => o.uses
  | .rems o => o.uses
  | .divn o => o.uses
  | .remn o => o.uses
  | .cvt o => o.uses
  | .cvtw o => o.uses
  | .cvtn o => o.uses
  | .vfabs o => o.uses .v
  | .vfneg o => o.uses .v
  | .vmov o => o.uses .v
  | .exp2 o => o.uses .v
  | .log2 o => o.uses .v
  | .rcp o => o.uses .v
  | .rsqrt o => o.uses .v
  | .tanh o => o.uses .v
  | .sigm o => o.uses .v
  | .vbcst o => o.uses .s
  | .vins o => o.uses .s .s
  | .vext o => { srcs := [(.v, o.a), (.s, o.b)], guard := o.pg.val, dsts := [sDst o.d o.nw] }
  | .vld o => { srcs := [(.s, o.a)], guard := o.pg.val, dsts := [vDst o.d o.nw], access := 1 }
  | .vst d a _ pg _ => { srcs := [(.s, a)], reads := [(.v, d.val)], guard := pg.val, access := 1 }
  | .vlds o => { o.uses .s .s with access := 1 }
  | .vgath o => { o.uses .s .v with access := 1 }
  | .vscat d a b pg _ => { srcs := [(.s, a), (.v, b)], reads := [(.v, d.val)], guard := pg.val, access := 1 }
  | .vldg o => { srcs := [(.s, o.a)], guard := o.pg.val, lands := [(.v, o.d.val)] }
  | .vstg o => { srcs := [(.s, o.a)], reads := [(.v, o.d.val)], guard := o.pg.val }
  | .vrsum o => { srcs := [(.v, o.a)], guard := o.pg.val, dsts := [sDst o.d o.nw] }
  | .vrmax o => o.usesS .v
  | .vrmin o => o.usesS .v
  | .vrmrs o => { srcs := [(.v, o.a), (.p, o.c)], guard := o.pg.val, dsts := [sDst o.d o.nw, pDst o.pd o.nw] }
  | .vcpush o => { srcs := [(.v, o.a)], guard := o.pg.val }
  | .vcpop o => { srcs := [(.s, o.a)], guard := o.pg.val, dsts := [vDst o.d o.nw] }
  | .pcnt o => o.usesS .p
  | .pfirst o => o.uses .p
  | .psetn o => o.uses .s
  | .ppack d nw f => { preads := 4, also := (List.range 8).map fun i => (.p, f.val + i), dsts := [vDst d nw] }
  | .punpk p a => { srcs := [(.v, a)], dsts := (List.range 8).map (fun i => (.p, p.val + i, false)), pwrites := some 2 }
  | .sqrt o => { srcs := [(.v, o.a)], guard := o.pg.val, dsts := [vDst o.d o.nw] }
  | .div o => { srcs := [(.v, o.a), (.v, o.b)], guard := o.pg.val, dsts := [vDst o.d o.nw] }
  | .maxexp o => { srcs := [(.v, o.a)], guard := o.pg.val, dsts := [vDst o.d o.nw] }
  | .cvtq o => { srcs := [(.v, o.a)], guard := o.pg.val, dsts := [vDst o.d o.nw] }
  | .cbld _ a => { srcs := [(.s, a)] }
  | .cbdec o => { srcs := [(.v, o.a)], guard := o.pg.val, dsts := [vDst o.d o.nw] }
  | .shuf o => { srcs := [(.v, o.a), (.v, o.b)], guard := o.pg.val, dsts := [vDst o.d o.nw] }
  | .patld _ a b => { srcs := [(.v, a), (.v, b)] }
  | .vidx o => o.uses .s .s
  | .accrv o => { lands := [(.v, o.d.val)] }
  | .accsave o => { srcs := [(.s, o.a)] }
  | .accrest o => { srcs := [(.s, o.a)] }
  | .qcfg o => { srcs := [(.s, o.a)] }
  | .qrd o => { srcs := [(.s, o.a)], dsts := [vDst o.d false] }
  | .qwr o => { srcs := [(.s, o.a), (.v, o.b)] }
  | .qspl _ a => { srcs := [(.s, a)] }
  | .qsave o => o.uses
  | .qrest o => o.uses
  | .qstat o => o.uses
  | .cpld o => { srcs := [(.s, o.a), (.s, o.b)] }
  | .cpst o => { srcs := [(.s, o.a), (.s, o.b)] }
  | .cpll o => { srcs := [(.s, o.a), (.s, o.b)] }
  | .cpga o => { srcs := [(.s, o.a), (.s, o.b), (.s, o.c)] }
  | .cpmem o => { srcs := [(.s, o.a), (.s, o.b), (.s, o.c)] }
  | .tlook d a => { srcs := [(.s, a)], dsts := [sDst d false] }
  | .tins a b => { srcs := [(.s, a), (.s, b)] }
  | .tinv a _ => { srcs := [(.s, a)] }
  | .sdrv _ _ b => { srcs := [(.v, b)] }
  | .stap _ _ d => { lands := [(.v, d.val)] }
  | .dpatch o => { srcs := [(.s, o.a)] }
  | .dclk _ a => { srcs := [(.s, a)] }
  | .dset o => { srcs := [(.s, o.a), (.s, o.b)] }
  | .dinj b => { srcs := [(.v, b)] }
  | .dstep _ a => { srcs := [(.s, a)] }
  | .dread o => { srcs := [(.s, o.a)] }
  | .dsave a _ _ => { srcs := [(.s, a)] }
  | .dload a _ => { srcs := [(.s, a)] }
  | .coll a b => { srcs := [(.s, a), (.s, b)] }
  | .cqry a _ b => { srcs := [(.s, a), (.s, b)] }
  | _ => {}

/-- The queue of the own context that a Q syllable names, for R224. -/
def Instr.qSlotQueue : Instr → Option (Fin 16)
  | .qcfg o => some o.q
  | .qpop q _ => some q
  | .qrd o => some o.q
  | .qwr o => some o.q
  | .qspl q _ => some q
  | .quns q => some q
  | .qsave o => some o.q
  | .qrest o => some o.q
  | .qstat o => some o.q
  | .cpld o => some o.q
  | .cpst o => some o.q
  | .cpll o => some o.q
  | .cpga o => some o.q
  | .stapq _ _ q _ => some q
  | .dcnt o => some o.q
  | _ => none

/-- The queue of a conditional-stream instruction, for R224. -/
def Instr.streamQueue : Instr → Option (Fin 16)
  | .vcpush o => some o.q
  | .vcpop o => some o.q
  | _ => none

/-- The end displacement of a hardware loop, in parcels (R191). -/
def Instr.loopDisp : Instr → Option Int
  | .loop _ _ d => some d.toInt
  | .loopi _ _ d => some d.toInt
  | _ => none

/-! ### Bundles (R117, R118, R126 to R129) -/

/-- Slots in PM bit order. -/
def allSlots : List Slot := [.s0, .s1, .v, .x, .m, .q]
def Slot.index : Slot → Nat
  | .s0 => 0 | .s1 => 1 | .v => 2 | .x => 3 | .m => 4 | .q => 5
/-- Parcels of a syllable (R117). -/
def Slot.parcels : Slot → Nat
  | .s0 | .s1 => 2
  | .v | .x => 3
  | .m | .q => 4
/-- Mask of one slot in PM bit order. -/
def Slot.mask (s : Slot) : BitVec 6 := BitVec.twoPow 6 s.index

/-- A bundle header (R118); `bad` where bits [15:11] are not zero. -/
structure Header where
  bad : Bool
  wt : Fin 8
  dp : Bool
  st : Bool
  pm : BitVec 6
deriving DecidableEq, Repr

def decodeHeader (h : BitVec 16) : Header where
  bad := h.extractLsb' 11 5 != 0
  wt := (h.extractLsb' 8 3).toFin
  dp := h.getLsbD 7
  st := h.getLsbD 6
  pm := h.extractLsb' 0 6

def encodeHeader (wt : Fin 8) (dp st : Bool) (pm : BitVec 6) : BitVec 16 := (0#5) ++ fin8 wt ++ bit dp ++ bit st ++ pm

def Header.slots (h : Header) : List Slot := allSlots.filter (fun s => h.pm.getLsbD s.index)
/-- Length of the bundle in parcels (R117). -/
def Header.len (h : Header) : Nat := h.slots.foldl (fun n s => n + s.parcels) 1

/-- Bytes as a little-endian number. -/
def leNat : List Byte → Nat
  | [] => 0
  | b :: rest => b.toNat + 256 * leNat rest

/-- The low `n` bytes of a number, low byte first. -/
def leBytes (v : Nat) : Nat → List Byte
  | 0 => []
  | n + 1 => BitVec.ofNat 8 v :: leBytes (v / 256) n

/-- The decoder of one slot's syllable, from its bits. -/
def decodeSyllable (s : Slot) (w : Nat) : Syllable :=
  match s with
  | .s0 | .s1 => decodeS (BitVec.ofNat 32 w)
  | .v => decodeV (BitVec.ofNat 48 w)
  | .x => decodeX (BitVec.ofNat 48 w)
  | .m => decodeM (BitVec.ofNat 64 w)
  | .q => decodeQ (BitVec.ofNat 64 w)

/-- A syllable of a bundle: its slot, its bits and what they decode to. -/
structure Placed where
  slot : Slot
  bits : Nat
  syl : Syllable
deriving DecidableEq, Repr

/-- The syllables after the header, in slot order; a loop whose end lies before the end of its bundle is illegal (R191). -/
def decodeSyllables (len : Nat) : List Slot → List Byte → List Placed
  | [], _ => []
  | s :: rest, bytes =>
    let w := leNat (bytes.take (2 * s.parcels))
    let syl := match decodeSyllable s w with
      | .op i => match i.loopDisp with
        | some d => if d < len then .illegal else .op i
        | none => .op i
      | x => x
    ⟨s, w, syl⟩ :: decodeSyllables len rest (bytes.drop (2 * s.parcels))

def Placed.uses (p : Placed) : Uses :=
  match p.syl with
  | .op i => i.uses
  | _ => {}

/-- Reads of a file that count against R126. -/
def Uses.readCount (u : Uses) (c : RegCls) : Nat :=
  let isCounted := fun (x : RegCls × Src) => match x with
    | (cls, .reg n) => decide (cls = c) && (decide (c = .v) || decide (n ≠ 0))
    | (_, .lat _) => false
  (u.srcs.filter isCounted).length
    + (u.reads.filter (fun x => decide (x.1 = c) && (decide (c = .v) || decide (x.2 ≠ 0)))).length
    + (if c = .p then u.preads + (if u.guard = 0 then 0 else 1) else 0)

/-- Writes of a file that count against R126. -/
def Uses.writeCount (u : Uses) (c : RegCls) : Nat :=
  match (if c = .p then u.pwrites else none) with
  | some n => n
  | none => (u.dsts.filter (fun x => decide (x.1 = c) && !x.2.2)).length

/-- Destinations for the rule of two writes to one register (R127): without those with NW and those to s0. -/
def Uses.named (u : Uses) : List (RegCls × Nat) :=
  ((u.dsts.filter (fun x => !x.2.2)).map (fun x => (x.1, x.2.1)) ++ u.lands).filter (fun x => decide (x ≠ (.s, 0)))

/-- Mask of the syllables that a test marks. -/
def maskOf (l : List Placed) (f : Placed → Bool) : BitVec 6 :=
  (l.filter f).foldl (fun m p => m ||| p.slot.mask) 0

/-- Mask of the syllables that count against a limit, if it is exceeded. -/
def overLimit (l : List Placed) (count : Placed → Nat) (limit : Nat) : BitVec 6 :=
  if limit < l.foldl (fun n p => n + count p) 0 then maskOf l (fun p => decide (count p ≠ 0)) else 0

/-- Syllables with op6 0x38, 0x39 or 0x3A. -/
def Placed.isSystem (p : Placed) : Bool :=
  (decide (p.slot = .s0) || decide (p.slot = .s1)) &&
    (decide (p.bits / 2 ^ 26 = 0x38) || decide (p.bits / 2 ^ 26 = 0x39) || decide (p.bits / 2 ^ 26 = 0x3A))

/-- The two syllables that break R224, if they do. -/
def streamClash (l : List Placed) : BitVec 6 :=
  let queueOf := fun (f : Instr → Option (Fin 16)) (p : Placed) => match p.syl with
    | .op i => f i
    | _ => none
  let vq := l.findSome? (fun p => if p.slot = .v then queueOf Instr.streamQueue p else none)
  let qq := l.findSome? (fun p => if p.slot = .q then queueOf Instr.qSlotQueue p else none)
  if vq.isSome && vq == qq then Slot.v.mask ||| Slot.q.mask else 0

/-- The offending slots of a bundle (R126, R127, R128, R224); the header bits offend by no slot. -/
def offending (l : List Placed) : BitVec 6 :=
  let dup := fun (p : Placed) => p.uses.named.any fun d => l.any fun q => decide (q.slot ≠ p.slot) && q.uses.named.contains d
  let dupOwn := fun (p : Placed) => !decide p.uses.named.Nodup
  maskOf l (fun p => decide (p.syl = .illegal)) ||| maskOf l (fun p => dup p || dupOwn p)
    ||| overLimit l (fun p => p.uses.readCount .s) 6 ||| overLimit l (fun p => p.uses.writeCount .s) 3
    ||| overLimit l (fun p => p.uses.readCount .v) 4 ||| overLimit l (fun p => p.uses.writeCount .v) 2
    ||| overLimit l (fun p => p.uses.readCount .p) 4 ||| overLimit l (fun p => p.uses.writeCount .p) 2
    ||| overLimit l (fun p => p.uses.access) 2
    ||| overLimit l (fun p => if p.isSystem then 1 else 0) 1
    ||| streamClash l

/-- A decoded bundle. -/
structure Bundle where
  hdr : Header
  slots : List Placed
  /-- illegal by R127, with the offending slots -/
  illegal : Option (BitVec 6)
deriving DecidableEq, Repr

/-- The decoder of a bundle from its bytes, of which there are 2·len (R117). -/
def decodeBundle (bytes : List Byte) : Bundle :=
  let hdr := decodeHeader (BitVec.ofNat 16 (leNat (bytes.take 2)))
  let slots := decodeSyllables hdr.len hdr.slots (bytes.drop 2)
  let bad := offending slots
  ⟨hdr, slots, if hdr.bad || bad != 0 then some bad else none⟩

/-- The bits of an instruction that stands alone in a slot. -/
def encodeIn (s : Slot) (i : Instr) : Option Nat :=
  match s with
  | .s0 | .s1 => (encodeS i).map BitVec.toNat
  | .v => (encodeV i).map BitVec.toNat
  | .x => (encodeX i).map BitVec.toNat
  | .m => (encodeM i).map BitVec.toNat
  | .q => (encodeQ i).map BitVec.toNat

/-- The bytes of a bundle that holds one slot operation, or of a pure bundle for `nop`. -/
def encodeAlone (wt : Fin 8) (dp st : Bool) (i : Instr) : Option (List Byte) :=
  match i with
  | .nop wt dp st => some (leBytes (encodeHeader wt dp st 0).toNat 2)
  | i => allSlots.findSome? fun s => (encodeIn s i).map fun w =>
      leBytes (encodeHeader wt dp st s.mask).toNat 2 ++ leBytes w (2 * s.parcels)

/-- The instruction of a legal bundle with at most one slot operation. -/
def Bundle.single (b : Bundle) : Option Instr :=
  match b.illegal, b.slots with
  | none, [] => some (.nop b.hdr.wt b.hdr.dp b.hdr.st)
  | none, [p] => match p.syl with
    | .op i => some i
    | _ => none
  | _, _ => none

/-- Bytes of an instruction whose bits, numbered as spec/opcode_table.json numbers them, are `w`: the table numbers only
pure bundles, one 16-bit parcel; any further parcel is zero. The longest bundle is 19 parcels. -/
def tableBytes (nbits w : Nat) : List Byte := leBytes (w % 2 ^ nbits) 38

end Sys2Proof

/-- The instruction the decoder reads from a bundle whose bits are `w`, where the bundle holds at most one slot
operation. -/
def Sys2Proof.decodeTableWord (nbits w : Nat) : Option Sys2Proof.Instr :=
  (Sys2Proof.decodeBundle (Sys2Proof.tableBytes nbits w)).single
end

