-- ==== Sys2Proof/Machine/Num.lean ====
section
/-! DEFINITION. Number formats, exact values, rounding, the stochastic generator, codebooks and scales (R35 to R56). -/
namespace Sys2Proof.Machine

/-- The floating formats (R37). -/
inductive FFmt where
  | f32 | f16 | bf16 | e4m3 | e5m2 | e2m1
deriving DecidableEq, Repr

/-- Mantissa bits (R37). -/
def FFmt.man : FFmt → Nat
  | .f32 => 23 | .f16 => 10 | .bf16 => 7 | .e4m3 => 3 | .e5m2 => 2 | .e2m1 => 1
/-- Exponent bits (R37). -/
def FFmt.expBits : FFmt → Nat
  | .f32 => 8 | .f16 => 5 | .bf16 => 8 | .e4m3 => 4 | .e5m2 => 5 | .e2m1 => 2
/-- Exponent bias (R37). -/
def FFmt.bias : FFmt → Nat
  | .f32 => 127 | .f16 => 15 | .bf16 => 127 | .e4m3 => 7 | .e5m2 => 15 | .e2m1 => 1
/-- Width in bits. -/
def FFmt.width (f : FFmt) : Nat := 1 + f.expBits + f.man
/-- Code of the greatest finite magnitude (R37). -/
def FFmt.maxCode : FFmt → Nat
  | .f32 => 0x7F7FFFFF | .f16 => 0x7BFF | .bf16 => 0x7F7F | .e4m3 => 0x7E | .e5m2 => 0x7B | .e2m1 => 0x7
/-- Code of +∞; none where the format has no infinity. -/
def FFmt.infCode : FFmt → Option Nat
  | .f32 => some 0x7F800000 | .f16 => some 0x7C00 | .bf16 => some 0x7F80 | .e5m2 => some 0x7C
  | .e4m3 => none | .e2m1 => none
/-- The canonical NaN; none for e2m1 (R37). -/
def FFmt.nanCode : FFmt → Option Nat
  | .f32 => some 0x7FC00000 | .f16 => some 0x7E00 | .bf16 => some 0x7FC0 | .e4m3 => some 0x7F | .e5m2 => some 0x7E
  | .e2m1 => none

/-- An exact value, or one known by its leading part: `fin neg m e st` is ±(m + θ)·2^e, with θ = 0 where `st` is false and
0 < θ < 1 where it is true. -/
inductive Ext where
  | nan
  | inf (neg : Bool)
  | fin (neg : Bool) (mant : Nat) (exp : Int) (sticky : Bool)
deriving DecidableEq, Repr

def Ext.zero : Ext := .fin false 0 0 false
def Ext.ofInt (i : Int) : Ext := .fin (decide (i < 0)) i.natAbs 0 false
def Ext.isNan : Ext → Bool
  | .nan => true
  | _ => false
def Ext.isInf : Ext → Bool
  | .inf _ => true
  | _ => false
def Ext.isZero : Ext → Bool
  | .fin _ 0 _ false => true
  | _ => false
def Ext.isNeg : Ext → Bool
  | .fin n _ _ _ => n
  | .inf n => n
  | .nan => false
def Ext.negate : Ext → Ext
  | .nan => .nan
  | .inf n => .inf (!n)
  | .fin n m e s => .fin (!n) m e s
/-- Exact multiplication by 2^k (R46). -/
def Ext.scale (x : Ext) (k : Int) : Ext :=
  match x with
  | .fin n m e s => .fin n m (e + k) s
  | x => x

/-- The value of an encoding (R37). -/
def FFmt.decode (f : FFmt) (code : Nat) : Ext :=
  let m := code % 2 ^ f.man
  let e := (code / 2 ^ f.man) % 2 ^ f.expBits
  let neg := (code / 2 ^ (f.man + f.expBits)) % 2 == 1
  let finite := if e = 0 then Ext.fin neg m (1 - (f.bias : Int) - f.man) false
    else Ext.fin neg (2 ^ f.man + m) ((e : Int) - f.bias - f.man) false
  match f with
  | .e4m3 => if e = 15 ∧ m = 7 then .nan else finite
  | .e2m1 => finite
  | _ => if e = 2 ^ f.expBits - 1 then (if m = 0 then .inf neg else .nan) else finite

/-- A signalling NaN of f32, f16 or bf16 (R38). -/
def FFmt.isSignalling (f : FFmt) (code : Nat) : Bool :=
  match f with
  | .f32 | .f16 | .bf16 => (f.decode code).isNan && (code / 2 ^ (f.man - 1)) % 2 == 0
  | _ => false

/-! ### Flags (R44) -/

abbrev Flags := BitVec 5
def flagNV : Flags := 1
def flagDZ : Flags := 2
def flagOF : Flags := 4
def flagUF : Flags := 8
def flagNX : Flags := 16
def flagIf (c : Bool) (f : Flags) : Flags := if c then f else 0

/-! ### Exact arithmetic -/

/-- Signed integer value of a magnitude at exponent `e0 ≤ e`. -/
def alignTo (neg : Bool) (m : Nat) (e e0 : Int) : Int :=
  let v := (m : Int) * 2 ^ (e - e0).toNat
  if neg then -v else v

/-- Exact sum with its flags; `down` (mode RD) gives −0 for an exact zero sum of unlike terms (R181). Sticky terms do not
occur in sums. -/
def Ext.add (down : Bool) : Ext → Ext → Ext × Flags
  | .nan, _ => (.nan, 0)
  | _, .nan => (.nan, 0)
  | .inf a, .inf b => if a = b then (.inf a, 0) else (.nan, flagNV)
  | .inf a, .fin .. => (.inf a, 0)
  | .fin .., .inf b => (.inf b, 0)
  | .fin na ma ea _, .fin nb mb eb _ =>
    if ma = 0 ∧ mb = 0 then
      (if na = nb then (.fin na 0 0 false, 0) else (.fin down 0 0 false, 0))
    else
      let e0 := min ea eb
      let v := alignTo na ma ea e0 + alignTo nb mb eb e0
      if v = 0 then (.fin down 0 0 false, 0) else (.fin (decide (v < 0)) v.natAbs e0 false, 0)

/-- Exact product with its flags (R181). -/
def Ext.mul : Ext → Ext → Ext × Flags
  | .nan, _ => (.nan, 0)
  | _, .nan => (.nan, 0)
  | .inf a, .inf b => (.inf (a != b), 0)
  | .inf a, .fin nb mb _ _ => if mb = 0 then (.nan, flagNV) else (.inf (a != nb), 0)
  | .fin na ma _ _, .inf b => if ma = 0 then (.nan, flagNV) else (.inf (na != b), 0)
  | .fin na ma ea _, .fin nb mb eb _ => (.fin (na != nb) (ma * mb) (ea + eb) false, 0)

/-- The sum of a list of finite values or infinities of one sign, as repeated addition gives it. -/
def Ext.sumList (down : Bool) : List Ext → Ext
  | [] => .zero
  | [x] => x
  | x :: rest => (Ext.add down x (Ext.sumList down rest)).1

/-- The sum of a list of exact values (R54, R55, R220): a NaN, or infinities of both signs, make it NaN, and the latter set
NV; `down` as in `Ext.add`. The empty sum is +0. -/
def Ext.sum (down : Bool) (l : List Ext) : Ext × Flags :=
  let both := l.contains (.inf true) && l.contains (.inf false)
  (if both || l.any Ext.isNan then .nan else Ext.sumList down l, flagIf both flagNV)

/-- Order of two values that are not NaN, −0 below +0. -/
def Ext.lt : Ext → Ext → Bool
  | .inf true, .inf true => false
  | .inf true, _ => true
  | _, .inf true => false
  | .inf false, _ => false
  | _, .inf false => true
  | .fin na ma ea _, .fin nb mb eb _ =>
    let e0 := min ea eb
    let a := alignTo na ma ea e0
    let b := alignTo nb mb eb e0
    decide (a < b) || (decide (a = b) && decide (ma = 0) && na && !nb)
  | _, _ => false

/-- Equality of two values that are not NaN, +0 = −0. -/
def Ext.numEq : Ext → Ext → Bool
  | .inf a, .inf b => a == b
  | .fin na ma ea _, .fin nb mb eb _ =>
    let e0 := min ea eb
    decide (alignTo na ma ea e0 = alignTo nb mb eb e0)
  | _, _ => false

/-- Strictly less in value, +0 = −0. -/
def Ext.numLt (a b : Ext) : Bool := a.lt b && !a.numEq b

/-! ### Rounding (R39 to R43) -/

/-- A rounding mode with the draw st[31:8] of the generator where it is stochastic. -/
inductive RMode where
  | rne | rtz | ru | rd
  | sr (draw : Nat)
deriving DecidableEq, Repr

/-- One step of the stochastic generator (R43). -/
def srStep (state : BitVec 32) : BitVec 32 :=
  let a := if state = 0 then 0x6A3D5B17#32 else state
  let b := a ^^^ (a <<< 13)
  let c := b ^^^ (b >>> 17)
  c ^^^ (c <<< 5)

/-- Generator state and sticky flags that an operation carries from element to element. -/
structure RAcc where
  sr : BitVec 32
  fl : Flags
deriving DecidableEq, Repr

def RAcc.flag (a : RAcc) (f : Flags) : RAcc := { a with fl := a.fl ||| f }

/-- The mode of one RoundTo call: SR steps the generator, once (R43). -/
def RAcc.mode (a : RAcc) : Rm → RMode × RAcc
  | .rne => (.rne, a)
  | .rtz => (.rtz, a)
  | .ru => (.ru, a)
  | .rd => (.rd, a)
  | .sr => let s := srStep a.sr; (.sr (s >>> 8).toNat, { a with sr := s })

/-- Whether the magnitude rounds up: the quotient `n`, the remainder `r` of 2^d, and the sticky part. -/
def roundsUp (mode : RMode) (neg : Bool) (n r d : Nat) (sticky : Bool) : Bool :=
  match mode with
  | .rne => decide (2 ^ d < 2 * r) || (decide (2 * r = 2 ^ d) && (sticky || decide (n % 2 = 1)))
  | .rtz => false
  | .ru => !neg && (decide (r ≠ 0) || sticky)
  | .rd => neg && (decide (r ≠ 0) || sticky)
  | .sr draw =>
    let half := if sticky then 1 else 0
    if r = 0 ∧ sticky = false then false
    else if neg then
      let frac := ((2 ^ d - r) * 2 - half) * 2 ^ 24 / 2 ^ (d + 1)
      !decide (draw < frac)
    else
      let frac := (r * 2 + half) * 2 ^ 24 / 2 ^ (d + 1)
      decide (draw < frac)

/-- Quotient, remainder and shift of a magnitude m·2^e at the quantum 2^q. -/
def splitAt (m : Nat) (e q : Int) : Nat × Nat × Nat :=
  if q ≤ e then (m * 2 ^ (e - q).toNat, 0, 0)
  else
    let d := (q - e).toNat
    (m / 2 ^ d, m % 2 ^ d, d)

/-- The code (without its sign) of n·2^q, where n ≤ 2^(man+1) and q is the quantum of n's binade. -/
def FFmt.magCode (f : FFmt) (n : Nat) (q : Int) : Nat :=
  let (n, q) := if n = 2 ^ (f.man + 1) then (n / 2, q + 1) else (n, q)
  if n < 2 ^ f.man then n
  else ((q + f.man + f.bias).toNat) * 2 ^ f.man + (n - 2 ^ f.man)

def FFmt.signBit (f : FFmt) (neg : Bool) : Nat := if neg then 2 ^ (f.man + f.expBits) else 0

/-- The result of an overflow (R40.3). -/
def FFmt.overflow (f : FFmt) (mode : RMode) (neg : Bool) : Nat :=
  let toMax := match mode with
    | .rtz => true
    | .ru => neg
    | .rd => !neg
    | _ => false
  match f.infCode with
  | some i => f.signBit neg + (if toMax then f.maxCode else i)
  | none => f.signBit neg + f.maxCode

/-- RoundTo for a floating format (R40): the code and the flags. -/
def FFmt.round (f : FFmt) (mode : RMode) : Ext → Nat × Flags
  | .nan => match f.nanCode with
    | some c => (c, 0)
    | none => (0, flagNV)
  | .inf neg => match f.infCode with
    | some c => (f.signBit neg + c, 0)
    | none => (f.signBit neg + f.maxCode, flagOF ||| flagNX)
  | .fin neg m e sticky =>
    if m = 0 ∧ sticky = false then (f.signBit neg, 0)
    else
      let q := max (e + (m.log2 : Int)) (1 - (f.bias : Int)) - f.man
      let (n, r, d) := splitAt m e q
      let inexact := decide (r ≠ 0) || sticky
      let n := if roundsUp mode neg n r d sticky then n + 1 else n
      let code := f.magCode n q
      if f.maxCode < code then (f.overflow mode neg, flagOF ||| flagNX)
      else
        (f.signBit neg + code,
          flagIf inexact flagNX ||| flagIf (inexact && decide (code < 2 ^ f.man)) flagUF)

/-- Rounding to an integer (R41), before saturation, with NX. -/
def roundInt (mode : RMode) (neg : Bool) (m : Nat) (e : Int) (sticky : Bool) : Int × Flags :=
  let (n, r, d) := splitAt m e 0
  let n := if roundsUp mode neg n r d sticky then n + 1 else n
  (if neg then -(n : Int) else n, flagIf (decide (r ≠ 0) || sticky) flagNX)

/-- RoundTo for an integer range (R41). -/
def roundToInt (lo hi : Int) (mode : RMode) : Ext → Int × Flags
  | .nan => (0, flagNV)
  | .inf neg => (if neg then lo else hi, flagNV)
  | .fin neg m e sticky =>
    let (v, f) := roundInt mode neg m e sticky
    if v < lo then (lo, f ||| flagNV) else if hi < v then (hi, f ||| flagNV) else (v, f)

/-- A RoundTo call in a floating format, which steps the generator under SR. -/
def roundF (f : FFmt) (rm : Rm) (x : Ext) (a : RAcc) : Nat × RAcc :=
  let (mode, a) := a.mode rm
  let (c, fl) := f.round mode x
  (c, a.flag fl)

/-- A RoundTo call to an integer range. -/
def roundI (lo hi : Int) (rm : Rm) (x : Ext) (a : RAcc) : Int × RAcc :=
  let (mode, a) := a.mode rm
  let (c, fl) := roundToInt lo hi mode x
  (c, a.flag fl)

/-- Reading an operand: its value, with NV for a signalling NaN (R38). -/
def FFmt.read (f : FFmt) (code : Nat) (a : RAcc) : Ext × RAcc :=
  (f.decode code, a.flag (flagIf (f.isSignalling code) flagNV))

/-! ### Element types and formats -/

/-- Number of bits of an element. -/
def tyBits (t : Ty) : Nat := match t with
  | .e2m1 => 4
  | .i8 | .n8 | .e4m3 | .e5m2 => 8
  | .i16 | .n16 | .f16 | .bf16 | .l8 => 16
  | .i32 | .n32 | .f32 => 32

/-- The floating format of a type, if it is one. -/
def tyFloat : Ty → Option FFmt
  | .f16 => some .f16 | .bf16 => some .bf16 | .f32 => some .f32
  | .e4m3 => some .e4m3 | .e5m2 => some .e5m2 | .e2m1 => some .e2m1
  | _ => none

def tySigned : Ty → Bool
  | .i8 | .i16 | .i32 => true
  | _ => false

/-- Range of an integer type of `bits` bits. -/
def intLo (signed : Bool) (bits : Nat) : Int := if signed then -(2 ^ (bits - 1) : Int) else 0
def intHi (signed : Bool) (bits : Nat) : Int := if signed then (2 ^ (bits - 1) : Int) - 1 else (2 ^ bits : Int) - 1

/-- A field of `bits` bits read as signed or natural. -/
def readInt (signed : Bool) (bits : Nat) (v : Nat) : Int :=
  let u := v % 2 ^ bits
  if signed ∧ 2 ^ (bits - 1) ≤ u then (u : Int) - 2 ^ bits else u

/-- The low `bits` bits of an integer (R4). -/
def wrapInt (bits : Nat) (v : Int) : Nat := (v % 2 ^ bits).toNat

/-- Element formats of a page or slot (R35). -/
inductive Fmt where
  | raw | i8 | i4 | e4m3 | e5m2 | e2m1 | l8 | f16 | bf16 | f32 | i32
deriving DecidableEq, Repr

/-- FMT codes 0 to 10; 11 to 15 are reserved (R35). -/
def fmtOfCode (n : Nat) : Option Fmt :=
  match n with
  | 0 => some .raw | 1 => some .i8 | 2 => some .i4 | 3 => some .e4m3 | 4 => some .e5m2 | 5 => some .e2m1 | 6 => some .l8
  | 7 => some .f16 | 8 => some .bf16 | 9 => some .f32 | 10 => some .i32 | _ => none

def Fmt.code : Fmt → Nat
  | .raw => 0 | .i8 => 1 | .i4 => 2 | .e4m3 => 3 | .e5m2 => 4 | .e2m1 => 5 | .l8 => 6 | .f16 => 7 | .bf16 => 8
  | .f32 => 9 | .i32 => 10

/-- Width of an element in bits; 2 for a weight of l8 (R35). -/
def Fmt.bits : Fmt → Nat
  | .raw | .i8 | .e4m3 | .e5m2 => 8
  | .i4 | .e2m1 => 4
  | .l8 => 2
  | .f16 | .bf16 => 16
  | .f32 | .i32 => 32

/-- Size of the unit in which the format is addressed, in bytes (R217). -/
def Fmt.align : Fmt → Nat
  | .f16 | .bf16 | .l8 => 2
  | .f32 | .i32 => 4
  | _ => 1

def Fmt.float : Fmt → Option FFmt
  | .e4m3 => some .e4m3 | .e5m2 => some .e5m2 | .e2m1 => some .e2m1 | .f16 => some .f16 | .bf16 => some .bf16
  | .f32 => some .f32 | _ => none

/-- Formats that may be block-scaled with GEO 1 to 4 (R48). -/
def Fmt.scalable : Fmt → Bool
  | .i8 | .i4 | .e4m3 | .e5m2 | .e2m1 | .l8 => true
  | _ => false

/-- Whether data of the format and geometry may be decoded, by a core whose MAINT mode is `maint` (R36, R48). -/
def geoLegal (f : Fmt) (geo : Nat) (maint : Bool) : Bool :=
  decide (geo = 0) || (f.scalable && decide (geo ≤ 4)) || (f.scalable && decide (f ≠ .l8) && decide (geo = 5) && maint)

/-- Elements of a block, GEO 1 to 4 (R47). -/
def geoBlock (geo : Nat) : Nat := 8 * 2 ^ geo

/-- Bytes of a block, GEO 1 to 4 (R47). -/
def blockBytes (f : Fmt) (geo : Nat) : Nat := geoBlock geo * f.bits / 8

/-- The value of an element code of a format other than raw and l8 (R35, R37). -/
def Fmt.value (f : Fmt) (code : Nat) : Ext :=
  match f.float with
  | some g => g.decode code
  | none => Ext.ofInt (readInt true f.bits code)

/-- Lane `lane` of an l8 index under a codebook table of four e4m3 bytes (R52). -/
def latticeLane (tab : BitVec 32) (idx : BitVec 16) (lane : Nat) : Ext :=
  let c := if idx.getLsbD 15 then 2 else 0
  let k := c + (if idx.getLsbD (7 + lane) then 1 else 0)
  let entry := (tab >>> (8 * k)).toNat % 256
  let sgn := if lane < 7 then idx.getLsbD lane
    else [0, 1, 2, 3, 4, 5, 6].foldl (fun acc j => acc != idx.getLsbD j) false
  match FFmt.e4m3.decode (entry % 128) with
  | .fin _ m e s => .fin sgn m e s
  | x => x

/-- The default codebook table (R53). -/
def defaultCodebook : BitVec 32 := 0x3C303800

/-- A scale byte (R45): its exponent, none for the NaN scale. -/
def scaleExp (byte : Nat) : Option Int := if byte = 255 then none else some ((byte : Int) - 127)

/-- An element under its block's scale byte (R45, R46). -/
def scaled (x : Ext) (byte : Nat) : Ext :=
  match scaleExp byte with
  | none => .nan
  | some k => x.scale k

/-! ### Group records of GEO 5 (R51) -/

/-- Positions of the set bits of a boundary bitmap. -/
def setBits (n : Nat) (v : Nat) : List Nat := (List.range n).filter (fun i => v.testBit i)

def gapsOk : List Nat → Bool
  | a :: b :: rest => decide (a + 8 ≤ b) && gapsOk (b :: rest)
  | _ => true

/-- Whether a 512-bit boundary bitmap is valid. -/
def bitmapOk (bm : Nat) : Bool :=
  let l := setBits 512 bm
  decide (l.head? = some 0) && gapsOk l && l.all (fun i => decide (i ≤ 504))

/-- The number of the block that element `i` of a group lies in. -/
def blockOf (bm i : Nat) : Nat := ((setBits 512 bm).filter (fun j => decide (j ≤ i))).length - 1

end Sys2Proof.Machine
end

