-- ==== Sys2Proof/Machine/Funs.lean ====
section
/-! DEFINITION. The functions of the X slot as exact values known to far more bits than any rounding reads (R230 to R233).
Quotients and roots are exact up to the sticky part. The transcendental functions are computed in fixed point with `fprec`
fraction bits (log entry 16). -/
namespace Sys2Proof.Machine

/-- Fraction bits of the fixed-point evaluations. -/
def fprec : Nat := 1024

/-- Integer square root by bits: the greatest r with r² ≤ n, for n < 4^bits. -/
def isqrtBits (n : Nat) : Nat → Nat → Nat
  | 0, r => r
  | b + 1, r =>
    let c := r + 2 ^ b
    isqrtBits n b (if c * c ≤ n then c else r)

def isqrt (n : Nat) : Nat := isqrtBits n (n.log2 / 2 + 1) 0

/-- Quotient of two positive magnitudes, as (m + θ)·2^e. -/
def divMag (neg : Bool) (ma : Nat) (ea : Int) (mb : Nat) (eb : Int) : Ext :=
  let k := 400 + mb.log2
  let n := ma * 2 ^ k
  .fin neg (n / mb) (ea - eb - k) (decide (n % mb ≠ 0))

/-- a / b (R232), with its flags. -/
def Ext.div : Ext → Ext → Ext × Flags
  | .nan, _ => (.nan, 0)
  | _, .nan => (.nan, 0)
  | .inf _, .inf _ => (.nan, flagNV)
  | .inf a, .fin nb _ _ _ => (.inf (a != nb), 0)
  | .fin na _ _ _, .inf b => (.fin (na != b) 0 0 false, 0)
  | .fin na ma ea _, .fin nb mb eb _ =>
    if mb = 0 then (if ma = 0 then (.nan, flagNV) else (.inf (na != nb), flagDZ))
    else if ma = 0 then (.fin (na != nb) 0 0 false, 0)
    else (divMag (na != nb) ma ea mb eb, 0)

/-- √x (R232). -/
def Ext.sqrt : Ext → Ext × Flags
  | .nan => (.nan, 0)
  | .inf true => (.nan, flagNV)
  | .inf false => (.inf false, 0)
  | .fin neg m e _ =>
    if m = 0 then (.fin neg 0 0 false, 0)
    else if neg then (.nan, flagNV)
    else
      let odd := e % 2
      let n := m * 2 ^ (odd.toNat + 400)
      let r := isqrt n
      (.fin false r ((e - odd) / 2 - 200) (decide (r * r ≠ n)), 0)

/-- 1/√x (R230, R231). -/
def Ext.rsqrt : Ext → Ext × Flags
  | .nan => (.nan, 0)
  | .inf true => (.nan, flagNV)
  | .inf false => (.zero, 0)
  | .fin neg m e _ =>
    if m = 0 then (.inf neg, flagDZ)
    else if neg then (.nan, flagNV)
    else
      let odd := e % 2
      let m := m * 2 ^ odd.toNat
      let n := 2 ^ 800 / m
      let r := isqrt n
      (.fin false r (-((e - odd) / 2) - 400) (decide (r * r * m ≠ 2 ^ 800)), 0)

/-- 1/x (R230, R231). -/
def Ext.rcp (x : Ext) : Ext × Flags := Ext.div (.fin false 1 0 false) x

/-- Σ t·y^k/k! from term k on, with `fprec` fraction bits. -/
def expSeries (y : Nat) : Nat → Nat → Nat → Nat → Nat
  | 0, _, _, acc => acc
  | fuel + 1, k, t, acc =>
    let t := t * y / 2 ^ fprec / k
    expSeries y fuel (k + 1) t (acc + t)

/-- e^y for a fixed-point y in [0, 1). -/
def expFix (y : Nat) : Nat := expSeries y 220 1 (2 ^ fprec) (2 ^ fprec)

/-- Σ z^(2k+1)/(2k+1). -/
def atanhSeries (z2 : Nat) : Nat → Nat → Nat → Nat → Nat
  | 0, _, _, acc => acc
  | fuel + 1, k, t, acc =>
    let t := t * z2 / 2 ^ fprec
    atanhSeries z2 fuel (k + 2) t (acc + t / (k + 2))

/-- ln m for a fixed-point m in [1, 2], by 2·atanh((m − 1)/(m + 1)). -/
def lnFix (m : Nat) : Nat :=
  let one := 2 ^ fprec
  let z := (m - one) * one / (m + one)
  2 * atanhSeries (z * z / one) 340 1 z z

def ln2Fix : Nat := lnFix (2 * 2 ^ fprec)

/-- A magnitude as fixed point with `fprec` fraction bits, and whether nothing was lost. -/
def toFix (m : Nat) (e : Int) : Nat := (splitAt m (e + fprec) 0).1

/-- 2^x (R230, R231). -/
def Ext.exp2 : Ext → Ext × Flags
  | .nan => (.nan, 0)
  | .inf true => (.zero, 0)
  | .inf false => (.inf false, 0)
  | .fin neg m e _ =>
    if m = 0 then (.fin false 1 0 false, 0)
    else if 10 ≤ e + (m.log2 : Int) then
      (.fin false 1 (if neg then -1024 else 1024) true, 0)
    else
      let x := toFix m e
      let v : Int := if neg then -(x : Int) else x
      let k := v / (2 ^ fprec : Int)
      let f := (v % (2 ^ fprec : Int)).toNat
      if f = 0 then (.fin false 1 k false, 0)
      else (.fin false (expFix (f * ln2Fix / 2 ^ fprec)) (k - fprec) true, 0)

/-- log2 x (R230, R231). -/
def Ext.log2 : Ext → Ext × Flags
  | .nan => (.nan, 0)
  | .inf true => (.nan, flagNV)
  | .inf false => (.inf false, 0)
  | .fin neg m e _ =>
    if m = 0 then (.inf true, flagDZ)
    else if neg then (.nan, flagNV)
    else
      let k := m.log2
      let i : Int := e + k
      if m = 2 ^ k then (Ext.ofInt i, 0)
      else
        let fr := lnFix (toFix m (-(k : Int))) * 2 ^ fprec / ln2Fix
        let v := i * (2 ^ fprec : Int) + fr
        (.fin (decide (v < 0)) v.natAbs (-(fprec : Int)) true, 0)

/-- e^y as (mantissa, exponent) for a fixed-point y ≥ 0: mantissa·2^exponent. -/
def expBig (y : Nat) : Nat × Int :=
  let k := y / ln2Fix
  (expFix (y % ln2Fix), (k : Int) - fprec)

/-- e^y as a fixed-point number for y below 256. -/
def expPos (y : Nat) : Nat :=
  let (m, e) := expBig y
  toFix m e

/-- tanh x (R230, R231). -/
def Ext.tanh : Ext → Ext × Flags
  | .nan => (.nan, 0)
  | .inf neg => (.fin neg 1 0 false, 0)
  | .fin neg m e _ =>
    if m = 0 then (.fin neg 0 0 false, 0)
    else if 7 ≤ e + (m.log2 : Int) then (.fin neg (2 ^ 400 - 1) (-400) true, 0)
    else
      let one := 2 ^ fprec
      let t := expPos (2 * toFix m e)
      (.fin neg ((t - one) * one / (t + one)) (-(fprec : Int)) true, 0)

/-- 1/(1 + e^−x) (R230, R231). -/
def Ext.sigm : Ext → Ext × Flags
  | .nan => (.nan, 0)
  | .inf true => (.zero, 0)
  | .inf false => (.fin false 1 0 false, 0)
  | .fin neg m e _ =>
    if m = 0 then (.fin false 1 (-1) false, 0)
    else if 8 ≤ e + (m.log2 : Int) then
      (if neg then .fin false 1 (-300) true else .fin false (2 ^ 400 - 1) (-400) true, 0)
    else
      let one := 2 ^ fprec
      let t := expPos (toFix m e)
      if neg then (.fin false (one * one / (t + one)) (-(fprec : Int)) true, 0)
      else (.fin false (t * one / (t + one)) (-(fprec : Int)) true, 0)

end Sys2Proof.Machine
end

