-- ==== Sys2Proof/Machine/Lanes.lean ====
section
/-! DEFINITION. What the vector operations compute: elements, guards and the results of the V and X slots as functions of
their operand values (R206 to R246). Results come as bits, with the generator and the flags in `RAcc`. -/
namespace Sys2Proof.Machine

/-- Elements of a type in a register (R206). -/
def lanes (t : Ty) : Nat := 2048 / tyBits t

/-- Element `i` of a register (R206). -/
def elem (t : Ty) (v : VWord) (i : Nat) : Nat := (v.extractLsb' (tyBits t * i) (tyBits t)).toNat

/-- Bit of the guard that enables element `i` (R206). -/
def guardBit (t : Ty) (i : Nat) : Nat := tyBits t * i / 8

def enabled (t : Ty) (g : PWord) (i : Nat) : Bool := g.getLsbD (guardBit t i)

/-- Values packed from lane 0 up, `bits` bits each, as a number. -/
def packNat (bits : Nat) : List Nat → Nat
  | [] => 0
  | x :: rest => x % 2 ^ bits + 2 ^ bits * packNat bits rest

def packElems (bits : Nat) (l : List Nat) : VWord := BitVec.ofNat 2048 (packNat bits l)

/-- The byte lanes of the enabled elements (R207). -/
def laneMask (t : Ty) (g : PWord) : PWord :=
  let w := tyBits t
  if w ≤ 8 then g
  else BitVec.ofNat 256 (packNat (w / 8) ((List.range (lanes t)).map fun i => if enabled t g i then 2 ^ (w / 8) - 1 else 0))

/-- All byte lanes. -/
def allLanes : PWord := BitVec.allOnes 256

/-- Byte lanes spread to bits. -/
def spread (m : PWord) : VWord :=
  BitVec.ofNat 2048 (packNat 8 ((List.range 256).map fun i => if m.getLsbD i then 255 else 0))

/-- A register after a write in the byte lanes of `m` (R207). -/
def merge (old new : VWord) (m : PWord) : VWord :=
  if m = allLanes then new else (old &&& ~~~(spread m)) ||| (new &&& spread m)

/-- Fold over lane numbers in ascending order, carrying the generator and flags, and collecting the values. -/
def mapLanes (f : Nat → RAcc → Nat × RAcc) : List Nat → RAcc → List Nat × RAcc
  | [], a => ([], a)
  | i :: rest, a =>
    let (x, a) := f i a
    let (xs, a) := mapLanes f rest a
    (x :: xs, a)

/-- An element-wise result: `f` on every enabled element (R209, R210, R228). -/
def vmap (t : Ty) (g : PWord) (f : Nat → RAcc → Nat × RAcc) (a : RAcc) : VWord × RAcc :=
  let (l, a) := mapLanes (fun i a => if enabled t g i then f i a else (0, a)) (List.range (lanes t)) a
  (packElems (tyBits t) l, a)

/-- A predicate with all bits of element `i` set where `f` holds and the element is enabled (R207, R211). -/
def pmap (t : Ty) (g : PWord) (f : Nat → RAcc → Bool × RAcc) (a : RAcc) : PWord × RAcc :=
  let w := tyBits t / 8
  let (l, a) := mapLanes (fun i a =>
    if enabled t g i then (let (b, a) := f i a; (if b then 2 ^ w - 1 else 0, a)) else (0, a)) (List.range (lanes t)) a
  (BitVec.ofNat 256 (packNat w l), a)

/-- A scalar broadcast to every element: its low bits (R208). -/
def broadcast (t : Ty) (s : Word) : VWord := packElems (tyBits t) (List.replicate (lanes t) (s.toNat % 2 ^ tyBits t))

/-! ### Integer elements (R209) -/

/-- Wrap or saturate an exact result. -/
def intResult (t : Ty) (sat : Bool) (x : Int) (a : RAcc) : Nat × RAcc :=
  let bits := tyBits t
  let lo := intLo (tySigned t) bits
  let hi := intHi (tySigned t) bits
  if sat && (decide (x < lo) || decide (hi < x)) then
    (wrapInt bits (if x < lo then lo else hi), a.flag flagNV)
  else (wrapInt bits x, a)

def ielem (t : Ty) (v : VWord) (i : Nat) : Int := readInt (tySigned t) (tyBits t) (elem t v i)

/-- An integer element operation on a and b. -/
def vint2 (f : Int → Int → Int) (t : Ty) (sat : Bool) (g : PWord) (va vb : VWord) (acc : RAcc) : VWord × RAcc :=
  vmap t g (fun i acc => intResult t sat (f (ielem t va i) (ielem t vb i)) acc) acc

/-- Multiply-add with the third source. -/
def vmadV (t : Ty) (sat : Bool) (g : PWord) (va vb vc : VWord) (acc : RAcc) : VWord × RAcc :=
  vmap t g (fun i acc => intResult t sat (ielem t va i * ielem t vb i + ielem t vc i) acc) acc

/-- The high half of the double-width product. -/
def vmulhV (t : Ty) (g : PWord) (va vb : VWord) (acc : RAcc) : VWord × RAcc :=
  vint2 (fun x y => (x * y) / (2 ^ tyBits t : Int)) t false g va vb acc

/-- A shift by the second source modulo the width. -/
def vshift (f : Ty → Nat → Nat → Nat) (t : Ty) (g : PWord) (va vb : VWord) (acc : RAcc) : VWord × RAcc :=
  vmap t g (fun i acc => (f t (elem t va i) (elem t vb i % tyBits t), acc)) acc

def shlElem (t : Ty) (x k : Nat) : Nat := x * 2 ^ k % 2 ^ tyBits t
def shrElem (_ : Ty) (x k : Nat) : Nat := x / 2 ^ k
def sraElem (t : Ty) (x k : Nat) : Nat := wrapInt (tyBits t) (readInt true (tyBits t) x / (2 ^ k : Int))

/-! ### Floating elements (R210, R182) -/

def tyF (t : Ty) : FFmt := (tyFloat t).getD .f32

/-- A rounded operation on two operands. -/
def fbin (f : FFmt) (rm : Rm) (op : Ext → Ext → Ext × Flags) (x y : Nat) (a : RAcc) : Nat × RAcc :=
  let (x, a) := f.read x a
  let (y, a) := f.read y a
  let (z, fl) := op x y
  roundF f rm z (a.flag fl)

def isDown (rm : Rm) : Bool := decide (rm = .rd)

def faddOp (f : FFmt) (rm : Rm) : Nat → Nat → RAcc → Nat × RAcc := fbin f rm (Ext.add (isDown rm))
def fsubOp (f : FFmt) (rm : Rm) : Nat → Nat → RAcc → Nat × RAcc := fbin f rm (fun x y => Ext.add (isDown rm) x y.negate)
def fmulOp (f : FFmt) (rm : Rm) : Nat → Nat → RAcc → Nat × RAcc := fbin f rm Ext.mul
def fdivOp (f : FFmt) (rm : Rm) : Nat → Nat → RAcc → Nat × RAcc := fbin f rm Ext.div

/-- x·y + z with one rounding (R181). -/
def fmaOp (f : FFmt) (rm : Rm) (x y z : Nat) (a : RAcc) : Nat × RAcc :=
  let (x, a) := f.read x a
  let (y, a) := f.read y a
  let (z, a) := f.read z a
  let (p, f1) := Ext.mul x y
  let (r, f2) := Ext.add (isDown rm) p z
  roundF f rm r (a.flag (f1 ||| f2))

def nanCode (f : FFmt) : Nat := f.nanCode.getD 0

/-- FMIN and FMAX (R182): `lesser` picks the lesser. -/
def fminmax (f : FFmt) (lesser : Bool) (x y : Nat) (a : RAcc) : Nat × RAcc :=
  let (ex, a) := f.read x a
  let (ey, a) := f.read y a
  let r := match ex, ey with
    | .nan, .nan => nanCode f
    | .nan, _ => y
    | _, .nan => x
    | ex, ey => if lesser then (if ey.lt ex then y else x) else (if ex.lt ey then y else x)
  (r, a)

/-- FABS and FNEG (R182). -/
def fsignOp (f : FFmt) (neg : Bool) (x : Nat) (a : RAcc) : Nat × RAcc :=
  let (ex, a) := f.read x a
  let top := 2 ^ (f.man + f.expBits)
  (if ex.isNan then nanCode f
    else if neg then (if top ≤ x then x - top else x + top) else x % top, a)

/-- Floating compares by condition code (R211); FEQ, FLT and FLE are eq, lt and le (R182). -/
def fcompare (f : FFmt) (c : CmpC) (x y : Nat) (a : RAcc) : Bool × RAcc :=
  let (ex, a) := f.read x a
  let (ey, a) := f.read y a
  let un := ex.isNan || ey.isNan
  let quiet := match c with
    | .eq | .ne | .un | .or => true
    | _ => false
  let a := if un && !quiet then a.flag flagNV else a
  let r := match c with
    | .eq => !un && ex.numEq ey
    | .ne => un || !ex.numEq ey
    | .lt => !un && ex.numLt ey
    | .le => !un && (ex.numLt ey || ex.numEq ey)
    | .gt => !un && ey.numLt ex
    | .ge => !un && (ey.numLt ex || ex.numEq ey)
    | .un => un
    | .or => !un
  (r, a)

/-- Integer compares (R211). -/
def icompare (c : CmpC) (x y : Int) : Bool :=
  match c with
  | .eq => decide (x = y)
  | .ne => decide (x ≠ y)
  | .lt => decide (x < y)
  | .le => decide (x ≤ y)
  | .gt => decide (y < x)
  | .ge => decide (y ≤ x)
  | .un => false
  | .or => true

def vf2 (op : FFmt → Nat → Nat → RAcc → Nat × RAcc) (t : Ty) (g : PWord) (va vb : VWord) (acc : RAcc) : VWord × RAcc :=
  vmap t g (fun i acc => op (tyF t) (elem t va i) (elem t vb i) acc) acc

def vf1 (op : FFmt → Nat → RAcc → Nat × RAcc) (t : Ty) (g : PWord) (va : VWord) (acc : RAcc) : VWord × RAcc :=
  vmap t g (fun i acc => op (tyF t) (elem t va i) acc) acc

/-- A function of one operand, rounded (R230, R232). -/
def fun1 (f : Ext → Ext × Flags) (rm : Rm) (fmt : FFmt) (x : Nat) (a : RAcc) : Nat × RAcc :=
  let (x, a) := fmt.read x a
  let (y, fl) := f x
  roundF fmt rm y (a.flag fl)

/-! ### Horizontal reductions (R220, R221) -/

/-- Enabled lane numbers, ascending. -/
def enabledLanes (t : Ty) (g : PWord) : List Nat := (List.range (lanes t)).filter (enabled t g)

/-- Read the elements of some lanes, collecting NV. -/
def readLanes (f : FFmt) (t : Ty) (v : VWord) (ls : List Nat) (a : RAcc) : List Ext × RAcc :=
  (ls.map (fun i => f.decode (elem t v i)),
    a.flag (flagIf (ls.any (fun i => f.isSignalling (elem t v i))) flagNV))

/-- 64-bit extension of an integer result. -/
def word64 (x : Int) : Word := BitVec.ofInt 64 x

def vrsumV (t : Ty) (rm : Rm) (g : PWord) (v : VWord) (a : RAcc) : Word × RAcc :=
  match tyFloat t with
  | none => (word64 ((enabledLanes t g).foldl (fun s i => s + ielem t v i) 0), a)
  | some f =>
    let (xs, a) := readLanes f t v (enabledLanes t g) a
    let (s, fl) := Ext.sum (isDown rm) xs
    let (c, a) := roundF .f32 rm s (a.flag fl)
    (BitVec.ofNat 64 c, a)

/-- Greatest (or least) of a list of values that are not NaN. -/
def extremum (least : Bool) : List Ext → Option Ext
  | [] => none
  | x :: rest => match extremum least rest with
    | none => some x
    | some y => some (if least then (if y.lt x then y else x) else (if x.lt y then y else x))

/-- VRMAX and VRMIN. -/
def vrextV (least : Bool) (t : Ty) (g : PWord) (v : VWord) (a : RAcc) : Word × RAcc :=
  match tyFloat t with
  | none =>
    let lo := intLo (tySigned t) (tyBits t)
    let hi := intHi (tySigned t) (tyBits t)
    let start := if least then hi else lo
    let pick := fun s i => let x := ielem t v i; if least then min s x else max s x
    (word64 ((enabledLanes t g).foldl pick start), a)
  | some f =>
    let (xs, a) := readLanes f t v (enabledLanes t g) a
    let r := match extremum least (xs.filter (fun x => !x.isNan)) with
      | some x => x
      | none => if xs.isEmpty then .inf (!least) else .nan
    (BitVec.ofNat 64 (FFmt.f32.round .rne r).1, a)

/-- VRMRS (R221): the sum and the validity bit. -/
def vrmrsV (t : Ty) (g valid : PWord) (v : VWord) (a : RAcc) : Word × Bool × RAcc :=
  let f := tyF t
  let ls := enabledLanes t g
  let good := ls.filter (enabled t valid)
  if good.isEmpty then (0, false, a)
  else
    let (xs, a) := readLanes f t v good a
    let (s, fl) := Ext.sum false xs
    let (sum, a) := roundF .f32 .rne s (a.flag fl)
    let (q, _) := Ext.div (Ext.ofInt ls.length) (Ext.ofInt good.length)
    let (ratio, a) := roundF .f32 .rne q a
    let (p, fl) := Ext.mul (FFmt.f32.decode sum) (FFmt.f32.decode ratio)
    let (out, a) := roundF .f32 .rne p (a.flag fl)
    (BitVec.ofNat 64 out, true, a)

/-! ### Division of integers (R233) -/

/-- Quotient and remainder with their flag, on values read as signed or natural numbers of `bits` bits. -/
def intDiv (signed : Bool) (bits : Nat) (x y : Int) : Int × Int × Flags :=
  if y = 0 then (if signed then -1 else 2 ^ bits - 1, x, flagDZ)
  else if signed ∧ x = -(2 ^ (bits - 1) : Int) ∧ y = -1 then (x, 0, flagNV)
  else (x.tdiv y, x - x.tdiv y * y, 0)

/-- Element-wise quotient or remainder; with WD, 32 elements of 64 bits enabled by guard bit 8i. -/
def vdivV (rem : Bool) (t : Ty) (wd : Bool) (g : PWord) (va vb : VWord) (acc : RAcc) : VWord × RAcc :=
  let bits := if wd then 64 else tyBits t
  let n := 2048 / bits
  let sg := tySigned t
  let at_ := fun (v : VWord) i => readInt sg bits (v.extractLsb' (bits * i) bits).toNat
  let (l, acc) := mapLanes (fun i acc =>
    if g.getLsbD (bits * i / 8) then
      let (q, r, fl) := intDiv sg bits (at_ va i) (at_ vb i)
      (wrapInt bits (if rem then r else q), acc.flag fl)
    else (0, acc)) (List.range n) acc
  (packElems bits l, acc)

/-- Byte lanes of elements of `bits` bits enabled by the guard bit of their lowest byte. -/
def wideMask (bits : Nat) (g : PWord) : PWord :=
  BitVec.ofNat 256 (packNat (bits / 8) ((List.range (2048 / bits)).map fun i =>
    if g.getLsbD (bits * i / 8) then 2 ^ (bits / 8) - 1 else 0))

/-! ### Quantisation (R234 to R236) -/

/-- Targets of MAXEXP: 0 e4m3, 1 e5m2, 2 e2m1, 3 i8. -/
def tgtEmax (tgt : Nat) : Int := match tgt with
  | 0 => 8 | 1 => 15 | 2 => 2 | _ => 6
def tgtTy (tgt : Nat) : Ty := match tgt with
  | 0 => .e4m3 | 1 => .e5m2 | 2 => .e2m1 | _ => .i8

/-- floor(log2 |x|) of a nonzero finite value. -/
def Ext.expOf : Ext → Int
  | .fin _ m e _ => e + (m.log2 : Int)
  | _ => 0

/-- The scale byte of one block (R235). -/
def maxexpByte (tgt : Nat) (xs : List Ext) : Nat :=
  if xs.any (fun x => x.isNan || x.isInf) then 255
  else
    let nz := xs.filter (fun x => !x.isZero)
    if nz.isEmpty then 127
    else
      let m := nz.foldl (fun m x => max m x.expOf) (-100000)
      (min (max (m - tgtEmax tgt + 127) 0) 254).toNat

/-- MAXEXP: the 64 bits of scales (R235). -/
def maxexpV (t : Ty) (tgt blk : Nat) (g : PWord) (v : VWord) (a : RAcc) : Word × RAcc :=
  let f := tyF t
  let b := 16 * 2 ^ blk
  let (_, a) := readLanes f t v (enabledLanes t g) a
  let bytes := (List.range (lanes t / b)).map fun j =>
    maxexpByte tgt (((List.range b).map (fun i => j * b + i)).filter (enabled t g) |>.map (fun i => f.decode (elem t v i)))
  (BitVec.ofNat 64 (packNat 8 bytes), a)

/-- The scale latch as MAXEXP writes it (R234). -/
def scaleLatch (t : Ty) (tgt blk : Nat) (scales : Word) : BitVec 72 :=
  encodeTy t ++ BitVec.ofNat 2 tgt ++ BitVec.ofNat 2 blk ++ scales

/-- CVTQ from the type and block of the latch (R236). -/
def cvtqV (src tgtT : Ty) (blk : Nat) (scales : Word) (rm : Rm) (g : PWord) (v : VWord) (a : RAcc) : VWord × RAcc :=
  let f := tyF src
  let b := 16 * 2 ^ blk
  let (l, a) := mapLanes (fun i a =>
    if enabled src g i then
      let byte := (scales >>> (8 * (i / b))).toNat % 256
      if byte = 255 then
        let a := (a.mode rm).2
        match tyFloat tgtT with
        | some tf => (match tf.nanCode with
          | some c => (c, a)
          | none => (0, a.flag flagNV))
        | none => (0, a.flag flagNV)
      else
        let (x, a) := f.read (elem src v i) a
        let y := x.scale (127 - (byte : Int))
        match tyFloat tgtT with
        | some tf => roundF tf rm y a
        | none => let (z, a) := roundI (-128) 127 rm y a; (wrapInt 8 z, a)
    else (0, a)) (List.range (lanes src)) a
  (packElems (tyBits tgtT) l, a)

/-! ### Conversions (R237, R238) -/

/-- Conv of one element; a widening between integer types extends its source whatever the mode is (R238). -/
def convElem (src dst : Ty) (mode : Nat) (x : Nat) (a : RAcc) : Nat × RAcc :=
  match tyFloat src, tyFloat dst with
  | none, none =>
    let v := readInt (tySigned src) (tyBits src) x
    intResult dst (decide (mode = 0) && decide (tyBits dst ≤ tyBits src)) v a
  | s, d =>
    let rm := (findCode encodeRm allRm (BitVec.ofNat 3 mode)).getD .rne
    let (ex, a) := match s with
      | some f => f.read x a
      | none => (Ext.ofInt (readInt (tySigned src) (tyBits src) x), a)
    match d with
    | some f => roundF f rm ex a
    | none =>
      let (z, a) := roundI (intLo (tySigned dst) (tyBits dst)) (intHi (tySigned dst) (tyBits dst)) rm ex a
      (wrapInt (tyBits dst) z, a)

/-- CVT, CVTW and CVTN (R237): the result and its byte lanes. -/
def cvtV (src dst : Ty) (part mode : Nat) (g : PWord) (v : VWord) (a : RAcc) : VWord × PWord × RAcc :=
  let ns := lanes src
  let nd := lanes dst
  let base := part * (if nd ≤ ns then nd else 0)
  let first := if ns < nd then part * ns else 0
  let count := min ns nd
  let g' := BitVec.ofNat 256 (packNat 1 ((List.range 256).map fun b =>
    let i := b * 8 / tyBits dst
    if g.getLsbD (guardBit dst i) && decide (first ≤ i) && decide (i < first + count) then 1 else 0))
  let (r, a) := vmap dst g' (fun i a => convElem src dst mode (elem src v (if ns < nd then i - first else base + i)) a) a
  (r, laneMask dst g', a)

/-! ### Codebook decoding, shuffles, index vectors (R240, R245, R246) -/

/-- CBDEC: part `k` of the 128 indices. -/
def cbdecV (t : Ty) (rm : Rm) (k : Nat) (tab : BitVec 32) (g : PWord) (v : VWord) (a : RAcc) : VWord × RAcc :=
  let nd := lanes t
  vmap t g (fun i a =>
    let idx := v.extractLsb' (16 * (k * nd / 8 + i / 8)) 16
    roundF (tyF t) rm (latticeLane tab idx (i % 8)) a) a

/-- SHUF under a pattern entry: 256 lanes of a 9-bit index and a zero flag (R242, R245). -/
def shufV (entry : BitVec 2560) (va vb : VWord) : VWord :=
  packElems 8 ((List.range 256).map fun i =>
    let lane := entry.extractLsb' (10 * i) 10
    if lane.getLsbD 9 then 0
    else
      let k := (lane.extractLsb' 0 9).toNat
      if k < 256 then (va.extractLsb' (8 * k) 8).toNat else (vb.extractLsb' (8 * (k - 256)) 8).toNat)

/-- PATLD: the entry that two index registers give (R243). -/
def patEntry (va vb : VWord) : BitVec 2560 :=
  let half := fun (v : VWord) => (List.range 128).map fun i => (v.extractLsb' (16 * i) 10).toNat
  BitVec.ofNat 2560 (packNat 10 (half va ++ half vb))

/-- VIDX (R246). -/
def vidxV (t : Ty) (a b : Word) : VWord :=
  packElems (tyBits t) ((List.range (lanes t)).map fun i => (a.toNat + i * b.toNat) % 2 ^ tyBits t)

/-! ### Predicates (R225 to R227) -/

/-- All bits of an element as a predicate. -/
def elemBits (t : Ty) (i : Nat) : PWord :=
  let w := tyBits t / 8
  BitVec.ofNat 256 ((2 ^ w - 1) * 2 ^ (w * i))

def pcntV (t : Ty) (a g : PWord) : Word := BitVec.ofNat 64 ((enabledLanes t (a &&& g)).length)

def pfirstV (t : Ty) (a g : PWord) : PWord :=
  match enabledLanes t (a &&& g) with
  | i :: _ => elemBits t i
  | [] => 0

def psetnV (t : Ty) (n : Word) (g : PWord) : PWord :=
  BitVec.ofNat 256 (2 ^ (tyBits t / 8 * min n.toNat (lanes t)) - 1) &&& g

/-! ### Lane moves (R212) -/

def vselV (t : Ty) (c : PWord) (va vb : VWord) : VWord :=
  packElems (tyBits t) ((List.range (lanes t)).map fun i => if enabled t c i then elem t va i else elem t vb i)

/-- One element of a register as a byte-lane mask, if enabled (VINS). -/
def insMask (t : Ty) (g : PWord) (i : Nat) : PWord := if enabled t g i then elemBits t i else 0

/-- VEXT: sign extension for the .i types, zero extension otherwise. -/
def vextV (t : Ty) (v : VWord) (i : Nat) : Word := word64 (readInt (tySigned t) (tyBits t) (elem t v i))

/-! ### Conditional streams (R222, R223) -/

/-- The enabled elements of a register as bytes. -/
def compact (t : Ty) (g : PWord) (v : VWord) : List Byte :=
  (enabledLanes t g).flatMap fun i => leBytes (elem t v i) (tyBits t / 8)

/-- VCPOP's element for each lane: element e0 + j of the slot for the j-th enabled lane, zero past the end. -/
def expandV (t : Ty) (e0 : Nat) (slot : VWord) (g : PWord) : VWord :=
  let step := fun (acc : List Nat × Nat) i =>
    if enabled t g i then
      ((if e0 + acc.2 < lanes t then elem t slot (e0 + acc.2) else 0) :: acc.1, acc.2 + 1)
    else (0 :: acc.1, acc.2)
  packElems (tyBits t) ((List.range (lanes t)).foldl step ([], 0)).1.reverse

end Sys2Proof.Machine
end

