-- ==== Sys2Proof/Machine/Maps.lean ====
section
/-! DEFINITION. Sparse data by key: lists of pairs with rising keys, and byte memories in one canonical form (R1, R57). -/
namespace Sys2Proof.Machine

variable {α : Type}

/-- The value at a key. -/
def find (l : List (Nat × α)) (k : Nat) : Option α :=
  match l with
  | [] => none
  | (j, x) :: rest => if j = k then some x else find rest k

/-- Set the value at a key, keys rising. -/
def put (l : List (Nat × α)) (k : Nat) (x : α) : List (Nat × α) :=
  match l with
  | [] => [(k, x)]
  | (j, y) :: rest =>
    if k < j then (k, x) :: (j, y) :: rest
    else if k = j then (k, x) :: rest
    else (j, y) :: put rest k x

/-- Remove a key. -/
def del (l : List (Nat × α)) (k : Nat) : List (Nat × α) :=
  match l with
  | [] => []
  | (j, y) :: rest => if j = k then rest else if k < j then (j, y) :: rest else (j, y) :: del rest k

/-- Change the value at a key, if there is one. -/
def alter (l : List (Nat × α)) (k : Nat) (f : α → α) : List (Nat × α) :=
  match l with
  | [] => []
  | (j, y) :: rest => if j = k then (j, f y) :: rest else (j, y) :: alter rest k f

/-- Put or remove. -/
def setAt (l : List (Nat × α)) (k : Nat) : Option α → List (Nat × α)
  | some x => put l k x
  | none => del l k

/-- A byte memory: addresses strictly rising, no entry equal to zero, which an unlisted address reads as (log entry 1). -/
abbrev Memory := List Host.Cell

/-- What an unlisted address reads as. -/
def Memory.unlisted : Byte := 0

/-- The byte at an address. -/
def Memory.read (m : Memory) (a : Nat) : Byte := (find m a).getD Memory.unlisted

/-- Store one byte. -/
def Memory.write (m : Memory) (a : Nat) (b : Byte) : Memory :=
  if b = Memory.unlisted then del m a else put m a b

/-- The canonical form. -/
def Memory.wf : Memory → Bool
  | [] => true
  | (a, b) :: rest => decide (b ≠ Memory.unlisted) &&
    (match rest with
      | [] => true
      | (a', _) :: _ => decide (a < a')) && Memory.wf rest

/-- `n` bytes from an address up. -/
def Memory.readBytes (m : Memory) (a : Nat) : Nat → List Byte
  | 0 => []
  | n + 1 => m.read a :: Memory.readBytes m (a + 1) n

/-- Store bytes from an address up. -/
def Memory.writeBytes (m : Memory) (a : Nat) : List Byte → Memory
  | [] => m
  | b :: rest => Memory.writeBytes (m.write a b) (a + 1) rest

/-- Bytes stored only where a mask says so. -/
def Memory.writeMasked (m : Memory) (a : Nat) : List (Byte × Bool) → Memory
  | [] => m
  | (b, e) :: rest => Memory.writeMasked (if e then m.write a b else m) (a + 1) rest

end Sys2Proof.Machine
end

