-- ==== Sys2Proof/Machine/Types.lean ====
section
/-! DEFINITION. The parts of the state that belong to a core and its contexts: latches, writes in flight, queues, CSRs,
engine command records, the matrix engine, the integrator array, and the record of the bundle now issuing. -/
namespace Sys2Proof.Machine

/-- A condition with its cause (R357): origin, kind, its number within the kind; the faulting byte of a translation-class
condition (R75) and the word for TVAL where the condition gives one. -/
structure Cond where
  origin : Nat
  kind : Nat
  sub : Nat
  badaddr : Option Word := none
  tval : Option Word := none
deriving DecidableEq, Repr

/-- A bypass latch (R124): valid in the current issue group, its class, its value, and the context cycle at which the
operation issued. -/
structure Latch where
  valid : Bool
  cls : RegCls
  value : VWord
  stamp : Nat
deriving DecidableEq, Repr

def Latch.cleared : Latch := ⟨false, .s, 0, 0⟩

/-- A fixed-latency write in flight (R32, R138, R361): it lands at the start of context cycle `due`. -/
structure Flight where
  due : Nat
  slot : Slot
  /-- destination file; none for a write of the scale latch only -/
  cls : Option RegCls
  num : Nat
  nw : Bool
  value : VWord
  /-- byte lanes the write changes -/
  enables : PWord
  flags : Flags
  /-- the scale latch it loads (R234) -/
  scale : Option (BitVec 72)
  /-- whether it loads its slot's latch, and in which issue group it issued -/
  latch : Bool
  group : Nat
  stamp : Nat
deriving DecidableEq, Repr

/-- State of one queue (R155). -/
structure Queue where
  cfg : Bool
  base : BitVec 22
  slotsz : BitVec 8
  log2n : BitVec 4
  rx : Bool
  head : BitVec 16
  free : BitVec 16
  tail : BitVec 16
  pres : BitVec 256
  tags : BitVec 1536
  opn : Bool
  okind : Bool
  fill : BitVec 8
  spo : Bool
  spi : Bool
  ref : BitVec 3
  sptgt : BitVec 15
  stail : BitVec 16
  sfree : BitVec 16
deriving DecidableEq, Repr

def Queue.cleared : Queue :=
  ⟨false, 0, 0, 0, false, 0, 0, 0, 0, 0, false, false, 0, false, false, 0, 0, 0, 0⟩

/-- The per-context CSRs that hold a value of their own (R198); CTXNUM, CCYC and CYCLE are read from elsewhere. -/
structure Csrs where
  fpflags : Word
  srstate : Word
  pfthresh : Word
  stklim : Word
  loopst : Word
  ls0 : Word
  le0 : Word
  lc0 : Word
  ls1 : Word
  le1 : Word
  lc1 : Word
  asidcur : Word
  uweight : Word
  slice : Word
  ytol : Word
  leasebudget : Word
  dpmax : Word
  pairwin : Word
  unitid : Word
  cause : Word
  trappc : Word
  donemask : Word
  badslots : Word
  tvec : Word
  badaddr : Word
  tval : Word
  tlLsu : Word
  tlCpy : Word
  tlMat : Word
  tlDda : Word
  tlCol : Word
deriving DecidableEq, Repr

/-- The values R102 gives at clearing: every CSR at its reset value. -/
def Csrs.cleared : Csrs where
  fpflags := 0
  srstate := 1
  pfthresh := 8
  stklim := 0
  loopst := 0
  ls0 := 0
  le0 := 0
  lc0 := 0
  ls1 := 0
  le1 := 0
  lc1 := 0
  asidcur := 0
  uweight := 0
  slice := 65536
  ytol := 1024
  leasebudget := 64
  dpmax := 8192
  pairwin := 4096
  unitid := 0
  cause := 0
  trappc := 0
  donemask := 0
  badslots := 0
  tvec := 0
  badaddr := 0
  tval := 0
  tlLsu := 0
  tlCpy := 0
  tlMat := 0
  tlDda := 0
  tlCol := 0

/-- What a resumed bundle reads from its entry snapshot (R360). -/
inductive Snap where
  | reg (cls : RegCls) (num : Nat) (value : VWord)
  | queue (num : Nat) (head tail : BitVec 16) (fill : BitVec 8) (opn okind : Bool)
deriving DecidableEq, Repr

/-- A bundle that TRET resumes (R367): its address, its done slots, its context cycle and its snapshot; slots that a bundle
breakpoint stopped are not checked again. -/
structure Resume where
  pc : Word
  done : BitVec 6
  cc : Nat
  snaps : List Snap
  unchecked : BitVec 6
deriving DecidableEq, Repr

/-- Power state of a bank (R109, R154), with the core cycle at which a rouse or a wake ends. -/
inductive Bank where
  | on
  | retained
  | off
  | rousing (until_ : Nat)
  | waking (until_ : Nat)
deriving DecidableEq, Repr

/-- What cleared for a context from outside it, for the presence lookahead (R148). -/
inductive Clear where
  /-- a register's pending mark cleared -/
  | reg (cls : RegCls) (num : Nat)
  /-- a presence bit set -/
  | pres (q : Nat) (slot : Nat)
  /-- FREE or SFREE advanced -/
  | free (q : Nat) (n : Nat)
  /-- TAIL advanced by a delivery -/
  | tail (q : Nat) (n : Nat)
  /-- an entry of an engine command queue freed -/
  | cmd (e : Engine)
  /-- a landing-buffer entry freed -/
  | land
  /-- an instruction sector arrived -/
  | sector (va : Nat)
  /-- a numbered operation completed -/
  | done (e : Engine) (n : Nat)
  /-- a barrier released -/
  | barrier
  /-- the answer to a splice request of a queue arrived -/
  | answer (q : Nat)
  /-- the lease was granted -/
  | lease
deriving DecidableEq, Repr

/-- A context and its bank (R136), with the marks of the arbiter and of the drain (R106 to R108, R152, R153). -/
structure Ctx where
  /-- the resident unit, by the model's key -/
  unit : Option Nat
  s : Vector Word 32
  v : Vector VWord 32
  p : Vector PWord 16
  latches : Vector Latch 4
  /-- fixed-latency writes in flight, in issue order -/
  flights : List Flight
  /-- context cycles of the unit so far: the number of the next one -/
  cc : Nat
  waits : Nat
  /-- core cycle before which a taken branch keeps the context from issuing (R140) -/
  penalty : Nat
  /-- number of the current issue group -/
  group : Nat
  pc : Word
  csr : Csrs
  scale : BitVec 72
  queues : Vector Queue 16
  resume : Option Resume
  /-- core cycle before which a trap entry or a return keeps the context from issuing (R362, R366) -/
  busy : Nat
  /-- the last bundle had DP set and its wait cycles have not all passed -/
  dpArmed : Bool
  /-- stopped at an accepted drain point, waiting for R153 since this core cycle -/
  draining : Option Nat
  bank : Bank
  /-- core cycle since which the bank has served no unit -/
  idleSince : Nat
  /-- slice remainder in core cycles (R108) -/
  sliceLeft : Nat
  /-- declared run and the core cycle of the last YIELD (R202) -/
  declared : Option Nat
  yieldAt : Nat
  overrunSeen : Bool
  /-- a YIELD of this core cycle, whose decision is still to be taken (R202) -/
  yielded : Option Nat
  /-- the slice begins at the next unit (R108) -/
  freshSlice : Bool
  /-- a slice has run out, and its switch is pending (R375) -/
  expired : Bool
  /-- the unit whose save holds the context until `moving` (R384) -/
  saving : Option Nat
  /-- the pending switch is a YIELD's decision (R377) -/
  switchYield : Bool
  /-- address and context cycle of the last bundle issued (R152) -/
  lastPc : Word
  lastCc : Nat
  /-- a switch is pending since this core cycle, to this unit or to none (R376) -/
  switch : Option (Nat × Option Nat)
  /-- an instruction fetch waits, since this core cycle -/
  fetching : Option Nat
  /-- instruction sectors that cannot be read, with their conditions (R111, R192) -/
  fetchFault : List (Nat × Cond)
  /-- a barrier arrival has been made by the bundle that waits (R93) -/
  arrived : Bool
  /-- the slot of the BAR that arrived -/
  barSlot : Option Slot
  /-- bundles issued in sequence up to the last one, newest first, at most 64 (R115) -/
  run : List Word
  /-- core cycle in which the context last spent a context cycle (R106) -/
  spent : Option Nat
  /-- what cleared in the last core cycles, with the cycle (R148) -/
  recent : List (Nat × Clear)
  /-- core cycle before which a save, a restore or a rouse holds the context (R384, R154) -/
  moving : Nat
  /-- the penalty of the last taken branch comes of a capture that the loop buffer has lost (R150, cause 11) -/
  lostLoop : Bool
  /-- registers that hold an uncorrectable error (R374) -/
  bad : List (RegCls × Nat)
deriving DecidableEq, Repr

/-- A cleared context (R102). -/
def Ctx.cleared : Ctx where
  unit := none
  s := Vector.replicate 32 0
  v := Vector.replicate 32 0
  p := Vector.replicate 16 0
  latches := Vector.replicate 4 Latch.cleared
  flights := []
  cc := 0
  waits := 0
  penalty := 0
  group := 0
  pc := 0
  csr := Csrs.cleared
  scale := 0
  queues := Vector.replicate 16 Queue.cleared
  resume := none
  busy := 0
  dpArmed := false
  draining := none
  bank := .off
  idleSince := 0
  sliceLeft := 0
  declared := none
  yieldAt := 0
  overrunSeen := false
  yielded := none
  freshSlice := false
  expired := false
  saving := none
  switchYield := false
  lastPc := 0
  lastCc := 0
  switch := none
  fetching := none
  fetchFault := []
  arrived := false
  barSlot := none
  run := []
  spent := none
  recent := []
  moving := 0
  lostLoop := false
  bad := []

/-- A queue slot that an engine reads: the unit and queue that own it, and its counter (R159). -/
structure SlotRef where
  unit : Nat
  queue : Nat
  ctr : BitVec 16
deriving DecidableEq, Repr

/-- Where an engine command or LSU operation stands. -/
inductive Stage where
  /-- in the context's command queue (R415) -/
  | queued
  /-- released for replay by TRET: it starts again, and holds no queue entry (R369) -/
  | replay
  /-- taken by its engine; it waits for presence, order, a grant or its effect -/
  | taken
  /-- waits for the host's answer to a page request (R73) -/
  | paged
  /-- faulted: kept in its record until TRET (R368) -/
  | faulted
  /-- its effect is made; only its completion is outstanding -/
  | effected
deriving DecidableEq, Repr

/-- A part of a global access within one page: offset within the access, virtual address, bytes, the physical address and the key
that its translation gives, page kind (R58, R61). The scale bytes of a VLDG count from offset 65,536 up, 256 for each read (R217). -/
structure Part where
  off : Nat
  va : Nat
  len : Nat
  pa : Nat
  key : Option Nat
  ord : BitVec 2
  write : Bool
  /-- core cycle from which it may perform -/
  due : Nat
deriving DecidableEq, Repr

/-- The fetch of a command's remote operands (R263): the prefetch depth, how many slices there are, the core cycles that each takes in
the array, how many the array has begun, the core cycle from which it may begin the next, and what has arrived: operand (0 A, 1 B)
and slice. -/
structure Fetch where
  pf : Nat
  slices : Nat
  width : Nat
  begun : Nat
  next : Nat
  got : List (Nat × Nat)
deriving DecidableEq, Repr

/-- A request for a slice, at the core that owns the operand (R263): the core that asks, the acceptance place of its command, the
operand and the slice, and the core cycle at which it is served. -/
structure SliceReq where
  core : Nat
  place : Nat
  oper : Nat
  slice : Nat
  due : Nat
deriving DecidableEq, Repr

/-- A command record: an LSU operation or a copy, matrix, integrator or collective command (R338, R299, R252, R284, R355,
R368), with the operand values taken at issue. -/
structure Cmd where
  eng : Engine
  /-- timeline number -/
  n : Nat
  /-- acceptance place in the core -/
  place : Nat
  /-- bundle address -/
  pc : Word
  op : Instr
  a : Word
  b : Word
  c : Word
  d : Word
  vec : VWord
  guard : PWord
  /-- generator value: start of the draws of VLDG and VSTG, seed of ACCRD -/
  seed : BitVec 32
  /-- codebook tables taken: VLDG at issue (R241), MMA at its start (R260) -/
  tabA : BitVec 32
  tabB : BitVec 32
  /-- counter of the slot that the command reserved or, for CPST, reads -/
  ctr : BitVec 16
  /-- the slots that a matrix command reads, once registered (R159, R262) -/
  srcA : Option SlotRef
  srcB : Option SlotRef
  /-- the fetch of its remote operands, once the array has taken them up (R263) -/
  fetch : Option Fetch
  /-- the splice target of the reserved slot -/
  splice : Option QEnd
  /-- the token (R334), and the number below which every LSU operation must complete first (R339) -/
  after : Nat
  /-- the last LSU number when it issued: it follows the acquires up to there (R323, R331) -/
  before : Nat
  /-- index of a PMMA in its unit (R264) -/
  index : Nat
  /-- landing-buffer entry -/
  land : Option Nat
  stage : Stage
  /-- core cycle at which the present stage may end -/
  due : Nat
  /-- core cycle at which it started -/
  started : Nat
  /-- FPFLAGS bits that it raises as it completes -/
  flags : Flags
  /-- core cycle at which the wait of a pair ends; 0 while there is none (R265) -/
  limit : Nat
  /-- the parts of the access, by page, that have not performed (R58, R321) -/
  parts : List Part
  /-- bytes bound so far: offset in the access and byte -/
  bound : List (Nat × Byte)
  /-- some part has performed: the rest of the access performs under the translation it has (R58, R76) -/
  begun : Bool
  /-- format and geometry of the first page -/
  attr : BitVec 11
  /-- number up to which LSU operations must complete before it, by a full FENCE (R319, R339) -/
  fenced : Nat
  /-- the next watchpoint check is skipped (R396) -/
  skipWatch : Bool
  /-- an acquire or a release (R323) -/
  acquire : Bool
  release : Bool
  /-- tagged for a load sample (R393): issue cycle, translation level, cycles in translation, serving level -/
  sample : Option (Nat × Nat × Nat × Nat)
deriving DecidableEq, Repr

/-- A landing-buffer entry (R145): its destination, and the write once it is ready. -/
structure Landing where
  id : Nat
  cls : RegCls
  num : Nat
  eng : Option (Engine × Nat)
  ready : Option (VWord × PWord × Flags)
  /-- core cycle before which it does not write -/
  due : Nat
deriving DecidableEq, Repr

/-- A tile configuration state block and the sharing of the matrix engine (R249, R252, R255 to R257). -/
structure Mat where
  /-- MSHARE of the core's launch: false lease, true alternate window -/
  share : Bool
  /-- the blocks of ctx0 and ctx1; lease mode uses the first -/
  block0 : BitVec 30
  block1 : BitVec 30
  holder : Option Nat
  /-- commands accepted under the lease -/
  count : Nat
  /-- the last holder, from which the next grant is counted -/
  last : Nat
  /-- contexts with a request pending -/
  requests : List Nat
  /-- elements that are not zero: key (acc·128 + row)·192 + column -/
  acc : List (Nat × BitVec 32)
  /-- core cycle before which each of the two streams is occupied -/
  busy0 : Nat
  busy1 : Nat
deriving DecidableEq, Repr

def Mat.cleared : Mat := ⟨false, 0, 0, none, 0, 3, [], [], 0, 0⟩

/-- One integrator cell (R273). -/
structure Cell where
  y : BitVec 32
  res : BitVec 32
  count : BitVec 32
  t : BitVec 5
  g : BitVec 4
  dom : BitVec 2
  out : BitVec 2
  dx : BitVec 12
  dy0 : BitVec 12
  dy1 : BitVec 12
  dy2 : BitVec 12
  /-- pending counters of the four inputs, 4 bits each -/
  pend : BitVec 16
deriving DecidableEq, Repr

def Cell.cleared : Cell := ⟨0, 0, 0, 0, 0, 0, 0, 0, 0, 0, 0, 0⟩

/-- One step-clock domain (R280). -/
structure Domain where
  /-- divisor minus 1 -/
  km1 : BitVec 16
  budget : BitVec 64
  steps : BitVec 64
deriving DecidableEq, Repr

def Domain.cleared : Domain := ⟨0, 0, 0⟩

/-- An external lane (R279). -/
structure Lane where
  credit : BitVec 16
  out : BitVec 2
deriving DecidableEq, Repr

/-- The integrator array of a core (R273 to R294). -/
structure Dda where
  /-- cells that are not cleared -/
  cells : List (Nat × Cell)
  domains : Vector Domain 4
  lanes : Vector Lane 64
  owner : Option Nat
  /-- an overrun that stopped the array, with its word (R281) -/
  pausedUntil : Nat
  /-- the command executing now ends its steps at this core cycle -/
  busyUntil : Nat
deriving DecidableEq, Repr

def Dda.cleared : Dda where
  cells := []
  domains := Vector.replicate 4 Domain.cleared
  lanes := Vector.replicate 64 ⟨0, 0⟩
  owner := none
  pausedUntil := 0
  busyUntil := 0

/-- An instruction-cache line (R110, R113): the line's virtual address, the ASID, its valid sectors, its 512 bytes and the
unit that holds it locked; `used` orders the lines of a set by last use. -/
structure ILine where
  va : Nat
  asid : Nat
  valid : BitVec 8
  bytes : List Byte
  lock : Option Nat
  used : Nat
deriving DecidableEq, Repr

/-- The loop-buffer capture of a core (R115): the context and its ASID, the target, the branching bundle and the first address past
it. -/
structure LoopBuf where
  ctx : Nat
  asid : Nat
  target : Word
  branch : Word
  stop : Nat
deriving DecidableEq, Repr

end Sys2Proof.Machine
end

