-- ==== Sys2Proof/Machine/DevTypes.lean ====
section
/-! DEFINITION. The parts of the state beyond the cores: translation, L2, launches and jobs, the walkers, gangs, barriers,
collectives, trace units, device registers and host ports. -/
namespace Sys2Proof.Machine

/-! ### Translation (R60 to R76) -/

/-- A cached translation of one page. -/
structure TlbEntry where
  asid : Nat
  va : Nat
  size : Nat
  pa : Nat
  nx : Bool
  w : Bool
  d : Bool
  dattr : BitVec 11
deriving DecidableEq, Repr

/-- A non-leaf entry that a die's walks have read and keep (R76): the range of addresses it serves, and its value. -/
structure NonLeaf where
  die : Nat
  asid : Nat
  va : Nat
  size : Nat
  val : Word
deriving DecidableEq, Repr

/-- Who waits for a walk or a page: the event that tries again, the missing right, and the core (if any) whose TLBs take the
entry. -/
structure Waiter where
  retry : Event
  right : Right
  core : Option Nat
deriving DecidableEq, Repr

/-- A page walk outstanding, or waiting in arrival order for one of the 256 places of its die (R72). -/
structure Walk where
  id : Nat
  die : Nat
  asid : Nat
  page : Nat
  started : Bool
  waiters : List Waiter
deriving DecidableEq, Repr

/-- A page request: sent at a core cycle, or waiting for one of the 512 places (R73). It carries the PASID of the ASID entry of
the die that first asked. -/
structure PageReq where
  asid : Nat
  pasid : BitVec 20
  page : Nat
  right : Right
  sent : Option Nat
  waiters : List Waiter
deriving DecidableEq, Repr

/-- An invalidation whose completion waits (R76): the PASID of an ATS invalidate, or a port and the key of its command, and the LSU
operations, by unit and number, that have begun under a dropped entry. -/
structure Inval where
  pasid : Option (BitVec 20)
  command : Option (Nat × Nat)
  waits : List (Nat × Nat)
deriving DecidableEq, Repr

/-- An ASID context entry that a die has cached (R66): its 32 bytes as words. -/
structure AsidEntry where
  w0 : Word
  soff : Word
  w2 : Word
  w3 : Word
deriving DecidableEq, Repr

/-! ### L2 and homes (R70, R71, R311 to R313) -/

/-- A 512-byte line in one die's L2. -/
structure L2Line where
  owned : Bool
  /-- key slot under which it was filled; none for clear -/
  key : Option Nat
  valid : BitVec 4
  dirty : BitVec 4
  /-- sectors that hold an uncorrectable error -/
  bad : BitVec 4
  data : List Byte
deriving DecidableEq, Repr

/-! ### Levels of work (R77 to R97) -/

/-- A function of a loaded code object (R20). -/
structure FnInfo where
  entry : Word
  priv : Nat
  sbud : Nat
  vbud : Nat
  pbud : Nat
  fflags : Nat
  yrun : Nat
  succ : Word
deriving DecidableEq, Repr

/-- A loaded code object (R22, R23). -/
structure Loaded where
  gp : Word
  textVa : Nat
  textLen : Nat
  funcs : List FnInfo
  entry : Nat
deriving DecidableEq, Repr

/-- A placement entry (R99). -/
structure PEntry where
  core : Nat
  ctx : Nat
  rank : Nat
  kind : Bool
  func : Nat
  partner : Nat
  off : Nat
  size : Nat
deriving DecidableEq, Repr

/-- A placement record (R98). -/
structure PRecord where
  share : Bool
  domain : Option (Nat × BitVec 8)
  ptab : Word
  slice : Nat
  ytol : Nat
  lbud : Nat
  entries : List PEntry
deriving DecidableEq, Repr

/-- A spawn pool with its used runs (offset, bytes), ascending (R105). -/
structure Pool where
  core : Nat
  off : Nat
  size : Nat
  used : List (Nat × Nat)
deriving DecidableEq, Repr

/-- A barrier in use: scope, instance, number, participant count, and the units that have arrived with the last LSU number of
each, up to which its arrival is a release (R93, R323). -/
structure Barrier where
  scope : Nat
  inst : Nat
  n : Nat
  count : Nat
  units : List (Nat × Nat)
deriving DecidableEq, Repr

/-- What keeps a static context from issuing in a freeze: context, cause, slot, bundle address and context cycle (R150). -/
structure FreezeCause where
  core : Nat
  cause : Nat
  slot : Option Slot
  pc : Word
  cc : Nat
  /-- a TTCTL write has cleared DEV since it began (R391) -/
  mute : Bool
deriving DecidableEq, Repr

/-- A freeze of a timing domain (R147 to R150). -/
structure Freeze where
  since : Nat
  /-- a condition of the lookahead has failed: the domain resumes four cycles after all pass -/
  look : Bool
  causes : List FreezeCause
  /-- all tests have passed: the core cycle at which the domain resumes -/
  resumeAt : Option Nat
deriving DecidableEq, Repr

/-- Where a launch stands. -/
inductive LPhase where
  /-- waits for its contexts since this core cycle (R101) -/
  | waiting (since : Nat)
  /-- reserved for a gang member that has not gone (R96) -/
  | reserved
  /-- its cores are being cleared or woken until this core cycle, its wait having begun at the first (R102) -/
  | preparing (since until_ : Nat)
  | placed
  /-- refused with a DETAIL and a LOADERR that are still to be written (R86) -/
  | refusing (detail loaderr : Nat)
  | ended (st : Nat)
deriving DecidableEq, Repr

/-- How a level is to end: STATE, CAUSE, DETAIL and LOADERR (R78). -/
structure Ending where
  st : Nat
  cause : Nat
  detail : Nat
  loaderr : Nat
deriving DecidableEq, Repr

/-- A launch (R86 to R88, R98 to R105). -/
structure Launch where
  job : Nat
  asid : Nat
  counter : Word
  node : LaunchNode
  loaded : Option Loaded
  record : Option PRecord
  phase : LPhase
  /-- index of its phase within the job (R106) -/
  phaseIdx : Nat
  /-- initial units, and the number of the next spawned unit -/
  n : Nat
  nextNumber : Nat
  /-- weight returned so far (R77, R88) -/
  returned : Nat
  pools : List Pool
  /-- STATE and cause with which it ends, once a fault or a cancel has decided it (R94, R363) -/
  ending : Option (Nat × Nat)
  barriers : List Barrier
  freeze : Option Freeze
  /-- L2 access counts and reuse buckets by die (R394) -/
  reuse : List (Nat × (Nat × List Nat))
  /-- waits for a page request of a record write or a read (R413) -/
  paged : Bool
deriving DecidableEq, Repr

/-- A WHILE that encloses the walker's node (R85): iterations completed, and the key from which the launches and copies of the
present pass are numbered. -/
structure WhileFrame where
  node : WhileNode
  count : Nat
  mark : Nat
deriving DecidableEq, Repr

/-- What the walker of a job does next or waits for. -/
inductive Walking where
  /-- an armed gang member (R96) -/
  | armed
  /-- begins a level: reads its record and writes its counter -/
  | opening (l : Level)
  /-- reads the node record `Job.node` -/
  | fetch
  /-- a node's event is due -/
  | node
  /-- a node whose launch is being accepted, then, with `wc`, until it ends -/
  | forLaunch (l next : Nat) (wc : Bool)
  | forCopy (id next : Nat)
  /-- a HOSTIRQ whose earlier copies still copy (R82) -/
  | forIrq (next vec : Nat)
  /-- waits for everything begun in the pass to end (R85) -/
  | forPass
  /-- waits for everything the graph began; `phase` at a PHASEEND (R83) -/
  | forGraph (phase : Bool)
  /-- a WAIT node since a core cycle (R84) -/
  | wait (n : WaitNode) (since : Nat)
  /-- waits for everything the graph began to end; the graph then ends as decided (R83, R94) -/
  | winding
  /-- final write of a level -/
  | closing (l : Level) (phaseEnd : Bool)
  | ended
deriving DecidableEq, Repr

/-- A COPY node in progress (R82, R83). -/
structure CopyJob where
  src : Word
  dst : Word
  bytes : Nat
  counter : Word
  /-- bytes copied so far -/
  at_ : Nat
  /-- STATE and cause with which it ends, once decided -/
  ending : Option (Nat × Nat)
  /-- it copies no more and its counter's final write is to be made; whether every byte was copied (R413) -/
  closing : Option Bool
  done : Bool
deriving DecidableEq, Repr

/-- What a gang member that arms still has to read (R96): its gang record, its job record, the phase table, the graph list from
an index on, a node. -/
inductive Explore where
  | gang (va : Word)
  | job (va : Word)
  | phase (va : Word)
  | graphs (list : Word) (i n : Nat)
  | node (base : Word) (i : Nat)
deriving DecidableEq, Repr

/-- A job (R81). -/
structure Job where
  port : Nat
  asid : Nat
  die : Nat
  record : Word
  phtab : Word
  nphase : Nat
  jcnt : Word
  /-- current phase: index, graph list, number of graphs, counter, graphs completed -/
  phase : Nat
  glist : Word
  ngraph : Nat
  pcnt : Word
  graphsDone : Nat
  phasesDone : Nat
  /-- current graph: index, base, counter, nodes visited, node index -/
  graph : Nat
  gbase : Word
  gcnt : Word
  visited : Nat
  node : Nat
  frames : List WhileFrame
  walking : Walking
  /-- levels whose counters have begun: job, phase, graph -/
  begunJob : Bool
  begunPhase : Bool
  begunGraph : Bool
  /-- launches and copies that the current graph began -/
  launches : List Nat
  copies : List (Nat × CopyJob)
  endGraph : Option Ending
  endPhase : Option Ending
  endJob : Option Ending
  /-- what is still to be read, and the nodes read, while the first phase's contexts are reserved (R96) -/
  todo : List Explore
  seen : List (Word × Nat)
  /-- a DONE field that is still to be written: its counter and the number (R402, R413) -/
  counting : Option (Word × Nat)
  /-- the walker waits for a page request (R413) -/
  paged : Bool
deriving DecidableEq, Repr

/-- A gang member on this device (R96, R97). -/
structure Gang where
  id : Word
  job : Option Nat
  port : Nat
  tag : BitVec 16
  count : Nat
  rank : Nat
  /-- every context of the first phase is reserved: the GANGARM has completed at this core cycle -/
  armed : Option Nat
  gone : Bool
  /-- its first cross-device wait: since which core cycle, and the record it is for, or none for a WAIT node -/
  waiting : Option (Nat × Option Nat)
  waited : Bool
deriving DecidableEq, Repr

/-! ### Collectives (R343 to R356) -/

structure CollLevel where
  bound : Nat
  coef : Int
  sstr : Int
  dstr : Int
deriving DecidableEq, Repr

/-- A collective record as read (R344), with its group table (R345). -/
structure CollHdr where
  op : Nat
  lossy : Bool
  elt : Nat
  tag : BitVec 32
  pb : Nat
  pr : Int
  sbase : Word
  dbase : Word
  mask : Word
  deadline : Nat
  xbytes : Nat
  srank : Int
  levels : List CollLevel
  group : List Member
deriving DecidableEq, Repr

inductive HStage where
  | accepted
  | running
  | complete
  | faulted
deriving DecidableEq, Repr

/-- A COLL at its die's Halyard. -/
structure HalRec where
  die : Nat
  rid : Nat
  unit : Nat
  /-- identity of its job: the ASID, and the gang (R347) -/
  asid : Nat
  gang : Option Nat
  n : Nat
  pc : Word
  va : Word
  rank : Nat
  stage : HStage
  /-- what it has read; it serves under it from then until it completes (R347) -/
  hdr : Option CollHdr
  /-- this run has read its record and opened; a replay reads it again -/
  fresh : Bool
  started : Nat
  /-- blocks settled: key transfer·512 + block; none for a block delivered invalid -/
  blocks : List (Nat × Option (List Byte))
  invalid : Nat
  written : Bool
  /-- members whose done has come -/
  dones : List Nat
  /-- its own done has been sent; the members to which no link was ready are still to be told -/
  told : Bool
  untold : List Nat
  fl : Flags
  ended : Nat
  cancelled : Bool
deriving DecidableEq, Repr

/-! ### Trace (R387 to R397) -/

structure ReuseTag where
  hash : BitVec 32
  launch : Nat
  count : Nat
deriving DecidableEq, Repr

/-- A load sample that waits for older tagged loads of its context: records of one context and type stand in CYCLE order (R387). -/
structure Sample where
  core : Nat
  ctx : Nat
  issue : Nat
  bytes : List Byte
deriving DecidableEq, Repr

structure Telltale where
  ttbuf : Word
  head : BitVec 32
  tail : BitVec 32
  ttctl : Word
  bp : Vector Word 8
  wp : Vector Word 4
  dump : Word
  tags : List ReuseTag
deriving DecidableEq, Repr

/-- Reset values of R387 to R397: RPER 8, SPER 10. -/
def Telltale.reset : Telltale where
  ttbuf := 0
  head := 0
  tail := 0
  ttctl := 0x80A00
  bp := Vector.replicate 8 0
  wp := Vector.replicate 4 0
  dump := 0
  tags := []

/-! ### Host ports and device registers (R49, R69, R74, R79, R97, R101, R353, R373, R379, R380, R407 to R412) -/

/-- A command consumed, with its completion once it is known. -/
structure Pending where
  tag : BitVec 16
  /-- what a later event completes it by: an invalidation number or a gang -/
  key : Nat
  done : Option (Nat × Word)
deriving DecidableEq, Repr

structure Port where
  cqctl : Word
  cqhead : BitVec 16
  cqtail : BitVec 16
  cplctl : Word
  cplhead : BitVec 16
  cpltail : BitVec 16
  pending : List Pending
  /-- bases committed by the HDM decoders (R407) -/
  hdm : List (Nat × BitVec 22)
  /-- result of the last HDM commit: false for the commit-error status -/
  hdmOk : Bool
deriving DecidableEq, Repr

def Port.reset : Port where
  cqctl := 0
  cqhead := 0
  cqtail := 0
  cplctl := 0
  cplhead := 0
  cpltail := 0
  pending := []
  hdm := []
  hdmOk := true

structure Regs where
  asidtab : Word
  hbmwin : Word
  ddrwin : Word
  prqto : Word
  placeto : Word
  gangto : Word
  savebase : Word
  dpmaxdev : Word
  fabid : Word
  linkrt : Vector Word 64
  fltwin : Word
  fltthr : Word
  pwrcap : Word
  pwrstat : Word
  maint : Vector Word 8
  hsem : Option Nat
  ready : BitVec 47
  /-- error log, oldest first, and OVF -/
  errlog : List Word
  ovf : Bool
deriving DecidableEq, Repr

def Regs.reset : Regs where
  asidtab := 0
  hbmwin := 384
  ddrwin := 0
  prqto := 0x01000000
  placeto := 0x00100000
  gangto := 0x08000000
  savebase := 0
  dpmaxdev := 8192
  fabid := 0
  linkrt := Vector.replicate 64 0
  fltwin := 0x400000000
  fltthr := 16
  pwrcap := 2600
  pwrstat := 850 * 65536
  maint := Vector.replicate 8 0
  hsem := none
  ready := 0
  errlog := []
  ovf := false

/-- What the device has sent to the outside, oldest first. -/
inductive Out where
  | msix (port : Nat) (vec : Nat)
  | pageRequest (pasid : BitVec 20) (page : Nat) (right : Right)
  | gangCancel (gang : Word) (cause : BitVec 16)
  /-- the answer of an ERRLOG read -/
  | readData (port : Nat) (v : Word)
  /-- a pull request, a block served and a done over a device link -/
  | collRequest (link : Nat) (r : CollReq)
  | collBlock (link : Nat) (b : CollBlock)
  | collDone (link : Nat) (key : CollKey) (rank : Nat) (dst : Member)
  | invalidated (pasid : BitVec 20)
  /-- a back-invalidate snoop of 256 bytes, and whether it invalidates (R313) -/
  | backSnoop (pa : Nat) (inv : Bool)
deriving DecidableEq, Repr

/-- What arrives from the outside. -/
inductive Input where
  | event (e : Event)
  /-- the host stores bytes -/
  | hostStore (pa : Nat) (data : List Byte)
deriving DecidableEq, Repr

/-- A word that an SDRV of this core cycle places on a row stream at its end (R308), with who drove it. -/
structure Drive where
  key : Nat
  word : VWord
  core : Nat
  ctx : Nat
  pc : Word
  cc : Nat
deriving DecidableEq, Repr

/-- An act of the present core cycle after its events. -/
inductive Act where
  | event (e : Event)
  /-- a context spends a wait cycle -/
  | wait (c k : Nat)
  /-- a context issues its next bundle -/
  | issue (c k : Nat)
deriving DecidableEq, Repr

end Sys2Proof.Machine
end

