-- ==== Sys2Proof/Machine/State.lean ====
section
/-! DEFINITION. The state of the whole device, the reasons a step can stop, and the state after reset. -/
namespace Sys2Proof.Machine

/-- Why the machine stops with a fault. -/
inductive Fault where
  /-- A bundle that is not there is asked to issue. No meaning of this model raises it: every condition that the spec gives is a trap,
  and everything else goes on. Safe. -/
  | noBundle
deriving DecidableEq, Repr

/-- Why an instruction is refused. -/
inductive Refusal where
  /-- The instruction of this mnemonic has no meaning yet: raised by the arms of `exec`. Safe. -/
  | notModelled (mnemonic : String)
deriving DecidableEq, Repr

/-- An asynchronous trap that waits for its unit (R364). -/
structure AsyncTrap where
  cond : Cond
  /-- bundle address of the command -/
  pc : Word
  eng : Engine
  n : Nat
  /-- core cycle at which it was raised -/
  at_ : Nat
deriving DecidableEq, Repr

/-- What a unit keeps of a trap beside the trap record (R361, R367): the context cycle, the record whose fault is
delivered, whether each pending-write record still loads its latch, and the slots a bundle breakpoint stopped. -/
structure TrapState where
  cc : Nat
  /-- context cycle of the bundle at the record's PC -/
  own : Nat
  record : Option (Engine × Nat)
  loads : List (Bool × Nat)
  latches : List Nat
  unchecked : BitVec 6
  /-- the barrier at which the unit waits behind the trap: scope, instance and number, and the slot of its BAR (R93, R364) -/
  bar : Option (Nat × Nat × Nat)
  barSlot : Option Slot
deriving DecidableEq, Repr

/-- What a save keeps of a unit that is not resident (R380 to R383): its bank, whether the save was forced, the accumulators
it held (ACC and the elements), and the integrator image. -/
structure Saved where
  bank : Ctx
  forced : Bool
  acc : Nat
  block : BitVec 30
  elems : List (Nat × BitVec 32)
  dda : Option Dda
deriving DecidableEq, Repr

/-- Where a unit stands in its life. -/
inductive Life where
  /-- in a run queue or resident -/
  | live
  /-- EXIT has issued, or a cancel has reached it: it drains (R91, R94, R385) -/
  | draining
  /-- its counts stand in its placement-table record; its weight is still to be returned -/
  | recorded
deriving DecidableEq, Repr

/-- A unit, by the model's key: what belongs to it wherever its bank state lies (R90, R103, R107, R145, R161, R164, R329,
R368). -/
structure Unit where
  core : Nat
  ctx : Nat
  launch : Nat
  /-- the unit's number (R90) -/
  number : Nat
  /-- unit-table index (R380) -/
  index : Nat
  /-- initial unit to whose placement record it is charged (R105) -/
  initial : Nat
  asid : Nat
  entry : Word
  gp : Word
  /-- s1 upward (R87, R90) -/
  args : List Word
  privOff : Nat
  privSize : Nat
  /-- base rank and present rank (R107) -/
  base : Nat
  rank : Nat
  declared : Nat
  passes : Nat
  /-- place in its run queue; none when it is not in one -/
  queued : Option Nat
  /-- core cycle in which it entered its run queues (R107) -/
  queuedAt : Nat
  /-- termination weight before its first residence (R87) -/
  weight : Word
  started : Bool
  saved : Option Saved
  landings : List Landing
  nextLand : Nat
  cmds : List Cmd
  /-- numbers issued and not completed -/
  open_ : List (Engine × Nat)
  /-- number up to which LSU operations must complete before later writes (R339) -/
  relFence : Nat
  /-- number up to which LSU operations must complete before any later access (R319, R339) -/
  fullFence : Nat
  /-- delivery count (R164) -/
  deliveries : Nat
  /-- queues that await the answer to a splice request (R161) -/
  asking : List Nat
  /-- outgoing splices: queue, target, slots of the target -/
  spliceOut : List (Nat × QEnd × Nat)
  /-- incoming splices: queue, sender -/
  spliceIn : List (Nat × QEnd)
  /-- the FREE that each of their queues reported last (R162) -/
  reported : List (Nat × BitVec 16)
  /-- targets of ended splices whose end marker waits for the deliveries that are reserved (R165) -/
  marks : List QEnd
  /-- reads registered and not finished: queue and slot counter -/
  qreads : List (Nat × BitVec 16)
  asyncs : List AsyncTrap
  trap : Option TrapState
  /-- PMMAs issued, and the partial tiles that have arrived: index, rows, columns, whether integer, elements (R264) -/
  pairs : Nat
  pairIn : List (Nat × Nat × Nat × Bool × List (BitVec 32))
  /-- pairs that the other side has aborted before this side's command started: the index and what it raises as it starts (R265) -/
  pairOff : List (Nat × Cond)
  /-- key of the PMMA partner unit (R99) -/
  partner : Option Nat
  exited : Bool
  /-- EXIT or the cancel has taken effect for the stall line (R91) -/
  life : Life
  /-- a static context's unit (R14) -/
  static : Bool
  /-- a lease request entered at its restore (R384) -/
  accPending : Bool
  busy : Nat
  idle : Nat
  waited : Nat
  switches : Nat
  /-- its retirement waits for a page request (R413) -/
  paged : Bool
deriving DecidableEq, Repr

/-- A core (R7). -/
structure Core where
  ctxs : Vector Ctx 4
  spm : Memory
  /-- bytes that stores of this core cycle replaced, as they stood at its start (R143) -/
  undo : List Host.Cell
  icache : List ILine
  loopBuf : Option LoopBuf
  /-- a capture that ended because a line of it was dropped (R115, R150) -/
  lostBuf : Option LoopBuf
  /-- locks that IUNLK releases at the end of this core cycle: the unit, the first line, how many lines, 0 for all (R114) -/
  unlocks : List (Nat × (Nat × Nat))
  /-- tag table: valid entries (R297) -/
  tags : List (Nat × Word)
  /-- shuffle patterns: key bank·64 + entry, 256 lanes of zero flag and index (R242) -/
  pats : List (Nat × BitVec 2560)
  bankSel : Bool
  cb : Vector (BitVec 32) 8
  /-- a codebook slot that changes at the end of this core cycle (R239) -/
  cbPut : Option (Nat × BitVec 32)
  mat : Mat
  dda : Dda
  /-- next acceptance place of an engine command -/
  nextPlace : Nat
  /-- whether the copy engine has started a command in this core cycle (R299) -/
  copyStarted : Bool
  /-- MAINT mode in force (R49) -/
  maint : Bool
  /-- TTCNT: DEVCYC and BRCONF (R392) -/
  devcyc : Nat
  brconf : Nat
  /-- LDG and VLDG operations issued (R393) -/
  loads : Nat
  /-- micro-TLB (R72) -/
  utlb : List TlbEntry
  /-- protection domain served (R101, R102) -/
  asid : Option Nat
  /-- clearing is due before the next launch's first unit -/
  clearing : Option Nat
  /-- scratchpad bytes that hold an uncorrectable error (R374) -/
  bad : List Nat
  /-- retired as lasting-faulty (R373) -/
  retired : Bool
  /-- requests for slices of its slots (R263) -/
  remote : List SliceReq
deriving DecidableEq, Repr

/-- A cleared core (R102). -/
def Core.cleared : Core where
  ctxs := Vector.replicate 4 Ctx.cleared
  spm := []
  undo := []
  icache := []
  loopBuf := none
  lostBuf := none
  unlocks := []
  tags := []
  pats := []
  bankSel := false
  cb := Vector.replicate 8 defaultCodebook
  cbPut := none
  mat := Mat.cleared
  dda := Dda.cleared
  nextPlace := 0
  copyStarted := false
  maint := false
  devcyc := 0
  brconf := 0
  loads := 0
  utlb := []
  asid := none
  clearing := none
  bad := []
  retired := false
  remote := []

/-- A branch that a slot has taken (R151): the target, and the link register it writes. -/
structure Taken where
  target : Word
  link : Option (Fin 32)
deriving DecidableEq, Repr

/-- A CSR write that waits for the end of the bundle (R199). -/
structure CsrPut where
  slot : Slot
  csr : Nat
  value : Word
deriving DecidableEq, Repr

/-- A loop level that waits for the end of the bundle (R192). -/
structure LoopPut where
  level : Nat
  start : Word
  end_ : Word
  count : Word
deriving DecidableEq, Repr

/-- The bundle now issuing. A slot operation acts on context `ctx` of core `core` as the operation of slot `slot`; it reads
its sources from `entry`, the bank as it stood at bundle entry (R144). -/
structure Issue where
  core : Nat
  ctx : Nat
  slot : Slot
  pc : Word
  /-- parcels -/
  len : Nat
  wt : Fin 8
  dp : Bool
  st : Bool
  /-- context cycle of the bundle -/
  cc : Nat
  entry : Ctx
  /-- only find out which slots raise (R359) -/
  probing : Bool
  /-- some slot of the bundle raises a condition -/
  anyRaise : Bool
  /-- this slot is the last to perform: it completes the bundle -/
  last : Bool
  /-- whether the bundle resumes after TRET -/
  resumed : Bool
  /-- slots stopped by a bundle breakpoint -/
  stopped : BitVec 6
  raised : List (Slot × Cond)
  done : BitVec 6
  branch0 : Option Taken
  branch1 : Option Taken
  csrs : List CsrPut
  loops : List LoopPut
  /-- the bundle is a TRET: it does not complete as other bundles do (R367) -/
  ret : Bool
  /-- the syllables of the bundle -/
  slots : List Placed
deriving DecidableEq, Repr

/-- No bundle issues: ctx4 is no context. -/
def Issue.idle : Issue where
  core := 0
  ctx := 4
  slot := .s0
  pc := 0
  len := 1
  wt := 0
  dp := false
  st := false
  cc := 0
  entry := Ctx.cleared
  probing := false
  anyRaise := false
  last := false
  resumed := false
  stopped := 0
  raised := []
  done := 0
  branch0 := none
  branch1 := none
  csrs := []
  loops := []
  ret := false
  slots := []

/-- The device. -/
structure State where
  /-- CYCLE -/
  now : Nat
  /-- what the present core cycle still has to do; none while its events happen -/
  plan : Option (List Act)
  /-- the bundle now issuing -/
  iss : Issue
  /-- cores that differ from a cleared core -/
  cores : List (Nat × Core)
  units : List (Nat × Unit)
  launches : List (Nat × Launch)
  jobs : List (Nat × Job)
  gangs : List Gang
  /-- levels that have ended, with their ASID and counter (R80) -/
  ended : List (Nat × Level × Word)
  /-- code objects loaded so far -/
  loads : Nat
  /-- next key of a unit, launch, job, copy or record -/
  nextKey : Nat
  /-- memory as its homes hold it, by home location (R68, R69) -/
  mem : Memory
  /-- the key and the sector address that device memory was last written under, by sector of its home location (R70) -/
  keyTag : List (Nat × (BitVec 512 × Nat))
  /-- sectors of home locations that hold an uncorrectable error (R374) -/
  bad : List Nat
  /-- L2 lines: key 4·(PA div 512) + die -/
  l2 : List (Nat × L2Line)
  /-- device-homed lines with HOST set (R312) -/
  hostBits : List Nat
  /-- host-memory sectors, two 64-byte lines each, in the snoop directory, in the order entered (R313) -/
  hostDir : List Nat
  /-- cluster TLBs by cluster, die TLBs by die (R72) -/
  ctlb : List (Nat × List TlbEntry)
  dtlb : List (Nat × List TlbEntry)
  /-- the dies' caches of non-leaf page-table entries (R76) -/
  nonLeaf : List NonLeaf
  walks : List Walk
  pageReqs : List PageReq
  /-- cached ASID context entries: key 2048·die + ASID (R66) -/
  asids : List (Nat × AsidEntry)
  /-- operations whose page request has failed, with the page and the kind and number of the condition (R73, R74) -/
  failures : List (Event × (Nat × Nat × Nat))
  /-- successful answers that an operation has had (R73) -/
  answers : List (Event × Nat)
  /-- misses of an operation that a walk has served, by page and right: it takes the outcome (R72) -/
  walked : List (Event × (Nat × Right))
  /-- invalidations that wait for accesses that have begun (R76) -/
  invals : List Inval
  /-- key slots that differ from zero (R70) -/
  keys : List (Nat × BitVec 512)
  /-- row streams: key ((die·8 + row)·16 + direction·8 + stream)·16 + column (R308) -/
  streams : List (Nat × VWord)
  drives : List Drive
  halyard : List HalRec
  /-- pull requests that wait for a record to open (R347) -/
  collHeld : List CollReq
  /-- dones that wait for a record to open: die, key, rank (R349) -/
  collDones : List (Nat × CollKey × Nat)
  tells : Vector Telltale 4
  /-- load samples that are complete, in the order of their issue cycles (R387, R393) -/
  samples : List Sample
  ports : Vector Port 2
  regs : Regs
  /-- error counters and retired resources, by the model's number of a resource (R373) -/
  errors : List (Nat × Nat)
  retired : List Nat
  /-- the temperature halt of R412 -/
  halted : Bool
  /-- events due at a core cycle, in the order they were scheduled -/
  agenda : List (Nat × Event)
  /-- what arrives from outside, with the core cycle at which it arrives -/
  inputs : List (Nat × Input)
  outs : List Out
  /-- free values taken so far (log entry 7) -/
  free : Nat
deriving DecidableEq, Repr

/-- The device right after reset (R102 and the reset columns of the register tables). The first check of R412 is due after one
millisecond of the core clock of reset, 850 MHz. -/
def State.reset : State where
  now := 0
  plan := none
  iss := Issue.idle
  cores := []
  units := []
  launches := []
  jobs := []
  gangs := []
  ended := []
  loads := 0
  nextKey := 1
  mem := []
  keyTag := []
  bad := []
  l2 := []
  hostBits := []
  hostDir := []
  ctlb := []
  dtlb := []
  nonLeaf := []
  walks := []
  pageReqs := []
  asids := []
  failures := []
  answers := []
  walked := []
  invals := []
  keys := []
  streams := []
  drives := []
  halyard := []
  collHeld := []
  collDones := []
  tells := Vector.replicate 4 Telltale.reset
  samples := []
  ports := Vector.replicate 2 Port.reset
  regs := Regs.reset
  errors := []
  retired := []
  halted := false
  agenda := [(850000, .powerCheck)]
  inputs := []
  outs := []
  free := 0

end Sys2Proof.Machine
end

