-- ==== Sys2Proof/Machine/Access.lean ====
section
/-! DEFINITION. Reading and writing the parts of the state: cores, contexts, units, registers, latches, CSRs, scratchpad, and
the agenda. -/
namespace Sys2Proof.Machine

/-! ### Cores, contexts, units -/

def Core.ctx (x : Core) (k : Nat) : Ctx := x.ctxs[k]?.getD Ctx.cleared
def Core.setCtx (x : Core) (k : Nat) (c : Ctx) : Core := { x with ctxs := x.ctxs.setIfInBounds k c }

def State.core (s : State) (c : Nat) : Core := (find s.cores c).getD Core.cleared
def State.setCore (s : State) (c : Nat) (x : Core) : State := { s with cores := put s.cores c x }
def State.onCore (s : State) (c : Nat) (f : Core → Core) : State := s.setCore c (f (s.core c))
def State.ctx (s : State) (c k : Nat) : Ctx := (s.core c).ctx k
def State.setCtx (s : State) (c k : Nat) (x : Ctx) : State := s.setCore c ((s.core c).setCtx k x)
def State.onCtx (s : State) (c k : Nat) (f : Ctx → Ctx) : State := s.setCtx c k (f (s.ctx c k))

def State.unit (s : State) (u : Nat) : Option Unit := find s.units u
def State.onUnit (s : State) (u : Nat) (f : Unit → Unit) : State := { s with units := alter s.units u f }

/-- The context of the bundle now issuing, and its core. -/
def State.me (s : State) : Ctx := s.ctx s.iss.core s.iss.ctx
def State.onMe (s : State) (f : Ctx → Ctx) : State := s.onCtx s.iss.core s.iss.ctx f
def State.myCore (s : State) : Core := s.core s.iss.core
def State.onMyCore (s : State) (f : Core → Core) : State := s.onCore s.iss.core f
/-- The unit of the bundle now issuing. -/
def State.myUnit (s : State) : Nat := s.me.unit.getD 0
def State.onMyUnit (s : State) (f : Unit → Unit) : State := s.onUnit s.myUnit f

/-- Whether a unit is resident in its context. -/
def State.resident (s : State) (u : Nat) : Bool :=
  match s.unit u with
  | some x => decide ((s.ctx x.core x.ctx).unit = some u)
  | none => false

/-! ### Free values and the agenda -/

/-- Take one free value number (log entry 7). -/
def State.draw (s : State) : Nat × State := (s.free, { s with free := s.free + 1 })

/-- Schedule an event at a core cycle, after those already scheduled for it. -/
def State.at_ (s : State) (t : Nat) (e : Event) : State := { s with agenda := s.agenda ++ [(t, e)] }

/-- Schedule an event a number of core cycles ahead. -/
def State.after (s : State) (d : Nat) (e : Event) : State := s.at_ (s.now + d) e

/-- Remove scheduled events. -/
def State.unschedule (s : State) (p : Event → Bool) : State := { s with agenda := s.agenda.filter (fun x => !p x.2) }

/-! ### Registers (R175, R206, R208) -/

/-- A scalar register; s0 reads zero. -/
def Ctx.readS (x : Ctx) (n : Nat) : Word := if n = 0 then 0 else x.s[n]?.getD 0
def Ctx.readV (x : Ctx) (n : Nat) : VWord := x.v[n]?.getD 0
/-- A predicate register; p0 reads all ones. -/
def Ctx.readP (x : Ctx) (n : Nat) : PWord := if n = 0 then allLanes else x.p[n]?.getD 0
/-- A write of s0 is discarded. -/
def Ctx.writeS (x : Ctx) (n : Nat) (w : Word) : Ctx := if n = 0 then x else { x with s := x.s.setIfInBounds n w }
def Ctx.writeV (x : Ctx) (n : Nat) (w : VWord) : Ctx := { x with v := x.v.setIfInBounds n w }
/-- A write of p0 is discarded. -/
def Ctx.writeP (x : Ctx) (n : Nat) (w : PWord) : Ctx := if n = 0 then x else { x with p := x.p.setIfInBounds n w }

/-- A register of any file as 2048 bits. -/
def Ctx.readReg (x : Ctx) (c : RegCls) (n : Nat) : VWord :=
  match c with
  | .s => (x.readS n).setWidth 2048
  | .v => x.readV n
  | .p => (x.readP n).setWidth 2048

def Ctx.writeReg (x : Ctx) (c : RegCls) (n : Nat) (w : VWord) : Ctx :=
  match c with
  | .s => x.writeS n (w.setWidth 64)
  | .v => x.writeV n w
  | .p => x.writeP n (w.setWidth 256)

def Ctx.queue (x : Ctx) (q : Nat) : Queue := x.queues[q]?.getD Queue.cleared
def Ctx.setQueue (x : Ctx) (q : Nat) (y : Queue) : Ctx := { x with queues := x.queues.setIfInBounds q y }

/-- A codebook slot (R53). -/
def Core.codebook (x : Core) (k : Nat) : BitVec 32 := x.cb[k]?.getD defaultCodebook

/-! ### Latches (R123, R124) -/

def latchIndex : LatchId → Nat
  | .s0 => 0 | .s1 => 1 | .v => 2 | .x => 3

/-- The latch that a slot's results load; M and Q have none. -/
def slotLatch : Slot → Option Nat
  | .s0 => some 0 | .s1 => some 1 | .v => some 2 | .x => some 3
  | .m | .q => none

def staleLatch : Cond := ⟨0, 3, 0, none, none⟩

/-- Reading a latch as an operand of a class: stale unless it is valid with that class. -/
def Ctx.readLatch (x : Ctx) (l : LatchId) (c : RegCls) : Except Cond VWord :=
  let y := x.latches[latchIndex l]?.getD Latch.cleared
  if y.valid && decide (y.cls = c) then .ok y.value else .error staleLatch

/-! ### Sources: read at bundle entry (R144) -/

def State.srcS (s : State) : Src → Except Cond Word
  | .reg n => .ok (s.iss.entry.readS n.val)
  | .lat l => (s.iss.entry.readLatch l .s).map (·.setWidth 64)
def State.srcV (s : State) : Src → Except Cond VWord
  | .reg n => .ok (s.iss.entry.readV n.val)
  | .lat l => s.iss.entry.readLatch l .v
def State.srcP (s : State) : Src → Except Cond PWord
  | .reg n => .ok (s.iss.entry.readP n.val)
  | .lat l => (s.iss.entry.readLatch l .p).map (·.setWidth 256)
/-- The b operand under SB: a vector, or a scalar broadcast (R208). -/
def State.srcSb (s : State) (t : Ty) (sb : Bool) (b : Src) : Except Cond VWord :=
  if sb then (s.srcS b).map (broadcast t) else s.srcV b
/-- Registers read through d5, and guards. -/
def State.regS (s : State) (n : Nat) : Word := s.iss.entry.readS n
def State.regV (s : State) (n : Nat) : VWord := s.iss.entry.readV n
def State.guard (s : State) (g : Fin 16) : PWord := s.iss.entry.readP g.val

/-! ### Results: WriteDst (R32, R175, R207) -/

/-- Put a fixed-latency write in flight. -/
def State.fly (s : State) (f : Flight) : State := s.onMe fun x => { x with flights := x.flights ++ [f] }

/-- A write in flight of the bundle now issuing, `lat` context cycles ahead. -/
def State.flight (s : State) (cls : Option RegCls) (num : Nat) (nw : Bool) (value : VWord) (enables : PWord) (lat : Nat)
    (flags : Flags) (scale : Option (BitVec 72)) (latch : Bool) : Flight :=
  ⟨s.iss.cc + lat, s.iss.slot, cls, num, nw, value, enables, flags, scale, latch, s.me.group, s.iss.cc⟩

def State.writeS (s : State) (d : Fin 32) (nw : Bool) (w : Word) (lat : Nat) (flags : Flags := 0) : State :=
  s.fly (s.flight (some .s) d.val nw (w.setWidth 2048) allLanes lat flags none true)
def State.writeV (s : State) (d : Fin 32) (nw : Bool) (w : VWord) (en : PWord) (lat : Nat) (flags : Flags := 0) : State :=
  s.fly (s.flight (some .v) d.val nw w en lat flags none true)
def State.writeP (s : State) (d : Fin 16) (nw : Bool) (w : PWord) (lat : Nat) (flags : Flags := 0) : State :=
  s.fly (s.flight (some .p) d.val nw (w.setWidth 2048) allLanes lat flags none true)
/-- A write that loads no latch. -/
def State.writeNoLatch (s : State) (cls : RegCls) (n : Nat) (w : VWord) (lat : Nat) (flags : Flags := 0) : State :=
  s.fly (s.flight (some cls) n false w allLanes lat flags none false)

/-- The generator and no flags: what an operation of the present bundle starts from (R43). -/
def State.racc (s : State) : RAcc := ⟨s.me.csr.srstate.setWidth 32, 0⟩
/-- Keep the generator steps of an operation. -/
def State.keepSr (s : State) (a : RAcc) : State :=
  s.onMe fun x => { x with csr := { x.csr with srstate := a.sr.setWidth 64 } }

/-! ### Landing (R32, R124, R138, R184, R207) -/

def orFlags (x : Ctx) (f : Flags) : Ctx := { x with csr := { x.csr with fpflags := x.csr.fpflags ||| f.setWidth 64 } }

/-- The byte lanes of a register of a file (R136). -/
def fileLanes : RegCls → PWord
  | .s => 0xFF
  | .p => 0xFFFFFFFF
  | .v => allLanes

/-- A write that covers a register whole replaces what an uncorrectable error left there (R374). -/
def Ctx.heal (x : Ctx) (c : RegCls) (n : Nat) (en : PWord) : Ctx :=
  if en &&& fileLanes c = fileLanes c then { x with bad := x.bad.filter fun r => !decide (r = (c, n)) } else x

/-- One write lands: register in its lanes, scale latch, flags, and its slot's latch when its issue group is current. -/
def Ctx.land (x : Ctx) (f : Flight) : Ctx :=
  let whole := match f.cls with
    | some c => merge (x.readReg c f.num) f.value f.enables
    | none => f.value
  let y := match f.cls with
    | some c => if f.nw then x else (x.writeReg c f.num whole).heal c f.num f.enables
    | none => x
  let y := match f.scale with
    | some w => { y with scale := w }
    | none => y
  let y := orFlags y f.flags
  match slotLatch f.slot, f.cls with
  | some i, some c =>
    let old := y.latches[i]?.getD Latch.cleared
    if f.latch && decide (f.group = y.group) && (!old.valid || decide (old.stamp ≤ f.stamp)) then
      { y with latches := y.latches.setIfInBounds i ⟨true, c, whole, f.stamp⟩ }
    else y
  | _, _ => y

/-- The writes that land by the start of the next context cycle, in landing order, ties in issue order. -/
def Ctx.dueFlights (x : Ctx) : List Flight :=
  let due := x.flights.filter (fun f => decide (f.due ≤ x.cc))
  let insertByDue := fun (l : List Flight) (f : Flight) =>
    l.takeWhile (fun g => decide (g.due ≤ f.due)) ++ f :: l.dropWhile (fun g => decide (g.due ≤ f.due))
  due.foldl insertByDue []

/-- All due writes land. -/
def Ctx.landDue (x : Ctx) : Ctx :=
  let y := x.dueFlights.foldl Ctx.land x
  { y with flights := x.flights.filter (fun f => !decide (f.due ≤ x.cc)) }

/-! ### Scratchpad (R143, R185, R327) -/

def spmSize : Nat := 3145728

/-- A scratchpad byte as a direct load of this core cycle reads it: before any store of the cycle. -/
def Core.loadByte (x : Core) (a : Nat) : Byte :=
  match find x.undo a with
  | some b => b
  | none => x.spm.read a

def Core.loadBytes (x : Core) (a : Nat) : Nat → List Byte
  | 0 => []
  | n + 1 => x.loadByte a :: x.loadBytes (a + 1) n

/-- A direct store: the bytes change, and the old ones stay known until the cycle ends. -/
def Core.storeByte (x : Core) (a : Nat) (b : Byte) : Core :=
  { x with
    spm := x.spm.write a b
    bad := x.bad.filter (fun y => !decide (y = a))
    undo := if (find x.undo a).isSome then x.undo else put x.undo a (x.spm.read a) }

def Core.storeBytes (x : Core) (a : Nat) : List Byte → Core
  | [] => x
  | b :: rest => (x.storeByte a b).storeBytes (a + 1) rest

def Core.storeMasked (x : Core) (a : Nat) : List (Byte × Bool) → Core
  | [] => x
  | (b, e) :: rest => (if e then x.storeByte a b else x).storeMasked (a + 1) rest

/-- A write by an engine or a delivery. -/
def Core.putBytes (x : Core) (a : Nat) (l : List Byte) : Core :=
  { x with
    spm := x.spm.writeBytes a l
    bad := x.bad.filter (fun y => !(decide (a ≤ y) && decide (y < a + l.length))) }

def vbytes (v : VWord) : List Byte := leBytes v.toNat 256
def bytesV (l : List Byte) : VWord := BitVec.ofNat 2048 (leNat l)

/-! ### Conditions (R357) -/

def condAt (origin kind sub : Nat) : Cond := ⟨origin, kind, sub, none, none⟩
def illegalBundle : Cond := condAt 0 1 0
def unassignedOpcode (origin : Nat) : Cond := condAt origin 2 0
def misalignedFetch : Cond := condAt 0 4 0
def misalignedAccess (origin : Nat) : Cond := condAt origin 4 1
def scratchpadRange (origin : Nat) : Cond := condAt origin 5 0
def laneRange : Cond := condAt 2 5 1
def rowRange : Cond := condAt 4 5 2
def tagRange : Cond := condAt 4 5 3
def integratorRange : Cond := condAt 4 5 4
def queueAddress : Cond := condAt 4 5 5
def nonCanonical (origin : Nat) : Cond := condAt origin 6 0
def formatAttribute (origin : Nat) : Cond := condAt origin 8 0
def blockMap (origin : Nat) : Cond := condAt origin 8 1
def protection (origin : Nat) : Cond := condAt origin 9 0
def csrAccess : Cond := condAt 1 12 0
def trapReturn : Cond := condAt 1 12 1
def softwareTrap : Cond := condAt 1 13 0
def systemCall : Cond := condAt 1 14 0
def breakpointInstruction : Cond := condAt 1 15 0
def bundleBreakpoint : Cond := condAt 0 15 1
def watchpoint (origin : Nat) : Cond := condAt origin 15 2
def stackLimit : Cond := condAt 1 16 0
def spawnDescriptor : Cond := condAt 1 17 0
def weightExhausted : Cond := condAt 1 17 1
def barrierMismatch : Cond := condAt 1 18 0
def formatMismatch (origin : Nat) : Cond := condAt origin 19 0
def operandFormat : Cond := condAt 3 19 1
def accumulatorFormat : Cond := condAt 3 19 2
def scaleLatchCond : Cond := condAt 2 19 3
def noLease : Cond := condAt 3 20 0
def matrixMode : Cond := condAt 3 20 1
def remoteOperand : Cond := condAt 3 20 2
def noPartner : Cond := condAt 3 20 3
def pairMismatch : Cond := condAt 3 21 0
def pairTimeoutCond : Cond := condAt 3 21 1
def pairAbort : Cond := condAt 3 21 2
def queueConfiguration (origin : Nat) : Cond := condAt origin 22 0
def openSlot : Cond := condAt 4 22 1
def splicedQueue : Cond := condAt 4 22 2
def queueBusy : Cond := condAt 4 22 3
def spliceRefused : Cond := condAt 4 22 4
def streamContext : Cond := condAt 4 22 5
def integratorBusy : Cond := condAt 4 22 6
def queueImage : Cond := condAt 4 23 0
def accumulatorImage : Cond := condAt 3 23 1
def integratorImage : Cond := condAt 5 23 2
def patchTable : Cond := condAt 5 23 3
def slotSize (origin : Nat) : Cond := condAt origin 24 0
def copyShape : Cond := condAt 4 24 1
def copyOverlap : Cond := condAt 4 24 2
def graphRecord : Cond := condAt 5 25 0
def recordVersion : Cond := condAt 5 25 1
def loopLimit : Cond := condAt 5 25 2
def launchRefused : Cond := condAt 5 25 3
def waitTimeoutCond : Cond := condAt 5 26 0
def gangTimeoutCond : Cond := condAt 5 26 1
def incrementOverrun : Cond := condAt 5 27 0
def collectiveRecord : Cond := condAt 5 28 0
def collectiveTag : Cond := condAt 5 28 1
def collectivePeer : Cond := condAt 5 28 2
def collectiveDeadline : Cond := condAt 5 28 3
def dataError (origin : Nat) : Cond := condAt origin 29 0
def lastingFault : Cond := condAt 5 30 0
def doubleFault : Cond := condAt 0 31 0

/-- A direct load: bytes that hold an uncorrectable error raise data error (R374). -/
def Core.load (x : Core) (origin a n : Nat) : Except Cond (List Byte) :=
  if x.bad.any (fun y => decide (a ≤ y) && decide (y < a + n)) then .error (dataError origin) else .ok (x.loadBytes a n)

/-- The cause code (R357). -/
def Cond.code (c : Cond) : Nat := c.origin * 32 + c.kind

/-- Origin of a slot's faults (R129). -/
def slotOrigin : Slot → Nat
  | .s0 | .s1 => 1
  | .v | .x => 2
  | .m => 3
  | .q => 4

end Sys2Proof.Machine
end

