-- ==== Sys2Proof/Machine/Ops.lean ====
section
/-! DEFINITION. The shared operations of the slots: performing a slot operation, completing a bundle, taking an exception and
returning from one (R124, R137 to R140, R151, R191 to R194, R199, R357 to R370). -/
namespace Sys2Proof.Machine

/-! ### Ends of launches that a unit causes -/

/-- A launch ends with a STATE and a cause; what decided it first stands (R94). -/
def State.endLaunch (s : State) (l st cause : Nat) : State :=
  { s with launches := alter s.launches l fun x => if x.ending.isSome then x else { x with ending := some (st, cause) } }

/-- The launch of a unit. -/
def State.launchOf (s : State) (u : Nat) : Nat := ((s.unit u).map (·.launch)).getD 0

/-- Whether a unit's launch is ending: it issues no further bundle (R94). -/
def State.unitEnding (s : State) (u : Nat) : Bool :=
  match find s.launches (s.launchOf u) with
  | some l => l.ending.isSome
  | none => false

/-! ### CSR fields -/

def Csrs.inTrap (c : Csrs) : Bool := c.cause.getLsbD 30
/-- Sext(TVEC.HADDR × 64, 56). -/
def Csrs.handler (c : Csrs) : Word := ((c.tvec.extractLsb' 0 50 ++ 0#6) : BitVec 56).signExtend 64
def Csrs.hasHandler (c : Csrs) : Bool := c.tvec.extractLsb' 0 50 != 0
def Csrs.recordAt (c : Csrs) : Nat := (c.tvec >>> 50).toNat * 256

def trapRecordSize : Nat := 23808

/-! ### The trap record (R365) -/

def zeros (n : Nat) : List Byte := List.replicate n 0
/-- Bytes padded with zeros to a length. -/
def padTo (n : Nat) (l : List Byte) : List Byte := l ++ zeros (n - l.length)

def clsCode : RegCls → Nat
  | .s => 0 | .v => 1 | .p => 2
def clsOfCode (n : Nat) : RegCls := match n with
  | 0 => .s | 1 => .v | _ => .p

/-- A snapshot entry, 320 bytes. -/
def Snap.bytes : Snap → List Byte
  | .reg c n v => padTo 64 (leBytes (clsCode c + 256 * n) 8) ++ vbytes v
  | .queue n h t f o k =>
    padTo 320 (leBytes (3 + 256 * n) 8 ++
      leBytes (h.toNat + 2 ^ 16 * t.toNat + 2 ^ 32 * f.toNat + (if o then 2 ^ 40 else 0) + (if k then 2 ^ 41 else 0)) 8)

/-- Slot code of a pending write: the issuing slot, and 5, which names no latch, for the writes of ENTER and LEAVE
(R196; log entry 20). -/
def Flight.slotCode (f : Flight) : Nat := if f.latch then f.slot.index else 5

/-- A pending-write record, 320 bytes; `cc` is the number of the next context cycle (R361). -/
def Flight.bytes (f : Flight) (cc : Nat) : List Byte :=
  let kind := match f.cls with
    | some c => clsCode c
    | none => 3
  let w := kind + (if f.scale.isSome then 4 else 0) + (if f.nw then 8 else 0) + 2 ^ 8 * f.num
    + 2 ^ 18 * (f.due - cc) + 2 ^ 23 * f.flags.toNat + 2 ^ 28 * f.slotCode
  let sc := (f.scale.getD 0).toNat
  let file := match f.cls with
    | some c => fileLanes c
    | none => BitVec.allOnes 256
  let lanes := if f.cls.isSome then f.enables &&& file else 0
  let value := merge (Config.deadLanes (32 * f.due + f.num)) f.value (lanes ||| ~~~file)
  leBytes w 8 ++ leBytes (sc / 2 ^ 64) 8 ++ leBytes (sc % 2 ^ 64) 8 ++ zeros 8 ++ leBytes lanes.toNat 32 ++ vbytes value

/-- The 768 bytes before the entries. -/
def trapHeader (x : Ctx) (pc : Word) (npw nsnap : Nat) : List Byte :=
  let lat := fun i => x.latches[i]?.getD Latch.cleared
  let latv := (List.range 4).foldl (fun n i => n + (if (lat i).valid then 2 ^ i else 0)) 0
  let cls := (List.range 4).foldl (fun n i => n + (if (lat i).valid then clsCode (lat i).cls else 0) * 4 ^ i) 0
  let sc := x.scale.toNat
  padTo 256 (leBytes pc.toNat 8 ++ leBytes (npw + 2 ^ 12 * nsnap + 2 ^ 16 * latv + 2 ^ 20 * cls) 8
    ++ leBytes ((lat 0).value.toNat % 2 ^ 64) 8 ++ leBytes ((lat 1).value.toNat % 2 ^ 64) 8
    ++ leBytes (sc % 2 ^ 64) 8 ++ leBytes (sc / 2 ^ 64) 8 ++ leBytes x.csr.loopst.toNat 8
    ++ leBytes x.csr.ls0.toNat 8 ++ leBytes x.csr.le0.toNat 8 ++ leBytes x.csr.lc0.toNat 8
    ++ leBytes x.csr.ls1.toNat 8 ++ leBytes x.csr.le1.toNat 8 ++ leBytes x.csr.lc1.toNat 8)
  ++ vbytes (lat 2).value ++ vbytes (lat 3).value

def trapRecord (x : Ctx) (pc : Word) (pws : List Flight) (snaps : List Snap) : List Byte :=
  padTo trapRecordSize (trapHeader x pc pws.length snaps.length
    ++ padTo 2560 (snaps.flatMap Snap.bytes) ++ pws.flatMap (fun f => f.bytes x.cc))

/-- Writes in flight in landing order, ties in issue order. -/
def landingOrder (l : List Flight) : List Flight :=
  l.foldl (fun acc f => acc.takeWhile (fun g => decide (g.due ≤ f.due)) ++ f :: acc.dropWhile (fun g => decide (g.due ≤ f.due))) []

/-! ### Taking an exception (R361 to R364) -/

/-- What a trap reports. -/
structure TrapReport where
  cond : Cond
  /-- TRAPPC -/
  trappc : Word
  /-- the record's PC -/
  resume : Word
  done : BitVec 6
  bad : BitVec 6
  snaps : List Snap
  async : Option (Engine × Nat)
  unchecked : BitVec 6
deriving DecidableEq, Repr

/-- Whether a trap of the context is handled (R363). -/
def Ctx.trapHandled (x : Ctx) : Bool :=
  x.csr.hasHandler && decide (x.csr.recordAt + trapRecordSize ≤ spmSize) && !x.csr.inTrap

def trapCause (r : TrapReport) : Word :=
  BitVec.ofNat 64 (r.cond.code + 2 ^ 16 * r.cond.sub + 2 ^ 30 + (if r.async.isSome then 2 ^ 31 else 0))

/-- The CSRs after trap entry (R362.2, R362.3). -/
def Csrs.afterTrap (c : Csrs) (r : TrapReport) : Csrs :=
  { c with
    cause := trapCause r
    trappc := r.trappc
    donemask := r.done.setWidth 64
    badslots := r.bad.setWidth 64
    tval := r.cond.tval.getD c.tval
    badaddr := r.cond.badaddr.getD c.badaddr
    loopst := 0 }

/-- BADADDR takes the address that a translation-class fault reports, whether or not its trap is handled (R75). -/
def Csrs.reportAddr (c : Csrs) (d : Cond) : Csrs := { c with badaddr := d.badaddr.getD c.badaddr }

/-- BADSLOTS takes the raising slots, and DONE the done ones, whether or not the trap is handled (R127, R358). -/
def Csrs.reportSlots (c : Csrs) (bad done : BitVec 6) : Csrs :=
  { c with badslots := bad.setWidth 64, donemask := (c.donemask &&& 0x100) ||| done.setWidth 64 }

/-- The context after trap entry, when the trap is handled. -/
def Ctx.enterTrap (x : Ctx) (now : Nat) (r : TrapReport) (n : Nat) : Ctx :=
  { x with
    csr := x.csr.afterTrap r
    latches := Vector.replicate 4 Latch.cleared
    group := x.group + 1
    flights := []
    pc := x.csr.handler
    resume := none
    waits := 0
    penalty := 0
    busy := now + 25 + 2 * n
    dpArmed := false
    fetching := none
    fetchFault := []
    arrived := false
    run := [] }

/-- The barrier at which a unit has arrived. -/
def State.barrierOf (s : State) (u : Nat) : Option (Nat × Nat × Nat) :=
  let all := ((find s.launches (s.launchOf u)).map (·.barriers)).getD []
  (all.find? fun b => b.units.any fun a => decide (a.1 = u)).map fun b => (b.scope, b.inst, b.n)

/-- Trap entry: the record is written, the CSRs set, the latches and the writes in flight removed, and the context sent to
its handler; an unhandled trap ends the launch with STATE 4 (R361 to R363). -/
def State.takeTrap (s : State) (c k : Nat) (r : TrapReport) : State :=
  let x := s.ctx c k
  let u := x.unit.getD 0
  if x.trapHandled then
    let pws := landingOrder x.flights
    let n := pws.length + r.snaps.length
    let s := s.onCore c (fun y => y.putBytes x.csr.recordAt (trapRecord x r.resume pws r.snaps))
    let s := s.onCtx c k (fun _ => x.enterTrap s.now r n)
    let kept : TrapState :=
      { cc := x.cc
        own := if r.done = 0 then x.cc else x.cc - 1
        record := r.async
        loads := pws.map (fun f => (f.latch && decide (f.group = x.group), f.stamp))
        latches := x.latches.toList.map (·.stamp)
        unchecked := r.unchecked
        bar := if x.arrived then s.barrierOf u else none
        barSlot := x.barSlot }
    s.onUnit u fun y => { y with trap := some kept }
  else
    let cause := if x.csr.inTrap then doubleFault.code else r.cond.code
    (s.onCtx c k fun x => { x with csr := x.csr.reportAddr r.cond }).endLaunch (s.launchOf u) 4 cause

/-! ### Branches and loops (R115, R140, R151, R193, R194) -/

def loopActive (c : Csrs) (n : Nat) : Bool := c.loopst.getLsbD n
def loopStart (c : Csrs) (n : Nat) : Word := if n = 0 then c.ls0 else c.ls1
def loopEnd (c : Csrs) (n : Nat) : Word := if n = 0 then c.le0 else c.le1
def loopCount (c : Csrs) (n : Nat) : Word := if n = 0 then c.lc0 else c.lc1
def setLoopActive (c : Csrs) (n : Nat) (b : Bool) : Csrs :=
  let m := BitVec.twoPow 64 n
  { c with loopst := if b then c.loopst ||| m else c.loopst &&& ~~~m }
def setLoopCount (c : Csrs) (n : Nat) (w : Word) : Csrs := if n = 0 then { c with lc0 := w } else { c with lc1 := w }
def setLoop (c : Csrs) (p : LoopPut) : Csrs :=
  let c := if p.level = 0 then { c with ls0 := p.start, le0 := p.end_, lc0 := p.count }
    else { c with ls1 := p.start, le1 := p.end_, lc1 := p.count }
  setLoopActive c p.level (p.count != 0)

/-- One level of the loop check, against the state at bundle entry: the CSRs and the return, if it is taken. -/
def loopLevel (entry : Csrs) (ba : Word) (n : Nat) (c : Csrs) : Csrs × Option Word :=
  if loopActive entry n && ba == loopEnd entry n then
    let m := loopCount entry n - 1
    let c := setLoopCount c n m
    if m = 0 then (setLoopActive c n false, none) else (c, some (loopStart entry n))
  else (c, none)

/-- The loop check of a bundle that takes no branch (R193). -/
def loopCheck (entry : Csrs) (ba : Word) (c : Csrs) : Csrs × Option Word :=
  match loopLevel entry ba 1 c with
  | (c, some t) => (c, some t)
  | (c, none) => loopLevel entry ba 0 c

/-- A taken branch clears the levels whose range does not hold its target (R194). -/
def leaveLoops (c : Csrs) (t : Word) : Csrs :=
  let out := fun n => loopActive c n && !(decide (loopStart c n ≤ t) && decide (t ≤ loopEnd c n))
  let c := if out 0 then setLoopActive c 0 false else c
  if loopActive c 1 && !(decide (loopStart c 1 ≤ t) && decide (t ≤ loopEnd c 1)) then setLoopActive c 1 false else c

/-- A bundle reached in sequence above LEn clears the level (R194). -/
def passLoops (c : Csrs) (next : Word) : Csrs :=
  let c := if loopActive c 0 && decide (loopEnd c 0 < next) then setLoopActive c 0 false else c
  if loopActive c 1 && decide (loopEnd c 1 < next) then setLoopActive c 1 false else c

/-! ### CSR numbers (R198, R199) -/

/-- A CSR write in its writable fields; none for an RO or unassigned number. -/
def csrWrite (c : Csrs) (n : Nat) (w : Word) : Option Csrs :=
  let low := fun (b : Nat) => w &&& BitVec.ofNat 64 (2 ^ b - 1)
  match n with
  | 0x000 => some { c with fpflags := low 5 }
  | 0x001 => some { c with srstate := low 32 }
  | 0x002 => some { c with pfthresh := low 5 }
  | 0x003 => some { c with stklim := low 22 }
  | 0x008 => some { c with loopst := low 2 }
  | 0x009 => some { c with ls0 := w }
  | 0x00A => some { c with le0 := w }
  | 0x00B => some { c with lc0 := w }
  | 0x00C => some { c with ls1 := w }
  | 0x00D => some { c with le1 := w }
  | 0x00E => some { c with lc1 := w }
  | 0x016 => some { c with pairwin := low 32 }
  | 0x020 =>
    let m := 0x80FF00FF#64
    some { c with cause := (w &&& m) ||| (c.cause &&& ~~~m) }
  | 0x021 => some { c with trappc := w }
  | 0x022 => some { c with donemask := w &&& 0x13F }
  | 0x023 => some { c with badslots := low 6 }
  | 0x024 => some { c with tvec := w }
  | 0x026 => some { c with tval := w }
  | _ => none

/-- A CSR as a context reads it; none for an unassigned number. -/
def csrRead (x : Ctx) (ctxnum now n : Nat) : Option Word :=
  let c := x.csr
  match n with
  | 0x000 => some c.fpflags
  | 0x001 => some c.srstate
  | 0x002 => some c.pfthresh
  | 0x003 => some c.stklim
  | 0x008 => some c.loopst
  | 0x009 => some c.ls0
  | 0x00A => some c.le0
  | 0x00B => some c.lc0
  | 0x00C => some c.ls1
  | 0x00D => some c.le1
  | 0x00E => some c.lc1
  | 0x010 => some c.asidcur
  | 0x011 => some c.uweight
  | 0x012 => some c.slice
  | 0x013 => some c.ytol
  | 0x014 => some c.leasebudget
  | 0x015 => some c.dpmax
  | 0x016 => some c.pairwin
  | 0x017 => some c.unitid
  | 0x018 => some (BitVec.ofNat 64 ctxnum)
  | 0x019 => some (BitVec.ofNat 64 x.cc)
  | 0x01A => some (BitVec.ofNat 64 now)
  | 0x020 => some c.cause
  | 0x021 => some c.trappc
  | 0x022 => some c.donemask
  | 0x023 => some c.badslots
  | 0x024 => some c.tvec
  | 0x025 => some c.badaddr
  | 0x026 => some c.tval
  | 0x030 => some c.tlLsu
  | 0x031 => some c.tlCpy
  | 0x032 => some c.tlMat
  | 0x033 => some c.tlDda
  | 0x034 => some c.tlCol
  | _ => none

/-! ### Completing a bundle -/

/-- The CSR writes of a bundle, S1's after S0's (R199). -/
def applyPuts (c : Csrs) (l : List CsrPut) : Csrs :=
  l.foldl (fun c p => (csrWrite c p.csr p.value).getD c) c

/-- The branch a bundle takes: S0's before S1's (R151). -/
def Issue.branch (i : Issue) : Option Taken :=
  match i.branch0 with
  | some t => some t
  | none => i.branch1

def seqPc (pc : Word) (len : Nat) : Word := pc + BitVec.ofNat 64 (2 * len)

/-- The 56 bits of a virtual address. -/
def va56 (w : Word) : Nat := w.toNat % 2 ^ 56

/-- Whether a taken branch from `pc` to `t` runs from the loop buffer (R115). -/
def LoopBuf.serves (b : Option LoopBuf) (k : Nat) (pc t : Word) : Bool :=
  match b with
  | some b => decide (b.ctx = k) && b.target == t && b.branch == pc
  | none => false

/-- The capture after a taken branch (R115): a run of bundles issued in sequence from `t` to `pc` is captured. In a core
whose ctx0 is static, only ctx0 captures. -/
def captureAfter (b : Option LoopBuf) (k asid : Nat) (pc t : Word) (len : Nat) (run : List Word) (mayCapture : Bool) :
    Option LoopBuf :=
  if LoopBuf.serves b k pc t then b
  else if mayCapture && run.contains t then some ⟨k, asid, t, pc, va56 pc + 2 * len⟩
  else b

/-- The context after a bundle in which no slot raises (R124, R137, R139, R140, R151, R193, R194, R199). -/
def Ctx.afterBundle (x : Ctx) (i : Issue) (now : Nat) (served : Word → Bool) : Ctx :=
  let next := seqPc i.pc i.len
  let checked := match i.branch with
    | some t => (x.csr, some t.target)
    | none => loopCheck i.entry.csr i.pc x.csr
  let csr := i.loops.foldl setLoop checked.1
  let csr := match checked.2 with
    | some t => leaveLoops csr t
    | none => passLoops csr next
  let csr := applyPuts csr i.csrs
  let ended := i.st || checked.2.isSome
  { x with
    csr
    cc := i.cc + 1
    pc := checked.2.getD next
    waits := i.wt.val
    penalty := match checked.2 with
      | some t => if served t then 0 else now + 3
      | none => 0
    group := if ended then x.group + 1 else x.group
    latches := if ended then Vector.replicate 4 Latch.cleared else x.latches
    dpArmed := i.dp
    resume := none
    fetchFault := []
    run := if checked.2.isSome then [] else (i.pc :: x.run).take 64 }

/-- Where the context goes next if a branch or a loop return is taken. -/
def Issue.takenTarget (i : Issue) (x : Ctx) : Option Word :=
  match i.branch with
  | some t => some t.target
  | none => (loopCheck i.entry.csr i.pc x.csr).2

/-- Whether the context's unit is static. -/
def State.isStatic (s : State) (c k : Nat) : Bool :=
  match (s.ctx c k).unit with
  | some u => ((s.unit u).map (·.static)).getD false
  | none => false

/-- After its EXIT has issued, a unit's writes in flight are discarded (R91). -/
def State.dropExited (s : State) : State :=
  if ((s.unit s.myUnit).map (·.exited)).getD false then s.onMe fun x => { x with flights := [], waits := 0 } else s

/-- The loop buffer after a bundle, and whether its branch finds a capture that has been lost (R115, R150). -/
def State.captured (s : State) : Option LoopBuf :=
  let i := s.iss
  let may := decide (i.ctx = 0) || !s.isStatic i.core 0
  match i.takenTarget s.me with
  | some t => captureAfter s.myCore.loopBuf i.ctx s.me.csr.asidcur.toNat i.pc t i.len ((i.pc :: s.me.run).take 64) may
  | none => s.myCore.loopBuf
def State.lostCapture (s : State) : Bool :=
  match s.iss.takenTarget s.me with
  | some t => LoopBuf.serves s.myCore.lostBuf s.iss.ctx s.iss.pc t && !LoopBuf.serves s.myCore.loopBuf s.iss.ctx s.iss.pc t
  | none => false

/-- The link write of the branch taken: it lands one context cycle after the bundle (R190); the suppressed link of S1 is never
written (R151). -/
def Issue.link (i : Issue) (group : Nat) : List Flight :=
  match i.branch with
  | some ⟨_, some d⟩ =>
    let slot := if i.branch0.isSome then Slot.s0 else Slot.s1
    [⟨i.cc + 1, slot, some .s, d.val, false, (seqPc i.pc i.len).setWidth 2048, allLanes, 0, none, true, group, i.cc⟩]
  | _ => []

/-- A bundle in which no slot raises completes. -/
def State.finishBundle (s : State) : State :=
  let i := s.iss
  let served := LoopBuf.serves s.myCore.loopBuf i.ctx i.pc
  let conflict := if i.branch0.isSome && i.branch1.isSome then 1 else 0
  ((s.onMyCore fun y => { y with
      loopBuf := s.captured, lostBuf := if s.lostCapture then none else y.lostBuf, brconf := (y.brconf + conflict) % 2 ^ 32 }).onMe fun x =>
    { x.afterBundle i s.now served with lostLoop := s.lostCapture, flights := x.flights ++ i.link x.group }).dropExited

/-- Local queues that an instruction names (R158, R360). -/
def localQueues (i : Instr) : List Nat :=
  let d := fun (m : MDesc) => if m.rem then [] else [m.queue.val]
  match i with
  | .mma o => d o.da ++ d o.db
  | .pmma o => d o.da ++ d o.db
  | .accrd o => [o.q.val]
  | .accwr o => [o.q.val]
  | .cpst o => [o.q.val]
  | i => match i.qSlotQueue, i.streamQueue with
    | some q, _ => [q.val]
    | _, some q => [q.val]
    | _, _ => []

def placedInstr (p : Placed) : Option Instr :=
  match p.syl with
  | .op i => some i
  | _ => none

def queueChanged (a b : Queue) : Bool :=
  !(a.head == b.head && a.tail == b.tail && a.fill == b.fill && a.opn == b.opn && a.okind == b.okind)

/-- The snapshot entries of a stopped bundle (R360), in slot order. -/
def snapshots (i : Issue) (x : Ctx) (done : BitVec 6) : List Snap :=
  let isDone := fun (p : Placed) => done.getLsbD p.slot.index
  let left := i.slots.filter (fun p => !isDone p)
  let namesQ := fun q => left.any fun p => (((placedInstr p).map localQueues).getD []).contains q
  let namesR := fun (r : RegCls × Nat) => left.any fun p =>
    p.uses.srcs.any (fun z => match z with
      | (c, .reg n) => decide (c = r.1) && decide (n.val = r.2)
      | _ => false) || p.uses.reads.contains r
  (i.slots.filter isDone).flatMap fun p =>
    (((((placedInstr p).map localQueues).getD []).eraseDups.filter
        (fun q => namesQ q && queueChanged (i.entry.queue q) (x.queue q))).map fun q =>
      let e := i.entry.queue q
      Snap.queue q e.head e.tail e.fill e.opn e.okind)
    ++ (p.uses.lands.filter namesR).map fun r => Snap.reg r.1 r.2 (i.entry.readReg r.1 r.2)

/-- The first raising slot in slot order; a bundle breakpoint only when nothing else is raised (R358). -/
def Issue.reported (i : Issue) : Option (Slot × Cond) :=
  let first := allSlots.findSome? fun sl => i.raised.find? (fun r => decide (r.1 = sl))
  match first with
  | some r => some r
  | none => (allSlots.find? (fun sl => i.stopped.getLsbD sl.index)).map (fun sl => (sl, bundleBreakpoint))

/-- TRAP, SYSC and BRK are done when they are the reported cause (R201, R358). -/
def softwareKind (c : Cond) : Bool := c.kind = 13 || c.kind = 14 || c = breakpointInstruction || (c.origin = 1 && c.kind = 15 && c.sub = 0)

/-- TVAL takes the operand of TRAP, SYSC or BRK, whether or not the trap is handled (R201). -/
def Csrs.reportOperand (c : Csrs) (d : Cond) : Csrs := if softwareKind d then { c with tval := d.tval.getD c.tval } else c

/-- A stopped bundle ends in a trap. With no done slot it spends no context cycle (R358, R361). -/
def State.stopBundle (s : State) (r : Slot × Cond) : State :=
  let i := s.iss
  let done := if softwareKind r.2 then i.done ||| r.1.mask else i.done
  let bad := i.raised.foldl (fun m z => m ||| z.1.mask) i.stopped
  let x := s.me
  let s := s.onMe fun x =>
    let y := if done = 0 then x else { x with cc := i.cc + 1 }
    { y with csr := (y.csr.reportSlots bad done).reportOperand r.2 }
  s.takeTrap i.core i.ctx
    { cond := r.2, trappc := i.pc, resume := i.pc, done, bad, snaps := snapshots i x done, async := none,
      unchecked := i.stopped }

/-- The last slot has performed: the bundle completes, stops, or returns from a trap. -/
def State.completeBundle (s : State) : State :=
  match s.iss.reported with
  | some r => s.stopBundle r
  | none => if s.iss.ret then s else s.finishBundle

/-- Record that the present slot raises a condition. -/
def State.raise (s : State) (c : Cond) : State := { s with iss := { s.iss with raised := s.iss.raised ++ [(s.iss.slot, c)] } }
/-- Record that the present slot is done. -/
def State.markDone (s : State) : State := { s with iss := { s.iss with done := s.iss.done ||| s.iss.slot.mask } }
def State.complete (s : State) : State := if s.iss.last && !s.iss.probing then s.completeBundle else s

/-- A slot that reads a register holding an uncorrectable error raises data error (R374). -/
def State.readErrors (s : State) : Except Cond PUnit :=
  let bad := s.iss.entry.bad
  let reads := fun (p : Placed) => decide (p.slot = s.iss.slot) && bad.any fun r =>
    p.uses.reads.contains r || p.uses.also.contains r || decide (r = (.p, p.uses.guard)) || p.uses.srcs.any fun z => match z with
      | (c, .reg n) => decide ((c, n.val) = r)
      | _ => false
  if !bad.isEmpty && s.iss.slots.any reads then .error (dataError (slotOrigin s.iss.slot)) else .ok ⟨⟩

/-- The state after a slot operation whose effect is `body`. While probing, only the condition is kept. A slot that raises is
not done; a deferred slot is not done when any slot of the bundle raises (R358, R359). -/
def slotState (deferred : Bool) (body : State → Except Cond State) (s : State) : State :=
  match s.readErrors >>= fun _ => body s with
  | .error c => (s.raise c).complete
  | .ok t =>
    if s.iss.probing then s
    else if deferred && (s.iss.anyRaise || !s.iss.raised.isEmpty) then s.complete
    else t.markDone.complete

/-- What a meaning answers. -/
abbrev Res := Host.Outcome State Fault Refusal

/-- A slot operation. -/
def slotOp (deferred : Bool) (body : State → Except Cond State) (s : State) : Res :=
  .next (slotState deferred body s)

end Sys2Proof.Machine
end

