-- ==== Sys2Proof/Machine/Flags.lean ====
section
/-! DEFINITION. Status results: FPFLAGS bits carried with results, the generator, and the conditions of branches
(R42 to R44, R184, R188, R189). -/
namespace Sys2Proof.Machine

/-- A scalar FP32 result with its flags, at latency 4; the generator keeps its steps (R181, R184). -/
def State.writeF32 (s : State) (d : Fin 32) (nw : Bool) (r : Nat × RAcc) : State :=
  (s.keepSr r.2).writeS d nw (BitVec.ofNat 64 r.1) 4 r.2.fl

/-- A vector result with its flags; the generator keeps its steps (R207, R228). -/
def State.writeVF (s : State) (d : Fin 32) (nw : Bool) (en : PWord) (lat : Nat) (r : VWord × RAcc) : State :=
  (s.keepSr r.2).writeV d nw r.1 en lat r.2.fl

/-- BCZ's condition (R188). -/
def condZ (c : CondZ) (a : Word) : Bool :=
  match c with
  | .eq => a == 0
  | .ne => a != 0
  | .lt => decide (a.toInt < 0)
  | .ge => decide (0 ≤ a.toInt)
  | .le => decide (a.toInt ≤ 0)
  | .gt => decide (0 < a.toInt)

/-- BC's condition (R188). -/
def condB (c : CondB) (a b : Word) : Bool :=
  match c with
  | .eq => a == b
  | .ne => a != b
  | .lt => decide (a.toInt < b.toInt)
  | .ge => decide (b.toInt ≤ a.toInt)
  | .ltn => decide (a < b)
  | .gen => decide (b ≤ a)

/-- BP's test (R189). -/
def predTest (t : PTest) (p : PWord) : Bool :=
  match t with
  | .any => p != 0
  | .none => p == 0
  | .all => p == allLanes
  | .nall => p != allLanes
  | .first => p.getLsbD 0
  | .nfirst => !p.getLsbD 0

end Sys2Proof.Machine
end

