-- ==== Sys2Proof/Machine/Operands.lean ====
section
/-! DEFINITION. Operand forms of the S slots: register and immediate operands, bit fields, and local addresses
(R176, R177, R179, R180, R185). -/
namespace Sys2Proof.Machine

def b2w (b : Bool) : Word := if b then 1 else 0

/-- Number of leading zero bits (R176). -/
def clzWord (a : Word) : Nat := if a = 0 then 64 else 63 - a.toNat.log2

/-- Number of trailing zero bits (R176). -/
def ctzWord (a : Word) : Nat := ((List.range 64).find? (fun i => a.getLsbD i)).getD 64

def popWord (a : Word) : Nat := ((List.range 64).filter (fun i => a.getLsbD i)).length

/-- Position and width of a bit-field operand (R177). -/
def fieldPos (b : Word) : Nat := b.toNat % 64
def fieldWidth (b : Word) : Nat := min (b.toNat / 256 % 128) (64 - fieldPos b)

/-- The zero-extended field of a (R177). -/
def fieldOf (a b : Word) : Nat := a.toNat / 2 ^ fieldPos b % 2 ^ fieldWidth b

def bfxnWord (a b : Word) : Word := BitVec.ofNat 64 (fieldOf a b)
def bfxWord (a b : Word) : Word :=
  if fieldWidth b = 0 then 0 else word64 (readInt true (fieldWidth b) (fieldOf a b))
def bfiWord (old a b : Word) : Word :=
  let m := BitVec.ofNat 64 ((2 ^ fieldWidth b - 1) * 2 ^ fieldPos b)
  (old &&& ~~~m) ||| ((a <<< fieldPos b) &&& m)

/-- Sext(imm14, 14). -/
def sext14 (imm : BitVec 14) : Word := imm.signExtend 64

/-- A register-register operation of latency `lat`. -/
def bodySR (f : Word → Word → Word) (lat : Nat) (o : SR3) (s : State) : Except Cond State := do
  let a ← s.srcS o.a
  let b ← s.srcS o.b
  pure (s.writeS o.d o.nw (f a b) lat)

/-- A one-source operation of latency 1. -/
def bodySR1 (f : Word → Word) (o : SR2) (s : State) : Except Cond State := do
  let a ← s.srcS o.a
  pure (s.writeS o.d o.nw (f a) 1)

/-- An operation on a register and the signed immediate, latency 1. -/
def bodySI (f : Word → Word → Word) (o : SImm) (s : State) : Except Cond State := do
  let a ← s.srcS o.a
  pure (s.writeS o.d o.nw (f a (sext14 o.imm)) 1)

/-- A shift by an immediate, latency 1. -/
def bodySh (f : Word → Nat → Word) (o : SSh) (s : State) : Except Cond State := do
  let a ← s.srcS o.a
  pure (s.writeS o.d o.nw (f a o.sh.toNat) 1)

/-- An FP32 operation of two operands that rounds (R181). -/
def bodyF3 (f : Rm → Nat → Nat → RAcc → Nat × RAcc) (o : SF3) (s : State) : Except Cond State := do
  let a ← s.srcS o.a
  let b ← s.srcS o.b
  pure (s.writeF32 o.d o.nw (f o.rm (a.toNat % 2 ^ 32) (b.toNat % 2 ^ 32) s.racc))

/-- An FP32 operation of two operands that does not round (R182). -/
def bodyFN (f : Nat → Nat → RAcc → Nat × RAcc) (o : SR3) (s : State) : Except Cond State := do
  let a ← s.srcS o.a
  let b ← s.srcS o.b
  pure (s.writeF32 o.d o.nw (f (a.toNat % 2 ^ 32) (b.toNat % 2 ^ 32) s.racc))

/-- An FP32 operation of one operand that does not round (R182). -/
def bodyF1 (f : Nat → RAcc → Nat × RAcc) (o : SR2) (s : State) : Except Cond State := do
  let a ← s.srcS o.a
  pure (s.writeF32 o.d o.nw (f (a.toNat % 2 ^ 32) s.racc))

/-- The local address of LD.l and ST.l: an exact sum (R185). -/
def localAddr (a : Word) (imm : BitVec 14) : Int := (a.toNat : Int) + imm.toInt

/-- The checks of a scalar local access. -/
def checkLocal (addr : Int) (size : Nat) : Except Cond Nat :=
  if addr < 0 ∨ (spmSize : Int) ≤ addr then .error (scratchpadRange 1)
  else if addr.toNat % size ≠ 0 then .error (misalignedAccess 1)
  else .ok addr.toNat

/-- A local load (R185). -/
def bodyLoad (size : Nat) (signed : Bool) (o : SImm) (s : State) : Except Cond State := do
  let a ← s.srcS o.a
  let addr ← checkLocal (localAddr a o.imm) size
  let b ← s.myCore.load 1 addr size
  pure (s.writeS o.d o.nw (word64 (readInt signed (8 * size) (leNat b))) 6)

/-- A local store (R185). -/
def bodyStore (size : Nat) (o : SSt) (s : State) : Except Cond State := do
  let a ← s.srcS o.a
  let addr ← checkLocal (localAddr a o.imm) size
  pure (s.onMyCore fun x => x.storeBytes addr (leBytes (s.regS o.d.val).toNat size))

/-- A branch taken by the present slot (R151). -/
def State.take (s : State) (t : Taken) : State :=
  match s.iss.slot with
  | .s1 => { s with iss := { s.iss with branch1 := some t } }
  | _ => { s with iss := { s.iss with branch0 := some t } }

/-- Bundle address + 2 × displacement (R119, R187). -/
def State.target (s : State) (disp : Int) : Word := s.iss.pc + BitVec.ofInt 64 (2 * disp)

/-- A write of a CSR at the end of the bundle (R199). -/
def State.putCsr (s : State) (n : Nat) (w : Word) : State :=
  { s with iss := { s.iss with csrs := s.iss.csrs ++ [⟨s.iss.slot, n, w⟩] } }

def State.putLoop (s : State) (p : LoopPut) : State := { s with iss := { s.iss with loops := s.iss.loops ++ [p] } }

/-- Device context number (R10). -/
def ctxNumber (c k : Nat) : Nat := 4 * c + k

/-- A CSR as it stood at bundle entry (R197). -/
def State.csrAtEntry (s : State) (n : Nat) : Except Cond Word :=
  match csrRead s.iss.entry (ctxNumber s.iss.core s.iss.ctx) s.now n with
  | some w => .ok w
  | none => .error csrAccess

/-- CSRW, CSRS and CSRC (R197). -/
def bodyCsr (f : Word → Word → Word) (o : CsrOp) (s : State) : Except Cond State := do
  let old ← s.csrAtEntry o.csr.toNat
  let a ← s.srcS o.a
  match csrWrite s.iss.entry.csr o.csr.toNat 0 with
  | none => .error csrAccess
  | some _ => pure ((s.writeS o.d o.nw old 1).putCsr o.csr.toNat (f old a))

/-- TRAP, SYSC and BRK (R201). -/
def raiseTrap (c : Cond) (v : Word) : Except Cond State := .error { c with tval := some v }

end Sys2Proof.Machine
end

