-- ==== Sys2Proof/Machine/Fetch.lean ====
section
/-! DEFINITION. What the instruction cache holds for a fetch, and the sectors a bundle needs (R110, R111, R113, R115). -/
namespace Sys2Proof.Machine

/-- The line that holds an address for an ASID. -/
def Core.line (x : Core) (asid va : Nat) : Option ILine :=
  x.icache.find? fun l => decide (l.asid = asid) && decide (l.va = va / 512 * 512)

/-- A fetched byte, if its sector is in the cache. -/
def Core.fetchByte (x : Core) (asid va : Nat) : Option Byte :=
  match x.line asid va with
  | some l => if l.valid.getLsbD (va % 512 / 64) then l.bytes[va % 512]? else none
  | none => none

def Core.fetchBytes (x : Core) (asid va : Nat) : Nat → Option (List Byte)
  | 0 => some []
  | n + 1 => match x.fetchByte asid va, x.fetchBytes asid (va + 1) n with
    | some b, some rest => some (b :: rest)
    | _, _ => none

/-- First byte of a sector. -/
def sectorOf (va : Nat) : Nat := va / 64 * 64

/-- Whether a 64-bit address is canonical (R57). -/
def canonical (w : Word) : Bool := (w.extractLsb' 0 56).signExtend 64 == w

/-- What is known of the bytes of a bundle: its bytes, the first sector that is missing, or the condition of the first
sector that cannot be read. -/
inductive Fetched where
  | bytes (l : List Byte)
  | missing (va : Nat)
  | fault (c : Cond)
deriving DecidableEq, Repr

/-- The condition of a sector that a fetch of this context found unreadable. -/
def Ctx.faultAt (x : Ctx) (va : Nat) : Option Cond :=
  find x.fetchFault (sectorOf va)

/-- `n` bytes from `va` up, for an instruction fetch of a context. -/
def Core.fetchFrom (x : Core) (k : Nat) (va : Nat) : Nat → Fetched
  | 0 => .bytes []
  | n + 1 =>
    let asid := (x.ctx k).csr.asidcur.toNat
    match x.fetchByte asid va with
    | none => match (x.ctx k).faultAt va with
      | some c => .fault c
      | none => .missing (sectorOf va)
    | some b => match x.fetchFrom k (va + 1) n with
      | .bytes l => .bytes (b :: l)
      | r => r

/-- Bytes at a fetch address: a fetch at an odd or a non-canonical address faults (R57, R111). Past the last canonical address of
the lower half nothing can be read; past the last of the upper half addresses go on at 0. -/
def Core.fetchAt (x : Core) (k : Nat) (pc : Word) (n : Nat) : Fetched :=
  let va := va56 pc
  let room := (if va < 2 ^ 55 then 2 ^ 55 else 2 ^ 56) - va
  if pc.getLsbD 0 then .fault misalignedFetch
  else if !canonical pc then .fault { nonCanonical 0 with badaddr := some (pc &&& ~~~63#64) }
  else if n ≤ room then x.fetchFrom k va n
  else match x.fetchFrom k va room with
    | .bytes l =>
      if va < 2 ^ 55 then .fault { nonCanonical 0 with badaddr := some (BitVec.ofNat 64 (2 ^ 55)) }
      else match x.fetchFrom k 0 (n - room) with
        | .bytes m => .bytes (l ++ m)
        | r => r
    | r => r

/-- The header at an address. -/
def Core.headerAt (x : Core) (k : Nat) (pc : Word) : Fetched := x.fetchAt k pc 2

/-- The bytes of the whole bundle at an address. -/
def Core.bundleAt (x : Core) (k : Nat) (pc : Word) : Fetched :=
  match x.headerAt k pc with
  | .bytes h => x.fetchAt k pc (2 * (decodeHeader (BitVec.ofNat 16 (leNat h))).len)
  | r => r

/-- A snapshotted register or queue as a resumed slot reads it (R360). -/
def Ctx.withSnap (x : Ctx) : Snap → Ctx
  | .reg c n v => x.writeReg c n v
  | .queue q h t f o k => x.setQueue q { x.queue q with head := h, tail := t, fill := f, opn := o, okind := k }

/-- The bank as the next bundle reads it: the writes due by its context cycle have landed; a resumed bundle reads its snapshot. -/
def Ctx.atEntry (x : Ctx) : Ctx :=
  let y := x.landDue
  match x.resume with
  | some r => r.snaps.foldl Ctx.withSnap y
  | none => y

/-- Slots that a resumed bundle has done. -/
def Ctx.doneSlots (x : Ctx) : BitVec 6 := (x.resume.map (·.done)).getD 0

/-- Where the last bundle of the body stands that a loop with count 0 skips, its count read from the bank at entry (R192). A count
that is still pending, as `held` says, is not known: the bundle waits for it first. -/
def Ctx.skippedLoop (entry : Ctx) (held : Nat → Bool) : Instr → Option Word
  | .loop _ a disp =>
    let none? := match a with
      | .reg n => !held n.val && entry.readS n.val == 0
      | .lat l => match entry.readLatch l .s with
        | .ok w => w.setWidth 64 == (0 : Word)
        | .error _ => false
    if none? then some (entry.pc + BitVec.ofInt 64 (2 * disp.toInt)) else none
  | .loopi _ n disp => if n = 0 then some (entry.pc + BitVec.ofInt 64 (2 * disp.toInt)) else none
  | _ => none

/-- The header that a slot of the next bundle asks for and that the cache lacks. -/
def Core.loopHeader (x : Core) (k : Nat) (held : Nat → Bool) (p : Placed) : Option Nat :=
  match p.syl with
  | .op i => match (x.ctx k).atEntry.skippedLoop held i with
    | some pc => match x.headerAt k pc with
      | .missing va => some va
      | _ => none
    | none => none
  | _ => none

/-- The next bundle of a context; while a header that a loop of it reads is outstanding, that sector is missing (R192). -/
def Core.fetched (x : Core) (k : Nat) (held : Nat → Bool) : Fetched :=
  match x.bundleAt k (x.ctx k).pc with
  | .bytes l =>
    let b := decodeBundle l
    let left := b.slots.filter fun p => !(x.ctx k).doneSlots.getLsbD p.slot.index
    if b.illegal.isSome then .bytes l
    else match left.findSome? (x.loopHeader k held) with
      | some va => .missing va
      | none => .bytes l
  | r => r

/-- Whether a scalar register of the unit resident in a context is pending. -/
def State.heldScalar (s : State) (c k n : Nat) : Bool :=
  (((s.ctx c k).unit.bind s.unit).map (·.landings)).any fun l => l.any fun y => decide (y.cls = .s) && decide (y.num = n)

/-- The next bundle of a context of the device. -/
def State.fetched (s : State) (c k : Nat) : Fetched := (s.core c).fetched k (s.heldScalar c k)

/-! ### The loop buffer's lines (R115) -/

/-- Whether a line holds a byte of a captured run. -/
def LoopBuf.touches (b : LoopBuf) (l : ILine) : Bool :=
  decide (l.asid = b.asid) && decide (l.va < b.stop) && decide (va56 b.target < l.va + 512)

/-- The capture ends when a line of its run, among those that `p` names, is dropped. -/
def Core.loseCapture (x : Core) (p : ILine → Bool) : Core :=
  if x.loopBuf.any fun b => x.icache.any fun l => p l && b.touches l then { x with loopBuf := none, lostBuf := x.loopBuf } else x

/-- Lines that `p` names are dropped, with their locks (R112). -/
def Core.dropLines (x : Core) (p : ILine → Bool) : Core :=
  let y := x.loseCapture p
  { y with icache := y.icache.filter fun l => !p l }

/-- Length in parcels of the bundle at an address, or the condition of a fetch that fails. A step never asks for it while
the fetch is outstanding: the bundle waits (R192). -/
def State.lengthAt (s : State) (pc : Word) : Except Cond Nat :=
  match s.myCore.headerAt s.iss.ctx pc with
  | .bytes h => .ok (decodeHeader (BitVec.ofNat 16 (leNat h))).len
  | .fault c => .error c
  | .missing va => .error { condAt 0 10 0 with badaddr := some (BitVec.ofNat 64 va) }

end Sys2Proof.Machine
end

