-- ==== Sys2Proof/Machine/Global.lean ====
section
/-! DEFINITION. Physical memory: homes, encryption, L2 lines and their directory, host coherence, errors (R68 to R71, R311 to
R316, R335, R373, R374, R410, R411). -/
namespace Sys2Proof.Machine

/-! ### Homes (R68, R69) -/

/-- The home of a physical address: a stack and the address within it, a DDR-5 channel and the offset in its tier, or host memory
through a port, none while no port is ready. -/
inductive Home where
  | hbm (stack addr : Nat)
  | ddr (channel off : Nat)
  | host (port : Option Nat)
deriving DecidableEq, Repr

def gib : Nat := 2 ^ 30
def winOn (w : Word) : Bool := w.getLsbD 63
def winBase (w : Word) : Nat := (w.extractLsb' 30 22).toNat * gib
def winIl (w : Word) : Bool := w.getLsbD 52

/-- The stack that owns an offset of the HBM window, and the address within it (R69). -/
def stackOf (il : Bool) (o : Nat) : Nat := if il then o / 4096 % 8 else o / (48 * gib)
def stackAddr (il : Bool) (o : Nat) : Nat := if il then o / 32768 * 4096 + o % 4096 else o % (48 * gib)

/-- The size of the DDR-5 window in GiB: the capacity found at reset, up to 1,536 (R7, R69; log entry 2). -/
def ddrGib : Nat := min 1536 Config.ddrSize.toNat

/-- The host port that an access to host memory goes through (R68). -/
def State.hostPort (s : State) (pa : Nat) : Option Nat :=
  match s.regs.ready.getLsbD 44, s.regs.ready.getLsbD 45 with
  | true, true => some ((pa / 2 ^ 12 % 2) ^^^ (pa / 2 ^ 21 % 2))
  | true, false => some 0
  | false, true => some 1
  | false, false => none

def State.homeOf (s : State) (pa : Nat) : Home :=
  let h := s.regs.hbmwin
  let d := s.regs.ddrwin
  if winOn h && decide (winBase h ≤ pa) && decide (pa < winBase h + 384 * gib) then
    .hbm (stackOf (winIl h) (pa - winBase h)) (stackAddr (winIl h) (pa - winBase h))
  else if winOn d && decide (winBase d ≤ pa) && decide (pa < winBase d + ddrGib * gib) then
    .ddr (Config.ddrChannel (pa - winBase d) % 12) (pa - winBase d)
  else .host (s.hostPort pa)

/-- The location in `State.mem` of a home's byte: the stacks one after the other, the DDR-5 tier from 2⁵⁰, host memory from 2⁵². -/
def Home.loc (h : Home) (pa : Nat) : Nat :=
  match h with
  | .hbm k a => k * (48 * gib) + a
  | .ddr _ o => 2 ^ 50 + o
  | .host _ => 2 ^ 52 + pa

/-- Where the byte of a physical address is held. A sector keeps its bytes together. -/
def State.loc (s : State) (pa : Nat) : Nat := (s.homeOf pa).loc pa

def Home.isHost : Home → Bool
  | .host _ => true
  | _ => false

/-- Whether the function behind a home is ready (R410). -/
def State.homeReady (s : State) (pa : Nat) : Bool :=
  match s.homeOf pa with
  | .hbm k _ => s.regs.ready.getLsbD (4 + k)
  | .ddr k _ => s.regs.ready.getLsbD (12 + k)
  | .host _ => true

/-! ### Encryption (R70, R71) -/

/-- The key in a slot; none for clear. -/
def State.keyValue (s : State) (k : Option Nat) : Option (BitVec 512) := k.map fun i => (find s.keys i).getD 0

/-- A byte last written under one key at sector address `wsec`, as it reads under another at address `pa`: its whole unit of 16 bytes
is decrypted (R70, R71). `byte` gives the bytes around it. -/
def underKey (wsec pa : Nat) (wk rk : Option (BitVec 512)) (byte : Nat → Byte) : Byte :=
  if wk = rk ∧ (wk = none ∨ wsec = pa / 128 * 128) then byte pa
  else byteOf (rekey wsec (pa / 128 * 128) (pa % 128 / 16) wk rk ((List.range 16).map fun j => byte (pa / 16 * 16 + j))) (pa % 16)

/-- The byte that the home of a physical address holds, as it was written. -/
def State.homeCell (s : State) (pa : Nat) : Byte := s.mem.read (s.loc pa)

/-- A home byte read under a key. Host memory holds no encrypted data. -/
def State.homeByte (s : State) (pa : Nat) (rk : Option (BitVec 512)) : Byte :=
  let tag := find s.keyTag (s.loc pa / 128)
  if (s.homeOf pa).isHost then s.homeCell pa else underKey ((tag.map (·.2)).getD 0) pa (tag.map (·.1)) rk s.homeCell

/-- Bytes of one sector or less stored at the home under a key. A part of a sector that was written otherwise is merged into
the sector as it reads under this key. -/
def State.homeWrite (s : State) (pa : Nat) (l : List Byte) (wk : Option (BitVec 512)) : State :=
  let at_ := s.loc pa
  let sec := at_ / 128
  let good := if l.length = 128 then s.bad.filter (· ≠ sec) else s.bad
  if (s.homeOf pa).isHost then { s with mem := s.mem.writeBytes at_ l, bad := good }
  else
    let tag := wk.map fun k => (k, pa / 128 * 128)
    let merged := if l.length = 128 ∨ find s.keyTag sec = tag then s.mem
      else s.mem.writeBytes (sec * 128) ((List.range 128).map fun j => s.homeByte (pa / 128 * 128 + j) wk)
    { s with mem := merged.writeBytes at_ l, keyTag := setAt s.keyTag sec tag, bad := good }

/-! ### Reports to the host (R373, R374, R411) -/

def State.msix (s : State) (port vec : Nat) : State := { s with outs := s.outs ++ [.msix port vec] }

/-- A report enters the error log, and vector 2,047 is signalled on every ready port. -/
def State.report (s : State) (kind index place : Nat) : State :=
  let w := BitVec.ofNat 64 (2 ^ 63 + kind * 2 ^ 58 + index * 2 ^ 52 + place % 2 ^ 52)
  let s := if s.regs.errlog.length < 64 then { s with regs := { s.regs with errlog := s.regs.errlog ++ [w] } }
    else { s with regs := { s.regs with ovf := true } }
  let s := if s.regs.ready.getLsbD 44 then s.msix 0 2047 else s
  if s.regs.ready.getLsbD 45 then s.msix 1 2047 else s

/-! ### L2 lines (R311, R312) -/

def l2Key (die pa : Nat) : Nat := pa / 512 * 4 + die
def State.line (s : State) (die pa : Nat) : Option L2Line := find s.l2 (l2Key die pa)
def State.setLine (s : State) (die pa : Nat) (l : L2Line) : State := { s with l2 := put s.l2 (l2Key die pa) l }
def State.dropLine (s : State) (die pa : Nat) : State := { s with l2 := del s.l2 (l2Key die pa) }

/-- PRES and OWN of a line (R312): the dies that hold it, and the one that owns it. -/
def State.holders (s : State) (pa : Nat) : List Nat := (List.range 4).filter fun d => (s.line d pa).isSome
def State.owner (s : State) (pa : Nat) : Option Nat :=
  (List.range 4).find? fun d => ((s.line d pa).map (·.owned)).getD false

/-- Write one dirty sector back to its home under the line's key. One that holds an uncorrectable error is not written: it is
reported (R374). -/
def State.writeBackSector (s : State) (pa : Nat) (l : L2Line) (i : Nat) : State :=
  if l.dirty.getLsbD i then
    if l.bad.getLsbD i then s.report 7 0 (pa / 512 * 512 + 128 * i)
    else s.homeWrite (pa / 512 * 512 + 128 * i) ((l.data.drop (128 * i)).take 128) (s.keyValue l.key)
  else s

/-- Write every dirty sector of a die's line back; it stays held, clean. -/
def State.clean (s : State) (die pa : Nat) : State :=
  match s.line die pa with
  | some l => ((List.range 4).foldl (fun s i => s.writeBackSector pa l i) s).setLine die pa { l with dirty := 0 }
  | none => s

/-- Write back and drop a die's line. -/
def State.evict (s : State) (die pa : Nat) : State := (s.clean die pa).dropLine die pa

def l2Slice (pa : Nat) : Nat := (pa / 2 ^ 9 % 32) ^^^ (pa / 2 ^ 14 % 32) ^^^ (pa / 2 ^ 19 % 32)
def l2Set (pa : Nat) : Nat := pa / 2 ^ 14 % 256

/-- Lines of a die in the set of an address. -/
def State.setLines (s : State) (die pa : Nat) : List Nat :=
  (s.l2.filter fun x => decide (x.1 % 4 = die) && decide (l2Slice (x.1 / 4 * 512) = l2Slice pa)
    && decide (l2Set (x.1 / 4 * 512) = l2Set pa)).map fun x => x.1 / 4 * 512

/-- Make a way free: a full set of 16 loses a line that the hardware chooses. -/
def State.makeRoom (s : State) (die pa : Nat) : State :=
  let l := s.setLines die pa
  if l.length < 16 then s
  else
    let (n, s) := s.draw
    match l[Config.victim n % 16]? with
    | some v => s.evict die v
    | none => s

/-- Resource number of an L2 slice, and whether it is retired (R373). -/
def resSlice (die slice : Nat) : Nat := 1000 + die * 32 + slice
def State.sliceRetired (s : State) (die pa : Nat) : Bool := s.retired.contains (resSlice die (l2Slice pa))

/-- Every die that holds the line. -/
def State.onHolders (s : State) (pa : Nat) (f : State → Nat → State) : State := (s.holders pa).foldl f s

/-- What an eviction or a snoop of one sector leaves of a die's line. -/
def State.snoopDie (s : State) (pa : Nat) (inv : Bool) (d : Nat) : State :=
  match s.line d pa with
  | some l =>
    let i := pa % 512 / 128
    let s := s.writeBackSector pa l i
    let m := BitVec.twoPow 4 i
    let dirty := l.dirty &&& ~~~m
    let valid := if inv then l.valid &&& ~~~m else l.valid
    let owned := if inv && valid != 0 then l.owned else l.owned && dirty != 0
    if valid = 0 then s.dropLine d pa else s.setLine d pa { l with dirty, valid, owned }
  | none => s

/-- Whether some die holds the sector of an address. -/
def State.sectorHeld (s : State) (pa : Nat) : Bool :=
  (List.range 4).any fun d => (s.line d pa).any fun l => l.valid.getLsbD (pa % 512 / 128)

/-- The snoop directory of host memory holds the lines that dies hold, two 64-byte lines for each sector and at most 1,048,576 in
all: the least recently entered one, with its sector, is recalled from its holders first (R313). -/
def State.enterHostDir (s : State) (pa : Nat) : State :=
  let sec := pa / 128
  let s := { s with hostDir := s.hostDir.filter fun x => s.sectorHeld (x * 128) }
  if s.hostDir.contains sec then s
  else
    let s := match s.hostDir with
      | old :: rest => if 1048576 < 2 * s.hostDir.length + 2 then
          { s.onHolders (old * 128) (fun s d => s.snoopDie (old * 128) true d) with hostDir := rest } else s
      | [] => s
    { s with hostDir := s.hostDir ++ [sec] }

/-- Back-invalidate snoops of a line that the host may hold, two of 256 bytes each (R313); after an invalidating one the host holds the
line no longer. What the host has modified stands at the home already: a host store performs there. -/
def State.backSnoop (s : State) (pa : Nat) (inv : Bool) : State :=
  if s.hostBits.contains (pa / 512) then
    { s with
      outs := s.outs ++ [.backSnoop (pa / 512 * 512) inv, .backSnoop (pa / 512 * 512 + 256) inv]
      hostBits := if inv then s.hostBits.filter (· ≠ pa / 512) else s.hostBits }
  else s

/-- A home serves a read or ownership request of a die for a line (R312, R313): a read recalls the owner's dirty sectors, an
ownership request invalidates every other holder; both snoop the host first where it may hold a device-homed line. -/
def State.lineRequest (s : State) (die pa : Nat) (own : Bool) : State :=
  let s := s.onHolders pa fun s d =>
    if d = die then s
    else if own then s.evict d pa
    else
      let s := s.clean d pa
      match s.line d pa with
      | some l => s.setLine d pa { l with owned := false }
      | none => s
  let s := if (s.homeOf pa).isHost then s else s.backSnoop pa own
  match s.line die pa with
  | some l => s.setLine die pa { l with owned := l.owned || own }
  | none =>
    let s := s.makeRoom die pa
    s.setLine die pa ⟨own, none, 0, 0, 0, List.replicate 512 0⟩

/-- A line under the key of an access: a line held under another key is written back, dropped and requested again (R71). -/
def State.lineUnder (s : State) (die pa : Nat) (key : Option Nat) (own : Bool) : State :=
  let fresh := fun (s : State) => match s.line die pa with
    | some l => s.setLine die pa { l with key }
    | none => s
  match s.line die pa with
  | some l =>
    if l.key = key then (if own && !l.owned then s.lineRequest die pa true else s)
    else fresh ((s.evict die pa).lineRequest die pa own)
  | none => fresh (s.lineRequest die pa own)

/-- A sector of host memory that a die comes to hold enters the snoop directory. -/
def State.hostHeld (s : State) (pa : Nat) : State := if (s.homeOf pa).isHost then s.enterHostDir pa else s

/-- Fill one sector of a die's line from its home. -/
def State.fillSector (s : State) (die pa : Nat) : State :=
  match s.line die pa with
  | some l =>
    let i := pa % 512 / 128
    if l.valid.getLsbD i then s
    else
      let a := pa / 128 * 128
      let rk := s.keyValue l.key
      let bytes := (List.range 128).map fun j => s.homeByte (a + j) rk
      let m := BitVec.twoPow 4 i
      (s.setLine die pa { l with
        valid := l.valid ||| m
        bad := if s.bad.contains (s.loc pa / 128) then l.bad ||| m else l.bad
        data := l.data.take (128 * i) ++ bytes ++ l.data.drop (128 * i + 128) }).hostHeld pa
  | none => s

def setBytes (l : List Byte) (i : Nat) (x : List Byte) : List Byte := l.take i ++ x ++ l.drop (i + x.length)

/-- What a read of one die gives: the bytes, and whether some byte meets an uncorrectable error or a home that is not ready. -/
structure Got where
  data : List Byte
  err : Bool
deriving DecidableEq, Repr

/-- Read bytes within one sector through the die's L2. -/
def State.readSector (s : State) (die pa n : Nat) (key : Option Nat) : Got × State :=
  if !s.homeReady pa then (⟨List.replicate n 0, true⟩, s)
  else
    let s := (s.lineUnder die pa key false).fillSector die pa
    match s.line die pa with
    | some l =>
      let r : Got := ⟨(l.data.drop (pa % 512)).take n, l.bad.getLsbD (pa % 512 / 128)⟩
      (r, if s.sliceRetired die pa then s.evict die pa else s)
    | none => (⟨List.replicate n 0, true⟩, s)

/-- Store bytes within one sector through the die's L2: it is performed at its home once the line is owned (R315). -/
def State.writeSector (s : State) (die pa : Nat) (l : List Byte) (key : Option Nat) : Bool × State :=
  if !s.homeReady pa then (true, s)
  else
    let s := s.lineUnder die pa key true
    let whole := decide (l.length = 128)
    let s := if whole then s else s.fillSector die pa
    match s.line die pa with
    | some y =>
      let m := BitVec.twoPow 4 (pa % 512 / 128)
      let s := (s.setLine die pa { y with
        valid := y.valid ||| m
        dirty := y.dirty ||| m
        bad := if whole then y.bad &&& ~~~m else y.bad
        data := setBytes y.data (pa % 512) l }).hostHeld pa
      (false, if s.sliceRetired die pa then s.evict die pa else s)
    | none => (true, s)

/-- Pieces of a range that lie within one sector each: address and length; `fuel` is at least the number of pieces. -/
def pieces (pa n : Nat) : Nat → List (Nat × Nat)
  | 0 => []
  | fuel + 1 =>
    if n = 0 then []
    else
      let k := min n (128 - pa % 128)
      (pa, k) :: pieces (pa + k) (n - k) fuel

def sectorPieces (pa n : Nat) : List (Nat × Nat) := pieces pa n (n / 128 + 2)

/-- Read physical bytes through a die's L2 under a key. -/
def State.readPhys (s : State) (die pa n : Nat) (key : Option Nat) : Got × State :=
  (sectorPieces pa n).foldl (fun acc p =>
    let (g, s) := acc.2.readSector die p.1 p.2 key
    (⟨acc.1.data ++ g.data, acc.1.err || g.err⟩, s)) (⟨[], false⟩, s)

/-- Store physical bytes through a die's L2 under a key; true when an error keeps a byte from being stored. -/
def State.writePhys (s : State) (die pa : Nat) (l : List Byte) (key : Option Nat) : Bool × State :=
  let r := (sectorPieces pa l.length).foldl (fun (acc : Bool × List Byte × State) p =>
    let (e, t) := acc.2.2.writeSector die p.1 (acc.2.1.take p.2) key
    (acc.1 || e, acc.2.1.drop p.2, t)) (false, l, s)
  (r.1, r.2.2)

/-! ### Accesses at the home: the command processor, save areas, trace and the host -/

/-- The byte that a coherent read of the home gives. -/
def State.peekByte (s : State) (pa : Nat) (rk : Option (BitVec 512)) : Byte :=
  let held := (List.range 4).findSome? fun d => match s.line d pa with
    | some l =>
      let byte := fun a => l.data[a % 512]?.getD 0
      if !l.dirty.getLsbD (pa % 512 / 128) then none
      else if (s.homeOf pa).isHost then some (byte pa)
      else some (underKey (pa / 128 * 128) pa (s.keyValue l.key) rk byte)
    | none => none
  held.getD (s.homeByte pa rk)

def State.peek (s : State) (pa : Nat) (n : Nat) (rk : Option (BitVec 512) := none) : List Byte :=
  (List.range n).map fun i => s.peekByte (pa + i) rk

/-- A coherent store at the home: every die first writes back and drops the line. -/
def State.poke (s : State) (pa : Nat) (l : List Byte) (wk : Option (BitVec 512) := none) : State :=
  let r := (sectorPieces pa l.length).foldl (fun (acc : List Byte × State) p =>
    let s := acc.2.onHolders p.1 fun s d => s.evict d p.1
    (acc.1.drop p.2, s.homeWrite p.1 (acc.1.take p.2) wk)) (l, s)
  r.2

/-- A host store: device-homed lines are no longer what the host must be asked for (R313, R335). -/
def State.hostStore (s : State) (pa : Nat) (l : List Byte) : State := s.poke pa l

/-! ### Meanings: L2 and host coherence -/

/-- L2_LINE_REQUEST (R312). -/
def execL2LineRequest (die pa : Nat) (own : Bool) (s : State) : Res := .next (s.lineRequest (die % 4) pa own)

/-- HOST_SNOOP: a host snoop of a 64-byte line of host memory acts on its sector in every holding die (R313). -/
def execHostSnoop (pa : Nat) (inv : Bool) (s : State) : Res :=
  .next (if (s.homeOf pa).isHost then s.onHolders pa (fun s d => s.snoopDie pa inv d) else s)

/-- HOST_HDM_READ: the host reads a device-homed line through a committed decoder: dirty sectors return to the home, and HOST
sets (R312, R313, R407). -/
def execHostHdmRead (port : Fin 2) (pa : Nat) (s : State) : Res :=
  let window := match s.homeOf pa with
    | .hbm .. => some 0
    | .ddr .. => some 1
    | .host _ => none
  let mapped := match window, s.ports[port.val]? with
    | some w, some p => (find p.hdm w).isSome
    | _, _ => false
  .next (if mapped then
      let s := s.onHolders pa fun s d =>
        let s := s.clean d pa
        match s.line d pa with
        | some l => s.setLine d pa { l with owned := false }
        | none => s
      { s with hostBits := if s.hostBits.contains (pa / 512) then s.hostBits else s.hostBits ++ [pa / 512] }
    else s)

end Sys2Proof.Machine
end

