-- ==== Sys2Proof/Machine/Translate.lean ====
section
/-! DEFINITION. Positions of cores, ASID context entries, page walks, TLBs, page requests and invalidation (R10, R11, R57 to R67,
R72 to R76). -/
namespace Sys2Proof.Machine

/-! ### Positions (R10, R11) -/

def dieOf (c : Nat) : Nat := c / 128
def rowOf (c : Nat) : Nat := c % 128 / 16
def colOf (c : Nat) : Nat := c % 16
def clusterOf (c : Nat) : Nat := dieOf c * 16 + rowOf c / 2 * 4 + colOf c / 4
def inCluster (c : Nat) : Nat := rowOf c % 2 * 4 + colOf c % 4
/-- The core of a cluster with a core-in-cluster number. -/
def clusterCore (cl n : Nat) : Nat := cl / 16 * 128 + (cl % 16 / 4 * 2 + n / 4) * 16 + (cl % 4 * 4 + n % 4)
/-- The partner core: column XOR 4. -/
def partnerCore (c : Nat) : Nat := c / 16 * 16 + (colOf c ^^^ 4)

/-! ### ASID context entries (R66, R67) -/

def AsidEntry.ok (e : AsidEntry) : Bool :=
  e.w0.getLsbD 0 && e.w0.extractLsb' 52 12 == 0 && e.w0.extractLsb' 1 11 == 0 && canonical e.soff
    && e.w2.getLsbD 31 && e.w2.extractLsb' 20 11 == 0 && e.w2.extractLsb' 39 8 == 0 && e.w2.extractLsb' 48 16 == 0
    && e.w3 == 0

def AsidEntry.root (e : AsidEntry) : Nat := (e.w0.extractLsb' 12 40).toNat * 4096
def AsidEntry.pasid (e : AsidEntry) : BitVec 20 := e.w2.extractLsb' 0 20
/-- The key slot that data under this ASID is stored with; none for clear. -/
def AsidEntry.key (e : AsidEntry) : Option Nat := if e.w2.getLsbD 47 then some (e.w2.extractLsb' 32 7).toNat else none

def State.asidAddr (s : State) (asid : Nat) : Nat := (s.regs.asidtab.extractLsb' 16 36).toNat * 65536 + 32 * asid

def wordAt (l : List Byte) (i : Nat) : Word := BitVec.ofNat 64 (leNat ((l.drop i).take 8))

/-- An ASID context entry as it stands in memory. -/
def State.asidInMemory (s : State) (asid : Nat) : AsidEntry :=
  let b := s.peek (s.asidAddr asid) 32
  ⟨wordAt b 0, wordAt b 8, wordAt b 16, wordAt b 24⟩

def asidKey (die asid : Nat) : Nat := die * 2048 + asid

/-- The entry a die uses, read when it first needs it and cached afterwards. -/
def State.asidEntry (s : State) (die asid : Nat) : AsidEntry × State :=
  match find s.asids (asidKey die asid) with
  | some e => (e, s)
  | none => let e := s.asidInMemory asid
    (e, { s with asids := put s.asids (asidKey die asid) e })

/-! ### Walks (R59 to R64) -/

/-- An entry read by a walk: level, its physical address and its value. -/
structure Pte where
  level : Nat
  at_ : Nat
  val : Word
deriving DecidableEq, Repr

def Pte.p (e : Pte) : Bool := e.val.getLsbD 0
def Pte.pfn (e : Pte) : Nat := (e.val.extractLsb' 12 40).toNat
def Pte.leaf (e : Pte) : Bool := e.level = 0 || ((e.level = 1 || e.level = 2) && e.val.getLsbD 7)

/-- Index bits of a level. -/
def levelIndex (va level : Nat) : Nat := if level = 4 then va / 2 ^ 48 % 256 else va / 2 ^ (12 + 9 * level) % 512

def State.readPte (s : State) (table va level : Nat) : Pte :=
  let a := table + 8 * levelIndex va level
  ⟨level, a, BitVec.ofNat 64 (leNat (s.peek a 8))⟩

/-- The bytes that an entry of a level serves. -/
def pageSize (level : Nat) : Nat := 4096 * 512 ^ level

/-- An entry above level 0: from memory, or from the die's cache of non-leaf entries, which may hold an older value (R76). -/
def State.walkEntry (s : State) (die asid va level table : Nat) : Pte × State :=
  let e := s.readPte table va level
  match s.nonLeaf.find? fun x => decide (x.die = die) && decide (x.asid = asid) && decide (x.size = pageSize level)
      && decide (x.va = va / x.size * x.size) with
  | none => (e, s)
  | some x =>
    let (n, s) := s.draw
    (if Config.cachedEntry n then { e with val := x.val } else e, s)

/-- A non-leaf entry that a walk has passed is cached, in place of an older one. -/
def State.keepEntry (s : State) (die asid va : Nat) (e : Pte) : State :=
  let size := pageSize e.level
  let x : NonLeaf := ⟨die, asid, va / size * size, size, e.val⟩
  { s with nonLeaf := x :: s.nonLeaf.filter fun y => !decide (y.die = die ∧ y.asid = asid ∧ y.size = size ∧ y.va = x.va) }

/-- The entries of a walk, top first: down to a leaf or to an entry that is not present. -/
def State.walkDown (s : State) (die asid va : Nat) : Nat → Nat → List Pte × State
  | 0, table => ([s.readPte table va 0], s)
  | level + 1, table =>
    let (e, s) := s.walkEntry die asid va (level + 1) table
    if !e.p || e.leaf then ([e], s)
    else
      let (l, s) := (s.keepEntry die asid va e).walkDown die asid va level (e.pfn * 4096)
      (e :: l, s)

/-- What a translation gives. -/
inductive Xlat where
  | ok (e : TlbEntry) (level : Nat)
  | page (right : Right)
  | fault (kind sub : Nat)
deriving DecidableEq, Repr

/-- The checks of a walk on the entries it has read, in order; none when it succeeds (R63). -/
def walkCheck (l : List Pte) (right : Right) : Option Xlat :=
  match l.getLast? with
  | none => some (.page right)
  | some leaf =>
    let dattr := leaf.val.extractLsb' 52 11
    let misaligned := leaf.pfn % 512 ^ leaf.level ≠ 0
    if l.any (fun e => !e.p) then some (.page right)
    else if l.any (fun e => (decide (3 ≤ e.level) && e.val.getLsbD 7) || (decide (0 < e.level) && e.val.getLsbD 8))
        || misaligned || dattr.extractLsb' 9 2 != 0 then some (.fault 7 0)
    else if dattr.extractLsb' 7 2 = 3 then some (.fault 8 0)
    else if l.any (fun e => !e.val.getLsbD 2) then some (.fault 9 0)
    else match right with
      | .x => if leaf.val.getLsbD 63 then some (.fault 9 0) else none
      | .w => if l.any (fun e => !e.val.getLsbD 1) then some (.page .w) else none
      | .r => none

/-- Whether the 16 entries of a 64 KiB page agree as R62 asks. -/
def consistent64 (l : List Pte) : Bool :=
  match l with
  | [] => false
  | e0 :: _ =>
    let same := fun (a b : Word) => a.getLsbD 63 == b.getLsbD 63 && a.extractLsb' 52 11 == b.extractLsb' 52 11
      && a.extractLsb' 0 3 == b.extractLsb' 0 3
    decide (e0.pfn % 16 = 0) && l.zipIdx.all fun x => x.1.val.getLsbD 8 && decide (x.1.pfn = e0.pfn + x.2) && same x.1.val e0.val

/-- The translation that a leaf gives; a broken 64 KiB page uses any of its entries (R62; log entry 9). -/
def State.leafEntry (s : State) (asid va : Nat) (l : List Pte) (leaf : Pte) : TlbEntry × State :=
  let w := l.all (fun e => e.val.getLsbD 1)
  let mk := fun (e : Pte) base size pa => (⟨asid, base, size, pa, e.val.getLsbD 63, w, e.val.getLsbD 6, e.val.extractLsb' 52 11⟩ : TlbEntry)
  if leaf.level = 0 && leaf.val.getLsbD 8 then
    let base := va / 65536 * 65536
    let table := leaf.at_ / 4096 * 4096
    let all := (List.range 16).map fun i => s.readPte table (base + 4096 * i) 0
    let i := va / 4096 % 16
    if consistent64 all then (mk leaf base 65536 ((leaf.pfn - i) * 4096), s)
    else
      let (n, s) := s.draw
      let e := all[Config.brokenPage n % 16]?.getD leaf
      (mk e base 65536 ((e.pfn - Config.brokenPage n % 16) * 4096), s)
  else
    let size := pageSize leaf.level
    (mk leaf (va / size * size) size (leaf.pfn * 4096), s)

/-- A walk at this instant, under an ASID entry that is usable: it sets A, and D for a write (R63, R64). -/
def State.walkNow (s : State) (die asid va : Nat) (right : Right) : Xlat × State :=
  let (e, s) := s.asidEntry die asid
  if !e.ok then (.fault 10 0, s)
  else
    let (l, s) := s.walkDown die asid va 4 e.root
    match walkCheck l right, l.getLast? with
    | some x, _ => (x, s)
    | none, none => (.page right, s)
    | none, some leaf =>
      let bits : Word := if right = .w then 0x60 else 0x20
      let v := leaf.val ||| bits
      let s := if v = leaf.val then s else s.poke leaf.at_ (leBytes v.toNat 8)
      let (t, s) := s.leafEntry asid va l { leaf with val := v }
      (.ok t 3, s)

/-! ### TLBs (R72) -/

def TlbEntry.covers (e : TlbEntry) (asid va : Nat) : Bool :=
  decide (e.asid = asid) && decide (e.va ≤ va) && decide (va < e.va + e.size)

/-- Whether a cached translation serves an access: a write needs W and D, else it walks (R63, R64; log entry 18). -/
def TlbEntry.serves (e : TlbEntry) (asid va : Nat) (right : Right) : Bool :=
  e.covers asid va && (match right with
    | .w => e.w && e.d
    | _ => true)

def tlbHit (l : List TlbEntry) (asid va : Nat) (right : Right) : Option TlbEntry := l.find? fun e => e.serves asid va right

/-- Install an entry, dropping older ones for the page; a full TLB loses an entry that the hardware chooses. -/
def tlbPut (l : List TlbEntry) (cap v : Nat) (e : TlbEntry) : List TlbEntry :=
  let l := l.filter fun x => !(decide (x.asid = e.asid) && decide (x.va < e.va + e.size) && decide (e.va < x.va + x.size))
  if l.length < cap then l ++ [e] else l.eraseIdx (v % cap) ++ [e]

def State.clusterTlb (s : State) (cl : Nat) : List TlbEntry := (find s.ctlb cl).getD []
def State.dieTlb (s : State) (d : Nat) : List TlbEntry := (find s.dtlb d).getD []

/-- Install a translation in the levels above the one that held it: 0 micro-TLB, 1 cluster, 2 die, 3 a walk. -/
def State.install (s : State) (core : Option Nat) (die level : Nat) (e : TlbEntry) : State :=
  let (n, s) := s.draw
  let v := Config.victim n
  let s := if 3 ≤ level then { s with dtlb := put s.dtlb die (tlbPut (s.dieTlb die) 32768 v e) } else s
  match core with
  | none => s
  | some c =>
    let s := if 2 ≤ level then { s with ctlb := put s.ctlb (clusterOf c) (tlbPut (s.clusterTlb (clusterOf c)) 1024 v e) } else s
    if 1 ≤ level then s.onCore c fun x => { x with utlb := tlbPut x.utlb 64 v e } else s

/-- The first TLB level that holds a translation. -/
def State.lookup (s : State) (core : Option Nat) (die asid va : Nat) (right : Right) : Option (TlbEntry × Nat) :=
  let micro := core.bind fun c => (tlbHit (s.core c).utlb asid va right).map (·, 0)
  let clus := core.bind fun c => (tlbHit (s.clusterTlb (clusterOf c)) asid va right).map (·, 1)
  match micro, clus with
  | some x, _ => some x
  | none, some x => some x
  | none, none => (tlbHit (s.dieTlb die) asid va right).map (·, 2)

/-- A translation at this instant: the TLBs, then a walk. -/
def State.xlate (s : State) (core : Option Nat) (die asid va : Nat) (right : Right) : Xlat × State :=
  match s.lookup core die asid va right with
  | some (e, lv) =>
    if right = .x && e.nx then (.fault 9 0, s) else (.ok e lv, s.install core die lv e)
  | none => match s.walkNow die asid va right with
    | (.ok e lv, s) => (.ok e lv, s.install core die 3 e)
    | r => r

def TlbEntry.phys (e : TlbEntry) (va : Nat) : Nat := e.pa + (va - e.va)
def TlbEntry.ord (e : TlbEntry) : BitVec 2 := e.dattr.extractLsb' 7 2
def attrFmt (a : BitVec 11) : Nat := (a.extractLsb' 0 4).toNat
def attrGeo (a : BitVec 11) : Nat := (a.extractLsb' 4 3).toNat

/-! ### Page requests (R73, R74) -/

/-- Requests of one device are sent up to 512 at a time, in arrival order. -/
def State.sendRequests (s : State) : State :=
  let go := fun (acc : List PageReq × Nat × State) (q : PageReq) =>
    match q.sent with
    | some _ => (acc.1 ++ [q], acc.2.1, acc.2.2)
    | none =>
      if acc.2.1 < 512 then
        let s := acc.2.2
        let s := { s with outs := s.outs ++ [.pageRequest q.pasid q.page q.right] }
        (acc.1 ++ [{ q with sent := some s.now }], acc.2.1 + 1, s)
      else (acc.1 ++ [q], acc.2.1, acc.2.2)
  let n := (s.pageReqs.filter (·.sent.isSome)).length
  let r := s.pageReqs.foldl go ([], n, s)
  { r.2.2 with pageReqs := r.1 }

/-- Ask the host for a page: requests for one ASID, page and right coalesce. -/
def State.requestPage (s : State) (die asid page : Nat) (right : Right) (w : Waiter) : State :=
  let same := fun (q : PageReq) => decide (q.asid = asid) && decide (q.page = page) && decide (q.right = right)
  if s.pageReqs.any same then
    { s with pageReqs := s.pageReqs.map fun r =>
        if same r then { r with waiters := if r.waiters.contains w then r.waiters else r.waiters ++ [w] } else r }
  else
    let (e, s) := s.asidEntry die asid
    ({ s with pageReqs := s.pageReqs ++ [(⟨asid, e.pasid, page, right, none, [w]⟩ : PageReq)] }).sendRequests

def State.answersOf (s : State) (e : Event) : Nat :=
  ((s.answers.find? fun x => decide (x.1 = e)).map (·.2)).getD 0
/-- What is kept of an operation that tries again goes: its answers, its failures and the walks that have served it. -/
def State.forget (s : State) (e : Event) : State :=
  { s with
    answers := s.answers.filter fun x => !decide (x.1 = e)
    failures := s.failures.filter fun x => !decide (x.1 = e)
    walked := s.walked.filter fun x => !decide (x.1 = e) }

/-! ### Walks outstanding (R72) -/

/-- Start the walks of a die that have a place among its 256. -/
def State.startWalks (s : State) (die : Nat) : State :=
  let go := fun (acc : List Walk × Nat × State) (w : Walk) =>
    if w.die ≠ die then (acc.1 ++ [w], acc.2.1, acc.2.2)
    else if w.started then (acc.1 ++ [w], acc.2.1 + 1, acc.2.2)
    else if acc.2.1 < 256 then
      let (n, s) := acc.2.2.draw
      (acc.1 ++ [{ w with started := true }], acc.2.1 + 1, s.after (Config.walkDelay n + 1) (.tlbWalkDone die w.id))
    else (acc.1 ++ [w], acc.2.1, acc.2.2)
  let r := s.walks.foldl go ([], 0, s)
  { r.2.2 with walks := r.1 }

/-- A miss joins the walk for its ASID and page, or opens one. -/
def State.requestWalk (s : State) (die asid va : Nat) (w : Waiter) : State :=
  let page := va / 4096 * 4096
  let same := fun (x : Walk) => decide (x.die = die) && decide (x.asid = asid) && decide (x.page = page)
  if s.walks.any same then
    { s with walks := s.walks.map fun x =>
        if same x then { x with waiters := if x.waiters.contains w then x.waiters else x.waiters ++ [w] } else x }
  else
    ({ s with walks := s.walks ++ [(⟨s.nextKey, die, asid, page, false, [w]⟩ : Walk)], nextKey := s.nextKey + 1 }).startWalks die

/-! ### The access of an operation (R58, R72, R73) -/

/-- What a translated access of an operation comes to. -/
inductive Access where
  | ok (e : TlbEntry) (level : Nat)
  /-- waits for a walk or a page request; the event tries again -/
  | wait
  | fault (kind sub va : Nat)
deriving DecidableEq, Repr

/-- Translate one address for the operation that `w.retry` tries again. A miss of the TLBs joins or opens a walk (R72); once a walk
has served the miss, the operation takes the outcome. -/
def State.access (s : State) (w : Waiter) (die asid va : Nat) : Access × State :=
  let page := va / 4096 * 4096
  let served := s.walked.contains (w.retry, page, w.right)
  match s.failures.find? (fun x => decide (x.1 = w.retry) && decide (x.2.1 = page)) with
  | some (_, _, k, sub) => (.fault k sub va, s.forget w.retry)
  | none =>
    if !served && (s.lookup w.core die asid va w.right).isNone then (.wait, s.requestWalk die asid va w)
    else match s.xlate w.core die asid va w.right with
    | (.ok e lv, s) => (.ok e (if served then 3 else lv), s)
    | (.fault k sub, s) => (.fault k sub va, s.forget w.retry)
    | (.page r, s) =>
      if 4 ≤ s.answersOf w.retry then (.fault 10 0 va, s.forget w.retry)
      else (.wait, s.requestPage die asid page r { w with right := r })

/-- Pages of a range: pieces that lie within one 4 KiB page. -/
def pagePieces (va n : Nat) : Nat → List (Nat × Nat)
  | 0 => []
  | fuel + 1 =>
    if n = 0 then []
    else
      let k := min n (4096 - va % 4096)
      (va, k) :: pagePieces (va + k) (n - k) fuel

def rangePages (va n : Nat) : List (Nat × Nat) := pagePieces va n (n / 4096 + 2)

/-- A piece of a translated range. -/
structure Piece where
  va : Nat
  len : Nat
  pa : Nat
  attr : BitVec 11
  level : Nat
deriving DecidableEq, Repr

/-- What translating several ranges comes to. -/
inductive Pieces where
  | ok (l : List Piece)
  | wait
  | fault (kind sub va : Nat)
deriving DecidableEq, Repr

/-- A 64-bit address of a range is canonical in every byte (R57). -/
def rangeCanonical (va n : Nat) : Bool :=
  (decide (va + n ≤ 2 ^ 55) || (decide (2 ^ 55 ≤ va) && decide (va + n ≤ 2 ^ 56)))

/-- Translate a range, lowest address first (R58). -/
def State.accessRange (s : State) (w : Waiter) (die asid va n : Nat) : Pieces × State :=
  let r := (rangePages va n).foldl (fun (acc : Pieces × State) p =>
    match acc.1 with
    | .ok l =>
      if !rangeCanonical va (p.1 + p.2 - va) then (.fault 6 0 (if va < 2 ^ 55 then 2 ^ 55 else 2 ^ 56), acc.2)
      else match acc.2.access w die asid p.1 with
      | (.ok e lv, s) => (.ok (l ++ [⟨p.1, p.2, e.phys p.1, e.dattr, lv⟩]), s)
      | (.wait, s) => (.wait, s)
      | (.fault k sub a, s) => (.fault k sub a, s)
    | x => (x, acc.2)) (.ok [], s)
  r

/-- A 64-bit address of a 56-bit one. -/
def vaWord (va : Nat) : Word := (BitVec.ofNat 56 va).signExtend 64

/-- The condition of a translation-class outcome, with BADADDR (R75): the address as issued, which for a byte that is not
canonical keeps its clear bits above bit 55. -/
def transCond (origin kind sub va : Nat) : Cond :=
  ⟨origin, kind, sub, some (if kind = 6 ∧ va < 2 ^ 56 then BitVec.ofNat 64 va else vaWord va), none⟩

/-- The key a unit's data travels under. -/
def State.keyOf (s : State) (die asid : Nat) : Option Nat × State :=
  let (e, s) := s.asidEntry die asid
  (e.key, s)

/-- Read translated pieces: bytes, and the address of the first piece that meets an error. -/
def State.readPieces (s : State) (die asid : Nat) (l : List Piece) : List Byte × Option Nat × State :=
  let (key, s) := s.keyOf die asid
  l.foldl (fun acc p =>
    let (g, s) := acc.2.2.readPhys die p.pa p.len key
    (acc.1 ++ g.data, (match acc.2.1 with
      | some a => some a
      | none => if g.err then some p.va else none), s)) ([], none, s)

/-- Store bytes over translated pieces. -/
def State.writePieces (s : State) (die asid : Nat) (l : List Piece) (b : List Byte) : Option Nat × State :=
  let (key, s) := s.keyOf die asid
  let r := l.foldl (fun (acc : List Byte × Option Nat × State) p =>
    let (e, s) := acc.2.2.writePhys die p.pa (acc.1.take p.len) key
    (acc.1.drop p.len, (match acc.2.1 with
      | some a => some a
      | none => if e then some p.va else none), s)) (b, none, s)
  (r.2.1, r.2.2)

/-! ### The end of a walk (R72) -/

/-- A walk has served a miss of an operation. -/
def State.serve (s : State) (e : Event) (page : Nat) (right : Right) : State :=
  { s with walked := s.walked.filter (fun x => x != (e, page, right)) ++ [(e, page, right)] }

/-- One waiter of a walk that ends: the translation is installed, or a page requested; in every case but a request the
operation tries again now and takes the outcome (R73). -/
def State.settleWaiter (s : State) (die asid page : Nat) (w : Waiter) : State :=
  let s := s.serve w.retry page w.right
  match s.walkNow die asid page w.right with
  | (.ok e _, s) => (s.install w.core die 3 e).after 0 w.retry
  | (.fault _ _, s) => s.after 0 w.retry
  | (.page r, s) =>
    if 4 ≤ s.answersOf w.retry then s.after 0 w.retry else s.requestPage die asid page r { w with right := r }

/-- The walks of a die and an ASID whose page lies in the page that one of them has found, itself among them (R72). -/
def State.servedWalks (s : State) (w : Walk) : List Walk :=
  match w.waiters.head?.map fun x => (s.walkNow w.die w.asid w.page x.right).1 with
  | some (.ok e _) => s.walks.filter fun x =>
      decide (x.die = w.die) && decide (x.asid = w.asid) && (decide (x.id = w.id) || e.covers w.asid x.page)
  | _ => [w]

/-- TLB_WALK_DONE (R72): every waiting miss in the page found is served. -/
def execTlbWalkDone (die id : Nat) (s : State) : Res :=
  match s.walks.find? (fun w => decide (w.die = die) && decide (w.id = id)) with
  | some w =>
    let l := s.servedWalks w
    let s := { s with walks := s.walks.filter fun x => !l.contains x }
    .next ((l.foldl (fun s v => v.waiters.foldl (fun s x => s.settleWaiter die v.asid v.page x) s) s).startWalks die)
  | none => .next s

/-- Remove a page request that is sent. -/
def State.takeRequest (s : State) (asid page : Nat) (right : Right) : Option PageReq × State :=
  let same := fun (q : PageReq) => decide (q.asid = asid) && decide (q.page = page) && decide (q.right = right) && q.sent.isSome
  (s.pageReqs.find? same, { s with pageReqs := s.pageReqs.filter fun r => !same r })

def State.countAnswer (s : State) (e : Event) : State :=
  let n := s.answersOf e
  { s with answers := s.answers.filter (fun x => !decide (x.1 = e)) ++ [(e, n + 1)] }

/-- An operation walks again from level 4 for a page. -/
def State.unserve (s : State) (e : Event) (page : Nat) : State :=
  { s with walked := s.walked.filter fun x => !(decide (x.1 = e) && decide (x.2.1 = page)) }

/-- Every waiter of a request fails with a condition. -/
def State.failRequest (s : State) (r : PageReq) (kind sub : Nat) : State :=
  r.waiters.foldl (fun s w => ({ s with failures := s.failures ++ [(w.retry, r.page, kind, sub)] }).after 0 w.retry) s

/-- PAGE_REQUEST_RESPONSE (R73): success walks again, failure faults. -/
def execPageRequestResponse (asid page : Nat) (right : Right) (ans : PrAnswer) (s : State) : Res :=
  match s.takeRequest asid page right with
  | (none, s) => .next s
  | (some r, s) =>
    let s := match ans with
      | .success => r.waiters.foldl (fun (s : State) (w : Waiter) => ((s.countAnswer w.retry).unserve w.retry page).after 0 w.retry) s
      | _ => s.failRequest r 10 0
    .next s.sendRequests

/-- Whether a page request has waited for PRQTO core cycles, as PRQTO stands; 0 means no timeout (R74). -/
def State.requestLate (s : State) (r : PageReq) : Bool :=
  let limit := (s.regs.prqto.extractLsb' 0 32).toNat
  decide (limit ≠ 0) && r.sent.any fun t => decide (t + limit ≤ s.now)

/-- The page request that times out now. -/
def State.lateRequest (s : State) : Option Event :=
  (s.pageReqs.find? s.requestLate).map fun r => .pageRequestTimeout r.asid r.page r.right

/-- PAGE_REQUEST_TIMEOUT (R74). -/
def execPageRequestTimeout (asid page : Nat) (right : Right) (s : State) : Res :=
  let due := s.pageReqs.any fun r => decide (r.asid = asid) && decide (r.page = page) && decide (r.right = right) && s.requestLate r
  if due then
    match s.takeRequest asid page right with
    | (none, s) => .next s
    | (some r, s) => .next (s.failRequest r 11 0).sendRequests
  else .next s

/-! ### Invalidation (R76, R112) -/

def overlaps (a n b m : Nat) : Bool := decide (a < b + m) && decide (b < a + n)

/-- Drop the cached translations whose ASID, address and size a test names, at every TLB level and in the dies' caches of non-leaf
entries (R76). -/
def State.dropTlb (s : State) (test : Nat → Nat → Nat → Bool) : State :=
  let p := fun (e : TlbEntry) => test e.asid e.va e.size
  { s with
    nonLeaf := s.nonLeaf.filter fun x => !test x.asid x.va x.size
    dtlb := s.dtlb.map fun x => (x.1, x.2.filter fun e => !p e)
    ctlb := s.ctlb.map fun x => (x.1, x.2.filter fun e => !p e)
    cores := s.cores.map fun x => (x.1, { x.2 with utlb := x.2.utlb.filter fun e => !p e }) }

/-- Drop the instruction-cache lines that a test names, with their locks, in every core. -/
def State.dropLines (s : State) (p : ILine → Bool) : State :=
  { s with cores := s.cores.map fun x => (x.1, x.2.dropLines p) }

/-- Accesses that have been translated and lie in what is invalidated (R76): those of which nothing has performed go back to their
translation; those that have begun are what the completion waits for. -/
def Cmd.stale (c : Cmd) (va n : Nat) : Bool :=
  decide (c.eng = .lsu) && decide (c.stage = .taken) && c.parts.any fun p => overlaps p.va p.len va n

def Unit.staleCmds (x : Unit) (begun : Bool) (va n : Nat) : List Cmd := x.cmds.filter fun c => c.stale va n && (c.begun == begun)

/-- The event by which an operation of the LSU tries again. -/
def Cmd.retryEvent (u : Nat) (c : Cmd) : Event := match c.op with
  | .spawn .. => .spawnComplete u c.n
  | _ => .lsuAccessStart u c.n

/-- An LSU operation goes back to its translation. -/
def Cmd.recalled (n : Nat) (c : Cmd) : Cmd :=
  if decide (c.eng = .lsu) && decide (c.n = n) then { c with parts := [], stage := .paged } else c

def State.recall (s : State) (asid va n : Nat) : List (Nat × Nat) × State :=
  let mine := s.units.filter fun u => decide (u.2.asid = asid)
  let all := fun (begun : Bool) => mine.flatMap fun u => (u.2.staleCmds begun va n).map fun k => (u.1, k)
  let s := (all false).foldl (fun (s : State) y =>
    (s.onUnit y.1 fun x => { x with cmds := x.cmds.map (Cmd.recalled y.2.n) }).after 0 (y.2.retryEvent y.1)) s
  ((all true).map fun y => (y.1, y.2.n), s)

/-- Invalidate a range of an ASID; what its completion waits for. -/
def State.invalidate (s : State) (asid va n : Nat) : List (Nat × Nat) × State :=
  ((s.dropTlb fun a base size => decide (a = asid) && overlaps base size va n).dropLines
    fun l => decide (l.asid = asid) && overlaps l.va 512 va n).recall asid va n

/-- Whether an LSU operation that an invalidation waits for has still to perform. -/
def State.stillPerforms (s : State) (r : Nat × Nat) : Bool :=
  (s.unit r.1).any fun x => x.cmds.any fun c => decide (c.eng = .lsu) && decide (c.n = r.2) && decide (c.stage = .taken) && !c.parts.isEmpty

/-- ATS_INVALIDATE (R76): the ASIDs whose entry carries the PASID. It is answered at once, or once the accesses that have begun
have performed. -/
def execAtsInvalidate (pasid : BitVec 20) (va : Word) (bytes : Word) (s : State) : Res :=
  let asids := ((s.asids.filter fun x => x.2.pasid == pasid).map fun x => x.1 % 2048).eraseDups
  let r := asids.foldl (fun (acc : List (Nat × Nat) × State) a =>
    let (l, s) := acc.2.invalidate a (va56 va) bytes.toNat
    (acc.1 ++ l, s)) ([], s)
  .next (if r.1.isEmpty then { r.2 with outs := r.2.outs ++ [.invalidated pasid] }
    else { r.2 with invals := r.2.invals ++ [⟨some pasid, none, r.1⟩] })

end Sys2Proof.Machine
end

