-- ==== Sys2Proof/Machine/Images.lean ====
section
/-! DEFINITION. The images of a queue, of an accumulator and of the integrator array, and the save area of a unit
(R173, R270, R294, R380 to R383). -/
namespace Sys2Proof.Machine

/-- Little-endian bytes of a word. -/
def le64 (w : Nat) : List Byte := leBytes w 8

def bit (b : Bool) (i : Nat) : Nat := if b then 2 ^ i else 0

/-- A field of a word. -/
def field (w : Word) (lo n : Nat) : Nat := (w.extractLsb' lo n).toNat

/-- Word `i` of a record. -/
def recWord (b : List Byte) (i : Nat) : Word := wordAt b (8 * i)

/-! ### Queues (R167, R173) -/

/-- The configuration word, with BASE256 holding the effective base. -/
def Queue.word (q : Queue) : Nat :=
  q.base.toNat / 256 + 2 ^ 18 * q.slotsz.toNat + 2 ^ 26 * q.log2n.toNat + bit q.rx 30

/-- A queue image, 256 bytes; an unconfigured queue's is zero. -/
def Queue.image (q : Queue) : List Byte :=
  if q.cfg then
    le64 (q.word + 2 ^ 31)
    ++ le64 (q.head.toNat + 2 ^ 16 * q.tail.toNat + 2 ^ 32 * q.fill.toNat + bit q.opn 40 + bit q.okind 41 + bit q.spo 42
      + bit q.spi 43 + 2 ^ 44 * q.ref.toNat)
    ++ le64 q.sptgt.toNat
    ++ le64 (q.stail.toNat + 2 ^ 16 * q.sfree.toNat)
    ++ leBytes q.pres.toNat 32 ++ leBytes q.tags.toNat 192
  else zeros 256

/-- The image of a queue in a save area: FREE stands at offset 24, bits [47:32] (R382). -/
def Queue.savedImage (q : Queue) : List Byte :=
  let b := q.image
  if q.cfg then b.take 28 ++ leBytes q.free.toNat 2 ++ b.drop 30 else b

/-! ### Accumulators (R249, R251, R270) -/

/-- Key of an element of an accumulator. -/
def accKey (acc m n : Nat) : Nat := (acc * 128 + m) * 192 + n
def Mat.elem (x : Mat) (acc m n : Nat) : BitVec 32 := (find x.acc (accKey acc m n)).getD 0
def Mat.setElem (x : Mat) (acc m n : Nat) (v : BitVec 32) : Mat :=
  { x with acc := setAt x.acc (accKey acc m n) (if v = 0 then none else some v) }

/-- Where an error position of a core names an accumulator element or an integrator cell, beyond scratchpad and registers (log entry 45). -/
def accPlace (key : Nat) : Nat := 2 ^ 23 + key
def cellPlace (n : Nat) : Nat := 2 ^ 24 + n
/-- Whether an element that a test names holds an uncorrectable error. -/
def Core.accSpoilt (x : Core) (test : Nat → Nat → Nat → Bool) : Bool :=
  x.bad.any fun p => decide (accPlace 0 ≤ p) && decide (p < cellPlace 0)
    && test ((p - accPlace 0) / (128 * 192)) ((p - accPlace 0) / 192 % 128) ((p - accPlace 0) % 192)
/-- The elements that a test names are replaced, and with them what was spoilt there (R374). -/
def Core.healAcc (x : Core) (test : Nat → Nat → Nat → Bool) : Core :=
  { x with bad := x.bad.filter fun p => !(decide (accPlace 0 ≤ p) && decide (p < cellPlace 0)
    && test ((p - accPlace 0) / (128 * 192)) ((p - accPlace 0) / 192 % 128) ((p - accPlace 0) % 192)) }
/-- Whether one of `n` cells from `c` on holds an uncorrectable error. -/
def Core.cellSpoilt (x : Core) (c n : Nat) : Bool := x.bad.any fun p => decide (cellPlace c ≤ p) && decide (p < cellPlace (c + n))

/-- The accumulator image: a header with the tile word, then 128 rows of 192 elements. -/
def accImage (block : BitVec 30) (elem : Nat → Nat → BitVec 32) : List Byte :=
  padTo 256 (leBytes block.toNat 4)
  ++ (List.range 128).flatMap fun m => (List.range 192).flatMap fun n => leBytes (elem m n).toNat 4

/-! ### The integrator array (R294) -/

def Dda.cell (x : Dda) (c : Nat) : Cell := (find x.cells c).getD Cell.cleared
def Dda.setCell (x : Dda) (c : Nat) (y : Cell) : Dda :=
  { x with cells := setAt x.cells c (if y = Cell.cleared then none else some y) }

/-- The parameter word: T, G and DOM. -/
def Cell.par (c : Cell) : Nat := c.t.toNat + 2 ^ 5 * c.g.toNat + 2 ^ 9 * c.dom.toNat

def Cell.bytes (c : Cell) : List Byte :=
  leBytes c.y.toNat 4 ++ leBytes c.res.toNat 4 ++ leBytes c.count.toNat 4 ++ leBytes (c.par + 2 ^ 11 * c.out.toNat) 4
  ++ le64 (c.dx.toNat + 2 ^ 12 * c.dy0.toNat + 2 ^ 24 * c.dy1.toNat + 2 ^ 36 * c.dy2.toNat + 2 ^ 48 * c.pend.toNat)
  ++ zeros 8

/-- The integrator image, 16,896 bytes. -/
def Dda.image (x : Dda) : List Byte :=
  let doms := x.domains.toList.flatMap fun d => le64 d.km1.toNat ++ leBytes d.budget.toNat 8 ++ leBytes d.steps.toNat 8 ++ zeros 8
  let credits := x.lanes.toList.flatMap fun l => leBytes l.credit.toNat 2
  let outs := (x.lanes.toList.zipIdx.foldl (fun n l => n + l.1.out.toNat * 4 ^ l.2) 0)
  padTo 512 (doms ++ credits ++ leBytes outs 16) ++ (List.range 512).flatMap fun c => (x.cell c).bytes

/-! ### Save areas (R380 to R383) -/

def State.saveAddr (s : State) (x : Unit) : Nat :=
  (s.regs.savebase.extractLsb' 30 22).toNat * 2 ^ 30 + (x.core * 64 + x.index) * 2 ^ 19

/-- The numbers of the CSRs that a save area holds: every assigned one except CYCLE. -/
def savedCsrs : List Nat :=
  [0x000, 0x001, 0x002, 0x003, 0x008, 0x009, 0x00A, 0x00B, 0x00C, 0x00D, 0x00E, 0x010, 0x011, 0x012, 0x013, 0x014, 0x015,
    0x016, 0x017, 0x018, 0x019, 0x020, 0x021, 0x022, 0x023, 0x024, 0x025, 0x026, 0x030, 0x031, 0x032, 0x033, 0x034]

/-- The save area of a unit (R381). -/
def saveImage (x : Unit) (v : Saved) (locks : List Nat) (now : Nat) : List Byte :=
  let c := v.bank
  let csr := fun k => if savedCsrs.contains k then ((csrRead c (ctxNumber x.core x.ctx) now k).getD 0).toNat else 0
  let elem := fun a m n => (find v.elems (accKey a m n)).getD 0
  padTo 256 (le64 (1 + bit v.forced 1 + 4 * v.acc + bit v.dda.isSome 4) ++ le64 x.declared ++ le64 c.pc.toNat
    ++ le64 c.csr.unitid.toNat)
  ++ (List.range 32).flatMap (fun k => leBytes (c.readS k).toNat 8)
  ++ (zeros 32 ++ (List.range 15).flatMap fun k => leBytes (c.readP (k + 1)).toNat 32)
  ++ (List.range 64).flatMap (fun k => le64 (csr k))
  ++ (List.range 16).flatMap (fun k => (c.queue k).savedImage)
  ++ padTo 256 (locks.flatMap fun a => le64 (vaWord a).toNat) ++ zeros 256
  ++ (List.range 32).flatMap (fun k => vbytes (c.readV k))
  ++ trapRecord { c with latches := Vector.replicate 4 Latch.cleared } c.pc (landingOrder c.flights) ((c.resume.map (·.snaps)).getD [])
  ++ (if v.acc = 0 then zeros 394240 else (List.range 4).flatMap fun a => accImage v.block (elem a))
  ++ (match v.dda with
    | some d => d.image
    | none => zeros 16896)

/-- Lines that a unit holds locked. -/
def State.locksOf (s : State) (u : Nat) : List Nat :=
  match s.unit u with
  | some x => ((s.core x.core).icache.filter fun l => decide (l.lock = some u)).map (·.va)
  | none => []

/-- Write the save area of a unit that is not resident, under the unit's key. -/
def State.storeImage (s : State) (u : Nat) : State :=
  match s.unit u with
  | some x => match x.saved with
    | some v =>
      let (key, s) := s.keyOf (dieOf x.core) x.asid
      s.poke (s.saveAddr x) (saveImage x v (s.locksOf u) s.now) (s.keyValue key)
    | none => s
  | none => s

end Sys2Proof.Machine
end

