-- ==== Sys2Proof/Machine/Telltale.lean ====
section
/-! DEFINITION. Telltale: the trace ring, its records, reuse sampling, breakpoints, watchpoints and dumps
(R150, R151, R387 to R397, R408). -/
namespace Sys2Proof.Machine

def State.tell (s : State) (d : Nat) : Telltale := s.tells[d]?.getD Telltale.reset
def State.onTell (s : State) (d : Nat) (f : Telltale → Telltale) : State :=
  { s with tells := s.tells.setIfInBounds d (f (s.tell d)) }

/-- A word with a field replaced. -/
def withField (w : Word) (lo n v : Nat) : Word :=
  let m := BitVec.ofNat 64 ((2 ^ n - 1) * 2 ^ lo)
  (w &&& ~~~m) ||| (BitVec.ofNat 64 (v % 2 ^ n * 2 ^ lo))
/-- The bits of a mask from a written word, the others from the old one. -/
def withMask (old new mask : Word) : Word := (new &&& mask) ||| (old &&& ~~~mask)

def Telltale.en (t : Telltale) : Bool := t.ttctl.getLsbD 0
def Telltale.dev (t : Telltale) : Bool := t.ttctl.getLsbD 1
def Telltale.evt (t : Telltale) : Bool := t.ttctl.getLsbD 2
def Telltale.ls (t : Telltale) : Bool := t.ttctl.getLsbD 3
def Telltale.rd (t : Telltale) : Bool := t.ttctl.getLsbD 4
def Telltale.sper (t : Telltale) : Nat := min 24 (field t.ttctl 8 8)
def Telltale.rper (t : Telltale) : Nat := min 24 (field t.ttctl 16 8)
def Telltale.asid (t : Telltale) : Nat := field t.ttctl 37 11
/-- Records that the ring holds. -/
def Telltale.ring (t : Telltale) : Nat := 2 ^ (min 20 (field t.ttbuf 0 5) + 12) / 64

/-- Write a record, or count it as lost (R387, R388). -/
def State.record (s : State) (d : Nat) (b : List Byte) : State :=
  let t := s.tell d
  if !t.en then s
  else if (t.head - t.tail).toNat = t.ring then
    s.onTell d fun t => { t with ttctl := withField t.ttctl 48 16 (min 65535 (field t.ttctl 48 16 + 1)) }
  else
    (s.poke (field t.ttbuf 12 40 * 4096 + 64 * (t.head.toNat % t.ring)) b).onTell d fun t => { t with head := t.head + 1 }

/-- The record header (R389). -/
def recordHeader (ty c k : Nat) (dw : Bool) (unit : Nat) (cycle : Nat) : List Byte :=
  let place := if dw then bit true 15 else 2 ^ 8 * (c % 128) + 2 ^ 16 * k
  le64 (ty + place + 2 ^ 18 * dieOf c + 2 ^ 32 * unit) ++ le64 cycle

/-- UNITID of the unit resident in a context; 0 when there is none. -/
def State.unitIdAt (s : State) (c k : Nat) : Nat :=
  let x := s.ctx c k
  if x.unit.isSome then x.csr.unitid.toNat % 2 ^ 32 else 0

def sat32 (n : Nat) : Nat := min n (2 ^ 32 - 1)

/-- A deviation record (R390, R392). -/
def State.deviation (s : State) (c k cause : Nat) (slot : Option Slot) (pc : Word) (cc since length : Nat) (mute : Bool := false) :
    State :=
  let s := s.onCore c fun x => { x with devcyc := sat32 (x.devcyc + length) }
  if (s.tell (dieOf c)).dev && !mute then
    let sl := match slot with
      | some y => y.index
      | none => 7
    s.record (dieOf c) (recordHeader 1 c k false (s.unitIdAt c k) since
      ++ padTo 48 (le64 (va56 pc + 2 ^ 56 * sl) ++ le64 (cause + 2 ^ 32 * sat32 length) ++ le64 cc))
  else s

def State.onLaunch (s : State) (l : Nat) (f : Launch → Launch) : State := { s with launches := alter s.launches l f }

/-- The freeze of a domain ends, with one deviation record for each context that caused it (R150). -/
def State.endFreeze (s : State) (l : Nat) (f : Freeze) : State :=
  (f.causes.foldl (fun s g => s.deviation g.core 0 g.cause g.slot g.pc g.cc f.since (s.now - f.since) g.mute) s).onLaunch l
    fun y => { y with freeze := none }

/-- An event record (R392) whose event began `ago` cycles before this one (R389). -/
def State.eventRecord (s : State) (c k unit ev value : Nat) (ago : Nat := 0) : State :=
  if (s.tell (dieOf c)).evt then
    s.record (dieOf c) (recordHeader 4 c k false unit (s.now - ago) ++ padTo 48 (le64 ev ++ le64 value))
  else s

/-- A load sample (R393). It is written once no older tagged load of its context is outstanding. -/
def State.loadSample (s : State) (c k unit issue : Nat) (pc : Word) (va level xlat hop0 : Nat) : State :=
  if (s.tell (dieOf c)).ls then
    let (n, s) := s.draw
    let (m, s) := s.draw
    let (o, s) := s.draw
    let hop := fun i => (Config.freeWord i).toNat % 65536
    let b := recordHeader 2 c k false unit issue
      ++ padTo 48 (le64 (va56 pc) ++ le64 (vaWord va).toNat ++ le64 (level + 8 * xlat)
        ++ le64 (min 65535 hop0 + 2 ^ 16 * hop n + 2 ^ 32 * hop m + 2 ^ 48 * hop o) ++ le64 (sat32 (s.now - issue)))
    let older := fun (x : Sample) => decide (x.issue ≤ issue)
    { s with samples := s.samples.takeWhile older ++ ⟨c, k, issue, b⟩ :: s.samples.dropWhile older }
  else s

/-- Whether no tagged load of the sample's context that issued before it is outstanding. -/
def State.sampleReady (s : State) (x : Sample) : Bool :=
  !(s.units.any fun u => decide (u.2.core = x.core) && decide (u.2.ctx = x.ctx)
    && u.2.cmds.any fun c => c.sample.any fun y => decide (y.1 < x.issue))

/-- The samples that may be written are written, oldest first. -/
def State.flushSamples (s : State) : State :=
  (s.samples.filter s.sampleReady).foldl (fun s x => s.record (dieOf x.core) x.bytes)
    { s with samples := s.samples.filter fun x => !s.sampleReady x }

/-! ### Reuse distances (R394) -/

/-- The bucket of a distance. -/
def reuseBucket (d : Nat) : Nat := min 9 (d.log2 / 2)

def bump (l : List Nat) (i : Nat) : List Nat := l.set i (sat32 (l.getD i 0 + 1))

/-- One L2 sector access for a launch on a die. -/
def State.reuseAccess (s : State) (l die pa : Nat) : State :=
  match find s.launches l with
  | none => s
  | some x =>
    let (old, buckets) := (find x.reuse die).getD (0, List.replicate 10 0)
    let count := old + 1
    let t := s.tell die
    let keep := fun b => { s with launches := put s.launches l { x with reuse := put x.reuse die (count, b) } }
    if !t.rd then keep buckets
    else
      let h := Config.reuseHash (pa / 512)
      let due := fun (g : ReuseTag) => decide (g.launch = l) && (g.hash == h || decide (4 ^ 9 ≤ count - g.count))
      let b := (t.tags.filter due).foldl (fun b g => bump b (if g.hash == h then reuseBucket (count - g.count) else 9)) buckets
      let tags := t.tags.filter fun g => !due g
      let tags := if count % 2 ^ t.rper = 0 && decide (tags.length < 64) then tags ++ [⟨h, l, count⟩] else tags
      (keep b).onTell die fun t => { t with tags }

/-- The histograms of a launch that ends (R394). -/
def State.reuseEnd (s : State) (l : Nat) : State :=
  match find s.launches l with
  | none => s
  | some x => x.reuse.foldl (fun s r =>
      let t := s.tell r.1
      let left := (t.tags.filter fun g => decide (g.launch = l)).length
      let b := (List.range left).foldl (fun b _ => bump b 9) r.2.2
      let s := s.onTell r.1 fun t => { t with tags := t.tags.filter fun g => !decide (g.launch = l) }
      if t.rd then
        s.record r.1 (recordHeader 3 (r.1 * 128) 0 true 0 s.now
          ++ padTo 48 (le64 x.counter.toNat ++ b.flatMap fun n => leBytes n 4))
      else s) s

/-! ### Breakpoints and watchpoints (R395, R396) -/

/-- The slots that bundle breakpoints stop, and whether one asks for a dump. -/
def Telltale.breaks (t : Telltale) (asid : Nat) (pc : Word) (pm : BitVec 6) : BitVec 6 × Bool :=
  t.bp.toList.foldl (fun acc w =>
    let slots := w.extractLsb' 56 6
    if w.getLsbD 63 && decide (field w 0 56 = va56 pc) && decide (t.asid = asid) && (slots &&& pm) != 0 then
      if w.getLsbD 62 then (acc.1, true) else (acc.1 ||| (slots &&& pm), acc.2)
    else acc) (0, false)

/-- Whether an access touches a watched byte. -/
def Telltale.watches (t : Telltale) (asid va n : Nat) (read write : Bool) : Bool :=
  decide (t.asid = asid) && t.wp.toList.any fun w =>
    let sz := 2 ^ max 3 (field w 56 5)
    let base := field w 0 56 / sz * sz
    w.getLsbD 63 && ((read && w.getLsbD 61) || (write && w.getLsbD 62)) && overlaps va n base sz

/-! ### Dumps (R397) -/

/-- A dump record of a context. -/
def State.dumpContext (s : State) (c k : Nat) : State :=
  let x := s.ctx c k
  let w := fun (a b : Word) => le64 (a.toNat % 2 ^ 32 + 2 ^ 32 * (b.toNat % 2 ^ 32))
  let body := if x.unit.isSome then
      le64 x.pc.toNat ++ le64 x.cc ++ le64 (x.csr.cause.toNat % 2 ^ 32) ++ w x.csr.tlLsu x.csr.tlCpy ++ w x.csr.tlMat x.csr.tlDda
        ++ le64 (x.csr.tlCol.toNat % 2 ^ 32)
    else []
  s.record (dieOf c) (recordHeader 5 c k false (s.unitIdAt c k) s.now ++ padTo 48 body)

/-- Whether a requested dump is due: its context is at a bundle boundary, or has no resident unit (R397). -/
def State.dumpDue (s : State) (die : Nat) : Bool :=
  let w := (s.tell die).dump
  let x := s.ctx (die * 128 + field w 0 7) (field w 7 2)
  w.getLsbD 63 && (x.unit.isNone || decide (x.waits = 0))

/-- DUMP_RECORD: the requested context is at a bundle boundary; GO clears. -/
def execDumpRecord (die : Nat) (s : State) : Res :=
  let w := (s.tell die).dump
  if s.dumpDue die then
    .next ((s.dumpContext (die * 128 + field w 0 7) (field w 7 2)).onTell die fun t => { t with dump := withField t.dump 63 1 0 })
  else .next s

/-! ### Host writes (R387, R388, R397, R408) -/

def State.holdsSem (s : State) (port : Fin 2) : Bool := decide (s.regs.hsem = some port.val)

/-- TTCTL: LOST clears when EN goes from 0 to 1; a freeze running when DEV clears is not recorded (R391). -/
def execTtctl (port : Fin 2) (die : Fin 4) (v : Word) (s : State) : Res :=
  if !s.holdsSem port then .next s
  else
    let old := (s.tell die).ttctl
    let w := withMask old v 0x0000FFE000FFFF1F
    let w := if !old.getLsbD 0 && v.getLsbD 0 then withField w 48 16 0 else w
    let s := s.onTell die fun t => { t with ttctl := w }
    .next (if v.getLsbD 1 then s
      else { s with launches := s.launches.map fun x => (x.1, { x.2 with freeze := x.2.freeze.map fun f =>
          { f with causes := f.causes.map fun g => if dieOf g.core = die.val then { g with mute := true } else g } }) })

/-- TTBUF: ignored while EN = 1. -/
def execTtbuf (port : Fin 2) (die : Fin 4) (v : Word) (s : State) : Res :=
  if !s.holdsSem port || (s.tell die).en then .next s
  else .next (s.onTell die fun t => { t with ttbuf := v &&& 0x000FFFFFFFFFF01F })

/-- TTDUMP: a write while GO reads 1 is ignored. -/
def execTtdump (port : Fin 2) (die : Fin 4) (v : Word) (s : State) : Res :=
  if !s.holdsSem port || (s.tell die).dump.getLsbD 63 then .next s
  else .next (s.onTell die fun t => { t with dump := v &&& 0x80000000000001FF })

end Sys2Proof.Machine
end

