-- ==== Sys2Proof/Machine/SaveArea.lean ====
section
/-! DEFINITION. Reading a trap record, an integrator image and a save area (R275, R294, R365 to R367, R380 to R384). -/
namespace Sys2Proof.Machine

/-! ### The entries of a trap record (R365) -/

/-- The scale latch from its two words. -/
def scaleOf (hi lo : Word) : BitVec 72 := (hi.setWidth 8 ++ lo : BitVec 72)

/-- The parts of a record. -/
def recordPart (b : List Byte) (off n : Nat) : List Byte := (b.drop off).take n
def snapPart (b : List Byte) (i : Nat) : List Byte := recordPart b (768 + 320 * i) 320
def pendPart (b : List Byte) (j : Nat) : List Byte := recordPart b (3328 + 320 * j) 320
def recordNpw (b : List Byte) : Nat := field (recWord b 1) 0 7
def recordNsnap (b : List Byte) : Nat := field (recWord b 1) 12 4

/-- A snapshot entry. -/
def snapOf (b : List Byte) : Snap :=
  let w := recWord b 0
  let q := recWord b 1
  if field w 0 2 = 3 then
    .queue (field w 8 5 % 16) (q.extractLsb' 0 16) (q.extractLsb' 16 16) (q.extractLsb' 32 8) (q.getLsbD 40) (q.getLsbD 41)
  else .reg (clsOfCode (field w 0 2)) (field w 8 5) (bytesV (b.drop 64))

/-- A pending write put back in flight: due `REM` context cycles after cycle `cc` begins. -/
def flightOf (b : List Byte) (cc group : Nat) (kept : Bool × Nat) : Flight :=
  let w := recWord b 0
  let kind := field w 0 2
  let n := field w 28 3
  { due := cc + field w 18 5
    slot := (allSlots[n]?).getD .q
    cls := if kind = 3 then none else some (clsOfCode kind)
    num := if kind = 2 then field w 8 5 % 16 else field w 8 5
    nw := w.getLsbD 3
    value := bytesV (b.drop 64)
    enables := BitVec.ofNat 256 (leNat (recordPart b 32 32))
    flags := w.extractLsb' 23 5
    scale := if w.getLsbD 2 then some (scaleOf (recWord b 1) (recWord b 2)) else none
    latch := kept.1
    group
    stamp := kept.2 }

/-- The latches that a record restores; the order of the operations behind them is the unit's own. -/
def latchOf (b : List Byte) (stamps : List Nat) (i : Nat) : Latch :=
  let w := recWord b 1
  let value := if i < 2 then (recWord b (2 + i)).setWidth 2048 else bytesV (recordPart b (256 * (i - 1)) 256)
  ⟨w.getLsbD (16 + i), clsOfCode (field w (20 + 2 * i) 2), value, stamps.getD i 0⟩

/-! ### Selectors (R275) -/

def selKind (x : BitVec 12) : Nat := (x.extractLsb' 9 2).toNat
def selIndex (x : BitVec 12) : Nat := (x.extractLsb' 0 9).toNat

def selectorOk (x : BitVec 12) : Bool :=
  match selKind x with
  | 1 => decide (selIndex x ≤ 63)
  | 2 => decide (selIndex x ≤ 1)
  | 3 => decide (selIndex x = 0)
  | _ => true

/-! ### The integrator image (R294) -/

/-- The cell that 32 bytes of an image describe. -/
def Cell.ofBytes (b : List Byte) : Cell :=
  let w := leNat ((b.drop 12).take 4)
  let p := wordAt b 16
  let sel := fun k => p.extractLsb' (12 * k) 12
  let t := BitVec.ofNat 5 w
  { y := BitVec.ofNat 32 (leNat (b.take 4)), res := BitVec.ofNat 32 (leNat ((b.drop 4).take 4)),
    count := BitVec.ofNat 32 (leNat ((b.drop 8).take 4)), t, g := BitVec.ofNat 4 (w / 2 ^ 5), dom := BitVec.ofNat 2 (w / 2 ^ 9),
    out := if t = 0 then 0 else BitVec.ofNat 2 (w / 2 ^ 11), dx := sel 0, dy0 := sel 1, dy1 := sel 2, dy2 := sel 3,
    pend := p.extractLsb' 48 16 }

/-- Whether a cell record is well formed. -/
def cellOk (b : List Byte) : Bool :=
  let w := leNat ((b.drop 12).take 4)
  let p := wordAt b 16
  decide (w < 2 ^ 13) && decide (BitVec.ofNat 5 w ≠ 31#5) && decide (BitVec.ofNat 2 (w / 2 ^ 11) ≠ 2#2)
  && decide (leNat ((b.drop 24).take 8) = 0)
  && (List.range 4).all fun k => selectorOk (p.extractLsb' (12 * k) 12) && decide (p.extractLsb' (48 + 4 * k) 4 ≠ 8#4)

def imageCell (b : List Byte) (c : Nat) : List Byte := (b.drop (512 + 32 * c)).take 32

/-- The checks of DLOAD. -/
def imageOk (b : List Byte) : Bool :=
  let lout := leNat ((b.drop 256).take 16)
  ((List.range 4).all fun d => decide (leNat ((b.drop (32 * d)).take 8) ≤ 65535) && decide (leNat ((b.drop (32 * d + 24)).take 8) = 0))
  && ((List.range 64).all fun j => decide (lout / 4 ^ j % 4 ≠ 2)) && decide (leNat ((b.drop 272).take 240) = 0)
  && (List.range 512).all fun c => cellOk (imageCell b c)

/-- The array that an image describes, with its budgets as a restore loads it. -/
def Dda.loaded (x : Dda) (b : List Byte) : Dda :=
  let lout := leNat ((b.drop 256).take 16)
  let cells := (List.range 512).map fun c => (c, Cell.ofBytes (imageCell b c))
  { x with
    cells := cells.filter fun c => c.2 != Cell.cleared
    domains := Vector.ofFn fun (d : Fin 4) =>
      ⟨BitVec.ofNat 16 (leNat ((b.drop (32 * d.val)).take 8)), wordAt b (32 * d.val + 8), wordAt b (32 * d.val + 16)⟩
    lanes := Vector.ofFn fun (j : Fin 64) =>
      ⟨BitVec.ofNat 16 (leNat ((b.drop (128 + 2 * j.val)).take 2)), BitVec.ofNat 2 (lout / 4 ^ j.val)⟩ }

/-- The array with no step to take. -/
def Dda.halted (x : Dda) : Dda := { x with domains := x.domains.map fun d => { d with budget := 0 } }

/-- The array that DLOAD loads, its budgets 0; none when R294 refuses the image. -/
def Dda.ofImage (x : Dda) (b : List Byte) : Option Dda := if imageOk b then some (x.loaded b).halted else none

/-! ### The save area (R380 to R384) -/

/-- A queue as its image in a save area holds it; the CFG bit says whether it is configured (R382). -/
def savedQueue (b : List Byte) : Queue :=
  let w := recWord b 0
  let c := recWord b 1
  let n := recWord b 3
  if w.getLsbD 31 then
    { cfg := true, base := w.extractLsb' 0 14 ++ 0#8, slotsz := w.extractLsb' 18 8, log2n := w.extractLsb' 26 4, rx := w.getLsbD 30
      head := c.extractLsb' 0 16, free := n.extractLsb' 32 16, tail := c.extractLsb' 16 16
      pres := BitVec.ofNat 256 (leNat (recordPart b 32 32)), tags := BitVec.ofNat 1536 (leNat (recordPart b 64 192))
      opn := c.getLsbD 40, okind := c.getLsbD 41, fill := c.extractLsb' 32 8, spo := c.getLsbD 42, spi := c.getLsbD 43
      ref := c.extractLsb' 44 3, sptgt := (recWord b 2).extractLsb' 0 15, stail := n.extractLsb' 0 16, sfree := n.extractLsb' 16 16 }
  else Queue.cleared

/-- A CSR as a save area's slot of its number loads it; CTXNUM and CCYC have a home of their own. -/
def Csrs.load (c : Csrs) (n : Nat) (w : Word) : Csrs :=
  match n with
  | 0x010 => { c with asidcur := w }
  | 0x011 => { c with uweight := w }
  | 0x012 => { c with slice := w }
  | 0x013 => { c with ytol := w }
  | 0x014 => { c with leasebudget := w }
  | 0x015 => { c with dpmax := w }
  | 0x017 => { c with unitid := w }
  | 0x020 => { c with cause := w }
  | 0x025 => { c with badaddr := w }
  | 0x030 => { c with tlLsu := w }
  | 0x031 => { c with tlCpy := w }
  | 0x032 => { c with tlMat := w }
  | 0x033 => { c with tlDda := w }
  | 0x034 => { c with tlCol := w }
  | n => (csrWrite c n w).getD c

/-- The elements of the accumulators that the images of a save area hold (R270, R383). -/
def savedElems (accs : List Nat) (b : List Byte) : List (Nat × BitVec 32) :=
  accs.flatMap fun a => ((List.range 24576).zip (bytesWords (recordPart b (98560 * a + 256) 98304))).filterMap fun e =>
    if e.2 = 0 then none else some (a * 24576 + e.1, e.2)
where
  /-- Bytes as words of four. -/
  bytesWords : List Byte → List (BitVec 32)
    | a :: b :: c :: d :: rest => BitVec.ofNat 32 (leNat [a, b, c, d]) :: bytesWords rest
    | _ => []

/-- The bank that a save area describes; what the area has no field for stays as it was kept: whether the pending writes still load a
latch, and when they issued (R361). -/
def Ctx.ofArea (x : Ctx) (b : List Byte) : Ctx :=
  let csr := savedCsrs.foldl (fun c n => c.load n (recWord b (128 + n))) x.csr
  let rec_ := recordPart b 14336 trapRecordSize
  let kept := (landingOrder x.flights).map fun f => (f.latch, f.stamp)
  let cc := (recWord b (128 + 0x019)).toNat
  { x with
    pc := recWord b 2
    s := Vector.ofFn fun i : Fin 32 => if i = 0 then x.readS 0 else recWord b (32 + i.val)
    p := Vector.ofFn fun i : Fin 16 => if i = 0 then x.readP 0 else BitVec.ofNat 256 (leNat (recordPart b (512 + 32 * i.val) 32))
    v := Vector.ofFn fun i : Fin 32 => bytesV (recordPart b (6144 + 256 * i.val) 256)
    csr
    cc
    queues := Vector.ofFn fun i : Fin 16 => savedQueue (recordPart b (1536 + 256 * i.val) 256)
    scale := scaleOf (recWord rec_ 5) (recWord rec_ 4)
    resume := x.resume.map fun r => { r with snaps := (List.range (recordNsnap rec_)).map fun i => snapOf (snapPart rec_ i) }
    flights := (List.range (recordNpw rec_)).map fun j => flightOf (pendPart rec_ j) cc x.group (kept.getD j (false, cc)) }

/-- Bytes at the home from a page-aligned address up, page by page. -/
def State.areaBytes (s : State) (pa n : Nat) (key : Option (BitVec 512)) : List Byte :=
  (List.range ((n + 4095) / 4096)).flatMap fun i =>
    let a := pa + 4096 * i
    let at_ := s.loc a
    ({ s with mem := s.mem.filter fun e => decide (at_ ≤ e.1) && decide (e.1 < at_ + 4096) } : State).peek a (min 4096 (n - 4096 * i)) key

/-- What a unit's save area holds, read at its home under the unit's key (R380, R384). -/
def State.loadArea (s : State) (x : Unit) (v : Saved) : Saved × State :=
  let (key, s) := s.keyOf (dieOf x.core) x.asid
  let k := s.keyValue key
  let at_ := s.saveAddr x
  let read := fun off n => ((s.areaBytes (at_ + off / 4096 * 4096) (off % 4096 + n) k).drop (off % 4096))
  let b := read 0 38144
  let images := if v.acc = 0 then [] else read 38144 394240
  ({ v with
      bank := v.bank.ofArea b
      block := if v.acc = 0 then v.block else (recWord (if v.acc = 2 then recordPart images (98560 * accFirst x.ctx) 8 else images) 0).setWidth 30
      elems := if v.acc = 0 then v.elems else savedElems (if v.acc = 1 then [0, 1, 2, 3] else [accFirst x.ctx, accFirst x.ctx + 1]) images
      dda := v.dda.map fun d => d.loaded (read 432384 16896) }, s)
where
  /-- The first image of a context's pair of accumulators in alternate-window mode (R383). -/
  accFirst (k : Nat) : Nat := if k = 0 then 0 else 2

/-- Change the bank state of a unit wherever it lies: in its context, or in its save area, which is its live state while the unit
is out (R146, R164, R382). -/
def State.onBank (s : State) (u : Nat) (f : Ctx → Ctx) : State :=
  match s.unit u with
  | some x =>
    if (s.ctx x.core x.ctx).unit = some u then s.onCtx x.core x.ctx f
    else match x.saved with
      | some v =>
        let (v, s) := s.loadArea x v
        (s.onUnit u fun y => { y with saved := some { v with bank := f v.bank } }).storeImage u
      | none => s
  | none => s

/-- The bank state of a unit. -/
def State.bankOf (s : State) (u : Nat) : Ctx :=
  match s.unit u with
  | some x =>
    if (s.ctx x.core x.ctx).unit = some u then s.ctx x.core x.ctx
    else match x.saved with
      | some v => (s.loadArea x v).1.bank
      | none => Ctx.cleared
  | none => Ctx.cleared

end Sys2Proof.Machine
end

