-- ==== Sys2Proof/Machine/Engine.lean ====
section
/-! DEFINITION. What the engines share: timeline numbers, command records, landing buffers, completion, and faults raised from
a record (R4, R145, R146, R253, R329, R330, R364, R368 to R370, R415). -/
namespace Sys2Proof.Machine

/-! ### Timelines (R329, R330) -/

def Csrs.tl (c : Csrs) : Engine → Word
  | .lsu => c.tlLsu | .cpy => c.tlCpy | .mat => c.tlMat | .dda => c.tlDda | .col => c.tlCol
def Csrs.setTl (c : Csrs) (e : Engine) (w : Word) : Csrs :=
  match e with
  | .lsu => { c with tlLsu := w } | .cpy => { c with tlCpy := w } | .mat => { c with tlMat := w }
  | .dda => { c with tlDda := w } | .col => { c with tlCol := w }

def engineCode : Engine → Nat
  | .lsu => 0 | .cpy => 1 | .mat => 2 | .dda => 3 | .col => 4

/-- TLNext: the next number of the issuing unit on a timeline. -/
def State.tlNext (s : State) (e : Engine) : Nat × State :=
  let n := (s.me.csr.tl e).toNat + 1
  (n, (s.onMe fun x => { x with csr := x.csr.setTl e (BitVec.ofNat 64 n) }).onMyUnit fun u => { u with open_ := u.open_ ++ [(e, n)] })

/-! ### Records (R368, R415) -/

def Cmd.blank (e : Engine) (op : Instr) : Cmd where
  eng := e
  n := 0
  place := 0
  pc := 0
  op := op
  a := 0
  b := 0
  c := 0
  d := 0
  vec := 0
  guard := 0
  seed := 0
  tabA := 0
  tabB := 0
  ctr := 0
  srcA := none
  srcB := none
  fetch := none
  splice := none
  after := 0
  before := 0
  index := 0
  land := none
  stage := .queued
  due := 0
  started := 0
  flags := 0
  limit := 0
  parts := []
  bound := []
  begun := false
  attr := 0
  fenced := 0
  skipWatch := false
  acquire := false
  release := false
  sample := none

/-- The relFence number and the last LSU number of the issuing unit, which its engine commands follow (R331, R339). -/
def State.myFence (s : State) : Nat := ((s.unit s.myUnit).map (·.relFence)).getD 0

/-- The number of the issuing unit's last LSU operation before its last full FENCE. -/
def State.myFullFence (s : State) : Nat := ((s.unit s.myUnit).map (·.fullFence)).getD 0

/-- Hand a command to an engine: it takes a number, a place in its core and an entry of its queue. -/
def State.command (s : State) (e : Engine) (op : Instr) (f : Nat → Cmd → Cmd) : State :=
  let (n, s) := s.tlNext e
  let base := { Cmd.blank e op with
    n, place := s.myCore.nextPlace, pc := s.iss.pc, after := s.myFence, fenced := s.myFullFence, before := s.me.csr.tlLsu.toNat,
    due := s.now + 1, started := s.now }
  (s.onMyCore fun x => { x with nextPlace := x.nextPlace + 1 }).onMyUnit fun u => { u with cmds := u.cmds ++ [f n base] }

def Unit.cmd (x : Unit) (e : Engine) (n : Nat) : Option Cmd := x.cmds.find? fun c => decide (c.eng = e) && decide (c.n = n)
def State.cmd (s : State) (u : Nat) (e : Engine) (n : Nat) : Option Cmd := (s.unit u).bind fun x => x.cmd e n
def State.onCmd (s : State) (u : Nat) (e : Engine) (n : Nat) (f : Cmd → Cmd) : State :=
  s.onUnit u fun x => { x with cmds := x.cmds.map fun c => if decide (c.eng = e) && decide (c.n = n) then f c else c }

/-- Entries of a unit's command queue that are taken (R141, R415). -/
def Unit.queuedCmds (x : Unit) (e : Engine) : Nat := (x.cmds.filter fun c => decide (c.eng = e) && decide (c.stage = .queued)).length
/-- Whether a command may be started by its engine. -/
def Cmd.waiting (c : Cmd) : Bool := decide (c.stage = .queued) || decide (c.stage = .replay)

/-- Depths of the command queues (R141, cause 4). -/
def queueDepth : Engine → Nat
  | .lsu => 32 | .cpy => 16 | .mat => 8 | .dda => 4 | .col => 4

/-! ### What clears for a context (R148) -/

def Ctx.noteAt (x : Ctx) (t : Nat) (c : Clear) : Ctx := { x with recent := x.recent ++ [(t, c)] }

/-- Something that a bundle of the unit may wait for has cleared, from the start of this core cycle on, or of the next once this
one's bundles issue. What the unit's own bundle clears counts as already made. -/
def State.note (s : State) (u : Nat) (c : Clear) : State :=
  match s.unit u with
  | some x =>
    let own := s.plan.isSome && decide (s.iss.core = x.core) && decide (s.iss.ctx = x.ctx)
    if decide ((s.ctx x.core x.ctx).unit = some u) && !own then
      s.onCtx x.core x.ctx fun y => y.noteAt (s.now + (if s.plan.isSome then 1 else 0)) c
    else s
  | none => s

/-- A command leaves its queue for its engine's record (R415). -/
def State.takeCmd (s : State) (u : Nat) (e : Engine) (n : Nat) (f : Cmd → Cmd) : State :=
  let freed : Bool := match s.cmd u e n with
    | some c => decide (c.stage = .queued)
    | none => false
  let s := s.onCmd u e n fun c => f { c with stage := .taken, started := s.now }
  if freed then s.note u (.cmd e) else s

/-- FPFLAGS bits that an engine raises for its unit. -/
def State.raiseFlags (s : State) (u : Nat) (f : Flags) : State := if f = 0 then s else s.onBank u fun x => orFlags x f

/-- A numbered operation completes: its flags are raised and its record goes. -/
def State.finish (s : State) (u : Nat) (e : Engine) (n : Nat) : State :=
  let fl := ((s.cmd u e n).map (·.flags)).getD 0
  ((s.raiseFlags u fl).onUnit u fun x => { x with
    cmds := x.cmds.filter fun c => !(decide (c.eng = e) && decide (c.n = n))
    open_ := x.open_.filter fun o => !(decide (o = (e, n))) }).note u (.done e n)

/-! ### Landing buffers (R145, R146) -/

/-- Take a landing-buffer entry of the issuing context for a destination. -/
def State.takeLanding (s : State) (cls : RegCls) (num : Nat) (eng : Option (Engine × Nat)) : Nat × State :=
  let id := ((s.unit s.myUnit).map (·.nextLand)).getD 0
  (id, s.onMyUnit fun u => { u with
    nextLand := u.nextLand + 1
    landings := u.landings ++ [{ id, cls, num, eng, ready := none, due := s.now + 1 }] })

def State.landing (s : State) (u id : Nat) : Option Landing := (s.unit u).bind fun x => x.landings.find? fun l => decide (l.id = id)

/-- The value of a landing is known; it writes from core cycle `due` on. -/
def State.landReady (s : State) (u id due : Nat) (v : VWord) (en : PWord) (fl : Flags) : State :=
  s.onUnit u fun x => { x with landings := x.landings.map fun l =>
    if l.id = id then { l with ready := some (v, en, fl), due } else l }

/-- Whether a fixed-latency write to the landing's register is in flight: the landing waits for it (R145). -/
def State.landBlocked (s : State) (u : Nat) (l : Landing) : Bool :=
  let x := s.bankOf u
  x.flights.any fun f => decide (f.cls = some l.cls) && decide (f.num = l.num) && !f.nw

/-- Free a landing-buffer entry and clear its pending mark. -/
def State.freeLanding (s : State) (u : Nat) (l : Landing) : State :=
  ((s.onUnit u fun x => { x with landings := x.landings.filter fun y => !decide (y.id = l.id) }).note u (.reg l.cls l.num)).note u .land

/-- A landing buffer writes its register. -/
def State.writeLanding (s : State) (u : Nat) (l : Landing) (v : VWord) (en : PWord) (fl : Flags) : State :=
  let s := s.onBank u fun x =>
    orFlags ((x.writeReg l.cls l.num (merge (x.readReg l.cls l.num) v en)).heal l.cls l.num en) fl
  s.freeLanding u l

/-- Registers of a unit that are pending. -/
def Unit.pending (x : Unit) (cls : RegCls) (num : Nat) : Bool := x.landings.any fun l => decide (l.cls = cls) && decide (l.num = num)

/-! ### Faults from a record (R253, R364) -/

/-- TVAL of an asynchronous trap. -/
def asyncTval (e : Engine) (n : Nat) : Word := BitVec.ofNat 64 (2 ^ 60 * engineCode e + n)

/-- A condition raised from a record waits as an asynchronous trap of its unit; after EXIT it is unhandled. -/
def State.asyncRaise (s : State) (u : Nat) (e : Engine) (n : Nat) (pc : Word) (c : Cond) : State :=
  match s.unit u with
  | some x =>
    if x.exited then s.endLaunch x.launch 4 c.code
    else s.onUnit u fun y => { y with asyncs := y.asyncs ++
      [{ cond := { c with tval := some (c.tval.getD (asyncTval e n)) }, pc, eng := e, n, at_ := s.now }] }
  | none => s

/-- A command faults: its record is kept for TRET. -/
def State.engineFault (s : State) (u : Nat) (e : Engine) (n : Nat) (c : Cond) : State :=
  match s.cmd u e n with
  | some r =>
    let hit := c.kind = 15
    (s.onCmd u e n fun r => { r with stage := .faulted, skipWatch := hit, parts := [], bound := [], begun := false, sample := none }).asyncRaise u e n r.pc c
  | none => s

/-! ### Order against the unit's own global accesses (R323, R331, R339) -/

/-- Whether some LSU operation of a unit up to a number has not completed. -/
def Unit.lsuOpenTo (x : Unit) (n : Nat) : Bool := x.open_.any fun o => decide (o.1 = .lsu) && decide (o.2 ≤ n)

/-- Whether an engine command of a unit may make global accesses: the acquires before it have performed, and the accesses before the
full fence; for a write, the accesses before the release fence too. -/
def Unit.engineMayAccess (x : Unit) (c : Cmd) (write : Bool) : Bool :=
  !(x.cmds.any fun a => decide (a.eng = .lsu) && a.acquire && decide (a.n ≤ c.before) && !decide (a.stage = .effected))
  && !x.lsuOpenTo c.fenced && !(write && x.lsuOpenTo c.after)

end Sys2Proof.Machine
end

