-- ==== Sys2Proof/Machine/Lsu.lean ====
section
/-! DEFINITION. The global load-store unit: LDG, STG, AMO, AMOCAS, VLDG, VSTG, fences, timeline waits, their records, and the
instruction-cache operations (R110 to R114, R217 to R219, R314 to R342, R393, R396). -/
namespace Sys2Proof.Machine

/-! ### What an operation accesses -/

def ldSize : LdSz → Nat
  | .i8 | .n8 => 1 | .i16 | .n16 => 2 | .i32 | .n32 => 4 | .d => 8
def stSize : StSz → Nat
  | .b => 1 | .h => 2 | .w => 4 | .d => 8
/-- Value that a load of `sz` writes (R338). -/
def ldValue (sz : LdSz) (b : List Byte) : Word :=
  match sz with
  | .i8 | .i16 | .i32 => word64 (readInt true (8 * b.length) (leNat b))
  | _ => BitVec.ofNat 64 (leNat b)

/-- The operations of AMO (R341). -/
inductive AmoKind where
  | add | and | or | xor | min | max | minn | maxn | swap | fadd | cas
deriving DecidableEq, Repr

def amoKind : Instr → Option (AmoKind × AmoOp)
  | .amoAdd o => some (.add, o) | .amoAnd o => some (.and, o) | .amoOr o => some (.or, o) | .amoXor o => some (.xor, o)
  | .amoMin o => some (.min, o) | .amoMax o => some (.max, o) | .amoMinn o => some (.minn, o) | .amoMaxn o => some (.maxn, o)
  | .amoSwap o => some (.swap, o) | .amoFadd o => some (.fadd, o) | .amocas o => some (.cas, o)
  | _ => none

/-- The new memory value of an atomic on `bits` bits, none when AMOCAS stores nothing, and the flags (R341, R342). -/
def amoResult (k : AmoKind) (bits m b x : Nat) : Option Nat × Flags :=
  let sm := readInt true bits m
  let sb := readInt true bits b
  match k with
  | .add => (some ((m + b) % 2 ^ bits), 0)
  | .and => (some (m &&& b), 0)
  | .or => (some (m ||| b), 0)
  | .xor => (some (m ^^^ b), 0)
  | .min => (some (if sm ≤ sb then m else b), 0)
  | .max => (some (if sm ≤ sb then b else m), 0)
  | .minn => (some (Nat.min m b), 0)
  | .maxn => (some (Nat.max m b), 0)
  | .swap => (some b, 0)
  | .fadd =>
    let r := faddOp .f32 .rne m b ⟨0, 0⟩
    (some r.1, r.2.fl)
  | .cas => (if m = x then some b else none, 0)

def amoSize (o : AmoOp) : Nat := if o.dw then 8 else 4

/-- Bytes of a raw access. -/
def rawSize : Instr → Nat
  | .ldg o => ldSize o.sz
  | .stg o => stSize o.sz
  | i => match amoKind i with
    | some (_, o) => amoSize o
    | none => 256

def lsuOrigin : Instr → Nat
  | .vldg _ | .vstg _ => 2
  | _ => 1
def lsuRight : Instr → Right
  | .ldg _ | .vldg _ => .r
  | _ => .w
def lsuReads (i : Instr) : Bool := match i with
  | .stg _ | .vstg _ => false
  | _ => true

/-! ### Page formats of VLDG and VSTG (R36, R48, R217, R218) -/

/-- The format of a type that travels unchanged. -/
def packedFmt : Ty → Option Fmt
  | .e4m3 => some .e4m3 | .e5m2 => some .e5m2 | .e2m1 => some .e2m1 | .l8 => some .l8
  | _ => none

/-- Bytes of the data span of a vector access to a page of format `f` and geometry `geo`, or the format condition. -/
def vectorSpan (load maint : Bool) (ty : Ty) (f : Option Fmt) (geo : Nat) : Except Cond Nat :=
  match f with
  | none => .error (formatAttribute 2)
  | some .raw => .ok 256
  | some f =>
    if load && !geoLegal f geo maint then .error (formatAttribute 2)
    else match packedFmt ty with
      | some g => if f = g then .ok 256 else .error (formatAttribute 2)
      | none =>
        if !load && (decide (geo ≠ 0) || decide (f = .l8)) then .error (formatAttribute 2)
        else .ok (lanes ty * f.bits / 8)

/-- Code of element `i` of bytes in a format of 4 bits or whole bytes. -/
def elemCode (f : Fmt) (b : List Byte) (i : Nat) : Nat := leNat b / 2 ^ (f.bits * i) % 2 ^ f.bits

/-- Element `i` of a span, with NV for a signalling NaN (R35, R37, R52). -/
def spanElem (f : Fmt) (tab : BitVec 32) (b : List Byte) (i : Nat) (a : RAcc) : Ext × RAcc :=
  if f = .l8 then (latticeLane tab (BitVec.ofNat 16 (leNat ((b.drop (2 * (i / 8))).take 2))) (i % 8), a)
  else match f.float with
    | some g => g.read (elemCode f b i) a
    | none => (f.value (elemCode f b i), a)

/-- RoundTo a vector element type (R40, R41). -/
def roundTy (t : Ty) (rm : Rm) (x : Ext) (a : RAcc) : Nat × RAcc :=
  match tyFloat t with
  | some g => roundF g rm x a
  | none =>
    let (v, a) := roundI (intLo (tySigned t) (tyBits t)) (intHi (tySigned t) (tyBits t)) rm x a
    (wrapInt (tyBits t) v, a)

/-- Where the scale of element `i` lies: the address of its byte (GEO 1 to 4), or of its group record and its place in the
group (GEO 5); none when unscaled (R50, R51). -/
inductive ScaleAt where
  | none
  | byte (a : Word)
  | group (a : Word) (i : Nat)
deriving DecidableEq, Repr

def scaleAt (soff : Word) (f : Fmt) (geo va i : Nat) : ScaleAt :=
  let x := va + i * f.bits / 8
  if geo = 0 then .none
  else if geo = 5 then
    let gb := 512 * f.bits / 8
    .group (soff + BitVec.ofNat 64 (x / gb * 128)) (x % gb * 8 / f.bits + (i * f.bits % 8) / f.bits)
  else .byte (soff + BitVec.ofNat 64 (x / blockBytes f geo))

/-- The addresses of scale bytes and group records that a span reads: those of blocks and groups with an enabled element. -/
def scaleReads (soff : Word) (f : Fmt) (geo va : Nat) (els : List Nat) : List (Word × Nat) :=
  (els.filterMap fun i => match scaleAt soff f geo va i with
    | .none => none
    | .byte a => some (a, 1)
    | .group a _ => some (a, 128)).eraseDups

/-- The scale byte of element `i`, from the bytes read; none for an invalid group record. -/
def scaleByte (soff : Word) (f : Fmt) (geo va i : Nat) (got : List (Word × List Byte)) : Option Nat :=
  let at_ := fun a => ((got.find? fun g => g.1 == a).map (·.2)).getD []
  match scaleAt soff f geo va i with
  | .none => some 127
  | .byte a => some (leNat (at_ a))
  | .group a j =>
    let r := at_ a
    let bm := leNat (r.take 64)
    if bitmapOk bm then some (leNat ((r.drop (64 + blockOf bm j)).take 1)) else none

/-- Bytes of a VLDG's register, with flags; none for an invalid group record. -/
def vldgValue (o : VGlob) (f : Fmt) (geo : Nat) (tab seed : BitVec 32) (g : PWord) (soff : Word) (va : Nat) (data : List Byte)
    (got : List (Word × List Byte)) : Option (VWord × Flags) :=
  if f = .raw || (packedFmt o.ty).isSome then some (bytesV data, 0)
  else if (enabledLanes o.ty g).all fun i => (scaleByte soff f geo va i got).isSome then
    let r := vmap o.ty g (fun i a =>
      let (x, a) := spanElem f tab data i a
      roundTy o.ty o.rm (scaled x ((scaleByte soff f geo va i got).getD 127)) a) ⟨seed, 0⟩
    some (r.1, r.2.fl)
  else none

/-- The bytes that a VSTG stores, each with the mask of the bits that change, and the flags. -/
def vstgBytes (o : VGlob) (f : Fmt) (seed : BitVec 32) (g : PWord) (v : VWord) : List (Byte × Byte) × Flags :=
  if f = .raw || (packedFmt o.ty).isSome then
    let en := laneMask o.ty g
    ((vbytes v).zipIdx.map fun x => (x.1, if en.getLsbD x.2 then 0xFF else 0), 0)
  else
    let n := lanes o.ty
    let r := (List.range n).foldl (fun (acc : Nat × Nat × RAcc) i =>
      if enabled o.ty g i then
        let (x, a) := match tyFloat o.ty with
          | some t => t.read (elem o.ty v i) acc.2.2
          | none => (Ext.ofInt (ielem o.ty v i), acc.2.2)
        let (c, a) := match f.float with
          | some t => roundF t o.rm x a
          | none =>
            let (y, a) := roundI (intLo true f.bits) (intHi true f.bits) o.rm x a
            (wrapInt f.bits y, a)
        (acc.1 + c * 2 ^ (f.bits * i), acc.2.1 + (2 ^ f.bits - 1) * 2 ^ (f.bits * i), a)
      else acc) (0, 0, ⟨seed, 0⟩)
    let k := n * f.bits / 8
    ((leBytes r.1 k).zip (leBytes r.2.1 k), r.2.2.fl)

/-- One step of the generator for each enabled element under SR, made at issue (R43, R217). -/
def State.stepSr (s : State) (rm : Rm) (n : Nat) : State :=
  if rm = .sr then
    s.keepSr ⟨(List.range n).foldl (fun r _ => srStep r) s.racc.sr, 0⟩
  else s

/-! ### Issue (R338 to R342) -/

/-- The checks of a raw access at issue. -/
def checkGlobal (a : Word) (size : Nat) : Except Cond PUnit :=
  if !canonical a then .error { nonCanonical 1 with badaddr := some a }
  else if a.toNat % size ≠ 0 then .error (misalignedAccess 1)
  else .ok ⟨⟩

/-- Count an LDG or VLDG and tag it when its count is due (R393). -/
def State.tagLoad (s : State) : Option (Nat × Nat × Nat × Nat) × State :=
  let s := s.onMyCore fun x => { x with loads := x.loads + 1 }
  let t := s.tell (dieOf s.iss.core)
  (if t.ls && decide (s.myCore.loads % 2 ^ t.sper = 0) then some (s.now, 0, 0, 0) else none, s)

/-- The landing entry of an LDG's destination; s0 takes none (R338). -/
def State.landScalar (s : State) (d : Fin 32) (e : Engine) : Option Nat × State :=
  if d = 0 then (none, s)
  else
    let (id, s) := s.takeLanding .s d.val (some (e, (s.me.csr.tl e).toNat + 1))
    (some id, s)

/-- Enter an LSU operation, which starts after a delay that the spec leaves open. -/
def State.lsuCommand (s : State) (op : Instr) (f : Nat → Cmd → Cmd) : State :=
  let (k, s) := s.draw
  s.command .lsu op fun n c => f n { c with due := c.due + Config.lsuDelay k }

def execLdg (o : LdgOp) : State → Res := slotOp false fun s => do
  let a ← s.srcS o.a
  checkGlobal a (ldSize o.sz)
  let tok := if o.tok = 0 then 0 else (s.regS o.tok.val).toNat
  let (sample, s) := s.tagLoad
  let (land, s) := s.landScalar o.d .lsu
  pure (s.lsuCommand (.ldg o) fun n c =>
    { c with a, land, after := min tok (n - 1), acquire := o.acq, sample })

def execStg (o : StgOp) : State → Res := slotOp false fun s => do
  let a ← s.srcS o.a
  checkGlobal a (stSize o.sz)
  let n := (s.me.csr.tlLsu).toNat + 1
  let s := s.lsuCommand (.stg o) fun _ c => { c with a, b := s.regS o.d.val, release := o.rel }
  pure (if o.tok = 0 then s else s.writeS o.tok false (BitVec.ofNat 64 n) 1)

/-- AMO and AMOCAS at issue: `d` is read as the expected value. -/
def bodyAmo (i : Instr) (o : AmoOp) (s : State) : Except Cond State := do
  let a ← s.srcS o.a
  let b ← s.srcS o.b
  checkGlobal a (amoSize o)
  let x := s.regS o.d.val
  let (id, s) := s.takeLanding .s o.d.val (some (.lsu, s.me.csr.tlLsu.toNat + 1))
  let strong := decide (o.sc ≠ .ctx)
  pure (s.lsuCommand i fun _ c => { c with a, b, c := x, land := some id, acquire := strong, release := strong })

def execAmoAdd (o : AmoOp) : State → Res := slotOp false (bodyAmo (.amoAdd o) o)
def execAmoAnd (o : AmoOp) : State → Res := slotOp false (bodyAmo (.amoAnd o) o)
def execAmoOr (o : AmoOp) : State → Res := slotOp false (bodyAmo (.amoOr o) o)
def execAmoXor (o : AmoOp) : State → Res := slotOp false (bodyAmo (.amoXor o) o)
def execAmoMin (o : AmoOp) : State → Res := slotOp false (bodyAmo (.amoMin o) o)
def execAmoMax (o : AmoOp) : State → Res := slotOp false (bodyAmo (.amoMax o) o)
def execAmoMinn (o : AmoOp) : State → Res := slotOp false (bodyAmo (.amoMinn o) o)
def execAmoMaxn (o : AmoOp) : State → Res := slotOp false (bodyAmo (.amoMaxn o) o)
def execAmoSwap (o : AmoOp) : State → Res := slotOp false (bodyAmo (.amoSwap o) o)
def execAmoFadd (o : AmoOp) : State → Res := slotOp false (bodyAmo (.amoFadd o) o)
def execAmocas (o : AmoOp) : State → Res := slotOp false (bodyAmo (.amocas o) o)

/-- FENCE: a full fence holds its bundle (R333, `State.blockedBy`); later accesses follow those that its own bundle has made before it
(R319). -/
def execFence (_sc : Scope) : State → Res := slotOp false fun s =>
  pure (s.onMyUnit fun u => { u with fullFence := s.me.csr.tlLsu.toNat })
/-- FENCE with REL: later writes follow every access issued before it. -/
def execFenceRel (_sc : Scope) : State → Res := slotOp false fun s =>
  pure (s.onMyUnit fun u => { u with relFence := s.me.csr.tlLsu.toNat })
/-- WAITTL: it holds its bundle (R332, R340); once it issues it does nothing more. -/
def execWaittl (a : Src) (_e : Engine) : State → Res := slotOp false fun s => do
  let _ ← s.srcS a
  pure s

/-- Address of VLDG and VSTG (R217). -/
def globalVa (a : Word) (imm : BitVec 12) : Word := a + imm.signExtend 64

/-- The address of a vector access: that it is canonical is a check of issue (R57, R253; log entry 23). -/
def State.vectorAddr (s : State) (o : VGlob) : Except Cond Word := do
  let a ← s.srcS o.a
  let x := globalVa a o.imm
  if canonical x then pure x else .error { nonCanonical 2 with badaddr := some x }

def execVldg (o : VGlob) : State → Res := slotOp false fun s => do
  let a ← s.vectorAddr o
  let g := s.guard o.pg
  let (sample, s) := s.tagLoad
  let seed := s.racc.sr
  let s := s.stepSr o.rm (enabledLanes o.ty g).length
  let (id, s) := s.takeLanding .v o.d.val (some (.lsu, s.me.csr.tlLsu.toNat + 1))
  pure (s.lsuCommand (.vldg o) fun _ c =>
    { c with a, guard := g, seed, land := some id, after := 0, sample, tabA := s.myCore.codebook o.cb.val })

def execVstg (o : VGlob) : State → Res := slotOp false fun s => do
  let a ← s.vectorAddr o
  let g := s.guard o.pg
  let seed := s.racc.sr
  let v := s.regV o.d.val
  let s := s.stepSr o.rm (enabledLanes o.ty g).length
  pure (s.lsuCommand (.vstg o) fun _ c => { c with a, guard := g, seed, vec := v })

/-! ### Translation of a record (R58, R72, R73, R415) -/

/-- What translating the pages of an operation comes to. -/
inductive Paged where
  | ok (l : List Piece)
  /-- waits for a walk, or for the host -/
  | wait
  | fault (c : Cond)
deriving DecidableEq, Repr

/-- Translate a range for an engine operation. -/
def State.paged (s : State) (w : Waiter) (die asid va n origin : Nat) : Paged × State :=
  match s.accessRange w die asid va n with
  | (.ok l, s) => (.ok l, s)
  | (.wait, s) => (.wait, s)
  | (.fault k sub a, s) => (.fault (transCond origin k sub a), s)

def State.soff (s : State) (die asid : Nat) : Word × State :=
  let (e, s) := s.asidEntry die asid
  (e.soff, s)

/-- The data pages of a vector access: alignment, page format and crossing (R217, R218). -/
def State.vectorPages (s : State) (w : Waiter) (die asid : Nat) (load maint : Bool) (o : VGlob) (a : Word) : Paged × State :=
  let va := va56 a
  match s.paged w die asid va 1 2 with
  | (.ok (p :: _), s) =>
    let f := fmtOfCode (attrFmt p.attr)
    let geo := attrGeo p.attr
    if va % ((f.map Fmt.align).getD 1) ≠ 0 then (.fault (misalignedAccess 2), s)
    else match vectorSpan load maint o.ty f geo with
      | .error c => (.fault { c with badaddr := some a }, s)
      | .ok n => match s.paged w die asid va n 2 with
        | (.ok l, s) =>
          match l.find? fun q => decide (attrFmt q.attr ≠ attrFmt p.attr) || (decide (f ≠ some .raw) && decide (attrGeo q.attr ≠ geo)) with
          | some q => (.fault { formatAttribute 2 with badaddr := some (vaWord q.va) }, s)
          | none => (.ok l, s)
        | x => x
  | (.ok [], s) => (.ok [], s)
  | x => x

/-- The pages of an LSU operation other than SPAWN. -/
def State.lsuPages (s : State) (w : Waiter) (core asid : Nat) (c : Cmd) : Paged × State :=
  let die := dieOf core
  match c.op with
  | .vldg o => s.vectorPages w die asid true (s.core core).maint o c.a
  | .vstg o => s.vectorPages w die asid false (s.core core).maint o c.a
  | i => s.paged w die asid (va56 c.a) (rawSize i) 1

/-- The scale bytes and group records that a VLDG reads from a page of an attribute (R217). -/
def State.scaleWant (s : State) (die asid : Nat) (c : Cmd) (attr : BitVec 11) : List (Word × Nat) × State :=
  match c.op with
  | .vldg o =>
    let f := (fmtOfCode (attrFmt attr)).getD .raw
    let (soff, s) := s.soff die asid
    (if f = .raw || (packedFmt o.ty).isSome then [] else scaleReads soff f (attrGeo attr) (va56 c.a) (enabledLanes o.ty c.guard), s)
  | _ => ([], s)

/-- Offset at which the `i`-th scale read of a VLDG counts. -/
def scaleOff (i : Nat) : Nat := 65536 + 256 * i

/-- Translate the scale reads, each with the offset of its pieces. -/
def State.scalePages (s : State) (w : Waiter) (die asid : Nat) : List ((Word × Nat) × Nat) → Except (Option Cond) (List (Nat × Piece)) × State
  | [] => (.ok [], s)
  | (want, i) :: rest =>
    if !canonical want.1 then (.error (some { nonCanonical 2 with badaddr := some want.1 }), s)
    else match s.paged w die asid (va56 want.1) want.2 2 with
      | (.wait, s) => (.error none, s)
      | (.fault e, s) => (.error (some e), s)
      | (.ok l, s) => match s.scalePages w die asid rest with
        | (.ok m, s) => (.ok ((l.map fun p => (scaleOff i + (p.va - va56 want.1), p)) ++ m), s)
        | r => r

/-- Split the translated pieces into the parts that perform, one for each page; each has a delay of its own. -/
def State.makeParts (s : State) (key : Option Nat) (write : Bool) : List (Nat × Piece) → List Part × State
  | [] => ([], s)
  | (off, p) :: rest =>
    let (k, s) := s.draw
    let (l, s) := s.makeParts key write rest
    (⟨off, p.va, p.len, p.pa, key, p.attr.extractLsb' 7 2, write, s.now + 1 + Config.performDelay k⟩ :: l, s)

/-- The translation level a load sample records: 4 after a page request (R393). -/
def sampleXlat (l : List Piece) (answers : Nat) : Nat := if 0 < answers then 4 else l.foldl (fun m p => max m p.level) 0

/-- The serving level a load sample records (R393). -/
def State.servingLevel (s : State) (die pa : Nat) : Nat :=
  let held := fun d => match s.line d pa with
    | some l => l.valid.getLsbD (pa % 512 / 128)
    | none => false
  if held die then 0
  else if (List.range 4).any held then 1
  else match s.homeOf pa with
    | .hbm k _ => if k / 2 = die then 2 else 3
    | .ddr .. => 4
    | .host _ => 5

/-- Whether a watchpoint covers a piece of an access (R396). -/
def State.watched (s : State) (x : Unit) (c : Cmd) (l : List Piece) : Bool :=
  let t := s.tell (dieOf x.core)
  !c.skipWatch && l.any fun p => t.watches x.asid p.va p.len (lsuReads c.op) (decide (lsuRight c.op = .w))

/-- A translated operation: its parts are to perform. -/
def State.lsuTaken (s : State) (u n : Nat) (x : Unit) (c : Cmd) (l : List Piece) (sc : List (Nat × Piece)) : State :=
  let (key, s) := s.keyOf (dieOf x.core) x.asid
  let (parts, s) := s.makeParts key (decide (lsuRight c.op = .w)) ((l.map fun p => (p.va - va56 c.a, p)) ++ sc)
  let sample := c.sample.map fun y => (y.1, sampleXlat l (s.answersOf (.lsuAccessStart u n)), s.now - c.started, y.2.2.2)
  (s.forget (.lsuAccessStart u n)).onCmd u .lsu n fun c => { c with
    stage := .taken, parts, bound := [], begun := false, skipWatch := false, attr := (l.head?.map (·.attr)).getD 0, due := s.now, sample }

/-- LSU_ACCESS_START: the LSU takes the operation from its queue, translates all of it and checks watchpoints. -/
def State.lsuStart (s : State) (u n : Nat) (x : Unit) (c : Cmd) : State :=
  let s := if c.waiting then s.takeCmd u .lsu n fun c => { c with stage := .paged } else s
  let c := (s.cmd u .lsu n).getD c
  let w : Waiter := ⟨.lsuAccessStart u n, lsuRight c.op, some x.core⟩
  match s.lsuPages w x.core x.asid c with
  | (.fault e, s) => s.engineFault u .lsu n e
  | (.wait, s) => s
  | (.ok l, s) =>
    let (want, s) := s.scaleWant (dieOf x.core) x.asid c ((l.head?.map (·.attr)).getD 0)
    match s.scalePages w (dieOf x.core) x.asid want.zipIdx with
    | (.error none, s) => s
    | (.error (some e), s) => s.engineFault u .lsu n e
    | (.ok sc, s) =>
      if s.watched x c (l ++ sc.map (·.2)) then s.engineFault u .lsu n (watchpoint (lsuOrigin c.op)) else s.lsuTaken u n x c l sc

/-! ### The order of one context's accesses (R319, R321) -/

/-- Whether an operation is a release now: a failed AMOCAS is none (R323, R342). -/
def State.releasesNow (s : State) (c : Cmd) (p : Part) : Bool :=
  c.release && match c.op with
    | .amocas o => decide (leNat (s.peek p.pa (amoSize o) (s.keyValue p.key)) = c.c.toNat % 2 ^ (8 * amoSize o))
    | _ => true

/-- Whether an earlier operation `a` that has not performed whole is ordered before part `p` of `c`. One whose
pages are not known, a faulted one among them, orders every later access to a page that is not UN. -/
def State.holdsBack (s : State) (a c : Cmd) (p : Part) : Bool :=
  if a.stage = .effected then false
  else if a.acquire || s.releasesNow c p then true
  else if a.parts.isEmpty then decide (p.ord.toNat ≤ 1)
  else a.parts.any fun q =>
    let k := max q.ord.toNat p.ord.toNat
    decide (k = 0) || (decide (k = 1) && overlaps q.pa q.len p.pa p.len)

/-- The parts of an operation that may perform now. -/
def State.readyParts (s : State) (x : Unit) (c : Cmd) : List Part :=
  let earlier := x.cmds.filter fun a => decide (a.eng = .lsu) && decide (a.n < c.n)
  if x.lsuOpenTo c.after || x.lsuOpenTo c.fenced || decide (c.stage ≠ .taken) then []
  else c.parts.filter fun p =>
    decide (p.due ≤ s.now) && !(earlier.any fun a => s.holdsBack a c p)
      && !(c.parts.any fun q => decide (q.off < p.off) && decide (q.ord = 0) && decide (p.ord = 0))

/-! ### Performing (R315, R316) -/

/-- Bytes stored over a range at one instant, each in the bits of its mask. -/
def State.storeMasked (s : State) (die pa : Nat) (l : List (Byte × Byte)) (key : Option Nat) : Bool × State :=
  let r := (sectorPieces pa l.length).foldl (fun (acc : Bool × List (Byte × Byte) × State) p =>
    let now := acc.2.1.take p.2
    let rest := acc.2.1.drop p.2
    if now.all fun x => x.2 == 0 then (acc.1, rest, acc.2.2)
    else if now.all fun x => x.2 == 0xFF then
      let (e, t) := acc.2.2.writePhys die p.1 (now.map (·.1)) key
      (acc.1 || e, rest, t)
    else
      let (g, t) := acc.2.2.readPhys die p.1 p.2 key
      let (e, t) := t.writePhys die p.1 ((g.data.zip now).map fun y => (y.1 &&& ~~~y.2.2) ||| (y.2.1 &&& y.2.2)) key
      (acc.1 || e, rest, t)) (false, l, s)
  (r.1, r.2.2)

/-- The bytes that a store puts at its address, with their masks. -/
def storeBytesOf (c : Cmd) : List (Byte × Byte) × Flags :=
  match c.op with
  | .stg o => ((leBytes c.b.toNat (stSize o.sz)).map fun b => (b, 0xFF), 0)
  | .vstg o => vstgBytes o ((fmtOfCode (attrFmt c.attr)).getD .raw) c.seed c.guard c.vec
  | _ => ([], 0)

/-- Count the sector accesses of an access for the reuse histograms (R394). -/
def State.touch (s : State) (l die pa n : Nat) : State :=
  (sectorPieces pa n).foldl (fun s p => s.reuseAccess l die p.1) s

/-- A part has performed: its bytes are bound. -/
def Cmd.performed (c : Cmd) (p : Part) (b : List Byte) : Cmd :=
  { c with
    parts := c.parts.filter fun q => !decide (q.off = p.off)
    begun := true
    bound := c.bound ++ b.zipIdx.map fun y => (p.off + y.2, y.1) }

/-- One part performs: loads bind their bytes, stores write theirs, atomics do both. -/
def State.performPart (s : State) (u : Nat) (x : Unit) (c : Cmd) (p : Part) : State :=
  let die := dieOf x.core
  let level := s.servingLevel die p.pa
  let s := if p.off = 0 then s.onCmd u .lsu c.n fun c => { c with sample := c.sample.map fun y => (y.1, y.2.1, y.2.2.1, level) } else s
  let s := s.touch x.launch die p.pa p.len
  let bad := fun (s : State) => s.engineFault u .lsu c.n (dataError (lsuOrigin c.op))
  let done := fun (s : State) (b : List Byte) => s.onCmd u .lsu c.n fun c => c.performed p b
  match c.op with
  | .stg _ | .vstg _ =>
    let (st, fl) := storeBytesOf c
    let (err, s) := s.storeMasked die p.pa ((st.drop p.off).take p.len) p.key
    if err then bad s else done (s.raiseFlags u fl) []
  | i =>
    let (g, s) := s.readPhys die p.pa p.len p.key
    if g.err then bad s
    else match amoKind i with
      | none => done s g.data
      | some (k, o) =>
        let bits := 8 * amoSize o
        let (v, fl) := amoResult k bits (leNat g.data) (c.b.toNat % 2 ^ bits) (c.c.toNat % 2 ^ bits)
        let (err, s) := match v with
          | some y => s.writePhys die p.pa (leBytes y (amoSize o)) p.key
          | none => (false, s)
        if err then bad s else (done s g.data).onCmd u .lsu c.n fun c => { c with flags := fl }

/-- Every part that may perform does so. -/
def State.performReady (s : State) (u n : Nat) : State :=
  match s.unit u with
  | some x => match x.cmd .lsu n with
    | some c => (s.readyParts x c).foldl (fun s p =>
        match s.cmd u .lsu n with
        | some c => if c.stage = .taken then s.performPart u x c p else s
        | none => s) s
    | none => s
  | none => s

/-- `n` bytes bound from an offset up. -/
def Cmd.boundFrom (c : Cmd) (off n : Nat) : List Byte :=
  (List.range n).map fun i => ((c.bound.find? fun b => decide (b.1 = off + i)).map (·.2)).getD 0

/-- The data bytes bound, in address order. -/
def Cmd.data (c : Cmd) : List Byte := c.boundFrom 0 (c.bound.filter fun b => decide (b.1 < 65536)).length

/-- The register value of a load whose bytes are all bound: into its landing buffer. -/
def State.bindLoad (s : State) (u : Nat) (x : Unit) (c : Cmd) : State :=
  let ready := fun (s : State) (v : VWord) (en : PWord) (fl : Flags) =>
    let s := s.onCmd u .lsu c.n fun c => { c with stage := .effected }
    match c.land with
    | some id => s.landReady u id s.now v en fl
    | none => (s.raiseFlags u fl).finish u .lsu c.n
  match c.op with
  | .vldg o =>
    let f := (fmtOfCode (attrFmt c.attr)).getD .raw
    let geo := attrGeo c.attr
    let va := va56 c.a
    let (soff, s) := s.soff (dieOf x.core) x.asid
    let (want, s) := s.scaleWant (dieOf x.core) x.asid c c.attr
    match vldgValue o f geo c.tabA c.seed c.guard soff va c.data (want.zipIdx.map fun y => (y.1.1, c.boundFrom (scaleOff y.2) y.1.2)) with
    | some (v, fl) => ready s v (laneMask o.ty c.guard) fl
    | none => s.engineFault u .lsu c.n { blockMap 2 with badaddr := some c.a }
  | .ldg o => ready s ((ldValue o.sz c.data).setWidth 2048) allLanes 0
  | _ => ready s (BitVec.ofNat 2048 (leNat c.data)) allLanes c.flags

/-- After parts have performed: a store completes, a load or an atomic goes to its landing. -/
def State.lsuSettle (s : State) (u n : Nat) : State :=
  match s.unit u with
  | some x => match x.cmd .lsu n with
    | some c =>
      if c.stage = .taken && c.parts.isEmpty then
        if lsuReads c.op then s.bindLoad u x c else s.finish u .lsu n
      else s
    | none => s
  | none => s

/-- Write the record of a tagged load as it completes (R393). -/
def State.sampleDone (s : State) (u : Nat) (c : Cmd) : State :=
  match c.sample, s.unit u with
  | some (issue, xlat, hop0, level), some x =>
    s.loadSample x.core x.ctx (s.bankOf u).csr.unitid.toNat issue c.pc (va56 c.a) level xlat hop0
  | _, _ => s

/-- LANDING_BUFFER_WRITE (R145): a load whose parts may perform performs them; a landing that is ready writes its register,
once no fixed-latency write to it is in flight, and completes the LSU operation behind it. -/
def execLandingBufferWrite (u id : Nat) (s : State) : Res :=
  let s := match s.landing u id with
    | some l => match l.ready, l.eng with
      | none, some (.lsu, n) => (s.performReady u n).lsuSettle u n
      | _, _ => s
    | none => s
  .next (match s.landing u id with
    | some l => match l.ready with
      | some (v, en, fl) =>
        if s.landBlocked u l || decide (s.now < l.due) then s
        else
          let s := s.writeLanding u l v en fl
          match l.eng with
          | some (.lsu, n) => match s.cmd u .lsu n with
            | some c => (s.sampleDone u c).finish u .lsu n
            | none => s.finish u .lsu n
          | some (e, n) => s.finish u e n
          | none => s
      | none => s
    | none => s)

/-- STORE_PERFORM_AT_HOME (R315): a store, an atomic, or a load to s0 performs; a store completes. -/
def execStorePerformAtHome (u n : Nat) (s : State) : Res :=
  let before := s.cmd u .lsu n
  let s := (s.performReady u n).lsuSettle u n
  .next (match before with
    | some c => if c.land.isNone && lsuReads c.op && (s.cmd u .lsu n).isNone then s.sampleDone u c else s
    | none => s)

/-! ### Instruction cache: fills and locks (R110 to R114) -/

def icSet (va : Nat) : Nat := va / 512 % 32

/-- Put a line into its set: an unlocked way, the least recently used, goes when the four ways are taken. -/
def Core.installLine (x : Core) (l : ILine) : Core :=
  let others := x.icache.filter fun y => !(decide (y.va = l.va) && decide (y.asid = l.asid))
  let set := others.filter fun y => decide (icSet y.va = icSet l.va)
  let free := set.filter fun y => y.lock.isNone
  let victim := if set.length < 4 then none
    else free.foldl (fun (m : Option ILine) y => match m with
      | none => some y
      | some z => if y.used < z.used then some y else m) none
  let kept := match victim with
    | some v => others.filter fun y => y != v
    | none => others
  let y := x.loseCapture fun z => decide (some z = victim)
  { y with icache := if set.length < 4 || victim.isSome then kept ++ [l] else others }

/-- Read the sectors of a line of instruction memory through L2, from the one that is missing upward and round (R110): the line's bytes
and the sectors that hold no error. -/
def State.readLine (s : State) (launch die pa first : Nat) (key : Option Nat) : List Byte × BitVec 8 × State :=
  (List.range 8).foldl (fun acc j =>
    let i := (first + j) % 8
    let (g, t) := (acc.2.2.touch launch die (pa + 64 * i) 64).readPhys die (pa + 64 * i) 64 key
    (setBytes acc.1 (64 * i) g.data, (if g.err then acc.2.1 else acc.2.1 ||| BitVec.twoPow 8 i), t)) (List.replicate 512 0, 0, s)

/-- Fill the line of an address for a core. -/
def State.fillLine (s : State) (c launch asid va : Nat) (e : TlbEntry) : State :=
  let base := va / 512 * 512
  let (key, s) := s.keyOf (dieOf c) asid
  let (b, valid, s) := s.readLine launch (dieOf c) (e.phys base) (va % 512 / 64) key
  s.onCore c fun x =>
    let lock := (x.line asid va).bind (·.lock)
    let y := x.installLine ⟨base, asid, valid, b, lock, s.now⟩
    { y with ctxs := y.ctxs.map fun z => z.noteAt s.now (.sector va) }

/-- Whose fetch an IFETCH_FILL is: that of the unit resident in context `k`, or, tried again after a walk or a page request, that of unit
`k − 4`, wherever it is resident. A page request of a fetch belongs to the unit (R75). -/
def State.fetcher (s : State) (c k : Nat) : Option (Nat × Nat) :=
  if k < 4 then (s.ctx c k).unit.map fun u => (k, u)
  else ([0, 1, 2, 3].find? fun j => decide ((s.ctx c j).unit = some (k - 4))).map fun j => (j, k - 4)

/-- The event by which a fetch of a unit tries again. -/
def fetchEvent (c u : Nat) : Event := .ifetchFill c (4 + u)

/-- IFETCH_FILL (R110, R111): the sector that a context waits for is translated and its line filled, or the fetch faults. -/
def execIfetchFill (c k : Nat) (s : State) : Res :=
  .next (match s.fetcher c k with
  | none => s
  | some (k, u) => match s.fetched c k with
    | .missing va =>
      let asid := (s.ctx c k).csr.asidcur.toNat
      let stop := fun (s : State) (d : Cond) => s.onCtx c k fun y => { y with
        fetchFault := put y.fetchFault (sectorOf va) { d with badaddr := some (vaWord va) }, fetching := none }
      match s.access ⟨fetchEvent c u, .x, some c⟩ (dieOf c) asid va with
      | (.wait, s) => s
      | (.fault kind sub _, s) => stop s (condAt 0 kind sub)
      | (.ok e _, s) =>
        let s := (s.fillLine c (s.launchOf u) asid va e).forget (fetchEvent c u)
        if ((s.core c).fetchByte asid va).isSome then s.onCtx c k fun y => { y with fetching := none }
        else stop s { dataError 0 with badaddr := none }
    | _ => s.onCtx c k fun y => { y with fetching := none })

/-- Lines locked in a core, in one set of it, and by one unit. -/
def Core.lockedIn (x : Core) (p : ILine → Bool) : Nat := (x.icache.filter fun l => l.lock.isSome && p l).length

def ILine.lockFor (l : ILine) (u asid va : Nat) : ILine :=
  if l.va = va / 512 * 512 ∧ l.asid = asid then { l with lock := some u } else l
def State.lockAt (s : State) (c u asid va : Nat) : State :=
  s.onCore c fun x => { x with icache := x.icache.map fun l => l.lockFor u asid va }

/-- One line of ICLK: the count, whether it halted, and the state. -/
def State.lockLine (s : State) (c u asid : Nat) (a : Word) (acc : Nat × Bool) : (Nat × Bool) × State :=
  if acc.2 then (acc, s)
  else
    let va := va56 a
    let x := s.core c
    match (x.line asid va).bind (·.lock) with
    | some v => (if v = u then (acc.1 + 1, false) else acc, s)
    | none =>
      if !canonical a then ((acc.1, true), s)
      else match s.xlate (some c) (dieOf c) asid va .x with
        | (.ok e _, s) =>
          if decide (32 ≤ (s.core c).lockedIn fun _ => true) || decide (3 ≤ (s.core c).lockedIn fun l => decide (icSet l.va = icSet va)) then
            (acc, s)
          else
            let full := ((s.core c).line asid va).any (fun l => l.valid == 0xFF)
            let s := if full then s else s.fillLine c (s.launchOf u) asid va e
            ((acc.1 + 1, false), s.lockAt c u asid va)
        | (_, s) => ((acc.1, true), s)

/-- ICLK (R113). -/
def execIclk (d : Fin 32) (a b : Src) : State → Res := slotOp false fun s => do
  let x ← s.srcS a
  let y ← s.srcS b
  if !canonical x then .error { nonCanonical 1 with badaddr := some x }
  else
    let n := min y.toNat 128
    let line := x &&& ~~~511#64
    let c := s.iss.core
    let asid := s.me.csr.asidcur.toNat
    let r := (List.range n).foldl (fun (acc : (Nat × Bool) × State) i =>
      acc.2.lockLine c s.myUnit asid (line + BitVec.ofNat 64 (512 * i)) acc.1) ((0, false), s)
    let (k, s) := r.2.draw
    let (id, s) := s.takeLanding .s d.val none
    pure (s.landReady s.myUnit id (s.now + 1 + Config.fillDelay k) (BitVec.ofNat 2048 r.1.1) allLanes 0)

/-- IUNLK (R114): the locks are released at the end of this core cycle. -/
def execIunlk (a b : Src) : State → Res := slotOp true fun s => do
  let x ← s.srcS a
  let y ← s.srcS b
  pure (s.onMyCore fun z => { z with unlocks := z.unlocks ++ [(s.myUnit, va56 (x &&& ~~~511#64), y.toNat)] })

/-- LSU_ACCESS_START (R338, R415). -/
def execLsuAccessStart (u n : Nat) (s : State) : Res :=
  match s.unit u with
  | some x => match x.cmd .lsu n with
    | some c => .next (if c.waiting || c.stage = .paged then s.lsuStart u n x c else s)
    | none => .next s
  | none => .next s

end Sys2Proof.Machine
end

