-- ==== Sys2Proof/Machine/Queues.lean ====
section
/-! DEFINITION. The operand queues: slots, presence, reclaim, open slots, splices, the queue instructions, VCPUSH and VCPOP
(R155 to R174, R222, R223, R403). -/
namespace Sys2Proof.Machine

/-! ### Slots (R155 to R159) -/

def Queue.slots (q : Queue) : Nat := 2 ^ q.log2n.toNat
def Queue.slotBytes (q : Queue) : Nat := (q.slotsz.toNat + 1) * 256
/-- Slot number of a counter value. -/
def Queue.slotOf (q : Queue) (x : BitVec 16) : Nat := x.toNat % q.slots
def Queue.slotAddr (q : Queue) (x : BitVec 16) : Nat := q.base.toNat + q.slotOf x * q.slotBytes
def Queue.depth (q : Queue) : Nat := (q.tail - q.head).toNat
def Queue.occupancy (q : Queue) : Nat := (q.tail - q.free).toNat
def Queue.present (q : Queue) (x : BitVec 16) : Bool := q.pres.getLsbD (q.slotOf x)
def Queue.tagOf (q : Queue) (x : BitVec 16) : Nat := (q.tags.extractLsb' (6 * q.slotOf x) 6).toNat

/-- Tag and presence of a slot. -/
def Queue.setSlot (q : Queue) (x : BitVec 16) (tag : Nat) : Queue :=
  let i := q.slotOf x
  let m : BitVec 1536 := BitVec.ofNat 1536 (63 * 2 ^ (6 * i))
  { q with pres := q.pres ||| BitVec.twoPow 256 i, tags := (q.tags &&& ~~~m) ||| BitVec.ofNat 1536 (tag % 64 * 2 ^ (6 * i)) }

/-- FREE advances past popped slots that are present and not being read, clearing their presence (R159). -/
def Queue.reclaim (q : Queue) (held : BitVec 16 → Bool) : Nat → Queue
  | 0 => q
  | n + 1 =>
    if q.free != q.head && q.present q.free && !held q.free then
      ({ q with pres := q.pres &&& ~~~(BitVec.twoPow 256 (q.slotOf q.free)), free := q.free + 1 } : Queue).reclaim held n
    else q

/-! ### Splice messages (R8, R162, R163) -/

/-- Core-to-core steps between two cores; a die edge counts as 24. -/
def meshSteps (a b : Nat) : Nat :=
  let x := fun c => dieOf c % 2 * 16 + colOf c
  let y := fun c => dieOf c / 2 * 8 + rowOf c
  let d := fun (m n : Nat) => (m - n) + (n - m)
  let edges := d (dieOf a % 2) (dieOf b % 2) + d (dieOf a / 2) (dieOf b / 2)
  d (x a) (x b) + d (y a) (y b) + 23 * edges

/-- Messages that use the mesh between cores for splices. -/
def onMesh : Event → Bool
  | .spliceRequestArrive .. => true
  | .spliceAnswerArrive .. => true
  | .spliceHeaderArrive .. => true
  | .spliceRowArrive _ => true
  | .headReportArrive .. => true
  | .deliveryAckArrive _ => true
  | .spliceEndMarkerArrive _ => true
  | .spliceTargetEnd .. => true
  | _ => false

/-- Messages of which one is sent each core cycle: the rows of a splice, and the head reports to a sender. -/
def oneEach : Event → Event → Bool
  | .spliceRowArrive m, .spliceRowArrive n => decide (m.tgt = n.tgt)
  | .headReportArrive a _, .headReportArrive b _ => decide (a = b)
  | _, _ => false

/-- Send a splice message at the end of core cycle `base`; it follows the messages that a test names. Only other traffic of the mesh
can delay it. -/
def State.meshFrom (s : State) (base src dst extra : Nat) (follows : Event → Bool) (e : Event) : State :=
  let (n, s) := s.draw
  let t := base + 2 + meshSteps src dst + extra
  let t := if s.agenda.any fun x => onMesh x.2 && !follows x.2 then t + Config.meshDelay n else t
  s.at_ ((s.agenda.filter fun x => follows x.2).foldl (fun t x => max t (x.1 + (if oneEach x.2 e then 1 else 0))) t) e

/-- Send a splice message at the end of this core cycle. -/
def State.mesh (s : State) (src dst extra : Nat) (follows : Event → Bool) (e : Event) : State :=
  s.meshFrom s.now src dst extra follows e

def State.coreOf (s : State) (u : Nat) : Nat := ((s.unit u).map (·.core)).getD 0

/-- Messages of a splice from its sender to its target, which stay in order. -/
def ofSplice (tgt : QEnd) : Event → Bool
  | .spliceHeaderArrive t _ => decide (t = tgt)
  | .spliceRowArrive m => decide (m.tgt = tgt)
  | .spliceEndMarkerArrive t => decide (t = tgt)
  | _ => false

/-- Messages of a splice from its target to its sender, which stay in order. -/
def toSender (snd : QEnd) : Event → Bool
  | .spliceAnswerArrive t _ _ _ _ _ => decide (t = snd)
  | .headReportArrive t _ => decide (t = snd)
  | .spliceTargetEnd t _ => decide (t = snd)
  | _ => false

/-- Report the FREE of a queue to its sender, at the end of core cycle `base`, when it has advanced since the last report. -/
def State.reportHead (s : State) (base u q : Nat) : State :=
  match s.unit u with
  | some x => match x.spliceIn.find? fun y => decide (y.1 = q) with
    | some (_, snd) =>
      let free := ((s.bankOf u).queue q).free
      if find x.reported q = some free then s
      else (s.onUnit u fun x => { x with reported := put x.reported q free }).meshFrom base x.core snd.core 0 (toSender snd)
        (.headReportArrive snd free)
    | none => s
  | none => s

def localDesc (d : MDesc) : List (Nat × Nat) := if d.rem then [] else [(d.queue.val, d.off.val)]

/-- Queue sources of a syllable with their head offsets (R158). -/
def queueOffsets : Instr → List (Nat × Nat)
  | .qrd o => [(o.q.val, o.k.val)]
  | .vcpop o => [(o.q.val, o.k.val)]
  | .cpst o => [(o.q.val, o.k.val)]
  | .accwr o => [(o.q.val, o.off.val)]
  | .mma o => localDesc o.da ++ localDesc o.db
  | .pmma o => localDesc o.da ++ localDesc o.db
  | _ => []

/-- Reads of a queue that the bundle now issuing has still to register: they resolve against the head at its entry (R144). -/
def Issue.comingReads (i : Issue) : List (Nat × BitVec 16) :=
  i.slots.flatMap fun p => match p.syl with
    | .op j => if i.done.getLsbD p.slot.index then [] else (queueOffsets j).map fun r => (r.1, (i.entry.queue r.1).head + BitVec.ofNat 16 r.2)
    | _ => []

/-- Reclaim what can be reclaimed of a queue of a unit. -/
def State.reclaim (s : State) (u q : Nat) : State :=
  let old := (s.bankOf u).queue q
  let coming := if (s.ctx s.iss.core s.iss.ctx).unit = some u then s.iss.comingReads else []
  let reads := ((s.unit u).map (·.qreads)).getD [] ++ coming
  let new := old.reclaim (fun x => reads.contains (q, x)) 256
  if new.free = old.free then s
  else (s.onBank u fun x => x.setQueue q new).note u (.free q (new.free - old.free).toNat)

/-- The content of a slot is complete: tag and presence set (R159). -/
def State.closeSlot (s : State) (u q : Nat) (ctr : BitVec 16) (tag : Nat) : State :=
  let slot := ((s.bankOf u).queue q).slotOf ctr
  ((s.onBank u fun x => x.setQueue q ((x.queue q).setSlot ctr tag)).note u (.pres q slot)).reclaim u q

/-- Register and finish a read of a slot by an engine (R159). -/
def State.holdSlot (s : State) (u q : Nat) (ctr : BitVec 16) : State := s.onUnit u fun x => { x with qreads := x.qreads ++ [(q, ctr)] }
def State.releaseSlot (s : State) (u q : Nat) (ctr : BitVec 16) : State :=
  (s.onUnit u fun x => { x with qreads := x.qreads.erase (q, ctr) }).reclaim u q

/-! ### Appends (R158, R161, R162, R164) -/

def appendCheck (q : Queue) : Except Cond PUnit :=
  if !q.cfg then .error (queueConfiguration 4)
  else if q.spi then .error splicedQueue
  else if q.ref != 0 then .error spliceRefused
  else .ok ⟨⟩

/-- Reserve a slot for an append of the issuing context: its counter, and the target under an outgoing splice. -/
def State.reserve (s : State) (q : Nat) : (BitVec 16 × Option QEnd) × State :=
  let y := s.me.queue q
  let tgt := if y.spo then ((s.unit s.myUnit).bind fun x => x.spliceOut.find? fun o => decide (o.1 = q)).map (·.2.1) else none
  match tgt with
  | some t =>
    let s := s.onMe fun x => x.setQueue q { y with stail := y.stail + 1 }
    ((y.stail, some t), s.mesh s.iss.core t.core 0 (ofSplice t) (.spliceHeaderArrive t y.stail))
  | none => ((y.tail, none), s.onMe fun x => x.setQueue q { y with tail := y.tail + 1 })

/-- The counter and target of the open slot. -/
def State.openSlotOf (s : State) (q : Nat) : BitVec 16 × Option QEnd :=
  let y := s.me.queue q
  let tgt := if y.spo then ((s.unit s.myUnit).bind fun x => x.spliceOut.find? fun o => decide (o.1 = q)).map (·.2.1) else none
  match tgt with
  | some t => (y.stail - 1, some t)
  | none => (y.tail - 1, none)

/-- Bytes that an issue-pipeline append puts `off` bytes into its slot; `close` completes the slot. Under a splice `counted` makes it a
delivery of its own (R164). -/
def State.appendBytes (s : State) (q : Nat) (slot : BitVec 16 × Option QEnd) (off : Nat) (data : List Byte) (close : Bool) (tag : Nat)
    (counted : Bool := true) : State :=
  match slot.2 with
  | none =>
    let a := (s.me.queue q).slotAddr slot.1 + off
    let s := s.onMyCore fun x => x.storeBytes a data
    if close then s.closeSlot s.myUnit q slot.1 tag else s
  | some t =>
    let s := if counted then s.onMyUnit fun x => { x with deliveries := x.deliveries + 1 } else s
    s.mesh s.iss.core t.core 1 (ofSplice t)
      (.spliceRowArrive { tgt := t, snd := ⟨s.myUnit, q, s.iss.core⟩, ctr := slot.1, off, data, close, tag := BitVec.ofNat 6 tag, eng := none, ack := counted })

/-- Rows of at most 256 bytes, each with its offset. -/
def rowsOf (off : Nat) (data : List Byte) : Nat → List (Nat × List Byte)
  | 0 => []
  | n + 1 => if data.isEmpty then [] else (off, data.take 256) :: rowsOf (off + 256) (data.drop 256) n

/-- An engine fills the slot that command `c` of unit `u` reserved in queue `q`, segment by segment, and closes it: the command
completes at the slot's presence, at the target under a splice (R164, R305). -/
def State.engineFill (s : State) (u : Nat) (c : Cmd) (q : Nat) (segs : List (Nat × List Byte)) (tag : Nat) : State :=
  match c.splice with
  | none =>
    let a := ((s.bankOf u).queue q).slotAddr c.ctr
    ((s.onCore (s.coreOf u) fun x => segs.foldl (fun x g => x.putBytes (a + g.1) g.2) x).closeSlot u q c.ctr tag).finish u c.eng c.n
  | some t =>
    let rows := segs.flatMap fun g => rowsOf g.1 g.2 256
    let last := rows.length - 1
    let s := s.onCmd u c.eng c.n fun c => { c with stage := .effected }
    rows.zipIdx.foldl (fun s r =>
      s.mesh (s.coreOf u) t.core (1 + r.2) (ofSplice t)
        (.spliceRowArrive {
          tgt := t, snd := ⟨u, q, s.coreOf u⟩, ctr := c.ctr, off := r.1.1, data := r.1.2, close := decide (r.2 = last),
          tag := BitVec.ofNat 6 tag, eng := some (c.eng, c.n), ack := false })) s

/-- The slot that a dropped or cancelled command reserved: presence, its bytes as they stand, tag 0 (R370). -/
def State.abandonSlot (s : State) (u : Nat) (c : Cmd) (q : Nat) : State :=
  match c.splice with
  | none => s.closeSlot u q c.ctr 0
  | some t =>
    s.mesh (s.coreOf u) t.core 1 (ofSplice t)
      (.spliceRowArrive { tgt := t, snd := ⟨u, q, s.coreOf u⟩, ctr := c.ctr, off := 0, data := [], close := true, tag := 0, eng := some (c.eng, c.n), ack := false })

/-- Pop `n` slots of a queue of the issuing context. -/
def State.popQueue (s : State) (q n : Nat) : State :=
  (s.onMe fun x => x.setQueue q { x.queue q with head := (x.queue q).head + BitVec.ofNat 16 n }).reclaim s.myUnit q

/-- Checks of a source or pop, and the counter of the slot at head offset k as the head stood at bundle entry (R144, R164). -/
def State.queueSource (s : State) (q k : Nat) : Except Cond (BitVec 16) :=
  let y := s.iss.entry.queue q
  if !y.cfg then .error (queueConfiguration 4)
  else if y.spo then .error splicedQueue
  else .ok (y.head + BitVec.ofNat 16 k)

/-! ### QCFG, QPOP, QRD, QWR (R168 to R171) -/

def execQcfg (o : QcfgOp) : State → Res := slotOp true fun s => do
  let y := s.iss.entry.queue o.q.val
  if y.spo || y.spi || y.opn || y.ref != 0 || (y.cfg && y.tail != y.free) then .error queueBusy
  else
    let a ← s.srcS o.a
    let base := o.base256.toNat * 256 + a.toNat
    let bytes := 2 ^ o.log2n.toNat * (o.slotsz.toNat + 1) * 256
    if base % 256 ≠ 0 ∨ spmSize < base + bytes ∨ 8 < o.log2n.toNat then .error (queueConfiguration 4)
    else pure (s.onMe fun x => x.setQueue o.q.val { x.queue o.q.val with
      cfg := true, base := BitVec.ofNat 22 base, slotsz := o.slotsz, log2n := o.log2n, rx := o.rx, head := 0, free := 0,
      tail := 0, pres := 0, tags := 0, fill := 0 })

def execQpop (q : Fin 16) (n : BitVec 8) : State → Res := slotOp true fun s => do
  let _ ← s.queueSource q.val 0
  pure (s.popQueue q.val (n.toNat + 1))

def execQrd (o : QrdOp) : State → Res := slotOp true fun s => do
  let ctr ← s.queueSource o.q.val o.k.val
  let y := s.iss.entry.queue o.q.val
  let a ← s.srcS o.a
  let r := a.toNat + o.row.toNat
  if y.slotsz.toNat < r then .error rowRange
  else
    let addr := y.slotAddr ctr + 256 * r
    let b ← s.myCore.load 4 addr 256
    let s := s.writeNoLatch .v o.d.val (bytesV b) 8
    pure (if o.pop then s.popQueue o.q.val 1 else s)

def execQwr (o : QwrOp) : State → Res := slotOp true fun s => do
  let q := o.q.val
  let y := s.iss.entry.queue q
  appendCheck y
  if (o.o && y.opn) || (!o.o && !y.opn) || (y.opn && y.okind) then .error openSlot
  else
    let a ← s.srcS o.a
    let r := a.toNat + o.row.toNat
    if y.slotsz.toNat < r then .error rowRange
    else
      let v ← s.srcV o.b
      let (slot, s) := if o.o then s.reserve q else (s.openSlotOf q, s)
      let s := s.onMe fun x => x.setQueue q { x.queue q with opn := !o.c, okind := false }
      pure (s.appendBytes q slot (256 * r) (vbytes v) o.c o.tag.toNat)

/-! ### QSPL and QUNS (R161, R165, R172) -/

def execQspl (q : Fin 16) (a : Src) : State → Res := slotOp true fun s => do
  let y := s.iss.entry.queue q.val
  let w ← s.srcS a
  if !y.cfg then .error (queueConfiguration 4)
  else if y.spo || y.spi || y.opn || y.head != y.free || y.free != y.tail then .error queueBusy
  else
    let s := s.onMe fun x => x.setQueue q.val { x.queue q.val with sptgt := w.setWidth 15, ref := 0 }
    let s := s.onMyUnit fun x => { x with asking := x.asking ++ [q.val], deliveries := x.deliveries + 1 }
    pure (s.mesh s.iss.core (w.toNat % 512) 0 (fun _ => false) (.spliceRequestArrive ⟨s.myUnit, q.val, s.iss.core⟩ w y.slotsz))

def execQuns (q : Fin 16) : State → Res := slotOp true fun s =>
  let y := s.iss.entry.queue q.val
  if y.spo && y.opn then .error queueBusy
  else
    let out := (s.unit s.myUnit).bind fun x => x.spliceOut.find? fun o => decide (o.1 = q.val)
    let s := s.onMe fun x => x.setQueue q.val { x.queue q.val with spo := false, ref := 0 }
    .ok (match out with
      | some (_, t, _) =>
        s.onMyUnit fun x => { x with spliceOut := x.spliceOut.filter (fun o => !decide (o.1 = q.val)), marks := x.marks ++ [t] }
      | none => s)

/-- What a unit's queues send at the end of a core cycle: head reports, and the end markers that have no reserved delivery before them
any more (R162, R165). -/
def State.queueReports (s : State) (u : Nat) (x : Unit) : State :=
  let s := x.spliceIn.foldl (fun s i => s.reportHead s.now u i.1) s
  let open_ := fun (t : QEnd) => x.cmds.any fun c => decide (c.splice = some t) && decide (c.stage ≠ .effected)
  let go := x.marks.filter fun t => !open_ t
  if go.isEmpty then s
  else go.foldl (fun s t => s.mesh x.core t.core 0 (ofSplice t) (.spliceEndMarkerArrive t))
    (s.onUnit u fun y => { y with marks := y.marks.filter open_ })

/-! ### QSAVE, QREST, QSTAT (R173, R174) -/

/-- Local address of a queue image or status word. -/
def queueAddr (a : Word) (imm : BitVec 13) (size : Nat) : Except Cond Nat :=
  let x := (a.toNat : Int) + imm.toInt
  if x < 0 ∨ x % size ≠ 0 ∨ (spmSize : Int) < x + size then .error queueAddress else .ok x.toNat

def execQsave (o : QMemOp) : State → Res := slotOp true fun s => do
  let a ← s.srcS o.a
  let addr ← queueAddr a o.imm 256
  let y := s.me.queue o.q.val
  if !y.cfg then .error (queueConfiguration 4)
  else if y.free != y.head then .error queueBusy
  else pure (s.onMyCore fun x => x.storeBytes addr y.image)

/-- A number of bits of a little-endian byte string. -/
def bitsAt (b : List Byte) (off lo n : Nat) : Nat := leNat ((b.drop off).take 8) / 2 ^ lo % 2 ^ n

/-- The queue that an image describes; none when R173 refuses it. -/
def queueOfImage (b : List Byte) : Option Queue :=
  let w := bitsAt b 0 0 64
  let c := bitsAt b 8 0 64
  let cnt := bitsAt b 24 0 64
  let y : Queue :=
    { cfg := true, base := BitVec.ofNat 22 (w % 2 ^ 14 * 256), slotsz := BitVec.ofNat 8 (w / 2 ^ 18),
      log2n := BitVec.ofNat 4 (w / 2 ^ 26), rx := w.testBit 30, head := BitVec.ofNat 16 c, free := BitVec.ofNat 16 c,
      tail := BitVec.ofNat 16 (c / 2 ^ 16), pres := BitVec.ofNat 256 (leNat ((b.drop 32).take 32)),
      tags := BitVec.ofNat 1536 (leNat ((b.drop 64).take 192)), opn := c.testBit 40, okind := c.testBit 41,
      fill := BitVec.ofNat 8 (c / 2 ^ 32), spo := false, spi := false, ref := 0,
      sptgt := BitVec.ofNat 15 (bitsAt b 16 0 64), stail := BitVec.ofNat 16 cnt, sfree := BitVec.ofNat 16 (cnt / 2 ^ 16) }
  let inside := (List.range y.depth).foldl (fun m i => m ||| BitVec.twoPow 256 (y.slotOf (y.head + BitVec.ofNat 16 i))) (0 : BitVec 256)
  if w / 2 ^ 32 ≠ 0 ∨ w / 2 ^ 14 % 16 ≠ 0 ∨ c / 2 ^ 47 ≠ 0 ∨ cnt / 2 ^ 32 ≠ 0 then none
  else if !w.testBit 31 then none
  else if 8 < y.log2n.toNat ∨ spmSize < y.base.toNat + y.slots * y.slotBytes then none
  else if c / 2 ^ 42 % 32 ≠ 0 then none
  else if y.slots < y.depth then none
  else if y.fill ≠ 0 ∧ !(y.opn && y.okind) then none
  else if y.pres &&& ~~~inside ≠ 0 then none
  else some y

def execQrest (o : QMemOp) : State → Res := slotOp true fun s => do
  let a ← s.srcS o.a
  let addr ← queueAddr a o.imm 256
  let y := s.iss.entry.queue o.q.val
  if y.head != y.free || y.free != y.tail || y.spo || y.spi || y.opn then .error queueBusy
  else
    let b ← s.myCore.load 4 addr 256
    match queueOfImage b with
    | none => .error queueImage
    | some z => pure (s.onMe fun x => x.setQueue o.q.val z)

/-- The queue status word. -/
def Queue.status (q : Queue) : Nat :=
  q.head.toNat + 2 ^ 16 * q.tail.toNat + 2 ^ 32 * q.free.toNat + 2 ^ 48 * q.fill.toNat + bit q.opn 56 + bit q.okind 57
  + bit q.spo 58 + bit q.spi 59 + 2 ^ 60 * q.ref.toNat + bit q.cfg 63

def execQstat (o : QMemOp) : State → Res := slotOp true fun s => do
  let a ← s.srcS o.a
  let addr ← queueAddr a o.imm 8
  pure (s.onMyCore fun x => x.storeBytes addr (le64 (s.me.queue o.q.val).status))

/-! ### VCPUSH and VCPOP (R222, R223) -/

def pushTag : Ty → Nat
  | .i8 => 1 | .i32 => 10 | .f16 => 7 | .bf16 => 8 | .f32 => 9 | _ => 0

/-- The loop of VCPUSH; it runs at most twice. -/
def State.pushBytes (s : State) (q tag : Nat) (flush : Bool) (data : List Byte) : Nat → State
  | 0 => s
  | fuel + 1 =>
    let y := s.me.queue q
    if data.isEmpty && !(flush && y.opn) then s
    else
      let (slot, s) := if y.opn then (s.openSlotOf q, s) else s.reserve q
      let fill := if y.opn then y.fill.toNat else 0
      let k := min (256 - fill) data.length
      let now := data.take k
      let rest := data.drop k
      let close := decide (fill + k = 256) || (flush && rest.isEmpty)
      let s := s.onMe fun x => x.setQueue q { x.queue q with
        opn := !close, okind := !close, fill := if close then 0 else BitVec.ofNat 8 (fill + k) }
      let now := if close then now ++ zeros (256 - fill - k) else now
      -- one delivery for the whole VCPUSH, counted on its last part (R222)
      (s.appendBytes q slot fill now close tag rest.isEmpty).pushBytes q tag flush rest fuel

def execVcpush (o : VPushOp) : State → Res := slotOp true fun s => do
  let q := o.q.val
  let y := s.iss.entry.queue q
  let v ← s.srcV o.a
  if !y.cfg || y.slotsz != 0 then .error (queueConfiguration 4)
  else if y.opn && !y.okind then .error openSlot
  else if y.spi then .error splicedQueue
  else if y.ref != 0 then .error spliceRefused
  else pure (s.pushBytes q (pushTag o.ty) o.flush (compact o.ty (s.guard o.pg) v) 3)

def execVcpop (o : VPopOp) : State → Res := slotOp true fun s => do
  let q := o.q.val
  let y := s.iss.entry.queue q
  let e0 ← s.srcS o.a
  if !y.cfg || y.slotsz != 0 then .error (queueConfiguration 4)
  else if y.opn && !y.okind then .error openSlot
  else if y.spo then .error splicedQueue
  else if y.ref != 0 then .error spliceRefused
  else
    let g := s.guard o.pg
    let b ← s.myCore.load 2 (y.slotAddr (y.head + BitVec.ofNat 16 o.k.val)) 256
    let s := s.writeV o.d o.nw (expandV o.ty e0.toNat (bytesV b) g) (laneMask o.ty g) 8
    pure (if o.pop then s.popQueue q 1 else s)

/-! ### Splice events (R161 to R165) -/

/-- The unit whose queue a target word names: the resident one, else one switched out of that context. -/
def State.unitAt (s : State) (c k : Nat) : Option Nat :=
  match (s.ctx c k).unit with
  | some u => some u
  | none => (s.units.find? fun x => decide (x.2.core = c) && decide (x.2.ctx = k) && x.2.saved.isSome).map (·.1)

/-- Whether a running launch of a job holds a context. -/
def State.jobHolds (s : State) (job c k : Nat) : Bool :=
  s.launches.any fun l => decide (l.2.job = job) && decide (l.2.phase = .placed)
    && l.2.record.any fun (r : PRecord) => r.entries.any fun e => !e.kind && decide (e.core = c) && decide (e.ctx = k)

def State.jobOf (s : State) (u : Nat) : Option Nat := (find s.launches (s.launchOf u)).map (·.job)

/-- How a splice request is judged: the reason of a refusal, or the target. In a context that the sender's job holds and that has no
unit, the target's unit has retired. -/
def State.judge (s : State) (snd : QEnd) (w : Word) (slotsz : BitVec 8) : Except (BitVec 3) QEnd :=
  let c := w.toNat % 512
  let k := w.toNat / 512 % 4
  let q := w.toNat / 2048 % 16
  match s.unitAt c k with
  | none => .error (if w.toNat / 2 ^ 15 ≠ 0 then 5 else if (s.jobOf snd.unit).any fun j => s.jobHolds j c k then 7 else 1)
  | some u =>
    let y := (s.bankOf u).queue q
    if w.toNat / 2 ^ 15 ≠ 0 ∨ (⟨u, q, c⟩ : QEnd) = snd then .error 5
    else if !y.cfg || !y.rx then .error 1
    else if y.spi then .error 2
    else if y.opn then .error 6
    else if y.slotsz ≠ slotsz then .error 3
    else if s.jobOf u ≠ s.jobOf snd.unit then .error 4
    else .ok ⟨u, q, c⟩

/-- SPLICE_REQUEST_ARRIVE (R161, R403). -/
def execSpliceRequestArrive (snd : QEnd) (target : Word) (slotsz : BitVec 8) (s : State) : Res :=
  let back := fun (s : State) (e : Event) => s.mesh (target.toNat % 512) snd.core 0 (toSender snd) e
  .next (match s.judge snd target slotsz with
    | .error r => back s (.spliceAnswerArrive snd none r 0 0 0)
    | .ok t =>
      let y := (s.bankOf t.unit).queue t.queue
      let s := (s.onBank t.unit fun x => x.setQueue t.queue { x.queue t.queue with spi := true }).onUnit t.unit fun x =>
        { x with spliceIn := x.spliceIn ++ [(t.queue, snd)], reported := put x.reported t.queue y.free }
      back s (.spliceAnswerArrive snd (some t) 0 y.log2n y.tail y.free))

/-- SPLICE_ANSWER_ARRIVE (R161). -/
def execSpliceAnswerArrive (snd : QEnd) (tgt : Option QEnd) (reason : BitVec 3) (log2n : BitVec 4) (tail free : BitVec 16) (s : State) :
    Res :=
  let s := s.onUnit snd.unit fun x => { x with asking := x.asking.erase snd.queue, deliveries := x.deliveries - 1 }
  let s := match tgt with
    | some t =>
      (s.onUnit snd.unit fun x => { x with spliceOut := x.spliceOut ++ [(snd.queue, t, 2 ^ log2n.toNat)] }).onBank snd.unit
        fun x => x.setQueue snd.queue { x.queue snd.queue with spo := true, stail := tail, sfree := free, ref := 0 }
    | none => s.onBank snd.unit fun x => x.setQueue snd.queue { x.queue snd.queue with ref := reason }
  .next (s.note snd.unit (.answer snd.queue))

/-- SPLICE_HEADER_ARRIVE (R162): the target's TAIL advances; after the target's unit has retired the header is discarded. -/
def execSpliceHeaderArrive (tgt : QEnd) (_ctr : BitVec 16) (s : State) : Res :=
  .next ((s.onBank tgt.unit fun x => x.setQueue tgt.queue { x.queue tgt.queue with tail := (x.queue tgt.queue).tail + 1 }).note
    tgt.unit (.tail tgt.queue 1))

/-- SPLICE_ROW_ARRIVE (R162, R164): the bytes were written at the end of the core cycle before, from which the answers count; a closing
row sets tag and presence; a delivery to a retired unit is discarded. -/
def execSpliceRowArrive (m : SpliceRow) (s : State) : Res :=
  let s := match s.unit m.tgt.unit with
    | some x =>
      let a := ((s.bankOf m.tgt.unit).queue m.tgt.queue).slotAddr m.ctr + m.off
      let s := s.onCore x.core fun y => y.putBytes a m.data
      if m.close then (s.closeSlot m.tgt.unit m.tgt.queue m.ctr m.tag.toNat).reportHead (s.now - 1) m.tgt.unit m.tgt.queue else s
    | none => s
  .next (match m.eng with
    | some (e, n) => if m.close then s.finish m.snd.unit e n else s
    | none => if !m.ack then s else s.meshFrom (s.now - 1) m.tgt.core m.snd.core 0 (fun _ => false) (.deliveryAckArrive m.snd.unit))

/-- HEAD_REPORT_ARRIVE (R162). -/
def execHeadReportArrive (snd : QEnd) (free : BitVec 16) (s : State) : Res :=
  let old := ((s.bankOf snd.unit).queue snd.queue).sfree
  .next ((s.onBank snd.unit fun x => x.setQueue snd.queue { x.queue snd.queue with sfree := free }).note snd.unit
    (.free snd.queue (free - old).toNat))

/-- DELIVERY_ACK_ARRIVE (R164). -/
def execDeliveryAckArrive (u : Nat) (s : State) : Res :=
  .next (s.onUnit u fun x => { x with deliveries := x.deliveries - 1 })

/-- SPLICE_END_MARKER_ARRIVE (R165). -/
def execSpliceEndMarkerArrive (tgt : QEnd) (s : State) : Res :=
  .next ((s.onBank tgt.unit fun x => x.setQueue tgt.queue { x.queue tgt.queue with spi := false }).onUnit tgt.unit fun x =>
    { x with spliceIn := x.spliceIn.filter fun y => !decide (y.1 = tgt.queue) })

/-- SPLICE_TARGET_END (R164): the end of a splice by the target's retirement reaches the sender; one that the sender has ended
itself is over already. -/
def execSpliceTargetEnd (snd tgt : QEnd) (s : State) : Res :=
  .next (if ((s.unit snd.unit).map (·.spliceOut)).getD [] |>.any fun o => decide (o.1 = snd.queue) && decide (o.2.1 = tgt) then
      (s.onBank snd.unit fun x =>
        let y := x.queue snd.queue
        x.setQueue snd.queue { y with spo := false, ref := 7, opn := false, okind := false, fill := 0 }).onUnit snd.unit fun x =>
      { x with spliceOut := x.spliceOut.filter fun o => !decide (o.1 = snd.queue) }
    else s)

end Sys2Proof.Machine
end

