-- ==== Sys2Proof/Machine/Copy.lean ====
section
/-! DEFINITION. The paths that feed the scratchpad: tag table, copy engine and row streams (R295 to R310). -/
namespace Sys2Proof.Machine

/-! ### The tag table (R297, R298) -/

def Core.tagIndex (x : Core) (key : Word) : Option Nat := (x.tags.find? fun t => t.2 == key).map (·.1)

/-- TLOOK: the result can be read from the next context cycle on; it loads no latch. -/
def execTlook (d : Fin 32) (a : Src) : State → Res := slotOp true fun s => do
  let key ← s.srcS a
  let r : Word := match s.myCore.tagIndex key with
    | some i => BitVec.ofNat 64 i
    | none => BitVec.allOnes 64
  pure (s.writeNoLatch .s d.val (r.setWidth 2048) 1)

def execTins (a b : Src) : State → Res := slotOp true fun s => do
  let key ← s.srcS a
  let i ← s.srcS b
  if 1024 ≤ i.toNat then .error tagRange
  else pure (s.onMyCore fun x => { x with tags := put (x.tags.filter fun t => !(t.2 == key)) i.toNat key })

def execTinv (a : Src) (idx : Bool) : State → Res := slotOp true fun s => do
  let k ← s.srcS a
  if !idx then pure (s.onMyCore fun x => { x with tags := x.tags.filter fun t => !(t.2 == k) })
  else if 1024 ≤ k.toNat then .error tagRange
  else pure (s.onMyCore fun x => { x with tags := del x.tags k.toNat })

/-! ### Cluster addresses (R295) -/

/-- The core and offset that `n` bytes at a cluster address name, for a command of core `c`. -/
def State.clusterAddr (s : State) (c : Nat) (a : Int) (n : Nat) : Except Cond (Nat × Nat) :=
  if a < 0 ∨ (2 ^ 25 : Int) ≤ a then .error (scratchpadRange 4)
  else
    let core := clusterCore (clusterOf c) (a.toNat / 2 ^ 22)
    let off := a.toNat % 2 ^ 22
    let other := match (s.core core).asid with
      | some d => decide ((s.core c).asid ≠ some d)
      | none => false
    if other && decide (core ≠ c) then .error (protection 4)
    else if spmSize ≤ off ∨ spmSize < off + n then .error (scratchpadRange 4)
    else .ok (core, off)

/-! ### Descriptors and formats (R157, R250, R301, R302) -/

structure CopyDesc where
  stride : Int
  rows : Nat
  rowb : Nat
deriving DecidableEq, Repr

def copyDesc (w : Word) : Except Cond CopyDesc :=
  let rowb := field w 0 17
  if rowb = 0 ∨ 65536 < rowb then .error copyShape
  else .ok ⟨(w.extractLsb' 25 39).toInt, field w 17 8 + 1, rowb⟩

/-- The tag of a format and geometry. -/
def tagFor (f : Fmt) (geo : Nat) : Nat :=
  if geo = 0 then f.code else if geo = 5 then 48 + (f.code - 1) else 16 + 8 * (geo - 1) + (f.code - 1)

/-- The format and geometry that a tag names. -/
def tagFormat (tag : Nat) : Option (Fmt × Nat) :=
  if tag ≤ 10 then (fmtOfCode tag).map fun f => (f, 0)
  else if 16 ≤ tag ∧ tag < 48 ∧ (tag - 16) % 8 ≤ 5 then (fmtOfCode ((tag - 16) % 8 + 1)).map fun f => (f, (tag - 16) / 8 + 1)
  else if 48 ≤ tag ∧ tag ≤ 52 then (fmtOfCode (tag - 47)).map fun f => (f, 5)
  else none

def CopyDesc.data (d : CopyDesc) : Nat := d.rows * d.rowb
/-- Offset of the scale area: the data length rounded up to 256. -/
def CopyDesc.scales (d : CopyDesc) : Nat := (d.data + 255) / 256 * 256

/-- Data bytes that one scale entry covers: a block, or a group of GEO 5. -/
def scaleSpan (f : Fmt) (geo : Nat) : Nat := if geo = 5 then 512 * f.bits / 8 else blockBytes f geo
/-- Bytes of one scale entry: the byte of a block, the record of a group. -/
def scaleUnit (geo : Nat) : Nat := if geo = 5 then 128 else 1
/-- Scale bytes of one row. -/
def rowScales (f : Fmt) (geo rowb : Nat) : Nat := if geo = 0 then 0 else rowb / scaleSpan f geo * scaleUnit geo

/-- Addresses in the scale plane that the data at `va`, `rowb` bytes, needs, each with its bytes: one for a block, 128 for a
group (R50, R51). -/
def scaleAddrs (soff : Word) (f : Fmt) (geo va rowb : Nat) : List (Word × Nat) :=
  if geo = 0 then []
  else (List.range (rowb / scaleSpan f geo)).map fun j =>
    (soff + BitVec.ofNat 64 ((va + j * scaleSpan f geo) / scaleSpan f geo * scaleUnit geo), scaleUnit geo)

/-- Whether a row length fits the blocks or groups of a format. -/
def rowFits (f : Fmt) (geo rowb : Nat) : Bool :=
  if geo = 0 then true else if geo = 5 then rowb % (512 * f.bits / 8) = 0 else rowb % blockBytes f geo = 0

/-! ### Issue (R299 to R304) -/

/-- The address of row r of a global copy. -/
def rowVa (a : Word) (stride : Int) (r : Nat) : Word := a + BitVec.ofInt 64 (stride * r)

/-- Whether the data alone overruns a slot of a queue. -/
def tooBig (y : Queue) (d : CopyDesc) : Bool := decide (y.slotBytes < d.data)

/-- Reserve the slot of a copy load and enter the command. -/
def State.copyLoad (s : State) (q : Nat) (op : Instr) (a b c : Word) : State :=
  let (slot, s) := s.reserve q
  s.command .cpy op fun _ z => { z with a, b, c, ctr := slot.1, splice := slot.2 }

def execCpld (o : CpldOp) : State → Res := slotOp false fun s => do
  let y := s.iss.entry.queue o.q.val
  appendCheck y
  let a ← s.srcS o.a
  let b ← s.srcS o.b
  let d ← copyDesc b
  if tooBig y d then .error (slotSize 4) else pure (s.copyLoad o.q.val (.cpld o) a b 0)

def execCpga (o : CpgaOp) : State → Res := slotOp false fun s => do
  let y := s.iss.entry.queue o.q.val
  appendCheck y
  let a ← s.srcS o.a
  let b ← s.srcS o.b
  let c ← s.srcS o.c
  let d ← copyDesc b
  if c.toNat % 4 ≠ 0 then .error (misalignedAccess 4)
  else if spmSize < c.toNat + 4 * d.rows then .error (scratchpadRange 4)
  else if tooBig y d then .error (slotSize 4)
  else pure (s.copyLoad o.q.val (.cpga o) a b c)

/-- The places that the rows of a CPLL read. -/
def State.cpllRows (s : State) (c : Nat) (a : Word) (d : CopyDesc) : Except Cond (List (Nat × Nat)) :=
  (List.range d.rows).foldl (fun acc (r : Nat) => match acc, s.clusterAddr c ((a.toNat : Int) + d.stride * r) d.rowb with
    | .ok l, .ok x => .ok (l ++ [x])
    | .error e, _ => .error e
    | .ok _, .error e => .error e) (.ok [])

def execCpll (o : CpllOp) : State → Res := slotOp false fun s => do
  let y := s.iss.entry.queue o.q.val
  appendCheck y
  let a ← s.srcS o.a
  let b ← s.srcS o.b
  let d ← copyDesc b
  let _ ← s.cpllRows s.iss.core a d
  if tooBig y d then .error (slotSize 4) else pure (s.copyLoad o.q.val (.cpll o) a b 0)

def execCpst (o : CpstOp) : State → Res := slotOp false fun s => do
  let q := o.q.val
  let ctr ← s.queueSource q o.k.val
  let y := s.iss.entry.queue q
  let a ← s.srcS o.a
  let b ← s.srcS o.b
  let d ← copyDesc b
  if tooBig y d then .error (slotSize 4)
  else
    let s := s.holdSlot s.myUnit q ctr
    let s := if o.pop then s.popQueue q 1 else s
    pure (s.command .cpy (.cpst o) fun _ z => { z with a, b, ctr })

/-- An end of a CPMEM: a core's scratchpad or global memory. -/
def State.copyEnd (s : State) (c : Nat) (a : Word) (n : Nat) (cluster : Bool) : Except Cond (Option (Nat × Nat)) :=
  if cluster then (s.clusterAddr c a.toNat n).map some else .ok none

def execCpmem (o : CpmemOp) : State → Res := slotOp false fun s => do
  let a ← s.srcS o.a
  let b ← s.srcS o.b
  let c ← s.srcS o.c
  if 2 ^ 40 ≤ c.toNat then .error copyShape
  else
    let dst ← s.copyEnd s.iss.core a c.toNat o.ld
    let src ← s.copyEnd s.iss.core b c.toNat o.ls
    let clash := match dst, src with
      | some x, some y => decide (x.1 = y.1) && overlaps x.2 c.toNat y.2 c.toNat
      | none, none => overlaps a.toNat c.toNat b.toNat c.toNat
      | _, _ => false
    if clash && decide (c ≠ 0) then .error copyOverlap
    else pure (s.command .cpy (.cpmem o) fun _ z => { z with a, b, c })

/-! ### Execution (R302 to R306) -/

/-- What a step of an engine operation comes to: a result, a wait for a page, or a condition. -/
abbrev Work (α : Type) := Except (Option Cond) α × State

/-- Translate a range for a copy command, now. -/
def State.copyPages (s : State) (u : Nat) (x : Unit) (c : Cmd) (va : Word) (n : Nat) (right : Right) : Work (List Piece) :=
  if !canonical va then (.error (some { nonCanonical 4 with badaddr := some va }), s)
  else match s.paged ⟨.copyCommandDone u c.n, right, some x.core⟩ (dieOf x.core) x.asid (va56 va) n 4 with
    | (.ok l, s) =>
      let t := s.tell (dieOf x.core)
      if !c.skipWatch && t.watches x.asid (va56 va) n (decide (right = .r)) (decide (right = .w)) then
        (.error (some (watchpoint 4)), s)
      else (.ok l, s)
    | (.wait, s) => (.error none, s)
    | (.fault e, s) => (.error (some e), s)

/-- Run a step for each element, stopping at the first that does not end well. -/
def eachWork {α β : Type} (f : State → α → Work β) : List α → State → Work (List β)
  | [], s => (.ok [], s)
  | a :: rest, s => match f s a with
    | (.error e, s) => (.error e, s)
    | (.ok b, s) => match eachWork f rest s with
      | (.error e, s) => (.error e, s)
      | (.ok l, s) => (.ok (b :: l), s)

/-- Read translated pieces; an error raises data error. -/
def State.copyRead (s : State) (x : Unit) (l : List Piece) : Work (List Byte) :=
  let s := l.foldl (fun s p => s.touch x.launch (dieOf x.core) p.pa p.len) s
  let (b, err, s) := s.readPieces (dieOf x.core) x.asid l
  if err.isSome then (.error (some (dataError 4)), s) else (.ok b, s)

def State.copyWrite (s : State) (x : Unit) (l : List Piece) (b : List Byte) : Work PUnit :=
  let s := l.foldl (fun s p => s.touch x.launch (dieOf x.core) p.pa p.len) s
  let (err, s) := s.writePieces (dieOf x.core) x.asid l b
  if err.isSome then (.error (some (dataError 4)), s) else (.ok ⟨⟩, s)

/-- Read scale bytes or group records. -/
def State.copyScales (s : State) (u : Nat) (x : Unit) (c : Cmd) (l : List (Word × Nat)) : Work (List Byte) :=
  match eachWork (fun s a => match s.copyPages u x c a.1 a.2 .r with
      | (.ok ps, s) => s.copyRead x ps
      | (.error e, s) => (.error e, s)) l s with
  | (.ok bs, s) => (.ok bs.flatten, s)
  | (.error e, s) => (.error e, s)

/-- The format and geometry of a page that the copy engine meets; a raw page has geometry 0 (R36, R48). -/
def copyFormat (maint : Bool) (p : Piece) : Except Cond (Fmt × Nat) :=
  match fmtOfCode (attrFmt p.attr) with
  | none => .error { formatAttribute 4 with badaddr := some (vaWord p.va) }
  | some .raw => .ok (.raw, 0)
  | some f => if geoLegal f (attrGeo p.attr) maint then .ok (f, attrGeo p.attr)
    else .error { formatAttribute 4 with badaddr := some (vaWord p.va) }

/-- CPLD and CPGA: rows at the given addresses (R302). -/
def State.loadRows (s : State) (u : Nat) (x : Unit) (c : Cmd) (d : CopyDesc) (addrs : List Word) (slotBytes : Nat) :
    Work (List (Nat × List Byte) × Nat) :=
  match eachWork (fun s a => s.copyPages u x c a d.rowb .r) addrs s with
  | (.error e, s) => (.error e, s)
  | (.ok rows, s) =>
    match rows.flatten.head? with
    | none => (.error (some copyShape), s)
    | some p0 => match copyFormat (s.core x.core).maint p0 with
      | .error e => (.error (some e), s)
      | .ok (f, geo) =>
        if !rowFits f geo d.rowb then (.error (some copyShape), s)
        else match rows.flatten.find? fun p => decide (attrFmt p.attr ≠ f.code) || (decide (f ≠ .raw) && decide (attrGeo p.attr ≠ geo)) with
          | some p => (.error (some { formatAttribute 4 with badaddr := some (vaWord p.va) }), s)
          | none =>
            let (soff, s) := s.soff (dieOf x.core) x.asid
            let want := addrs.flatMap fun a => scaleAddrs soff f geo (va56 a) d.rowb
            let nsc := want.foldl (fun n w => n + w.2) 0
            if nsc ≠ 0 ∧ slotBytes < d.scales + nsc then (.error (some (slotSize 4)), s)
            else match eachWork (fun s l => s.copyRead x l) rows s with
              | (.error e, s) => (.error e, s)
              | (.ok data, s) => match s.copyScales u x c want with
                | (.error e, s) => (.error e, s)
                | (.ok sc, s) => (.ok ((0, data.flatten) :: (if sc.isEmpty then [] else [(d.scales, sc)]), tagFor f geo), s)

/-- Scratchpad bytes that an engine reads. -/
def State.engineRead (s : State) (core origin a n : Nat) : Except Cond (List Byte) :=
  let x := s.core core
  if x.bad.any (fun y => decide (a ≤ y) && decide (y < a + n)) then .error (dataError origin) else .ok (x.spm.readBytes a n)

/-- One row of a CPST, translated: its address, its pages, and the format and geometry of those that are not raw; (raw, 0) where all
are. -/
structure StoreRow where
  va : Nat
  pieces : List Piece
  fmt : Fmt
  geo : Nat
deriving DecidableEq, Repr

/-- Translate and check one row of a CPST (R303). -/
def State.storeRow (s : State) (u : Nat) (x : Unit) (c : Cmd) (d : CopyDesc) (tag : Nat) (a : Word) : Work StoreRow :=
  match s.copyPages u x c a d.rowb .w with
  | (.error e, s) => (.error e, s)
  | (.ok ps, s) =>
    let maint := (s.core x.core).maint
    let go := fun (acc : Except Cond (Fmt × Nat)) (p : Piece) => match acc, copyFormat maint p with
      | .error e, _ => .error e
      | .ok _, .error e => .error e
      | .ok y, .ok (f, geo) =>
        if f ≠ .raw ∧ tag ≠ tagFor f geo then .error (formatMismatch 4)
        else if !rowFits f geo d.rowb then .error copyShape
        else .ok (if y.1 = .raw then (f, geo) else y)
    match ps.foldl go (.ok (.raw, 0)) with
    | .error e => (.error (some e), s)
    | .ok (f, geo) => (.ok ⟨va56 a, ps, f, geo⟩, s)

/-- The scale entries that row `i` of a CPST writes: where each goes, its bytes, and its place in the slot's scale area; a block whose
data begin on a raw page has none (R36, R58). -/
def StoreRow.scales (r : StoreRow) (soff : Word) (i rowb : Nat) : List ((Word × Nat) × Nat) :=
  let span := scaleSpan r.fmt r.geo
  let raw := fun (a : Nat) => r.pieces.any fun p => decide (p.va ≤ a) && decide (a < p.va + p.len) && decide (attrFmt p.attr = Fmt.raw.code)
  ((scaleAddrs soff r.fmt r.geo r.va rowb).zipIdx.filter fun w => !raw (r.va + w.2 * span)).map fun w =>
    (w.1, i * rowScales r.fmt r.geo rowb + w.2 * w.1.2)

/-- CPST: data rows, then the scale area into the scale plane. -/
def State.storeRows (s : State) (u : Nat) (x : Unit) (c : Cmd) (d : CopyDesc) (y : Queue) : Work PUnit :=
  let at_ := y.slotAddr c.ctr
  match eachWork (fun s r => s.storeRow u x c d (y.tagOf c.ctr) (rowVa c.a d.stride r)) (List.range d.rows) s with
  | (.error e, s) => (.error e, s)
  | (.ok rows, s) =>
    let (soff, s) := s.soff (dieOf x.core) x.asid
    let area := d.rows * (rows.foldl (fun n r => max n (rowScales r.fmt r.geo d.rowb)) 0)
    if area ≠ 0 ∧ y.slotBytes < d.scales + area then (.error (some (slotSize 4)), s)
    else match s.engineRead x.core 4 at_ d.data with
      | .error e => (.error (some e), s)
      | .ok data =>
        match eachWork (fun s (w : (Word × Nat) × Nat) => match s.engineRead x.core 4 (at_ + d.scales + w.2) w.1.2 with
            | .error e => (.error (some e), s)
            | .ok b => match s.copyPages u x c w.1.1 w.1.2 .w with
              | (.ok ps, s) => (.ok (ps, b), s)
              | (.error e, s) => (.error e, s)) (rows.zipIdx.flatMap fun r => r.1.scales soff r.2 d.rowb) s with
        | (.error e, s) => (.error e, s)
        | (.ok plane, s) =>
          match eachWork (fun s (r : StoreRow × Nat) => s.copyWrite x r.1.pieces ((data.drop (r.2 * d.rowb)).take d.rowb)) rows.zipIdx s with
          | (.error e, s) => (.error e, s)
          | (.ok _, s) => match eachWork (fun s (p : List Piece × List Byte) => s.copyWrite x p.1 p.2) plane s with
            | (.error e, s) => (.error e, s)
            | (.ok _, s) => (.ok ⟨⟩, s)

/-- Bytes of one end of a CPMEM chunk. -/
def State.memRead (s : State) (u : Nat) (x : Unit) (c : Cmd) (place : Option (Nat × Nat)) (va : Word) (off n : Nat) : Work (List Byte) :=
  match place with
  | some (core, a) => match s.engineRead core 4 (a + off) n with
    | .ok b => (.ok b, s)
    | .error e => (.error (some e), s)
  | none => match s.copyPages u x c (va + BitVec.ofNat 64 off) n .r with
    | (.ok ps, s) => s.copyRead x ps
    | (.error e, s) => (.error e, s)

def State.memWrite (s : State) (u : Nat) (x : Unit) (c : Cmd) (place : Option (Nat × Nat)) (va : Word) (off : Nat) (b : List Byte) :
    Work PUnit :=
  match place with
  | some (core, a) => (.ok ⟨⟩, s.onCore core fun y => y.putBytes (a + off) b)
  | none => match s.copyPages u x c (va + BitVec.ofNat 64 off) b.length .w with
    | (.ok ps, s) => s.copyWrite x ps b
    | (.error e, s) => (.error e, s)

/-- CPMEM: chunks of 256 bytes, each read before it is written (R304). -/
def State.copyChunks (s : State) (u : Nat) (x : Unit) (c : Cmd) (o : CpmemOp) : Work PUnit :=
  let n := c.c.toNat
  match s.copyEnd x.core c.a n o.ld, s.copyEnd x.core c.b n o.ls with
  | .ok dst, .ok src =>
    match eachWork (fun s i =>
        let k := min 256 (n - 256 * i)
        match s.memRead u x c src c.b (256 * i) k with
        | (.error e, s) => (.error e, s)
        | (.ok b, s) => s.memWrite u x c dst c.a (256 * i) b) (List.range ((n + 255) / 256)) s with
    | (.ok _, s) => (.ok ⟨⟩, s)
    | (.error e, s) => (.error e, s)
  | .error e, _ => (.error (some e), s)
  | .ok _, .error e => (.error (some e), s)

/-- The index list of a CPGA. -/
def idxAddrs (a : Word) (stride : Int) (l : List Byte) (rows : Nat) : List Word :=
  (List.range rows).map fun r => a + BitVec.ofInt 64 (stride * (leNat ((l.drop (4 * r)).take 4) : Int))

/-- The effect of a copy command whose rows are all known; it completes, or faults, or waits for a page. -/
def State.runCopy (s : State) (u : Nat) (x : Unit) (c : Cmd) : State :=
  let stop := fun (s : State) (e : Option Cond) => match e with
    | none => s.onCmd u .cpy c.n fun c => { c with stage := .paged }
    | some e => s.engineFault u .cpy c.n e
  let slot := fun (q : Nat) (r : Work (List (Nat × List Byte) × Nat)) => match r with
    | (.ok (segs, tag), s) => s.engineFill u c q segs tag
    | (.error e, s) => stop s e
  let y := fun (q : Nat) => (s.bankOf u).queue q
  match c.op, copyDesc c.b with
  | .cpld o, .ok d =>
    slot o.q.val (s.loadRows u x c d ((List.range d.rows).map fun r => rowVa c.a d.stride r) (y o.q.val).slotBytes)
  | .cpga o, .ok d => match s.engineRead x.core 4 c.c.toNat (4 * d.rows) with
    | .error e => stop s (some e)
    | .ok l => slot o.q.val (s.loadRows u x c d (idxAddrs c.a d.stride l d.rows) (y o.q.val).slotBytes)
  | .cpll o, .ok d => match s.cpllRows x.core c.a d with
    | .error e => stop s (some e)
    | .ok rows =>
      let got := rows.foldl (fun (acc : Except Cond (List Byte)) r => match acc, s.engineRead r.1 4 r.2 d.rowb with
        | .ok l, .ok b => .ok (l ++ b)
        | .error e, _ => .error e
        | .ok _, .error e => .error e) (.ok [])
      match got with
      | .error e => stop s (some e)
      | .ok b => s.engineFill u c o.q.val [(0, b)] o.tag.toNat
  | .cpst o, .ok d => match s.storeRows u x c d (y o.q.val) with
    | (.error e, s) => stop s e
    | (.ok _, s) => (s.releaseSlot u o.q.val c.ctr).finish u .cpy c.n
  | .cpmem o, _ => match s.copyChunks u x c o with
    | (.error e, s) => stop s e
    | (.ok _, s) => s.finish u .cpy c.n
  | _, _ => s

/-! ### Order and start (R299, R306, R331) -/

/-- The ranges of the scale plane that a CPST may write: those of its slot's tag, or of any tag while the slot has none yet. -/
def State.planeDests (s : State) (u : Nat) (x : Unit) (q : Nat) (c : Cmd) (d : CopyDesc) : List (Nat × Nat × Nat) :=
  let y := (s.bankOf u).queue q
  let soff := (s.soff (dieOf x.core) x.asid).1
  let tags := if y.present c.ctr then [y.tagOf c.ctr] else List.range 64
  tags.flatMap fun t => match tagFormat t with
    | some (f, geo) => if geo = 0 then [] else (List.range d.rows).map fun r =>
        let va := va56 (rowVa c.a d.stride r)
        (0, (soff + BitVec.ofNat 64 (va / scaleSpan f geo * scaleUnit geo)).toNat, rowScales f geo d.rowb)
    | none => []

/-- What a copy command writes: a space (0 global, core + 1 a scratchpad) and ranges. -/
def State.copyDests (s : State) (u : Nat) (x : Unit) (c : Cmd) : List (Nat × Nat × Nat) :=
  let slot := fun (q : Nat) =>
    let owner := match c.splice with
      | some t => t
      | none => ⟨u, q, s.coreOf u⟩
    let y := (s.bankOf owner.unit).queue owner.queue
    [(owner.core + 1, y.slotAddr c.ctr, y.slotBytes)]
  match c.op, copyDesc c.b with
  | .cpld o, _ => slot o.q.val
  | .cpga o, _ => slot o.q.val
  | .cpll o, _ => slot o.q.val
  | .cpst o, .ok d => ((List.range d.rows).map fun r => (0, (rowVa c.a d.stride r).toNat, d.rowb)) ++ s.planeDests u x o.q.val c d
  | .cpmem o, _ => match s.copyEnd x.core c.a c.c.toNat o.ld with
    | .ok (some (core, a)) => [(core + 1, a, c.c.toNat)]
    | _ => [(0, c.a.toNat, c.c.toNat)]
  | _, _ => []

def copyWritesGlobal (c : Cmd) : Bool := match c.op with
  | .cpst _ => true
  | .cpmem o => !o.ld
  | _ => false
def copyTouchesGlobal (c : Cmd) : Bool := match c.op with
  | .cpll _ => false
  | .cpmem o => !o.ld || !o.ls
  | _ => true

/-- Whether a copy command that has started may take effect: its source is present, earlier commands of its context with an
overlapping destination are done, and the accesses it follows have performed. -/
def State.copyReady (s : State) (u : Nat) (x : Unit) (c : Cmd) : Bool :=
  let source := match c.op with
    | .cpst o => ((s.bankOf u).queue o.q.val).present c.ctr
    | _ => true
  let mine := s.copyDests u x c
  let behind := x.cmds.any fun a => decide (a.eng = .cpy) && decide (a.n < c.n)
    && (decide (a.stage = .faulted) || (s.copyDests u x a).any fun p => mine.any fun q => decide (p.1 = q.1) && overlaps p.2.1 p.2.2 q.2.1 q.2.2)
  source && !behind && (!copyTouchesGlobal c || x.engineMayAccess c (copyWritesGlobal c))

/-- Copy commands of a core that an engine has in flight, and the next one to start: units' records in order of place. -/
def State.engineCmds (s : State) (core : Nat) (e : Engine) : List (Nat × Cmd) :=
  (s.units.filter fun x => decide (x.2.core = core)).flatMap fun x => (x.2.cmds.filter fun c => decide (c.eng = e)).map fun c => (x.1, c)

/-- The first in acceptance order. -/
def firstPlace (l : List (Nat × Cmd)) : Option (Nat × Cmd) :=
  l.foldl (fun m x => match m with
    | none => some x
    | some y => if x.2.place < y.2.place then some x else m) none

/-- Whether a command has an earlier faulted command of its own unit before it: it waits for the replay (R253, R369). -/
def behindFault (l : List (Nat × Cmd)) (p : Nat × Cmd) : Bool :=
  l.any fun a => decide (a.1 = p.1) && decide (a.2.n < p.2.n) && decide (a.2.stage = .faulted)

/-- The copy command that the engine of a core may start in this core cycle. -/
def State.copyNext (s : State) (core : Nat) : Option (Nat × Cmd) :=
  let l := s.engineCmds core .cpy
  let flying := (l.filter fun x => decide (x.2.stage = .taken) || decide (x.2.stage = .paged)).length
  if (s.core core).copyStarted || 16 ≤ flying then none
  else match firstPlace (l.filter fun x => x.2.waiting && !behindFault l x) with
    | some x => if x.2.due ≤ s.now then some x else none
    | none => none

/-- COPY_COMMAND_START (R299, R415). -/
def execCopyCommandStart (c : Nat) (s : State) : Res :=
  .next (match s.copyNext c with
    | some (u, z) =>
      let (k, s) := s.draw
      (s.takeCmd u .cpy z.n fun y => { y with due := s.now + 1 + Config.copyDelay k }).onCore c fun x => { x with copyStarted := true }
    | none => s)

/-- COPY_COMMAND_DONE (R305). -/
def execCopyCommandDone (u n : Nat) (s : State) : Res :=
  match s.unit u with
  | some x => match x.cmd .cpy n with
    | some c => .next (if decide (c.stage = .taken) || decide (c.stage = .paged) then s.runCopy u x c else s)
    | none => .next s
  | none => .next s

/-! ### Row streams (R308 to R310) -/

/-- Key of a position of a row stream. -/
def streamKey (core : Nat) (west : Bool) (str col : Nat) : Nat :=
  ((dieOf core * 8 + rowOf core) * 16 + (if west then 8 else 0) + str) * 16 + col

def execSdrv (w : Bool) (str : Fin 8) (b : Src) : State → Res := slotOp true fun s => do
  let v ← s.srcV b
  let c := s.iss.core
  if !s.isStatic c s.iss.ctx then .error streamContext
  else
    let col := colOf c
    let at_ := if w then (if col = 0 then none else some (col - 1)) else (if col = 15 then none else some (col + 1))
    pure (match at_ with
      | some k => { s with drives := s.drives ++ [⟨streamKey c w str.val k, v, c, s.iss.ctx, s.iss.pc, s.iss.cc⟩] }
      | none => s)

/-- The word at the core's position; an empty one reads zero and is recorded with cause 14 (R309). -/
def State.tap (s : State) (w : Bool) (str : Nat) : VWord × State :=
  let i := s.iss
  match find s.streams (streamKey i.core w str (colOf i.core)) with
  | some v => (v, s)
  | none => (0, s.deviation i.core i.ctx 14 (some .q) i.pc i.cc s.now 0)

def execStap (w : Bool) (str : Fin 8) (d : Fin 32) : State → Res := slotOp true fun s =>
  if !s.isStatic s.iss.core s.iss.ctx then .error streamContext
  else
    let (v, s) := s.tap w str.val
    let (id, s) := s.takeLanding .v d.val none
    .ok (s.landReady s.myUnit id (s.now + 1) v allLanes 0)

def execStapq (w : Bool) (str : Fin 8) (q : Fin 16) (tag : BitVec 6) : State → Res := slotOp true fun s => do
  let y := s.iss.entry.queue q.val
  if !s.isStatic s.iss.core s.iss.ctx then .error streamContext
  else if !y.cfg || y.slotsz != 0 then .error (queueConfiguration 4)
  else if y.opn && !y.okind then .error openSlot
  else
    appendCheck y
    let (v, s) := s.tap w str.val
    let (slot, s) := s.reserve q.val
    pure (s.appendBytes q.val slot 0 (vbytes v) true tag.toNat)

/-- Where the word of a stream key moves; none when it leaves the stream. -/
def streamMove (k : Nat) : Option Nat :=
  if k / 16 % 16 < 8 then (if k % 16 = 15 then none else some (k + 1)) else (if k % 16 = 0 then none else some (k - 1))

/-- ROW_STREAM_SHIFT (R308, R309): the words of a row move, then the words driven in this cycle are placed. -/
def execRowStreamShift (die row : Nat) (s : State) : Res :=
  let mine := fun (k : Nat) => decide (k / 256 = die * 8 + row)
  let moved := (s.streams.filter fun x => mine x.1).foldl (fun l x => match streamMove x.1 with
    | some k => put l k x.2
    | none => l) (s.streams.filter fun x => !mine x.1)
  let drives := s.drives.filter fun d => mine d.key
  let s := { s with streams := moved, drives := s.drives.filter fun d => !mine d.key }
  .next (drives.foldl (fun s d =>
    let hit := (find s.streams d.key).isSome
    let s := { s with streams := put s.streams d.key d.word }
    if hit then s.deviation d.core d.ctx 13 (some .q) d.pc d.cc s.now 0 else s) s)

end Sys2Proof.Machine
end

