-- ==== Sys2Proof/Machine/Matrix.lean ====
section
/-! DEFINITION. The matrix engine: the tile configuration block, the sharing modes, the streams, MMA and PMMA, and the
accumulator instructions (R54 to R56, R247 to R272, R414). -/
namespace Sys2Proof.Machine

/-! ### Tags and tiles (R157, R247, R250) -/

/-- Whether the matrix engine takes a format as an operand; GEO 5 is judged apart (R247, R260). -/
def matOperand (f : Fmt) (geo : Nat) : Bool :=
  match f with
  | .i8 | .i4 | .e4m3 | .e5m2 | .e2m1 | .l8 => true
  | .f16 | .bf16 => decide (geo = 0)
  | _ => false

/-- Width in bits that counts for the busy cycles (R248). -/
def matWidth (f : Fmt) : Nat :=
  match f with
  | .i4 | .e2m1 | .l8 => 4
  | .f16 | .bf16 => 16
  | _ => 8

def Fmt.isInt (f : Fmt) : Bool := decide (f = .i8) || decide (f = .i4)

/-- A tile as a slot holds it. -/
structure Tile where
  fmt : Fmt
  geo : Nat
  rows : Nat
  ks : Nat
  data : List Byte
  scales : List Byte
deriving DecidableEq, Repr

def tileData (f : Fmt) (rows ks : Nat) : Nat := rows * ks * f.bits / 8
def tileScales (geo rows ks : Nat) : Nat :=
  if geo = 0 then 0 else if geo = 5 then rows * ks / 512 * 128 else rows * ks / geoBlock geo
/-- Bytes of the data, rounded up, and of the scale area. -/
def roundUp256 (n : Nat) : Nat := (n + 255) / 256 * 256
def tileBytes (f : Fmt) (geo rows ks : Nat) : Nat :=
  if geo = 0 then tileData f rows ks else roundUp256 (tileData f rows ks) + tileScales geo rows ks

/-- The bitmap of a group of GEO 5. -/
def Tile.bitmap (t : Tile) (g : Nat) : Nat := leNat ((t.scales.drop (128 * g)).take 64)
/-- Whether every group record that the tile decodes is valid (R51). -/
def Tile.groupsOk (t : Tile) : Bool :=
  decide (t.geo ≠ 5) || (List.range (t.rows * t.ks / 512)).all fun g => bitmapOk (t.bitmap g)

/-- The block that element `i` lies in, and its scale byte. -/
def Tile.block (t : Tile) (i : Nat) : Nat × Nat :=
  if t.geo = 0 then (0, 127)
  else if t.geo = 5 then
    let g := i / 512
    let b := blockOf (t.bitmap g) (i % 512)
    (g * 64 + b, leNat ((t.scales.drop (128 * g + 64 + b)).take 1))
  else
    let b := i / geoBlock t.geo
    (b, leNat ((t.scales.drop b).take 1))

/-- An element of a row: its value, its integer value, its block and its scale byte. -/
structure Elem where
  val : Ext
  int : Int
  blk : Nat
  scale : Nat
deriving DecidableEq, Repr

/-- Row `r` of a tile, with NV for signalling NaNs that its elements hold (R38). -/
def Tile.row (t : Tile) (tab : BitVec 32) (r : Nat) : List Elem × Flags :=
  let n := t.ks * t.fmt.bits / 8
  let bytes := (t.data.drop (r * n)).take n
  (List.range t.ks).foldl (fun acc k =>
    let (x, a) := spanElem t.fmt tab bytes k ⟨0, acc.2⟩
    let (b, sc) := t.block (r * t.ks + k)
    let v := if t.fmt.isInt then readInt true t.fmt.bits (elemCode t.fmt bytes k) else 0
    (acc.1 ++ [⟨x, v, b, sc⟩], a.fl)) ([], 0)

/-! ### Dot products (R54 to R56) -/

/-- A segment under construction: its blocks, its scale bytes, and the products so far. -/
structure Segment where
  blkA : Nat
  blkB : Nat
  scA : Nat
  scB : Nat
  prods : List (Ext × Flags)
deriving DecidableEq, Repr

/-- The segments of two rows, in ascending K order. -/
def segments (a b : List Elem) : List Segment :=
  (a.zip b).foldl (fun acc p =>
    let x := Ext.mul p.1.val p.2.val
    match acc.getLast? with
    | some g =>
      if g.blkA = p.1.blk ∧ g.blkB = p.2.blk then acc.dropLast ++ [{ g with prods := g.prods ++ [x] }]
      else acc ++ [⟨p.1.blk, p.2.blk, p.1.scale, p.2.scale, [x]⟩]
    | none => acc ++ [⟨p.1.blk, p.2.blk, p.1.scale, p.2.scale, [x]⟩]) []

/-- The exact scaled sum of a segment (R54, R55). -/
def Segment.value (g : Segment) : Ext × Flags :=
  let (x, fl) := Ext.sum false (g.prods.map (·.1))
  let fl := g.prods.foldl (fun f p => f ||| p.2) fl
  (scaled (scaled x g.scA) g.scB, fl)

/-- The block-scaled dot product accumulated into an FP32 code. -/
def dotF32 (a b : List Elem) (start : Nat) : Nat × Flags :=
  (segments a b).foldl (fun acc g =>
    let (x, fl) := g.value
    let (y, r) := FFmt.f32.read acc.1 ⟨0, acc.2 ||| fl⟩
    let (z, fl) := Ext.add false y x
    let (c, r) := roundF .f32 .rne z (r.flag fl)
    (c, r.fl)) (start, 0)

/-- The wrapping integer dot product. -/
def dotI32 (a b : List Elem) (start : Nat) : Nat :=
  wrapInt 32 ((a.zip b).foldl (fun s p => s + p.1.int * p.2.int) (start : Int))

/-- Whether a pairing of operands calls for an i32 accumulator (R247). -/
def pairIsInt (fa : Fmt) (ga : Nat) (fb : Fmt) (gb : Nat) : Bool := fa.isInt && fb.isInt && decide (ga = 0) && decide (gb = 0)

/-- The M × N results of two tiles, row-major, from the start values. -/
def matProduct (a b : Tile) (tabA tabB : BitVec 32) (start : Nat → Nat → BitVec 32) : List (BitVec 32) × Flags :=
  let int := pairIsInt a.fmt a.geo b.fmt b.geo
  let rowsB := (List.range b.rows).map fun n => b.row tabB n
  let flB := if int then 0 else rowsB.foldl (fun f r => f ||| r.2) 0
  (List.range a.rows).foldl (fun acc m =>
    let (ra, flA) := a.row tabA m
    let line := rowsB.zipIdx.map fun r =>
      let st := (start m r.2).toNat
      if int then (dotI32 ra r.1.1 st, (0 : Flags)) else dotF32 ra r.1.1 st
    (acc.1 ++ line.map fun x => BitVec.ofNat 32 x.1, line.foldl (fun f x => f ||| x.2) (acc.2 ||| if int then 0 else flA))) ([], flB)

/-! ### The block, the streams and the windows (R249, R252, R257) -/

def tileWordBits (w : TileWord) : BitVec 30 :=
  BitVec.ofNat 30 (w.mm.val * 2 ^ 23 + w.nn.val * 2 ^ 15 + w.kk.val * 2 ^ 8 + w.af.toNat * 2 ^ 4 + w.pf.val)
def blockM (b : BitVec 30) : Nat := (b.extractLsb' 23 7).toNat + 1
def blockN (b : BitVec 30) : Nat := (b.extractLsb' 15 8).toNat + 1
def blockKs (b : BitVec 30) : Nat := 16 * ((b.extractLsb' 8 7).toNat + 1)
/-- Whether accumulator `i` holds i32 elements. -/
def blockInt (b : BitVec 30) (i : Nat) : Bool := b.getLsbD (4 + i)
def blockPf (b : BitVec 30) : Nat := (b.extractLsb' 0 4).toNat

def Mat.block (x : Mat) (st : Nat) : BitVec 30 := if x.share && decide (st = 1) then x.block1 else x.block0
def Mat.setBlock (x : Mat) (st : Nat) (b : BitVec 30) : Mat :=
  if x.share && decide (st = 1) then { x with block1 := b } else { x with block0 := b }
/-- The stream of a context's commands. -/
def Mat.stream (x : Mat) (k : Nat) : Nat := if x.share then k else 0
def Mat.busy (x : Mat) (st : Nat) : Nat := if st = 1 then x.busy1 else x.busy0
def Mat.setBusy (x : Mat) (st t : Nat) : Mat := if st = 1 then { x with busy1 := t } else { x with busy0 := t }

/-- Cycles of a stream's windows before core cycle `t`. -/
def windowsBefore (st t : Nat) : Nat := t / 128 * 64 + (if st = 0 then min 64 (t % 128) else t % 128 - 64)
/-- The core cycle that follows `n` (at least 1) cycles of a stream counted from core cycle `t`. -/
def Mat.laps (x : Mat) (st t n : Nat) : Nat :=
  if x.share then
    let i := windowsBefore st t + n - 1
    i / 64 * 128 + st * 64 + i % 64 + 1
  else t + n
/-- Whether a stream executes in core cycle `t`. -/
def Mat.inWindow (x : Mat) (st t : Nat) : Bool := !x.share || decide (t / 64 % 2 = st)

/-! ### Issue (R252, R253, R255 to R257) -/

/-- The lease and mode checks of a matrix command that names accumulators. -/
def State.matAllowed (s : State) (accs : List Nat) : Except Cond PUnit :=
  let x := s.myCore.mat
  let k := s.iss.ctx
  if x.share then
    if 2 ≤ k ∨ accs.any (fun a => decide (a / 2 ≠ k)) then .error matrixMode else .ok ⟨⟩
  else if x.holder = some k ∨ x.requests.contains k then .ok ⟨⟩
  else .error noLease

/-- A matrix command is accepted: in lease mode it counts, and the last one of the budget ends the lease, the holder being
entered again as a requester (R256). -/
def State.matCount (s : State) : State :=
  let k := s.iss.ctx
  let budget := s.me.csr.leasebudget.toNat
  s.onMyCore fun x =>
    if x.mat.share then x
    else if budget ≤ x.mat.count + 1 then
      { x with mat := { x.mat with holder := none, last := k, count := 0, requests := x.mat.requests.filter (· ≠ k) ++ [k] } }
    else { x with mat := { x.mat with count := x.mat.count + 1 } }

def State.matCommand (s : State) (op : Instr) (f : Nat → Cmd → Cmd) : State := (s.command .mat op f).matCount

/-- An operand descriptor at issue: a local queue is checked and its slot's read registered (R158, R164, R261). -/
def State.matSource (s : State) (d : MDesc) : Except Cond (Option SlotRef × State) :=
  if d.rem then .ok (none, s)
  else
    let q := d.queue.val
    let y := s.iss.entry.queue q
    if !y.cfg then .error (queueConfiguration 3)
    else if y.spo then .error splicedQueue
    else
      let ctr := y.head + BitVec.ofNat 16 d.off.val
      .ok (some ⟨s.myUnit, q, ctr⟩, s.holdSlot s.myUnit q ctr)

/-- The pops of the descriptors. -/
def State.matPops (s : State) (l : List MDesc) : State :=
  l.foldl (fun s d => if d.pop && !d.rem then s.popQueue d.queue.val 1 else s) s

def execTcfg (w : TileWord) : State → Res := slotOp false fun s => do
  if s.myCore.mat.share then .error matrixMode
  else
    s.matAllowed []
    pure (s.matCommand (.tcfg w) fun _ c => c)

def execMma (o : MmaOp) : State → Res := slotOp false fun s => do
  s.matAllowed [o.acc.val]
  let (a, s) ← s.matSource o.da
  let (b, s) ← s.matSource o.db
  pure ((s.matPops [o.da, o.db]).matCommand (.mma o) fun _ c => { c with srcA := a, srcB := b })

def execPmma (o : PmmaOp) : State → Res := slotOp false fun s => do
  s.matAllowed (if o.role then [] else [o.acc.val])
  if (s.unit s.myUnit).bind (·.partner) = none then .error noPartner
  else
    let (a, s) ← s.matSource o.da
    let (b, s) ← s.matSource o.db
    let index := ((s.unit s.myUnit).map (·.pairs)).getD 0
    let s := s.onMyUnit fun x => { x with pairs := x.pairs + 1 }
    pure ((s.matPops [o.da, o.db]).matCommand (.pmma o) fun _ c => { c with srcA := a, srcB := b, index })

/-- Accumulators of a mask. -/
def maskAccs (mask : BitVec 4) : List Nat := (List.range 4).filter fun i => mask.getLsbD i

def execAccz (mask : BitVec 4) : State → Res := slotOp false fun s => do
  s.matAllowed (maskAccs mask)
  pure (s.matCommand (.accz mask) fun _ c => c)

/-- ACCRD: under SR it steps the generator once, and the state it leaves seeds the record (R267). -/
def execAccrd (o : AccrdOp) : State → Res := slotOp false fun s => do
  s.matAllowed [o.acc.val]
  let y := s.iss.entry.queue o.q.val
  if !y.cfg || y.spi || y.ref != 0 || y.opn then .error (queueConfiguration 3)
  else
    let s := if o.rm = .sr then s.keepSr ⟨srStep s.racc.sr, 0⟩ else s
    let (slot, s) := s.reserve o.q.val
    pure (s.matCommand (.accrd o) fun _ c => { c with ctr := slot.1, splice := slot.2, seed := s.racc.sr })

def execAccrv (o : AccrvOp) : State → Res := slotOp false fun s => do
  s.matAllowed [o.acc.val]
  let (id, s) := s.takeLanding .v o.d.val (some (.mat, s.me.csr.tlMat.toNat + 1))
  pure (s.matCommand (.accrv o) fun _ c => { c with land := some id })

def execAccwr (o : AccwrOp) : State → Res := slotOp false fun s => do
  s.matAllowed [o.acc.val]
  let d : MDesc := ⟨false, 0, o.q, o.off, o.pop, 0⟩
  let (a, s) ← s.matSource d
  pure ((s.matPops [d]).matCommand (.accwr o) fun _ c => { c with srcA := a })

/-- Bytes of an accumulator image (R270). -/
def accImageSize : Nat := 98560

/-- Local address of an accumulator image. -/
def imageAddr (a : Word) (imm : BitVec 12) : Except Cond Nat :=
  let x := (a.toNat : Int) + 256 * imm.toInt
  if x % 256 ≠ 0 then .error (misalignedAccess 3)
  else if x < 0 ∨ (spmSize : Int) < x + accImageSize then .error (scratchpadRange 3)
  else .ok x.toNat

def execAccsave (o : AccsaveOp) : State → Res := slotOp false fun s => do
  s.matAllowed [o.acc.val]
  let a ← s.srcS o.a
  let addr ← imageAddr a o.imm
  pure (s.matCommand (.accsave o) fun _ c => { c with a := BitVec.ofNat 64 addr })

def execAccrest (o : AccrestOp) : State → Res := slotOp false fun s => do
  s.matAllowed [o.acc.val]
  let a ← s.srcS o.a
  let addr ← imageAddr a o.imm
  if o.cfg && !s.myCore.mat.share then .error accumulatorImage
  else pure (s.matCommand (.accrest o) fun _ c => { c with a := BitVec.ofNat 64 addr })

/-- LEASE: the request is granted at the end of a core cycle in which the array is free (R255, R256). -/
def execLease : State → Res := slotOp true fun s =>
  let x := s.myCore.mat
  let k := s.iss.ctx
  if x.share then .error matrixMode
  else if x.holder = some k ∨ x.requests.contains k then .ok s
  else .ok (s.onMyCore fun y => { y with mat := { y.mat with requests := y.mat.requests ++ [k] } })

/-- A context gives up the lease, or its pending request (R256, R271). -/
def Mat.giveUp (x : Mat) (k : Nat) : Mat :=
  let x := { x with requests := x.requests.filter (· ≠ k) }
  if x.holder = some k then { x with holder := none, last := k, count := 0 } else x

def execUnlease : State → Res := slotOp true fun s =>
  if s.myCore.mat.share then .error matrixMode
  else .ok (s.onMyCore fun y => { y with mat := y.mat.giveUp s.iss.ctx })

/-- The end of a core cycle: a free lease passes to the first requester after the last holder (R256). -/
def Mat.grant (x : Mat) : Mat :=
  if x.holder.isSome || x.share then x
  else match [x.last + 1, x.last + 2, x.last + 3, x.last + 4].find? fun k => x.requests.contains (k % 4) with
    | some k => { x with holder := some (k % 4), count := 0, requests := x.requests.filter (· ≠ k % 4) }
    | none => x

/-! ### What a command reads and writes -/

/-- Accumulators that a command writes. -/
def accWrites (i : Instr) : List Nat :=
  match i with
  | .mma o => [o.acc.val]
  | .pmma o => if o.role then [] else [o.acc.val]
  | .accz m => maskAccs m
  | .accrd o => if o.clr then [o.acc.val] else []
  | .accwr o => [o.acc.val]
  | .accrest o => if o.data then [o.acc.val] else []
  | .tcfg _ => [0, 1, 2, 3]
  | _ => []

/-- The accumulator that a command other than MMA and PMMA reads (R414). -/
def accReads (i : Instr) : Option Nat :=
  match i with
  | .accrd o => some o.acc.val
  | .accrv o => some o.acc.val
  | .accsave o => some o.acc.val
  | _ => none

/-- Whether a command starts only after every earlier one of its stream has completed (R259, R270). -/
def matSerial (i : Instr) : Bool :=
  match i with
  | .tcfg _ => true
  | .accrest o => o.cfg
  | _ => false

def descriptors (i : Instr) : Option (MDesc × MDesc) :=
  match i with
  | .mma o => some (o.da, o.db)
  | .pmma o => some (o.da, o.db)
  | _ => none

def isPmma (i : Instr) : Bool := match i with
  | .pmma _ => true
  | _ => false

/-! ### Faults of a pair (R264, R265) -/

/-- Send a message of a pair between partner cores. -/
def State.pairSend (s : State) (src dst : Nat) (e : Event) : State :=
  let (k, s) := s.draw
  s.after (1 + meshSteps (s.coreOf src) (s.coreOf dst) + Config.pairDelay k) e

def Unit.pair (x : Unit) (idx : Nat) : Option Cmd := x.cmds.find? fun c => isPmma c.op && decide (c.index = idx)

/-- Partial tiles of a pair, arrived or under way, are dropped. -/
def State.dropTile (s : State) (us : List Nat) (idx : Nat) : State :=
  (us.foldl (fun s u => s.onUnit u fun x => { x with pairIn := x.pairIn.filter fun p => !decide (p.1 = idx) }) s).unschedule fun e =>
    match e with
    | .pairPartialArrive v i _ _ _ _ => us.contains v && decide (i = idx)
    | _ => false

/-- One side of a pair aborts: a command in its engine faults; one that has not started faults as it starts. The tile that its first
run may have sent is gone with it. -/
def State.pairStop (s : State) (u idx : Nat) (c : Cond) : State :=
  match s.unit u with
  | none => s
  | some x =>
    let s := s.dropTile (x.partner.toList ++ [u]) idx
    match x.pair idx with
    | some z =>
      if z.stage = .taken then s.engineFault u .mat z.n c
      else if z.waiting then s.onUnit u fun y => { y with pairOff := y.pairOff ++ [(idx, c)] }
      else s
    | none => if x.pairs ≤ idx then s.onUnit u fun y => { y with pairOff := y.pairOff ++ [(idx, c)] } else s

def State.partnerOf (s : State) (u : Nat) : Option Nat := (s.unit u).bind (·.partner)

/-- Both sides of a pair abort with one cause. -/
def State.pairBoth (s : State) (u idx : Nat) (c : Cond) : State :=
  let s := s.pairStop u idx c
  match s.partnerOf u with
  | some v => s.pairStop v idx c
  | none => s

/-- A matrix command faults in the engine: a PMMA's abort goes to the other side. -/
def State.matFault (s : State) (u : Nat) (z : Cmd) (c : Cond) : State :=
  let s := s.engineFault u .mat z.n c
  if isPmma z.op then match s.partnerOf u with
    | some v => (s.dropTile [u] z.index).pairSend u v (.pairAbortArrive v z.index)
    | none => s
  else s

/-! ### Operands in the engine (R260 to R263) -/

/-- The slot of a remote descriptor, as the engine registers its read. -/
def State.remoteSlot (s : State) (u : Nat) (x : Unit) (d : MDesc) : Except Cond SlotRef :=
  match s.unitAt (clusterCore (clusterOf x.core) d.core.val) x.ctx with
  | none => .error remoteOperand
  | some v =>
    let y := (s.bankOf v).queue d.queue.val
    if s.jobOf v ≠ s.jobOf u ∨ !y.cfg ∨ y.spo then .error remoteOperand
    else .ok ⟨v, d.queue.val, y.head + BitVec.ofNat 16 d.off.val⟩

def State.slotQueue (s : State) (r : SlotRef) : Queue := (s.bankOf r.unit).queue r.queue
/-- Whether a registered slot is reserved and present. -/
def State.slotReady (s : State) (r : SlotRef) : Bool :=
  let y := s.slotQueue r
  let ahead := (y.tail - r.ctr).toNat
  decide (0 < ahead) && decide (ahead < 2 ^ 15) && y.present r.ctr

/-- Whether every slot that a started command reads is present. -/
def State.matPresent (s : State) (z : Cmd) : Bool :=
  let ok := fun (r : Option SlotRef) => match r with
    | some r => s.slotReady r
    | none => true
  ok z.srcA && ok z.srcB

/-- The checks of one operand that do not read its slot's bytes, first part: its format (R247). -/
def State.tileFormat (s : State) (r : SlotRef) : Except Cond (Fmt × Nat) :=
  match tagFormat ((s.slotQueue r).tagOf r.ctr) with
  | some (f, g) => if matOperand f g then .ok (f, g) else .error operandFormat
  | none => .error operandFormat

/-- KS against the blocks of an operand. -/
def ksFits (geo ks : Nat) : Bool :=
  if geo = 0 then true else if geo = 5 then decide (ks % 512 = 0) else decide (ks % geoBlock geo = 0)

/-- The runs of bytes, offset and length, that slice `i` of a tile takes: 16 elements of every row, and the scale bytes or group
records that begin in them. -/
def tileSlice (f : Fmt) (geo rows ks i : Nat) : List (Nat × Nat) :=
  let g := if geo = 5 then 512 else geoBlock geo
  let u := if geo = 5 then 128 else 1
  let starts := (List.range (ks / g)).filter fun j => decide (g * j / 16 = i)
  ((List.range rows).map fun m => (m * ks * f.bits / 8 + 2 * f.bits * i, 2 * f.bits))
  ++ (if geo = 0 then [] else (List.range rows).flatMap fun m =>
      starts.map fun j => (roundUp256 (tileData f rows ks) + (m * (ks / g) + j) * u, u))

/-- The operands of a command that are remote: 0 A, 1 B. -/
def remoteOps (i : Instr) : List Nat :=
  match descriptors i with
  | some (a, b) => (if a.rem then [0] else []) ++ (if b.rem then [1] else [])
  | none => []

/-- Where a command keeps the bytes that it has fetched of an operand. -/
def sliceBase (i : Nat) : Nat := 131072 * i

/-- Read the tile of operand `i` of a command: of a remote one, as its slices were served. -/
def State.readTile (s : State) (z : Cmd) (i : Nat) (r : SlotRef) (f : Fmt) (geo rows ks : Nat) : Except Cond Tile := do
  let n := tileData f rows ks
  let m := tileScales geo rows ks
  if z.fetch.isSome && (remoteOps z.op).contains i then
    .ok ⟨f, geo, rows, ks, z.boundFrom (sliceBase i) n, z.boundFrom (sliceBase i + roundUp256 n) m⟩
  else
    let core := s.coreOf r.unit
    let a := (s.slotQueue r).slotAddr r.ctr
    let data ← s.engineRead core 3 a n
    let scales ← s.engineRead core 3 (a + roundUp256 n) m
    .ok ⟨f, geo, rows, ks, data, scales⟩

/-- The operands of an MMA or PMMA, with their formats, after the checks of R260 up to the slots' sizes. -/
def State.operands (s : State) (core : Nat) (z : Cmd) (block : BitVec 30) : Except Cond ((SlotRef × Fmt × Nat) × (SlotRef × Fmt × Nat)) :=
  match descriptors z.op, z.srcA, z.srcB with
  | some (da, db), some ra, some rb => do
    let ks := blockKs block
    let (fa, ga) ← s.tileFormat ra
    let (fb, gb) ← s.tileFormat rb
    if (da.geo.val ≠ 0 ∧ da.geo.val ≠ ga) ∨ (db.geo.val ≠ 0 ∧ db.geo.val ≠ gb) then .error (formatMismatch 3)
    else if (ga = 5 ∨ gb = 5) ∧ !(s.core core).maint then .error (formatAttribute 3)
    else if !ksFits ga ks || !ksFits gb ks then .error (formatMismatch 3)
    else if (s.slotQueue ra).slotBytes < tileBytes fa ga (blockM block) ks
        ∨ (s.slotQueue rb).slotBytes < tileBytes fb gb (blockN block) ks then .error (slotSize 3)
    else .ok ((ra, fa, ga), (rb, fb, gb))
  | _, _, _ => .error remoteOperand

/-- The block that a started command runs under, kept in its record. -/
def Cmd.block (z : Cmd) : BitVec 30 := z.c.setWidth 30

/-- The accumulator an MMA, or a PMMA of the owner, writes. -/
def mmaAcc (i : Instr) : Option Nat :=
  match i with
  | .mma o => some o.acc.val
  | .pmma o => if o.role then none else some o.acc.val
  | _ => none
def mmaZero (i : Instr) : Bool :=
  match i with
  | .mma o => o.z
  | .pmma o => o.z || o.role
  | _ => true

/-- The operands of a command after every check of R260; the partner of a pair writes no accumulator. -/
def State.checkedOperands (s : State) (core : Nat) (z : Cmd) : Except Cond ((SlotRef × Fmt × Nat) × (SlotRef × Fmt × Nat)) := do
  let (a, b) ← s.operands core z z.block
  match mmaAcc z.op with
  | some c => if blockInt z.block c = pairIsInt a.2.1 a.2.2 b.2.1 b.2.2 then .ok (a, b) else .error accumulatorFormat
  | none => .ok (a, b)

/-- The tiles of a command, read after every check. -/
def State.mmaTiles (s : State) (core : Nat) (z : Cmd) : Except Cond (Tile × Tile) := do
  let ((ra, fa, ga), (rb, fb, gb)) ← s.checkedOperands core z
  let a ← s.readTile z 0 ra fa ga (blockM z.block) (blockKs z.block)
  let b ← s.readTile z 1 rb fb gb (blockN z.block) (blockKs z.block)
  if a.groupsOk && b.groupsOk then .ok (a, b) else .error (blockMap 3)

/-- Width in bytes of an ACCRD element, its tag and its format. -/
def accTyBytes : AccTy → Nat
  | .i8 => 1 | .i32 => 4 | .f16 => 2 | .bf16 => 2 | .f32 => 4
def accTyTag : AccTy → Nat
  | .i8 => 1 | .i32 => 10 | .f16 => 7 | .bf16 => 8 | .f32 => 9

/-- Bytes of one element of an ACCWR's slot; none for a tag that the accumulator does not take (R269). -/
def accwrBytes (int : Bool) (tag : Nat) : Option Nat :=
  if int then (if tag = 10 then some 4 else none)
  else if tag = 7 ∨ tag = 8 then some 2 else if tag = 9 then some 4 else none

/-- Whether an image's header is one that ACCREST takes (R270). -/
def imageHeaderOk (b : List Byte) : Bool :=
  let w := BitVec.ofNat 30 (leNat (b.take 4))
  decide (leNat (b.take 256) < 2 ^ 30) && decide (blockN w ≤ 192) && decide (blockPf w ≤ 8)

/-- A command whose read of an accumulator meets an uncorrectable error raises data error (R374). -/
def State.accRead (s : State) (core acc : Nat) (test : Nat → Nat → Bool) : Except Cond PUnit :=
  if (s.core core).accSpoilt fun a i j => decide (a = acc) && test i j then .error (dataError 3) else .ok ⟨⟩

/-- The checks that a command makes as its operands are present, and the core cycles it occupies its stream. -/
def State.matCheck (s : State) (u : Nat) (x : Unit) (z : Cmd) : Except Cond Nat :=
  let block := z.block
  let mn := blockM block * blockN block
  match z.op with
  | .mma _ | .pmma _ => do
    let (a, b) ← s.mmaTiles x.core z
    let _ ← match mmaAcc z.op with
      | some c => if mmaZero z.op then .ok ⟨⟩ else s.accRead x.core c fun i j => decide (i < blockM block) && decide (j < blockN block)
      | none => .ok ⟨⟩
    .ok (blockKs block * max (matWidth a.fmt) (matWidth b.fmt) / 8)
  | .accrd o =>
    let n := mn * accTyBytes o.ty
    if ((s.bankOf u).queue o.q.val).slotBytes < n then .error (slotSize 3) else do
      let _ ← s.accRead x.core o.acc.val fun i j => decide (i < blockM block) && decide (j < blockN block)
      .ok ((n + 255) / 256)
  | .accrv o => do
    let _ ← s.accRead x.core o.acc.val fun i j => decide (i = o.row.val) && decide (j / 64 = o.grp.val)
    .ok 1
  | .accwr o => match z.srcA with
    | some r => match accwrBytes (blockInt block o.acc.val) ((s.slotQueue r).tagOf r.ctr) with
      | none => .error (formatMismatch 3)
      | some w => if (s.slotQueue r).slotBytes < mn * w then .error (slotSize 3) else do
        let _ ← s.engineRead x.core 3 ((s.slotQueue r).slotAddr r.ctr) (mn * w)
        .ok ((mn * w + 255) / 256)
    | none => .ok 1
  | .accsave o => do
    let _ ← s.accRead x.core o.acc.val fun _ _ => true
    .ok 385
  | .accrest _ => do
    let b ← s.engineRead x.core 3 z.a.toNat accImageSize
    if imageHeaderOk b then .ok 385 else .error accumulatorImage
  | _ => .ok 1

/-! ### Effects (R248, R259 to R270) -/

def State.setAcc (s : State) (core acc : Nat) (rows cols : Nat) (v : Nat → Nat → BitVec 32) : State :=
  s.onCore core fun x => { x.healAcc (fun a i j => decide (a = acc) && decide (i < rows) && decide (j < cols)) with
    mat := (List.range rows).foldl (fun y m => (List.range cols).foldl (fun y n => y.setElem acc m n (v m n)) y) x.mat }

def State.accElem (s : State) (core acc m n : Nat) : BitVec 32 := (s.core core).mat.elem acc m n

/-- One converted element of ACCRD (R267). -/
def accConvert (int : Bool) (t : AccTy) (rm : Rm) (v : BitVec 32) (a : RAcc) : Nat × RAcc :=
  if int && decide (t = .i32) then (v.toNat, a)
  else
    let (x, a) := if int then (Ext.ofInt v.toInt, a) else FFmt.f32.read v.toNat a
    let whole := fun (bits : Nat) =>
      let (i, a) := roundI (intLo true bits) (intHi true bits) rm x a
      (wrapInt bits i, a)
    match t with
    | .i8 => whole 8
    | .i32 => whole 32
    | .f16 => roundF .f16 rm x a
    | .bf16 => roundF .bf16 rm x a
    | .f32 => roundF .f32 rm x a

/-- The slot bytes of an ACCRD, with flags. -/
def accrdBytes (int : Bool) (o : AccrdOp) (seed : BitVec 32) (l : List (BitVec 32)) : List Byte × Flags :=
  let r := l.foldl (fun (acc : List Byte × RAcc) v =>
    let (c, a) := accConvert int o.ty o.rm v acc.2
    (acc.1 ++ leBytes c (accTyBytes o.ty), a)) ([], ⟨seed, 0⟩)
  (r.1, r.2.fl)

/-- One element that ACCWR writes, with flags. -/
def accwrElem (tag : Nat) (b : List Byte) (i : Nat) : BitVec 32 × Flags :=
  if tag = 7 ∨ tag = 8 then
    let (x, a) := (if tag = 7 then FFmt.f16 else FFmt.bf16).read (leNat ((b.drop (2 * i)).take 2)) ⟨0, 0⟩
    let (c, a) := roundF .f32 .rne x a
    (BitVec.ofNat 32 c, a.fl)
  else (BitVec.ofNat 32 (leNat ((b.drop (4 * i)).take 4)), 0)

/-- Release the slots that a command read. -/
def State.matRelease (s : State) (z : Cmd) : State :=
  let go := fun (s : State) (r : Option SlotRef) => match r with
    | some r => s.releaseSlot r.unit r.queue r.ctr
    | none => s
  go (go s z.srcA) z.srcB

/-- Bytes read for an effect, which the checks have found readable. -/
def State.matBytes (s : State) (core a n : Nat) : List Byte := (s.core core).spm.readBytes a n

/-- The effect of a command other than PMMA, with its flags; its number completes later or by its landing or slot. -/
def State.matEffect (s : State) (u : Nat) (x : Unit) (z : Cmd) : State :=
  let block := z.block
  let (m, n) := (blockM block, blockN block)
  let core := x.core
  let mark := fun (s : State) (fl : Flags) => s.onCmd u .mat z.n fun y => { y with stage := .effected, flags := fl }
  match z.op with
  | .tcfg w => mark (s.onCore core fun y => { y.healAcc fun _ _ _ => true with mat := { (y.mat.setBlock 0 (tileWordBits w)) with acc := [] } }) 0
  | .accz mask => mark (s.onCore core fun y => { y.healAcc fun a _ _ => mask.getLsbD a with mat := { y.mat with
      acc := y.mat.acc.filter fun e => !mask.getLsbD (e.1 / (128 * 192)) } }) 0
  | .mma o => match s.mmaTiles core z with
    | .error e => s.matFault u z e
    | .ok (a, b) =>
      let (l, fl) := matProduct a b z.tabA z.tabB fun i j => if o.z then 0 else s.accElem core o.acc.val i j
      (mark (s.setAcc core o.acc.val m n fun i j => l.getD (i * n + j) 0) fl).matRelease z
  | .accrd o =>
    let l := (List.range (m * n)).map fun i => s.accElem core o.acc.val (i / n) (i % n)
    let (b, fl) := accrdBytes (blockInt block o.acc.val) o z.seed l
    let s := if o.clr then s.setAcc core o.acc.val m n fun _ _ => 0 else s
    (mark s fl).engineFill u z o.q.val [(0, b)] (accTyTag o.ty)
  | .accrv o => match z.land with
    | some id =>
      let v := BitVec.ofNat 2048 (packNat 32 ((List.range 64).map fun i => (s.accElem core o.acc.val o.row.val (64 * o.grp.val + i)).toNat))
      (mark s 0).landReady u id z.due v allLanes 0
    | none => mark s 0
  | .accwr o => match z.srcA with
    | some r =>
      let tag := (s.slotQueue r).tagOf r.ctr
      let b := s.matBytes core ((s.slotQueue r).slotAddr r.ctr) (m * n * ((accwrBytes (blockInt block o.acc.val) tag).getD 4))
      let l := (List.range (m * n)).map fun i => accwrElem tag b i
      let fl := l.foldl (fun f e => f ||| e.2) 0
      (mark (s.setAcc core o.acc.val m n fun i j => ((l[i * n + j]?).map (·.1)).getD 0) fl).matRelease z
    | none => mark s 0
  | .accsave o =>
    let img := accImage ((s.core core).mat.block ((s.core core).mat.stream x.ctx)) fun i j => s.accElem core o.acc.val i j
    mark (s.onCore core fun y => y.putBytes z.a.toNat img) 0
  | .accrest o =>
    let b := s.matBytes core z.a.toNat accImageSize
    let w : BitVec 30 := BitVec.ofNat 30 (leNat (b.take 4))
    let s := if o.data then s.setAcc core o.acc.val 128 192 fun i j =>
      BitVec.ofNat 32 (leNat ((b.drop (256 + 4 * (i * 192 + j))).take 4)) else s
    let s := if o.cfg then s.onCore core fun y => { y with mat := y.mat.setBlock (y.mat.stream x.ctx) w } else s
    mark s 0
  | _ => s

/-! ### Streams (R252, R253, R414) -/

/-- The commands of a stream of a core, with their units. -/
def State.matStream (s : State) (core st : Nat) : List (Nat × Cmd) :=
  let m := (s.core core).mat
  (s.engineCmds core .mat).filter fun p => match s.unit p.1 with
    | some x => decide (m.stream x.ctx = st)
    | none => false

/-- A started command of the stream whose operands are not all there. -/
def matPending (l : List (Nat × Cmd)) : Option (Nat × Cmd) := l.find? fun p => decide (p.2.stage = .taken) && decide (p.2.due = 0)

/-- Whether a command may start: TCFG after every earlier one has completed, a reader after every earlier write of its
accumulator is done. -/
def matMayStart (l : List (Nat × Cmd)) (p : Nat × Cmd) : Bool :=
  let before := l.filter fun a => decide (a.2.place < p.2.place)
  (!matSerial p.2.op || before.isEmpty)
  && match accReads p.2.op with
    | some r => !(before.any fun a => (accWrites a.2.op).contains r
        && (decide (a.2.stage = .taken) || decide (a.2.stage = .effected)))
    | none => true

/-- What MAT_COMMAND_START may do in a stream: begin a started command whose operands have come, or start the next. -/
inductive MatNext where
  | begin_ (u : Nat) (z : Cmd)
  | start (u : Nat) (z : Cmd)
  /-- the array begins the next slice of remote operands -/
  | slice (u : Nat) (z : Cmd)
deriving DecidableEq, Repr

/-- Whether the accumulators of a unit lie in its save area: its commands are kept for replay until they are loaded (R272, R384). -/
def State.awaitsImages (s : State) (u : Nat) : Bool := (s.unit u).any fun x => x.saved.any fun v => decide (v.acc ≠ 0)

def State.matNext (s : State) (core st : Nat) : Option MatNext :=
  let m := (s.core core).mat
  let l := (s.matStream core st).filter fun p => !s.awaitsImages p.1
  if !m.inWindow st s.now then none
  else match matPending l with
    | some (u, z) => match z.fetch with
      | none => if s.matPresent z then some (.begin_ u z) else none
      | some f => if f.next ≤ s.now ∧ (remoteOps z.op).all fun i => f.got.contains (i, f.begun) then some (.slice u z) else none
    | none =>
      if s.now < m.busy st then none
      else match firstPlace (l.filter fun p => p.2.waiting && !behindFault l p) with
        | some (u, z) => if decide (z.due ≤ s.now) && matMayStart l (u, z) then some (.start u z) else none
        | none => none

/-- A command starts in the engine: its queue entry frees, it takes the block and the codebooks, registers its remote reads,
and a pair's wait begins (R260, R262, R265, R415). -/
def State.matStart (s : State) (u : Nat) (x : Unit) (z : Cmd) : State :=
  let y := s.core x.core
  let m := y.mat
  let cb := match z.op with
    | .mma o => (y.codebook o.cba.val, y.codebook o.cbb.val)
    | .pmma o => (y.codebook o.cba.val, y.codebook o.cbb.val)
    | _ => (0, 0)
  let s := s.takeCmd u .mat z.n fun c => { c with
    c := (m.block (m.stream x.ctx)).setWidth 64, tabA := cb.1, tabB := cb.2, due := 0, fetch := none, bound := [], limit := 0 }
  match x.pairOff.find? fun p => isPmma z.op && decide (p.1 = z.index) with
  | some p => (s.onUnit u fun y => { y with pairOff := y.pairOff.filter (· ≠ p) }).engineFault u .mat z.n p.2
  | none =>
    let slot := fun (r : Option SlotRef) (d : MDesc) => match r with
      | some r => Except.ok (r, false)
      | none => (s.remoteSlot u x d).map fun r => (r, true)
    match descriptors z.op with
    | none => s
    | some (da, db) => match slot z.srcA da, slot z.srcB db with
      | .error e, _ => s.matFault u z e
      | .ok _, .error e => s.matFault u z e
      | .ok (ra, na), .ok (rb, nb) =>
        let s := if na then s.holdSlot ra.unit ra.queue ra.ctr else s
        let s := if nb then s.holdSlot rb.unit rb.queue rb.ctr else s
        let w := (s.bankOf u).csr.pairwin.toNat
        let limit := s.now + (if w = 0 then 4096 else w)
        let owner := isPmma z.op && (mmaAcc z.op).isSome
        let s := s.onCmd u .mat z.n fun c => { c with srcA := some ra, srcB := some rb, limit := if owner then limit else 0 }
        if owner then s.at_ limit (.pairTimeout u z.index) else s

/-- The core that owns an operand. -/
def State.operandCore (s : State) (z : Cmd) (i : Nat) : Nat := ((if i = 0 then z.srcA else z.srcB).map fun r => s.coreOf r.unit).getD 0

/-- Ask the owning cores for slice `n` of every remote operand of a command. -/
def State.askSlice (s : State) (core : Nat) (z : Cmd) (n due : Nat) : State :=
  (remoteOps z.op).foldl (fun s i =>
    s.onCore (s.operandCore z i) fun y => { y with remote := y.remote ++ [⟨core, z.place, i, n, due⟩] }) s

/-- The next boundary at which requests are served. -/
def sliceBoundary (now : Nat) : Nat := (now / 16 + 1) * 16

/-- The first requests of a command: with a prefetch depth, that many slices; without, the first, a round trip of 12 away. -/
def State.beginFetch (s : State) (u : Nat) (x : Unit) (z : Cmd) (busy : Nat) : State :=
  let pf := blockPf z.block
  let n := blockKs z.block / 16
  let s := if pf = 0 then s.askSlice x.core z 0 (s.now + 12)
    else (List.range (min pf n)).foldl (fun s i => s.askSlice x.core z i (sliceBoundary s.now)) s
  s.onCmd u .mat z.n fun c => { c with fetch := some ⟨pf, n, busy / n, 0, s.now, []⟩ }

/-- The array begins the next slice, and asks for the slice that the prefetch depth names; after the last the command's result
is due. -/
def State.beginSlice (s : State) (u : Nat) (x : Unit) (z : Cmd) (f : Fetch) : State :=
  let m := (s.core x.core).mat
  let st := m.stream x.ctx
  let next := m.laps st s.now f.width
  let ask := if f.pf = 0 then f.begun + 1 else f.begun + f.pf
  let s := if ask < f.slices then s.askSlice x.core z ask (if f.pf = 0 then next + 12 else sliceBoundary s.now) else s
  let s := s.onCmd u .mat z.n fun c => { c with fetch := some { f with begun := f.begun + 1, next } }
  if f.begun + 1 < f.slices then s
  else (s.onCore x.core fun y => { y with mat := y.mat.setBusy st next }).onCmd u .mat z.n fun c =>
    { c with due := m.laps st s.now (f.width + 24) }

/-- The operands have come: the checks are made and the busy cycles begin, slice by slice where an operand is remote. -/
def State.matBegin (s : State) (u : Nat) (x : Unit) (z : Cmd) : State :=
  match s.matCheck u x z with
  | .error e => s.matFault u z e
  | .ok busy =>
    if remoteOps z.op ≠ [] then s.beginFetch u x z busy
    else
      let (k, s) := s.draw
      let port := match z.op with
        | .accrd _ | .accsave _ | .accrest _ => Config.portDelay k
        | _ => 0
      let late := match z.op with
        | .mma _ | .pmma _ | .accrv _ => 24
        | _ => 0
      let m := (s.core x.core).mat
      let st := m.stream x.ctx
      let s := s.onCore x.core fun y => { y with mat := y.mat.setBusy st (m.laps st s.now (busy + port)) }
      s.onCmd u .mat z.n fun c => { c with due := m.laps st s.now (busy + port + late) }

/-- MAT_COMMAND_START (R252, R414). -/
def execMatCommandStart (c st : Nat) (s : State) : Res :=
  .next (match s.matNext c st with
    | some (.begin_ u z) => match s.unit u with
      | some x => s.matBegin u x z
      | none => s
    | some (.start u z) => match s.unit u with
      | some x => s.matStart u x z
      | none => s
    | some (.slice u z) => match s.unit u, z.fetch with
      | some x, some f => s.beginSlice u x z f
      | _, _ => s
    | none => s)

/-- The bytes of a slice of an operand, where the command keeps them. -/
def State.sliceBytes (s : State) (z : Cmd) (i n : Nat) : Except Cond (List (Nat × Byte)) := do
  let ks := blockKs z.block
  match (if i = 0 then z.srcA else z.srcB) with
  | none => .ok []
  | some r =>
    let (f, g) ← s.tileFormat r
    let a := (s.slotQueue r).slotAddr r.ctr
    (tileSlice f g (if i = 0 then blockM z.block else blockN z.block) ks n).foldlM (fun l run => do
      let b ← s.engineRead (s.coreOf r.unit) 3 (a + run.1) run.2
      .ok (l ++ b.zipIdx.map fun y => (sliceBase i + run.1 + y.2, y.1))) []

/-- A slice reaches the command that asked for it. -/
def State.serveSlice (s : State) (r : SliceReq) : State :=
  match (s.engineCmds r.core .mat).find? fun p => decide (p.2.place = r.place) && decide (p.2.stage = .taken) with
  | some (u, z) => match z.fetch, s.sliceBytes z r.oper r.slice with
    | some _, .ok b => s.onCmd u .mat z.n fun c => { c with
        bound := c.bound ++ b, fetch := c.fetch.map fun f => { f with got := f.got ++ [(r.oper, r.slice)] } }
    | some _, .error e => s.matFault u z e
    | none, _ => s
  | none => s

/-- REMOTE_SLICE_SERVE (R263): the owning core serves every request whose boundary has come. -/
def execRemoteSliceServe (c : Nat) (s : State) : Res :=
  let got := (s.core c).remote.filter (·.due ≤ s.now)
  let s := s.onCore c fun y => { y with remote := y.remote.filter fun r => decide (s.now < r.due) }
  .next (got.foldl State.serveSlice s)

/-! ### Completion (R248, R252, R254, R264) -/

/-- Earlier commands of the stream whose effects a command's effect follows. -/
def matBefore (l : List (Nat × Cmd)) (u : Nat) (z : Cmd) : List (Nat × Cmd) :=
  l.filter fun a => decide (a.2.place < z.place) && decide (a.2.stage ≠ .effected) && (decide (a.1 = u) || decide (a.2.stage = .taken))

/-- Whether an earlier command's effect can be made now, ahead of its completion: its operands have come, and it is no PMMA
that waits for its partner. -/
def matSettled (z : Cmd) : Bool :=
  decide (z.stage = .taken) && decide (z.due ≠ 0) && (!isPmma z.op || (mmaAcc z.op).isNone)

/-- Whether every earlier effect is made or can be made. -/
def State.matInOrder (s : State) (x : Unit) (u : Nat) (z : Cmd) : Bool :=
  (matBefore (s.matStream x.core ((s.core x.core).mat.stream x.ctx)) u z).all fun a => matSettled a.2

/-- Make the effects of the earlier commands, in acceptance order: a partner's PMMA has none of its own. -/
def State.matCatchUp (s : State) (x : Unit) (u : Nat) (z : Cmd) : State :=
  let l := (matBefore (s.matStream x.core ((s.core x.core).mat.stream x.ctx)) u z).filter fun a => !isPmma a.2.op
  let sorted := l.foldl (fun acc a => acc.takeWhile (fun b => decide (b.2.place ≤ a.2.place)) ++ a
    :: acc.dropWhile (fun b => decide (b.2.place ≤ a.2.place))) []
  sorted.foldl (fun s a => match s.unit a.1 with
    | some y => s.matEffect a.1 y a.2
    | none => s) s

/-- The owner's commit (R264): once its own part is computed, earlier effects are made and the partner's tile is there. -/
def State.pairCommit (s : State) (u idx : Nat) : State :=
  match s.unit u with
  | none => s
  | some x => match x.pair idx, x.pairIn.find? fun p => decide (p.1 = idx) with
    | some z, some (_, rows, cols, int, tile) =>
      if (mmaAcc z.op).isSome && decide (z.stage = .taken) && decide (z.due ≠ 0) && decide (z.due ≤ s.now) && s.matInOrder x u z then
        let s := s.matCatchUp x u z
        match s.mmaTiles x.core z with
        | .error e => s.matFault u z e
        | .ok (a, b) =>
          let mine := pairIsInt a.fmt a.geo b.fmt b.geo
          let (m, n) := (blockM z.block, blockN z.block)
          if rows ≠ m ∨ cols ≠ n ∨ int ≠ mine then s.pairBoth u idx pairMismatch
          else
            let acc := (mmaAcc z.op).getD 0
            let (part, fl) := matProduct a b z.tabA z.tabB fun i j => if mmaZero z.op then 0 else s.accElem x.core acc i j
            let res := (part.zip tile).foldl (fun (r : List (BitVec 32) × Flags) p =>
              if mine then (r.1 ++ [p.1 + p.2], r.2)
              else
                let (v, q) := faddOp .f32 .rne p.1.toNat p.2.toNat ⟨0, r.2⟩
                (r.1 ++ [BitVec.ofNat 32 v], q.fl)) ([], fl)
            let s := s.setAcc x.core acc m n fun i j => res.1.getD (i * n + j) 0
            let s := s.onUnit u fun y => { y with pairIn := y.pairIn.filter fun p => !decide (p.1 = idx) }
            let s := ((s.onCmd u .mat z.n fun c => { c with flags := res.2 }).matRelease z).finish u .mat z.n
            match s.partnerOf u with
            | some v => s.pairSend u v (.pairCommitArrive v idx)
            | none => s
      else s
    | _, _ => s

/-- The partner's part, sent to the owner; then it waits for commit or abort. -/
def State.pairPartial (s : State) (u : Nat) (x : Unit) (z : Cmd) : State :=
  match s.mmaTiles x.core z with
  | .error e => s.matFault u z e
  | .ok (a, b) =>
    let (l, fl) := matProduct a b z.tabA z.tabB fun _ _ => 0
    let w := (s.bankOf u).csr.pairwin.toNat
    let limit := s.now + (if w = 0 then 4096 else w)
    let s := (s.onCmd u .mat z.n fun c => { c with flags := fl, limit }).at_ limit (.pairTimeout u z.index)
    match x.partner with
    | some v => s.pairSend u v (.pairPartialArrive v z.index a.rows b.rows (pairIsInt a.fmt a.geo b.fmt b.geo) l)
    | none => s

/-- Whether MAT_COMMAND_DONE has something to do for a command. -/
def State.matReady (s : State) (u : Nat) (x : Unit) (z : Cmd) : Bool :=
  decide (z.due ≠ 0) && decide (z.due ≤ s.now) &&
  match z.stage with
  | .effected => z.land.isNone && z.splice.isNone
  | .taken =>
    if isPmma z.op then
      if (mmaAcc z.op).isSome then x.pairIn.any (fun p => decide (p.1 = z.index)) && s.matInOrder x u z else decide (z.limit = 0)
    else s.matInOrder x u z
  | _ => false

/-- MAT_COMMAND_DONE for the command of acceptance place `id` of a core. -/
def execMatCommandDone (c id : Nat) (s : State) : Res :=
  .next (match (s.engineCmds c .mat).find? fun p => decide (p.2.place = id) with
    | some (u, z) => match s.unit u with
      | some x =>
        if !s.matReady u x z then s
        else if z.stage = .effected then s.finish u .mat z.n
        else if isPmma z.op then (if (mmaAcc z.op).isSome then s.pairCommit u z.index else s.pairPartial u x z)
        else
          let s := (s.matCatchUp x u z).matEffect u x z
          match s.cmd u .mat z.n with
          | some y => if decide (y.stage = .effected) && y.land.isNone && y.splice.isNone then s.finish u .mat z.n else s
          | none => s
      | none => s
    | none => s)

/-- PAIR_PARTIAL_ARRIVE (R264): the tile enters the owner's pair landing buffer; it may come of a replay before the owner's own. -/
def execPairPartialArrive (u idx rows cols : Nat) (isInt : Bool) (tile : List (BitVec 32)) (s : State) : Res :=
  let live : Bool := match s.unit u with
    | some x => (x.pair idx).isSome || decide (x.pairs ≤ idx)
    | none => false
  .next (if live then
      (s.onUnit u fun x => { x with
        pairIn := x.pairIn.filter (fun p => !decide (p.1 = idx)) ++ [(idx, rows, cols, isInt, tile)] }).pairCommit u idx
    else s)

/-- PAIR_COMMIT_ARRIVE (R264). -/
def execPairCommitArrive (u idx : Nat) (s : State) : Res :=
  .next (match (s.unit u).bind fun x => x.pair idx with
    | some z => (s.matRelease z).finish u .mat z.n
    | none => s)

/-- PAIR_TIMEOUT (R265): the side that waits aborts both, unless its wait has ended or the owner has already committed. -/
def execPairTimeout (u idx : Nat) (s : State) : Res :=
  let committed := s.agenda.any fun a => match a.2 with
    | .pairCommitArrive v i => decide (v = u) && decide (i = idx)
    | _ => false
  .next (match s.unit u with
    | some x => match x.pair idx with
      | some z =>
        let here : Bool := x.pairIn.any fun p => decide (p.1 = idx)
        if decide (z.stage = .taken) && decide (z.limit ≠ 0) && decide (z.limit ≤ s.now) && !here && !committed then
          s.pairBoth u idx pairTimeoutCond
        else s
      | none => s
    | none => s)

/-- PAIR_ABORT_ARRIVE (R265). -/
def execPairAbortArrive (u idx : Nat) (s : State) : Res := .next (s.pairStop u idx pairAbort)

end Sys2Proof.Machine
end

