-- ==== Sys2Proof/Machine/Integrator.lean ====
section
/-! DEFINITION. The integrator array: steps of its domains, ownership, and the DDA commands (R273 to R294). -/
namespace Sys2Proof.Machine

/-! ### Selectors (R275, R278) -/

def selNeg (x : BitVec 12) : Bool := x.getLsbD 11
def Cell.active (c : Cell) : Bool := c.t != 0
/-- The four selectors: DX, DY0, DY1, DY2. -/
def Cell.selector (c : Cell) (k : Nat) : BitVec 12 :=
  match k with
  | 0 => c.dx | 1 => c.dy0 | 2 => c.dy1 | _ => c.dy2
def Cell.pending (c : Cell) (k : Nat) : Int := (c.pend.extractLsb' (4 * k) 4).toInt
def Cell.setPending (c : Cell) (k : Nat) (v : Int) : Cell :=
  let m : BitVec 16 := BitVec.ofNat 16 (15 * 2 ^ (4 * k))
  { c with pend := (c.pend &&& ~~~m) ||| BitVec.ofNat 16 ((BitVec.ofInt 4 v).toNat * 2 ^ (4 * k)) }

/-- A published increment. -/
def outValue (o : BitVec 2) : Int := o.toInt

def signOf (v : Int) : Int := if v < 0 then -1 else if 0 < v then 1 else 0

def Dda.lane (x : Dda) (j : Nat) : Lane := x.lanes[j]?.getD ⟨0, 0⟩
def Dda.domain (x : Dda) (d : Nat) : Domain := x.domains[d]?.getD Domain.cleared

/-- Domain of the cell or lane that a selector names; none for the other kinds. -/
def Dda.sourceDomain (x : Dda) (sel : BitVec 12) : Option Nat :=
  match selKind sel with
  | 0 => some (x.cell (selIndex sel)).dom.toNat
  | 1 => some (selIndex sel / 16)
  | _ => none

/-- Whether selector `k` of a cell reads through its pending counter. -/
def Dda.crosses (x : Dda) (c : Cell) (k : Nat) : Bool :=
  match x.sourceDomain (c.selector k) with
  | some d => decide (d ≠ c.dom.toNat)
  | none => false

/-- The increment that selector `k` of a cell delivers in a step. -/
def Dda.delivered (x : Dda) (c : Cell) (k : Nat) : Int :=
  let sel := c.selector k
  let base : Int :=
    if x.crosses c k then signOf (c.pending k)
    else match selKind sel with
      | 0 => let y := x.cell (selIndex sel)
             if y.active then outValue y.out else 0
      | 1 => outValue (x.lane (selIndex sel)).out
      | 2 => if selIndex sel = 0 then 1 else 0
      | _ => 0
  if selNeg sel then -base else base

/-! ### One step of the due domains (R276 to R281) -/

/-- A failure of a step: its domain, cell index, reason and selector. -/
structure Overrun where
  dom : Nat
  index : Nat
  reason : Nat
  sel : Nat
deriving DecidableEq, Repr

/-- A cell after its step, or the reason of its overrun. -/
def Dda.stepCell (x : Dda) (c : Cell) : Except Nat Cell :=
  let dx := x.delivered c 0
  let sum := x.delivered c 1 + x.delivered c 2 + x.delivered c 3
  let resp := c.res.toInt + dx * c.y.toInt
  let dz := resp / (2 ^ c.t.toNat : Nat)
  let ynew := c.y.toInt + sum * (2 ^ c.g.toNat : Nat)
  if dz < -1 ∨ 1 < dz then .error 0
  else if ynew < -(2 ^ 31) ∨ 2 ^ 31 - 1 < ynew then .error 1
  else
    let c := (List.range 4).foldl (fun (y : Cell) k =>
      if x.crosses c k then y.setPending k (c.pending k - signOf (c.pending k)) else y) c
    .ok { c with
      res := BitVec.ofInt 32 (resp - dz * (2 ^ c.t.toNat : Nat))
      y := BitVec.ofInt 32 ynew
      count := c.count + BitVec.ofInt 32 dz
      out := BitVec.ofInt 2 dz }

/-- The active cells of a domain, with their numbers. -/
def Dda.cellsOf (x : Dda) (d : Nat) : List (Nat × Cell) := x.cells.filter fun c => c.2.active && decide (c.2.dom.toNat = d)

/-- The first overrun of a domain's own cells. -/
def Dda.ownOverrun (x : Dda) (d : Nat) : Option Overrun :=
  (x.cellsOf d).findSome? fun c => match x.stepCell c.2 with
    | .error r => some ⟨d, c.1, r, 0⟩
    | .ok _ => none

/-- The increment that a source of a committing step publishes. -/
def Dda.publishes (x : Dda) (sel : BitVec 12) : Int :=
  match selKind sel with
  | 0 => let y := x.cell (selIndex sel)
         if y.active then match x.stepCell y with
           | .ok z => outValue z.out
           | .error _ => 0
         else 0
  | 1 => signOf ((x.lane (selIndex sel)).credit.toInt)
  | _ => 0

/-- Counter `k` of an active cell as the deliveries of the committing domains leave it. -/
def Dda.afterDelivery (x : Dda) (commits : List Nat) (c : Cell) (k : Nat) : Int :=
  if commits.contains c.dom.toNat then c.pending k - signOf (c.pending k) else c.pending k

/-- The first publication of a domain that overruns a pending counter. -/
def Dda.pendingOverrun (x : Dda) (commits : List Nat) (d : Nat) : Option Overrun :=
  (x.cells.filter fun c => c.2.active).findSome? fun c => (List.range 4).findSome? fun k =>
    if x.crosses c.2 k && decide (x.sourceDomain (c.2.selector k) = some d) then
      let v := x.afterDelivery commits c.2 k + x.publishes (c.2.selector k)
      if v < -7 ∨ 7 < v then some ⟨d, c.1, 2, k⟩ else none
    else none

/-- The domains of a cycle that commit, and the overruns of the others; each domain that fails may make another fail. -/
def Dda.settle (x : Dda) : Nat → List Nat → List Overrun → List Nat × List Overrun
  | 0, commits, bad => (commits, bad)
  | n + 1, commits, bad =>
    match commits.findSome? fun d => x.pendingOverrun commits d with
    | some o => x.settle n (commits.filter (· ≠ o.dom)) (bad ++ [o])
    | none => (commits, bad)

/-- Whether a domain steps in core cycle `t` (R280). -/
def Dda.stepsAt (x : Dda) (t d : Nat) : Bool :=
  let y := x.domain d
  y.budget != 0 && decide (t % (y.km1.toNat + 1) = 0) && decide (x.pausedUntil ≤ t)
def Dda.due (x : Dda) (t : Nat) : List Nat := (List.range 4).filter fun d => x.stepsAt t d

/-- The steps of one core cycle: the array, and the overruns. -/
def Dda.step (x : Dda) (t : Nat) : Dda × List Overrun :=
  let due := x.due t
  let own := due.filterMap fun d => x.ownOverrun d
  let (commits, bad) := x.settle 4 (due.filter fun d => !(own.any fun o => decide (o.dom = d))) own
  let stepped := x.cells.map fun c =>
    let y := if c.2.active && commits.contains c.2.dom.toNat then match x.stepCell c.2 with
        | .ok z => z
        | .error _ => c.2
      else c.2
    if c.2.active then
      (c.1, (List.range 4).foldl (fun (z : Cell) k =>
        match x.sourceDomain (c.2.selector k) with
        | some d => if x.crosses c.2 k && commits.contains d then z.setPending k (z.pending k + x.publishes (c.2.selector k)) else z
        | none => z) y)
    else (c.1, y)
  let lanes := Vector.ofFn fun (j : Fin 64) =>
    let l := x.lane j.val
    if commits.contains (j.val / 16) then
      let e := signOf l.credit.toInt
      (⟨l.credit - BitVec.ofInt 16 e, BitVec.ofInt 2 e⟩ : Lane)
    else l
  let domains := Vector.ofFn fun (d : Fin 4) =>
    let y := x.domain d.val
    if commits.contains d.val then { y with budget := y.budget - 1, steps := y.steps + 1 } else y
  let y := { x with cells := stepped.filter fun c => c.2 != Cell.cleared, lanes, domains }
  (if bad.isEmpty then y else y.halted, bad)

/-- The overrun that the word reports: of the lowest domain, the lowest index. -/
def worst (l : List Overrun) : Option Overrun :=
  l.foldl (fun m o => match m with
    | none => some o
    | some p => if o.dom < p.dom ∨ (o.dom = p.dom ∧ o.index < p.index) then some o else m) none

def overrunWord (o : Overrun) (step : Nat) (lane : Bool) : Word :=
  BitVec.ofNat 64 (step % 2 ^ 32 * 2 ^ 32 + o.reason * 2 ^ 16 + o.sel * 2 ^ 14 + o.dom * 2 ^ 12 + bit lane 9 + o.index)

/-! ### DSTEP numbers (R281, R284) -/

def isDstep (i : Instr) : Bool := match i with
  | .dstep .. => true
  | _ => false
def dstepMask (i : Instr) : BitVec 4 := match i with
  | .dstep m _ => m
  | _ => 0

/-- The DSTEPs of a core that have executed and not completed, in acceptance order. -/
def State.openSteps (s : State) (core : Nat) : List (Nat × Cmd) :=
  (s.engineCmds core .dda).filter fun p => isDstep p.2.op && decide (p.2.stage = .effected)

/-- The step count at which a DSTEP is done in domain `d`. -/
def Cmd.target (z : Cmd) (d : Nat) : BitVec 64 := z.vec.extractLsb' (64 * d) 64

/-- Complete every DSTEP whose targets are reached, or every one. -/
def State.completeSteps (s : State) (core : Nat) (all : Bool) : State :=
  (s.openSteps core).foldl (fun s p =>
    let x := (s.core core).dda
    let reached := (List.range 4).all fun d =>
      !(dstepMask p.2.op).getLsbD d || decide (0 ≤ ((x.domain d).steps - p.2.target d).toInt)
    if all || reached then s.finish p.1 .dda p.2.n else s) s

/-- The array changes; while its owner is out, so does the image in the owner's save area (R379, R383). -/
def State.putDda (s : State) (core : Nat) (y : Dda) : State :=
  let s := s.onCore core fun x => { x with dda := y }
  match y.owner.bind fun u => (s.unit u).bind fun x => x.saved.map fun v => (u, v) with
  | some (u, v) => if v.dda.isSome && !s.resident u
      then (s.onUnit u fun x => { x with saved := some { v with dda := some y } }).storeImage u
      else s
  | none => s

/-- An overrun: every budget is 0, every outstanding DSTEP completes, and the condition is raised once (R281). -/
def State.overrun (s : State) (core u n : Nat) (pc : Word) (w : Word) : State :=
  let s := s.putDda core (s.core core).dda.halted
  (s.asyncRaise u .dda n pc { incrementOverrun with tval := some w }).completeSteps core true

/-- Whether the array of a core steps: its owner is resident and restored, or has ended (R283, R384). -/
def State.ddaRuns (s : State) (core : Nat) : Bool :=
  match (s.core core).dda.owner with
  | some u => match s.unit u with
    | some x => decide (x.life ≠ .live) || (s.resident u && decide ((s.ctx x.core x.ctx).moving ≤ s.now))
    | none => true
  | none => true

/-- What the array does with its commands at the end of this core cycle. -/
inductive DdaNext where
  | begin_ (u : Nat) (z : Cmd)
  | finish (u : Nat) (z : Cmd)
deriving DecidableEq, Repr

/-- Whether a command waits for the earlier DSTEP numbers (R284). -/
def ddaWaits (i : Instr) : Bool :=
  match i with
  | .dsave _ _ rel => rel
  | .dload .. => true
  | _ => false

/-- Commands go on while their unit is out (R379). -/
def State.ddaNext (s : State) (core : Nat) : Option DdaNext :=
  let x := (s.core core).dda
  let l := s.engineCmds core .dda
  match l.find? fun p => decide (p.2.stage = .taken) with
  | some (u, z) => if z.due ≤ s.now then some (.finish u z) else none
  | none =>
    if s.now < x.busyUntil then none
    else match firstPlace (l.filter fun p => p.2.waiting && !behindFault l p) with
      | some (u, z) =>
        let steps := l.any fun a => isDstep a.2.op && decide (a.2.stage = .effected) && decide (a.2.place < z.place)
        if decide (z.due ≤ s.now) && !(ddaWaits z.op && steps) then some (.begin_ u z) else none
      | none => none

/-- The credit of a lane after an injection (R290). -/
def Dda.injected (x : Dda) (z : Cmd) (j : Nat) : Int := (x.lane j).credit.toInt + (z.vec.extractLsb' (32 * j) 32).toInt

/-- The lowest lane whose credit an injection would overrun. -/
def Dda.overflow (x : Dda) (z : Cmd) : Option Overrun :=
  ((List.range 64).find? fun j => decide (x.injected z j < -32767) || decide (32767 < x.injected z j)).map fun j => ⟨j / 16, j, 3, 0⟩

/-- The DINJ that begins at the end of this core cycle and overruns a lane. -/
def State.failingDinj (s : State) (core : Nat) : Option (Nat × Cmd × Overrun) :=
  match s.ddaNext core with
  | some (.begin_ u z) => match z.op with
    | .dinj _ => ((s.core core).dda.overflow z).map fun o => (u, z, o)
    | _ => none
  | _ => none

/-- The fault of a step, against the earliest outstanding DSTEP that named its domain. -/
def State.stepOverrun (s : State) (c : Nat) (x : Dda) (o : Overrun) : State :=
  let w := overrunWord o ((x.domain o.dom).steps.toNat + 1) false
  match firstPlace ((s.openSteps c).filter fun p => (dstepMask p.2.op).getLsbD o.dom) with
  | some (u, z) => s.overrun c u z.n z.pc w
  | none => s.completeSteps c true

/-- DDA_DOMAIN_STEP (R276 to R281), at the end of a core cycle. A DINJ that overruns a lane in the cycle of a step's overrun fails with
it: one fault, for the lowest failing domain. -/
def execDdaDomainStep (c : Nat) (s : State) : Res :=
  if !s.ddaRuns c then .next s
  else
    let x := (s.core c).dda
    let (y, bad) := x.step s.now
    let s := s.putDda c y
    .next (if bad.isEmpty then s.completeSteps c false
      else
        let inj := s.failingDinj c
        let s' := match worst (bad ++ (inj.map (·.2.2)).toList), inj with
          | some o, some (u, z, p) =>
            if o = p then s.overrun c u z.n z.pc (overrunWord o 0 true) else s.stepOverrun c x o
          | some o, none => s.stepOverrun c x o
          | none, _ => s
        match inj with
        | some (u, z, _) => (s'.finish u .dda z.n).onCore c fun y => { y with dda := { y.dda with busyUntil := s.now + 1 } }
        | none => s')
/-! ### Issue (R282, R284, R286 to R294) -/

/-- Claim the array for the issuing unit (R282). -/
def State.claim (s : State) : Except Cond State :=
  match s.myCore.dda.owner with
  | none => .ok (s.onMyCore fun x => { x with dda := { x.dda with owner := some s.myUnit } })
  | some u => if u = s.myUnit then .ok s else .error integratorBusy

/-- The address of a region of `n` bytes, range first (R286). -/
def ddaAddr (a : Word) (imm : BitVec 13) (align n : Nat) : Except Cond Nat :=
  let x := (a.toNat : Int) + imm.toInt
  if x < 0 ∨ (spmSize : Int) < x + n then .error (scratchpadRange 4)
  else if x % align ≠ 0 then .error (misalignedAccess 4)
  else .ok x.toNat

def State.ddaCommand (s : State) (op : Instr) (f : Nat → Cmd → Cmd) : State :=
  s.command .dda op fun n c => f n { c with due := s.now + 2 }

def imageSize : Nat := 16896

def execDpatch (o : DpatchOp) : State → Res := slotOp false fun s => do
  let a ← s.srcS o.a
  let addr ← ddaAddr a o.imm 8 (8 * (o.n11.toNat + 1))
  let s ← s.claim
  pure (s.ddaCommand (.dpatch o) fun _ c => { c with a := BitVec.ofNat 64 addr })

def execDclk (mask : BitVec 4) (a : Src) : State → Res := slotOp false fun s => do
  let k ← s.srcS a
  let s ← s.claim
  if k = 0 ∨ 65536 < k.toNat then .error integratorRange
  else pure (s.ddaCommand (.dclk mask a) fun _ c => { c with a := k })

/-- Whether a parameter word is well formed. -/
def paramOk (w : Nat) : Bool := decide (w < 2 ^ 11) && decide (w % 32 ≠ 31)

def execDset (o : DsetOp) : State → Res := slotOp false fun s => do
  let a ← s.srcS o.a
  let v ← s.srcS o.b
  let s ← s.claim
  let c := a.toNat + o.cell.toNat
  let bad : Bool := match o.f with
    | .y | .res => decide (v.toInt < -(2 ^ 31)) || decide (2 ^ 31 - 1 < v.toInt)
    | .cnt => false
    | .par => !paramOk v.toNat
  if 512 ≤ c ∨ bad then .error integratorRange
  else pure (s.ddaCommand (.dset o) fun _ z => { z with a := BitVec.ofNat 64 c, b := v })

def execDinj (b : Src) : State → Res := slotOp false fun s => do
  let v ← s.srcV b
  let s ← s.claim
  pure (s.ddaCommand (.dinj b) fun _ c => { c with vec := v })

def execDstep (mask : BitVec 4) (a : Src) : State → Res := slotOp false fun s => do
  let n ← s.srcS a
  let s ← s.claim
  if 2 ^ 32 ≤ n.toNat then .error integratorRange
  else pure (s.ddaCommand (.dstep mask a) fun _ c => { c with a := n })

def execDread (o : DreadOp) : State → Res := slotOp false fun s => do
  let a ← s.srcS o.a
  let addr ← ddaAddr a o.imm 256 256
  let s ← s.claim
  if 448 < o.cell.toNat then .error integratorRange
  else pure (s.ddaCommand (.dread o) fun _ c => { c with a := BitVec.ofNat 64 addr })

def execDcnt (o : DcntOp) : State → Res := slotOp false fun s => do
  let y := s.iss.entry.queue o.q.val
  let rows := o.rows.val + 1
  let s ← s.claim
  if 512 < o.cell.toNat + 64 * rows then .error integratorRange
  else if !y.cfg || y.spi || y.ref != 0 || y.opn then .error (queueConfiguration 4)
  else if y.slotsz.toNat + 1 < rows then .error (slotSize 4)
  else
    let (slot, s) := s.reserve o.q.val
    pure (s.ddaCommand (.dcnt o) fun _ c => { c with ctr := slot.1, splice := slot.2 })

def execDsave (a : Src) (imm : BitVec 13) (rel : Bool) : State → Res := slotOp false fun s => do
  let x ← s.srcS a
  let addr ← ddaAddr x imm 256 imageSize
  let s ← s.claim
  pure (s.ddaCommand (.dsave a imm rel) fun _ c => { c with a := BitVec.ofNat 64 addr })

def execDload (a : Src) (imm : BitVec 13) : State → Res := slotOp false fun s => do
  let x ← s.srcS a
  let addr ← ddaAddr x imm 256 imageSize
  let s ← s.claim
  pure (s.ddaCommand (.dload a imm) fun _ c => { c with a := BitVec.ofNat 64 addr })

/-! ### Execution (R284, R287 to R294) -/

/-- Core cycles that a command executes in. -/
def ddaCycles (i : Instr) : Nat :=
  match i with
  | .dpatch o => (o.n11.toNat + 1 + 31) / 32
  | .dcnt o => o.rows.val + 1
  | .dsave .. => 66
  | .dload .. => 66
  | _ => 1

/-- The patch entries of a table; none when one is not well formed. -/
def patchEntries (b : List Byte) (n : Nat) : Option (List (Nat × BitVec 12 × BitVec 12 × BitVec 12 × BitVec 12)) :=
  (List.range n).foldl (fun acc i =>
    let w := wordAt b (8 * i)
    let sel := fun k => w.extractLsb' (12 * k) 12
    let ok := decide (w.toNat < 2 ^ 57) && (List.range 4).all fun k => selectorOk (sel k)
    match acc with
    | some l => if ok then some (l ++ [((w.extractLsb' 48 9).toNat, sel 0, sel 1, sel 2, sel 3)]) else none
    | none => none) (some [])

/-- One field of a cell as DREAD gives it. -/
def Cell.field (c : Cell) (f : CellField) : Nat :=
  match f with
  | .y => c.y.toNat
  | .res => c.res.toNat
  | .cnt => c.count.toNat
  | .par => c.par + 2 ^ 11 * c.out.toNat

/-- A cell after DSET. -/
def Cell.set (c : Cell) (f : CellField) (v : Word) : Cell :=
  match f with
  | .y => { c with y := v.setWidth 32 }
  | .res => { c with res := v.setWidth 32 }
  | .cnt => { c with count := v.setWidth 32 }
  | .par =>
    let t := v.extractLsb' 0 5
    let dom := v.extractLsb' 9 2
    let c' := { c with t, g := v.extractLsb' 5 4, dom }
    if t ≠ c.t ∨ dom ≠ c.dom then { c' with out := 0, pend := 0 } else c'

def Dda.setDomain (x : Dda) (d : Nat) (y : Domain) : Dda := { x with domains := x.domains.setIfInBounds d y }

/-- The effect of a command at the end of its last execution cycle. -/
def State.ddaEffect (s : State) (core u : Nat) (z : Cmd) : State :=
  let x := (s.core core).dda
  let keep := fun (s : State) (y : Dda) => s.putDda core y
  let doms := fun (m : BitVec 4) => (List.range 4).filter fun d => m.getLsbD d
  let done := fun (s : State) => s.finish u .dda z.n
  let at_ := z.a.toNat
  match z.op with
  | .dpatch o =>
    let n := o.n11.toNat + 1
    match s.engineRead core 5 at_ (8 * n) with
    | .error e => s.engineFault u .dda z.n e
    | .ok b => match patchEntries b n with
      | none => s.engineFault u .dda z.n patchTable
      | some l => done (keep s (l.foldl (fun (x : Dda) e =>
          let c := x.cell e.1
          x.setCell e.1 { c with dx := e.2.1, dy0 := e.2.2.1, dy1 := e.2.2.2.1, dy2 := e.2.2.2.2, pend := 0 }) x))
  | .dclk m _ => done (keep s ((doms m).foldl (fun x d => x.setDomain d { x.domain d with km1 := BitVec.ofNat 16 (at_ - 1) }) x))
  | .dset o => done (keep s (x.setCell at_ ((x.cell at_).set o.f z.b)))
  | .dinj _ => match x.overflow z with
    | some o => (s.overrun core u z.n z.pc (overrunWord o 0 true)).finish u .dda z.n
    | none => done (keep s { x with lanes := Vector.ofFn fun (j : Fin 64) =>
        { x.lane j.val with credit := BitVec.ofInt 16 (x.injected z j.val) } })
  | .dstep m _ =>
    let y := (doms m).foldl (fun (x : Dda) d => x.setDomain d { x.domain d with budget := (x.domain d).budget + BitVec.ofNat 64 at_ }) x
    let targets := (List.range 4).foldl (fun n d => n + ((y.domain d).steps + (y.domain d).budget).toNat * 2 ^ (64 * d)) 0
    if at_ = 0 then done s
    else ((keep s y).onCmd u .dda z.n fun c => { c with stage := .effected, vec := BitVec.ofNat 2048 targets }).completeSteps core false
  | .dread o =>
    let b := (List.range 64).flatMap fun i => leBytes ((x.cell (o.cell.toNat + i)).field o.f) 4
    if (s.core core).cellSpoilt o.cell.toNat 64 then s.engineFault u .dda z.n (dataError 5) else done (s.onCore core fun c => c.putBytes at_ b)
  | .dcnt o => match z.splice with
    | none => done (s.closeSlot u o.q.val z.ctr 10)
    | some _ => s
  | .dsave _ _ rel =>
    let s := s.onCore core fun c => c.putBytes at_ (z.bound.map (·.2))
    done (if rel then keep s { x with owner := none } else s)
  | .dload .. => match x.ofImage (z.bound.map (·.2)) with
    | some y => done ((keep s y).onCore core fun c => { c with bad := c.bad.filter fun p => !(decide (cellPlace 0 ≤ p) && decide (p < cellPlace 512)) })
    | none => s.engineFault u .dda z.n integratorImage
  | _ => s

/-- What a command does at the end of its first execution cycle: DCNT takes its counts, DSAVE its image, DLOAD reads its own. -/
def State.ddaBegin (s : State) (core u : Nat) (z : Cmd) : State :=
  let x := (s.core core).dda
  match z.op with
  | .dcnt o =>
    let n := 64 * (o.rows.val + 1)
    let b := (List.range n).flatMap fun i => leBytes (x.cell (o.cell.toNat + i)).count.toNat 4
    let zeroed := (List.range n).foldl (fun (y : Dda) i =>
      y.setCell (o.cell.toNat + i) { y.cell (o.cell.toNat + i) with count := 0 }) x
    if (s.core core).cellSpoilt o.cell.toNat n then s.engineFault u .dda z.n (dataError 5)
    else
      let s := if o.clr then s.putDda core zeroed else s
      match z.splice with
      | none => s.onCore core fun c => c.putBytes (((s.bankOf u).queue o.q.val).slotAddr z.ctr) b
      | some _ => s.engineFill u z o.q.val [(0, b)] 10
  | .dsave .. => if (s.core core).cellSpoilt 0 512 then s.engineFault u .dda z.n (dataError 5) else s.onCmd u .dda z.n fun c => { c with bound := x.image.zipIdx.map fun y => (y.2, y.1) }
  | .dload .. => match s.engineRead core 5 z.a.toNat imageSize with
    | .error e => s.engineFault u .dda z.n e
    | .ok b => s.onCmd u .dda z.n fun c => { c with bound := b.zipIdx.map fun y => (y.2, y.1) }
  | _ => s

/-- The array of a cancelled unit is free once no command of it executes (R283). -/
def State.freeArray (s : State) (core : Nat) : State :=
  let x := (s.core core).dda
  let ended : Bool := match x.owner.bind s.unit with
    | some y => decide (y.life ≠ .live) && !y.exited && !(y.cmds.any fun z => decide (z.eng = .dda) && decide (z.stage = .taken))
    | none => false
  if ended then s.onCore core fun c => { c with dda := { c.dda with owner := none } } else s

/-- The last execution cycle of the command that executes has come. -/
def State.ddaFinish (s : State) (core : Nat) : State :=
  match s.ddaNext core with
  | some (.finish u z) => (s.ddaEffect core u z).freeArray core
  | _ => s

/-- DDA_COMMAND_EXECUTE (R284, R285), after the steps of the core cycle: the next command begins, or the one that executes has
come to its last cycle and acts. -/
def execDdaCommandExecute (c : Nat) (s : State) : Res :=
  .next (match s.ddaNext c with
    | some (.begin_ u z) =>
      let n := ddaCycles z.op
      let s := s.takeCmd u .dda z.n fun y => { y with due := s.now + n - 1 }
      let s := s.onCore c fun y => { y with dda := { y.dda with
        busyUntil := s.now + n
        pausedUntil := if n = 66 then s.now + 66 else y.dda.pausedUntil } }
      (s.ddaBegin c u z).ddaFinish c
    | _ => s.ddaFinish c)

end Sys2Proof.Machine
end

