-- ==== Sys2Proof/Machine/Errors.lean ====
section
/-! DEFINITION. Error events, their counters, and the retirement of resources (R372 to R374, R411). -/
namespace Sys2Proof.Machine

/-- The model's number of a resource. -/
def resNumber : Resource → Nat
  | .core n => n
  | .slice n => 1000 + n
  | .link n => 2000 + n
  | .halyard d => 2100 + d
  | .hbm n => 2200 + n
  | .ddr n => 2300 + n

/-- KIND, INDEX and WHERE of a resource's report (R411). -/
def resReport (r : Resource) (pa : Nat) : Nat × Nat × Nat :=
  match r with
  | .core n => (1, 0, n)
  | .slice n => (2, 0, n)
  | .link n => (3, 0, n)
  | .halyard d => (4, 0, d)
  | .hbm n => (5, n, pa)
  | .ddr n => (6, n, pa)

/-- Bit of a function in READY (R410). -/
def readyBit : Func → Nat
  | .die n => n.val
  | .hbm n => 4 + n.val
  | .ddr n => 12 + n.val
  | .link n => 24 + n.val
  | .hal n => 40 + n.val
  | .port n => 44 + n.val
  | .cp => 46

def State.clearReady (s : State) (b : Nat) : State :=
  { s with regs := { s.regs with ready := s.regs.ready &&& ~~~(BitVec.twoPow 47 b) } }
def State.isReady (s : State) (f : Func) : Bool := s.regs.ready.getLsbD (readyBit f)

/-- Records of a Halyard that have begun to be worked on and have not ended. -/
def State.liveRecords (s : State) (die : Nat) : List HalRec :=
  s.halyard.filter fun h => decide (h.die = die) && (decide (h.stage = .accepted) || decide (h.stage = .running))

/-- Some records of Halyards end with a condition. -/
def State.halFail (s : State) (l : List HalRec) (c : Cond) : State :=
  let after := s.halyard.map fun h => if l.any fun g => decide (g.rid = h.rid) then { h with stage := .faulted, ended := s.now } else h
  l.foldl (fun s h => s.engineFault h.unit .col h.n c) { s with halyard := after }

/-- What retirement does (R373). -/
def State.retire (s : State) (r : Resource) : State :=
  let s := { s with retired := s.retired ++ [resNumber r] }
  match r with
  | .core n =>
    let s := s.onCore n fun x => { x with retired := true }
    (s.units.filter fun u => decide (u.2.core = n)).foldl (fun s u => s.endLaunch u.2.launch 4 lastingFault.code) s
  | .slice n =>
    (s.l2.filter fun x => decide (x.1 % 4 = n / 32) && decide (l2Slice (x.1 / 4 * 512) = n % 32)).foldl
      (fun s x => s.evict (x.1 % 4) (x.1 / 4 * 512)) s
  | .link n => s.clearReady (24 + n)
  | .halyard d => (s.clearReady (40 + d)).halFail (s.liveRecords d) lastingFault
  | .hbm _ => s
  | .ddr _ => s

/-- Count an error event: at the threshold the resource is retired, or, for a stack or channel, reported. -/
def State.countError (s : State) (r : Resource) (pa : Nat) : State :=
  let k := resNumber r
  let n := (find s.errors k).getD 0 + 1
  let s := { s with errors := put s.errors k n }
  let thr := field s.regs.fltthr 0 16
  if thr = 0 ∨ n ≠ thr ∨ s.retired.contains k then s
  else
    let (kind, index, place) := resReport r pa
    let s := s.report kind index place
    match r with
    | .hbm _ => s
    | .ddr _ => s
    | r => s.retire r

/-- A register that an error position of a core names: beyond the scratchpad, 2^22 + 128·context + number, with s at 0, v at 32
and p at 64. -/
def errorRegister (pa : Nat) : Option (Nat × RegCls × Nat) :=
  let n := pa % 128
  if pa < 2 ^ 22 ∨ 2 ^ 22 + 512 ≤ pa then none
  else
    let k := (pa - 2 ^ 22) / 128
    if n % 64 = 0 then none else if n < 32 then some (k, .s, n) else if n < 64 then some (k, .v, n - 32) else if n < 80 then some (k, .p, n - 64) else none

/-- Data that an uncorrectable error has spoilt stays as stored; its consumers raise data error (R374). In a Halyard's staging SRAM the
position names the record whose data it is, by its place among those of the die (log entry 45). -/
def State.spoil (s : State) (r : Resource) (pa : Nat) : State :=
  match r with
  | .core n =>
    if decide (pa < spmSize) || (decide (accPlace 0 ≤ pa) && decide (pa < accPlace (4 * 128 * 192)))
        || (decide (cellPlace 0 ≤ pa) && decide (pa < cellPlace 512)) then s.onCore n fun x => { x with bad := x.bad.filter (· ≠ pa) ++ [pa] }
    else match errorRegister pa with
      | some (k, c, i) => s.onCtx n k fun x => { x with bad := x.bad ++ [(c, i)] }
      | none => s
  | .slice n => match s.line (n / 32) pa with
    | some l => s.setLine (n / 32) pa { l with bad := l.bad ||| BitVec.twoPow 4 (pa % 512 / 128) }
    | none => s
  | .link _ => s
  | .halyard d => s.halFail ((s.liveRecords d)[pa]?).toList (dataError 5)
  | .hbm _ => { s with bad := s.bad.filter (· ≠ s.loc pa / 128) ++ [s.loc pa / 128] }
  | .ddr _ => { s with bad := s.bad.filter (· ≠ s.loc pa / 128) ++ [s.loc pa / 128] }

/-- ERROR_EVENT (R373, R374): a corrected error has no effect beyond its count. -/
def execErrorEvent (e : ErrorInfo) (s : State) : Res :=
  .next (if e.correctable then s.countError e.res e.pa else (s.spoil e.res e.pa).countError e.res e.pa)

/-- FAULT_WINDOW_RESET (R373). -/
def execFaultWindowReset (s : State) : Res := .next { s with errors := [] }

end Sys2Proof.Machine
end

