-- ==== Sys2Proof/Machine/Collective.lean ====
section
/-! DEFINITION. Halyard: collective records, their walk, service to peers, combining, completion and deadlines (R343 to R356). -/
namespace Sys2Proof.Machine

/-! ### Gang waits (R97) -/

def State.gangOfJob (s : State) (j : Nat) : Option Gang := s.gangs.find? fun g => decide (g.job = some j)
def State.onGang (s : State) (id : Word) (f : Gang → Gang) : State :=
  { s with gangs := s.gangs.map fun g => if g.id = id then f g else g }

def State.gangTimeout (s : State) : Nat := let n := field s.regs.gangto 0 32; if n = 0 then 0x08000000 else n

/-- A member's first cross-device wait begins, for a record or at a WAIT node. -/
def State.crossWait (s : State) (j : Nat) (rid : Option Nat) : State :=
  match s.gangOfJob j with
  | some g => if g.gone && !g.waited then s.onGang g.id fun g => { g with waited := true, waiting := some (s.now, rid) } else s
  | none => s

/-! ### Records (R344, R345) -/

/-- A record as its bytes and its group table give it; none when it is malformed. -/
def collHeader (b : List Byte) : Option CollHdr :=
  let w := fun i => wordAt b (8 * i)
  let op := field (w 0) 16 3
  let lossy := (w 0).getLsbD 19
  let nlev := field (w 0) 20 3
  let elt := field (w 0) 24 4
  let g := field (w 2) 0 16
  let deadline := field (w 6) 0 32
  let x := (field (w 6) 32 9 + 1) * 128
  let lev := (List.range nlev).map fun l => (⟨field (w (8 + 4 * l)) 0 32, ((w (8 + 4 * l)).extractLsb' 32 32).toInt,
    (w (9 + 4 * l)).toInt, (w (10 + 4 * l)).toInt⟩ : CollLevel)
  let b0 : Nat := (lev.head?.map (·.bound)).getD 0
  let d0 : Int := (lev.head?.map (·.dstr)).getD 0
  let m128 := fun (i : Int) => decide (i % 128 = 0)
  let ok := decide (field (w 0) 0 8 = 0x30) && decide (field (w 0) 8 8 = 1) && decide (op ≤ 4) && decide (1 ≤ nlev) && decide (nlev ≤ 6)
    && [0, 7, 8, 9, 10].contains elt && decide (field (w 0) 23 1 = 0) && decide (field (w 0) 28 4 = 0)
    && decide (field (w 2) 48 16 = 0) && decide (field (w 6) 41 23 = 0)
    && decide (1 ≤ g) && decide (g ≤ 256) && decide (field (w 1) 0 3 = 0) && decide (x ≤ 65536)
    && (List.range nlev).all (fun l => decide (w (11 + 4 * l) = 0))
    && m128 (w 3).toNat && m128 (w 4).toNat && m128 (w 7).toInt && lev.all (fun l => m128 l.sstr && m128 l.dstr)
    && !(decide (1 ≤ op) && (decide (d0 ≠ 0) || decide (b0 = 0)))
    && !((decide (op = 3) || decide (op = 4)) && decide (elt = 10)) && !(decide (1 ≤ op) && decide (elt = 0))
    && !(lossy && decide (deadline = 0))
    && decide ((if op = 0 then x else b0 * x) ≤ 2 ^ 20)
  if ok then
    some { op, lossy, elt, tag := (w 0).extractLsb' 32 32, pb := field (w 2) 16 16, pr := ((w 2).extractLsb' 32 16).toInt,
           sbase := w 3, dbase := w 4, mask := w 5, deadline, xbytes := x, srank := (w 7).toInt, levels := lev,
           group := List.replicate g ⟨0, 0⟩ }
  else none

/-- The group table; none when a reserved bit is set. -/
def groupTable (b : List Byte) (g : Nat) : Option (List Member) :=
  let l := (List.range g).map fun k => wordAt b (8 * k)
  if l.all fun w => decide (field w 8 56 = 0) then some (l.map fun w => ⟨field w 0 6, field w 6 2⟩) else none

/-! ### The walk (R346) -/

/-- Index tuples, innermost index first, in ascending order with the last level outermost. -/
def tuples : List CollLevel → List (List Nat)
  | [] => [[]]
  | l :: rest => (tuples rest).flatMap fun t => (List.range l.bound).map (· :: t)

structure Xfer where
  peer : Nat
  src : Int
  dst : Int
deriving DecidableEq, Repr

def CollHdr.xfer (h : CollHdr) (rank : Nat) (t : List Nat) : Xfer :=
  let sum := fun (f : CollLevel → Int) => (h.levels.zip t).foldl (fun (s : Int) p => s + f p.1 * p.2) 0
  ⟨((h.pb + h.pr * rank + sum (·.coef)) % h.group.length).toNat, h.sbase.toInt + h.srank * rank + sum (·.sstr),
    h.dbase.toInt + sum (·.dstr)⟩

def CollHdr.xfers (h : CollHdr) (rank : Nat) : List Xfer := (tuples h.levels).map (h.xfer rank)

/-- Whether an exact address is canonical (R57). -/
def canonicalInt (x : Int) : Bool := decide (-(2 ^ 55) ≤ x) && decide (x < 2 ^ 55)

/-- Blocks of a transfer. -/
def CollHdr.nblk (h : CollHdr) : Nat := h.xbytes / 128

/-! ### Combining (R351) -/

def eltFloat (elt : Nat) : Option FFmt := match elt with
  | 7 => some .f16 | 8 => some .bf16 | 9 => some .f32 | _ => none
def eltBytes (elt : Nat) : Nat := if elt = 7 ∨ elt = 8 then 2 else 4

/-- One element position of a reduction: its contributions, each code with its validity. -/
def combineElem (op elt : Nat) (xs : List (Nat × Bool)) : Nat × Flags :=
  let good := (xs.filter (·.2)).map (·.1)
  let cv := good.length
  if cv = 0 then (0, 0)
  else match eltFloat elt with
    | none =>
      let l := good.map fun c => readInt true 32 c
      if op = 2 then (wrapInt 32 (l.foldl max (-(2 ^ 31))), 0) else (wrapInt 32 (l.foldl (· + ·) 0), 0)
    | some f =>
      let a : RAcc := good.foldl (fun a c => (f.read c a).2) ⟨0, 0⟩
      let l := good.map f.decode
      let (res, a) : Ext × RAcc :=
        match op with
        | 2 => (match extremum false (l.filter fun x => !x.isNan) with
          | some x => x
          | none => .nan, a)
        | 4 =>
          let (s, fl) := Ext.sum false l
          let (q, fl2) := Ext.div s (Ext.ofInt cv)
          let (c, a) := roundF .f32 .rne q (a.flag (fl ||| fl2))
          (FFmt.f32.decode c, a)
        | _ =>
          let (s, fl) := Ext.sum false l
          let (c, a) := roundF .f32 .rne s (a.flag fl)
          if op = 1 then (FFmt.f32.decode c, a)
          else
            let (q, _) := Ext.div (Ext.ofInt xs.length) (Ext.ofInt cv)
            let (ratio, a) := roundF .f32 .rne q a
            let (p, fl) := Ext.mul (FFmt.f32.decode c) (FFmt.f32.decode ratio)
            let (out, a) := roundF .f32 .rne p (a.flag fl)
            (FFmt.f32.decode out, a)
      let (c, a) := roundF f .rne res a
      (c, a.fl)

/-- One output block: its bytes, its validity bit, its flags. A contribution is a block or none. -/
def combineBlock (op elt : Nat) (contribs : List (Option (List Byte))) : List Byte × Bool × Flags :=
  let w := eltBytes elt
  let r := (List.range (128 / w)).foldl (fun (acc : List Byte × Flags) e =>
    let (c, fl) := combineElem op elt (contribs.map fun b => match b with
      | some b => (leNat ((b.drop (w * e)).take w), true)
      | none => (0, false))
    (acc.1 ++ leBytes c w, acc.2 ||| fl)) ([], 0)
  let cv := (contribs.filter Option.isSome).length
  (r.1, if op = 1 ∨ op = 2 then decide (cv = contribs.length) else decide (0 < cv), r.2)

/-- The settled block `j` of transfer `t`. -/
def HalRec.block (h : HalRec) (nblk t j : Nat) : Option (List Byte) := ((find h.blocks (t * nblk + j)).getD none)

/-- The outputs of a record in walk order: destination, blocks with validity, flags. -/
def HalRec.outputs (h : HalRec) (d : CollHdr) : List (Int × List (List Byte × Bool) × Flags) :=
  let xs := d.xfers h.rank
  let n := d.nblk
  if d.op = 0 then
    xs.zipIdx.map fun x => (x.1.dst, (List.range n).map fun j => match h.block n x.2 j with
      | some b => (b, true)
      | none => (List.replicate 128 0, false), 0)
  else
    let p := (d.levels.head?.map (·.bound)).getD 1
    (List.range (xs.length / p)).map fun o =>
      let bs := (List.range n).map fun j => combineBlock d.op d.elt ((List.range p).map fun i => h.block n (o * p + i) j)
      (((xs[o * p]?).map (·.dst)).getD 0, bs.map fun b => (b.1, b.2.1), bs.foldl (fun f b => f ||| b.2.2) 0)

/-! ### Issue (R354 to R356) -/

def execColl (a b : Src) : State → Res := slotOp false fun s => do
  let va ← s.srcS a
  let r ← s.srcS b
  pure (s.command .col (.coll a b) fun _ c => { c with a := va, b := r })

def execCqry (a : Src) (imm : BitVec 13) (b : Src) : State → Res := slotOp false fun s => do
  let x ← s.srcS a
  let n ← s.srcS b
  let y := (x.toNat : Int) + imm.toInt
  if y < 0 ∨ (spmSize : Int) ≤ y then .error (scratchpadRange 4)
  else if y % 16 ≠ 0 then .error (misalignedAccess 4)
  else pure (s.command .col (.cqry a imm b) fun _ c => { c with a := BitVec.ofNat 64 y.toNat, b := n })

/-! ### Halyard's list (R343) -/

def State.hal (s : State) (rid : Nat) : Option HalRec := s.halyard.find? fun h => decide (h.rid = rid)
def State.onHal (s : State) (rid : Nat) (f : HalRec → HalRec) : State :=
  { s with halyard := s.halyard.map fun h => if h.rid = rid then f h else h }

def State.unitJob (s : State) (u : Nat) : Nat := (s.jobOf u).getD 0
def State.gangIdOf (s : State) (u : Nat) : Option Nat := (s.gangOfJob (s.unitJob u)).map fun g => g.id.toNat

/-- Commands that the units of a die have handed to Halyard and that it has not taken, in acceptance order. -/
def State.collWaiting (s : State) (die : Nat) : List (Nat × Cmd) :=
  ((s.units.filter fun x => decide (dieOf x.2.core = die)).flatMap fun x =>
    (x.2.cmds.filter fun c => decide (c.eng = .col) && c.waiting && decide (c.due ≤ s.now)).map fun c => (x.1, c))

/-- CQRY's STATE of the operation numbered `n` of a unit, whose timeline stands at `top`. -/
def State.collState (s : State) (u n top : Nat) : Nat :=
  let mine := s.halyard.filter fun h => decide (h.unit = u)
  match mine.find? fun h => decide (h.n = n) with
  | none => 7
  | some h =>
    if n = 0 ∨ top < n then 7
    else if 64 < (mine.filter fun k => decide (n < k.n)).length then 6
    else match h.stage with
      | .accepted => 0
      | .running => 1
      | .complete => 2
      | .faulted => 3

/-- Whether a record has a peer on another device, so that it is a cross-device wait of an exact gang member. -/
def State.crossRecord (s : State) (d : CollHdr) : Bool := !d.lossy && d.group.any fun m => decide (m.dev ≠ field s.regs.fabid 0 6)

/-- A record faults. -/
def State.collFault (s : State) (rid : Nat) (c : Cond) : State :=
  match s.hal rid with
  | some h => (s.onHal rid fun h => { h with stage := .faulted, blocks := [], ended := s.now }).engineFault h.unit .col h.n c
  | none => s

/-- A COLL on a die whose Halyard is not ready faults (R410). -/
def State.collReady (s : State) (u n : Nat) : State :=
  match s.halyard.find? fun h => decide (h.unit = u) && decide (h.n = n) with
  | some h => if s.regs.ready.getLsbD (40 + h.die) then s else s.collFault h.rid lastingFault
  | none => s

/-- A replay runs the record again as a whole: blocks of the first run are no longer its own, and the dones it has stay (R349, R369). -/
def HalRec.again (h : HalRec) (rid : Nat) : HalRec :=
  { h with rid, stage := .accepted, fresh := false, blocks := [], invalid := 0, written := false, fl := 0 }

/-- Core cycles that a record has run: to its completion or fault, or until now (R406). -/
def HalRec.cycles (h : HalRec) (now : Nat) : Nat :=
  match h.stage with
  | .accepted => 0
  | .running => sat32 (now - h.started)
  | _ => sat32 (h.ended - h.started)

/-- Halyard takes a command: a COLL enters its list, a CQRY writes its status. -/
def State.collTake (s : State) (u : Nat) (z : Cmd) : State :=
  match s.unit u with
  | none => s
  | some x =>
    let again := s.halyard.any fun h => decide (h.unit = u) && decide (h.n = z.n)
    let s := s.takeCmd u .col z.n id
    match z.op with
    | .coll .. =>
      if again then
        ({ s with nextKey := s.nextKey + 1, halyard := s.halyard.map fun h =>
          if decide (h.unit = u) && decide (h.n = z.n) then h.again s.nextKey else h } : State).collReady u z.n
      else
        let rid := s.nextKey
        let h : HalRec := {
          die := dieOf x.core, rid, unit := u, asid := x.asid, gang := s.gangIdOf u, n := z.n, pc := z.pc, va := z.a, rank := z.b.toNat,
          stage := .accepted, hdr := none, fresh := false, started := 0, blocks := [], invalid := 0, written := false, dones := [],
          told := false, untold := [], fl := 0, ended := 0, cancelled := false }
        ({ s with nextKey := rid + 1, halyard := s.halyard ++ [h] } : State).collReady u z.n
    | .cqry .. =>
      let n := z.b.toNat
      let top := (s.bankOf u).csr.tlCol.toNat
      let h := s.halyard.find? fun h => decide (h.unit = u) && decide (h.n = n)
      let st := s.collState u n top
      let cyc := (h.map (·.cycles s.now)).getD 0
      let inv := (h.map (·.invalid)).getD 0
      let b := le64 st ++ le64 (if st < 6 then sat32 inv + 2 ^ 32 * cyc else 0)
      (s.onCore x.core fun y => y.putBytes z.a.toNat b).finish u .col z.n
    | _ => s

/-! ### Completion (R349, R350) -/

/-- Other members of a record's group, with their ranks. -/
def HalRec.others (h : HalRec) (d : CollHdr) : List (Nat × Member) := (d.group.zipIdx.map fun m => (m.2, m.1)).filter fun m => decide (m.1 ≠ h.rank)

def HalRec.expired (h : HalRec) (now : Nat) : Bool :=
  h.cancelled || match h.hdr with
    | some d => d.lossy && decide (h.started + d.deadline ≤ now)
    | none => false

/-- A record completes when it has sent its done and has every other member's, or its deadline has passed. -/
def State.collComplete (s : State) (rid : Nat) : State :=
  match s.hal rid with
  | some h => match h.hdr with
    | some d =>
      if decide (h.stage = .running) && h.written && h.untold.isEmpty && (h.expired s.now || (h.others d).all fun m => h.dones.contains m.1) then
        let s := s.onHal rid fun h => { h with stage := .complete, ended := s.now, blocks := [] }
        (s.onCmd h.unit .col h.n fun c => { c with flags := h.fl }).finish h.unit .col h.n
      else s
    | none => s
  | none => s

/-- The link that a device is routed to, if its entry is valid and its link ready. -/
def State.linkTo (s : State) (dev : Nat) : Option Nat :=
  let w := s.regs.linkrt[dev]?.getD 0
  let l := field w 0 4
  if w.getLsbD 4 && s.regs.ready.getLsbD (24 + l) then some l else none

def HalRec.key (h : HalRec) (d : CollHdr) (remote : Bool) : CollKey :=
  match remote, h.gang with
  | true, some g => ⟨true, g, d.tag⟩
  | _, _ => ⟨false, h.asid, d.tag⟩

/-- Tell some members of a record's group that it is done; those to which no link is ready are told later. -/
def State.tell_ (s : State) (h : HalRec) (d : CollHdr) (who : List (Nat × Member)) : State :=
  let here := field s.regs.fabid 0 6
  who.foldl (fun s m =>
    if m.2.dev = here then
      let (k, s) := s.draw
      s.after (1 + Config.collDelay k) (.collDoneArrive m.2.die (h.key d false) h.rank)
    else match s.linkTo m.2.dev with
      | some l => { s with outs := s.outs ++ [.collDone l (h.key d true) h.rank m.2] }
      | none => s.onHal h.rid fun h => { h with untold := h.untold ++ [m.1] }) s

/-- Send the done of a record to every other member, once: a replay does not repeat it. -/
def State.sendDones (s : State) (h : HalRec) (d : CollHdr) : State :=
  if h.told then s else (s.onHal h.rid fun h => { h with told := true }).tell_ h d (h.others d)

/-- Members that can be told now. -/
def State.tellable (s : State) (h : HalRec) (d : CollHdr) : List (Nat × Member) :=
  (h.others d).filter fun m => h.untold.contains m.1 && (s.linkTo m.2.dev).isSome

/-- Tell the members whose links have become ready. -/
def State.tellMore (s : State) (h : HalRec) : State :=
  match h.hdr with
  | some d =>
    let who := s.tellable h d
    if who.isEmpty then s
    else ((s.onHal h.rid fun h => { h with untold := h.untold.filter fun r => !who.any fun m => decide (m.1 = r) }).tell_ h d who).collComplete
      h.rid
  | none => s

/-- Pages of a local range for a record. -/
def State.halPages (s : State) (h : HalRec) (va : Int) (n : Nat) (right : Right) : Work (List Piece) :=
  if !canonicalInt va then (.error (some { nonCanonical 5 with badaddr := some (BitVec.ofInt 64 va) }), s)
  else match s.paged ⟨.collDeadline h.die h.rid, right, none⟩ h.die h.asid (va56 (BitVec.ofInt 64 va)) n 5 with
    | (.ok l, s) => (.ok l, s)
    | (.wait, s) => (.error none, s)
    | (.fault e, s) => (.error (some e), s)

/-- Accesses that a record makes to its die's L2 count for its launch (R394). -/
def State.halTouch (s : State) (h : HalRec) (l : List Piece) : State :=
  l.foldl (fun s p => s.touch (s.launchOf h.unit) h.die p.pa p.len) s

def State.halRead (s : State) (h : HalRec) (va : Int) (n : Nat) : Work (List Byte) :=
  match s.halPages h va n .r with
  | (.error e, s) => (.error e, s)
  | (.ok l, s) =>
    let (b, err, s) := (s.halTouch h l).readPieces h.die h.asid l
    if err.isSome then (.error (some (dataError 5)), s) else (.ok b, s)

def State.halWrite (s : State) (h : HalRec) (va : Int) (b : List Byte) : Work PUnit :=
  match s.halPages h va b.length .w with
  | (.error e, s) => (.error e, s)
  | (.ok l, s) =>
    let (err, s) := (s.halTouch h l).writePieces h.die h.asid l b
    if err.isSome then (.error (some (dataError 5)), s) else (.ok ⟨⟩, s)

/-- One output: its blocks, and their validity bits when there is a mask (R352). -/
def State.writeOutput (s : State) (h : HalRec) (d : CollHdr) (o : Int × List (List Byte × Bool) × Flags) : Work PUnit :=
  match s.halWrite h o.1 (o.2.1.flatMap (·.1)) with
  | (.error e, s) => (.error e, s)
  | (.ok _, s) =>
    if d.mask = 0 then (.ok ⟨⟩, s)
    else match eachWork (fun s (b : (List Byte × Bool) × Nat) =>
        let off := (o.1 - d.dbase.toInt).toNat + 128 * b.2
        let at_ := d.mask.toInt + off / 1024
        match s.halPages h at_ 1 .w with
        | (.error e, s) => (.error e, s)
        | (.ok _, s) => match s.halRead h at_ 1 with
          | (.error e, s) => (.error e, s)
          | (.ok old, s) =>
            let m := BitVec.twoPow 8 (off / 128 % 8)
            let v := old.headD 0
            s.halWrite h at_ [if b.1.2 then v ||| m else v &&& ~~~m]) o.2.1.zipIdx s with
      | (.error e, s) => (.error e, s)
      | (.ok _, s) => (.ok ⟨⟩, s)

/-- Whether every block of a record is settled. -/
def HalRec.settled (h : HalRec) (d : CollHdr) : Bool := decide (h.blocks.length = (d.xfers h.rank).length * d.nblk)

/-- Whether the unit of a record may make its accesses (R331). -/
def State.halMay (s : State) (h : HalRec) (write : Bool) : Bool :=
  match s.unit h.unit with
  | some x => match x.cmd .col h.n with
    | some c => x.engineMayAccess c write
    | none => true
  | none => true

/-- Whether the outputs of a record are to be written now. -/
def State.collWritable (s : State) (h : HalRec) : Bool :=
  match h.hdr with
  | some d => decide (h.stage = .running) && h.fresh && !h.written && h.settled d && s.halMay h true
  | none => false

/-- Write the outputs in walk order, then send done (R346, R349). -/
def State.collWrite (s : State) (h : HalRec) : State :=
  match h.hdr with
  | none => s
  | some d =>
    let l := h.outputs d
    match eachWork (fun s o => s.writeOutput h d o) l s with
    | (.error none, s) => s.onCmd h.unit .col h.n fun c => { c with stage := .paged }
    | (.error (some e), s) => s.collFault h.rid e
    | (.ok _, s) =>
      let fl := l.foldl (fun f o => f ||| o.2.2) 0
      ((s.onHal h.rid fun h => { h with written := true, fl }).sendDones h d).collComplete h.rid

/-- Settle one block of a record: with its bytes, or invalid. -/
def State.settle (s : State) (rid key : Nat) (b : Option (List Byte)) : State :=
  s.onHal rid fun h =>
    if (find h.blocks key).isSome then h
    else { h with blocks := put h.blocks key b, invalid := h.invalid + (if b.isNone then 1 else 0) }

/-- A record completes at once, with nothing more written. -/
def State.collDrop (s : State) (h : HalRec) : State :=
  (s.onHal h.rid fun h => { h with stage := .complete, ended := s.now }).finish h.unit .col h.n

/-- Every block of a lossy record that is not delivered is delivered invalid. -/
def State.expire (s : State) (h : HalRec) (d : CollHdr) : State :=
  let n := (d.xfers h.rank).length * d.nblk
  let s := (List.range n).foldl (fun s k => s.settle h.rid k none) s
  match s.hal h.rid with
  | some g => if s.collWritable g then s.collWrite g else s.collComplete h.rid
  | none => s

/-! ### Start (R343, R345 to R348) -/

/-- Records of a die that hold a share. -/
def State.collRunning (s : State) (die : Nat) : Nat := (s.halyard.filter fun h => decide (h.die = die) && decide (h.stage = .running)).length

/-- Whether a record waits for the replay of an earlier faulted one of its unit (R253). -/
def State.halBehind (s : State) (h : HalRec) : Bool :=
  s.halyard.any fun g => decide (g.unit = h.unit) && decide (g.n < h.n) && decide (g.stage = .faulted)

/-- The record of a die that may start: the first accepted one. -/
def State.collNext (s : State) (die : Nat) : Option HalRec :=
  if 4 ≤ s.collRunning die then none
  else match s.halyard.find? fun h => decide (h.die = die) && decide (h.stage = .accepted) && !s.halBehind h with
    | some h => if s.halMay h false then some h else none
    | none => none

/-- Ask every transfer's blocks of the peers (R347). -/
def State.collPull (s : State) (h : HalRec) (d : CollHdr) : State :=
  let here := field s.regs.fabid 0 6
  (d.xfers h.rank).zipIdx.foldl (fun s x =>
    let m := d.group[x.1.peer]?.getD ⟨0, 0⟩
    let r := fun remote => (⟨m.die, h.key d remote, m.die, ⟨here, h.die⟩, h.rid, x.2, BitVec.ofInt 64 x.1.src, d.xbytes⟩ : CollReq)
    let lost := fun (s : State) => (List.range d.nblk).foldl (fun s j =>
      s.after 1 (.collBlockArrive ⟨h.die, h.rid, x.2, j, .notServed, none⟩)) s
    if m.dev = here then
      let (k, s) := s.draw
      s.after (1 + Config.collDelay k) (.collRequestArrive (r false))
    else if h.gang.isNone then lost s
    else match s.linkTo m.dev with
      | some l => { s with outs := s.outs ++ [.collRequest l (r true)] }
      | none => lost s) s

/-- Whether a record answers to a job identity and TAG. -/
def HalRec.answers (h : HalRec) (k : CollKey) : Bool :=
  match h.hdr with
  | some d => decide (d.tag = k.tag) && (if k.gang then decide (h.gang = some k.job) else decide (h.asid = k.job))
  | none => false

/-- What a cancel makes of a running record: as if its deadline had passed (R350). -/
def State.endEarly (s : State) (h : HalRec) (d : CollHdr) : State := if d.lossy then s.expire h d else s.collDrop h

/-- A record whose header has been read opens: its checks, its deadline, its pulls. -/
def State.collOpen (s : State) (h : HalRec) (d : CollHdr) : State :=
  let xs := d.xfers h.rank
  let bad := xs.findSome? fun x =>
    if !canonicalInt x.src then some x.src
    else if !canonicalInt x.dst || (decide (d.mask ≠ 0) && decide (x.dst < d.dbase.toInt)) then some x.dst else none
  let twice := s.halyard.any fun g => decide (g.rid ≠ h.rid) && decide (g.die = h.die) && decide (g.stage ≠ .complete)
    && g.answers ⟨false, h.asid, d.tag⟩
  if twice then s.collFault h.rid collectiveTag
  else match bad with
    | some a => s.collFault h.rid { nonCanonical 5 with badaddr := some (BitVec.ofInt 64 a) }
    | none =>
      let held := fun (g : Nat × CollKey × Nat) => decide (g.1 = h.die) && ({ h with hdr := some d }).answers g.2.1
      let ranks := (s.collDones.filter held).map (·.2.2)
      let kept := s.collDones.filter fun g => !held g
      let s := { s with collDones := kept }
      let s := s.onHal h.rid fun h => { h with hdr := some d, fresh := true, dones := (h.dones ++ ranks).eraseDups }
      let s := if d.deadline = 0 then s else s.at_ (max (s.now + 1) (h.started + d.deadline)) (.collDeadline h.die h.rid)
      let s := if s.crossRecord d then s.crossWait (s.unitJob h.unit) (some h.rid) else s
      if h.cancelled then s.endEarly h d
      else
        let s := s.collPull h d
        match s.hal h.rid with
        | some g => if s.collWritable g then s.collWrite g else s
        | none => s

/-- The bytes of a record: its header, and the levels that it names (R344). -/
def State.collBytes (s : State) (h : HalRec) : Work (List Byte) :=
  match s.halRead h h.va.toInt 64 with
  | (.error e, s) => (.error e, s)
  | (.ok b, s) =>
    let nlev := field (wordAt b 0) 20 3
    if nlev = 0 ∨ 6 < nlev then (.ok b, s)
    else match s.halRead h (h.va.toInt + 64) (32 * nlev) with
      | (.error e, s) => (.error e, s)
      | (.ok l, s) => (.ok (b ++ l), s)

/-- Whether a record that started earlier on the die, for the same job, has still to read its TAG. -/
def State.tagUnknown (s : State) (h : HalRec) : Bool :=
  s.halyard.any fun g => decide (g.rid ≠ h.rid) && decide (g.die = h.die) && decide (g.asid = h.asid) && decide (g.stage = .running)
    && g.hdr.isNone && (decide (g.started < h.started) || (decide (g.started = h.started) && decide (g.rid < h.rid)))

/-- Read and check the record and its group table. A record whose predecessor still reads opens after it (R348). -/
def State.collRead (s : State) (h : HalRec) : State :=
  let stop := fun (s : State) (e : Option Cond) => match e with
    | none => s.onCmd h.unit .col h.n fun c => { c with stage := .paged }
    | some e => s.collFault h.rid e
  if h.va.toNat % 64 ≠ 0 then s.collFault h.rid collectiveRecord
  else if s.tagUnknown h then s.after 1 (.collDeadline h.die h.rid)
  else match s.collBytes h with
    | (.error e, s) => stop s e
    | (.ok b, s) => match collHeader b with
      | none => s.collFault h.rid collectiveRecord
      | some d => match s.halRead h (wordAt b 8).toInt (8 * d.group.length) with
        | (.error e, s) => stop s e
        | (.ok t, s) => match groupTable t d.group.length with
          | none => s.collFault h.rid collectiveRecord
          | some g =>
            if g[h.rank]? = some ⟨field s.regs.fabid 0 6, h.die⟩ then s.collOpen h { d with group := g }
            else s.collFault h.rid collectiveRecord

/-- Whether Halyard of a die has something to take, start or write. -/
def State.collBusy (s : State) (die : Nat) : Bool :=
  !(s.collWaiting die).isEmpty || (s.collNext die).isSome
  || s.halyard.any fun h => decide (h.die = die) && (h.hdr.any (fun d => !(s.tellable h d).isEmpty) || (s.collWritable h
      && decide (((s.cmd h.unit .col h.n).map (·.stage)).getD .taken ≠ .paged)))

/-- COLL_RECORD_START (R343): Halyard takes the commands handed to it, writes what is due, and starts the next record. -/
def execCollRecordStart (die : Nat) (s : State) : Res :=
  let s := (s.collWaiting die).foldl (fun s p => s.collTake p.1 p.2) s
  let s := (s.halyard.filter fun h => decide (h.die = die)).foldl (fun s h => match s.hal h.rid with
    | some g => if s.collWritable g then s.collWrite g else s.tellMore g
    | none => s) s
  .next (match s.collNext die with
    | some h =>
      let s := s.onHal h.rid fun h => { h with stage := .running, started := s.now }
      match s.hal h.rid with
      | some h => s.collRead h
      | none => s
    | none => s)

/-! ### Service (R347) -/

/-- The rank of a member in a record's group. -/
def CollHdr.rankOf (d : CollHdr) (m : Member) : Option Nat := d.group.findIdx? fun g => decide (g = m)

/-- The open record of a die that serves a request: from its start until it completes, faulted or not. -/
def State.server (s : State) (r : CollReq) : Option HalRec :=
  s.halyard.find? fun h => decide (h.die = r.server) && decide (h.stage ≠ .complete) && h.answers r.key

/-- Whether the record that would have served a request has completed before it arrived. -/
def State.servedOut (s : State) (r : CollReq) : Bool :=
  s.halyard.any fun h => decide (h.die = r.server) && decide (h.stage = .complete) && h.answers r.key
    && match h.hdr with
      | some d => match d.rankOf r.requester with
        | some k => !h.dones.contains k && decide (k ≠ h.rank)
        | none => false
      | none => false

/-- Send one block back to the requester. -/
def State.reply (s : State) (r : CollReq) (j : Nat) (f : BlockFate) : State :=
  let b : CollBlock := ⟨r.requester.die, r.rid, r.xfer, j, f, none⟩
  if r.requester.dev = field s.regs.fabid 0 6 then
    let (k, s) := s.draw
    s.after (1 + Config.collDelay k) (.collBlockArrive b)
  else match s.linkTo r.requester.dev with
    | some l => { s with outs := s.outs ++ [.collBlock l b] }
    | none => s

/-- Read one block of a served request, of which these are the translated pieces, and send it back. -/
def State.serveBlock (s : State) (h : HalRec) (r : CollReq) (l : List Piece) (j : Nat) : State :=
  let a := va56 r.src + 128 * j
  match l.find? fun p => decide (p.va ≤ a) && decide (a < p.va + p.len) with
  | some p =>
    let (key, s) := s.keyOf h.die h.asid
    let s := s.touch (s.launchOf h.unit) h.die (p.pa + (a - p.va)) 128
    let (g, s) := s.readPhys h.die (p.pa + (a - p.va)) 128 key
    s.reply r j (if g.err then .notServed else .good g.data)
  | none => s.reply r j .notServed

/-- COLL_REQUEST_ARRIVE (R347): served by the open record, held until one opens, or not served. -/
def execCollRequestArrive (r : CollReq) (s : State) : Res :=
  let s := { s with collHeld := s.collHeld.filter fun q => !decide (q = r) }
  let n := r.bytes / 128
  let lost := fun (s : State) => (List.range n).foldl (fun s j => s.reply r j .notServed) s
  .next (match s.server r with
    | some h =>
      if !s.halMay h false then { s with collHeld := s.collHeld ++ [r] }
      else if !canonical r.src then lost s
      else match s.paged ⟨.collRequestArrive r, .r, none⟩ h.die h.asid (va56 r.src) r.bytes 5 with
        | (.wait, s) => s
        | (.fault _, s) => lost s
        | (.ok l, s) => (List.range n).foldl (fun s j => s.serveBlock h r l j) s
    | none => if s.servedOut r then lost s else { s with collHeld := s.collHeld ++ [r] })

/-- Held requests that may be served now. -/
def State.collDue (s : State) : Option CollReq :=
  s.collHeld.find? fun r => match s.server r with
    | some h => s.halMay h false
    | none => s.servedOut r

/-! ### Arrivals (R346, R349, R350) -/

/-- COLL_BLOCK_ARRIVE: a failed check counts against the link; a block is delivered, delivered invalid, faults its exact record, or is
sent again. -/
def execCollBlockArrive (b : CollBlock) (s : State) : Res :=
  let s := match b.fate, b.link with
    | .badCheck, some l => s.countError (.link l) 0
    | _, _ => s
  match s.hal b.rid with
  | none => .next s
  | some h => match h.hdr with
    | none => .next s
    | some d =>
      if decide (h.stage ≠ .running) || !h.fresh then .next s
      else
        let key := b.xfer * d.nblk + b.blk
        let next := fun (s : State) => match s.hal b.rid with
          | some g => if s.collWritable g then s.collWrite g else s
          | none => s
        .next (match b.fate with
          | .good data => next (s.settle b.rid key (some data))
          | .badCheck => if d.lossy then next (s.settle b.rid key none) else s
          | .notServed => if d.lossy then next (s.settle b.rid key none) else s.collFault b.rid collectivePeer)

/-- COLL_DONE_ARRIVE: a done is counted, or held until a record opens. -/
def execCollDoneArrive (die : Nat) (key : CollKey) (rank : Nat) (s : State) : Res :=
  .next (match s.halyard.find? fun h => decide (h.die = die) && decide (h.stage ≠ .complete) && h.answers key && !h.dones.contains rank with
    | some h => (s.onHal h.rid fun h => { h with dones := h.dones ++ [rank] }).collComplete h.rid
    | none =>
      -- a done from a peer of a record that has already completed is discarded (R350)
      if s.halyard.any fun h => decide (h.die = die) && decide (h.stage = .complete) && h.answers key && !h.dones.contains rank then
        { s with halyard := s.halyard.map fun h =>
            if decide (h.die = die) && decide (h.stage = .complete) && h.answers key then { h with dones := h.dones ++ [rank] } else h }
      else { s with collDones := s.collDones ++ [(die, key, rank)] })

/-- COLL_DEADLINE (R350). An event of a record whose deadline has not come tries its waiting translation again. -/
def execCollDeadline (_die rid : Nat) (s : State) : Res :=
  match s.hal rid with
  | none => .next s
  | some h =>
    if h.stage ≠ .running then .next s
    else match (if h.fresh then h.hdr else none) with
      | none => .next (s.collRead h)
      | some d =>
        let past := decide (d.deadline ≠ 0) && decide (h.started + d.deadline ≤ s.now)
        .next (if past then (if d.lossy then s.expire h d else s.collFault rid collectiveDeadline)
          else if s.collWritable h then s.collWrite h else s)

/-- A cancel ends a unit's running records as if their deadlines had passed; one that has not started ends so as it opens (R350). -/
def State.collCancel (s : State) (u : Nat) : State :=
  (s.halyard.filter fun h => decide (h.unit = u)).foldl (fun s h =>
    let s := s.onHal h.rid fun h => { h with cancelled := true }
    match h.stage, (if h.fresh then h.hdr else none) with
    | .running, some d => s.endEarly { h with cancelled := true } d
    | .running, none => s.collDrop h
    | _, _ => s) s

end Sys2Proof.Machine
end

