-- ==== Sys2Proof/Machine/Records.lean ====
section
/-! DEFINITION. The records that the walker, the loader and the command processor read: jobs, phases, graph nodes, placement
records, spawn descriptors and host commands (R79 to R82, R90, R95, R96, R98, R99). -/
namespace Sys2Proof.Machine

/-- Whether the words of a record from `i` up to `n` are zero. -/
def zeroFrom (b : List Byte) (i n : Nat) : Bool := (List.range n).all fun k => decide (k < i) || recWord b k == 0

/-! ### Jobs, phases and graphs (R81) -/

/-- What is wrong with a record. -/
inductive BadRecord where
  | version
  | record
deriving DecidableEq, Repr

def BadRecord.cond : BadRecord → Cond
  | .version => recordVersion
  | .record => graphRecord

/-- NPHASE, PHTAB, JCNT and GANG of a job record. -/
structure JobRec where
  nphase : Nat
  phtab : Word
  jcnt : Word
  gang : Word
deriving DecidableEq, Repr

/-- JCNT, which is read whatever else a job record holds. -/
def jobCounter (b : List Byte) : Word := recWord b 2

def jobRecord (b : List Byte) : Except BadRecord JobRec :=
  let w := recWord b 0
  let ver := field w 8 8
  if ver ≠ 1 ∧ ver ≠ 2 then .error .version
  else if field w 0 8 ≠ 0x10 ∨ field w 32 32 ≠ 0 ∨ field w 16 16 = 0 ∨ (recWord b 1).toNat % 32 ≠ 0 ∨ (recWord b 2).toNat % 32 ≠ 0
      ∨ !zeroFrom b 4 8 then .error .record
  else .ok ⟨field w 16 16, recWord b 1, recWord b 2, recWord b 3⟩

/-- Graph list, NGRAPH and counter of a phase-table entry. -/
structure PhaseRec where
  glist : Word
  ngraph : Nat
  pcnt : Word
deriving DecidableEq, Repr

def phaseRecord (b : List Byte) : Option PhaseRec :=
  let n := field (recWord b 1) 0 32
  if n = 0 ∨ field (recWord b 1) 32 32 ≠ 0 ∨ recWord b 3 ≠ 0 ∨ (recWord b 2).toNat % 32 ≠ 0 then none
  else some ⟨recWord b 0, n, recWord b 2⟩

/-- Base and counter of a graph list entry. -/
def graphRecordOf (b : List Byte) : Option (Word × Word) :=
  if (recWord b 0).toNat % 64 ≠ 0 ∨ (recWord b 1).toNat % 32 ≠ 0 then none else some (recWord b 0, recWord b 1)

/-! ### Nodes (R82, R95) -/

/-- A node record, as the event of its visit for a job. -/
inductive Node where
  | launch (n : LaunchNode)
  | copy (n : CopyNode)
  | cond (n : CondNode)
  | while_ (n : WhileNode)
  | signal (n : SignalNode)
  | wait (n : WaitNode)
  | phaseend (h : NodeHdr)
  | hostirq (h : NodeHdr) (vec : BitVec 11)
deriving DecidableEq, Repr

def Node.event (j : Nat) : Node → Event
  | .launch n => .launch j n
  | .copy n => .copyNode j n
  | .cond n => .condNode j n
  | .while_ n => .whileNode j n
  | .signal n => .signal j n
  | .wait n => .waitNode j n
  | .phaseend h => .phaseend j h
  | .hostirq h v => .hostirq j h v

/-- Words of a node that must be zero outside a mask, from word 1 on. -/
def maskedZero (b : List Byte) (masks : List Word) : Bool :=
  (List.range 7).all fun k => (recWord b (k + 1) &&& ~~~(masks.getD k 0)) == 0

def allBits : Word := BitVec.allOnes 64

/-- The node record in 64 bytes. A version 1 record may not use what version 2 added, and is read as R95 gives. -/
def nodeRecord (b : List Byte) : Except BadRecord Node :=
  let w := recWord b 0
  let ver := field w 8 8
  let old := decide (ver = 1)
  let ty := field w 0 8
  let wc := old || w.getLsbD 16
  let h : NodeHdr := ⟨wc, field w 32 32⟩
  let r := recWord b
  let ok := fun (m : List Word) => maskedZero b m && field w 17 15 = 0
  let wcOk := !(old && w.getLsbD 16)
  let w8 := fun (x : Word) => x.toNat % 8 = 0
  if ver ≠ 1 ∧ ver ≠ 2 then .error .version
  else match ty with
    | 1 =>
      if ok [allBits, allBits, allBits, allBits, if old then 0 else 0xFFFFFF#64] && wcOk && decide ((r 4).toNat % 32 = 0) then
        .ok (.launch ⟨h, r 1, r 2, r 3, r 4, field (r 5) 0 8, field (r 5) 8 8, field (r 5) 16 8⟩)
      else .error .record
    | 2 =>
      if ok [allBits, allBits, allBits, allBits] && wcOk && decide ((r 4).toNat % 32 = 0) then
        .ok (.copy ⟨h, r 1, r 2, r 3, r 4⟩)
      else .error .record
    | 3 => if ok [allBits, 0xFFFFFFFF#64] then .ok (.cond ⟨h, r 1, field (r 2) 0 32⟩) else .error .record
    | 4 =>
      if ok [allBits, 0xFFFFFFFF#64, if old then 0 else 0xFFFFFFFF#64, if old then 0 else allBits] then
        .ok (.while_ ⟨h, r 1, field (r 2) 0 32, field (r 3) 0 32, r 4⟩)
      else .error .record
    | 5 =>
      if ok [allBits, allBits, 3#64] && w8 (r 1) then .ok (.signal ⟨h, r 1, r 2, (r 3).getLsbD 0, (r 3).getLsbD 1⟩)
      else .error .record
    | 6 =>
      if ok [allBits, allBits, if old then 3#64 else 7#64, if old then 0 else allBits] && w8 (r 1) then
        match field (r 3) 0 2 with
        | 0 => .ok (.wait ⟨h, r 1, r 2, 0, (r 3).getLsbD 2, r 4⟩)
        | 1 => .ok (.wait ⟨h, r 1, r 2, 1, (r 3).getLsbD 2, r 4⟩)
        | 2 => .ok (.wait ⟨h, r 1, r 2, 2, (r 3).getLsbD 2, r 4⟩)
        | _ => .error .record
      else .error .record
    | 7 => if ok [] then .ok (.phaseend h) else .error .record
    | 8 => if ok [0x7FF#64] then .ok (.hostirq h ((r 1).extractLsb' 0 11)) else .error .record
    | _ => .error .record

/-! ### Placement records (R98 to R100) -/

/-- NENT of a placement record header. -/
def entriesOf (b : List Byte) : Nat := field (recWord b 0) 16 12

def placeEntry (b : List Byte) : PEntry :=
  let w := recWord b 0
  let v := recWord b 1
  ⟨field w 0 9, field w 9 2, field w 12 3, w.getLsbD 15, field w 16 12, field w 32 12, field v 0 22, field v 22 22⟩

def entryOk (b : List Byte) : Bool :=
  let w := recWord b 0
  decide (field w 11 1 = 0) && decide (field w 28 4 = 0) && decide (field w 44 20 = 0) && decide (field (recWord b 1) 44 20 = 0)

/-- A placement record whose fixed fields are legal; none when R100 refuses it for them. -/
def placeRecord (hdr : List Byte) (ents : List (List Byte)) : Option PRecord :=
  let w := recWord hdr 0
  let z := fun (n d : Nat) => if n = 0 then d else n
  let lbud := field (recWord hdr 3) 0 11
  if field w 0 8 ≠ 0x20 ∨ field w 8 8 ≠ 1 ∨ field w 40 24 ≠ 0 ∨ !zeroFrom hdr 4 8 ∨ field (recWord hdr 3) 11 53 ≠ 0
      ∨ (recWord hdr 1).toNat % 32 ≠ 0 ∨ 1024 < lbud ∨ ents.length = 0 ∨ 2560 < ents.length ∨ !(ents.all entryOk) then none
  else some {
    share := w.getLsbD 28
    domain := if w.getLsbD 29 then some (field w 30 2, w.extractLsb' 32 8) else none
    ptab := recWord hdr 1
    slice := z (field (recWord hdr 2) 0 32) 65536
    ytol := z (field (recWord hdr 2) 32 32) 1024
    lbud := z lbud 64
    entries := ents.map placeEntry }

/-- The unit entries of a record, in order. -/
def PRecord.units (r : PRecord) : List PEntry := r.entries.filter fun e => !e.kind
def PRecord.cores (r : PRecord) : List Nat := (r.entries.map (·.core)).eraseDups
/-- Cores on which a KIND 0 entry reserves a context. -/
def PRecord.unitCores (r : PRecord) : List Nat := (r.units.map (·.core)).eraseDups

/-- Whether the set rows of a mask are contiguous and not empty. -/
def rowsContiguous (m : BitVec 8) : Bool :=
  let l := (List.range 8).filter fun i => m.getLsbD i
  !l.isEmpty && decide (l.getLastD 0 - l.headD 0 + 1 = l.length)

/-- The cores of a timing domain. -/
def domainCores (die : Nat) (rows : BitVec 8) : List Nat :=
  ((List.range 8).filter fun i => rows.getLsbD i).flatMap fun r => (List.range 16).map fun c => die * 128 + r * 16 + c

/-- The rules of R100 that a record and its functions decide. -/
def PRecord.wellFormed (r : PRecord) (funcs : List FnInfo) : Bool :=
  let us := r.units
  let ctxs := us.map fun e => (e.core, e.ctx)
  let pools := (r.entries.filter (·.kind)).map (·.core)
  let one := fun (e : PEntry) (i : Nat) =>
    decide (e.off % 256 = 0) && decide (e.size % 256 = 0) && decide (256 ≤ e.size) && decide (e.off + e.size ≤ spmSize)
    && (if e.kind then decide (e.ctx = 0) && decide (e.rank = 0) && decide (e.func = 0) && decide (e.partner = 0xFFF)
        else decide (e.func < funcs.length) && (decide (e.partner = 0xFFF) || match r.entries[e.partner]? with
          | some p => !p.kind && decide (p.core = partnerCore e.core) && decide (p.partner = i)
          | none => false))
    && r.entries.zipIdx.all fun p => decide (p.2 = i) || decide (p.1.core ≠ e.core) || !overlaps e.off e.size p.1.off p.1.size
  decide (1 ≤ us.length) && decide (us.length ≤ 2048) && decide (ctxs.eraseDups.length = ctxs.length)
  && decide (pools.eraseDups.length = pools.length) && r.entries.zipIdx.all (fun p => one p.1 p.2)
  && match r.domain with
    | none => true
    | some (die, rows) => rowsContiguous rows && (domainCores die rows).all fun c => us.any fun e =>
        decide (e.core = c) && decide (e.ctx = 0) && funcs[e.func]?.any fun (f : FnInfo) => f.fflags.testBit 0

/-! ### Spawn descriptors (R90) -/

structure SpawnDesc where
  func : Nat
  core : Nat
  rank : Nat
  bytes : Nat
  args : List Word
deriving DecidableEq, Repr

def spawnDesc (b : List Byte) : Option SpawnDesc :=
  let w := recWord b 0
  if field w 12 8 ≠ 0 ∨ field w 35 29 ≠ 0 ∨ (recWord b 1).toNat % 256 ≠ 0 then none
  else some ⟨field w 0 12, field w 20 12, field w 32 3, (recWord b 1).toNat, (List.range 6).map fun i => recWord b (i + 2)⟩

/-! ### Gang records and host commands (R79, R80, R96, R409) -/

structure GangRec where
  id : Word
  count : Nat
  rank : Nat
  job : Word
deriving DecidableEq, Repr

def gangRecord (b : List Byte) : GangRec := ⟨recWord b 0, field (recWord b 1) 0 32, field (recWord b 1) 32 32, recWord b 2⟩

/-- Bytes of a command that no operand uses are zero; `used` lists the operand bits by byte offset, a mask for each byte. -/
def reservedZero (b : List Byte) (used : List (Nat × Nat)) : Bool :=
  (List.range 64).all fun i =>
    if i = 0 ∨ i = 2 ∨ i = 3 then true
    else
      let m := ((used.find? fun u => decide (u.1 = i)).map (·.2)).getD 0
      decide (((b[i]?.getD 0).toNat) &&& (255 - m) = 0)

/-- Whole bytes from an offset. -/
def wholeBytes (off n : Nat) : List (Nat × Nat) := (List.range n).map fun i => (off + i, 255)
/-- The 11 bits of an ASID at byte 8. -/
def asidBytes : List (Nat × Nat) := [(8, 255), (9, 7)]

/-- A host command of 64 bytes, as the event of its consumption. -/
def hostCommand (port : Fin 2) (b : List Byte) : Event :=
  let tag : BitVec 16 := (recWord b 0).extractLsb' 16 16
  let asid : BitVec 11 := (recWord b 1).extractLsb' 0 11
  let die : Fin 4 := ⟨field (recWord b 3) 0 2, Nat.mod_lt _ (by decide)⟩
  let bad := Event.malformedCommand port tag
  let ok := fun (used : List (Nat × Nat)) (e : Event) => if reservedZero b used then e else bad
  match field (recWord b 0) 0 8 with
  | 1 => ok (asidBytes ++ wholeBytes 16 8 ++ [(24, 3)]) (.submit port tag asid (recWord b 2) die)
  | 2 =>
    let level : Option Level := match field (recWord b 1) 32 8 with
      | 1 => some .launch | 2 => some .graph | 3 => some .phase | 4 => some .job | _ => none
    match level with
    | some l => ok (asidBytes ++ [(12, 7)] ++ wholeBytes 16 8 ++ wholeBytes 24 2)
        (.cancel port tag asid l (recWord b 2) ((recWord b 3).extractLsb' 0 16))
    | none => bad
  | 3 => ok asidBytes (.asidinv port tag asid)
  | 4 => ok (asidBytes ++ wholeBytes 16 16) (.tlbinv port tag asid (recWord b 2) (recWord b 3))
  | 5 =>
    -- the gang record's address stands at 16 and the ASID at 8, as in SUBMIT
    ok (asidBytes ++ wholeBytes 16 8 ++ [(24, 3)]) (.gangarm port tag (recWord b 2) asid die)
  | 6 => ok (wholeBytes 8 8) (.ganggo port tag (recWord b 1))
  | 7 => ok (wholeBytes 8 8) (.gangabort port tag (recWord b 1))
  | 8 =>
    let key : BitVec 7 := (recWord b 1).extractLsb' 32 7
    match field (recWord b 1) 0 8 with
    | 1 => ok ([(8, 255), (12, 127)] ++ wholeBytes 16 8) (.keyld port tag key (recWord b 2))
    | 2 => ok [(8, 255), (12, 127)] (.keyclr port tag key)
    | _ => bad
  | _ => bad

end Sys2Proof.Machine
end

