-- ==== Sys2Proof/Machine/ZtcPorts.lean ====
section
/-! DEFINITION. The ports of Zhosen transport code (R26): the units, their trigger ports, and for each the native instruction it names
with its slot, its sources in the order of the syllable's fields, its result's class and its latency (R27, R31). -/
namespace Sys2Proof.Machine

abbrev Text := List Byte

def ascii (s : String) : Text := s.toList.map fun c => BitVec.ofNat 8 c.toNat

def splitText (at_ : Byte → Bool) : Text → List Text
  | [] => [[]]
  | b :: rest =>
    match splitText at_ rest with
    | l :: ls => if at_ b then [] :: l :: ls else (b :: l) :: ls
    | [] => [[b]]

def decimal (l : Text) : Option Nat :=
  if l.isEmpty || l.any (fun b => b.toNat < 48 || 57 < b.toNat) then none
  else some (l.foldl (fun n b => n * 10 + (b.toNat - 48)) 0)

/-! ### Units and operations -/

/-- The eight units (R26). -/
inductive ZUnit where
  | alu | mul | fpu | lsu | vec | sfu | mat | que
deriving DecidableEq, Repr

def zUnit (l : Text) : Option ZUnit :=
  if l = ascii "ALU" then some .alu else if l = ascii "MUL" then some .mul else if l = ascii "FPU" then some .fpu
  else if l = ascii "LSU" then some .lsu else if l = ascii "VEC" then some .vec else if l = ascii "SFU" then some .sfu
  else if l = ascii "MAT" then some .mat else if l = ascii "QUE" then some .que else none

/-- What a source of an operation takes: a register or latch of a class; a register only (a register that its own field names); a
vector, or a scalar for every element; an immediate. -/
inductive ZKind where
  | s | v | p
  | sReg | vReg | pReg
  | vs
  | imm
deriving DecidableEq, Repr

/-- A source as the native instruction gets it. -/
inductive ZArg where
  | src (c : RegCls) (x : Src)
  | imm (n : Word)
deriving DecidableEq, Repr

def ZArg.toSrc : ZArg → Src
  | .src _ x => x
  | .imm _ => .reg 0
def ZArg.reg : ZArg → Fin 32
  | .src _ (.reg n) => n
  | _ => 0
def ZArg.isScalar : ZArg → Bool
  | .src .s _ => true
  | _ => false
def ZArg.word : ZArg → Word
  | .imm n => n
  | .src .. => 0

def argAt (l : List ZArg) (i : Nat) : ZArg := l.getD i (.imm 0)

/-- A native operation that a trigger port names. `tied` says that its last source is the old value of its destination register, `lands`
that its result comes through a landing buffer; `ty` is its element type. -/
structure ZOper where
  slot : Slot
  kinds : List ZKind
  dst : Option RegCls
  lat : Nat
  tied : Bool := false
  lands : Bool := false
  ty : Ty := .i8
  build : Fin 32 → List ZArg → Option Instr

/-! ### Suffixes (R134): each reader takes the first token if it is one of its own -/

def sufOf {α : Type} (names : List (String × α)) (dflt : α) (l : List Text) : α × List Text :=
  match l with
  | t :: r => match names.find? fun x => decide (ascii x.1 = t) with
    | some x => (x.2, r)
    | none => (dflt, l)
  | [] => (dflt, l)

def flag (name : String) (l : List Text) : Bool × List Text := sufOf [(name, true)] false l

/-- A number after a prefix, or 0. -/
def sufNum (pre : String) (l : List Text) : Nat × List Text :=
  match l with
  | t :: r => if t.take pre.length = ascii pre then match decimal (t.drop pre.length) with
      | some n => (n, r)
      | none => (0, l)
    else (0, l)
  | [] => (0, l)

def sufTy : List Text → Ty × List Text := sufOf [("i8", .i8), ("i16", .i16), ("i32", .i32), ("n8", .n8), ("n16", .n16), ("n32", .n32),
  ("f16", .f16), ("bf16", .bf16), ("f32", .f32), ("e4m3", .e4m3), ("e5m2", .e5m2), ("e2m1", .e2m1), ("l8", .l8)] .i8
def sufRm : List Text → Rm × List Text := sufOf [("rne", .rne), ("rtz", .rtz), ("ru", .ru), ("rd", .rd), ("sr", .sr)] .rne
def sufScope : List Text → Option Scope × List Text := sufOf
  [("ctx", some .ctx), ("core", some .core), ("clu", some .clu), ("die", some .die), ("dev", some .dev), ("sys", some .sys)] none
def sufCmp : List Text → CmpC × List Text := sufOf
  [("eq", .eq), ("ne", .ne), ("lt", .lt), ("le", .le), ("gt", .gt), ("ge", .ge), ("un", .un), ("or", .or)] .eq

/-- How a table entry reads the suffixes of its port's name. -/
abbrev ZMaker := List Text → Option ZOper

/-- An operation without suffixes. -/
def bare (o : ZOper) : ZMaker := fun l => if l.isEmpty then some o else none

/-! ### S-slot shapes -/

def zSr3 (lat : Nat) (f : SR3 → Instr) : ZMaker :=
  bare ⟨.s0, [.s, .s], some .s, lat, false, false, .i8, fun d l => some (f ⟨d, false, (argAt l 0).toSrc, (argAt l 1).toSrc⟩)⟩
/-- The same, reading its destination register too. -/
def zSr3Tied (f : SR3 → Instr) : ZMaker :=
  bare ⟨.s0, [.s, .s, .s], some .s, 1, true, false, .i8, fun d l => some (f ⟨d, false, (argAt l 0).toSrc, (argAt l 1).toSrc⟩)⟩
def zSr2 (lat : Nat) (f : SR2 → Instr) : ZMaker :=
  bare ⟨.s0, [.s], some .s, lat, false, false, .i8, fun d l => some (f ⟨d, false, (argAt l 0).toSrc⟩)⟩
def zSf3 (f : SF3 → Instr) : ZMaker := fun t =>
  let (rm, t) := sufRm t
  bare ⟨.s0, [.s, .s], some .s, 4, false, false, .i8, fun d l => some (f ⟨d, false, (argAt l 0).toSrc, (argAt l 1).toSrc, rm⟩)⟩ t
def zFma : ZMaker := fun t =>
  let (rm, t) := sufRm t
  bare ⟨.s0, [.s, .s, .s], some .s, 4, true, false, .i8,
    fun d l => some (.fma ⟨d, false, (argAt l 0).toSrc, (argAt l 1).toSrc, rm⟩)⟩ t
def zSf2 (f : SF2 → Instr) : ZMaker := fun t =>
  let (rm, t) := sufRm t
  bare ⟨.s0, [.s], some .s, 4, false, false, .i8, fun d l => some (f ⟨d, false, (argAt l 0).toSrc, rm⟩)⟩ t

def immFits (w : Nat) (n : Word) : Bool := decide (-(2 ^ (w - 1) : Int) ≤ n.toInt) && decide (n.toInt < 2 ^ (w - 1))

def zImm (f : SImm → Instr) : ZMaker :=
  bare ⟨.s0, [.s, .imm], some .s, 1, false, false, .i8, fun d l =>
    let n := (argAt l 1).word
    if immFits 14 n then some (f ⟨d, false, (argAt l 0).toSrc, n.setWidth 14⟩) else none⟩
def zSh (f : SSh → Instr) : ZMaker :=
  bare ⟨.s0, [.s, .imm], some .s, 1, false, false, .i8, fun d l =>
    let n := (argAt l 1).word
    if n.toNat < 64 then some (f ⟨d, false, (argAt l 0).toSrc, n.setWidth 6⟩) else none⟩
/-- A chunk of a constant: signed or not, it fits 20 bits. -/
def fitsChunk (n : Word) : Bool := immFits 20 n || decide (n.toNat < 2 ^ 20)
def zLi : ZMaker :=
  bare ⟨.s0, [.imm], some .s, 1, false, false, .i8, fun d l =>
    let n := (argAt l 0).word
    if fitsChunk n then some (.li ⟨d, false, n.setWidth 20⟩) else none⟩
def zChunk (f : SLong → Instr) : ZMaker :=
  bare ⟨.s0, [.imm, .s], some .s, 1, true, false, .i8, fun d l =>
    let n := (argAt l 0).word
    if fitsChunk n then some (f ⟨d, false, n.setWidth 20⟩) else none⟩
def zEnter : ZMaker :=
  bare ⟨.s0, [.imm], none, 1, false, false, .i8, fun _ l =>
    let n := (argAt l 0).word.toNat
    if n % 256 = 0 ∧ 0 < n ∧ n / 256 < 2 ^ 14 then some (.enter (BitVec.ofNat 14 (n / 256))) else none⟩

/-- An instruction without sources or a result. -/
def zPlain (slot : Slot) (lat : Nat) (i : Instr) : ZMaker := bare ⟨slot, [], none, lat, false, false, .i8, fun _ _ => some i⟩

def zLoad : ZMaker := fun t => match t with
  | l :: t => if l = ascii "l" then
      let (f, t) := sufOf [("i8", some Instr.ldLI8), ("n8", some .ldLN8), ("i16", some .ldLI16), ("n16", some .ldLN16), ("i32", some .ldLI32),
        ("n32", some .ldLN32), ("d", some .ldLD)] none t
      match f with
      | some f => bare ⟨.s0, [.s], some .s, 6, false, false, .i8, fun d l => some (f ⟨d, false, (argAt l 0).toSrc, 0⟩)⟩ t
      | none => none
    else none
  | [] => none
def zStore : ZMaker := fun t => match t with
  | l :: t => if l = ascii "l" then
      let (f, t) := sufOf [("b", some Instr.stLB), ("h", some .stLH), ("w", some .stLW), ("d", some .stLD)] none t
      match f with
      | some f => bare ⟨.s0, [.s, .sReg], none, 0, false, false, .i8, fun _ l => some (f ⟨(argAt l 1).reg, (argAt l 0).toSrc, 0⟩)⟩ t
      | none => none
    else none
  | [] => none

/-- A scope makes the access an acquire or a release (R317); `.acq` or `.rel` alone is at system scope, and no size is 8 bytes. -/
def zLdg : ZMaker := fun t =>
  let (sz, t) := sufOf [("i8", LdSz.i8), ("n8", .n8), ("i16", .i16), ("n16", .n16), ("i32", .i32), ("n32", .n32), ("d", .d)] .d t
  let (acq, t) := flag "acq" t
  let (sc, t) := sufScope t
  bare ⟨.s0, [.s], some .s, 0, false, true, .i8, fun d l =>
    some (.ldg ⟨d, (argAt l 0).toSrc, 0, sz, sc.getD (if acq then .sys else .ctx), acq || sc.isSome⟩)⟩ t
def zStg : ZMaker := fun t =>
  let (sz, t) := sufOf [("b", StSz.b), ("h", .h), ("w", .w), ("d", .d)] .d t
  let (rel, t) := flag "rel" t
  let (sc, t) := sufScope t
  bare ⟨.s0, [.s, .sReg], none, 0, false, false, .i8, fun _ l =>
    some (.stg ⟨(argAt l 1).reg, (argAt l 0).toSrc, 0, sz, sc.getD (if rel then .sys else .ctx), rel || sc.isSome⟩)⟩ t

/-! ### V- and X-slot shapes -/

def zInt (f : VInt → Instr) : ZMaker := fun t =>
  let (ty, t) := sufTy t
  let (sat, t) := flag "sat" t
  bare ⟨.v, [.v, .vs], some .v, 2, false, false, ty, fun d l =>
    some (f ⟨d, false, (argAt l 0).toSrc, (argAt l 1).toSrc, (argAt l 1).isScalar, sat, 0, ty⟩)⟩ t
def zMad : ZMaker := fun t =>
  let (ty, t) := sufTy t
  let (sat, t) := flag "sat" t
  bare ⟨.v, [.v, .vs, .v], some .v, 2, false, false, ty, fun d l =>
    some (.vmad ⟨d, false, (argAt l 0).toSrc, (argAt l 1).toSrc, (argAt l 2).toSrc, (argAt l 1).isScalar, sat, 0, ty⟩)⟩ t
def zBin (lat : Nat) (f : VBin → Instr) : ZMaker := fun t =>
  let (ty, t) := sufTy t
  bare ⟨.v, [.v, .vs], some .v, lat, false, false, ty, fun d l =>
    some (f ⟨d, false, (argAt l 0).toSrc, (argAt l 1).toSrc, (argAt l 1).isScalar, 0, ty⟩)⟩ t
def zUnSat (f : VUnSat → Instr) : ZMaker := fun t =>
  let (ty, t) := sufTy t
  let (sat, t) := flag "sat" t
  bare ⟨.v, [.v], some .v, 2, false, false, ty, fun d l => some (f ⟨d, false, (argAt l 0).toSrc, sat, 0, ty⟩)⟩ t
/-- One source of a class and a result of a class. -/
def zUn (slot : Slot) (k : ZKind) (c : RegCls) (lat : Nat) (f : VUn → Instr) : ZMaker := fun t =>
  let (ty, t) := sufTy t
  bare ⟨slot, [k], some c, lat, false, false, ty, fun d l => some (f ⟨d, false, (argAt l 0).toSrc, 0, ty⟩)⟩ t
def zFlt (f : VFlt → Instr) : ZMaker := fun t =>
  let (ty, t) := sufTy t
  let (rm, t) := sufRm t
  bare ⟨.v, [.v, .vs], some .v, 4, false, false, ty, fun d l =>
    some (f ⟨d, false, (argAt l 0).toSrc, (argAt l 1).toSrc, (argAt l 1).isScalar, rm, 0, ty⟩)⟩ t
def zVfma : ZMaker := fun t =>
  let (ty, t) := sufTy t
  let (rm, t) := sufRm t
  bare ⟨.v, [.v, .vs, .v], some .v, 4, false, false, ty, fun d l =>
    some (.vfma ⟨d, false, (argAt l 0).toSrc, (argAt l 1).toSrc, (argAt l 2).toSrc, (argAt l 1).isScalar, rm, 0, ty⟩)⟩ t
def pNum (d : Fin 32) : Fin 16 := ⟨d.val % 16, Nat.mod_lt _ (by decide)⟩
def zCmp (f : VCmpOp → Instr) : ZMaker := fun t =>
  let (ty, t) := sufTy t
  let (cc, t) := sufCmp t
  bare ⟨.v, [.v, .vs], some .p, 2, false, false, ty, fun d l =>
    some (f ⟨pNum d, false, (argAt l 0).toSrc, (argAt l 1).toSrc, (argAt l 1).isScalar, cc, 0, ty⟩)⟩ t
def zSel : ZMaker := fun t =>
  let (ty, t) := sufTy t
  bare ⟨.v, [.v, .v, .p], some .v, 2, false, false, ty, fun d l =>
    some (.vsel ⟨d, false, (argAt l 0).toSrc, (argAt l 1).toSrc, (argAt l 2).toSrc, 0, ty⟩)⟩ t
def zTwo (slot : Slot) (a b : ZKind) (c : RegCls) (lat : Nat) (f : VTwo → Instr) : ZMaker := fun t =>
  let (ty, t) := sufTy t
  bare ⟨slot, [a, b], some c, lat, false, false, ty, fun d l => some (f ⟨d, false, (argAt l 0).toSrc, (argAt l 1).toSrc, 0, ty⟩)⟩ t
def zVld : ZMaker := fun t =>
  let (ty, t) := sufTy t
  bare ⟨.v, [.s], some .v, 8, false, false, ty, fun d l => some (.vld ⟨d, false, (argAt l 0).toSrc, 0, 0, ty⟩)⟩ t
def zVst : ZMaker := fun t =>
  let (ty, t) := sufTy t
  bare ⟨.v, [.s, .vReg], none, 0, false, false, ty, fun _ l => some (.vst (argAt l 1).reg (argAt l 0).toSrc 0 0 ty)⟩ t
def zVscat : ZMaker := fun t =>
  let (ty, t) := sufTy t
  bare ⟨.v, [.s, .v, .vReg], none, 0, false, false, ty, fun _ l =>
    some (.vscat (argAt l 2).reg (argAt l 0).toSrc (argAt l 1).toSrc 0 ty)⟩ t
def fin8Of (n : Nat) : Fin 8 := ⟨n % 8, Nat.mod_lt _ (by decide)⟩
def zVldg : ZMaker := fun t =>
  let (ty, t) := sufTy t
  let (rm, t) := sufRm t
  let (cb, t) := sufNum "cb" t
  if 8 ≤ cb then none
  else bare ⟨.v, [.s], some .v, 0, false, true, ty, fun d l => some (.vldg ⟨d, (argAt l 0).toSrc, 0, fin8Of cb, rm, 0, ty⟩)⟩ t
def zVstg : ZMaker := fun t =>
  let (ty, t) := sufTy t
  let (rm, t) := sufRm t
  bare ⟨.v, [.s, .vReg], none, 0, false, false, ty, fun _ l => some (.vstg ⟨(argAt l 1).reg, (argAt l 0).toSrc, 0, 0, rm, 0, ty⟩)⟩ t
def zVrsum : ZMaker := fun t =>
  let (ty, t) := sufTy t
  let (rm, t) := sufRm t
  bare ⟨.v, [.v], some .s, 6, false, false, ty, fun d l => some (.vrsum ⟨d, false, (argAt l 0).toSrc, rm, 0, ty⟩)⟩ t
/-- The validity predicate goes to p0, which discards it. -/
def zVrmrs : ZMaker := fun t =>
  let (ty, t) := sufTy t
  bare ⟨.v, [.v, .p], some .s, 6, false, false, ty, fun d l =>
    some (.vrmrs ⟨d, false, (argAt l 0).toSrc, (argAt l 1).toSrc, 0, 0, ty⟩)⟩ t
def fin16Of (n : Nat) : Fin 16 := ⟨n % 16, Nat.mod_lt _ (by decide)⟩
def zVcpush : ZMaker := fun t =>
  let (f, t) := flag "f" t
  let (ty, t) := sufTy t
  let (g, t) := flag "f" t
  let (q, t) := sufNum "q" t
  if 16 ≤ q then none
  else bare ⟨.v, [.v], none, 0, false, false, ty, fun _ l => some (.vcpush ⟨(argAt l 0).toSrc, fin16Of q, f || g, 0, ty⟩)⟩ t
def fin4Of (n : Nat) : Fin 4 := ⟨n % 4, Nat.mod_lt _ (by decide)⟩
/-- A head offset, with `^` after it for a pop. -/
def sufHead (l : List Text) : Nat × Bool × List Text :=
  match l with
  | t :: r => match decimal t with
    | some k => (k, false, r)
    | none => match decimal t.dropLast with
      | some k => if t.getLast? = some 94 then (k, true, r) else (0, false, l)
      | none => (0, false, l)
  | [] => (0, false, l)
def zVcpop : ZMaker := fun t =>
  let (ty, t) := sufTy t
  let (q, t) := sufNum "q" t
  let (k, pop, t) := sufHead t
  if 16 ≤ q ∨ 4 ≤ k then none
  else bare ⟨.v, [.s], some .v, 8, false, false, ty, fun d l =>
    some (.vcpop ⟨d, false, (argAt l 0).toSrc, fin16Of q, fin4Of k, pop, 0, ty⟩)⟩ t
def zPbin (f : PBin → Instr) : ZMaker :=
  bare ⟨.v, [.p, .p], some .p, 2, false, false, .i8, fun d l => some (f ⟨pNum d, false, (argAt l 0).toSrc, (argAt l 1).toSrc, 0⟩)⟩
def zPun (f : PUn → Instr) : ZMaker :=
  bare ⟨.v, [.p], some .p, 2, false, false, .i8, fun d l => some (f ⟨pNum d, false, (argAt l 0).toSrc, 0⟩)⟩
def zPelt (k : ZKind) (f : PElt → Instr) : ZMaker := fun t =>
  let (ty, t) := sufTy t
  bare ⟨.v, [k], some .p, 2, false, false, ty, fun d l => some (f ⟨pNum d, false, (argAt l 0).toSrc, 0, ty⟩)⟩ t
def fin9Of (n : Nat) : Fin 9 := ⟨n % 9, Nat.mod_lt _ (by decide)⟩
def zPpack : ZMaker := fun t =>
  let (f, t) := sufNum "p" t
  if 9 ≤ f then none else bare ⟨.v, [], some .v, 2, false, false, .i8, fun d _ => some (.ppack d false (fin9Of f))⟩ t
def zPunpk : ZMaker := fun t =>
  let (f, t) := sufNum "p" t
  if 9 ≤ f then none else bare ⟨.v, [.v], none, 2, false, false, .i8, fun _ l => some (.punpk (fin9Of f) (argAt l 0).toSrc)⟩ t
def zSqrt : ZMaker := fun t =>
  let (ty, t) := sufTy t
  let (rm, t) := sufRm t
  bare ⟨.x, [.v], some .v, 20, false, false, ty, fun d l => some (.sqrt ⟨d, false, (argAt l 0).toSrc, rm, 0, ty⟩)⟩ t
def zXdiv : ZMaker := fun t =>
  let (ty, t) := sufTy t
  let (rm, t) := sufRm t
  bare ⟨.x, [.v, .v], some .v, 20, false, false, ty, fun d l =>
    some (.div ⟨d, false, (argAt l 0).toSrc, (argAt l 1).toSrc, rm, 0, ty⟩)⟩ t
def zIdiv (f : XIDiv → Instr) : ZMaker := fun t =>
  let (ty, t) := sufTy t
  let (wd, t) := flag "wd" t
  bare ⟨.x, [.v, .v], some .v, 20, false, false, ty, fun d l =>
    some (f ⟨d, false, (argAt l 0).toSrc, (argAt l 1).toSrc, wd, 0, ty⟩)⟩ t
def zMaxexp : ZMaker := fun t =>
  let (ty, t) := sufTy t
  let (tgt, t) := sufOf [("e4m3", some (0 : Fin 4)), ("e5m2", some 1), ("e2m1", some 2), ("i8", some 3)] none t
  let (blk, t) := sufOf [("b16", some (0 : Fin 3)), ("b32", some 1), ("b64", some 2)] none t
  match tgt, blk with
  | some tgt, some blk =>
    bare ⟨.x, [.v], some .v, 3, false, false, ty, fun d l => some (.maxexp ⟨d, false, (argAt l 0).toSrc, tgt, blk, 0, ty⟩)⟩ t
  | _, _ => none
def zCvtq : ZMaker := fun t =>
  let (ty, t) := sufTy t
  let (rm, t) := sufRm t
  bare ⟨.x, [.v], some .v, 4, false, false, ty, fun d l => some (.cvtq ⟨d, false, (argAt l 0).toSrc, rm, 0, ty⟩)⟩ t
/-- A conversion: destination type, source type, then the rounding mode or `.sat` and `.wrap`, then the part. -/
def zCvt (hi : Bool) (f : XCvt → Instr) : ZMaker := fun t =>
  let (ty, t) := sufTy t
  let (src, t) := sufTy t
  let (mode, t) := sufOf [("rne", (0 : Fin 8)), ("rtz", 1), ("ru", 2), ("rd", 3), ("sr", 4), ("sat", 0), ("wrap", 1)] 0 t
  let (part, t) := if hi then sufOf [("hi", 1)] 0 t else sufNum "" t
  if 8 ≤ part then none
  else bare ⟨.x, [.v], some .v, 4, false, false, ty, fun d l =>
    some (f ⟨d, false, (argAt l 0).toSrc, src, fin8Of part, mode, 0, ty⟩)⟩ t
def zCbld : ZMaker := fun t =>
  let (cb, t) := sufNum "cb" t
  if 8 ≤ cb then none else bare ⟨.x, [.s], none, 0, false, false, .i8, fun _ l => some (.cbld (fin8Of cb) (argAt l 0).toSrc)⟩ t
def fin64Of (n : Nat) : Fin 64 := ⟨n % 64, Nat.mod_lt _ (by decide)⟩
def zCbdec : ZMaker := fun t =>
  let (ty, t) := sufTy t
  let (rm, t) := sufRm t
  let (cb, t) := sufNum "cb" t
  let (part, t) := sufNum "" t
  if 8 ≤ cb ∨ 64 ≤ part then none
  else bare ⟨.x, [.v], some .v, 4, false, false, ty, fun d l =>
    some (.cbdec ⟨d, false, (argAt l 0).toSrc, fin64Of part, fin8Of cb, rm, 0, ty⟩)⟩ t
def zShuf : ZMaker := fun t =>
  let (ty, t) := sufTy t
  let (n, t) := sufNum "" t
  if 64 ≤ n then none
  else bare ⟨.x, [.v, .v], some .v, 3, false, false, ty, fun d l =>
    some (.shuf ⟨d, false, (argAt l 0).toSrc, (argAt l 1).toSrc, fin64Of n, 0, ty⟩)⟩ t
def zPatld : ZMaker := fun t =>
  let (n, t) := sufNum "" t
  if 64 ≤ n then none
  else bare ⟨.x, [.v, .v], none, 0, false, false, .i8, fun _ l => some (.patld (fin64Of n) (argAt l 0).toSrc (argAt l 1).toSrc)⟩ t

/-! ### M- and Q-slot shapes. A field that is no register is a suffix: a queue `.qN`, an accumulator `.accN`, a codebook `.cbN`, another
number plain, a descriptor as the number of its 14 bits. -/

def mdescOf (n : Nat) : MDesc :=
  let w := BitVec.ofNat 14 n
  ⟨w.getLsbD 13, fin8Of (w.extractLsb' 10 3).toNat, fin16Of (w.extractLsb' 6 4).toNat, fin4Of (w.extractLsb' 4 2).toNat, w.getLsbD 3,
    ⟨(w.extractLsb' 0 3).toNat % 6, Nat.mod_lt _ (by decide)⟩⟩
def zMma : ZMaker := fun t =>
  let (z, t) := flag "z" t
  let (acc, t) := sufNum "acc" t
  let (a, t) := sufNum "" t
  let (b, t) := sufNum "" t
  let (j, t) := sufNum "cb" t
  let (k, t) := sufNum "cb" t
  if 4 ≤ acc ∨ 8 ≤ j ∨ 8 ≤ k ∨ 2 ^ 14 ≤ a ∨ 2 ^ 14 ≤ b ∨ 6 ≤ a % 8 ∨ 6 ≤ b % 8 then none
  else zPlain .m 0 (.mma ⟨mdescOf a, mdescOf b, fin4Of acc, z, fin8Of j, fin8Of k⟩) t
def zPmma : ZMaker := fun t =>
  let (p, t) := flag "p" t
  let (z, t) := flag "z" t
  let (acc, t) := sufNum "acc" t
  let (a, t) := sufNum "" t
  let (b, t) := sufNum "" t
  let (j, t) := sufNum "cb" t
  let (k, t) := sufNum "cb" t
  if 4 ≤ acc ∨ 8 ≤ j ∨ 8 ≤ k ∨ 2 ^ 14 ≤ a ∨ 2 ^ 14 ≤ b ∨ 6 ≤ a % 8 ∨ 6 ≤ b % 8 then none
  else zPlain .m 0 (.pmma ⟨mdescOf a, mdescOf b, fin4Of acc, z, fin8Of j, fin8Of k, p⟩) t
/-- TCFG takes its tile word as an immediate. -/
def zTcfg : ZMaker :=
  bare ⟨.m, [.imm], none, 0, false, false, .i8, fun _ l =>
    if (argAt l 0).word.toNat < 2 ^ 30 then (decodeTile ((argAt l 0).word.setWidth 30)).map .tcfg else none⟩
def zAccz : ZMaker := fun t =>
  let (a, t) := sufNum "acc" t
  let (b, t) := match t with
    | [] => (a, t)
    | _ => sufNum "acc" t
  let (c, t) := match t with
    | [] => (a, t)
    | _ => sufNum "acc" t
  let (d, t) := match t with
    | [] => (a, t)
    | _ => sufNum "acc" t
  if 4 ≤ a ∨ 4 ≤ b ∨ 4 ≤ c ∨ 4 ≤ d then none
  else zPlain .m 0 (.accz (BitVec.twoPow 4 a ||| BitVec.twoPow 4 b ||| BitVec.twoPow 4 c ||| BitVec.twoPow 4 d)) t
def zAccrd : ZMaker := fun t =>
  let (ty, t) := sufOf [("i8", some AccTy.i8), ("i32", some .i32), ("f16", some .f16), ("bf16", some .bf16), ("f32", some .f32)] none t
  let (rm, t) := sufRm t
  let (clr, t) := flag "clr" t
  let (q, t) := sufNum "q" t
  let (acc, t) := sufNum "acc" t
  match ty with
  | some ty => if 16 ≤ q ∨ 4 ≤ acc then none else zPlain .m 0 (.accrd ⟨fin16Of q, fin4Of acc, ty, rm, clr⟩) t
  | none => none
def zAccrv : ZMaker := fun t =>
  let (acc, t) := sufNum "acc" t
  let (row, t) := sufNum "" t
  let (grp, t) := sufNum "" t
  if 4 ≤ acc ∨ 128 ≤ row ∨ 3 ≤ grp then none
  else bare ⟨.m, [], some .v, 0, false, true, .i8, fun d _ =>
    some (.accrv ⟨fin4Of acc, d, ⟨row % 128, Nat.mod_lt _ (by decide)⟩, ⟨grp % 3, Nat.mod_lt _ (by decide)⟩⟩)⟩ t
def zAccwr : ZMaker := fun t =>
  let (acc, t) := sufNum "acc" t
  let (q, t) := sufNum "q" t
  let (k, pop, t) := sufHead t
  if 4 ≤ acc ∨ 16 ≤ q ∨ 4 ≤ k then none else zPlain .m 0 (.accwr ⟨fin16Of q, fin4Of k, pop, fin4Of acc⟩) t
def zAccsave : ZMaker := fun t =>
  let (acc, t) := sufNum "acc" t
  if 4 ≤ acc then none else bare ⟨.m, [.s], none, 0, false, false, .i8, fun _ l => some (.accsave ⟨fin4Of acc, (argAt l 0).toSrc, 0⟩)⟩ t
def zAccrest : ZMaker := fun t =>
  let (data, t) := flag "data" t
  let (cfg, t) := flag "cfg" t
  let (acc, t) := sufNum "acc" t
  if 4 ≤ acc then none
  else bare ⟨.m, [.s], none, 0, false, false, .i8, fun _ l => some (.accrest ⟨fin4Of acc, (argAt l 0).toSrc, 0, data, cfg⟩)⟩ t

/-- A Q syllable that names a queue. -/
def zQueue (kinds : List ZKind) (f : Fin 16 → List ZArg → Instr) : ZMaker := fun t =>
  let (q, t) := sufNum "q" t
  if 16 ≤ q then none else bare ⟨.q, kinds, none, 0, false, false, .i8, fun _ l => some (f (fin16Of q) l)⟩ t
/-- One that names none. -/
def zQ (kinds : List ZKind) (f : List ZArg → Instr) : ZMaker := bare ⟨.q, kinds, none, 0, false, false, .i8, fun _ l => some (f l)⟩
/-- QCFG takes its configuration word as an immediate after its base addend. -/
def zQcfg : ZMaker := fun t =>
  let (q, t) := sufNum "q" t
  if 16 ≤ q then none
  else bare ⟨.q, [.s, .imm], none, 0, false, false, .i8, fun _ l =>
    let w := (argAt l 1).word
    if w.toNat < 2 ^ 31 ∧ w.extractLsb' 14 4 = 0 then
      some (.qcfg ⟨fin16Of q, (argAt l 0).toSrc, w.getLsbD 30, w.extractLsb' 26 4, w.extractLsb' 18 8, w.extractLsb' 0 14⟩)
    else none⟩ t
def zQpop : ZMaker := fun t =>
  let (q, t) := sufNum "q" t
  if 16 ≤ q then none
  else bare ⟨.q, [.imm], none, 0, false, false, .i8, fun _ l =>
    let n := (argAt l 0).word.toNat
    if 1 ≤ n ∧ n ≤ 256 then some (.qpop (fin16Of q) (BitVec.ofNat 8 (n - 1))) else none⟩ t
def zQrd : ZMaker := fun t =>
  let (q, t) := sufNum "q" t
  let (k, pop, t) := sufHead t
  let (row, t) := sufNum "" t
  if 16 ≤ q ∨ 16 ≤ k ∨ 256 ≤ row then none
  else bare ⟨.q, [.s], some .v, 8, false, false, .i8, fun d l =>
    some (.qrd ⟨fin16Of q, d, fin16Of k, pop, (argAt l 0).toSrc, BitVec.ofNat 8 row⟩)⟩ t
def zQwr : ZMaker := fun t =>
  let (o, t) := flag "o" t
  let (c, t) := flag "c" t
  let (q, t) := sufNum "q" t
  let (row, t) := sufNum "" t
  let (tag, t) := sufNum "" t
  if 16 ≤ q ∨ 256 ≤ row ∨ 64 ≤ tag then none
  else bare ⟨.q, [.s, .v], none, 0, false, false, .i8, fun _ l =>
    some (.qwr ⟨fin16Of q, (argAt l 0).toSrc, (argAt l 1).toSrc, o, c, BitVec.ofNat 6 tag, BitVec.ofNat 8 row⟩)⟩ t
def zCpst : ZMaker := fun t =>
  let (q, t) := sufNum "q" t
  let (k, pop, t) := sufHead t
  if 16 ≤ q ∨ 16 ≤ k then none
  else bare ⟨.q, [.s, .s], none, 0, false, false, .i8, fun _ l =>
    some (.cpst ⟨fin16Of q, (argAt l 0).toSrc, (argAt l 1).toSrc, fin16Of k, pop⟩)⟩ t
def zCpll : ZMaker := fun t =>
  let (q, t) := sufNum "q" t
  let (tag, t) := sufNum "" t
  if 16 ≤ q ∨ 64 ≤ tag then none
  else bare ⟨.q, [.s, .s], none, 0, false, false, .i8, fun _ l =>
    some (.cpll ⟨fin16Of q, (argAt l 0).toSrc, (argAt l 1).toSrc, BitVec.ofNat 6 tag⟩)⟩ t
def zCpmem : ZMaker := fun t =>
  let (ld, t) := flag "ld" t
  let (ls, t) := flag "ls" t
  zQ [.s, .s, .s] (fun l => .cpmem ⟨(argAt l 0).toSrc, (argAt l 1).toSrc, (argAt l 2).toSrc, ld, ls⟩) t
def zTlook : ZMaker := bare ⟨.q, [.s], some .s, 1, false, false, .i8, fun d l => some (.tlook d (argAt l 0).toSrc)⟩
def zTinv : ZMaker := fun t =>
  let (i, t) := flag "i" t
  zQ [.s] (fun l => .tinv (argAt l 0).toSrc i) t
/-- The direction of a stream, and its number. -/
def sufStream (t : List Text) : Option Bool × Nat × List Text :=
  let (w, t) := sufOf [("e", some false), ("w", some true)] none t
  let (n, t) := sufNum "" t
  (w, n, t)
def zSdrv : ZMaker := fun t => match sufStream t with
  | (some w, n, t) => if 8 ≤ n then none else zQ [.v] (fun l => .sdrv w (fin8Of n) (argAt l 0).toSrc) t
  | _ => none
def zStap : ZMaker := fun t => match sufStream t with
  | (some w, n, t) => if 8 ≤ n then none else bare ⟨.q, [], some .v, 0, false, true, .i8, fun d _ => some (.stap w (fin8Of n) d)⟩ t
  | _ => none
def zStapq : ZMaker := fun t => match sufStream t with
  | (some w, n, t) =>
    let (q, t) := sufNum "q" t
    let (tag, t) := sufNum "" t
    if 8 ≤ n ∨ 16 ≤ q ∨ 64 ≤ tag then none else zPlain .q 0 (.stapq w (fin8Of n) (fin16Of q) (BitVec.ofNat 6 tag)) t
  | _ => none
def zDpatch : ZMaker := fun t =>
  let (n, t) := sufNum "" t
  if n < 1 ∨ 2048 < n then none else zQ [.s] (fun l => .dpatch ⟨(argAt l 0).toSrc, BitVec.ofNat 11 (n - 1), 0⟩) t
def zDomains (f : BitVec 4 → Src → Instr) : ZMaker := fun t =>
  let (m, t) := sufNum "" t
  if m < 1 ∨ 16 ≤ m then none else zQ [.s] (fun l => f (BitVec.ofNat 4 m) (argAt l 0).toSrc) t
def sufField : List Text → Option CellField × List Text :=
  sufOf [("y", some .y), ("res", some .res), ("cnt", some .cnt), ("par", some .par)] none
def zDset : ZMaker := fun t => match sufField t with
  | (some f, t) =>
    let (c, t) := sufNum "" t
    if 512 ≤ c then none else zQ [.s, .s] (fun l => .dset ⟨f, (argAt l 0).toSrc, BitVec.ofNat 9 c, (argAt l 1).toSrc⟩) t
  | _ => none
def zDread : ZMaker := fun t => match sufField t with
  | (some f, t) =>
    let (c, t) := sufNum "" t
    if 512 ≤ c then none else zQ [.s] (fun l => .dread ⟨f, (argAt l 0).toSrc, BitVec.ofNat 9 c, 0⟩) t
  | _ => none
def zDcnt : ZMaker := fun t =>
  let (clr, t) := flag "clr" t
  let (q, t) := sufNum "q" t
  let (c, t) := sufNum "" t
  let (rows, t) := sufNum "" t
  if 16 ≤ q ∨ 512 ≤ c ∨ rows < 1 ∨ 8 < rows then none
  else zPlain .q 0 (.dcnt ⟨fin16Of q, clr, BitVec.ofNat 9 c, fin8Of (rows - 1)⟩) t
def zDsave : ZMaker := fun t =>
  let (rel, t) := flag "rel" t
  zQ [.s] (fun l => .dsave (argAt l 0).toSrc 0 rel) t

/-! ### The tables of the units (R26) -/

def aluTable : List (String × ZMaker) :=
  [("add", zSr3 1 .add), ("sub", zSr3 1 .sub), ("and", zSr3 1 .and), ("or", zSr3 1 .or), ("xor", zSr3 1 .xor), ("andn", zSr3 1 .andn),
   ("shl", zSr3 1 .shl), ("shr", zSr3 1 .shr), ("sra", zSr3 1 .sra), ("rol", zSr3 1 .rol), ("min", zSr3 1 .min), ("max", zSr3 1 .max),
   ("minn", zSr3 1 .minn), ("maxn", zSr3 1 .maxn), ("seq", zSr3 1 .seq), ("sne", zSr3 1 .sne), ("slt", zSr3 1 .slt),
   ("sltn", zSr3 1 .sltn), ("sle", zSr3 1 .sle), ("slen", zSr3 1 .slen), ("clz", zSr2 1 .clz), ("ctz", zSr2 1 .ctz),
   ("popc", zSr2 1 .popc), ("bfx", zSr3 1 .bfx), ("bfxn", zSr3 1 .bfxn), ("bfi", zSr3Tied .bfi)]
  ++ [("addi", zImm .addi), ("andi", zImm .andi), ("ori", zImm .ori), ("xori", zImm .xori), ("shli", zSh .shli), ("shri", zSh .shri),
   ("srai", zSh .srai), ("slti", zImm .slti), ("sltni", zImm .sltni), ("li", zLi), ("lim", zChunk .lim), ("lit", zChunk .lit),
   ("enter", zEnter), ("leave", zPlain .s0 6 .leave)]
/-- The register form that an immediate form computes when its trigger value is no immediate of its field. -/
def registerForm : List (String × String) :=
  [("addi", "add"), ("andi", "and"), ("ori", "or"), ("xori", "xor"), ("shli", "shl"), ("shri", "shr"), ("srai", "sra"), ("slti", "slt"),
   ("sltni", "sltn")]
def mulTable : List (String × ZMaker) := [("mul", zSr3 3 .mul), ("mulh", zSr3 3 .mulh), ("mulhn", zSr3 3 .mulhn)]
def fpuTable : List (String × ZMaker) :=
  [("fadd", zSf3 .fadd), ("fsub", zSf3 .fsub), ("fmul", zSf3 .fmul), ("fma", zFma), ("fmin", zSr3 4 .fmin), ("fmax", zSr3 4 .fmax),
   ("fabs", zSr2 4 .fabs), ("fneg", zSr2 4 .fneg), ("feq", zSr3 4 .feq), ("flt", zSr3 4 .flt), ("fle", zSr3 4 .fle),
   ("fcvti", zSf2 .fcvti), ("icvtf", zSf2 .icvtf)]
def lsuTable : List (String × ZMaker) :=
  [("ld", zLoad), ("st", zStore), ("ldg", zLdg), ("stg", zStg), ("vld", zVld), ("vst", zVst), ("vlds", zTwo .v .s .s .v 8 .vlds),
   ("vgath", zTwo .v .s .v .v 8 .vgath), ("vscat", zVscat), ("vldg", zVldg), ("vstg", zVstg)]
def vecTable : List (String × ZMaker) :=
  [("vadd", zInt .vadd), ("vsub", zInt .vsub), ("vmul", zInt .vmul), ("vmad", zMad), ("vmulh", zBin 2 .vmulh), ("vmin", zBin 2 .vmin),
   ("vmax", zBin 2 .vmax), ("vabs", zUnSat .vabs), ("vneg", zUnSat .vneg), ("vand", zBin 2 .vand), ("vor", zBin 2 .vor),
   ("vxor", zBin 2 .vxor), ("vshl", zBin 2 .vshl), ("vshr", zBin 2 .vshr), ("vsra", zBin 2 .vsra), ("vfadd", zFlt .vfadd),
   ("vfsub", zFlt .vfsub), ("vfmul", zFlt .vfmul), ("vfma", zVfma), ("vfmin", zBin 4 .vfmin), ("vfmax", zBin 4 .vfmax),
   ("vfabs", zUn .v .v .v 4 .vfabs), ("vfneg", zUn .v .v .v 4 .vfneg)]
  ++ [("vcmp", zCmp .vcmp), ("vfcmp", zCmp .vfcmp), ("vsel", zSel), ("vbcst", zUn .v .s .v 2 .vbcst), ("vins", zTwo .v .s .s .v 2 .vins),
   ("vext", zTwo .v .v .s .s 2 .vext), ("vmov", zUn .v .v .v 2 .vmov), ("vrsum", zVrsum), ("vrmax", zUn .v .v .s 6 .vrmax),
   ("vrmin", zUn .v .v .s 6 .vrmin), ("vrmrs", zVrmrs), ("vcpush", zVcpush), ("vcpop", zVcpop), ("pand", zPbin .pand),
   ("por", zPbin .por), ("pxor", zPbin .pxor), ("pandn", zPbin .pandn), ("pnot", zPun .pnot), ("pmov", zPun .pmov),
   ("pcnt", zUn .v .p .s 2 .pcnt), ("pfirst", zPelt .p .pfirst), ("psetn", zPelt .s .psetn), ("ppack", zPpack), ("punpk", zPunpk)]
def sfuTable : List (String × ZMaker) :=
  [("exp2", zUn .x .v .v 12 .exp2), ("log2", zUn .x .v .v 12 .log2), ("rcp", zUn .x .v .v 12 .rcp), ("rsqrt", zUn .x .v .v 12 .rsqrt),
   ("sqrt", zSqrt), ("div", zXdiv), ("tanh", zUn .x .v .v 12 .tanh), ("sigm", zUn .x .v .v 12 .sigm), ("divs", zIdiv .divs),
   ("rems", zIdiv .rems), ("divn", zIdiv .divn), ("remn", zIdiv .remn), ("maxexp", zMaxexp), ("cvtq", zCvtq), ("cvt", zCvt true .cvt),
   ("cvtw", zCvt false .cvtw), ("cvtn", zCvt false .cvtn), ("cbld", zCbld), ("cbdec", zCbdec), ("shuf", zShuf), ("patld", zPatld),
   ("patsw", zPlain .x 0 .patsw), ("vidx", zTwo .x .s .s .v 3 .vidx)]
def matTable : List (String × ZMaker) :=
  [("tcfg", zTcfg), ("mma", zMma), ("pmma", zPmma), ("accz", zAccz), ("accrd", zAccrd), ("accrv", zAccrv), ("accwr", zAccwr),
   ("accsave", zAccsave), ("accrest", zAccrest), ("lease", zPlain .m 0 .lease), ("unlease", zPlain .m 0 .unlease)]
def queTable : List (String × ZMaker) :=
  let mem := fun (f : QMemOp → Instr) => zQueue [.s] fun q l => f ⟨q, (argAt l 0).toSrc, 0⟩
  [("qcfg", zQcfg), ("qpop", zQpop), ("qrd", zQrd), ("qwr", zQwr), ("qspl", zQueue [.s] fun q l => .qspl q (argAt l 0).toSrc),
   ("quns", zQueue [] fun q _ => .quns q), ("qsave", mem .qsave), ("qrest", mem .qrest), ("qstat", mem .qstat),
   ("cpld", zQueue [.s, .s] fun q l => .cpld ⟨q, (argAt l 0).toSrc, (argAt l 1).toSrc⟩), ("cpst", zCpst), ("cpll", zCpll),
   ("cpga", zQueue [.s, .s, .s] fun q l => .cpga ⟨q, (argAt l 0).toSrc, (argAt l 1).toSrc, (argAt l 2).toSrc⟩), ("cpmem", zCpmem),
   ("tlook", zTlook), ("tins", zQ [.s, .s] fun l => .tins (argAt l 0).toSrc (argAt l 1).toSrc), ("tinv", zTinv), ("sdrv", zSdrv),
   ("stap", zStap), ("stapq", zStapq)]
  ++ [("dpatch", zDpatch), ("dclk", zDomains .dclk), ("dset", zDset), ("dinj", zQ [.v] fun l => .dinj (argAt l 0).toSrc),
   ("dstep", zDomains .dstep), ("dread", zDread), ("dcnt", zDcnt), ("dsave", zDsave), ("dload", zQ [.s] fun l => .dload (argAt l 0).toSrc 0),
   ("coll", zQ [.s, .s] fun l => .coll (argAt l 0).toSrc (argAt l 1).toSrc),
   ("cqry", zQ [.s, .s] fun l => .cqry (argAt l 0).toSrc 0 (argAt l 1).toSrc)]

def ZUnit.table : ZUnit → List (String × ZMaker)
  | .alu => aluTable | .mul => mulTable | .fpu => fpuTable | .lsu => lsuTable | .vec => vecTable | .sfu => sfuTable
  | .mat => matTable | .que => queTable

/-- Whether the suffixes give an instruction that is well formed, whatever its registers. -/
def ZOper.legal (o : ZOper) : Bool :=
  let arg := fun (k : ZKind) => match k with
    | .s | .sReg => ZArg.src .s (.reg 1)
    | .v | .vReg | .vs => .src .v (.reg 1)
    | .p | .pReg => .src .p (.reg 1)
    | .imm => .imm 256
  (o.build 1 (o.kinds.map arg)).all Instr.wf

/-- The native operation that a port's name gives: mnemonic, then suffixes (R26). -/
def ZUnit.oper (u : ZUnit) (name : Text) : Option ZOper :=
  match splitText (· == 46) name with
  | base :: suffixes => match u.table.find? fun x => decide (ascii x.1 = base) with
    | some x => (x.2 suffixes).filter ZOper.legal
    | none => none
  | [] => none

/-! ### Triggers -/

/-- What a trigger port starts: a native operation, a virtual operation (R28), or a change of control. -/
inductive ZTrigger where
  | oper (name : Text) (o : ZOper)
  | div (rem : Bool)
  | fdiv | dot | const
  | bcz (cc : CondZ) | bc (cc : CondB) | bp (t : PTest)
  | jmp | call | jr | jrl | ret
  | loop (n : Fin 2) | loopi (n : Fin 2)

def condZs : List (String × Option CondZ) :=
  [("eq", some .eq), ("ne", some .ne), ("lt", some .lt), ("ge", some .ge), ("le", some .le), ("gt", some .gt)]
def condBs : List (String × Option CondB) :=
  [("eq", some .eq), ("ne", some .ne), ("lt", some .lt), ("ge", some .ge), ("ltn", some .ltn), ("gen", some .gen)]
def pTests : List (String × Option PTest) :=
  [("any", some .any), ("none", some .none), ("all", some .all), ("nall", some .nall), ("first", some .first), ("nfirst", some .nfirst)]

/-- Control triggers of the ALU, and the virtual operations. A branch without a condition takes its first one (`.eq`, `.any`), a loop
without a level level 0. -/
def ZUnit.special (u : ZUnit) (name : Text) : Option ZTrigger :=
  match u, splitText (· == 46) name with
  | .alu, base :: l =>
    let is_ := fun (s : String) => decide (base = ascii s)
    let ends {α : Type} (x : Option α × List Text) : Option α := if x.2.isEmpty then x.1 else none
    let level := sufOf [("0", some (0 : Fin 2)), ("1", some 1)] (if l.isEmpty then some 0 else none) l
    if is_ "bcz" then (ends (sufOf condZs (if l.isEmpty then some .eq else none) l)).map .bcz
    else if is_ "bc" then (ends (sufOf condBs (if l.isEmpty then some .eq else none) l)).map .bc
    else if is_ "bp" then (ends (sufOf pTests (if l.isEmpty then some .any else none) l)).map .bp
    else if is_ "loop" then (ends level).map .loop
    else if is_ "loopi" then (ends level).map .loopi
    else if !l.isEmpty then none
    else if is_ "div" then some (.div false) else if is_ "rem" then some (.div true) else if is_ "const" then some .const
    else if is_ "jmp" then some .jmp else if is_ "call" || is_ "brl" then some .call else if is_ "jr" then some .jr
    else if is_ "jrl" then some .jrl else if is_ "ret" then some .ret else none
  | .fpu, [base] => if base = ascii "div" then some .fdiv else none
  | .vec, [a, b] => if a = ascii "dot" ∧ b = ascii "f16" then some .dot else none
  | _, _ => none

/-- What a port's name is to its unit: an operand port, the result port, or a trigger. -/
inductive ZPort where
  | o | p | res
  | trigger (t : ZTrigger)

def ZUnit.port (u : ZUnit) (name : Text) : Option ZPort :=
  if name = ascii "o" then some .o
  else if name = ascii "p" then some .p
  else if name = ascii "res" then some .res
  else match u.special name with
    | some t => some (.trigger t)
    | none => (u.oper name).map fun o => .trigger (.oper name o)

end Sys2Proof.Machine
end

