-- ==== Sys2Proof/Machine/Ztc.lean ====
section
/-! DEFINITION. Zhosen transport code: the reading of its text, and the refusals of it that the spec states (R24 to R27). What the spec
leaves open of the text is in log entry 12. -/
namespace Sys2Proof.Machine

def isBlank (b : Byte) : Bool := b == 32 || b == 9 || b == 13

/-- The words of a line. -/
def textWords (l : Text) : List Text := (splitText isBlank l).filter fun x => !x.isEmpty

/-- A line without its comment, which begins with `;` or `//` (R25). -/
def uncomment : Text → Text
  | [] => []
  | b :: rest => if b == 59 || (b == 47 && rest.head? == some 47) then [] else b :: uncomment rest

/-- The two sides of a move, which is written `source -> destination` (R25). -/
def splitMove : Text → Option (Text × Text)
  | [] => none
  | b :: rest =>
    if b == 45 && rest.head? == some 62 then some ([], rest.drop 1)
    else (splitMove rest).map fun x => (b :: x.1, x.2)

def hexDigit (b : Byte) : Option Nat :=
  let n := b.toNat
  if 48 ≤ n ∧ n ≤ 57 then some (n - 48)
  else if 97 ≤ n ∧ n ≤ 102 then some (n - 87)
  else if 65 ≤ n ∧ n ≤ 70 then some (n - 55)
  else none

def hexNumber (l : Text) : Option Nat :=
  if l.isEmpty then none
  else l.foldl (fun n b => match n, hexDigit b with
    | some n, some d => some (16 * n + d)
    | _, _ => none) (some 0)

/-- An immediate: a decimal or a 0x number of 64 bits (R25). -/
def zNumber (l : Text) : Option Word :=
  let n := match l with
    | 48#8 :: 120#8 :: r => hexNumber r
    | _ => decimal l
  match n with
  | some n => if n < 2 ^ 64 then some (BitVec.ofNat 64 n) else none
  | none => none

/-! ### Operands, lines and functions -/

/-- An operand of a move (R25). -/
inductive ZOperand where
  | vreg (n : Nat)
  | imm (n : Word)
  | port (u : ZUnit) (p : ZPort)

/-- A port; one whose unit or name is unknown is load error 7. -/
def zPort (l : Text) : Except Nat ZOperand :=
  let unit := l.takeWhile (· != 46)
  let name := l.drop (unit.length + 1)
  if unit.isEmpty || name.isEmpty then .error 6
  else match zUnit unit with
    | none => .error 7
    | some u => match u.port name with
      | none => .error 7
      | some p => .ok (.port u p)

def zVreg (l : Text) : Option Nat :=
  match l with
  | 119#8 :: n => (decimal n).filter fun k => decide (k < 2 ^ 20)
  | _ => none

def zOperand (l : Text) : Except Nat ZOperand :=
  match l with
  | 35#8 :: n => match zNumber n with
    | some w => .ok (.imm w)
    | none => .error 6
  | _ => match zVreg l with
    | some k => .ok (.vreg k)
    | none => if l.head? = some 119 && (decimal (l.drop 1)).isSome then .error 6 else zPort l

/-- What stands in a function: a label, or a move with the label or function that its trigger names. -/
inductive ZItem where
  | label (l : Text)
  | move (src dst : ZOperand) (lbl : Option Text)

/-- A function as it is read (R25). -/
structure ZFunc where
  name : Text
  args : List Nat
  ret : Option Nat
  classes : List (Nat × RegCls)
  items : List ZItem

/-- A virtual register is scalar unless it is declared otherwise. -/
def ZFunc.cls (f : ZFunc) (w : Nat) : RegCls := ((f.classes.find? fun x => decide (x.1 = w)).map (·.2)).getD .s

/-- Where the reading of a text stands: the functions read, the open one, and the units it has triggered so far. -/
structure ZRead where
  done : List ZFunc
  cur : Option ZFunc
  triggered : List ZUnit

/-- Whether a trigger names a label or a function in its destination suffix (R27). -/
def ZTrigger.named : ZTrigger → Bool
  | .bcz _ | .bc _ | .bp _ | .jmp | .call | .loop _ | .loopi _ => true
  | _ => false

/-- Whether a move's suffix is as its destination asks. -/
def ZOperand.takes (d : ZOperand) (lbl : Option Text) : Bool :=
  match d with
  | .port _ (.trigger t) => t.named == lbl.isSome
  | _ => lbl.isNone

/-- A move: its source, then its destination with the label or function a branch or a call names (R27). Nothing can be moved out of an
operand port or a trigger, or into an immediate or a result port. -/
def ZRead.move (z : ZRead) (f : ZFunc) (src dst : Text) : Except Nat ZRead :=
  match textWords src, textWords dst with
  | [a], d :: rest =>
    match zOperand a, zOperand d with
    | .error 6, _ => .error 6
    | _, .error 6 => .error 6
    | .error n, _ => .error n
    | _, .error n => .error n
    | .ok x, .ok y =>
      let put := fun (z : ZRead) => { z with cur := some { f with items := f.items ++ [.move x y rest.head?] } }
      let into : Except Nat ZRead := match y with
        | .imm _ => .error 6
        | .port _ .res => .error 6
        | .port u (.trigger _) => .ok { put z with triggered := u :: z.triggered }
        | _ => .ok (put z)
      if 1 < rest.length || !y.takes rest.head? then .error 6
      else match x with
        | .port u .res => if z.triggered.contains u then into else .error 8
        | .port .. => .error 6
        | _ => into
  | _, _ => .error 6

/-- The virtual registers of a directive, between commas or blanks. -/
def zVregs (operands : Text) : Option (List Nat) :=
  (textWords (operands.map fun b => if b == 44 then 32 else b)).foldr (fun w l => match zVreg w, l with
    | some k, some l => some (k :: l)
    | _, _ => none) (some [])

/-- A directive (R25). One that ends in `reg` names an unknown class of virtual registers; any other is a syntax error. -/
def ZRead.directive (z : ZRead) (name operands : Text) : Except Nat ZRead :=
  if name = ascii ".zfunc" then match z.cur, textWords operands with
    | none, [n] => .ok ⟨z.done, some ⟨n, [], none, [], []⟩, []⟩
    | _, _ => .error 6
  else match z.cur with
    | none => .error 6
    | some f =>
      if name = ascii ".zend" then (if (textWords operands).isEmpty then .ok ⟨z.done ++ [f], none, []⟩ else .error 6)
      else match zVregs operands with
        | none => .error 6
        | some l =>
          let set := fun (f : ZFunc) => Except.ok (ε := Nat) { z with cur := some f }
          if name = ascii ".arg" then set { f with args := f.args ++ l }
          else if name = ascii ".ret" then match f.ret, l with
            | none, [w] => set { f with ret := some w }
            | _, _ => .error 6
          else if name = ascii ".vreg" then set { f with classes := f.classes ++ l.map (·, .v) }
          else if name = ascii ".preg" then set { f with classes := f.classes ++ l.map (·, .p) }
          else if name.drop (name.length - 3) = ascii "reg" then .error 7
          else .error 6

def ZRead.line (z : ZRead) (line : Text) : Except Nat ZRead :=
  let l := uncomment line
  match textWords l with
  | [] => .ok z
  | w :: rest =>
    if w.head? = some 46 then z.directive w ((l.dropWhile isBlank).drop w.length)
    else match z.cur with
      | none => .error 6
      | some f => match splitMove l with
        | some (src, dst) => z.move f src dst
        | none => if w.getLast? = some 58 && 1 < w.length && rest.isEmpty then
            .ok { z with cur := some { f with items := f.items ++ [.label w.dropLast] } }
          else .error 6

def zLines (z : ZRead) : List Text → Except Nat (List ZFunc)
  | [] => if z.cur.isSome then .error 6 else .ok z.done
  | l :: rest => match z.line l with
    | .error n => .error n
    | .ok z => zLines z rest

/-- The functions of a ZTC text, or the load error of its first line at fault (R24: 6 for syntax, 7 for an unknown unit, port or virtual
register class, 8 for a result port read before any trigger of its unit). -/
def zParse (text : Text) : Except Nat (List ZFunc) := zLines ⟨[], none, []⟩ (splitText (· == 10) text)

end Sys2Proof.Machine
end

