-- ==== Sys2Proof/Machine/ZtcMoves.lean ====
section
/-! DEFINITION. How a function of Zhosen transport code runs (R27): which value stands in each port and virtual register at each move,
which values an operation takes, and where its result stands. The moves of a function become blocks of operations over values; what the
spec leaves open here is in log entry 12. -/
namespace Sys2Proof.Machine

/-- What holds a value between moves: a virtual register, or a port of a unit. -/
inductive ZVar where
  | w (n : Nat)
  | o (u : ZUnit)
  | p (u : ZUnit)
  | res (u : ZUnit)
deriving DecidableEq, Repr

/-- A value of a block: an immediate, what a variable holds when the block begins, or the result of the block's `k`-th operation. -/
inductive ZVal where
  | const (n : Word)
  | entry (x : ZVar) (c : RegCls)
  | res (k : Nat) (c : RegCls)
deriving DecidableEq, Repr

def ZVal.cls : ZVal → RegCls
  | .const _ => .s
  | .entry _ c => c
  | .res _ c => c
def ZVal.isConst : ZVal → Bool
  | .const _ => true
  | _ => false

/-- A source of an operation; `latch` says that it was moved straight from the result port of the operation that made it (R30). -/
structure ZSource where
  val : ZVal
  latch : Bool
deriving DecidableEq, Repr

/-- What an operation of a block is: a native one, a virtual one (R28), or a call, with the classes of the arguments it passes. -/
inductive ZAct where
  | oper (o : ZOper)
  | const (n : Word)
  | div (rem : Bool)
  | fdiv
  | dot
  | call (f : Text) (args : List RegCls)
  | jrl

/-- An operation with its sources, its result's class, and the virtual register that its result is first moved to. -/
structure ZStep where
  act : ZAct
  srcs : List ZSource
  dst : Option RegCls
  name : Option Nat

/-- How a block ends. -/
inductive ZEnd where
  | next
  | bcz (cc : CondZ) (lbl : Text)
  | bc (cc : CondB) (lbl : Text)
  | bp (t : PTest) (lbl : Text)
  | jmp (lbl : Text)
  | jr
  | ret
  | loop (n : Fin 2) (lbl : Text)
  | loopi (n : Fin 2) (count : Nat) (lbl : Text)

/-- A block: its labels, its operations, its end with the values that it takes, what the variables that it wrote hold at its end, and
whether hardware loops end with it. -/
structure ZBlock where
  labels : List Text
  steps : List ZStep
  end_ : ZEnd
  srcs : List ZSource
  final : List (ZVar × ZVal)
  closes : Bool

/-- The classes of a function's arguments and of its result. -/
structure ZSig where
  name : Text
  args : List RegCls
  ret : Option RegCls

def ZFunc.sig (f : ZFunc) : ZSig := ⟨f.name, f.args.map f.cls, f.ret.map f.cls⟩

/-- Where the conversion of a function stands. `held` gives the variables written in the open block, with whether a port's value came
straight from a result port; `kinds` the class of the value that stands in each port, `jumps` those classes at each jump to a label, and
`fell` whether the text goes on here from the line above. -/
structure ZConv where
  done : List ZBlock
  labels : List Text
  steps : List ZStep
  held : List (ZVar × ZSource)
  kinds : List (ZVar × RegCls)
  jumps : List (Text × List (ZVar × RegCls))
  fell : Bool
  closing : Bool

def findVar {α : Type} (l : List (ZVar × α)) (x : ZVar) : Option α := (l.find? fun y => decide (y.1 = x)).map (·.2)
def putVar {α : Type} (l : List (ZVar × α)) (x : ZVar) (a : α) : List (ZVar × α) := (x, a) :: l.filter fun y => decide (y.1 ≠ x)

/-- The value that stands in a variable. -/
def ZConv.read (z : ZConv) (f : ZFunc) (x : ZVar) : ZSource :=
  match findVar z.held x with
  | some s => s
  | none => ⟨.entry x (match x with
    | .w n => f.cls n
    | _ => (findVar z.kinds x).getD .s), false⟩

/-- A value moved into a port stands there. -/
def ZConv.stand (z : ZConv) (x : ZVar) (s : ZSource) : ZConv :=
  { z with held := putVar z.held x s, kinds := putVar z.kinds x s.val.cls }

/-- A result is named by the first virtual register it is moved to. -/
def nameStep (l : List ZStep) (v : ZVal) (w : Nat) : List ZStep :=
  match v with
  | .res k _ => l.zipIdx.map fun x => if x.2 = k ∧ x.1.name.isNone then { x.1 with name := some w } else x.1
  | _ => l

/-- The label that the end of a block can jump to. -/
def ZEnd.jumpsTo : ZEnd → Option Text
  | .bcz _ l | .bc _ l | .bp _ l | .jmp l => some l
  | .next | .jr | .ret | .loop .. | .loopi .. => none
/-- Whether the text goes on after the end of a block. -/
def ZEnd.goesOn : ZEnd → Bool
  | .jmp _ | .jr | .ret => false
  | .next | .bcz .. | .bc .. | .bp .. | .loop .. | .loopi .. => true

/-- Close the open block. -/
def ZConv.close (z : ZConv) (e : ZEnd) (srcs : List ZSource) : ZConv :=
  { z with jumps := (e.jumpsTo.map (·, z.kinds)).toList ++ z.jumps, fell := e.goesOn, done := z.done ++ [⟨z.labels, z.steps, e, srcs, z.held.map fun x => (x.1, x.2.val), z.closing⟩],
           labels := [], steps := [], held := [], closing := false }

/-- Add an operation: its result stands in the unit's result port until the unit's next trigger (R27); after one without a result the
port reads 0. -/
def ZConv.step (z : ZConv) (u : ZUnit) (act : ZAct) (srcs : List ZSource) (dst : Option RegCls) : ZConv :=
  let v := match dst with
    | some c => ZVal.res z.steps.length c
    | none => .const 0
  let z := ({ z with steps := z.steps ++ [⟨act, srcs, dst, none⟩] } : ZConv).stand (.res u) ⟨v, dst.isSome⟩
  if z.closing then z.close .next [] else z

/-- Whether a value can be the source of a kind. -/
def ZKind.accepts (k : ZKind) (v : ZVal) : Bool :=
  match k with
  | .s | .sReg => decide (v.cls = .s)
  | .v | .vReg => decide (v.cls = .v)
  | .p | .pReg => decide (v.cls = .p)
  | .vs => decide (v.cls = .v) || decide (v.cls = .s)
  | .imm => v.isConst

/-- Whether the immediates of an operation fit its fields. -/
def ZOper.fits (o : ZOper) (l : List ZSource) : Bool :=
  (o.build 1 (l.map fun s => match s.val with
    | .const n => .imm n
    | v => .src v.cls (.reg 1))).isSome

/-- The sources of an operation of `n` sources: those standing in `o` and `p`, then the trigger value (R27). -/
def ZConv.sources (z : ZConv) (f : ZFunc) (u : ZUnit) (n : Nat) (t : ZSource) : List ZSource :=
  match n with
  | 0 => []
  | 1 => [t]
  | 2 => [z.read f (.o u), t]
  | _ => [z.read f (.o u), z.read f (.p u), t]

/-- A native operation. An immediate form whose trigger value is no immediate of its field computes as its register form. -/
def ZConv.native (z : ZConv) (f : ZFunc) (u : ZUnit) (name : Text) (o : ZOper) (t : ZSource) : Except Nat ZConv :=
  let l := z.sources f u o.kinds.length t
  let good := fun (o : ZOper) => (o.kinds.zip l).all fun x => x.1.accepts x.2.val
  if good o && o.fits l then .ok (z.step u (.oper o) l o.dst)
  else match (registerForm.find? fun x => decide (ascii x.1 = name)).bind fun x => u.oper (ascii x.2) with
    | some r => if good r then .ok (z.step u (.oper r) l r.dst) else .error 7
    | none => if good o then .error 6
      else if (o.kinds.zip l).any (fun x => decide (x.1 = .imm) && !x.2.val.isConst) then .error 6 else .error 7

/-- What a trigger does. A branch, a call and a loop name a label or a function. -/
def ZConv.trigger (z : ZConv) (f : ZFunc) (sigs : List ZSig) (u : ZUnit) (t : ZTrigger) (x : ZSource) (lbl : Text) : Except Nat ZConv :=
  let scalars := fun (l : List ZSource) => l.all fun s => decide (s.val.cls = .s)
  let l := z.sources f u 2 x
  match t with
  | .oper name o => z.native f u name o x
  | .div rem => if scalars l then .ok (z.step u (.div rem) l (some .s)) else .error 7
  | .fdiv => if scalars l then .ok (z.step u .fdiv l (some .s)) else .error 7
  | .dot => if l.all fun s => decide (s.val.cls = .v) then .ok (z.step u .dot l (some .s)) else .error 7
  | .const => match x.val with
    | .const n => .ok (z.step u (.const n) [] (some .s))
    | _ => .error 6
  | .bcz cc => if scalars [x] then .ok (z.close (.bcz cc lbl) [x]) else .error 7
  | .bc cc => if scalars l then .ok (z.close (.bc cc lbl) l) else .error 7
  | .bp t => if x.val.cls = .p then .ok (z.close (.bp t lbl) [x]) else .error 7
  | .jmp => .ok (z.close (.jmp lbl) [])
  | .jr => if scalars [x] then .ok (z.close .jr [x]) else .error 7
  | .jrl => if scalars [x] then .ok (z.step u .jrl [x] (some .s)) else .error 7
  | .ret => .ok (z.close .ret (match f.ret with
      | some w => [z.read f (.w w)]
      | none => []))
  | .loop n => if scalars [x] then .ok (z.close (.loop n lbl) [x]) else .error 7
  | .loopi n => match x.val with
    | .const c => if c.toNat < 1024 then .ok (z.close (.loopi n c.toNat lbl) []) else .ok (z.close (.loop n lbl) [x])
    | v => if v.cls = .s then .ok (z.close (.loop n lbl) [x]) else .error 7
  | .call => match sigs.find? fun g => decide (g.name = lbl) with
    | none => .error 6
    | some g =>
      let l := z.sources f u (min 3 g.args.length) x
      if l.map (·.val.cls) = g.args.take 3 then
        .ok (z.step u (.call lbl (g.args.take 3)) l (g.ret.filter fun c => decide (c ≠ .p)))
      else .error 7

/-- One line of a function (R25, R27). -/
def ZConv.item (z : ZConv) (f : ZFunc) (sigs : List ZSig) (loopEnds : List Text) : ZItem → Except Nat ZConv
  | .label l =>
    let kinds := if z.fell then z.kinds else ((z.jumps.find? fun x => decide (x.1 = l)).map (·.2)).getD z.kinds
    .ok { z.close .next [] with kinds, labels := [l], closing := loopEnds.contains l }
  | .move src dst lbl =>
    let s := match src with
      | .vreg n => ⟨(z.read f (.w n)).val, false⟩
      | .imm n => ⟨.const n, false⟩
      | .port u _ => z.read f (.res u)
    match dst with
    | .vreg n =>
      if s.val.cls = f.cls n then .ok { z with held := putVar z.held (.w n) ⟨s.val, false⟩, steps := nameStep z.steps s.val n } else .error 7
    | .port u .o => .ok (z.stand (.o u) s)
    | .port u .p => .ok (z.stand (.p u) s)
    | .port u (.trigger t) => z.trigger f sigs u t s (lbl.getD [])
    | _ => .error 6

/-- The labels at which hardware loops of a function end. -/
def ZFunc.loopEnds (f : ZFunc) : List Text :=
  f.items.filterMap fun i => match i with
    | .move _ (.port _ (.trigger (.loop _))) lbl => lbl
    | .move _ (.port _ (.trigger (.loopi _))) lbl => lbl
    | _ => none

/-- The blocks of a function; at `.zend` it returns. -/
def ZFunc.blocks (f : ZFunc) (sigs : List ZSig) : Except Nat (List ZBlock) :=
  match f.items.foldlM (fun z i => ZConv.item z f sigs f.loopEnds i) (⟨[], [], [], [], [], [], true, false⟩ : ZConv) with
  | .error n => .error n
  | .ok z => .ok (z.close .ret (match f.ret with
    | some w => [z.read f (.w w)]
    | none => [])).done

/-! ### Uses of values -/

/-- The values that an operation of a block takes, then those of its end. -/
def ZBlock.uses (b : ZBlock) : List (List ZVal) := b.steps.map (fun s => s.srcs.map (·.val)) ++ [b.srcs.map (·.val)]

/-- The variables whose value at its beginning a block takes. -/
def ZBlock.entries (b : ZBlock) : List (ZVar × RegCls) :=
  (b.uses.flatten ++ b.final.map (·.2)).filterMap fun v => match v with
    | .entry x c => some (x, c)
    | _ => none

/-- The variables that hold a value from one block to another, each with the class it is read as (a port may be read as several). In the
first block an argument's value has come with the call. -/
def sharedVars (args : List Nat) (bs : List ZBlock) : List (ZVar × RegCls) :=
  let l := bs.zipIdx.flatMap fun b => b.1.entries.filter fun x => match x.1 with
    | .w n => !(decide (b.2 = 0) && args.contains n)
    | _ => true
  l.foldl (fun acc x => if acc.contains x then acc else acc ++ [x]) []

/-- The next use of a value from operation `k` on: by an operation, by the block's end, or as what a shared variable is left with. -/
def ZBlock.nextUse (b : ZBlock) (shared : List (ZVar × RegCls)) (v : ZVal) (k : Nat) : Option Nat :=
  let n := b.steps.length
  match (b.uses.zipIdx.find? fun u => decide (k ≤ u.2) && u.1.contains v).map (·.2) with
  | some j => some j
  | none => if b.final.any (fun x => decide (x.2 = v) && shared.contains (x.1, v.cls)) then some (n + 1) else none

end Sys2Proof.Machine
end

