-- ==== Sys2Proof/Machine/ZtcCode.lean ====
section
/-! DEFINITION. The native code of Zhosen transport code (R28 to R34, R398 to R400): registers, latches and spill slots, the expansions of
the virtual operations, and the context cycle of each bundle. One operation stands in a bundle, in the order of the text; where the spec
leaves the translation open the choice is in log entry 12. -/
namespace Sys2Proof.Machine

abbrev ZReg := RegCls × Nat

def fin32Of (n : Nat) : Fin 32 := ⟨n % 32, Nat.mod_lt _ (by decide)⟩
def ZReg.src (r : ZReg) : Src := .reg (fin32Of r.2)

/-- A transfer to a label or a function; its displacement is known once the text is laid out. -/
inductive ZJump where
  | bcz (cc : CondZ) (a : Src)
  | bc (cc : CondB) (a b : Src)
  | bp (p : Fin 16) (t : PTest)
  | jmp
  | brl
  | loop (n : Fin 2) (a : Src)
  | loopi (n : Fin 2) (count : Nat)
deriving DecidableEq, Repr

/-- The instruction of a transfer by `d` parcels, if its field can hold it. -/
def ZJump.instr (j : ZJump) (d : Int) : Option Instr :=
  let fits := fun (w : Nat) => immFits w (BitVec.ofInt 64 d)
  match j with
  | .bcz cc a => if fits 16 then some (.bcz cc a (BitVec.ofInt 16 d)) else none
  | .bc cc a b => if fits 11 then some (.bc cc a b (BitVec.ofInt 11 d)) else none
  | .bp p t => if fits 16 then some (.bp p t (BitVec.ofInt 16 d)) else none
  | .jmp => if fits 21 then some (.jmp (BitVec.ofInt 21 d)) else none
  | .brl => if fits 21 then some (.brl 31 (BitVec.ofInt 21 d)) else none
  | .loop n a => if fits 11 ∧ 3 ≤ d then some (.loop n a (BitVec.ofInt 11 d)) else none
  | .loopi n c => if fits 14 ∧ 3 ≤ d then some (.loopi n (BitVec.ofNat 10 c) (BitVec.ofInt 14 d)) else none

/-- A bundle with the context cycle it issues at, counted from the first of its block. -/
structure ZBundle where
  cycle : Nat
  ops : List (Slot × Instr)
  jump : Option (ZJump × Text)
  stop : Bool
deriving DecidableEq, Repr

/-- What a slot of the frame holds: a value of a block, a virtual register's value within a block, a variable between blocks, an argument, or a reserved register of the caller. -/
inductive ZKey where
  | val (block : Nat) (v : ZVal)
  | reg (n : Nat)
  | var (x : ZVar) (c : RegCls)
  | arg (n : Nat)
  | kept (n : Nat)
deriving DecidableEq, Repr

/-- What holds for a whole function: the registers it allocates, the registers that hold variables between blocks, the reserved registers
(R399), the expansion area (R28), PRIV, and whether the frame is opened at the function's beginning. -/
structure ZPlan where
  s : List Nat
  v : List Nat
  p : List Nat
  homes : List (ZVar × ZReg)
  t1 : Nat
  t2 : Nat
  area : Nat
  priv : Nat
  early : Bool
  kept : List Nat

/-- The register that a variable holds from one block to another as a value of a class. -/
def ZPlan.home (z : ZPlan) (x : ZVar) (c : RegCls) : Option ZReg :=
  (z.homes.find? fun h => decide (h.1 = x) && decide (h.2.1 = c)).map (·.2)

def ZPlan.pool (z : ZPlan) : RegCls → List Nat
  | .s => z.s
  | .v => z.v
  | .p => z.p

/-- Where the generation of a function's code stands. `ready` gives the cycle from which a register shows its last write, `holds` what
registers hold, `saved` the slots that hold values, `made` the slot of an operation that made a value, its cycle and its latency, `slots`
where each slot lies, counted from fp, and `low` how far below fp they reach. -/
structure ZGen where
  next : Nat
  out : List ZBundle
  ready : List (ZReg × Nat)
  holds : List (ZReg × ZVal)
  saved : List (ZVal × ZKey)
  made : List (ZVal × Slot × Nat × Nat)
  slots : List (ZKey × Int)
  low : Nat
  framed : Bool
  area : Bool

/-! ### Issue -/

/-- The registers that an instruction reads (R126). -/
def readRegs (u : Uses) : List ZReg :=
  (u.srcs.filterMap fun x => match x.2 with
    | .reg n => some (x.1, n.val)
    | .lat _ => none) ++ u.reads ++ u.also ++ [(.p, u.guard)]

def ZGen.readyAt (g : ZGen) (r : ZReg) : Nat := ((g.ready.find? fun x => decide (x.1 = r)).map (·.2)).getD 0

/-- The first cycle at which an instruction may issue: it reads what its sources were last given, and no earlier write lands after its
own (R30, R32). -/
def ZGen.when_ (g : ZGen) (i : Instr) (lat : Nat) : Nat :=
  let u := i.uses
  let reads := (readRegs u ++ u.lands).map g.readyAt
  (reads ++ u.dsts.map (fun x => g.readyAt (x.1, x.2.1) - lat)).foldl max g.next

/-- Issue an instruction at a cycle, beside what the bundle of that cycle already holds. -/
def ZGen.add (g : ZGen) (c : Nat) (slot : Slot) (i : Instr) (lat : Nat) : ZGen :=
  let dsts := i.uses.dsts.filterMap fun x => if x.2.1 = 0 ∧ x.1 ≠ .v then none else some (x.1, x.2.1)
  let out := match g.out with
    | b :: rest => if b.cycle = c then { b with ops := b.ops ++ [(slot, i)] } :: rest else ⟨c, [(slot, i)], none, true⟩ :: g.out
    | [] => [⟨c, [(slot, i)], none, true⟩]
  { g with out, next := c + 1, ready := dsts.map (·, c + lat) ++ g.ready.filter fun x => !dsts.contains x.1 }

def ZGen.op (g : ZGen) (slot : Slot) (i : Instr) (lat : Nat) : ZGen := g.add (g.when_ i lat) slot i lat

/-- Issue instructions at fixed offsets from the first (R28, R398). -/
def ZGen.sequence (g : ZGen) (l : List (Nat × Slot × Instr × Nat)) : ZGen :=
  let c := (l.map fun x => g.when_ x.2.2.1 x.2.2.2 - x.1).foldl max g.next
  l.foldl (fun g x => g.add (c + x.1) x.2.1 x.2.2.1 x.2.2.2) g

/-- The cycle from which no fixed-latency write is in flight. -/
def ZGen.drained (g : ZGen) : Nat := (g.ready.map (·.2)).foldl max g.next

/-- Issue a transfer once every write has landed; it ends the issue group. -/
def ZGen.transfer (g : ZGen) (j : ZJump) (lbl : Text) : ZGen :=
  { g with out := ⟨g.drained, [], some (j, lbl), true⟩ :: g.out, next := g.drained + 1, made := [] }

/-! ### What registers and slots hold -/

def ZGen.where_ (g : ZGen) (v : ZVal) : Option ZReg := (g.holds.find? fun h => decide (h.2 = v)).map (·.1)
def ZGen.drop_ (g : ZGen) (r : ZReg) : ZGen := { g with holds := g.holds.filter fun h => decide (h.1 ≠ r) }
def ZGen.claim (g : ZGen) (r : ZReg) (v : ZVal) : ZGen := { g with holds := (r, v) :: (g.drop_ r).holds }
def ZGen.isSaved (g : ZGen) (v : ZVal) : Bool := g.saved.any fun x => decide (x.1 = v)
def ZGen.slotAt (g : ZGen) (k : ZKey) : Option Int := (g.slots.find? fun x => decide (x.1 = k)).map (·.2)
def ZGen.place (g : ZGen) (v : ZVal) : Option Int :=
  ((g.saved.find? fun x => decide (x.1 = v)).map (·.2)).map fun k => (g.slotAt k).getD 0

def zSlotSize : RegCls → Nat
  | .s => 8
  | .v => 256
  | .p => 32

/-- Take a slot, unless it has one: the highest place aligned to its size below every earlier one (R400). -/
def ZGen.take_ (g : ZGen) (k : ZKey) (c : RegCls) : ZGen :=
  if (g.slotAt k).isSome then g
  else
    let low := (g.low + zSlotSize c + zSlotSize c - 1) / zSlotSize c * zSlotSize c
    { g with low, slots := g.slots ++ [(k, -(low : Int))] }

/-- Open the frame (R400). -/
def ZGen.frame (g : ZGen) (z : ZPlan) : ZGen :=
  if g.framed then g else { g.op .s0 (.enter (BitVec.ofNat 14 (z.priv / 256))) 1 with framed := true }

/-! ### Moves between registers and the frame -/

def fp : Src := .reg 28
def vldAt (r : Nat) (d : Int) (ty : Ty) : Instr := .vld ⟨fin32Of r, false, fp, BitVec.ofInt 12 (d / 256), 0, ty⟩
def vstAt (r : Nat) (d : Int) (ty : Ty) : Instr := .vst (fin32Of r) fp (BitVec.ofInt 12 (d / 256)) 0 ty
/-- Whether a displacement from fp fits the immediate of a scalar access. -/
def near (d : Int) : Bool := immFits 14 (BitVec.ofInt 64 d)

/-- The base and displacement of a scalar slot; a far one is reached through s31, which the open frame has saved. -/
def ZGen.local_ (g : ZGen) (d : Int) : ZGen × Src × BitVec 14 :=
  if near d then (g, fp, BitVec.ofInt 14 d)
  else
    let g := g.op .s0 (.li ⟨31, false, BitVec.ofInt 20 d⟩) 1
    (g.op .s0 (.add ⟨31, false, fp, .reg 31⟩) 1, .reg 31, 0)

/-- Load a constant: LI, LIM and LIT as it requires (R28); beyond 60 bits, its upper 60 bits, then its lowest four. -/
def constOps (r : Nat) (n : Word) : List Instr :=
  let chunk := fun (n : Word) (i : Nat) => n.extractLsb' (20 * i) 20
  let long := fun (n : Word) =>
    [Instr.li ⟨fin32Of r, false, chunk n 0⟩] ++ (if immFits 20 n then [] else [.lim ⟨fin32Of r, false, chunk n 1⟩])
      ++ (if immFits 40 n then [] else [.lit ⟨fin32Of r, false, chunk n 2⟩])
  if immFits 60 n then long n
  else long (n.sshiftRight 4) ++ [.shli ⟨fin32Of r, false, .reg (fin32Of r), 4⟩,
    .ori ⟨fin32Of r, false, .reg (fin32Of r), (n &&& 15).setWidth 14⟩]

def ZGen.const (g : ZGen) (r : Nat) (n : Word) : ZGen := (constOps r n).foldl (fun g i => g.op .s0 i 1) g

/-- Bundles that hold no stop, so that a latch is read within its issue group. -/
def ZGen.join (g : ZGen) (first : Nat) : ZGen := { g with out := g.out.map fun b => if first ≤ b.cycle then { b with stop := false } else b }

/-- Store s31 at an offset from fp; a far place is reached through the latch of S0, within one issue group. -/
def ZGen.storeLink (g : ZGen) (d : Int) : ZGen :=
  if near d then g.op .s0 (.stLD ⟨31, fp, BitVec.ofInt 14 d⟩) 0
  else
    let c := g.when_ (.stLD ⟨31, fp, 0⟩) 0
    let g := (g.add c .s0 (.li ⟨31, true, BitVec.ofInt 20 d⟩) 1).add (c + 1) .s0 (.add ⟨31, true, fp, .lat .s0⟩) 1
    (g.add (c + 2) .s0 (.stLD ⟨31, .lat .s0, 0⟩) 0).join c

/-- Move a predicate to or from its slot. p0 to p7 pass through v0 and a row of the expansion area; the other row keeps v0. -/
def ZGen.predicate (g : ZGen) (z : ZPlan) (n : Nat) (d : Int) (store : Bool) : ZGen :=
  let row : Int := -(z.area : Int)
  let g := { g with area := true }
  let g := g.op .v (vstAt 0 (row + 256) .i8) 0
  let g := g.op .v (.ppack 0 false 0) 2
  let g := g.op .v (vstAt 0 row .i8) 0
  let copy := fun (g : ZGen) (j : Nat) =>
    let image := row + 32 * n + 8 * j
    let slot := d + 8 * j
    let (g, b, imm) := g.local_ (if store then image else slot)
    (g.op .s0 (.ldLD ⟨31, false, b, imm⟩) 6).storeLink (if store then slot else image)
  let g := (List.range 4).foldl copy g
  let g := if store then g else (g.op .v (vldAt 0 row .i8) 8).op .v (.punpk 0 (.reg 0)) 2
  g.op .v (vldAt 0 (row + 256) .i8) 8

def ZGen.store (g : ZGen) (z : ZPlan) (r : ZReg) (d : Int) (ty : Ty) : ZGen :=
  match r.1 with
  | .s =>
    let (g, b, imm) := g.local_ d
    g.op .s0 (.stLD ⟨fin32Of r.2, b, imm⟩) 0
  | .v => g.op .v (vstAt r.2 d ty) 0
  | .p => g.predicate z r.2 d true

def ZGen.load (g : ZGen) (z : ZPlan) (r : ZReg) (d : Int) (ty : Ty) : ZGen :=
  match r.1 with
  | .s =>
    let (g, b, imm) := g.local_ d
    g.op .s0 (.ldLD ⟨fin32Of r.2, false, b, imm⟩) 6
  | .v => g.op .v (vldAt r.2 d ty) 8
  | .p => g.predicate z r.2 d false

def ZGen.move (g : ZGen) (q r : ZReg) : ZGen :=
  match r.1 with
  | .s => g.op .s0 (.or ⟨fin32Of r.2, false, q.src, .reg 0⟩) 1
  | .v => g.op .v (.vmov ⟨fin32Of r.2, false, q.src, 0, .i8⟩) 2
  | .p => g.op .v (.pmov ⟨pNum (fin32Of r.2), false, q.src, 0⟩) 2

/-! ### Values of a block -/

/-- A block in its function: its number, the variables between blocks, and whether it begins with the function's arguments. -/
structure ZScope where
  plan : ZPlan
  n : Nat
  b : ZBlock
  shared : List (ZVar × RegCls)

/-- The next use of a value from operation `k` on; what a variable between blocks holds, and is not given anew, is used at the end. -/
def ZScope.next (z : ZScope) (v : ZVal) (k : Nat) : Option Nat :=
  match z.b.nextUse z.shared v k with
  | some j => some j
  | none => match v with
    | .entry x c => if z.n ≠ 0 ∧ z.shared.contains (x, c) ∧ (findVar z.b.final x).isNone then some (z.b.steps.length + 1)
      else none
    | _ => none

/-- The element type of the access that stores or loads a value: its operation's. -/
def ZScope.ty (z : ZScope) (v : ZVal) : Ty :=
  match v with
  | .res k _ => match (z.b.steps[k]?).map ZStep.act with
    | some (ZAct.oper o) => if o.ty = .e2m1 ∨ o.ty = .l8 then .i8 else o.ty
    | _ => .i8
  | _ => .i8

/-- The number of the virtual register that a value is in. -/
def ZScope.vreg (z : ZScope) (v : ZVal) : Nat :=
  match v with
  | .entry (.w n) _ => n
  | .res k _ => ((z.b.steps[k]?).bind (·.name)).getD (2 ^ 20)
  | _ => 2 ^ 20

/-- The slot that a value is stored to from operation `k` on: its virtual register's, unless another value still stands there, else one of
its own. -/
def ZScope.keyFor (z : ZScope) (g : ZGen) (v : ZVal) (k : Nat) : ZKey :=
  let key := ZKey.reg (z.vreg v)
  if z.vreg v = 2 ^ 20 || g.saved.any fun x => decide (x.2 = key) && decide (x.1 ≠ v) && (z.next x.1 k).isSome then .val z.n v else key

/-- Enter a value as stored in a slot, in which nothing else then stands. -/
def ZGen.keep (g : ZGen) (v : ZVal) (key : ZKey) : ZGen := { g with saved := (v, key) :: g.saved.filter fun x => decide (x.2 ≠ key) }

/-- Store a value that stands in a register to its spill slot, before operation `k`. -/
def ZScope.save (z : ZScope) (g : ZGen) (v : ZVal) (k : Nat) : Except Nat ZGen :=
  match g.where_ v with
  | some r =>
    if v.isConst || g.isSaved v then .ok g
    else
      let key := z.keyFor g v k
      let g := (g.frame z.plan).take_ key r.1
      .ok ((g.keep v key).store z.plan r ((g.slotAt key).getD 0) (z.ty v))
  | none => .ok g

def ZScope.idle (z : ZScope) (g : ZGen) (r : ZReg) (k : Nat) : Bool := g.holds.all fun h => decide (h.1 ≠ r) || (z.next h.2 k).isNone

/-- Whether the value in the first register is spilled rather than that in the second: its next use lies further ahead, or as far and its
virtual register has the lower number (R30). -/
def ZScope.rather (z : ZScope) (g : ZGen) (a b : ZReg) (k : Nat) : Bool :=
  let look := fun (r : ZReg) => match g.holds.find? fun h => decide (h.1 = r) with
    | some h => ((z.next h.2 k).getD 0, z.vreg h.2)
    | none => (0, 0)
  decide ((look b).1 < (look a).1) || (decide ((look a).1 = (look b).1) && decide ((look a).2 < (look b).2))

/-- A register of a class: the first of an order whose value is not used from operation `k` on, or one whose value is spilled. -/
def ZScope.room (z : ZScope) (g : ZGen) (c : RegCls) (k : Nat) (keep : List ZReg) (order : List Nat) : Except Nat (ZGen × ZReg) :=
  let l := order.filter fun n => !keep.contains (c, n)
  match l.find? fun n => z.idle g (c, n) k with
  | some n => .ok (g, (c, n))
  | none =>
    let victim := l.foldl (fun best n => match best with
      | none => some n
      | some m => if z.rather g (c, n) (c, m) k then some n else some m) none
    match victim with
    | none => .error 4
    | some n => match g.holds.find? fun h => decide (h.1 = (c, n)) with
      | some h => (z.save g h.2 k).map fun g => (g.drop_ (c, n), (c, n))
      | none => .ok (g, (c, n))

/-- Put a value into a register; one that was never given is what the register holds. -/
def ZScope.into (z : ZScope) (g : ZGen) (r : ZReg) (v : ZVal) : Except Nat ZGen :=
  if g.holds.contains (r, v) then .ok g
  else
    let done := fun (g : ZGen) => g.claim r v
    match v with
    | .const n => .ok (done (g.const r.2 n))
    | _ => match g.where_ v, g.place v with
      | some q, _ => .ok (done (g.move q r))
      | none, some d => .ok (done ((g.frame z.plan).load z.plan r d (z.ty v)))
      | none, none => .ok (done g)

/-- A register that holds a value. -/
def ZScope.fetch (z : ZScope) (g : ZGen) (k : Nat) (keep : List ZReg) (v : ZVal) : Except Nat (ZGen × ZReg) :=
  if v = .const 0 then .ok (g, (.s, 0))
  else match g.where_ v with
    | some r => .ok (g, r)
    | none => match z.room g v.cls k keep (z.plan.pool v.cls) with
      | .error e => .error e
      | .ok (g, r) => (z.into g r v).map fun g => (g, r)

/-- The register of a value that is returned. -/
def returnReg (c : RegCls) : ZReg := (c, if c = .s then 1 else 0)

/-- The destination of operation `k`: the register of the function's result if that value is it, else a free register, for a value that no
virtual register names one that carries no argument, else one whose value the operation is the last to use, else one that is spilled. -/
def ZScope.dest (z : ZScope) (g : ZGen) (k : Nat) (st : ZStep) (c : RegCls) : Except Nat (ZGen × ZReg) :=
  let pool := z.plan.pool c
  let ret : Bool := match z.b.end_, z.b.srcs with
    | .ret, [x] => decide (x.val = .res k c) && pool.contains (returnReg c).2 && z.idle g (returnReg c) (k + 1)
    | _, _ => false
  let first := if c = .s then 9 else if c = .v then 8 else 0
  let order := if st.name.isSome then pool else pool.filter (first ≤ ·) ++ pool.filter (· < first)
  if ret then .ok (g, returnReg c)
  else match order.find? fun n => z.idle g (c, n) k with
    | some n => .ok (g, (c, n))
    | none => z.room g c (k + 1) [] pool

/-! ### Operations -/

def latchId : Slot → Option LatchId
  | .s0 => some .s0
  | .s1 => some .s1
  | .v => some .v
  | .x => some .x
  | _ => none

/-- The latch that still shows a value, with the cycles of its operation and of its landing: no later operation stands in its slot. -/
def ZGen.latch (g : ZGen) (v : ZVal) : Option (LatchId × Nat × Nat) :=
  match g.made.find? fun m => decide (m.1 = v) with
  | some (_, slot, c, lat) =>
    if g.out.any fun b => decide (c < b.cycle) && b.ops.any fun o => decide (o.1 = slot) then none
    else (latchId slot).map (·, c, c + lat)
  | none => none

def ZKind.latches : ZKind → Bool
  | .s | .v | .p | .vs => true
  | _ => false

/-- The operands of an operation, with the registers that they name: an immediate, a latch where it may be read (R30), or a register. -/
def ZScope.operands (z : ZScope) (g : ZGen) (k : Nat) (latches : Bool) : List (ZKind × ZSource) → List ZReg →
    Except Nat (ZGen × List ZArg × List ZReg)
  | [], keep => .ok (g, [], keep)
  | (kind, s) :: rest, keep =>
    let next := fun (x : ZGen × ZArg × List ZReg) => match z.operands x.1 k latches rest x.2.2 with
      | .ok (g, l, keep) => .ok (g, x.2.1 :: l, keep)
      | .error e => .error e
    match kind, s.val with
    | .imm, .const n => next (g, .imm n, keep)
    | _, v => match (if latches && s.latch && kind.latches then g.latch v else none) with
      | some (l, _) => next (g, .src v.cls (.lat l), keep)
      | none => match z.fetch g k keep v with
        | .ok (g, r) => next (g, .src v.cls r.src, r :: keep)
        | .error e => .error e

/-- The destination of an operation that reads it: the register of its last source if the operation is the last to use that value, else
another register that gets a copy. -/
def ZScope.tiedDest (z : ZScope) (g : ZGen) (k : Nat) (keep : List ZReg) (v : ZVal) : Except Nat (ZGen × ZReg) :=
  let copy := match z.room g .s k keep (z.plan.pool .s) with
    | .ok (g, r) => (z.into g r v).map fun g => (g, r)
    | .error e => .error e
  match g.where_ v with
  | some r => if (z.plan.pool .s).contains r.2 && z.idle g r (k + 1) then .ok (g, r) else copy
  | none => copy

/-- One native operation. A latch that the moves for its registers have overtaken is not read: `none`. -/
def ZScope.tryNative (z : ZScope) (g : ZGen) (k : Nat) (st : ZStep) (o : ZOper) (latches : Bool) : Except Nat (Option ZGen) :=
  let srcs := if o.tied then st.srcs.dropLast else st.srcs
  match z.operands g k latches (o.kinds.zip srcs) [] with
  | .error e => .error e
  | .ok (g, args, keep) =>
    let dst : Except Nat (ZGen × ZReg) := match o.dst with
      | none => .ok (g, (.s, 0))
      | some c => if o.tied then z.tiedDest g k keep ((st.srcs.getLast?.map (·.val)).getD (.const 0)) else z.dest g k st c
    match dst with
    | .error e => .error e
    | .ok (g, d) => match o.build (fin32Of d.2) args with
      | none => .error 6
      | some i =>
        let read := (args.zip srcs).filterMap fun x => match x.1 with
          | .src _ (.lat _) => some (g.latch x.2.val)
          | _ => none
        if read.any Option.isNone then .ok none
        else
          let shown := read.filterMap id
          let c := (shown.map (·.2.2)).foldl max (g.when_ i o.lat)
          let g := ((shown.map (·.2.1)).foldl ZGen.join g).add c o.slot i o.lat
          match o.dst with
          | none => .ok (some g)
          | some cls =>
            let v := ZVal.res k cls
            .ok (some { g.claim d v with made := if o.lands then g.made else (v, o.slot, c, o.lat) :: g.made })

def ZScope.native (z : ZScope) (g : ZGen) (k : Nat) (st : ZStep) (o : ZOper) : Except Nat ZGen :=
  match z.tryNative g k st o true with
  | .error e => .error e
  | .ok (some g) => .ok g
  | .ok none => (z.tryNative g k st o false).map fun x => x.getD g

/-- Both sources of a virtual operation in registers, and its destination. -/
def ZScope.pair (z : ZScope) (g : ZGen) (k : Nat) (st : ZStep) : Except Nat (ZGen × ZReg × ZReg × ZReg) := do
  let a := (st.srcs[0]?.map (·.val)).getD (.const 0)
  let b := (st.srcs[1]?.map (·.val)).getD (.const 0)
  let (g, ra) ← z.fetch g k [] a
  let (g, rb) ← z.fetch g k [ra] b
  let (g, d) ← z.dest g k st .s
  pure (g, ra, rb, d)

/-- ALU.div and ALU.rem (R28). -/
def ZScope.intDiv (z : ZScope) (g : ZGen) (k : Nat) (st : ZStep) (rem : Bool) : Except Nat ZGen := do
  let (g, a, b, d) ← z.pair (g.frame z.plan) k st
  let e : Int := -(z.plan.area : Int)
  let o : XIDiv := ⟨fin32Of z.plan.t1, false, .reg (fin32Of z.plan.t1), .reg (fin32Of z.plan.t2), true, 0, .i32⟩
  if !near e then .error 4
  else
    let g := ({ g with area := true } : ZGen).sequence
      [(0, .s0, .stLD ⟨fin32Of a.2, fp, BitVec.ofInt 14 e⟩, 0), (0, .s1, .stLD ⟨fin32Of b.2, fp, BitVec.ofInt 14 (e + 256)⟩, 0),
       (1, .v, vldAt z.plan.t1 e .i32, 8), (2, .v, vldAt z.plan.t2 (e + 256) .i32, 8),
       (10, .x, if rem then .rems o else .divs o, 20), (30, .v, vstAt z.plan.t1 e .i32, 0),
       (31, .s0, .ldLD ⟨fin32Of d.2, false, fp, BitVec.ofInt 14 e⟩, 6)]
    pure (g.claim d (.res k .s))

/-- FPU.div (R28). -/
def ZScope.floatDiv (z : ZScope) (g : ZGen) (k : Nat) (st : ZStep) : Except Nat ZGen := do
  let (g, a, b, d) ← z.pair g k st
  let t1 := fin32Of z.plan.t1
  let t2 := fin32Of z.plan.t2
  let g := g.sequence
    [(0, .v, .vbcst ⟨t1, false, a.src, 0, .f32⟩, 2), (1, .v, .vbcst ⟨t2, false, b.src, 0, .f32⟩, 2),
     (3, .x, .div ⟨t1, false, .reg t1, .reg t2, .rne, 0, .f32⟩, 20), (23, .v, .vext ⟨fin32Of d.2, false, .reg t1, .reg 0, 0, .f32⟩, 2)]
  pure (g.claim d (.res k .s))

/-- VEC.dot.f16 (R398). A source that is read again is stored to a spill slot and loaded again into its register (R399). -/
def ZScope.dot (z : ZScope) (g : ZGen) (k : Nat) (st : ZStep) : Except Nat ZGen := do
  let (g, ra, rb, d) ← z.pair g k st
  let va := (st.srcs[0]?.map (·.val)).getD (.const 0)
  let vb := (st.srcs[1]?.map (·.val)).getD (.const 0)
  let same := decide (ra = rb)
  let needs := fun (v : ZVal) => (z.next v (k + 1)).isSome
  let keeps := fun (g : ZGen) (v : ZVal) => needs v && !g.isSaved v
  let slotFor := fun (g : ZGen) (v : ZVal) =>
    if keeps g v then ((g.frame z.plan).take_ (z.keyFor g v k) .v).keep v (z.keyFor g v k) else g
  let first := keeps g vb
  let g1 := slotFor g vb
  let second := !same && keeps g1 va
  let g2 := if same then g1 else slotFor g1 va
  let at_ := fun (v : ZVal) => (g2.place v).getD 0
  let t := fin32Of z.plan.t1
  let a := fin32Of ra.2
  let b := fin32Of rb.2
  let wide := fun (d s : Fin 32) (part : Fin 8) => Instr.cvt ⟨d, false, .reg s, .f16, part, 0, 0, .f32⟩
  let stores := (if first then [(0, Slot.v, vstAt rb.2 (at_ vb) (z.ty vb), 0)] else [])
    ++ (if second then [(1, Slot.v, vstAt ra.2 (at_ va) (z.ty va), 0)] else [])
  let loads := (if needs vb then [(if same then 9 else 11, Slot.v, vldAt rb.2 (at_ vb) (z.ty vb), 8)] else [])
    ++ (if !same && needs va then [(15, Slot.v, vldAt ra.2 (at_ va) (z.ty va), 8)] else [])
  let body : List (Nat × Slot × Instr × Nat) :=
    if same then
      [(0, .x, wide t a 0, 4), (1, .x, wide a a 1, 4), (4, .v, .vfmul ⟨t, false, .reg t, .reg t, false, .rne, 0, .f32⟩, 4),
       (8, .v, .vfma ⟨t, false, .reg a, .reg a, .reg t, false, .rne, 0, .f32⟩, 4),
       (12, .v, .vrsum ⟨fin32Of d.2, false, .reg t, .rne, 0, .f32⟩, 6)]
    else
      [(0, .x, wide t b 0, 4), (1, .x, wide b b 1, 4), (2, .x, wide a a 0, 4), (3, .x, wide t a 1, 4),
       (6, .v, .vfmul ⟨a, false, .reg a, .reg t, false, .rne, 0, .f32⟩, 4),
       (10, .v, .vfma ⟨a, false, .reg t, .reg b, .reg a, false, .rne, 0, .f32⟩, 4),
       (14, .v, .vrsum ⟨fin32Of d.2, false, .reg a, .rne, 0, .f32⟩, 6)]
  let by_ := fun (n : Nat) => (stores ++ body ++ loads).filter fun x => decide (x.1 = n)
  let g := g2.sequence ((List.range 16).flatMap by_)
  let g := if needs vb then g else g.drop_ rb
  let g := if needs va then g else g.drop_ ra
  pure (g.claim d (.res k .s))

/-- The place of each argument of the calling convention (R203): a register, or an offset from the caller's sp. -/
def argPlaces (l : List RegCls) : List (ZReg ⊕ Nat) :=
  (l.foldl (fun (acc : List (ZReg ⊕ Nat) × Nat × Nat × Nat) c =>
    let (out, s, v, off) := acc
    let n := zSlotSize c
    let at_ := (off + n - 1) / n * n
    match c with
    | .s => if s < 8 then (out ++ [.inl (.s, s + 1)], s + 1, v, off) else (out ++ [.inr at_], s, v, at_ + n)
    | .v => if v < 8 then (out ++ [.inl (.v, v)], s, v + 1, off) else (out ++ [.inr at_], s, v, at_ + n)
    | .p => (out ++ [.inr at_], s, v, at_ + n)) ([], 0, 0, 0)).1

/-- Store every value that is used from operation `k` on and stands in a register. -/
def ZScope.saveLive (z : ZScope) (g : ZGen) (k : Nat) : Except Nat ZGen :=
  g.holds.foldlM (fun g h => if (z.next h.2 k).isSome then z.save g h.2 (k - 1) else .ok g) g

/-- After a call its result is in its register, and no other register holds a value. -/
def ZGen.called (g : ZGen) (k : Nat) (dst : Option RegCls) : ZGen :=
  { g with made := [], ready := [], holds := match dst with
    | some c => [(returnReg c, .res k c)]
    | none => [] }

/-- A call: what is used after it is stored, its arguments are put where the convention has them, and no write is in flight (R203,
R205). -/
def ZScope.call (z : ZScope) (g : ZGen) (k : Nat) (st : ZStep) (f : Text) (classes : List RegCls) : Except Nat ZGen := do
  let g ← z.saveLive g (k + 1)
  let regs := (argPlaces classes).filterMap fun x => match x with
    | .inl r => some r
    | .inr _ => none
  let moves := regs.zip (st.srcs.map (·.val))
  let lost := fun (x : ZReg × ZVal) => match g.where_ x.2 with
    | some r => r != x.1 && regs.contains r
    | none => false
  let g ← moves.foldlM (fun g x => if lost x then z.save g x.2 k else .ok g) g
  let g ← moves.foldlM (fun g x => z.into g x.1 x.2) g
  pure ((g.transfer .brl f).called k st.dst)

/-- A call of an address. -/
def ZScope.callReg (z : ZScope) (g : ZGen) (k : Nat) (st : ZStep) : Except Nat ZGen := do
  let g ← z.saveLive g (k + 1)
  let (g, r) ← z.fetch g k [] ((st.srcs[0]?.map (·.val)).getD (.const 0))
  pure ((g.add g.drained .s0 (.jrl 31 r.src) 1).called k st.dst)

def ZScope.step (z : ZScope) (g : ZGen) (k : Nat) (st : ZStep) : Except Nat ZGen :=
  match st.act with
  | .oper o => z.native g k st o
  | .const n => (z.dest g k st .s).map fun x => (x.1.const x.2.2 n).claim x.2 (.res k .s)
  | .div rem => z.intDiv g k st rem
  | .fdiv => z.floatDiv g k st
  | .dot => z.dot g k st
  | .call f args => z.call g k st f args
  | .jrl => z.callReg g k st

/-! ### Blocks -/

/-- The values that variables between blocks are left with. A port left with a value of another class than it is read as holds none. -/
def ZScope.finals (z : ZScope) : List (ZVar × RegCls × ZVal) :=
  z.shared.filterMap fun x => match findVar z.b.final x.1 with
    | some v => if (v = .entry x.1 x.2 ∧ z.n ≠ 0) ∨ v.cls ≠ x.2 then none else some (x.1, x.2, v)
    | none => none

/-- Whether a value is taken by the block's end, or left in another variable than `x`. -/
def ZScope.wanted (z : ZScope) (x : ZVar) (v : ZVal) : Bool :=
  z.b.srcs.any (fun s => decide (s.val = v)) || z.finals.any fun y => decide (y.1 ≠ x) && decide (y.2.2 = v)

/-- Leave the variables between blocks with their values. What stands where one of them is to stand, and is still wanted, is first stored to
a spill slot of its own. -/
def ZScope.settle (z : ZScope) (g : ZGen) : Except Nat ZGen := do
  let n := z.b.steps.length
  let g ← z.finals.foldlM (fun (g : ZGen) x => match z.plan.home x.1 x.2.1 with
    | some r => (g.holds.filter fun h => decide (h.1 = r) && decide (h.2 ≠ x.2.2) && z.wanted x.1 h.2).foldlM (fun g h => z.save g h.2 n) g
    | none =>
      let v := ZVal.entry x.1 x.2.1
      let at_ := (v, ZKey.var x.1 x.2.1)
      if g.saved.contains at_ && z.wanted x.1 v && decide (v ≠ x.2.2) then
        match z.fetch g n [] v with
        | .ok (g, _) => z.save { g with saved := g.saved.filter fun y => decide (y ≠ at_) } v n
        | .error e => .error e
      else .ok g) g
  let g ← z.finals.foldlM (fun (g : ZGen) x => match z.plan.home x.1 x.2.1 with
    | some _ => .ok g
    | none => match z.fetch g n [] x.2.2 with
      | .ok (g, r) =>
        let key := ZKey.var x.1 x.2.1
        let g := (g.frame z.plan).take_ key x.2.1
        .ok (g.store z.plan r ((g.slotAt key).getD 0) (z.ty x.2.2))
      | .error e => .error e) g
  z.finals.foldlM (fun g x => match z.plan.home x.1 x.2.1 with
    | some r => z.into g r x.2.2
    | none => .ok g) g

/-- Close the frame (R400), and return once every write has landed. -/
def ZScope.leave (z : ZScope) (g : ZGen) (target : Src) : ZGen :=
  let g := z.plan.kept.foldl (fun (g : ZGen) n => g.op .v (vldAt n ((g.slotAt (.kept n)).getD 0) .i8) 8) g
  let g := if g.framed then g.op .s0 .leave 6 else g
  g.add g.drained .s0 (.jr target) 0

/-- The end of a block. One that hardware loops end with closes with a bundle after which no write is in flight. -/
def ZScope.finish (z : ZScope) (g : ZGen) : Except Nat ZGen := do
  let n := z.b.steps.length
  let g ← z.settle g
  let src := fun (g : ZGen) (i : Nat) (keep : List ZReg) => z.fetch g n keep ((z.b.srcs[i]?.map (·.val)).getD (.const 0))
  match z.b.end_ with
  | .next =>
    if z.b.closes then pure { g with out := ⟨g.drained, [], none, true⟩ :: g.out, next := g.drained + 1 } else pure { g with next := g.drained }
  | .bcz cc lbl => do
    let (g, a) ← src g 0 []
    pure (g.transfer (.bcz cc a.src) lbl)
  | .bc cc lbl => do
    let (g, a) ← src g 0 []
    let (g, b) ← src g 1 [a]
    pure (g.transfer (.bc cc a.src b.src) lbl)
  | .bp t lbl => do
    let (g, a) ← src g 0 []
    pure (g.transfer (.bp (pNum (fin32Of a.2)) t) lbl)
  | .jmp lbl => pure (g.transfer .jmp lbl)
  | .loop l lbl => do
    let (g, a) ← src g 0 []
    pure (g.transfer (.loop l a.src) lbl)
  | .loopi l count lbl => pure (g.transfer (.loopi l count) lbl)
  | .jr => do
    let (g, a) ← src g 0 []
    pure (z.leave g a.src)
  | .ret => match z.b.srcs with
    | s :: _ => do
      let g ← z.into g (returnReg s.val.cls) s.val
      pure (z.leave g (.reg 31))
    | [] => pure (z.leave g (.reg 31))

/-- A block's bundles, in order, and how many context cycles it takes when it runs to its end. -/
structure ZCode where
  labels : List Text
  bundles : List ZBundle
  len : Nat

/-- Generate a block after those before it. A variable between blocks is in its register or its slot. -/
def ZScope.block (z : ZScope) (g : ZGen) : Except Nat (ZGen × ZCode) := do
  let regs := if z.n = 0 then g.holds else z.plan.homes.map fun h => (h.2, .entry h.1 h.2.1)
  let slots : List (ZVal × ZKey) := z.shared.filterMap fun x =>
    if (z.plan.home x.1 x.2).isSome then none else some (.entry x.1 x.2, .var x.1 x.2)
  let g := { g with holds := regs, saved := if z.n = 0 then g.saved else slots }
  let g := if z.n = 0 then g else { g with next := 0, out := [], ready := [], made := [] }
  let g ← z.b.steps.zipIdx.foldlM (fun g st => z.step g st.2 st.1) g
  let g ← z.finish g
  pure (g, ⟨z.b.labels, g.out.reverse, g.next⟩)

/-! ### Functions -/

def ZAct.divides : ZAct → Bool
  | .div _ => true
  | .fdiv => true
  | _ => false
def ZAct.reserves (a : ZAct) : Bool := a.divides || (match a with
  | .dot => true
  | _ => false)
def ZAct.calls : ZAct → Bool
  | .call .. => true
  | .jrl => true
  | _ => false

/-- Registers from the top of a pool for the variables between blocks, as long as `least` stay below them. -/
def homesOf (c : RegCls) (pool : List Nat) (least : Nat) (shared : List (ZVar × RegCls)) : List (ZVar × ZReg) :=
  ((shared.filter fun x => decide (x.2 = c)).zip (pool.drop least).reverse).map fun x => (x.1.1, (c, x.2))

/-- The arguments that come in registers, and those that come in the caller's frame. -/
def ZFunc.incoming (f : ZFunc) : List (ZVal × (ZReg ⊕ Nat)) :=
  (f.args.map fun w => ZVal.entry (.w w) (f.cls w)).zip (argPlaces (f.args.map f.cls))

/-- Begin the function: open the frame if it is to stand from the beginning, store the reserved registers of the caller, and store the
arguments that came in registers beyond the budget. -/
def ZScope.begin_ (z : ZScope) (f : ZFunc) (slots : List (ZKey × Int)) : Except Nat ZGen :=
  let inRegs := f.incoming.filterMap fun x => match x.2 with
    | .inl r => some (r, x.1)
    | .inr _ => none
  let onStack := f.incoming.zipIdx.filterMap fun x => match x.1.2 with
    | .inl _ => none
    | .inr off => some (x.1.1, ZKey.arg x.2, (off : Int))
  let g : ZGen := ⟨0, [], [], inRegs, onStack.map fun x => (x.1, x.2.1), [], slots ++ onStack.map (fun x => x.2), 16, false, false⟩
  let g := if z.plan.early then g.frame z.plan else g
  let g := z.plan.kept.foldl (fun (g : ZGen) n =>
    let g := g.take_ (.kept n) .v
    g.op .v (vstAt n ((g.slotAt (.kept n)).getD 0) .i8) 0) g
  inRegs.foldlM (fun g x =>
    if (z.plan.pool x.1.1).contains x.1.2 || z.plan.homes.any fun h => decide (h.2 = x.1) then .ok g
    else (z.save g x.2 0).map fun g => g.drop_ x.1) g

/-- Generate every block. -/
def ZPlan.function (z : ZPlan) (f : ZFunc) (bs : List ZBlock) (shared : List (ZVar × RegCls)) (slots : List (ZKey × Int)) :
    Except Nat (ZGen × List ZCode) := do
  let scope := fun (n : Nat) (b : ZBlock) => (⟨z, n, b, shared⟩ : ZScope)
  let g ← (scope 0 (bs.headD ⟨[], [], .ret, [], [], false⟩)).begin_ f slots
  bs.zipIdx.foldlM (fun (x : ZGen × List ZCode) b => do
    let (g, c) ← (scope b.2 b.1).block x.1
    pure (g, x.2 ++ [c])) (g, [])

/-- Round up to a multiple of 256. -/
def row256 (n : Nat) : Nat := (n + 255) / 256 * 256

/-- A function's native code and its PRIV, under its budgets: once to learn its frame, and once to generate it. -/
def ZFunc.code (f : ZFunc) (sigs : List ZSig) (bud : Nat × Nat × Nat) : Except Nat (List ZCode × Nat) := do
  let bs ← f.blocks sigs
  let first := fun (b : ZBlock) => { b with final := b.final ++ f.args.filterMap fun w =>
    if (findVar b.final (.w w)).isSome then none else some (.w w, .entry (.w w) (f.cls w)) }
  let bs := match bs with
    | b :: rest => first b :: rest
    | [] => []
  let shared := sharedVars f.args bs
  let acts := bs.flatMap fun b => b.steps.map (·.act)
  let calls := acts.any ZAct.calls
  let divides := acts.any ZAct.divides
  let reserves := acts.any ZAct.reserves
  let nv := min bud.2.1 16
  let used := if divides then 2 else if reserves then 1 else 0
  let ps := (List.range (min bud.1 15)).map (· + 1)
  let pv := (List.range nv).filter fun n => decide (n + used < bud.2.1)
  let pp := (List.range (min bud.2.2 7)).map (· + 1)
  let homes := if calls then [] else homesOf .s ps 4 shared ++ homesOf .v pv 3 shared ++ homesOf .p pp 2 shared
  let without := fun (c : RegCls) (l : List Nat) => l.filter fun n => !homes.any fun h => decide (h.2 = (c, n))
  let reserved := (List.range used).map fun i => bud.2.1 - 1 - i
  let kept := reserved.filter (16 ≤ ·)
  let stack := f.incoming.any fun x => x.2.isRight
  let always := calls || stack || !kept.isEmpty
  let plan : ZPlan := ⟨without .s ps, without .v pv, without .p pp, homes, bud.2.1 - 1, bud.2.1 - 2, 0, 0, always, kept⟩
  let (g, _) ← plan.function f bs shared []
  let area := if g.area then row256 (g.low + 512) else 0
  let framed := always || decide (16 < g.low) || g.area
  let priv := if !framed then 0 else max area (row256 g.low)
  let plan := { plan with area, priv, early := framed && (always || decide (1 < bs.length)) }
  let (_, code) ← plan.function f bs shared g.slots
  pure (code, priv)

/-! ### Layout -/

/-- Pure bundles that take `n` context cycles. -/
def idleBundles (n : Nat) (stop : Bool) : List (Nat × ZBundle) :=
  (List.range ((n + 7) / 8)).map fun i => (min 8 (n - 8 * i) - 1, ⟨0, [], none, stop⟩)

/-- A block's bundles with their wait cycles, from cycle `c` to its end (R30). -/
def paced (c len : Nat) : List ZBundle → List (Nat × ZBundle)
  | [] => idleBundles (len - c) true
  | b :: rest =>
    let until_ := match rest with
      | x :: _ => x.cycle
      | [] => len
    let gap := until_ - b.cycle - 1
    idleBundles (b.cycle - c) true ++ (min 7 gap, b) :: idleBundles (gap - 7) b.stop ++ paced until_ len rest

def ZBundle.parcels (b : ZBundle) : Nat := 1 + (b.ops.map (·.1.parcels)).sum + (if b.jump.isSome then 2 else 0)

/-- A bundle placed in its text: its offset in bytes, its wait cycles, and the labels that name it, as a target and as the end of a loop. -/
structure ZPlaced where
  off : Nat
  wt : Nat
  b : ZBundle

/-- Place bundles one after another from an offset. -/
def placeBundles (off : Nat) : List (Nat × ZBundle) → List ZPlaced
  | [] => []
  | (wt, b) :: rest => ⟨off, wt, b⟩ :: placeBundles (off + 2 * b.parcels) rest

/-- A function's blocks with where each begins and where its last bundle begins. -/
structure ZBody where
  name : Text
  start : Nat
  size : Nat
  priv : Nat
  bundles : List ZPlaced
  labels : List (Text × Nat × Nat)

def layBody (name : Text) (start priv : Nat) (l : List ZCode) : ZBody :=
  let step := fun (x : List ZPlaced × List (Text × Nat × Nat) × Nat) (c : ZCode) =>
    let ps := placeBundles x.2.2 (paced 0 c.len c.bundles)
    let last := (ps.getLast?.map (·.off)).getD x.2.2
    (x.1 ++ ps, x.2.1 ++ c.labels.map (·, x.2.2, last), ps.foldl (fun n p => n + 2 * p.b.parcels) x.2.2)
  let (ps, labels, end_) := l.foldl step ([], [], start)
  ⟨name, start, end_ - start, priv, ps, labels⟩

def allSlotOrder : List Slot := [.s0, .s1, .v, .x, .m, .q]

/-- The bytes of a bundle from its operations (R117, R118). -/
def bundleBytes (wt : Nat) (stop : Bool) (ops : List (Slot × Instr)) : List Byte :=
  let pm := ops.foldl (fun m o => m ||| o.1.mask) 0
  leBytes (encodeHeader (fin8Of wt) false stop pm).toNat 2 ++ allSlotOrder.flatMap fun s =>
    match ops.find? fun o => decide (o.1 = s) with
    | some o => leBytes ((encodeIn s o.2).getD 0) (2 * s.parcels)
    | none => []

/-- Where a transfer goes: a call to a function, a loop to the last bundle of its label, another transfer to the first. -/
def ZBody.target (f : ZBody) (all : List ZBody) (j : ZJump) (lbl : Text) : Option Nat :=
  let label := (f.labels.find? fun x => decide (x.1 = lbl)).map (·.2)
  match j with
  | .brl => (all.find? fun g => decide (g.name = lbl)).map (·.start)
  | .loop .. | .loopi .. => label.map (·.2)
  | _ => label.map (·.1)

/-- A bundle with its transfer resolved; a name that is nothing's is load error 6, a displacement that no field holds 5. -/
def ZPlaced.bytes (p : ZPlaced) (f : ZBody) (all : List ZBody) : Except Nat (List Byte) :=
  match p.b.jump with
  | none => .ok (bundleBytes p.wt p.b.stop p.b.ops)
  | some (j, lbl) => match f.target all j lbl with
    | none => .error 6
    | some t => match j.instr (((t : Int) - p.off) / 2) with
      | none => .error 5
      | some i => .ok (bundleBytes p.wt p.b.stop (p.b.ops ++ [(.s0, i)]))

def ZBody.bytes (f : ZBody) (all : List ZBody) : Except Nat (List Byte) :=
  f.bundles.foldlM (fun l p => (p.bytes f all).map (l ++ ·)) []

/-- Each body begins at the next multiple of 64 bytes that leaves room for its prefetch block (R116). -/
def layBodies (off : Nat) : List (Text × List ZCode × Nat) → List ZBody
  | [] => []
  | (name, code, priv) :: rest =>
    let f := layBody name ((off + 32 + 63) / 64 * 64) priv code
    f :: layBodies (f.start + f.size) rest

/-- Translate the ZTC section: each function record names the text of one function (R20), which is translated under the budgets given for
it. The answer is the native text with the offset, the size and the PRIV of each body. -/
def ztcTranslate (text : Text) (records : List (Nat × Nat)) (buds : List (Nat × Nat × Nat)) :
    Except Nat (List Byte × List (Nat × Nat × Nat)) := do
  let all ← zParse text
  let fs ← records.mapM fun r => match zParse ((text.drop r.1).take r.2) with
    | .ok [f] => .ok f
    | .ok _ => .error 6
    | .error n => .error n
  let sigs := all.map ZFunc.sig
  let codes ← (fs.zip buds).mapM fun x => (x.1.code sigs x.2).map fun c => (x.1.name, c.1, c.2)
  let bodies := layBodies 0 codes
  let bytes ← bodies.mapM fun f => (f.bytes bodies).map (f, ·)
  let text := bytes.foldl (fun t x => t ++ List.replicate (x.1.start - t.length) 0 ++ x.2) []
  pure (text, bodies.map fun f => (f.start, f.size, f.priv))

end Sys2Proof.Machine
end

