-- ==== Sys2Proof/Machine/Loader.lean ====
section
/-! DEFINITION. The command processor's reads and writes under an ASID, and the loader of code objects
(R16 to R24, R29, R86, R116, R413). -/
namespace Sys2Proof.Machine

/-! ### Reads and writes under an ASID (R73, R413) -/

/-- Translate a range for an event of the command processor or of retirement; `none` while it waits for a page request. -/
def State.devPages (s : State) (ev : Event) (right : Right) (die asid : Nat) (va : Word) (n : Nat) : Work (List Piece) :=
  if !canonical va then (.error (some { nonCanonical 5 with badaddr := some va }), s)
  else match s.paged ⟨ev, right, none⟩ die asid (va56 va) n 5 with
    | (.ok l, s) => (.ok l, s)
    | (.wait, s) => (.error none, s)
    | (.fault e, s) => (.error (some e), s.forget ev)

def State.devRead (s : State) (ev : Event) (die asid : Nat) (va : Word) (n : Nat) : Work (List Byte) :=
  match s.devPages ev .r die asid va n with
  | (.error e, s) => (.error e, s)
  | (.ok l, s) =>
    let (b, err, s) := s.readPieces die asid l
    if err.isSome then (.error (some (dataError 5)), s) else (.ok b, s)

/-- Change the bytes of a range at one instant: a write, and an atomic add, are made so. -/
def State.devUpdate (s : State) (ev : Event) (die asid : Nat) (va : Word) (n : Nat) (f : List Byte → List Byte) : Work PUnit :=
  match s.devPages ev .w die asid va n with
  | (.error e, s) => (.error e, s)
  | (.ok l, s) =>
    let (b, err, s) := s.readPieces die asid l
    if err.isSome then (.error (some (dataError 5)), s)
    else
      let (err, s) := s.writePieces die asid l (f b)
      if err.isSome then (.error (some (dataError 5)), s) else (.ok ⟨⟩, s)

def State.devWrite (s : State) (ev : Event) (die asid : Nat) (va : Word) (b : List Byte) : Work PUnit :=
  match s.devPages ev .w die asid va b.length with
  | (.error e, s) => (.error e, s)
  | (.ok l, s) =>
    let (err, s) := s.writePieces die asid l b
    if err.isSome then (.error (some (dataError 5)), s) else (.ok ⟨⟩, s)

/-! ### The container (R16 to R18) -/

structure Section_ where
  type : Nat
  rev : Nat
  align : Nat
  off : Nat
  size : Nat
deriving DecidableEq, Repr

def sectionOf (b : List Byte) : Section_ :=
  ⟨leNat (b.take 2), leNat ((b.drop 2).take 1), leNat ((b.drop 4).take 1), leNat ((b.drop 8).take 8), leNat ((b.drop 16).take 8)⟩

/-- Chunks of a byte string. -/
def chunksOf (b : List Byte) (size n : Nat) : List (List Byte) := (List.range n).map fun i => (b.drop (size * i)).take size

structure ObjHeader where
  nsect : Nat
  nfunc : Nat
  entry : Nat
  sectab : Nat
deriving DecidableEq, Repr

/-- The header, or the load error. An NSECT of 0 or above 256 has no code of its own in R18 or R24: 2 (DESIGN CHOICE, log entry 46). -/
def objHeader (b : List Byte) : Except Nat ObjHeader :=
  let h : ObjHeader := ⟨leNat ((b.drop 6).take 2), leNat ((b.drop 8).take 4), leNat ((b.drop 12).take 4), leNat ((b.drop 16).take 8)⟩
  if b.take 4 ≠ [0x42, 0x58, 0x43, 0x4F] ∨ leNat ((b.drop 4).take 2) ≠ 1 then .error 1
  else if leNat ((b.drop 24).take 8) ≠ 0 ∨ h.nsect = 0 ∨ 256 < h.nsect then .error 2
  else .ok h

def typeKnown (t : Nat) : Bool := (decide (1 ≤ t) && decide (t ≤ 8)) || decide (0x8000 ≤ t)

/-- The section table, or the load error (R18). A native text whose ALIGN is below the 6 of its 64 bytes is taken, and a section of
SIZE 0 strictly inside another overlaps it (R17 and R18 do not say; DESIGN CHOICE, log entry 46). -/
def sectionTable (h : ObjHeader) (b : List Byte) : Except Nat (List Section_) :=
  let raw := chunksOf b 24 h.nsect
  let l := raw.map sectionOf
  let alone := fun (x : Section_) => typeKnown x.type && decide (1 ≤ x.align) && decide (x.align ≤ 12) && decide (x.off % 2 ^ x.align = 0)
  let apart := l.zipIdx.all fun x => l.zipIdx.all fun y => decide (x.2 = y.2) || !overlaps x.1.off x.1.size y.1.off y.1.size
  if !(l.all alone) || !apart || !(raw.all fun r => decide (leNat ((r.drop 5).take 3) = 0)) then .error 2
  else if h.nfunc = 0 ∨ 4095 < h.nfunc ∨ h.nfunc ≤ h.entry then .error 10
  else .ok l

/-! ### Selection (R19, R20, R23) -/

/-- The revision of this device (R18). -/
def deviceRevision : Nat := 1

/-- The native text with the greatest revision that this device runs, and its index; of two of one revision the first in the table, as
for every section that is looked up (R19 does not say; DESIGN CHOICE, log entry 46). -/
def nativeText (l : List Section_) : Option (Nat × Section_) :=
  (l.zipIdx.filter fun x => decide (x.1.type = 2) && decide (x.1.rev ≤ deviceRevision)).foldl (fun best x =>
    match best with
    | some y => if y.2.rev < x.1.rev then some (x.2, x.1) else best
    | none => some (x.2, x.1)) none

/-- The ZTC text, and its index. -/
def ztcText (l : List Section_) : Option (Nat × Section_) := (l.zipIdx.find? fun x => decide (x.1.type = 1)).map fun x => (x.2, x.1)

def sectionWith (l : List Section_) (type rev : Nat) : Option (Nat × Section_) :=
  (l.zipIdx.find? fun x => decide (x.1.type = type) && decide (x.1.rev = rev)).map fun x => (x.2, x.1)

/-- The constant data of a selection: of the native revision, else of revision 0. -/
def constData (l : List Section_) (rev : Nat) : Option (Nat × Section_) :=
  match sectionWith l 3 rev with
  | some x => some x
  | none => sectionWith l 3 0

structure FnRec where
  code : Nat
  size : Nat
  priv : Nat
  sbud : Nat
  vbud : Nat
  pbud : Nat
  fflags : Nat
  yrun : Nat
  succ : Word
deriving DecidableEq, Repr

def fnRec (b : List Byte) : FnRec :=
  let n := fun o k => leNat ((b.drop o).take k)
  ⟨n 4 4, n 8 4, n 12 4, n 16 1, n 17 1, n 18 1, n 19 1, n 20 4, wordAt b 24⟩

def budgetsOk (sbud vbud pbud : Nat) : Bool :=
  decide (4 ≤ sbud) && decide (sbud ≤ 28) && decide (4 ≤ vbud) && decide (vbud ≤ 32) && decide (2 ≤ pbud) && decide (pbud ≤ 15)

/-- The launch budgets of a node: 0 for the record's own. -/
structure Budgets where
  s : Nat
  v : Nat
  p : Nat
deriving DecidableEq, Repr

/-- The budgets that the translation of a function respects: its record's, or the launch's where that is smaller (R21). -/
def Budgets.given (x : Budgets) (f : FnRec) : Nat × Nat × Nat :=
  let least := fun (b r : Nat) => if b = 0 then r else min b r
  (least x.s f.sbud, least x.v f.vbud, least x.p f.pbud)

def Budgets.ok (x : Budgets) : Bool :=
  budgetsOk (if x.s = 0 then 4 else x.s) (if x.v = 0 then 4 else x.v) (if x.p = 0 then 2 else x.p)

/-- The checks of the function records: budgets (4), then fields and bodies (2). R20 gives no code for a PRIV that is no multiple of 256,
a body outside its text or an odd CODE: 2 (DESIGN CHOICE, log entry 46). -/
def checkFns (l : List FnRec) (native : Bool) (textSize : Nat) (bud : Budgets) : Option Nat :=
  let under := fun (b r : Nat) => decide (b ≠ 0) && decide (b < r)
  let bodies := l.map fun f => (f.code, f.size)
  let block := fun (f : FnRec) => decide (32 ≤ f.code) && bodies.all fun b => !overlaps (f.code - 32) 32 b.1 b.2
  if !bud.ok || !(l.all fun f => budgetsOk f.sbud f.vbud f.pbud) then some 4
  else if native && l.any (fun f => under bud.s f.sbud || under bud.v f.vbud || under bud.p f.pbud) then some 4
  else if !(l.all fun f => decide (f.priv % 256 = 0) && decide (f.fflags < 4)) then some 2
  else if native && !(l.all fun f => decide (f.code % 2 = 0) && decide (f.code + f.size ≤ textSize) && block f) then some 2
  else none

/-! ### Relocations (R22) -/

structure Reloc where
  place : Nat
  sect : Nat
  kind : Nat
  chunk : Nat
  sym : Nat
deriving DecidableEq, Repr

def relocOf (b : List Byte) : Reloc :=
  let n := fun o k => leNat ((b.drop o).take k)
  ⟨n 0 8, n 8 2, n 10 1, n 11 1, n 12 4⟩

/-- Bits of the field that a kind patches, counted from its place. -/
def relocBits (k : Nat) : Option Nat := match k with
  | 1 => some 64 | 2 => some 21 | 3 => some 16 | 4 => some 11 | 5 => some 14 | 6 => some 20 | _ => none

/-- Offset of the bundle that holds a byte of a body which starts at `p`; `fuel` is at least the number of bundles. -/
def bundleFrom (text : List Byte) (place : Nat) : Nat → Nat → Option Nat
  | 0, _ => none
  | fuel + 1, p =>
    let h := (text.drop p).take 2
    if h.length < 2 then none
    else
      let next := p + 2 * (decodeHeader (BitVec.ofNat 16 (leNat h))).len
      if p ≤ place ∧ place < next then some p else bundleFrom text place fuel next

def bundleOf (text : List Byte) (fns : List FnRec) (place : Nat) : Option Nat :=
  fns.findSome? fun f => if f.code ≤ place ∧ place < f.code + f.size then bundleFrom text place (f.size / 2 + 1) f.code else none

def fitsSigned (bits : Nat) (v : Int) : Bool := decide (-(2 ^ (bits - 1) : Nat) ≤ v) && decide (v < (2 ^ (bits - 1) : Nat))

/-- Put bits into a little-endian byte string. -/
def putBits (b : List Byte) (place bits v : Nat) : List Byte :=
  let n := (bits + 7) / 8
  let old := leNat ((b.drop place).take n)
  setBytes b place (leBytes (old / 2 ^ bits * 2 ^ bits + v % 2 ^ bits) n)

/-- What the loader patches: the two parts of the image and where they lie. -/
structure Image where
  text : List Byte
  const : List Byte
  textVa : Word
  constVa : Word
  gp : Word
  entries : List Word
deriving DecidableEq, Repr

/-- The value of a symbol; none when it names no function or no constant byte. -/
def Image.symbol (m : Image) (sym : Nat) : Option Word :=
  if sym < 4096 then m.entries[sym]?
  else if sym - 4096 < m.const.length then some (m.constVa + BitVec.ofNat 64 (sym - 4096)) else none

/-- Apply one relocation of the selected text (`inText`) or of the constant data; none when it is refused. R22 gives no code for a
symbol that names nothing, an unknown KIND, a place past its section or outside every body, or an odd displacement: they are refused as
a value out of range is, with 5 (DESIGN CHOICE, log entry 46). -/
def Image.relocate (m : Image) (fns : List FnRec) (inText : Bool) (r : Reloc) : Option Image :=
  let b := if inText then m.text else m.const
  let put := fun bits v => if inText then { m with text := putBits m.text r.place bits v } else { m with const := putBits m.const r.place bits v }
  match relocBits r.kind, m.symbol r.sym with
  | some bits, some v =>
    if b.length < r.place + (if r.kind = 1 then 8 else 4) ∨ (r.kind ≠ 6 ∧ r.chunk ≠ 0) ∨ 2 < r.chunk then none
    else match r.kind with
      | 1 => some (put 64 v.toNat)
      | 6 => some (put 20 (v.toNat / 2 ^ (20 * r.chunk)))
      | 5 =>
        let d := (v - m.gp).toInt
        if fitsSigned 14 d then some (put 14 (BitVec.ofInt 64 d).toNat) else none
      | _ => match bundleOf m.text fns r.place with
        | some p =>
          let d := (v - (m.textVa + BitVec.ofNat 64 p)).toInt
          if inText && decide (d % 2 = 0) && fitsSigned bits (d / 2) then some (put bits (BitVec.ofInt 64 (d / 2)).toNat) else none
        | none => none
  | _, _ => none

/-- Apply relocations in table order. Those of sections that are not loaded change nothing and are not checked beyond their SECT (R22 does
not say; DESIGN CHOICE, log entry 46). -/
def Image.relocateAll (m : Image) (fns : List FnRec) (text const : Option Nat) (nsect : Nat) (l : List Reloc) : Except Nat Image :=
  let used := l.filter fun r => decide (some r.sect = text) || decide (some r.sect = const)
  let place := fun (r : Reloc) => (r.sect, 8 * r.place, (relocBits r.kind).getD 64)
  let clash := used.zipIdx.any fun x => used.zipIdx.any fun y => decide (x.2 < y.2) && decide (x.1.sect = y.1.sect)
    && overlaps (place x.1).2.1 (place x.1).2.2 (place y.1).2.1 (place y.1).2.2
  if clash || l.any (fun r => decide (nsect ≤ r.sect)) then .error 5
  else used.foldl (fun acc r => match acc with
    | .ok m => match m.relocate fns (decide (some r.sect = text)) r with
      | some m => .ok m
      | none => .error 5
    | e => e) (.ok m)

/-! ### Prefetch blocks (R21, R116) -/

/-- Entry `i` of a successor list: weight and function index; none when it is empty. -/
def successor (succ : Word) (i : Nat) : Option (Nat × Nat) :=
  let e := field succ (16 * i) 16
  if e % 4096 = 4095 then none else some (e / 4096, e % 4096)

/-- The prefetch block of a body. A successor index that is not below NFUNC and not 4,095 makes an empty entry (R21 does not say; DESIGN
CHOICE, log entry 46). -/
def prefetchBlock (entries : List Word) (succ : Word) : List Byte :=
  (List.range 4).flatMap fun i => match successor succ i with
    | some (w, k) => match entries[k]? with
      | some a => le64 (w * 2 ^ 60 + 0xA * 2 ^ 56 + va56 a)
      | none => le64 0
    | none => le64 0

def Image.withBlocks (m : Image) (fns : List FnRec) : Image :=
  { m with text := fns.foldl (fun t f => setBytes t (f.code - 32) (prefetchBlock m.entries f.succ)) m.text }

/-! ### Loading -/

/-- A load that waits for a page request, or is refused with a code. -/
inductive LoadStop where
  | wait
  | code (n : Nat)
deriving DecidableEq, Repr

abbrev Loading (α : Type) := Except LoadStop α × State

/-- Read bytes of the object: a failure is load error 11. -/
def State.objRead (s : State) (ev : Event) (die asid : Nat) (va : Word) (off n : Nat) : Loading (List Byte) :=
  match s.devRead ev die asid (va + BitVec.ofNat 64 off) n with
  | (.ok b, s) => (.ok b, s)
  | (.error none, s) => (.error .wait, s)
  | (.error (some _), s) => (.error (.code 11), s)

/-- Read sections, one after the other. -/
def State.objSections (s : State) (ev : Event) (die asid : Nat) (va : Word) : List Section_ → Loading (List (List Byte))
  | [] => (.ok [], s)
  | x :: rest => match s.objRead ev die asid va x.off x.size with
    | (.ok b, s) => match s.objSections ev die asid va rest with
      | (.ok l, s) => (.ok (b :: l), s)
      | e => e
    | (.error e, s) => (.error e, s)

/-- The native body of a selection: its text, and the functions with their places and PRIV. A ZTC text is translated (R19, R29). -/
def bodyOf (native : Bool) (text : List Byte) (fns : List FnRec) (bud : Budgets) : Except Nat (List Byte × List FnRec) :=
  if native then .ok (text, fns)
  else (ztcTranslate text (fns.map fun f => (f.code, f.size)) (fns.map bud.given)).map fun (t, places) =>
    (t, fns.zipWith (fun f x => { f with code := x.1, size := x.2.1, priv := x.2.2 }) places)

/-- Place the parts of an image from a base address: the text at its 4 KiB page, the constants at the next page boundary (R23 does not
say where; DESIGN CHOICE, log entry 46). Without a constant-data section for the selection gp is the address of the text (R23). -/
def placeImage (base : Word) (text : List Byte) (const : Option (List Byte)) (fns : List FnRec) : Image :=
  let textVa := base &&& ~~~4095#64
  let constVa := textVa + BitVec.ofNat 64 ((text.length + 4095) / 4096 * 4096)
  { text, const := const.getD [], textVa, constVa, gp := if const.isNone then textVa else constVa + 8192#64,
    entries := fns.map fun f => textVa + BitVec.ofNat 64 f.code }

/-- The functions of a placed image. -/
def fnInfos (m : Image) (fns : List FnRec) : List FnInfo :=
  fns.zipIdx.map fun f =>
    ⟨m.entries.getD f.2 0, f.1.priv, f.1.sbud, f.1.vbud, f.1.pbud, f.1.fflags, f.1.yrun, f.1.succ⟩

/-- A checked object that is ready to be written: its image, its functions and the entry function. -/
structure Prepared where
  image : Image
  fns : List FnRec
  entry : Nat
deriving DecidableEq, Repr

def Prepared.loaded (p : Prepared) : Loaded :=
  ⟨p.image.gp, va56 p.image.textVa, p.image.text.length, fnInfos p.image p.fns, p.entry⟩

/-- Pieces that a part of an image is written to; none are needed for an empty part. -/
def State.imagePages (s : State) (ev : Event) (die asid : Nat) (va : Word) (b : List Byte) : Work (List Piece) :=
  if b.isEmpty then (.ok [], s) else s.devPages ev .r die asid va b.length

/-- Write the image where the cores fetch from: the command processor asks only that the pages can be read. When a part cannot be
written, nothing is (R24). -/
def State.writeImage (s : State) (ev : Event) (die asid : Nat) (p : Prepared) : Loading Loaded :=
  let m := p.image
  match s.imagePages ev die asid m.textVa m.text with
  | (.error none, s) => (.error .wait, s)
  | (.error (some _), s) => (.error (.code 11), s)
  | (.ok lt, s) => match s.imagePages ev die asid m.constVa m.const with
    | (.error none, s) => (.error .wait, s)
    | (.error (some _), s) => (.error (.code 11), s)
    | (.ok lc, s) =>
      let (e, t) := s.writePieces die asid lt m.text
      let (f, u) := t.writePieces die asid lc m.const
      if e.isSome || f.isSome then (.error (.code 11), s) else (.ok p.loaded, { u with loads := u.loads + 1 })

/-- Select, translate or take, and relocate the body of a checked object. R18 and R24 do not say which code is reported of several: in this
order, sections (2), NFUNC and ENTRY (10), the body (3), the size of the records (2), bytes that cannot be read (11), budgets (4), fields
and bodies (2), the ZTC text, relocations (5); a body without records of its REV is no usable body, and records longer than NFUNC are
taken (DESIGN CHOICE, log entry 46). -/
def State.loadBody (s : State) (ev : Event) (die asid : Nat) (va : Word) (bud : Budgets) (h : ObjHeader) (l : List Section_) :
    Loading Prepared :=
  let nat := nativeText l
  let body : Option (Nat × Section_) := match nat with
    | some x => some x
    | none => ztcText l
  let rev : Nat := match nat with
    | some x => x.2.rev
    | none => 0
  match body, sectionWith l 5 rev with
  | some (it, text), some (_, fsec) =>
    let const : Option (Nat × Section_) := constData l rev
    let rels : List Section_ := l.filter fun x => decide (x.type = 4) && (decide (x.rev = rev) || decide (x.rev = 0))
    if fsec.size < 32 * h.nfunc then (.error (.code 2), s)
    else match s.objSections ev die asid va ([text, fsec] ++ (const.map (·.2)).toList ++ rels) with
      | (.error e, s) => (.error e, s)
      | (.ok bs, s) =>
        let textB := bs.getD 0 []
        let fns := (chunksOf (bs.getD 1 []) 32 h.nfunc).map fnRec
        let constB := if const.isSome then some (bs.getD 2 []) else none
        let relB := (bs.drop (if const.isSome then 3 else 2)).flatMap fun b => (chunksOf b 16 (b.length / 16)).map relocOf
        match checkFns fns nat.isSome textB.length bud with
        | some n => (.error (.code n), s)
        | none => match bodyOf nat.isSome textB fns bud with
          | .error n => (.error (.code n), s)
          | .ok (t, fns) =>
            let m : Image := placeImage (Config.loadAddress s.loads) t constB fns
            match m.relocateAll fns (if nat.isSome then some it else none) (const.map (·.1)) h.nsect relB with
            | .error n => (.error (.code n), s)
            | .ok m => (.ok ⟨m.withBlocks fns, fns, h.entry⟩, s)
  | _, _ => (.error (.code 3), s)

/-- Read and check the code object at an address; it is written only once nothing refuses it any more (R18 to R24). -/
def State.loadObject (s : State) (ev : Event) (die asid : Nat) (va : Word) (bud : Budgets) : Loading Prepared :=
  match s.objRead ev die asid va 0 32 with
  | (.error e, s) => (.error e, s)
  | (.ok b, s) => match objHeader b with
    | .error n => (.error (.code n), s)
    | .ok h => match s.objRead ev die asid va h.sectab (24 * h.nsect) with
      | (.error e, s) => (.error e, s)
      | (.ok t, s) => match sectionTable h t with
        | .error n => (.error (.code n), s)
        | .ok l => s.loadBody ev die asid va bud h l

end Sys2Proof.Machine
end

