-- ==== Sys2Proof/Machine/Levels.lean ====
section
/-! DEFINITION. Counter records, the ends of launches, graphs, phases and jobs, and cancels (R77, R78, R83, R94, R402, R413). -/
namespace Sys2Proof.Machine

def State.onJob (s : State) (j : Nat) (f : Job → Job) : State := { s with jobs := alter s.jobs j f }

def Launch.isEnded (x : Launch) : Bool := match x.phase with
  | .ended _ => true
  | _ => false
/-- Whether a launch holds the contexts that its record names (R101). -/
def Launch.holds (x : Launch) : Bool := match x.phase with
  | .reserved => true
  | .preparing .. => true
  | .placed => true
  | _ => false
def Launch.isPlaced (x : Launch) : Bool := decide (x.phase = .placed)

/-! ### Counter records (R78) -/

/-- DETAIL, LOADERR and CAUSE. -/
def Ending.word (e : Ending) : Nat := e.cause % 2 ^ 16 + 2 ^ 16 * (e.loaderr % 256) + 2 ^ 24 * (e.detail % 256)
def doneEnding : Ending := ⟨2, 0, 0, 0⟩

/-- A level begins: STATE 1 and DONE 0; COUNT stays. -/
def State.counterBegin (s : State) (ev : Event) (die asid : Nat) (va : Word) : Work PUnit :=
  s.devWrite ev die asid (va + 8) (le64 1 ++ le64 0)

def State.counterDone (s : State) (ev : Event) (die asid : Nat) (va : Word) (n : Nat) : Work PUnit :=
  s.devWrite ev die asid (va + 16) (le64 n)

/-- The bytes of a record after its final write: COUNT rises by `inc`; DONE is set where it is given. -/
def counterFinal (e : Ending) (inc : Nat) (done : Option Nat) (b : List Byte) : List Byte :=
  le64 (leNat (b.take 8) + inc) ++ le64 e.st ++ le64 (done.getD (leNat ((b.drop 16).take 8))) ++ le64 e.word

def State.counterEnd (s : State) (ev : Event) (die asid : Nat) (va : Word) (inc : Nat) (done : Option Nat) (e : Ending) : Work PUnit :=
  s.devUpdate ev die asid va 32 (counterFinal e inc done)

/-- Remember a level that has ended, for STATUS 4 of a later CANCEL (R80). -/
def State.noteEnded (s : State) (asid : Nat) (l : Level) (va : Word) : State :=
  if s.ended.contains (asid, l, va) then s else { s with ended := s.ended ++ [(asid, l, va)] }
/-- A counter that a level begins on is running again. -/
def State.noteBegun (s : State) (asid : Nat) (l : Level) (va : Word) : State := { s with ended := s.ended.erase (asid, l, va) }

/-! ### Faulted graphs and cancels (R83, R94) -/

/-- Everything the current graph began is cancelled. A copy runs to its end first. -/
def State.cancelWork (s : State) (j cause : Nat) : State :=
  match find s.jobs j with
  | none => s
  | some x =>
    (x.launches.foldl (fun s l => s.endLaunch l 3 cause) s).onJob j fun x => { x with copies := x.copies.map fun c =>
      if c.2.done || c.2.ending.isSome then c else (c.1, { c.2 with ending := some (3, cause) }) }

/-- The walker begins no further node: it waits for what the graph began, and ends what is to end. -/
def Job.wind (x : Job) : Job :=
  match x.walking with
  | .armed => x
  | .ended => x
  | .winding => x
  | .closing .. => x
  | _ => { x with walking := .winding, paged := false }

/-- Decide how levels end; what decided one first stands. -/
def Job.ending (x : Job) (g p j : Option Ending) : Job :=
  { x with endGraph := x.endGraph.or g, endPhase := x.endPhase.or p, endJob := x.endJob.or j }

/-- The current graph is faulted, and the walker cancels the job with the same cause. -/
def State.faultGraph (s : State) (j : Nat) (e : Ending) : State :=
  (s.onJob j fun x => x.wind.ending (some e) (some ⟨3, e.cause, 0, 0⟩) (some { e with st := 3 })).cancelWork j e.cause

/-- A write that the device could not make faults the graph that contains it (R413). -/
def State.recordFailed (s : State) (j : Nat) : State := s.faultGraph j ⟨4, graphRecord.code, 0, 0⟩

def State.cancelGraph (s : State) (j cause : Nat) : State :=
  (s.onJob j fun x => x.wind.ending (some ⟨3, cause, 0, 0⟩) none none).cancelWork j cause
def State.cancelPhase (s : State) (j cause : Nat) : State :=
  (s.onJob j fun x => x.wind.ending (some ⟨3, cause, 0, 0⟩) (some ⟨3, cause, 0, 0⟩) none).cancelWork j cause
def State.cancelJob (s : State) (j cause : Nat) : State :=
  (s.onJob j fun x => x.wind.ending (some ⟨3, cause, 0, 0⟩) (some ⟨3, cause, 0, 0⟩) (some ⟨3, cause, 0, 0⟩)).cancelWork j cause

/-! ### Ends of launches (R77, R88, R402) -/

/-- How the end of a launch or copy ends its graph: faulted and refused ones fault it (R83). -/
def Ending.faults (e : Ending) : Option Ending :=
  if e.st = 4 then some ⟨4, e.cause, 0, 0⟩
  else if e.st = 5 then some ⟨4, launchRefused.code, e.detail, e.loaderr⟩
  else none

/-- A launch has ended: its reservations, barriers and histograms end with it. -/
def State.finishLaunch (s : State) (l : Nat) (e : Ending) : State :=
  match find s.launches l with
  | none => s
  | some x =>
    let s := match x.freeze with
      | some f => s.endFreeze l f
      | none => s
    let s := ((s.reuseEnd l).onLaunch l fun x => { x with phase := .ended e.st, barriers := [] }).noteEnded x.asid .launch x.counter
    match e.faults with
    | some g => s.faultGraph x.job g
    | none => s

/-- How a launch whose weight is all returned ends. -/
def Launch.end_ (x : Launch) : Ending := match x.ending with
  | some (st, c) => ⟨st, c, 0, 0⟩
  | none => doneEnding

/-- The launch counter after a unit's weight returns; the last return makes the final write too. -/
def weightUpdate (w : Nat) (last : Bool) (e : Ending) (b : List Byte) : List Byte :=
  let done := leNat ((b.drop 16).take 8) + 1
  if last then counterFinal e w (some done) b
  else le64 (leNat (b.take 8) + w) ++ (b.drop 8).take 8 ++ le64 done ++ (b.drop 24).take 8

/-- Return weight to a launch; false while the write waits for a page. The weight returned so far stands for COUNT less its
value at the start (R402). -/
def State.returnWeight (s : State) (ev : Event) (die l w : Nat) : Bool × State :=
  match find s.launches l with
  | none => (true, s)
  | some x =>
    let total := x.returned + w
    let last := decide (total = 2 ^ 63)
    match s.devUpdate ev die x.asid x.counter 32 (weightUpdate w last x.end_) with
    | (.error none, s) => (false, s)
    | (r, s) =>
      let s := (s.forget ev).onLaunch l fun x => { x with returned := total }
      let s := if last then s.finishLaunch l x.end_ else s
      (true, match r with
        | .ok _ => s
        | .error _ => s.recordFailed x.job)

end Sys2Proof.Machine
end

