-- ==== Sys2Proof/Machine/Arbiter.lean ====
section
/-! DEFINITION. Run queues, the yield arbiter, residency, save and restore, and the power states of a bank
(R102, R103, R107 to R109, R154, R202, R255, R375 to R384, R404). -/
namespace Sys2Proof.Machine

/-! ### Run queues (R107) -/

/-- The head of a run queue of a core. -/
def State.headOf (s : State) (c r : Nat) : Option (Nat × Unit) :=
  (s.units.filter fun x => decide (x.2.core = c) && decide (x.2.rank = r) && x.2.queued.isSome).foldl (fun m x =>
    match m with
    | none => some x
    | some y => if x.2.queued.getD 0 < y.2.queued.getD 0 then some x else m) none

/-- The heads of the queues that are not empty, rank 0 first. -/
def State.heads (s : State) (c : Nat) : List (Nat × Unit) := (List.range 8).filterMap fun r => s.headOf c r

/-- A unit moves to the tail of a queue, with pass count 0. -/
def State.toTail (s : State) (u rank : Nat) : State :=
  ({ s with nextKey := s.nextKey + 1 }).onUnit u fun x => { x with rank, passes := 0, queued := some s.nextKey }

/-- A unit enters the run queues at the tail of a rank. -/
def State.enterQueue (s : State) (u rank : Nat) : State := (s.toTail u rank).onUnit u fun x => { x with queuedAt := s.now }

/-- The queues as a decision sees them: what enters in the decision's cycle joins after it. -/
def State.settled (s : State) : State :=
  { s with units := s.units.map fun x => if x.2.queuedAt = s.now then (x.1, { x.2 with queued := none }) else x }

/-- Whether the launch holds a context. -/
def Launch.reserves (l : Launch) (c k : Nat) : Bool :=
  l.holds && l.record.any fun (r : PRecord) => r.units.any fun e => decide (e.core = c) && decide (e.ctx = k)

/-- Whether a context may take a unit that waits: its launch holds the context, and an initial unit that has not yet run is first
made resident in its entry's context (R99, R108). -/
def State.mayTake (s : State) (c k : Nat) (x : Nat × Unit) : Bool :=
  match find s.launches x.2.launch with
  | some l => decide (x.2.core = c) && x.2.queued.isSome && decide (x.2.life = .live) && l.ending.isNone && l.isPlaced
      && l.reserves c k && (x.2.started || decide (l.n < x.2.number) || decide (x.2.ctx = k))
  | none => false

/-- The first head in rank order that a context may take. -/
def State.firstHead (s : State) (c k : Nat) : Option Nat := ((s.heads c).find? fun x => s.mayTake c k x).map (·.1)

/-- Age the heads that a decision passes over (R108). -/
def State.age (s : State) (l : List Nat) : State :=
  l.foldl (fun s u =>
    let s := s.onUnit u fun x => { x with passes := x.passes + 1 }
    match s.unit u with
    | some x => if x.passes = 8 ∧ 0 < x.rank then s.toTail u (x.rank - 1) else s
    | none => s) s

def State.ageOthers (s : State) (c : Nat) (pick : Option Nat) : State :=
  s.age (((s.settled.heads c).map (·.1)).filter fun u => decide (some u ≠ pick))

/-- A declared run of 0 counts as SLICE. -/
def runOf (declared slice : Nat) : Nat := if declared = 0 then slice else declared
def Ctx.slice (x : Ctx) : Nat := x.csr.slice.toNat

/-! ### The decision at a YIELD (R108, R202, R376) -/

def State.switchable (s : State) : Bool := s.regs.savebase.getLsbD 0

/-- The candidates: heads that the context may take, and the resident unit at the tail of its rank, with their declared runs. -/
def State.candidates (s : State) (c k cur n : Nat) : List (Nat × Nat) :=
  let r := ((s.unit cur).map (·.rank)).getD 0
  let hs := (s.settled.heads c).filter fun x => s.settled.mayTake c k x
  let slice := (s.ctx c k).slice
  let of := fun (l : List (Nat × Unit)) => l.map fun x => (x.1, runOf x.2.declared slice)
  of (hs.filter fun x => decide (x.2.rank ≤ r)) ++ [(cur, runOf n slice)] ++ of (hs.filter fun x => decide (r < x.2.rank))

/-- The decision of a YIELD, at the end of its issuing cycle. -/
def State.decide_ (s : State) (c k cur n : Nat) : State :=
  let cands := s.candidates c k cur n
  let x := s.ctx c k
  let (pick, s) := match cands.find? fun y => decide (y.2 ≤ x.sliceLeft) with
    | some y => (y.1, s)
    | none => ((cands.headD (cur, 0)).1, s.onCtx c k fun x => { x with sliceLeft := x.slice })
  let s := s.ageOthers c (some pick)
  if pick = cur || !s.switchable then s
  else s.onCtx c k fun x => { x with switch := some (s.now, some pick), switchYield := true }

/-- A YIELD of this core cycle: the declared run, the measurement and, when no switch is pending, the decision. -/
def State.afterYield (s : State) (c k : Nat) : State :=
  let x := s.ctx c k
  match x.yielded, x.unit with
  | some n, some u =>
    let s := s.onCtx c k fun x => { x with yielded := none, declared := some n, yieldAt := s.now + 1, overrunSeen := false }
    if x.switch.isSome then s else s.decide_ c k u n
  | _, _ => s

/-! ### Slice expiry and yield overrun (R375) -/

/-- The arbiter picks the first head with no fit test. -/
def State.pickHead (s : State) (c k : Nat) (expiry : Bool) : State :=
  match s.settled.firstHead c k with
  | some u =>
    if s.switchable then
      (s.ageOthers c (some u)).onCtx c k fun x => { x with switch := some (s.now, some u), switchYield := false, expired := x.expired || expiry }
    else if expiry then s.onCtx c k fun x => { x with sliceLeft := x.slice } else s
  | none => if expiry then s.onCtx c k fun x => { x with sliceLeft := x.slice } else s

def State.sliceDue (s : State) (c k : Nat) : Bool :=
  let x := s.ctx c k
  x.unit.isSome && decide (x.sliceLeft = 0) && !x.expired && (x.switch.isNone || s.isStatic c k)

/-- SLICE_EXPIRY: a static context only reloads its slice (R376). -/
def execSliceExpiry (c k : Nat) (s : State) : Res :=
  .next (if !s.sliceDue c k then s
    else if s.isStatic c k then s.onCtx c k fun x => { x with sliceLeft := x.slice }
    else s.pickHead c k true)

/-- Core cycles that the unit has run since its last YIELD. -/
def Ctx.ran (x : Ctx) (now : Nat) : Nat := now - x.yieldAt
def Ctx.overrunLimit (x : Ctx) : Nat := runOf (x.declared.getD 0) x.slice + x.csr.ytol.toNat

def State.overrunDue (s : State) (c k : Nat) : Bool :=
  let x := s.ctx c k
  x.unit.isSome && !x.overrunSeen && decide (x.overrunLimit < x.ran s.now)

/-- YIELD_OVERRUN: the event is written whether or not a switch follows. -/
def execYieldOverrun (c k : Nat) (s : State) : Res :=
  .next (if !s.overrunDue c k then s
    else
      let x := s.ctx c k
      let s := s.eventRecord c k (s.unitIdAt c k) 2 (x.ran s.now - x.overrunLimit)
      let s := s.onCtx c k fun x => { x with overrunSeen := true }
      if x.switch.isSome || s.isStatic c k then s else s.pickHead c k false)

/-! ### Residency (R102, R103, R384) -/

/-- Loads of a unit's first residence: the registers of R103; its numbers and queues start anew. -/
def Ctx.begin_ (x : Ctx) (y : Unit) (r : PRecord) (dpmax : Nat) : Ctx :=
  let loads := [(29, y.gp), (30, BitVec.ofNat 64 (y.privOff + y.privSize))] ++ y.args.zipIdx.map fun a => (a.2 + 1, a.1)
  let x := loads.foldl (fun x l => (x.writeS l.1 l.2).heal .s l.1 allLanes) x
  let w := fun (n : Nat) => BitVec.ofNat 64 n
  { x with
    pc := y.entry
    queues := Vector.replicate 16 Queue.cleared
    flights := []
    cc := 0
    waits := 0
    resume := none
    arrived := false
    fetchFault := []
    overrunSeen := false
    declared := some y.declared
    csr := { x.csr with
      stklim := w y.privOff
      asidcur := w y.asid
      uweight := y.weight
      slice := w r.slice
      ytol := w r.ytol
      leasebudget := w r.lbud
      dpmax := w dpmax
      unitid := w (y.number % 2 ^ 32)
      tlLsu := 0
      tlCpy := 0
      tlMat := 0
      tlDda := 0
      tlCol := 0 } }

/-- The bank of a restored unit: what the core keeps for the context stays (R384). -/
def Ctx.restore (x : Ctx) (v : Ctx) : Ctx :=
  { v with
    bank := x.bank
    idleSince := x.idleSince
    sliceLeft := x.sliceLeft
    freshSlice := x.freshSlice
    expired := x.expired
    group := v.group + 1 }

/-- What every residence begins with. -/
def Ctx.resident (x : Ctx) (u ready ran : Nat) : Ctx :=
  { x with
    unit := some u
    latches := x.latches.map fun l => { l with valid := false }
    penalty := 0
    busy := 0
    dpArmed := false
    draining := none
    yielded := none
    yieldAt := ready - ran
    switch := none
    switchYield := false
    saving := none
    fetching := none
    run := []
    spent := none
    recent := []
    sliceLeft := if x.freshSlice || x.expired then x.slice else x.sliceLeft
    freshSlice := false
    expired := false
    moving := ready }

/-- Core cycles of a save or of a restore (R384). -/
def moveCost (acc : Nat) (dda : Bool) : Nat := 2048 + (if acc = 0 then 0 else 4096) + (if dda then 640 else 0)

/-- The pair of accumulators of a context in alternate-window mode. -/
def accPair (k : Nat) : List Nat := if k = 0 then [0, 1] else [2, 3]
def accOfKey (key : Nat) : Nat := key / (128 * 192)

/-- Load saved accumulators: all four, or the context's pair with its block. -/
def Mat.loadSaved (x : Mat) (k : Nat) (v : Saved) : Mat :=
  if v.acc = 1 then { x with acc := v.elems, block0 := v.block }
  else
    let mine := fun a => (accPair k).contains a
    let kept := x.acc.filter fun e => !mine (accOfKey e.1)
    let moved := v.elems.map fun e => (((accPair k).getD (accOfKey e.1 % 2) 0) * (128 * 192) + e.1 % (128 * 192), e.2)
    let all := moved.foldl (fun (l : List (Nat × BitVec 32)) (e : Nat × BitVec 32) => put l e.1 e.2) kept
    ({ x with acc := all } : Mat).setBlock (x.stream k) v.block

/-- The matrix engine at a restore: a pair is loaded, four images wait for the lease. -/
def Mat.restore (x : Mat) (k : Nat) (v : Saved) : Mat :=
  if v.acc = 0 then x
  else if v.acc = 1 then (if x.requests.contains k then x else { x with requests := x.requests ++ [k] })
  else x.loadSaved k v

/-- The first core cycle in which a bank can be used, and its state while it is roused (R154). -/
def Ctx.rouse (x : Ctx) (now : Nat) : Nat × Ctx :=
  match x.bank with
  | .retained => (now + 16, { x with bank := .rousing (now + 16) })
  | .rousing t => (max now t, x)
  | .waking t => (max now t, x)
  | _ => (now, x)

/-- DPMAX of units that start now (R379). -/
def Regs.dpmax (r : Regs) : Nat := let n := field r.dpmaxdev 0 32; if n = 0 then 8192 else n

/-- A unit becomes resident in a context: restored, or for the first time. -/
def State.makeResident (s : State) (c k u : Nat) : State :=
  match s.unit u with
  | none => s
  | some y =>
    let (t, x) := (s.ctx c k).rouse s.now
    match y.saved with
    | some v =>
      let (v, s) := s.loadArea y v
      let ready := t + moveCost v.acc v.dda.isSome
      let x := ((x.restore v.bank).resident u ready v.bank.yieldAt)
      let s := s.onCore c fun z => { z.setCtx k x with mat := z.mat.restore k v, dda := v.dda.getD z.dda }
      s.onUnit u fun y => { y with
        ctx := k, queued := none, saved := if v.acc = 1 then some v else none, accPending := decide (v.acc = 1) }
    | none =>
      let r := ((find s.launches y.launch).bind (·.record)).getD ⟨false, none, 0, 65536, 1024, 64, []⟩
      let x := (x.begin_ y r s.regs.dpmax).resident u t 0
      (s.setCtx c k x).onUnit u fun y => { y with ctx := k, queued := none, started := true }

/-- RUN_QUEUE_ENTRY_TAKEN (R404): an empty context takes the first head that it may take. -/
def State.refillDue (s : State) (c k : Nat) : Bool :=
  let x := s.ctx c k
  x.unit.isNone && x.saving.isNone && decide (x.moving ≤ s.now) && (s.firstHead c k).isSome
def execRunQueueEntryTaken (c k : Nat) (s : State) : Res :=
  .next (if s.refillDue c k then (match s.firstHead c k with
    | some u => s.makeResident c k u
    | none => s) else s)

/-! ### Saves (R377 to R383) -/

/-- The declared run of a unit that is switched out (R107, R377). -/
def Ctx.declaredOut (x : Ctx) (now : Nat) : Nat :=
  let n := x.declared.getD 0
  if x.switchYield then n else runOf n x.slice - x.ran now

/-- What a save keeps of the matrix engine: ACC and the elements. -/
def Mat.saved (x : Mat) (k : Nat) : Nat × List (Nat × BitVec 32) :=
  if x.share then (if k < 2 then (2, x.acc.filter fun e => (accPair k).contains (accOfKey e.1)) else (0, []))
  else if x.holder = some k then (1, x.acc) else (0, [])

/-- The context while its unit is saved: nothing of the unit stays in it but register values. -/
def Ctx.leave (x : Ctx) (u now cost : Nat) : Ctx :=
  { x with
    unit := none
    saving := some u
    moving := now + cost
    flights := []
    waits := 0
    resume := none
    queues := Vector.replicate 16 Queue.cleared
    dpArmed := false
    draining := none
    arrived := false
    fetching := none
    fetchFault := []
    run := []
    recent := []
    idleSince := now }

/-- A matrix command that a forced save finds in the engine, with the accumulators it writes saved: it is kept for replay (R272). -/
def Cmd.kept (z : Cmd) (now : Nat) : Cmd :=
  if z.eng = .mat ∧ z.stage = .taken then { z with stage := .replay, due := now + 1 } else z

/-- A save begins: the unit's state goes to its save area, and it gives up the lease (R256, R381). -/
def State.save (s : State) (c k : Nat) (forced : Bool) : State :=
  let x := s.ctx c k
  match x.unit with
  | none => s
  | some u =>
    let m := (s.core c).mat
    let (acc, elems) := m.saved k
    let owns := decide ((s.core c).dda.owner = some u)
    let dda := if owns then some (s.core c).dda else none
    let declared := x.declaredOut s.now
    let v : Saved := { bank := { x with yieldAt := x.ran s.now }, forced, acc, block := m.block (m.stream k), elems, dda }
    let s := s.eventRecord c k (s.unitIdAt c k) 3 (if forced then 1 else 0)
    let s := s.onUnit u fun y => { y with
      saved := some v, declared, accPending := false, cmds := if acc = 0 then y.cmds else y.cmds.map fun z => z.kept s.now
      switches := if x.switchYield then y.switches + 1 else y.switches }
    (s.onCore c fun z => { z.setCtx k (x.leave u s.now (moveCost acc owns)) with
      mat := z.mat.giveUp k
      loopBuf := z.loopBuf.filter fun b => decide (b.ctx ≠ k) }).storeImage u

/-- The conditions of a completed drain (R153). -/
def State.drained (s : State) (c k : Nat) : Bool :=
  let x := s.ctx c k
  match x.unit.bind s.unit with
  | some y => y.landings.isEmpty && y.open_.isEmpty && decide (y.deliveries = 0) && !x.arrived
      && x.queues.toList.all fun q => q.free == q.head
  | none => false

def State.drainDue (s : State) (c k : Nat) : Bool :=
  let x := s.ctx c k
  x.draining.isSome && x.switch.isSome && s.drained c k

/-- DRAIN_SAVE (R378). -/
def execDrainSave (c k : Nat) (s : State) : Res := .next (if s.drainDue c k then s.save c k false else s)

/-- A PMMA of the unit awaits its partner or its commit. -/
def Unit.pairing (y : Unit) : Bool :=
  y.cmds.any fun z => isPmma z.op && (decide (z.stage = .taken) || decide (z.stage = .effected))

/-- Whether a pending switch has outlasted DPMAX. -/
def Ctx.overdue (x : Ctx) (now : Nat) : Bool := match x.switch with
  | some (p, _) => decide (p + x.csr.dpmax.toNat < now)
  | none => false

def State.forcedDue (s : State) (c k : Nat) : Bool :=
  let x := s.ctx c k
  x.unit.isSome && x.overdue s.now && decide (x.moving ≤ s.now) && !s.drainDue c k && !((x.unit.bind s.unit).any (·.pairing))

/-- FORCED_SAVE (R379). -/
def execForcedSave (c k : Nat) (s : State) : Res := .next (if s.forcedDue c k then s.save c k true else s)

/-- A pending switch whose unit has left its queue takes the next head; with none it is abandoned (R376). -/
def State.recheckSwitch (s : State) (c k : Nat) : State :=
  let x := s.ctx c k
  match x.switch with
  | some (p, some u) =>
    if (s.unit u).any fun y => s.mayTake c k (u, y) then s
    else match s.firstHead c k with
      | some v => s.onCtx c k fun x => { x with switch := some (p, some v) }
      | none => s.onCtx c k fun x => { x with switch := none, switchYield := false, draining := none, expired := false, sliceLeft := x.slice }
  | _ => s

def State.restoreDue (s : State) (c k : Nat) : Bool :=
  let x := s.ctx c k
  x.saving.isSome && decide (x.moving ≤ s.now)

/-- UNIT_RESTORE (R384): the save is complete; the picked unit becomes resident and the outgoing one enters its queue. -/
def execUnitRestore (c k : Nat) (s : State) : Res :=
  .next (if !s.restoreDue c k then s
    else
      let x := s.ctx c k
      let picked := match x.switch with
        | some (_, some u) => if (s.unit u).any fun y => s.mayTake c k (u, y) then some u else s.firstHead c k
        | _ => s.firstHead c k
      let s := s.onCtx c k fun x => { x with saving := none, switch := none, switchYield := false }
      let s := match picked with
        | some u => s.makeResident c k u
        | none => s
      match x.saving.bind fun u => (s.unit u).map fun y => (u, y.base) with
      | some (u, b) => s.enterQueue u b
      | none => s)

/-- The end of a core cycle: the lease passes on; a unit whose images wait for it has them loaded (R256, R384). -/
def State.grantLease (s : State) (c : Nat) : State :=
  let m := (s.core c).mat
  let g := m.grant
  if g = m then s
  else
    let s := s.onCore c fun z => { z with mat := g }
    let s := match g.holder.bind fun k => (s.ctx c k).unit with
      | some u => s.note u .lease
      | none => s
    match g.holder.bind fun k => ((s.ctx c k).unit.bind fun u => (s.unit u).map fun y => (k, u, y)) with
    | some (k, u, y) => match y.saved with
      | some v =>
        if y.accPending then
          let (v, s) := s.loadArea y v
          (s.onCore c fun z => { z with mat := z.mat.loadSaved k v }).onUnit u fun y => { y with saved := none, accPending := false }
        else s
      | none => s
    | none => s

/-! ### Banks (R109, R154) -/

def Ctx.retentionDue (x : Ctx) (now : Nat) : Bool :=
  decide (x.bank = .on) && x.unit.isNone && x.saving.isNone && decide (x.idleSince + 4096 ≤ now)
/-- BANK_RETENTION. -/
def execBankRetention (c k : Nat) (s : State) : Res :=
  .next (if (s.ctx c k).retentionDue s.now then s.onCtx c k fun x => { x with bank := .retained } else s)

def Ctx.rousedBy (x : Ctx) (now : Nat) : Bool := match x.bank with
  | .rousing t => decide (t ≤ now)
  | _ => false
/-- BANK_ROUSE_DONE: the 16 cycles are over. -/
def execBankRouseDone (c k : Nat) (s : State) : Res :=
  .next (if (s.ctx c k).rousedBy s.now then
      (s.onCtx c k fun x => { x with bank := .on }).eventRecord c k (s.unitIdAt c k) 1 16 16
    else s)

def Ctx.awakeBy (x : Ctx) (now : Nat) : Bool := match x.bank with
  | .waking t => decide (t ≤ now)
  | _ => false
/-- BANK_WAKE: a bank that was off has woken, cleared. -/
def execBankWake (c k : Nat) (s : State) : Res :=
  .next (if (s.ctx c k).awakeBy s.now then s.onCtx c k fun x => { x with bank := .on, idleSince := s.now } else s)

end Sys2Proof.Machine
end

