-- ==== Sys2Proof/Machine/Units.lean ====
section
/-! DEFINITION. YIELD, SPAWN, EXIT, CANCEL and BAR, dropped records, and the retirement of units
(R88 to R94, R105, R106, R202, R370, R385, R404, R405). -/
namespace Sys2Proof.Machine

/-- FIXED_LATENCY_LAND (R32, R138): the writes due at the context's next cycle land. -/
def execFixedLatencyLand (c k : Nat) (s : State) : Res := .next (s.onCtx c k Ctx.landDue)

/-- YIELD: the arbiter decides at the end of the core cycle; a static context takes no decision (R202). -/
def execYield (n : BitVec 20) : State → Res := slotOp true fun s =>
  .ok (if s.isStatic s.iss.core s.iss.ctx then s else s.onMe fun x => { x with yielded := some n.toNat })

/-! ### Barriers (R93) -/

/-- Most participants of a scope: cluster, die, device. -/
def barLimit (scope : Nat) : Nat := if scope = 0 then 32 else if scope = 1 then 512 else 2048
def barInst (scope core : Nat) : Nat := if scope = 0 then clusterOf core else if scope = 1 then dieOf core else 0

def Barrier.joins (b : Barrier) (scope inst n : Nat) : Bool :=
  decide (b.scope = scope) && decide (b.inst = inst) && decide (b.n = n) && decide (b.units.length < b.count)

def Barrier.arrive (scope inst n : Nat) (me : Nat × Nat) (b : Barrier) : Barrier :=
  if b.joins scope inst n then { b with units := b.units ++ [me] } else b

/-- An arrival: it joins the barrier, which the first arrival opens; the context then waits for the release. -/
def bodyBar (scope : Nat) (n : Fin 32) (a : Src) (s : State) : Except Cond State := do
  let c ← s.srcS a
  let l := s.launchOf s.myUnit
  let inst := barInst scope s.iss.core
  let me := (s.myUnit, s.me.csr.tlLsu.toNat)
  let all : List Barrier := ((find s.launches l).map (·.barriers)).getD []
  let open_ := all.find? fun b => b.joins scope inst n.val
  if c.toNat = 0 ∨ barLimit scope < c.toNat then .error barrierMismatch
  else
    let wait := fun (s : State) => s.onMe fun x => { x with arrived := true, barSlot := some s.iss.slot }
    match open_ with
    | some b =>
      if b.count ≠ c.toNat then .error barrierMismatch
      else .ok (wait (s.onLaunch l fun x => { x with barriers := x.barriers.map (Barrier.arrive scope inst n.val me) }))
    | none => .ok (wait (s.onLaunch l fun x => { x with barriers := x.barriers ++ [⟨scope, inst, n.val, c.toNat, [me]⟩] }))

def execBarClu (n : Fin 32) (a : Src) : State → Res := slotOp true (bodyBar 0 n a)
def execBarDie (n : Fin 32) (a : Src) : State → Res := slotOp true (bodyBar 1 n a)
def execBarDev (n : Fin 32) (a : Src) : State → Res := slotOp true (bodyBar 2 n a)

/-- Whether the accesses before an arrival have performed: the arrival is a release (R323). -/
def State.released (s : State) (a : Nat × Nat) : Bool :=
  match s.unit a.1 with
  | some x => !(x.cmds.any fun c => decide (c.eng = .lsu) && decide (c.n ≤ a.2) && !decide (c.stage = .effected))
  | none => true

/-- A full barrier whose arrivals have all taken effect. -/
def State.opens (s : State) (b : Barrier) : Bool := decide (b.units.length = b.count) && b.units.all fun a => s.released a

/-- A waiter of a barrier goes on: its context, or, while it handles a trap taken at the barrier, the one its TRET returns to. -/
def State.releaseWaiter (s : State) (b : Barrier) (u : Nat) : State :=
  let kept := (s.unit u).bind fun x => x.trap.bind (·.bar)
  if kept = some (b.scope, b.inst, b.n) then
    s.onUnit u fun x => { x with trap := x.trap.map fun t => { t with bar := none } }
  else (s.onBank u fun x => { x with arrived := false }).note u .barrier

/-- The last arrival releases every waiter, at the end of the core cycle. -/
def State.releaseBarriers (s : State) : State :=
  s.launches.foldl (fun s l =>
    match l.2.barriers.filter fun b => s.opens b with
    | [] => s
    | bs =>
      let s := bs.foldl (fun s b => b.units.foldl (fun s a => s.releaseWaiter b a.1) s) s
      s.onLaunch l.1 fun x => { x with barriers := x.barriers.filter fun b => !bs.contains b }) s

/-! ### CANCEL (R92, R94) -/

def reasonOf (a : Word) : Nat := a.toNat % 2 ^ 16

/-- A cancel of the issuing unit's launch, or of its job by level. -/
def bodyCancel (f : State → Nat → State) (a : Src) (s : State) : Except Cond State := do
  let r ← s.srcS a
  .ok (f s (reasonOf r))

def State.myJob (s : State) : Nat := (s.jobOf s.myUnit).getD 0

def execCancelLaunch (a : Src) : State → Res := slotOp true (bodyCancel (fun s r => s.endLaunch (s.launchOf s.myUnit) 3 r) a)
def execCancelGraph (a : Src) : State → Res := slotOp true (bodyCancel (fun s r => s.cancelGraph s.myJob r) a)
def execCancelPhase (a : Src) : State → Res := slotOp true (bodyCancel (fun s r => s.cancelPhase s.myJob r) a)
def execCancelJob (a : Src) : State → Res := slotOp true (bodyCancel (fun s r => s.cancelJob s.myJob r) a)

/-! ### EXIT (R91) -/

/-- EXIT: the unit issues no further bundle and gives up the lease; its retirement begins. -/
def execExit : State → Res := slotOp true fun s =>
  .ok ((s.onMyUnit fun x => { x with exited := true, life := .draining, asyncs := [] }).onMyCore fun y =>
    { y with mat := y.mat.giveUp s.iss.ctx })

/-! ### SPAWN (R90, R105) -/

def Csrs.setWeight (c : Csrs) (w : Word) : Csrs := { c with uweight := w }
def State.giveWeight (s : State) (u : Nat) (f : Word → Word) : State :=
  s.onBank u fun x => { x with csr := x.csr.setWeight (f x.csr.uweight) }

def execSpawn (d : Fin 32) (a b : Src) : State → Res := slotOp false fun s => do
  let addr ← s.srcS a
  let w ← s.srcS b
  let own := s.me.csr.uweight
  let give := if w = 0 then own / 2 else w
  if !canonical addr then .error { nonCanonical 1 with badaddr := some addr }
  else if addr.toNat % 64 ≠ 0 then .error spawnDescriptor
  else if own = 1 ∨ own ≤ give then .error weightExhausted
  else
    let (id, s) := s.takeLanding .s d.val (some (.lsu, s.me.csr.tlLsu.toNat + 1))
    let s := s.lsuCommand (.spawn d a b) fun _ c => { c with a := addr, b := give, land := some id, after := 0 }
    pure (s.giveWeight s.myUnit fun w => w - give)

/-- Entries of a core's unit table that are taken, those reserved for launches that are not yet placed included (R86). -/
def State.tableUsed (s : State) (c : Nat) : Nat :=
  let waiting := s.launches.flatMap fun l =>
    if l.2.holds && !l.2.isPlaced then (match l.2.record with
      | some r => r.units.filter fun e => decide (e.core = c)
      | none => []) else []
  (s.units.filter fun x => decide (x.2.core = c)).length + waiting.length

/-- The lowest free index of a core's unit table. -/
def State.freeIndex (s : State) (c : Nat) : Nat :=
  let used := (s.units.filter fun x => decide (x.2.core = c)).map (·.2.index)
  ((List.range 64).find? fun i => !used.contains i).getD 0

/-- The lowest-addressed free run of a pool; `from_` is where the search stands. -/
def freeRun (end_ n from_ : Nat) : List (Nat × Nat) → Option Nat
  | [] => if from_ + n ≤ end_ then some from_ else none
  | (o, m) :: rest => if from_ + n ≤ o then some from_ else freeRun end_ n (o + m) rest
def Pool.run (p : Pool) (n : Nat) : Option Nat := freeRun (p.off + p.size) n p.off p.used

/-- The private region of a spawned unit: its offset; none when it is refused. -/
def Launch.region (l : Launch) (core n : Nat) : Option Nat :=
  match l.pools.find? fun p => decide (p.core = core) with
  | some p => if n = 0 then some p.off else p.run n
  | none => if n = 0 then some 0 else none
def Launch.takeRegion (l : Launch) (core off n : Nat) : Launch :=
  if n = 0 then l
  else { l with pools := l.pools.map fun p => if p.core = core then { p with used := put p.used off n } else p }
def Launch.freeRegion (l : Launch) (core off : Nat) : Launch :=
  { l with pools := l.pools.map fun p => if p.core = core then { p with used := del p.used off } else p }

/-- A unit as it enters a run queue. -/
def freshUnit (core ctx launch number index initial asid : Nat) (f : FnInfo) (gp : Word) (args : List Word) (off size rank weight : Nat) :
    Unit where
  core := core
  ctx := ctx
  launch := launch
  number := number
  index := index
  initial := initial
  asid := asid
  entry := f.entry
  gp := gp
  args := args
  privOff := off
  privSize := size
  base := rank
  rank := rank
  declared := f.yrun
  passes := 0
  queued := none
  queuedAt := 0
  weight := BitVec.ofNat 64 weight
  started := false
  saved := none
  landings := []
  nextLand := 0
  cmds := []
  open_ := []
  relFence := 0
  fullFence := 0
  deliveries := 0
  asking := []
  spliceOut := []
  spliceIn := []
  reported := []
  marks := []
  qreads := []
  asyncs := []
  trap := none
  pairs := 0
  pairIn := []
  pairOff := []
  partner := none
  exited := false
  life := .live
  static := false
  accPending := false
  busy := 0
  idle := 0
  waited := 0
  switches := 0
  paged := false

/-- Add a unit at the tail of its base rank. -/
def State.addUnit (s : State) (x : Unit) : Nat × State :=
  let u := s.nextKey
  (u, ({ s with nextKey := u + 1, units := put s.units u x }).enterQueue u x.base)

/-- The value that a SPAWN writes to its destination, at the end of its record. -/
def State.spawnAnswer (s : State) (u : Nat) (c : Cmd) (v : Word) : State :=
  let s := s.onCmd u .lsu c.n fun c => { c with stage := .effected }
  match c.land with
  | some id => s.landReady u id s.now (v.setWidth 2048) allLanes 0
  | none => s.finish u .lsu c.n

/-- The child of a descriptor, or the refusal: a fault, or a 0 for want of room. -/
def State.spawnChild (s : State) (u : Nat) (x : Unit) (c : Cmd) (b : List Byte) : State :=
  let fault := fun (s : State) => (s.giveWeight u fun w => w + c.b).engineFault u .lsu c.n spawnDescriptor
  match spawnDesc b, find s.launches x.launch with
  | some d, some l => match l.loaded.bind fun o => o.funcs[d.func]?.map fun f => (o, f) with
    | some (o, f) =>
      if l.record.any fun (r : PRecord) => r.unitCores.contains d.core then
        match (if 64 ≤ s.tableUsed d.core then none else l.region d.core d.bytes) with
        | some off =>
          let y := freshUnit d.core 0 x.launch l.nextNumber (s.freeIndex d.core) x.initial x.asid f o.gp d.args off d.bytes d.rank c.b.toNat
          let (_, s) := s.addUnit y
          (s.onLaunch x.launch fun l => { (l.takeRegion d.core off d.bytes) with nextNumber := l.nextNumber + 1 }).spawnAnswer u c
            (BitVec.ofNat 64 l.nextNumber)
        | none => (s.giveWeight u fun w => w + c.b).spawnAnswer u c 0
      else fault s
    | none => fault s
  | _, _ => fault s

/-- Start or replay: the entry frees; a replay takes the weight again, or answers 0 when there is too little. -/
def State.spawnStart (s : State) (u : Nat) (c : Cmd) : State :=
  let (k, s) := s.draw
  let again := decide (c.stage = .replay)
  let own := (s.bankOf u).csr.uweight
  let s := s.takeCmd u .lsu c.n fun c => { c with stage := .paged, due := s.now + 1 + Config.spawnDelay k, limit := 0 }
  if !again then s
  else if own ≤ c.b then s.spawnAnswer u c 0
  else s.giveWeight u fun w => w - c.b

/-- The weight comes back and the record faults. -/
def State.spawnStop (s : State) (u : Nat) (c : Cmd) (e : Cond) : State :=
  (s.giveWeight u fun w => w + c.b).engineFault u .lsu c.n e

/-- The descriptor's address is translated; `limit` marks a record that waits for a walk or a page. -/
def State.spawnTranslate (s : State) (u : Nat) (x : Unit) (c : Cmd) : State :=
  let ev := Event.spawnComplete u c.n
  match s.paged ⟨ev, .r, some x.core⟩ (dieOf x.core) x.asid (va56 c.a) 64 1 with
  | (.wait, s) => s.onCmd u .lsu c.n fun c => { c with limit := 1 }
  | (.fault e, s) => s.spawnStop u c e
  | (.ok l, s) =>
    let (key, s) := s.keyOf (dieOf x.core) x.asid
    let (parts, s) := s.makeParts key false (l.map fun p => (p.va - va56 c.a, p))
    (s.forget ev).onCmd u .lsu c.n fun c => { c with stage := .taken, parts }

/-- The descriptor is read and the child made. -/
def State.spawnRead (s : State) (u : Nat) (x : Unit) (c : Cmd) (p : Part) : State :=
  let die := dieOf x.core
  let s := s.touch x.launch die p.pa p.len
  let (g, s) := s.readPhys die p.pa p.len p.key
  if g.err then s.spawnStop u c (dataError 1) else s.spawnChild u x c g.data

/-- Whether a SPAWN's record has something to do. -/
def State.spawnDue (s : State) (x : Unit) (c : Cmd) : Bool :=
  (match c.op with
    | .spawn .. => true
    | _ => false) && decide (c.due ≤ s.now)
  && (c.waiting || (decide (c.stage = .paged) && decide (c.limit = 0)) || !(s.readyParts x c).isEmpty)

/-- SPAWN_COMPLETE (R90). -/
def execSpawnComplete (u n : Nat) (s : State) : Res :=
  .next (match s.unit u with
    | some x => match x.cmd .lsu n with
      | some c =>
        if c.waiting then (if c.due ≤ s.now then s.spawnStart u c else s)
        else if c.stage = .paged then (s.onCmd u .lsu n fun c => { c with limit := 0 }).spawnTranslate u x c
        else match s.readyParts x c with
          | p :: _ => s.spawnRead u x c p
          | [] => s
      | none => s
    | none => s)

/-! ### Dropped records (R370) -/

/-- The queue in which a command reserved a slot. -/
def reservedQueue (i : Instr) : Option Nat := match i with
  | .cpld o => some o.q.val
  | .cpga o => some o.q.val
  | .cpll o => some o.q.val
  | .accrd o => some o.q.val
  | .dcnt o => some o.q.val
  | _ => none

/-- The event by which an operation tries again after a page request. -/
def pageEvent (u : Nat) (c : Cmd) : Event := if c.eng = .lsu then c.retryEvent u else .copyCommandDone u c.n

/-- A page request that an operation no longer waits for. -/
def PageReq.without (ev : Event) (r : PageReq) : PageReq := { r with waiters := r.waiters.filter fun w => decide (w.retry ≠ ev) }

/-- A SPAWN that has given up weight and is dropped before it makes its child gives it back (R90, R94). -/
def State.keepWeight (s : State) (u : Nat) (c : Cmd) : State := match c.op with
  | .spawn .. => if c.stage = .paged ∨ c.stage = .taken then s.giveWeight u fun w => w + c.b else s
  | _ => s

/-- A COL record that is dropped is no longer open (R347, R370). -/
def HalRec.close (h : HalRec) (now : Nat) : HalRec :=
  { h with stage := .complete, ended := if h.stage = .faulted then h.ended else now }
def State.closeHal (s : State) (u : Nat) (c : Cmd) : State :=
  let f := fun (h : HalRec) => if decide (h.unit = u) && decide (h.n = c.n) then h.close s.now else h
  if c.eng = .col then { s with halyard := s.halyard.map f } else s

/-- A record is dropped: its number completes, its slot gets its presence with tag 0, its landing entry frees. -/
def State.dropCmd (s : State) (u : Nat) (c : Cmd) : State :=
  let s := match c.land.bind fun id => s.landing u id with
    | some l => s.freeLanding u l
    | none => s
  let s := match c.op with
    | .cpst o => s.releaseSlot u o.q.val c.ctr
    | _ => s.matRelease c
  let s := match reservedQueue c.op with
    | some q => s.abandonSlot u c q
    | none => s
  let s := (s.keepWeight u c).closeHal u c
  let ev := pageEvent u c
  let s := { s with pageReqs := s.pageReqs.map (PageReq.without ev) }
  ((s.forget ev).onCmd u c.eng c.n fun c => { c with flags := 0 }).finish u c.eng c.n

/-- Whether the operation waits for the host's answer to a page request. -/
def State.awaitsPage (s : State) (u : Nat) (c : Cmd) : Bool :=
  let ev := pageEvent u c
  s.pageReqs.any fun r => r.waiters.any fun w => decide (w.retry = ev)

/-- What a unit that drains drops: faulted records; and, once a cancel has reached it, operations that wait for a page and
integrator commands that have not begun (R94, R405). -/
def State.dropsNow (s : State) (u : Nat) (x : Unit) (c : Cmd) : Bool :=
  decide (c.stage = .faulted)
  || (!x.exited && (s.awaitsPage u c || (decide (c.eng = .dda) && c.waiting)))

/-! ### Retirement (R91, R94, R106, R385) -/

/-- A cancel reaches a unit: it leaves its queue, its barriers and the lease, its array budgets are set to 0, and it drains. -/
def State.cancelReach (s : State) (u : Nat) (x : Unit) : State :=
  let resident := s.resident u
  let s := if (s.core x.core).dda.owner = some u then
      (s.putDda x.core (s.core x.core).dda.halted).completeSteps x.core true
    else s
  let s := if resident then
      s.onCore x.core fun y => { y.setCtx x.ctx { y.ctx x.ctx with arrived := false } with mat := y.mat.giveUp x.ctx }
    else s
  let s := s.onLaunch x.launch fun l => { l with barriers := l.barriers.map fun b => { b with units := b.units.filter fun a => decide (a.1 ≠ u) } }
  (s.onUnit u fun x => { x with life := .draining, asyncs := [], queued := none, accPending := false }).collCancel u

def State.dropAll (s : State) (u : Nat) : State :=
  match s.unit u with
  | some x => ((x.cmds.filter fun c => s.dropsNow u x c).foldl (fun s c => s.dropCmd u c) s).freeArray x.core
  | none => s

def Unit.quiet (x : Unit) : Bool := x.open_.isEmpty && x.landings.isEmpty && decide (x.deliveries = 0)

/-- The weight that a unit holds. -/
def State.weightOf (s : State) (u : Nat) (x : Unit) : Word := if x.started then (s.bankOf u).csr.uweight else x.weight

/-- A placement-table record after a unit's counts are added. -/
def tableUpdate (x : Unit) (phase : Nat) (b : List Byte) : List Byte :=
  let n := fun i => leNat ((b.drop (8 * i)).take 8)
  let w := n 3
  le64 (n 0 + x.busy) ++ le64 (n 1 + x.idle) ++ le64 (n 2 + x.waited)
  ++ le64 ((w + 1) % 2 ^ 16 + 2 ^ 16 * min 65535 (w / 2 ^ 16 % 2 ^ 16 + x.switches) + 2 ^ 32 * (phase % 2 ^ 16) + 2 ^ 48 * x.core)

/-- Step 2: the placement record; false while it waits for a page. -/
def State.retireRecord (s : State) (u : Nat) (x : Unit) : Bool × State :=
  match find s.launches x.launch with
  | none => (true, s)
  | some l =>
    let ptab := ((l.record.map (·.ptab)).getD 0)
    if ptab = 0 then (true, s)
    else
      let ev := Event.unitRetire u
      match s.devUpdate ev (dieOf x.core) x.asid (ptab + BitVec.ofNat 64 (32 * x.initial)) 32 (tableUpdate x l.phaseIdx) with
      | (.error none, s) => (false, s)
      | (.error _, s) => (true, (s.forget ev).recordFailed l.job)
      | (.ok _, s) => (true, s.forget ev)

/-- The context after its unit has retired. -/
def Ctx.vacate (x : Ctx) (now : Nat) : Ctx :=
  { x with
    unit := none
    queues := Vector.replicate 16 Queue.cleared
    flights := []
    waits := 0
    resume := none
    dpArmed := false
    draining := none
    switch := none
    switchYield := false
    yielded := none
    arrived := false
    fetching := none
    fetchFault := []
    busy := 0
    moving := min x.moving now
    idleSince := now
    csr := { x.csr with cause := x.csr.cause &&& ~~~(BitVec.twoPow 64 30), donemask := x.csr.donemask &&& ~~~(BitVec.twoPow 64 8) } }

/-- The ends of a retired unit's splices: its targets clear SPI; its senders learn of the end (R164). -/
def State.endSplices (s : State) (u : Nat) (x : Unit) : State :=
  let s := (x.spliceOut.map (·.2.1) ++ x.marks).foldl (fun s t => s.mesh x.core t.core 0 (ofSplice t) (.spliceEndMarkerArrive t)) s
  x.spliceIn.foldl (fun s i => s.mesh x.core i.2.core 0 (toSender i.2) (.spliceTargetEnd i.2 ⟨u, i.1, x.core⟩)) s

/-- Step 4 and 5: the release, and the retire event. -/
def State.retireRelease (s : State) (u : Nat) (x : Unit) (weight : Nat) : State :=
  let resident := s.resident u
  let s := s.eventRecord x.core x.ctx (x.number % 2 ^ 32) 4 weight
  let s := s.endSplices u x
  let s := s.onCore x.core fun y => { y with
    icache := y.icache.map fun l => if l.lock = some u then { l with lock := none } else l
    dda := if y.dda.owner = some u then { y.dda with owner := none } else y.dda
    mat := if resident then y.mat.giveUp x.ctx else y.mat }
  let s := if resident then s.onCtx x.core x.ctx fun y => y.vacate s.now else s
  let s := s.onLaunch x.launch fun l => if l.n < x.number && decide (0 < x.privSize) then l.freeRegion x.core x.privOff else l
  { s.forget (fetchEvent x.core u) with units := del s.units u }

/-- The steps of a retirement that can be made now. -/
def State.retireSteps (s : State) (u : Nat) : State :=
  let s := match s.unit u with
    | some x => if x.life = Life.live ∧ s.unitEnding u then s.cancelReach u x else s
    | none => s
  let s := match s.unit u with
    | some x => if x.life = Life.draining then s.dropAll u else s
    | none => s
  let s := match s.unit u with
    | some x =>
      if x.life = Life.draining ∧ x.quiet then
        (match s.retireRecord u x with
          | (true, s) => s.onUnit u fun x => { x with life := .recorded }
          | (false, s) => s.onUnit u fun x => { x with paged := true })
      else s
    | none => s
  match s.unit u with
  | some x =>
    if x.life = Life.recorded then
      let w := s.weightOf u x
      match s.returnWeight (.unitRetire u) (dieOf x.core) x.launch w.toNat with
      | (true, s) => s.retireRelease u x w.toNat
      | (false, s) => s.onUnit u fun x => { x with paged := true }
    else s
  | none => s

/-- Whether the retirement of a unit can go on; a unit whose save is under way is reached after it. -/
def State.retireDue (s : State) (u : Nat) (x : Unit) : Bool :=
  !x.paged && (match x.life with
    | .live => s.unitEnding u && decide ((s.ctx x.core x.ctx).saving ≠ some u)
    | .draining => x.quiet || x.cmds.any fun c => s.dropsNow u x c
    | .recorded => true)

/-- UNIT_RETIRE (R385). -/
def execUnitRetire (u : Nat) (s : State) : Res := .next ((s.onUnit u fun x => { x with paged := false }).retireSteps u)

end Sys2Proof.Machine
end

