-- ==== Sys2Proof/Machine/Traps.lean ====
section
/-! DEFINITION. Asynchronous traps and TRET (R364 to R370). -/
namespace Sys2Proof.Machine

/-! ### Reading a trap record (R365, R366) -/

/-- Whether a word is zero outside a mask. -/
def within (w mask : Word) : Bool := (w &&& ~~~mask) == 0

/-- Whether a scale latch is one that a MAXEXP leaves. -/
def scaleOk (hi : Word) : Bool :=
  let src := field hi 4 4
  (decide (src = 0) || decide (src = 6) || decide (src = 7) || decide (src = 8)) && decide (field hi 0 2 ≠ 3)

def headerOk (b : List Byte) : Bool :=
  let w := recWord b 1
  within w 0xFFFF07F#64 && (List.range 4).all (fun i => decide (field w (20 + 2 * i) 2 ≠ 3))
  && decide (recordNpw b ≤ 64) && decide (recordNsnap b ≤ 8)
  && within (recWord b 5) 0xFF#64 && within (recWord b 6) 3#64
  && (List.range 32).all (fun i => decide (i < 13) || recWord b i == 0)
  && scaleOk (recWord b 5)

def snapOk (b : List Byte) : Bool :=
  let w := recWord b 0
  within w 0x1F03#64 && decide (field w 0 2 ≠ 2) && within (recWord b 1) 0x3FFFFFFFFFF#64
  && (List.range 8).all (fun i => decide (i < 2) || recWord b i == 0)

def pendOk (b : List Byte) : Bool :=
  let w := recWord b 0
  within w 0x7FFC1F0F#64 && within (recWord b 1) 0xFF#64 && recWord b 3 == 0
  && decide (field w 18 5 ≤ 19) && decide (field w 28 3 ≤ 5) && (!w.getLsbD 2 || scaleOk (recWord b 1))

def recordOk (b : List Byte) : Bool :=
  headerOk b && (List.range (recordNsnap b)).all (fun i => snapOk (snapPart b i)) && (List.range (recordNpw b)).all (fun j => pendOk (pendPart b j))

/-! ### TRET (R367 to R370) -/

/-- The CSRs after TRET: loop state from the record; INTRAP and DROP clear. -/
def Csrs.afterReturn (c : Csrs) (b : List Byte) : Csrs :=
  { c with
    loopst := recWord b 6
    ls0 := recWord b 7
    le0 := recWord b 8
    lc0 := recWord b 9
    ls1 := recWord b 10
    le1 := recWord b 11
    lc1 := recWord b 12
    cause := c.cause &&& ~~~(BitVec.twoPow 64 30)
    donemask := c.donemask &&& ~~~(BitVec.twoPow 64 8) }

/-- The context after TRET: the writes in flight and the latches come back, and the bundle at the record's PC issues anew or is
resumed. TRET's own core cycle is no context cycle and counts as idle (R106). -/
def Ctx.afterReturn (x : Ctx) (t : TrapState) (b : List Byte) : Ctx :=
  let done := x.csr.donemask.setWidth 6
  let group := x.group + 1
  let pc := recWord b 0
  let flights := (List.range (recordNpw b)).map fun j => flightOf (pendPart b j) t.cc group (t.loads.getD j (true, t.own))
  { x with
    csr := x.csr.afterReturn b
    group
    latches := Vector.ofFn fun i : Fin 4 => latchOf b t.latches i.val
    scale := scaleOf (recWord b 5) (recWord b 4)
    flights
    pc
    cc := if done = 0 then t.cc else t.own
    waits := 0
    penalty := 0
    dpArmed := false
    arrived := t.bar.isSome
    barSlot := t.barSlot
    run := []
    spent := none
    resume := if done = 0 ∧ t.unchecked = 0 then none else some {
      pc, done, cc := if done = 0 then t.cc else t.own
      snaps := (List.range (recordNsnap b)).map fun i => snapOf (snapPart b i)
      unchecked := t.unchecked } }

/-- A faulted record is released for replay, or dropped when DROP is set. -/
def State.releaseRecord (s : State) (u : Nat) (r : Engine × Nat) (drop : Bool) : State :=
  match s.cmd u r.1 r.2 with
  | some c =>
    if c.stage ≠ Stage.faulted then s
    else if drop then s.dropCmd u c
    else s.onCmd u r.1 r.2 fun c => { c with stage := .replay, due := s.now + 1 }
  | none => s

def trapKept (s : State) : TrapState := ((s.unit s.myUnit).bind (·.trap)).getD ⟨s.me.cc, s.me.cc, none, [], [], 0, none, none⟩

def execTret : State → Res := slotOp true fun s =>
  let x := s.me
  let at_ := s.iss.entry.csr.recordAt
  let alone := s.iss.slots.length ≤ 1
  if !x.csr.inTrap || !alone || decide (spmSize < at_ + trapRecordSize) then .error trapReturn
  else do
    let b ← s.myCore.load 1 at_ trapRecordSize
    if !recordOk b then .error trapReturn
    else
      let t := trapKept s
      let drop := x.csr.donemask.getLsbD 8
      let s := match t.record with
        | some r => s.releaseRecord s.myUnit r drop
        | none => s
      let s := s.onMe fun x => x.afterReturn t b
      let s := s.onMyUnit fun y => { y with trap := none }
      pure { s with iss := { s.iss with ret := true } }

/-! ### Asynchronous traps (R364) -/

def AsyncTrap.before (a b : AsyncTrap) : Bool :=
  decide (a.at_ < b.at_) || (decide (a.at_ = b.at_) && (decide (engineCode a.eng < engineCode b.eng)
    || (decide (a.eng = b.eng) && decide (a.n < b.n))))

/-- The trap taken first. -/
def firstAsync (l : List AsyncTrap) : Option AsyncTrap :=
  l.foldl (fun m a => match m with
    | none => some a
    | some b => if a.before b then some a else m) none

/-- Whether a context takes an asynchronous trap now: before its next bundle, its wait cycles having passed. -/
def State.asyncDue (s : State) (c k : Nat) : Bool :=
  let x := s.ctx c k
  match x.unit.bind s.unit with
  | some y => !y.asyncs.isEmpty && decide (y.life = .live) && !((find s.launches y.launch).any fun l => l.ending.isSome)
      && !x.csr.inTrap && decide (x.waits = 0) && x.draining.isNone && decide (x.moving ≤ s.now)
  | none => false

/-- ASYNC_TRAP: trap entry for a condition raised from a record. The bundle before which it is taken spends no context cycle
(R361). -/
def execAsyncTrap (c k : Nat) (s : State) : Res :=
  .next (if !s.asyncDue c k then s
    else
      let x := s.ctx c k
      let u := x.unit.getD 0
      match firstAsync (((s.unit u).map (·.asyncs)).getD []) with
      | none => s
      | some a =>
        let s := s.onUnit u fun y => { y with asyncs := y.asyncs.erase a }
        let s := s.takeTrap c k
          { cond := a.cond, trappc := a.pc, resume := x.pc, done := 0, bad := 0, snaps := [], async := some (a.eng, a.n),
            unchecked := (x.resume.map (·.unchecked)).getD 0 }
        -- the event stands for the end of the cycle before, so the steps take the cycles from this one on
        s.onCtx c k fun x => { x with busy := x.busy - 1 })

end Sys2Proof.Machine
end

