-- ==== Sys2Proof/Machine/Eligible.lean ====
section
/-! DEFINITION. Which contexts may issue: the next bundle, the conditions that hold it, and the merge stage
(R141, R142, R145, R158, R255, R333, R339, R340, R360, R415). -/
namespace Sys2Proof.Machine

/-! ### The next bundle -/

/-- The next bundle of a context: a sector is missing, the fetch faults, or the bundle with the slots still to perform. -/
inductive Upcoming where
  | missing (va : Nat)
  | fault (c : Cond)
  | bundle (b : Bundle) (left : BitVec 6)
deriving DecidableEq, Repr

def State.upcoming (s : State) (c k : Nat) : Upcoming :=
  let x := s.ctx c k
  match s.fetched c k with
  | .missing va => .missing va
  | .fault e => .fault e
  | .bytes l =>
    let b := decodeBundle l
    .bundle b (b.hdr.pm &&& ~~~x.doneSlots)

/-- Bits that a bundle takes part in the merge with (R142). -/
def Upcoming.merge : Upcoming → BitVec 6
  | .bundle _ left => left
  | _ => 0

/-! ### What a bundle asks for -/

/-- The engine that a syllable hands a command to (R141, cause 4). -/
def engineOf : Instr → Option Engine
  | .ldg _ => some .lsu
  | .stg _ => some .lsu
  | .amoAdd _ => some .lsu
  | .amoAnd _ => some .lsu
  | .amoOr _ => some .lsu
  | .amoXor _ => some .lsu
  | .amoMin _ => some .lsu
  | .amoMax _ => some .lsu
  | .amoMinn _ => some .lsu
  | .amoMaxn _ => some .lsu
  | .amoSwap _ => some .lsu
  | .amoFadd _ => some .lsu
  | .amocas _ => some .lsu
  | .vldg _ => some .lsu
  | .vstg _ => some .lsu
  | .spawn .. => some .lsu
  | .cpld _ => some .cpy
  | .cpst _ => some .cpy
  | .cpll _ => some .cpy
  | .cpga _ => some .cpy
  | .cpmem _ => some .cpy
  | .tcfg _ => some .mat
  | .mma _ => some .mat
  | .pmma _ => some .mat
  | .accz _ => some .mat
  | .accrd _ => some .mat
  | .accrv _ => some .mat
  | .accwr _ => some .mat
  | .accsave _ => some .mat
  | .accrest _ => some .mat
  | .dpatch .. => some .dda
  | .dclk .. => some .dda
  | .dset .. => some .dda
  | .dinj .. => some .dda
  | .dstep .. => some .dda
  | .dread .. => some .dda
  | .dcnt _ => some .dda
  | .dsave .. => some .dda
  | .dload .. => some .dda
  | .coll .. => some .col
  | .cqry .. => some .col
  | _ => none

def localPop (d : MDesc) : List (Nat × Nat) := if d.pop && !d.rem then [(d.queue.val, 1)] else []

/-- Slots that a syllable pops. -/
def queuePops : Instr → List (Nat × Nat)
  | .qpop q n => [(q.val, n.toNat + 1)]
  | .qrd o => if o.pop then [(o.q.val, 1)] else []
  | .vcpop o => if o.pop then [(o.q.val, 1)] else []
  | .cpst o => if o.pop then [(o.q.val, 1)] else []
  | .accwr o => if o.pop then [(o.q.val, 1)] else []
  | .mma o => localPop o.da ++ localPop o.db
  | .pmma o => localPop o.da ++ localPop o.db
  | _ => []

/-- Queues that a syllable appends to; one that may append counts. -/
def queueAppends : Instr → List Nat
  | .qwr o => if o.o then [o.q.val] else []
  | .vcpush o => [o.q.val]
  | .stapq _ _ q _ => [q.val]
  | .cpld o => [o.q.val]
  | .cpll o => [o.q.val]
  | .cpga o => [o.q.val]
  | .accrd o => [o.q.val]
  | .dcnt o => [o.q.val]
  | _ => []

/-- A slot whose presence a syllable needs as it issues (R141, cause 3). -/
def presentSlot : Instr → Option (Nat × Nat)
  | .qrd o => some (o.q.val, o.k.val)
  | .vcpop o => some (o.q.val, o.k.val)
  | _ => none

/-! ### The conditions (R141, R158, R255, R333) -/

/-- What a bundle's conditions are tested against. -/
structure View where
  x : Ctx
  u : Unit
  /-- context number, and the matrix engine of its core -/
  k : Nat
  mat : Mat
  /-- the lease counts as not yet granted -/
  noLease : Bool
deriving DecidableEq, Repr

/-- A placed operation that is still to perform. -/
abbrev Todo := Slot × Instr × Uses

def todoOf (b : Bundle) (left : BitVec 6) : List Todo :=
  b.slots.filterMap fun p => match p.syl with
    | .op i => if left.getLsbD p.slot.index then some (p.slot, i, i.uses) else none
    | _ => none

/-- Cause 1: a register it names is pending. -/
def View.pending (v : View) (t : Todo) : Bool :=
  let w := t.2.2
  (w.srcs.any fun z => match z with
    | (c, .reg n) => v.u.pending c n.val
    | _ => false)
  || w.reads.any (fun r => v.u.pending r.1 r.2) || v.u.pending .p w.guard
  || w.dsts.any (fun d => v.u.pending d.1 d.2.1) || w.lands.any (fun r => v.u.pending r.1 r.2)

def total (l : List (Nat × Nat)) (q : Nat) : Nat := (l.filter fun p => decide (p.1 = q)).foldl (fun n p => n + p.2) 0

/-- Space that appends to a queue have: of the target under an outgoing splice. -/
def View.space (v : View) (q : Nat) : Nat :=
  let y := v.x.queue q
  match (if y.spo then v.u.spliceOut.find? fun o => decide (o.1 = q) else none) with
  | some (_, _, slots) => slots - (y.stail - y.sfree).toNat
  | none => y.slots - y.occupancy

/-- Cause 2: depth, pops and space. A queue under an outgoing splice has no slots to read: a source there faults (R164). -/
def View.queueHeld (v : View) (l : List Todo) (t : Todo) : Bool :=
  let pops := l.flatMap fun z => queuePops z.2.1
  let adds := l.flatMap fun z => (queueAppends z.2.1).map fun q => (q, 1)
  let reads := fun (q : Nat) => (v.x.queue q).cfg && !(v.x.queue q).spo
  (queueOffsets t.2.1).any (fun r => reads r.1 && decide ((v.x.queue r.1).depth ≤ r.2))
  || (queuePops t.2.1).any (fun r => reads r.1 && decide ((v.x.queue r.1).depth < total pops r.1))
  || (queueAppends t.2.1).any fun q => (v.x.queue q).cfg && (v.u.asking.contains q || decide (v.space q < total adds q))

/-- Cause 3: a slot it reads is not present. -/
def View.absent (v : View) (t : Todo) : Bool :=
  match presentSlot t.2.1 with
  | some (q, k) =>
    let y := v.x.queue q
    y.cfg && !y.spo && !y.present (y.head + BitVec.ofNat 16 k)
  | none => false

/-- Cause 4: the command queue of its engine is full. -/
def View.queueFull (v : View) (l : List Todo) (t : Todo) : Bool :=
  match engineOf t.2.1 with
  | some e => decide (queueDepth e < v.u.queuedCmds e + (l.filter fun z => decide (engineOf z.2.1 = some e)).length)
  | none => false

/-- Cause 5: it needs a landing-buffer entry, and the bundle needs more than are free. -/
def View.noLanding (v : View) (l : List Todo) (t : Todo) : Bool :=
  !t.2.2.lands.isEmpty && decide (8 < v.u.landings.length + (l.map fun z => z.2.2.lands.length).sum)

/-- Cause 6: a matrix command waits for the lease that its context has asked for, or for its accumulators. -/
def View.noMatrix (v : View) (t : Todo) : Bool :=
  decide (engineOf t.2.1 = some Engine.mat)
    && (v.u.accPending || (!v.mat.share && (decide (v.mat.holder ≠ some v.k) && v.mat.requests.contains v.k || v.noLease)))

/-- Causes 15 and 16: WAITTL and a full FENCE wait for operations that have not completed. -/
def View.timeline (v : View) (t : Todo) : Option Nat :=
  match t.2.1 with
  | .waittl a e =>
    let n := match a with
      | .reg r => (v.x.readS r.val).toNat
      | .lat i => match v.x.readLatch i .s with
        | .ok w => (w.setWidth 64).toNat
        | .error _ => 0
    if v.u.open_.any fun o => decide (o.1 = e) && decide (o.2 ≤ n) then some 15 else none
  | .fence _ => if v.u.open_.any fun o => decide (o.1 = .lsu) then some 16 else none
  | _ => none

/-- The first slot for which a test holds. -/
def heldBy (l : List Todo) (cause : Nat) (f : Todo → Bool) : Option (Nat × Option Slot) :=
  (l.find? f).map fun t => (cause, some t.1)

/-- What holds a bundle: the least cause, with the slot. An illegal bundle is held by nothing. -/
def View.blockedBy (v : View) (b : Bundle) (left : BitVec 6) : Option (Nat × Option Slot) :=
  if v.x.arrived then some (7, v.x.barSlot)
  else if b.illegal.isSome then none
  else
    let l := todoOf b left
    heldBy l 1 v.pending <|> heldBy l 2 (v.queueHeld l) <|> heldBy l 3 v.absent <|> heldBy l 4 (v.queueFull l)
      <|> heldBy l 5 (v.noLanding l) <|> heldBy l 6 v.noMatrix
      <|> l.findSome? fun t => (v.timeline t).map fun n => (n, some t.1)

/-- The state as it stands. -/
def State.viewNow (s : State) (c k : Nat) (u : Unit) : View := ⟨(s.ctx c k).atEntry, u, k, (s.core c).mat, false⟩

/-! ### Eligibility -/

/-- Whether a context is at rest for its next bundle: a unit that still runs, and no wait cycle, penalty, trap step, move,
rouse, drain wait, overdue switch or trap before it. -/
def State.atRest (s : State) (c k : Nat) : Bool :=
  let x := s.ctx c k
  match x.unit.bind fun u => (s.unit u).map fun y => (u, y) with
  | some (u, y) => !s.halted && decide (y.life = .live) && !s.unitEnding u && decide (x.waits = 0) && decide (x.penalty ≤ s.now)
      && decide (x.busy ≤ s.now) && decide (x.moving ≤ s.now) && decide (x.bank = .on) && x.draining.isNone
      && !x.overdue s.now && !s.asyncDue c k
  | none => false

/-- Whether a freeze of its domain keeps a context from advancing; only a context in a trap handler advances (R147, R371). -/
def State.frozen (s : State) (c k : Nat) : Bool :=
  let x := s.ctx c k
  match x.unit.bind s.unit with
  | some y => y.static && !x.csr.inTrap && ((find s.launches y.launch).bind (·.freeze)).isSome
  | none => false

/-- The bundle that a context may issue in this core cycle. -/
def State.eligible (s : State) (c k : Nat) : Option Upcoming :=
  if !s.atRest c k || s.frozen c k then none
  else match (s.ctx c k).unit.bind s.unit, s.upcoming c k with
    | some _, .missing _ => none
    | some _, .fault _ => none
    | some y, .bundle b left => if ((s.viewNow c k y).blockedBy b left).isSome then none else some (.bundle b left)
    | none, _ => none

/-- Contexts of a core whose next bundle cannot be read whole: the fetch fault is reported, and nothing issues (R111). -/
def State.fetchFaults (s : State) (c : Nat) : List Nat :=
  [0, 1, 2, 3].filter fun k => s.atRest c k && !s.frozen c k && !(s.ctx c k).arrived && match s.upcoming c k with
    | .fault _ => true
    | _ => false

/-- The merge stage: the contexts of a core that issue, primary first (R142). -/
def State.mergeStage (s : State) (c : Nat) : List Nat :=
  let l := [0, 1, 2, 3].filterMap fun k => (s.eligible c k).map fun b => (k, b.merge)
  match l with
  | [] => []
  | (k, m) :: rest => k :: ((rest.find? fun r => (r.2 &&& m) == 0).map (·.1)).toList

end Sys2Proof.Machine
end

