-- ==== Sys2Proof/Machine/Domain.lean ====
section
/-! DEFINITION. Timing domains: the presence lookahead, the freeze of a domain and its end (R14, R147 to R150, R333, R371, R391). -/
namespace Sys2Proof.Machine

/-! ### The lookahead's view (R148) -/

/-- The state before something cleared, as far as a bundle's conditions go. -/
def View.undo (v : View) : Clear → View
  | .reg c n => { v with u := { v.u with landings := v.u.landings ++ [⟨0, c, n, none, none, 0⟩] } }
  | .pres q i => { v with x := v.x.setQueue q { v.x.queue q with pres := (v.x.queue q).pres &&& ~~~(BitVec.twoPow 256 i) } }
  | .free q n =>
    let y := v.x.queue q
    let b := BitVec.ofNat 16 n
    { v with x := v.x.setQueue q (if y.spo then { y with sfree := y.sfree - b } else { y with free := y.free - b }) }
  | .tail q n => { v with x := v.x.setQueue q { v.x.queue q with tail := (v.x.queue q).tail - BitVec.ofNat 16 n } }
  | .cmd e => { v with u := { v.u with cmds := v.u.cmds ++ [Cmd.blank e (.nop 0 false false)] } }
  | .land => v
  | .sector _ => v
  | .done e n => { v with u := { v.u with open_ := v.u.open_ ++ [(e, n)] } }
  | .barrier => { v with x := { v.x with arrived := true } }
  | .answer q => { v with u := { v.u with asking := v.u.asking ++ [q] } }
  | .lease => { v with noLease := true }

/-- What has cleared since the start of core cycle now − 4. -/
def Ctx.since (x : Ctx) (now : Nat) : List Clear := (x.recent.filter fun r => decide (now < r.1 + 4)).map (·.2)

/-- The conditions as they stood four cycles ago, with the context's own bundles counted. -/
def State.viewBefore (s : State) (c k : Nat) (u : Unit) : View :=
  ((s.ctx c k).since s.now).foldl View.undo (s.viewNow c k u)

/-- Whether some sector of the next bundle has arrived since the start of core cycle now − 4. -/
def Ctx.lateSector (x : Ctx) (now len : Nat) : Bool :=
  (x.since now).any fun r => match r with
    | .sector va => overlaps va 64 (va56 x.pc) len
    | _ => false

/-- Whether the context has branched in the last four core cycles: its fetch could then not be tested in time (R149). -/
def Ctx.justBranched (x : Ctx) (now : Nat) : Bool := decide (x.penalty ≠ 0) && decide (now ≤ x.penalty)

/-! ### Why a static context cannot advance (R149, R150) -/

/-- A reason: the interlock cause, 0 for a taken-branch penalty; the slot; and whether it is one of the lookahead. -/
structure Why where
  core : Nat
  cause : Nat
  slot : Option Slot
  pc : Word
  cc : Nat
  look : Bool
deriving DecidableEq, Repr

/-- The bundle a context waits to issue, as a reason. -/
def Ctx.why (x : Ctx) (core cause : Nat) (slot : Option Slot) (look : Bool) : Why :=
  if cause = 7 then ⟨core, 7, slot, x.lastPc, x.lastCc, look⟩ else ⟨core, cause, slot, x.pc, x.cc, look⟩

/-- Why a static context cannot advance in this core cycle; `ahead` asks for the lookahead's view too. -/
def State.staticWhy (s : State) (ahead : Bool) (u : Nat) (y : Unit) : Option Why :=
  let c := y.core
  let x := s.ctx c 0
  let k := 0
  if x.unit ≠ some u then some (x.why c 9 none false)
  else if x.csr.inTrap || decide (s.now < x.busy) then some (x.why c 17 none false)
  else if x.waits ≠ 0 then none
  else if s.now < x.moving ∨ x.bank ≠ .on then some (x.why c 9 none false)
  else if s.now < x.penalty then some (x.why c (if x.lostLoop then 11 else 0) none false)
  else if x.draining.isSome then some (x.why c 10 none false)
  else match s.upcoming c k with
    | .missing _ => some (x.why c 8 none (!x.justBranched s.now))
    | .fault _ => none
    | .bundle b left =>
      let late := ahead && !x.justBranched s.now && x.lateSector s.now (2 * b.hdr.len)
      if late then some (x.why c 8 none true)
      else
        let before := if ahead then (s.viewBefore c k y).blockedBy b left else none
        match before <|> (s.viewNow c k y).blockedBy b left with
        | some (n, sl) => some (x.why c n sl true)
        | none => none

/-- The static contexts of a domain that are still in its lock step. -/
def State.statics (s : State) (l : Nat) : List (Nat × Unit) :=
  s.units.filter fun u => decide (u.2.launch = l) && u.2.static && decide (u.2.life = .live) && !u.2.exited

def State.domainWhy (s : State) (l : Nat) (ahead : Bool) : List Why := (s.statics l).filterMap fun u => s.staticWhy ahead u.1 u.2

/-! ### Freezes (R147 to R150, R371) -/

def Why.charge (w : Why) : Option FreezeCause := if w.cause = 0 then none else some ⟨w.core, w.cause, w.slot, w.pc, w.cc, false⟩

/-- What the freeze of a domain becomes at the start of this core cycle. A freeze that the lookahead caused ends four cycles
after every test of R148 has passed, whatever else may then freeze the domain anew; another ends as soon as its reasons have
gone; a trap keeps both. -/
def State.freezeNext (s : State) (l : Nat) (x : Launch) : Option Freeze :=
  if x.ending.isSome || !x.isPlaced || s.halted then none
  else match x.freeze with
    | none =>
      let why := s.domainWhy l true
      if why.isEmpty then none else some ⟨s.now, why.any (·.look), why.filterMap Why.charge, none⟩
    | some f =>
      let now := s.domainWhy l false
      let why := now.filter fun w => w.look == f.look
      let traps := (now.filter fun w => decide (w.cause = 17)).filterMap Why.charge
      let new := traps.filter fun g => !f.causes.any fun h => decide (h.core = g.core) && decide (h.cause = 17)
      let f := { f with causes := f.causes ++ new, resumeAt := if traps.isEmpty then f.resumeAt else none }
      if why.isEmpty && traps.isEmpty && f.resumeAt.isNone then some { f with resumeAt := some (if f.look then s.now + 4 else s.now) } else some f

/-- Whether the freeze of a domain begins or changes. -/
def State.freezeDue (s : State) (l : Nat) (x : Launch) : Bool :=
  (x.record.any fun (r : PRecord) => r.domain.isSome) && decide (s.freezeNext l x ≠ x.freeze)

/-- DOMAIN_FREEZE: a failed lookahead, or a context that cannot issue, freezes the domain from this core cycle on; in a freeze the
tests are made again. A freeze that the end of its launch or a halt cuts short ends as others do. -/
def execDomainFreeze (l : Nat) (s : State) : Res :=
  .next (match find s.launches l with
    | some x =>
      if s.freezeDue l x then
        match s.freezeNext l x, x.freeze with
        | none, some f => s.endFreeze l f
        | g, _ => s.onLaunch l fun y => { y with freeze := g }
      else s
    | none => s)

/-- Whether a frozen domain resumes now. -/
def State.resumeDue (s : State) (x : Launch) : Bool :=
  match x.freeze with
  | some f => match f.resumeAt with
    | some t => decide (t ≤ s.now)
    | none => false
  | none => false

/-- DOMAIN_RESUME: the freeze ends. -/
def execDomainResume (l : Nat) (s : State) : Res :=
  .next (match find s.launches l with
    | some x => match x.freeze with
      | some f => if s.resumeDue x then s.endFreeze l f else s
      | none => s
    | none => s)

end Sys2Proof.Machine
end

