-- ==== Sys2Proof/Machine/Launch.lean ====
section
/-! DEFINITION. Launch acceptance: the LAUNCH node, the reservation and clearing of cores, and placement
(R86, R87, R98 to R103, R109). -/
namespace Sys2Proof.Machine

/-! ### The LAUNCH node (R86) -/

/-- A launch in a phase of its own, and the walker waits for it. -/
def State.openLaunch (s : State) (j : Nat) (x : Job) (n : LaunchNode) (loaded : Option Loaded) (record : Option PRecord) (phase : LPhase) :
    Nat × State :=
  let l := s.nextKey
  let y : Launch := {
    job := j, asid := x.asid, counter := n.counter, node := n, loaded, record, phase, phaseIdx := x.phase
    n := ((record.map (·.units.length)).getD 0), nextNumber := 0, returned := 0, pools := [], ending := none, barriers := []
    freeze := none, reuse := [], paged := false }
  (l, { s with nextKey := l + 1, launches := put s.launches l y }.onJob j fun x => { x with launches := x.launches ++ [l], paged := false })

/-- What the first three steps of acceptance come to. -/
inductive Accept where
  | ok (o : Loaded) (r : PRecord)
  | wait
  | refuse (detail loaderr : Nat)
deriving DecidableEq, Repr

/-- Whether a core of the record holds units of another launch under the other sharing mode (R100). -/
def State.shareClash (s : State) (l : Nat) (r : PRecord) : Bool :=
  s.units.any fun u => decide (u.2.launch ≠ l) && r.cores.contains u.2.core
    && ((find s.launches u.2.launch).bind (·.record)).any fun (q : PRecord) => q.share != r.share

/-- Whether the record names a core that is retired, or one of a die that is not ready (R373, R410). -/
def State.coreMissing (s : State) (r : PRecord) : Bool := r.cores.any fun c => (s.core c).retired || !s.regs.ready.getLsbD (dieOf c)

/-- Entry records of a placement record, each of 16 bytes. -/
def State.readPlacement (s : State) (ev : Event) (die asid : Nat) (va : Word) : Work (Option PRecord) :=
  if va.toNat % 64 ≠ 0 then (.ok none, s)
  else match s.devRead ev die asid va 64 with
    | (.error e, s) => (.error e, s)
    | (.ok h, s) =>
      let n := entriesOf h
      if n = 0 ∨ 2560 < n then (.ok none, s)
      else match s.devRead ev die asid (va + 64) (16 * n) with
        | (.error e, s) => (.error e, s)
        | (.ok b, s) => (.ok (placeRecord h (chunksOf b 16 n)), s)

/-- Whether a region is smaller than its function needs (R24). -/
def PRecord.tooSmall (r : PRecord) (o : Loaded) : Bool :=
  r.units.any fun e => (o.funcs[e.func]?).any fun (f : FnInfo) => decide (e.size < f.priv)

/-- The ASID entry, the code object and the placement record, in this order; the object is written when all are found in order, so that
a refusal leaves no code loaded (R24). -/
def State.accept (s : State) (ev : Event) (x : Job) (n : LaunchNode) : Accept × State :=
  let (e, s) := s.asidEntry x.die x.asid
  if !e.ok || !s.regs.asidtab.getLsbD 0 then (.refuse 2 0, s)
  else match s.loadObject ev x.die x.asid n.code ⟨n.sbud, n.vbud, n.pbud⟩ with
    | (.error .wait, s) => (.wait, s)
    | (.error (.code c), s) => (.refuse 1 c, s)
    | (.ok p, s) => match s.readPlacement ev x.die x.asid n.placement with
      | (.error none, s) => (.wait, s)
      | (.error (some _), s) => (.refuse 3 0, s)
      | (.ok none, s) => (.refuse 3 0, s)
      | (.ok (some r), s) =>
        if !r.wellFormed p.loaded.funcs || s.coreMissing r || s.shareClash 0 r then (.refuse 3 0, s)
        else if r.tooSmall p.loaded then (.refuse 1 9, s)
        else match s.writeImage ev x.die x.asid p with
          | (.error .wait, s) => (.wait, s)
          | (.error (.code c), s) => (.refuse 1 c, s)
          | (.ok o, s) => (.ok o r, s)

/-- Core cycles that a launch may wait for its contexts; none for no limit (R101). -/
def Regs.placeLimit (r : Regs) : Option Nat := let n := field r.placeto 0 32; if n = 0 then none else some n

/-! ### Contexts (R101, R102) -/

/-- Rows that a timing domain covers. -/
def PRecord.rows (r : PRecord) : List (Nat × Nat) := match r.domain with
  | some (die, m) => ((List.range 8).filter fun i => m.getLsbD i).map fun i => (die, i)
  | none => []

/-- Whether launch `m` keeps `l` from a core: it is of another domain and holds contexts there, it waits there and came earlier,
or the two have a row of static contexts in common (R14, R101). -/
def Launch.blocks (m l : Launch) (earlier : Bool) : Bool :=
  match m.record, l.record with
  | some a, some b =>
    let common := a.unitCores.any fun c => b.unitCores.contains c
    let named := a.cores.any fun c => b.cores.contains c
    let queued := match m.phase with
      | .waiting _ => earlier
      | _ => false
    (m.holds && decide (m.asid ≠ l.asid) && common) || (queued && named) || (m.holds && a.rows.any fun r => b.rows.contains r)
  | _, _ => false

/-- Whether the contexts and unit-table entries of a launch can be reserved now. -/
def State.contextsFree (s : State) (l : Nat) (x : Launch) : Bool :=
  !(s.launches.any fun m => decide (m.1 ≠ l) && !(decide (m.2.job = x.job) && decide (m.2.phase = .reserved))
      && m.2.blocks x (decide (m.1 < l)))
  && match x.record with
    | some r => r.unitCores.all fun c => decide (s.tableUsed c + (r.units.filter fun e => decide (e.core = c)).length ≤ 64)
    | none => false

/-- A launch that a GANGARM has reserved is taken up by its node, under a key of the pass it now belongs to (R85, R96). -/
def State.takeUp (s : State) (l : Nat) (y : Launch) : Nat × State :=
  let k := s.nextKey
  let y := { y with phase := if s.contextsFree l y then .preparing s.now s.now else .waiting s.now }
  (k, ({ s with nextKey := k + 1, launches := put (del s.launches l) k y } : State).onJob y.job fun x => { x with launches := x.launches ++ [k] })

/-- LAUNCH (R86): the object is loaded, the placement record checked, and the launch waits for its contexts or is refused. A
launch that a GANGARM has reserved is taken up (R96). -/
def execLaunch (j : Nat) (n : LaunchNode) (s : State) : Res :=
  .next (match find s.jobs j with
    | none => s
    | some x =>
      if x.walking ≠ Walking.node then s
      else
        let ev := Event.launch j n
        let follow := fun (s : State) (l : Nat) => s.onJob j fun x => { x with walking := .forLaunch l n.hdr.nxt n.hdr.wc }
        let held := s.launches.find? fun l => decide (l.2.job = j) && decide (l.2.phase = .reserved) && decide (l.2.node = n)
        match held with
        | some (l, y) =>
          let (k, s) := s.takeUp l y
          follow s k
        | none => match s.accept ev x n with
          | (.wait, s) => s.onJob j fun x => { x with paged := true }
          | (.refuse d e, s) =>
            let (l, s) := (s.forget ev).openLaunch j x n none none (.refusing d e)
            follow s l
          | (.ok o r, s) =>
            let (l, s) := (s.forget ev).openLaunch j x n (some o) (some r) (.waiting s.now)
            follow s l)

/-- A named context whose bank is off wakes in 64 cycles. -/
def wakeIf (ctxs : List Nat) (now k : Nat) (x : Ctx) : Ctx :=
  if ctxs.contains k && decide (x.bank = .off) then { x with bank := .waking (now + 64) } else x

/-- A named core passes to the launch's domain: it is cleared, or its banks that are off wake. -/
def State.claimCore (s : State) (asid : Nat) (ctxs : List Nat) (c : Nat) : State :=
  let y := s.core c
  match y.asid with
  | some a =>
    if a = asid then
      s.onCore c fun y => { y with ctxs := if y.clearing.isNone then y.ctxs.mapIdx (wakeIf ctxs s.now) else y.ctxs }
    else
      (s.onCore c fun y => { y with asid := some asid, clearing := some (s.now + 3072) }).after 3072 (.coreClear c)
  | none =>
    s.onCore c fun y => { y with asid := some asid, ctxs := y.ctxs.mapIdx (wakeIf ctxs s.now) }

/-- Reserve a launch's contexts. -/
def State.claimAll (s : State) (x : Launch) : State :=
  match x.record with
  | some r => r.unitCores.foldl (fun s c => s.claimCore x.asid ((r.units.filter fun e => decide (e.core = c)).map (·.ctx)) c) s
  | none => s

/-- The core cycle at which every named core is cleared and every named bank awake. -/
def State.readyAt (s : State) (x : Launch) : Nat :=
  match x.record with
  | some r => r.units.foldl (fun t e =>
      let y := s.core e.core
      let w := match (y.ctx e.ctx).bank with
        | .waking u => u
        | _ => s.now
      max t (max w (y.clearing.getD s.now))) s.now
  | none => s.now

/-- The core after clearing (R102): a bank that a launch holds is on, another is powered off (R109). What belongs to no program
stays. -/
def Core.clear (x : Core) (held : Nat → Bool) (now : Nat) : Core :=
  { Core.cleared with
    ctxs := Vector.ofFn fun k : Fin 4 => { Ctx.cleared with
      bank := if held k.val then .on else .off, idleSince := now, csr := Csrs.cleared }
    nextPlace := x.nextPlace
    maint := x.maint
    devcyc := x.devcyc
    brconf := x.brconf
    loads := x.loads
    utlb := x.utlb
    asid := x.asid
    retired := x.retired }

/-- CORE_CLEAR: clearing ends. -/
def execCoreClear (c : Nat) (s : State) : Res :=
  .next (match (s.core c).clearing with
    | some t =>
      if s.now < t then s
      else s.onCore c fun x => x.clear (fun k => s.launches.any fun l => l.2.reserves c k) s.now
    | none => s)

/-! ### Placement (R86 steps 5 and 6, R87, R99) -/

/-- Weight of initial unit `i` of `n`. -/
def initialWeight (n i : Nat) : Nat := 2 ^ 63 / n + (if i = 0 then 2 ^ 63 % n else 0)

/-- The eight arguments of initial unit `i`. -/
def argWords (b : List Byte) (i : Nat) : List Word := (List.range 8).map fun k => recWord (b.drop (64 * i)) k

def PRecord.isStatic (r : PRecord) (e : PEntry) : Bool := match r.domain with
  | some (die, m) => decide (e.ctx = 0) && (domainCores die m).contains e.core
  | none => false

/-- The initial units, in entry order; answers their keys by entry index. -/
def State.placeUnits (s : State) (l : Nat) (x : Launch) (o : Loaded) (r : PRecord) (args : List Byte) : List (Nat × Nat) × State :=
  let ents := r.entries.zipIdx.filter fun e => !e.1.kind
  ents.zipIdx.foldl (fun acc e =>
    let p := e.1.1
    let i := e.2
    let f := (o.funcs[p.func]?).getD ⟨0, 0, 0, 0, 0, 0, 0, 0⟩
    let y := freshUnit p.core p.ctx l (i + 1) (acc.2.freeIndex p.core) (i + 1) x.asid f o.gp (argWords args i) p.off p.size p.rank
      (initialWeight ents.length i)
    let (u, s) := acc.2.addUnit { y with static := r.isStatic p }
    (acc.1 ++ [(e.1.2, u)], s)) ([], s)

/-- Partners by key (R99). -/
def State.linkPartners (s : State) (r : PRecord) (keys : List (Nat × Nat)) : State :=
  keys.foldl (fun s k =>
    match r.entries[k.1]? with
    | some e => s.onUnit k.2 fun x => { x with partner := (keys.find? fun q => decide (q.1 = e.partner)).map (·.2) }
    | none => s) s

/-- The named cores take the sharing mode, their contexts a fresh slice, and their caches drop lines of the loaded text. -/
def State.prepareCores (s : State) (x : Launch) (o : Loaded) (r : PRecord) : State :=
  let stale := fun (l : ILine) => decide (l.asid = x.asid) && overlaps l.va 512 o.textVa o.textLen
  let fresh := fun (c k : Nat) (z : Ctx) =>
    if r.units.any fun (e : PEntry) => decide (e.core = c) && decide (e.ctx = k) then { z with freshSlice := true } else z
  r.cores.foldl (fun s c => s.onCore c fun y =>
    let y := y.dropLines stale
    { y with mat := { y.mat with share := r.share }, ctxs := y.ctxs.mapIdx (fresh c) }) s

/-- Pools of a record. -/
def PRecord.pools (r : PRecord) : List Pool := (r.entries.filter (·.kind)).map fun e => ⟨e.core, e.off, e.size, []⟩

/-- The units enter their run queues. -/
def State.placeLaunch (s : State) (l : Nat) (x : Launch) (o : Loaded) (r : PRecord) (args : List Byte) : State :=
  let s := s.prepareCores x o r
  let (keys, s) := s.placeUnits l x o r args
  ((s.linkPartners r keys).onLaunch l fun x => { x with
    phase := .placed, nextNumber := r.units.length + 1, pools := r.pools }).noteBegun x.asid .launch x.counter

/-- The final write of a launch that has placed nothing. -/
def State.endUnplaced (s : State) (l : Nat) (x : Launch) (e : Ending) : State :=
  let ev := Event.launchPlace l
  let die := ((find s.jobs x.job).map (·.die)).getD 0
  let fin := fun (s : State) => (s.forget ev).finishLaunch l e
  match s.counterEnd ev die x.asid x.counter 0 none e with
  | (.error none, s) => s.onLaunch l fun x => { x with paged := true }
  | (.error (some _), s) => (fin s).recordFailed x.job
  | (.ok _, s) => fin s

/-- The arguments are read, the counter begins, and the units are placed. -/
def State.startLaunch (s : State) (l : Nat) (x : Launch) (o : Loaded) (r : PRecord) : State :=
  let ev := Event.launchPlace l
  let die := ((find s.jobs x.job).map (·.die)).getD 0
  if s.shareClash l r then s.onLaunch l fun x => { x with phase := .refusing 3 0 }
  else match s.devRead ev die x.asid x.node.args (64 * r.units.length) with
    | (.error none, s) => s.onLaunch l fun x => { x with paged := true }
    | (.error (some _), s) => (s.forget ev).onLaunch l fun x => { x with phase := .refusing 5 0 }
    | (.ok b, s) => match s.counterBegin ev die x.asid x.counter with
      | (.error none, s) => s.onLaunch l fun x => { x with paged := true }
      | (.error (some _), s) => ((s.forget ev).endLaunch l 3 graphRecord.code).recordFailed x.job
      | (.ok _, s) => (s.forget ev).placeLaunch l x o r b

/-- Whether the job of a launch is an armed gang member's, whose nodes are not visited yet. -/
def State.armedLaunch (s : State) (x : Launch) : Bool := ((find s.jobs x.job).map fun j => decide (j.walking = .armed)).getD false
/-- Whether a launch that is not placed yet names a core that has retired since (R373). -/
def State.lostCore (s : State) (x : Launch) : Bool := !s.armedLaunch x && x.record.any s.coreMissing

/-- Whether the wait of a launch for its contexts, their clearing and their wake has exceeded PLACETO as it now stands (R101). -/
def State.placeLate (s : State) (x : Launch) : Bool :=
  !s.armedLaunch x && (match s.regs.placeLimit, x.phase with
    | some n, .waiting t => decide (t + n < s.now)
    | some n, .preparing t until_ => decide (t + n < s.now) && (decide (s.now < until_) || decide (s.now < s.readyAt x))
    | _, _ => false)

/-- One advance of a launch that is not placed. -/
def State.advanceLaunch (s : State) (l : Nat) (x : Launch) : State :=
  match x.phase, x.ending with
  | .refusing d e, _ => s.endUnplaced l x ⟨5, 0, d, e⟩
  | .placed, _ => s
  | .ended _, _ => s
  | _, some (st, c) => s.endUnplaced l x ⟨st, c, 0, 0⟩
  | .waiting t, none =>
    if s.lostCore x then s.onLaunch l fun x => { x with phase := .refusing 3 0 }
    else if s.contextsFree l x then
      let armed := s.armedLaunch x
      let s := s.claimAll x
      s.onLaunch l fun y => { y with phase := if armed then .reserved else .preparing t (s.readyAt x) }
    else s
  | .reserved, none => s
  | .preparing t until_, none =>
    let ready := s.readyAt x
    if s.lostCore x then s.onLaunch l fun x => { x with phase := .refusing 3 0 }
    else if s.now < until_ ∨ s.now < ready then s.onLaunch l fun y => { y with phase := .preparing t ready }
    else match x.loaded, x.record with
      | some o, some r => s.startLaunch l x o r
      | _, _ => s

/-- Whether a launch can advance. -/
def State.launchDue (s : State) (l : Nat) (x : Launch) : Bool :=
  !x.paged && (match x.phase with
    | .waiting _ => x.ending.isSome || s.lostCore x || s.contextsFree l x
    | .reserved => x.ending.isSome
    | .preparing _ t => x.ending.isSome || s.lostCore x || decide (t ≤ s.now)
    | .placed => false
    | .refusing .. => true
    | .ended _ => false)

/-- LAUNCH_PLACE. -/
def execLaunchPlace (l : Nat) (s : State) : Res :=
  .next (match find s.launches l with
    | some x => (s.onLaunch l fun x => { x with paged := false }).advanceLaunch l x
    | none => s)

/-- PLACE_TIMEOUT (R101). -/
def execPlaceTimeout (l : Nat) (s : State) : Res :=
  .next (match find s.launches l with
    | some x => if s.placeLate x then s.onLaunch l fun x => { x with phase := .refusing 4 0 } else s
    | none => s)

end Sys2Proof.Machine
end

