-- ==== Sys2Proof/Machine/Completions.lean ====
section
/-! DEFINITION. The command and completion queues of the host ports (R79, R80, R336), and the waits of gangs (R96, R97). -/
namespace Sys2Proof.Machine

def State.port (s : State) (p : Fin 2) : Port := s.ports[p]
def State.onPort (s : State) (p : Fin 2) (f : Port → Port) : State := { s with ports := s.ports.set p (f s.ports[p]) }

/-- Entries of a queue by its CQCTL or CPLCTL. -/
def queueSize (ctl : Word) : Nat := 2 ^ (min 10 (field ctl 0 4) + 6)
def queueBase (ctl : Word) : Nat := field ctl 12 40 * 4096

def Port.cqSize (x : Port) : Nat := queueSize x.cqctl
def Port.cplSize (x : Port) : Nat := queueSize x.cplctl
/-- The device consumes a command only when CQTAIL differs from CQHEAD. -/
def Port.hasCommand (x : Port) : Bool := decide (x.cqhead.toNat % x.cqSize ≠ x.cqtail.toNat % x.cqSize)
/-- At most size − 1 completions stand unread. -/
def Port.cplFull (x : Port) : Bool := decide ((x.cpltail.toNat + 1) % x.cplSize = x.cplhead.toNat % x.cplSize)

/-- The bytes of a completion. -/
def completion (tag : BitVec 16) (status : Nat) (value : Word) : List Byte :=
  leBytes tag.toNat 2 ++ leBytes status 2 ++ leBytes 0 4 ++ le64 value.toNat

/-- Write one completion, then advance CPLTAIL past it. -/
def State.writeCompletion (s : State) (p : Fin 2) (tag : BitVec 16) (status : Nat) (value : Word) : State :=
  let x := s.port p
  let i := x.cpltail.toNat % x.cplSize
  (s.poke (queueBase x.cplctl + 16 * i) (completion tag status value)).onPort p fun x =>
    { x with cpltail := BitVec.ofNat 16 ((i + 1) % x.cplSize) }

/-- Write the completions that are known, in the order of consumption, while the queue has room. -/
def State.flushPending (s : State) (p : Fin 2) : List Pending → State
  | [] => s.onPort p fun x => { x with pending := [] }
  | c :: rest => match c.done with
    | some (st, v) =>
      if (s.port p).cplFull then s.onPort p fun x => { x with pending := c :: rest }
      else (s.writeCompletion p c.tag st v).flushPending p rest
    | none => s.onPort p fun x => { x with pending := c :: rest }

def State.flush (s : State) (p : Fin 2) : State := s.flushPending p (s.port p).pending

/-- Consume the command at the head of a queue. -/
def State.consume (s : State) (p : Fin 2) : State :=
  s.onPort p fun x => if x.hasCommand then { x with cqhead := BitVec.ofNat 16 ((x.cqhead.toNat + 1) % x.cqSize) } else x

/-- Consume a command whose completion is known. -/
def State.answer (s : State) (p : Fin 2) (tag : BitVec 16) (status : Nat) (value : Word := 0) : State :=
  ((s.consume p).onPort p fun x => { x with pending := x.pending ++ [⟨tag, 0, some (status, value)⟩] }).flush p

/-- Consume a command that completes later, under a key. -/
def State.defer (s : State) (p : Fin 2) (tag : BitVec 16) (key : Nat) : State :=
  (s.consume p).onPort p fun x => { x with pending := x.pending ++ [⟨tag, key, none⟩] }

/-- The completion of a deferred command is known. -/
def State.settleCommand (s : State) (p : Fin 2) (key status : Nat) (value : Word) : State :=
  let fix := fun (c : Pending) => if c.key = key && c.done.isNone then { c with done := some (status, value) } else c
  (s.onPort p fun x => { x with pending := x.pending.map fix }).flush p

/-- The command that a port consumes next, once CP is ready and the completion queue has room (R79, R410). -/
def State.commandDue (s : State) (p : Fin 2) : Option Event :=
  let x := s.port p
  if x.hasCommand && !x.cplFull && s.isReady .cp then
    some (hostCommand p (s.peek (queueBase x.cqctl + 64 * (x.cqhead.toNat % x.cqSize)) 64))
  else none

/-- A STATUS that the spec leaves open (log entry 7). -/
def State.openStatus (s : State) : Nat × State := let (n, s) := s.draw; ((Config.freeWord n).toNat % 65536, s)

end Sys2Proof.Machine
end

