-- ==== Sys2Proof/Machine/Gangs.lean ====
section
/-! DEFINITION. Arming a gang member: the contexts of its first phase are reserved before GANGGO (R96). -/
namespace Sys2Proof.Machine

/-- A fresh job for a walker. -/
def Job.fresh (port asid die : Nat) (record : Word) (walking : Walking) : Job where
  port := port
  asid := asid
  die := die
  record := record
  phtab := 0
  nphase := 0
  jcnt := 0
  phase := 0
  glist := 0
  ngraph := 0
  pcnt := 0
  graphsDone := 0
  phasesDone := 0
  graph := 0
  gbase := 0
  gcnt := 0
  visited := 0
  node := 0
  frames := []
  walking := walking
  begunJob := false
  begunPhase := false
  begunGraph := false
  launches := []
  copies := []
  endGraph := none
  endPhase := none
  endJob := none
  todo := []
  seen := []
  counting := none
  paged := false

/-- A job is accepted on a die's walker; its key. -/
def State.addJob (s : State) (x : Job) : Nat × State := (s.nextKey, { s with nextKey := s.nextKey + 1, jobs := put s.jobs s.nextKey x })

/-- Node indexes that follow a node. -/
def Node.successors : Node → List Nat
  | .launch n => [n.hdr.nxt]
  | .copy n => [n.hdr.nxt]
  | .cond n => [n.hdr.nxt, n.taken]
  | .while_ n => [n.hdr.nxt, n.body]
  | .signal n => [n.hdr.nxt]
  | .wait n => [n.hdr.nxt]
  | .phaseend _ => []
  | .hostirq h _ => [h.nxt]

/-- Go on with the rest of what is to be read, and more. -/
def State.explored (s : State) (j : Nat) (ev : Event) (more : List Explore) : State :=
  (s.forget ev).onJob j fun x => { x with todo := more ++ x.todo.drop 1, paged := false }

/-- One read of the exploration: a wait for a page, or what to do with the bytes; a read that fails leads nowhere. -/
def State.exploreRead (s : State) (j : Nat) (x : Job) (ev : Event) (va : Word) (n : Nat) (f : State → List Byte → State) : State :=
  match s.devRead ev x.die x.asid va n with
  | (.error none, s) => s.onJob j fun x => { x with paged := true }
  | (.error (some _), s) => s.explored j ev []
  | (.ok b, s) => f s b

/-- A launch of the first phase waits for its contexts, which it then keeps. It belongs to no graph yet. -/
def State.reserveLaunch (s : State) (j : Nat) (n : LaunchNode) (o : Loaded) (r : PRecord) : State :=
  match find s.jobs j with
  | some x =>
    let (_, s) := s.openLaunch j x n (some o) (some r) (.waiting s.now)
    s.onJob j fun y => { y with launches := x.launches }
  | none => s

/-- A node record of the first phase: a launch that would be accepted is reserved, and its successors are read. -/
def State.exploreNode (s : State) (j : Nat) (x : Job) (ev : Event) (base : Word) (i : Nat) (b : List Byte) : State :=
  match nodeRecord b with
  | .error _ => s.explored j ev []
  | .ok n =>
    let more := (n.successors.filter fun k => decide (k < 0xFFFFFFFE)).map (Explore.node base ·)
    let seen := fun (s : State) => (s.explored j ev more).onJob j fun x => { x with seen := x.seen ++ [(base, i)] }
    match n with
    | .launch m => match s.accept ev x m with
      | (.wait, s) => s.onJob j fun x => { x with paged := true }
      | (.refuse _ _, s) => seen s
      | (.ok o r, s) => seen (s.reserveLaunch j m o r)
    | _ => seen s

/-- The gang of an arming member that cannot be read: its GANGARM completes with a STATUS that the spec leaves open. -/
def State.armFails (s : State) (j : Nat) (x : Job) (ev : Event) : State :=
  let (st, s) := (s.forget ev).openStatus
  { s with jobs := del s.jobs j }.settleCommand (Fin.ofNat 2 x.port) j st 0

/-- One read of an arming member. -/
def State.explore (s : State) (j : Nat) (x : Job) (ev : Event) : State :=
  match x.todo.head? with
  | none => s
  | some (.gang va) => (match s.devRead ev x.die x.asid va 64 with
    | (.error none, s) => s.onJob j fun x => { x with paged := true }
    | (.error (some _), s) => s.armFails j x ev
    | (.ok b, s) =>
      let g := gangRecord b
      let y : Gang := {
        id := g.id, job := some j, port := x.port, tag := 0, count := g.count, rank := g.rank, armed := none, gone := false
        waiting := none, waited := false }
      (({ s with gangs := s.gangs ++ [y] }.explored j ev [.job g.job]).onJob j fun x => { x with record := g.job }))
  | some (.job va) => s.exploreRead j x ev va 64 fun s b => match jobRecord b with
    | .ok r => (s.explored j ev [.phase r.phtab]).onJob j fun x => { x with jcnt := r.jcnt, begunJob := true }
    | .error _ => s.explored j ev []
  | some (.phase va) => s.exploreRead j x ev va 32 fun s b => match phaseRecord b with
    | some r => s.explored j ev [.graphs r.glist 0 r.ngraph]
    | none => s.explored j ev []
  | some (.graphs va i n) =>
    if n ≤ i then s.explored j ev []
    else s.exploreRead j x ev (va + BitVec.ofNat 64 (16 * i)) 16 fun s b => match graphRecordOf b with
      | some (base, _) => s.explored j ev [.node base 0, .graphs va (i + 1) n]
      | none => s.explored j ev [.graphs va (i + 1) n]
  | some (.node base i) =>
    if x.seen.contains (base, i) then s.explored j ev []
    else s.exploreRead j x ev (base + BitVec.ofNat 64 (64 * i)) 64 fun s b => s.exploreNode j x ev base i b

/-- Every context of the first phase is reserved. -/
def State.allReserved (s : State) (j : Nat) (x : Job) : Bool :=
  x.todo.isEmpty && s.launches.all fun l => decide (l.2.job ≠ j) || decide (l.2.phase = .reserved)
/-- The member has still to be armed. -/
def State.unarmed (s : State) (j : Nat) : Bool := ((s.gangOfJob j).map (·.armed.isNone)).getD true

/-- Whether an arming member can go on. -/
def State.armDue (s : State) (j : Nat) (x : Job) : Bool :=
  !x.paged && decide (x.walking = .armed) && s.unarmed j && (!x.todo.isEmpty || s.allReserved j x)

/-- Go on arming: GANGARM completes with value 1 once every context is reserved, and the wait for GANGGO begins. -/
def State.armOn (s : State) (j : Nat) (x : Job) (ev : Event) : State :=
  if !x.todo.isEmpty then s.explore j x ev
  else if s.unarmed j && s.allReserved j x then
    match s.gangOfJob j with
    | some g => (s.onGang g.id fun g => { g with armed := some s.now }).settleCommand (Fin.ofNat 2 x.port) j 0 1
    | none => s
  else s

/-- Release what a job has reserved and not taken up. -/
def State.releaseReserved (s : State) (j : Nat) : State :=
  { s with launches := s.launches.filter fun l => !(decide (l.2.job = j) && (decide (l.2.phase = .reserved)
      || ((find s.jobs j).map fun x => decide (x.walking = .armed)).getD false)) }

/-- A GANGARM that has not completed does so with a STATUS that the spec leaves open. -/
def State.unanswered (s : State) (j : Nat) (x : Job) : State :=
  if s.unarmed j then
    let (st, s) := s.openStatus
    s.settleCommand (Fin.ofNat 2 x.port) j st 0
  else s

/-- A member that has not gone is disarmed: its reservation is released, its job counter goes to STATE 3 with a cause, and the
device knows the gang no more. -/
def State.disarm (s : State) (j cause : Nat) : State :=
  match find s.jobs j with
  | none => s
  | some x =>
    let s := ((s.unanswered j x).releaseReserved j).onJob j fun x => { x with
      todo := [], launches := [], endJob := some ⟨3, cause, 0, 0⟩, walking := .closing .job false, paged := false }
    { s with gangs := s.gangs.filter fun g => decide (g.job ≠ some j) }

/-- Tell the other members of a gang, over the device links (R97). -/
def State.tellGang (s : State) (j cause : Nat) : State :=
  match s.gangOfJob j with
  | some g => { s with outs := s.outs ++ [.gangCancel g.id (BitVec.ofNat 16 cause)] }
  | none => s

/-- The core cycle since which a member stands in its first cross-device wait; none once that wait has ended. -/
def State.crossSince (s : State) (g : Gang) : Option Nat :=
  match g.waiting, g.job with
  | some (t, some rid), some _ => if (s.hal rid).any (fun h => decide (h.stage = .running)) then some t else none
  | some (t, none), some j => (match (find s.jobs j).map Job.walking with
    | some (.wait n since) => if n.g && decide (since = t) then some t else none
    | _ => none)
  | _, _ => none

/-- Whether an armed member has waited for GANGGO longer than GANGTO as it now stands (R96). -/
def State.armLate (s : State) (g : Gang) : Bool := !g.gone && g.armed.any fun t => decide (t + s.gangTimeout < s.now)
/-- Whether a member's first cross-device wait has lasted longer than GANGTO as it now stands (R97). -/
def State.crossLate (s : State) (g : Gang) : Bool := (s.crossSince g).any fun t => decide (t + s.gangTimeout < s.now)
/-- The gang whose time is over. -/
def State.gangDue (s : State) : Option Event :=
  s.gangs.findSome? fun g =>
    if s.armLate g then some (.gangArmTimeout g.id) else if s.crossLate g then some (.gangWaitTimeout g.id) else none

def State.gangById (s : State) (id : Word) : Option Gang := s.gangs.find? fun g => g.id == id

end Sys2Proof.Machine
end

