-- ==== Sys2Proof/Machine/Walker.lean ====
section
/-! DEFINITION. The graph walker: jobs, phases, graphs and their nodes (R81 to R85, R95, R401, R402, R413). -/
namespace Sys2Proof.Machine

/-! ### Where the walker goes next -/

/-- Whether a launch or copy has ended. -/
def State.launchEnded (s : State) (l : Nat) : Bool := ((find s.launches l).map (·.isEnded)).getD true
def Job.copyDone (x : Job) (id : Nat) : Bool := ((x.copies.find? fun c => decide (c.1 = id)).map (·.2.done)).getD true
/-- Whether everything that the graph began from key `mark` on has ended. -/
def State.ended_ (s : State) (x : Job) (mark : Nat) : Bool :=
  (x.launches.all fun l => decide (l < mark) || s.launchEnded l) && x.copies.all fun c => decide (c.1 < mark) || c.2.done

def endOfGraph : Nat := 0xFFFFFFFF
def endOfBody : Nat := 0xFFFFFFFE

/-- The walker goes on at a node index, or at one of the two marks. -/
def State.goTo (s : State) (j next : Nat) : State :=
  match find s.jobs j with
  | none => s
  | some x =>
    if next = endOfGraph then s.onJob j fun x => { x with walking := .forGraph false, paged := false }
    else if next = endOfBody then
      (if x.frames.isEmpty then s.recordFailed j else s.onJob j fun x => { x with walking := .forPass, paged := false })
    else s.onJob j fun x => { x with walking := .fetch, node := next, paged := false }

/-- The walker waits for a page request of its own. -/
def State.walkerWaits (s : State) (j : Nat) : State := s.onJob j fun x => { x with paged := true }

/-- Go on with what a read or write of the walker gave: a wait, a graph fault for a read or write that fails, or the value. -/
def State.walkerDoes {α : Type} (j : Nat) (ev : Event) (r : Work α) (f : State → α → State) : State :=
  match r with
  | (.error none, s) => s.walkerWaits j
  | (.error (some _), s) => (s.forget ev).recordFailed j
  | (.ok a, s) => f s a

/-- Act as the event of the current node, if the walker still stands at it. -/
def State.atNode (s : State) (j : Nat) (f : Job → State) : State :=
  match find s.jobs j with
  | some x => if x.walking = Walking.node then f x else s
  | none => s

/-- An aligned word that the walker reads, with acquire at .sys scope (R84). -/
def State.walkerWord (s : State) (ev : Event) (x : Job) (va : Word) : Work Word :=
  match s.devRead ev x.die x.asid va 8 with
  | (.ok b, s) => (.ok (recWord b 0), s)
  | (.error e, s) => (.error e, s)

/-! ### Levels that begin (R78, R81, R83, R95) -/

/-- A job that its own record refuses ends with STATE 4. -/
def State.refuseJob (s : State) (j : Nat) (jcnt : Word) (e : Cond) : State :=
  s.onJob j fun x => { x with jcnt, endJob := x.endJob.or (some ⟨4, e.code, 0, 0⟩), begunJob := decide (jcnt.toNat % 32 = 0), walking := .closing .job false }

def State.openJob (s : State) (j : Nat) (x : Job) (ev : Event) : State :=
  match s.devRead ev x.die x.asid x.record 64 with
  | (.error none, s) => s.walkerWaits j
  | (.error (some _), s) => (s.forget ev).onJob j fun x => { x with walking := .closing .job false }
  | (.ok b, s) =>
    let rec_ := if x.record.toNat % 64 = 0 then jobRecord b else .error .record
    match rec_ with
    | .error e => (s.forget ev).refuseJob j (jobCounter b) e.cond
    | .ok r =>
      State.walkerDoes j ev (s.counterBegin ev x.die x.asid r.jcnt) fun s _ =>
        ((s.forget ev).onJob j fun x => { x with
          nphase := r.nphase, phtab := r.phtab, jcnt := r.jcnt, begunJob := true, phase := 0, phasesDone := 0, walking := .opening .phase
          paged := false }).noteBegun x.asid .job r.jcnt

def State.openPhase (s : State) (j : Nat) (x : Job) (ev : Event) : State :=
  State.walkerDoes j ev (s.devRead ev x.die x.asid (x.phtab + BitVec.ofNat 64 (32 * x.phase)) 32) fun s b =>
    match phaseRecord b with
    | none => (s.forget ev).recordFailed j
    | some r =>
      State.walkerDoes j ev (s.counterBegin ev x.die x.asid r.pcnt) fun s _ =>
        ((s.forget ev).onJob j fun x => { x with
          glist := r.glist, ngraph := r.ngraph, pcnt := r.pcnt, begunPhase := true, graph := 0, graphsDone := 0
          walking := .opening .graph, paged := false }).noteBegun x.asid .phase r.pcnt

def State.openGraph (s : State) (j : Nat) (x : Job) (ev : Event) : State :=
  State.walkerDoes j ev (s.devRead ev x.die x.asid (x.glist + BitVec.ofNat 64 (16 * x.graph)) 16) fun s b =>
    let base := recWord b 0
    let cnt := recWord b 1
    if cnt.toNat % 32 ≠ 0 then (s.forget ev).recordFailed j
    else State.walkerDoes j ev (s.counterBegin ev x.die x.asid cnt) fun s _ =>
      let s := ((s.forget ev).onJob j fun x => { x with
        gbase := base, gcnt := cnt, begunGraph := true, visited := 0, node := 0, frames := [], launches := [], copies := []
        walking := .fetch, paged := false }).noteBegun x.asid .graph cnt
      if base.toNat % 64 = 0 then s else s.recordFailed j

/-- The node record is read, counted in DONE (R402), and its event scheduled. -/
def State.fetchNode (s : State) (j : Nat) (x : Job) (ev : Event) : State :=
  State.walkerDoes j ev (s.devRead ev x.die x.asid (x.gbase + BitVec.ofNat 64 (64 * x.node)) 64) fun s b =>
    State.walkerDoes j ev (s.counterDone ev x.die x.asid x.gcnt (x.visited + 1)) fun s _ =>
      let s := (s.forget ev).onJob j fun x => { x with visited := x.visited + 1, paged := false }
      match nodeRecord b with
      | .error e => s.faultGraph j ⟨4, e.cond.code, 0, 0⟩
      | .ok n =>
        let (k, s) := s.draw
        (s.onJob j fun x => { x with walking := .node }).after (1 + Config.walkerDelay k) (n.event j)

/-! ### COND, WHILE (R82, R85) -/

/-- COND. -/
def execCondNode (j : Nat) (n : CondNode) (s : State) : Res :=
  let ev := Event.condNode j n
  .next (s.atNode j fun x => State.walkerDoes j ev (s.walkerWord ev x n.cond) fun s w =>
    (s.forget ev).goTo j (if w = 0 then n.hdr.nxt else n.taken))

/-- Store a number of completed iterations, where the node asks for it. A store that cannot be made faults the graph, and the
WHILE goes on (R413). -/
def State.storeCount (s : State) (j : Nat) (x : Job) (ev : Event) (n : WhileNode) (count : Nat) (f : State → State) : State :=
  if n.count = 0 then f s
  else match s.devWrite ev x.die x.asid n.count (le64 count) with
    | (.error none, s) => s.walkerWaits j
    | (.error (some _), s) => ((f (s.forget ev))).recordFailed j
    | (.ok _, s) => f (s.forget ev)

/-- The step at the condition word of a WHILE, with `count` iterations completed and `frames` around it: the count is stored and
the walker goes on, or a pass begins, or the loop limit faults the graph. -/
def State.whileStep (s : State) (j : Nat) (x : Job) (ev : Event) (n : WhileNode) (count : Nat) (frames : List WhileFrame) (w : Word) : State :=
  if w = 0 then
    s.storeCount j x ev n count fun s => (s.onJob j fun x => { x with frames }).goTo j n.hdr.nxt
  else if n.maxiter ≠ 0 ∧ count = n.maxiter then
    s.storeCount j x ev n count fun s => s.faultGraph j ⟨4, loopLimit.code, 0, 0⟩
  else
    (s.forget ev).onJob j fun x => { x with
      frames := ⟨n, count, s.nextKey⟩ :: frames, node := n.body, walking := .fetch, paged := false }

/-- WHILE: first visit. WHILE nodes nest to depth 4. -/
def execWhileNode (j : Nat) (n : WhileNode) (s : State) : Res :=
  let ev := Event.whileNode j n
  .next (s.atNode j fun x =>
    if 4 ≤ x.frames.length then s.recordFailed j
    else State.walkerDoes j ev (s.walkerWord ev x n.cond) fun s w => s.whileStep j x ev n 0 x.frames w)

/-- Whether a pass has ended. -/
def State.passDue (s : State) (x : Job) : Bool :=
  !x.paged && decide (x.walking = .forPass) && s.ended_ x ((x.frames.head?.map (·.mark)).getD 0)

/-- WHILE_PASS_END: everything begun in the pass has ended; one iteration is counted and the condition word read again. -/
def execWhilePassEnd (j : Nat) (s : State) : Res :=
  let ev := Event.whilePassEnd j
  let s := s.onJob j fun x => { x with paged := false }
  .next (match find s.jobs j with
    | none => s
    | some x => match x.frames with
      | f :: outer =>
        if s.passDue x then
          State.walkerDoes j ev (s.counterDone ev x.die x.asid x.gcnt (x.visited + 1)) fun s _ =>
            State.walkerDoes j ev (s.walkerWord ev x f.node.cond) fun s w =>
              let t := s.whileStep j x ev f.node (f.count + 1) outer w
              -- DONE counts the visit once the step is made
              if ((find t.jobs j).map (·.paged)).getD false then t else t.onJob j fun x => { x with visited := x.visited + 1 }
        else s
      | [] => s)

/-! ### SIGNAL, WAIT, HOSTIRQ, PHASEEND (R82, R84) -/

/-- SIGNAL: a release; the walker's accesses before it have performed. -/
def execSignal (j : Nat) (n : SignalNode) (s : State) : Res :=
  let ev := Event.signal j n
  let f := fun (b : List Byte) => le64 (if n.add then leNat b + n.value.toNat else n.value.toNat)
  .next (s.atNode j fun x => State.walkerDoes j ev (s.devUpdate ev x.die x.asid n.target 8 f) fun s _ =>
    (s.forget ev).goTo j n.hdr.nxt)

def waitHolds (n : WaitNode) (w : Word) : Bool :=
  if n.test = 0 then w == n.value else if n.test = 1 then decide (n.value ≤ w) else w != 0

/-- Core cycles that a WAIT waits; none for no limit. -/
def State.waitLimit (s : State) (n : WaitNode) : Option Nat :=
  if n.timeout ≠ 0 then some n.timeout.toNat else if n.g then some s.gangTimeout else none

/-- Whether the timeout of a WAIT has passed, with GANGTO as it now stands (R84). -/
def State.waitPassed (s : State) (n : WaitNode) (since : Nat) : Bool := (s.waitLimit n).any fun t => decide (since + t < s.now)

/-- One reading of a watched word: the walker goes on, or reads again in 256 cycles. -/
def State.readWatched (s : State) (j : Nat) (x : Job) (ev : Event) (n : WaitNode) : State :=
  State.walkerDoes j ev (s.walkerWord ev x n.watched) fun s w =>
    let s := s.forget ev
    if waitHolds n w then s.goTo j n.hdr.nxt
    else (s.onJob j fun x => { x with paged := false }).after 256 (.waitPoll j)

/-- WAIT: the wait begins, with its first reading. -/
def execWaitNode (j : Nat) (n : WaitNode) (s : State) : Res :=
  .next (s.atNode j fun x =>
    let s := s.onJob j fun x => { x with walking := .wait n s.now }
    (if n.g then s.crossWait j none else s).readWatched j x (.waitPoll j) n)

/-- WAIT_TIMEOUT: the graph faults, with gang timeout for a gang wait. -/
def execWaitTimeout (j : Nat) (s : State) : Res :=
  .next (match find s.jobs j with
    | some x => (match x.walking with
      | .wait n since =>
        if !s.waitPassed n since then s
        else if n.g then
          (if n.timeout = 0 then s.tellGang j gangTimeoutCond.code else s).faultGraph j ⟨4, gangTimeoutCond.code, 0, 0⟩
        else s.faultGraph j ⟨4, waitTimeoutCond.code, 0, 0⟩
      | _ => s)
    | none => s)

/-- Whether every copy that the graph has begun has ended, its writes performed. -/
def Job.copied (x : Job) : Bool := x.copies.all (·.2.done)

/-- HOSTIRQ: the message goes after the writes of every earlier node of the graph. -/
def execHostirq (j : Nat) (h : NodeHdr) (vec : BitVec 11) (s : State) : Res :=
  .next (s.atNode j fun x =>
    if x.copied then (s.msix x.port vec.toNat).goTo j h.nxt else s.onJob j fun x => { x with walking := .forIrq h.nxt vec.toNat })

/-- PHASEEND: the walker waits for what the graph began, then ends the graph and the phase (R83). -/
def execPhaseend (j : Nat) (_h : NodeHdr) (s : State) : Res :=
  .next (s.atNode j fun _ => s.onJob j fun x => { x with walking := .forGraph true })

/-! ### COPY (R82, R83) -/

def Job.onCopy (x : Job) (id : Nat) (f : CopyJob → CopyJob) : Job :=
  { x with copies := x.copies.map fun c => if c.1 = id then (id, f c.2) else c }

/-- The final write of a copy. One that ran to its end adds 2^63 to COUNT. -/
def State.endCopy (s : State) (j : Nat) (x : Job) (id : Nat) (c : CopyJob) (whole : Bool) : State :=
  let ev := Event.copyNodeComplete j id
  let e : Ending := match c.ending with
    | some (st, cause) => ⟨st, cause, 0, 0⟩
    | none => doneEnding
  let fin := fun (s : State) =>
    let s := ((s.forget ev).noteEnded x.asid .launch c.counter).onJob j fun x => x.onCopy id fun c => { c with done := true }
    match e.faults with
    | some g => s.faultGraph j g
    | none => s
  let s := s.onJob j fun x => x.onCopy id fun c => { c with closing := some whole }
  match s.counterEnd ev x.die x.asid c.counter (if whole then 2 ^ 63 else 0) none e with
  | (.error none, s) => s
  | (.error (some _), s) => (fin s).recordFailed j
  | (.ok _, s) => fin s

/-- COPY: its counter begins, and with it the copy. -/
def execCopyNode (j : Nat) (n : CopyNode) (s : State) : Res :=
  let ev := Event.copyNode j n
  .next (s.atNode j fun x => State.walkerDoes j ev (s.counterBegin ev x.die x.asid n.counter) fun s _ =>
    let id := s.nextKey
    let c : CopyJob := { src := n.src, dst := n.dst, bytes := n.bytes.toNat, counter := n.counter, at_ := 0, ending := none, closing := none, done := false }
    let (k, s) := ((s.forget ev).noteBegun x.asid .launch n.counter).draw
    let s := { s with nextKey := id + 1 }.onJob j fun x => { x with copies := x.copies ++ [(id, c)], paged := false }
    let s := s.after (1 + Config.walkerDelay k) (.copyNodeComplete j id)
    if n.hdr.wc then s.onJob j fun x => { x with walking := .forCopy id n.hdr.nxt } else s.goTo j n.hdr.nxt)

/-- Bytes of one piece of a copy. -/
def copyPiece : Nat := 4096

/-- Whether a cancelled copy waits for a page of its data: it is dropped (R94). -/
def State.copyStuck (s : State) (j : Nat) (c : Nat × CopyJob) : Bool :=
  let ev := Event.copyNodeComplete j c.1
  !c.2.done && c.2.closing.isNone && c.2.ending.isSome && s.pageReqs.any fun r => r.waiters.any fun w => decide (w.retry = ev)

/-- COPY_NODE_COMPLETE: the next piece is copied; after the last, or at a fault, the counter gets its final write. -/
def execCopyNodeComplete (j id : Nat) (s : State) : Res :=
  let ev := Event.copyNodeComplete j id
  .next (match find s.jobs j with
    | none => s
    | some x => match x.copies.find? fun c => decide (c.1 = id) with
      | none => s
      | some (_, c) =>
        if c.done then s
        else if c.closing.isSome then s.endCopy j x id c (c.closing.getD false)
        else if s.copyStuck j (id, c) then
          ({ s with pageReqs := s.pageReqs.map (PageReq.without ev) }).endCopy j x id c false
        else if c.bytes ≤ c.at_ then s.endCopy j x id c true
        else
          let n := min copyPiece (c.bytes - c.at_)
          let off := BitVec.ofNat 64 c.at_
          let stop := fun (s : State) (e : Cond) =>
            let c := { c with ending := c.ending.or (some (4, e.code)) }
            ((s.forget ev).onJob j fun x => x.onCopy id fun _ => c).endCopy j x id c false
          match s.devRead ev x.die x.asid (c.src + off) n with
          | (.error none, s) => s
          | (.error (some e), s) => stop s e
          | (.ok b, s) => match s.devWrite ev x.die x.asid (c.dst + off) b with
            | (.error none, s) => s
            | (.error (some e), s) => stop s e
            | (.ok _, s) =>
              let (k, s) := (s.forget ev).draw
              (s.onJob j fun x => x.onCopy id fun c => { c with at_ := c.at_ + n }).after (1 + Config.walkerDelay k) ev)

/-! ### Polling: WAIT_POLL (R83, R84) -/

/-- Whether the walker of a job can go on. -/
def State.walkDue (s : State) (j : Nat) (x : Job) : Bool :=
  !x.paged && x.counting.isNone && (match x.walking with
    | .armed => s.armDue j x
    | .opening _ => true
    | .fetch => true
    | .forLaunch l _ wc => s.launchEnded l || (!wc && ((find s.launches l).map (·.isPlaced)).getD false)
    | .forCopy id _ => x.copyDone id
    | .forIrq .. => x.copied
    | _ => false)

/-- WAIT_POLL: the walker reads a record or a watched word, or sees that what it waits for has come. -/
def execWaitPoll (j : Nat) (s : State) : Res :=
  let s := s.onJob j fun x => { x with paged := false }
  let ev := Event.waitPoll j
  .next (match find s.jobs j with
    | none => s
    | some x => match x.walking with
      | .armed => s.armOn j x ev
      | .opening .job => s.openJob j x ev
      | .opening .phase => s.openPhase j x ev
      | .opening .graph => s.openGraph j x ev
      | .opening .launch => s
      | .fetch => s.fetchNode j x ev
      | .forLaunch _ next _ => if s.walkDue j x then s.goTo j next else s
      | .forCopy _ next => if s.walkDue j x then s.goTo j next else s
      | .forIrq next vec => if s.walkDue j x then (s.msix x.port vec).goTo j next else s
      | .wait n since => if s.waitPassed n since then s else s.readWatched j x ev n
      | _ => s)

/-! ### Ends of graphs, phases and jobs: GRAPH_END (R77, R83) -/

/-- Events of nodes that a job's walker has scheduled. -/
def nodeEventOf (j : Nat) : Event → Bool
  | .launch k _ => decide (k = j)
  | .copyNode k _ => decide (k = j)
  | .condNode k _ => decide (k = j)
  | .whileNode k _ => decide (k = j)
  | .signal k _ => decide (k = j)
  | .waitNode k _ => decide (k = j)
  | .phaseend k _ => decide (k = j)
  | .hostirq k _ _ => decide (k = j)
  | _ => false

/-- Nothing scheduled for a node of the graph that ends happens any more. -/
def PageReq.withoutNodes (j : Nat) (r : PageReq) : PageReq := { r with waiters := r.waiters.filter fun w => !nodeEventOf j w.retry }
def State.dropNodes (s : State) (j : Nat) : State :=
  { s.unschedule (nodeEventOf j) with pageReqs := s.pageReqs.map (PageReq.withoutNodes j) }

/-- After a final write: what to do whether or not it could be made; a failure counts as the write (R413). -/
def State.closes (j : Nat) (ev : Event) (r : Work PUnit) (f : State → State) : State :=
  match r with
  | (.error none, s) => s.walkerWaits j
  | (.error (some _), s) => (f (s.forget ev)).recordFailed j
  | (.ok _, s) => f (s.forget ev)

def incOf (e : Ending) : Nat := if e.st = 2 then 1 else 0

def State.closeGraph (s : State) (j : Nat) (x : Job) (ev : Event) (phaseEnd : Bool) : State :=
  let e := x.endGraph.getD doneEnding
  let done := x.graphsDone + incOf e
  State.closes j ev (s.counterEnd ev x.die x.asid x.gcnt (incOf e) (some x.visited) e) fun s =>
    let s := x.launches.foldl (fun s l => { s with launches := del s.launches l }) (s.dropNodes j)
    (s.noteEnded x.asid .graph x.gcnt).onJob j fun x => { x with
      launches := [], copies := [], frames := [], begunGraph := false, endGraph := none, graphsDone := done, paged := false
      walking := if x.endPhase.isSome || phaseEnd || decide (x.ngraph ≤ x.graph + 1) then .closing .phase false else .opening .graph
      graph := x.graph + 1, counting := some (x.pcnt, done) }

def State.closePhase (s : State) (j : Nat) (x : Job) (ev : Event) : State :=
  let e := x.endPhase.getD doneEnding
  let done := x.phasesDone + incOf e
  State.closes j ev (s.counterEnd ev x.die x.asid x.pcnt (incOf e) (some x.graphsDone) e) fun s =>
    ((s.releaseReserved j).noteEnded x.asid .phase x.pcnt).onJob j fun x => { x with
      begunPhase := false, endGraph := none, endPhase := none, phasesDone := done, paged := false
      walking := if x.endJob.isSome || decide (x.nphase ≤ x.phase + 1) then .closing .job false else .opening .phase
      phase := x.phase + 1, counting := some (x.jcnt, done) }

def State.closeJob (s : State) (j : Nat) (x : Job) (ev : Event) : State :=
  let e := x.endJob.getD doneEnding
  let fin := fun (s : State) => { s.releaseReserved j with
    jobs := del s.jobs j
    gangs := s.gangs.filter fun g => decide (g.job ≠ some j) }
  if !x.begunJob then fin s
  else match s.counterEnd ev x.die x.asid x.jcnt (incOf e) (some x.phasesDone) e with
    | (.error none, s) => s.walkerWaits j
    | (_, s) => fin ((s.forget ev).noteEnded x.asid .job x.jcnt)

def State.graphDue (s : State) (x : Job) : Bool :=
  !x.paged && (x.counting.isSome || match x.walking with
    | .forGraph _ => !x.frames.isEmpty || s.ended_ x 0
    | .winding => s.ended_ x 0
    | .closing .. => true
    | _ => false)

/-- The DONE field of the level around one that has ended is written; the walker waits with the write (R402, R413). -/
def State.writeCount (s : State) (j : Nat) (x : Job) (ev : Event) (va : Word) (n : Nat) : State :=
  State.closes j ev (s.counterDone ev x.die x.asid va n) fun s => s.onJob j fun x => { x with counting := none }

/-- GRAPH_END: an abandoned WHILE stores its count; a level that has ended gets its final write, and the next begins. -/
def execGraphEnd (j : Nat) (s : State) : Res :=
  let s := s.onJob j fun x => { x with paged := false }
  let ev := Event.graphEnd j
  .next (match find s.jobs j with
    | none => s
    | some x => match x.counting, x.walking with
      | some (va, n), _ => s.writeCount j x ev va n
      | none, .forGraph p => (match x.frames with
        | f :: outer => s.storeCount j x ev f.node f.count fun s => s.onJob j fun x => { x with frames := outer }
        | [] => if s.ended_ x 0 then s.onJob j fun x => { x with walking := .closing .graph p } else s)
      | none, .winding =>
        if s.ended_ x 0 then s.onJob j fun x => { x with
          walking := if x.begunGraph then .closing .graph false else if x.begunPhase then .closing .phase false else .closing .job false }
        else s
      | none, .closing .graph p => s.closeGraph j x ev p
      | none, .closing .phase _ => s.closePhase j x ev
      | none, .closing .job _ => s.closeJob j x ev
      | none, .closing .launch _ => s
      | none, _ => s)

end Sys2Proof.Machine
end

