-- ==== Sys2Proof/Machine/Ports.lean ====
section
/-! DEFINITION. Host ports: command and completion queues, host commands, gang events, device registers, power and reset
(R49, R69, R76, R79 to R81, R94, R96, R97, R102, R407 to R412). -/
namespace Sys2Proof.Machine

/-! ### Command and completion queues (R79) -/

/-- CQTAIL: INDEX is written; the commands up to it can be consumed. -/
def execCqtail (port : Fin 2) (v : Word) (s : State) : Res := .next (s.onPort port fun x => { x with cqtail := v.extractLsb' 0 16 })

/-- CPLHEAD: INDEX is written, and completions that waited for room are written. -/
def execCplhead (port : Fin 2) (v : Word) (s : State) : Res :=
  .next ((s.onPort port fun x => { x with cplhead := v.extractLsb' 0 16 }).flush port)

/-! ### Commands (R80, R81, R94, R96) -/

/-- An unlisted CMD or SUB, or a reserved byte that is not zero. -/
def execMalformedCommand (port : Fin 2) (tag : BitVec 16) (s : State) : Res := .next (s.answer port tag 1)

/-- SUBMIT: the job starts on the walker of a die. -/
def execSubmit (port : Fin 2) (tag : BitVec 16) (asid : BitVec 11) (job : Word) (die : Fin 4) (s : State) : Res :=
  .next ((s.addJob (Job.fresh port.val asid.toNat die.val job (.opening .job))).2.answer port tag 0)

/-- A running level that a CANCEL names. -/
inductive Running where
  | launch (l : Nat)
  | copy (j id : Nat)
  | graph (j : Nat)
  | phase (j : Nat)
  | job (j : Nat)
deriving DecidableEq, Repr

/-- The launch, or the COPY, whose counter stands at an address. -/
def State.runningLaunch (s : State) (asid : Nat) (va : Word) : Option Running :=
  match s.launches.find? fun l => decide (l.2.asid = asid) && l.2.counter == va && !l.2.isEnded && decide (l.2.phase ≠ .reserved) with
  | some l => some (.launch l.1)
  | none => s.jobs.findSome? fun x =>
    if x.2.asid = asid then
      (x.2.copies.find? fun c => c.2.counter == va && !c.2.done).map fun c => .copy x.1 c.1
    else none

/-- The running level of a kind whose counter record stands at an address. -/
def State.runningLevel (s : State) (asid : Nat) (level : Level) (va : Word) : Option Running :=
  let job := fun (f : Job → Bool) (r : Nat → Running) =>
    (s.jobs.find? fun x => decide (x.2.asid = asid) && decide (x.2.walking ≠ .armed) && f x.2).map fun x => r x.1
  match level with
  | .launch => s.runningLaunch asid va
  | .graph => job (fun x => x.begunGraph && x.gcnt == va) .graph
  | .phase => job (fun x => x.begunPhase && x.pcnt == va) .phase
  | .job => job (fun x => x.begunJob && x.jcnt == va) .job

/-- Cancel one copy: it runs to its end first. -/
def cancelCopy (id reason : Nat) (x : Job) : Job :=
  x.onCopy id fun c => { c with ending := c.ending.or (some (3, reason)) }

def State.cancelRunning (s : State) (r : Running) (reason : Nat) : State :=
  match r with
  | .launch l => s.endLaunch l 3 reason
  | .copy j id => s.onJob j (cancelCopy id reason)
  | .graph j => s.cancelGraph j reason
  | .phase j => s.cancelPhase j reason
  | .job j => s.cancelJob j reason

/-- CANCEL: STATUS 3 when no running level has the counter, 4 when it has ended. -/
def execCancel (port : Fin 2) (tag : BitVec 16) (asid : BitVec 11) (level : Level) (va : Word) (reason : BitVec 16) (s : State) : Res :=
  .next (match s.runningLevel asid.toNat level va with
    | some r => (s.cancelRunning r reason.toNat).answer port tag 0
    | none => s.answer port tag (if s.ended.contains (asid.toNat, level, va) then 4 else 3))

/-- A command completes with STATUS 0, at once or once the accesses that have begun have performed (R76). -/
def State.answerInval (s : State) (port : Fin 2) (tag : BitVec 16) (l : List (Nat × Nat)) : State :=
  if l.isEmpty then s.answer port tag 0
  else
    let key := s.nextKey
    { s.defer port tag key with nextKey := key + 1, invals := s.invals ++ [⟨none, some (port.val, key), l⟩] }

/-- ASIDINV (R76): the cached entry and every translation of the ASID go. -/
def execAsidinv (port : Fin 2) (tag : BitVec 16) (asid : BitVec 11) (s : State) : Res :=
  let a := asid.toNat
  let s := (s.dropTlb fun x _ _ => decide (x = a)).dropLines fun l => decide (l.asid = a)
  let (l, s) := ({ s with asids := s.asids.filter fun x => decide (x.1 % 2048 ≠ a) } : State).recall a 0 (2 ^ 56)
  .next (s.answerInval port tag l)

/-- TLBINV (R76). -/
def execTlbinv (port : Fin 2) (tag : BitVec 16) (asid : BitVec 11) (va bytes : Word) (s : State) : Res :=
  let (l, s) := s.invalidate asid.toNat (va56 va) bytes.toNat
  .next (s.answerInval port tag l)

/-- GANGARM: the member's first phase is read and its contexts reserved; the command completes when they all are. -/
def execGangarm (port : Fin 2) (tag : BitVec 16) (rec_ : Word) (asid : BitVec 11) (die : Fin 4) (s : State) : Res :=
  let (j, s) := s.addJob { Job.fresh port.val asid.toNat die.val rec_ .armed with todo := [.gang rec_] }
  .next (s.defer port tag j)

/-- GANGGO: an armed member starts its job. -/
def execGanggo (port : Fin 2) (tag : BitVec 16) (gang : Word) (s : State) : Res :=
  .next (match s.gangById gang with
    | some g => match g.job with
      | some j =>
        if g.armed.isSome && !g.gone then
          ((s.onGang gang fun g => { g with gone := true }).onJob j fun x => { x with
            walking := .opening .job, begunJob := false, paged := false }).answer port tag 0
        else s.answer port tag 3
      | none => s.answer port tag 3
    | none => s.answer port tag 3)

/-- A member that has not gone is disarmed. -/
def State.abortMember (s : State) (g : Gang) (cause : Nat) : State :=
  match g.job with
  | some j => s.disarm j cause
  | none => s

/-- GANGABORT. -/
def execGangabort (port : Fin 2) (tag : BitVec 16) (gang : Word) (s : State) : Res :=
  .next (match s.gangById gang with
    | some g => if g.gone then s.answer port tag 3 else (s.abortMember g gangTimeoutCond.code).answer port tag 0
    | none => s.answer port tag 3)

/-! ### Key slots (R70, R71, R409) -/

/-- Every L2 sector tagged with a key index is written back under the old key and dropped. -/
def State.evictKey (s : State) (key : Nat) : State :=
  (s.l2.filter fun x => decide (x.2.key = some key)).foldl (fun s x => s.evict (x.1 % 4) (x.1 / 4 * 512)) s

def State.setKey (s : State) (key : Nat) (v : BitVec 512) : State :=
  { s with keys := setAt s.keys key (if v = 0 then none else some v) }

/-- KEYLD: 64 bytes, the data key then the tweak key. -/
def execKeyld (port : Fin 2) (tag : BitVec 16) (key : BitVec 7) (pa : Word) (s : State) : Res :=
  if !s.holdsSem port then .next (s.answer port tag 2)
  else
    let s := s.evictKey key.toNat
    .next ((s.setKey key.toNat (BitVec.ofNat 512 (leNat (s.peek pa.toNat 64)))).answer port tag 0)

/-- KEYCLR. -/
def execKeyclr (port : Fin 2) (tag : BitVec 16) (key : BitVec 7) (s : State) : Res :=
  if !s.holdsSem port then .next (s.answer port tag 2)
  else .next (((s.evictKey key.toNat).setKey key.toNat 0).answer port tag 0)

/-! ### Gang events (R96, R97) -/

/-- GANG_ARM_TIMEOUT: an armed member that has not gone aborts itself. -/
def execGangArmTimeout (gang : Word) (s : State) : Res :=
  .next (match s.gangById gang with
    | some g => if s.armLate g then s.abortMember g gangTimeoutCond.code else s
    | none => s)

/-- A member's job ends with gang timeout: a WAIT makes its graph faulted (R84), a collective cancels the job. -/
def State.gangFails (s : State) (j : Nat) : State :=
  match find s.jobs j with
  | some x => match x.walking with
    | .wait n _ => if n.g then s.faultGraph j ⟨4, gangTimeoutCond.code, 0, 0⟩ else s.cancelJob j gangTimeoutCond.code
    | _ => s.cancelJob j gangTimeoutCond.code
  | none => s

/-- GANG_WAIT_TIMEOUT: the member cancels its job and tells the other members. -/
def execGangWaitTimeout (gang : Word) (s : State) : Res :=
  .next (match s.gangById gang with
    | some g => match g.job with
      | some j =>
        if s.crossLate g then
          ((s.tellGang j gangTimeoutCond.code).gangFails j).onGang gang fun g => { g with waiting := none }
        else s
      | none => s
    | none => s)

/-- GANG_CANCEL_RECEIVE. -/
def execGangCancelReceive (gang : Word) (cause : BitVec 16) (s : State) : Res :=
  .next (match s.gangById gang with
    | some g => match g.job with
      | some j => if g.gone then s.cancelJob j cause.toNat else s.abortMember g cause.toNat
      | none => s
    | none => s)

/-! ### Windows (R69, R407) -/

/-- A write of HBMWIN or DDRWIN, of which `mask` is writable; SIZE stays. -/
def windowWrite (old v mask : Word) : Word :=
  if old.getLsbD 63 then (if v.getLsbD 63 then old else old &&& ~~~(BitVec.twoPow 64 63)) else withMask old v mask

def State.setRegs (s : State) (r : Regs) : State := { s with regs := r }

/-- HBMWIN. -/
def execHbmwin (port : Fin 2) (v : Word) (s : State) : Res :=
  .next (if s.holdsSem port then s.setRegs { s.regs with hbmwin := windowWrite s.regs.hbmwin v 0x801FFFFFC0000000 } else s)

/-- DDRWIN. -/
def execDdrwin (port : Fin 2) (v : Word) (s : State) : Res :=
  .next (if s.holdsSem port then s.setRegs { s.regs with ddrwin := windowWrite s.regs.ddrwin v 0x800FFFFFC0000000 } else s)

/-- The window that a decoder maps, and the registers with another value of it. -/
def Regs.window (r : Regs) (dec : Fin 2) : Word := if dec = 0 then r.hbmwin else r.ddrwin
def Regs.setWindow (r : Regs) (dec : Fin 2) (w : Word) : Regs := if dec = 0 then { r with hbmwin := w } else { r with ddrwin := w }

/-- A decoder's commit, and whether it has succeeded. -/
def State.commit (s : State) (port dec : Fin 2) (base : BitVec 22) (ok : Bool) : State :=
  s.onPort port fun x => { x with hdm := if ok then put x.hdm dec.val base else x.hdm, hdmOk := ok }

/-- HDM_COMMIT: a commit on a window that is off sets BASE and EN, from the semaphore holder only; one at the base of a window
that is on changes nothing; any other fails. -/
def execHdmCommit (port : Fin 2) (dec : Fin 2) (base : BitVec 22) (s : State) : Res :=
  let w := s.regs.window dec
  .next (if w.getLsbD 63 then s.commit port dec base (w.extractLsb' 30 22 == base)
    else if s.holdsSem port then
      (s.setRegs (s.regs.setWindow dec (withField (withField w 30 22 base.toNat) 63 1 1))).commit port dec base true
    else s.commit port dec base false)

/-! ### The device semaphore (R408) -/

/-- HSEM.ACQ. -/
def execHsemAcq (port : Fin 2) (s : State) : Res :=
  .next (if s.regs.hsem.isNone then s.setRegs { s.regs with hsem := some port.val } else s)

def State.releaseSem (s : State) (port : Fin 2) : State :=
  if s.holdsSem port then s.setRegs { s.regs with hsem := none } else s

/-- HSEM.REL. -/
def execHsemRel (port : Fin 2) (s : State) : Res := .next (s.releaseSem port)

/-- PORT_RESET: a port that undergoes a link-down, hot reset or function-level reset loses the semaphore. -/
def execPortReset (port : Fin 2) (s : State) : Res := .next (s.releaseSem port)

/-! ### Other device registers -/

/-- The writable bits of a register; a field keeps only these. -/
def Regs.write (r : Regs) (d : DevReg) (v : Word) : Regs :=
  match d with
  | .asidtab => { r with asidtab := v &&& 0x000FFFFFFFFF0001 }
  | .prqto => { r with prqto := v &&& 0xFFFFFFFF }
  | .placeto => { r with placeto := v &&& 0xFFFFFFFF }
  | .gangto => { r with gangto := v &&& 0xFFFFFFFF }
  | .savebase => { r with savebase := v &&& 0x000FFFFFC0000001 }
  | .dpmaxdev => { r with dpmaxdev := v &&& 0xFFFFFFFF }
  | .fabid => { r with fabid := v &&& 0x3F }
  | .linkrt n => { r with linkrt := r.linkrt.set n (v &&& 0x1F) }
  | .fltwin => { r with fltwin := v &&& 0x0000FFFFFFFFFFFF }
  | .fltthr => { r with fltthr := v &&& 0xFFFF }
  | .pwrcap => { r with pwrcap := v &&& 0xFFF }
  | .maint n => { r with maint := r.maint.set n v }
  | .cqctl _ => r
  | .cplctl _ => r
  | .ttptr _ => r
  | .ttbp .. => r
  | .ttwp .. => r

/-- The bits of CQCTL and CPLCTL that can be written. -/
def ctlMask : Word := 0x000FFFFFFFFFF00F

/-- A register that R408 lets either port write. -/
def eitherPort : DevReg → Bool
  | .cqctl _ => true
  | .cplctl _ => true
  | .ttptr _ => true
  | _ => false

/-- REGISTER_WRITE: discarded where the semaphore is needed and not held. -/
def execRegisterWrite (port : Fin 2) (r : DevReg) (v : Word) (s : State) : Res :=
  .next (if !eitherPort r && !s.holdsSem port then s
    else match r with
      | .cqctl p => s.onPort p fun x => { x with cqctl := v &&& ctlMask }
      | .cplctl p => (s.onPort p fun x => { x with cplctl := v &&& ctlMask }).flush p
      | .ttptr d => s.onTell d.val fun t => { t with tail := v.extractLsb' 32 32 }
      | .ttbp d n => s.onTell d.val fun t => { t with bp := t.bp.set n v }
      | .ttwp d n => s.onTell d.val fun t => { t with wp := t.wp.set n v }
      | r => s.setRegs (s.regs.write r v))

/-- Whether a launch reserves some context of a core. -/
def State.coreReserved (s : State) (c : Nat) : Bool := s.launches.any fun l => (List.range 4).any fun k => l.2.reserves c k
/-- The MAINT mode that is requested of a core. -/
def Regs.maintBit (r : Regs) (c : Nat) : Bool := (r.maint[c / 64]?.getD 0).getLsbD (c % 64)

/-- Whether a core's MAINT mode changes now. -/
def State.maintDue (s : State) (c : Nat) : Bool := (s.regs.maintBit c != (s.core c).maint) && !s.coreReserved c

/-- MAINT_MODE_CHANGE (R49): the requested mode takes effect. -/
def execMaintModeChange (c : Nat) (s : State) : Res :=
  .next (if s.maintDue c then s.onCore c fun x => { x with maint := s.regs.maintBit c } else s)

/-- ERRLOG (R411): the oldest entry is removed and returned, with OVF; 0 when the log is empty. -/
def execErrlog (port : Fin 2) (s : State) : Res :=
  .next (match s.regs.errlog with
    | [] => { s with outs := s.outs ++ [.readData port.val 0] }
    | w :: rest => { s with
        outs := s.outs ++ [.readData port.val (w ||| (if s.regs.ovf then BitVec.twoPow 64 62 else 0))]
        regs := { s.regs with errlog := rest, ovf := false } })

/-! ### Power (R412) -/

/-- PWRCAP as it is read. -/
def Regs.powerCap (r : Regs) : Nat := max 1000 (min 2600 (field r.pwrcap 0 12))

/-- PWRSTAT after a check of power and temperature. -/
def powerStatus (cap : Nat) (old : Word) (power temp : Nat) : Word :=
  let clk := field old 16 16
  let throt := field old 0 16
  let (clk, throt) :=
    if cap < power ∨ 105 < temp then (max 425 (clk - 25), min 65535 (throt + 1))
    else if 100 * power < 95 * cap ∧ temp < 100 then (min 850 (clk + 25), throt)
    else (clk, throt)
  BitVec.ofNat 64 (throt + 2 ^ 16 * clk + 2 ^ 32 * (power % 65536) + 2 ^ 48 * (temp % 65536))

/-- The temperature halt: every context stops issuing, every job is cancelled, every ready bit clears. -/
def State.halt (s : State) : State :=
  let s := s.jobs.foldl (fun s x =>
    if x.2.walking = .armed then s.disarm x.1 lastingFault.code else s.cancelJob x.1 lastingFault.code) s
  { s with halted := true, regs := { s.regs with ready := 0 } }

/-- POWER_CHECK: every millisecond of the clock in force. -/
def execPowerCheck (s : State) : Res :=
  let (n, s) := s.draw
  let power := Config.measuredPower n
  let temp := Config.measuredTemp n
  let s := s.setRegs { s.regs with pwrstat := powerStatus s.regs.powerCap s.regs.pwrstat power temp }
  let s := if 115 ≤ temp then s.halt else s
  .next (s.after (1000 * field s.regs.pwrstat 16 16) .powerCheck)

/-! ### Bring-up and reset (R102, R410) -/

/-- Whether a function cannot become ready again before reset. -/
def State.lost (s : State) (f : Func) : Bool :=
  s.halted || (match f with
    | .link n => s.retired.contains (2000 + n.val)
    | .hal n => s.retired.contains (2100 + n.val)
    | _ => false)

/-- FUNCTION_READY. -/
def execFunctionReady (f : Func) (s : State) : Res :=
  .next (if s.lost f then s else s.setRegs { s.regs with ready := s.regs.ready ||| BitVec.twoPow 47 (readyBit f) })

/-- DEVICE_RESET: everything is as after reset, but for what memory the homes hold, and what is outside the device. CYCLE counts
from 0 again. -/
def execDeviceReset (s : State) : Res :=
  .next { State.reset with
    mem := s.mem
    keyTag := s.keyTag
    bad := s.bad
    inputs := s.inputs.map fun x => (x.1 - s.now, x.2)
    outs := s.outs
    free := s.free
    loads := s.loads }

end Sys2Proof.Machine
end

