-- ==== Sys2Proof/Machine/Scalar.lean ====
section
/-! DEFINITION. The S-slot instructions that act within their context: integer, immediate and FP32 operations, local loads and
stores, branches, loops, frames, CSR access and software traps (R175 to R201). -/
namespace Sys2Proof.Machine



/-- NOP: a pure bundle takes one context cycle and its wait cycles (R118). -/
def execNop (wt : Fin 8) (dp st : Bool) (s : State) : Res :=
  .next ({ s with iss := { s.iss with wt, dp, st } }).completeBundle

/-! ### Integer register operations (R176 to R178) -/

def execAdd (o : SR3) : State → Res := slotOp false (bodySR (· + ·) 1 o)
def execSub (o : SR3) : State → Res := slotOp false (bodySR (· - ·) 1 o)
def execAnd (o : SR3) : State → Res := slotOp false (bodySR (· &&& ·) 1 o)
def execOr (o : SR3) : State → Res := slotOp false (bodySR (· ||| ·) 1 o)
def execXor (o : SR3) : State → Res := slotOp false (bodySR (· ^^^ ·) 1 o)
def execAndn (o : SR3) : State → Res := slotOp false (bodySR (fun a b => a &&& ~~~b) 1 o)
def execShl (o : SR3) : State → Res := slotOp false (bodySR (fun a b => a <<< (b.toNat % 64)) 1 o)
def execShr (o : SR3) : State → Res := slotOp false (bodySR (fun a b => a >>> (b.toNat % 64)) 1 o)
def execSra (o : SR3) : State → Res := slotOp false (bodySR (fun a b => a.sshiftRight (b.toNat % 64)) 1 o)
def execRol (o : SR3) : State → Res := slotOp false (bodySR (fun a b => a.rotateLeft (b.toNat % 64)) 1 o)
def execMin (o : SR3) : State → Res := slotOp false (bodySR (fun a b => if a.toInt ≤ b.toInt then a else b) 1 o)
def execMax (o : SR3) : State → Res := slotOp false (bodySR (fun a b => if a.toInt ≤ b.toInt then b else a) 1 o)
def execMinn (o : SR3) : State → Res := slotOp false (bodySR (fun a b => if a ≤ b then a else b) 1 o)
def execMaxn (o : SR3) : State → Res := slotOp false (bodySR (fun a b => if a ≤ b then b else a) 1 o)
def execSeq (o : SR3) : State → Res := slotOp false (bodySR (fun a b => b2w (a == b)) 1 o)
def execSne (o : SR3) : State → Res := slotOp false (bodySR (fun a b => b2w (a != b)) 1 o)
def execSlt (o : SR3) : State → Res := slotOp false (bodySR (fun a b => b2w (decide (a.toInt < b.toInt))) 1 o)
def execSltn (o : SR3) : State → Res := slotOp false (bodySR (fun a b => b2w (decide (a < b))) 1 o)
def execSle (o : SR3) : State → Res := slotOp false (bodySR (fun a b => b2w (decide (a.toInt ≤ b.toInt))) 1 o)
def execSlen (o : SR3) : State → Res := slotOp false (bodySR (fun a b => b2w (decide (a ≤ b))) 1 o)
def execClz (o : SR2) : State → Res := slotOp false (bodySR1 (fun a => BitVec.ofNat 64 (clzWord a)) o)
def execCtz (o : SR2) : State → Res := slotOp false (bodySR1 (fun a => BitVec.ofNat 64 (ctzWord a)) o)
def execPopc (o : SR2) : State → Res := slotOp false (bodySR1 (fun a => BitVec.ofNat 64 (popWord a)) o)
def execBfx (o : SR3) : State → Res := slotOp false (bodySR (bfxWord) 1 o)
def execBfxn (o : SR3) : State → Res := slotOp false (bodySR (bfxnWord) 1 o)
/-- BFI reads its destination at bundle entry (R177). -/
def execBfi (o : SR3) : State → Res := slotOp false (fun s => bodySR (bfiWord (s.regS o.d.val)) 1 o s)
def execMul (o : SR3) : State → Res := slotOp false (bodySR (· * ·) 3 o)
def execMulh (o : SR3) : State → Res := slotOp false (bodySR (fun a b => BitVec.ofInt 64 (a.toInt * b.toInt / 2 ^ 64)) 3 o)
def execMulhn (o : SR3) : State → Res := slotOp false (bodySR (fun a b => BitVec.ofNat 64 (a.toNat * b.toNat / 2 ^ 64)) 3 o)

/-! ### Scalar FP32 (R181 to R183) -/

def execFadd (o : SF3) : State → Res := slotOp false (bodyF3 (faddOp .f32) o)
def execFsub (o : SF3) : State → Res := slotOp false (bodyF3 (fsubOp .f32) o)
def execFmul (o : SF3) : State → Res := slotOp false (bodyF3 (fmulOp .f32) o)
/-- FMA reads its destination as the addend (R181). -/
def execFma (o : SF3) : State → Res :=
  slotOp false (fun s => bodyF3 (fun rm x y => fmaOp .f32 rm x y ((s.regS o.d.val).toNat % 2 ^ 32)) o s)
def execFmin (o : SR3) : State → Res := slotOp false (bodyFN (fminmax .f32 true) o)
def execFmax (o : SR3) : State → Res := slotOp false (bodyFN (fminmax .f32 false) o)
def execFabs (o : SR2) : State → Res := slotOp false (bodyF1 (fsignOp .f32 false) o)
def execFneg (o : SR2) : State → Res := slotOp false (bodyF1 (fsignOp .f32 true) o)
/-- A compare's result as the integer 0 or 1 (R182). -/
def boolResult (r : Bool × RAcc) : Nat × RAcc := (if r.1 then 1 else 0, r.2)
def execFeq (o : SR3) : State → Res := slotOp false (bodyFN (fun x y a => boolResult (fcompare .f32 .eq x y a)) o)
def execFlt (o : SR3) : State → Res := slotOp false (bodyFN (fun x y a => boolResult (fcompare .f32 .lt x y a)) o)
def execFle (o : SR3) : State → Res := slotOp false (bodyFN (fun x y a => boolResult (fcompare .f32 .le x y a)) o)
/-- FCVTI: FP32 to a saturated signed 64-bit integer (R41, R183). -/
def execFcvti (o : SF2) : State → Res := slotOp false fun s => do
  let a ← s.srcS o.a
  let (x, acc) := FFmt.f32.read (a.toNat % 2 ^ 32) s.racc
  let (i, acc) := roundI (-(2 ^ 63)) (2 ^ 63 - 1) o.rm x acc
  pure (s.writeF32 o.d o.nw (wrapInt 64 i, acc))

/-- ICVTF: a signed 64-bit integer to FP32 (R183). -/
def execIcvtf (o : SF2) : State → Res := slotOp false fun s => do
  let a ← s.srcS o.a
  pure (s.writeF32 o.d o.nw (roundF .f32 o.rm (Ext.ofInt a.toInt) s.racc))

/-! ### Immediate operations (R179, R180) -/

def execAddi (o : SImm) : State → Res := slotOp false (bodySI (· + ·) o)
def execAndi (o : SImm) : State → Res := slotOp false (bodySI (· &&& ·) o)
def execOri (o : SImm) : State → Res := slotOp false (bodySI (· ||| ·) o)
def execXori (o : SImm) : State → Res := slotOp false (bodySI (· ^^^ ·) o)
def execSlti (o : SImm) : State → Res := slotOp false (bodySI (fun a b => b2w (decide (a.toInt < b.toInt))) o)
def execSltni (o : SImm) : State → Res := slotOp false (bodySI (fun a b => b2w (decide (a < b))) o)
def execShli (o : SSh) : State → Res := slotOp false (bodySh (fun a k => a <<< k) o)
def execShri (o : SSh) : State → Res := slotOp false (bodySh (fun a k => a >>> k) o)
def execSrai (o : SSh) : State → Res := slotOp false (bodySh (fun a k => a.sshiftRight k) o)

def execLi (o : SLong) : State → Res := slotOp false fun s => pure (s.writeS o.d o.nw (o.imm.signExtend 64) 1)
/-- LIM and LIT read their destination at bundle entry (R180). -/
def execLim (o : SLong) : State → Res := slotOp false fun s =>
  pure (s.writeS o.d o.nw ((o.imm ++ (s.regS o.d.val).extractLsb' 0 20 : BitVec 40).signExtend 64) 1)
def execLit (o : SLong) : State → Res := slotOp false fun s =>
  pure (s.writeS o.d o.nw ((o.imm ++ (s.regS o.d.val).extractLsb' 0 40 : BitVec 60).signExtend 64) 1)

/-! ### Local loads and stores (R185) -/

def execLdLI8 (o : SImm) : State → Res := slotOp false (bodyLoad 1 true o)
def execLdLN8 (o : SImm) : State → Res := slotOp false (bodyLoad 1 false o)
def execLdLI16 (o : SImm) : State → Res := slotOp false (bodyLoad 2 true o)
def execLdLN16 (o : SImm) : State → Res := slotOp false (bodyLoad 2 false o)
def execLdLI32 (o : SImm) : State → Res := slotOp false (bodyLoad 4 true o)
def execLdLN32 (o : SImm) : State → Res := slotOp false (bodyLoad 4 false o)
def execLdLD (o : SImm) : State → Res := slotOp false (bodyLoad 8 false o)
def execStLB (o : SSt) : State → Res := slotOp true (bodyStore 1 o)
def execStLH (o : SSt) : State → Res := slotOp true (bodyStore 2 o)
def execStLW (o : SSt) : State → Res := slotOp true (bodyStore 4 o)
def execStLD (o : SSt) : State → Res := slotOp true (bodyStore 8 o)

/-! ### Branches and jumps (R187 to R190) -/

def execBcz (cc : CondZ) (a : Src) (disp : BitVec 16) : State → Res := slotOp true fun s => do
  let x ← s.srcS a
  pure (if condZ cc x then s.take ⟨s.target disp.toInt, none⟩ else s)

def execBc (cc : CondB) (a b : Src) (disp : BitVec 11) : State → Res := slotOp true fun s => do
  let x ← s.srcS a
  let y ← s.srcS b
  pure (if condB cc x y then s.take ⟨s.target disp.toInt, none⟩ else s)

def execBp (p : Fin 16) (t : PTest) (disp : BitVec 16) : State → Res := slotOp true fun s =>
  pure (if predTest t (s.guard p) then s.take ⟨s.target disp.toInt, none⟩ else s)

def execJmp (disp : BitVec 21) : State → Res := slotOp true fun s => pure (s.take ⟨s.target disp.toInt, none⟩)
/-- BRL and JRL: the link lands one context cycle after the bundle; the prefetcher fetches lines, which no result shows
(R116, R190). -/
def execBrl (d : Fin 32) (disp : BitVec 21) : State → Res := slotOp true fun s => pure (s.take ⟨s.target disp.toInt, some d⟩)
def execJr (a : Src) : State → Res := slotOp true fun s => do
  let t ← s.srcS a
  pure (s.take ⟨t, none⟩)
def execJrl (d : Fin 32) (a : Src) : State → Res := slotOp true fun s => do
  let t ← s.srcS a
  pure (s.take ⟨t, some d⟩)

/-! ### Hardware loops (R191, R192) -/

/-- Set a loop level at the end of the cycle; a count of 0 branches past the body. -/
def bodyLoop (n : Nat) (count : Word) (disp : Int) (s : State) : Except Cond State := do
  let le := s.target disp
  let s := s.putLoop ⟨n, seqPc s.iss.pc s.iss.len, le, count⟩
  if count = 0 then
    let len ← s.lengthAt le
    pure (s.take ⟨seqPc le len, none⟩)
  else pure s

def execLoop (n : Fin 2) (a : Src) (disp : BitVec 11) : State → Res := slotOp true fun s => do
  let c ← s.srcS a
  bodyLoop n.val c disp.toInt s

def execLoopi (n : Fin 2) (cnt : BitVec 10) (disp : BitVec 14) : State → Res :=
  slotOp true (bodyLoop n.val (cnt.setWidth 64) disp.toInt)

/-! ### Frames (R195, R196) -/

def frameRange (a : Word) : Except Cond PUnit :=
  if a.toNat % 8 ≠ 0 then .error (misalignedAccess 1)
  else if spmSize < a.toNat ∨ a.toNat < 16 then .error (scratchpadRange 1)
  else .ok ⟨⟩

def execEnter (imm : BitVec 14) : State → Res := slotOp true fun s => do
  let sp := s.regS 30
  let n := imm.toNat * 256
  if (sp.toNat : Int) - n < s.iss.entry.csr.stklim.toNat then .error stackLimit
  else
    frameRange sp
    let s := s.onMyCore fun x =>
      (x.storeBytes (sp.toNat - 8) (leBytes (s.regS 28).toNat 8)).storeBytes (sp.toNat - 16) (leBytes (s.regS 31).toNat 8)
    pure ((s.writeNoLatch .s 28 (sp.setWidth 2048) 1).writeNoLatch .s 30 ((sp - BitVec.ofNat 64 n).setWidth 2048) 1)

def execLeave : State → Res := slotOp false fun s => do
  let fp := s.regS 28
  frameRange fp
  let link ← s.myCore.load 1 (fp.toNat - 16) 8
  let old ← s.myCore.load 1 (fp.toNat - 8) 8
  pure (((s.writeNoLatch .s 31 (bytesV link) 6).writeNoLatch .s 28 (bytesV old) 6).writeNoLatch .s 30 (fp.setWidth 2048) 6)

/-! ### CSR access (R197) -/

def execCsrr (d : Fin 32) (nw : Bool) (csr : BitVec 12) : State → Res := slotOp false fun s => do
  let old ← s.csrAtEntry csr.toNat
  pure (s.writeS d nw old 1)
def execCsrw (o : CsrOp) : State → Res := slotOp true (bodyCsr (fun _ a => a) o)
def execCsrs (o : CsrOp) : State → Res := slotOp true (bodyCsr (fun old a => old ||| a) o)
def execCsrc (o : CsrOp) : State → Res := slotOp true (bodyCsr (fun old a => old &&& ~~~a) o)

/-! ### Software traps (R201) -/

def execTrap (a : Src) : State → Res := slotOp false fun s => do
  let x ← s.srcS a
  raiseTrap softwareTrap x
def execSysc (a : Src) : State → Res := slotOp false fun s => do
  let x ← s.srcS a
  raiseTrap systemCall x
def execBrk : State → Res := slotOp false fun _ => raiseTrap breakpointInstruction 0

end Sys2Proof.Machine
end

