-- ==== Sys2Proof/Machine/Vector.lean ====
section
/-! DEFINITION. The V-slot instructions that act within their context and scratchpad (R206 to R216, R220, R221, R225 to R227). -/
namespace Sys2Proof.Machine

/-! ### Operand forms (R207, R208) -/

/-- A vector operation on va and vb-or-scalar. -/
def bodyVB (f : Ty → PWord → VWord → VWord → RAcc → VWord × RAcc) (lat : Nat) (d : Fin 32) (nw : Bool) (a b : Src)
    (sb : Bool) (pg : Fin 16) (ty : Ty) (s : State) : Except Cond State := do
  let x ← s.srcV a
  let y ← s.srcSb ty sb b
  let g := s.guard pg
  pure (s.writeVF d nw (laneMask ty g) lat (f ty g x y s.racc))

def bodyVInt (f : Int → Int → Int) (o : VInt) : State → Except Cond State :=
  bodyVB (fun t g => vint2 f t o.sat g) 2 o.d o.nw o.a o.b o.sb o.pg o.ty
def bodyVBin (f : Ty → PWord → VWord → VWord → RAcc → VWord × RAcc) (lat : Nat) (o : VBin) : State → Except Cond State :=
  bodyVB f lat o.d o.nw o.a o.b o.sb o.pg o.ty
def bodyVFlt (f : FFmt → Rm → Nat → Nat → RAcc → Nat × RAcc) (o : VFlt) : State → Except Cond State :=
  bodyVB (vf2 (fun fmt => f fmt o.rm)) 4 o.d o.nw o.a o.b o.sb o.pg o.ty

/-- A vector operation on one vector source. -/
def bodyVU (f : Ty → PWord → VWord → RAcc → VWord × RAcc) (lat : Nat) (d : Fin 32) (nw : Bool) (a : Src) (pg : Fin 16)
    (ty : Ty) (s : State) : Except Cond State := do
  let x ← s.srcV a
  let g := s.guard pg
  pure (s.writeVF d nw (laneMask ty g) lat (f ty g x s.racc))

/-- A scalar result of a vector operation. -/
def State.writeSF (s : State) (d : Fin 32) (nw : Bool) (lat : Nat) (r : Word × RAcc) : State :=
  (s.keepSr r.2).writeS d nw r.1 lat r.2.fl

/-- A predicate result. -/
def State.writePF (s : State) (d : Fin 16) (nw : Bool) (lat : Nat) (r : PWord × RAcc) : State :=
  (s.keepSr r.2).writeP d nw r.1 lat r.2.fl

/-! ### Integer and floating elements (R209, R210) -/

def execVadd (o : VInt) : State → Res := slotOp false (bodyVInt (· + ·) o)
def execVsub (o : VInt) : State → Res := slotOp false (bodyVInt (· - ·) o)
def execVmul (o : VInt) : State → Res := slotOp false (bodyVInt (· * ·) o)

/-- A four-source operation writes every element: a disabled one receives the entry value of d (R207). -/
def State.writeWhole (s : State) (d : Fin 32) (nw : Bool) (en : PWord) (lat : Nat) (r : VWord × RAcc) : State :=
  s.writeVF d nw allLanes lat (merge (s.regV d.val) r.1 en, r.2)

def execVmad (o : VMadOp) : State → Res := slotOp false fun s => do
  let x ← s.srcV o.a
  let y ← s.srcSb o.ty o.sb o.b
  let z ← s.srcV o.c
  let g := s.guard o.pg
  pure (s.writeWhole o.d o.nw (laneMask o.ty g) 2 (vmadV o.ty o.sat g x y z s.racc))

def execVmulh (o : VBin) : State → Res := slotOp false (bodyVBin (fun t g x y a => vmulhV t g x y a) 2 o)
def execVmin (o : VBin) : State → Res := slotOp false (bodyVBin (fun t g => vint2 (fun x y => min x y) t false g) 2 o)
def execVmax (o : VBin) : State → Res := slotOp false (bodyVBin (fun t g => vint2 (fun x y => max x y) t false g) 2 o)
def execVabs (o : VUnSat) : State → Res :=
  slotOp false (bodyVU (fun t g x => vint2 (fun p _ => (fun x => (x.natAbs : Int)) p) t o.sat g x x) 2 o.d o.nw o.a o.pg o.ty)
def execVneg (o : VUnSat) : State → Res :=
  slotOp false (bodyVU (fun t g x => vint2 (fun p _ => (fun x => -x) p) t o.sat g x x) 2 o.d o.nw o.a o.pg o.ty)
def execVand (o : VBin) : State → Res := slotOp false (bodyVBin (fun _ _ x y a => (x &&& y, a)) 2 o)
def execVor (o : VBin) : State → Res := slotOp false (bodyVBin (fun _ _ x y a => (x ||| y, a)) 2 o)
def execVxor (o : VBin) : State → Res := slotOp false (bodyVBin (fun _ _ x y a => (x ^^^ y, a)) 2 o)
def execVshl (o : VBin) : State → Res := slotOp false (bodyVBin (vshift shlElem) 2 o)
def execVshr (o : VBin) : State → Res := slotOp false (bodyVBin (vshift shrElem) 2 o)
def execVsra (o : VBin) : State → Res := slotOp false (bodyVBin (vshift sraElem) 2 o)
def execVfadd (o : VFlt) : State → Res := slotOp false (bodyVFlt faddOp o)
def execVfsub (o : VFlt) : State → Res := slotOp false (bodyVFlt fsubOp o)
def execVfmul (o : VFlt) : State → Res := slotOp false (bodyVFlt fmulOp o)

def execVfma (o : VFmaOp) : State → Res := slotOp false fun s => do
  let x ← s.srcV o.a
  let y ← s.srcSb o.ty o.sb o.b
  let z ← s.srcV o.c
  let g := s.guard o.pg
  let r := vmap o.ty g (fun i acc => fmaOp (tyF o.ty) o.rm (elem o.ty x i) (elem o.ty y i) (elem o.ty z i) acc) s.racc
  pure (s.writeWhole o.d o.nw (laneMask o.ty g) 4 r)

def execVfmin (o : VBin) : State → Res := slotOp false (bodyVBin (vf2 (fun f => fminmax f true)) 4 o)
def execVfmax (o : VBin) : State → Res := slotOp false (bodyVBin (vf2 (fun f => fminmax f false)) 4 o)
def execVfabs (o : VUn) : State → Res :=
  slotOp false (bodyVU (vf1 (fun f => fsignOp f false)) 4 o.d o.nw o.a o.pg o.ty)
def execVfneg (o : VUn) : State → Res :=
  slotOp false (bodyVU (vf1 (fun f => fsignOp f true)) 4 o.d o.nw o.a o.pg o.ty)

/-! ### Compares, selects and lane moves (R211, R212) -/

def execVcmp (o : VCmpOp) : State → Res := slotOp false fun s => do
  let x ← s.srcV o.a
  let y ← s.srcSb o.ty o.sb o.b
  let g := s.guard o.pg
  pure (s.writePF o.pd o.nw 2 (pmap o.ty g (fun i a => (icompare o.cc (ielem o.ty x i) (ielem o.ty y i), a)) s.racc))

def execVfcmp (o : VCmpOp) : State → Res := slotOp false fun s => do
  let x ← s.srcV o.a
  let y ← s.srcSb o.ty o.sb o.b
  let g := s.guard o.pg
  pure (s.writePF o.pd o.nw 2
    (pmap o.ty g (fun i a => fcompare (tyF o.ty) o.cc (elem o.ty x i) (elem o.ty y i) a) s.racc))

def execVsel (o : VTri) : State → Res := slotOp false fun s => do
  let x ← s.srcV o.a
  let y ← s.srcV o.b
  let c ← s.srcP o.c
  pure (s.writeV o.d o.nw (vselV o.ty c x y) (laneMask o.ty (s.guard o.pg)) 2)

def execVbcst (o : VUn) : State → Res := slotOp false fun s => do
  let x ← s.srcS o.a
  pure (s.writeV o.d o.nw (broadcast o.ty x) (laneMask o.ty (s.guard o.pg)) 2)

/-- VINS: one element, if it is enabled. -/
def execVins (o : VTwo) : State → Res := slotOp false fun s => do
  let x ← s.srcS o.a
  let i ← s.srcS o.b
  if i.toNat < lanes o.ty then
    pure (s.writeV o.d o.nw (broadcast o.ty x) (insMask o.ty (s.guard o.pg) i.toNat) 2)
  else .error laneRange

def execVext (o : VTwo) : State → Res := slotOp false fun s => do
  let x ← s.srcV o.a
  let i ← s.srcS o.b
  if i.toNat < lanes o.ty then pure (s.writeS o.d o.nw (vextV o.ty x i.toNat) 2)
  else .error laneRange

def execVmov (o : VUn) : State → Res :=
  slotOp false (bodyVU (fun _ _ x a => (x, a)) 2 o.d o.nw o.a o.pg o.ty)

/-! ### Local access (R213 to R215) -/

/-- The address of VLD and VST, checked. -/
def vectorAddr (a : Word) (imm : BitVec 12) : Except Cond Nat :=
  let addr := (a.toNat : Int) + 256 * imm.toInt
  if addr < 0 ∨ (spmSize : Int) < addr + 256 then .error (scratchpadRange 2)
  else if addr.toNat % 256 ≠ 0 then .error (misalignedAccess 2)
  else .ok addr.toNat

/-- The addresses of the enabled elements, ascending: the range of every one is checked, then the alignment of every one (R214). -/
def elemAddrs (t : Ty) (g : PWord) (addr : Nat → Int) : Except Cond (List (Nat × Nat)) :=
  let w := tyBits t / 8
  let l := enabledLanes t g
  if l.any fun i => decide (addr i < 0) || decide ((spmSize : Int) - w < addr i) then .error (scratchpadRange 2)
  else if l.any fun i => decide ((addr i).toNat % w ≠ 0) then .error (misalignedAccess 2)
  else .ok (l.map fun i => (i, (addr i).toNat))

/-- Elements loaded from their addresses. -/
def State.loadElems (s : State) (t : Ty) (l : List (Nat × Nat)) : Except Cond VWord :=
  let n := tyBits t / 8
  if l.any fun p => s.myCore.bad.any fun y => decide (p.2 ≤ y) && decide (y < p.2 + n) then .error (dataError 2)
  else .ok (packElems (tyBits t) ((List.range (lanes t)).map fun i =>
    match l.find? (fun p => decide (p.1 = i)) with
    | some p => leNat (s.myCore.loadBytes p.2 n)
    | none => 0))

def execVld (o : VLoc) : State → Res := slotOp false fun s => do
  let a ← s.srcS o.a
  let addr ← vectorAddr a o.imm
  let b ← s.myCore.load 2 addr 256
  pure (s.writeV o.d o.nw (bytesV b) (laneMask o.ty (s.guard o.pg)) 8)

def execVst (d : Fin 32) (a : Src) (imm : BitVec 12) (pg : Fin 16) (ty : Ty) : State → Res := slotOp true fun s => do
  let x ← s.srcS a
  let addr ← vectorAddr x imm
  let m := laneMask ty (s.guard pg)
  let cells := (vbytes (s.regV d.val)).zip ((List.range 256).map fun i => m.getLsbD i)
  pure (s.onMyCore fun y => y.storeMasked addr cells)

def execVlds (o : VTwo) : State → Res := slotOp false fun s => do
  let a ← s.srcS o.a
  let b ← s.srcS o.b
  let g := s.guard o.pg
  let l ← elemAddrs o.ty g (fun i => (a.toNat : Int) + i * b.toInt)
  let v ← s.loadElems o.ty l
  pure (s.writeV o.d o.nw v (laneMask o.ty g) 8)

/-- Address of an element of VGATH and VSCAT. -/
def gatherAddr (t : Ty) (a : Word) (v : VWord) (i : Nat) : Int := (a.toNat : Int) + elem t v i * (tyBits t / 8)

def execVgath (o : VTwo) : State → Res := slotOp false fun s => do
  let a ← s.srcS o.a
  let v ← s.srcV o.b
  let g := s.guard o.pg
  let l ← elemAddrs o.ty g (gatherAddr o.ty a v)
  let w ← s.loadElems o.ty l
  pure (s.writeV o.d o.nw w (laneMask o.ty g) 8)

def execVscat (d : Fin 32) (a b : Src) (pg : Fin 16) (ty : Ty) : State → Res := slotOp true fun s => do
  let x ← s.srcS a
  let v ← s.srcV b
  let l ← elemAddrs ty (s.guard pg) (gatherAddr ty x v)
  let data := s.regV d.val
  pure (l.foldl (fun s p => s.onMyCore fun y => y.storeBytes p.2 (leBytes (elem ty data p.1) (tyBits ty / 8))) s)

/-! ### Horizontal reductions (R220, R221) -/

def execVrsum (o : VRed) : State → Res := slotOp false fun s => do
  let x ← s.srcV o.a
  pure (s.writeSF o.d o.nw 6 (vrsumV o.ty o.rm (s.guard o.pg) x s.racc))
def execVrmax (o : VUn) : State → Res := slotOp false fun s => do
  let x ← s.srcV o.a
  pure (s.writeSF o.d o.nw 6 (vrextV false o.ty (s.guard o.pg) x s.racc))
def execVrmin (o : VUn) : State → Res := slotOp false fun s => do
  let x ← s.srcV o.a
  pure (s.writeSF o.d o.nw 6 (vrextV true o.ty (s.guard o.pg) x s.racc))

/-- VRMRS writes a scalar, and its validity to every bit of a predicate at the same landing. -/
def execVrmrs (o : VRmrsOp) : State → Res := slotOp false fun s => do
  let x ← s.srcV o.a
  let c ← s.srcP o.c
  let (out, valid, acc) := vrmrsV o.ty (s.guard o.pg) c x s.racc
  let s := s.writeSF o.d o.nw 6 (out, acc)
  let p := if valid then allLanes else 0
  pure (if o.nw then s else s.writeNoLatch .p o.pd.val (p.setWidth 2048) 6)

/-! ### Predicates (R225 to R227) -/

/-- A predicate operation on all 256 bits, under the guard. -/
def bodyP2 (f : PWord → PWord → PWord) (o : PBin) (s : State) : Except Cond State := do
  let x ← s.srcP o.a
  let y ← s.srcP o.b
  pure (s.writeP o.pd o.nw (f x y &&& s.guard o.pg) 2)
def bodyP1 (f : PWord → PWord) (o : PUn) (s : State) : Except Cond State := do
  let x ← s.srcP o.a
  pure (s.writeP o.pd o.nw (f x &&& s.guard o.pg) 2)

def execPand (o : PBin) : State → Res := slotOp false (bodyP2 (· &&& ·) o)
def execPor (o : PBin) : State → Res := slotOp false (bodyP2 (· ||| ·) o)
def execPxor (o : PBin) : State → Res := slotOp false (bodyP2 (· ^^^ ·) o)
def execPandn (o : PBin) : State → Res := slotOp false (bodyP2 (fun x y => x &&& ~~~y) o)
def execPnot (o : PUn) : State → Res := slotOp false (bodyP1 (fun x => ~~~x) o)
def execPmov (o : PUn) : State → Res := slotOp false (bodyP1 (fun x => x) o)

def execPcnt (o : VUn) : State → Res := slotOp false fun s => do
  let x ← s.srcP o.a
  pure (s.writeS o.d o.nw (pcntV o.ty x (s.guard o.pg)) 2)
def execPfirst (o : PElt) : State → Res := slotOp false fun s => do
  let x ← s.srcP o.a
  pure (s.writeP o.pd o.nw (pfirstV o.ty x (s.guard o.pg)) 2)
def execPsetn (o : PElt) : State → Res := slotOp false fun s => do
  let m ← s.srcS o.a
  pure (s.writeP o.pd o.nw (psetnV o.ty m (s.guard o.pg)) 2)

def execPpack (d : Fin 32) (nw : Bool) (f : Fin 9) : State → Res := slotOp false fun s =>
  let v := packNat 256 ((List.range 8).map fun i => (s.iss.entry.readP (f.val + i)).toNat)
  pure (s.writeV d nw (BitVec.ofNat 2048 v) allLanes 2)

/-- PUNPK writes eight predicates and no latch. -/
def execPunpk (f : Fin 9) (a : Src) : State → Res := slotOp false fun s => do
  let x ← s.srcV a
  pure ((List.range 8).foldl (fun s i => s.writeNoLatch .p (f.val + i) ((x.extractLsb' (256 * i) 256).setWidth 2048) 2) s)

end Sys2Proof.Machine
end

