-- ==== Sys2Proof/Machine/Special.lean ====
section
/-! DEFINITION. The X-slot instructions: special functions, division, quantisation, conversion, codebooks, shuffles and index
vectors (R228 to R246). -/
namespace Sys2Proof.Machine

/-- A function of one floating operand under RNE, latency 12 (R230). -/
def bodyX1 (f : Ext → Ext × Flags) (o : VUn) : State → Except Cond State :=
  bodyVU (vf1 (fun fmt x a => fun1 f .rne fmt x a)) 12 o.d o.nw o.a o.pg o.ty

def execExp2 (o : VUn) : State → Res := slotOp false (bodyX1 Ext.exp2 o)
def execLog2 (o : VUn) : State → Res := slotOp false (bodyX1 Ext.log2 o)
def execRcp (o : VUn) : State → Res := slotOp false (bodyX1 Ext.rcp o)
def execRsqrt (o : VUn) : State → Res := slotOp false (bodyX1 Ext.rsqrt o)
def execTanh (o : VUn) : State → Res := slotOp false (bodyX1 Ext.tanh o)
def execSigm (o : VUn) : State → Res := slotOp false (bodyX1 Ext.sigm o)

def execSqrt (o : XSqrt) : State → Res :=
  slotOp false (bodyVU (vf1 (fun fmt x a => fun1 Ext.sqrt o.rm fmt x a)) 20 o.d o.nw o.a o.pg o.ty)
def execDiv (o : XDiv) : State → Res :=
  slotOp false (bodyVB (vf2 (fun fmt => fdivOp fmt o.rm)) 20 o.d o.nw o.a o.b false o.pg o.ty)

/-- Integer quotient or remainder, latency 20 (R233). -/
def bodyIDiv (rem : Bool) (o : XIDiv) (s : State) : Except Cond State := do
  let x ← s.srcV o.a
  let y ← s.srcV o.b
  let g := s.guard o.pg
  let en := if o.wd then wideMask 64 g else laneMask o.ty g
  pure (s.writeVF o.d o.nw en 20 (vdivV rem o.ty o.wd g x y s.racc))

def execDivs (o : XIDiv) : State → Res := slotOp false (bodyIDiv false o)
def execRems (o : XIDiv) : State → Res := slotOp false (bodyIDiv true o)
def execDivn (o : XIDiv) : State → Res := slotOp false (bodyIDiv false o)
def execRemn (o : XIDiv) : State → Res := slotOp false (bodyIDiv true o)

/-- MAXEXP: the scales to a register, whole, and to the scale latch at the same landing (R235). -/
def execMaxexp (o : XMaxexp) : State → Res := slotOp false fun s => do
  let x ← s.srcV o.a
  let (w, acc) := maxexpV o.ty o.tgt.val o.blk.val (s.guard o.pg) x s.racc
  let s := s.keepSr acc
  pure (s.fly (s.flight (some .v) o.d.val o.nw (w.setWidth 2048) allLanes 3 acc.fl
    (some (scaleLatch o.ty o.tgt.val o.blk.val w)) true))

/-- CVTQ: quantise by the scale latch as it stood at bundle entry (R236). -/
def execCvtq (o : VRed) : State → Res := slotOp false fun s => do
  let x ← s.srcV o.a
  let l := s.iss.entry.scale
  match findCode encodeTy allTy (l.extractLsb' 68 4) with
  | none => .error scaleLatchCond
  | some src =>
    if l.extractLsb' 68 4 = 0 ∨ o.ty ≠ tgtTy (l.extractLsb' 66 2).toNat then .error scaleLatchCond
    else pure (s.writeVF o.d o.nw allLanes 4
      (cvtqV src o.ty (l.extractLsb' 64 2).toNat (l.extractLsb' 0 64) o.rm (s.guard o.pg) x s.racc))

/-- CVT, CVTW and CVTN (R237). -/
def bodyCvt (o : XCvt) (s : State) : Except Cond State := do
  let x ← s.srcV o.a
  let (r, en, acc) := cvtV o.src o.ty o.part.val o.mode.val (s.guard o.pg) x s.racc
  pure (s.writeVF o.d o.nw en 4 (r, acc))
def execCvt (o : XCvt) : State → Res := slotOp false (bodyCvt o)
def execCvtw (o : XCvt) : State → Res := slotOp false (bodyCvt o)
def execCvtn (o : XCvt) : State → Res := slotOp false (bodyCvt o)

/-- CBLD: the slot changes at the end of the cycle (R239). -/
def execCbld (cb : Fin 8) (a : Src) : State → Res := slotOp true fun s => do
  let x ← s.srcS a
  pure (s.onMyCore fun y => { y with cbPut := some (cb.val, x.setWidth 32) })

def execCbdec (o : XCbdec) : State → Res := slotOp false fun s => do
  let x ← s.srcV o.a
  let g := s.guard o.pg
  pure (s.writeVF o.d o.nw (laneMask o.ty g) 4
    (cbdecV o.ty o.rm o.part.val (s.myCore.codebook o.cb.val) g x s.racc))

/-- Key of an entry of a pattern bank. -/
def patKey (bank : Bool) (k : Nat) : Nat := (if bank then 64 else 0) + k
def Core.pattern (x : Core) (k : Nat) : BitVec 2560 := (find x.pats (patKey x.bankSel k)).getD 0

def execShuf (o : XShuf) : State → Res := slotOp false fun s => do
  let x ← s.srcV o.a
  let y ← s.srcV o.b
  pure (s.writeV o.d o.nw (shufV (s.myCore.pattern o.entry.val) x y) (laneMask o.ty (s.guard o.pg)) 3)

/-- PATLD writes the inactive bank (R243). -/
def execPatld (entry : Fin 64) (a b : Src) : State → Res := slotOp true fun s => do
  let x ← s.srcV a
  let y ← s.srcV b
  let e := patEntry x y
  pure (s.onMyCore fun c =>
    { c with pats := setAt c.pats (patKey (!c.bankSel) entry.val) (if e = 0 then none else some e) })

def execPatsw : State → Res := slotOp true fun s => pure (s.onMyCore fun c => { c with bankSel := !c.bankSel })

def execVidx (o : VTwo) : State → Res := slotOp false fun s => do
  let a ← s.srcS o.a
  let b ← s.srcS o.b
  pure (s.writeV o.d o.nw (vidxV o.ty a b) (laneMask o.ty (s.guard o.pg)) 3)

end Sys2Proof.Machine
end

