-- ==== Sys2Proof/Machine/Agenda.lean ====
section
/-! DEFINITION. The same meanings by event: what a step performs when an event is due. `Event` has the arms of `Instr` that are events,
so that what is pending is plain data of its own. -/
namespace Sys2Proof.Machine

/-- The meaning of the instruction that an event stands for. -/
def execEvent (e : Event) (s : State) : Host.Outcome State Fault Refusal :=
  match e with
  | .fixedLatencyLand c k => Sys2Proof.Machine.execFixedLatencyLand c k s
  | .spawnComplete u n => Sys2Proof.Machine.execSpawnComplete u n s
  | .matCommandStart c st => Sys2Proof.Machine.execMatCommandStart c st s
  | .matCommandDone c id => Sys2Proof.Machine.execMatCommandDone c id s
  | .remoteSliceServe c => Sys2Proof.Machine.execRemoteSliceServe c s
  | .pairPartialArrive u idx rows cols isInt tile => Sys2Proof.Machine.execPairPartialArrive u idx rows cols isInt tile s
  | .pairCommitArrive u idx => Sys2Proof.Machine.execPairCommitArrive u idx s
  | .pairTimeout u idx => Sys2Proof.Machine.execPairTimeout u idx s
  | .spliceRequestArrive snd target slotsz => Sys2Proof.Machine.execSpliceRequestArrive snd target slotsz s
  | .spliceAnswerArrive snd tgt reason log2n tail free => Sys2Proof.Machine.execSpliceAnswerArrive snd tgt reason log2n tail free s
  | .spliceHeaderArrive tgt ctr => Sys2Proof.Machine.execSpliceHeaderArrive tgt ctr s
  | .spliceRowArrive m => Sys2Proof.Machine.execSpliceRowArrive m s
  | .headReportArrive snd free => Sys2Proof.Machine.execHeadReportArrive snd free s
  | .deliveryAckArrive u => Sys2Proof.Machine.execDeliveryAckArrive u s
  | .spliceEndMarkerArrive tgt => Sys2Proof.Machine.execSpliceEndMarkerArrive tgt s
  | .spliceTargetEnd snd tgt => Sys2Proof.Machine.execSpliceTargetEnd snd tgt s
  | .copyCommandStart c => Sys2Proof.Machine.execCopyCommandStart c s
  | .copyCommandDone u n => Sys2Proof.Machine.execCopyCommandDone u n s
  | .ddaCommandExecute c => Sys2Proof.Machine.execDdaCommandExecute c s
  | .ddaDomainStep c => Sys2Proof.Machine.execDdaDomainStep c s
  | .collRecordStart die => Sys2Proof.Machine.execCollRecordStart die s
  | .collRequestArrive r => Sys2Proof.Machine.execCollRequestArrive r s
  | .collBlockArrive b => Sys2Proof.Machine.execCollBlockArrive b s
  | .collDoneArrive die key rank => Sys2Proof.Machine.execCollDoneArrive die key rank s
  | .collDeadline die rid => Sys2Proof.Machine.execCollDeadline die rid s
  | .landingBufferWrite u id => Sys2Proof.Machine.execLandingBufferWrite u id s
  | .storePerformAtHome u n => Sys2Proof.Machine.execStorePerformAtHome u n s
  | .lsuAccessStart u n => Sys2Proof.Machine.execLsuAccessStart u n s
  | .tlbWalkDone die id => Sys2Proof.Machine.execTlbWalkDone die id s
  | .pageRequestResponse asid page right ans => Sys2Proof.Machine.execPageRequestResponse asid page right ans s
  | .pageRequestTimeout asid page right => Sys2Proof.Machine.execPageRequestTimeout asid page right s
  | .atsInvalidate pasid va bytes => Sys2Proof.Machine.execAtsInvalidate pasid va bytes s
  | .ifetchFill c k => Sys2Proof.Machine.execIfetchFill c k s
  | .asyncTrap c k => Sys2Proof.Machine.execAsyncTrap c k s
  | .domainFreeze l => Sys2Proof.Machine.execDomainFreeze l s
  | .domainResume l => Sys2Proof.Machine.execDomainResume l s
  | .sliceExpiry c k => Sys2Proof.Machine.execSliceExpiry c k s
  | .yieldOverrun c k => Sys2Proof.Machine.execYieldOverrun c k s
  | .drainSave c k => Sys2Proof.Machine.execDrainSave c k s
  | .forcedSave c k => Sys2Proof.Machine.execForcedSave c k s
  | .unitRestore c k => Sys2Proof.Machine.execUnitRestore c k s
  | .bankRetention c k => Sys2Proof.Machine.execBankRetention c k s
  | .bankRouseDone c k => Sys2Proof.Machine.execBankRouseDone c k s
  | .bankWake c k => Sys2Proof.Machine.execBankWake c k s
  | .unitRetire u => Sys2Proof.Machine.execUnitRetire u s
  | .runQueueEntryTaken c k => Sys2Proof.Machine.execRunQueueEntryTaken c k s
  | .cqtail port v => Sys2Proof.Machine.execCqtail port v s
  | .cplhead port v => Sys2Proof.Machine.execCplhead port v s
  | .malformedCommand port tag => Sys2Proof.Machine.execMalformedCommand port tag s
  | .submit port tag asid job die => Sys2Proof.Machine.execSubmit port tag asid job die s
  | .cancel port tag asid level va reason => Sys2Proof.Machine.execCancel port tag asid level va reason s
  | .asidinv port tag asid => Sys2Proof.Machine.execAsidinv port tag asid s
  | .tlbinv port tag asid va bytes => Sys2Proof.Machine.execTlbinv port tag asid va bytes s
  | .gangarm port tag rec asid die => Sys2Proof.Machine.execGangarm port tag rec asid die s
  | .ganggo port tag gang => Sys2Proof.Machine.execGanggo port tag gang s
  | .gangabort port tag gang => Sys2Proof.Machine.execGangabort port tag gang s
  | .keyld port tag key pa => Sys2Proof.Machine.execKeyld port tag key pa s
  | .keyclr port tag key => Sys2Proof.Machine.execKeyclr port tag key s
  | .gangArmTimeout gang => Sys2Proof.Machine.execGangArmTimeout gang s
  | .gangWaitTimeout gang => Sys2Proof.Machine.execGangWaitTimeout gang s
  | .gangCancelReceive gang cause => Sys2Proof.Machine.execGangCancelReceive gang cause s
  | .launch j n => Sys2Proof.Machine.execLaunch j n s
  | .launchPlace l => Sys2Proof.Machine.execLaunchPlace l s
  | .placeTimeout l => Sys2Proof.Machine.execPlaceTimeout l s
  | .coreClear c => Sys2Proof.Machine.execCoreClear c s
  | .copyNode j n => Sys2Proof.Machine.execCopyNode j n s
  | .condNode j n => Sys2Proof.Machine.execCondNode j n s
  | .whileNode j n => Sys2Proof.Machine.execWhileNode j n s
  | .whilePassEnd j => Sys2Proof.Machine.execWhilePassEnd j s
  | .signal j n => Sys2Proof.Machine.execSignal j n s
  | .waitNode j n => Sys2Proof.Machine.execWaitNode j n s
  | .waitPoll j => Sys2Proof.Machine.execWaitPoll j s
  | .waitTimeout j => Sys2Proof.Machine.execWaitTimeout j s
  | .phaseend j h => Sys2Proof.Machine.execPhaseend j h s
  | .hostirq j h vec => Sys2Proof.Machine.execHostirq j h vec s
  | .graphEnd j => Sys2Proof.Machine.execGraphEnd j s
  | .hbmwin port v => Sys2Proof.Machine.execHbmwin port v s
  | .ddrwin port v => Sys2Proof.Machine.execDdrwin port v s
  | .hsemAcq port => Sys2Proof.Machine.execHsemAcq port s
  | .hsemRel port => Sys2Proof.Machine.execHsemRel port s
  | .registerWrite port r v => Sys2Proof.Machine.execRegisterWrite port r v s
  | .maintModeChange c => Sys2Proof.Machine.execMaintModeChange c s
  | .ttctl port die v => Sys2Proof.Machine.execTtctl port die v s
  | .ttbuf port die v => Sys2Proof.Machine.execTtbuf port die v s
  | .ttdump port die v => Sys2Proof.Machine.execTtdump port die v s
  | .dumpRecord die => Sys2Proof.Machine.execDumpRecord die s
  | .errlog port => Sys2Proof.Machine.execErrlog port s
  | .hdmCommit port dec base => Sys2Proof.Machine.execHdmCommit port dec base s
  | .hostSnoop pa inv => Sys2Proof.Machine.execHostSnoop pa inv s
  | .hostHdmRead port pa => Sys2Proof.Machine.execHostHdmRead port pa s
  | .l2LineRequest die pa own => Sys2Proof.Machine.execL2LineRequest die pa own s
  | .errorEvent e => Sys2Proof.Machine.execErrorEvent e s
  | .faultWindowReset => Sys2Proof.Machine.execFaultWindowReset s
  | .powerCheck => Sys2Proof.Machine.execPowerCheck s
  | .functionReady f => Sys2Proof.Machine.execFunctionReady f s
  | .deviceReset => Sys2Proof.Machine.execDeviceReset s
  | .portReset port => Sys2Proof.Machine.execPortReset port s
  | .rowStreamShift die row => Sys2Proof.Machine.execRowStreamShift die row s
  | .pairAbortArrive u idx => Sys2Proof.Machine.execPairAbortArrive u idx s
  | .copyNodeComplete j id => Sys2Proof.Machine.execCopyNodeComplete j id s

end Sys2Proof.Machine
end

