-- ==== Sys2Proof/Machine/Dispatch.lean ====
section
/-! DEFINITION. One arm for each instruction: a direct call of its meaning. -/
namespace Sys2Proof.Machine

def exec (i : Instr) (s : State) : Host.Outcome State Fault Refusal :=
  match i with
  | .nop wt dp st => Sys2Proof.Machine.execNop wt dp st s
  | .add o => Sys2Proof.Machine.execAdd o s
  | .sub o => Sys2Proof.Machine.execSub o s
  | .and o => Sys2Proof.Machine.execAnd o s
  | .or o => Sys2Proof.Machine.execOr o s
  | .xor o => Sys2Proof.Machine.execXor o s
  | .andn o => Sys2Proof.Machine.execAndn o s
  | .shl o => Sys2Proof.Machine.execShl o s
  | .shr o => Sys2Proof.Machine.execShr o s
  | .sra o => Sys2Proof.Machine.execSra o s
  | .rol o => Sys2Proof.Machine.execRol o s
  | .min o => Sys2Proof.Machine.execMin o s
  | .max o => Sys2Proof.Machine.execMax o s
  | .minn o => Sys2Proof.Machine.execMinn o s
  | .maxn o => Sys2Proof.Machine.execMaxn o s
  | .seq o => Sys2Proof.Machine.execSeq o s
  | .sne o => Sys2Proof.Machine.execSne o s
  | .slt o => Sys2Proof.Machine.execSlt o s
  | .sltn o => Sys2Proof.Machine.execSltn o s
  | .sle o => Sys2Proof.Machine.execSle o s
  | .slen o => Sys2Proof.Machine.execSlen o s
  | .clz o => Sys2Proof.Machine.execClz o s
  | .ctz o => Sys2Proof.Machine.execCtz o s
  | .popc o => Sys2Proof.Machine.execPopc o s
  | .bfx o => Sys2Proof.Machine.execBfx o s
  | .bfxn o => Sys2Proof.Machine.execBfxn o s
  | .bfi o => Sys2Proof.Machine.execBfi o s
  | .mul o => Sys2Proof.Machine.execMul o s
  | .mulh o => Sys2Proof.Machine.execMulh o s
  | .mulhn o => Sys2Proof.Machine.execMulhn o s
  | .fadd o => Sys2Proof.Machine.execFadd o s
  | .fsub o => Sys2Proof.Machine.execFsub o s
  | .fmul o => Sys2Proof.Machine.execFmul o s
  | .fma o => Sys2Proof.Machine.execFma o s
  | .fmin o => Sys2Proof.Machine.execFmin o s
  | .fmax o => Sys2Proof.Machine.execFmax o s
  | .fabs o => Sys2Proof.Machine.execFabs o s
  | .fneg o => Sys2Proof.Machine.execFneg o s
  | .feq o => Sys2Proof.Machine.execFeq o s
  | .flt o => Sys2Proof.Machine.execFlt o s
  | .fle o => Sys2Proof.Machine.execFle o s
  | .fcvti o => Sys2Proof.Machine.execFcvti o s
  | .icvtf o => Sys2Proof.Machine.execIcvtf o s
  | .addi o => Sys2Proof.Machine.execAddi o s
  | .andi o => Sys2Proof.Machine.execAndi o s
  | .ori o => Sys2Proof.Machine.execOri o s
  | .xori o => Sys2Proof.Machine.execXori o s
  | .shli o => Sys2Proof.Machine.execShli o s
  | .shri o => Sys2Proof.Machine.execShri o s
  | .srai o => Sys2Proof.Machine.execSrai o s
  | .slti o => Sys2Proof.Machine.execSlti o s
  | .sltni o => Sys2Proof.Machine.execSltni o s
  | .li o => Sys2Proof.Machine.execLi o s
  | .lim o => Sys2Proof.Machine.execLim o s
  | .lit o => Sys2Proof.Machine.execLit o s
  | .ldLI8 o => Sys2Proof.Machine.execLdLI8 o s
  | .ldLN8 o => Sys2Proof.Machine.execLdLN8 o s
  | .ldLI16 o => Sys2Proof.Machine.execLdLI16 o s
  | .ldLN16 o => Sys2Proof.Machine.execLdLN16 o s
  | .ldLI32 o => Sys2Proof.Machine.execLdLI32 o s
  | .ldLN32 o => Sys2Proof.Machine.execLdLN32 o s
  | .ldLD o => Sys2Proof.Machine.execLdLD o s
  | .stLB o => Sys2Proof.Machine.execStLB o s
  | .stLH o => Sys2Proof.Machine.execStLH o s
  | .stLW o => Sys2Proof.Machine.execStLW o s
  | .stLD o => Sys2Proof.Machine.execStLD o s
  | .ldg o => Sys2Proof.Machine.execLdg o s
  | .stg o => Sys2Proof.Machine.execStg o s
  | .amoAdd o => Sys2Proof.Machine.execAmoAdd o s
  | .amoAnd o => Sys2Proof.Machine.execAmoAnd o s
  | .amoOr o => Sys2Proof.Machine.execAmoOr o s
  | .amoXor o => Sys2Proof.Machine.execAmoXor o s
  | .amoMin o => Sys2Proof.Machine.execAmoMin o s
  | .amoMax o => Sys2Proof.Machine.execAmoMax o s
  | .amoMinn o => Sys2Proof.Machine.execAmoMinn o s
  | .amoMaxn o => Sys2Proof.Machine.execAmoMaxn o s
  | .amoSwap o => Sys2Proof.Machine.execAmoSwap o s
  | .amoFadd o => Sys2Proof.Machine.execAmoFadd o s
  | .amocas o => Sys2Proof.Machine.execAmocas o s
  | .fence sc => Sys2Proof.Machine.execFence sc s
  | .fenceRel sc => Sys2Proof.Machine.execFenceRel sc s
  | .waittl a e => Sys2Proof.Machine.execWaittl a e s
  | .bcz cc a disp => Sys2Proof.Machine.execBcz cc a disp s
  | .bc cc a b disp => Sys2Proof.Machine.execBc cc a b disp s
  | .bp p t disp => Sys2Proof.Machine.execBp p t disp s
  | .jmp disp => Sys2Proof.Machine.execJmp disp s
  | .brl d disp => Sys2Proof.Machine.execBrl d disp s
  | .jr a => Sys2Proof.Machine.execJr a s
  | .jrl d a => Sys2Proof.Machine.execJrl d a s
  | .loop n a disp => Sys2Proof.Machine.execLoop n a disp s
  | .loopi n cnt disp => Sys2Proof.Machine.execLoopi n cnt disp s
  | .enter imm => Sys2Proof.Machine.execEnter imm s
  | .leave => Sys2Proof.Machine.execLeave s
  | .csrr d nw csr => Sys2Proof.Machine.execCsrr d nw csr s
  | .csrw o => Sys2Proof.Machine.execCsrw o s
  | .csrs o => Sys2Proof.Machine.execCsrs o s
  | .csrc o => Sys2Proof.Machine.execCsrc o s
  | .trap a => Sys2Proof.Machine.execTrap a s
  | .sysc a => Sys2Proof.Machine.execSysc a s
  | .brk => Sys2Proof.Machine.execBrk s
  | .tret => Sys2Proof.Machine.execTret s
  | .iclk d a b => Sys2Proof.Machine.execIclk d a b s
  | .iunlk a b => Sys2Proof.Machine.execIunlk a b s
  | .yield n => Sys2Proof.Machine.execYield n s
  | .spawn d a b => Sys2Proof.Machine.execSpawn d a b s
  | .exit => Sys2Proof.Machine.execExit s
  | .cancelLaunch a => Sys2Proof.Machine.execCancelLaunch a s
  | .cancelGraph a => Sys2Proof.Machine.execCancelGraph a s
  | .cancelPhase a => Sys2Proof.Machine.execCancelPhase a s
  | .cancelJob a => Sys2Proof.Machine.execCancelJob a s
  | .barClu n a => Sys2Proof.Machine.execBarClu n a s
  | .barDie n a => Sys2Proof.Machine.execBarDie n a s
  | .barDev n a => Sys2Proof.Machine.execBarDev n a s
  | .vadd o => Sys2Proof.Machine.execVadd o s
  | .vsub o => Sys2Proof.Machine.execVsub o s
  | .vmul o => Sys2Proof.Machine.execVmul o s
  | .vmad o => Sys2Proof.Machine.execVmad o s
  | .vmulh o => Sys2Proof.Machine.execVmulh o s
  | .vmin o => Sys2Proof.Machine.execVmin o s
  | .vmax o => Sys2Proof.Machine.execVmax o s
  | .vabs o => Sys2Proof.Machine.execVabs o s
  | .vneg o => Sys2Proof.Machine.execVneg o s
  | .vand o => Sys2Proof.Machine.execVand o s
  | .vor o => Sys2Proof.Machine.execVor o s
  | .vxor o => Sys2Proof.Machine.execVxor o s
  | .vshl o => Sys2Proof.Machine.execVshl o s
  | .vshr o => Sys2Proof.Machine.execVshr o s
  | .vsra o => Sys2Proof.Machine.execVsra o s
  | .vfadd o => Sys2Proof.Machine.execVfadd o s
  | .vfsub o => Sys2Proof.Machine.execVfsub o s
  | .vfmul o => Sys2Proof.Machine.execVfmul o s
  | .vfma o => Sys2Proof.Machine.execVfma o s
  | .vfmin o => Sys2Proof.Machine.execVfmin o s
  | .vfmax o => Sys2Proof.Machine.execVfmax o s
  | .vfabs o => Sys2Proof.Machine.execVfabs o s
  | .vfneg o => Sys2Proof.Machine.execVfneg o s
  | .vcmp o => Sys2Proof.Machine.execVcmp o s
  | .vfcmp o => Sys2Proof.Machine.execVfcmp o s
  | .vsel o => Sys2Proof.Machine.execVsel o s
  | .vbcst o => Sys2Proof.Machine.execVbcst o s
  | .vins o => Sys2Proof.Machine.execVins o s
  | .vext o => Sys2Proof.Machine.execVext o s
  | .vmov o => Sys2Proof.Machine.execVmov o s
  | .vld o => Sys2Proof.Machine.execVld o s
  | .vst d a imm pg ty => Sys2Proof.Machine.execVst d a imm pg ty s
  | .vlds o => Sys2Proof.Machine.execVlds o s
  | .vgath o => Sys2Proof.Machine.execVgath o s
  | .vscat d a b pg ty => Sys2Proof.Machine.execVscat d a b pg ty s
  | .vldg o => Sys2Proof.Machine.execVldg o s
  | .vstg o => Sys2Proof.Machine.execVstg o s
  | .vrsum o => Sys2Proof.Machine.execVrsum o s
  | .vrmax o => Sys2Proof.Machine.execVrmax o s
  | .vrmin o => Sys2Proof.Machine.execVrmin o s
  | .vrmrs o => Sys2Proof.Machine.execVrmrs o s
  | .vcpush o => Sys2Proof.Machine.execVcpush o s
  | .vcpop o => Sys2Proof.Machine.execVcpop o s
  | .pand o => Sys2Proof.Machine.execPand o s
  | .por o => Sys2Proof.Machine.execPor o s
  | .pxor o => Sys2Proof.Machine.execPxor o s
  | .pandn o => Sys2Proof.Machine.execPandn o s
  | .pnot o => Sys2Proof.Machine.execPnot o s
  | .pmov o => Sys2Proof.Machine.execPmov o s
  | .pcnt o => Sys2Proof.Machine.execPcnt o s
  | .pfirst o => Sys2Proof.Machine.execPfirst o s
  | .psetn o => Sys2Proof.Machine.execPsetn o s
  | .ppack d nw f => Sys2Proof.Machine.execPpack d nw f s
  | .punpk f a => Sys2Proof.Machine.execPunpk f a s
  | .exp2 o => Sys2Proof.Machine.execExp2 o s
  | .log2 o => Sys2Proof.Machine.execLog2 o s
  | .rcp o => Sys2Proof.Machine.execRcp o s
  | .rsqrt o => Sys2Proof.Machine.execRsqrt o s
  | .sqrt o => Sys2Proof.Machine.execSqrt o s
  | .div o => Sys2Proof.Machine.execDiv o s
  | .tanh o => Sys2Proof.Machine.execTanh o s
  | .sigm o => Sys2Proof.Machine.execSigm o s
  | .divs o => Sys2Proof.Machine.execDivs o s
  | .rems o => Sys2Proof.Machine.execRems o s
  | .divn o => Sys2Proof.Machine.execDivn o s
  | .remn o => Sys2Proof.Machine.execRemn o s
  | .maxexp o => Sys2Proof.Machine.execMaxexp o s
  | .cvtq o => Sys2Proof.Machine.execCvtq o s
  | .cvt o => Sys2Proof.Machine.execCvt o s
  | .cvtw o => Sys2Proof.Machine.execCvtw o s
  | .cvtn o => Sys2Proof.Machine.execCvtn o s
  | .cbld cb a => Sys2Proof.Machine.execCbld cb a s
  | .cbdec o => Sys2Proof.Machine.execCbdec o s
  | .shuf o => Sys2Proof.Machine.execShuf o s
  | .patld entry a b => Sys2Proof.Machine.execPatld entry a b s
  | .patsw => Sys2Proof.Machine.execPatsw s
  | .vidx o => Sys2Proof.Machine.execVidx o s
  | .tcfg t => Sys2Proof.Machine.execTcfg t s
  | .mma o => Sys2Proof.Machine.execMma o s
  | .pmma o => Sys2Proof.Machine.execPmma o s
  | .accz mask => Sys2Proof.Machine.execAccz mask s
  | .accrd o => Sys2Proof.Machine.execAccrd o s
  | .accrv o => Sys2Proof.Machine.execAccrv o s
  | .accwr o => Sys2Proof.Machine.execAccwr o s
  | .accsave o => Sys2Proof.Machine.execAccsave o s
  | .accrest o => Sys2Proof.Machine.execAccrest o s
  | .lease => Sys2Proof.Machine.execLease s
  | .unlease => Sys2Proof.Machine.execUnlease s
  | .qcfg o => Sys2Proof.Machine.execQcfg o s
  | .qpop q n => Sys2Proof.Machine.execQpop q n s
  | .qrd o => Sys2Proof.Machine.execQrd o s
  | .qwr o => Sys2Proof.Machine.execQwr o s
  | .qspl q a => Sys2Proof.Machine.execQspl q a s
  | .quns q => Sys2Proof.Machine.execQuns q s
  | .qsave o => Sys2Proof.Machine.execQsave o s
  | .qrest o => Sys2Proof.Machine.execQrest o s
  | .qstat o => Sys2Proof.Machine.execQstat o s
  | .cpld o => Sys2Proof.Machine.execCpld o s
  | .cpst o => Sys2Proof.Machine.execCpst o s
  | .cpll o => Sys2Proof.Machine.execCpll o s
  | .cpga o => Sys2Proof.Machine.execCpga o s
  | .cpmem o => Sys2Proof.Machine.execCpmem o s
  | .tlook d a => Sys2Proof.Machine.execTlook d a s
  | .tins a b => Sys2Proof.Machine.execTins a b s
  | .tinv a idx => Sys2Proof.Machine.execTinv a idx s
  | .sdrv w str b => Sys2Proof.Machine.execSdrv w str b s
  | .stap w str d => Sys2Proof.Machine.execStap w str d s
  | .stapq w str q tag => Sys2Proof.Machine.execStapq w str q tag s
  | .dpatch o => Sys2Proof.Machine.execDpatch o s
  | .dclk mask a => Sys2Proof.Machine.execDclk mask a s
  | .dset o => Sys2Proof.Machine.execDset o s
  | .dinj b => Sys2Proof.Machine.execDinj b s
  | .dstep mask a => Sys2Proof.Machine.execDstep mask a s
  | .dread o => Sys2Proof.Machine.execDread o s
  | .dcnt o => Sys2Proof.Machine.execDcnt o s
  | .dsave a imm rel => Sys2Proof.Machine.execDsave a imm rel s
  | .dload a imm => Sys2Proof.Machine.execDload a imm s
  | .coll a b => Sys2Proof.Machine.execColl a b s
  | .cqry a imm b => Sys2Proof.Machine.execCqry a imm b s
  | .fixedLatencyLand c k => Sys2Proof.Machine.execFixedLatencyLand c k s
  | .spawnComplete u n => Sys2Proof.Machine.execSpawnComplete u n s
  | .matCommandStart c st => Sys2Proof.Machine.execMatCommandStart c st s
  | .matCommandDone c id => Sys2Proof.Machine.execMatCommandDone c id s
  | .remoteSliceServe c => Sys2Proof.Machine.execRemoteSliceServe c s
  | .pairPartialArrive u idx rows cols isInt tile => Sys2Proof.Machine.execPairPartialArrive u idx rows cols isInt tile s
  | .pairCommitArrive u idx => Sys2Proof.Machine.execPairCommitArrive u idx s
  | .pairTimeout u idx => Sys2Proof.Machine.execPairTimeout u idx s
  | .spliceRequestArrive snd target slotsz => Sys2Proof.Machine.execSpliceRequestArrive snd target slotsz s
  | .spliceAnswerArrive snd tgt reason log2n tail free => Sys2Proof.Machine.execSpliceAnswerArrive snd tgt reason log2n tail free s
  | .spliceHeaderArrive tgt ctr => Sys2Proof.Machine.execSpliceHeaderArrive tgt ctr s
  | .spliceRowArrive m => Sys2Proof.Machine.execSpliceRowArrive m s
  | .headReportArrive snd free => Sys2Proof.Machine.execHeadReportArrive snd free s
  | .deliveryAckArrive u => Sys2Proof.Machine.execDeliveryAckArrive u s
  | .spliceEndMarkerArrive tgt => Sys2Proof.Machine.execSpliceEndMarkerArrive tgt s
  | .spliceTargetEnd snd tgt => Sys2Proof.Machine.execSpliceTargetEnd snd tgt s
  | .copyCommandStart c => Sys2Proof.Machine.execCopyCommandStart c s
  | .copyCommandDone u n => Sys2Proof.Machine.execCopyCommandDone u n s
  | .ddaCommandExecute c => Sys2Proof.Machine.execDdaCommandExecute c s
  | .ddaDomainStep c => Sys2Proof.Machine.execDdaDomainStep c s
  | .collRecordStart die => Sys2Proof.Machine.execCollRecordStart die s
  | .collRequestArrive r => Sys2Proof.Machine.execCollRequestArrive r s
  | .collBlockArrive b => Sys2Proof.Machine.execCollBlockArrive b s
  | .collDoneArrive die key rank => Sys2Proof.Machine.execCollDoneArrive die key rank s
  | .collDeadline die rid => Sys2Proof.Machine.execCollDeadline die rid s
  | .landingBufferWrite u id => Sys2Proof.Machine.execLandingBufferWrite u id s
  | .storePerformAtHome u n => Sys2Proof.Machine.execStorePerformAtHome u n s
  | .lsuAccessStart u n => Sys2Proof.Machine.execLsuAccessStart u n s
  | .tlbWalkDone die id => Sys2Proof.Machine.execTlbWalkDone die id s
  | .pageRequestResponse asid page right ans => Sys2Proof.Machine.execPageRequestResponse asid page right ans s
  | .pageRequestTimeout asid page right => Sys2Proof.Machine.execPageRequestTimeout asid page right s
  | .atsInvalidate pasid va bytes => Sys2Proof.Machine.execAtsInvalidate pasid va bytes s
  | .ifetchFill c k => Sys2Proof.Machine.execIfetchFill c k s
  | .asyncTrap c k => Sys2Proof.Machine.execAsyncTrap c k s
  | .domainFreeze l => Sys2Proof.Machine.execDomainFreeze l s
  | .domainResume l => Sys2Proof.Machine.execDomainResume l s
  | .sliceExpiry c k => Sys2Proof.Machine.execSliceExpiry c k s
  | .yieldOverrun c k => Sys2Proof.Machine.execYieldOverrun c k s
  | .drainSave c k => Sys2Proof.Machine.execDrainSave c k s
  | .forcedSave c k => Sys2Proof.Machine.execForcedSave c k s
  | .unitRestore c k => Sys2Proof.Machine.execUnitRestore c k s
  | .bankRetention c k => Sys2Proof.Machine.execBankRetention c k s
  | .bankRouseDone c k => Sys2Proof.Machine.execBankRouseDone c k s
  | .bankWake c k => Sys2Proof.Machine.execBankWake c k s
  | .unitRetire u => Sys2Proof.Machine.execUnitRetire u s
  | .runQueueEntryTaken c k => Sys2Proof.Machine.execRunQueueEntryTaken c k s
  | .cqtail port v => Sys2Proof.Machine.execCqtail port v s
  | .cplhead port v => Sys2Proof.Machine.execCplhead port v s
  | .malformedCommand port tag => Sys2Proof.Machine.execMalformedCommand port tag s
  | .submit port tag asid job die => Sys2Proof.Machine.execSubmit port tag asid job die s
  | .cancel port tag asid level va reason => Sys2Proof.Machine.execCancel port tag asid level va reason s
  | .asidinv port tag asid => Sys2Proof.Machine.execAsidinv port tag asid s
  | .tlbinv port tag asid va bytes => Sys2Proof.Machine.execTlbinv port tag asid va bytes s
  | .gangarm port tag rec asid die => Sys2Proof.Machine.execGangarm port tag rec asid die s
  | .ganggo port tag gang => Sys2Proof.Machine.execGanggo port tag gang s
  | .gangabort port tag gang => Sys2Proof.Machine.execGangabort port tag gang s
  | .keyld port tag key pa => Sys2Proof.Machine.execKeyld port tag key pa s
  | .keyclr port tag key => Sys2Proof.Machine.execKeyclr port tag key s
  | .gangArmTimeout gang => Sys2Proof.Machine.execGangArmTimeout gang s
  | .gangWaitTimeout gang => Sys2Proof.Machine.execGangWaitTimeout gang s
  | .gangCancelReceive gang cause => Sys2Proof.Machine.execGangCancelReceive gang cause s
  | .launch j n => Sys2Proof.Machine.execLaunch j n s
  | .launchPlace l => Sys2Proof.Machine.execLaunchPlace l s
  | .placeTimeout l => Sys2Proof.Machine.execPlaceTimeout l s
  | .coreClear c => Sys2Proof.Machine.execCoreClear c s
  | .copyNode j n => Sys2Proof.Machine.execCopyNode j n s
  | .condNode j n => Sys2Proof.Machine.execCondNode j n s
  | .whileNode j n => Sys2Proof.Machine.execWhileNode j n s
  | .whilePassEnd j => Sys2Proof.Machine.execWhilePassEnd j s
  | .signal j n => Sys2Proof.Machine.execSignal j n s
  | .waitNode j n => Sys2Proof.Machine.execWaitNode j n s
  | .waitPoll j => Sys2Proof.Machine.execWaitPoll j s
  | .waitTimeout j => Sys2Proof.Machine.execWaitTimeout j s
  | .phaseend j h => Sys2Proof.Machine.execPhaseend j h s
  | .hostirq j h vec => Sys2Proof.Machine.execHostirq j h vec s
  | .graphEnd j => Sys2Proof.Machine.execGraphEnd j s
  | .hbmwin port v => Sys2Proof.Machine.execHbmwin port v s
  | .ddrwin port v => Sys2Proof.Machine.execDdrwin port v s
  | .hsemAcq port => Sys2Proof.Machine.execHsemAcq port s
  | .hsemRel port => Sys2Proof.Machine.execHsemRel port s
  | .registerWrite port r v => Sys2Proof.Machine.execRegisterWrite port r v s
  | .maintModeChange c => Sys2Proof.Machine.execMaintModeChange c s
  | .ttctl port die v => Sys2Proof.Machine.execTtctl port die v s
  | .ttbuf port die v => Sys2Proof.Machine.execTtbuf port die v s
  | .ttdump port die v => Sys2Proof.Machine.execTtdump port die v s
  | .dumpRecord die => Sys2Proof.Machine.execDumpRecord die s
  | .errlog port => Sys2Proof.Machine.execErrlog port s
  | .hdmCommit port dec base => Sys2Proof.Machine.execHdmCommit port dec base s
  | .hostSnoop pa inv => Sys2Proof.Machine.execHostSnoop pa inv s
  | .hostHdmRead port pa => Sys2Proof.Machine.execHostHdmRead port pa s
  | .l2LineRequest die pa own => Sys2Proof.Machine.execL2LineRequest die pa own s
  | .errorEvent e => Sys2Proof.Machine.execErrorEvent e s
  | .faultWindowReset => Sys2Proof.Machine.execFaultWindowReset s
  | .powerCheck => Sys2Proof.Machine.execPowerCheck s
  | .functionReady f => Sys2Proof.Machine.execFunctionReady f s
  | .deviceReset => Sys2Proof.Machine.execDeviceReset s
  | .portReset port => Sys2Proof.Machine.execPortReset port s
  | .rowStreamShift die row => Sys2Proof.Machine.execRowStreamShift die row s
  | .pairAbortArrive u idx => Sys2Proof.Machine.execPairAbortArrive u idx s
  | .copyNodeComplete j id => Sys2Proof.Machine.execCopyNodeComplete j id s

end Sys2Proof.Machine
end

