-- ==== Sys2Proof/Machine/Cycle.lean ====
section
/-! DEFINITION. One core cycle: issuing a bundle, the acts of the cycle, its end, and the prefetcher
(R21, R106, R108, R115, R116, R127, R129, R137 to R143, R147, R152, R239, R299, R308, R358 to R361, R372, R373, R395). -/
namespace Sys2Proof.Machine

/-! ### The prefetcher (R21, R116) -/

/-- Whether a line holds a byte of a range. -/
def ILine.holds (l : ILine) (asid va n : Nat) : Bool := decide (l.asid = asid) && overlaps l.va 512 va n

/-- The lines of a range are used now (R110). -/
def Core.touchLines (x : Core) (asid va n now : Nat) : Core :=
  { x with icache := x.icache.map fun l => if l.holds asid va n then { l with used := now } else l }

/-- One line: fetched when its translation is at hand; a miss of translation drops it. -/
def State.prefetchLine (s : State) (c launch asid va : Nat) : State :=
  if ((s.core c).line asid va).any fun l => l.valid == 0xFF then s
  else match s.lookup (some c) (dieOf c) asid va .x with
    | some (e, _) => if e.nx then s else s.fillLine c launch asid va e
    | none => s

/-- The entry of a prefetch block that its bytes give: weight and address, when it carries the marker. -/
def prefetchEntry (b : List Byte) : Option (Nat × Nat) :=
  let w := BitVec.ofNat 64 (leNat b)
  if field w 56 4 = 0xA then some (field w 60 4, field w 0 56) else none

/-- A BRL or JRL to a target has been taken: the block before the target is read through the instruction cache, in one line or two,
and the first two lines of each successor of enough weight are fetched, in entry order. -/
def State.prefetch (s : State) (c k : Nat) (target : Word) : State :=
  let x := s.ctx c k
  let asid := x.csr.asidcur.toNat
  let l := (x.unit.map s.launchOf).getD 0
  let th := field x.csr.pfthresh 0 5
  if 16 ≤ th then s
  else
    let at_ := va56 (target - 32#64)
    let s := (s.prefetchLine c l asid at_).prefetchLine c l asid ((at_ + 31) % 2 ^ 56)
    match (s.core c).fetchBytes asid at_ 32 with
    | none => s
    | some b =>
      let s := s.onCore c fun y => y.touchLines asid at_ 32 s.now
      let es := (List.range 4).filterMap fun i => prefetchEntry ((b.drop (8 * i)).take 8)
      (es.filter fun e => decide (th ≤ e.1)).foldl (fun s e =>
        (s.prefetchLine c l asid (e.2 / 512 * 512)).prefetchLine c l asid ((e.2 / 512 * 512 + 512) % 2 ^ 56)) s

/-! ### Issuing a bundle (R127, R129, R137, R144, R358 to R361, R395) -/

/-- The bundle about to issue from a context: the writes due at its context cycle land (R138), and its slots read the bank as it
then stands. -/
def State.openIssue (s : State) (c k : Nat) (b : Bundle) (stopped : BitVec 6) : State :=
  let e := (s.ctx c k).atEntry
  { s.onCtx c k Ctx.landDue with iss := {
    core := c
    ctx := k
    slot := .s0
    pc := e.pc
    len := b.hdr.len
    wt := b.hdr.wt
    dp := b.hdr.dp
    st := b.hdr.st
    cc := e.cc
    entry := e
    probing := false
    anyRaise := false
    last := false
    resumed := e.resume.isSome
    stopped
    raised := []
    done := e.doneSlots
    branch0 := none
    branch1 := none
    csrs := []
    loops := []
    ret := false
    slots := b.slots } }

/-- One slot of the bundle performs; an unassigned opcode is a fault of its slot (R129). -/
def State.slotPerforms (s : State) (p : Placed) (last : Bool) : Res :=
  let s := { s with iss := { s.iss with slot := p.slot, last } }
  match p.syl with
  | .op i => exec i s
  | _ => .next (s.raise (unassignedOpcode (slotOrigin p.slot))).complete

/-- The slots perform in slot order, and the last one completes the bundle. -/
def runSlots : List Placed → State → Res
  | [], s => .next s.completeBundle
  | [p], s => s.slotPerforms p true
  | p :: rest, s => match s.slotPerforms p false with
    | .next t => runSlots rest t
    | r => r

/-- Find out, from the state at entry, which slots raise: it decides what the deferred slots do (R358, R359). -/
def probeSlots : List Placed → State → Res
  | [], s => .next s
  | p :: rest, s => match s.slotPerforms p false with
    | .next t => probeSlots rest t
    | r => r

/-- The slots that perform, the others' conditions being known first when there are several. -/
def State.perform (s : State) (l : List Placed) : Res :=
  if l.length ≤ 1 then runSlots l { s with iss := { s.iss with anyRaise := decide (s.iss.stopped ≠ 0) } }
  else match probeSlots l { s with iss := { s.iss with probing := true } } with
    | .next t =>
      let any := !t.iss.raised.isEmpty || decide (s.iss.stopped ≠ 0)
      runSlots l { s with iss := { s.iss with anyRaise := any } }
    | r => r

/-- A bundle that stops before any slot of it commits: an illegal bundle or a fetch fault (R111, R127, R358). What a resumed
bundle had done stays done. -/
def State.stopWhole (s : State) (c k : Nat) (cond : Cond) (bad : BitVec 6) : State :=
  let x := s.ctx c k
  let done := x.doneSlots
  let s := if done = 0 then s else s.onCtx c k fun x => { x with cc := x.cc + 1 }
  s.takeTrap c k {
    cond
    trappc := x.pc
    resume := x.pc
    done
    bad
    snaps := (x.resume.map (·.snaps)).getD []
    async := none
    unchecked := (x.resume.map (·.unchecked)).getD 0 }

/-- What a context notes of the bundle it issues (R106, R152). -/
def Ctx.issuing (x : Ctx) (now : Nat) : Ctx := { x with spent := some now, lastPc := x.pc, lastCc := x.cc, dpArmed := false }

/-- A legal bundle issues: bundle breakpoints first, then its slots. -/
def State.issueBundle (s : State) (c k : Nat) (b : Bundle) (left : BitVec 6) : Res :=
  let x := s.ctx c k
  let asid := x.csr.asidcur.toNat
  let hits := (s.tell (dieOf c)).breaks asid x.pc b.hdr.pm
  let stopped := hits.1 &&& left &&& ~~~((x.resume.map (·.unchecked)).getD 0)
  let s := if hits.2 && decide (x.doneSlots = 0) then s.dumpContext c k else s
  let s := s.onCore c fun y => (y.setCtx k (x.issuing s.now)).touchLines asid (va56 x.pc) (2 * b.hdr.len) s.now
  (s.openIssue c k b stopped).perform (b.slots.filter fun p => (left &&& ~~~stopped).getLsbD p.slot.index)

/-- After the bundle: a BRL or JRL that was taken sets the prefetcher going. -/
def State.afterIssue (s : State) : State :=
  match s.iss.reported, s.iss.branch with
  | none, some ⟨t, some _⟩ => s.prefetch s.iss.core s.iss.ctx t
  | _, _ => s

/-- A context issues its next bundle. -/
def State.issue (s : State) (c k : Nat) : Res :=
  match s.upcoming c k with
  | .missing _ => .next s
  | .fault e => .next (s.stopWhole c k e 0)
  | .bundle b left => match b.illegal with
    | some bad =>
      .next ((s.onCtx c k fun x => { x with csr := x.csr.reportSlots bad x.doneSlots }).stopWhole c k illegalBundle bad)
    | none => match s.issueBundle c k b left with
      | .next t => .next t.afterIssue
      | r => r

/-! ### The acts of a core cycle (R137, R139, R142, R143) -/

/-- A wait cycle. -/
def Ctx.waitCycle (x : Ctx) (now : Nat) : Ctx := { x with waits := x.waits - 1, cc := x.cc + 1, spent := some now }

/-- Whether a context spends a wait cycle now. -/
def State.mayWait (s : State) (c k : Nat) : Bool :=
  let x := s.ctx c k
  match x.unit.bind fun u => (s.unit u).map fun y => (u, y) with
  | some (u, y) => !s.halted && decide (y.life = .live) && !s.unitEnding u && decide (0 < x.waits) && decide (x.moving ≤ s.now)
      && decide (x.bank = .on) && !s.frozen c k
  | none => false

/-- A context cycle, and the writes that land at the start of the next one: they land as soon as the context has come there,
before anything that may happen while it waits for its next bundle (R138, R361; log entry 22). -/
def thenLand (c k : Nat) (a : Act) : List Act := [a, .event (.fixedLatencyLand c k)]

def State.waitActs (s : State) (c : Nat) : List Act :=
  ([0, 1, 2, 3].filter fun k => s.mayWait c k).flatMap fun k => thenLand c k (.wait c k)
/-- The bundles that the merge stage lets issue, and the fetch faults of contexts that would issue next: they take no place in
the merge (R111, R141, R142). -/
def State.issueActs (s : State) (c : Nat) : List Act := (s.mergeStage c ++ s.fetchFaults c).flatMap fun k => thenLand c k (.issue c k)

/-- The integrator array at the end of a core cycle: its steps, then its commands (R284). -/
def State.ddaActs (s : State) (c : Nat) : List Act :=
  (if (s.core c).dda.due s.now = [] then [] else [.event (.ddaDomainStep c)])
  ++ (if (s.engineCmds c .dda).isEmpty then [] else [.event (.ddaCommandExecute c)])

/-- The rows of a die that a mask names. -/
def maskRows (rows : BitVec 8) : List Nat := (List.range 8).filter fun r => rows.getLsbD r

/-- Rows of timing domains: row key, and whether the domain is frozen. -/
def State.domainRows (s : State) : List (Nat × Bool) :=
  s.launches.flatMap fun l => if l.2.isPlaced then
    match l.2.record.bind (·.domain) with
    | some (d, rows) => (maskRows rows).map fun r => (8 * d + r, l.2.freeze.isSome)
    | none => []
  else []

/-- The rows whose streams move at the end of this core cycle (R308). -/
def State.movingRows (s : State) : List Nat :=
  let dom := s.domainRows
  let stray := ((s.streams.map fun x => x.1 / 256).eraseDups).filter fun r => !dom.any fun d => decide (d.1 = r)
  (dom.filter fun d => !d.2).map (·.1) ++ stray

/-- The acts of the core cycle: wait cycles, bundles by core with the primary first, then the end of the cycle. -/
def State.planCycle (s : State) : List Act :=
  let cores := s.cores.map (·.1)
  cores.flatMap s.waitActs ++ cores.flatMap s.issueActs
    ++ s.movingRows.map (fun r => .event (.rowStreamShift (r / 8) (r % 8))) ++ cores.flatMap s.ddaActs

/-! ### The end of a core cycle -/

/-- A line after an IUNLK of a unit: from address `lo` on, `n` lines; 0 for all (R114). -/
def ILine.unlocked (l : ILine) (y : Nat × (Nat × Nat)) : ILine :=
  if l.lock = some y.1 ∧ (y.2.2 = 0 ∨ (l.va + 2 ^ 56 - y.2.1) % 2 ^ 56 < 512 * y.2.2) then { l with lock := none } else l

/-- Core state that lasts for one core cycle ends; a codebook slot changes, and locks are released (R114, R143, R239, R299). -/
def Core.endCycle (x : Core) : Core :=
  { x with
    undo := []
    copyStarted := false
    icache := x.icache.map fun l => x.unlocks.foldl ILine.unlocked l
    unlocks := []
    cb := match x.cbPut with
      | some (i, v) => x.cb.setIfInBounds i v
      | none => x.cb
    cbPut := none }

/-- Whether two cores lie in one timing domain that is frozen. -/
def State.frozenTogether (s : State) (a b : Nat) : Bool :=
  s.launches.any fun l => l.2.isPlaced && l.2.freeze.isSome && match l.2.record.bind (·.domain) with
    | some (d, rows) => [a, b].all fun c => decide (c / 128 = d) && rows.getLsbD (c % 128 / 16)
    | none => false

/-- Transfers of slices between two cores of a domain hold in a freeze (R147, R307). -/
def State.holdSlices (s : State) (c : Nat) : State :=
  if (s.core c).remote.isEmpty then s
  else s.onCore c fun x => { x with remote := x.remote.map fun r => if s.frozenTogether c r.core then { r with due := r.due + 1 } else r }

/-- BUSY and IDLE of the unit that a context holds, or saves (R106). -/
def State.countCycle (s : State) (c k : Nat) : State :=
  let x := s.ctx c k
  match x.unit <|> x.saving with
  | some u => if x.spent = some s.now then s.onUnit u fun y => { y with busy := y.busy + 1 }
    else s.onUnit u fun y => { y with idle := y.idle + 1 }
  | none => s

/-- The check at the end of the wait cycles of a bundle with DP (R152, R153). -/
def State.drainCheck (s : State) (c k : Nat) : State :=
  let x := s.ctx c k
  if !x.dpArmed || decide (x.waits ≠ 0) then s
  else
    let s := s.onCtx c k fun x => { x with dpArmed := false }
    if !x.flights.isEmpty then s.deviation c k 12 none x.lastPc x.lastCc s.now 0
    else if x.switch.isSome then s.onCtx c k fun x => { x with draining := some (s.now + 1) }
    else s

/-- A resident unit whose next bundle is not in the instruction cache asks for it (R110, R111). -/
def State.askFetch (s : State) (c k : Nat) : State :=
  let x := s.ctx c k
  match x.unit.bind s.unit with
  | some y =>
    if x.fetching.isSome || decide (y.life ≠ .live) then s
    else match s.upcoming c k with
      | .missing _ =>
        let (n, s) := s.draw
        (s.onCtx c k fun x => { x with fetching := some s.now }).after (1 + Config.fillDelay n) (.ifetchFill c k)
      | _ => s
  | none => s

/-- What the next core cycle no longer needs, and the slice (R108, R148). -/
def Ctx.age (x : Ctx) (now : Nat) : Ctx :=
  { x with
    sliceLeft := if x.unit.isSome then x.sliceLeft - 1 else x.sliceLeft
    recent := x.recent.filter fun r => decide (now + 1 < r.1 + 4) }

def State.endCtx (s : State) (c k : Nat) : State :=
  let x := s.ctx c k
  if x.unit.isNone && x.saving.isNone then (if x.recent.isEmpty then s else s.onCtx c k fun x => x.age s.now)
  else ((((((s.countCycle c k).onCtx c k fun x => x.age s.now).afterYield c k).drainCheck c k).recheckSwitch c k).askFetch c k)

def State.endCore (s : State) (c : Nat) : State :=
  ([0, 1, 2, 3].foldl (fun s k => s.endCtx c k) ((s.onCore c Core.endCycle).holdSlices c)).grantLease c

/-- Units in run queues wait (R106). -/
def State.countQueued (s : State) : State :=
  { s with units := s.units.map fun u => if u.2.queued.isSome then (u.1, { u.2 with waited := u.2.waited + 1 }) else u }

/-- The window of the error counters; 0 is read as the reset value (R373). -/
def Regs.faultWindow (r : Regs) : Nat := let n := field r.fltwin 0 48; if n = 0 then 0x400000000 else n

/-- An invalidation that waits for nothing more is answered (R76). -/
def State.answerInvals (s : State) : State :=
  let l := s.invals.map fun v => { v with waits := v.waits.filter s.stillPerforms }
  let done := l.filter (·.waits.isEmpty)
  done.foldl (fun s v => match v.pasid, v.command with
    | some p, _ => { s with outs := s.outs ++ [.invalidated p] }
    | none, some (port, key) => s.settleCommand (Fin.ofNat 2 port) key 0 0
    | none, none => s) { s with invals := l.filter fun v => !v.waits.isEmpty }

/-- What the queues send at the end of the core cycle. -/
def State.sendReports (s : State) : State :=
  s.units.foldl (fun s x => if x.2.spliceIn.isEmpty && x.2.marks.isEmpty then s else s.queueReports x.1 x.2) s

/-- The end of the core cycle. -/
def State.tick (s : State) : State :=
  let s : State := { s with iss := Issue.idle }
  let s := ((s.cores.map (·.1)).foldl State.endCore s).sendReports.releaseBarriers.countQueued.answerInvals.flushSamples
  let s := if (s.now + 1) % s.regs.faultWindow = 0 then s.at_ (s.now + 1) .faultWindowReset else s
  { s with now := s.now + 1, plan := none }

end Sys2Proof.Machine
end

