-- ==== Sys2Proof/Machine/Poll.lean ====
section
/-! DEFINITION. What happens next at the start of a core cycle, before its bundles issue: what has arrived from outside, what was
scheduled, and what the units, engines and walkers are ready for. -/
namespace Sys2Proof.Machine

/-! ### What arrives from outside -/

/-- Port 0 before port 1 in one core cycle. -/
def Input.rank : Input → Nat
  | .event (.cqtail p _) => p.val
  | .event (.cplhead p _) => p.val
  | .event (.registerWrite p _ _) => p.val
  | .event (.hbmwin p _) => p.val
  | .event (.ddrwin p _) => p.val
  | .event (.hsemAcq p) => p.val
  | .event (.hsemRel p) => p.val
  | .event (.ttctl p _ _) => p.val
  | .event (.ttbuf p _ _) => p.val
  | .event (.ttdump p _ _) => p.val
  | .event (.errlog p) => p.val
  | .event (.hdmCommit p _ _) => p.val
  | .event (.hostHdmRead p _) => p.val
  | _ => 0

def inputBefore (a b : Nat × Input) : Bool := decide (a.1 < b.1) || (decide (a.1 = b.1) && decide (a.2.rank < b.2.rank))

/-- The first input that has arrived. -/
def State.inputDue (s : State) : Option (Nat × Input) :=
  (s.inputs.filter fun x => decide (x.1 ≤ s.now)).foldl (fun m x => match m with
    | none => some x
    | some y => if inputBefore x y then some x else m) none

/-- The first event of the agenda that is due: the earliest, and of one core cycle the one scheduled first. -/
def State.agendaDue (s : State) : Option (Nat × Event) :=
  (s.agenda.filter fun x => decide (x.1 ≤ s.now)).foldl (fun m x => match m with
    | none => some x
    | some y => if x.1 < y.1 then some x else m) none

/-! ### What the units and engines are ready for -/

/-- What a unit's landing is ready for: its loads perform, or its register is written. -/
def State.landingEvent (s : State) (u : Nat) (l : Landing) : Option Event :=
  match l.ready with
  | some _ => if decide (l.due ≤ s.now) && !s.landBlocked u l then some (.landingBufferWrite u l.id) else none
  | none => none

/-- Whether an access that has started may perform some part, or has performed all. -/
def State.accessReady (s : State) (x : Unit) (c : Cmd) : Bool :=
  decide (c.stage = .taken) && (c.parts.isEmpty || !(s.readyParts x c).isEmpty)

def isSpawn (i : Instr) : Bool := match i with
  | .spawn .. => true
  | _ => false

/-- What a record of the LSU is ready for. -/
def State.lsuEvent (s : State) (u : Nat) (x : Unit) (c : Cmd) : Option Event :=
  if isSpawn c.op then (if s.spawnDue x c then some (.spawnComplete u c.n) else none)
  else if c.waiting then (if c.due ≤ s.now then some (.lsuAccessStart u c.n) else none)
  else if s.accessReady x c then
    match c.land with
    | some id => some (.landingBufferWrite u id)
    | none => some (.storePerformAtHome u c.n)
  else none

/-- What a command record is ready for. -/
def State.cmdEvent (s : State) (u : Nat) (x : Unit) (c : Cmd) : Option Event :=
  match c.eng with
  | .lsu => s.lsuEvent u x c
  | .cpy => if decide (c.stage = .taken) && decide (c.due ≤ s.now) && s.copyReady u x c then some (.copyCommandDone u c.n) else none
  | .mat => if s.matReady u x c then some (.matCommandDone x.core c.place) else none
  | .dda => none
  | .col => none

def State.unitEvent (s : State) (u : Nat) (x : Unit) : Option Event :=
  (x.cmds.findSome? fun c => s.cmdEvent u x c)
  <|> (x.landings.findSome? fun l => s.landingEvent u l)
  <|> (if s.retireDue u x then some (.unitRetire u) else none)

/-- The engines of a core. -/
def State.coreEvent (s : State) (c : Nat) : Option Event :=
  (if (s.matNext c 0).isSome then some (.matCommandStart c 0) else none)
  <|> (if (s.core c).mat.share && (s.matNext c 1).isSome then some (.matCommandStart c 1) else none)
  <|> (if (s.core c).remote.any (·.due ≤ s.now) then some (.remoteSliceServe c) else none)
  <|> (if (s.copyNext c).isSome then some (.copyCommandStart c) else none)

/-- A context and its bank. -/
def State.ctxEvent (s : State) (c k : Nat) : Option Event :=
  let x := s.ctx c k
  let when_ := fun (b : Bool) (e : Event) => if b then some e else none
  if x.unit.isNone && x.saving.isNone && decide (x.bank = .off) then none
  else when_ (s.sliceDue c k) (.sliceExpiry c k)
    <|> when_ (s.overrunDue c k) (.yieldOverrun c k)
    <|> when_ (s.drainDue c k) (.drainSave c k)
    <|> when_ (s.forcedDue c k) (.forcedSave c k)
    <|> when_ (s.restoreDue c k) (.unitRestore c k)
    <|> when_ (s.refillDue c k) (.runQueueEntryTaken c k)
    <|> when_ (x.rousedBy s.now) (.bankRouseDone c k)
    <|> when_ (x.awakeBy s.now) (.bankWake c k)
    <|> when_ (x.retentionDue s.now) (.bankRetention c k)
    <|> when_ (s.asyncDue c k) (.asyncTrap c k)

/-- The walker of a job, and the copies that a cancel has reached. Each job of a die's walker goes on by itself: R80 and R83 do not say
whether one walker runs several jobs at once or one after another (DESIGN CHOICE, log entry 44). -/
def State.jobEvent (s : State) (j : Nat) (x : Job) : Option Event :=
  (match x.walking with
    | .wait n since => if s.waitPassed n since then some (.waitTimeout j) else none
    | _ => none)
  <|> (if s.walkDue j x then some (.waitPoll j) else none)
  <|> (if s.passDue x then some (.whilePassEnd j) else none)
  <|> (if s.graphDue x then some (.graphEnd j) else none)
  <|> (x.copies.find? fun c => s.copyStuck j c).map fun c => .copyNodeComplete j c.1

/-- A die's Halyard and its trace unit. -/
def State.dieEvent (s : State) (d : Nat) : Option Event :=
  (if s.collBusy d then some (.collRecordStart d) else none)
  <|> (if s.dumpDue d then some (.dumpRecord d) else none)

/-- Cores whose MAINT mode is to change. -/
def State.maintEvent (s : State) : Option Event :=
  ((List.range 512).find? fun c => s.maintDue c).map .maintModeChange

/-- The first of the events that the state itself is ready for. What ends goes before what starts; the freezes of domains come last, when nothing else changes what
they depend on. -/
def State.polled (s : State) : Option Event :=
  let cores := s.cores.map (·.1)
  s.lateRequest
  <|> s.gangDue
  <|> ([0, 1, 2, 3].findSome? s.dieEvent)
  <|> (s.collDue.map .collRequestArrive)
  <|> (s.units.findSome? fun u => s.unitEvent u.1 u.2)
  <|> (cores.findSome? s.coreEvent)
  <|> (cores.findSome? fun c => [0, 1, 2, 3].findSome? fun k => s.ctxEvent c k)
  <|> (s.launches.findSome? fun l => if s.placeLate l.2 then some (.placeTimeout l.1) else none)
  <|> (s.launches.findSome? fun l => if s.launchDue l.1 l.2 then some (.launchPlace l.1) else none)
  <|> (s.jobs.findSome? fun j => s.jobEvent j.1 j.2)
  <|> s.maintEvent
  <|> s.commandDue 0
  <|> s.commandDue 1
  <|> (s.launches.findSome? fun l => if s.resumeDue l.2 then some (.domainResume l.1) else none)
  <|> (s.launches.findSome? fun l => if s.freezeDue l.1 l.2 then some (.domainFreeze l.1) else none)

/-! ### What happens next -/

/-- What happens next in a core cycle: an event, in the state without it; the host's store; or nothing before the cycle's acts. -/
inductive Happening where
  | event (e : Event) (s : State)
  | stored (s : State)
  | nothing

/-- An event and the state without it: inputs first, then the agenda, then what the state is ready for. -/
def State.happening (s : State) : Happening :=
  match s.inputDue with
  | some x =>
    let t := { s with inputs := s.inputs.erase x }
    match x.2 with
    | .event e => .event e t
    | .hostStore pa l => .stored (t.hostStore pa l)
  | none => match s.agendaDue with
    | some x => .event x.2 { s with agenda := s.agenda.erase x }
    | none => match s.polled with
      | some e => .event e s
      | none => .nothing

/-! ### The acts of a core cycle -/

/-- One act of the core cycle, the rest of them still to come. -/
def State.act (s : State) (a : Act) (rest : List Act) : Res :=
  let s := { s with plan := some rest }
  match a with
  | .event e => execEvent e { s with iss := Issue.idle }
  | .wait c k => .next (s.onCtx c k fun x => x.waitCycle s.now)
  | .issue c k => s.issue c k

/-! ### An instruction placed where the next step fetches (log entry 21) -/

/-- The resident unit that a placed instruction belongs to: one of no launch, in ctx1 of core 0. -/
def placedUnit : Unit :=
  { freshUnit 0 1 0 1 0 1 0 ⟨0, 0, 0, 0, 0, 0, 0, 0⟩ 0 [] 0 0 0 0 with started := true }

/-- The line that holds the placed bytes. -/
def placedLine (asid now : Nat) (b : List Byte) : ILine := ⟨0, asid, 0xFF, padTo 512 b, none, now⟩

/-- A context with a unit resident and at rest before the bundle at address 0. -/
def Ctx.placed (x : Ctx) (u : Nat) : Ctx :=
  { x with
    unit := some u
    bank := .on
    pc := 0
    waits := 0
    penalty := 0
    busy := 0
    moving := 0
    resume := none
    arrived := false
    draining := none
    fetchFault := [] }

/-- The bytes of a bundle in the instruction cache of core 0 at address 0, a unit resident in its ctx1 at that address, and the core
cycle about to issue from it. -/
def State.placeBundle (s : State) (b : List Byte) : State :=
  let u := s.nextKey
  let x := (s.ctx 0 1).placed u
  let l := placedLine x.csr.asidcur.toNat s.now b
  { s with
    plan := some [.issue 0 1]
    nextKey := u + 1
    units := put s.units u placedUnit
    cores := put s.cores 0 { (s.core 0).setCtx 1 x with icache := l :: (s.core 0).icache } }

end Sys2Proof.Machine
end

