-- ==== Sys2Proof/Machine/Step.lean ====
section
/-! DEFINITION. The step of the machine. -/
namespace Sys2Proof.Machine

/-- One step. At the start of a core cycle one event after another happens; then the acts of the cycle are planned and made, one
a step; then the cycle ends. -/
def step (s : State) : Host.Outcome State Fault Refusal :=
  match s.plan with
  | none => match s.happening with
    | .event e t => execEvent e t
    | .stored t => .next t
    | .nothing => .next { s with plan := some s.planCycle }
  | some [] => .next s.tick
  | some (a :: rest) => s.act a rest

/-- The state in which the next step runs a placed instruction (log entry 21). -/
def State.withFetchWord (s : State) (nbits w : Nat) : State := s.placeBundle (tableBytes nbits w)

end Sys2Proof.Machine
end

