-- ==== Sys2Proof/Safety.lean ====
section
/-! DEFINITION. The terms in which claims about the machine are stated: an undisturbed slot, the end of a slot, what a slot operation
hands to an engine, and the invariants of the state. -/
namespace Sys2Proof.Machine

/-! ### A slot operation by itself (R129, R358, R359) -/

/-- The present slot performs undisturbed: this is no probe, no slot of its bundle has raised a condition, and no register of the
bank holds an uncorrectable error (R359, R374). -/
def State.Calm (s : State) : Prop :=
  s.iss.probing = false ∧ s.iss.anyRaise = false ∧ s.iss.raised = [] ∧ s.iss.entry.bad = []

/-- The slot is done; the last slot of a bundle completes it. -/
def State.slotEnd (t : State) : State := t.markDone.complete

/-- The slot has raised a condition and is not done; the last slot of a bundle ends it in a trap. -/
def State.slotFault (s : State) (c : Cond) : State := (s.raise c).complete

/-! ### What an engine receives (R329, R415) -/

/-- The issuing unit has handed engine `e` one more command: it carries `op`, the next number of the engine's timeline and the
address of the bundle, and `P` holds of it; the timeline counter shows the number, and the number is open. Nothing else of the unit's
commands has changed. -/
def State.Sends (s t : State) (e : Engine) (op : Instr) (P : Cmd → Prop) : Prop :=
  ∃ x y c, s.unit s.myUnit = some x ∧ t.unit s.myUnit = some y ∧ y.cmds = x.cmds ++ [c] ∧ c.eng = e ∧ c.op = op
    ∧ c.n = (s.me.csr.tl e).toNat + 1 ∧ c.pc = s.iss.pc ∧ c.stage = .queued ∧ t.me.csr.tl e = s.me.csr.tl e + 1
    ∧ y.open_ = x.open_ ++ [(e, c.n)] ∧ P c

/-- The bundle's unit is resident in the core and context that issue it, and these are ones of the device. -/
def State.Seated (s : State) : Prop :=
  s.iss.core < 512 ∧ s.iss.ctx < 4
    ∧ ∃ u x, s.me.unit = some u ∧ s.unit u = some x ∧ x.core = s.iss.core ∧ x.ctx = s.iss.ctx

/-- The issuing context may hand the matrix unit a command that names these accumulators (R256, R271): it holds the lease or has asked
for it, or its half of a shared unit has them. -/
def State.MayUse (s : State) (accs : List Nat) : Prop :=
  if s.myCore.mat.share then s.iss.ctx < 2 ∧ ∀ a ∈ accs, a / 2 = s.iss.ctx
  else s.myCore.mat.holder = some s.iss.ctx ∨ s.iss.ctx ∈ s.myCore.mat.requests

/-! ### Invariants -/

/-- Keys rise strictly. -/
def risingKeys {α : Type} : List (Nat × α) → Bool
  | [] => true
  | [_] => true
  | a :: b :: rest => decide (a.1 < b.1) && risingKeys (b :: rest)

/-- Every byte memory of the device is in its canonical form, the home memory and every core's scratchpad; and what a core lists by key,
its tags and its shuffle patterns, is listed by rising key, the tags below 1,024. -/
def State.memoriesWf (s : State) : Prop :=
  s.mem.wf = true ∧ ∀ c ∈ s.cores, c.2.spm.wf = true ∧ risingKeys c.2.pats = true ∧ risingKeys c.2.tags = true ∧ ∀ x ∈ c.2.tags, x.1 < 1024

end Sys2Proof.Machine
end

