-- ==== Sys2Proof/Certificates/Slice0/Obligations.lean ====
section
/-! DEFINITION. The statements for the provers. A statement about a slot operation is about one undisturbed slot (`Calm`): it gives the
state in which the slot is done (`slotEnd`), which is the whole next state, so that everything it does not name is unchanged. -/

open Sys2Proof Sys2Proof.Machine

/-! ### Scalar operations -/

/-- R176: the integer register operations of two sources put their result in flight, at latency 1; the lesser and the greater of two values and the comparisons, signed and unsigned, at latency 1. -/
def Obligations.IntegerResults : Prop :=
  (∀ (s : Machine.State) (o : SR3) (a b : Word), s.Calm → s.srcS o.a = .ok a → s.srcS o.b = .ok b →
      exec (.add o) s = .next (s.writeS o.d o.nw (a + b) 1).slotEnd
      ∧ exec (.sub o) s = .next (s.writeS o.d o.nw (a - b) 1).slotEnd
      ∧ exec (.and o) s = .next (s.writeS o.d o.nw (a &&& b) 1).slotEnd
      ∧ exec (.or o) s = .next (s.writeS o.d o.nw (a ||| b) 1).slotEnd
      ∧ exec (.xor o) s = .next (s.writeS o.d o.nw (a ^^^ b) 1).slotEnd
      ∧ exec (.andn o) s = .next (s.writeS o.d o.nw (a &&& ~~~b) 1).slotEnd
      ∧ exec (.shl o) s = .next (s.writeS o.d o.nw (a <<< (b.toNat % 64)) 1).slotEnd
      ∧ exec (.shr o) s = .next (s.writeS o.d o.nw (a >>> (b.toNat % 64)) 1).slotEnd
      ∧ exec (.sra o) s = .next (s.writeS o.d o.nw (a.sshiftRight (b.toNat % 64)) 1).slotEnd
      ∧ exec (.rol o) s = .next (s.writeS o.d o.nw (a.rotateLeft (b.toNat % 64)) 1).slotEnd)
  ∧ (∀ (s : Machine.State) (o : SR3) (a b : Word), s.Calm → s.srcS o.a = .ok a → s.srcS o.b = .ok b →
      let lands := fun (w : Word) => Host.Outcome.next (s.writeS o.d o.nw w 1).slotEnd
      exec (.min o) s = lands (BitVec.ofInt 64 (min a.toInt b.toInt))
      ∧ exec (.max o) s = lands (BitVec.ofInt 64 (max a.toInt b.toInt))
      ∧ exec (.minn o) s = lands (BitVec.ofNat 64 (min a.toNat b.toNat))
      ∧ exec (.maxn o) s = lands (BitVec.ofNat 64 (max a.toNat b.toNat))
      ∧ exec (.seq o) s = lands (if a = b then 1 else 0)
      ∧ exec (.sne o) s = lands (if a = b then 0 else 1)
      ∧ exec (.slt o) s = lands (if a.toInt < b.toInt then 1 else 0)
      ∧ exec (.sltn o) s = lands (if a.toNat < b.toNat then 1 else 0)
      ∧ exec (.sle o) s = lands (if a.toInt ≤ b.toInt then 1 else 0)
      ∧ exec (.slen o) s = lands (if a.toNat ≤ b.toNat then 1 else 0))

/-- R176: CLZ, CTZ and POPC. The count of leading zeros `n` is the one for which the `n` bits at the top are clear and the next,
if there is one, is set; the count of trailing zeros likewise from the bottom; the count of set bits is that of the positions that
hold one. R177: the bit-field operations, bit by bit. With pos the low six bits of b and w its bits 14 to 8, at most 64 − pos:
BFXN gives the field, BFX the field with copies of its top bit above it, and BFI the old destination with the field replaced. -/
def Obligations.BitResults : Prop :=
  (∀ (s : Machine.State) (o : SR2) (a : Word), s.Calm → s.srcS o.a = .ok a →
      (∃ n ≤ 64, exec (.clz o) s = .next (s.writeS o.d o.nw (BitVec.ofNat 64 n) 1).slotEnd
        ∧ (∀ i < n, a.getLsbD (63 - i) = false) ∧ (n < 64 → a.getLsbD (63 - n) = true))
      ∧ (∃ n ≤ 64, exec (.ctz o) s = .next (s.writeS o.d o.nw (BitVec.ofNat 64 n) 1).slotEnd
        ∧ (∀ i < n, a.getLsbD i = false) ∧ (n < 64 → a.getLsbD n = true))
      ∧ exec (.popc o) s = .next (s.writeS o.d o.nw (BitVec.ofNat 64 ((List.range 64).countP fun i => a.getLsbD i)) 1).slotEnd)
  ∧ (∀ (s : Machine.State) (o : SR3) (a b : Word), s.Calm → s.srcS o.a = .ok a → s.srcS o.b = .ok b →
      let pos := b.toNat % 64
      let w := min (b.toNat / 256 % 128) (64 - pos)
      ∃ x y z : Word,
        exec (.bfxn o) s = .next (s.writeS o.d o.nw x 1).slotEnd
        ∧ exec (.bfx o) s = .next (s.writeS o.d o.nw y 1).slotEnd
        ∧ exec (.bfi o) s = .next (s.writeS o.d o.nw z 1).slotEnd
        ∧ ∀ i < 64,
          x.getLsbD i = (decide (i < w) && a.getLsbD (pos + i))
          ∧ y.getLsbD i = (decide (0 < w) && a.getLsbD (pos + min i (w - 1)))
          ∧ z.getLsbD i = (if pos ≤ i ∧ i < pos + w then a.getLsbD (i - pos) else (s.regS o.d.val).getLsbD i))

/-- R179: the immediate operations; the 14-bit immediate is sign-extended, and the shifts take six bits. R180: LI, LIM and LIT
build a constant from three chunks of 20 bits: when each reads what the one before wrote, the third gives the 60 bits with their
top bit copied above them. -/
def Obligations.ImmediateResults : Prop :=
  (∀ (s : Machine.State) (o : SImm) (h : SSh) (a : Word), s.Calm → s.srcS o.a = .ok a → h.a = o.a → h.d = o.d → h.nw = o.nw →
      let lands := fun (w : Word) => Host.Outcome.next (s.writeS o.d o.nw w 1).slotEnd
      let b : Word := o.imm.signExtend 64
      exec (.addi o) s = lands (a + b)
      ∧ exec (.andi o) s = lands (a &&& b)
      ∧ exec (.ori o) s = lands (a ||| b)
      ∧ exec (.xori o) s = lands (a ^^^ b)
      ∧ exec (.slti o) s = lands (if a.toInt < b.toInt then 1 else 0)
      ∧ exec (.sltni o) s = lands (if a.toNat < b.toNat then 1 else 0)
      ∧ exec (.shli h) s = lands (a <<< h.sh.toNat)
      ∧ exec (.shri h) s = lands (a >>> h.sh.toNat)
      ∧ exec (.srai h) s = lands (a.sshiftRight h.sh.toNat))
  ∧ (∀ (s t u : Machine.State) (o p q : SLong), s.Calm → t.Calm → u.Calm → p.d = o.d → q.d = o.d →
      ∃ x y z : Word,
        exec (.li o) s = .next (s.writeS o.d o.nw x 1).slotEnd
        ∧ exec (.lim p) t = .next (t.writeS p.d p.nw y 1).slotEnd
        ∧ exec (.lit q) u = .next (u.writeS q.d q.nw z 1).slotEnd
        ∧ x = o.imm.signExtend 64
        ∧ (t.regS o.d.val = x → y = ((p.imm ++ o.imm : BitVec 40)).signExtend 64)
        ∧ (t.regS o.d.val = x → u.regS o.d.val = y → z = ((q.imm ++ (p.imm ++ o.imm : BitVec 40) : BitVec 60)).signExtend 64))

/-- R181, R184: FADD, FSUB, FMUL and FMA put an encoding in flight at latency 4 with the flags it calls for. A NaN operand, a difference of
infinities and zero times infinity give the canonical NaN, the latter two with NV. For finite operands the encoding is the exact sum,
difference, product, or product plus the old destination, rounded once in the mode; an exact zero of unlike terms is +0, and −0 in RD.
R182: FMIN and FMAX give one of the two encodings, no value below or above it, or the operand that is no NaN; FABS and FNEG change
bit 31; FEQ, FLT and FLE give 0 or 1 as the values compare. R183: FCVTI gives the rounded integer within the signed 64-bit range, 0 with
NV for a NaN, and ICVTF the rounded encoding of the integer. -/
def Obligations.Fp32Results : Prop :=
  (∀ (s : Machine.State) (o : SF3) (a b : Word), s.Calm → s.srcS o.a = .ok a → s.srcS o.b = .ok b →
      let X := FFmt.f32.decode (a.toNat % 2 ^ 32)
      let Y := FFmt.f32.decode (b.toNat % 2 ^ 32)
      let Z := FFmt.f32.decode ((s.regS o.d.val).toNat % 2 ^ 32)
      let lands := fun (r : Nat × RAcc) =>
        Host.Outcome.next ((s.keepSr r.2).writeS o.d o.nw (BitVec.ofNat 64 r.1) 4 r.2.fl).slotEnd
      let val := fun (n : Bool) (m : Nat) (e k : Int) => (if n then -(m : Int) else m) * 2 ^ (e - k).toNat
      let rounded := fun (v k : Int) => roundF .f32 o.rm (.fin (decide (v < 0)) v.natAbs k false) s.racc
      let zero := if o.rm = .rd then 0x80000000 else 0
      ∃ p q r u : Nat × RAcc,
        exec (.fadd o) s = lands p ∧ exec (.fsub o) s = lands q ∧ exec (.fmul o) s = lands r ∧ exec (.fma o) s = lands u
        ∧ (X = .nan ∨ Y = .nan → p.1 = 0x7FC00000 ∧ q.1 = 0x7FC00000 ∧ r.1 = 0x7FC00000 ∧ u.1 = 0x7FC00000)
        ∧ (Z = .nan → u.1 = 0x7FC00000)
        ∧ (∀ n, X = .inf n → Y = .inf (!n) → p.1 = 0x7FC00000 ∧ p.2.fl.getLsbD 0 = true)
        ∧ (∀ n, X = .inf n → Y = .inf n → q.1 = 0x7FC00000 ∧ q.2.fl.getLsbD 0 = true)
        ∧ (∀ n m e, X = .inf n → Y = .fin m 0 e false → r.1 = 0x7FC00000 ∧ r.2.fl.getLsbD 0 = true)
        ∧ (∀ nx mx ex ny my ey, X = .fin nx mx ex false → Y = .fin ny my ey false →
            let k := min ex ey
            let sum := val nx mx ex k + val ny my ey k
            let dif := val nx mx ex k - val ny my ey k
            (sum ≠ 0 → p = rounded sum k) ∧ (dif ≠ 0 → q = rounded dif k)
            ∧ (sum = 0 → mx ≠ 0 → p.1 = zero) ∧ (dif = 0 → mx ≠ 0 → q.1 = zero)
            ∧ r = roundF .f32 o.rm (.fin (nx != ny) (mx * my) (ex + ey) false) s.racc
            ∧ ∀ nz mz ez, Z = .fin nz mz ez false →
              let l := min (ex + ey) ez
              let v := val (nx != ny) (mx * my) (ex + ey) l + val nz mz ez l
              v ≠ 0 → u = rounded v l))
  ∧ (∀ (s : Machine.State) (o : SR3) (u : SR2) (f : SF2) (a b : Word), s.Calm → s.srcS o.a = .ok a → s.srcS o.b = .ok b →
      u = ⟨o.d, o.nw, o.a⟩ → f.d = o.d → f.nw = o.nw → f.a = o.a →
      let x := a.toNat % 2 ^ 32
      let y := b.toNat % 2 ^ 32
      let X := FFmt.f32.decode x
      let Y := FFmt.f32.decode y
      let lands := fun (r : Nat × RAcc) =>
        Host.Outcome.next ((s.keepSr r.2).writeS o.d o.nw (BitVec.ofNat 64 r.1) 4 r.2.fl).slotEnd
      ∃ p q v w c d e i : Nat × RAcc,
        exec (.fmin o) s = lands p ∧ exec (.fmax o) s = lands q ∧ exec (.fabs u) s = lands v ∧ exec (.fneg u) s = lands w
        ∧ exec (.feq o) s = lands c ∧ exec (.flt o) s = lands d ∧ exec (.fle o) s = lands e ∧ exec (.fcvti f) s = lands i
        ∧ exec (.icvtf f) s = lands (roundF .f32 f.rm (Ext.ofInt a.toInt) s.racc)
        ∧ (X ≠ .nan → Y ≠ .nan → p.1 ∈ [x, y] ∧ q.1 ∈ [x, y]
            ∧ X.lt (FFmt.f32.decode p.1) = false ∧ Y.lt (FFmt.f32.decode p.1) = false
            ∧ (FFmt.f32.decode q.1).lt X = false ∧ (FFmt.f32.decode q.1).lt Y = false)
        ∧ (X = .nan → p.1 = (if Y = .nan then 0x7FC00000 else y) ∧ q.1 = (if Y = .nan then 0x7FC00000 else y)
            ∧ v.1 = 0x7FC00000 ∧ w.1 = 0x7FC00000 ∧ i.1 = 0 ∧ i.2.fl.getLsbD 0 = true)
        ∧ (X ≠ .nan → Y = .nan → p.1 = x ∧ q.1 = x)
        ∧ (X ≠ .nan → v.1 = x % 2 ^ 31 ∧ w.1 = x ^^^ 2 ^ 31)
        ∧ (X = .nan ∨ Y = .nan → c.1 = 0 ∧ d.1 = 0 ∧ e.1 = 0 ∧ d.2.fl.getLsbD 0 = true ∧ e.2.fl.getLsbD 0 = true)
        ∧ (∀ nx mx ex ny my ey, X = .fin nx mx ex false → Y = .fin ny my ey false →
            let k := min ex ey
            let l := (if nx then -(mx : Int) else mx) * 2 ^ (ex - k).toNat
            let r := (if ny then -(my : Int) else my) * 2 ^ (ey - k).toNat
            c.1 = (if l = r then 1 else 0) ∧ d.1 = (if l < r then 1 else 0) ∧ e.1 = (if l ≤ r then 1 else 0))
        ∧ (∀ n, X = .inf n → BitVec.ofNat 64 i.1 = (if n then BitVec.intMin 64 else BitVec.intMax 64) ∧ i.2.fl.getLsbD 0 = true)
        ∧ (∀ n m, X = .fin n m 0 false → BitVec.ofNat 64 i.1 = BitVec.ofInt 64 (if n then -(m : Int) else m) ∧ i.2.fl = 0))

/-! ### The scratchpad -/

/-- R185: the local loads. The address is the exact sum of the source and the signed immediate; in range, aligned, and with no
byte that holds an uncorrectable error, the bytes are extended by sign or by zeros and land at latency 6. R185: a local load or
store outside the scratchpad raises scratchpad range, and one that is not aligned misaligned access; nothing is loaded or stored.
R185: the local stores put the low bytes of the data register at the address. -/
def Obligations.LocalAccessResults : Prop :=
  (∀ (s : Machine.State) (o : SImm) (a : Word) (addr : Nat), s.Calm → s.srcS o.a = .ok a → (a.toNat : Int) + o.imm.toInt = addr →
      addr < 3145728 →
      ∀ f ∈ [(Instr.ldLI8 o, 1, true), (.ldLN8 o, 1, false), (.ldLI16 o, 2, true), (.ldLN16 o, 2, false), (.ldLI32 o, 4, true),
        (.ldLN32 o, 4, false), (.ldLD o, 8, false)],
      addr % f.2.1 = 0 → (∀ y ∈ s.myCore.bad, y < addr ∨ addr + f.2.1 ≤ y) →
        let raw : BitVec (8 * f.2.1) := BitVec.ofNat (8 * f.2.1) (leNat (s.myCore.loadBytes addr f.2.1))
        exec f.1 s = .next (s.writeS o.d o.nw (if f.2.2 then raw.signExtend 64 else raw.setWidth 64) 6).slotEnd)
  ∧ (∀ (s : Machine.State) (o : SImm) (w : SSt) (a : Word), s.Calm → s.srcS o.a = .ok a → w.a = o.a → w.imm = o.imm →
      let addr := (a.toNat : Int) + o.imm.toInt
      ∀ f ∈ [(Instr.ldLI8 o, 1), (.ldLN8 o, 1), (.ldLI16 o, 2), (.ldLN16 o, 2), (.ldLI32 o, 4), (.ldLN32 o, 4), (.ldLD o, 8),
        (.stLB w, 1), (.stLH w, 2), (.stLW w, 4), (.stLD w, 8)],
        (addr < 0 ∨ 3145728 ≤ addr → exec f.1 s = .next (s.slotFault (scratchpadRange 1)))
        ∧ (0 ≤ addr → addr < 3145728 → addr.toNat % f.2 ≠ 0 → exec f.1 s = .next (s.slotFault (misalignedAccess 1))))
  ∧ (∀ (s : Machine.State) (o : SSt) (a : Word) (addr : Nat), s.Calm → s.srcS o.a = .ok a → (a.toNat : Int) + o.imm.toInt = addr →
      addr < 3145728 → ∀ f ∈ [(Instr.stLB o, 1), (.stLH o, 2), (.stLW o, 4), (.stLD o, 8)], addr % f.2 = 0 →
        exec f.1 s = .next (s.onMyCore fun x => x.storeBytes addr (leBytes (s.regS o.d.val).toNat f.2)).slotEnd)

/-- R143: what a direct store does to the scratchpad. Every byte outside the stored ones is unchanged, every stored byte is what was
stored, and every direct load of the same core cycle still reads what it read before the store. -/
def Obligations.ScratchpadStores : Prop :=
  ∀ (x : Core) (a : Nat) (l : List Byte), x.spm.wf = true →
    let y := x.storeBytes a l
    (∀ b, b < a ∨ a + l.length ≤ b → y.spm.read b = x.spm.read b)
    ∧ (∀ i (h : i < l.length), y.spm.read (a + i) = l[i])
    ∧ (∀ b, y.loadByte b = x.loadByte b)
    ∧ y.spm.wf = true

/-- R195, R196: ENTER stores the frame pointer and the link below the stack pointer and moves both pointers at latency 1; LEAVE loads
them back and returns both pointers at latency 6. -/
def Obligations.FrameResults : Prop :=
  (∀ (s : Machine.State) (imm : BitVec 14), s.Calm →
    let sp := s.regS 30
    sp.toNat % 8 = 0 → 16 ≤ sp.toNat → sp.toNat ≤ 3145728 →
    s.iss.entry.csr.stklim.toNat + imm.toNat * 256 ≤ sp.toNat →
      exec (.enter imm) s = .next (((s.onMyCore fun x =>
        (x.storeBytes (sp.toNat - 8) (leBytes (s.regS 28).toNat 8)).storeBytes (sp.toNat - 16) (leBytes (s.regS 31).toNat 8)).writeNoLatch
          .s 28 (sp.setWidth 2048) 1).writeNoLatch .s 30 ((sp - BitVec.ofNat 64 (imm.toNat * 256)).setWidth 2048) 1).slotEnd)
  ∧ (∀ (s : Machine.State) (imm : BitVec 14), s.Calm → (s.regS 30).toNat < s.iss.entry.csr.stklim.toNat + imm.toNat * 256 →
      exec (.enter imm) s = .next (s.slotFault stackLimit))
  ∧ (∀ (s : Machine.State), s.Calm → s.myCore.bad = [] →
    let fp := s.regS 28
    fp.toNat % 8 = 0 → 16 ≤ fp.toNat → fp.toNat ≤ 3145728 →
      exec .leave s = .next (((s.writeNoLatch .s 31 (bytesV (s.myCore.loadBytes (fp.toNat - 16) 8)) 6).writeNoLatch .s 28
        (bytesV (s.myCore.loadBytes (fp.toNat - 8) 8)) 6).writeNoLatch .s 30 (fp.setWidth 2048) 6).slotEnd)

/-! ### Branches, loops and the end of a bundle -/

/-- R187 to R190: when a branch is taken, and its target and link; a branch that is not taken does nothing more. -/
def Obligations.BranchResults : Prop :=
  ∀ (s : Machine.State) (a b : Src) (x y : Word), s.Calm → s.srcS a = .ok x → s.srcS b = .ok y →
    let go := fun (c : Bool) (t : Word) (l : Option (Fin 32)) => Host.Outcome.next (if c then s.take ⟨t, l⟩ else s).slotEnd
    (∀ cc disp, exec (.bcz cc a disp) s = go (match cc with
        | .eq => decide (x = 0) | .ne => decide (x ≠ 0) | .lt => decide (x.toInt < 0) | .ge => decide (0 ≤ x.toInt)
        | .le => decide (x.toInt ≤ 0) | .gt => decide (0 < x.toInt)) (s.iss.pc + BitVec.ofInt 64 (2 * disp.toInt)) none)
    ∧ (∀ cc disp, exec (.bc cc a b disp) s = go (match cc with
        | .eq => decide (x = y) | .ne => decide (x ≠ y) | .lt => decide (x.toInt < y.toInt) | .ge => decide (y.toInt ≤ x.toInt)
        | .ltn => decide (x.toNat < y.toNat) | .gen => decide (y.toNat ≤ x.toNat)) (s.iss.pc + BitVec.ofInt 64 (2 * disp.toInt)) none)
    ∧ (∀ (p : Fin 16) t disp, exec (.bp p t disp) s = go (match t with
        | .any => decide (s.guard p ≠ 0) | .none => decide (s.guard p = 0)
        | .all => decide (s.guard p = BitVec.allOnes 256) | .nall => decide (s.guard p ≠ BitVec.allOnes 256)
        | .first => (s.guard p).getLsbD 0 | .nfirst => !(s.guard p).getLsbD 0) (s.iss.pc + BitVec.ofInt 64 (2 * disp.toInt)) none)
    ∧ (∀ disp, exec (.jmp disp) s = go true (s.iss.pc + BitVec.ofInt 64 (2 * disp.toInt)) none)
    ∧ (∀ d disp, exec (.brl d disp) s = go true (s.iss.pc + BitVec.ofInt 64 (2 * disp.toInt)) (some d))
    ∧ exec (.jr a) s = go true x none
    ∧ (∀ d, exec (.jrl d a) s = go true x (some d))

/-- R191, R192: LOOP and LOOPI set their level's start, end and count; with count 0 they take a branch past the bundle at the end. -/
def Obligations.LoopResults : Prop :=
  ∀ (s : Machine.State) (n : Fin 2) (a : Src) (count : Word), s.Calm → s.srcS a = .ok count →
    let start := s.iss.pc + BitVec.ofNat 64 (2 * s.iss.len)
    let put := fun (e : Word) (c : Word) => s.putLoop ⟨n.val, start, e, c⟩
    let end_ := fun (disp : Int) => s.iss.pc + BitVec.ofInt 64 (2 * disp)
    (∀ disp : BitVec 11, count ≠ 0 → exec (.loop n a disp) s = .next (put (end_ disp.toInt) count).slotEnd)
    ∧ (∀ (cnt : BitVec 10) (disp : BitVec 14), cnt ≠ 0 →
      exec (.loopi n cnt disp) s = .next (put (end_ disp.toInt) (cnt.setWidth 64)).slotEnd)
    ∧ (∀ (disp : BitVec 11) len, count = 0 → s.lengthAt (end_ disp.toInt) = .ok len →
      exec (.loop n a disp) s = .next ((put (end_ disp.toInt) 0).take
        ⟨end_ disp.toInt + BitVec.ofNat 64 (2 * len), none⟩).slotEnd)
    ∧ (∀ (disp : BitVec 14) len, s.lengthAt (end_ disp.toInt) = .ok len →
      exec (.loopi n 0 disp) s = .next ((put (end_ disp.toInt) 0).take
        ⟨end_ disp.toInt + BitVec.ofNat 64 (2 * len), none⟩).slotEnd)

/-- R137, R140, R151, R187, R193: a bundle that completes counts one context cycle and sets its wait cycles, and its context goes on at
the target of the branch it takes, S0's before S1's; with none, at the start of the innermost active loop that ends here and has
passes left, and otherwise at the next bundle. The registers keep their values. The order of loop levels and branches in one bundle is
the model's reading (log entry 32). -/
def Obligations.BundleCompletes : Prop :=
  ∀ (s : Machine.State), s.iss.ctx < 4 → (∀ x, s.unit s.myUnit = some x → x.exited = false) →
    let i := s.iss
    let t := s.finishBundle
    let seq := i.pc + BitVec.ofNat 64 (2 * i.len)
    let again := fun n => i.entry.csr.loopst.getLsbD n && (i.pc == (if n = 0 then i.entry.csr.le0 else i.entry.csr.le1))
    let left := fun n => (if n = 0 then i.entry.csr.lc0 else i.entry.csr.lc1) - 1
    t.me.cc = i.cc + 1 ∧ t.me.waits = i.wt.val ∧ t.me.s = s.me.s ∧ t.me.v = s.me.v ∧ t.me.p = s.me.p ∧ t.mem = s.mem
    ∧ (∀ b, i.branch0 = some b → t.me.pc = b.target)
    ∧ (∀ b, i.branch0 = none → i.branch1 = some b → t.me.pc = b.target)
    ∧ (i.branch0 = none → i.branch1 = none →
        t.me.pc = if again 1 && left 1 != 0 then i.entry.csr.ls1
          else if again 0 && left 0 != 0 then i.entry.csr.ls0 else seq)

/-! ### Special registers, traps and the end of a unit -/

/-- R197, R198: CSRR gives each assigned CSR as it stood at bundle entry, a context number as 4 times the core's plus the context's, and
CCYC and CYCLE as the two counts; CSRW, CSRS and CSRC read the old value into their destination and put the new one at the end of the
bundle; an unassigned number, and a write to a CSR that is read-only, raise CSR access and change nothing. R199: what the writes of a
bundle leave in a CSR: reserved and read-only fields keep their values. -/
def Obligations.CsrResults : Prop :=
  (∀ (s : Machine.State) (o : CsrOp) (a : Word), s.Calm → s.srcS o.a = .ok a →
      let c := s.iss.entry.csr
      let writable : List (Nat × Word) := [(0x000, c.fpflags), (0x001, c.srstate), (0x002, c.pfthresh), (0x003, c.stklim),
        (0x008, c.loopst), (0x009, c.ls0), (0x00A, c.le0), (0x00B, c.lc0), (0x00C, c.ls1), (0x00D, c.le1), (0x00E, c.lc1),
        (0x016, c.pairwin), (0x020, c.cause), (0x021, c.trappc), (0x022, c.donemask), (0x023, c.badslots), (0x024, c.tvec),
        (0x026, c.tval)]
      let readOnly : List (Nat × Word) := [(0x010, c.asidcur), (0x011, c.uweight), (0x012, c.slice), (0x013, c.ytol),
        (0x014, c.leasebudget), (0x015, c.dpmax), (0x017, c.unitid), (0x018, BitVec.ofNat 64 (4 * s.iss.core + s.iss.ctx)),
        (0x019, BitVec.ofNat 64 s.iss.entry.cc), (0x01A, BitVec.ofNat 64 s.now), (0x025, c.badaddr), (0x030, c.tlLsu), (0x031, c.tlCpy),
        (0x032, c.tlMat), (0x033, c.tlDda), (0x034, c.tlCol)]
      (∀ r ∈ writable ++ readOnly, o.csr.toNat = r.1 → exec (.csrr o.d o.nw o.csr) s = .next (s.writeS o.d o.nw r.2 1).slotEnd)
      ∧ (∀ r ∈ writable, o.csr.toNat = r.1 →
          exec (.csrw o) s = .next ((s.writeS o.d o.nw r.2 1).putCsr r.1 a).slotEnd
          ∧ exec (.csrs o) s = .next ((s.writeS o.d o.nw r.2 1).putCsr r.1 (r.2 ||| a)).slotEnd
          ∧ exec (.csrc o) s = .next ((s.writeS o.d o.nw r.2 1).putCsr r.1 (r.2 &&& ~~~a)).slotEnd)
      ∧ (o.csr.toNat ∉ (writable ++ readOnly).map (·.1) → exec (.csrr o.d o.nw o.csr) s = .next (s.slotFault csrAccess))
      ∧ (o.csr.toNat ∉ writable.map (·.1) → exec (.csrw o) s = .next (s.slotFault csrAccess)
          ∧ exec (.csrs o) s = .next (s.slotFault csrAccess) ∧ exec (.csrc o) s = .next (s.slotFault csrAccess)))
  ∧ (∀ (c d : Csrs) (w : Word),
      (csrWrite c 0x000 w = some d → d = { c with fpflags := w &&& 0x1F })
      ∧ (csrWrite c 0x001 w = some d → d = { c with srstate := w &&& 0xFFFFFFFF })
      ∧ (csrWrite c 0x003 w = some d → d = { c with stklim := w &&& 0x3FFFFF })
      ∧ (csrWrite c 0x020 w = some d → d = { c with cause := d.cause } ∧ ∀ i < 64,
          d.cause.getLsbD i = if i < 8 ∨ (16 ≤ i ∧ i < 24) ∨ i = 31 then w.getLsbD i else c.cause.getLsbD i)
      ∧ (csrWrite c 0x022 w = some d → d = { c with donemask := w &&& 0x13F })
      ∧ (csrWrite c 0x024 w = some d → d = { c with tvec := w }))

/-- R201: TRAP, SYSC and BRK raise their conditions, TRAP and SYSC with the value of their source. -/
def Obligations.SoftwareTraps : Prop :=
  ∀ (s : Machine.State) (a : Src) (x : Word), s.Calm → s.srcS a = .ok x →
    exec (.trap a) s = .next (s.slotFault { softwareTrap with tval := some x })
    ∧ exec (.sysc a) s = .next (s.slotFault { systemCall with tval := some x })
    ∧ exec .brk s = .next (s.slotFault { breakpointInstruction with tval := some 0 })

/-- R361 to R363: taking a trap that is handled. The record goes to local offset RECOFF × 256, beginning with the address at which
TRET resumes; CAUSE has INTRAP set beside the condition; TRAPPC, DONEMASK, BADSLOTS, TVAL and BADADDR are set; the loops and the
latches are off, the writes in flight removed, and the context is sent to the handler. The registers, the other cores and the home
memory are unchanged. R363: a trap that is not handled ends the launch of its unit with STATE 4 and the cause, or double fault
when the unit was in a handler; a launch that is ending already stands. R366, R367: TRET alone in its bundle, in a handler, with a
readable and well-formed record: the context goes on at the record's PC with INTRAP and DROP clear, the loop state of the record,
and the record's pending writes in flight; when DROP is clear the home memory is unchanged. R366: TRET outside a handler raises trap return and changes nothing. Which records TRET
refuses beyond R366, and what an unhandled trap leaves, are the model's readings (log entry 19). -/
def Obligations.TrapEntryAndReturn : Prop :=
  ((∀ (s : Machine.State) (c k : Nat) (r : TrapReport), k < 4 → (s.ctx c k).trapHandled = true → r.async = none →
        let x := s.ctx c k
        let t := s.takeTrap c k r
        let y := t.ctx c k
        y.pc = ((x.csr.tvec.extractLsb' 0 50 ++ 0#6 : BitVec 56)).signExtend 64
        ∧ y.csr.cause = BitVec.ofNat 64 (r.cond.origin * 32 + r.cond.kind + 2 ^ 16 * r.cond.sub + 2 ^ 30)
        ∧ y.csr.trappc = r.trappc ∧ y.csr.donemask = r.done.setWidth 64 ∧ y.csr.badslots = r.bad.setWidth 64
        ∧ y.csr.tval = r.cond.tval.getD x.csr.tval ∧ y.csr.badaddr = r.cond.badaddr.getD x.csr.badaddr
        ∧ y.csr.loopst = 0 ∧ y.flights = [] ∧ (∀ i (h : i < 4), y.latches[i].valid = false)
        ∧ y.s = x.s ∧ y.v = x.v ∧ y.p = x.p ∧ y.queues = x.queues ∧ y.cc = x.cc
        ∧ t.mem = s.mem ∧ (∀ d, d ≠ c → t.core d = s.core d) ∧ (∀ j, j ≠ k → t.ctx c j = s.ctx c j)
        ∧ ((s.core c).spm.wf = true → ∀ i < 8,
            (t.core c).spm.read ((x.csr.tvec >>> 50).toNat * 256 + i) = BitVec.ofNat 8 (r.resume.toNat / 256 ^ i)))
    ∧ (∀ (s : Machine.State) (c k u : Nat) (x : Machine.Unit) (l : Launch) (r : TrapReport), k < 4 → (s.ctx c k).trapHandled = false →
        (s.ctx c k).unit = some u → s.unit u = some x → find s.launches x.launch = some l →
        ∃ m, find (s.takeTrap c k r).launches x.launch = some m
          ∧ m.ending = (if l.ending.isSome then l.ending
              else some (4, if (s.ctx c k).csr.cause.getLsbD 30 then 31 else r.cond.origin * 32 + r.cond.kind))
          ∧ (s.takeTrap c k r).mem = s.mem))
  ∧ ((∀ (s : Machine.State) (b : List Byte), s.Calm → s.iss.ctx < 4 → s.iss.slots.length ≤ 1 → s.me.csr.cause.getLsbD 30 = true →
        s.iss.entry.csr.recordAt + 23808 ≤ 3145728 → s.myCore.load 1 s.iss.entry.csr.recordAt 23808 = .ok b → recordOk b = true →
        ∃ t : Machine.State, exec .tret s = .next t.slotEnd
          ∧ t.me.pc = BitVec.ofNat 64 (leNat (b.take 8))
          ∧ t.me.csr.cause = s.me.csr.cause &&& ~~~0x40000000#64 ∧ t.me.csr.donemask = s.me.csr.donemask &&& ~~~0x100#64
          ∧ t.me.csr.loopst = recWord b 6
          ∧ t.me.flights.length = recordNpw b ∧ t.me.s = s.me.s ∧ t.me.v = s.me.v ∧ t.me.p = s.me.p
          ∧ (s.me.csr.donemask.getLsbD 8 = false → t.mem = s.mem))
    ∧ (∀ (s : Machine.State), s.Calm → s.me.csr.cause.getLsbD 30 = false → exec .tret s = .next (s.slotFault trapReturn)))


/-- R91, R92, R202: EXIT ends the issue of its unit and gives up the lease; YIELD hands its tolerance to the arbiter, and does
nothing in a static context. R94, R201: CANCEL ends the issuing unit's launch, or cancels its job at a level, with the low 16 bits
of its source as the reason. R93: an arrival at a barrier. The first opens it with its count; another joins a barrier of the same
scope, place and number that has room and the same count; the context then waits. A count that is 0 or above the scope's limit, or
that differs, raises barrier mismatch. -/
def Obligations.EndsAndBarriers : Prop :=
  ((∀ (s : Machine.State), s.Calm →
        (∃ t : Machine.State, exec .exit s = .next t.slotEnd
          ∧ (∀ x, s.unit s.myUnit = some x → t.unit s.myUnit = some { x with exited := true, life := .draining, asyncs := [] })
          ∧ t.myCore.mat.holder ≠ some s.iss.ctx ∧ s.iss.ctx ∉ t.myCore.mat.requests
          ∧ t.me = s.me ∧ t.mem = s.mem ∧ t.myCore.spm = s.myCore.spm)
        ∧ (∀ n, s.isStatic s.iss.core s.iss.ctx = false →
            exec (.yield n) s = .next (s.onMe fun x => { x with yielded := some n.toNat }).slotEnd)
        ∧ (∀ n, s.isStatic s.iss.core s.iss.ctx = true → exec (.yield n) s = .next s.slotEnd))
    ∧ (∀ (s : Machine.State) (a : Src) (x : Word), s.Calm → s.srcS a = .ok x →
        let r := x.toNat % 2 ^ 16
        let j := (s.jobOf s.myUnit).getD 0
        exec (.cancelLaunch a) s = .next (s.endLaunch (s.launchOf s.myUnit) 3 r).slotEnd
        ∧ exec (.cancelGraph a) s = .next (s.cancelGraph j r).slotEnd
        ∧ exec (.cancelPhase a) s = .next (s.cancelPhase j r).slotEnd
        ∧ exec (.cancelJob a) s = .next (s.cancelJob j r).slotEnd))
  ∧ (∀ (s : Machine.State) (n : Fin 32) (a : Src) (x : Word), s.Calm → s.srcS a = .ok x →
      ∀ f ∈ [(Instr.barClu n a, 0, 32), (.barDie n a, 1, 512), (.barDev n a, 2, 2048)],
        let l := s.launchOf s.myUnit
        let inst := barInst f.2.1 s.iss.core
        let all : List Barrier := ((find s.launches l).map (·.barriers)).getD []
        let met := all.find? fun b => b.joins f.2.1 inst n.val
        let me := (s.myUnit, s.me.csr.tlLsu.toNat)
        let waits := fun (t : Machine.State) => Host.Outcome.next (t.onMe fun y => { y with arrived := true, barSlot := some s.iss.slot }).slotEnd
        (0 < x.toNat → x.toNat ≤ f.2.2 → met = none → exec f.1 s =
          waits (s.onLaunch l fun y => { y with barriers := y.barriers ++ [⟨f.2.1, inst, n.val, x.toNat, [me]⟩] }))
        ∧ (∀ b, met = some b → 0 < x.toNat → x.toNat ≤ f.2.2 → b.count = x.toNat → exec f.1 s =
          waits (s.onLaunch l fun y => { y with barriers := y.barriers.map (Barrier.arrive f.2.1 inst n.val me) }))
        ∧ (x.toNat = 0 ∨ f.2.2 < x.toNat ∨ (∃ b, met = some b ∧ b.count ≠ x.toNat) → exec f.1 s = .next (s.slotFault barrierMismatch)))


/-- R90, R105: SPAWN hands the LSU the address of its descriptor and the weight it gives, half the unit's own when the source is zero, and
keeps the rest; it raises a condition when the address or the weight does not allow it. -/
def Obligations.SpawnResults : Prop :=
  ∀ (s : Machine.State) (d : Fin 32) (a b : Src) (x w : Word), s.Calm → s.Seated → s.srcS a = .ok x → s.srcS b = .ok w →
    let own := s.me.csr.uweight
    let give := if w = 0 then own / 2 else w
    (canonical x = true → x.toNat % 64 = 0 → own ≠ 1 → give < own →
      ∃ t : Machine.State, exec (.spawn d a b) s = .next t.slotEnd
        ∧ s.Sends t .lsu (.spawn d a b) (fun c => c.a = x ∧ c.b = give ∧ c.land.isSome = true)
        ∧ t.me.csr.uweight = own - give ∧ t.me.s = s.me.s ∧ t.mem = s.mem)
    ∧ (canonical x = true → x.toNat % 64 ≠ 0 → exec (.spawn d a b) s = .next (s.slotFault spawnDescriptor))
    ∧ (canonical x = true → x.toNat % 64 = 0 → own = 1 ∨ own ≤ give → exec (.spawn d a b) s = .next (s.slotFault weightExhausted))

/-! ### Global accesses -/

/-- R334, R338: LDG and STG, their address canonical and aligned, hand the LSU a command with the address and the data; a
destination other than s0 takes a landing, and the token of a store is the command's number. A bad address raises its condition at
issue. Nothing is loaded or stored yet. R43, R217, R218: VLDG and VSTG of a canonical address hand the LSU the address, the guard,
the data and the generator, and step the generator once for each enabled element under stochastic rounding. That a vector address is
checked at issue is the model's reading (log entry 23). -/
def Obligations.GlobalAccessIssue : Prop :=
  (∀ (s : Machine.State) (o : LdgOp) (w : StgOp) (x : Word), s.Calm → s.Seated → s.srcS o.a = .ok x → w.a = o.a →
      let n := (s.me.csr.tl .lsu).toNat + 1
      (canonical x = true → x.toNat % ldSize o.sz = 0 →
        ∃ t : Machine.State, exec (.ldg o) s = .next t.slotEnd
          ∧ s.Sends t .lsu (.ldg o) (fun c => c.a = x ∧ c.land.isSome = decide (o.d ≠ 0) ∧ c.acquire = o.acq ∧ c.release = false
            ∧ c.after = if o.tok = 0 then 0 else min (s.regS o.tok.val).toNat (n - 1))
          ∧ t.mem = s.mem ∧ t.myCore.spm = s.myCore.spm ∧ t.me.s = s.me.s ∧ t.me.flights = s.me.flights)
      ∧ (canonical x = true → x.toNat % stSize w.sz = 0 →
        ∃ t : Machine.State, exec (.stg w) s = .next t.slotEnd
          ∧ s.Sends t .lsu (.stg w) (fun c => c.a = x ∧ c.b = s.regS w.d.val ∧ c.land = none ∧ c.acquire = false ∧ c.release = w.rel)
          ∧ t.me.flights = (if w.tok = 0 then s.me.flights
              else s.me.flights ++ [s.flight (some .s) w.tok.val false ((BitVec.ofNat 64 n).setWidth 2048) allLanes 1 0 none true])
          ∧ t.mem = s.mem ∧ t.myCore.spm = s.myCore.spm ∧ t.me.s = s.me.s)
      ∧ (canonical x = false → ∀ i ∈ [Instr.ldg o, .stg w], exec i s = .next (s.slotFault { nonCanonical 1 with badaddr := some x }))
      ∧ (canonical x = true → ∀ f ∈ [(Instr.ldg o, ldSize o.sz), (.stg w, stSize w.sz)], x.toNat % f.2 ≠ 0 →
          exec f.1 s = .next (s.slotFault (misalignedAccess 1))))
  ∧ (∀ (s : Machine.State) (o : VGlob) (x : Word), s.Calm → s.Seated → s.srcS o.a = .ok x →
      let addr := x + o.imm.signExtend 64
      let steps := if o.rm = .sr then (enabledLanes o.ty (s.guard o.pg)).length else 0
      let sr := (List.range steps).foldl (fun r _ => srStep r) (s.me.csr.srstate.setWidth 32)
      (canonical addr = true → ∃ t : Machine.State, exec (.vldg o) s = .next t.slotEnd
        ∧ s.Sends t .lsu (.vldg o) (fun c => c.a = addr ∧ c.guard = s.guard o.pg ∧ c.seed = s.me.csr.srstate.setWidth 32
          ∧ c.tabA = s.myCore.codebook o.cb.val ∧ c.land.isSome = true)
        ∧ (0 < steps → t.me.csr.srstate = sr.setWidth 64) ∧ t.mem = s.mem ∧ t.me.v = s.me.v)
      ∧ (canonical addr = true → ∃ t : Machine.State, exec (.vstg o) s = .next t.slotEnd
        ∧ s.Sends t .lsu (.vstg o) (fun c => c.a = addr ∧ c.guard = s.guard o.pg ∧ c.seed = s.me.csr.srstate.setWidth 32
          ∧ c.vec = s.regV o.d.val ∧ c.land = none)
        ∧ (0 < steps → t.me.csr.srstate = sr.setWidth 64) ∧ t.mem = s.mem ∧ t.me.v = s.me.v))

/-- R341, R342: AMO and AMOCAS hand the LSU the address, the operand and, for the comparison, the destination as it stood at
bundle entry; they are acquires and releases unless their scope is the context. R341, R342: the value that an atomic of 64 bits
leaves in memory: sum, bit operations, the lesser and greater as signed and as unsigned, the operand itself, and for AMOCAS the
operand when memory holds the expected value and nothing otherwise. -/
def Obligations.AtomicResults : Prop :=
  (∀ (s : Machine.State) (o : AmoOp) (x y : Word), s.Calm → s.Seated → s.srcS o.a = .ok x → s.srcS o.b = .ok y →
      ∀ i ∈ [Instr.amoAdd o, .amoAnd o, .amoOr o, .amoXor o, .amoMin o, .amoMax o, .amoMinn o, .amoMaxn o, .amoSwap o, .amoFadd o,
        .amocas o],
        (canonical x = true → x.toNat % amoSize o = 0 →
          ∃ t : Machine.State, exec i s = .next t.slotEnd
            ∧ s.Sends t .lsu i (fun c => c.a = x ∧ c.b = y ∧ c.c = s.regS o.d.val ∧ c.land.isSome = true
              ∧ c.acquire = decide (o.sc ≠ .ctx) ∧ c.release = decide (o.sc ≠ .ctx))
            ∧ t.mem = s.mem ∧ t.myCore.spm = s.myCore.spm ∧ t.me.s = s.me.s ∧ t.me.flights = s.me.flights)
        ∧ (canonical x = false → exec i s = .next (s.slotFault { nonCanonical 1 with badaddr := some x }))
        ∧ (canonical x = true → x.toNat % amoSize o ≠ 0 → exec i s = .next (s.slotFault (misalignedAccess 1))))
  ∧ (∀ (m b x : Word),
      let new := fun k => (amoResult k 64 m.toNat b.toNat x.toNat).1
      new .add = some (m + b).toNat ∧ new .and = some (m &&& b).toNat ∧ new .or = some (m ||| b).toNat ∧ new .xor = some (m ^^^ b).toNat
      ∧ (∃ v ∈ [m, b], new .min = some v.toNat ∧ v.toInt = min m.toInt b.toInt)
      ∧ (∃ v ∈ [m, b], new .max = some v.toNat ∧ v.toInt = max m.toInt b.toInt)
      ∧ (∃ v ∈ [m, b], new .minn = some v.toNat ∧ v.toNat = min m.toNat b.toNat)
      ∧ (∃ v ∈ [m, b], new .maxn = some v.toNat ∧ v.toNat = max m.toNat b.toNat)
      ∧ new .swap = some b.toNat
      ∧ new .cas = if m = x then some b.toNat else none)

/-- R339, R340: a WAITTL, once it issues, does nothing more; a full FENCE makes every later access of the unit follow the LSU operations
issued so far, those of its own bundle among them, and a release FENCE every later write. R113, R114: ICLK of a canonical address takes a
landing for its destination, whose value is the number of lines locked, at most 128 and at most what was asked; IUNLK names a range
of lines, and at the end of the core cycle the unit's locks on the lines of the range, all of them with zero, are released, and
nothing else of the cache changes. -/
def Obligations.FencesAndLocks : Prop :=
  (∀ (s : Machine.State) (a : Src) (x : Word), s.Calm → s.srcS a = .ok x →
      (∀ sc, exec (.fence sc) s = .next (s.onMyUnit fun u => { u with fullFence := s.me.csr.tlLsu.toNat }).slotEnd)
      ∧ (∀ sc, exec (.fenceRel sc) s = .next (s.onMyUnit fun u => { u with relFence := s.me.csr.tlLsu.toNat }).slotEnd)
      ∧ (∀ e, exec (.waittl a e) s = .next s.slotEnd))
  ∧ (∀ (s : Machine.State) (d : Fin 32) (a b : Src) (x y : Word), s.Calm → s.Seated → s.srcS a = .ok x → s.srcS b = .ok y →
      let line := x &&& ~~~511#64
      let r := (List.range (min y.toNat 128)).foldl (fun (acc : (Nat × Bool) × Machine.State) i =>
        acc.2.lockLine s.iss.core s.myUnit s.me.csr.asidcur.toNat (line + BitVec.ofNat 64 (512 * i)) acc.1) ((0, false), s)
      (canonical x = true → r.1.1 ≤ min y.toNat 128 ∧ exec (.iclk d a b) s = .next (
        let (k, t) := r.2.draw
        let (id, t) := t.takeLanding .s d.val none
        (t.landReady t.myUnit id (t.now + 1 + Config.fillDelay k) (BitVec.ofNat 2048 r.1.1) allLanes 0).slotEnd))
      ∧ (canonical x = false → exec (.iclk d a b) s = .next (s.slotFault { nonCanonical 1 with badaddr := some x }))
      ∧ exec (.iunlk a b) s =
          .next (s.onMyCore fun z => { z with unlocks := z.unlocks ++ [(s.myUnit, va56 (x &&& ~~~511#64), y.toNat)] }).slotEnd)
  ∧ (∀ (z : Core) (u lo n : Nat), z.unlocks = [(u, lo, n)] →
      z.endCycle.icache = z.icache.map (fun l =>
        if l.lock = some u ∧ (n = 0 ∨ (l.va + 2 ^ 56 - lo) % 2 ^ 56 < 512 * n) then { l with lock := none } else l)
      ∧ z.endCycle.unlocks = [] ∧ z.endCycle.spm = z.spm)

/-! ### Vector operations -/

/-- R207, R208, R209: the integer element operations that wrap or saturate. Every enabled element of what is put in flight at latency 2
is the exact result, brought into the type's range with saturation and reduced to its width without; NV comes with it exactly when an
enabled element saturates. VABS and VNEG likewise on one source, and VMAD with a third, every element being written. -/
def Obligations.VectorArithmetic : Prop :=
  ∀ (s : Machine.State) (o : VInt) (u : VUnSat) (m : VMadOp) (x y z : VWord), s.Calm → s.srcV o.a = .ok x → s.srcSb o.ty o.sb o.b = .ok y →
    u = ⟨o.d, o.nw, o.a, o.sat, o.pg, o.ty⟩ → m.d = o.d → m.nw = o.nw → m.a = o.a → m.b = o.b → m.sb = o.sb → m.sat = o.sat →
    m.pg = o.pg → m.ty = o.ty → s.srcV m.c = .ok z →
    let g := s.guard o.pg
    let lo := intLo (tySigned o.ty) (tyBits o.ty)
    let hi := intHi (tySigned o.ty) (tyBits o.ty)
    let gives := fun (exact : Nat → Int) (r : VWord) (fl : Flags) =>
      (∀ k < lanes o.ty, enabled o.ty g k = true →
        elem o.ty r k = wrapInt (tyBits o.ty) (if o.sat then max lo (min hi (exact k)) else exact k))
      ∧ (fl = 0 ∨ fl = flagNV)
      ∧ (fl = flagNV ↔ o.sat = true ∧ ∃ k < lanes o.ty, enabled o.ty g k = true ∧ (exact k < lo ∨ hi < exact k))
    let lands := fun (i : Instr) (exact : Nat → Int) => ∃ r fl, gives exact r fl
      ∧ exec i s = .next ((s.keepSr s.racc).writeV o.d o.nw r (laneMask o.ty g) 2 fl).slotEnd
    lands (.vadd o) (fun k => ielem o.ty x k + ielem o.ty y k)
    ∧ lands (.vsub o) (fun k => ielem o.ty x k - ielem o.ty y k)
    ∧ lands (.vmul o) (fun k => ielem o.ty x k * ielem o.ty y k)
    ∧ lands (.vabs u) (fun k => (ielem o.ty x k).natAbs)
    ∧ lands (.vneg u) (fun k => -ielem o.ty x k)
    ∧ (∃ r fl, gives (fun k => ielem o.ty x k * ielem o.ty y k + ielem o.ty z k) r fl
      ∧ exec (.vmad m) s = .next ((s.keepSr s.racc).writeV o.d o.nw (merge (s.regV o.d.val) r (laneMask o.ty g)) allLanes 2 fl).slotEnd)

/-- R209: the integer element operations that cannot overflow, element by element at latency 2 and with no flag: the high half of the
product, the lesser and the greater, and the shifts by the second source modulo the width; the bit operations act on the whole
register. -/
def Obligations.VectorIntegerOps : Prop :=
  ∀ (s : Machine.State) (o : VBin) (x y : VWord), s.Calm → s.srcV o.a = .ok x → s.srcSb o.ty o.sb o.b = .ok y →
    let g := s.guard o.pg
    let w := tyBits o.ty
    let puts := fun (i : Instr) (r : VWord) => exec i s = .next ((s.keepSr s.racc).writeV o.d o.nw r (laneMask o.ty g) 2).slotEnd
    let lands := fun (i : Instr) (f : Nat → Nat) => ∃ r, puts i r ∧ ∀ k < lanes o.ty, enabled o.ty g k = true → elem o.ty r k = f k
    lands (.vmulh o) (fun k => wrapInt w (ielem o.ty x k * ielem o.ty y k / 2 ^ w))
    ∧ lands (.vmin o) (fun k => wrapInt w (min (ielem o.ty x k) (ielem o.ty y k)))
    ∧ lands (.vmax o) (fun k => wrapInt w (max (ielem o.ty x k) (ielem o.ty y k)))
    ∧ lands (.vshl o) (fun k => elem o.ty x k * 2 ^ (elem o.ty y k % w) % 2 ^ w)
    ∧ lands (.vshr o) (fun k => elem o.ty x k / 2 ^ (elem o.ty y k % w))
    ∧ lands (.vsra o) (fun k => wrapInt w (readInt true w (elem o.ty x k) / 2 ^ (elem o.ty y k % w)))
    ∧ puts (.vand o) (x &&& y) ∧ puts (.vor o) (x ||| y) ∧ puts (.vxor o) (x ^^^ y)

/-- R207, R210: the floating element operations at latency 4. In every mode the generator steps once for each enabled element under SR and
not otherwise. For f16, bf16 and f32 and in a mode other than SR each enabled element is the canonical NaN for a NaN operand; for finite
operands the exact sum, difference, product, or product plus the third source, rounded once; VFMIN and VFMAX give one of the two
encodings that nothing is below or above, VFABS and VFNEG change the sign bit. VFMA writes every element, a disabled one with the old
value. -/
def Obligations.VectorFloatResults : Prop :=
  ∀ (s : Machine.State) (o : VFlt) (p : VBin) (u : VUn) (m : VFmaOp) (x y z : VWord), s.Calm → s.srcV o.a = .ok x →
    s.srcSb o.ty o.sb o.b = .ok y → p = ⟨o.d, o.nw, o.a, o.b, o.sb, o.pg, o.ty⟩ → u = ⟨o.d, o.nw, o.a, o.pg, o.ty⟩ →
    m.d = o.d → m.nw = o.nw → m.a = o.a → m.b = o.b → m.sb = o.sb → m.rm = o.rm → m.pg = o.pg → m.ty = o.ty → s.srcV m.c = .ok z →
    let g := s.guard o.pg
    let mask := laneMask o.ty g
    let F := tyF o.ty
    let w := tyBits o.ty
    let X := fun k => F.decode (elem o.ty x k)
    let Y := fun k => F.decode (elem o.ty y k)
    let Z := fun k => F.decode (elem o.ty z k)
    let nan := F.nanCode.getD 0
    let val := fun (n : Bool) (m : Nat) (e k : Int) => (if n then -(m : Int) else m) * 2 ^ (e - k).toNat
    let code := fun (v : Ext) => (roundF F o.rm v ⟨0, 0⟩).1 % 2 ^ w
    let rounded := fun (v k : Int) => code (.fin (decide (v < 0)) v.natAbs k false)
    let lands := fun (r : VWord × RAcc) => Host.Outcome.next ((s.keepSr r.2).writeV o.d o.nw r.1 mask 4 r.2.fl).slotEnd
    let steps := if o.rm = .sr then (enabledLanes o.ty g).length else 0
    let keeps := fun (r : VWord × RAcc) (n : Nat) => r.2.sr = (List.range n).foldl (fun t _ => srStep t) s.racc.sr
    let each := fun (r : VWord × RAcc) (good : Nat → Nat → Prop) => o.ty ∈ [Ty.f16, .bf16, .f32] →
      ∀ k < lanes o.ty, enabled o.ty g k = true → good k (elem o.ty r.1 k)
    let finite := fun (good : Nat → Bool → Nat → Int → Bool → Nat → Int → Nat → Prop) (k c : Nat) => o.rm ≠ .sr →
      (X k = .nan ∨ Y k = .nan → c = nan)
      ∧ ∀ nx mx ex ny my ey, X k = .fin nx mx ex false → Y k = .fin ny my ey false → good k nx mx ex ny my ey c
    (∃ r, exec (.vfadd o) s = lands r ∧ keeps r steps ∧ each r (finite fun _ nx mx ex ny my ey c =>
        let v := val nx mx ex (min ex ey) + val ny my ey (min ex ey)
        v ≠ 0 → c = rounded v (min ex ey)))
    ∧ (∃ r, exec (.vfsub o) s = lands r ∧ keeps r steps ∧ each r (finite fun _ nx mx ex ny my ey c =>
        let v := val nx mx ex (min ex ey) - val ny my ey (min ex ey)
        v ≠ 0 → c = rounded v (min ex ey)))
    ∧ (∃ r, exec (.vfmul o) s = lands r ∧ keeps r steps ∧ each r (finite fun _ nx mx ex ny my ey c =>
        c = code (.fin (nx != ny) (mx * my) (ex + ey) false)))
    ∧ (∃ r, exec (.vfmin p) s = lands r ∧ keeps r 0 ∧ each r (fun k c => X k ≠ .nan → Y k ≠ .nan →
        c ∈ [elem o.ty x k, elem o.ty y k] ∧ (X k).lt (F.decode c) = false ∧ (Y k).lt (F.decode c) = false))
    ∧ (∃ r, exec (.vfmax p) s = lands r ∧ keeps r 0 ∧ each r (fun k c => X k ≠ .nan → Y k ≠ .nan →
        c ∈ [elem o.ty x k, elem o.ty y k] ∧ (F.decode c).lt (X k) = false ∧ (F.decode c).lt (Y k) = false))
    ∧ (∃ r, exec (.vfabs u) s = lands r ∧ keeps r 0
      ∧ each r (fun k c => c = if X k = .nan then nan else elem o.ty x k % 2 ^ (w - 1)))
    ∧ (∃ r, exec (.vfneg u) s = lands r ∧ keeps r 0
      ∧ each r (fun k c => c = if X k = .nan then nan else elem o.ty x k ^^^ 2 ^ (w - 1)))
    ∧ (∃ r : VWord × RAcc,
      exec (.vfma m) s = .next ((s.keepSr r.2).writeV o.d o.nw (merge (s.regV o.d.val) r.1 mask) allLanes 4 r.2.fl).slotEnd
      ∧ keeps r steps ∧ each r (finite fun k nx mx ex ny my ey c => ∀ nz mz ez, Z k = .fin nz mz ez false →
        let v := val (nx != ny) (mx * my) (ex + ey) (min (ex + ey) ez) + val nz mz ez (min (ex + ey) ez)
        v ≠ 0 → c = rounded v (min (ex + ey) ez)))

/-- R211, R212: the compares set all bits of an element in a predicate where the element is enabled and the relation holds; selection,
broadcast, insertion, extraction and moves of elements. A lane number that the type does not have raises lane range. -/
def Obligations.VectorMoveResults : Prop :=
  ∀ (s : Machine.State) (o : VCmpOp) (q : VTri) (u v : VUn) (n e : VTwo) (x y : VWord) (c : PWord) (w i : Word), s.Calm →
    s.srcV o.a = .ok x → s.srcSb o.ty o.sb o.b = .ok y → s.srcV q.b = .ok y → s.srcP q.c = .ok c → s.srcS v.a = .ok w → s.srcS n.b = .ok i →
    q.a = o.a → u.a = o.a → n.a = v.a → e.a = o.a → e.b = n.b →
    let g := s.guard o.pg
    let lands := fun (t : Machine.State) (d : Fin 32) (nw : Bool) (r : VWord) (m : PWord) => Host.Outcome.next (t.writeV d nw r m 2).slotEnd
    (∃ r, exec (.vcmp o) s = .next ((s.keepSr s.racc).writeP o.pd o.nw r 2).slotEnd
      ∧ ∀ k < lanes o.ty, ∀ b < tyBits o.ty / 8,
        r.getLsbD (tyBits o.ty / 8 * k + b) = (enabled o.ty g k && icompare o.cc (ielem o.ty x k) (ielem o.ty y k)))
    ∧ (∃ r fl, exec (.vfcmp o) s = .next ((s.keepSr s.racc).writeP o.pd o.nw r 2 fl).slotEnd
      ∧ (o.ty ∈ [Ty.f16, .bf16, .f32] → ∀ k < lanes o.ty, ∀ b < tyBits o.ty / 8,
        let X := (tyF o.ty).decode (elem o.ty x k)
        let Y := (tyF o.ty).decode (elem o.ty y k)
        let bit := r.getLsbD (tyBits o.ty / 8 * k + b)
        (enabled o.ty g k = false → bit = false)
        ∧ (enabled o.ty g k = true → X = .nan ∨ Y = .nan → bit = decide (o.cc = .ne ∨ o.cc = .un))
        ∧ ∀ nx mx ex ny my ey, enabled o.ty g k = true → X = .fin nx mx ex false → Y = .fin ny my ey false →
          let i := (if nx then -(mx : Int) else mx) * 2 ^ (ex - min ex ey).toNat
          let j := (if ny then -(my : Int) else my) * 2 ^ (ey - min ex ey).toNat
          bit = icompare o.cc i j))
    ∧ (∃ r, exec (.vsel q) s = lands s q.d q.nw r (laneMask q.ty (s.guard q.pg))
      ∧ ∀ k < lanes q.ty, elem q.ty r k = if enabled q.ty c k then elem q.ty x k else elem q.ty y k)
    ∧ (∃ r, exec (.vbcst v) s = lands s v.d v.nw r (laneMask v.ty (s.guard v.pg))
      ∧ ∀ k < lanes v.ty, elem v.ty r k = w.toNat % 2 ^ tyBits v.ty)
    ∧ exec (.vmov u) s = lands (s.keepSr s.racc) u.d u.nw x (laneMask u.ty (s.guard u.pg))
    ∧ (i.toNat < lanes n.ty → ∃ r m, exec (.vins n) s = lands s n.d n.nw r m
      ∧ elem n.ty r i.toNat = w.toNat % 2 ^ tyBits n.ty
      ∧ m = if enabled n.ty (s.guard n.pg) i.toNat then elemBits n.ty i.toNat else 0)
    ∧ (lanes n.ty ≤ i.toNat → exec (.vins n) s = .next (s.slotFault laneRange))
    ∧ (i.toNat < lanes e.ty → exec (.vext e) s = .next (s.writeS e.d e.nw
        (BitVec.ofInt 64 (readInt (tySigned e.ty) (tyBits e.ty) (elem e.ty x i.toNat))) 2).slotEnd)
    ∧ (lanes e.ty ≤ i.toNat → exec (.vext e) s = .next (s.slotFault laneRange))

/-- R213, R214, R215: the local vector loads and stores. VLD and VST move 256 bytes at an aligned address in range, VST storing
the bytes of the enabled elements; VLDS, VGATH and VSCAT move the enabled elements, each at an address of its own. R214: the
element addresses of VLDS, VGATH and VSCAT are those of the enabled elements in ascending order; one that is out of range raises
scratchpad range, and with all of them in range one that is not aligned raises misaligned access. -/
def Obligations.VectorLocalResults : Prop :=
  ((∀ (s : Machine.State) (o : VLoc) (a : Word) (addr : Nat), s.Calm → s.srcS o.a = .ok a → (a.toNat : Int) + 256 * o.imm.toInt = addr →
      addr + 256 ≤ 3145728 → addr % 256 = 0 →
      (s.myCore.bad = [] → exec (.vld o) s =
        .next (s.writeV o.d o.nw (bytesV (s.myCore.loadBytes addr 256)) (laneMask o.ty (s.guard o.pg)) 8).slotEnd)
      ∧ exec (.vst o.d o.a o.imm o.pg o.ty) s = .next (s.onMyCore fun x => x.storeMasked addr
        ((vbytes (s.regV o.d.val)).zip ((List.range 256).map fun k => (laneMask o.ty (s.guard o.pg)).getLsbD k))).slotEnd)
    ∧ (∀ (s : Machine.State) (o v : VTwo) (a b : Word) (y : VWord) (l : List (Nat × Nat)), s.Calm → s.srcS o.a = .ok a →
      s.srcS o.b = .ok b → s.srcV v.b = .ok y → v = { o with b := v.b } →
      let g := s.guard o.pg
      (elemAddrs o.ty g (fun k => (a.toNat : Int) + k * b.toInt) = .ok l → s.myCore.bad = [] → ∃ r,
        exec (.vlds o) s = .next (s.writeV o.d o.nw r (laneMask o.ty g) 8).slotEnd ∧ s.loadElems o.ty l = .ok r)
      ∧ (elemAddrs o.ty g (fun k => (a.toNat : Int) + elem o.ty y k * (tyBits o.ty / 8)) = .ok l → s.myCore.bad = [] → ∃ r,
        exec (.vgath v) s = .next (s.writeV o.d o.nw r (laneMask o.ty g) 8).slotEnd ∧ s.loadElems o.ty l = .ok r)
      ∧ (elemAddrs o.ty g (fun k => (a.toNat : Int) + elem o.ty y k * (tyBits o.ty / 8)) = .ok l →
        exec (.vscat o.d o.a v.b o.pg o.ty) s = .next (l.foldl (fun t p =>
          t.onMyCore fun x => x.storeBytes p.2 (leBytes (elem o.ty (s.regV o.d.val) p.1) (tyBits o.ty / 8))) s).slotEnd)))
  ∧ (∀ (t : Ty) (g : PWord) (addr : Nat → Int),
      let n := tyBits t / 8
      let good := fun k => 0 ≤ addr k ∧ addr k + n ≤ 3145728 ∧ (addr k).toNat % n = 0
      (∀ l, elemAddrs t g addr = .ok l → l = (enabledLanes t g).map fun k => (k, (addr k).toNat))
      ∧ ((∃ l, elemAddrs t g addr = .ok l) ↔ ∀ k < lanes t, enabled t g k = true → good k)
      ∧ (∀ k < lanes t, enabled t g k = true →
          (addr k < 0 ∨ 3145728 < addr k + n → elemAddrs t g addr = .error (scratchpadRange 2))
          ∧ ((addr k).toNat % n ≠ 0 → (∀ j < lanes t, enabled t g j = true → 0 ≤ addr j ∧ addr j + n ≤ 3145728) →
            elemAddrs t g addr = .error (misalignedAccess 2))))

/-- R220, R221: the horizontal reductions of the enabled elements to a scalar, at latency 6; for integers the exact sum, reduced to 64
bits, and the greatest and least; for f16, bf16 and f32, every enabled element finite, the exact sum rounded once to f32, and the encoding
in f32 of the greatest or the least. VRMRS writes whether an enabled element is valid to its predicate, and +0 where none is. -/
def Obligations.ReductionResults : Prop :=
  ∀ (s : Machine.State) (o : VRed) (u : VUn) (r : VRmrsOp) (x : VWord) (c : PWord), s.Calm → s.srcV o.a = .ok x → u.a = o.a → r.a = o.a →
    s.srcP r.c = .ok c → u.pg = o.pg → u.ty = o.ty →
    let g := s.guard o.pg
    let l := enabledLanes o.ty g
    let lands := fun (d : Fin 32) (nw : Bool) (w : Word × RAcc) => ((s.keepSr w.2).writeS d nw w.1 6 w.2.fl)
    -- the value of a finite element, in units of 2^-149
    let val := fun k => match (tyF o.ty).decode (elem o.ty x k) with
      | .fin n m e _ => (if n then -(m : Int) else m) * 2 ^ (e + 149).toNat
      | _ => 0
    let finite := o.ty ∈ [Ty.f16, .bf16, .f32] ∧ ∀ k ∈ l, ∃ n m e, (tyF o.ty).decode (elem o.ty x k) = .fin n m e false
    ∃ p q v : Word × RAcc,
      exec (.vrsum o) s = .next (lands o.d o.nw p).slotEnd
      ∧ exec (.vrmax u) s = .next (lands u.d u.nw q).slotEnd
      ∧ exec (.vrmin u) s = .next (lands u.d u.nw v).slotEnd
      ∧ (tyFloat o.ty = none → p.1 = BitVec.ofInt 64 ((l.map (ielem o.ty x)).sum)
        ∧ (l ≠ [] → (∃ k ∈ l, q.1 = BitVec.ofInt 64 (ielem o.ty x k) ∧ ∀ j ∈ l, ielem o.ty x j ≤ ielem o.ty x k)
          ∧ (∃ k ∈ l, v.1 = BitVec.ofInt 64 (ielem o.ty x k) ∧ ∀ j ∈ l, ielem o.ty x k ≤ ielem o.ty x j)))
      ∧ (finite → ((l.map val).sum ≠ 0 → ∃ t k : Int, t * 2 ^ (k + 149).toNat = (l.map val).sum ∧ -149 ≤ k
          ∧ p.1 = BitVec.ofNat 64 (roundF .f32 o.rm (.fin (decide (t < 0)) t.natAbs k false) s.racc).1)
        ∧ (l ≠ [] → (∃ k ∈ l, q.1 = BitVec.ofNat 64 (FFmt.f32.round .rne ((tyF o.ty).decode (elem o.ty x k))).1 ∧ ∀ j ∈ l, val j ≤ val k)
          ∧ (∃ k ∈ l, v.1 = BitVec.ofNat 64 (FFmt.f32.round .rne ((tyF o.ty).decode (elem o.ty x k))).1 ∧ ∀ j ∈ l, val k ≤ val j)))
      ∧ ∃ (out : Word) (a : RAcc) (valid : Bool),
        let t := lands r.d r.nw (out, a)
        exec (.vrmrs r) s = .next (if r.nw then t
          else t.writeNoLatch .p r.pd.val ((if valid then allLanes else 0).setWidth 2048) 6).slotEnd
        ∧ (valid = true ↔ ∃ k < lanes r.ty, enabled r.ty (s.guard r.pg) k = true ∧ enabled r.ty c k = true)
        ∧ (valid = false → out = 0 ∧ a = s.racc)

/-- R226, R227: PCNT counts the enabled
elements that are set, PFIRST keeps the lowest of them, PSETN sets the first elements; PPACK and PUNPK move eight predicates to and
from a vector register. Latency 2. -/
def Obligations.PredicateResults : Prop :=
  ∀ (s : Machine.State) (p q : PElt) (n : VUn) (a : PWord) (m : Word) (x : VWord) (v : Src) (d : Fin 32) (nw : Bool)
    (f : Fin 9), s.Calm → s.srcP n.a = .ok a → p.a = n.a →
    s.srcS q.a = .ok m → s.srcV v = .ok x →
    exec (.pcnt n) s = .next (s.writeS n.d n.nw
        (BitVec.ofNat 64 ((List.range (lanes n.ty)).countP fun k => enabled n.ty a k && enabled n.ty (s.guard n.pg) k)) 2).slotEnd
    ∧ (∃ r, exec (.pfirst p) s = .next (s.writeP p.pd p.nw r 2).slotEnd
      ∧ ∀ k < lanes p.ty, ∀ i < tyBits p.ty / 8, r.getLsbD (tyBits p.ty / 8 * k + i) = true ↔
          (enabled p.ty a k = true ∧ enabled p.ty (s.guard p.pg) k = true
            ∧ ∀ j < k, ¬(enabled p.ty a j = true ∧ enabled p.ty (s.guard p.pg) j = true)))
    ∧ (∃ r, exec (.psetn q) s = .next (s.writeP q.pd q.nw (r &&& s.guard q.pg) 2).slotEnd
      ∧ ∀ i < 256, r.getLsbD i = decide (i < tyBits q.ty / 8 * min m.toNat (lanes q.ty)))
    ∧ (∃ r, exec (.ppack d nw f) s = .next (s.writeV d nw r allLanes 2).slotEnd
      ∧ ∀ k < 8, r.extractLsb' (256 * k) 256 = s.iss.entry.readP (f.val + k))
    ∧ exec (.punpk f v) s = .next ((List.range 8).foldl
        (fun t k => t.writeNoLatch .p (f.val + k) ((x.extractLsb' (256 * k) 256).setWidth 2048) 2) s).slotEnd

/-! ### The X slot -/

/-- R228, R230, R232: each enabled element of a special function is its function of the exact value of the element, rounded once in RNE, at
latency 12; SQRT and DIV likewise in their mode, at latency 20, where the mode is not SR. R231: the special values of the functions. R233:
integer division of elements, 32 of 64 bits with WD. An enabled element gives all ones and its dividend for a zero divisor, the dividend
and zero for the one quotient that is out of range, and otherwise the truncated quotient and the remainder of the dividend's sign. Signed
for DIVS and REMS, whose types are signed. The functions are evaluated with the fraction bits of log entry 16, which are the model's
choice. -/
def Obligations.DivisionAndFunctionResults : Prop :=
  (∀ (s : Machine.State) (o : VUn) (q : XSqrt) (d : XDiv) (x y : VWord), s.Calm → s.srcV o.a = .ok x → q.a = o.a → d.a = o.a →
      s.srcV d.b = .ok y →
      let lands := fun (i : Instr) (d : Fin 32) (nw : Bool) (t : Ty) (pg : Fin 16) (lat : Nat) (rm : Rm) (f : Nat → Ext) =>
        ∃ r : VWord × RAcc, exec i s = .next ((s.keepSr r.2).writeV d nw r.1 (laneMask t (s.guard pg)) lat r.2.fl).slotEnd
          ∧ (rm ≠ .sr → ∀ k < lanes t, enabled t (s.guard pg) k = true →
            elem t r.1 k = (roundF (tyF t) rm (f k) ⟨0, 0⟩).1 % 2 ^ tyBits t)
      let fn := fun (i : Instr) (f : Ext → Ext × Flags) =>
        lands i o.d o.nw o.ty o.pg 12 .rne fun k => (f ((tyF o.ty).decode (elem o.ty x k))).1
      fn (.exp2 o) Ext.exp2 ∧ fn (.log2 o) Ext.log2 ∧ fn (.rcp o) Ext.rcp ∧ fn (.rsqrt o) Ext.rsqrt ∧ fn (.tanh o) Ext.tanh
      ∧ fn (.sigm o) Ext.sigm
      ∧ lands (.sqrt q) q.d q.nw q.ty q.pg 20 q.rm (fun k => (Ext.sqrt ((tyF q.ty).decode (elem q.ty x k))).1)
      ∧ lands (.div d) d.d d.nw d.ty d.pg 20 d.rm
        (fun k => (Ext.div ((tyF d.ty).decode (elem d.ty x k)) ((tyF d.ty).decode (elem d.ty y k))).1))
  ∧ (∀ (n m : Bool) (a b : Nat) (e f : Int), 0 < a → 0 < b →
      let nought := Ext.fin n 0 e false
      (∀ h ∈ [Ext.exp2, Ext.log2, Ext.rcp, Ext.rsqrt, Ext.tanh, Ext.sigm, Ext.sqrt], (h .nan).1 = .nan)
      ∧ (∀ j : Nat, j < 1024 → (Ext.exp2 (.fin n j 0 false)).1 = .fin false 1 (if n then -(j : Int) else j) false)
      ∧ (Ext.exp2 (.inf false)).1 = .inf false ∧ (Ext.exp2 (.inf true)).1.isZero = true
      ∧ Ext.log2 nought = (.inf true, flagDZ) ∧ (Ext.log2 (.inf false)).1 = .inf false ∧ Ext.log2 (.inf true) = (.nan, flagNV)
      ∧ Ext.log2 (.fin true a e false) = (.nan, flagNV)
      ∧ Ext.rcp nought = (.inf n, flagDZ) ∧ (Ext.rcp (.inf n)).1 = .fin n 0 0 false
      ∧ Ext.rsqrt nought = (.inf n, flagDZ) ∧ (Ext.rsqrt (.inf false)).1.isZero = true ∧ Ext.rsqrt (.fin true a e false) = (.nan, flagNV)
      ∧ (Ext.sqrt nought).1 = .fin n 0 0 false ∧ (Ext.sqrt (.inf false)).1 = .inf false ∧ Ext.sqrt (.fin true a e false) = (.nan, flagNV)
      ∧ (Ext.tanh nought).1.isZero = true ∧ (Ext.tanh (.inf n)).1 = .fin n 1 0 false ∧ (Ext.sigm (.inf true)).1.isZero = true
      ∧ (Ext.sigm (.inf false)).1 = .fin false 1 0 false
      ∧ Ext.div nought (.fin m 0 f false) = (.nan, flagNV) ∧ Ext.div (.inf n) (.inf m) = (.nan, flagNV)
      ∧ Ext.div (.fin n a e false) (.fin m 0 f false) = (.inf (n != m), flagDZ)
      ∧ (Ext.div (.inf n) (.fin m b f false)).1 = .inf (n != m) ∧ (Ext.div (.fin n a e false) (.inf m)).1 = .fin (n != m) 0 0 false)
  ∧ (∀ (s : Machine.State) (o : XIDiv) (x y : VWord), s.Calm → s.srcV o.a = .ok x → s.srcV o.b = .ok y →
      let g := s.guard o.pg
      let bits := if o.wd then 64 else tyBits o.ty
      let sg := tySigned o.ty
      let at_ := fun (v : VWord) (k : Nat) => readInt sg bits (v.extractLsb' (bits * k) bits).toNat
      let mask := if o.wd then wideMask 64 g else laneMask o.ty g
      let lands := fun (i : Instr) (f : Int → Int → Int) => ∃ r fl,
        exec i s = .next ((s.keepSr s.racc).writeV o.d o.nw r mask 20 fl).slotEnd
        ∧ ∀ k < 2048 / bits, g.getLsbD (bits * k / 8) = true → (r.extractLsb' (bits * k) bits).toNat = wrapInt bits (f (at_ x k) (at_ y k))
      let quotient := fun (a b : Int) =>
        if b = 0 then -1 else if sg = true ∧ a = -(2 ^ (bits - 1)) ∧ b = -1 then a else a.tdiv b
      let remainder := fun (a b : Int) =>
        if b = 0 then a else if sg = true ∧ a = -(2 ^ (bits - 1)) ∧ b = -1 then 0 else a.tmod b
      lands (.divs o) quotient ∧ lands (.divn o) quotient ∧ lands (.rems o) remainder ∧ lands (.remn o) remainder)

/-- R234 to R240: MAXEXP puts its scale bytes in flight with the scale latch at latency 3: 255 for a block with an enabled element that is
infinite or no number, 127 for one without a value other than zero, and otherwise the greatest exponent less the target's, biased by 127,
between 0 and 254. CVTQ converts by the latch as it stood at bundle entry, and raises scale latch when it holds nothing for its target;
every code of an element that is not enabled is zero, and, in a mode other than SR, that of an enabled element of a block with a scale is
the value under that scale, rounded once. CVT, CVTW and CVTN between floating types and CBDEC give each enabled element rounded once, at
latency 4; CBLD changes its codebook slot. A scale that is not a number is read as log entry 31 says, by the model's choice. -/
def Obligations.QuantisationResults : Prop :=
  ∀ (s : Machine.State) (m : XMaxexp) (q : VRed) (c : XCvt) (b : XCbdec) (k : Fin 8) (a : Src) (x : VWord) (w : Word), s.Calm →
    s.srcV m.a = .ok x → q.a = m.a → c.a = m.a → b.a = m.a → s.srcS a = .ok w →
    let held := s.iss.entry.scale
    (∃ sc : Word × RAcc,
      exec (.maxexp m) s = .next ((s.keepSr sc.2).fly ((s.keepSr sc.2).flight (some .v) m.d.val m.nw (sc.1.setWidth 2048) allLanes 3 sc.2.fl
        (some (encodeTy m.ty ++ BitVec.ofNat 2 m.tgt.val ++ BitVec.ofNat 2 m.blk.val ++ sc.1)) true)).slotEnd
      ∧ sc.2.sr = s.racc.sr
      ∧ (m.ty ∈ [Ty.f16, .bf16, .f32] →
        let n := 16 * 2 ^ m.blk.val
        let value := fun i => (tyF m.ty).decode (elem m.ty x i)
        let top := ([8, 15, 2, 6] : List Int).getD m.tgt.val 0
        ∀ j < lanes m.ty / n,
          let block := ((List.range n).map fun i => j * n + i).filter (enabled m.ty (s.guard m.pg))
          let byte := (sc.1.extractLsb' (8 * j) 8).toNat
          ((∃ i ∈ block, value i = .nan ∨ (value i).isInf = true) → byte = 255)
          ∧ ((∀ i ∈ block, (value i).isZero = true) → byte = 127)
          ∧ ∀ i ∈ block, (∀ h ∈ block, ∃ t r e, value h = .fin t r e false ∧ (r ≠ 0 → (value h).expOf ≤ (value i).expOf)) →
            (value i).isZero = false → (byte : Int) = max 0 (min 254 ((value i).expOf - top + 127))))
    ∧ (∀ src, encodeTy src = held.extractLsb' 68 4 → held.extractLsb' 68 4 ≠ 0 → q.ty = tgtTy (held.extractLsb' 66 2).toNat →
      ∃ r : VWord × RAcc, exec (.cvtq q) s = .next ((s.keepSr r.2).writeV q.d q.nw r.1 allLanes 4 r.2.fl).slotEnd
        ∧ ∀ i < lanes src, src ∈ [Ty.f16, .bf16, .f32] →
          let byte := (held.extractLsb' 0 64 >>> (8 * (i / (16 * 2 ^ (held.extractLsb' 64 2).toNat)))).toNat % 256
          let y := ((tyF src).decode (elem src x i)).scale (127 - byte)
          (enabled src (s.guard q.pg) i = false → (r.1.extractLsb' (tyBits q.ty * i) (tyBits q.ty)).toNat = 0)
          ∧ (enabled src (s.guard q.pg) i = true → byte ≠ 255 → q.rm ≠ .sr → ∀ f, tyFloat q.ty = some f →
            (r.1.extractLsb' (tyBits q.ty * i) (tyBits q.ty)).toNat = (roundF f q.rm y ⟨0, 0⟩).1 % 2 ^ tyBits q.ty))
    ∧ (held.extractLsb' 68 4 = 0 ∨ q.ty ≠ tgtTy (held.extractLsb' 66 2).toNat → exec (.cvtq q) s = .next (s.slotFault scaleLatchCond))
    ∧ (∃ (r : VWord) (mask : PWord) (acc : RAcc),
       let t := ((s.keepSr acc).writeV c.d c.nw r mask 4 acc.fl).slotEnd
       exec (.cvt c) s = .next t ∧ exec (.cvtw c) s = .next t ∧ exec (.cvtn c) s = .next t
       -- floating types of one count of elements, and a destination with fewer elements than the source
       ∧ ∀ (f h : FFmt) (rm : Rm), tyFloat c.src = some f → tyFloat c.ty = some h → encodeRm rm = BitVec.ofNat 3 c.mode.val → rm ≠ .sr →
         lanes c.ty ≤ lanes c.src → ∀ i < lanes c.ty, enabled c.ty (s.guard c.pg) i = true →
           elem c.ty r i = (roundF h rm (f.decode (elem c.src x (c.part.val * lanes c.ty + i))) ⟨0, 0⟩).1 % 2 ^ tyBits c.ty)
    ∧ (∃ r : VWord × RAcc, exec (.cbdec b) s = .next ((s.keepSr r.2).writeV b.d b.nw r.1 (laneMask b.ty (s.guard b.pg)) 4 r.2.fl).slotEnd
      ∧ (b.rm ≠ .sr → ∀ i < lanes b.ty, enabled b.ty (s.guard b.pg) i = true →
        elem b.ty r.1 i = (roundF (tyF b.ty) b.rm (latticeLane (s.myCore.codebook b.cb.val)
          (x.extractLsb' (16 * (b.part.val * lanes b.ty / 8 + i / 8)) 16) (i % 8)) ⟨0, 0⟩).1 % 2 ^ tyBits b.ty))
    ∧ exec (.cbld k a) s = .next (s.onMyCore fun y => { y with cbPut := some (k.val, w.setWidth 32) }).slotEnd

/-- R242 to R246: SHUF gives every byte lane the byte of its sources that the active bank's pattern names, or zero; PATLD writes an entry
of the inactive bank from two registers; PATSW exchanges the banks; VIDX counts. -/
def Obligations.ShuffleResults : Prop :=
  ∀ (s : Machine.State) (o : XShuf) (v : VTwo) (e : Fin 64) (a b : Src) (x y : VWord) (p q : Word), s.Calm → s.srcV o.a = .ok x →
    s.srcV o.b = .ok y → s.srcV a = .ok x → s.srcV b = .ok y → s.srcS v.a = .ok p → s.srcS v.b = .ok q → risingKeys s.myCore.pats = true →
    let pat := s.myCore.pattern o.entry.val
    (∃ r, exec (.shuf o) s = .next (s.writeV o.d o.nw r (laneMask o.ty (s.guard o.pg)) 3).slotEnd
      ∧ ∀ i < 256, r.extractLsb' (8 * i) 8 = if pat.getLsbD (10 * i + 9) then 0
          else (y ++ x : BitVec 4096).extractLsb' (8 * (pat.extractLsb' (10 * i) 9).toNat) 8)
    ∧ (∃ t : Machine.State, exec (.patld e a b) s = .next t.slotEnd
      ∧ (∀ i < 128, ({ t.myCore with bankSel := !s.myCore.bankSel }.pattern e.val).extractLsb' (10 * i) 10 = x.extractLsb' (16 * i) 10
        ∧ ({ t.myCore with bankSel := !s.myCore.bankSel }.pattern e.val).extractLsb' (10 * (128 + i)) 10 = y.extractLsb' (16 * i) 10)
      ∧ (∀ j < 64, t.myCore.pattern j = s.myCore.pattern j) ∧ t.me = s.me ∧ t.mem = s.mem)
    ∧ exec .patsw s = .next (s.onMyCore fun c => { c with bankSel := !c.bankSel }).slotEnd
    ∧ (∃ r, exec (.vidx v) s = .next (s.writeV v.d v.nw r (laneMask v.ty (s.guard v.pg)) 3).slotEnd
      ∧ ∀ k < lanes v.ty, elem v.ty r k = (p.toNat + k * q.toNat) % 2 ^ tyBits v.ty)

/-! ### The matrix unit -/

/-- R248 to R256, R261, R271: the matrix commands of a context that holds or has asked for the lease, or whose half of a shared
unit they name, are handed to the matrix unit with the slots and addresses they read; ACCRV takes a landing. R158, R269: ACCRD of
a context that may use the accumulator, into a local queue that is configured and takes appends: the slot at TAIL is reserved,
TAIL moves on, and the command carries the slot; the generator steps once under stochastic rounding. -/
def Obligations.MatrixCommands : Prop :=
  (∀ (s : Machine.State), s.Calm → s.Seated →
      let sends := fun (i : Instr) (P : Cmd → Prop) => ∃ t : Machine.State, exec i s = .next t.slotEnd ∧ s.Sends t .mat i P
        ∧ t.mem = s.mem ∧ t.myCore.spm = s.myCore.spm ∧ t.me.s = s.me.s ∧ t.me.v = s.me.v ∧ t.me.flights = s.me.flights
      let slot := fun (d : MDesc) (r : Option SlotRef) =>
        r = if d.rem then none else some ⟨s.myUnit, d.queue.val, (s.iss.entry.queue d.queue.val).head + BitVec.ofNat 16 d.off.val⟩
      let usable := fun (d : MDesc) => d.rem = true
        ∨ ((s.iss.entry.queue d.queue.val).cfg = true ∧ (s.iss.entry.queue d.queue.val).spo = false)
      (∀ w, s.myCore.mat.share = false → s.MayUse [] → sends (.tcfg w) fun _ => True)
      ∧ (∀ o : MmaOp, s.MayUse [o.acc.val] → usable o.da → usable o.db →
        sends (.mma o) fun c => slot o.da c.srcA ∧ slot o.db c.srcB)
      ∧ (∀ o : PmmaOp, s.MayUse (if o.role then [] else [o.acc.val]) → usable o.da → usable o.db →
        ∀ x p, s.unit s.myUnit = some x → x.partner = some p →
        sends (.pmma o) fun c => slot o.da c.srcA ∧ slot o.db c.srcB ∧ c.index = x.pairs)
      ∧ (∀ mask, s.MayUse (maskAccs mask) → sends (.accz mask) fun _ => True)
      ∧ (∀ o : AccrvOp, s.MayUse [o.acc.val] → sends (.accrv o) fun c => c.land.isSome = true)
      ∧ (∀ o : AccwrOp, s.MayUse [o.acc.val] → (s.iss.entry.queue o.q.val).cfg = true → (s.iss.entry.queue o.q.val).spo = false →
        sends (.accwr o) fun c => slot ⟨false, 0, o.q, o.off, o.pop, 0⟩ c.srcA)
      ∧ (∀ (o : AccsaveOp) (a : Word) (n : Nat), s.MayUse [o.acc.val] → s.srcS o.a = .ok a → imageAddr a o.imm = .ok n →
        sends (.accsave o) fun c => c.a = BitVec.ofNat 64 n)
      ∧ (∀ (o : AccrestOp) (a : Word) (n : Nat), s.MayUse [o.acc.val] → s.srcS o.a = .ok a → imageAddr a o.imm = .ok n →
        (o.cfg = true → s.myCore.mat.share = true) → sends (.accrest o) fun c => c.a = BitVec.ofNat 64 n))
  ∧ (∀ (s : Machine.State) (o : AccrdOp), s.Calm → s.Seated → s.MayUse [o.acc.val] →
      s.iss.entry.queue o.q.val = s.me.queue o.q.val →
      let y := s.me.queue o.q.val
      y.cfg = true → y.spi = false → y.spo = false → y.ref = 0 → y.opn = false →
      ∃ t : Machine.State, exec (.accrd o) s = .next t.slotEnd
        ∧ s.Sends t .mat (.accrd o) (fun c => c.ctr = y.tail ∧ c.splice = none
          ∧ c.seed = if o.rm = .sr then srStep (s.me.csr.srstate.setWidth 32) else s.me.csr.srstate.setWidth 32)
        ∧ t.me.queue o.q.val = { y with tail := y.tail + 1 } ∧ t.mem = s.mem ∧ t.myCore.spm = s.myCore.spm)

/-- R256, R271: LEASE enters a request, unless the context holds the lease or has asked already; UNLEASE gives up the lease or the
request; both raise matrix mode while the unit is shared. Commands of a context that has neither are refused. -/
def Obligations.LeaseResults : Prop :=
  ∀ (s : Machine.State), s.Calm →
    let x := s.myCore.mat
    let k := s.iss.ctx
    (x.share = false → x.holder ≠ some k → k ∉ x.requests →
      exec .lease s = .next (s.onMyCore fun y => { y with mat := { y.mat with requests := y.mat.requests ++ [k] } }).slotEnd)
    ∧ (x.share = false → x.holder = some k ∨ k ∈ x.requests → exec .lease s = .next s.slotEnd)
    ∧ (x.share = false → ∃ t : Machine.State, exec .unlease s = .next t.slotEnd
      ∧ t.myCore.mat.holder = (if x.holder = some k then none else x.holder) ∧ t.myCore.mat.requests = x.requests.filter (· ≠ k)
      ∧ t.me = s.me ∧ t.mem = s.mem)
    ∧ (x.share = true → exec .lease s = .next (s.slotFault matrixMode) ∧ exec .unlease s = .next (s.slotFault matrixMode))
    ∧ (x.share = false → x.holder ≠ some k → k ∉ x.requests → ∀ o, exec (.mma o) s = .next (s.slotFault noLease))

/-! ### Operand queues -/

/-- R168: QCFG of an idle queue sets its shape and empties it; a queue in use raises queue busy, a bad shape queue configuration. -/
def Obligations.QueueConfiguration : Prop :=
  ∀ (s : Machine.State) (o : QcfgOp) (a : Word), s.Calm → s.iss.ctx < 4 → s.srcS o.a = .ok a →
    let y := s.iss.entry.queue o.q.val
    let base := o.base256.toNat * 256 + a.toNat
    let busy := y.spo = true ∨ y.spi = true ∨ y.opn = true ∨ y.ref ≠ 0 ∨ (y.cfg = true ∧ y.tail ≠ y.free)
    let fits := base % 256 = 0 ∧ base + 2 ^ o.log2n.toNat * (o.slotsz.toNat + 1) * 256 ≤ 3145728 ∧ o.log2n.toNat ≤ 8
    (¬busy → fits → ∃ t : Machine.State, exec (.qcfg o) s = .next t.slotEnd
      ∧ (let z := t.me.queue o.q.val
         z.cfg = true ∧ z.base.toNat = base ∧ z.slotsz = o.slotsz ∧ z.log2n = o.log2n ∧ z.rx = o.rx
         ∧ z.head = 0 ∧ z.free = 0 ∧ z.tail = 0 ∧ z.pres = 0 ∧ z.tags = 0 ∧ z.fill = 0)
      ∧ (∀ q, q ≠ o.q.val → t.me.queue q = s.me.queue q) ∧ t.me.s = s.me.s ∧ t.myCore.spm = s.myCore.spm ∧ t.mem = s.mem)
    ∧ (busy → exec (.qcfg o) s = .next (s.slotFault queueBusy))
    ∧ (¬busy → ¬fits → exec (.qcfg o) s = .next (s.slotFault (queueConfiguration 4)))

/-- R159, R164, R169, R170: QPOP moves HEAD on and reclaims; QRD puts a row of the slot at a head offset in flight at latency 8,
without a latch, and may pop it. A queue that is not configured, or that sends to another, raises its condition. R159: reclaiming
never passes HEAD, frees only slots that are present and not being read, and clears their presence only. The order of causes and the
checks with SPO are the model's readings (log entry 30). -/
def Obligations.QueueReads : Prop :=
  (∀ (s : Machine.State) (q : Fin 16) (n : BitVec 8) (o : QrdOp) (a : Word), s.Calm → o.q = q → s.srcS o.a = .ok a →
      let y := s.iss.entry.queue q.val
      let row := a.toNat + o.row.toNat
      let ctr := y.head + BitVec.ofNat 16 o.k.val
      (y.cfg = true → y.spo = false →
        exec (.qpop q n) s = .next ((s.onMe fun x => x.setQueue q.val
          { x.queue q.val with head := (x.queue q.val).head + BitVec.ofNat 16 (n.toNat + 1) }).reclaim s.myUnit q.val).slotEnd
        ∧ (row ≤ y.slotsz.toNat → s.myCore.bad = [] →
            let t := s.writeNoLatch .v o.d.val (bytesV (s.myCore.loadBytes
              (y.base.toNat + ctr.toNat % 2 ^ y.log2n.toNat * ((y.slotsz.toNat + 1) * 256) + 256 * row) 256)) 8
            exec (.qrd o) s = .next (if o.pop then t.popQueue q.val 1 else t).slotEnd)
        ∧ (y.slotsz.toNat < row → exec (.qrd o) s = .next (s.slotFault rowRange)))
      ∧ (y.cfg = false → ∀ i ∈ [Instr.qpop q n, .qrd o], exec i s = .next (s.slotFault (queueConfiguration 4)))
      ∧ (y.cfg = true → y.spo = true → ∀ i ∈ [Instr.qpop q n, .qrd o], exec i s = .next (s.slotFault splicedQueue)))
  ∧ (∀ (q : Queue) (held : BitVec 16 → Bool) (n : Nat),
      let r := q.reclaim held n
      r = { q with free := r.free, pres := r.pres }
      ∧ (q.free - q.head ≠ 0 → (q.head - r.free).toNat + (r.free - q.free).toNat = (q.head - q.free).toNat)
      ∧ (∀ k < (r.free - q.free).toNat, held (q.free + BitVec.ofNat 16 k) = false)
      ∧ (q.free = q.head → r = q))


/-- R158, R164, R171: QWR into a queue without splices. With OPEN it reserves the slot at TAIL, and otherwise it writes the open
one; the row goes to the slot, and with CLOSE the slot becomes present with its tag. R222, R223: VCPUSH appends the enabled
elements to slots of 256 bytes; VCPOP puts elements of the slot at a head offset in flight at latency 8 and may pop it. The checks
come before: configuration, open slot, splice, refusal. -/
def Obligations.QueueWrites : Prop :=
  (∀ (s : Machine.State) (o : QwrOp) (a : Word) (v : VWord), s.Calm → s.srcS o.a = .ok a → s.srcV o.b = .ok v →
      s.iss.entry.queue o.q.val = s.me.queue o.q.val → s.iss.ctx < 4 →
      let q := o.q.val
      let y := s.me.queue q
      let row := a.toNat + o.row.toNat
      y.cfg = true → y.spi = false → y.spo = false → y.ref = 0 →
      (y.opn = !o.o → y.opn = true → y.okind = false → row ≤ y.slotsz.toNat →
        exec (.qwr o) s = .next ((s.onMe fun x => x.setQueue q { x.queue q with opn := !o.c, okind := false }).appendBytes q (y.tail - 1, none)
          (256 * row) (vbytes v) o.c o.tag.toNat).slotEnd)
      ∧ (y.opn = false → o.o = true → row ≤ y.slotsz.toNat → ∃ t : Machine.State,
        exec (.qwr o) s = .next (t.appendBytes q (y.tail, none) (256 * row) (vbytes v) o.c o.tag.toNat).slotEnd
        ∧ t.me.queue q = { y with tail := y.tail + 1, opn := !o.c, okind := false } ∧ t.mem = s.mem ∧ t.myCore.spm = s.myCore.spm)
      ∧ (y.opn = o.o ∨ (y.opn = true ∧ y.okind = true) → exec (.qwr o) s = .next (s.slotFault openSlot)))
  ∧ (∀ (s : Machine.State) (o : VPushOp) (p : VPopOp) (v : VWord) (e : Word), s.Calm → p.q = o.q → s.srcV o.a = .ok v → s.srcS p.a = .ok e →
      let q := o.q.val
      let y := s.iss.entry.queue q
      (y.cfg = true → y.slotsz = 0 → (y.opn = true → y.okind = true) → y.ref = 0 →
        (y.spi = false → exec (.vcpush o) s = .next (s.pushBytes q (pushTag o.ty) o.flush (compact o.ty (s.guard o.pg) v) 3).slotEnd)
        ∧ (y.spo = false → s.myCore.bad = [] →
            let t := s.writeV p.d p.nw (expandV p.ty e.toNat
              (bytesV (s.myCore.loadBytes (y.slotAddr (y.head + BitVec.ofNat 16 p.k.val)) 256)) (s.guard p.pg)) (laneMask p.ty (s.guard p.pg)) 8
            exec (.vcpop p) s = .next (if p.pop then t.popQueue q 1 else t).slotEnd))
      ∧ (y.cfg = false ∨ y.slotsz ≠ 0 → ∀ i ∈ [Instr.vcpush o, .vcpop p], exec i s = .next (s.slotFault (queueConfiguration 4)))
      ∧ (y.cfg = true → y.slotsz = 0 → y.opn = true → y.okind = false →
          ∀ i ∈ [Instr.vcpush o, .vcpop p], exec i s = .next (s.slotFault openSlot)))

/-- R161, R165, R172 to R174: QSPL asks for a splice of an empty queue; QUNS ends one; QSAVE stores the queue's image, QREST takes
one, and QSTAT stores its status word. R173: the image of a configured queue without splices, whose counters and presence agree,
is read back as the queue. -/
def Obligations.QueueControl : Prop :=
  (∀ (s : Machine.State) (o : QMemOp) (a : Word) (addr : Nat), s.Calm → s.Seated → s.srcS o.a = .ok a →
      (a.toNat : Int) + o.imm.toInt = addr →
      let q := o.q.val
      let y := s.iss.entry.queue q
      let store := fun (b : List Byte) => Host.Outcome.next (s.onMyCore fun x => x.storeBytes addr b).slotEnd
      (y.cfg = true → y.spo = false → y.spi = false → y.opn = false → y.head = y.free → y.free = y.tail →
        ∃ t : Machine.State, exec (.qspl o.q o.a) s = .next t.slotEnd
          ∧ t.me.queue q = { s.me.queue q with sptgt := a.setWidth 15, ref := 0 }
          ∧ (∃ x z, s.unit s.myUnit = some x ∧ t.unit s.myUnit = some z ∧ z.asking = x.asking ++ [q] ∧ z.deliveries = x.deliveries + 1)
          ∧ (∃ w, t.agenda = s.agenda ++ [(w, .spliceRequestArrive ⟨s.myUnit, q, s.iss.core⟩ a y.slotsz)] ∧ s.now + 2 ≤ w))
      ∧ (y.spo = false → (∀ x, s.unit s.myUnit = some x → x.spliceOut = []) →
          exec (.quns o.q) s = .next (s.onMe fun x => x.setQueue q { x.queue q with spo := false, ref := 0 }).slotEnd)
      ∧ (addr % 256 = 0 → addr + 256 ≤ 3145728 → (s.me.queue q).cfg = true → (s.me.queue q).free = (s.me.queue q).head →
          exec (.qsave o) s = store (s.me.queue q).image)
      ∧ (addr % 8 = 0 → addr + 8 ≤ 3145728 → exec (.qstat o) s = store (leBytes (s.me.queue q).status 8))
      ∧ (addr % 256 = 0 → addr + 256 ≤ 3145728 → y.head = y.free → y.free = y.tail → y.spo = false → y.spi = false → y.opn = false →
          s.myCore.bad = [] → ∀ z, queueOfImage (s.myCore.loadBytes addr 256) = some z →
          exec (.qrest o) s = .next (s.onMe fun x => x.setQueue q z).slotEnd))
  ∧ (∀ (q : Queue), q.cfg = true → q.log2n.toNat ≤ 8 → q.base.toNat % 256 = 0 → q.base.toNat + q.slots * q.slotBytes ≤ 3145728 →
      (q.tail - q.head).toNat ≤ q.slots → q.free = q.head → (q.fill = 0 ∨ (q.opn = true ∧ q.okind = true)) →
      (∀ i < 256, q.pres.getLsbD i = true → ∃ k < (q.tail - q.head).toNat, i = q.slotOf (q.head + BitVec.ofNat 16 k)) →
      q.spo = false → q.spi = false → q.ref = 0 → queueOfImage q.image = some q)



/-! ### Tags, copies, the integrator, streams and collectives -/

/-- R297, R298: TLOOK puts the index of a key, or all ones, in flight to its destination at latency 1, without a latch; TINS puts a key at an index, away from
any other; TINV removes a key, or what an index holds. R158, R300 to R304: the copy loads reserve the slot at TAIL of a queue that
takes appends and hand the copy engine their operands; CPST holds its source slot and may pop it; CPMEM names two ranges that do
not overlap. Sums of addresses modulo 2^64 are the model's reading (log entry 29). -/
def Obligations.TagsAndCopies : Prop :=
  (∀ (s : Machine.State) (d : Fin 32) (a b : Src) (k i : Word), s.Calm → s.srcS a = .ok k → s.srcS b = .ok i →
      risingKeys s.myCore.tags = true → (∀ x ∈ s.myCore.tags, x.1 < 1024) → s.iss.ctx < 4 →
      (∃ w : Word, exec (.tlook d a) s = .next (s.writeNoLatch .s d.val (w.setWidth 2048) 1).slotEnd
        ∧ ((w.toNat, k) ∈ s.myCore.tags ∨ (w = BitVec.allOnes 64 ∧ ∀ n, (n, k) ∉ s.myCore.tags)))
      ∧ (i.toNat < 1024 → ∃ t : Machine.State, exec (.tins a b) s = .next t.slotEnd
        ∧ ∀ n, find t.myCore.tags n = if n = i.toNat then some k else (find s.myCore.tags n).filter (· ≠ k))
      ∧ (1024 ≤ i.toNat → exec (.tins a b) s = .next (s.slotFault tagRange) ∧ exec (.tinv b true) s = .next (s.slotFault tagRange))
      ∧ (∃ t : Machine.State, exec (.tinv a false) s = .next t.slotEnd ∧ ∀ n, find t.myCore.tags n = (find s.myCore.tags n).filter (· ≠ k))
      ∧ (i.toNat < 1024 → ∃ t : Machine.State, exec (.tinv b true) s = .next t.slotEnd
        ∧ ∀ n, find t.myCore.tags n = if n = i.toNat then none else find s.myCore.tags n))
  ∧ (∀ (s : Machine.State) (q : Fin 16) (ra rb rc : Src) (a b c : Word) (d : CopyDesc), s.Calm → s.Seated → s.srcS ra = .ok a → s.srcS rb = .ok b →
      s.srcS rc = .ok c → s.iss.entry.queue q.val = s.me.queue q.val →
      let y := s.me.queue q.val
      let rowb := (b.extractLsb' 0 17).toNat
      (d = ⟨(b.extractLsb' 25 39).toInt, (b.extractLsb' 17 8).toNat + 1, rowb⟩ → 0 < rowb → rowb ≤ 65536 → d.rows * d.rowb ≤ y.slotBytes →
        y.cfg = true → y.spo = false →
        (y.spi = false → y.ref = 0 → ∀ (tag : BitVec 6),
          ∀ i ∈ [Instr.cpld ⟨q, ra, rb⟩, .cpll ⟨q, ra, rb, tag⟩, .cpga ⟨q, ra, rb, rc⟩],
            (i = .cpga ⟨q, ra, rb, rc⟩ → c.toNat % 4 = 0 ∧ c.toNat + 4 * d.rows ≤ 3145728) →
            (i = .cpll ⟨q, ra, rb, tag⟩ → (s.cpllRows s.iss.core a d).isOk = true) →
            ∃ t : Machine.State, exec i s = .next t.slotEnd
              ∧ s.Sends t .cpy i (fun z => z.a = a ∧ z.b = b ∧ z.ctr = y.tail ∧ z.splice = none)
              ∧ t.me.queue q.val = { y with tail := y.tail + 1 } ∧ t.mem = s.mem ∧ t.myCore.spm = s.myCore.spm)
        ∧ (∀ k : Fin 16, ∃ t : Machine.State, exec (.cpst ⟨q, ra, rb, k, false⟩) s = .next t.slotEnd
              ∧ s.Sends t .cpy (.cpst ⟨q, ra, rb, k, false⟩) (fun z => z.a = a ∧ z.b = b ∧ z.ctr = y.head + BitVec.ofNat 16 k.val)
              ∧ (∀ x z, s.unit s.myUnit = some x → t.unit s.myUnit = some z →
                  z.qreads = x.qreads ++ [(q.val, y.head + BitVec.ofNat 16 k.val)])
              ∧ t.mem = s.mem ∧ t.myCore.spm = s.myCore.spm))
      ∧ (c.toNat < 2 ^ 40 → a.toNat + c.toNat ≤ b.toNat ∨ b.toNat + c.toNat ≤ a.toNat →
          ∃ t : Machine.State, exec (.cpmem ⟨ra, rb, rc, false, false⟩) s = .next t.slotEnd
            ∧ s.Sends t .cpy (.cpmem ⟨ra, rb, rc, false, false⟩) (fun z => z.a = a ∧ z.b = b ∧ z.c = c)
            ∧ t.mem = s.mem ∧ t.myCore.spm = s.myCore.spm)
      ∧ (2 ^ 40 ≤ c.toNat → ∀ ld ls, exec (.cpmem ⟨ra, rb, rc, ld, ls⟩) s = .next (s.slotFault copyShape)))


/-- R282, R286 to R293: an integrator command whose operands are in range claims the array for the unit, when no other unit has
it, and is handed to the array; a unit that does not hold it raises integrator busy. R158, R292: DCNT of cells in range into a
queue whose slots are large enough reserves the slot at TAIL. -/
def Obligations.IntegratorCommands : Prop :=
  (∀ (s : Machine.State) (ra rb : Src) (a b : Word) (v : VWord) (rv : Src), s.Calm → s.Seated → s.srcS ra = .ok a → s.srcS rb = .ok b →
      s.srcV rv = .ok v →
      let sends := fun (i : Instr) (P : Cmd → Prop) => (s.myCore.dda.owner = none ∨ s.myCore.dda.owner = some s.myUnit) →
        ∃ t : Machine.State, exec i s = .next t.slotEnd ∧ s.Sends t .dda i P ∧ t.myCore.dda = { s.myCore.dda with owner := some s.myUnit }
          ∧ t.mem = s.mem ∧ t.myCore.spm = s.myCore.spm ∧ t.me.s = s.me.s
      let at_ := fun (imm : BitVec 13) (align n x : Nat) => (a.toNat : Int) + imm.toInt = x ∧ x + n ≤ 3145728 ∧ x % align = 0
      (∀ n imm x, at_ imm 8 (8 * (n.toNat + 1)) x → sends (.dpatch ⟨ra, n, imm⟩) fun c => c.a = BitVec.ofNat 64 x)
      ∧ (∀ mask, a ≠ 0 → a.toNat ≤ 65536 → sends (.dclk mask ra) fun c => c.a = a)
      ∧ (∀ cell, a.toNat + cell.toNat < 512 →
          (∀ f ∈ [CellField.y, .res], -(2 ^ 31) ≤ b.toInt → b.toInt ≤ 2 ^ 31 - 1 →
            sends (.dset ⟨f, ra, cell, rb⟩) fun c => c.a = BitVec.ofNat 64 (a.toNat + cell.toNat) ∧ c.b = b)
          ∧ sends (.dset ⟨.cnt, ra, cell, rb⟩) fun c => c.a = BitVec.ofNat 64 (a.toNat + cell.toNat) ∧ c.b = b)
      ∧ sends (.dinj rv) (fun c => c.vec = v)
      ∧ (∀ mask, a.toNat < 2 ^ 32 → sends (.dstep mask ra) fun c => c.a = a)
      ∧ (∀ f cell imm x, at_ imm 256 256 x → cell.toNat ≤ 448 → sends (.dread ⟨f, ra, cell, imm⟩) fun c => c.a = BitVec.ofNat 64 x)
      ∧ (∀ imm rel x, at_ imm 256 16896 x → sends (.dsave ra imm rel) fun c => c.a = BitVec.ofNat 64 x)
      ∧ (∀ imm x, at_ imm 256 16896 x → sends (.dload ra imm) fun c => c.a = BitVec.ofNat 64 x)
      ∧ (∀ u, s.myCore.dda.owner = some u → u ≠ s.myUnit → exec (.dinj rv) s = .next (s.slotFault integratorBusy)))
  ∧ (∀ (s : Machine.State) (o : DcntOp), s.Calm → s.Seated → s.iss.entry.queue o.q.val = s.me.queue o.q.val →
      (s.myCore.dda.owner = none ∨ s.myCore.dda.owner = some s.myUnit) →
      let y := s.me.queue o.q.val
      o.cell.toNat + 64 * (o.rows.val + 1) ≤ 512 → y.cfg = true → y.spi = false → y.spo = false → y.ref = 0 → y.opn = false →
      o.rows.val + 1 ≤ y.slotsz.toNat + 1 →
      ∃ t : Machine.State, exec (.dcnt o) s = .next t.slotEnd
        ∧ s.Sends t .dda (.dcnt o) (fun c => c.ctr = y.tail ∧ c.splice = none)
        ∧ t.me.queue o.q.val = { y with tail := y.tail + 1 } ∧ t.mem = s.mem ∧ t.myCore.spm = s.myCore.spm)

/-- R308 to R310: the stream operations of a static context. SDRV puts a word on the next position of its row, STAP lands the word
at the core's position, and STAPQ appends it to a queue; another context raises stream context. R118, R343, R355: COLL and CQRY
hand the collective engine their operands; NOP completes its bundle with its wait cycles. -/
def Obligations.StreamAndCollectiveResults : Prop :=
  (∀ (s : Machine.State) (west : Bool) (str : Fin 8) (b : Src) (d : Fin 32) (q : Fin 16) (tag : BitVec 6) (v w : VWord), s.Calm → s.Seated →
      s.srcV b = .ok v → s.iss.entry.queue q.val = s.me.queue q.val →
      let col := s.iss.core % 16
      let y := s.me.queue q.val
      let mine := streamKey s.iss.core west str.val col
      (s.isStatic s.iss.core s.iss.ctx = true →
        (if (if west then col = 0 else col = 15) then exec (.sdrv west str b) s = .next s.slotEnd
         else exec (.sdrv west str b) s = .next ({ s with drives := s.drives ++
           [⟨streamKey s.iss.core west str.val (if west then col - 1 else col + 1), v, s.iss.core, s.iss.ctx, s.iss.pc, s.iss.cc⟩] } :
             Machine.State).slotEnd)
        ∧ (find s.streams mine = some w → ∃ t : Machine.State, exec (.stap west str d) s = .next t.slotEnd
            ∧ (∃ x z l, s.unit s.myUnit = some x ∧ t.unit s.myUnit = some z ∧ z.landings.map (·.id) = x.landings.map (·.id) ++ [x.nextLand]
              ∧ l ∈ z.landings ∧ l.id = x.nextLand ∧ l.cls = .v ∧ l.num = d.val ∧ l.ready = some (w, allLanes, 0))
            ∧ t.me = s.me ∧ t.mem = s.mem)
        ∧ (find s.streams mine = some w → y.cfg = true → y.slotsz = 0 → y.spi = false → y.spo = false → y.ref = 0 → y.opn = false →
            exec (.stapq west str q tag) s = .next ((s.onMe fun x => x.setQueue q.val { y with tail := y.tail + 1 }).appendBytes q.val
              (y.tail, none) 0 (vbytes w) true tag.toNat).slotEnd))
      ∧ (s.isStatic s.iss.core s.iss.ctx = false →
          ∀ i ∈ [Instr.sdrv west str b, .stap west str d, .stapq west str q tag], exec i s = .next (s.slotFault streamContext)))
  ∧ (∀ (s : Machine.State) (ra rb : Src) (a b : Word) (imm : BitVec 13) (x : Nat), s.Calm → s.Seated → s.srcS ra = .ok a → s.srcS rb = .ok b →
      (∃ t : Machine.State, exec (.coll ra rb) s = .next t.slotEnd ∧ s.Sends t .col (.coll ra rb) (fun c => c.a = a ∧ c.b = b)
        ∧ t.mem = s.mem ∧ t.myCore.spm = s.myCore.spm ∧ t.me.s = s.me.s)
      ∧ ((a.toNat : Int) + imm.toInt = x → x + 16 ≤ 3145728 → x % 16 = 0 →
        ∃ t : Machine.State, exec (.cqry ra imm rb) s = .next t.slotEnd
          ∧ s.Sends t .col (.cqry ra imm rb) (fun c => c.a = BitVec.ofNat 64 x ∧ c.b = b)
          ∧ t.mem = s.mem ∧ t.myCore.spm = s.myCore.spm ∧ t.me.s = s.me.s)
      ∧ (∀ wt dp st, exec (.nop wt dp st) s = .next ({ s with iss := { s.iss with wt, dp, st } } : Machine.State).completeBundle))

/-! ### What the device does by itself -/

/-- R32, R123, R138, R184, R207: a write in flight that is due lands: the register takes the enabled byte lanes of the value and keeps its
others, its flags are added, and the latch of its slot takes the register when its issue group is current; s0 and p0 keep reading as
they do, and no other register changes. A write that is not due stays. The moment of landing while the context waits is the model's
reading (log entry 22). -/
def Obligations.FixedLatencyLands : Prop :=
  (∀ (s : Machine.State) (c k : Nat) (f : Flight) (cls : RegCls), k < 4 → (s.ctx c k).flights = [f] → f.due ≤ (s.ctx c k).cc → f.cls = some cls →
    f.num < (if cls = .p then 16 else 32) →
    let x := s.ctx c k
    let whole := merge (x.readReg cls f.num) f.value f.enables
    ∃ t : Machine.State, exec (.fixedLatencyLand c k) s = .next t ∧ t.mem = s.mem ∧ (∀ d, d ≠ c → t.core d = s.core d)
      ∧ (∀ j, j ≠ k → t.ctx c j = s.ctx c j) ∧ (t.core c).spm = (s.core c).spm
      ∧ (let y := t.ctx c k
         y.flights = [] ∧ y.csr.fpflags = x.csr.fpflags ||| f.flags.setWidth 64
         ∧ y.scale = f.scale.getD x.scale
         ∧ (∀ d n, ¬(d = cls ∧ n = f.num) → y.readReg d n = x.readReg d n)
         ∧ (f.nw = true ∨ (f.num = 0 ∧ cls ≠ .v) → y.readReg cls f.num = x.readReg cls f.num)
         ∧ (f.nw = false → f.num ≠ 0 ∨ cls = .v → cls = .v → y.readV f.num = whole)
         ∧ (f.nw = false → f.num ≠ 0 → cls = .s → y.readS f.num = whole.setWidth 64)
         ∧ (f.nw = false → f.num ≠ 0 → cls = .p → y.readP f.num = whole.setWidth 256)
         ∧ (∀ i l, slotLatch f.slot = some i → x.latches[i]? = some l → f.latch = true → f.group = x.group → l.valid = false →
             y.latches[i]? = some ⟨true, cls, whole, f.stamp⟩)
         ∧ (∀ i, slotLatch f.slot ≠ some i ∨ f.latch = false ∨ f.group ≠ x.group → y.latches[i]? = x.latches[i]?)))
  ∧ (∀ (s : Machine.State) (c k : Nat), k < 4 → (∀ f ∈ (s.ctx c k).flights, (s.ctx c k).cc < f.due) →
    ∃ t : Machine.State, exec (.fixedLatencyLand c k) s = .next t ∧ t.ctx c k = s.ctx c k ∧ t.mem = s.mem)
  ∧ (∀ (old new : VWord) (m : PWord), ∀ i < 256,
      (merge old new m).extractLsb' (8 * i) 8 = if m.getLsbD i then new.extractLsb' (8 * i) 8 else old.extractLsb' (8 * i) 8)

/-- R145, R315, R316, R338: landing buffers and LSU operations. A ready landing of no numbered operation writes its register and
goes; the ready landing of an engine's operation also completes the operation; a store performs what may perform and completes
when nothing is left. An operation that waits is started, a SPAWN that waits too. R91, R145: a numbered operation that completes
leaves its unit's records and its open numbers, and no other. That an access performs at one instant, after a free delay, is the model's
choice (log entries 8 and 26). -/
def Obligations.LsuEvents : Prop :=
  ((∀ (s : Machine.State) (u id : Nat) (l : Landing) (v : VWord) (en : PWord) (fl : Flags), s.landing u id = some l →
      l.ready = some (v, en, fl) → s.landBlocked u l = false → l.due ≤ s.now →
      (l.eng = none → exec (.landingBufferWrite u id) s = .next (s.writeLanding u l v en fl))
      ∧ (∀ e n, l.eng = some (e, n) → e ≠ .lsu → exec (.landingBufferWrite u id) s = .next ((s.writeLanding u l v en fl).finish u e n)))
    ∧ (∀ (s : Machine.State) (u n : Nat) (x : Machine.Unit) (c : Cmd), s.unit u = some x → x.cmd .lsu n = some c →
      (lsuReads c.op = false → exec (.storePerformAtHome u n) s = .next ((s.performReady u n).lsuSettle u n))
      ∧ (lsuReads c.op = false → c.stage = .taken → c.parts = [] → exec (.storePerformAtHome u n) s = .next (s.finish u .lsu n))
      ∧ (c.stage = .queued ∨ c.stage = .replay ∨ c.stage = .paged → exec (.lsuAccessStart u n) s = .next (s.lsuStart u n x c))
      ∧ (c.stage = .queued ∨ c.stage = .replay → c.due ≤ s.now → exec (.spawnComplete u n) s = .next (s.spawnStart u c))))
  ∧ (∀ (s : Machine.State) (u : Nat) (x : Machine.Unit) (e : Engine) (n : Nat), s.unit u = some x → (s.ctx x.core x.ctx).unit = some u → x.ctx < 4 →
      ∃ y, (s.finish u e n).unit u = some y
        ∧ (∀ c, c ∈ y.cmds ↔ c ∈ x.cmds ∧ ¬(c.eng = e ∧ c.n = n)) ∧ (∀ o, o ∈ y.open_ ↔ o ∈ x.open_ ∧ o ≠ (e, n))
        ∧ (s.finish u e n).mem = s.mem ∧ (∀ v, v ≠ u → (s.finish u e n).unit v = s.unit v))


/-- R248, R252, R263, R284, R299, R305: an engine starts the command that it may start next, begins its next slice, and completes one that
is done; the requests for a core's slices are served when their boundary has come, with the bytes that the slot then holds; the
integrator steps. R264, R265: the messages of a pair. A partial tile is kept for its pair, which may not have issued yet, and the owner
commits if it can; one of a pair that is over is dropped; a commit completes the partner's command; a partner that has waited past its limit
aborts both sides, and an abort stops this one. That a command has its effect when it is done is the model's choice (log entry 26). -/
def Obligations.EngineEvents : Prop :=
  (∀ (s : Machine.State) (c u n : Nat) (x : Machine.Unit) (z : Cmd), s.unit u = some x →
      (∀ st, s.matNext c st = some (.begin_ u z) → exec (.matCommandStart c st) s = .next (s.matBegin u x z))
      ∧ (∀ st, s.matNext c st = some (.start u z) → exec (.matCommandStart c st) s = .next (s.matStart u x z))
      ∧ (∀ id, (s.engineCmds c .mat).find? (fun p => decide (p.2.place = id)) = some (u, z) → s.matReady u x z = true →
          (z.stage = .effected → exec (.matCommandDone c id) s = .next (s.finish u .mat z.n))
          ∧ (z.stage ≠ .effected → isPmma z.op = false → ∃ t : Machine.State, exec (.matCommandDone c id) s = .next t
              ∧ (t = (s.matCatchUp x u z).matEffect u x z ∨ t = ((s.matCatchUp x u z).matEffect u x z).finish u .mat z.n)))
      ∧ (∀ st f, s.matNext c st = some (.slice u z) → z.fetch = some f →
          exec (.matCommandStart c st) s = .next (s.beginSlice u x z f))
      ∧ ((∀ r ∈ (s.core c).remote, s.now < r.due) →
          ∃ t : Machine.State, exec (.remoteSliceServe c) s = .next t ∧ t.core c = s.core c ∧ t.units = s.units)
      ∧ (∀ r w f b, (s.core c).remote = [r] → r.due ≤ s.now →
          (s.engineCmds r.core .mat).find? (fun p => decide (p.2.place = r.place) && decide (p.2.stage = .taken)) = some (w, z) →
          z.fetch = some f → s.sliceBytes z r.oper r.slice = .ok b →
          ∃ t : Machine.State, exec (.remoteSliceServe c) s = .next t ∧ (t.core c).remote = []
            ∧ t.units = (s.onCmd w .mat z.n fun y => { y with
                bound := y.bound ++ b, fetch := y.fetch.map fun f => { f with got := f.got ++ [(r.oper, r.slice)] } }).units)
      ∧ (s.copyNext c = some (u, z) → ∃ t : Machine.State, exec (.copyCommandStart c) s = .next t ∧ (t.core c).copyStarted = true
          ∧ t.free = s.free + 1 ∧ (∀ y, s.cmd u .cpy z.n = some y → ∃ w, t.cmd u .cpy z.n = some w ∧ w.stage = .taken ∧ w.op = y.op
            ∧ s.now + 1 ≤ w.due))
      ∧ (x.cmd .cpy n = some z → z.stage = .taken ∨ z.stage = .paged → exec (.copyCommandDone u n) s = .next (s.runCopy u x z))
      ∧ (s.ddaNext c = some (.finish u z) → exec (.ddaCommandExecute c) s = .next ((s.ddaEffect c u z).freeArray c))
      ∧ (s.ddaRuns c = true → ((s.core c).dda.step s.now).2 = [] → exec (.ddaDomainStep c) s =
          .next ((s.putDda c ((s.core c).dda.step s.now).1).completeSteps c false)))
  ∧ (∀ (s : Machine.State) (u idx : Nat) (x : Machine.Unit) (rows cols : Nat) (int : Bool) (tile : List (BitVec 32)), s.unit u = some x →
      ((x.pair idx).isSome = true ∨ x.pairs ≤ idx → exec (.pairPartialArrive u idx rows cols int tile) s =
        .next ((s.onUnit u fun y => { y with
          pairIn := y.pairIn.filter (fun p => !decide (p.1 = idx)) ++ [(idx, rows, cols, int, tile)] }).pairCommit u idx))
      ∧ (x.pair idx = none → idx < x.pairs → exec (.pairPartialArrive u idx rows cols int tile) s = .next s))
  ∧ (∀ (s : Machine.State) (u idx : Nat) (x : Machine.Unit) (z : Cmd), s.unit u = some x → x.pair idx = some z →
      exec (.pairCommitArrive u idx) s = .next ((s.matRelease z).finish u .mat z.n)
      ∧ (z.stage = .taken → z.limit ≠ 0 → z.limit ≤ s.now → (∀ p ∈ x.pairIn, p.1 ≠ idx) → (∀ a ∈ s.agenda, a.2 ≠ .pairCommitArrive u idx) →
          exec (.pairTimeout u idx) s = .next (s.pairBoth u idx pairTimeoutCond))
      ∧ (s.now < z.limit → exec (.pairTimeout u idx) s = .next s)
      ∧ exec (.pairAbortArrive u idx) s = .next (s.pairStop u idx pairAbort))


/-- R161 to R165: the messages of a splice. A request that is refused is answered with its reason; an answer opens the splice or records
the refusal; a header makes a slot of the target, a row fills it, a head report frees the sender's slots, an end marker ends the splice
at the target, and the end of the target ends it at the sender. The order of messages on the way back is the model's reading (log entry
30). -/
def Obligations.SpliceEvents : Prop :=
  ∀ (s : Machine.State) (snd tgt : QEnd) (x y : Machine.Unit), s.unit snd.unit = some x → s.unit tgt.unit = some y →
    x.ctx < 4 → y.ctx < 4 → (s.ctx x.core x.ctx).unit = some snd.unit → (s.ctx y.core y.ctx).unit = some tgt.unit →
    snd.queue < 16 → tgt.queue < 16 →
    let q := fun (t : Machine.State) (e : QEnd) => (t.bankOf e.unit).queue e.queue
    (∀ w sz r, s.judge snd w sz = .error r → ∃ (t : Machine.State) (at_ : Nat), exec (.spliceRequestArrive snd w sz) s = .next t
      ∧ t.agenda = s.agenda ++ [(at_, .spliceAnswerArrive snd none r 0 0 0)] ∧ t.units = s.units)
    ∧ (∀ w sz, s.judge snd w sz = .ok tgt → ∃ (t : Machine.State) (at_ : Nat), exec (.spliceRequestArrive snd w sz) s = .next t
      ∧ t.agenda = s.agenda ++ [(at_, .spliceAnswerArrive snd (some tgt) 0 (q s tgt).log2n (q s tgt).tail (q s tgt).free)]
      ∧ q t tgt = { q s tgt with spi := true })
    ∧ (∀ l tail free, ∃ t : Machine.State, exec (.spliceAnswerArrive snd (some tgt) 0 l tail free) s = .next t
      ∧ q t snd = { q s snd with spo := true, stail := tail, sfree := free, ref := 0 }
      ∧ (∀ z, t.unit snd.unit = some z → z.spliceOut = x.spliceOut ++ [(snd.queue, tgt, 2 ^ l.toNat)] ∧ z.deliveries = x.deliveries - 1))
    ∧ (∀ r l tail free, ∃ t : Machine.State, exec (.spliceAnswerArrive snd none r l tail free) s = .next t ∧ q t snd = { q s snd with ref := r })
    ∧ (∀ ctr, ∃ t : Machine.State, exec (.spliceHeaderArrive tgt ctr) s = .next t ∧ q t tgt = { q s tgt with tail := (q s tgt).tail + 1 }
      ∧ t.mem = s.mem)
    ∧ (∀ m : SpliceRow, m.tgt = tgt → m.close = false → m.eng = none → m.ack = true → ∃ t : Machine.State, exec (.spliceRowArrive m) s = .next t
      ∧ (t.core y.core).spm = (s.core y.core).spm.writeBytes ((q s tgt).slotAddr m.ctr + m.off) m.data ∧ q t tgt = q s tgt ∧ t.mem = s.mem)
    ∧ (∀ free, ∃ t : Machine.State, exec (.headReportArrive snd free) s = .next t ∧ q t snd = { q s snd with sfree := free } ∧ t.mem = s.mem)
    ∧ (∃ t : Machine.State, exec (.deliveryAckArrive snd.unit) s = .next t ∧ t.unit snd.unit = some { x with deliveries := x.deliveries - 1 })
    ∧ (∃ t : Machine.State, exec (.spliceEndMarkerArrive tgt) s = .next t ∧ q t tgt = { q s tgt with spi := false }
      ∧ (∀ z, t.unit tgt.unit = some z → z.spliceIn = y.spliceIn.filter fun e => decide (e.1 ≠ tgt.queue)))
    ∧ (∀ n, (snd.queue, tgt, n) ∈ x.spliceOut → ∃ t : Machine.State, exec (.spliceTargetEnd snd tgt) s = .next t
      ∧ q t snd = { q s snd with spo := false, ref := 7, opn := false, okind := false, fill := 0 })

/-- R343, R347, R349, R350: the messages of a collective record. When no record of the die has anything else to do, a start reads the record that may start next;
a request waits for a record to open, or is served block by block; a block that arrives settles its place, with its bytes or invalid, or
faults an exact record; a done is counted; a deadline that has passed settles every block of a lossy record and faults an exact one.
Delays are free values (log entry 8); readiness at each replay is the model's reading (log entry 36). -/
def Obligations.CollectiveEvents : Prop :=
  ∀ (s : Machine.State) (h : HalRec) (d : CollHdr), s.hal h.rid = some h →
    (s.collWaiting h.die = [] → (∀ g ∈ s.halyard, s.collWritable g = false ∧ ∀ e, g.hdr = some e → s.tellable g e = []) →
      s.collNext h.die = some h →
      exec (.collRecordStart h.die) s = .next ((s.onHal h.rid fun g => { g with stage := .running, started := s.now }).collRead
        { h with stage := .running, started := s.now }))
    ∧ (∀ r, r ∉ s.collHeld →
      (s.server r = none → s.servedOut r = false → exec (.collRequestArrive r) s = .next { s with collHeld := s.collHeld ++ [r] })
      ∧ (s.server r = some h → s.halMay h false = false → exec (.collRequestArrive r) s = .next { s with collHeld := s.collHeld ++ [r] })
      ∧ (s.server r = some h → s.halMay h false = true → canonical r.src = false →
        exec (.collRequestArrive r) s = .next ((List.range (r.bytes / 128)).foldl (fun s j => s.reply r j .notServed) s))
      ∧ (∀ l t, s.server r = some h → s.halMay h false = true → canonical r.src = true →
        s.paged ⟨.collRequestArrive r, .r, none⟩ h.die h.asid (va56 r.src) r.bytes 5 = (.ok l, t) →
        exec (.collRequestArrive r) s = .next ((List.range (r.bytes / 128)).foldl (fun s j => s.serveBlock h r l j) t)))
    ∧ (h.hdr = some d → h.stage = .running → h.fresh = true →
      (∀ b : CollBlock, b.rid = h.rid →
        let settles := fun (v : Option (List Byte)) =>
          let t := s.settle h.rid (b.xfer * d.nblk + b.blk) v
          ∃ g, t.hal h.rid = some g ∧ (find h.blocks (b.xfer * d.nblk + b.blk) = none → find g.blocks (b.xfer * d.nblk + b.blk) = some v)
            ∧ (t.collWritable g = false → exec (.collBlockArrive b) s = .next t)
            ∧ (t.collWritable g = true → exec (.collBlockArrive b) s = .next (t.collWrite g))
        (∀ data, b.fate = .good data → settles (some data))
        ∧ (b.fate = .notServed → d.lossy = true → settles none)
        ∧ (b.fate = .notServed → d.lossy = false → exec (.collBlockArrive b) s = .next (s.collFault h.rid collectivePeer)))
      ∧ (∀ die key rank, (s.halyard.find? fun h => decide (h.die = die) && decide (h.stage ≠ .complete) && h.answers key && !h.dones.contains rank) = some h →
        exec (.collDoneArrive die key rank) s = .next ((s.onHal h.rid fun h => { h with dones := h.dones ++ [rank] }).collComplete h.rid))
      ∧ (d.deadline ≠ 0 → h.started + d.deadline ≤ s.now →
        exec (.collDeadline h.die h.rid) s = .next (if d.lossy then s.expire h d else s.collFault h.rid collectiveDeadline)))
    ∧ (∀ die key rank, (∀ g ∈ s.halyard, g.die ≠ die) →
        exec (.collDoneArrive die key rank) s = .next { s with collDones := s.collDones ++ [(die, key, rank)] })

/-- R72 to R74, R76, R110: a walk that ends, when no other miss lies in the page it has found, installs its translation and lets the
operation go on; the host's answer lets the waiting operations walk again or fails them; a request that has waited for PRQTO cycles, as
PRQTO stands, fails them too, and one that has not waits on; the line of the sector that a fetch waits for is filled. R76: after an
invalidation no translation, no cached non-leaf entry and no cached instruction line of the range is left for an ASID with the PASID;
the completion is sent at once when no access has begun to perform, and otherwise is sent then or waits for such accesses. Delays, the
entry a full TLB gives up and the use of a cached non-leaf entry are free values (log entries 8, 10 and 24). -/
def Obligations.TranslationEvents : Prop :=
  ∀ (s : Machine.State),
    (∀ die id (w : Walk) (x : Waiter) e lv t, s.walks.find? (fun w => decide (w.die = die) && decide (w.id = id)) = some w → w.waiters = [x] →
      s.servedWalks w = [w] →
      (({ s with walks := s.walks.filter fun y => y != w } : Machine.State).serve x.retry w.page x.right).walkNow die w.asid w.page x.right
        = (.ok e lv, t) →
      exec (.tlbWalkDone die id) s = .next (((t.install x.core die 3 e).after 0 x.retry).startWalks die))
    ∧ (∀ asid page right (r : PageReq) t, s.takeRequest asid page right = (some r, t) →
      (∀ w, r.waiters = [w] → exec (.pageRequestResponse asid page right .success) s =
        .next (((t.countAnswer w.retry).unserve w.retry page).after 0 w.retry).sendRequests)
      ∧ (∀ ans, ans ≠ .success → exec (.pageRequestResponse asid page right ans) s = .next (t.failRequest r 10 0).sendRequests)
      ∧ (∀ since, r.sent = some since → (s.regs.prqto.extractLsb' 0 32).toNat ≠ 0 →
        since + (s.regs.prqto.extractLsb' 0 32).toNat ≤ s.now →
        exec (.pageRequestTimeout asid page right) s = .next (t.failRequest r 11 0).sendRequests))
    ∧ (∀ asid page right, s.regs.prqto.extractLsb' 0 32 = 0 ∨ (∀ r ∈ s.pageReqs, ∀ since, r.sent = some since →
        s.now < since + (s.regs.prqto.extractLsb' 0 32).toNat) → exec (.pageRequestTimeout asid page right) s = .next s)
    ∧ (∀ c k u va e lv t, k < 4 → (s.ctx c k).unit = some u → s.fetched c k = .missing va →
      let asid := (s.ctx c k).csr.asidcur.toNat
      s.access ⟨fetchEvent c u, .x, some c⟩ (dieOf c) asid va = (.ok e lv, t) →
      let v := (t.fillLine c (t.launchOf u) asid va e).forget (fetchEvent c u)
      ((v.core c).fetchByte asid va).isSome = true →
      exec (.ifetchFill c k) s = .next (v.onCtx c k fun y => { y with fetching := none }))
    ∧ (∀ (pasid : BitVec 20) (va bytes : Word), ∃ t : Machine.State, exec (.atsInvalidate pasid va bytes) s = .next t ∧ t.mem = s.mem
      ∧ ((∀ x ∈ s.units, ∀ c ∈ x.2.cmds, c.begun = false) → t.outs = s.outs ++ [.invalidated pasid])
      ∧ ((t.outs = s.outs ++ [.invalidated pasid] ∧ t.invals = s.invals)
        ∨ (t.outs = s.outs ∧ ∃ l, l ≠ [] ∧ t.invals = s.invals ++ [⟨some pasid, none, l⟩]))
      ∧ ∀ a ∈ s.asids, a.2.pasid = pasid →
        let stale := fun (e : TlbEntry) => e.asid = a.1 % 2048 ∧ overlaps e.va e.size (va56 va) bytes.toNat = true
        (∀ e ∈ t.nonLeaf, ¬(e.asid = a.1 % 2048 ∧ overlaps e.va e.size (va56 va) bytes.toNat = true))
        ∧ (∀ x ∈ t.dtlb, ∀ e ∈ x.2, ¬stale e) ∧ (∀ x ∈ t.ctlb, ∀ e ∈ x.2, ¬stale e) ∧ (∀ x ∈ t.cores, ∀ e ∈ x.2.utlb, ¬stale e)
        ∧ (∀ x ∈ t.cores, ∀ l ∈ x.2.icache, ¬(l.asid = a.1 % 2048 ∧ overlaps l.va 512 (va56 va) bytes.toNat = true)))

/-- R312: after a read or ownership request of a die the die holds the line; for ownership it owns the line and no other die holds it,
and for a read no other die owns it. R313: after a snoop of a host line no die holds its sector dirty, and after an invalidating one
none holds it at all; after the host's read of a line of the device the line is in the directory of what the host caches, and no die
owns it or holds a dirty sector of it. That the directories are derived from the lines the dies hold is the model's choice (log entry
28). -/
def Obligations.CoherenceEvents : Prop :=
  ∀ (s : Machine.State) (pa : Nat), risingKeys s.l2 = true →
    (∀ die own, die < 4 → ∃ t : Machine.State, exec (.l2LineRequest die pa own) s = .next t
      ∧ (∃ l, t.line die pa = some l ∧ (own = true → l.owned = true))
      ∧ (∀ d, d < 4 → d ≠ die → ∀ l, t.line d pa = some l → own = false ∧ l.owned = false))
    ∧ (∀ inv, (s.homeOf pa).isHost = true → ∃ t : Machine.State, exec (.hostSnoop pa inv) s = .next t
      ∧ ∀ d, d < 4 → ∀ l, t.line d pa = some l →
        l.dirty.getLsbD (pa % 512 / 128) = false ∧ (inv = true → l.valid.getLsbD (pa % 512 / 128) = false))
    ∧ (∀ (port : Fin 2) (w : Fin 2) (base : BitVec 22), find (s.ports[port]).hdm w.val = some base →
      (match s.homeOf pa with
        | .hbm .. => w = 0
        | .ddr .. => w = 1
        | .host _ => False) →
      ∃ t : Machine.State, exec (.hostHdmRead port pa) s = .next t ∧ pa / 512 ∈ t.hostBits
        ∧ ∀ d, d < 4 → ∀ l, t.line d pa = some l → l.owned = false ∧ l.dirty = 0)

/-- R103: when a unit first becomes resident, its context holds what the rule names, the PC is its function's entry, and the bank is
otherwise as the previous unit left it (R102). -/
def Obligations.FirstResidence : Prop :=
  ∀ (s : Machine.State) (c k u : Nat) (y : Machine.Unit) (l : Launch) (r : PRecord), k < 4 → s.refillDue c k = true →
    s.firstHead c k = some u → s.unit u = some y → y.saved = none → y.args.length ≤ 8 → find s.launches y.launch = some l → l.record = some r →
    ∃ t : Machine.State, exec (.runQueueEntryTaken c k) s = .next t
      ∧ (let x := t.ctx c k
         let old := s.ctx c k
         x.unit = some u ∧ x.pc = y.entry
         ∧ (∀ i w, y.args[i]? = some w → x.readS (i + 1) = w)
         ∧ x.readS 29 = y.gp ∧ x.readS 30 = BitVec.ofNat 64 (y.privOff + y.privSize)
         ∧ x.csr.stklim = BitVec.ofNat 64 y.privOff ∧ x.csr.asidcur = BitVec.ofNat 64 y.asid ∧ x.csr.uweight = y.weight
         ∧ x.csr.slice = BitVec.ofNat 64 r.slice ∧ x.csr.ytol = BitVec.ofNat 64 r.ytol ∧ x.csr.leasebudget = BitVec.ofNat 64 r.lbud
         ∧ (∀ n, y.args.length < n → n ≠ 29 → n ≠ 30 → x.readS n = old.readS n) ∧ x.v = old.v ∧ x.p = old.p
         ∧ x.csr.fpflags = old.csr.fpflags ∧ x.csr.srstate = old.csr.srstate)
      ∧ (∀ j, j ≠ k → t.ctx c j = s.ctx c j) ∧ (∀ d, d ≠ c → t.core d = s.core d) ∧ (t.core c).spm = (s.core c).spm ∧ t.mem = s.mem

/-- R375 to R384: the arbiter's events. At the end of a slice or at an overrun the first head is picked when switching is enabled; a drain
save or a forced save empties the context and keeps its bank for the unit, for as long as R384 says; then the picked unit becomes resident
with what its save area holds, and the outgoing one enters its queue. What enters a queue in a decision's own cycle joins after it. Readings of residence and saving that the model makes are those of log entry 33. -/
def Obligations.ArbiterEvents : Prop :=
  ∀ (s : Machine.State) (c k : Nat), k < 4 →
    let x := s.ctx c k
    (s.sliceDue c k = true →
      let reload := Host.Outcome.next (s.onCtx c k fun x => { x with sliceLeft := x.slice })
      (s.isStatic c k = true → exec (.sliceExpiry c k) s = reload)
      ∧ (s.isStatic c k = false → s.settled.firstHead c k = none ∨ s.switchable = false → exec (.sliceExpiry c k) s = reload)
      ∧ (∀ u, s.isStatic c k = false → s.settled.firstHead c k = some u → s.switchable = true → exec (.sliceExpiry c k) s =
          .next ((s.ageOthers c (some u)).onCtx c k fun x => { x with switch := some (s.now, some u), switchYield := false, expired := true })))
    ∧ (s.overrunDue c k = true →
      let t := (s.eventRecord c k (s.unitIdAt c k) 2 (x.ran s.now - x.overrunLimit)).onCtx c k fun x => { x with overrunSeen := true }
      (x.switch.isSome = true ∨ t.isStatic c k = true → exec (.yieldOverrun c k) s = .next t)
      ∧ (x.switch = none → t.isStatic c k = false → exec (.yieldOverrun c k) s = .next (t.pickHead c k false)))
    ∧ (∀ u y, x.unit = some u → s.unit u = some y →
      let saves := fun (i : Instr) (forced : Bool) => ∃ (t : Machine.State) (z : Machine.Unit) (v : Saved), exec i s = .next t
        ∧ (t.ctx c k).unit = none ∧ (t.ctx c k).saving = some u
        ∧ (t.ctx c k).moving = s.now + 2048 + (if v.acc = 0 then 0 else 4096) + (if v.dda.isSome then 640 else 0)
        ∧ t.unit u = some z ∧ z.saved = some v ∧ v.forced = forced ∧ v.bank = { x with yieldAt := x.ran s.now }
      (s.drainDue c k = true → saves (.drainSave c k) false) ∧ (s.forcedDue c k = true → saves (.forcedSave c k) true))
    ∧ (∀ u y v w b p, s.restoreDue c k = true → x.saving = some u → s.unit u = some y → x.switch = some (p, some v) → u ≠ v → s.unit v = some w →
      s.mayTake c k (v, w) = true → w.saved = some b → b.acc = 0 →
      let a := s.onCtx c k fun x => { x with saving := none, switch := none, switchYield := false }
      let t := a.makeResident c k v
      let r := (a.loadArea w b).1.bank
      exec (.unitRestore c k) s = .next (t.enterQueue u y.base)
      ∧ (t.ctx c k).unit = some v ∧ (t.ctx c k).s = r.s ∧ (t.ctx c k).v = r.v ∧ (t.ctx c k).p = r.p
      ∧ (t.ctx c k).pc = r.pc ∧ (t.ctx c k).csr = r.csr ∧ (t.ctx c k).queues = r.queues ∧ (t.ctx c k).cc = r.cc
      ∧ (t.ctx c k).flights = r.flights)

/-- R14, R91, R109, R147 to R150, R154, R364, R385: what happens to units and contexts otherwise. A bank that has served no unit for 4,096
cycles is retained, and one that wakes or is roused is on at its time; an asynchronous trap is taken for the first of its unit's; a
timing domain freezes and resumes, each cause of the freeze giving one record; a unit whose counts are recorded returns its weight and
goes. Readings that the model makes here are those of log entries 33 and 38. -/
def Obligations.UnitEvents : Prop :=
  ∀ (s : Machine.State) (c k : Nat), k < 4 →
    let x := s.ctx c k
    (x.bank = .on → x.unit = none → x.saving = none → x.idleSince + 4096 ≤ s.now →
      exec (.bankRetention c k) s = .next (s.onCtx c k fun x => { x with bank := .retained }))
    ∧ (∀ t, x.bank = .rousing t → t ≤ s.now → ∃ z : Machine.State, exec (.bankRouseDone c k) s = .next z ∧ (z.ctx c k).bank = .on
      ∧ z.ctx c k = { x with bank := .on })
    ∧ (∀ t, x.bank = .waking t → t ≤ s.now → exec (.bankWake c k) s = .next (s.onCtx c k fun x => { x with bank := .on, idleSince := s.now }))
    ∧ (∀ u a, s.asyncDue c k = true → x.unit = some u → ((s.unit u).bind fun y => firstAsync y.asyncs) = some a →
      let t := s.onUnit u fun y => { y with asyncs := y.asyncs.erase a }
      exec (.asyncTrap c k) s = .next ((t.takeTrap c k
          { cond := a.cond, trappc := a.pc, resume := x.pc, done := 0, bad := 0, snaps := [], async := some (a.eng, a.n),
            unchecked := (x.resume.map (·.unchecked)).getD 0 }).onCtx
        c k fun x => { x with busy := x.busy - 1 }))
    ∧ (∀ l y, find s.launches l = some y →
      let ends := fun (f : Freeze) => Host.Outcome.next
        ((f.causes.foldl (fun s g => s.deviation g.core 0 g.cause g.slot g.pc g.cc f.since (s.now - f.since) g.mute) s).onLaunch l
          fun z => { z with freeze := none })
      (s.freezeDue l y = true → s.freezeNext l y ≠ none ∨ y.freeze = none →
        exec (.domainFreeze l) s = .next (s.onLaunch l fun z => { z with freeze := s.freezeNext l y }))
      ∧ (∀ f, y.freeze = some f → s.freezeDue l y = true → s.freezeNext l y = none → exec (.domainFreeze l) s = ends f)
      ∧ (∀ f at_, y.freeze = some f → f.resumeAt = some at_ → at_ ≤ s.now → exec (.domainResume l) s = ends f))
    ∧ (∀ u y, s.unit u = some y →
      let z := { y with paged := false }
      let a := s.onUnit u fun y => { y with paged := false }
      let w := (a.weightOf u z).toNat
      (∀ t, y.life = .recorded → a.returnWeight (.unitRetire u) (dieOf y.core) y.launch w = (true, t) →
        exec (.unitRetire u) s = .next (t.retireRelease u z w))
      ∧ (∀ b t, y.life = .draining → y.quiet = true → y.cmds = [] → a.retireRecord u z = (true, b) → b.unit u = some z →
        let d := b.onUnit u fun y => { y with life := .recorded }
        let v := (d.weightOf u { z with life := .recorded }).toNat
        d.returnWeight (.unitRetire u) (dieOf y.core) y.launch v = (true, t) →
        exec (.unitRetire u) s = .next (t.retireRelease u { z with life := .recorded } v)))

/-- R79 to R81, R94, R96, R97, R336, R408, R409: the host's commands and the gangs' events. A tail or head index is kept; a command is consumed
and its completion written with its STATUS, or it completes later; what it starts, cancels, invalidates, arms or loads is done first, and an invalidation waits for the accesses that have begun to perform.
Statuses the spec does not name are the model's readings or free (log entry 36). -/
def Obligations.HostCommands : Prop :=
  (∀ (s : Machine.State) (port : Fin 2) (tag : BitVec 16) (st : Nat) (v w : Word),
    exec (.cqtail port v) s = .next (s.onPort port fun x => { x with cqtail := v.extractLsb' 0 16 })
    ∧ exec (.cplhead port v) s = .next ((s.onPort port fun x => { x with cplhead := v.extractLsb' 0 16 }).flush port)
    ∧ exec (.malformedCommand port tag) s = .next (s.answer port tag 1)
    ∧ ((s.port port).pending = [] → (s.port port).hasCommand = true → (s.port port).cplFull = false →
      let x := s.port port
      let y := (s.answer port tag st w).port port
      y.cqhead = BitVec.ofNat 16 ((x.cqhead.toNat + 1) % x.cqSize) ∧ y.cpltail = BitVec.ofNat 16 ((x.cpltail.toNat % x.cplSize + 1) % x.cplSize)
      ∧ y.pending = [] ∧ y.cqtail = x.cqtail ∧ y.cplhead = x.cplhead ∧ y.cqctl = x.cqctl ∧ y.cplctl = x.cplctl))
  ∧ (∀ (s : Machine.State) (port : Fin 2) (tag : BitVec 16) (asid : BitVec 11) (job va bytes rec_ : Word) (die : Fin 4) (level : Level) (reason : BitVec 16),
    exec (.submit port tag asid job die) s = .next ((s.addJob (Job.fresh port.val asid.toNat die.val job (.opening .job))).2.answer port tag 0)
    ∧ (∀ r, s.runningLevel asid.toNat level va = some r →
        exec (.cancel port tag asid level va reason) s = .next ((s.cancelRunning r reason.toNat).answer port tag 0))
    ∧ (s.runningLevel asid.toNat level va = none → (asid.toNat, level, va) ∈ s.ended → exec (.cancel port tag asid level va reason) s = .next (s.answer port tag 4))
    ∧ (s.runningLevel asid.toNat level va = none → (asid.toNat, level, va) ∉ s.ended → exec (.cancel port tag asid level va reason) s = .next (s.answer port tag 3))
    ∧ (∃ (t : Machine.State) (l : List (Nat × Nat)), exec (.asidinv port tag asid) s = .next (t.answerInval port tag l)
      ∧ ((∀ x ∈ s.units, ∀ c ∈ x.2.cmds, c.begun = false) → l = [])
      ∧ (∀ x ∈ t.asids, x.1 % 2048 ≠ asid.toNat) ∧ (∀ e ∈ t.nonLeaf, e.asid ≠ asid.toNat)
      ∧ (∀ x ∈ t.dtlb, ∀ e ∈ x.2, e.asid ≠ asid.toNat) ∧ (∀ x ∈ t.ctlb, ∀ e ∈ x.2, e.asid ≠ asid.toNat)
      ∧ (∀ x ∈ t.cores, (∀ e ∈ x.2.utlb, e.asid ≠ asid.toNat) ∧ ∀ l ∈ x.2.icache, l.asid ≠ asid.toNat) ∧ t.mem = s.mem ∧ t.ports = s.ports)
    ∧ (∃ (t : Machine.State) (l : List (Nat × Nat)), exec (.tlbinv port tag asid va bytes) s = .next (t.answerInval port tag l)
      ∧ ((∀ x ∈ s.units, ∀ c ∈ x.2.cmds, c.begun = false) → l = []) ∧ t.mem = s.mem ∧ t.ports = s.ports
      ∧ (let stale := fun (e : TlbEntry) => e.asid = asid.toNat ∧ overlaps e.va e.size (va56 va) bytes.toNat = true
         (∀ e ∈ t.nonLeaf, ¬(e.asid = asid.toNat ∧ overlaps e.va e.size (va56 va) bytes.toNat = true))
         ∧ (∀ x ∈ t.dtlb, ∀ e ∈ x.2, ¬stale e) ∧ (∀ x ∈ t.ctlb, ∀ e ∈ x.2, ¬stale e) ∧ (∀ x ∈ t.cores, ∀ e ∈ x.2.utlb, ¬stale e)
         ∧ ∀ x ∈ t.cores, ∀ l ∈ x.2.icache, ¬(l.asid = asid.toNat ∧ overlaps l.va 512 (va56 va) bytes.toNat = true)))
    ∧ s.answerInval port tag [] = s.answer port tag 0
    ∧ (∀ r rest, s.answerInval port tag (r :: rest) = { s.defer port tag s.nextKey with
        nextKey := s.nextKey + 1, invals := s.invals ++ [⟨none, some (port.val, s.nextKey), r :: rest⟩] })
    ∧ (let a := s.addJob { Job.fresh port.val asid.toNat die.val rec_ .armed with todo := [.gang rec_] }
       exec (.gangarm port tag rec_ asid die) s = .next (a.2.defer port tag a.1)))
  ∧ (∀ (s : Machine.State) (port : Fin 2) (tag : BitVec 16) (key : BitVec 7) (pa : Word),
    (s.holdsSem port = false → exec (.keyld port tag key pa) s = .next (s.answer port tag 2) ∧ exec (.keyclr port tag key) s = .next (s.answer port tag 2))
    ∧ (s.holdsSem port = true →
      let t := s.evictKey key.toNat
      exec (.keyld port tag key pa) s = .next ((t.setKey key.toNat (BitVec.ofNat 512 (leNat (t.peek pa.toNat 64)))).answer port tag 0)
      ∧ exec (.keyclr port tag key) s = .next ((t.setKey key.toNat 0).answer port tag 0)))
  ∧ (∀ (s : Machine.State) (port : Fin 2) (tag : BitVec 16) (gang : Word) (g : Gang) (j : Nat) (cause : BitVec 16), s.gangById gang = some g → g.job = some j →
    (g.armed.isSome = true → g.gone = false → exec (.ganggo port tag gang) s =
      .next (((s.onGang gang fun g => { g with gone := true }).onJob j fun x => { x with
        walking := .opening .job, begunJob := false, paged := false }).answer port tag 0))
    ∧ (g.gone = false → exec (.gangabort port tag gang) s = .next ((s.abortMember g gangTimeoutCond.code).answer port tag 0)
      ∧ exec (.gangCancelReceive gang cause) s = .next (s.abortMember g cause.toNat))
    ∧ (g.gone = true → exec (.gangabort port tag gang) s = .next (s.answer port tag 3)
      ∧ exec (.gangCancelReceive gang cause) s = .next (s.cancelJob j cause.toNat))
    ∧ (∀ t, g.armed = some t → g.gone = false → t + s.gangTimeout < s.now →
      exec (.gangArmTimeout gang) s = .next (s.abortMember g gangTimeoutCond.code))
    ∧ (∀ t, s.crossSince g = some t → t + s.gangTimeout < s.now → exec (.gangWaitTimeout gang) s =
      .next (((s.tellGang j gangTimeoutCond.code).gangFails j).onGang gang fun g => { g with waiting := none })))

/-- R77, R82 to R85, R413: the walker's nodes and the ends of levels. The walker stands at a node; a read, a write or a wait that the node
asks for is made, and the walker goes on where the node says. What records that cannot be read do is the model's reading (log entry 35). -/
def Obligations.WalkerNodes : Prop :=
  ∀ (s : Machine.State) (j : Nat) (x : Job), find s.jobs j = some x →
    (x.walking = .node →
      (∀ h vec, (∀ c ∈ x.copies, c.2.done = true) → exec (.hostirq j h vec) s = .next ((s.msix x.port vec.toNat).goTo j h.nxt))
      ∧ (∀ h vec, (∃ c ∈ x.copies, c.2.done = false) →
        exec (.hostirq j h vec) s = .next (s.onJob j fun x => { x with walking := .forIrq h.nxt vec.toNat }))
      ∧ (∀ h, exec (.phaseend j h) s = .next (s.onJob j fun x => { x with walking := .forGraph true }))
      ∧ (∀ (n : CondNode) w t, s.walkerWord (.condNode j n) x n.cond = (.ok w, t) →
        exec (.condNode j n) s = .next ((t.forget (.condNode j n)).goTo j (if w = 0 then n.hdr.nxt else n.taken)))
      ∧ (∀ (n : SignalNode) t, s.devUpdate (.signal j n) x.die x.asid n.target 8
          (fun b => le64 (if n.add then leNat b + n.value.toNat else n.value.toNat)) = (.ok ⟨⟩, t) →
        exec (.signal j n) s = .next ((t.forget (.signal j n)).goTo j n.hdr.nxt))
      ∧ (∀ (n : WhileNode) t, x.frames.length < 4 → s.walkerWord (.whileNode j n) x n.cond = (.ok 0, t) → n.count = 0 →
        exec (.whileNode j n) s = .next ((t.onJob j fun y => { y with frames := x.frames }).goTo j n.hdr.nxt))
      ∧ (∀ (n : WhileNode) w t, x.frames.length < 4 → s.walkerWord (.whileNode j n) x n.cond = (.ok w, t) → w ≠ 0 →
        exec (.whileNode j n) s = .next ((t.forget (.whileNode j n)).onJob j fun y => { y with
          frames := ⟨n, 0, t.nextKey⟩ :: x.frames, node := n.body, walking := .fetch, paged := false }))
      ∧ (∀ n : WaitNode, n.g = false →
        let a := s.onJob j fun y => { y with walking := .wait n s.now }
        ∀ w t, a.walkerWord (.waitPoll j) x n.watched = (.ok w, t) →
          (waitHolds n w = true → exec (.waitNode j n) s = .next ((t.forget (.waitPoll j)).goTo j n.hdr.nxt))
          ∧ (waitHolds n w = false → exec (.waitNode j n) s =
            .next (((t.forget (.waitPoll j)).onJob j fun y => { y with paged := false }).after 256 (.waitPoll j))))
      ∧ (∀ (n : CopyNode) t, s.counterBegin (.copyNode j n) x.die x.asid n.counter = (.ok ⟨⟩, t) →
        ∃ v : Machine.State, exec (.copyNode j n) s = .next v ∧ v.mem = t.mem ∧ v.nextKey = t.nextKey + 1 ∧ v.free = t.free + 1
          ∧ (∃ e, v.agenda = t.agenda ++ [(e, .copyNodeComplete j t.nextKey)] ∧ t.now < e)))
    ∧ (∀ n since, x.walking = .wait n since → n.timeout ≠ 0 → n.g = false → since + n.timeout.toNat < s.now →
      exec (.waitTimeout j) s = .next (s.faultGraph j ⟨4, waitTimeoutCond.code, 0, 0⟩))
    ∧ (x.paged = false →
      (∀ l next wc, x.walking = .forLaunch l next wc → x.counting = none → s.launchEnded l = true → exec (.waitPoll j) s =
        .next ((s.onJob j fun x => { x with paged := false }).goTo j next))
      ∧ (∀ f outer a t, x.frames = f :: outer → x.walking = .forPass → s.ended_ x f.mark = true →
        let b := s.onJob j fun x => { x with paged := false }
        b.counterDone (.whilePassEnd j) x.die x.asid x.gcnt (x.visited + 1) = (.ok ⟨⟩, a) →
        a.walkerWord (.whilePassEnd j) x f.node.cond = (.ok 0, t) → f.node.count = 0 → (find t.jobs j).isSome = true →
        ∃ v : Machine.State, exec (.whilePassEnd j) s = .next v ∧ v.mem = t.mem
          ∧ (f.node.hdr.nxt < endOfBody → ∃ z, find v.jobs j = some z ∧ z.frames = outer ∧ z.walking = .fetch ∧ z.node = f.node.hdr.nxt))
      ∧ (∀ va n t, x.counting = some (va, n) →
        let b := s.onJob j fun x => { x with paged := false }
        b.counterDone (.graphEnd j) x.die x.asid va n = (.ok ⟨⟩, t) →
        exec (.graphEnd j) s = .next ((t.forget (.graphEnd j)).onJob j fun x => { x with counting := none }))
      ∧ (∀ t, x.walking = .closing .job false → x.begunJob = true → x.counting = none →
        let b := s.onJob j fun x => { x with paged := false }
        b.counterEnd (.graphEnd j) x.die x.asid x.jcnt (incOf (x.endJob.getD doneEnding)) (some x.phasesDone) (x.endJob.getD doneEnding) = (.ok ⟨⟩, t) →
        ∃ v : Machine.State, exec (.graphEnd j) s = .next v ∧ v.mem = t.mem ∧ v.jobs = del t.jobs j))
    ∧ (∀ id c t, x.copies.find? (fun c => decide (c.1 = id)) = some (id, c) → c.done = false → c.closing = none → s.copyStuck j (id, c) = false →
      (c.bytes ≤ c.at_ → exec (.copyNodeComplete j id) s = .next (s.endCopy j x id c true))
      ∧ (∀ b v, c.at_ < c.bytes → s.devRead (.copyNodeComplete j id) x.die x.asid (c.src + BitVec.ofNat 64 c.at_) (min 4096 (c.bytes - c.at_)) = (.ok b, t) →
        t.devWrite (.copyNodeComplete j id) x.die x.asid (c.dst + BitVec.ofNat 64 c.at_) b = (.ok ⟨⟩, v) →
        ∃ z : Machine.State, exec (.copyNodeComplete j id) s = .next z ∧ z.mem = v.mem
          ∧ z.jobs = alter v.jobs j (fun y => y.onCopy id fun d => { d with at_ := d.at_ + min 4096 (c.bytes - c.at_) })
          ∧ (∃ e, z.agenda = v.agenda ++ [(e, .copyNodeComplete j id)] ∧ v.now < e)))

/-- R86, R94, R99 to R102: a launch is loaded and checked, waits for its contexts, and is placed, refused or ended. A core that is cleared is
as after reset, but for the banks that a launch holds. The corners of acceptance and placement are the model's readings (log entry 34). -/
def Obligations.LaunchEvents : Prop :=
  ∀ (s : Machine.State),
    (∀ j x (n : LaunchNode), find s.jobs j = some x → x.walking = .node →
      (∀ l ∈ s.launches, ¬(l.2.job = j ∧ l.2.phase = .reserved ∧ l.2.node = n)) →
      let follows := fun (p : Nat × Machine.State) => Host.Outcome.next (p.2.onJob j fun x => { x with walking := .forLaunch p.1 n.hdr.nxt n.hdr.wc })
      (∀ o r t, s.accept (.launch j n) x n = (.ok o r, t) → exec (.launch j n) s =
        follows ((t.forget (.launch j n)).openLaunch j x n (some o) (some r) (.waiting t.now)))
      ∧ (∀ d e t, s.accept (.launch j n) x n = (.refuse d e, t) →
        exec (.launch j n) s = follows ((t.forget (.launch j n)).openLaunch j x n none none (.refusing d e))))
    ∧ (∀ l x, find s.launches l = some x →
      let a := s.onLaunch l fun x => { x with paged := false }
      (∀ d e, x.phase = .refusing d e → exec (.launchPlace l) s = .next (a.endUnplaced l x ⟨5, 0, d, e⟩))
      ∧ (∀ t, x.phase = .waiting t → x.ending = none → a.lostCore x = false → a.contextsFree l x = true → (∀ y, find s.jobs x.job = some y → y.walking ≠ .armed) →
        ∃ v : Machine.State, exec (.launchPlace l) s = .next v ∧ v.mem = s.mem ∧ ∃ y at_, find v.launches l = some y ∧ y.phase = .preparing t at_)
      ∧ (∀ t at_ o r, x.phase = .preparing t at_ → x.ending = none → a.lostCore x = false → at_ ≤ s.now → a.readyAt x ≤ s.now → x.loaded = some o → x.record = some r →
        exec (.launchPlace l) s = .next (a.startLaunch l x o r))
      ∧ (x.ending = none → (∃ t, x.phase = .waiting t) ∨ (∃ t v, x.phase = .preparing t v) → a.lostCore x = true →
        exec (.launchPlace l) s = .next (a.onLaunch l fun x => { x with phase := .refusing 3 0 }))
      ∧ (∀ n t, s.regs.placeLimit = some n → x.phase = .waiting t → s.armedLaunch x = false →
        (t + n < s.now → exec (.placeTimeout l) s = .next (s.onLaunch l fun x => { x with phase := .refusing 4 0 }))
        ∧ (s.now ≤ t + n → exec (.placeTimeout l) s = .next s)))
    ∧ (∀ c t, (s.core c).clearing = some t → t ≤ s.now → ∃ v : Machine.State, exec (.coreClear c) s = .next v
      ∧ (∀ d, d ≠ c → v.core d = s.core d) ∧ v.mem = s.mem ∧ (v.core c).clearing = none ∧ (v.core c).spm = [] ∧ (v.core c).tags = []
      ∧ (v.core c).pats = [] ∧ (v.core c).mat = Mat.cleared ∧ (v.core c).dda = Dda.cleared ∧ (v.core c).cb = Vector.replicate 8 defaultCodebook
      ∧ (v.core c).icache = []
      ∧ ∀ k, k < 4 → (v.ctx c k).s = Vector.replicate 32 0 ∧ (v.ctx c k).v = Vector.replicate 32 0 ∧ (v.ctx c k).p = Vector.replicate 16 0
        ∧ (v.ctx c k).latches = Vector.replicate 4 Latch.cleared ∧ (v.ctx c k).csr = Csrs.cleared
        ∧ (v.ctx c k).queues = Vector.replicate 16 Queue.cleared ∧ (v.ctx c k).csr.srstate = 1)

/-- R49, R69, R397, R407, R408, R411: device registers. A write by a port without the semaphore changes nothing where R408 asks for it; the
windows, the trace registers and the semaphore change as their own rules say; an enabled window is not moved; ERRLOG gives its oldest
entry. -/
def Obligations.DeviceRegisters : Prop :=
  (∀ (s : Machine.State) (p : Fin 2) (v : Word) (d : Fin 4), s.holdsSem p = false →
    exec (.hbmwin p v) s = .next s ∧ exec (.ddrwin p v) s = .next s ∧ exec (.ttctl p d v) s = .next s ∧ exec (.ttbuf p d v) s = .next s
    ∧ exec (.ttdump p d v) s = .next s ∧ exec (.hsemRel p) s = .next s ∧ exec (.portReset p) s = .next s
    ∧ (∀ r, eitherPort r = false → exec (.registerWrite p r v) s = .next s))
  ∧ (∀ (s : Machine.State) (p : Fin 2), (s.regs.hsem = none → exec (.hsemAcq p) s = .next { s with regs := { s.regs with hsem := some p.val } })
    ∧ (s.regs.hsem ≠ none → exec (.hsemAcq p) s = .next s)
    ∧ (s.regs.hsem = some p.val → ∀ i ∈ [Instr.hsemRel p, .portReset p], exec i s = .next { s with regs := { s.regs with hsem := none } }))
  ∧ (∀ (s : Machine.State) (p : Fin 2) (v : Word), s.holdsSem p = true →
    let writes := fun (i : Instr) (r : Regs) => exec i s = .next { s with regs := r }
    let r := s.regs
    (winOn r.hbmwin = true → v.getLsbD 63 = true → writes (.hbmwin p v) r)
    ∧ (winOn r.hbmwin = true → v.getLsbD 63 = false → writes (.hbmwin p v) { r with hbmwin := r.hbmwin &&& 0x7FFFFFFFFFFFFFFF })
    ∧ (winOn r.hbmwin = false → writes (.hbmwin p v) { r with hbmwin := v &&& 0x801FFFFFC0000000 })
    ∧ (winOn r.ddrwin = true → v.getLsbD 63 = true → writes (.ddrwin p v) r)
    ∧ (winOn r.ddrwin = true → v.getLsbD 63 = false → writes (.ddrwin p v) { r with ddrwin := r.ddrwin &&& 0x7FFFFFFFFFFFFFFF })
    ∧ (winOn r.ddrwin = false → writes (.ddrwin p v) { r with ddrwin := v &&& 0x800FFFFFC0000000 })
    ∧ writes (.registerWrite p .asidtab v) { r with asidtab := v &&& 0x000FFFFFFFFF0001 }
    ∧ writes (.registerWrite p .prqto v) { r with prqto := v &&& 0xFFFFFFFF }
    ∧ writes (.registerWrite p .savebase v) { r with savebase := v &&& 0x000FFFFFC0000001 }
    ∧ (∀ n, writes (.registerWrite p (.maint n) v) { r with maint := r.maint.set n v })
    ∧ (∀ n, writes (.registerWrite p (.linkrt n) v) { r with linkrt := r.linkrt.set n (v &&& 0x1F) })
    ∧ (∀ (d : Fin 4), (s.tell d).en = false → exec (.ttbuf p d v) s = .next (s.onTell d fun t => { t with ttbuf := v &&& 0x000FFFFFFFFFF01F }))
    ∧ (∀ (d : Fin 4), (s.tell d).en = true → exec (.ttbuf p d v) s = .next s)
    ∧ (∀ (d : Fin 4), (s.tell d).dump.getLsbD 63 = false → exec (.ttdump p d v) s = .next (s.onTell d fun t => { t with dump := v &&& 0x80000000000001FF }))
    ∧ (∀ (d : Fin 4), ∃ t : Machine.State, exec (.ttctl p d v) s = .next t ∧ t.mem = s.mem ∧ t.units = s.units
      ∧ (t.tell d).ttctl &&& 0x0000FFE000FFFF1F = v &&& 0x0000FFE000FFFF1F
      ∧ field (t.tell d).ttctl 48 16 = if (s.tell d).en = false ∧ v.getLsbD 0 = true then 0 else field (s.tell d).ttctl 48 16))
  ∧ (∀ (s : Machine.State) (p dec : Fin 2) (base : BitVec 22),
    let w := s.regs.window dec
    let on_ := winOn w
    (on_ = true → exec (.hdmCommit p dec base) s = .next (s.commit p dec base (w.extractLsb' 30 22 == base)))
    ∧ (on_ = false → s.holdsSem p = false → exec (.hdmCommit p dec base) s = .next (s.onPort p fun x => { x with hdmOk := false }))
    ∧ (on_ = false → s.holdsSem p = true → ∃ t : Machine.State, exec (.hdmCommit p dec base) s = .next t
      ∧ winOn (t.regs.window dec) = true ∧ (t.regs.window dec).extractLsb' 30 22 = base ∧ winIl (t.regs.window dec) = winIl w
      ∧ find (t.port p).hdm dec.val = some base ∧ (t.port p).hdmOk = true ∧ t.mem = s.mem))
  ∧ (∀ (s : Machine.State) (p : Fin 2) (w : Word) (rest : List Word),
    (s.regs.errlog = [] → exec (.errlog p) s = .next { s with outs := s.outs ++ [.readData p.val 0] })
    ∧ (s.regs.errlog = w :: rest → exec (.errlog p) s = .next { s with
        outs := s.outs ++ [.readData p.val (w ||| (if s.regs.ovf then BitVec.twoPow 64 62 else 0))]
        regs := { s.regs with errlog := rest, ovf := false } }))
  ∧ (∀ (s : Machine.State) (c : Nat), s.coreReserved c = false → s.regs.maintBit c ≠ (s.core c).maint →
    exec (.maintModeChange c) s = .next (s.onCore c fun x => { x with maint := s.regs.maintBit c }))
  ∧ (∀ (s : Machine.State) (die : Nat), die < 4 → s.dumpDue die = true → ∃ t : Machine.State, exec (.dumpRecord die) s = .next t
    ∧ (t.tell die).dump = withField (s.tell die).dump 63 1 0
    ∧ t = (s.dumpContext (die * 128 + field (s.tell die).dump 0 7) (field (s.tell die).dump 7 2)).onTell die fun t => { t with dump := withField t.dump 63 1 0 })

/-- R102, R308, R309, R373, R374, R410, R412: errors, power, bring-up, reset and row streams. An error event is counted, and what it has
spoilt is marked; the counters go back to 0 with their window; the clock follows power and temperature, which are free values here (log entry
14); a function that is ready sets its bit; a reset leaves the device as after reset but for what the homes hold and what is outside; a
row's words move by one column, and a driven word stands at its place. What a reset keeps, the floor of the clock and READY are the
model's readings (log entry 39). -/
def Obligations.DeviceEvents : Prop :=
  (∀ (s : Machine.State) (e : ErrorInfo),
    (e.correctable = true → exec (.errorEvent e) s = .next (s.countError e.res e.pa))
    ∧ (e.correctable = false → exec (.errorEvent e) s = .next ((s.spoil e.res e.pa).countError e.res e.pa))
    ∧ (∀ n, e.correctable = true → e.res = .core n → field s.regs.fltthr 0 16 ≠ (find s.errors n).getD 0 + 1 →
      exec (.errorEvent e) s = .next { s with errors := put s.errors n ((find s.errors n).getD 0 + 1) }))
  ∧ (∀ (s : Machine.State), exec .faultWindowReset s = .next { s with errors := [] })
  ∧ (∀ (s : Machine.State) (f : Func), s.lost f = false → ∃ t : Machine.State, exec (.functionReady f) s = .next t ∧ t.isReady f = true
    ∧ (∀ g, readyBit g ≠ readyBit f → t.isReady g = s.isReady g) ∧ t.mem = s.mem)
  ∧ (∀ (s : Machine.State), ∃ t : Machine.State, exec .powerCheck s = .next t
    ∧ (Config.measuredTemp s.free < 115 → t.mem = s.mem ∧ t.free = s.free + 1)
    ∧ (let temp := Config.measuredTemp s.free
       let power := Config.measuredPower s.free
       let old := field s.regs.pwrstat 16 16
       let new := field t.regs.pwrstat 16 16
       (old ≤ 850 → (s.regs.powerCap < power ∨ 105 < temp → new = max 425 (old - 25))
         ∧ (100 * power < 95 * s.regs.powerCap → temp < 100 → new = min 850 (old + 25))
         ∧ (power ≤ s.regs.powerCap → temp ≤ 105 → 95 * s.regs.powerCap ≤ 100 * power ∨ 100 ≤ temp → new = old))
       ∧ (115 ≤ temp → t.halted = true ∧ t.regs.ready = 0)))
  ∧ (∀ (s : Machine.State), ∃ t : Machine.State, exec .deviceReset s = .next t ∧ t.mem = s.mem ∧ t.keyTag = s.keyTag ∧ t.bad = s.bad ∧ t.outs = s.outs
    ∧ t.cores = [] ∧ t.units = [] ∧ t.launches = [] ∧ t.jobs = [] ∧ t.gangs = [] ∧ t.l2 = [] ∧ t.keys = [] ∧ t.asids = [] ∧ t.regs = Regs.reset
    ∧ t.ports = Vector.replicate 2 Port.reset ∧ t.tells = Vector.replicate 4 Telltale.reset ∧ t.now = 0)
  ∧ (∀ (s : Machine.State) (die row : Nat) (w : VWord), s.streams = [] →
    let key := fun (c : Nat) => (die * 8 + row) * 256 + c
    (∀ (str : Nat) (west : Bool) (col : Nat), str < 8 → col < 16 → s.drives = [] →
      let at_ := fun (c : Nat) => key ((if west then 128 else 0) + str * 16 + c)
      let leaves := if west then col = 0 else col = 15
      ∃ t : Machine.State, exec (.rowStreamShift die row) { s with streams := [(at_ col, w)] } = .next t
        ∧ (leaves → t.streams = []) ∧ (¬leaves → t.streams = [(at_ (if west then col - 1 else col + 1), w)]) ∧ t.mem = s.mem)
    ∧ (∀ d : Drive, d.key / 256 = die * 8 + row → s.drives = [d] → exec (.rowStreamShift die row) s = .next { s with
        streams := [(d.key, d.word)], drives := [] }))

/-! ### Decoding, a step, and the whole machine -/

/-- R178: MUL, MULH and MULHN put the low half of the product, and its high half as signed and as unsigned, in flight at latency 3; they
are fn8 0, 1 and 2 of op6 0x01 in SR format, and any other fn8 of it raises unassigned opcode of an S slot. -/
def Obligations.Multiplications : Prop :=
  (∀ (s : Machine.State) (o : SR3) (a b : Word), s.Calm → s.srcS o.a = .ok a → s.srcS o.b = .ok b →
      exec (.mul o) s = .next (s.writeS o.d o.nw (BitVec.ofNat 64 (a.toNat * b.toNat)) 3).slotEnd
      ∧ exec (.mulh o) s = .next (s.writeS o.d o.nw (BitVec.ofInt 64 (a.toInt * b.toInt / 2 ^ 64)) 3).slotEnd
      ∧ exec (.mulhn o) s = .next (s.writeS o.d o.nw (BitVec.ofNat 64 (a.toNat * b.toNat / 2 ^ 64)) 3).slotEnd)
  ∧ (∀ o : SR3,
      decodeS (wordSR 0x01 o.d o.nw (encodeSrc o.a) (encodeSrc o.b) 0) = .op (.mul o)
      ∧ decodeS (wordSR 0x01 o.d o.nw (encodeSrc o.a) (encodeSrc o.b) 1) = .op (.mulh o)
      ∧ decodeS (wordSR 0x01 o.d o.nw (encodeSrc o.a) (encodeSrc o.b) 2) = .op (.mulhn o))
  ∧ (∀ (s : Machine.State) (p : Placed) (last : Bool) (d : Fin 32) (nw : Bool) (a b : BitVec 6) (fn : BitVec 8), 2 < fn.toNat →
      p.slot = .s0 ∨ p.slot = .s1 → p.syl = decodeS (wordSR 0x01 d nw a b fn) →
      s.slotPerforms p last =
        .next (({ s with iss := { s.iss with slot := p.slot, last } } : Machine.State).raise (unassignedOpcode 1)).complete)

/-- R225: PAND, POR, PXOR, PANDN, PNOT and PMOV work on all 256 bits; the result is ANDed with the guard and written at latency 2. A
word of one of them whose ty4 is not 0 is no legal syllable. -/
def Obligations.PredicateLogic : Prop :=
  (∀ (s : Machine.State) (o : PBin) (u : PUn) (a b : PWord), s.Calm → s.srcP o.a = .ok a → s.srcP o.b = .ok b → s.srcP u.a = .ok a →
      let lands := fun (r : PWord) => Host.Outcome.next (s.writeP o.pd o.nw (r &&& s.guard o.pg) 2).slotEnd
      let landsU := fun (r : PWord) => Host.Outcome.next (s.writeP u.pd u.nw (r &&& s.guard u.pg) 2).slotEnd
      exec (.pand o) s = lands (a &&& b)
      ∧ exec (.por o) s = lands (a ||| b)
      ∧ exec (.pxor o) s = lands (a ^^^ b)
      ∧ exec (.pandn o) s = lands (a &&& ~~~b)
      ∧ exec (.pnot u) s = landsU (~~~a)
      ∧ exec (.pmov u) s = landsU a)
  ∧ (∀ w : BitVec 48, 0x50 ≤ (w.extractLsb' 40 8).toNat → (w.extractLsb' 40 8).toNat ≤ 0x55 → w.extractLsb' 4 4 ≠ 0 → decodeV w = .illegal)

/-- R129 to R132: an op6, op8 or fn8 that the maps leave unassigned is unassigned, nothing else is, and it raises unassigned opcode in
its slot, with the slot's origin. -/
def Obligations.UnassignedOpcodes : Prop :=
  (∀ w : BitVec 32, decodeS w = .unassigned ↔
      (let op := (opOf w).toNat
       let fn := (fnOf w).toNat
       (3 ≤ op ∧ op ≤ 7) ∨ (0x14 ≤ op ∧ op ≤ 0x17) ∨ op = 0x1F ∨ op = 0x2F ∨ 0x3C ≤ op
       ∨ (op = 0 ∧ 0x19 < fn) ∨ (op = 1 ∧ 2 < fn) ∨ (op = 2 ∧ 12 < fn % 16) ∨ (op = 0x26 ∧ 9 < fn % 16)
       ∨ (op = 0x38 ∧ 3 < fn ∧ fn ≠ 0x10 ∧ fn ≠ 0x11)
       ∨ (op = 0x3A ∧ fn ∉ [0x10, 0x20, 0x31, 0x32, 0x33, 0x34, 0x41, 0x42, 0x43])
       ∨ (op = 0x3B ∧ 0x20 ≤ fn)))
  ∧ (∀ w : BitVec 48, decodeV w = .unassigned ↔
      (let op := (w.extractLsb' 40 8).toNat
       op = 0x0F ∨ (0x18 ≤ op ∧ op ≤ 0x1F) ∨ (0x27 ≤ op ∧ op ≤ 0x2F) ∨ (0x37 ≤ op ∧ op ≤ 0x3F) ∨ (0x44 ≤ op ∧ op ≤ 0x47)
       ∨ (0x4A ≤ op ∧ op ≤ 0x4F) ∨ 0x5B ≤ op))
  ∧ (∀ w : BitVec 48, decodeX w = .unassigned ↔
      (let op := (w.extractLsb' 40 8).toNat
       (0x0C ≤ op ∧ op ≤ 0x0F) ∨ (0x15 ≤ op ∧ op ≤ 0x17) ∨ (0x1A ≤ op ∧ op ≤ 0x1F) ∨ 0x24 ≤ op))
  ∧ (∀ w : BitVec 64, decodeM w = .unassigned ↔ 0x0B ≤ (w.extractLsb' 56 8).toNat)
  ∧ (∀ w : BitVec 64, decodeQ w = .unassigned ↔
      (let op := (w.extractLsb' 56 8).toNat
       (0x09 ≤ op ∧ op ≤ 0x0F) ∨ (0x15 ≤ op ∧ op ≤ 0x17) ∨ op = 0x1B ∨ op = 0x1F ∨ (0x29 ≤ op ∧ op ≤ 0x2F) ∨ 0x32 ≤ op))
  ∧ (∀ (s : Machine.State) (p : Placed) (last : Bool), p.syl = .unassigned →
      s.slotPerforms p last = .next (({ s with iss := { s.iss with slot := p.slot, last } } : Machine.State).raise (unassignedOpcode
        (match p.slot with
          | .s0 | .s1 => 1
          | .v | .x => 2
          | .m => 3
          | .q => 4))).complete)

/-- Words of the spec's own examples, written out field by field, decode to what they stand for (R132,
R167, R183, R187, R201, R208, R258, R286, R298, R354, R366), and the bundle of R132's first example to its two operations. -/
def Obligations.DecodeWords : Prop :=
  -- `add s4, s5, s6`: op6 0x00, d5 4, NW 0, a6 5, b6 6, fn8 0
  decodeS 0b000000_00100_0_000101_000110_00000000#32 = .op (.add ⟨4, false, .reg 5, .reg 6⟩)
  -- `ld.l.i32 s5, [s6+8]`
  ∧ decodeS 0b011100_00101_0_000110_00000000001000#32 = .op (.ldLI32 ⟨5, false, .reg 6, 8⟩)
  -- `csrc s0, fpflags, s9`
  ∧ decodeS 0b110111_00000_0_001001_00_000000000000#32 = .op (.csrc ⟨0, false, 0, .reg 9⟩)
  -- `trap s5`, `yield 5000`, `tret`
  ∧ decodeS 0b111000_00000_0_000101_000000_00000000#32 = .op (.trap (.reg 5))
  ∧ decodeS 0b111001_00000_0_00000001001110001000#32 = .op (.yield 5000)
  ∧ decodeS 0b111000_00000_0_000000_000000_00000011#32 = .op .tret
  -- `vadd.i16.sat v3, v4, s9 ?p2`: op8, d5 3, NW, a6 4, b6 9, c6, pg4 2, pd4, ty4 1, fn4 1001
  ∧ decodeV 0b00000000_00011_0_000100_001001_000000_0010_0000_0001_1001#48 = .op (.vadd ⟨3, false, .reg 4, .reg 9, true, true, 2, .i16⟩)
  -- `vfadd.f32 v4, v5, v6 ?p4`
  ∧ decodeV 0b00010000_00100_0_000101_000110_000000_0100_0000_1000_0000#48 = .op (.vfadd ⟨4, false, .reg 5, .reg 6, false, .rne, 4, .f32⟩)
  -- `cvtn.i8.i32.wrap v5, v6, 3`: part 3 in b6, the source type 2 in c6
  ∧ decodeX 0b00010100_00101_0_000110_000011_000010_0000_0000_0000_0001#48 = .op (.cvtn ⟨5, false, .reg 6, .i32, 3, 1, 0, .i8⟩)
  -- `mma acc1, q2.0^, c5:q3.1`: A 0 000 0010 00 1 000, B 1 101 0011 01 0 000, ACC 1
  ∧ decodeM (0b00000001#8 ++ 0b0_000_0010_00_1_000#14 ++ 0b1_101_0011_01_0_000#14 ++ 0b01_0_000_000#9 ++ 0#19)
      = .op (.mma ⟨⟨false, 0, 2, 0, true, 0⟩, ⟨true, 5, 3, 1, false, 0⟩, 1, false, 0, 0⟩)
  -- `qrd v8, q2.1^, 3`
  ∧ decodeQ (0b00000010#8 ++ 0b0010#4 ++ 0b000000#6 ++ 0b000000#6 ++ 0b01000_0_0001_1_0_0_000000_00000011_0000000000000#40)
      = .op (.qrd ⟨2, 8, 1, true, .reg 0, 3⟩)
  -- `tlook s5, s6`, `dset.par s0, 1, s9`, `coll [s5], s6`
  ∧ decodeQ 0x1801802800000000#64 = .op (.tlook 5 (.reg 6))
  ∧ decodeQ 0x2200090C01000000#64 = .op (.dset ⟨.par, .reg 0, 1, .reg 9⟩)
  ∧ decodeQ 0x3001460000000000#64 = .op (.coll (.reg 5) (.reg 6))
  -- `add s4, s5, s6 || vfadd.f32 v4, v5, v6 ?p4 &`
  ∧ (decodeBundle [0x05, 0x00, 0x00, 0x46, 0x81, 0x00, 0x80, 0x40, 0x80, 0x51, 0x20, 0x10]).slots.map (fun p => (p.slot, p.syl))
      = [(.s0, .op (.add ⟨4, false, .reg 5, .reg 6⟩)), (.v, .op (.vfadd ⟨4, false, .reg 5, .reg 6, false, .rne, 4, .f32⟩))]
  ∧ (decodeBundle [0x05, 0x00, 0x00, 0x46, 0x81, 0x00, 0x80, 0x40, 0x80, 0x51, 0x20, 0x10]).illegal = none

/-- R117 to R132: a bundle that holds one well-formed slot operation, or none, decodes to that operation, whatever its operands, its
wait cycles, its drain-point bit and its stop bit are. A loop whose end would lie within its own bundle of three parcels is not such an
operation (R191). -/
def Obligations.DecodeEncodeRoundTrip : Prop :=
  ∀ (i : Instr) (wt : Fin 8) (dp st : Bool) (bytes : List Byte), i.wf = true → encodeAlone wt dp st i = some bytes →
    (∀ d, i.loopDisp = some d → 3 ≤ d) → (decodeBundle bytes).single = some i

/-- R117, R127, R129, R137: what a step does. When the next act of the cycle is a context's bundle, its bytes are at hand, they hold one
operation, and the context neither resumes a bundle nor has a breakpoint on it, the step is the meaning of that operation in the state in
which the bundle has begun to issue, and then the prefetcher's part. When no plan of the cycle stands and something happens, the step is
the meaning of what happens; and each event's meaning is that of its instruction. A cycle whose acts are all made ends. The order of the
acts of one cycle is the model's choice (log entry 25). -/
def Obligations.StepRunsDecoded : Prop :=
  (∀ (s : Machine.State) (c k : Nat) (rest : List Act) (bytes : List Byte) (i : Instr), s.plan = some (.issue c k :: rest) →
    let x := s.ctx c k
    let b := decodeBundle bytes
    s.fetched c k = .bytes bytes → b.single = some i → x.resume = none →
    (s.tell (dieOf c)).breaks x.csr.asidcur.toNat x.pc b.hdr.pm = (0, false) →
    let t := ({ s with plan := some rest } : Machine.State).onCore c fun y =>
      (y.setCtx k (x.issuing s.now)).touchLines x.csr.asidcur.toNat (va56 x.pc) (2 * b.hdr.len) s.now
    let u := t.openIssue c k b 0
    (b.slots = [] → step s = .next u.completeBundle.afterIssue)
    ∧ (∀ p, b.slots = [p] → step s = match exec i { u with iss := { u.iss with slot := p.slot, last := true } } with
      | .next w => .next w.afterIssue
      | r => r))
  ∧ (∀ (s t : Machine.State) (e : Event), s.plan = none → s.happening = .event e t → step s = execEvent e t)
  ∧ (∀ (s : Machine.State) (e : Event) (rest : List Act), s.plan = some (.event e :: rest) →
      step s = execEvent e { s with plan := some rest, iss := Issue.idle })
  ∧ (∀ (s : Machine.State), s.plan = some [] → step s = .next s.tick ∧ s.tick.plan = none)
  ∧ (∀ (s : Machine.State), s.plan = none → s.happening = .nothing → step s = .next { s with plan := some s.planCycle })
  ∧ (∀ s : Machine.State, (∀ c k, execEvent (.fixedLatencyLand c k) s = exec (.fixedLatencyLand c k) s)
    ∧ (∀ u n, execEvent (.spawnComplete u n) s = exec (.spawnComplete u n) s)
    ∧ (∀ c st, execEvent (.matCommandStart c st) s = exec (.matCommandStart c st) s)
    ∧ (∀ c id, execEvent (.matCommandDone c id) s = exec (.matCommandDone c id) s)
    ∧ (∀ c, execEvent (.remoteSliceServe c) s = exec (.remoteSliceServe c) s)
    ∧ (∀ u idx rows cols isInt tile, execEvent (.pairPartialArrive u idx rows cols isInt tile) s = exec (.pairPartialArrive u idx rows cols isInt tile) s)
    ∧ (∀ u idx, execEvent (.pairCommitArrive u idx) s = exec (.pairCommitArrive u idx) s)
    ∧ (∀ u idx, execEvent (.pairTimeout u idx) s = exec (.pairTimeout u idx) s)
    ∧ (∀ snd target slotsz, execEvent (.spliceRequestArrive snd target slotsz) s = exec (.spliceRequestArrive snd target slotsz) s)
    ∧ (∀ snd tgt reason log2n tail free, execEvent (.spliceAnswerArrive snd tgt reason log2n tail free) s = exec (.spliceAnswerArrive snd tgt reason log2n tail free) s)
    ∧ (∀ tgt ctr, execEvent (.spliceHeaderArrive tgt ctr) s = exec (.spliceHeaderArrive tgt ctr) s)
    ∧ (∀ m, execEvent (.spliceRowArrive m) s = exec (.spliceRowArrive m) s)
    ∧ (∀ snd free, execEvent (.headReportArrive snd free) s = exec (.headReportArrive snd free) s)
    ∧ (∀ u, execEvent (.deliveryAckArrive u) s = exec (.deliveryAckArrive u) s)
    ∧ (∀ tgt, execEvent (.spliceEndMarkerArrive tgt) s = exec (.spliceEndMarkerArrive tgt) s)
    ∧ (∀ snd tgt, execEvent (.spliceTargetEnd snd tgt) s = exec (.spliceTargetEnd snd tgt) s)
    ∧ (∀ c, execEvent (.copyCommandStart c) s = exec (.copyCommandStart c) s)
    ∧ (∀ u n, execEvent (.copyCommandDone u n) s = exec (.copyCommandDone u n) s)
    ∧ (∀ c, execEvent (.ddaCommandExecute c) s = exec (.ddaCommandExecute c) s)
    ∧ (∀ c, execEvent (.ddaDomainStep c) s = exec (.ddaDomainStep c) s)
    ∧ (∀ die, execEvent (.collRecordStart die) s = exec (.collRecordStart die) s)
    ∧ (∀ r, execEvent (.collRequestArrive r) s = exec (.collRequestArrive r) s)
    ∧ (∀ b, execEvent (.collBlockArrive b) s = exec (.collBlockArrive b) s)
    ∧ (∀ die key rank, execEvent (.collDoneArrive die key rank) s = exec (.collDoneArrive die key rank) s)
    ∧ (∀ die rid, execEvent (.collDeadline die rid) s = exec (.collDeadline die rid) s)
    ∧ (∀ u id, execEvent (.landingBufferWrite u id) s = exec (.landingBufferWrite u id) s)
    ∧ (∀ u n, execEvent (.storePerformAtHome u n) s = exec (.storePerformAtHome u n) s)
    ∧ (∀ u n, execEvent (.lsuAccessStart u n) s = exec (.lsuAccessStart u n) s)
    ∧ (∀ die id, execEvent (.tlbWalkDone die id) s = exec (.tlbWalkDone die id) s)
    ∧ (∀ asid page right ans, execEvent (.pageRequestResponse asid page right ans) s = exec (.pageRequestResponse asid page right ans) s)
    ∧ (∀ asid page right, execEvent (.pageRequestTimeout asid page right) s = exec (.pageRequestTimeout asid page right) s)
    ∧ (∀ pasid va bytes, execEvent (.atsInvalidate pasid va bytes) s = exec (.atsInvalidate pasid va bytes) s)
    ∧ (∀ c k, execEvent (.ifetchFill c k) s = exec (.ifetchFill c k) s)
    ∧ (∀ c k, execEvent (.asyncTrap c k) s = exec (.asyncTrap c k) s)
    ∧ (∀ l, execEvent (.domainFreeze l) s = exec (.domainFreeze l) s)
    ∧ (∀ l, execEvent (.domainResume l) s = exec (.domainResume l) s)
    ∧ (∀ c k, execEvent (.sliceExpiry c k) s = exec (.sliceExpiry c k) s)
    ∧ (∀ c k, execEvent (.yieldOverrun c k) s = exec (.yieldOverrun c k) s)
    ∧ (∀ c k, execEvent (.drainSave c k) s = exec (.drainSave c k) s)
    ∧ (∀ c k, execEvent (.forcedSave c k) s = exec (.forcedSave c k) s)
    ∧ (∀ c k, execEvent (.unitRestore c k) s = exec (.unitRestore c k) s)
    ∧ (∀ c k, execEvent (.bankRetention c k) s = exec (.bankRetention c k) s)
    ∧ (∀ c k, execEvent (.bankRouseDone c k) s = exec (.bankRouseDone c k) s)
    ∧ (∀ c k, execEvent (.bankWake c k) s = exec (.bankWake c k) s)
    ∧ (∀ u, execEvent (.unitRetire u) s = exec (.unitRetire u) s)
    ∧ (∀ c k, execEvent (.runQueueEntryTaken c k) s = exec (.runQueueEntryTaken c k) s)
    ∧ (∀ port v, execEvent (.cqtail port v) s = exec (.cqtail port v) s)
    ∧ (∀ port v, execEvent (.cplhead port v) s = exec (.cplhead port v) s)
    ∧ (∀ port tag, execEvent (.malformedCommand port tag) s = exec (.malformedCommand port tag) s)
    ∧ (∀ port tag asid job die, execEvent (.submit port tag asid job die) s = exec (.submit port tag asid job die) s)
    ∧ (∀ port tag asid level va reason, execEvent (.cancel port tag asid level va reason) s = exec (.cancel port tag asid level va reason) s)
    ∧ (∀ port tag asid, execEvent (.asidinv port tag asid) s = exec (.asidinv port tag asid) s)
    ∧ (∀ port tag asid va bytes, execEvent (.tlbinv port tag asid va bytes) s = exec (.tlbinv port tag asid va bytes) s)
    ∧ (∀ port tag rec asid die, execEvent (.gangarm port tag rec asid die) s = exec (.gangarm port tag rec asid die) s)
    ∧ (∀ port tag gang, execEvent (.ganggo port tag gang) s = exec (.ganggo port tag gang) s)
    ∧ (∀ port tag gang, execEvent (.gangabort port tag gang) s = exec (.gangabort port tag gang) s)
    ∧ (∀ port tag key pa, execEvent (.keyld port tag key pa) s = exec (.keyld port tag key pa) s)
    ∧ (∀ port tag key, execEvent (.keyclr port tag key) s = exec (.keyclr port tag key) s)
    ∧ (∀ gang, execEvent (.gangArmTimeout gang) s = exec (.gangArmTimeout gang) s)
    ∧ (∀ gang, execEvent (.gangWaitTimeout gang) s = exec (.gangWaitTimeout gang) s)
    ∧ (∀ gang cause, execEvent (.gangCancelReceive gang cause) s = exec (.gangCancelReceive gang cause) s)
    ∧ (∀ j n, execEvent (.launch j n) s = exec (.launch j n) s)
    ∧ (∀ l, execEvent (.launchPlace l) s = exec (.launchPlace l) s)
    ∧ (∀ l, execEvent (.placeTimeout l) s = exec (.placeTimeout l) s)
    ∧ (∀ c, execEvent (.coreClear c) s = exec (.coreClear c) s)
    ∧ (∀ j n, execEvent (.copyNode j n) s = exec (.copyNode j n) s)
    ∧ (∀ j n, execEvent (.condNode j n) s = exec (.condNode j n) s)
    ∧ (∀ j n, execEvent (.whileNode j n) s = exec (.whileNode j n) s)
    ∧ (∀ j, execEvent (.whilePassEnd j) s = exec (.whilePassEnd j) s)
    ∧ (∀ j n, execEvent (.signal j n) s = exec (.signal j n) s)
    ∧ (∀ j n, execEvent (.waitNode j n) s = exec (.waitNode j n) s)
    ∧ (∀ j, execEvent (.waitPoll j) s = exec (.waitPoll j) s)
    ∧ (∀ j, execEvent (.waitTimeout j) s = exec (.waitTimeout j) s)
    ∧ (∀ j h, execEvent (.phaseend j h) s = exec (.phaseend j h) s)
    ∧ (∀ j h vec, execEvent (.hostirq j h vec) s = exec (.hostirq j h vec) s)
    ∧ (∀ j, execEvent (.graphEnd j) s = exec (.graphEnd j) s)
    ∧ (∀ port v, execEvent (.hbmwin port v) s = exec (.hbmwin port v) s)
    ∧ (∀ port v, execEvent (.ddrwin port v) s = exec (.ddrwin port v) s)
    ∧ (∀ port, execEvent (.hsemAcq port) s = exec (.hsemAcq port) s)
    ∧ (∀ port, execEvent (.hsemRel port) s = exec (.hsemRel port) s)
    ∧ (∀ port r v, execEvent (.registerWrite port r v) s = exec (.registerWrite port r v) s)
    ∧ (∀ c, execEvent (.maintModeChange c) s = exec (.maintModeChange c) s)
    ∧ (∀ port die v, execEvent (.ttctl port die v) s = exec (.ttctl port die v) s)
    ∧ (∀ port die v, execEvent (.ttbuf port die v) s = exec (.ttbuf port die v) s)
    ∧ (∀ port die v, execEvent (.ttdump port die v) s = exec (.ttdump port die v) s)
    ∧ (∀ die, execEvent (.dumpRecord die) s = exec (.dumpRecord die) s)
    ∧ (∀ port, execEvent (.errlog port) s = exec (.errlog port) s)
    ∧ (∀ port dec base, execEvent (.hdmCommit port dec base) s = exec (.hdmCommit port dec base) s)
    ∧ (∀ pa inv, execEvent (.hostSnoop pa inv) s = exec (.hostSnoop pa inv) s)
    ∧ (∀ port pa, execEvent (.hostHdmRead port pa) s = exec (.hostHdmRead port pa) s)
    ∧ (∀ die pa own, execEvent (.l2LineRequest die pa own) s = exec (.l2LineRequest die pa own) s)
    ∧ (∀ e, execEvent (.errorEvent e) s = exec (.errorEvent e) s)
    ∧ (execEvent (.faultWindowReset) s = exec (.faultWindowReset) s)
    ∧ (execEvent (.powerCheck) s = exec (.powerCheck) s)
    ∧ (∀ f, execEvent (.functionReady f) s = exec (.functionReady f) s)
    ∧ (execEvent (.deviceReset) s = exec (.deviceReset) s)
    ∧ (∀ port, execEvent (.portReset port) s = exec (.portReset port) s)
    ∧ (∀ die row, execEvent (.rowStreamShift die row) s = exec (.rowStreamShift die row) s)
    ∧ (∀ u idx, execEvent (.pairAbortArrive u idx) s = exec (.pairAbortArrive u idx) s)
    ∧ (∀ j id, execEvent (.copyNodeComplete j id) s = exec (.copyNodeComplete j id) s))

/-- R102 and the reset columns of the register tables. After reset no unit is resident, no context has power, every register bank is zero
but SRSTATE, which is 1, the queues are unconfigured, the codebooks are the default table, and the device registers, the ports, the
queues of host commands and Telltale hold the values of their tables. The memories hold nothing that is not zero, and are in
canonical form; the zeros of the home memory and of the key slots, the
HDM decoders and the PC of a context without a unit are the model's choice (log entries 1, 3, 4 and 6). -/
def Obligations.ResetValues : Prop :=
  let s := State.reset
  (∀ c k, k < 4 → let x := s.ctx c k
      x.unit = none ∧ x.bank = .off ∧ x.s = Vector.replicate 32 0 ∧ x.v = Vector.replicate 32 0 ∧ x.p = Vector.replicate 16 0
      ∧ x.latches = Vector.replicate 4 Latch.cleared ∧ x.flights = [] ∧ x.scale = 0 ∧ x.csr = Csrs.cleared ∧ x.csr.srstate = 1
      ∧ x.csr.loopst = 0 ∧ x.queues = Vector.replicate 16 Queue.cleared)
  ∧ (∀ c, let x := s.core c
      x.spm = [] ∧ x.tags = [] ∧ x.pats = [] ∧ x.mat = Mat.cleared ∧ x.dda = Dda.cleared ∧ x.cb = Vector.replicate 8 defaultCodebook
      ∧ x.icache = [] ∧ x.asid = none)
  ∧ s.regs.hbmwin = 0 ∧ s.regs.ddrwin = 0 ∧ s.regs.asidtab = 0 ∧ s.regs.prqto = 0x01000000 ∧ s.regs.placeto = 0x00100000
  ∧ s.regs.gangto = 0x08000000 ∧ s.regs.savebase = 0 ∧ s.regs.dpmaxdev = 8192 ∧ s.regs.fabid = 0 ∧ s.regs.fltwin = 0x400000000
  ∧ s.regs.fltthr = 16 ∧ s.regs.hsem = none ∧ s.regs.ready = 0 ∧ s.regs.errlog = []
  ∧ (∀ p : Fin 2, s.port p = Port.reset) ∧ (∀ d : Fin 4, s.tell d = Telltale.reset)
  ∧ s.units = [] ∧ s.launches = [] ∧ s.jobs = [] ∧ s.gangs = [] ∧ s.now = 0 ∧ s.plan = none ∧ s.memoriesWf

/-- The byte memories stay in their canonical form: whatever a step does, if the home memory and the scratchpads are in it, and tags and
patterns are listed by rising key, they are so afterwards (R143, R244, R297, R315, R316). -/
def Obligations.StepKeepsMemories : Prop :=
  ∀ s t : Machine.State, s.memoriesWf → step s = .next t → t.memoriesWf
end

