-- ==== Sys2Proof/Laws/State.lean ====
section
/-! SUPPORT. What each update of the state leaves and changes, field by field. -/
namespace Sys2Proof.Machine

variable (s : State)

/-! ### setCore -/

@[simp] theorem State.setCore_now (c : Nat) (x : Core) : (s.setCore c x).now = s.now := rfl
@[simp] theorem State.setCore_plan (c : Nat) (x : Core) : (s.setCore c x).plan = s.plan := rfl
@[simp] theorem State.setCore_iss (c : Nat) (x : Core) : (s.setCore c x).iss = s.iss := rfl
@[simp] theorem State.setCore_units (c : Nat) (x : Core) : (s.setCore c x).units = s.units := rfl
@[simp] theorem State.setCore_launches (c : Nat) (x : Core) : (s.setCore c x).launches = s.launches := rfl
@[simp] theorem State.setCore_jobs (c : Nat) (x : Core) : (s.setCore c x).jobs = s.jobs := rfl
@[simp] theorem State.setCore_gangs (c : Nat) (x : Core) : (s.setCore c x).gangs = s.gangs := rfl
@[simp] theorem State.setCore_ended (c : Nat) (x : Core) : (s.setCore c x).ended = s.ended := rfl
@[simp] theorem State.setCore_loads (c : Nat) (x : Core) : (s.setCore c x).loads = s.loads := rfl
@[simp] theorem State.setCore_nextKey (c : Nat) (x : Core) : (s.setCore c x).nextKey = s.nextKey := rfl
@[simp] theorem State.setCore_mem (c : Nat) (x : Core) : (s.setCore c x).mem = s.mem := rfl
@[simp] theorem State.setCore_keyTag (c : Nat) (x : Core) : (s.setCore c x).keyTag = s.keyTag := rfl
@[simp] theorem State.setCore_bad (c : Nat) (x : Core) : (s.setCore c x).bad = s.bad := rfl
@[simp] theorem State.setCore_l2 (c : Nat) (x : Core) : (s.setCore c x).l2 = s.l2 := rfl
@[simp] theorem State.setCore_hostBits (c : Nat) (x : Core) : (s.setCore c x).hostBits = s.hostBits := rfl
@[simp] theorem State.setCore_hostDir (c : Nat) (x : Core) : (s.setCore c x).hostDir = s.hostDir := rfl
@[simp] theorem State.setCore_ctlb (c : Nat) (x : Core) : (s.setCore c x).ctlb = s.ctlb := rfl
@[simp] theorem State.setCore_dtlb (c : Nat) (x : Core) : (s.setCore c x).dtlb = s.dtlb := rfl
@[simp] theorem State.setCore_nonLeaf (c : Nat) (x : Core) : (s.setCore c x).nonLeaf = s.nonLeaf := rfl
@[simp] theorem State.setCore_walks (c : Nat) (x : Core) : (s.setCore c x).walks = s.walks := rfl
@[simp] theorem State.setCore_pageReqs (c : Nat) (x : Core) : (s.setCore c x).pageReqs = s.pageReqs := rfl
@[simp] theorem State.setCore_asids (c : Nat) (x : Core) : (s.setCore c x).asids = s.asids := rfl
@[simp] theorem State.setCore_failures (c : Nat) (x : Core) : (s.setCore c x).failures = s.failures := rfl
@[simp] theorem State.setCore_answers (c : Nat) (x : Core) : (s.setCore c x).answers = s.answers := rfl
@[simp] theorem State.setCore_walked (c : Nat) (x : Core) : (s.setCore c x).walked = s.walked := rfl
@[simp] theorem State.setCore_invals (c : Nat) (x : Core) : (s.setCore c x).invals = s.invals := rfl
@[simp] theorem State.setCore_keys (c : Nat) (x : Core) : (s.setCore c x).keys = s.keys := rfl
@[simp] theorem State.setCore_streams (c : Nat) (x : Core) : (s.setCore c x).streams = s.streams := rfl
@[simp] theorem State.setCore_drives (c : Nat) (x : Core) : (s.setCore c x).drives = s.drives := rfl
@[simp] theorem State.setCore_halyard (c : Nat) (x : Core) : (s.setCore c x).halyard = s.halyard := rfl
@[simp] theorem State.setCore_collHeld (c : Nat) (x : Core) : (s.setCore c x).collHeld = s.collHeld := rfl
@[simp] theorem State.setCore_collDones (c : Nat) (x : Core) : (s.setCore c x).collDones = s.collDones := rfl
@[simp] theorem State.setCore_tells (c : Nat) (x : Core) : (s.setCore c x).tells = s.tells := rfl
@[simp] theorem State.setCore_samples (c : Nat) (x : Core) : (s.setCore c x).samples = s.samples := rfl
@[simp] theorem State.setCore_ports (c : Nat) (x : Core) : (s.setCore c x).ports = s.ports := rfl
@[simp] theorem State.setCore_regs (c : Nat) (x : Core) : (s.setCore c x).regs = s.regs := rfl
@[simp] theorem State.setCore_errors (c : Nat) (x : Core) : (s.setCore c x).errors = s.errors := rfl
@[simp] theorem State.setCore_retired (c : Nat) (x : Core) : (s.setCore c x).retired = s.retired := rfl
@[simp] theorem State.setCore_halted (c : Nat) (x : Core) : (s.setCore c x).halted = s.halted := rfl
@[simp] theorem State.setCore_agenda (c : Nat) (x : Core) : (s.setCore c x).agenda = s.agenda := rfl
@[simp] theorem State.setCore_inputs (c : Nat) (x : Core) : (s.setCore c x).inputs = s.inputs := rfl
@[simp] theorem State.setCore_outs (c : Nat) (x : Core) : (s.setCore c x).outs = s.outs := rfl
@[simp] theorem State.setCore_free (c : Nat) (x : Core) : (s.setCore c x).free = s.free := rfl
@[simp] theorem State.setCore_cores (c : Nat) (x : Core) : (s.setCore c x).cores = put s.cores c x := rfl

/-! ### onCore -/

@[simp] theorem State.onCore_now (c : Nat) (f : Core → Core) : (s.onCore c f).now = s.now := rfl
@[simp] theorem State.onCore_plan (c : Nat) (f : Core → Core) : (s.onCore c f).plan = s.plan := rfl
@[simp] theorem State.onCore_iss (c : Nat) (f : Core → Core) : (s.onCore c f).iss = s.iss := rfl
@[simp] theorem State.onCore_units (c : Nat) (f : Core → Core) : (s.onCore c f).units = s.units := rfl
@[simp] theorem State.onCore_launches (c : Nat) (f : Core → Core) : (s.onCore c f).launches = s.launches := rfl
@[simp] theorem State.onCore_jobs (c : Nat) (f : Core → Core) : (s.onCore c f).jobs = s.jobs := rfl
@[simp] theorem State.onCore_gangs (c : Nat) (f : Core → Core) : (s.onCore c f).gangs = s.gangs := rfl
@[simp] theorem State.onCore_ended (c : Nat) (f : Core → Core) : (s.onCore c f).ended = s.ended := rfl
@[simp] theorem State.onCore_loads (c : Nat) (f : Core → Core) : (s.onCore c f).loads = s.loads := rfl
@[simp] theorem State.onCore_nextKey (c : Nat) (f : Core → Core) : (s.onCore c f).nextKey = s.nextKey := rfl
@[simp] theorem State.onCore_mem (c : Nat) (f : Core → Core) : (s.onCore c f).mem = s.mem := rfl
@[simp] theorem State.onCore_keyTag (c : Nat) (f : Core → Core) : (s.onCore c f).keyTag = s.keyTag := rfl
@[simp] theorem State.onCore_bad (c : Nat) (f : Core → Core) : (s.onCore c f).bad = s.bad := rfl
@[simp] theorem State.onCore_l2 (c : Nat) (f : Core → Core) : (s.onCore c f).l2 = s.l2 := rfl
@[simp] theorem State.onCore_hostBits (c : Nat) (f : Core → Core) : (s.onCore c f).hostBits = s.hostBits := rfl
@[simp] theorem State.onCore_hostDir (c : Nat) (f : Core → Core) : (s.onCore c f).hostDir = s.hostDir := rfl
@[simp] theorem State.onCore_ctlb (c : Nat) (f : Core → Core) : (s.onCore c f).ctlb = s.ctlb := rfl
@[simp] theorem State.onCore_dtlb (c : Nat) (f : Core → Core) : (s.onCore c f).dtlb = s.dtlb := rfl
@[simp] theorem State.onCore_nonLeaf (c : Nat) (f : Core → Core) : (s.onCore c f).nonLeaf = s.nonLeaf := rfl
@[simp] theorem State.onCore_walks (c : Nat) (f : Core → Core) : (s.onCore c f).walks = s.walks := rfl
@[simp] theorem State.onCore_pageReqs (c : Nat) (f : Core → Core) : (s.onCore c f).pageReqs = s.pageReqs := rfl
@[simp] theorem State.onCore_asids (c : Nat) (f : Core → Core) : (s.onCore c f).asids = s.asids := rfl
@[simp] theorem State.onCore_failures (c : Nat) (f : Core → Core) : (s.onCore c f).failures = s.failures := rfl
@[simp] theorem State.onCore_answers (c : Nat) (f : Core → Core) : (s.onCore c f).answers = s.answers := rfl
@[simp] theorem State.onCore_walked (c : Nat) (f : Core → Core) : (s.onCore c f).walked = s.walked := rfl
@[simp] theorem State.onCore_invals (c : Nat) (f : Core → Core) : (s.onCore c f).invals = s.invals := rfl
@[simp] theorem State.onCore_keys (c : Nat) (f : Core → Core) : (s.onCore c f).keys = s.keys := rfl
@[simp] theorem State.onCore_streams (c : Nat) (f : Core → Core) : (s.onCore c f).streams = s.streams := rfl
@[simp] theorem State.onCore_drives (c : Nat) (f : Core → Core) : (s.onCore c f).drives = s.drives := rfl
@[simp] theorem State.onCore_halyard (c : Nat) (f : Core → Core) : (s.onCore c f).halyard = s.halyard := rfl
@[simp] theorem State.onCore_collHeld (c : Nat) (f : Core → Core) : (s.onCore c f).collHeld = s.collHeld := rfl
@[simp] theorem State.onCore_collDones (c : Nat) (f : Core → Core) : (s.onCore c f).collDones = s.collDones := rfl
@[simp] theorem State.onCore_tells (c : Nat) (f : Core → Core) : (s.onCore c f).tells = s.tells := rfl
@[simp] theorem State.onCore_samples (c : Nat) (f : Core → Core) : (s.onCore c f).samples = s.samples := rfl
@[simp] theorem State.onCore_ports (c : Nat) (f : Core → Core) : (s.onCore c f).ports = s.ports := rfl
@[simp] theorem State.onCore_regs (c : Nat) (f : Core → Core) : (s.onCore c f).regs = s.regs := rfl
@[simp] theorem State.onCore_errors (c : Nat) (f : Core → Core) : (s.onCore c f).errors = s.errors := rfl
@[simp] theorem State.onCore_retired (c : Nat) (f : Core → Core) : (s.onCore c f).retired = s.retired := rfl
@[simp] theorem State.onCore_halted (c : Nat) (f : Core → Core) : (s.onCore c f).halted = s.halted := rfl
@[simp] theorem State.onCore_agenda (c : Nat) (f : Core → Core) : (s.onCore c f).agenda = s.agenda := rfl
@[simp] theorem State.onCore_inputs (c : Nat) (f : Core → Core) : (s.onCore c f).inputs = s.inputs := rfl
@[simp] theorem State.onCore_outs (c : Nat) (f : Core → Core) : (s.onCore c f).outs = s.outs := rfl
@[simp] theorem State.onCore_free (c : Nat) (f : Core → Core) : (s.onCore c f).free = s.free := rfl

/-! ### setCtx -/

@[simp] theorem State.setCtx_now (c k : Nat) (x : Ctx) : (s.setCtx c k x).now = s.now := rfl
@[simp] theorem State.setCtx_plan (c k : Nat) (x : Ctx) : (s.setCtx c k x).plan = s.plan := rfl
@[simp] theorem State.setCtx_iss (c k : Nat) (x : Ctx) : (s.setCtx c k x).iss = s.iss := rfl
@[simp] theorem State.setCtx_units (c k : Nat) (x : Ctx) : (s.setCtx c k x).units = s.units := rfl
@[simp] theorem State.setCtx_launches (c k : Nat) (x : Ctx) : (s.setCtx c k x).launches = s.launches := rfl
@[simp] theorem State.setCtx_jobs (c k : Nat) (x : Ctx) : (s.setCtx c k x).jobs = s.jobs := rfl
@[simp] theorem State.setCtx_gangs (c k : Nat) (x : Ctx) : (s.setCtx c k x).gangs = s.gangs := rfl
@[simp] theorem State.setCtx_ended (c k : Nat) (x : Ctx) : (s.setCtx c k x).ended = s.ended := rfl
@[simp] theorem State.setCtx_loads (c k : Nat) (x : Ctx) : (s.setCtx c k x).loads = s.loads := rfl
@[simp] theorem State.setCtx_nextKey (c k : Nat) (x : Ctx) : (s.setCtx c k x).nextKey = s.nextKey := rfl
@[simp] theorem State.setCtx_mem (c k : Nat) (x : Ctx) : (s.setCtx c k x).mem = s.mem := rfl
@[simp] theorem State.setCtx_keyTag (c k : Nat) (x : Ctx) : (s.setCtx c k x).keyTag = s.keyTag := rfl
@[simp] theorem State.setCtx_bad (c k : Nat) (x : Ctx) : (s.setCtx c k x).bad = s.bad := rfl
@[simp] theorem State.setCtx_l2 (c k : Nat) (x : Ctx) : (s.setCtx c k x).l2 = s.l2 := rfl
@[simp] theorem State.setCtx_hostBits (c k : Nat) (x : Ctx) : (s.setCtx c k x).hostBits = s.hostBits := rfl
@[simp] theorem State.setCtx_hostDir (c k : Nat) (x : Ctx) : (s.setCtx c k x).hostDir = s.hostDir := rfl
@[simp] theorem State.setCtx_ctlb (c k : Nat) (x : Ctx) : (s.setCtx c k x).ctlb = s.ctlb := rfl
@[simp] theorem State.setCtx_dtlb (c k : Nat) (x : Ctx) : (s.setCtx c k x).dtlb = s.dtlb := rfl
@[simp] theorem State.setCtx_nonLeaf (c k : Nat) (x : Ctx) : (s.setCtx c k x).nonLeaf = s.nonLeaf := rfl
@[simp] theorem State.setCtx_walks (c k : Nat) (x : Ctx) : (s.setCtx c k x).walks = s.walks := rfl
@[simp] theorem State.setCtx_pageReqs (c k : Nat) (x : Ctx) : (s.setCtx c k x).pageReqs = s.pageReqs := rfl
@[simp] theorem State.setCtx_asids (c k : Nat) (x : Ctx) : (s.setCtx c k x).asids = s.asids := rfl
@[simp] theorem State.setCtx_failures (c k : Nat) (x : Ctx) : (s.setCtx c k x).failures = s.failures := rfl
@[simp] theorem State.setCtx_answers (c k : Nat) (x : Ctx) : (s.setCtx c k x).answers = s.answers := rfl
@[simp] theorem State.setCtx_walked (c k : Nat) (x : Ctx) : (s.setCtx c k x).walked = s.walked := rfl
@[simp] theorem State.setCtx_invals (c k : Nat) (x : Ctx) : (s.setCtx c k x).invals = s.invals := rfl
@[simp] theorem State.setCtx_keys (c k : Nat) (x : Ctx) : (s.setCtx c k x).keys = s.keys := rfl
@[simp] theorem State.setCtx_streams (c k : Nat) (x : Ctx) : (s.setCtx c k x).streams = s.streams := rfl
@[simp] theorem State.setCtx_drives (c k : Nat) (x : Ctx) : (s.setCtx c k x).drives = s.drives := rfl
@[simp] theorem State.setCtx_halyard (c k : Nat) (x : Ctx) : (s.setCtx c k x).halyard = s.halyard := rfl
@[simp] theorem State.setCtx_collHeld (c k : Nat) (x : Ctx) : (s.setCtx c k x).collHeld = s.collHeld := rfl
@[simp] theorem State.setCtx_collDones (c k : Nat) (x : Ctx) : (s.setCtx c k x).collDones = s.collDones := rfl
@[simp] theorem State.setCtx_tells (c k : Nat) (x : Ctx) : (s.setCtx c k x).tells = s.tells := rfl
@[simp] theorem State.setCtx_samples (c k : Nat) (x : Ctx) : (s.setCtx c k x).samples = s.samples := rfl
@[simp] theorem State.setCtx_ports (c k : Nat) (x : Ctx) : (s.setCtx c k x).ports = s.ports := rfl
@[simp] theorem State.setCtx_regs (c k : Nat) (x : Ctx) : (s.setCtx c k x).regs = s.regs := rfl
@[simp] theorem State.setCtx_errors (c k : Nat) (x : Ctx) : (s.setCtx c k x).errors = s.errors := rfl
@[simp] theorem State.setCtx_retired (c k : Nat) (x : Ctx) : (s.setCtx c k x).retired = s.retired := rfl
@[simp] theorem State.setCtx_halted (c k : Nat) (x : Ctx) : (s.setCtx c k x).halted = s.halted := rfl
@[simp] theorem State.setCtx_agenda (c k : Nat) (x : Ctx) : (s.setCtx c k x).agenda = s.agenda := rfl
@[simp] theorem State.setCtx_inputs (c k : Nat) (x : Ctx) : (s.setCtx c k x).inputs = s.inputs := rfl
@[simp] theorem State.setCtx_outs (c k : Nat) (x : Ctx) : (s.setCtx c k x).outs = s.outs := rfl
@[simp] theorem State.setCtx_free (c k : Nat) (x : Ctx) : (s.setCtx c k x).free = s.free := rfl

/-! ### onCtx -/

@[simp] theorem State.onCtx_now (c k : Nat) (f : Ctx → Ctx) : (s.onCtx c k f).now = s.now := rfl
@[simp] theorem State.onCtx_plan (c k : Nat) (f : Ctx → Ctx) : (s.onCtx c k f).plan = s.plan := rfl
@[simp] theorem State.onCtx_iss (c k : Nat) (f : Ctx → Ctx) : (s.onCtx c k f).iss = s.iss := rfl
@[simp] theorem State.onCtx_units (c k : Nat) (f : Ctx → Ctx) : (s.onCtx c k f).units = s.units := rfl
@[simp] theorem State.onCtx_launches (c k : Nat) (f : Ctx → Ctx) : (s.onCtx c k f).launches = s.launches := rfl
@[simp] theorem State.onCtx_jobs (c k : Nat) (f : Ctx → Ctx) : (s.onCtx c k f).jobs = s.jobs := rfl
@[simp] theorem State.onCtx_gangs (c k : Nat) (f : Ctx → Ctx) : (s.onCtx c k f).gangs = s.gangs := rfl
@[simp] theorem State.onCtx_ended (c k : Nat) (f : Ctx → Ctx) : (s.onCtx c k f).ended = s.ended := rfl
@[simp] theorem State.onCtx_loads (c k : Nat) (f : Ctx → Ctx) : (s.onCtx c k f).loads = s.loads := rfl
@[simp] theorem State.onCtx_nextKey (c k : Nat) (f : Ctx → Ctx) : (s.onCtx c k f).nextKey = s.nextKey := rfl
@[simp] theorem State.onCtx_mem (c k : Nat) (f : Ctx → Ctx) : (s.onCtx c k f).mem = s.mem := rfl
@[simp] theorem State.onCtx_keyTag (c k : Nat) (f : Ctx → Ctx) : (s.onCtx c k f).keyTag = s.keyTag := rfl
@[simp] theorem State.onCtx_bad (c k : Nat) (f : Ctx → Ctx) : (s.onCtx c k f).bad = s.bad := rfl
@[simp] theorem State.onCtx_l2 (c k : Nat) (f : Ctx → Ctx) : (s.onCtx c k f).l2 = s.l2 := rfl
@[simp] theorem State.onCtx_hostBits (c k : Nat) (f : Ctx → Ctx) : (s.onCtx c k f).hostBits = s.hostBits := rfl
@[simp] theorem State.onCtx_hostDir (c k : Nat) (f : Ctx → Ctx) : (s.onCtx c k f).hostDir = s.hostDir := rfl
@[simp] theorem State.onCtx_ctlb (c k : Nat) (f : Ctx → Ctx) : (s.onCtx c k f).ctlb = s.ctlb := rfl
@[simp] theorem State.onCtx_dtlb (c k : Nat) (f : Ctx → Ctx) : (s.onCtx c k f).dtlb = s.dtlb := rfl
@[simp] theorem State.onCtx_nonLeaf (c k : Nat) (f : Ctx → Ctx) : (s.onCtx c k f).nonLeaf = s.nonLeaf := rfl
@[simp] theorem State.onCtx_walks (c k : Nat) (f : Ctx → Ctx) : (s.onCtx c k f).walks = s.walks := rfl
@[simp] theorem State.onCtx_pageReqs (c k : Nat) (f : Ctx → Ctx) : (s.onCtx c k f).pageReqs = s.pageReqs := rfl
@[simp] theorem State.onCtx_asids (c k : Nat) (f : Ctx → Ctx) : (s.onCtx c k f).asids = s.asids := rfl
@[simp] theorem State.onCtx_failures (c k : Nat) (f : Ctx → Ctx) : (s.onCtx c k f).failures = s.failures := rfl
@[simp] theorem State.onCtx_answers (c k : Nat) (f : Ctx → Ctx) : (s.onCtx c k f).answers = s.answers := rfl
@[simp] theorem State.onCtx_walked (c k : Nat) (f : Ctx → Ctx) : (s.onCtx c k f).walked = s.walked := rfl
@[simp] theorem State.onCtx_invals (c k : Nat) (f : Ctx → Ctx) : (s.onCtx c k f).invals = s.invals := rfl
@[simp] theorem State.onCtx_keys (c k : Nat) (f : Ctx → Ctx) : (s.onCtx c k f).keys = s.keys := rfl
@[simp] theorem State.onCtx_streams (c k : Nat) (f : Ctx → Ctx) : (s.onCtx c k f).streams = s.streams := rfl
@[simp] theorem State.onCtx_drives (c k : Nat) (f : Ctx → Ctx) : (s.onCtx c k f).drives = s.drives := rfl
@[simp] theorem State.onCtx_halyard (c k : Nat) (f : Ctx → Ctx) : (s.onCtx c k f).halyard = s.halyard := rfl
@[simp] theorem State.onCtx_collHeld (c k : Nat) (f : Ctx → Ctx) : (s.onCtx c k f).collHeld = s.collHeld := rfl
@[simp] theorem State.onCtx_collDones (c k : Nat) (f : Ctx → Ctx) : (s.onCtx c k f).collDones = s.collDones := rfl
@[simp] theorem State.onCtx_tells (c k : Nat) (f : Ctx → Ctx) : (s.onCtx c k f).tells = s.tells := rfl
@[simp] theorem State.onCtx_samples (c k : Nat) (f : Ctx → Ctx) : (s.onCtx c k f).samples = s.samples := rfl
@[simp] theorem State.onCtx_ports (c k : Nat) (f : Ctx → Ctx) : (s.onCtx c k f).ports = s.ports := rfl
@[simp] theorem State.onCtx_regs (c k : Nat) (f : Ctx → Ctx) : (s.onCtx c k f).regs = s.regs := rfl
@[simp] theorem State.onCtx_errors (c k : Nat) (f : Ctx → Ctx) : (s.onCtx c k f).errors = s.errors := rfl
@[simp] theorem State.onCtx_retired (c k : Nat) (f : Ctx → Ctx) : (s.onCtx c k f).retired = s.retired := rfl
@[simp] theorem State.onCtx_halted (c k : Nat) (f : Ctx → Ctx) : (s.onCtx c k f).halted = s.halted := rfl
@[simp] theorem State.onCtx_agenda (c k : Nat) (f : Ctx → Ctx) : (s.onCtx c k f).agenda = s.agenda := rfl
@[simp] theorem State.onCtx_inputs (c k : Nat) (f : Ctx → Ctx) : (s.onCtx c k f).inputs = s.inputs := rfl
@[simp] theorem State.onCtx_outs (c k : Nat) (f : Ctx → Ctx) : (s.onCtx c k f).outs = s.outs := rfl
@[simp] theorem State.onCtx_free (c k : Nat) (f : Ctx → Ctx) : (s.onCtx c k f).free = s.free := rfl

/-! ### onMe -/

@[simp] theorem State.onMe_now (f : Ctx → Ctx) : (s.onMe f).now = s.now := rfl
@[simp] theorem State.onMe_plan (f : Ctx → Ctx) : (s.onMe f).plan = s.plan := rfl
@[simp] theorem State.onMe_iss (f : Ctx → Ctx) : (s.onMe f).iss = s.iss := rfl
@[simp] theorem State.onMe_units (f : Ctx → Ctx) : (s.onMe f).units = s.units := rfl
@[simp] theorem State.onMe_launches (f : Ctx → Ctx) : (s.onMe f).launches = s.launches := rfl
@[simp] theorem State.onMe_jobs (f : Ctx → Ctx) : (s.onMe f).jobs = s.jobs := rfl
@[simp] theorem State.onMe_gangs (f : Ctx → Ctx) : (s.onMe f).gangs = s.gangs := rfl
@[simp] theorem State.onMe_ended (f : Ctx → Ctx) : (s.onMe f).ended = s.ended := rfl
@[simp] theorem State.onMe_loads (f : Ctx → Ctx) : (s.onMe f).loads = s.loads := rfl
@[simp] theorem State.onMe_nextKey (f : Ctx → Ctx) : (s.onMe f).nextKey = s.nextKey := rfl
@[simp] theorem State.onMe_mem (f : Ctx → Ctx) : (s.onMe f).mem = s.mem := rfl
@[simp] theorem State.onMe_keyTag (f : Ctx → Ctx) : (s.onMe f).keyTag = s.keyTag := rfl
@[simp] theorem State.onMe_bad (f : Ctx → Ctx) : (s.onMe f).bad = s.bad := rfl
@[simp] theorem State.onMe_l2 (f : Ctx → Ctx) : (s.onMe f).l2 = s.l2 := rfl
@[simp] theorem State.onMe_hostBits (f : Ctx → Ctx) : (s.onMe f).hostBits = s.hostBits := rfl
@[simp] theorem State.onMe_hostDir (f : Ctx → Ctx) : (s.onMe f).hostDir = s.hostDir := rfl
@[simp] theorem State.onMe_ctlb (f : Ctx → Ctx) : (s.onMe f).ctlb = s.ctlb := rfl
@[simp] theorem State.onMe_dtlb (f : Ctx → Ctx) : (s.onMe f).dtlb = s.dtlb := rfl
@[simp] theorem State.onMe_nonLeaf (f : Ctx → Ctx) : (s.onMe f).nonLeaf = s.nonLeaf := rfl
@[simp] theorem State.onMe_walks (f : Ctx → Ctx) : (s.onMe f).walks = s.walks := rfl
@[simp] theorem State.onMe_pageReqs (f : Ctx → Ctx) : (s.onMe f).pageReqs = s.pageReqs := rfl
@[simp] theorem State.onMe_asids (f : Ctx → Ctx) : (s.onMe f).asids = s.asids := rfl
@[simp] theorem State.onMe_failures (f : Ctx → Ctx) : (s.onMe f).failures = s.failures := rfl
@[simp] theorem State.onMe_answers (f : Ctx → Ctx) : (s.onMe f).answers = s.answers := rfl
@[simp] theorem State.onMe_walked (f : Ctx → Ctx) : (s.onMe f).walked = s.walked := rfl
@[simp] theorem State.onMe_invals (f : Ctx → Ctx) : (s.onMe f).invals = s.invals := rfl
@[simp] theorem State.onMe_keys (f : Ctx → Ctx) : (s.onMe f).keys = s.keys := rfl
@[simp] theorem State.onMe_streams (f : Ctx → Ctx) : (s.onMe f).streams = s.streams := rfl
@[simp] theorem State.onMe_drives (f : Ctx → Ctx) : (s.onMe f).drives = s.drives := rfl
@[simp] theorem State.onMe_halyard (f : Ctx → Ctx) : (s.onMe f).halyard = s.halyard := rfl
@[simp] theorem State.onMe_collHeld (f : Ctx → Ctx) : (s.onMe f).collHeld = s.collHeld := rfl
@[simp] theorem State.onMe_collDones (f : Ctx → Ctx) : (s.onMe f).collDones = s.collDones := rfl
@[simp] theorem State.onMe_tells (f : Ctx → Ctx) : (s.onMe f).tells = s.tells := rfl
@[simp] theorem State.onMe_samples (f : Ctx → Ctx) : (s.onMe f).samples = s.samples := rfl
@[simp] theorem State.onMe_ports (f : Ctx → Ctx) : (s.onMe f).ports = s.ports := rfl
@[simp] theorem State.onMe_regs (f : Ctx → Ctx) : (s.onMe f).regs = s.regs := rfl
@[simp] theorem State.onMe_errors (f : Ctx → Ctx) : (s.onMe f).errors = s.errors := rfl
@[simp] theorem State.onMe_retired (f : Ctx → Ctx) : (s.onMe f).retired = s.retired := rfl
@[simp] theorem State.onMe_halted (f : Ctx → Ctx) : (s.onMe f).halted = s.halted := rfl
@[simp] theorem State.onMe_agenda (f : Ctx → Ctx) : (s.onMe f).agenda = s.agenda := rfl
@[simp] theorem State.onMe_inputs (f : Ctx → Ctx) : (s.onMe f).inputs = s.inputs := rfl
@[simp] theorem State.onMe_outs (f : Ctx → Ctx) : (s.onMe f).outs = s.outs := rfl
@[simp] theorem State.onMe_free (f : Ctx → Ctx) : (s.onMe f).free = s.free := rfl

/-! ### onMyCore -/

@[simp] theorem State.onMyCore_now (f : Core → Core) : (s.onMyCore f).now = s.now := rfl
@[simp] theorem State.onMyCore_plan (f : Core → Core) : (s.onMyCore f).plan = s.plan := rfl
@[simp] theorem State.onMyCore_iss (f : Core → Core) : (s.onMyCore f).iss = s.iss := rfl
@[simp] theorem State.onMyCore_units (f : Core → Core) : (s.onMyCore f).units = s.units := rfl
@[simp] theorem State.onMyCore_launches (f : Core → Core) : (s.onMyCore f).launches = s.launches := rfl
@[simp] theorem State.onMyCore_jobs (f : Core → Core) : (s.onMyCore f).jobs = s.jobs := rfl
@[simp] theorem State.onMyCore_gangs (f : Core → Core) : (s.onMyCore f).gangs = s.gangs := rfl
@[simp] theorem State.onMyCore_ended (f : Core → Core) : (s.onMyCore f).ended = s.ended := rfl
@[simp] theorem State.onMyCore_loads (f : Core → Core) : (s.onMyCore f).loads = s.loads := rfl
@[simp] theorem State.onMyCore_nextKey (f : Core → Core) : (s.onMyCore f).nextKey = s.nextKey := rfl
@[simp] theorem State.onMyCore_mem (f : Core → Core) : (s.onMyCore f).mem = s.mem := rfl
@[simp] theorem State.onMyCore_keyTag (f : Core → Core) : (s.onMyCore f).keyTag = s.keyTag := rfl
@[simp] theorem State.onMyCore_bad (f : Core → Core) : (s.onMyCore f).bad = s.bad := rfl
@[simp] theorem State.onMyCore_l2 (f : Core → Core) : (s.onMyCore f).l2 = s.l2 := rfl
@[simp] theorem State.onMyCore_hostBits (f : Core → Core) : (s.onMyCore f).hostBits = s.hostBits := rfl
@[simp] theorem State.onMyCore_hostDir (f : Core → Core) : (s.onMyCore f).hostDir = s.hostDir := rfl
@[simp] theorem State.onMyCore_ctlb (f : Core → Core) : (s.onMyCore f).ctlb = s.ctlb := rfl
@[simp] theorem State.onMyCore_dtlb (f : Core → Core) : (s.onMyCore f).dtlb = s.dtlb := rfl
@[simp] theorem State.onMyCore_nonLeaf (f : Core → Core) : (s.onMyCore f).nonLeaf = s.nonLeaf := rfl
@[simp] theorem State.onMyCore_walks (f : Core → Core) : (s.onMyCore f).walks = s.walks := rfl
@[simp] theorem State.onMyCore_pageReqs (f : Core → Core) : (s.onMyCore f).pageReqs = s.pageReqs := rfl
@[simp] theorem State.onMyCore_asids (f : Core → Core) : (s.onMyCore f).asids = s.asids := rfl
@[simp] theorem State.onMyCore_failures (f : Core → Core) : (s.onMyCore f).failures = s.failures := rfl
@[simp] theorem State.onMyCore_answers (f : Core → Core) : (s.onMyCore f).answers = s.answers := rfl
@[simp] theorem State.onMyCore_walked (f : Core → Core) : (s.onMyCore f).walked = s.walked := rfl
@[simp] theorem State.onMyCore_invals (f : Core → Core) : (s.onMyCore f).invals = s.invals := rfl
@[simp] theorem State.onMyCore_keys (f : Core → Core) : (s.onMyCore f).keys = s.keys := rfl
@[simp] theorem State.onMyCore_streams (f : Core → Core) : (s.onMyCore f).streams = s.streams := rfl
@[simp] theorem State.onMyCore_drives (f : Core → Core) : (s.onMyCore f).drives = s.drives := rfl
@[simp] theorem State.onMyCore_halyard (f : Core → Core) : (s.onMyCore f).halyard = s.halyard := rfl
@[simp] theorem State.onMyCore_collHeld (f : Core → Core) : (s.onMyCore f).collHeld = s.collHeld := rfl
@[simp] theorem State.onMyCore_collDones (f : Core → Core) : (s.onMyCore f).collDones = s.collDones := rfl
@[simp] theorem State.onMyCore_tells (f : Core → Core) : (s.onMyCore f).tells = s.tells := rfl
@[simp] theorem State.onMyCore_samples (f : Core → Core) : (s.onMyCore f).samples = s.samples := rfl
@[simp] theorem State.onMyCore_ports (f : Core → Core) : (s.onMyCore f).ports = s.ports := rfl
@[simp] theorem State.onMyCore_regs (f : Core → Core) : (s.onMyCore f).regs = s.regs := rfl
@[simp] theorem State.onMyCore_errors (f : Core → Core) : (s.onMyCore f).errors = s.errors := rfl
@[simp] theorem State.onMyCore_retired (f : Core → Core) : (s.onMyCore f).retired = s.retired := rfl
@[simp] theorem State.onMyCore_halted (f : Core → Core) : (s.onMyCore f).halted = s.halted := rfl
@[simp] theorem State.onMyCore_agenda (f : Core → Core) : (s.onMyCore f).agenda = s.agenda := rfl
@[simp] theorem State.onMyCore_inputs (f : Core → Core) : (s.onMyCore f).inputs = s.inputs := rfl
@[simp] theorem State.onMyCore_outs (f : Core → Core) : (s.onMyCore f).outs = s.outs := rfl
@[simp] theorem State.onMyCore_free (f : Core → Core) : (s.onMyCore f).free = s.free := rfl

/-! ### fly -/

@[simp] theorem State.fly_now (f : Flight) : (s.fly f).now = s.now := rfl
@[simp] theorem State.fly_plan (f : Flight) : (s.fly f).plan = s.plan := rfl
@[simp] theorem State.fly_iss (f : Flight) : (s.fly f).iss = s.iss := rfl
@[simp] theorem State.fly_units (f : Flight) : (s.fly f).units = s.units := rfl
@[simp] theorem State.fly_launches (f : Flight) : (s.fly f).launches = s.launches := rfl
@[simp] theorem State.fly_jobs (f : Flight) : (s.fly f).jobs = s.jobs := rfl
@[simp] theorem State.fly_gangs (f : Flight) : (s.fly f).gangs = s.gangs := rfl
@[simp] theorem State.fly_ended (f : Flight) : (s.fly f).ended = s.ended := rfl
@[simp] theorem State.fly_loads (f : Flight) : (s.fly f).loads = s.loads := rfl
@[simp] theorem State.fly_nextKey (f : Flight) : (s.fly f).nextKey = s.nextKey := rfl
@[simp] theorem State.fly_mem (f : Flight) : (s.fly f).mem = s.mem := rfl
@[simp] theorem State.fly_keyTag (f : Flight) : (s.fly f).keyTag = s.keyTag := rfl
@[simp] theorem State.fly_bad (f : Flight) : (s.fly f).bad = s.bad := rfl
@[simp] theorem State.fly_l2 (f : Flight) : (s.fly f).l2 = s.l2 := rfl
@[simp] theorem State.fly_hostBits (f : Flight) : (s.fly f).hostBits = s.hostBits := rfl
@[simp] theorem State.fly_hostDir (f : Flight) : (s.fly f).hostDir = s.hostDir := rfl
@[simp] theorem State.fly_ctlb (f : Flight) : (s.fly f).ctlb = s.ctlb := rfl
@[simp] theorem State.fly_dtlb (f : Flight) : (s.fly f).dtlb = s.dtlb := rfl
@[simp] theorem State.fly_nonLeaf (f : Flight) : (s.fly f).nonLeaf = s.nonLeaf := rfl
@[simp] theorem State.fly_walks (f : Flight) : (s.fly f).walks = s.walks := rfl
@[simp] theorem State.fly_pageReqs (f : Flight) : (s.fly f).pageReqs = s.pageReqs := rfl
@[simp] theorem State.fly_asids (f : Flight) : (s.fly f).asids = s.asids := rfl
@[simp] theorem State.fly_failures (f : Flight) : (s.fly f).failures = s.failures := rfl
@[simp] theorem State.fly_answers (f : Flight) : (s.fly f).answers = s.answers := rfl
@[simp] theorem State.fly_walked (f : Flight) : (s.fly f).walked = s.walked := rfl
@[simp] theorem State.fly_invals (f : Flight) : (s.fly f).invals = s.invals := rfl
@[simp] theorem State.fly_keys (f : Flight) : (s.fly f).keys = s.keys := rfl
@[simp] theorem State.fly_streams (f : Flight) : (s.fly f).streams = s.streams := rfl
@[simp] theorem State.fly_drives (f : Flight) : (s.fly f).drives = s.drives := rfl
@[simp] theorem State.fly_halyard (f : Flight) : (s.fly f).halyard = s.halyard := rfl
@[simp] theorem State.fly_collHeld (f : Flight) : (s.fly f).collHeld = s.collHeld := rfl
@[simp] theorem State.fly_collDones (f : Flight) : (s.fly f).collDones = s.collDones := rfl
@[simp] theorem State.fly_tells (f : Flight) : (s.fly f).tells = s.tells := rfl
@[simp] theorem State.fly_samples (f : Flight) : (s.fly f).samples = s.samples := rfl
@[simp] theorem State.fly_ports (f : Flight) : (s.fly f).ports = s.ports := rfl
@[simp] theorem State.fly_regs (f : Flight) : (s.fly f).regs = s.regs := rfl
@[simp] theorem State.fly_errors (f : Flight) : (s.fly f).errors = s.errors := rfl
@[simp] theorem State.fly_retired (f : Flight) : (s.fly f).retired = s.retired := rfl
@[simp] theorem State.fly_halted (f : Flight) : (s.fly f).halted = s.halted := rfl
@[simp] theorem State.fly_agenda (f : Flight) : (s.fly f).agenda = s.agenda := rfl
@[simp] theorem State.fly_inputs (f : Flight) : (s.fly f).inputs = s.inputs := rfl
@[simp] theorem State.fly_outs (f : Flight) : (s.fly f).outs = s.outs := rfl
@[simp] theorem State.fly_free (f : Flight) : (s.fly f).free = s.free := rfl

/-! ### onUnit -/

@[simp] theorem State.onUnit_now (u : Nat) (f : Unit → Unit) : (s.onUnit u f).now = s.now := rfl
@[simp] theorem State.onUnit_plan (u : Nat) (f : Unit → Unit) : (s.onUnit u f).plan = s.plan := rfl
@[simp] theorem State.onUnit_iss (u : Nat) (f : Unit → Unit) : (s.onUnit u f).iss = s.iss := rfl
@[simp] theorem State.onUnit_cores (u : Nat) (f : Unit → Unit) : (s.onUnit u f).cores = s.cores := rfl
@[simp] theorem State.onUnit_launches (u : Nat) (f : Unit → Unit) : (s.onUnit u f).launches = s.launches := rfl
@[simp] theorem State.onUnit_jobs (u : Nat) (f : Unit → Unit) : (s.onUnit u f).jobs = s.jobs := rfl
@[simp] theorem State.onUnit_gangs (u : Nat) (f : Unit → Unit) : (s.onUnit u f).gangs = s.gangs := rfl
@[simp] theorem State.onUnit_ended (u : Nat) (f : Unit → Unit) : (s.onUnit u f).ended = s.ended := rfl
@[simp] theorem State.onUnit_loads (u : Nat) (f : Unit → Unit) : (s.onUnit u f).loads = s.loads := rfl
@[simp] theorem State.onUnit_nextKey (u : Nat) (f : Unit → Unit) : (s.onUnit u f).nextKey = s.nextKey := rfl
@[simp] theorem State.onUnit_mem (u : Nat) (f : Unit → Unit) : (s.onUnit u f).mem = s.mem := rfl
@[simp] theorem State.onUnit_keyTag (u : Nat) (f : Unit → Unit) : (s.onUnit u f).keyTag = s.keyTag := rfl
@[simp] theorem State.onUnit_bad (u : Nat) (f : Unit → Unit) : (s.onUnit u f).bad = s.bad := rfl
@[simp] theorem State.onUnit_l2 (u : Nat) (f : Unit → Unit) : (s.onUnit u f).l2 = s.l2 := rfl
@[simp] theorem State.onUnit_hostBits (u : Nat) (f : Unit → Unit) : (s.onUnit u f).hostBits = s.hostBits := rfl
@[simp] theorem State.onUnit_hostDir (u : Nat) (f : Unit → Unit) : (s.onUnit u f).hostDir = s.hostDir := rfl
@[simp] theorem State.onUnit_ctlb (u : Nat) (f : Unit → Unit) : (s.onUnit u f).ctlb = s.ctlb := rfl
@[simp] theorem State.onUnit_dtlb (u : Nat) (f : Unit → Unit) : (s.onUnit u f).dtlb = s.dtlb := rfl
@[simp] theorem State.onUnit_nonLeaf (u : Nat) (f : Unit → Unit) : (s.onUnit u f).nonLeaf = s.nonLeaf := rfl
@[simp] theorem State.onUnit_walks (u : Nat) (f : Unit → Unit) : (s.onUnit u f).walks = s.walks := rfl
@[simp] theorem State.onUnit_pageReqs (u : Nat) (f : Unit → Unit) : (s.onUnit u f).pageReqs = s.pageReqs := rfl
@[simp] theorem State.onUnit_asids (u : Nat) (f : Unit → Unit) : (s.onUnit u f).asids = s.asids := rfl
@[simp] theorem State.onUnit_failures (u : Nat) (f : Unit → Unit) : (s.onUnit u f).failures = s.failures := rfl
@[simp] theorem State.onUnit_answers (u : Nat) (f : Unit → Unit) : (s.onUnit u f).answers = s.answers := rfl
@[simp] theorem State.onUnit_walked (u : Nat) (f : Unit → Unit) : (s.onUnit u f).walked = s.walked := rfl
@[simp] theorem State.onUnit_invals (u : Nat) (f : Unit → Unit) : (s.onUnit u f).invals = s.invals := rfl
@[simp] theorem State.onUnit_keys (u : Nat) (f : Unit → Unit) : (s.onUnit u f).keys = s.keys := rfl
@[simp] theorem State.onUnit_streams (u : Nat) (f : Unit → Unit) : (s.onUnit u f).streams = s.streams := rfl
@[simp] theorem State.onUnit_drives (u : Nat) (f : Unit → Unit) : (s.onUnit u f).drives = s.drives := rfl
@[simp] theorem State.onUnit_halyard (u : Nat) (f : Unit → Unit) : (s.onUnit u f).halyard = s.halyard := rfl
@[simp] theorem State.onUnit_collHeld (u : Nat) (f : Unit → Unit) : (s.onUnit u f).collHeld = s.collHeld := rfl
@[simp] theorem State.onUnit_collDones (u : Nat) (f : Unit → Unit) : (s.onUnit u f).collDones = s.collDones := rfl
@[simp] theorem State.onUnit_tells (u : Nat) (f : Unit → Unit) : (s.onUnit u f).tells = s.tells := rfl
@[simp] theorem State.onUnit_samples (u : Nat) (f : Unit → Unit) : (s.onUnit u f).samples = s.samples := rfl
@[simp] theorem State.onUnit_ports (u : Nat) (f : Unit → Unit) : (s.onUnit u f).ports = s.ports := rfl
@[simp] theorem State.onUnit_regs (u : Nat) (f : Unit → Unit) : (s.onUnit u f).regs = s.regs := rfl
@[simp] theorem State.onUnit_errors (u : Nat) (f : Unit → Unit) : (s.onUnit u f).errors = s.errors := rfl
@[simp] theorem State.onUnit_retired (u : Nat) (f : Unit → Unit) : (s.onUnit u f).retired = s.retired := rfl
@[simp] theorem State.onUnit_halted (u : Nat) (f : Unit → Unit) : (s.onUnit u f).halted = s.halted := rfl
@[simp] theorem State.onUnit_agenda (u : Nat) (f : Unit → Unit) : (s.onUnit u f).agenda = s.agenda := rfl
@[simp] theorem State.onUnit_inputs (u : Nat) (f : Unit → Unit) : (s.onUnit u f).inputs = s.inputs := rfl
@[simp] theorem State.onUnit_outs (u : Nat) (f : Unit → Unit) : (s.onUnit u f).outs = s.outs := rfl
@[simp] theorem State.onUnit_free (u : Nat) (f : Unit → Unit) : (s.onUnit u f).free = s.free := rfl
@[simp] theorem State.onUnit_units (u : Nat) (f : Unit → Unit) : (s.onUnit u f).units = alter s.units u f := rfl

/-! ### onMyUnit -/

@[simp] theorem State.onMyUnit_now (f : Unit → Unit) : (s.onMyUnit f).now = s.now := rfl
@[simp] theorem State.onMyUnit_plan (f : Unit → Unit) : (s.onMyUnit f).plan = s.plan := rfl
@[simp] theorem State.onMyUnit_iss (f : Unit → Unit) : (s.onMyUnit f).iss = s.iss := rfl
@[simp] theorem State.onMyUnit_cores (f : Unit → Unit) : (s.onMyUnit f).cores = s.cores := rfl
@[simp] theorem State.onMyUnit_launches (f : Unit → Unit) : (s.onMyUnit f).launches = s.launches := rfl
@[simp] theorem State.onMyUnit_jobs (f : Unit → Unit) : (s.onMyUnit f).jobs = s.jobs := rfl
@[simp] theorem State.onMyUnit_gangs (f : Unit → Unit) : (s.onMyUnit f).gangs = s.gangs := rfl
@[simp] theorem State.onMyUnit_ended (f : Unit → Unit) : (s.onMyUnit f).ended = s.ended := rfl
@[simp] theorem State.onMyUnit_loads (f : Unit → Unit) : (s.onMyUnit f).loads = s.loads := rfl
@[simp] theorem State.onMyUnit_nextKey (f : Unit → Unit) : (s.onMyUnit f).nextKey = s.nextKey := rfl
@[simp] theorem State.onMyUnit_mem (f : Unit → Unit) : (s.onMyUnit f).mem = s.mem := rfl
@[simp] theorem State.onMyUnit_keyTag (f : Unit → Unit) : (s.onMyUnit f).keyTag = s.keyTag := rfl
@[simp] theorem State.onMyUnit_bad (f : Unit → Unit) : (s.onMyUnit f).bad = s.bad := rfl
@[simp] theorem State.onMyUnit_l2 (f : Unit → Unit) : (s.onMyUnit f).l2 = s.l2 := rfl
@[simp] theorem State.onMyUnit_hostBits (f : Unit → Unit) : (s.onMyUnit f).hostBits = s.hostBits := rfl
@[simp] theorem State.onMyUnit_hostDir (f : Unit → Unit) : (s.onMyUnit f).hostDir = s.hostDir := rfl
@[simp] theorem State.onMyUnit_ctlb (f : Unit → Unit) : (s.onMyUnit f).ctlb = s.ctlb := rfl
@[simp] theorem State.onMyUnit_dtlb (f : Unit → Unit) : (s.onMyUnit f).dtlb = s.dtlb := rfl
@[simp] theorem State.onMyUnit_nonLeaf (f : Unit → Unit) : (s.onMyUnit f).nonLeaf = s.nonLeaf := rfl
@[simp] theorem State.onMyUnit_walks (f : Unit → Unit) : (s.onMyUnit f).walks = s.walks := rfl
@[simp] theorem State.onMyUnit_pageReqs (f : Unit → Unit) : (s.onMyUnit f).pageReqs = s.pageReqs := rfl
@[simp] theorem State.onMyUnit_asids (f : Unit → Unit) : (s.onMyUnit f).asids = s.asids := rfl
@[simp] theorem State.onMyUnit_failures (f : Unit → Unit) : (s.onMyUnit f).failures = s.failures := rfl
@[simp] theorem State.onMyUnit_answers (f : Unit → Unit) : (s.onMyUnit f).answers = s.answers := rfl
@[simp] theorem State.onMyUnit_walked (f : Unit → Unit) : (s.onMyUnit f).walked = s.walked := rfl
@[simp] theorem State.onMyUnit_invals (f : Unit → Unit) : (s.onMyUnit f).invals = s.invals := rfl
@[simp] theorem State.onMyUnit_keys (f : Unit → Unit) : (s.onMyUnit f).keys = s.keys := rfl
@[simp] theorem State.onMyUnit_streams (f : Unit → Unit) : (s.onMyUnit f).streams = s.streams := rfl
@[simp] theorem State.onMyUnit_drives (f : Unit → Unit) : (s.onMyUnit f).drives = s.drives := rfl
@[simp] theorem State.onMyUnit_halyard (f : Unit → Unit) : (s.onMyUnit f).halyard = s.halyard := rfl
@[simp] theorem State.onMyUnit_collHeld (f : Unit → Unit) : (s.onMyUnit f).collHeld = s.collHeld := rfl
@[simp] theorem State.onMyUnit_collDones (f : Unit → Unit) : (s.onMyUnit f).collDones = s.collDones := rfl
@[simp] theorem State.onMyUnit_tells (f : Unit → Unit) : (s.onMyUnit f).tells = s.tells := rfl
@[simp] theorem State.onMyUnit_samples (f : Unit → Unit) : (s.onMyUnit f).samples = s.samples := rfl
@[simp] theorem State.onMyUnit_ports (f : Unit → Unit) : (s.onMyUnit f).ports = s.ports := rfl
@[simp] theorem State.onMyUnit_regs (f : Unit → Unit) : (s.onMyUnit f).regs = s.regs := rfl
@[simp] theorem State.onMyUnit_errors (f : Unit → Unit) : (s.onMyUnit f).errors = s.errors := rfl
@[simp] theorem State.onMyUnit_retired (f : Unit → Unit) : (s.onMyUnit f).retired = s.retired := rfl
@[simp] theorem State.onMyUnit_halted (f : Unit → Unit) : (s.onMyUnit f).halted = s.halted := rfl
@[simp] theorem State.onMyUnit_agenda (f : Unit → Unit) : (s.onMyUnit f).agenda = s.agenda := rfl
@[simp] theorem State.onMyUnit_inputs (f : Unit → Unit) : (s.onMyUnit f).inputs = s.inputs := rfl
@[simp] theorem State.onMyUnit_outs (f : Unit → Unit) : (s.onMyUnit f).outs = s.outs := rfl
@[simp] theorem State.onMyUnit_free (f : Unit → Unit) : (s.onMyUnit f).free = s.free := rfl

/-! ### at_ -/

@[simp] theorem State.atTime_now (n : Nat) (e : Event) : (s.at_ n e).now = s.now := rfl
@[simp] theorem State.atTime_plan (n : Nat) (e : Event) : (s.at_ n e).plan = s.plan := rfl
@[simp] theorem State.atTime_iss (n : Nat) (e : Event) : (s.at_ n e).iss = s.iss := rfl
@[simp] theorem State.atTime_cores (n : Nat) (e : Event) : (s.at_ n e).cores = s.cores := rfl
@[simp] theorem State.atTime_units (n : Nat) (e : Event) : (s.at_ n e).units = s.units := rfl
@[simp] theorem State.atTime_launches (n : Nat) (e : Event) : (s.at_ n e).launches = s.launches := rfl
@[simp] theorem State.atTime_jobs (n : Nat) (e : Event) : (s.at_ n e).jobs = s.jobs := rfl
@[simp] theorem State.atTime_gangs (n : Nat) (e : Event) : (s.at_ n e).gangs = s.gangs := rfl
@[simp] theorem State.atTime_ended (n : Nat) (e : Event) : (s.at_ n e).ended = s.ended := rfl
@[simp] theorem State.atTime_loads (n : Nat) (e : Event) : (s.at_ n e).loads = s.loads := rfl
@[simp] theorem State.atTime_nextKey (n : Nat) (e : Event) : (s.at_ n e).nextKey = s.nextKey := rfl
@[simp] theorem State.atTime_mem (n : Nat) (e : Event) : (s.at_ n e).mem = s.mem := rfl
@[simp] theorem State.atTime_keyTag (n : Nat) (e : Event) : (s.at_ n e).keyTag = s.keyTag := rfl
@[simp] theorem State.atTime_bad (n : Nat) (e : Event) : (s.at_ n e).bad = s.bad := rfl
@[simp] theorem State.atTime_l2 (n : Nat) (e : Event) : (s.at_ n e).l2 = s.l2 := rfl
@[simp] theorem State.atTime_hostBits (n : Nat) (e : Event) : (s.at_ n e).hostBits = s.hostBits := rfl
@[simp] theorem State.atTime_hostDir (n : Nat) (e : Event) : (s.at_ n e).hostDir = s.hostDir := rfl
@[simp] theorem State.atTime_ctlb (n : Nat) (e : Event) : (s.at_ n e).ctlb = s.ctlb := rfl
@[simp] theorem State.atTime_dtlb (n : Nat) (e : Event) : (s.at_ n e).dtlb = s.dtlb := rfl
@[simp] theorem State.atTime_nonLeaf (n : Nat) (e : Event) : (s.at_ n e).nonLeaf = s.nonLeaf := rfl
@[simp] theorem State.atTime_walks (n : Nat) (e : Event) : (s.at_ n e).walks = s.walks := rfl
@[simp] theorem State.atTime_pageReqs (n : Nat) (e : Event) : (s.at_ n e).pageReqs = s.pageReqs := rfl
@[simp] theorem State.atTime_asids (n : Nat) (e : Event) : (s.at_ n e).asids = s.asids := rfl
@[simp] theorem State.atTime_failures (n : Nat) (e : Event) : (s.at_ n e).failures = s.failures := rfl
@[simp] theorem State.atTime_answers (n : Nat) (e : Event) : (s.at_ n e).answers = s.answers := rfl
@[simp] theorem State.atTime_walked (n : Nat) (e : Event) : (s.at_ n e).walked = s.walked := rfl
@[simp] theorem State.atTime_invals (n : Nat) (e : Event) : (s.at_ n e).invals = s.invals := rfl
@[simp] theorem State.atTime_keys (n : Nat) (e : Event) : (s.at_ n e).keys = s.keys := rfl
@[simp] theorem State.atTime_streams (n : Nat) (e : Event) : (s.at_ n e).streams = s.streams := rfl
@[simp] theorem State.atTime_drives (n : Nat) (e : Event) : (s.at_ n e).drives = s.drives := rfl
@[simp] theorem State.atTime_halyard (n : Nat) (e : Event) : (s.at_ n e).halyard = s.halyard := rfl
@[simp] theorem State.atTime_collHeld (n : Nat) (e : Event) : (s.at_ n e).collHeld = s.collHeld := rfl
@[simp] theorem State.atTime_collDones (n : Nat) (e : Event) : (s.at_ n e).collDones = s.collDones := rfl
@[simp] theorem State.atTime_tells (n : Nat) (e : Event) : (s.at_ n e).tells = s.tells := rfl
@[simp] theorem State.atTime_samples (n : Nat) (e : Event) : (s.at_ n e).samples = s.samples := rfl
@[simp] theorem State.atTime_ports (n : Nat) (e : Event) : (s.at_ n e).ports = s.ports := rfl
@[simp] theorem State.atTime_regs (n : Nat) (e : Event) : (s.at_ n e).regs = s.regs := rfl
@[simp] theorem State.atTime_errors (n : Nat) (e : Event) : (s.at_ n e).errors = s.errors := rfl
@[simp] theorem State.atTime_retired (n : Nat) (e : Event) : (s.at_ n e).retired = s.retired := rfl
@[simp] theorem State.atTime_halted (n : Nat) (e : Event) : (s.at_ n e).halted = s.halted := rfl
@[simp] theorem State.atTime_inputs (n : Nat) (e : Event) : (s.at_ n e).inputs = s.inputs := rfl
@[simp] theorem State.atTime_outs (n : Nat) (e : Event) : (s.at_ n e).outs = s.outs := rfl
@[simp] theorem State.atTime_free (n : Nat) (e : Event) : (s.at_ n e).free = s.free := rfl
@[simp] theorem State.atTime_agenda (n : Nat) (e : Event) : (s.at_ n e).agenda = s.agenda ++ [(n, e)] := rfl

/-! ### after -/

@[simp] theorem State.after_now (n : Nat) (e : Event) : (s.after n e).now = s.now := rfl
@[simp] theorem State.after_plan (n : Nat) (e : Event) : (s.after n e).plan = s.plan := rfl
@[simp] theorem State.after_iss (n : Nat) (e : Event) : (s.after n e).iss = s.iss := rfl
@[simp] theorem State.after_cores (n : Nat) (e : Event) : (s.after n e).cores = s.cores := rfl
@[simp] theorem State.after_units (n : Nat) (e : Event) : (s.after n e).units = s.units := rfl
@[simp] theorem State.after_launches (n : Nat) (e : Event) : (s.after n e).launches = s.launches := rfl
@[simp] theorem State.after_jobs (n : Nat) (e : Event) : (s.after n e).jobs = s.jobs := rfl
@[simp] theorem State.after_gangs (n : Nat) (e : Event) : (s.after n e).gangs = s.gangs := rfl
@[simp] theorem State.after_ended (n : Nat) (e : Event) : (s.after n e).ended = s.ended := rfl
@[simp] theorem State.after_loads (n : Nat) (e : Event) : (s.after n e).loads = s.loads := rfl
@[simp] theorem State.after_nextKey (n : Nat) (e : Event) : (s.after n e).nextKey = s.nextKey := rfl
@[simp] theorem State.after_mem (n : Nat) (e : Event) : (s.after n e).mem = s.mem := rfl
@[simp] theorem State.after_keyTag (n : Nat) (e : Event) : (s.after n e).keyTag = s.keyTag := rfl
@[simp] theorem State.after_bad (n : Nat) (e : Event) : (s.after n e).bad = s.bad := rfl
@[simp] theorem State.after_l2 (n : Nat) (e : Event) : (s.after n e).l2 = s.l2 := rfl
@[simp] theorem State.after_hostBits (n : Nat) (e : Event) : (s.after n e).hostBits = s.hostBits := rfl
@[simp] theorem State.after_hostDir (n : Nat) (e : Event) : (s.after n e).hostDir = s.hostDir := rfl
@[simp] theorem State.after_ctlb (n : Nat) (e : Event) : (s.after n e).ctlb = s.ctlb := rfl
@[simp] theorem State.after_dtlb (n : Nat) (e : Event) : (s.after n e).dtlb = s.dtlb := rfl
@[simp] theorem State.after_nonLeaf (n : Nat) (e : Event) : (s.after n e).nonLeaf = s.nonLeaf := rfl
@[simp] theorem State.after_walks (n : Nat) (e : Event) : (s.after n e).walks = s.walks := rfl
@[simp] theorem State.after_pageReqs (n : Nat) (e : Event) : (s.after n e).pageReqs = s.pageReqs := rfl
@[simp] theorem State.after_asids (n : Nat) (e : Event) : (s.after n e).asids = s.asids := rfl
@[simp] theorem State.after_failures (n : Nat) (e : Event) : (s.after n e).failures = s.failures := rfl
@[simp] theorem State.after_answers (n : Nat) (e : Event) : (s.after n e).answers = s.answers := rfl
@[simp] theorem State.after_walked (n : Nat) (e : Event) : (s.after n e).walked = s.walked := rfl
@[simp] theorem State.after_invals (n : Nat) (e : Event) : (s.after n e).invals = s.invals := rfl
@[simp] theorem State.after_keys (n : Nat) (e : Event) : (s.after n e).keys = s.keys := rfl
@[simp] theorem State.after_streams (n : Nat) (e : Event) : (s.after n e).streams = s.streams := rfl
@[simp] theorem State.after_drives (n : Nat) (e : Event) : (s.after n e).drives = s.drives := rfl
@[simp] theorem State.after_halyard (n : Nat) (e : Event) : (s.after n e).halyard = s.halyard := rfl
@[simp] theorem State.after_collHeld (n : Nat) (e : Event) : (s.after n e).collHeld = s.collHeld := rfl
@[simp] theorem State.after_collDones (n : Nat) (e : Event) : (s.after n e).collDones = s.collDones := rfl
@[simp] theorem State.after_tells (n : Nat) (e : Event) : (s.after n e).tells = s.tells := rfl
@[simp] theorem State.after_samples (n : Nat) (e : Event) : (s.after n e).samples = s.samples := rfl
@[simp] theorem State.after_ports (n : Nat) (e : Event) : (s.after n e).ports = s.ports := rfl
@[simp] theorem State.after_regs (n : Nat) (e : Event) : (s.after n e).regs = s.regs := rfl
@[simp] theorem State.after_errors (n : Nat) (e : Event) : (s.after n e).errors = s.errors := rfl
@[simp] theorem State.after_retired (n : Nat) (e : Event) : (s.after n e).retired = s.retired := rfl
@[simp] theorem State.after_halted (n : Nat) (e : Event) : (s.after n e).halted = s.halted := rfl
@[simp] theorem State.after_inputs (n : Nat) (e : Event) : (s.after n e).inputs = s.inputs := rfl
@[simp] theorem State.after_outs (n : Nat) (e : Event) : (s.after n e).outs = s.outs := rfl
@[simp] theorem State.after_free (n : Nat) (e : Event) : (s.after n e).free = s.free := rfl

/-! ### raise -/

@[simp] theorem State.raise_now (c : Cond) : (s.raise c).now = s.now := rfl
@[simp] theorem State.raise_plan (c : Cond) : (s.raise c).plan = s.plan := rfl
@[simp] theorem State.raise_cores (c : Cond) : (s.raise c).cores = s.cores := rfl
@[simp] theorem State.raise_units (c : Cond) : (s.raise c).units = s.units := rfl
@[simp] theorem State.raise_launches (c : Cond) : (s.raise c).launches = s.launches := rfl
@[simp] theorem State.raise_jobs (c : Cond) : (s.raise c).jobs = s.jobs := rfl
@[simp] theorem State.raise_gangs (c : Cond) : (s.raise c).gangs = s.gangs := rfl
@[simp] theorem State.raise_ended (c : Cond) : (s.raise c).ended = s.ended := rfl
@[simp] theorem State.raise_loads (c : Cond) : (s.raise c).loads = s.loads := rfl
@[simp] theorem State.raise_nextKey (c : Cond) : (s.raise c).nextKey = s.nextKey := rfl
@[simp] theorem State.raise_mem (c : Cond) : (s.raise c).mem = s.mem := rfl
@[simp] theorem State.raise_keyTag (c : Cond) : (s.raise c).keyTag = s.keyTag := rfl
@[simp] theorem State.raise_bad (c : Cond) : (s.raise c).bad = s.bad := rfl
@[simp] theorem State.raise_l2 (c : Cond) : (s.raise c).l2 = s.l2 := rfl
@[simp] theorem State.raise_hostBits (c : Cond) : (s.raise c).hostBits = s.hostBits := rfl
@[simp] theorem State.raise_hostDir (c : Cond) : (s.raise c).hostDir = s.hostDir := rfl
@[simp] theorem State.raise_ctlb (c : Cond) : (s.raise c).ctlb = s.ctlb := rfl
@[simp] theorem State.raise_dtlb (c : Cond) : (s.raise c).dtlb = s.dtlb := rfl
@[simp] theorem State.raise_nonLeaf (c : Cond) : (s.raise c).nonLeaf = s.nonLeaf := rfl
@[simp] theorem State.raise_walks (c : Cond) : (s.raise c).walks = s.walks := rfl
@[simp] theorem State.raise_pageReqs (c : Cond) : (s.raise c).pageReqs = s.pageReqs := rfl
@[simp] theorem State.raise_asids (c : Cond) : (s.raise c).asids = s.asids := rfl
@[simp] theorem State.raise_failures (c : Cond) : (s.raise c).failures = s.failures := rfl
@[simp] theorem State.raise_answers (c : Cond) : (s.raise c).answers = s.answers := rfl
@[simp] theorem State.raise_walked (c : Cond) : (s.raise c).walked = s.walked := rfl
@[simp] theorem State.raise_invals (c : Cond) : (s.raise c).invals = s.invals := rfl
@[simp] theorem State.raise_keys (c : Cond) : (s.raise c).keys = s.keys := rfl
@[simp] theorem State.raise_streams (c : Cond) : (s.raise c).streams = s.streams := rfl
@[simp] theorem State.raise_drives (c : Cond) : (s.raise c).drives = s.drives := rfl
@[simp] theorem State.raise_halyard (c : Cond) : (s.raise c).halyard = s.halyard := rfl
@[simp] theorem State.raise_collHeld (c : Cond) : (s.raise c).collHeld = s.collHeld := rfl
@[simp] theorem State.raise_collDones (c : Cond) : (s.raise c).collDones = s.collDones := rfl
@[simp] theorem State.raise_tells (c : Cond) : (s.raise c).tells = s.tells := rfl
@[simp] theorem State.raise_samples (c : Cond) : (s.raise c).samples = s.samples := rfl
@[simp] theorem State.raise_ports (c : Cond) : (s.raise c).ports = s.ports := rfl
@[simp] theorem State.raise_regs (c : Cond) : (s.raise c).regs = s.regs := rfl
@[simp] theorem State.raise_errors (c : Cond) : (s.raise c).errors = s.errors := rfl
@[simp] theorem State.raise_retired (c : Cond) : (s.raise c).retired = s.retired := rfl
@[simp] theorem State.raise_halted (c : Cond) : (s.raise c).halted = s.halted := rfl
@[simp] theorem State.raise_agenda (c : Cond) : (s.raise c).agenda = s.agenda := rfl
@[simp] theorem State.raise_inputs (c : Cond) : (s.raise c).inputs = s.inputs := rfl
@[simp] theorem State.raise_outs (c : Cond) : (s.raise c).outs = s.outs := rfl
@[simp] theorem State.raise_free (c : Cond) : (s.raise c).free = s.free := rfl

/-! ### markDone -/

@[simp] theorem State.markDone_now : s.markDone.now = s.now := rfl
@[simp] theorem State.markDone_plan : s.markDone.plan = s.plan := rfl
@[simp] theorem State.markDone_cores : s.markDone.cores = s.cores := rfl
@[simp] theorem State.markDone_units : s.markDone.units = s.units := rfl
@[simp] theorem State.markDone_launches : s.markDone.launches = s.launches := rfl
@[simp] theorem State.markDone_jobs : s.markDone.jobs = s.jobs := rfl
@[simp] theorem State.markDone_gangs : s.markDone.gangs = s.gangs := rfl
@[simp] theorem State.markDone_ended : s.markDone.ended = s.ended := rfl
@[simp] theorem State.markDone_loads : s.markDone.loads = s.loads := rfl
@[simp] theorem State.markDone_nextKey : s.markDone.nextKey = s.nextKey := rfl
@[simp] theorem State.markDone_mem : s.markDone.mem = s.mem := rfl
@[simp] theorem State.markDone_keyTag : s.markDone.keyTag = s.keyTag := rfl
@[simp] theorem State.markDone_bad : s.markDone.bad = s.bad := rfl
@[simp] theorem State.markDone_l2 : s.markDone.l2 = s.l2 := rfl
@[simp] theorem State.markDone_hostBits : s.markDone.hostBits = s.hostBits := rfl
@[simp] theorem State.markDone_hostDir : s.markDone.hostDir = s.hostDir := rfl
@[simp] theorem State.markDone_ctlb : s.markDone.ctlb = s.ctlb := rfl
@[simp] theorem State.markDone_dtlb : s.markDone.dtlb = s.dtlb := rfl
@[simp] theorem State.markDone_nonLeaf : s.markDone.nonLeaf = s.nonLeaf := rfl
@[simp] theorem State.markDone_walks : s.markDone.walks = s.walks := rfl
@[simp] theorem State.markDone_pageReqs : s.markDone.pageReqs = s.pageReqs := rfl
@[simp] theorem State.markDone_asids : s.markDone.asids = s.asids := rfl
@[simp] theorem State.markDone_failures : s.markDone.failures = s.failures := rfl
@[simp] theorem State.markDone_answers : s.markDone.answers = s.answers := rfl
@[simp] theorem State.markDone_walked : s.markDone.walked = s.walked := rfl
@[simp] theorem State.markDone_invals : s.markDone.invals = s.invals := rfl
@[simp] theorem State.markDone_keys : s.markDone.keys = s.keys := rfl
@[simp] theorem State.markDone_streams : s.markDone.streams = s.streams := rfl
@[simp] theorem State.markDone_drives : s.markDone.drives = s.drives := rfl
@[simp] theorem State.markDone_halyard : s.markDone.halyard = s.halyard := rfl
@[simp] theorem State.markDone_collHeld : s.markDone.collHeld = s.collHeld := rfl
@[simp] theorem State.markDone_collDones : s.markDone.collDones = s.collDones := rfl
@[simp] theorem State.markDone_tells : s.markDone.tells = s.tells := rfl
@[simp] theorem State.markDone_samples : s.markDone.samples = s.samples := rfl
@[simp] theorem State.markDone_ports : s.markDone.ports = s.ports := rfl
@[simp] theorem State.markDone_regs : s.markDone.regs = s.regs := rfl
@[simp] theorem State.markDone_errors : s.markDone.errors = s.errors := rfl
@[simp] theorem State.markDone_retired : s.markDone.retired = s.retired := rfl
@[simp] theorem State.markDone_halted : s.markDone.halted = s.halted := rfl
@[simp] theorem State.markDone_agenda : s.markDone.agenda = s.agenda := rfl
@[simp] theorem State.markDone_inputs : s.markDone.inputs = s.inputs := rfl
@[simp] theorem State.markDone_outs : s.markDone.outs = s.outs := rfl
@[simp] theorem State.markDone_free : s.markDone.free = s.free := rfl

/-! ### draw_snd -/

@[simp] theorem State.draw_snd_now : s.draw.2.now = s.now := rfl
@[simp] theorem State.draw_snd_plan : s.draw.2.plan = s.plan := rfl
@[simp] theorem State.draw_snd_iss : s.draw.2.iss = s.iss := rfl
@[simp] theorem State.draw_snd_cores : s.draw.2.cores = s.cores := rfl
@[simp] theorem State.draw_snd_units : s.draw.2.units = s.units := rfl
@[simp] theorem State.draw_snd_launches : s.draw.2.launches = s.launches := rfl
@[simp] theorem State.draw_snd_jobs : s.draw.2.jobs = s.jobs := rfl
@[simp] theorem State.draw_snd_gangs : s.draw.2.gangs = s.gangs := rfl
@[simp] theorem State.draw_snd_ended : s.draw.2.ended = s.ended := rfl
@[simp] theorem State.draw_snd_loads : s.draw.2.loads = s.loads := rfl
@[simp] theorem State.draw_snd_nextKey : s.draw.2.nextKey = s.nextKey := rfl
@[simp] theorem State.draw_snd_mem : s.draw.2.mem = s.mem := rfl
@[simp] theorem State.draw_snd_keyTag : s.draw.2.keyTag = s.keyTag := rfl
@[simp] theorem State.draw_snd_bad : s.draw.2.bad = s.bad := rfl
@[simp] theorem State.draw_snd_l2 : s.draw.2.l2 = s.l2 := rfl
@[simp] theorem State.draw_snd_hostBits : s.draw.2.hostBits = s.hostBits := rfl
@[simp] theorem State.draw_snd_hostDir : s.draw.2.hostDir = s.hostDir := rfl
@[simp] theorem State.draw_snd_ctlb : s.draw.2.ctlb = s.ctlb := rfl
@[simp] theorem State.draw_snd_dtlb : s.draw.2.dtlb = s.dtlb := rfl
@[simp] theorem State.draw_snd_nonLeaf : s.draw.2.nonLeaf = s.nonLeaf := rfl
@[simp] theorem State.draw_snd_walks : s.draw.2.walks = s.walks := rfl
@[simp] theorem State.draw_snd_pageReqs : s.draw.2.pageReqs = s.pageReqs := rfl
@[simp] theorem State.draw_snd_asids : s.draw.2.asids = s.asids := rfl
@[simp] theorem State.draw_snd_failures : s.draw.2.failures = s.failures := rfl
@[simp] theorem State.draw_snd_answers : s.draw.2.answers = s.answers := rfl
@[simp] theorem State.draw_snd_walked : s.draw.2.walked = s.walked := rfl
@[simp] theorem State.draw_snd_invals : s.draw.2.invals = s.invals := rfl
@[simp] theorem State.draw_snd_keys : s.draw.2.keys = s.keys := rfl
@[simp] theorem State.draw_snd_streams : s.draw.2.streams = s.streams := rfl
@[simp] theorem State.draw_snd_drives : s.draw.2.drives = s.drives := rfl
@[simp] theorem State.draw_snd_halyard : s.draw.2.halyard = s.halyard := rfl
@[simp] theorem State.draw_snd_collHeld : s.draw.2.collHeld = s.collHeld := rfl
@[simp] theorem State.draw_snd_collDones : s.draw.2.collDones = s.collDones := rfl
@[simp] theorem State.draw_snd_tells : s.draw.2.tells = s.tells := rfl
@[simp] theorem State.draw_snd_samples : s.draw.2.samples = s.samples := rfl
@[simp] theorem State.draw_snd_ports : s.draw.2.ports = s.ports := rfl
@[simp] theorem State.draw_snd_regs : s.draw.2.regs = s.regs := rfl
@[simp] theorem State.draw_snd_errors : s.draw.2.errors = s.errors := rfl
@[simp] theorem State.draw_snd_retired : s.draw.2.retired = s.retired := rfl
@[simp] theorem State.draw_snd_halted : s.draw.2.halted = s.halted := rfl
@[simp] theorem State.draw_snd_agenda : s.draw.2.agenda = s.agenda := rfl
@[simp] theorem State.draw_snd_inputs : s.draw.2.inputs = s.inputs := rfl
@[simp] theorem State.draw_snd_outs : s.draw.2.outs = s.outs := rfl
@[simp] theorem State.draw_fst : s.draw.1 = s.free := rfl
@[simp] theorem State.draw_snd_free : s.draw.2.free = s.free + 1 := rfl

end Sys2Proof.Machine
end

