-- ==== Sys2Proof/Laws/Maps.lean ====
section
/-! SUPPORT. Sparse maps and byte memories: what a read finds after a write, and that every memory operation keeps the canonical
form. -/
namespace Sys2Proof.Machine

variable {α : Type}

/-! ### Maps -/

@[simp] theorem find_put_same (l : List (Nat × α)) (k : Nat) (x : α) : find (put l k x) k = some x := by
  induction l with
  | nil => simp [put, find]
  | cons a rest ih =>
    obtain ⟨j, y⟩ := a
    simp only [put]
    split
    · simp [find]
    · split
      · simp [find]
      · have : ¬j = k := by omega
        simp [find, this, ih]

theorem find_put_other (l : List (Nat × α)) {k j : Nat} (x : α) (h : j ≠ k) : find (put l k x) j = find l j := by
  induction l with
  | nil => simp [put, find, Ne.symm h]
  | cons a rest ih =>
    obtain ⟨i, y⟩ := a
    simp only [put]
    split
    · simp [find, Ne.symm h]
    · split
      · rename_i e
        subst e
        simp [find, Ne.symm h]
      · simp only [find, ih]

@[simp] theorem find_alter_same (l : List (Nat × α)) (k : Nat) (f : α → α) : find (alter l k f) k = (find l k).map f := by
  induction l with
  | nil => simp [alter, find]
  | cons a rest ih =>
    obtain ⟨j, y⟩ := a
    by_cases h : j = k <;> simp [alter, find, h, ih]

theorem find_alter_other (l : List (Nat × α)) {k j : Nat} (f : α → α) (h : j ≠ k) : find (alter l k f) j = find l j := by
  induction l with
  | nil => simp [alter, find]
  | cons a rest ih =>
    obtain ⟨i, y⟩ := a
    by_cases e : i = k
    · subst e
      simp [alter, find, Ne.symm h]
    · simp [alter, find, e, ih]

/-! ### Canonical memories -/

theorem Memory.wf_cons {c : Host.Cell} {m : Memory} (h : Memory.wf (c :: m) = true) : Memory.wf m = true := by
  simp only [Memory.wf, Bool.and_eq_true] at h
  exact h.2

/-- Every address of a canonical memory is above the first one. -/
theorem Memory.wf_head_lt {c : Host.Cell} {m : Memory} (h : Memory.wf (c :: m) = true) : ∀ d ∈ m, c.1 < d.1 := by
  induction m generalizing c with
  | nil => simp
  | cons d rest ih =>
    have hd := ih (Memory.wf_cons h)
    simp only [Memory.wf, Bool.and_eq_true, decide_eq_true_eq] at h
    intro e he
    rcases List.mem_cons.1 he with rfl | he
    · exact h.1.2
    · exact Nat.lt_trans h.1.2 (hd e he)

theorem Memory.wf_of {c : Host.Cell} {m : Memory} (h0 : c.2 ≠ Memory.unlisted) (h : ∀ d ∈ m, c.1 < d.1)
    (hm : Memory.wf m = true) : Memory.wf (c :: m) = true := by
  cases m with
  | nil => simp [Memory.wf, h0]
  | cons d rest => simp only [Memory.wf, Bool.and_eq_true, decide_eq_true_eq] at hm ⊢; exact ⟨⟨h0, h d (by simp)⟩, hm⟩

theorem mem_put {l : List (Nat × α)} {k : Nat} {x : α} {d : Nat × α} (h : d ∈ put l k x) : d = (k, x) ∨ d ∈ l := by
  induction l with
  | nil => simpa [put] using h
  | cons a rest ih =>
    obtain ⟨j, y⟩ := a
    simp only [put] at h
    split at h
    · rcases List.mem_cons.1 h with h | h
      · exact Or.inl h
      · exact Or.inr h
    · split at h
      · rcases List.mem_cons.1 h with h | h
        · exact Or.inl h
        · exact Or.inr (List.mem_cons_of_mem _ h)
      · rcases List.mem_cons.1 h with h | h
        · exact Or.inr (h ▸ List.mem_cons_self ..)
        · rcases ih h with h | h
          · exact Or.inl h
          · exact Or.inr (List.mem_cons_of_mem _ h)

theorem mem_del {l : List (Nat × α)} {k : Nat} {d : Nat × α} (h : d ∈ del l k) : d ∈ l := by
  induction l with
  | nil => simpa [del] using h
  | cons a rest ih =>
    obtain ⟨j, y⟩ := a
    simp only [del] at h
    split at h
    · exact List.mem_cons_of_mem _ h
    · split at h
      · exact h
      · rcases List.mem_cons.1 h with h | h
        · exact h ▸ List.mem_cons_self ..
        · exact List.mem_cons_of_mem _ (ih h)

theorem Memory.put_wf {m : Memory} {a : Nat} {b : Byte} (hb : b ≠ Memory.unlisted) (h : m.wf = true) :
    Memory.wf (put m a b) = true := by
  induction m with
  | nil => simp [put, Memory.wf, hb]
  | cons c rest ih =>
    obtain ⟨j, y⟩ := c
    have hr := Memory.wf_cons h
    have hlt := Memory.wf_head_lt h
    have hy : y ≠ Memory.unlisted := by
      simp only [Memory.wf, Bool.and_eq_true, decide_eq_true_eq] at h
      exact h.1.1
    simp only [put]
    split
    · rename_i hk
      refine Memory.wf_of hb ?_ h
      intro d hd
      rcases List.mem_cons.1 hd with rfl | hd
      · exact hk
      · exact Nat.lt_trans hk (hlt d hd)
    · split
      · rename_i e
        subst e
        exact Memory.wf_of hb hlt hr
      · rename_i h1 h2
        refine Memory.wf_of hy ?_ (ih hr)
        intro d hd
        rcases mem_put hd with rfl | hd
        · simp only at h1 h2 ⊢
          omega
        · exact hlt d hd

theorem Memory.del_wf {m : Memory} {a : Nat} (h : m.wf = true) : Memory.wf (del m a) = true := by
  induction m with
  | nil => simp [del, Memory.wf]
  | cons c rest ih =>
    obtain ⟨j, y⟩ := c
    have hr := Memory.wf_cons h
    have hlt := Memory.wf_head_lt h
    have hy : y ≠ Memory.unlisted := by
      simp only [Memory.wf, Bool.and_eq_true, decide_eq_true_eq] at h
      exact h.1.1
    simp only [del]
    split
    · exact hr
    · split
      · exact h
      · exact Memory.wf_of hy (fun d hd => hlt d (mem_del hd)) (ih hr)

/-- Storing a byte keeps the canonical form. -/
theorem Memory.write_wf {m : Memory} (a : Nat) (b : Byte) (h : m.wf = true) : (m.write a b).wf = true := by
  unfold Memory.write
  split
  · exact Memory.del_wf h
  · exact Memory.put_wf (by assumption) h

theorem Memory.writeBytes_wf {m : Memory} (a : Nat) (l : List Byte) (h : m.wf = true) : (m.writeBytes a l).wf = true := by
  induction l generalizing m a with
  | nil => exact h
  | cons b rest ih => exact ih (a + 1) (Memory.write_wf a b h)

theorem Memory.writeMasked_wf {m : Memory} (a : Nat) (l : List (Byte × Bool)) (h : m.wf = true) : (m.writeMasked a l).wf = true := by
  induction l generalizing m a with
  | nil => exact h
  | cons b rest ih =>
    obtain ⟨b, e⟩ := b
    simp only [Memory.writeMasked]
    cases e
    · exact ih (a + 1) h
    · exact ih (a + 1) (Memory.write_wf a b h)

/-! ### Reads after writes -/

theorem find_del_other (l : List (Nat × α)) {k j : Nat} (h : j ≠ k) : find (del l k) j = find l j := by
  induction l with
  | nil => rfl
  | cons a rest ih =>
    obtain ⟨i, y⟩ := a
    simp only [del]
    split
    · rename_i e
      subst e
      simp [find, Ne.symm h]
    · split
      · rfl
      · simp only [find, ih]

theorem find_none_of_lt {m : Memory} {a : Nat} (h : ∀ d ∈ m, a < d.1) : find m a = none := by
  induction m with
  | nil => rfl
  | cons c rest ih =>
    obtain ⟨j, y⟩ := c
    have hj : a < j := h (j, y) (by simp)
    have : ¬j = a := by omega
    simp only [find, this, if_false]
    exact ih fun d hd => h d (List.mem_cons_of_mem _ hd)

theorem Memory.find_del_same {m : Memory} (a : Nat) (h : m.wf = true) : find (del m a) a = none := by
  induction m with
  | nil => rfl
  | cons c rest ih =>
    obtain ⟨j, y⟩ := c
    have hlt := Memory.wf_head_lt h
    simp only [del]
    split
    · rename_i e
      subst e
      exact find_none_of_lt hlt
    · split
      · rename_i e hk
        refine find_none_of_lt fun d hd => ?_
        rcases List.mem_cons.1 hd with rfl | hd
        · exact hk
        · exact Nat.lt_trans hk (hlt d hd)
      · rename_i e _
        simp only [find, e, if_false]
        exact ih (Memory.wf_cons h)

/-- A byte reads as it was stored. -/
theorem Memory.read_write_same {m : Memory} (a : Nat) (b : Byte) (h : m.wf = true) : (m.write a b).read a = b := by
  unfold Memory.write Memory.read
  split
  · rename_i e
    rw [Memory.find_del_same a h, e]
    rfl
  · simp

/-- Storing a byte leaves every other byte. -/
theorem Memory.read_write_other (m : Memory) {a c : Nat} (b : Byte) (h : c ≠ a) : (m.write a b).read c = m.read c := by
  unfold Memory.write Memory.read
  split
  · rw [find_del_other m h]
  · rw [find_put_other m b h]

/-- Storing bytes leaves every byte outside them. -/
theorem Memory.read_writeBytes_other (m : Memory) (a : Nat) (l : List Byte) {c : Nat} (h : c < a ∨ a + l.length ≤ c) :
    (m.writeBytes a l).read c = m.read c := by
  induction l generalizing m a with
  | nil => rfl
  | cons b rest ih =>
    simp only [Memory.writeBytes, List.length_cons] at h ⊢
    rw [ih (m.write a b) (a + 1) (by omega), Memory.read_write_other m b (by omega)]

end Sys2Proof.Machine
end

