-- ==== Sys2Proof/Laws/Ops.lean ====
section
/-! SUPPORT. What the shared operations of the slots do: the two outcomes of a slot operation, and reads of the issuing context after
its updates. -/
namespace Sys2Proof.Machine

/-! ### Outcomes of a slot operation -/

theorem State.readErrors_clean {s : State} (h : s.iss.entry.bad = []) : s.readErrors = .ok ⟨⟩ := by
  simp [State.readErrors, h]

/-- An undisturbed slot whose body succeeds is done in the body's state. -/
theorem slotOp_calm {d : Bool} {body : State → Except Cond State} {s t : State} (h : s.Calm) (hb : body s = .ok t) :
    slotOp d body s = .next t.slotEnd := by
  obtain ⟨h1, h2, h3, h4⟩ := h
  have : slotState d body s = t.slotEnd := by
    simp [slotState, State.readErrors_clean h4, bind, Except.bind, hb, h1, h2, h3, State.slotEnd]
  rw [slotOp, this]

/-- An undisturbed slot whose body meets a condition raises it and does nothing else. -/
theorem slotOp_fault {d : Bool} {body : State → Except Cond State} {s : State} {c : Cond} (h : s.Calm) (hb : body s = .error c) :
    slotOp d body s = .next (s.slotFault c) := by
  have : slotState d body s = s.slotFault c := by
    simp [slotState, State.readErrors_clean h.2.2.2, bind, Except.bind, hb, State.slotFault]
  rw [slotOp, this]

/-- A slot operation always answers a next state. -/
theorem slotOp_next (d : Bool) (body : State → Except Cond State) (s : State) : ∃ t, slotOp d body s = .next t := ⟨_, rfl⟩

/-! ### Reads after updates -/

@[simp] theorem State.core_setCore (s : State) (c : Nat) (x : Core) : (s.setCore c x).core c = x := by
  simp [State.core, State.setCore]

theorem State.core_setCore_other (s : State) {c j : Nat} (x : Core) (h : j ≠ c) : (s.setCore c x).core j = s.core j := by
  simp [State.core, State.setCore, find_put_other _ _ h]

@[simp] theorem State.core_onCore (s : State) (c : Nat) (f : Core → Core) : (s.onCore c f).core c = f (s.core c) := by
  simp [State.onCore]

theorem State.core_onCore_other (s : State) {c j : Nat} (f : Core → Core) (h : j ≠ c) : (s.onCore c f).core j = s.core j :=
  State.core_setCore_other s _ h

@[simp] theorem Core.ctx_setCtx (x : Core) {k : Nat} (y : Ctx) (h : k < 4) : (x.setCtx k y).ctx k = y := by
  simp [Core.ctx, Core.setCtx, h]

theorem Core.ctx_setCtx_other (x : Core) {k j : Nat} (y : Ctx) (h : j ≠ k) : (x.setCtx k y).ctx j = x.ctx j := by
  simp only [Core.ctx, Core.setCtx]
  by_cases hj : j < 4
  · rw [Vector.getElem?_eq_getElem (by simpa using hj), Vector.getElem?_eq_getElem (by simpa using hj),
      Vector.getElem_setIfInBounds_ne _ (Ne.symm h)]
  · rw [Vector.getElem?_eq_none (by omega), Vector.getElem?_eq_none (by omega)]

@[simp] theorem State.ctx_onCtx (s : State) {c k : Nat} (f : Ctx → Ctx) (h : k < 4) : (s.onCtx c k f).ctx c k = f (s.ctx c k) := by
  simp [State.onCtx, State.ctx, State.setCtx, h]

@[simp] theorem State.me_onMe (s : State) (f : Ctx → Ctx) (h : s.iss.ctx < 4) : (s.onMe f).me = f s.me :=
  State.ctx_onCtx s f h

@[simp] theorem State.unit_onUnit (s : State) (u : Nat) (f : Unit → Unit) : (s.onUnit u f).unit u = (s.unit u).map f := by
  simp [State.unit]

theorem State.unit_onUnit_other (s : State) {u v : Nat} (f : Unit → Unit) (h : v ≠ u) : (s.onUnit u f).unit v = s.unit v := by
  simp [State.unit, find_alter_other _ _ h]

@[simp] theorem State.unit_onCtx (s : State) (c k u : Nat) (f : Ctx → Ctx) : (s.onCtx c k f).unit u = s.unit u := rfl
@[simp] theorem State.unit_onMe (s : State) (u : Nat) (f : Ctx → Ctx) : (s.onMe f).unit u = s.unit u := rfl
@[simp] theorem State.core_onUnit (s : State) (c u : Nat) (f : Unit → Unit) : (s.onUnit u f).core c = s.core c := rfl
@[simp] theorem State.ctx_onUnit (s : State) (c k u : Nat) (f : Unit → Unit) : (s.onUnit u f).ctx c k = s.ctx c k := rfl
@[simp] theorem State.me_onUnit (s : State) (u : Nat) (f : Unit → Unit) : (s.onUnit u f).me = s.me := rfl

/-- A read of a register through its operand form, when nothing stops it. -/
@[simp] theorem State.srcS_reg (s : State) (n : Fin 32) : s.srcS (.reg n) = .ok (s.iss.entry.readS n.val) := rfl
@[simp] theorem State.srcV_reg (s : State) (n : Fin 32) : s.srcV (.reg n) = .ok (s.iss.entry.readV n.val) := rfl
@[simp] theorem State.srcP_reg (s : State) (n : Fin 32) : s.srcP (.reg n) = .ok (s.iss.entry.readP n.val) := rfl

/-! ### The end of a bundle -/

theorem State.me_onMyCore (s : State) (f : Core → Core) (h : ∀ c, (f c).ctxs = c.ctxs) : (s.onMyCore f).me = s.me := by
  simp [State.me, State.ctx, State.onMyCore, Core.ctx, h]

/-- A unit that has not issued an EXIT loses nothing at the end of a bundle. -/
theorem State.dropExited_live (s : State) (h : ∀ x, s.unit s.myUnit = some x → x.exited = false) : s.dropExited = s := by
  unfold State.dropExited
  cases hu : s.unit s.myUnit with
  | none => simp
  | some x => simp [h x hu]

/-- A bundle that completes changes its context by `afterBundle`, adds its link to the writes in flight, and leaves the units and the
home memory. -/
theorem State.finishBundle_spec (s : State) (hk : s.iss.ctx < 4) (hx : ∀ x, s.unit s.myUnit = some x → x.exited = false) :
    s.finishBundle.me = { s.me.afterBundle s.iss s.now (LoopBuf.serves s.myCore.loopBuf s.iss.ctx s.iss.pc) with
        lostLoop := s.lostCapture, flights := s.me.flights ++ s.iss.link s.me.group }
      ∧ s.finishBundle.mem = s.mem ∧ s.finishBundle.units = s.units := by
  unfold State.finishBundle
  simp only
  have hme : ∀ (F : Core → Core) (G : Ctx → Ctx), (∀ c, (F c).ctxs = c.ctxs) → ((s.onMyCore F).onMe G).me = G s.me := by
    intro F G hF
    rw [State.me_onMe _ _ (by simpa using hk), State.me_onMyCore _ _ hF]
  have hlive : ∀ (F : Core → Core) (G : Ctx → Ctx), (∀ c, (F c).ctxs = c.ctxs) → (G s.me).unit = s.me.unit →
      ((s.onMyCore F).onMe G).dropExited = (s.onMyCore F).onMe G := by
    intro F G hF hG
    refine State.dropExited_live _ fun x h => hx x ?_
    rw [State.myUnit, hme F G hF, hG] at h
    exact h
  rw [hlive]
  · refine ⟨?_, rfl, rfl⟩
    rw [hme]
    intro
    rfl
  · intro
    rfl
  · rfl

end Sys2Proof.Machine
end

