-- ==== Sys2Proof/Laws/Commands.lean ====
section
/-! SUPPORT. What handing a command to an engine does. -/
namespace Sys2Proof.Machine

/-- A state in which the issuing unit and its timelines stand as in another one. -/
def State.SameUnit (s t : State) : Prop :=
  t.iss = s.iss ∧ t.me.unit = s.me.unit ∧ (∀ e, t.me.csr.tl e = s.me.csr.tl e)
    ∧ ∀ x, s.unit s.myUnit = some x → ∃ y, t.unit s.myUnit = some y ∧ y.cmds = x.cmds ∧ y.open_ = x.open_

theorem State.SameUnit.refl (s : State) : s.SameUnit s := ⟨rfl, rfl, fun _ => rfl, fun x h => ⟨x, h, rfl, rfl⟩⟩

theorem State.SameUnit.myUnit {s t : State} (h : s.SameUnit t) : t.myUnit = s.myUnit := by simp [State.myUnit, h.2.1]

theorem Csrs.tl_setTl (c : Csrs) (e d : Engine) (w : Word) : (c.setTl e w).tl d = if d = e then w else c.tl d := by
  cases e <;> cases d <;> rfl

/-- The timeline counter after an operation has taken its number. -/
theorem tlNumber (w : Word) : BitVec.ofNat 64 (w.toNat + 1) = w + 1 := by
  apply BitVec.eq_of_toNat_eq; simp

/-- A command that an instruction hands to an engine. -/
theorem State.command_sends {s t : State} (hs : s.Seated) (ht : s.SameUnit t) (e : Engine) (op : Instr) (f : Nat → Cmd → Cmd)
    (hf : ∀ n c, (f n c).eng = c.eng ∧ (f n c).op = c.op ∧ (f n c).n = c.n ∧ (f n c).pc = c.pc ∧ (f n c).stage = c.stage) :
    ∃ c0 : Cmd, s.Sends (t.command e op f) e op fun c => c = f ((s.me.csr.tl e).toNat + 1) c0 := by
  obtain ⟨_, hk, u, x, hu, hx, hc, hd⟩ := hs
  obtain ⟨hi, hm, htl, hunit⟩ := ht
  have hmy : s.myUnit = u := by simp [State.myUnit, hu]
  have hmy' : t.myUnit = u := by simp [State.myUnit, hm, hu]
  rw [hmy] at hunit
  obtain ⟨y, hy, h1, h2⟩ := hunit x hx
  have hk' : t.iss.ctx < 4 := by rw [hi]; exact hk
  let n := (s.me.csr.tl e).toNat + 1
  let a : State := t.onMe fun x => { x with csr := x.csr.setTl e (BitVec.ofNat 64 n) }
  let b : State := a.onMyUnit fun u => { u with open_ := u.open_ ++ [(e, n)] }
  let base : Cmd := { Cmd.blank e op with
    n, place := b.myCore.nextPlace, pc := b.iss.pc, after := b.myFence, fenced := b.myFullFence, before := b.me.csr.tlLsu.toNat, due := b.now + 1,
    started := b.now }
  let d : State := b.onMyCore fun x => { x with nextPlace := x.nextPlace + 1 }
  have hcmd : t.command e op f = d.onMyUnit fun u => { u with cmds := u.cmds ++ [f n base] } := by
    unfold State.command State.tlNext
    simp only [htl e]
    rfl
  have ha : a.me = { t.me with csr := t.me.csr.setTl e (BitVec.ofNat 64 n) } := State.me_onMe t _ hk'
  have hau : a.myUnit = u := by rw [State.myUnit, ha]; simpa using congrArg (·.getD 0) (hm.trans hu)
  have hbm : b.me = a.me := rfl
  have hbu : b.myUnit = u := by rw [State.myUnit, hbm]; exact hau
  have hdm : d.me = a.me := State.me_onMyCore b _ fun _ => rfl
  have hdu : d.myUnit = u := by rw [State.myUnit, hdm]; exact hau
  have hbx : b.unit u = some { y with open_ := y.open_ ++ [(e, n)] } := by
    show (a.onMyUnit _).unit u = _
    rw [State.onMyUnit, hau, State.unit_onUnit]
    show Option.map _ (t.unit u) = _
    rw [hy]; rfl
  refine ⟨base, x, { y with open_ := y.open_ ++ [(e, n)], cmds := y.cmds ++ [f n base] }, f n base, ?_, ?_, ?_, ?_, ?_, ?_, ?_, ?_, ?_, ?_, ?_⟩
  · rw [hmy]; exact hx
  · rw [hcmd, hmy, State.onMyUnit, hdu, State.unit_onUnit]
    show Option.map _ (b.unit u) = _
    rw [hbx]; rfl
  · simp [h1]
  · rw [(hf n base).1]; rfl
  · rw [(hf n base).2.1]; rfl
  · rw [(hf n base).2.2.1]
  · rw [(hf n base).2.2.2.1]; show t.iss.pc = _; rw [hi]
  · rw [(hf n base).2.2.2.2]; rfl
  · rw [hcmd]
    show d.me.csr.tl e = _
    rw [hdm, ha, Csrs.tl_setTl]
    simp [n, tlNumber]
  · simp [h2, (hf n base).2.2.1, base]
  · rfl

/-- An LSU operation that an instruction enters. -/
theorem State.lsuCommand_sends {s t : State} (hs : s.Seated) (ht : s.SameUnit t) (op : Instr) (f : Nat → Cmd → Cmd)
    (hf : ∀ n c, (f n c).eng = c.eng ∧ (f n c).op = c.op ∧ (f n c).n = c.n ∧ (f n c).pc = c.pc ∧ (f n c).stage = c.stage) :
    ∃ c0 : Cmd, s.Sends (t.lsuCommand op f) .lsu op fun c => c = f ((s.me.csr.tl .lsu).toNat + 1) c0 := by
  obtain ⟨c0, h⟩ := State.command_sends (t := t.draw.2) hs ht .lsu op
    (fun n c => f n { c with due := c.due + Config.lsuDelay t.draw.1 }) fun n c => hf n _
  exact ⟨_, h⟩

end Sys2Proof.Machine
end

