-- ==== Sys2Proof/Laws/Encoding.lean ====
section
/-! SUPPORT. Fields of words put together by the encoder: what the decoder reads out of an appended word is the field that was
put in. With `field_high`, `field_low` and `field_all` every field of an encoded word is found by computation. -/
namespace Sys2Proof

/-- A field above the lower part of an appended word is a field of the upper part. -/
theorem field_high {m n : Nat} (x : BitVec m) (y : BitVec n) (lo k : Nat) (h : n ≤ lo) :
    (x ++ y).extractLsb' lo k = x.extractLsb' (lo - n) k := by
  ext i hi
  simp only [BitVec.getElem_extractLsb', BitVec.getLsbD_append]
  rw [if_neg (by omega)]
  congr 1; omega

/-- A field within the lower part of an appended word is a field of the lower part. -/
theorem field_low {m n : Nat} (x : BitVec m) (y : BitVec n) (lo k : Nat) (h : lo + k ≤ n) :
    (x ++ y).extractLsb' lo k = y.extractLsb' lo k := by
  ext i hi
  simp only [BitVec.getElem_extractLsb', BitVec.getLsbD_append]
  rw [if_pos (by omega)]

theorem field_all {n : Nat} (x : BitVec n) : x.extractLsb' 0 n = x := by
  ext i hi; simp [BitVec.getElem_extractLsb', hi]

theorem bit_high {m n : Nat} (x : BitVec m) (y : BitVec n) (i : Nat) (h : n ≤ i) : (x ++ y).getLsbD i = x.getLsbD (i - n) := by
  rw [BitVec.getLsbD_append, if_neg (by omega)]

theorem bit_low {m n : Nat} (x : BitVec m) (y : BitVec n) (i : Nat) (h : i < n) : (x ++ y).getLsbD i = y.getLsbD i := by
  rw [BitVec.getLsbD_append, if_pos h]

theorem bit_bit (b : Bool) : (bit b).getLsbD 0 = b := by cases b <;> rfl
theorem bit_bit' (b : Bool) : (bit b)[0] = b := by cases b <;> rfl
theorem toFin_fin4 (n : Fin 4) : (fin4 n).toFin = n := rfl
theorem toFin_fin8 (n : Fin 8) : (fin8 n).toFin = n := rfl
theorem toFin_fin16 (n : Fin 16) : (fin16 n).toFin = n := rfl
theorem toFin_fin32 (n : Fin 32) : (fin32 n).toFin = n := rfl
theorem toFin_fin64 (n : Fin 64) : (fin64 n).toFin = n := rfl
theorem toFin_fin128 (n : Fin 128) : (fin128 n).toFin = n := rfl
theorem toFin_fin2 : ∀ n : Fin 2, (fin2 n).toFin = n := by decide
theorem toFin_fin3 : ∀ n : Fin 3, toFin? 3 (fin3 n) = some n := by decide
theorem toFin_fin9 : ∀ n : Fin 9, toFin? 9 (fin9 n) = some n := by decide
theorem decodeSrc_encodeSrc : ∀ a : Src, decodeSrc (encodeSrc a) = a := by
  intro a
  cases a with
  | reg n => revert n; decide
  | lat l => cases l <;> decide

theorem find_rm : ∀ r : Rm, findCode encodeRm allRm (encodeRm r) = some r := by intro r; cases r <;> rfl
theorem find_ty : ∀ t : Ty, findCode encodeTy allTy (encodeTy t) = some t := by intro t; cases t <;> rfl
theorem find_scope : ∀ t : Scope, findCode encodeScope allScope (encodeScope t) = some t := by intro t; cases t <;> rfl
theorem find_condZ : ∀ t : CondZ, findCode encodeCondZ allCondZ (encodeCondZ t) = some t := by intro t; cases t <;> rfl
theorem find_condB : ∀ t : CondB, findCode encodeCondB allCondB (encodeCondB t) = some t := by intro t; cases t <;> rfl
theorem find_ptest : ∀ t : PTest, findCode encodePTest allPTest (encodePTest t) = some t := by intro t; cases t <;> rfl
theorem find_cmp : ∀ t : CmpC, findCode encodeCmp allCmp (encodeCmp t) = some t := by intro t; cases t <;> rfl
theorem find_engine : ∀ t : Engine, findCode encodeEngine allEngine (encodeEngine t) = some t := by intro t; cases t <;> rfl
theorem find_ldSz : ∀ t : LdSz, findCode encodeLdSz allLdSz (encodeLdSz t) = some t := by intro t; cases t <;> rfl
theorem find_stSz : ∀ t : StSz, findCode encodeStSz allStSz (encodeStSz t) = some t := by intro t; cases t <;> rfl
theorem find_accTy : ∀ t : AccTy, findCode encodeAccTy allAccTy (encodeAccTy t) = some t := by intro t; cases t <;> rfl
theorem decodeCellField_encode : ∀ t : CellField, decodeCellField (encodeCellField t) = t := by intro t; cases t <;> rfl

/-! The fields of an S-slot word. -/

theorem opOf_SR (op d nw a b fn) : opOf (wordSR op d nw a b fn) = op := by
  simp (disch := decide) only [opOf, wordSR, field_high, field_all, Nat.reduceSub]
theorem opOf_SI (op d nw a imm) : opOf (wordSI op d nw a imm) = op := by
  simp (disch := decide) only [opOf, wordSI, field_high, field_all, Nat.reduceSub]
theorem opOf_SL (op d nw imm) : opOf (wordSL op d nw imm) = op := by
  simp (disch := decide) only [opOf, wordSL, field_high, field_all, Nat.reduceSub]
theorem opOf_SB (op cc a imm) : opOf (wordSB op cc a imm) = op := by
  simp (disch := decide) only [opOf, wordSB, field_high, field_all, Nat.reduceSub]
theorem opOf_SC (op cc a b imm) : opOf (wordSC op cc a b imm) = op := by
  simp (disch := decide) only [opOf, wordSC, field_high, field_all, Nat.reduceSub]
theorem opOf_SJ (op d imm) : opOf (wordSJ op d imm) = op := by
  simp (disch := decide) only [opOf, wordSJ, field_high, field_all, Nat.reduceSub]
theorem fnOf_SR (op d nw a b fn) : fnOf (wordSR op d nw a b fn) = fn := by
  simp (disch := decide) only [fnOf, wordSR, field_low, field_all]
/-- A field of fn8, as a field of the word. -/
theorem fn_SR (op d nw a b fn) (lo k : Nat) (h : lo + k ≤ 8) : (wordSR op d nw a b fn).extractLsb' lo k = fn.extractLsb' lo k :=
  field_low _ _ _ _ h
theorem fnBit_SR (op d nw a b fn) (i : Nat) (h : i < 8) : (wordSR op d nw a b fn).getLsbD i = fn.getLsbD i := bit_low _ _ _ h
theorem dOf_SR (op d nw a b fn) : dOf (wordSR op d nw a b fn) = d := by
  simp (disch := decide) only [dOf, wordSR, field_high, field_low, field_all, Nat.reduceSub, toFin_fin32]
theorem nwOf_SR (op d nw a b fn) : nwOf (wordSR op d nw a b fn) = nw := by
  simp (disch := decide) only [nwOf, wordSR, bit_high, bit_low, Nat.reduceSub, bit_bit]
theorem aOf_SR (op d nw a b fn) : aOf (wordSR op d nw (encodeSrc a) b fn) = a := by
  simp (disch := decide) only [aOf, wordSR, field_high, field_low, field_all, Nat.reduceSub, decodeSrc_encodeSrc]
theorem bOf_SR (op d nw a b fn) : bOf (wordSR op d nw a (encodeSrc b) fn) = b := by
  simp (disch := decide) only [bOf, wordSR, field_high, field_low, field_all, Nat.reduceSub, decodeSrc_encodeSrc]
theorem dOf_SI (op d nw a imm) : dOf (wordSI op d nw a imm) = d := by
  simp (disch := decide) only [dOf, wordSI, field_high, field_low, field_all, Nat.reduceSub, toFin_fin32]
theorem nwOf_SI (op d nw a imm) : nwOf (wordSI op d nw a imm) = nw := by
  simp (disch := decide) only [nwOf, wordSI, bit_high, bit_low, Nat.reduceSub, bit_bit]
theorem aOf_SI (op d nw a imm) : aOf (wordSI op d nw (encodeSrc a) imm) = a := by
  simp (disch := decide) only [aOf, wordSI, field_high, field_low, field_all, Nat.reduceSub, decodeSrc_encodeSrc]
theorem immOf_SI (op d nw a imm) : immOf (wordSI op d nw a imm) = imm := by
  simp (disch := decide) only [immOf, wordSI, field_low, field_all]
theorem imm_SI (op d nw a imm) (lo k : Nat) (h : lo + k ≤ 14) : (wordSI op d nw a imm).extractLsb' lo k = imm.extractLsb' lo k :=
  field_low _ _ _ _ h
theorem immBit_SI (op d nw a imm) (i : Nat) (h : i < 14) : (wordSI op d nw a imm).getLsbD i = imm.getLsbD i := bit_low _ _ _ h

theorem sr3_SR (op fn) (o : SR3) : sr3 (wordSR op o.d o.nw (encodeSrc o.a) (encodeSrc o.b) fn) = o := by
  simp only [sr3, dOf_SR, nwOf_SR, aOf_SR, bOf_SR]
theorem sr2_SR (op b fn) (o : SR2) : sr2 (wordSR op o.d o.nw (encodeSrc o.a) b fn) = o := by
  simp only [sr2, dOf_SR, nwOf_SR, aOf_SR]
theorem rmOf_SR (op d nw a b) (k : BitVec 4) (r : Rm) : rmOf (wordSR op d nw a b ((0#1) ++ encodeRm r ++ k)) = some r := by
  simp (disch := decide) only [rmOf, fn_SR, field_high, field_low, field_all, Nat.reduceSub, find_rm]
theorem sf3_SR (op) (k : BitVec 4) (o : SF3) :
    sf3 (wordSR op o.d o.nw (encodeSrc o.a) (encodeSrc o.b) ((0#1) ++ encodeRm o.rm ++ k)) = some o := by
  simp only [sf3, rmOf_SR, Option.map_some, dOf_SR, nwOf_SR, aOf_SR, bOf_SR]
theorem sf2_SR (op b) (k : BitVec 4) (o : SF2) :
    sf2 (wordSR op o.d o.nw (encodeSrc o.a) b ((0#1) ++ encodeRm o.rm ++ k)) = some o := by
  simp only [sf2, rmOf_SR, Option.map_some, dOf_SR, nwOf_SR, aOf_SR]
theorem amoOf_SR (op) (k : BitVec 4) (o : AmoOp) :
    amoOf (wordSR op o.d false (encodeSrc o.a) (encodeSrc o.b) (encodeScope o.sc ++ bit o.dw ++ k)) = some o := by
  simp (disch := decide) only [amoOf, fn_SR, fnBit_SR, field_high, field_all, bit_high, bit_low, bit_bit, Nat.reduceSub, find_scope, Option.map_some, dOf_SR,
    aOf_SR, bOf_SR]
/-- The last four bits of fn8, on which the groups of FP32 operations and atomics are told apart. -/
theorem last_SR (op d nw a b) (x : BitVec 4) (k : BitVec 4) : (wordSR op d nw a b (x ++ k)).extractLsb' 0 4 = k := by
  simp (disch := decide) only [fn_SR, field_low, field_all]
theorem sImm_SI (op) (o : SImm) : sImm (wordSI op o.d o.nw (encodeSrc o.a) o.imm) = o := by
  simp only [sImm, dOf_SI, nwOf_SI, aOf_SI, immOf_SI]
theorem sSh_SI (op) (o : SSh) : sSh (wordSI op o.d o.nw (encodeSrc o.a) ((0#8) ++ o.sh)) = o := by
  simp (disch := decide) only [sSh, dOf_SI, nwOf_SI, aOf_SI, imm_SI, field_low, field_all]
theorem sSt_SI (op nw) (o : SSt) : sSt (wordSI op o.d nw (encodeSrc o.a) o.imm) = o := by
  simp only [sSt, dOf_SI, aOf_SI, immOf_SI]
theorem sCsr_SI (op) (o : CsrOp) : sCsr (wordSI op o.d o.nw (encodeSrc o.a) ((0#2) ++ o.csr)) = o := by
  simp (disch := decide) only [sCsr, dOf_SI, nwOf_SI, aOf_SI, imm_SI, field_low, field_all]
theorem sLong_SL (op) (o : SLong) : sLong (wordSL op o.d o.nw o.imm) = o := by
  simp (disch := decide) only [sLong, dOf, nwOf, wordSL, field_high, field_low, field_all, bit_high, bit_low, bit_bit, Nat.reduceSub, toFin_fin32]

/-! The fields of a V or X syllable. -/

theorem fin4_field (n : Fin 4) : (fin4 n).extractLsb' 0 2 = fin4 n := field_all _
theorem fin16_field (n : Fin 16) : (fin16 n).extractLsb' 0 4 = fin16 n := field_all _
theorem vxFields_word (f : VxFields) : vxFields f.word = f := by
  cases f
  simp (disch := decide) only [vxFields, VxFields.word, field_high, field_low, field_all, bit_high, bit_low, bit_bit, Nat.reduceSub, toFin_fin16]
theorem imm_join (x : BitVec 12) : x.extractLsb' 6 6 ++ x.extractLsb' 0 6 = x := by
  ext i hi
  simp only [BitVec.getElem_append, BitVec.getElem_extractLsb']
  split
  · rw [Nat.zero_add, BitVec.getLsbD_eq_getElem]
  · rw [show 6 + (i - 6) = i by omega, BitVec.getLsbD_eq_getElem]

end Sys2Proof
end

