-- ==== Sys2Proof/Laws/PerInstr.lean ====
section
/-! SUPPORT. The round trip of one syllable, instruction by instruction: what the encoder writes for a well-formed instruction is
decoded to that instruction (R128 to R132). An event of the device has no syllable. -/
namespace Sys2Proof.Laws.RoundTrip
open Sys2Proof
set_option linter.unusedSimpArgs false
set_option Elab.async false

/-- Encoded in a slot, the instruction is decoded there. -/
def Statement (i : Instr) : Prop := i.wf = true → ∀ s n, encodeIn s i = some n → decodeSyllable s n = .op i

theorem of_S {i : Instr} {w : BitVec 32} (h : encodeS i = some w) (hv : encodeVf i = none) (hx : encodeXf i = none)
    (hm : encodeM i = none) (hq : encodeQ i = none) (hp : i.wf = true → parseS w = .op i) : Statement i := by
  intro hw s n hn
  cases s <;> simp [encodeIn, h, encodeV, hv, encodeX, hx, hm, hq] at hn <;>
    (subst hn; simp [decodeSyllable, decodeS, hp hw, confirm, hw, h])
theorem of_V {i : Instr} {f : VxFields} (h : encodeVf i = some f) (hs : encodeS i = none) (hx : encodeXf i = none)
    (hm : encodeM i = none) (hq : encodeQ i = none) (hp : i.wf = true → parseV f = .op i) : Statement i := by
  intro hw s n hn
  cases s <;> simp [encodeIn, hs, encodeV, h, encodeX, hx, hm, hq] at hn
  subst hn; simp [decodeSyllable, decodeV, vxFields_word, hp hw, confirm, hw, encodeV, h]
theorem of_X {i : Instr} {f : VxFields} (h : encodeXf i = some f) (hs : encodeS i = none) (hv : encodeVf i = none)
    (hm : encodeM i = none) (hq : encodeQ i = none) (hp : i.wf = true → parseX f = .op i) : Statement i := by
  intro hw s n hn
  cases s <;> simp [encodeIn, hs, encodeV, hv, encodeX, h, hm, hq] at hn
  subst hn; simp [decodeSyllable, decodeX, vxFields_word, hp hw, confirm, hw, encodeX, h]
theorem of_M {i : Instr} {w : BitVec 64} (h : encodeM i = some w) (hs : encodeS i = none) (hv : encodeVf i = none)
    (hx : encodeXf i = none) (hq : encodeQ i = none) (hp : i.wf = true → parseM w = .op i) : Statement i := by
  intro hw s n hn
  cases s <;> simp [encodeIn, hs, encodeV, hv, encodeX, hx, h, hq] at hn
  subst hn; simp [decodeSyllable, decodeM, hp hw, confirm, hw, h]
theorem of_Q {i : Instr} {w : BitVec 64} (h : encodeQ i = some w) (hs : encodeS i = none) (hv : encodeVf i = none)
    (hx : encodeXf i = none) (hm : encodeM i = none) (hp : i.wf = true → parseQ w = .op i) : Statement i := by
  intro hw s n hn
  cases s <;> simp [encodeIn, hs, encodeV, hv, encodeX, hx, h, hm] at hn
  subst hn; simp [decodeSyllable, decodeQ, hp hw, confirm, hw, h]
theorem of_event {i : Instr} (hs : encodeS i = none) (hv : encodeVf i = none) (hx : encodeXf i = none) (hm : encodeM i = none)
    (hq : encodeQ i = none) : Statement i := by
  intro _ s n hn
  cases s <;> simp [encodeIn, hs, encodeV, hv, encodeX, hx, hm, hq] at hn

theorem toFin_low2 (n : Fin 2) : (((0#2) ++ fin2 n).extractLsb' 0 1).toFin = n := by revert n; decide
theorem toFin_low8 (n : Fin 8) : toFin? 8 ((0#1) ++ fin8 n) = some n := by revert n; decide
theorem toFin_cb8 (n : Fin 8) : toFin? 8 ((0#2) ++ fin8 n) = some n := by revert n; decide
theorem toFin_low16 (n : Fin 16) : toFin? 16 ((0#2) ++ fin16 n) = some n := by revert n; decide
theorem toFin_low9 (n : Fin 9) : toFin? 9 ((0#2) ++ fin9 n) = some n := by revert n; decide
theorem toFin_fin192 (n : Fin 192) : toFin? 192 (fin192 n) = some n := by
  have h : (fin192 n).toNat = n.val := by simp [fin192]; omega
  simp [toFin?, h]
theorem toFin_fin6 (n : Fin 6) : toFin? 6 (BitVec.ofNat 3 n.val) = some n := by revert n; decide
theorem loopi_level (n : Fin 2) (x : BitVec 4) : (BitVec.extractLsb' 4 1 (fin32 (fin2 n ++ x).toFin)).toFin = n := by
  revert n x; decide
theorem loopi_high (n : Fin 2) (x : BitVec 4) : BitVec.extractLsb' 0 4 (fin32 (fin2 n ++ x).toFin) = x := by revert n x; decide
theorem count_join (x : BitVec 10) : x.extractLsb' 6 4 ++ x.extractLsb' 0 6 = x := by
  ext i hi
  simp only [BitVec.getElem_append, BitVec.getElem_extractLsb']
  split
  · rw [Nat.zero_add, BitVec.getLsbD_eq_getElem]
  · rw [show 6 + (i - 6) = i by omega, BitVec.getLsbD_eq_getElem]
theorem op_tcfg (t : BitVec 30) : ((0x00#8) ++ t ++ 0#26).extractLsb' 56 8 = 0#8 := by
  simp (disch := decide) only [field_high, field_all, Nat.reduceSub]
theorem op_M (op a b lo) : (wordM op a b lo).extractLsb' 56 8 = op := by
  simp (disch := decide) only [wordM, field_high, field_all, Nat.reduceSub]
theorem op_Q (op q a b lo) : (wordQ op q a b lo).extractLsb' 56 8 = op := by
  simp (disch := decide) only [wordQ, field_high, field_all, Nat.reduceSub]
theorem op_qcfg (q : BitVec 4) (a : BitVec 6) (r : BitVec 1) (n : BitVec 4) (z : BitVec 8) (b : BitVec 14) :
    ((0x00#8) ++ q ++ a ++ 0#15 ++ r ++ n ++ z ++ 0#4 ++ b).extractLsb' 56 8 = 0#8 := by
  simp (disch := decide) only [field_high, field_all, Nat.reduceSub]
theorem qQ_Q (op q a b lo) : qQ (wordQ op (fin16 q) a b lo) = q := by
  simp (disch := decide) only [qQ, wordQ, field_high, field_low, field_all, Nat.reduceSub, toFin_fin16]
theorem qA_Q (op q a b lo) : qA (wordQ op q (encodeSrc a) b lo) = a := by
  simp (disch := decide) only [qA, wordQ, field_high, field_low, field_all, Nat.reduceSub, decodeSrc_encodeSrc]
theorem qB_Q (op q a b lo) : qB (wordQ op q a (encodeSrc b) lo) = b := by
  simp (disch := decide) only [qB, wordQ, field_high, field_low, field_all, Nat.reduceSub, decodeSrc_encodeSrc]
theorem lo_Q (op q a b lo) (l k : Nat) (h : l + k ≤ 40) : (wordQ op q a b lo).extractLsb' l k = lo.extractLsb' l k := field_low _ _ _ _ h
theorem loBit_Q (op q a b lo) (l : Nat) (h : l < 40) : (wordQ op q a b lo).getLsbD l = lo.getLsbD l := bit_low _ _ _ h
theorem mA_M (op a b lo) : mA (wordM op a b lo) = decodeDesc a := by
  simp (disch := decide) only [mA, wordM, field_high, field_low, field_all, Nat.reduceSub]
theorem mB_M (op a b lo) : mB (wordM op a b lo) = decodeDesc b := by
  simp (disch := decide) only [mB, wordM, field_high, field_low, field_all, Nat.reduceSub]
theorem lo_M (op a b lo) (l k : Nat) (h : l + k ≤ 28) : (wordM op a b lo).extractLsb' l k = lo.extractLsb' l k := field_low _ _ _ _ h
theorem loBit_M (op a b lo) (l : Nat) (h : l < 28) : (wordM op a b lo).getLsbD l = lo.getLsbD l := bit_low _ _ _ h
theorem queue_M (op q off pop b lo) : (wordM op (encodeDesc (plainDesc q off pop)) b lo).extractLsb' 48 4 = fin16 q := by
  simp (disch := decide) only [wordM, encodeDesc, plainDesc, field_high, field_low, field_all, Nat.reduceSub]
theorem off_M (op q off pop b lo) : (wordM op (encodeDesc (plainDesc q off pop)) b lo).extractLsb' 46 2 = fin4 off := by
  simp (disch := decide) only [wordM, encodeDesc, plainDesc, field_high, field_low, field_all, Nat.reduceSub]
theorem pop_M (op q off pop b lo) : (wordM op (encodeDesc (plainDesc q off pop)) b lo).getLsbD 45 = pop := by
  simp (disch := decide) only [wordM, encodeDesc, plainDesc, bit_high, bit_low, bit_bit, Nat.reduceSub]
theorem decodeDesc_encodeDesc (d : MDesc) : decodeDesc (encodeDesc d) = some d := by
  simp (disch := decide) only [decodeDesc, encodeDesc, field_high, field_low, field_all, bit_high, bit_low, bit_bit, Nat.reduceSub, toFin_fin4,
    toFin_fin8, toFin_fin16, toFin_fin6, Option.map_some]
theorem decodeTile_encodeTile (t : TileWord) : decodeTile (encodeTile t) = some t := by
  simp (disch := decide) only [decodeTile, encodeTile, field_high, field_low, field_all, Nat.reduceSub, toFin_fin128, toFin_fin192, toFin_fin9,
    Option.bind_eq_bind, Option.bind_some]
/-- CVT has parts 0 and 1 only. -/
theorem cvt_part {o : XCvt} (h : (Instr.cvt o).wf = true) : (if decide (o.part.val ≠ 0) then (1 : Fin 8) else 0) = o.part := by
  have : o.part.val < 2 := by
    simp only [Instr.wf, cvtOk, Bool.and_eq_true, decide_eq_true_eq] at h
    obtain ⟨⟨-, h1⟩, h2⟩ := h
    refine Nat.lt_of_lt_of_le h2 ?_
    by_cases e : o.src.nibbles = o.ty.nibbles
    · rw [if_pos (Nat.le_of_eq e), e, Nat.div_self]
      · decide
      · cases o.ty <;> decide
    · rw [if_neg e] at h1
      by_cases l : o.src.nibbles < o.ty.nibbles
      · simp only [l, if_true, if_pos (Nat.le_of_lt l), Bool.true_and, Bool.and_eq_true, decide_eq_true_eq] at h1 ⊢; omega
      · rw [if_neg l] at h1
        rw [if_neg (by omega)] at h1 ⊢
        simp only [Bool.true_and, Bool.and_eq_true, decide_eq_true_eq] at h1; omega
  ext
  rcases (by omega : o.part.val = 0 ∨ o.part.val = 1) with e | e <;> simp [e]
theorem cvt_vx {o : XCvt} (h : (Instr.cvt o).wf = true) (op) : VxFields.cvtHi (vx op (fin32 o.d) o.nw (encodeSrc o.a) 0 ((0#2) ++ encodeTy o.src) o.pg 0
    (encodeTy o.ty) (bit (decide (o.part.val ≠ 0)) ++ fin8 o.mode)) = some o := by
  simp (disch := decide) only [VxFields.cvtHi, VxFields.ty?, VxFields.dReg, VxFields.sb, vx, find_ty, Option.bind_eq_bind, Option.bind_some, toFin_fin8,
    toFin_fin32, decodeSrc_encodeSrc, field_low, field_all, bit_high, bit_bit, Nat.reduceSub, cvt_part h]
theorem int_vx (op) (o : VInt) : VxFields.int (vx op (fin32 o.d) o.nw (encodeSrc o.a) (encodeSrc o.b) 0 o.pg 0 (encodeTy o.ty) (bit o.sb ++ 0#2 ++ bit o.sat)) = some o := by
  simp (disch := decide) only [VxFields.int, VxFields.ty?, VxFields.dReg, VxFields.sb, VxFields.low, vx, find_ty, find_rm, find_cmp, Option.map_some, Option.bind_eq_bind, Option.bind_some, toFin_fin4, toFin_fin8, toFin_fin16, toFin_fin32, toFin_fin64, toFin_fin3, toFin_low16, toFin_low8, decodeSrc_encodeSrc, field_high, field_low, field_all, bit_high, bit_low, bit_bit, Nat.reduceSub, imm_join]
theorem mad_vx (op) (o : VMadOp) : VxFields.mad (vx op (fin32 o.d) o.nw (encodeSrc o.a) (encodeSrc o.b) (encodeSrc o.c) o.pg 0 (encodeTy o.ty) (bit o.sb ++ 0#2 ++ bit o.sat)) = some o := by
  simp (disch := decide) only [VxFields.mad, VxFields.ty?, VxFields.dReg, VxFields.sb, VxFields.low, vx, find_ty, find_rm, find_cmp, Option.map_some, Option.bind_eq_bind, Option.bind_some, toFin_fin4, toFin_fin8, toFin_fin16, toFin_fin32, toFin_fin64, toFin_fin3, toFin_low16, toFin_low8, decodeSrc_encodeSrc, field_high, field_low, field_all, bit_high, bit_low, bit_bit, Nat.reduceSub, imm_join]
theorem bin_vx (op) (o : VBin) : VxFields.bin (vx op (fin32 o.d) o.nw (encodeSrc o.a) (encodeSrc o.b) 0 o.pg 0 (encodeTy o.ty) (bit o.sb ++ 0#3)) = some o := by
  simp (disch := decide) only [VxFields.bin, VxFields.ty?, VxFields.dReg, VxFields.sb, vx, find_ty, find_rm, find_cmp, Option.map_some, Option.bind_eq_bind, Option.bind_some, toFin_fin4, toFin_fin8, toFin_fin16, toFin_fin32, toFin_fin64, toFin_fin3, toFin_low16, toFin_low8, decodeSrc_encodeSrc, field_high, field_low, field_all, bit_high, bit_low, bit_bit, Nat.reduceSub, imm_join]
theorem unSat_vx (op) (o : VUnSat) : VxFields.unSat (vx op (fin32 o.d) o.nw (encodeSrc o.a) 0 0 o.pg 0 (encodeTy o.ty) ((0#3) ++ bit o.sat)) = some o := by
  simp (disch := decide) only [VxFields.unSat, VxFields.ty?, VxFields.dReg, VxFields.low, vx, find_ty, find_rm, find_cmp, Option.map_some, Option.bind_eq_bind, Option.bind_some, toFin_fin4, toFin_fin8, toFin_fin16, toFin_fin32, toFin_fin64, toFin_fin3, toFin_low16, toFin_low8, decodeSrc_encodeSrc, field_high, field_low, field_all, bit_high, bit_low, bit_bit, Nat.reduceSub, imm_join]
theorem flt_vx (op) (o : VFlt) : VxFields.flt (vx op (fin32 o.d) o.nw (encodeSrc o.a) (encodeSrc o.b) 0 o.pg 0 (encodeTy o.ty) (bit o.sb ++ encodeRm o.rm)) = some o := by
  simp (disch := decide) only [VxFields.flt, VxFields.ty?, VxFields.rm?, VxFields.dReg, VxFields.sb, vx, find_ty, find_rm, find_cmp, Option.map_some, Option.bind_eq_bind, Option.bind_some, toFin_fin4, toFin_fin8, toFin_fin16, toFin_fin32, toFin_fin64, toFin_fin3, toFin_low16, toFin_low8, decodeSrc_encodeSrc, field_high, field_low, field_all, bit_high, bit_low, bit_bit, Nat.reduceSub, imm_join]
theorem fmaOp_vx (op) (o : VFmaOp) : VxFields.fmaOp (vx op (fin32 o.d) o.nw (encodeSrc o.a) (encodeSrc o.b) (encodeSrc o.c) o.pg 0 (encodeTy o.ty) (bit o.sb ++ encodeRm o.rm)) = some o := by
  simp (disch := decide) only [VxFields.fmaOp, VxFields.ty?, VxFields.rm?, VxFields.dReg, VxFields.sb, vx, find_ty, find_rm, find_cmp, Option.map_some, Option.bind_eq_bind, Option.bind_some, toFin_fin4, toFin_fin8, toFin_fin16, toFin_fin32, toFin_fin64, toFin_fin3, toFin_low16, toFin_low8, decodeSrc_encodeSrc, field_high, field_low, field_all, bit_high, bit_low, bit_bit, Nat.reduceSub, imm_join]
theorem un_vx (op) (o : VUn) : VxFields.un (vx op (fin32 o.d) o.nw (encodeSrc o.a) 0 0 o.pg 0 (encodeTy o.ty) 0) = some o := by
  simp (disch := decide) only [VxFields.un, VxFields.ty?, VxFields.dReg, vx, find_ty, find_rm, find_cmp, Option.map_some, Option.bind_eq_bind, Option.bind_some, toFin_fin4, toFin_fin8, toFin_fin16, toFin_fin32, toFin_fin64, toFin_fin3, toFin_low16, toFin_low8, decodeSrc_encodeSrc, field_high, field_low, field_all, bit_high, bit_low, bit_bit, Nat.reduceSub, imm_join]
theorem cmp_vx (op) (o : VCmpOp) : VxFields.cmp (vx op 0 o.nw (encodeSrc o.a) (encodeSrc o.b) 0 o.pg (fin16 o.pd) (encodeTy o.ty) (bit o.sb ++ encodeCmp o.cc)) = some o := by
  simp (disch := decide) only [VxFields.cmp, VxFields.ty?, VxFields.sb, vx, find_ty, find_rm, find_cmp, Option.map_some, Option.bind_eq_bind, Option.bind_some, toFin_fin4, toFin_fin8, toFin_fin16, toFin_fin32, toFin_fin64, toFin_fin3, toFin_low16, toFin_low8, decodeSrc_encodeSrc, field_high, field_low, field_all, bit_high, bit_low, bit_bit, Nat.reduceSub, imm_join]
theorem tri_vx (op) (o : VTri) : VxFields.tri (vx op (fin32 o.d) o.nw (encodeSrc o.a) (encodeSrc o.b) (encodeSrc o.c) o.pg 0 (encodeTy o.ty) 0) = some o := by
  simp (disch := decide) only [VxFields.tri, VxFields.ty?, VxFields.dReg, vx, find_ty, find_rm, find_cmp, Option.map_some, Option.bind_eq_bind, Option.bind_some, toFin_fin4, toFin_fin8, toFin_fin16, toFin_fin32, toFin_fin64, toFin_fin3, toFin_low16, toFin_low8, decodeSrc_encodeSrc, field_high, field_low, field_all, bit_high, bit_low, bit_bit, Nat.reduceSub, imm_join]
theorem two_vx (op) (o : VTwo) : VxFields.two (vx op (fin32 o.d) o.nw (encodeSrc o.a) (encodeSrc o.b) 0 o.pg 0 (encodeTy o.ty) 0) = some o := by
  simp (disch := decide) only [VxFields.two, VxFields.ty?, VxFields.dReg, vx, find_ty, find_rm, find_cmp, Option.map_some, Option.bind_eq_bind, Option.bind_some, toFin_fin4, toFin_fin8, toFin_fin16, toFin_fin32, toFin_fin64, toFin_fin3, toFin_low16, toFin_low8, decodeSrc_encodeSrc, field_high, field_low, field_all, bit_high, bit_low, bit_bit, Nat.reduceSub, imm_join]
theorem loc_vx (op) (o : VLoc) : VxFields.loc (vx op (fin32 o.d) o.nw (encodeSrc o.a) (o.imm.extractLsb' 6 6) (o.imm.extractLsb' 0 6) o.pg 0 (encodeTy o.ty) 0) = some o := by
  simp (disch := decide) only [VxFields.loc, VxFields.ty?, VxFields.dReg, VxFields.imm, vx, find_ty, find_rm, find_cmp, Option.map_some, Option.bind_eq_bind, Option.bind_some, toFin_fin4, toFin_fin8, toFin_fin16, toFin_fin32, toFin_fin64, toFin_fin3, toFin_low16, toFin_low8, decodeSrc_encodeSrc, field_high, field_low, field_all, bit_high, bit_low, bit_bit, Nat.reduceSub, imm_join]
theorem glob_vx (op) (o : VGlob) : VxFields.glob (vx op (fin32 o.d) false (encodeSrc o.a) (o.imm.extractLsb' 6 6) (o.imm.extractLsb' 0 6) o.pg ((0#1) ++ fin8 o.cb) (encodeTy o.ty) ((0#1) ++ encodeRm o.rm)) = some o := by
  simp (disch := decide) only [VxFields.glob, VxFields.ty?, VxFields.rm?, VxFields.dReg, VxFields.imm, vx, find_ty, find_rm, find_cmp, Option.map_some, Option.bind_eq_bind, Option.bind_some, toFin_fin4, toFin_fin8, toFin_fin16, toFin_fin32, toFin_fin64, toFin_fin3, toFin_low16, toFin_low8, decodeSrc_encodeSrc, field_high, field_low, field_all, bit_high, bit_low, bit_bit, Nat.reduceSub, imm_join]
theorem red_vx (op) (o : VRed) : VxFields.red (vx op (fin32 o.d) o.nw (encodeSrc o.a) 0 0 o.pg 0 (encodeTy o.ty) ((0#1) ++ encodeRm o.rm)) = some o := by
  simp (disch := decide) only [VxFields.red, VxFields.ty?, VxFields.rm?, VxFields.dReg, vx, find_ty, find_rm, find_cmp, Option.map_some, Option.bind_eq_bind, Option.bind_some, toFin_fin4, toFin_fin8, toFin_fin16, toFin_fin32, toFin_fin64, toFin_fin3, toFin_low16, toFin_low8, decodeSrc_encodeSrc, field_high, field_low, field_all, bit_high, bit_low, bit_bit, Nat.reduceSub, imm_join]
theorem rmrs_vx (op) (o : VRmrsOp) : VxFields.rmrs (vx op (fin32 o.d) o.nw (encodeSrc o.a) 0 (encodeSrc o.c) o.pg (fin16 o.pd) (encodeTy o.ty) 0) = some o := by
  simp (disch := decide) only [VxFields.rmrs, VxFields.ty?, VxFields.dReg, vx, find_ty, find_rm, find_cmp, Option.map_some, Option.bind_eq_bind, Option.bind_some, toFin_fin4, toFin_fin8, toFin_fin16, toFin_fin32, toFin_fin64, toFin_fin3, toFin_low16, toFin_low8, decodeSrc_encodeSrc, field_high, field_low, field_all, bit_high, bit_low, bit_bit, Nat.reduceSub, imm_join]
theorem push_vx (op) (o : VPushOp) : VxFields.push (vx op 0 false (encodeSrc o.a) 0 ((0#2) ++ fin16 o.q) o.pg 0 (encodeTy o.ty) ((0#3) ++ bit o.flush)) = some o := by
  simp (disch := decide) only [VxFields.push, VxFields.ty?, VxFields.low, vx, find_ty, find_rm, find_cmp, Option.map_some, Option.bind_eq_bind, Option.bind_some, toFin_fin4, toFin_fin8, toFin_fin16, toFin_fin32, toFin_fin64, toFin_fin3, toFin_low16, toFin_low8, decodeSrc_encodeSrc, field_high, field_low, field_all, bit_high, bit_low, bit_bit, Nat.reduceSub, imm_join]
theorem popOp_vx (op) (o : VPopOp) : VxFields.popOp (vx op (fin32 o.d) o.nw (encodeSrc o.a) 0 (fin4 o.k ++ fin16 o.q) o.pg 0 (encodeTy o.ty) ((0#3) ++ bit o.pop)) = some o := by
  simp (disch := decide) only [VxFields.popOp, VxFields.ty?, VxFields.dReg, VxFields.low, vx, find_ty, find_rm, find_cmp, Option.map_some, Option.bind_eq_bind, Option.bind_some, toFin_fin4, toFin_fin8, toFin_fin16, toFin_fin32, toFin_fin64, toFin_fin3, toFin_low16, toFin_low8, decodeSrc_encodeSrc, field_high, field_low, field_all, bit_high, bit_low, bit_bit, Nat.reduceSub, imm_join]
theorem pbin_vx (op) (o : PBin) : VxFields.pbin (vx op 0 o.nw (encodeSrc o.a) (encodeSrc o.b) 0 o.pg (fin16 o.pd) 0 0) = o := by
  simp (disch := decide) only [VxFields.pbin, vx, find_ty, find_rm, find_cmp, Option.map_some, Option.bind_eq_bind, Option.bind_some, toFin_fin4, toFin_fin8, toFin_fin16, toFin_fin32, toFin_fin64, toFin_fin3, toFin_low16, toFin_low8, decodeSrc_encodeSrc, field_high, field_low, field_all, bit_high, bit_low, bit_bit, Nat.reduceSub, imm_join]
theorem pun_vx (op) (o : PUn) : VxFields.pun (vx op 0 o.nw (encodeSrc o.a) 0 0 o.pg (fin16 o.pd) 0 0) = o := by
  simp (disch := decide) only [VxFields.pun, vx, find_ty, find_rm, find_cmp, Option.map_some, Option.bind_eq_bind, Option.bind_some, toFin_fin4, toFin_fin8, toFin_fin16, toFin_fin32, toFin_fin64, toFin_fin3, toFin_low16, toFin_low8, decodeSrc_encodeSrc, field_high, field_low, field_all, bit_high, bit_low, bit_bit, Nat.reduceSub, imm_join]
theorem pelt_vx (op) (o : PElt) : VxFields.pelt (vx op 0 o.nw (encodeSrc o.a) 0 0 o.pg (fin16 o.pd) (encodeTy o.ty) 0) = some o := by
  simp (disch := decide) only [VxFields.pelt, VxFields.ty?, vx, find_ty, find_rm, find_cmp, Option.map_some, Option.bind_eq_bind, Option.bind_some, toFin_fin4, toFin_fin8, toFin_fin16, toFin_fin32, toFin_fin64, toFin_fin3, toFin_low16, toFin_low8, decodeSrc_encodeSrc, field_high, field_low, field_all, bit_high, bit_low, bit_bit, Nat.reduceSub, imm_join]
theorem xsqrt_vx (op) (o : XSqrt) : VxFields.xsqrt (vx op (fin32 o.d) o.nw (encodeSrc o.a) 0 0 o.pg 0 (encodeTy o.ty) ((0#1) ++ encodeRm o.rm)) = some o := by
  simp (disch := decide) only [VxFields.xsqrt, VxFields.ty?, VxFields.rm?, VxFields.dReg, vx, find_ty, find_rm, find_cmp, Option.map_some, Option.bind_eq_bind, Option.bind_some, toFin_fin4, toFin_fin8, toFin_fin16, toFin_fin32, toFin_fin64, toFin_fin3, toFin_low16, toFin_low8, decodeSrc_encodeSrc, field_high, field_low, field_all, bit_high, bit_low, bit_bit, Nat.reduceSub, imm_join]
theorem xdiv_vx (op) (o : XDiv) : VxFields.xdiv (vx op (fin32 o.d) o.nw (encodeSrc o.a) (encodeSrc o.b) 0 o.pg 0 (encodeTy o.ty) ((0#1) ++ encodeRm o.rm)) = some o := by
  simp (disch := decide) only [VxFields.xdiv, VxFields.ty?, VxFields.rm?, VxFields.dReg, vx, find_ty, find_rm, find_cmp, Option.map_some, Option.bind_eq_bind, Option.bind_some, toFin_fin4, toFin_fin8, toFin_fin16, toFin_fin32, toFin_fin64, toFin_fin3, toFin_low16, toFin_low8, decodeSrc_encodeSrc, field_high, field_low, field_all, bit_high, bit_low, bit_bit, Nat.reduceSub, imm_join]
theorem xidiv_vx (op) (o : XIDiv) : VxFields.xidiv (vx op (fin32 o.d) o.nw (encodeSrc o.a) (encodeSrc o.b) 0 o.pg 0 (encodeTy o.ty) (bit o.wd ++ 0#3)) = some o := by
  simp (disch := decide) only [VxFields.xidiv, VxFields.ty?, VxFields.dReg, VxFields.sb, vx, find_ty, find_rm, find_cmp, Option.map_some, Option.bind_eq_bind, Option.bind_some, toFin_fin4, toFin_fin8, toFin_fin16, toFin_fin32, toFin_fin64, toFin_fin3, toFin_low16, toFin_low8, decodeSrc_encodeSrc, field_high, field_low, field_all, bit_high, bit_low, bit_bit, Nat.reduceSub, imm_join]
theorem maxexpOp_vx (op) (o : XMaxexp) : VxFields.maxexpOp (vx op (fin32 o.d) o.nw (encodeSrc o.a) 0 0 o.pg 0 (encodeTy o.ty) (fin4 o.tgt ++ fin3 o.blk)) = some o := by
  simp (disch := decide) only [VxFields.maxexpOp, VxFields.ty?, VxFields.dReg, vx, find_ty, find_rm, find_cmp, Option.map_some, Option.bind_eq_bind, Option.bind_some, toFin_fin4, toFin_fin8, toFin_fin16, toFin_fin32, toFin_fin64, toFin_fin3, toFin_low16, toFin_low8, decodeSrc_encodeSrc, field_high, field_low, field_all, bit_high, bit_low, bit_bit, Nat.reduceSub, imm_join]
theorem cvtPart_vx (op) (o : XCvt) : VxFields.cvtPart (vx op (fin32 o.d) o.nw (encodeSrc o.a) ((0#3) ++ fin8 o.part) ((0#2) ++ encodeTy o.src) o.pg 0 (encodeTy o.ty) ((0#1) ++ fin8 o.mode)) = some o := by
  simp (disch := decide) only [VxFields.cvtPart, VxFields.ty?, VxFields.dReg, vx, find_ty, find_rm, find_cmp, Option.map_some, Option.bind_eq_bind, Option.bind_some, toFin_fin4, toFin_fin8, toFin_fin16, toFin_fin32, toFin_fin64, toFin_fin3, toFin_low16, toFin_low8, decodeSrc_encodeSrc, field_high, field_low, field_all, bit_high, bit_low, bit_bit, Nat.reduceSub, imm_join]
theorem cbdecOp_vx (op) (o : XCbdec) : VxFields.cbdecOp (vx op (fin32 o.d) o.nw (encodeSrc o.a) (fin64 o.part) ((0#3) ++ fin8 o.cb) o.pg 0 (encodeTy o.ty) ((0#1) ++ encodeRm o.rm)) = some o := by
  simp (disch := decide) only [VxFields.cbdecOp, VxFields.ty?, VxFields.rm?, VxFields.dReg, vx, find_ty, find_rm, find_cmp, Option.map_some, Option.bind_eq_bind, Option.bind_some, toFin_fin4, toFin_fin8, toFin_fin16, toFin_fin32, toFin_fin64, toFin_fin3, toFin_low16, toFin_low8, decodeSrc_encodeSrc, field_high, field_low, field_all, bit_high, bit_low, bit_bit, Nat.reduceSub, imm_join]
theorem shufOp_vx (op) (o : XShuf) : VxFields.shufOp (vx op (fin32 o.d) o.nw (encodeSrc o.a) (encodeSrc o.b) (fin64 o.entry) o.pg 0 (encodeTy o.ty) 0) = some o := by
  simp (disch := decide) only [VxFields.shufOp, VxFields.ty?, VxFields.dReg, vx, find_ty, find_rm, find_cmp, Option.map_some, Option.bind_eq_bind, Option.bind_some, toFin_fin4, toFin_fin8, toFin_fin16, toFin_fin32, toFin_fin64, toFin_fin3, toFin_low16, toFin_low8, decodeSrc_encodeSrc, field_high, field_low, field_all, bit_high, bit_low, bit_bit, Nat.reduceSub, imm_join]

theorem add (o : SR3) : Statement (.add o) := of_S rfl rfl rfl rfl rfl fun _ => by
  unfold parseS; rw [opOf_SR]; change parseAlu _ = _; unfold parseAlu; rw [fnOf_SR]; change Syllable.op (.add (sr3 _)) = _; rw [sr3_SR]

theorem sub (o : SR3) : Statement (.sub o) := of_S rfl rfl rfl rfl rfl fun _ => by
  unfold parseS; rw [opOf_SR]; change parseAlu _ = _; unfold parseAlu; rw [fnOf_SR]; change Syllable.op (.sub (sr3 _)) = _; rw [sr3_SR]

theorem and (o : SR3) : Statement (.and o) := of_S rfl rfl rfl rfl rfl fun _ => by
  unfold parseS; rw [opOf_SR]; change parseAlu _ = _; unfold parseAlu; rw [fnOf_SR]; change Syllable.op (.and (sr3 _)) = _; rw [sr3_SR]

theorem or (o : SR3) : Statement (.or o) := of_S rfl rfl rfl rfl rfl fun _ => by
  unfold parseS; rw [opOf_SR]; change parseAlu _ = _; unfold parseAlu; rw [fnOf_SR]; change Syllable.op (.or (sr3 _)) = _; rw [sr3_SR]

theorem xor (o : SR3) : Statement (.xor o) := of_S rfl rfl rfl rfl rfl fun _ => by
  unfold parseS; rw [opOf_SR]; change parseAlu _ = _; unfold parseAlu; rw [fnOf_SR]; change Syllable.op (.xor (sr3 _)) = _; rw [sr3_SR]

theorem andn (o : SR3) : Statement (.andn o) := of_S rfl rfl rfl rfl rfl fun _ => by
  unfold parseS; rw [opOf_SR]; change parseAlu _ = _; unfold parseAlu; rw [fnOf_SR]; change Syllable.op (.andn (sr3 _)) = _; rw [sr3_SR]

theorem shl (o : SR3) : Statement (.shl o) := of_S rfl rfl rfl rfl rfl fun _ => by
  unfold parseS; rw [opOf_SR]; change parseAlu _ = _; unfold parseAlu; rw [fnOf_SR]; change Syllable.op (.shl (sr3 _)) = _; rw [sr3_SR]

theorem shr (o : SR3) : Statement (.shr o) := of_S rfl rfl rfl rfl rfl fun _ => by
  unfold parseS; rw [opOf_SR]; change parseAlu _ = _; unfold parseAlu; rw [fnOf_SR]; change Syllable.op (.shr (sr3 _)) = _; rw [sr3_SR]

theorem sra (o : SR3) : Statement (.sra o) := of_S rfl rfl rfl rfl rfl fun _ => by
  unfold parseS; rw [opOf_SR]; change parseAlu _ = _; unfold parseAlu; rw [fnOf_SR]; change Syllable.op (.sra (sr3 _)) = _; rw [sr3_SR]

theorem rol (o : SR3) : Statement (.rol o) := of_S rfl rfl rfl rfl rfl fun _ => by
  unfold parseS; rw [opOf_SR]; change parseAlu _ = _; unfold parseAlu; rw [fnOf_SR]; change Syllable.op (.rol (sr3 _)) = _; rw [sr3_SR]

theorem min (o : SR3) : Statement (.min o) := of_S rfl rfl rfl rfl rfl fun _ => by
  unfold parseS; rw [opOf_SR]; change parseAlu _ = _; unfold parseAlu; rw [fnOf_SR]; change Syllable.op (.min (sr3 _)) = _; rw [sr3_SR]

theorem max (o : SR3) : Statement (.max o) := of_S rfl rfl rfl rfl rfl fun _ => by
  unfold parseS; rw [opOf_SR]; change parseAlu _ = _; unfold parseAlu; rw [fnOf_SR]; change Syllable.op (.max (sr3 _)) = _; rw [sr3_SR]

theorem minn (o : SR3) : Statement (.minn o) := of_S rfl rfl rfl rfl rfl fun _ => by
  unfold parseS; rw [opOf_SR]; change parseAlu _ = _; unfold parseAlu; rw [fnOf_SR]; change Syllable.op (.minn (sr3 _)) = _; rw [sr3_SR]

theorem maxn (o : SR3) : Statement (.maxn o) := of_S rfl rfl rfl rfl rfl fun _ => by
  unfold parseS; rw [opOf_SR]; change parseAlu _ = _; unfold parseAlu; rw [fnOf_SR]; change Syllable.op (.maxn (sr3 _)) = _; rw [sr3_SR]

theorem seq (o : SR3) : Statement (.seq o) := of_S rfl rfl rfl rfl rfl fun _ => by
  unfold parseS; rw [opOf_SR]; change parseAlu _ = _; unfold parseAlu; rw [fnOf_SR]; change Syllable.op (.seq (sr3 _)) = _; rw [sr3_SR]

theorem sne (o : SR3) : Statement (.sne o) := of_S rfl rfl rfl rfl rfl fun _ => by
  unfold parseS; rw [opOf_SR]; change parseAlu _ = _; unfold parseAlu; rw [fnOf_SR]; change Syllable.op (.sne (sr3 _)) = _; rw [sr3_SR]

theorem slt (o : SR3) : Statement (.slt o) := of_S rfl rfl rfl rfl rfl fun _ => by
  unfold parseS; rw [opOf_SR]; change parseAlu _ = _; unfold parseAlu; rw [fnOf_SR]; change Syllable.op (.slt (sr3 _)) = _; rw [sr3_SR]

theorem sltn (o : SR3) : Statement (.sltn o) := of_S rfl rfl rfl rfl rfl fun _ => by
  unfold parseS; rw [opOf_SR]; change parseAlu _ = _; unfold parseAlu; rw [fnOf_SR]; change Syllable.op (.sltn (sr3 _)) = _; rw [sr3_SR]

theorem sle (o : SR3) : Statement (.sle o) := of_S rfl rfl rfl rfl rfl fun _ => by
  unfold parseS; rw [opOf_SR]; change parseAlu _ = _; unfold parseAlu; rw [fnOf_SR]; change Syllable.op (.sle (sr3 _)) = _; rw [sr3_SR]

theorem slen (o : SR3) : Statement (.slen o) := of_S rfl rfl rfl rfl rfl fun _ => by
  unfold parseS; rw [opOf_SR]; change parseAlu _ = _; unfold parseAlu; rw [fnOf_SR]; change Syllable.op (.slen (sr3 _)) = _; rw [sr3_SR]

theorem clz (o : SR2) : Statement (.clz o) := of_S rfl rfl rfl rfl rfl fun _ => by
  unfold parseS; rw [opOf_SR]; change parseAlu _ = _; unfold parseAlu; rw [fnOf_SR]; change Syllable.op (.clz (sr2 _)) = _; rw [sr2_SR]

theorem ctz (o : SR2) : Statement (.ctz o) := of_S rfl rfl rfl rfl rfl fun _ => by
  unfold parseS; rw [opOf_SR]; change parseAlu _ = _; unfold parseAlu; rw [fnOf_SR]; change Syllable.op (.ctz (sr2 _)) = _; rw [sr2_SR]

theorem popc (o : SR2) : Statement (.popc o) := of_S rfl rfl rfl rfl rfl fun _ => by
  unfold parseS; rw [opOf_SR]; change parseAlu _ = _; unfold parseAlu; rw [fnOf_SR]; change Syllable.op (.popc (sr2 _)) = _; rw [sr2_SR]

theorem bfx (o : SR3) : Statement (.bfx o) := of_S rfl rfl rfl rfl rfl fun _ => by
  unfold parseS; rw [opOf_SR]; change parseAlu _ = _; unfold parseAlu; rw [fnOf_SR]; change Syllable.op (.bfx (sr3 _)) = _; rw [sr3_SR]

theorem bfxn (o : SR3) : Statement (.bfxn o) := of_S rfl rfl rfl rfl rfl fun _ => by
  unfold parseS; rw [opOf_SR]; change parseAlu _ = _; unfold parseAlu; rw [fnOf_SR]; change Syllable.op (.bfxn (sr3 _)) = _; rw [sr3_SR]

theorem bfi (o : SR3) : Statement (.bfi o) := of_S rfl rfl rfl rfl rfl fun _ => by
  unfold parseS; rw [opOf_SR]; change parseAlu _ = _; unfold parseAlu; rw [fnOf_SR]; change Syllable.op (.bfi (sr3 _)) = _; rw [sr3_SR]

theorem mul (o : SR3) : Statement (.mul o) := of_S rfl rfl rfl rfl rfl fun _ => by
  unfold parseS; rw [opOf_SR]; change parseMul _ = _; unfold parseMul; rw [fnOf_SR]; change Syllable.op (.mul (sr3 _)) = _; rw [sr3_SR]

theorem mulh (o : SR3) : Statement (.mulh o) := of_S rfl rfl rfl rfl rfl fun _ => by
  unfold parseS; rw [opOf_SR]; change parseMul _ = _; unfold parseMul; rw [fnOf_SR]; change Syllable.op (.mulh (sr3 _)) = _; rw [sr3_SR]

theorem mulhn (o : SR3) : Statement (.mulhn o) := of_S rfl rfl rfl rfl rfl fun _ => by
  unfold parseS; rw [opOf_SR]; change parseMul _ = _; unfold parseMul; rw [fnOf_SR]; change Syllable.op (.mulhn (sr3 _)) = _; rw [sr3_SR]

theorem fadd (o : SF3) : Statement (.fadd o) := of_S rfl rfl rfl rfl rfl fun _ => by
  unfold parseS; rw [opOf_SR]; change parseFp _ = _; unfold parseFp; rw [last_SR]; change parsed ((sf3 _).map .fadd) = _; rw [sf3_SR]; rfl

theorem fsub (o : SF3) : Statement (.fsub o) := of_S rfl rfl rfl rfl rfl fun _ => by
  unfold parseS; rw [opOf_SR]; change parseFp _ = _; unfold parseFp; rw [last_SR]; change parsed ((sf3 _).map .fsub) = _; rw [sf3_SR]; rfl

theorem fmul (o : SF3) : Statement (.fmul o) := of_S rfl rfl rfl rfl rfl fun _ => by
  unfold parseS; rw [opOf_SR]; change parseFp _ = _; unfold parseFp; rw [last_SR]; change parsed ((sf3 _).map .fmul) = _; rw [sf3_SR]; rfl

theorem fma (o : SF3) : Statement (.fma o) := of_S rfl rfl rfl rfl rfl fun _ => by
  unfold parseS; rw [opOf_SR]; change parseFp _ = _; unfold parseFp; rw [last_SR]; change parsed ((sf3 _).map .fma) = _; rw [sf3_SR]; rfl

theorem fmin (o : SR3) : Statement (.fmin o) := of_S rfl rfl rfl rfl rfl fun _ => by
  unfold parseS; rw [opOf_SR]; change parseFp _ = _; unfold parseFp; rw [fn_SR _ _ _ _ _ _ 0 4 (by decide)]; change Syllable.op (.fmin (sr3 _)) = _; rw [sr3_SR]

theorem fmax (o : SR3) : Statement (.fmax o) := of_S rfl rfl rfl rfl rfl fun _ => by
  unfold parseS; rw [opOf_SR]; change parseFp _ = _; unfold parseFp; rw [fn_SR _ _ _ _ _ _ 0 4 (by decide)]; change Syllable.op (.fmax (sr3 _)) = _; rw [sr3_SR]

theorem fabs (o : SR2) : Statement (.fabs o) := of_S rfl rfl rfl rfl rfl fun _ => by
  unfold parseS; rw [opOf_SR]; change parseFp _ = _; unfold parseFp; rw [fn_SR _ _ _ _ _ _ 0 4 (by decide)]; change Syllable.op (.fabs (sr2 _)) = _; rw [sr2_SR]

theorem fneg (o : SR2) : Statement (.fneg o) := of_S rfl rfl rfl rfl rfl fun _ => by
  unfold parseS; rw [opOf_SR]; change parseFp _ = _; unfold parseFp; rw [fn_SR _ _ _ _ _ _ 0 4 (by decide)]; change Syllable.op (.fneg (sr2 _)) = _; rw [sr2_SR]

theorem feq (o : SR3) : Statement (.feq o) := of_S rfl rfl rfl rfl rfl fun _ => by
  unfold parseS; rw [opOf_SR]; change parseFp _ = _; unfold parseFp; rw [fn_SR _ _ _ _ _ _ 0 4 (by decide)]; change Syllable.op (.feq (sr3 _)) = _; rw [sr3_SR]

theorem flt (o : SR3) : Statement (.flt o) := of_S rfl rfl rfl rfl rfl fun _ => by
  unfold parseS; rw [opOf_SR]; change parseFp _ = _; unfold parseFp; rw [fn_SR _ _ _ _ _ _ 0 4 (by decide)]; change Syllable.op (.flt (sr3 _)) = _; rw [sr3_SR]

theorem fle (o : SR3) : Statement (.fle o) := of_S rfl rfl rfl rfl rfl fun _ => by
  unfold parseS; rw [opOf_SR]; change parseFp _ = _; unfold parseFp; rw [fn_SR _ _ _ _ _ _ 0 4 (by decide)]; change Syllable.op (.fle (sr3 _)) = _; rw [sr3_SR]

theorem fcvti (o : SF2) : Statement (.fcvti o) := of_S rfl rfl rfl rfl rfl fun _ => by
  unfold parseS; rw [opOf_SR]; change parseFp _ = _; unfold parseFp; rw [last_SR]; change parsed ((sf2 _).map .fcvti) = _; rw [sf2_SR]; rfl

theorem icvtf (o : SF2) : Statement (.icvtf o) := of_S rfl rfl rfl rfl rfl fun _ => by
  unfold parseS; rw [opOf_SR]; change parseFp _ = _; unfold parseFp; rw [last_SR]; change parsed ((sf2 _).map .icvtf) = _; rw [sf2_SR]; rfl

theorem addi (o : SImm) : Statement (.addi o) := of_S rfl rfl rfl rfl rfl fun _ => by
  unfold parseS; rw [opOf_SI]; change Syllable.op (.addi (sImm _)) = _; rw [sImm_SI]

theorem andi (o : SImm) : Statement (.andi o) := of_S rfl rfl rfl rfl rfl fun _ => by
  unfold parseS; rw [opOf_SI]; change Syllable.op (.andi (sImm _)) = _; rw [sImm_SI]

theorem ori (o : SImm) : Statement (.ori o) := of_S rfl rfl rfl rfl rfl fun _ => by
  unfold parseS; rw [opOf_SI]; change Syllable.op (.ori (sImm _)) = _; rw [sImm_SI]

theorem xori (o : SImm) : Statement (.xori o) := of_S rfl rfl rfl rfl rfl fun _ => by
  unfold parseS; rw [opOf_SI]; change Syllable.op (.xori (sImm _)) = _; rw [sImm_SI]

theorem shli (o : SSh) : Statement (.shli o) := of_S rfl rfl rfl rfl rfl fun _ => by
  unfold parseS; rw [opOf_SI]; change Syllable.op (.shli (sSh _)) = _; rw [sSh_SI]

theorem shri (o : SSh) : Statement (.shri o) := of_S rfl rfl rfl rfl rfl fun _ => by
  unfold parseS; rw [opOf_SI]; change Syllable.op (.shri (sSh _)) = _; rw [sSh_SI]

theorem srai (o : SSh) : Statement (.srai o) := of_S rfl rfl rfl rfl rfl fun _ => by
  unfold parseS; rw [opOf_SI]; change Syllable.op (.srai (sSh _)) = _; rw [sSh_SI]

theorem slti (o : SImm) : Statement (.slti o) := of_S rfl rfl rfl rfl rfl fun _ => by
  unfold parseS; rw [opOf_SI]; change Syllable.op (.slti (sImm _)) = _; rw [sImm_SI]

theorem sltni (o : SImm) : Statement (.sltni o) := of_S rfl rfl rfl rfl rfl fun _ => by
  unfold parseS; rw [opOf_SI]; change Syllable.op (.sltni (sImm _)) = _; rw [sImm_SI]

theorem li (o : SLong) : Statement (.li o) := of_S rfl rfl rfl rfl rfl fun _ => by
  unfold parseS; rw [opOf_SL]; change Syllable.op (.li (sLong _)) = _; rw [sLong_SL]

theorem lim (o : SLong) : Statement (.lim o) := of_S rfl rfl rfl rfl rfl fun _ => by
  unfold parseS; rw [opOf_SL]; change Syllable.op (.lim (sLong _)) = _; rw [sLong_SL]

theorem lit (o : SLong) : Statement (.lit o) := of_S rfl rfl rfl rfl rfl fun _ => by
  unfold parseS; rw [opOf_SL]; change Syllable.op (.lit (sLong _)) = _; rw [sLong_SL]

theorem ldLI8 (o : SImm) : Statement (.ldLI8 o) := of_S rfl rfl rfl rfl rfl fun _ => by
  unfold parseS; rw [opOf_SI]; change Syllable.op (.ldLI8 (sImm _)) = _; rw [sImm_SI]

theorem ldLN8 (o : SImm) : Statement (.ldLN8 o) := of_S rfl rfl rfl rfl rfl fun _ => by
  unfold parseS; rw [opOf_SI]; change Syllable.op (.ldLN8 (sImm _)) = _; rw [sImm_SI]

theorem ldLI16 (o : SImm) : Statement (.ldLI16 o) := of_S rfl rfl rfl rfl rfl fun _ => by
  unfold parseS; rw [opOf_SI]; change Syllable.op (.ldLI16 (sImm _)) = _; rw [sImm_SI]

theorem ldLN16 (o : SImm) : Statement (.ldLN16 o) := of_S rfl rfl rfl rfl rfl fun _ => by
  unfold parseS; rw [opOf_SI]; change Syllable.op (.ldLN16 (sImm _)) = _; rw [sImm_SI]

theorem ldLI32 (o : SImm) : Statement (.ldLI32 o) := of_S rfl rfl rfl rfl rfl fun _ => by
  unfold parseS; rw [opOf_SI]; change Syllable.op (.ldLI32 (sImm _)) = _; rw [sImm_SI]

theorem ldLN32 (o : SImm) : Statement (.ldLN32 o) := of_S rfl rfl rfl rfl rfl fun _ => by
  unfold parseS; rw [opOf_SI]; change Syllable.op (.ldLN32 (sImm _)) = _; rw [sImm_SI]

theorem ldLD (o : SImm) : Statement (.ldLD o) := of_S rfl rfl rfl rfl rfl fun _ => by
  unfold parseS; rw [opOf_SI]; change Syllable.op (.ldLD (sImm _)) = _; rw [sImm_SI]

theorem stLB (o : SSt) : Statement (.stLB o) := of_S rfl rfl rfl rfl rfl fun _ => by
  unfold parseS; rw [opOf_SI]; change Syllable.op (.stLB (sSt _)) = _; rw [sSt_SI]

theorem stLH (o : SSt) : Statement (.stLH o) := of_S rfl rfl rfl rfl rfl fun _ => by
  unfold parseS; rw [opOf_SI]; change Syllable.op (.stLH (sSt _)) = _; rw [sSt_SI]

theorem stLW (o : SSt) : Statement (.stLW o) := of_S rfl rfl rfl rfl rfl fun _ => by
  unfold parseS; rw [opOf_SI]; change Syllable.op (.stLW (sSt _)) = _; rw [sSt_SI]

theorem stLD (o : SSt) : Statement (.stLD o) := of_S rfl rfl rfl rfl rfl fun _ => by
  unfold parseS; rw [opOf_SI]; change Syllable.op (.stLD (sSt _)) = _; rw [sSt_SI]

theorem ldg (o : LdgOp) : Statement (.ldg o) := of_S rfl rfl rfl rfl rfl fun _ => by
  unfold parseS; rw [opOf_SI]; change parsed ((ldgOf _).map .ldg) = _; simp (disch := decide) only [parsed, ldgOf, stgOf, dOf_SI, nwOf_SI, aOf_SI, immOf_SI, imm_SI, immBit_SI, field_high, field_low, field_all, bit_high, bit_low, bit_bit, Nat.reduceSub, Option.map_some, Option.bind_eq_bind, Option.bind_some, find_condZ, find_condB, find_ptest, find_engine, find_scope, find_ldSz, find_stSz, decodeSrc_encodeSrc, toFin_fin2, toFin_fin16, toFin_fin32, toFin_low2]

theorem stg (o : StgOp) : Statement (.stg o) := of_S rfl rfl rfl rfl rfl fun _ => by
  unfold parseS; rw [opOf_SI]; change parsed ((stgOf _).map .stg) = _; simp (disch := decide) only [parsed, ldgOf, stgOf, dOf_SI, nwOf_SI, aOf_SI, immOf_SI, imm_SI, immBit_SI, field_high, field_low, field_all, bit_high, bit_low, bit_bit, Nat.reduceSub, Option.map_some, Option.bind_eq_bind, Option.bind_some, find_condZ, find_condB, find_ptest, find_engine, find_scope, find_ldSz, find_stSz, decodeSrc_encodeSrc, toFin_fin2, toFin_fin16, toFin_fin32, toFin_low2]

theorem amoAdd (o : AmoOp) : Statement (.amoAdd o) := of_S rfl rfl rfl rfl rfl fun _ => by
  unfold parseS; rw [opOf_SR]; change parseAmo _ = _; unfold parseAmo; rw [last_SR]; change parsed ((amoOf _).map .amoAdd) = _; rw [amoOf_SR]; rfl

theorem amoAnd (o : AmoOp) : Statement (.amoAnd o) := of_S rfl rfl rfl rfl rfl fun _ => by
  unfold parseS; rw [opOf_SR]; change parseAmo _ = _; unfold parseAmo; rw [last_SR]; change parsed ((amoOf _).map .amoAnd) = _; rw [amoOf_SR]; rfl

theorem amoOr (o : AmoOp) : Statement (.amoOr o) := of_S rfl rfl rfl rfl rfl fun _ => by
  unfold parseS; rw [opOf_SR]; change parseAmo _ = _; unfold parseAmo; rw [last_SR]; change parsed ((amoOf _).map .amoOr) = _; rw [amoOf_SR]; rfl

theorem amoXor (o : AmoOp) : Statement (.amoXor o) := of_S rfl rfl rfl rfl rfl fun _ => by
  unfold parseS; rw [opOf_SR]; change parseAmo _ = _; unfold parseAmo; rw [last_SR]; change parsed ((amoOf _).map .amoXor) = _; rw [amoOf_SR]; rfl

theorem amoMin (o : AmoOp) : Statement (.amoMin o) := of_S rfl rfl rfl rfl rfl fun _ => by
  unfold parseS; rw [opOf_SR]; change parseAmo _ = _; unfold parseAmo; rw [last_SR]; change parsed ((amoOf _).map .amoMin) = _; rw [amoOf_SR]; rfl

theorem amoMax (o : AmoOp) : Statement (.amoMax o) := of_S rfl rfl rfl rfl rfl fun _ => by
  unfold parseS; rw [opOf_SR]; change parseAmo _ = _; unfold parseAmo; rw [last_SR]; change parsed ((amoOf _).map .amoMax) = _; rw [amoOf_SR]; rfl

theorem amoMinn (o : AmoOp) : Statement (.amoMinn o) := of_S rfl rfl rfl rfl rfl fun _ => by
  unfold parseS; rw [opOf_SR]; change parseAmo _ = _; unfold parseAmo; rw [last_SR]; change parsed ((amoOf _).map .amoMinn) = _; rw [amoOf_SR]; rfl

theorem amoMaxn (o : AmoOp) : Statement (.amoMaxn o) := of_S rfl rfl rfl rfl rfl fun _ => by
  unfold parseS; rw [opOf_SR]; change parseAmo _ = _; unfold parseAmo; rw [last_SR]; change parsed ((amoOf _).map .amoMaxn) = _; rw [amoOf_SR]; rfl

theorem amoSwap (o : AmoOp) : Statement (.amoSwap o) := of_S rfl rfl rfl rfl rfl fun _ => by
  unfold parseS; rw [opOf_SR]; change parseAmo _ = _; unfold parseAmo; rw [last_SR]; change parsed ((amoOf _).map .amoSwap) = _; rw [amoOf_SR]; rfl

theorem amoFadd (o : AmoOp) : Statement (.amoFadd o) := of_S rfl rfl rfl rfl rfl fun _ => by
  unfold parseS; rw [opOf_SR]; change parseAmo _ = _; unfold parseAmo; rw [last_SR]; change parsed ((amoOf _).map .amoFadd) = _; rw [amoOf_SR]; rfl

theorem amocas (o : AmoOp) : Statement (.amocas o) := of_S rfl rfl rfl rfl rfl fun _ => by
  unfold parseS; rw [opOf_SR]; change parsed ((amoOf _).map .amocas) = _; rw [amoOf_SR]; rfl

theorem fence (sc : Scope) : Statement (.fence sc) := of_S rfl rfl rfl rfl rfl fun _ => by
  unfold parseS; rw [opOf_SR]; change parseFence _ = _; unfold parseFence; rw [fn_SR _ _ _ _ _ _ 4 4 (by decide), field_high _ _ _ _ (by decide)]
  change parsed ((findCode encodeScope allScope (BitVec.extractLsb' 0 3 _)).map (fun sc => if BitVec.getLsbD _ 3 then Instr.fenceRel sc else Instr.fence sc)) = _
  simp (disch := decide) only [parsed, fn_SR, fnBit_SR, dOf_SR, nwOf_SR, aOf_SR, bOf_SR, field_high, field_low, field_all, bit_high, bit_low, bit_bit, Nat.reduceSub, Option.map_some, Option.bind_eq_bind, Option.bind_some, find_condZ, find_condB, find_ptest, find_engine, find_scope, find_ldSz, find_stSz, decodeSrc_encodeSrc, toFin_fin2, toFin_fin16, toFin_fin32, toFin_low2]; rfl

theorem fenceRel (sc : Scope) : Statement (.fenceRel sc) := of_S rfl rfl rfl rfl rfl fun _ => by
  unfold parseS; rw [opOf_SR]; change parseFence _ = _; unfold parseFence; rw [fn_SR _ _ _ _ _ _ 4 4 (by decide), field_high _ _ _ _ (by decide)]
  change parsed ((findCode encodeScope allScope (BitVec.extractLsb' 0 3 _)).map (fun sc => if BitVec.getLsbD _ 3 then Instr.fenceRel sc else Instr.fence sc)) = _
  simp (disch := decide) only [parsed, fn_SR, fnBit_SR, dOf_SR, nwOf_SR, aOf_SR, bOf_SR, field_high, field_low, field_all, bit_high, bit_low, bit_bit, Nat.reduceSub, Option.map_some, Option.bind_eq_bind, Option.bind_some, find_condZ, find_condB, find_ptest, find_engine, find_scope, find_ldSz, find_stSz, decodeSrc_encodeSrc, toFin_fin2, toFin_fin16, toFin_fin32, toFin_low2]; rfl

theorem waittl (a : Src) (e : Engine) : Statement (.waittl a e) := of_S rfl rfl rfl rfl rfl fun _ => by
  unfold parseS; rw [opOf_SR]; change parseFence _ = _; unfold parseFence; rw [fn_SR _ _ _ _ _ _ 4 4 (by decide), field_high _ _ _ _ (by decide)]
  change parsed ((findCode encodeEngine allEngine (BitVec.extractLsb' 0 3 _)).map (Instr.waittl (aOf _))) = _
  simp (disch := decide) only [parsed, fn_SR, fnBit_SR, dOf_SR, nwOf_SR, aOf_SR, bOf_SR, field_high, field_low, field_all, bit_high, bit_low, bit_bit, Nat.reduceSub, Option.map_some, Option.bind_eq_bind, Option.bind_some, find_condZ, find_condB, find_ptest, find_engine, find_scope, find_ldSz, find_stSz, decodeSrc_encodeSrc, toFin_fin2, toFin_fin16, toFin_fin32, toFin_low2]

theorem bcz (cc : CondZ) (a : Src) (disp : BitVec 16) : Statement (.bcz cc a disp) := of_S rfl rfl rfl rfl rfl fun _ => by
  unfold parseS; rw [opOf_SB]
  change parsed ((findCode encodeCondZ allCondZ (BitVec.extractLsb' 22 4 _)).map (fun cc => Instr.bcz cc (decodeSrc (BitVec.extractLsb' 16 6 _)) (BitVec.extractLsb' 0 16 _))) = _
  simp (disch := decide) only [parsed, wordSB, field_high, field_low, field_all, bit_high, bit_low, bit_bit, Nat.reduceSub, Option.map_some, Option.bind_eq_bind, Option.bind_some, find_condZ, find_condB, find_ptest, find_engine, find_scope, find_ldSz, find_stSz, decodeSrc_encodeSrc, toFin_fin2, toFin_fin16, toFin_fin32, toFin_low2]

theorem bc (cc : CondB) (a : Src) (b : Src) (disp : BitVec 11) : Statement (.bc cc a b disp) := of_S rfl rfl rfl rfl rfl fun _ => by
  unfold parseS; rw [opOf_SC]
  change parsed ((findCode encodeCondB allCondB (BitVec.extractLsb' 23 3 _)).map (fun cc => Instr.bc cc (decodeSrc (BitVec.extractLsb' 17 6 _)) (decodeSrc (BitVec.extractLsb' 11 6 _)) (BitVec.extractLsb' 0 11 _))) = _
  simp (disch := decide) only [parsed, wordSC, field_high, field_low, field_all, bit_high, bit_low, bit_bit, Nat.reduceSub, Option.map_some, Option.bind_eq_bind, Option.bind_some, find_condZ, find_condB, find_ptest, find_engine, find_scope, find_ldSz, find_stSz, decodeSrc_encodeSrc, toFin_fin2, toFin_fin16, toFin_fin32, toFin_low2]

theorem bp (p : Fin 16) (t : PTest) (disp : BitVec 16) : Statement (.bp p t disp) := of_S rfl rfl rfl rfl rfl fun _ => by
  unfold parseS; rw [opOf_SB]
  change parsed ((findCode encodePTest allPTest (BitVec.extractLsb' 16 6 _)).map (fun t => Instr.bp (BitVec.extractLsb' 22 4 _).toFin t (BitVec.extractLsb' 0 16 _))) = _
  simp (disch := decide) only [parsed, wordSB, field_high, field_low, field_all, bit_high, bit_low, bit_bit, Nat.reduceSub, Option.map_some, Option.bind_eq_bind, Option.bind_some, find_condZ, find_condB, find_ptest, find_engine, find_scope, find_ldSz, find_stSz, decodeSrc_encodeSrc, toFin_fin2, toFin_fin16, toFin_fin32, toFin_low2]

theorem jmp (disp : BitVec 21) : Statement (.jmp disp) := of_S rfl rfl rfl rfl rfl fun _ => by
  unfold parseS; rw [opOf_SJ]
  change Syllable.op (.jmp (BitVec.extractLsb' 0 21 _)) = _
  simp (disch := decide) only [parsed, wordSJ, dOf, field_high, field_low, field_all, bit_high, bit_low, bit_bit, Nat.reduceSub, Option.map_some, Option.bind_eq_bind, Option.bind_some, find_condZ, find_condB, find_ptest, find_engine, find_scope, find_ldSz, find_stSz, decodeSrc_encodeSrc, toFin_fin2, toFin_fin16, toFin_fin32, toFin_low2]

theorem brl (d : Fin 32) (disp : BitVec 21) : Statement (.brl d disp) := of_S rfl rfl rfl rfl rfl fun _ => by
  unfold parseS; rw [opOf_SJ]
  change Syllable.op (.brl (dOf _) (BitVec.extractLsb' 0 21 _)) = _
  simp (disch := decide) only [parsed, wordSJ, dOf, field_high, field_low, field_all, bit_high, bit_low, bit_bit, Nat.reduceSub, Option.map_some, Option.bind_eq_bind, Option.bind_some, find_condZ, find_condB, find_ptest, find_engine, find_scope, find_ldSz, find_stSz, decodeSrc_encodeSrc, toFin_fin2, toFin_fin16, toFin_fin32, toFin_low2]

theorem jr (a : Src) : Statement (.jr a) := of_S rfl rfl rfl rfl rfl fun _ => by
  unfold parseS; rw [opOf_SR]; change Syllable.op (.jr (aOf _)) = _; simp (disch := decide) only [parsed, fn_SR, fnBit_SR, dOf_SR, nwOf_SR, aOf_SR, bOf_SR, field_high, field_low, field_all, bit_high, bit_low, bit_bit, Nat.reduceSub, Option.map_some, Option.bind_eq_bind, Option.bind_some, find_condZ, find_condB, find_ptest, find_engine, find_scope, find_ldSz, find_stSz, decodeSrc_encodeSrc, toFin_fin2, toFin_fin16, toFin_fin32, toFin_low2]

theorem jrl (d : Fin 32) (a : Src) : Statement (.jrl d a) := of_S rfl rfl rfl rfl rfl fun _ => by
  unfold parseS; rw [opOf_SR]
  change Syllable.op (.jrl (dOf _) (aOf _)) = _
  simp (disch := decide) only [parsed, fn_SR, fnBit_SR, dOf_SR, nwOf_SR, aOf_SR, bOf_SR, field_high, field_low, field_all, bit_high, bit_low, bit_bit, Nat.reduceSub, Option.map_some, Option.bind_eq_bind, Option.bind_some, find_condZ, find_condB, find_ptest, find_engine, find_scope, find_ldSz, find_stSz, decodeSrc_encodeSrc, toFin_fin2, toFin_fin16, toFin_fin32, toFin_low2]

theorem loop (n : Fin 2) (a : Src) (disp : BitVec 11) : Statement (.loop n a disp) := of_S rfl rfl rfl rfl rfl fun _ => by
  unfold parseS; rw [opOf_SC]
  change Syllable.op (.loop (BitVec.extractLsb' 23 1 _).toFin (decodeSrc (BitVec.extractLsb' 17 6 _)) (BitVec.extractLsb' 0 11 _)) = _
  simp (disch := decide) only [parsed, wordSC, field_high, field_low, field_all, bit_high, bit_low, bit_bit, Nat.reduceSub, Option.map_some, Option.bind_eq_bind, Option.bind_some, find_condZ, find_condB, find_ptest, find_engine, find_scope, find_ldSz, find_stSz, decodeSrc_encodeSrc, toFin_fin2, toFin_fin16, toFin_fin32, toFin_low2]

theorem loopi (n : Fin 2) (cnt : BitVec 10) (disp : BitVec 14) : Statement (.loopi n cnt disp) := of_S rfl rfl rfl rfl rfl fun _ => by
  unfold parseS; rw [opOf_SI]
  change Syllable.op (.loopi (BitVec.extractLsb' 25 1 _).toFin (BitVec.extractLsb' 21 4 _ ++ BitVec.extractLsb' 14 6 _) (immOf _)) = _
  simp (disch := decide) only [parsed, wordSI, immOf, loopi_level, loopi_high, count_join, field_high, field_low, field_all, bit_high, bit_low, bit_bit, Nat.reduceSub, Option.map_some, Option.bind_eq_bind, Option.bind_some, find_condZ, find_condB, find_ptest, find_engine, find_scope, find_ldSz, find_stSz, decodeSrc_encodeSrc, toFin_fin2, toFin_fin16, toFin_fin32, toFin_low2]

theorem enter (imm : BitVec 14) : Statement (.enter imm) := of_S rfl rfl rfl rfl rfl fun _ => by
  unfold parseS; rw [opOf_SI]; change Syllable.op (.enter (immOf _)) = _; simp (disch := decide) only [parsed, ldgOf, stgOf, dOf_SI, nwOf_SI, aOf_SI, immOf_SI, imm_SI, immBit_SI, field_high, field_low, field_all, bit_high, bit_low, bit_bit, Nat.reduceSub, Option.map_some, Option.bind_eq_bind, Option.bind_some, find_condZ, find_condB, find_ptest, find_engine, find_scope, find_ldSz, find_stSz, decodeSrc_encodeSrc, toFin_fin2, toFin_fin16, toFin_fin32, toFin_low2]

theorem leave : Statement .leave := of_S rfl rfl rfl rfl rfl fun _ => by
  unfold parseS; rw [opOf_SI]; rfl

theorem csrr (d : Fin 32) (nw : Bool) (csr : BitVec 12) : Statement (.csrr d nw csr) := of_S rfl rfl rfl rfl rfl fun _ => by
  unfold parseS; rw [opOf_SI]
  change Syllable.op (.csrr (dOf _) (nwOf _) (BitVec.extractLsb' 0 12 _)) = _
  simp (disch := decide) only [parsed, ldgOf, stgOf, dOf_SI, nwOf_SI, aOf_SI, immOf_SI, imm_SI, immBit_SI, field_high, field_low, field_all, bit_high, bit_low, bit_bit, Nat.reduceSub, Option.map_some, Option.bind_eq_bind, Option.bind_some, find_condZ, find_condB, find_ptest, find_engine, find_scope, find_ldSz, find_stSz, decodeSrc_encodeSrc, toFin_fin2, toFin_fin16, toFin_fin32, toFin_low2]

theorem csrw (o : CsrOp) : Statement (.csrw o) := of_S rfl rfl rfl rfl rfl fun _ => by
  unfold parseS; rw [opOf_SI]; change Syllable.op (.csrw (sCsr _)) = _; rw [sCsr_SI]

theorem csrs (o : CsrOp) : Statement (.csrs o) := of_S rfl rfl rfl rfl rfl fun _ => by
  unfold parseS; rw [opOf_SI]; change Syllable.op (.csrs (sCsr _)) = _; rw [sCsr_SI]

theorem csrc (o : CsrOp) : Statement (.csrc o) := of_S rfl rfl rfl rfl rfl fun _ => by
  unfold parseS; rw [opOf_SI]; change Syllable.op (.csrc (sCsr _)) = _; rw [sCsr_SI]

theorem trap (a : Src) : Statement (.trap a) := of_S rfl rfl rfl rfl rfl fun _ => by
  unfold parseS; rw [opOf_SR]; change parseSystem _ = _; unfold parseSystem; rw [fnOf_SR]; change Syllable.op (.trap (aOf _)) = _; simp (disch := decide) only [parsed, fn_SR, fnBit_SR, dOf_SR, nwOf_SR, aOf_SR, bOf_SR, field_high, field_low, field_all, bit_high, bit_low, bit_bit, Nat.reduceSub, Option.map_some, Option.bind_eq_bind, Option.bind_some, find_condZ, find_condB, find_ptest, find_engine, find_scope, find_ldSz, find_stSz, decodeSrc_encodeSrc, toFin_fin2, toFin_fin16, toFin_fin32, toFin_low2]

theorem sysc (a : Src) : Statement (.sysc a) := of_S rfl rfl rfl rfl rfl fun _ => by
  unfold parseS; rw [opOf_SR]; change parseSystem _ = _; unfold parseSystem; rw [fnOf_SR]; change Syllable.op (.sysc (aOf _)) = _; simp (disch := decide) only [parsed, fn_SR, fnBit_SR, dOf_SR, nwOf_SR, aOf_SR, bOf_SR, field_high, field_low, field_all, bit_high, bit_low, bit_bit, Nat.reduceSub, Option.map_some, Option.bind_eq_bind, Option.bind_some, find_condZ, find_condB, find_ptest, find_engine, find_scope, find_ldSz, find_stSz, decodeSrc_encodeSrc, toFin_fin2, toFin_fin16, toFin_fin32, toFin_low2]

theorem brk : Statement .brk := of_S rfl rfl rfl rfl rfl fun _ => by
  unfold parseS; rw [opOf_SR]; change parseSystem _ = _; unfold parseSystem; rw [fnOf_SR]; rfl

theorem tret : Statement .tret := of_S rfl rfl rfl rfl rfl fun _ => by
  unfold parseS; rw [opOf_SR]; change parseSystem _ = _; unfold parseSystem; rw [fnOf_SR]; rfl

theorem iclk (d : Fin 32) (a : Src) (b : Src) : Statement (.iclk d a b) := of_S rfl rfl rfl rfl rfl fun _ => by
  unfold parseS; rw [opOf_SR]; change parseSystem _ = _; unfold parseSystem; rw [fnOf_SR]
  change Syllable.op (.iclk (dOf _) (aOf _) (bOf _)) = _
  simp (disch := decide) only [parsed, fn_SR, fnBit_SR, dOf_SR, nwOf_SR, aOf_SR, bOf_SR, field_high, field_low, field_all, bit_high, bit_low, bit_bit, Nat.reduceSub, Option.map_some, Option.bind_eq_bind, Option.bind_some, find_condZ, find_condB, find_ptest, find_engine, find_scope, find_ldSz, find_stSz, decodeSrc_encodeSrc, toFin_fin2, toFin_fin16, toFin_fin32, toFin_low2]

theorem iunlk (a : Src) (b : Src) : Statement (.iunlk a b) := of_S rfl rfl rfl rfl rfl fun _ => by
  unfold parseS; rw [opOf_SR]; change parseSystem _ = _; unfold parseSystem; rw [fnOf_SR]
  change Syllable.op (.iunlk (aOf _) (bOf _)) = _
  simp (disch := decide) only [parsed, fn_SR, fnBit_SR, dOf_SR, nwOf_SR, aOf_SR, bOf_SR, field_high, field_low, field_all, bit_high, bit_low, bit_bit, Nat.reduceSub, Option.map_some, Option.bind_eq_bind, Option.bind_some, find_condZ, find_condB, find_ptest, find_engine, find_scope, find_ldSz, find_stSz, decodeSrc_encodeSrc, toFin_fin2, toFin_fin16, toFin_fin32, toFin_low2]

theorem yield (n : BitVec 20) : Statement (.yield n) := of_S rfl rfl rfl rfl rfl fun _ => by
  unfold parseS; rw [opOf_SL]
  change Syllable.op (.yield (BitVec.extractLsb' 0 20 _)) = _
  simp (disch := decide) only [parsed, wordSL, field_high, field_low, field_all, bit_high, bit_low, bit_bit, Nat.reduceSub, Option.map_some, Option.bind_eq_bind, Option.bind_some, find_condZ, find_condB, find_ptest, find_engine, find_scope, find_ldSz, find_stSz, decodeSrc_encodeSrc, toFin_fin2, toFin_fin16, toFin_fin32, toFin_low2]

theorem spawn (d : Fin 32) (a : Src) (b : Src) : Statement (.spawn d a b) := of_S rfl rfl rfl rfl rfl fun _ => by
  unfold parseS; rw [opOf_SR]; change parseHier _ = _; unfold parseHier; rw [fnOf_SR]
  change Syllable.op (.spawn (dOf _) (aOf _) (bOf _)) = _
  simp (disch := decide) only [parsed, fn_SR, fnBit_SR, dOf_SR, nwOf_SR, aOf_SR, bOf_SR, field_high, field_low, field_all, bit_high, bit_low, bit_bit, Nat.reduceSub, Option.map_some, Option.bind_eq_bind, Option.bind_some, find_condZ, find_condB, find_ptest, find_engine, find_scope, find_ldSz, find_stSz, decodeSrc_encodeSrc, toFin_fin2, toFin_fin16, toFin_fin32, toFin_low2]

theorem exit : Statement .exit := of_S rfl rfl rfl rfl rfl fun _ => by
  unfold parseS; rw [opOf_SR]; change parseHier _ = _; unfold parseHier; rw [fnOf_SR]; rfl

theorem cancelLaunch (a : Src) : Statement (.cancelLaunch a) := of_S rfl rfl rfl rfl rfl fun _ => by
  unfold parseS; rw [opOf_SR]; change parseHier _ = _; unfold parseHier; rw [fnOf_SR]; change Syllable.op (.cancelLaunch (aOf _)) = _; simp (disch := decide) only [parsed, fn_SR, fnBit_SR, dOf_SR, nwOf_SR, aOf_SR, bOf_SR, field_high, field_low, field_all, bit_high, bit_low, bit_bit, Nat.reduceSub, Option.map_some, Option.bind_eq_bind, Option.bind_some, find_condZ, find_condB, find_ptest, find_engine, find_scope, find_ldSz, find_stSz, decodeSrc_encodeSrc, toFin_fin2, toFin_fin16, toFin_fin32, toFin_low2]

theorem cancelGraph (a : Src) : Statement (.cancelGraph a) := of_S rfl rfl rfl rfl rfl fun _ => by
  unfold parseS; rw [opOf_SR]; change parseHier _ = _; unfold parseHier; rw [fnOf_SR]; change Syllable.op (.cancelGraph (aOf _)) = _; simp (disch := decide) only [parsed, fn_SR, fnBit_SR, dOf_SR, nwOf_SR, aOf_SR, bOf_SR, field_high, field_low, field_all, bit_high, bit_low, bit_bit, Nat.reduceSub, Option.map_some, Option.bind_eq_bind, Option.bind_some, find_condZ, find_condB, find_ptest, find_engine, find_scope, find_ldSz, find_stSz, decodeSrc_encodeSrc, toFin_fin2, toFin_fin16, toFin_fin32, toFin_low2]

theorem cancelPhase (a : Src) : Statement (.cancelPhase a) := of_S rfl rfl rfl rfl rfl fun _ => by
  unfold parseS; rw [opOf_SR]; change parseHier _ = _; unfold parseHier; rw [fnOf_SR]; change Syllable.op (.cancelPhase (aOf _)) = _; simp (disch := decide) only [parsed, fn_SR, fnBit_SR, dOf_SR, nwOf_SR, aOf_SR, bOf_SR, field_high, field_low, field_all, bit_high, bit_low, bit_bit, Nat.reduceSub, Option.map_some, Option.bind_eq_bind, Option.bind_some, find_condZ, find_condB, find_ptest, find_engine, find_scope, find_ldSz, find_stSz, decodeSrc_encodeSrc, toFin_fin2, toFin_fin16, toFin_fin32, toFin_low2]

theorem cancelJob (a : Src) : Statement (.cancelJob a) := of_S rfl rfl rfl rfl rfl fun _ => by
  unfold parseS; rw [opOf_SR]; change parseHier _ = _; unfold parseHier; rw [fnOf_SR]; change Syllable.op (.cancelJob (aOf _)) = _; simp (disch := decide) only [parsed, fn_SR, fnBit_SR, dOf_SR, nwOf_SR, aOf_SR, bOf_SR, field_high, field_low, field_all, bit_high, bit_low, bit_bit, Nat.reduceSub, Option.map_some, Option.bind_eq_bind, Option.bind_some, find_condZ, find_condB, find_ptest, find_engine, find_scope, find_ldSz, find_stSz, decodeSrc_encodeSrc, toFin_fin2, toFin_fin16, toFin_fin32, toFin_low2]

theorem barClu (n : Fin 32) (a : Src) : Statement (.barClu n a) := of_S rfl rfl rfl rfl rfl fun _ => by
  unfold parseS; rw [opOf_SR]; change parseHier _ = _; unfold parseHier; rw [fnOf_SR]
  change Syllable.op (.barClu (dOf _) (aOf _)) = _
  simp (disch := decide) only [parsed, fn_SR, fnBit_SR, dOf_SR, nwOf_SR, aOf_SR, bOf_SR, field_high, field_low, field_all, bit_high, bit_low, bit_bit, Nat.reduceSub, Option.map_some, Option.bind_eq_bind, Option.bind_some, find_condZ, find_condB, find_ptest, find_engine, find_scope, find_ldSz, find_stSz, decodeSrc_encodeSrc, toFin_fin2, toFin_fin16, toFin_fin32, toFin_low2]

theorem barDie (n : Fin 32) (a : Src) : Statement (.barDie n a) := of_S rfl rfl rfl rfl rfl fun _ => by
  unfold parseS; rw [opOf_SR]; change parseHier _ = _; unfold parseHier; rw [fnOf_SR]
  change Syllable.op (.barDie (dOf _) (aOf _)) = _
  simp (disch := decide) only [parsed, fn_SR, fnBit_SR, dOf_SR, nwOf_SR, aOf_SR, bOf_SR, field_high, field_low, field_all, bit_high, bit_low, bit_bit, Nat.reduceSub, Option.map_some, Option.bind_eq_bind, Option.bind_some, find_condZ, find_condB, find_ptest, find_engine, find_scope, find_ldSz, find_stSz, decodeSrc_encodeSrc, toFin_fin2, toFin_fin16, toFin_fin32, toFin_low2]

theorem barDev (n : Fin 32) (a : Src) : Statement (.barDev n a) := of_S rfl rfl rfl rfl rfl fun _ => by
  unfold parseS; rw [opOf_SR]; change parseHier _ = _; unfold parseHier; rw [fnOf_SR]
  change Syllable.op (.barDev (dOf _) (aOf _)) = _
  simp (disch := decide) only [parsed, fn_SR, fnBit_SR, dOf_SR, nwOf_SR, aOf_SR, bOf_SR, field_high, field_low, field_all, bit_high, bit_low, bit_bit, Nat.reduceSub, Option.map_some, Option.bind_eq_bind, Option.bind_some, find_condZ, find_condB, find_ptest, find_engine, find_scope, find_ldSz, find_stSz, decodeSrc_encodeSrc, toFin_fin2, toFin_fin16, toFin_fin32, toFin_low2]

theorem vadd (o : VInt) : Statement (.vadd o) := of_V rfl rfl rfl rfl rfl fun _ => by
  change parsed ((VxFields.int _).map .vadd) = _; rw [int_vx]; rfl

theorem vsub (o : VInt) : Statement (.vsub o) := of_V rfl rfl rfl rfl rfl fun _ => by
  change parsed ((VxFields.int _).map .vsub) = _; rw [int_vx]; rfl

theorem vmul (o : VInt) : Statement (.vmul o) := of_V rfl rfl rfl rfl rfl fun _ => by
  change parsed ((VxFields.int _).map .vmul) = _; rw [int_vx]; rfl

theorem vmad (o : VMadOp) : Statement (.vmad o) := of_V rfl rfl rfl rfl rfl fun _ => by
  change parsed ((VxFields.mad _).map .vmad) = _; rw [mad_vx]; rfl

theorem vmulh (o : VBin) : Statement (.vmulh o) := of_V rfl rfl rfl rfl rfl fun _ => by
  change parsed ((VxFields.bin _).map .vmulh) = _; rw [bin_vx]; rfl

theorem vmin (o : VBin) : Statement (.vmin o) := of_V rfl rfl rfl rfl rfl fun _ => by
  change parsed ((VxFields.bin _).map .vmin) = _; rw [bin_vx]; rfl

theorem vmax (o : VBin) : Statement (.vmax o) := of_V rfl rfl rfl rfl rfl fun _ => by
  change parsed ((VxFields.bin _).map .vmax) = _; rw [bin_vx]; rfl

theorem vabs (o : VUnSat) : Statement (.vabs o) := of_V rfl rfl rfl rfl rfl fun _ => by
  change parsed ((VxFields.unSat _).map .vabs) = _; rw [unSat_vx]; rfl

theorem vneg (o : VUnSat) : Statement (.vneg o) := of_V rfl rfl rfl rfl rfl fun _ => by
  change parsed ((VxFields.unSat _).map .vneg) = _; rw [unSat_vx]; rfl

theorem vand (o : VBin) : Statement (.vand o) := of_V rfl rfl rfl rfl rfl fun _ => by
  change parsed ((VxFields.bin _).map .vand) = _; rw [bin_vx]; rfl

theorem vor (o : VBin) : Statement (.vor o) := of_V rfl rfl rfl rfl rfl fun _ => by
  change parsed ((VxFields.bin _).map .vor) = _; rw [bin_vx]; rfl

theorem vxor (o : VBin) : Statement (.vxor o) := of_V rfl rfl rfl rfl rfl fun _ => by
  change parsed ((VxFields.bin _).map .vxor) = _; rw [bin_vx]; rfl

theorem vshl (o : VBin) : Statement (.vshl o) := of_V rfl rfl rfl rfl rfl fun _ => by
  change parsed ((VxFields.bin _).map .vshl) = _; rw [bin_vx]; rfl

theorem vshr (o : VBin) : Statement (.vshr o) := of_V rfl rfl rfl rfl rfl fun _ => by
  change parsed ((VxFields.bin _).map .vshr) = _; rw [bin_vx]; rfl

theorem vsra (o : VBin) : Statement (.vsra o) := of_V rfl rfl rfl rfl rfl fun _ => by
  change parsed ((VxFields.bin _).map .vsra) = _; rw [bin_vx]; rfl

theorem vfadd (o : VFlt) : Statement (.vfadd o) := of_V rfl rfl rfl rfl rfl fun _ => by
  change parsed ((VxFields.flt _).map .vfadd) = _; rw [flt_vx]; rfl

theorem vfsub (o : VFlt) : Statement (.vfsub o) := of_V rfl rfl rfl rfl rfl fun _ => by
  change parsed ((VxFields.flt _).map .vfsub) = _; rw [flt_vx]; rfl

theorem vfmul (o : VFlt) : Statement (.vfmul o) := of_V rfl rfl rfl rfl rfl fun _ => by
  change parsed ((VxFields.flt _).map .vfmul) = _; rw [flt_vx]; rfl

theorem vfma (o : VFmaOp) : Statement (.vfma o) := of_V rfl rfl rfl rfl rfl fun _ => by
  change parsed ((VxFields.fmaOp _).map .vfma) = _; rw [fmaOp_vx]; rfl

theorem vfmin (o : VBin) : Statement (.vfmin o) := of_V rfl rfl rfl rfl rfl fun _ => by
  change parsed ((VxFields.bin _).map .vfmin) = _; rw [bin_vx]; rfl

theorem vfmax (o : VBin) : Statement (.vfmax o) := of_V rfl rfl rfl rfl rfl fun _ => by
  change parsed ((VxFields.bin _).map .vfmax) = _; rw [bin_vx]; rfl

theorem vfabs (o : VUn) : Statement (.vfabs o) := of_V rfl rfl rfl rfl rfl fun _ => by
  change parsed ((VxFields.un _).map .vfabs) = _; rw [un_vx]; rfl

theorem vfneg (o : VUn) : Statement (.vfneg o) := of_V rfl rfl rfl rfl rfl fun _ => by
  change parsed ((VxFields.un _).map .vfneg) = _; rw [un_vx]; rfl

theorem vcmp (o : VCmpOp) : Statement (.vcmp o) := of_V rfl rfl rfl rfl rfl fun _ => by
  change parsed ((VxFields.cmp _).map .vcmp) = _; rw [cmp_vx]; rfl

theorem vfcmp (o : VCmpOp) : Statement (.vfcmp o) := of_V rfl rfl rfl rfl rfl fun _ => by
  change parsed ((VxFields.cmp _).map .vfcmp) = _; rw [cmp_vx]; rfl

theorem vsel (o : VTri) : Statement (.vsel o) := of_V rfl rfl rfl rfl rfl fun _ => by
  change parsed ((VxFields.tri _).map .vsel) = _; rw [tri_vx]; rfl

theorem vbcst (o : VUn) : Statement (.vbcst o) := of_V rfl rfl rfl rfl rfl fun _ => by
  change parsed ((VxFields.un _).map .vbcst) = _; rw [un_vx]; rfl

theorem vins (o : VTwo) : Statement (.vins o) := of_V rfl rfl rfl rfl rfl fun _ => by
  change parsed ((VxFields.two _).map .vins) = _; rw [two_vx]; rfl

theorem vext (o : VTwo) : Statement (.vext o) := of_V rfl rfl rfl rfl rfl fun _ => by
  change parsed ((VxFields.two _).map .vext) = _; rw [two_vx]; rfl

theorem vmov (o : VUn) : Statement (.vmov o) := of_V rfl rfl rfl rfl rfl fun _ => by
  change parsed ((VxFields.un _).map .vmov) = _; rw [un_vx]; rfl

theorem vld (o : VLoc) : Statement (.vld o) := of_V rfl rfl rfl rfl rfl fun _ => by
  change parsed ((VxFields.loc _).map .vld) = _; rw [loc_vx]; rfl

theorem vst (d : Fin 32) (a : Src) (imm : BitVec 12) (pg : Fin 16) (ty : Ty) : Statement (.vst d a imm pg ty) := of_V rfl rfl rfl rfl rfl fun _ => by
  change parsed ((VxFields.ty? _).map (Instr.vst (VxFields.dReg _) (decodeSrc (VxFields.a _)) (VxFields.imm _) (VxFields.pg _))) = _
  simp (disch := decide) only [parsed, VxFields.ty?, VxFields.dReg, VxFields.imm, toFin_low9, toFin_fin9, toFin_cb8, vx, find_ty, find_rm, find_cmp, Option.map_some, Option.bind_eq_bind, Option.bind_some, toFin_fin4, toFin_fin8, toFin_fin16, toFin_fin32, toFin_fin64, toFin_fin3, toFin_low16, toFin_low8, decodeSrc_encodeSrc, field_high, field_low, field_all, bit_high, bit_low, bit_bit, Nat.reduceSub, imm_join]

theorem vlds (o : VTwo) : Statement (.vlds o) := of_V rfl rfl rfl rfl rfl fun _ => by
  change parsed ((VxFields.two _).map .vlds) = _; rw [two_vx]; rfl

theorem vgath (o : VTwo) : Statement (.vgath o) := of_V rfl rfl rfl rfl rfl fun _ => by
  change parsed ((VxFields.two _).map .vgath) = _; rw [two_vx]; rfl

theorem vscat (d : Fin 32) (a : Src) (b : Src) (pg : Fin 16) (ty : Ty) : Statement (.vscat d a b pg ty) := of_V rfl rfl rfl rfl rfl fun _ => by
  change parsed ((VxFields.ty? _).map (Instr.vscat (VxFields.dReg _) (decodeSrc (VxFields.a _)) (decodeSrc (VxFields.b _)) (VxFields.pg _))) = _
  simp (disch := decide) only [parsed, VxFields.ty?, VxFields.dReg, VxFields.imm, toFin_low9, toFin_fin9, toFin_cb8, vx, find_ty, find_rm, find_cmp, Option.map_some, Option.bind_eq_bind, Option.bind_some, toFin_fin4, toFin_fin8, toFin_fin16, toFin_fin32, toFin_fin64, toFin_fin3, toFin_low16, toFin_low8, decodeSrc_encodeSrc, field_high, field_low, field_all, bit_high, bit_low, bit_bit, Nat.reduceSub, imm_join]

theorem vldg (o : VGlob) : Statement (.vldg o) := of_V rfl rfl rfl rfl rfl fun _ => by
  change parsed ((VxFields.glob _).map .vldg) = _; rw [glob_vx]; rfl

theorem vstg (o : VGlob) : Statement (.vstg o) := of_V rfl rfl rfl rfl rfl fun _ => by
  change parsed ((VxFields.glob _).map .vstg) = _; rw [glob_vx]; rfl

theorem vrsum (o : VRed) : Statement (.vrsum o) := of_V rfl rfl rfl rfl rfl fun _ => by
  change parsed ((VxFields.red _).map .vrsum) = _; rw [red_vx]; rfl

theorem vrmax (o : VUn) : Statement (.vrmax o) := of_V rfl rfl rfl rfl rfl fun _ => by
  change parsed ((VxFields.un _).map .vrmax) = _; rw [un_vx]; rfl

theorem vrmin (o : VUn) : Statement (.vrmin o) := of_V rfl rfl rfl rfl rfl fun _ => by
  change parsed ((VxFields.un _).map .vrmin) = _; rw [un_vx]; rfl

theorem vrmrs (o : VRmrsOp) : Statement (.vrmrs o) := of_V rfl rfl rfl rfl rfl fun _ => by
  change parsed ((VxFields.rmrs _).map .vrmrs) = _; rw [rmrs_vx]; rfl

theorem vcpush (o : VPushOp) : Statement (.vcpush o) := of_V rfl rfl rfl rfl rfl fun _ => by
  change parsed ((VxFields.push _).map .vcpush) = _; rw [push_vx]; rfl

theorem vcpop (o : VPopOp) : Statement (.vcpop o) := of_V rfl rfl rfl rfl rfl fun _ => by
  change parsed ((VxFields.popOp _).map .vcpop) = _; rw [popOp_vx]; rfl

theorem pand (o : PBin) : Statement (.pand o) := of_V rfl rfl rfl rfl rfl fun _ => by
  change Syllable.op (.pand (VxFields.pbin _)) = _; rw [pbin_vx]

theorem por (o : PBin) : Statement (.por o) := of_V rfl rfl rfl rfl rfl fun _ => by
  change Syllable.op (.por (VxFields.pbin _)) = _; rw [pbin_vx]

theorem pxor (o : PBin) : Statement (.pxor o) := of_V rfl rfl rfl rfl rfl fun _ => by
  change Syllable.op (.pxor (VxFields.pbin _)) = _; rw [pbin_vx]

theorem pandn (o : PBin) : Statement (.pandn o) := of_V rfl rfl rfl rfl rfl fun _ => by
  change Syllable.op (.pandn (VxFields.pbin _)) = _; rw [pbin_vx]

theorem pnot (o : PUn) : Statement (.pnot o) := of_V rfl rfl rfl rfl rfl fun _ => by
  change Syllable.op (.pnot (VxFields.pun _)) = _; rw [pun_vx]

theorem pmov (o : PUn) : Statement (.pmov o) := of_V rfl rfl rfl rfl rfl fun _ => by
  change Syllable.op (.pmov (VxFields.pun _)) = _; rw [pun_vx]

theorem pcnt (o : VUn) : Statement (.pcnt o) := of_V rfl rfl rfl rfl rfl fun _ => by
  change parsed ((VxFields.un _).map .pcnt) = _; rw [un_vx]; rfl

theorem pfirst (o : PElt) : Statement (.pfirst o) := of_V rfl rfl rfl rfl rfl fun _ => by
  change parsed ((VxFields.pelt _).map .pfirst) = _; rw [pelt_vx]; rfl

theorem psetn (o : PElt) : Statement (.psetn o) := of_V rfl rfl rfl rfl rfl fun _ => by
  change parsed ((VxFields.pelt _).map .psetn) = _; rw [pelt_vx]; rfl

theorem ppack (d : Fin 32) (nw : Bool) (p : Fin 9) : Statement (.ppack d nw p) := of_V rfl rfl rfl rfl rfl fun _ => by
  change parsed ((toFin? 9 (VxFields.a _)).map (Instr.ppack (VxFields.dReg _) (VxFields.nw _))) = _
  simp (disch := decide) only [parsed, VxFields.ty?, VxFields.dReg, VxFields.imm, toFin_low9, toFin_fin9, toFin_cb8, vx, find_ty, find_rm, find_cmp, Option.map_some, Option.bind_eq_bind, Option.bind_some, toFin_fin4, toFin_fin8, toFin_fin16, toFin_fin32, toFin_fin64, toFin_fin3, toFin_low16, toFin_low8, decodeSrc_encodeSrc, field_high, field_low, field_all, bit_high, bit_low, bit_bit, Nat.reduceSub, imm_join]

theorem punpk (p : Fin 9) (a : Src) : Statement (.punpk p a) := of_V rfl rfl rfl rfl rfl fun _ => by
  change parsed ((toFin? 9 (VxFields.pd _)).map (fun p => Instr.punpk p (decodeSrc (VxFields.a _)))) = _
  simp (disch := decide) only [parsed, VxFields.ty?, VxFields.dReg, VxFields.imm, toFin_low9, toFin_fin9, toFin_cb8, vx, find_ty, find_rm, find_cmp, Option.map_some, Option.bind_eq_bind, Option.bind_some, toFin_fin4, toFin_fin8, toFin_fin16, toFin_fin32, toFin_fin64, toFin_fin3, toFin_low16, toFin_low8, decodeSrc_encodeSrc, field_high, field_low, field_all, bit_high, bit_low, bit_bit, Nat.reduceSub, imm_join]

theorem exp2 (o : VUn) : Statement (.exp2 o) := of_X rfl rfl rfl rfl rfl fun _ => by
  change parsed ((VxFields.un _).map .exp2) = _; rw [un_vx]; rfl

theorem log2 (o : VUn) : Statement (.log2 o) := of_X rfl rfl rfl rfl rfl fun _ => by
  change parsed ((VxFields.un _).map .log2) = _; rw [un_vx]; rfl

theorem rcp (o : VUn) : Statement (.rcp o) := of_X rfl rfl rfl rfl rfl fun _ => by
  change parsed ((VxFields.un _).map .rcp) = _; rw [un_vx]; rfl

theorem rsqrt (o : VUn) : Statement (.rsqrt o) := of_X rfl rfl rfl rfl rfl fun _ => by
  change parsed ((VxFields.un _).map .rsqrt) = _; rw [un_vx]; rfl

theorem sqrt (o : XSqrt) : Statement (.sqrt o) := of_X rfl rfl rfl rfl rfl fun _ => by
  change parsed ((VxFields.xsqrt _).map .sqrt) = _; rw [xsqrt_vx]; rfl

theorem div (o : XDiv) : Statement (.div o) := of_X rfl rfl rfl rfl rfl fun _ => by
  change parsed ((VxFields.xdiv _).map .div) = _; rw [xdiv_vx]; rfl

theorem tanh (o : VUn) : Statement (.tanh o) := of_X rfl rfl rfl rfl rfl fun _ => by
  change parsed ((VxFields.un _).map .tanh) = _; rw [un_vx]; rfl

theorem sigm (o : VUn) : Statement (.sigm o) := of_X rfl rfl rfl rfl rfl fun _ => by
  change parsed ((VxFields.un _).map .sigm) = _; rw [un_vx]; rfl

theorem divs (o : XIDiv) : Statement (.divs o) := of_X rfl rfl rfl rfl rfl fun _ => by
  change parsed ((VxFields.xidiv _).map .divs) = _; rw [xidiv_vx]; rfl

theorem rems (o : XIDiv) : Statement (.rems o) := of_X rfl rfl rfl rfl rfl fun _ => by
  change parsed ((VxFields.xidiv _).map .rems) = _; rw [xidiv_vx]; rfl

theorem divn (o : XIDiv) : Statement (.divn o) := of_X rfl rfl rfl rfl rfl fun _ => by
  change parsed ((VxFields.xidiv _).map .divn) = _; rw [xidiv_vx]; rfl

theorem remn (o : XIDiv) : Statement (.remn o) := of_X rfl rfl rfl rfl rfl fun _ => by
  change parsed ((VxFields.xidiv _).map .remn) = _; rw [xidiv_vx]; rfl

theorem maxexp (o : XMaxexp) : Statement (.maxexp o) := of_X rfl rfl rfl rfl rfl fun _ => by
  change parsed ((VxFields.maxexpOp _).map .maxexp) = _; rw [maxexpOp_vx]; rfl

theorem cvtq (o : VRed) : Statement (.cvtq o) := of_X rfl rfl rfl rfl rfl fun _ => by
  change parsed ((VxFields.red _).map .cvtq) = _; rw [red_vx]; rfl

theorem cvt (o : XCvt) : Statement (.cvt o) := of_X rfl rfl rfl rfl rfl fun hw => by
  change parsed ((VxFields.cvtHi _).map .cvt) = _; rw [cvt_vx hw]; rfl

theorem cvtw (o : XCvt) : Statement (.cvtw o) := of_X rfl rfl rfl rfl rfl fun _ => by
  change parsed ((VxFields.cvtPart _).map .cvtw) = _; rw [cvtPart_vx]; rfl

theorem cvtn (o : XCvt) : Statement (.cvtn o) := of_X rfl rfl rfl rfl rfl fun _ => by
  change parsed ((VxFields.cvtPart _).map .cvtn) = _; rw [cvtPart_vx]; rfl

theorem cbld (k : Fin 8) (a : Src) : Statement (.cbld k a) := of_X rfl rfl rfl rfl rfl fun _ => by
  change parsed ((toFin? 8 (VxFields.d _)).map (fun k => Instr.cbld k (decodeSrc (VxFields.a _)))) = _
  simp (disch := decide) only [parsed, VxFields.ty?, VxFields.dReg, VxFields.imm, toFin_low9, toFin_fin9, toFin_cb8, vx, find_ty, find_rm, find_cmp, Option.map_some, Option.bind_eq_bind, Option.bind_some, toFin_fin4, toFin_fin8, toFin_fin16, toFin_fin32, toFin_fin64, toFin_fin3, toFin_low16, toFin_low8, decodeSrc_encodeSrc, field_high, field_low, field_all, bit_high, bit_low, bit_bit, Nat.reduceSub, imm_join]

theorem cbdec (o : XCbdec) : Statement (.cbdec o) := of_X rfl rfl rfl rfl rfl fun _ => by
  change parsed ((VxFields.cbdecOp _).map .cbdec) = _; rw [cbdecOp_vx]; rfl

theorem shuf (o : XShuf) : Statement (.shuf o) := of_X rfl rfl rfl rfl rfl fun _ => by
  change parsed ((VxFields.shufOp _).map .shuf) = _; rw [shufOp_vx]; rfl

theorem patld (e : Fin 64) (a : Src) (b : Src) : Statement (.patld e a b) := of_X rfl rfl rfl rfl rfl fun _ => by
  change Syllable.op (.patld (VxFields.c _).toFin (decodeSrc (VxFields.a _)) (decodeSrc (VxFields.b _))) = _
  simp (disch := decide) only [parsed, VxFields.ty?, VxFields.dReg, VxFields.imm, toFin_low9, toFin_fin9, toFin_cb8, vx, find_ty, find_rm, find_cmp, Option.map_some, Option.bind_eq_bind, Option.bind_some, toFin_fin4, toFin_fin8, toFin_fin16, toFin_fin32, toFin_fin64, toFin_fin3, toFin_low16, toFin_low8, decodeSrc_encodeSrc, field_high, field_low, field_all, bit_high, bit_low, bit_bit, Nat.reduceSub, imm_join]

theorem patsw : Statement .patsw := of_X rfl rfl rfl rfl rfl fun _ => rfl

theorem vidx (o : VTwo) : Statement (.vidx o) := of_X rfl rfl rfl rfl rfl fun _ => by
  change parsed ((VxFields.two _).map .vidx) = _; rw [two_vx]; rfl

theorem tcfg (t : TileWord) : Statement (.tcfg t) := of_M rfl rfl rfl rfl rfl fun _ => by
  unfold parseM; rw [op_tcfg]
  change parsed ((decodeTile (BitVec.extractLsb' 26 30 _)).map .tcfg) = _
  simp (disch := decide) only [parsed, mA_M, mB_M, mAcc, lo_M, loBit_M, queue_M, off_M, pop_M, field_high, field_low, field_all, bit_high, bit_low, bit_bit, Nat.reduceSub, Option.map_some, Option.bind_eq_bind, Option.bind_some, decodeDesc_encodeDesc, decodeTile_encodeTile, find_accTy, find_rm, decodeSrc_encodeSrc, toFin_fin3, toFin_fin4, toFin_fin8, toFin_fin16, toFin_fin32, toFin_fin128]

theorem mma (o : MmaOp) : Statement (.mma o) := of_M rfl rfl rfl rfl rfl fun _ => by
  unfold parseM; rw [op_M]
  change parsed ((mA _).bind fun a => (mB _).bind fun b => some (.mma ⟨a, b, mAcc _, BitVec.getLsbD _ 25, (BitVec.extractLsb' 22 3 _).toFin, (BitVec.extractLsb' 19 3 _).toFin⟩)) = _
  simp (disch := decide) only [parsed, mA_M, mB_M, mAcc, lo_M, loBit_M, queue_M, off_M, pop_M, field_high, field_low, field_all, bit_high, bit_low, bit_bit, Nat.reduceSub, Option.map_some, Option.bind_eq_bind, Option.bind_some, decodeDesc_encodeDesc, decodeTile_encodeTile, find_accTy, find_rm, decodeSrc_encodeSrc, toFin_fin3, toFin_fin4, toFin_fin8, toFin_fin16, toFin_fin32, toFin_fin128]

theorem pmma (o : PmmaOp) : Statement (.pmma o) := of_M rfl rfl rfl rfl rfl fun _ => by
  unfold parseM; rw [op_M]
  change parsed ((mA _).bind fun a => (mB _).bind fun b => some (.pmma ⟨a, b, mAcc _, BitVec.getLsbD _ 25, (BitVec.extractLsb' 22 3 _).toFin, (BitVec.extractLsb' 19 3 _).toFin, BitVec.getLsbD _ 18⟩)) = _
  simp (disch := decide) only [parsed, mA_M, mB_M, mAcc, lo_M, loBit_M, queue_M, off_M, pop_M, field_high, field_low, field_all, bit_high, bit_low, bit_bit, Nat.reduceSub, Option.map_some, Option.bind_eq_bind, Option.bind_some, decodeDesc_encodeDesc, decodeTile_encodeTile, find_accTy, find_rm, decodeSrc_encodeSrc, toFin_fin3, toFin_fin4, toFin_fin8, toFin_fin16, toFin_fin32, toFin_fin128]

theorem accz (m : BitVec 4) : Statement (.accz m) := of_M rfl rfl rfl rfl rfl fun _ => by
  unfold parseM; rw [op_M]
  change Syllable.op (.accz (BitVec.extractLsb' 24 4 _)) = _
  simp (disch := decide) only [parsed, mA_M, mB_M, mAcc, lo_M, loBit_M, queue_M, off_M, pop_M, field_high, field_low, field_all, bit_high, bit_low, bit_bit, Nat.reduceSub, Option.map_some, Option.bind_eq_bind, Option.bind_some, decodeDesc_encodeDesc, decodeTile_encodeTile, find_accTy, find_rm, decodeSrc_encodeSrc, toFin_fin3, toFin_fin4, toFin_fin8, toFin_fin16, toFin_fin32, toFin_fin128]

theorem accrd (o : AccrdOp) : Statement (.accrd o) := of_M rfl rfl rfl rfl rfl fun _ => by
  unfold parseM; rw [op_M]
  change parsed ((findCode encodeAccTy allAccTy (BitVec.extractLsb' 22 4 _)).bind fun ty => (findCode encodeRm allRm (BitVec.extractLsb' 19 3 _)).bind fun rm => some (.accrd ⟨(BitVec.extractLsb' 48 4 _).toFin, mAcc _, ty, rm, BitVec.getLsbD _ 18⟩)) = _
  simp (disch := decide) only [parsed, mA_M, mB_M, mAcc, lo_M, loBit_M, queue_M, off_M, pop_M, field_high, field_low, field_all, bit_high, bit_low, bit_bit, Nat.reduceSub, Option.map_some, Option.bind_eq_bind, Option.bind_some, decodeDesc_encodeDesc, decodeTile_encodeTile, find_accTy, find_rm, decodeSrc_encodeSrc, toFin_fin3, toFin_fin4, toFin_fin8, toFin_fin16, toFin_fin32, toFin_fin128]

theorem accrv (o : AccrvOp) : Statement (.accrv o) := of_M rfl rfl rfl rfl rfl fun _ => by
  unfold parseM; rw [op_M]
  change parsed ((toFin? 3 (BitVec.extractLsb' 12 2 _)).map fun g => .accrv ⟨mAcc _, (BitVec.extractLsb' 21 5 _).toFin, (BitVec.extractLsb' 14 7 _).toFin, g⟩) = _
  simp (disch := decide) only [parsed, mA_M, mB_M, mAcc, lo_M, loBit_M, queue_M, off_M, pop_M, field_high, field_low, field_all, bit_high, bit_low, bit_bit, Nat.reduceSub, Option.map_some, Option.bind_eq_bind, Option.bind_some, decodeDesc_encodeDesc, decodeTile_encodeTile, find_accTy, find_rm, decodeSrc_encodeSrc, toFin_fin3, toFin_fin4, toFin_fin8, toFin_fin16, toFin_fin32, toFin_fin128]

theorem accwr (o : AccwrOp) : Statement (.accwr o) := of_M rfl rfl rfl rfl rfl fun _ => by
  unfold parseM; rw [op_M]
  change Syllable.op (.accwr ⟨(BitVec.extractLsb' 48 4 _).toFin, (BitVec.extractLsb' 46 2 _).toFin, BitVec.getLsbD _ 45, mAcc _⟩) = _
  simp (disch := decide) only [parsed, mA_M, mB_M, mAcc, lo_M, loBit_M, queue_M, off_M, pop_M, field_high, field_low, field_all, bit_high, bit_low, bit_bit, Nat.reduceSub, Option.map_some, Option.bind_eq_bind, Option.bind_some, decodeDesc_encodeDesc, decodeTile_encodeTile, find_accTy, find_rm, decodeSrc_encodeSrc, toFin_fin3, toFin_fin4, toFin_fin8, toFin_fin16, toFin_fin32, toFin_fin128]

theorem accsave (o : AccsaveOp) : Statement (.accsave o) := of_M rfl rfl rfl rfl rfl fun _ => by
  unfold parseM; rw [op_M]
  change Syllable.op (.accsave ⟨mAcc _, decodeSrc (BitVec.extractLsb' 20 6 _), BitVec.extractLsb' 8 12 _⟩) = _
  simp (disch := decide) only [parsed, mA_M, mB_M, mAcc, lo_M, loBit_M, queue_M, off_M, pop_M, field_high, field_low, field_all, bit_high, bit_low, bit_bit, Nat.reduceSub, Option.map_some, Option.bind_eq_bind, Option.bind_some, decodeDesc_encodeDesc, decodeTile_encodeTile, find_accTy, find_rm, decodeSrc_encodeSrc, toFin_fin3, toFin_fin4, toFin_fin8, toFin_fin16, toFin_fin32, toFin_fin128]

theorem accrest (o : AccrestOp) : Statement (.accrest o) := of_M rfl rfl rfl rfl rfl fun _ => by
  unfold parseM; rw [op_M]
  change Syllable.op (.accrest ⟨mAcc _, decodeSrc (BitVec.extractLsb' 20 6 _), BitVec.extractLsb' 8 12 _, BitVec.getLsbD _ 7, BitVec.getLsbD _ 6⟩) = _
  simp (disch := decide) only [parsed, mA_M, mB_M, mAcc, lo_M, loBit_M, queue_M, off_M, pop_M, field_high, field_low, field_all, bit_high, bit_low, bit_bit, Nat.reduceSub, Option.map_some, Option.bind_eq_bind, Option.bind_some, decodeDesc_encodeDesc, decodeTile_encodeTile, find_accTy, find_rm, decodeSrc_encodeSrc, toFin_fin3, toFin_fin4, toFin_fin8, toFin_fin16, toFin_fin32, toFin_fin128]

theorem lease : Statement .lease := of_M rfl rfl rfl rfl rfl fun _ => by
  unfold parseM; rw [op_M]; rfl

theorem unlease : Statement .unlease := of_M rfl rfl rfl rfl rfl fun _ => by
  unfold parseM; rw [op_M]; rfl

theorem qcfg (o : QcfgOp) : Statement (.qcfg o) := of_Q rfl rfl rfl rfl rfl fun _ => by
  unfold parseQ; rw [op_qcfg]
  change Syllable.op (.qcfg ⟨qQ _, qA _, BitVec.getLsbD _ 30, BitVec.extractLsb' 26 4 _, BitVec.extractLsb' 18 8 _, BitVec.extractLsb' 0 14 _⟩) = _
  simp (disch := decide) only [qQ, qA, qC, qD, qImm8, qImm13, qMem, qField, qCell, qStr, qTag15, loQueue, loCopy, loStream, loDda, field_high, field_low, field_all, bit_high, bit_low, bit_bit, Nat.reduceSub, decodeSrc_encodeSrc, decodeCellField_encode, toFin_fin4, toFin_fin8, toFin_fin16, toFin_fin32]

theorem qpop (q : Fin 16) (n : BitVec 8) : Statement (.qpop q n) := of_Q rfl rfl rfl rfl rfl fun _ => by
  unfold parseQ; rw [op_Q]
  change Syllable.op (.qpop (qQ _) (qImm8 _)) = _
  simp (disch := decide) only [qQ_Q, qA_Q, qB_Q, lo_Q, loBit_Q, qC, qD, qImm8, qImm13, qMem, qField, qCell, qStr, qTag15, loQueue, loCopy, loStream, loDda, field_high, field_low, field_all, bit_high, bit_low, bit_bit, Nat.reduceSub, decodeSrc_encodeSrc, decodeCellField_encode, toFin_fin4, toFin_fin8, toFin_fin16, toFin_fin32]

theorem qrd (o : QrdOp) : Statement (.qrd o) := of_Q rfl rfl rfl rfl rfl fun _ => by
  unfold parseQ; rw [op_Q]
  change Syllable.op (.qrd ⟨qQ _, qD _, (BitVec.extractLsb' 30 4 _).toFin, BitVec.getLsbD _ 29, qA _, qImm8 _⟩) = _
  simp (disch := decide) only [qQ_Q, qA_Q, qB_Q, lo_Q, loBit_Q, qC, qD, qImm8, qImm13, qMem, qField, qCell, qStr, qTag15, loQueue, loCopy, loStream, loDda, field_high, field_low, field_all, bit_high, bit_low, bit_bit, Nat.reduceSub, decodeSrc_encodeSrc, decodeCellField_encode, toFin_fin4, toFin_fin8, toFin_fin16, toFin_fin32]

theorem qwr (o : QwrOp) : Statement (.qwr o) := of_Q rfl rfl rfl rfl rfl fun _ => by
  unfold parseQ; rw [op_Q]
  change Syllable.op (.qwr ⟨qQ _, qA _, qB _, BitVec.getLsbD _ 28, BitVec.getLsbD _ 27, BitVec.extractLsb' 21 6 _, qImm8 _⟩) = _
  simp (disch := decide) only [qQ_Q, qA_Q, qB_Q, lo_Q, loBit_Q, qC, qD, qImm8, qImm13, qMem, qField, qCell, qStr, qTag15, loQueue, loCopy, loStream, loDda, field_high, field_low, field_all, bit_high, bit_low, bit_bit, Nat.reduceSub, decodeSrc_encodeSrc, decodeCellField_encode, toFin_fin4, toFin_fin8, toFin_fin16, toFin_fin32]

theorem qspl (q : Fin 16) (a : Src) : Statement (.qspl q a) := of_Q rfl rfl rfl rfl rfl fun _ => by
  unfold parseQ; rw [op_Q]
  change Syllable.op (.qspl (qQ _) (qA _)) = _
  simp (disch := decide) only [qQ_Q, qA_Q, qB_Q, lo_Q, loBit_Q, qC, qD, qImm8, qImm13, qMem, qField, qCell, qStr, qTag15, loQueue, loCopy, loStream, loDda, field_high, field_low, field_all, bit_high, bit_low, bit_bit, Nat.reduceSub, decodeSrc_encodeSrc, decodeCellField_encode, toFin_fin4, toFin_fin8, toFin_fin16, toFin_fin32]

theorem quns (q : Fin 16) : Statement (.quns q) := of_Q rfl rfl rfl rfl rfl fun _ => by
  unfold parseQ; rw [op_Q]
  change Syllable.op (.quns (qQ _)) = _
  simp (disch := decide) only [qQ_Q, qA_Q, qB_Q, lo_Q, loBit_Q, qC, qD, qImm8, qImm13, qMem, qField, qCell, qStr, qTag15, loQueue, loCopy, loStream, loDda, field_high, field_low, field_all, bit_high, bit_low, bit_bit, Nat.reduceSub, decodeSrc_encodeSrc, decodeCellField_encode, toFin_fin4, toFin_fin8, toFin_fin16, toFin_fin32]

theorem qsave (o : QMemOp) : Statement (.qsave o) := of_Q rfl rfl rfl rfl rfl fun _ => by
  unfold parseQ; rw [op_Q]
  change Syllable.op (.qsave (qMem _)) = _
  simp (disch := decide) only [qQ_Q, qA_Q, qB_Q, lo_Q, loBit_Q, qC, qD, qImm8, qImm13, qMem, qField, qCell, qStr, qTag15, loQueue, loCopy, loStream, loDda, field_high, field_low, field_all, bit_high, bit_low, bit_bit, Nat.reduceSub, decodeSrc_encodeSrc, decodeCellField_encode, toFin_fin4, toFin_fin8, toFin_fin16, toFin_fin32]

theorem qrest (o : QMemOp) : Statement (.qrest o) := of_Q rfl rfl rfl rfl rfl fun _ => by
  unfold parseQ; rw [op_Q]
  change Syllable.op (.qrest (qMem _)) = _
  simp (disch := decide) only [qQ_Q, qA_Q, qB_Q, lo_Q, loBit_Q, qC, qD, qImm8, qImm13, qMem, qField, qCell, qStr, qTag15, loQueue, loCopy, loStream, loDda, field_high, field_low, field_all, bit_high, bit_low, bit_bit, Nat.reduceSub, decodeSrc_encodeSrc, decodeCellField_encode, toFin_fin4, toFin_fin8, toFin_fin16, toFin_fin32]

theorem qstat (o : QMemOp) : Statement (.qstat o) := of_Q rfl rfl rfl rfl rfl fun _ => by
  unfold parseQ; rw [op_Q]
  change Syllable.op (.qstat (qMem _)) = _
  simp (disch := decide) only [qQ_Q, qA_Q, qB_Q, lo_Q, loBit_Q, qC, qD, qImm8, qImm13, qMem, qField, qCell, qStr, qTag15, loQueue, loCopy, loStream, loDda, field_high, field_low, field_all, bit_high, bit_low, bit_bit, Nat.reduceSub, decodeSrc_encodeSrc, decodeCellField_encode, toFin_fin4, toFin_fin8, toFin_fin16, toFin_fin32]

theorem cpld (o : CpldOp) : Statement (.cpld o) := of_Q rfl rfl rfl rfl rfl fun _ => by
  unfold parseQ; rw [op_Q]
  change Syllable.op (.cpld ⟨qQ _, qA _, qB _⟩) = _
  simp (disch := decide) only [qQ_Q, qA_Q, qB_Q, lo_Q, loBit_Q, qC, qD, qImm8, qImm13, qMem, qField, qCell, qStr, qTag15, loQueue, loCopy, loStream, loDda, field_high, field_low, field_all, bit_high, bit_low, bit_bit, Nat.reduceSub, decodeSrc_encodeSrc, decodeCellField_encode, toFin_fin4, toFin_fin8, toFin_fin16, toFin_fin32]

theorem cpst (o : CpstOp) : Statement (.cpst o) := of_Q rfl rfl rfl rfl rfl fun _ => by
  unfold parseQ; rw [op_Q]
  change Syllable.op (.cpst ⟨qQ _, qA _, qB _, (BitVec.extractLsb' 24 4 _).toFin, BitVec.getLsbD _ 23⟩) = _
  simp (disch := decide) only [qQ_Q, qA_Q, qB_Q, lo_Q, loBit_Q, qC, qD, qImm8, qImm13, qMem, qField, qCell, qStr, qTag15, loQueue, loCopy, loStream, loDda, field_high, field_low, field_all, bit_high, bit_low, bit_bit, Nat.reduceSub, decodeSrc_encodeSrc, decodeCellField_encode, toFin_fin4, toFin_fin8, toFin_fin16, toFin_fin32]

theorem cpll (o : CpllOp) : Statement (.cpll o) := of_Q rfl rfl rfl rfl rfl fun _ => by
  unfold parseQ; rw [op_Q]
  change Syllable.op (.cpll ⟨qQ _, qA _, qB _, qTag15 _⟩) = _
  simp (disch := decide) only [qQ_Q, qA_Q, qB_Q, lo_Q, loBit_Q, qC, qD, qImm8, qImm13, qMem, qField, qCell, qStr, qTag15, loQueue, loCopy, loStream, loDda, field_high, field_low, field_all, bit_high, bit_low, bit_bit, Nat.reduceSub, decodeSrc_encodeSrc, decodeCellField_encode, toFin_fin4, toFin_fin8, toFin_fin16, toFin_fin32]

theorem cpga (o : CpgaOp) : Statement (.cpga o) := of_Q rfl rfl rfl rfl rfl fun _ => by
  unfold parseQ; rw [op_Q]
  change Syllable.op (.cpga ⟨qQ _, qA _, qB _, qC _⟩) = _
  simp (disch := decide) only [qQ_Q, qA_Q, qB_Q, lo_Q, loBit_Q, qC, qD, qImm8, qImm13, qMem, qField, qCell, qStr, qTag15, loQueue, loCopy, loStream, loDda, field_high, field_low, field_all, bit_high, bit_low, bit_bit, Nat.reduceSub, decodeSrc_encodeSrc, decodeCellField_encode, toFin_fin4, toFin_fin8, toFin_fin16, toFin_fin32]

theorem cpmem (o : CpmemOp) : Statement (.cpmem o) := of_Q rfl rfl rfl rfl rfl fun _ => by
  unfold parseQ; rw [op_Q]
  change Syllable.op (.cpmem ⟨qA _, qB _, qC _, BitVec.getLsbD _ 22, BitVec.getLsbD _ 21⟩) = _
  simp (disch := decide) only [qQ_Q, qA_Q, qB_Q, lo_Q, loBit_Q, qC, qD, qImm8, qImm13, qMem, qField, qCell, qStr, qTag15, loQueue, loCopy, loStream, loDda, field_high, field_low, field_all, bit_high, bit_low, bit_bit, Nat.reduceSub, decodeSrc_encodeSrc, decodeCellField_encode, toFin_fin4, toFin_fin8, toFin_fin16, toFin_fin32]

theorem tlook (d : Fin 32) (a : Src) : Statement (.tlook d a) := of_Q rfl rfl rfl rfl rfl fun _ => by
  unfold parseQ; rw [op_Q]
  change Syllable.op (.tlook (qD _) (qA _)) = _
  simp (disch := decide) only [qQ_Q, qA_Q, qB_Q, lo_Q, loBit_Q, qC, qD, qImm8, qImm13, qMem, qField, qCell, qStr, qTag15, loQueue, loCopy, loStream, loDda, field_high, field_low, field_all, bit_high, bit_low, bit_bit, Nat.reduceSub, decodeSrc_encodeSrc, decodeCellField_encode, toFin_fin4, toFin_fin8, toFin_fin16, toFin_fin32]

theorem tins (a : Src) (b : Src) : Statement (.tins a b) := of_Q rfl rfl rfl rfl rfl fun _ => by
  unfold parseQ; rw [op_Q]
  change Syllable.op (.tins (qA _) (qB _)) = _
  simp (disch := decide) only [qQ_Q, qA_Q, qB_Q, lo_Q, loBit_Q, qC, qD, qImm8, qImm13, qMem, qField, qCell, qStr, qTag15, loQueue, loCopy, loStream, loDda, field_high, field_low, field_all, bit_high, bit_low, bit_bit, Nat.reduceSub, decodeSrc_encodeSrc, decodeCellField_encode, toFin_fin4, toFin_fin8, toFin_fin16, toFin_fin32]

theorem tinv (a : Src) (i : Bool) : Statement (.tinv a i) := of_Q rfl rfl rfl rfl rfl fun _ => by
  unfold parseQ; rw [op_Q]
  change Syllable.op (.tinv (qA _) (BitVec.getLsbD _ 33)) = _
  simp (disch := decide) only [qQ_Q, qA_Q, qB_Q, lo_Q, loBit_Q, qC, qD, qImm8, qImm13, qMem, qField, qCell, qStr, qTag15, loQueue, loCopy, loStream, loDda, field_high, field_low, field_all, bit_high, bit_low, bit_bit, Nat.reduceSub, decodeSrc_encodeSrc, decodeCellField_encode, toFin_fin4, toFin_fin8, toFin_fin16, toFin_fin32]

theorem sdrv (dir : Bool) (n : Fin 8) (b : Src) : Statement (.sdrv dir n b) := of_Q rfl rfl rfl rfl rfl fun _ => by
  unfold parseQ; rw [op_Q]
  change Syllable.op (.sdrv (BitVec.getLsbD _ 33) (qStr _) (qB _)) = _
  simp (disch := decide) only [qQ_Q, qA_Q, qB_Q, lo_Q, loBit_Q, qC, qD, qImm8, qImm13, qMem, qField, qCell, qStr, qTag15, loQueue, loCopy, loStream, loDda, field_high, field_low, field_all, bit_high, bit_low, bit_bit, Nat.reduceSub, decodeSrc_encodeSrc, decodeCellField_encode, toFin_fin4, toFin_fin8, toFin_fin16, toFin_fin32]

theorem stap (dir : Bool) (n : Fin 8) (d : Fin 32) : Statement (.stap dir n d) := of_Q rfl rfl rfl rfl rfl fun _ => by
  unfold parseQ; rw [op_Q]
  change Syllable.op (.stap (BitVec.getLsbD _ 33) (qStr _) (qD _)) = _
  simp (disch := decide) only [qQ_Q, qA_Q, qB_Q, lo_Q, loBit_Q, qC, qD, qImm8, qImm13, qMem, qField, qCell, qStr, qTag15, loQueue, loCopy, loStream, loDda, field_high, field_low, field_all, bit_high, bit_low, bit_bit, Nat.reduceSub, decodeSrc_encodeSrc, decodeCellField_encode, toFin_fin4, toFin_fin8, toFin_fin16, toFin_fin32]

theorem stapq (dir : Bool) (n : Fin 8) (q : Fin 16) (tag : BitVec 6) : Statement (.stapq dir n q tag) := of_Q rfl rfl rfl rfl rfl fun _ => by
  unfold parseQ; rw [op_Q]
  change Syllable.op (.stapq (BitVec.getLsbD _ 33) (qStr _) (qQ _) (qTag15 _)) = _
  simp (disch := decide) only [qQ_Q, qA_Q, qB_Q, lo_Q, loBit_Q, qC, qD, qImm8, qImm13, qMem, qField, qCell, qStr, qTag15, loQueue, loCopy, loStream, loDda, field_high, field_low, field_all, bit_high, bit_low, bit_bit, Nat.reduceSub, decodeSrc_encodeSrc, decodeCellField_encode, toFin_fin4, toFin_fin8, toFin_fin16, toFin_fin32]

theorem dpatch (o : DpatchOp) : Statement (.dpatch o) := of_Q rfl rfl rfl rfl rfl fun _ => by
  unfold parseQ; rw [op_Q]
  change Syllable.op (.dpatch ⟨qA _, BitVec.extractLsb' 13 11 _, qImm13 _⟩) = _
  simp (disch := decide) only [qQ_Q, qA_Q, qB_Q, lo_Q, loBit_Q, qC, qD, qImm8, qImm13, qMem, qField, qCell, qStr, qTag15, loQueue, loCopy, loStream, loDda, field_high, field_low, field_all, bit_high, bit_low, bit_bit, Nat.reduceSub, decodeSrc_encodeSrc, decodeCellField_encode, toFin_fin4, toFin_fin8, toFin_fin16, toFin_fin32]

theorem dclk (m : BitVec 4) (a : Src) : Statement (.dclk m a) := of_Q rfl rfl rfl rfl rfl fun _ => by
  unfold parseQ; rw [op_Q]
  change Syllable.op (.dclk (BitVec.extractLsb' 36 4 _) (qA _)) = _
  simp (disch := decide) only [qQ_Q, qA_Q, qB_Q, lo_Q, loBit_Q, qC, qD, qImm8, qImm13, qMem, qField, qCell, qStr, qTag15, loQueue, loCopy, loStream, loDda, field_high, field_low, field_all, bit_high, bit_low, bit_bit, Nat.reduceSub, decodeSrc_encodeSrc, decodeCellField_encode, toFin_fin4, toFin_fin8, toFin_fin16, toFin_fin32]

theorem dset (o : DsetOp) : Statement (.dset o) := of_Q rfl rfl rfl rfl rfl fun _ => by
  unfold parseQ; rw [op_Q]
  change Syllable.op (.dset ⟨qField _, qA _, qCell _, qB _⟩) = _
  simp (disch := decide) only [qQ_Q, qA_Q, qB_Q, lo_Q, loBit_Q, qC, qD, qImm8, qImm13, qMem, qField, qCell, qStr, qTag15, loQueue, loCopy, loStream, loDda, field_high, field_low, field_all, bit_high, bit_low, bit_bit, Nat.reduceSub, decodeSrc_encodeSrc, decodeCellField_encode, toFin_fin4, toFin_fin8, toFin_fin16, toFin_fin32]

theorem dinj (b : Src) : Statement (.dinj b) := of_Q rfl rfl rfl rfl rfl fun _ => by
  unfold parseQ; rw [op_Q]
  change Syllable.op (.dinj (qB _)) = _
  simp (disch := decide) only [qQ_Q, qA_Q, qB_Q, lo_Q, loBit_Q, qC, qD, qImm8, qImm13, qMem, qField, qCell, qStr, qTag15, loQueue, loCopy, loStream, loDda, field_high, field_low, field_all, bit_high, bit_low, bit_bit, Nat.reduceSub, decodeSrc_encodeSrc, decodeCellField_encode, toFin_fin4, toFin_fin8, toFin_fin16, toFin_fin32]

theorem dstep (m : BitVec 4) (a : Src) : Statement (.dstep m a) := of_Q rfl rfl rfl rfl rfl fun _ => by
  unfold parseQ; rw [op_Q]
  change Syllable.op (.dstep (BitVec.extractLsb' 36 4 _) (qA _)) = _
  simp (disch := decide) only [qQ_Q, qA_Q, qB_Q, lo_Q, loBit_Q, qC, qD, qImm8, qImm13, qMem, qField, qCell, qStr, qTag15, loQueue, loCopy, loStream, loDda, field_high, field_low, field_all, bit_high, bit_low, bit_bit, Nat.reduceSub, decodeSrc_encodeSrc, decodeCellField_encode, toFin_fin4, toFin_fin8, toFin_fin16, toFin_fin32]

theorem dread (o : DreadOp) : Statement (.dread o) := of_Q rfl rfl rfl rfl rfl fun _ => by
  unfold parseQ; rw [op_Q]
  change Syllable.op (.dread ⟨qField _, qA _, qCell _, qImm13 _⟩) = _
  simp (disch := decide) only [qQ_Q, qA_Q, qB_Q, lo_Q, loBit_Q, qC, qD, qImm8, qImm13, qMem, qField, qCell, qStr, qTag15, loQueue, loCopy, loStream, loDda, field_high, field_low, field_all, bit_high, bit_low, bit_bit, Nat.reduceSub, decodeSrc_encodeSrc, decodeCellField_encode, toFin_fin4, toFin_fin8, toFin_fin16, toFin_fin32]

theorem dcnt (o : DcntOp) : Statement (.dcnt o) := of_Q rfl rfl rfl rfl rfl fun _ => by
  unfold parseQ; rw [op_Q]
  change Syllable.op (.dcnt ⟨qQ _, BitVec.getLsbD _ 33, qCell _, (BitVec.extractLsb' 13 3 _).toFin⟩) = _
  simp (disch := decide) only [qQ_Q, qA_Q, qB_Q, lo_Q, loBit_Q, qC, qD, qImm8, qImm13, qMem, qField, qCell, qStr, qTag15, loQueue, loCopy, loStream, loDda, field_high, field_low, field_all, bit_high, bit_low, bit_bit, Nat.reduceSub, decodeSrc_encodeSrc, decodeCellField_encode, toFin_fin4, toFin_fin8, toFin_fin16, toFin_fin32]
  simp only [Nat.reduceAdd, Nat.reduceSub, field_all, bit_bit]

theorem dsave (a : Src) (imm : BitVec 13) (rel : Bool) : Statement (.dsave a imm rel) := of_Q rfl rfl rfl rfl rfl fun _ => by
  unfold parseQ; rw [op_Q]
  change Syllable.op (.dsave (qA _) (qImm13 _) (BitVec.getLsbD _ 33)) = _
  simp (disch := decide) only [qQ_Q, qA_Q, qB_Q, lo_Q, loBit_Q, qC, qD, qImm8, qImm13, qMem, qField, qCell, qStr, qTag15, loQueue, loCopy, loStream, loDda, field_high, field_low, field_all, bit_high, bit_low, bit_bit, Nat.reduceSub, decodeSrc_encodeSrc, decodeCellField_encode, toFin_fin4, toFin_fin8, toFin_fin16, toFin_fin32]

theorem dload (a : Src) (imm : BitVec 13) : Statement (.dload a imm) := of_Q rfl rfl rfl rfl rfl fun _ => by
  unfold parseQ; rw [op_Q]
  change Syllable.op (.dload (qA _) (qImm13 _)) = _
  simp (disch := decide) only [qQ_Q, qA_Q, qB_Q, lo_Q, loBit_Q, qC, qD, qImm8, qImm13, qMem, qField, qCell, qStr, qTag15, loQueue, loCopy, loStream, loDda, field_high, field_low, field_all, bit_high, bit_low, bit_bit, Nat.reduceSub, decodeSrc_encodeSrc, decodeCellField_encode, toFin_fin4, toFin_fin8, toFin_fin16, toFin_fin32]

theorem coll (a : Src) (b : Src) : Statement (.coll a b) := of_Q rfl rfl rfl rfl rfl fun _ => by
  unfold parseQ; rw [op_Q]
  change Syllable.op (.coll (qA _) (qB _)) = _
  simp (disch := decide) only [qQ_Q, qA_Q, qB_Q, lo_Q, loBit_Q, qC, qD, qImm8, qImm13, qMem, qField, qCell, qStr, qTag15, loQueue, loCopy, loStream, loDda, field_high, field_low, field_all, bit_high, bit_low, bit_bit, Nat.reduceSub, decodeSrc_encodeSrc, decodeCellField_encode, toFin_fin4, toFin_fin8, toFin_fin16, toFin_fin32]

theorem cqry (a : Src) (imm : BitVec 13) (b : Src) : Statement (.cqry a imm b) := of_Q rfl rfl rfl rfl rfl fun _ => by
  unfold parseQ; rw [op_Q]
  change Syllable.op (.cqry (qA _) (qImm13 _) (qB _)) = _
  simp (disch := decide) only [qQ_Q, qA_Q, qB_Q, lo_Q, loBit_Q, qC, qD, qImm8, qImm13, qMem, qField, qCell, qStr, qTag15, loQueue, loCopy, loStream, loDda, field_high, field_low, field_all, bit_high, bit_low, bit_bit, Nat.reduceSub, decodeSrc_encodeSrc, decodeCellField_encode, toFin_fin4, toFin_fin8, toFin_fin16, toFin_fin32]

theorem nop (wt : Fin 8) (dp st : Bool) : Statement (.nop wt dp st) := of_event rfl rfl rfl rfl rfl
theorem fixedLatencyLand (c k : Nat) : Statement (.fixedLatencyLand c k) := of_event rfl rfl rfl rfl rfl
theorem spawnComplete (u n : Nat) : Statement (.spawnComplete u n) := of_event rfl rfl rfl rfl rfl
theorem matCommandStart (c st : Nat) : Statement (.matCommandStart c st) := of_event rfl rfl rfl rfl rfl
theorem matCommandDone (c id : Nat) : Statement (.matCommandDone c id) := of_event rfl rfl rfl rfl rfl
theorem remoteSliceServe (c : Nat) : Statement (.remoteSliceServe c) := of_event rfl rfl rfl rfl rfl
theorem pairPartialArrive (u idx : Nat) (rows cols : Nat) (isInt : Bool) (tile : List (BitVec 32)) : Statement (.pairPartialArrive u idx rows cols isInt tile) := of_event rfl rfl rfl rfl rfl
theorem pairCommitArrive (u idx : Nat) : Statement (.pairCommitArrive u idx) := of_event rfl rfl rfl rfl rfl
theorem pairTimeout (u idx : Nat) : Statement (.pairTimeout u idx) := of_event rfl rfl rfl rfl rfl
theorem spliceRequestArrive (snd : QEnd) (target : Word) (slotsz : BitVec 8) : Statement (.spliceRequestArrive snd target slotsz) := of_event rfl rfl rfl rfl rfl
theorem spliceAnswerArrive (snd : QEnd) (tgt : Option QEnd) (reason : BitVec 3) (log2n : BitVec 4) (tail free : BitVec 16) : Statement (.spliceAnswerArrive snd tgt reason log2n tail free) := of_event rfl rfl rfl rfl rfl
theorem spliceHeaderArrive (tgt : QEnd) (ctr : BitVec 16) : Statement (.spliceHeaderArrive tgt ctr) := of_event rfl rfl rfl rfl rfl
theorem spliceRowArrive (m : SpliceRow) : Statement (.spliceRowArrive m) := of_event rfl rfl rfl rfl rfl
theorem headReportArrive (snd : QEnd) (free : BitVec 16) : Statement (.headReportArrive snd free) := of_event rfl rfl rfl rfl rfl
theorem deliveryAckArrive (u : Nat) : Statement (.deliveryAckArrive u) := of_event rfl rfl rfl rfl rfl
theorem spliceEndMarkerArrive (tgt : QEnd) : Statement (.spliceEndMarkerArrive tgt) := of_event rfl rfl rfl rfl rfl
theorem spliceTargetEnd (snd tgt : QEnd) : Statement (.spliceTargetEnd snd tgt) := of_event rfl rfl rfl rfl rfl
theorem copyCommandStart (c : Nat) : Statement (.copyCommandStart c) := of_event rfl rfl rfl rfl rfl
theorem copyCommandDone (u n : Nat) : Statement (.copyCommandDone u n) := of_event rfl rfl rfl rfl rfl
theorem ddaCommandExecute (c : Nat) : Statement (.ddaCommandExecute c) := of_event rfl rfl rfl rfl rfl
theorem ddaDomainStep (c : Nat) : Statement (.ddaDomainStep c) := of_event rfl rfl rfl rfl rfl
theorem collRecordStart (die : Nat) : Statement (.collRecordStart die) := of_event rfl rfl rfl rfl rfl
theorem collRequestArrive (r : CollReq) : Statement (.collRequestArrive r) := of_event rfl rfl rfl rfl rfl
theorem collBlockArrive (b : CollBlock) : Statement (.collBlockArrive b) := of_event rfl rfl rfl rfl rfl
theorem collDoneArrive (die : Nat) (key : CollKey) (rank : Nat) : Statement (.collDoneArrive die key rank) := of_event rfl rfl rfl rfl rfl
theorem collDeadline (die rid : Nat) : Statement (.collDeadline die rid) := of_event rfl rfl rfl rfl rfl
theorem landingBufferWrite (u id : Nat) : Statement (.landingBufferWrite u id) := of_event rfl rfl rfl rfl rfl
theorem storePerformAtHome (u n : Nat) : Statement (.storePerformAtHome u n) := of_event rfl rfl rfl rfl rfl
theorem lsuAccessStart (u n : Nat) : Statement (.lsuAccessStart u n) := of_event rfl rfl rfl rfl rfl
theorem tlbWalkDone (die id : Nat) : Statement (.tlbWalkDone die id) := of_event rfl rfl rfl rfl rfl
theorem pageRequestResponse (asid page : Nat) (right : Right) (ans : PrAnswer) : Statement (.pageRequestResponse asid page right ans) := of_event rfl rfl rfl rfl rfl
theorem pageRequestTimeout (asid page : Nat) (right : Right) : Statement (.pageRequestTimeout asid page right) := of_event rfl rfl rfl rfl rfl
theorem atsInvalidate (pasid : BitVec 20) (va : Word) (bytes : Word) : Statement (.atsInvalidate pasid va bytes) := of_event rfl rfl rfl rfl rfl
theorem ifetchFill (c k : Nat) : Statement (.ifetchFill c k) := of_event rfl rfl rfl rfl rfl
theorem asyncTrap (c k : Nat) : Statement (.asyncTrap c k) := of_event rfl rfl rfl rfl rfl
theorem domainFreeze (l : Nat) : Statement (.domainFreeze l) := of_event rfl rfl rfl rfl rfl
theorem domainResume (l : Nat) : Statement (.domainResume l) := of_event rfl rfl rfl rfl rfl
theorem sliceExpiry (c k : Nat) : Statement (.sliceExpiry c k) := of_event rfl rfl rfl rfl rfl
theorem yieldOverrun (c k : Nat) : Statement (.yieldOverrun c k) := of_event rfl rfl rfl rfl rfl
theorem drainSave (c k : Nat) : Statement (.drainSave c k) := of_event rfl rfl rfl rfl rfl
theorem forcedSave (c k : Nat) : Statement (.forcedSave c k) := of_event rfl rfl rfl rfl rfl
theorem unitRestore (c k : Nat) : Statement (.unitRestore c k) := of_event rfl rfl rfl rfl rfl
theorem bankRetention (c k : Nat) : Statement (.bankRetention c k) := of_event rfl rfl rfl rfl rfl
theorem bankRouseDone (c k : Nat) : Statement (.bankRouseDone c k) := of_event rfl rfl rfl rfl rfl
theorem bankWake (c k : Nat) : Statement (.bankWake c k) := of_event rfl rfl rfl rfl rfl
theorem unitRetire (u : Nat) : Statement (.unitRetire u) := of_event rfl rfl rfl rfl rfl
theorem runQueueEntryTaken (c k : Nat) : Statement (.runQueueEntryTaken c k) := of_event rfl rfl rfl rfl rfl
theorem cqtail (port : Fin 2) (v : Word) : Statement (.cqtail port v) := of_event rfl rfl rfl rfl rfl
theorem cplhead (port : Fin 2) (v : Word) : Statement (.cplhead port v) := of_event rfl rfl rfl rfl rfl
theorem malformedCommand (port : Fin 2) (tag : BitVec 16) : Statement (.malformedCommand port tag) := of_event rfl rfl rfl rfl rfl
theorem submit (port : Fin 2) (tag : BitVec 16) (asid : BitVec 11) (job : Word) (die : Fin 4) : Statement (.submit port tag asid job die) := of_event rfl rfl rfl rfl rfl
theorem cancel (port : Fin 2) (tag : BitVec 16) (asid : BitVec 11) (level : Level) (va : Word) (reason : BitVec 16) : Statement (.cancel port tag asid level va reason) := of_event rfl rfl rfl rfl rfl
theorem asidinv (port : Fin 2) (tag : BitVec 16) (asid : BitVec 11) : Statement (.asidinv port tag asid) := of_event rfl rfl rfl rfl rfl
theorem tlbinv (port : Fin 2) (tag : BitVec 16) (asid : BitVec 11) (va bytes : Word) : Statement (.tlbinv port tag asid va bytes) := of_event rfl rfl rfl rfl rfl
theorem gangarm (port : Fin 2) (tag : BitVec 16) (rec : Word) (asid : BitVec 11) (die : Fin 4) : Statement (.gangarm port tag rec asid die) := of_event rfl rfl rfl rfl rfl
theorem ganggo (port : Fin 2) (tag : BitVec 16) (gang : Word) : Statement (.ganggo port tag gang) := of_event rfl rfl rfl rfl rfl
theorem gangabort (port : Fin 2) (tag : BitVec 16) (gang : Word) : Statement (.gangabort port tag gang) := of_event rfl rfl rfl rfl rfl
theorem keyld (port : Fin 2) (tag : BitVec 16) (key : BitVec 7) (pa : Word) : Statement (.keyld port tag key pa) := of_event rfl rfl rfl rfl rfl
theorem keyclr (port : Fin 2) (tag : BitVec 16) (key : BitVec 7) : Statement (.keyclr port tag key) := of_event rfl rfl rfl rfl rfl
theorem gangArmTimeout (gang : Word) : Statement (.gangArmTimeout gang) := of_event rfl rfl rfl rfl rfl
theorem gangWaitTimeout (gang : Word) : Statement (.gangWaitTimeout gang) := of_event rfl rfl rfl rfl rfl
theorem gangCancelReceive (gang : Word) (cause : BitVec 16) : Statement (.gangCancelReceive gang cause) := of_event rfl rfl rfl rfl rfl
theorem launch (j : Nat) (n : LaunchNode) : Statement (.launch j n) := of_event rfl rfl rfl rfl rfl
theorem launchPlace (l : Nat) : Statement (.launchPlace l) := of_event rfl rfl rfl rfl rfl
theorem placeTimeout (l : Nat) : Statement (.placeTimeout l) := of_event rfl rfl rfl rfl rfl
theorem coreClear (c : Nat) : Statement (.coreClear c) := of_event rfl rfl rfl rfl rfl
theorem copyNode (j : Nat) (n : CopyNode) : Statement (.copyNode j n) := of_event rfl rfl rfl rfl rfl
theorem condNode (j : Nat) (n : CondNode) : Statement (.condNode j n) := of_event rfl rfl rfl rfl rfl
theorem whileNode (j : Nat) (n : WhileNode) : Statement (.whileNode j n) := of_event rfl rfl rfl rfl rfl
theorem whilePassEnd (j : Nat) : Statement (.whilePassEnd j) := of_event rfl rfl rfl rfl rfl
theorem signal (j : Nat) (n : SignalNode) : Statement (.signal j n) := of_event rfl rfl rfl rfl rfl
theorem waitNode (j : Nat) (n : WaitNode) : Statement (.waitNode j n) := of_event rfl rfl rfl rfl rfl
theorem waitPoll (j : Nat) : Statement (.waitPoll j) := of_event rfl rfl rfl rfl rfl
theorem waitTimeout (j : Nat) : Statement (.waitTimeout j) := of_event rfl rfl rfl rfl rfl
theorem phaseend (j : Nat) (h : NodeHdr) : Statement (.phaseend j h) := of_event rfl rfl rfl rfl rfl
theorem hostirq (j : Nat) (h : NodeHdr) (vec : BitVec 11) : Statement (.hostirq j h vec) := of_event rfl rfl rfl rfl rfl
theorem graphEnd (j : Nat) : Statement (.graphEnd j) := of_event rfl rfl rfl rfl rfl
theorem hbmwin (port : Fin 2) (v : Word) : Statement (.hbmwin port v) := of_event rfl rfl rfl rfl rfl
theorem ddrwin (port : Fin 2) (v : Word) : Statement (.ddrwin port v) := of_event rfl rfl rfl rfl rfl
theorem hsemAcq (port : Fin 2) : Statement (.hsemAcq port) := of_event rfl rfl rfl rfl rfl
theorem hsemRel (port : Fin 2) : Statement (.hsemRel port) := of_event rfl rfl rfl rfl rfl
theorem registerWrite (port : Fin 2) (r : DevReg) (v : Word) : Statement (.registerWrite port r v) := of_event rfl rfl rfl rfl rfl
theorem maintModeChange (c : Nat) : Statement (.maintModeChange c) := of_event rfl rfl rfl rfl rfl
theorem ttctl (port : Fin 2) (die : Fin 4) (v : Word) : Statement (.ttctl port die v) := of_event rfl rfl rfl rfl rfl
theorem ttbuf (port : Fin 2) (die : Fin 4) (v : Word) : Statement (.ttbuf port die v) := of_event rfl rfl rfl rfl rfl
theorem ttdump (port : Fin 2) (die : Fin 4) (v : Word) : Statement (.ttdump port die v) := of_event rfl rfl rfl rfl rfl
theorem dumpRecord (die : Nat) : Statement (.dumpRecord die) := of_event rfl rfl rfl rfl rfl
theorem errlog (port : Fin 2) : Statement (.errlog port) := of_event rfl rfl rfl rfl rfl
theorem hdmCommit (port : Fin 2) (dec : Fin 2) (base : BitVec 22) : Statement (.hdmCommit port dec base) := of_event rfl rfl rfl rfl rfl
theorem hostSnoop (pa : Nat) (inv : Bool) : Statement (.hostSnoop pa inv) := of_event rfl rfl rfl rfl rfl
theorem hostHdmRead (port : Fin 2) (pa : Nat) : Statement (.hostHdmRead port pa) := of_event rfl rfl rfl rfl rfl
theorem l2LineRequest (die pa : Nat) (own : Bool) : Statement (.l2LineRequest die pa own) := of_event rfl rfl rfl rfl rfl
theorem errorEvent (e : ErrorInfo) : Statement (.errorEvent e) := of_event rfl rfl rfl rfl rfl
theorem faultWindowReset : Statement (.faultWindowReset) := of_event rfl rfl rfl rfl rfl
theorem powerCheck : Statement (.powerCheck) := of_event rfl rfl rfl rfl rfl
theorem functionReady (f : Func) : Statement (.functionReady f) := of_event rfl rfl rfl rfl rfl
theorem deviceReset : Statement (.deviceReset) := of_event rfl rfl rfl rfl rfl
theorem portReset (port : Fin 2) : Statement (.portReset port) := of_event rfl rfl rfl rfl rfl
theorem rowStreamShift (die row : Nat) : Statement (.rowStreamShift die row) := of_event rfl rfl rfl rfl rfl
theorem pairAbortArrive (u idx : Nat) : Statement (.pairAbortArrive u idx) := of_event rfl rfl rfl rfl rfl
theorem copyNodeComplete (j id : Nat) : Statement (.copyNodeComplete j id) := of_event rfl rfl rfl rfl rfl

end Sys2Proof.Laws.RoundTrip
end

