-- ==== Sys2Proof/Machine/Order.lean ====
section
/-! DEFINITION. Observers and the sets that scopes name, and when a release and an acquire synchronise (R314, R317, R318, R323, R324).
Every store of this model performs at one instant that all observers share (R315), and a release performs after its earlier accesses
whatever its scope (R319, item 3); so what R325 lets an observer outside the scope see does not arise (log entry 43). -/
namespace Sys2Proof.Machine

/-- An observer (R314). -/
inductive Observer where
  | context (core ctx : Nat)
  /-- an engine operation of a context: a copy command, or a COLL's record -/
  | engine (core ctx : Nat) (e : Engine) (n : Nat)
  | halyard (die : Nat)
  | walker (die : Nat)
  | commandProcessor
  | host
deriving DecidableEq, Repr

/-- The core and context that an observer belongs to (R317). -/
def Observer.home : Observer → Option (Nat × Nat)
  | .context c k => some (c, k)
  | .engine c k _ _ => some (c, k)
  | _ => none

def Observer.die : Observer → Option Nat
  | .context c _ => some (dieOf c)
  | .engine c _ _ _ => some (dieOf c)
  | .halyard d => some d
  | .walker d => some d
  | _ => none

/-- The timing domain of a static context, by its launch. -/
def State.domainOf (s : State) (c k : Nat) : Option Nat :=
  ((s.ctx c k).unit.bind s.unit).bind fun x => if x.static then some x.launch else none

/-- Whether an observer is a static context of the same timing domain, or an engine operation that one issued (R318). -/
def State.sameDomain (s : State) (c k : Nat) (o : Observer) : Bool :=
  match s.domainOf c k, o.home with
  | some l, some (d, j) => decide (s.domainOf d j = some l)
  | _, _ => false

/-- Whether a scope, counted from a context, includes an observer (R317, R318). -/
def State.includes (s : State) (sc : Scope) (c k : Nat) (o : Observer) : Bool :=
  s.sameDomain c k o || (match sc with
    | .ctx => decide (o = .context c k)
    | .core => o.home.any fun h => decide (h.1 = c)
    | .clu => o.home.any fun h => decide (clusterOf h.1 = clusterOf c)
    | .die => decide (o.die = some (dieOf c))
    | .dev => decide (o ≠ .host)
    | .sys => true)

/-- A release at a scope by one context and an acquire at a scope by another synchronise: the read returns the release's write or a later
atomic's, and each scope includes the other context (R324). -/
def State.synchronise (s : State) (x y : Nat × Nat) (sx sy : Scope) (returns : Bool) : Bool :=
  returns && s.includes sx x.1 x.2 (.context y.1 y.2) && s.includes sy y.1 y.2 (.context x.1 x.2)

/-- The scope that an instruction names for its ordering, and whether it is an acquire and a release there (R323, R339, R341). -/
def scopeOf : Instr → Option (Scope × Bool × Bool)
  | .ldg o => if o.acq then some (o.sc, true, false) else none
  | .stg o => if o.rel then some (o.sc, false, true) else none
  | .fence sc => some (sc, true, true)
  | .fenceRel sc => some (sc, false, true)
  | i => match amoKind i with
    | some (_, o) => if o.sc = .ctx then none else some (o.sc, true, true)
    | none => none

end Sys2Proof.Machine
end

