-- ==== Sys2Proof/Tests/Slice0.lean ====
section
/-! SUPPORT. Tests: an ill-formed term for each well-formedness check, words of the spec's examples decoded, its worked numbers, one step
of an instruction here and there, and, for each statement, a state and operands that meet its hypotheses. The expected values are the
spec's own (the rule is named where the test stands) or worked out by hand from its rules. -/
namespace Sys2Proof.Tests
open Sys2Proof Sys2Proof.Machine
set_option Elab.async false

/-! ### The well-formedness checks refuse an ill-formed term each (R128 and the encoding tables) -/

theorem test_wf_iclk_destination : (Instr.iclk 0 (.reg 6) (.reg 7)).wf = false := by decide
theorem test_wf_enter_zero : (Instr.enter 0).wf = false := by decide
theorem test_wf_ldg_scope : (Instr.ldg ⟨5, .reg 6, 0, .i32, .dev, false⟩).wf = false := by decide
theorem test_wf_stg_scope : (Instr.stg ⟨5, .reg 6, 0, .w, .dev, false⟩).wf = false := by decide
theorem test_wf_amo_fadd_width : (Instr.amoFadd ⟨5, .reg 6, .reg 7, true, .dev⟩).wf = false := by decide
theorem test_wf_integer_types : ∀ i ∈ [Instr.vadd ⟨1, false, .reg 2, .reg 3, false, false, 0, .f32⟩,
    .vsub ⟨1, false, .reg 2, .reg 3, false, false, 0, .f16⟩, .vmul ⟨1, false, .reg 2, .reg 3, false, false, 0, .e4m3⟩,
    .vmad ⟨1, false, .reg 2, .reg 3, .reg 4, false, false, 0, .bf16⟩, .vmulh ⟨1, false, .reg 2, .reg 3, false, 0, .f32⟩,
    .vmin ⟨1, false, .reg 2, .reg 3, false, 0, .f32⟩, .vmax ⟨1, false, .reg 2, .reg 3, false, 0, .f32⟩,
    .vshl ⟨1, false, .reg 2, .reg 3, false, 0, .e2m1⟩, .vshr ⟨1, false, .reg 2, .reg 3, false, 0, .f32⟩,
    .vsra ⟨1, false, .reg 2, .reg 3, false, 0, .l8⟩, .vidx ⟨1, false, .reg 2, .reg 3, 0, .f32⟩], i.wf = false := by decide
theorem test_wf_plain_types : ∀ i ∈ [Instr.vand ⟨1, false, .reg 2, .reg 3, false, 0, .e4m3⟩, .vor ⟨1, false, .reg 2, .reg 3, false, 0, .e5m2⟩,
    .vxor ⟨1, false, .reg 2, .reg 3, false, 0, .e2m1⟩, .vbcst ⟨1, false, .reg 2, 0, .l8⟩, .vmov ⟨1, false, .reg 2, 0, .e4m3⟩,
    .vrmax ⟨1, false, .reg 2, 0, .e4m3⟩, .vrmin ⟨1, false, .reg 2, 0, .e4m3⟩, .vins ⟨1, false, .reg 2, .reg 3, 0, .e2m1⟩,
    .vlds ⟨1, false, .reg 2, .reg 3, 0, .e4m3⟩, .vld ⟨1, false, .reg 2, 0, 0, .l8⟩, .vst 1 (.reg 2) 0 0 .e5m2,
    .vcpush ⟨.reg 1, 2, false, 0, .e4m3⟩, .vcpop ⟨1, false, .reg 2, 3, 0, false, 0, .e4m3⟩, .psetn ⟨1, false, .reg 2, 0, .e4m3⟩,
    .shuf ⟨1, false, .reg 2, .reg 3, 0, 0, .e4m3⟩], i.wf = false := by decide
theorem test_wf_signed_types : ∀ i ∈ [Instr.vabs ⟨1, false, .reg 2, false, 0, .n8⟩, .vneg ⟨1, false, .reg 2, false, 0, .f32⟩],
    i.wf = false := by decide
theorem test_wf_float_types : ∀ i ∈ [Instr.vfmin ⟨1, false, .reg 2, .reg 3, false, 0, .i32⟩, .vfmax ⟨1, false, .reg 2, .reg 3, false, 0, .e4m3⟩,
    .vfadd ⟨1, false, .reg 2, .reg 3, false, .rne, 0, .i32⟩, .vfsub ⟨1, false, .reg 2, .reg 3, false, .rne, 0, .e5m2⟩,
    .vfmul ⟨1, false, .reg 2, .reg 3, false, .rne, 0, .n8⟩, .vfma ⟨1, false, .reg 2, .reg 3, .reg 4, false, .rne, 0, .i16⟩,
    .vfabs ⟨1, false, .reg 2, 0, .i8⟩, .vfneg ⟨1, false, .reg 2, 0, .i8⟩, .vfcmp ⟨1, false, .reg 2, .reg 3, false, .eq, 0, .i32⟩,
    .exp2 ⟨1, false, .reg 2, 0, .i32⟩, .log2 ⟨1, false, .reg 2, 0, .e4m3⟩, .rcp ⟨1, false, .reg 2, 0, .n16⟩,
    .rsqrt ⟨1, false, .reg 2, 0, .i32⟩, .tanh ⟨1, false, .reg 2, 0, .i32⟩, .sigm ⟨1, false, .reg 2, 0, .i32⟩,
    .sqrt ⟨1, false, .reg 2, .rne, 0, .i32⟩, .div ⟨1, false, .reg 2, .reg 3, .rne, 0, .i32⟩,
    .vrmrs ⟨1, false, .reg 2, .reg 3, 4, 0, .i32⟩, .maxexp ⟨1, false, .reg 2, 1, 1, 0, .i8⟩,
    .cbdec ⟨1, false, .reg 2, 0, 0, .rne, 0, .i8⟩], i.wf = false := by decide
theorem test_wf_predicate_source : ∀ i ∈ [Instr.pcnt ⟨1, false, .reg 16, 0, .i8⟩, .vsel ⟨1, false, .reg 2, .reg 3, .reg 16, 0, .i8⟩,
    .vrmrs ⟨1, false, .reg 2, .reg 31, 4, 0, .f32⟩, .pand ⟨1, false, .reg 16, .reg 2, 0⟩, .por ⟨1, false, .reg 2, .reg 16, 0⟩,
    .pxor ⟨1, false, .reg 16, .reg 2, 0⟩, .pandn ⟨1, false, .reg 2, .reg 31, 0⟩, .pnot ⟨1, false, .reg 16, 0⟩, .pmov ⟨1, false, .reg 17, 0⟩,
    .pfirst ⟨1, false, .reg 16, 0, .i8⟩], i.wf = false := by decide
theorem test_wf_vcmp_unordered : (Instr.vcmp ⟨1, false, .reg 2, .reg 3, false, .un, 0, .i32⟩).wf = false := by decide
theorem test_wf_vext_guard : (Instr.vext ⟨1, false, .reg 2, .reg 3, 1, .i32⟩).wf = false := by decide
theorem test_wf_gather_width : (Instr.vgath ⟨1, false, .reg 2, .reg 3, 0, .i8⟩).wf = false := by decide
theorem test_wf_scatter_width : (Instr.vscat 1 (.reg 2) (.reg 3) 0 .n8).wf = false := by decide
theorem test_wf_vstg_codebook : (Instr.vstg ⟨1, .reg 2, 0, 1, .rne, 0, .f32⟩).wf = false := by decide
theorem test_wf_vrsum_rounding : (Instr.vrsum ⟨1, false, .reg 2, .rtz, 0, .i32⟩).wf = false := by decide
theorem test_wf_division_types : ∀ i ∈ [Instr.divs ⟨1, false, .reg 2, .reg 3, false, 0, .n32⟩, .rems ⟨1, false, .reg 2, .reg 3, true, 0, .i16⟩,
    .divn ⟨1, false, .reg 2, .reg 3, false, 0, .i32⟩, .remn ⟨1, false, .reg 2, .reg 3, true, 0, .n16⟩], i.wf = false := by decide
theorem test_wf_cvtq_target : (Instr.cvtq ⟨1, false, .reg 2, .rne, 0, .i16⟩).wf = false := by decide
theorem test_wf_conversion_ratio : ∀ i ∈ [Instr.cvt ⟨1, false, .reg 2, .i8, 0, 0, 0, .i32⟩, .cvtw ⟨1, false, .reg 2, .i32, 0, 0, 0, .i8⟩,
    .cvtn ⟨1, false, .reg 2, .i8, 0, 0, 0, .i32⟩, .cvt ⟨1, false, .reg 2, .l8, 0, 0, 0, .i16⟩], i.wf = false := by decide
theorem test_wf_conversion_part : (Instr.cvt ⟨1, false, .reg 2, .i8, 2, 0, 0, .i16⟩).wf = false := by decide
theorem test_wf_conversion_mode : (Instr.cvt ⟨1, false, .reg 2, .i8, 0, 2, 0, .i16⟩).wf = false := by decide
theorem test_wf_cbdec_part : (Instr.cbdec ⟨1, false, .reg 2, 63, 0, .rne, 0, .e4m3⟩).wf = false := by decide
theorem test_wf_descriptor_core : (Instr.mma ⟨⟨false, 1, 2, 0, false, 0⟩, ⟨false, 0, 3, 0, false, 0⟩, 0, false, 0, 0⟩).wf = false := by decide
theorem test_wf_descriptor_pop : (Instr.mma ⟨⟨false, 0, 2, 0, false, 0⟩, ⟨true, 1, 3, 0, true, 0⟩, 0, false, 0, 0⟩).wf = false := by decide
theorem test_wf_pmma_partner : (Instr.pmma ⟨⟨false, 0, 2, 0, false, 0⟩, ⟨false, 0, 3, 0, false, 0⟩, 1, false, 0, 0, true⟩).wf = false := by decide
theorem test_wf_accz_none : (Instr.accz 0).wf = false := by decide
theorem test_wf_accrest_nothing : (Instr.accrest ⟨0, .reg 1, 0, false, false⟩).wf = false := by decide
theorem test_wf_qwr_tag : ∀ i ∈ [Instr.qwr ⟨1, .reg 0, .reg 1, true, false, 1, 0⟩, .qwr ⟨1, .reg 0, .reg 1, true, true, 11, 0⟩], i.wf = false := by
  decide
theorem test_wf_cpll_tag : (Instr.cpll ⟨1, .reg 2, .reg 3, 53⟩).wf = false := by decide
theorem test_wf_stapq_tag : (Instr.stapq false 0 1 22).wf = false := by decide
theorem test_wf_domain_mask : ∀ i ∈ [Instr.dclk 0 (.reg 1), .dstep 0 (.reg 1)], i.wf = false := by decide

/-! ### Words of the spec's examples decode to what they stand for -/

theorem test_decode_header : decodeHeader 0x0340 = ⟨false, 3, false, true, 0⟩ := by decide
-- `<d> exit`: parcels 0x00C1, 0x0020, 0xE800
theorem test_decode_drain_exit : (let b := decodeBundle [0xC1, 0x00, 0x20, 0x00, 0x00, 0xE8]
    (b.hdr.dp, b.hdr.st, b.hdr.len, b.single) = (true, true, 3, some .exit)) := by decide
theorem test_decode_long_literal : decodeS 0x4489ABCD = .op (.li ⟨4, false, 0x9ABCD⟩) ∧ decodeS 0x48845678 = .op (.lim ⟨4, false, 0x45678⟩)
    ∧ decodeS 0x4C800123 = .op (.lit ⟨4, false, 0x00123⟩) := by decide
theorem test_decode_addi : decodeS 0x20A14001 = .op (.addi ⟨5, false, .reg 5, 1⟩) := by decide
theorem test_decode_local_load : decodeS 0x70A18008 = .op (.ldLI32 ⟨5, false, .reg 6, 8⟩) := by decide
theorem test_decode_frame : decodeS 0xC8000001 = .op (.enter 1) ∧ decodeS 0xCC000000 = .op .leave := by decide
theorem test_decode_branches : decodeS 0xA044FFFA = .op (.bcz .ne (.reg 4) (-6)) ∧ decodeS 0xA0860008 = .op (.bcz .lt (.reg 6) 8)
    ∧ decodeS 0xB407C000 = .op (.jr (.reg 31)) := by decide
theorem test_decode_loops : decodeS 0xC400C006 = .op (.loopi 0 3 6) ∧ decodeS 0xC6008003 = .op (.loopi 1 2 3)
    ∧ decodeS 0xC4014019 = .op (.loopi 0 5 25) ∧ decodeS 0xC08E000D = .op (.loop 1 (.reg 7) 13) := by decide
theorem test_decode_csr : decodeS 0xD0E00000 = .op (.csrr 7 false 0) ∧ decodeS 0xDC024000 = .op (.csrc ⟨0, false, 0, .reg 9⟩) := by decide
theorem test_decode_system : decodeS 0xE0014000 = .op (.trap (.reg 5)) ∧ decodeS 0xE0000003 = .op .tret ∧ decodeS 0xE4001388 = .op (.yield 5000)
    ∧ decodeS 0xE8000020 = .op .exit ∧ decodeS 0xE8614041 = .op (.barClu 3 (.reg 5))
    ∧ decodeS 0xE0A18710 = .op (.iclk 5 (.reg 6) (.reg 7)) := by decide
theorem test_decode_global : decodeS 0x90A18F24 = .op (.ldg ⟨5, .reg 6, 7, .i32, .dev, true⟩)
    ∧ decodeS 0x94819280 = .op (.stg ⟨4, .reg 6, 9, .w, .ctx, false⟩)
    ∧ decodeS 0x98A18790 = .op (.amoAdd ⟨5, .reg 6, .reg 7, true, .dev⟩)
    ∧ decodeS 0x9CA187A0 = .op (.amocas ⟨5, .reg 6, .reg 7, false, .sys⟩) := by decide
theorem test_decode_ordering : decodeS 0xEC000005 = .op (.fence .sys) ∧ decodeS 0xEC00000C = .op (.fenceRel .dev)
    ∧ decodeS 0xEC014011 = .op (.waittl (.reg 5) .cpy) := by decide
theorem test_decode_vector_arithmetic : decodeV 0x001842402019 = .op (.vadd ⟨3, false, .reg 4, .reg 9, true, true, 2, .i16⟩)
    ∧ decodeV 0x102051804080 = .op (.vfadd ⟨4, false, .reg 5, .reg 6, false, .rne, 4, .f32⟩) := by decide
theorem test_decode_vector_compare : decodeV 0x210011400381 = .op (.vfcmp ⟨3, false, .reg 1, .reg 5, false, .ne, 0, .f32⟩) := by decide
theorem test_decode_vector_memory : decodeV 0x3179E0000000 = .op (.vst 15 (.reg 30) 0 0 .i8)
    ∧ decodeV 0x311890000000 = .op (.vst 3 (.reg 9) 0 0 .i8) := by decide
theorem test_decode_vector_reduction : decodeV 0x433810032480 = .op (.vrmrs ⟨7, false, .reg 1, .reg 3, 4, 2, .f32⟩)
    ∧ decodeV 0x480020065020 = .op (.vcpush ⟨.reg 2, 6, false, 5, .i32⟩) := by decide
theorem test_decode_predicates : decodeV 0x580030000280 = .op (.psetn ⟨2, false, .reg 3, 0, .f32⟩)
    ∧ decodeV 0x597880000000 = .op (.ppack 15 false 8) ∧ decodeV 0x5A00F0000800 = .op (.punpk 8 (.reg 15)) := by decide
theorem test_decode_quantisation : decodeX 0x101010000080 = .op (.maxexp ⟨2, false, .reg 1, 0, 0, 0, .f32⟩)
    ∧ decodeX 0x111810000090 = .op (.cvtq ⟨3, false, .reg 1, .rne, 0, .e4m3⟩) := by decide
theorem test_decode_shuffle : decodeX 0x204810850000 = .op (.shuf ⟨9, false, .reg 1, .reg 2, 5, 0, .i8⟩)
    ∧ decodeX 0x220000000000 = .op .patsw := by decide
theorem test_decode_matrix : decodeM 0x00FF7E3C10000000 = .op (.tcfg ⟨127, 191, 15, 0, 4⟩)
    ∧ decodeM 0x0102234D04000000 = .op (.mma ⟨⟨false, 0, 2, 0, true, 0⟩, ⟨true, 5, 3, 1, false, 0⟩, 1, false, 0, 0⟩)
    ∧ decodeM 0x0101000800000000 = .op (.mma ⟨⟨false, 0, 1, 0, false, 0⟩, ⟨false, 0, 2, 0, false, 0⟩, 0, false, 0, 0⟩)
    ∧ decodeM 0x0405000002000000 = .op (.accrd ⟨5, 0, .f32, .rne, false⟩) := by decide
theorem test_decode_queues : decodeQ 0x0030000008000100 = .op (.qcfg ⟨3, .reg 0, false, 2, 0, 0x100⟩)
    ∧ decodeQ 0x0220004060006000 = .op (.qrd ⟨2, 8, 1, true, .reg 0, 3⟩)
    ∧ decodeQ 0x0230000820000000 = .op (.qrd ⟨3, 1, 0, true, .reg 0, 0⟩) := by decide
theorem test_decode_tags_copies : decodeQ 0x1801802800000000 = .op (.tlook 5 (.reg 6))
    ∧ decodeQ 0x10428B0000000000 = .op (.cpld ⟨4, .reg 10, .reg 11⟩) := by decide
theorem test_decode_integrator : decodeQ 0x2403003000000000 = .op (.dstep 3 (.reg 12))
    ∧ decodeQ 0x2402801000000000 = .op (.dstep 1 (.reg 10)) ∧ decodeQ 0x2200090C01000000 = .op (.dset ⟨.par, .reg 0, 1, .reg 9⟩)
    ∧ decodeQ 0x2001800000002000 = .op (.dpatch ⟨.reg 6, 1, 0⟩) ∧ decodeQ 0x2701800200000400 = .op (.dsave (.reg 6) 0x400 true) := by decide
theorem test_decode_collectives : decodeQ 0x3001460000000000 = .op (.coll (.reg 5) (.reg 6))
    ∧ decodeQ 0x3101C80000000010 = .op (.cqry (.reg 7) 16 (.reg 8)) := by decide
theorem test_decode_table_word : decodeTableWord 16 0x0340 = some (.nop 3 false true) := by decide

/-! ### Numbers (the worked conversions of R44, R43, R53 and R54) -/

theorem test_round_e4m3 : FFmt.round .e4m3 .rne (.fin false 5404319552844595 (-54) false) = (0x2A, flagNX) := by decide
theorem test_round_e4m3_overflow : FFmt.round .e4m3 .rne (.ofInt 500) = (0x7E, flagOF ||| flagNX) := by decide
theorem test_round_e5m2 : FFmt.round .e5m2 .rne (.ofInt 500) = (0x60, flagNX) := by decide
theorem test_round_e2m1_tie : FFmt.round .e2m1 .rne (.ofInt 5) = (6, flagNX) ∧ FFmt.round .e2m1 .rne (.fin true 5 (-2) false) = (0xA, flagNX) := by
  decide
theorem test_round_bf16_tie : FFmt.round .bf16 .rne (.fin false 257 (-8) false) = (0x3F80, flagNX) := by decide
theorem test_round_f16_infinity : FFmt.round .f16 .rne (.ofInt 70000) = (0x7C00, flagOF ||| flagNX) := by decide
-- 200.7: 200.625 and a little more
theorem test_round_i8_saturates : roundToInt (-128) 127 .rne (.fin false 1605 (-3) true) = (127, flagNV ||| flagNX) := by decide
-- 1 + 2^−9 to bf16 under SR with STATE 1 gives 0x3F81 and leaves STATE at 0x00042021 (R43)
theorem test_stochastic_example : (let r := roundF .bf16 .sr (.fin false 513 (-9) false) ⟨1, 0⟩
    (r.1, r.2.sr, r.2.fl) = (0x3F81, 0x00042021, flagNX)) := by decide
-- index 0xB283 of the default table
theorem test_lattice_example : (List.range 8).map (fun k => FFmt.round .f32 .rne (latticeLane defaultCodebook 0xB283 k)) =
    [(0xBFC00000, 0), (0xBF000000, 0), (0x3FC00000, 0), (0x3F000000, 0), (0x3F000000, 0), (0x3FC00000, 0), (0x3FC00000, 0),
      (0x3F000000, 0)] := by decide

/-! ### Translation (R25 to R30, R398 to R400) -/

/-- The bytes of a text. -/
def ascii (l : List Char) : List Byte := l.map fun c => BitVec.ofNat 8 c.toNat
/-- The translation of a function under budgets, without the prefetch block before it, and its place, size and PRIV; or a load error. -/
def translated (t : String) (b : Nat × Nat × Nat) : List Byte × List (Nat × Nat × Nat) :=
  let t := ascii t.toList
  match ztcTranslate t [(0, t.length)] [b] with
  | .ok (c, l) => (c.drop 64, l)
  | .error n => ([], [(n, 0, 0)])
/-- A bundle of a header and one syllable of the S slot, or of the V or X slot. -/
def bundleS (h w : Nat) : List Byte := leBytes (h + 2 ^ 16 * w) 6
def bundleV (h w : Nat) : List Byte := leBytes (h + 2 ^ 16 * w) 8
-- `mix` of R29's example: add, mul, and a return when the product has landed
theorem test_ztc_mix : translated
    ".zfunc mix\n.arg w1, w2\n.ret w3\nw1 -> ALU.o\nw2 -> ALU.add\nALU.res -> MUL.o\nw1 -> MUL.mul\nMUL.res -> w3\n.zend\n" (15, 16, 8)
    = ([0x01, 0x00, 0x00, 0x42, 0x20, 0x01, 0x41, 0x02, 0x00, 0x01, 0x28, 0x04] ++ bundleS 0x41 0xB407C000, [(64, 18, 0)]) := by decide +kernel
-- `dotmix` under SBUD 8, VBUD 4 and PBUD 4: the syllables that chapter 21 prints, at its cycles, and PRIV 768
theorem test_ztc_dotmix : translated
    ".zfunc dotmix\n.arg w1, w2, w3\n.vreg w4, w5, w6\n.ret w7\nw1 -> LSU.vld.f16\nLSU.res -> w4\nw2 -> LSU.vld.f16\nLSU.res -> w5\nw4 -> VEC.o\nw5 -> VEC.dot.f16\nVEC.res -> w7\nw4 -> VEC.o\nw5 -> VEC.vfmul.f16\nVEC.res -> w6\nw3 -> LSU.o\nw6 -> LSU.vst.f16\n.zend\n"
    (8, 4, 4) = (bundleV 0x44 0x300010000060 ++ bundleV 0x44 0x300820000060 ++ bundleS 0x641 0xC8000003
    ++ bundleV 0x4C 0x3109CFFE0060 ++ leBytes 0x121810060080 6 ++ bundleV 0x4C 0x3101CFFD0060 ++ leBytes 0x120810060088 6
    ++ bundleV 0x48 0x120000060080 ++ bundleV 0x248 0x121800060088 ++ bundleV 0x344 0x120000C00080 ++ bundleV 0x44 0x130030400080
    ++ bundleV 0x244 0x3009CFFE0060 ++ bundleV 0x44 0x400800000080 ++ bundleV 0x744 0x3001CFFD0060 ++ bundleV 0x344 0x121000400060
    ++ bundleV 0x44 0x311030000060 ++ bundleS 0x541 0xCC000000 ++ bundleS 0x41 0xB407C000, [(64, 134, 768)]) := by decide +kernel
-- an unknown variant (7), a name that is defined nowhere (6), a result port before any trigger of its unit (8): R24
theorem test_ztc_errors : (["w1 -> FPU.fma.xyz", "nowhere -> CTL.jmp", "MUL.res -> w2"].map fun t =>
    (translated (".zfunc f\n.arg w1\n.ret w2\n" ++ t ++ "\n.zend\n") (15, 16, 8)).2) = [[(7, 0, 0)], [(6, 0, 0)], [(8, 0, 0)]] := by decide +kernel

/-! ### States for the witnesses: a unit resident in ctx1 of core 0 issues a bundle of one slot from address 0 -/

/-- The bytes of `add s4, s5, s6` alone in a bundle. -/
def addBytes : List Byte := [0x41, 0x00, 0x00, 0x46, 0x81, 0x00]

/-- That bundle has begun to issue; `g` is what the core holds besides. -/
def issuing (g : Core → Core) : Machine.State :=
  { ((State.reset.placeBundle addBytes).onCore 0 g).openIssue 0 1 (decodeBundle addBytes) 0 with plan := some [] }

/-- The same, `f` being what the context holds besides. -/
def seatedWith (f : Ctx → Ctx) : Machine.State := issuing fun x => x.setCtx 1 (f x.ctxs[1])

def seated : Machine.State := seatedWith id

/-- Scalar registers by number. -/
def sregs (l : List (Nat × Word)) (x : Ctx) : Ctx := l.foldl (fun x p => x.writeS p.1 p.2) x

/-- What a computation answers, as a test that evaluates. -/
def gives {α : Type} [DecidableEq α] (e : Except Cond α) (a : α) : Bool :=
  match e with
  | .ok b => decide (b = a)
  | .error _ => false
/-- A witness that states `gives e a = true` states `e = .ok a`. -/
theorem gives_ok {α : Type} [DecidableEq α] {e : Except Cond α} {a : α} (h : gives e a = true) : e = .ok a := by
  cases e with
  | error c => simp [gives] at h
  | ok b => simpa [gives] using h

/-! ### For each statement, a state and operands that meet its hypotheses -/

/-- The context's scalar registers s5, s6 and s7 hold the operands. -/
def operands (x y z : Word) : Machine.State := seatedWith (sregs [(5, x), (6, y), (7, z)])

theorem operands_read (x y z : Word) : let s := operands x y z
    s.Calm ∧ s.srcS (.reg 5) = .ok x ∧ s.srcS (.reg 6) = .ok y ∧ s.srcS (.reg 7) = .ok z := ⟨⟨rfl, rfl, rfl, rfl⟩, rfl, rfl, rfl⟩
theorem operands_seated (x y z : Word) : (operands x y z).Seated := ⟨(by decide : 0 < 512), (by decide : 1 < 4), 1, placedUnit, rfl, rfl, rfl, rfl⟩

-- every pair of source values: positions and widths 0, at and past the end of the register among them
theorem witness_IntegerResults (x y : Word) : let s := operands x y 0
    s.Calm ∧ s.srcS (.reg 5) = .ok x ∧ s.srcS (.reg 6) = .ok y := ⟨⟨rfl, rfl, rfl, rfl⟩, rfl, rfl⟩
theorem witness_BitResults (x y : Word) : let s := operands x y 0
    s.Calm ∧ s.srcS (.reg 5) = .ok x ∧ s.srcS (.reg 6) = .ok y := ⟨⟨rfl, rfl, rfl, rfl⟩, rfl, rfl⟩
theorem witness_ImmediateResults (x : Word) : let s := operands x 0 0
    let o : SImm := ⟨4, false, .reg 5, -1⟩
    let h : SSh := ⟨4, false, .reg 5, 63⟩
    s.Calm ∧ s.srcS o.a = .ok x ∧ h.a = o.a ∧ h.d = o.d ∧ h.nw = o.nw := ⟨⟨rfl, rfl, rfl, rfl⟩, rfl, rfl, rfl, rfl⟩
-- the literal of the spec's example, and the registers between its three parts
theorem witness_ImmediateResults_literal : let s := operands 0 0 0
    let t := seatedWith (sregs [(4, 0xFFFFFFFFFFF9ABCD)])
    let u := seatedWith (sregs [(4, 0x000000456789ABCD)])
    s.Calm ∧ t.Calm ∧ u.Calm ∧ t.regS 4 = (0x9ABCD : BitVec 20).signExtend 64
    ∧ u.regS 4 = ((0x45678 : BitVec 20) ++ (0x9ABCD : BitVec 20) : BitVec 40).signExtend 64 :=
  ⟨⟨rfl, rfl, rfl, rfl⟩, ⟨rfl, rfl, rfl, rfl⟩, ⟨rfl, rfl, rfl, rfl⟩, by decide, by decide⟩
theorem witness_Fp32Results (x y : Word) : let s := operands x y 0
    let o : SR3 := ⟨4, false, .reg 5, .reg 6⟩
    let u : SR2 := ⟨4, false, .reg 5⟩
    let f : SF2 := ⟨4, false, .reg 5, .sr⟩
    s.Calm ∧ s.srcS o.a = .ok x ∧ s.srcS o.b = .ok y ∧ u = ⟨o.d, o.nw, o.a⟩ ∧ f.d = o.d ∧ f.nw = o.nw ∧ f.a = o.a :=
  ⟨⟨rfl, rfl, rfl, rfl⟩, rfl, rfl, rfl, rfl, rfl, rfl⟩

-- a NaN, the infinities, a zero, two values that cancel, and one that is an integer
theorem witness_Fp32Results_values : let d := FFmt.f32.decode
    d 0x7FC00000 = .nan ∧ d 0x7F800000 = .inf false ∧ d 0xFF800000 = .inf (!false) ∧ d 0x80000000 = .fin true 0 (-149) false
    ∧ d 0x3F800000 = .fin false 8388608 (-23) false ∧ d 0xBF800000 = .fin true 8388608 (-23) false
    ∧ d 0x4B000000 = .fin false 8388608 0 false := by decide

-- the top of the scratchpad, its first byte, an address one past it, one below it, and one that is not aligned
theorem witness_LocalAccessResults : let s := operands 3145720 0 0
    let o : SImm := ⟨4, false, .reg 5, 0⟩
    s.Calm ∧ s.srcS o.a = .ok 3145720 ∧ ((3145720 : Word).toNat : Int) + o.imm.toInt = 3145720 ∧ 3145720 % 8 = 0
    ∧ ∀ y ∈ s.myCore.bad, y < 3145720 ∨ 3145720 + 8 ≤ y :=
  ⟨⟨rfl, rfl, rfl, rfl⟩, rfl, by decide, by decide, by decide⟩
theorem witness_LocalAccessResults_range : let s := operands 0 3145728 0
    s.Calm ∧ s.srcS (.reg 5) = .ok 0 ∧ ((0 : Word).toNat : Int) + (-1 : BitVec 14).toInt < 0
    ∧ s.srcS (.reg 6) = .ok 3145728 ∧ 3145728 ≤ ((3145728 : Word).toNat : Int) + (0 : BitVec 14).toInt :=
  ⟨⟨rfl, rfl, rfl, rfl⟩, rfl, by decide, rfl, by decide⟩
theorem witness_LocalAccessResults_alignment : let s := operands 3145727 0 0
    s.Calm ∧ s.srcS (.reg 5) = .ok 3145727 ∧ 0 ≤ ((3145727 : Word).toNat : Int) + (0 : BitVec 14).toInt
    ∧ ((3145727 : Word).toNat : Int) + (0 : BitVec 14).toInt < 3145728 ∧ (3145727 : Int).toNat % 8 ≠ 0 :=
  ⟨⟨rfl, rfl, rfl, rfl⟩, rfl, by decide, by decide, by decide⟩
theorem witness_ScratchpadStores : Core.cleared.spm.wf = true := by decide

theorem witness_FrameResults_enter : let s := seatedWith (sregs [(30, 256)])
    s.Calm ∧ (s.regS 30).toNat % 8 = 0 ∧ 16 ≤ (s.regS 30).toNat ∧ (s.regS 30).toNat ≤ 3145728
    ∧ s.iss.entry.csr.stklim.toNat + (1 : BitVec 14).toNat * 256 ≤ (s.regS 30).toNat :=
  ⟨⟨rfl, rfl, rfl, rfl⟩, by decide, by decide, by decide, by decide⟩
theorem witness_FrameResults_limit : let s := seatedWith (sregs [(30, 248)])
    s.Calm ∧ (s.regS 30).toNat < s.iss.entry.csr.stklim.toNat + (1 : BitVec 14).toNat * 256 := ⟨⟨rfl, rfl, rfl, rfl⟩, by decide⟩
theorem witness_FrameResults_leave (fp : Word) (h : fp ∈ [16, 3145728]) : let s := seatedWith (sregs [(28, fp)])
    s.Calm ∧ s.myCore.bad = [] ∧ s.regS 28 = fp ∧ fp.toNat % 8 = 0 ∧ 16 ≤ fp.toNat ∧ fp.toNat ≤ 3145728 :=
  ⟨⟨rfl, rfl, rfl, rfl⟩, rfl, rfl, by
    simp only [List.mem_cons, List.not_mem_nil, or_false] at h
    rcases h with rfl | rfl <;> decide⟩

theorem witness_BranchResults (x y : Word) : let s := operands x y 0
    s.Calm ∧ s.srcS (.reg 5) = .ok x ∧ s.srcS (.reg 6) = .ok y := ⟨⟨rfl, rfl, rfl, rfl⟩, rfl, rfl⟩
-- the bundle at address 6, past the six bytes of the bundle that issues, is one parcel of zeros
theorem witness_LoopResults : let s := operands 0 1 0
    s.Calm ∧ s.srcS (.reg 5) = .ok 0 ∧ s.srcS (.reg 6) = .ok 1 ∧ (1 : Word) ≠ 0
    ∧ gives (s.lengthAt (s.iss.pc + BitVec.ofInt 64 (2 * (3 : BitVec 11).toInt))) 1 = true
    ∧ gives (s.lengthAt (s.iss.pc + BitVec.ofInt 64 (2 * (3 : BitVec 14).toInt))) 1 = true := ⟨⟨rfl, rfl, rfl, rfl⟩, rfl, rfl, by decide, by decide +kernel, by decide +kernel⟩

/-- The bundle that issues has taken branches, and its last slot is at hand. -/
def branching (a b : Option Taken) (f : Csrs → Csrs) : Machine.State :=
  let s := seatedWith fun x => { x with csr := f x.csr }
  { s with iss := { s.iss with branch0 := a, branch1 := b } }
theorem witness_BundleCompletes : ∀ s ∈ [branching (some ⟨64, none⟩) (some ⟨128, none⟩) id, branching none (some ⟨128, none⟩) id,
    branching none none id, branching none none fun c => { c with loopst := 3, le0 := 0, lc0 := 2, le1 := 0, lc1 := 2 }],
    s.iss.ctx < 4 ∧ (s.unit s.myUnit).map (·.exited) = some false := by decide
-- a CSR that is writable, one that is read-only and one that is unassigned
theorem witness_CsrResults (x : Word) : let s := operands x 0 0
    let o : CsrOp := ⟨4, false, 0x026, .reg 5⟩
    s.Calm ∧ s.srcS o.a = .ok x ∧ o.csr.toNat = 0x026 ∧ (0x034 : BitVec 12).toNat = 0x034
    ∧ (0x035 : BitVec 12).toNat ∉ [0x000, 0x001, 0x002, 0x003, 0x008, 0x009, 0x00A, 0x00B, 0x00C, 0x00D, 0x00E, 0x010, 0x011, 0x012, 0x013, 0x014,
      0x015, 0x016, 0x017, 0x018, 0x019, 0x01A, 0x020, 0x021, 0x022, 0x023, 0x024, 0x025, 0x026, 0x030, 0x031, 0x032, 0x033, 0x034] :=
  ⟨⟨rfl, rfl, rfl, rfl⟩, rfl, rfl, rfl, by decide⟩
theorem witness_CsrResults_write : ∀ n ∈ [0x000, 0x001, 0x003, 0x020, 0x022, 0x024], (csrWrite Csrs.cleared n (BitVec.allOnes 64)).isSome = true := by
  decide
theorem witness_SoftwareTraps (x : Word) : let s := operands x 0 0
    s.Calm ∧ s.srcS (.reg 5) = .ok x := ⟨⟨rfl, rfl, rfl, rfl⟩, rfl⟩

/-- A handler at address 64, its trap record at the last place of the scratchpad that holds it. -/
def handled : Machine.State := seatedWith fun x => { x with csr := { x.csr with tvec := 12195#14 ++ 1#50 } }
theorem witness_TrapEntryAndReturn_entry : (handled.ctx 0 1).trapHandled = true ∧ (handled.core 0).spm.wf = true := by decide
theorem witness_trap_record_ends_the_scratchpad : (handled.ctx 0 1).csr.recordAt + 23808 = 3145728 := by decide

/-- A launch that is placed, of one initial unit. -/
def aLaunch : Launch :=
  { job := 0, asid := 0, counter := 0, node := ⟨⟨false, 0⟩, 0, 0, 0, 0, 0, 0, 0⟩, loaded := none, record := none, phase := .placed, phaseIdx := 0,
    n := 1, nextNumber := 1, returned := 0, pools := [], ending := none, barriers := [], freeze := none, reuse := [], paged := false }
def launched : Machine.State := { seated with launches := [(0, aLaunch)] }
theorem witness_TrapEntryAndReturn_unhandled : (launched.ctx 0 1).trapHandled = false ∧ (launched.ctx 0 1).unit = some 1
    ∧ launched.unit 1 = some placedUnit ∧ find launched.launches placedUnit.launch = some aLaunch := ⟨rfl, rfl, rfl, rfl⟩

/-- A handler whose record holds zeros: no pending write, and execution goes on at address 0. -/
def inHandler : Machine.State := seatedWith fun x => { x with csr := { x.csr with tvec := 0#14 ++ 1#50, cause := 0x40000000 } }
theorem witness_TrapEntryAndReturn_return : inHandler.Calm ∧ inHandler.iss.ctx < 4 ∧ inHandler.iss.slots.length ≤ 1
    ∧ inHandler.me.csr.cause.getLsbD 30 = true ∧ inHandler.iss.entry.csr.recordAt + 23808 ≤ 3145728
    ∧ (match inHandler.myCore.load 1 inHandler.iss.entry.csr.recordAt 23808 with
      | .ok b => recordOk b
      | .error _ => false) = true :=
  ⟨⟨rfl, rfl, rfl, rfl⟩, by decide, by decide, by decide, by decide, by decide +kernel⟩
theorem witness_TrapEntryAndReturn_outside : seated.Calm ∧ seated.me.csr.cause.getLsbD 30 = false := ⟨⟨rfl, rfl, rfl, rfl⟩, by decide⟩

theorem witness_EndsAndBarriers (x : Word) : let s := operands x 0 0
    s.Calm ∧ s.srcS (.reg 5) = .ok x ∧ s.isStatic s.iss.core s.iss.ctx = false := ⟨⟨rfl, rfl, rfl, rfl⟩, rfl, rfl⟩
/-- Core 0 belongs to a timing domain, so that ctx1 is static. -/
def static : Machine.State :=
  { seated with
    units := put seated.units 1 { placedUnit with static := true }
    launches := [(0, { aLaunch with record := some ⟨false, some (0, 1), 0, 0, 0, 0, [⟨0, 1, 0, true, 0, 255, 0, 0⟩]⟩ })] }
theorem witness_EndsAndBarriers_static : static.Calm ∧ static.isStatic static.iss.core static.iss.ctx = true := ⟨⟨rfl, rfl, rfl, rfl⟩, by decide⟩
/-- A barrier of each scope that one unit has arrived at, of a count of two. -/
def met (scope inst : Nat) : Machine.State := { operands 2 0 0 with launches := [(0, { aLaunch with barriers := [⟨scope, inst, 3, 2, [(9, 0)]⟩] })] }
theorem witness_EndsAndBarriers_join : ∀ f ∈ [(0, 32), (1, 512), (2, 2048)], let s := met f.1 (barInst f.1 0)
    ((find s.launches (s.launchOf s.myUnit)).map (·.barriers)).getD [] ≠ [] ∧ 2 ≤ f.2
    ∧ ((((find s.launches (s.launchOf s.myUnit)).map (·.barriers)).getD []).find? fun b => b.joins f.1 (barInst f.1 s.iss.core) 3).map (·.count)
        = some 2 := by decide
theorem witness_EndsAndBarriers_first : find (operands 32 0 0).launches 0 = none ∧ (32 : Word).toNat ≤ 32 ∧ 0 < (32 : Word).toNat := by decide

-- weights at their boundary: half of what is held, and all of it
theorem witness_SpawnResults (give : Word) : let s := seatedWith fun x => sregs [(5, 64), (6, give), (7, 65)] { x with csr := { x.csr with uweight := 2 } }
    s.Calm ∧ s.Seated ∧ s.srcS (.reg 5) = .ok 64 ∧ s.srcS (.reg 6) = .ok give ∧ s.srcS (.reg 7) = .ok 65 ∧ canonical 64 = true
    ∧ (64 : Word).toNat % 64 = 0 ∧ (65 : Word).toNat % 64 ≠ 0 ∧ s.me.csr.uweight = 2 ∧ (2 : Word) ≠ 1 ∧ (1 : Word) < 2 :=
  ⟨⟨rfl, rfl, rfl, rfl⟩, ⟨(by decide : 0 < 512), (by decide : 1 < 4), 1, placedUnit, rfl, rfl, rfl, rfl⟩, rfl, rfl, rfl, by decide, by decide, by decide,
    rfl, by decide, by decide⟩
theorem witness_GlobalAccessIssue (x : Word) : let s := operands x 0 0
    s.Calm ∧ s.Seated ∧ s.srcS (.reg 5) = .ok x := ⟨⟨rfl, rfl, rfl, rfl⟩, operands_seated x 0 0, rfl⟩
-- the last canonical addresses below and above the hole, the first that is none, one that is not aligned
theorem witness_GlobalAccessIssue_addresses : canonical 0x007FFFFFFFFFFFF8 = true ∧ canonical 0xFF80000000000000 = true
    ∧ canonical 0x0080000000000000 = false ∧ (0x007FFFFFFFFFFFF8 : Word).toNat % ldSize .d = 0 ∧ (0x007FFFFFFFFFFFFF : Word).toNat % ldSize .d ≠ 0
    ∧ canonical 0x007FFFFFFFFFFFFF = true := by decide
theorem witness_AtomicResults (x y : Word) : let s := operands x y 0
    s.Calm ∧ s.Seated ∧ s.srcS (.reg 5) = .ok x ∧ s.srcS (.reg 6) = .ok y := ⟨⟨rfl, rfl, rfl, rfl⟩, operands_seated x y 0, rfl, rfl⟩
theorem witness_AtomicResults_alignment : (0x007FFFFFFFFFFFF8 : Word).toNat % amoSize ⟨5, .reg 6, .reg 7, true, .dev⟩ = 0
    ∧ (0x007FFFFFFFFFFFFC : Word).toNat % amoSize ⟨5, .reg 6, .reg 7, true, .dev⟩ ≠ 0 := by decide
theorem witness_FencesAndLocks (x y : Word) : let s := operands x y 0
    s.Calm ∧ s.Seated ∧ s.srcS (.reg 5) = .ok x ∧ s.srcS (.reg 6) = .ok y := ⟨⟨rfl, rfl, rfl, rfl⟩, operands_seated x y 0, rfl, rfl⟩
/-- Vector registers v1 to v3, predicates p1 and p2 and scalars s5 and s6 hold the operands. -/
def lanesOf (x y z : VWord) (p q : PWord) (a b : Word) : Machine.State :=
  seatedWith fun c => sregs [(5, a), (6, b)] ((((((c.writeV 1 x).writeV 2 y).writeV 3 z).writeP 1 p).writeP 2 q))

theorem lanesOf_read (x y z : VWord) (p q : PWord) (a b : Word) : let s := lanesOf x y z p q a b
    s.Calm ∧ s.srcV (.reg 1) = .ok x ∧ s.srcV (.reg 2) = .ok y ∧ s.srcV (.reg 3) = .ok z ∧ s.srcP (.reg 1) = .ok p ∧ s.srcP (.reg 2) = .ok q
    ∧ s.srcS (.reg 5) = .ok a ∧ s.srcS (.reg 6) = .ok b := ⟨⟨rfl, rfl, rfl, rfl⟩, rfl, rfl, rfl, rfl, rfl, rfl, rfl⟩

theorem witness_VectorArithmetic (x y z : VWord) : let s := lanesOf x y z 0 0 0 0
    let o : VInt := ⟨4, false, .reg 1, .reg 2, false, true, 0, .i16⟩
    let u : VUnSat := ⟨4, false, .reg 1, true, 0, .i16⟩
    let m : VMadOp := ⟨4, false, .reg 1, .reg 2, .reg 3, false, true, 0, .i16⟩
    s.Calm ∧ s.srcV o.a = .ok x ∧ s.srcSb o.ty o.sb o.b = .ok y
    ∧ u = ⟨o.d, o.nw, o.a, o.sat, o.pg, o.ty⟩ ∧ m.d = o.d ∧ m.nw = o.nw ∧ m.a = o.a ∧ m.b = o.b ∧ m.sb = o.sb ∧ m.sat = o.sat
    ∧ m.pg = o.pg ∧ m.ty = o.ty ∧ s.srcV m.c = .ok z :=
  ⟨⟨rfl, rfl, rfl, rfl⟩, rfl, rfl, rfl, rfl, rfl, rfl, rfl, rfl, rfl, rfl, rfl, rfl⟩
theorem srcSb_scalar (s : Machine.State) (t : Ty) (b : Src) : s.srcSb t true b = (s.srcS b).map (broadcast t) := rfl
-- an enabled element that saturates, and one that does not
theorem witness_VectorArithmetic_saturates : enabled .i8 (BitVec.allOnes 256) 255 = true
    ∧ intHi (tySigned .i8) (tyBits .i8) < ielem .i8 127 0 + ielem .i8 1 0 ∧ ¬ intHi (tySigned .i8) (tyBits .i8) < ielem .i8 126 0 + ielem .i8 1 0 := by
  decide +kernel
theorem witness_VectorIntegerOps (x y : VWord) : let s := lanesOf x y 0 0 0 0 0
    let o : VBin := ⟨4, false, .reg 1, .reg 2, false, 0, .i32⟩
    s.Calm ∧ s.srcV o.a = .ok x ∧ s.srcSb o.ty o.sb o.b = .ok y := ⟨⟨rfl, rfl, rfl, rfl⟩, rfl, rfl⟩
theorem witness_VectorFloatResults (x y z : VWord) : let s := lanesOf x y z 0 0 0 0
    let o : VFlt := ⟨4, false, .reg 1, .reg 2, false, .sr, 0, .f32⟩
    let p : VBin := ⟨4, false, .reg 1, .reg 2, false, 0, .f32⟩
    let u : VUn := ⟨4, false, .reg 1, 0, .f32⟩
    let m : VFmaOp := ⟨4, false, .reg 1, .reg 2, .reg 3, false, .sr, 0, .f32⟩
    s.Calm ∧ s.srcV o.a = .ok x ∧ s.srcSb o.ty o.sb o.b = .ok y ∧ p = ⟨o.d, o.nw, o.a, o.b, o.sb, o.pg, o.ty⟩ ∧ u = ⟨o.d, o.nw, o.a, o.pg, o.ty⟩
    ∧ m.d = o.d ∧ m.nw = o.nw ∧ m.a = o.a ∧ m.b = o.b ∧ m.sb = o.sb ∧ m.rm = o.rm ∧ m.pg = o.pg ∧ m.ty = o.ty ∧ s.srcV m.c = .ok z :=
  ⟨⟨rfl, rfl, rfl, rfl⟩, rfl, rfl, rfl, rfl, rfl, rfl, rfl, rfl, rfl, rfl, rfl, rfl, rfl⟩
-- elements of f32 that are finite and not zero, and one that is a NaN, in a register of one type; a sum of 1.5 and −0.5 that is not zero
def floats : VWord := BitVec.ofNat 2048 (packNat 32 [0x3FC00000, 0xBF000000, 0x7FC00000])
theorem witness_VectorFloatResults_values : Ty.f32 ∈ [Ty.f16, .bf16, .f32] ∧ Rm.rne ≠ .sr ∧ enabled .f32 (BitVec.allOnes 256) 2 = true
    ∧ FFmt.f32.decode (elem .f32 floats 0) = .fin false 12582912 (-23) false ∧ FFmt.f32.decode (elem .f32 floats 1) = .fin true 8388608 (-24) false
    ∧ FFmt.f32.decode (elem .f32 floats 2) = .nan := by decide +kernel
theorem witness_VectorMoveResults (x y : VWord) (c : PWord) (w i : Word) : let s := lanesOf x y 0 c 0 w i
    let o : VCmpOp := ⟨3, false, .reg 1, .reg 2, false, .lt, 0, .i32⟩
    let q : VTri := ⟨4, false, .reg 1, .reg 2, .reg 1, 0, .i32⟩
    let u : VUn := ⟨4, false, .reg 1, 0, .i32⟩
    let v : VUn := ⟨4, false, .reg 5, 0, .i32⟩
    let n : VTwo := ⟨4, false, .reg 5, .reg 6, 0, .i32⟩
    let e : VTwo := ⟨4, false, .reg 1, .reg 6, 0, .i32⟩
    s.Calm ∧ s.srcV o.a = .ok x ∧ s.srcSb o.ty o.sb o.b = .ok y ∧ s.srcV q.b = .ok y ∧ s.srcP q.c = .ok c ∧ s.srcS v.a = .ok w ∧ s.srcS n.b = .ok i
    ∧ q.a = o.a ∧ u.a = o.a ∧ n.a = v.a ∧ e.a = o.a ∧ e.b = n.b :=
  ⟨⟨rfl, rfl, rfl, rfl⟩, rfl, rfl, rfl, rfl, rfl, rfl, rfl, rfl, rfl, rfl, rfl⟩
-- the last lane of a type, and the first number past it
theorem witness_VectorMoveResults_lane : (63 : Word).toNat < lanes .i32 ∧ lanes .i32 ≤ (64 : Word).toNat := by decide
-- the last vector of the scratchpad
theorem witness_VectorLocalResults : let s := lanesOf 0 0 0 0 0 3145472 0
    let o : VLoc := ⟨4, false, .reg 5, 0, 0, .i8⟩
    s.Calm ∧ s.srcS o.a = .ok 3145472 ∧ ((3145472 : Word).toNat : Int) + 256 * o.imm.toInt = (3145472 : Nat) ∧ 3145472 + 256 ≤ 3145728
    ∧ 3145472 % 256 = 0 ∧ s.myCore.bad = [] := ⟨⟨rfl, rfl, rfl, rfl⟩, rfl, by decide, by decide, by decide, rfl⟩
theorem witness_VectorLocalResults_elements (a b : Word) (y : VWord) : let s := lanesOf 0 y 0 0 0 a b
    let o : VTwo := ⟨4, false, .reg 5, .reg 6, 0, .i32⟩
    let v : VTwo := ⟨4, false, .reg 5, .reg 2, 0, .i32⟩
    s.Calm ∧ s.srcS o.a = .ok a ∧ s.srcS o.b = .ok b ∧ s.srcV v.b = .ok y ∧ v = { o with b := v.b } ∧ s.myCore.bad = [] :=
  ⟨⟨rfl, rfl, rfl, rfl⟩, rfl, rfl, rfl, rfl, rfl⟩
-- element addresses: two enabled elements, one of them the last word of the scratchpad; past it; not aligned
theorem witness_VectorLocalResults_addresses : 
    gives (elemAddrs .i32 (0xFF : PWord) (fun k => (k : Int) * 3145724)) [(0, 0), (1, 3145724)] = true := by decide +kernel
theorem witness_VectorLocalResults_range : enabled .i32 (0xFF : PWord) 1 = true ∧ 3145728 < (3145728 : Int) + (tyBits .i32 / 8 : Nat)
    ∧ (-4 : Int) < 0 ∧ (3145722 : Int).toNat % (tyBits .i32 / 8) ≠ 0 ∧ (3145722 : Int) + (tyBits .i32 / 8 : Nat) ≤ 3145728 := by decide
theorem witness_ReductionResults (x : VWord) (c : PWord) : let s := lanesOf x 0 0 c 0 0 0
    let o : VRed := ⟨4, false, .reg 1, .rne, 0, .f32⟩
    let u : VUn := ⟨4, false, .reg 1, 0, .f32⟩
    let r : VRmrsOp := ⟨4, false, .reg 1, .reg 1, 3, 0, .f32⟩
    s.Calm ∧ s.srcV o.a = .ok x ∧ u.a = o.a ∧ r.a = o.a ∧ s.srcP r.c = .ok c ∧ u.pg = o.pg ∧ u.ty = o.ty :=
  ⟨⟨rfl, rfl, rfl, rfl⟩, rfl, rfl, rfl, rfl, rfl, rfl⟩
theorem witness_ReductionResults_lanes : tyFloat .i32 = none ∧ enabledLanes .i32 (0x10 : PWord) = [1] := by decide
theorem witness_ReductionResults_finite : Ty.f32 ∈ [Ty.f16, .bf16, .f32] ∧ enabledLanes .f32 (0xFF : PWord) = [0, 1]
    ∧ (12582912 : Int) * 2 ^ ((-23 : Int) + 149).toNat + -8388608 * 2 ^ ((-24 : Int) + 149).toNat ≠ 0 := by decide +kernel
theorem witness_PredicateResults (a : PWord) (m : Word) (x : VWord) : let s := lanesOf x 0 0 a 0 m 0
    let p : PElt := ⟨3, false, .reg 1, 0, .i32⟩
    let q : PElt := ⟨3, false, .reg 5, 0, .i32⟩
    let n : VUn := ⟨4, false, .reg 1, 0, .i32⟩
    s.Calm ∧ s.srcP n.a = .ok a ∧ p.a = n.a ∧ s.srcS q.a = .ok m ∧ s.srcV (.reg 1) = .ok x := ⟨⟨rfl, rfl, rfl, rfl⟩, rfl, rfl, rfl, rfl⟩
theorem witness_PredicateLogic (a b : PWord) : let s := lanesOf 0 0 0 a b 0 0
    let o : PBin := ⟨3, false, .reg 1, .reg 2, 0⟩
    let u : PUn := ⟨3, false, .reg 1, 0⟩
    s.Calm ∧ s.srcP o.a = .ok a ∧ s.srcP o.b = .ok b ∧ s.srcP u.a = .ok a := ⟨⟨rfl, rfl, rfl, rfl⟩, rfl, rfl, rfl⟩
theorem witness_PredicateLogic_ty4 : (decodeV 0x500000000010, decodeV 0x550000000010) = (.illegal, .illegal) := by decide
theorem witness_DivisionAndFunctionResults (x y : VWord) : let s := lanesOf x y 0 0 0 0 0
    let o : VUn := ⟨4, false, .reg 1, 0, .f32⟩
    let q : XSqrt := ⟨4, false, .reg 1, .rne, 0, .f32⟩
    let d : XDiv := ⟨4, false, .reg 1, .reg 2, .rne, 0, .f32⟩
    let i : XIDiv := ⟨4, false, .reg 1, .reg 2, true, 0, .i32⟩
    s.Calm ∧ s.srcV o.a = .ok x ∧ q.a = o.a ∧ d.a = o.a ∧ s.srcV d.b = .ok y ∧ s.srcV i.a = .ok x ∧ s.srcV i.b = .ok y :=
  ⟨⟨rfl, rfl, rfl, rfl⟩, rfl, rfl, rfl, rfl, rfl, rfl⟩

/-- The scale latch holds the scales of an f32 register for e4m3. -/
def scaled (x : VWord) : Machine.State := seatedWith fun c => ({ c with scale := 0x800000000000007F7F#72 } : Ctx).writeV 1 x
theorem witness_QuantisationResults (x : VWord) : let s := scaled x
    let m : XMaxexp := ⟨4, false, .reg 1, 0, 0, 0, .f32⟩
    let q : VRed := ⟨4, false, .reg 1, .rne, 0, .e4m3⟩
    let c : XCvt := ⟨4, false, .reg 1, .f32, 0, 0, 0, .f16⟩
    let b : XCbdec := ⟨4, false, .reg 1, 0, 0, .rne, 0, .e4m3⟩
    s.Calm ∧ s.srcV m.a = .ok x ∧ q.a = m.a ∧ c.a = m.a ∧ b.a = m.a ∧ s.srcS (.reg 5) = .ok 0
    ∧ s.iss.entry.scale = 0x800000000000007F7F#72 :=
  ⟨⟨rfl, rfl, rfl, rfl⟩, rfl, rfl, rfl, rfl, rfl, rfl⟩
theorem witness_QuantisationResults_held : encodeTy .f32 = (0x800000000000007F7F#72).extractLsb' 68 4
    ∧ (0x800000000000007F7F#72).extractLsb' 68 4 ≠ 0 ∧ Ty.e4m3 = tgtTy ((0x800000000000007F7F#72).extractLsb' 66 2).toNat := by decide
theorem witness_QuantisationResults_none : seated.iss.entry.scale.extractLsb' 68 4 = 0 ∧ Ty.e5m2 ≠ tgtTy 0 := by decide
-- a block with a greatest element, one with a NaN, one of zeros; a scale byte that is a number, and a conversion to fewer elements
theorem witness_QuantisationResults_blocks : let value := fun i => FFmt.f32.decode (elem .f32 floats i)
    value 2 = .nan ∧ (value 0).isZero = false ∧ (value 1).expOf ≤ (value 0).expOf ∧ (value 16).isZero = true ∧ 3 < lanes .f32 / 16
    ∧ ((0x800000000000007F7F#72).extractLsb' 0 64 >>> (8 * 1)).toNat % 256 ≠ 255 ∧ tyFloat .e4m3 = some .e4m3
    ∧ tyFloat .f16 = some .f16 ∧ encodeRm .rne = BitVec.ofNat 3 0 ∧ lanes .f32 ≤ lanes .f16 ∧ encodeTy .f16 ≠ 0 := by decide +kernel
theorem witness_DivisionAndFunctionResults_values : enabled .f32 (BitVec.allOnes 256) 63 = true ∧ tySigned .i32 = true ∧ tySigned .n32 = false
    ∧ (BitVec.allOnes 256 : PWord).getLsbD (64 * 31 / 8) = true ∧ 31 < 2048 / 64 := by decide
theorem witness_ShuffleResults (x y : VWord) (p q : Word) : let s := lanesOf x y 0 0 0 p q
    let o : XShuf := ⟨4, false, .reg 1, .reg 2, 63, 0, .i8⟩
    let v : VTwo := ⟨4, false, .reg 5, .reg 6, 0, .i32⟩
    s.Calm ∧ s.srcV o.a = .ok x ∧ s.srcV o.b = .ok y ∧ s.srcV (.reg 1) = .ok x ∧ s.srcV (.reg 2) = .ok y ∧ s.srcS v.a = .ok p ∧ s.srcS v.b = .ok q
    ∧ risingKeys s.myCore.pats = true := ⟨⟨rfl, rfl, rfl, rfl⟩, rfl, rfl, rfl, rfl, rfl, rfl, rfl⟩
/-- The context holds the lease of the matrix unit, or shares it. -/
def leased : Machine.State := issuing fun x => { x with mat := { x.mat with holder := some 1 } }
def shared : Machine.State := issuing fun x => { x with mat := { x.mat with share := true } }

theorem leased_calm : leased.Calm := ⟨rfl, rfl, rfl, rfl⟩
theorem leased_seated : leased.Seated := ⟨by decide, by decide, 1, placedUnit, rfl, rfl, rfl, rfl⟩

-- lease mode names every accumulator; ctx1 of a shared unit names the second half
theorem witness_MatrixCommands : leased.Calm ∧ leased.Seated ∧ leased.myCore.mat.share = false ∧ leased.MayUse [] ∧ leased.MayUse [0, 1, 2, 3]
    ∧ shared.myCore.mat.share = true ∧ shared.MayUse [2, 3] ∧ (⟨true, 7, 15, 3, false, 0⟩ : MDesc).rem = true :=
  ⟨leased_calm, leased_seated, rfl, Or.inl rfl, Or.inl rfl, rfl, ⟨by decide, by decide⟩, rfl⟩

/-- Queue 3 holds four slots of four rows, of which one is present; s5 and s6 are operands. -/
def queueOf (y : Queue) (a b : Word) : Machine.State := seatedWith fun c => sregs [(5, a), (6, b)] (c.setQueue 3 y)
def shaped : Queue := { Queue.cleared with cfg := true, slotsz := 3, log2n := 2, tail := 1, pres := 1 }
def empty : Queue := { shaped with tail := 0, pres := 0 }

theorem queueOf_calm (y : Queue) (a b : Word) : (queueOf y a b).Calm := ⟨rfl, rfl, rfl, rfl⟩
theorem queueOf_seated (y : Queue) (a b : Word) : (queueOf y a b).Seated := ⟨(by decide : 0 < 512), (by decide : 1 < 4), 1, placedUnit, rfl, rfl, rfl, rfl⟩
theorem queueOf_read (y : Queue) (a b : Word) : let s := queueOf y a b
    s.iss.entry.queue 3 = y ∧ s.me.queue 3 = y ∧ s.srcS (.reg 5) = .ok a ∧ s.srcS (.reg 6) = .ok b ∧ s.iss.ctx < 4 := ⟨rfl, rfl, rfl, rfl, (by decide : 1 < 4)⟩

/-- The same, with the lease. -/
def appending : Machine.State :=
  issuing fun x => { x.setCtx 1 (x.ctxs[1].setQueue 3 empty) with mat := { x.mat with holder := some 1 } }
theorem witness_MatrixCommands_queue : appending.Calm ∧ appending.Seated ∧ appending.MayUse [0] ∧ appending.iss.entry.queue 3 = appending.me.queue 3
    ∧ appending.me.queue 3 = empty ∧ empty.cfg = true ∧ empty.spi = false ∧ empty.spo = false ∧ empty.ref = 0 ∧ empty.opn = false :=
  ⟨⟨rfl, rfl, rfl, rfl⟩, ⟨by decide, by decide, 1, placedUnit, rfl, rfl, rfl, rfl⟩, Or.inl rfl, rfl, rfl, rfl, rfl, rfl, rfl, rfl⟩
-- the last place of an accumulator's image, and a partner unit
theorem witness_MatrixCommands_image : gives (imageAddr (BitVec.ofNat 64 (3145728 - accImageSize)) 0) (3145728 - accImageSize) = true := by decide
theorem witness_MatrixCommands_partner : let s := { leased with units := put leased.units 1 { placedUnit with partner := some 2 } }
    s.MayUse [1] ∧ s.unit s.myUnit = some { placedUnit with partner := some 2 } := ⟨Or.inl rfl, rfl⟩

theorem witness_LeaseResults : seated.Calm ∧ seated.myCore.mat.share = false ∧ seated.myCore.mat.holder ≠ some seated.iss.ctx
    ∧ seated.iss.ctx ∉ seated.myCore.mat.requests ∧ leased.myCore.mat.holder = some leased.iss.ctx ∧ shared.myCore.mat.share = true :=
  ⟨⟨rfl, rfl, rfl, rfl⟩, rfl, by decide, by decide, rfl, rfl⟩

-- a queue that ends with the scratchpad, one that does not fit, one that is in use
theorem witness_QueueConfiguration : let s := queueOf Queue.cleared 0x2BF800 0
    let o : QcfgOp := ⟨3, .reg 5, false, 3, 0, 0x400⟩
    s.Calm ∧ s.iss.ctx < 4 ∧ s.srcS o.a = .ok 0x2BF800 ∧ (o.base256.toNat * 256 + (0x2BF800 : Word).toNat) % 256 = 0
    ∧ o.base256.toNat * 256 + (0x2BF800 : Word).toNat + 2 ^ o.log2n.toNat * (o.slotsz.toNat + 1) * 256 = 3145728 ∧ o.log2n.toNat ≤ 8 :=
  ⟨queueOf_calm _ _ _, by decide, rfl, by decide, by decide, by decide⟩
theorem witness_QueueConfiguration_refused : ¬ 0x400 * 256 + 0x2BF900 + 2 ^ 3 * (0 + 1) * 256 ≤ 3145728 ∧ ¬ (9 : BitVec 4).toNat ≤ 8
    ∧ (shaped.cfg = true ∧ shaped.tail ≠ shaped.free) := by decide

theorem witness_QueueReads (a : Word) : let s := queueOf shaped a 0
    let o : QrdOp := ⟨3, 4, 0, true, .reg 5, 0⟩
    s.Calm ∧ o.q = 3 ∧ s.srcS o.a = .ok a ∧ shaped.cfg = true ∧ shaped.spo = false ∧ s.myCore.bad = [] :=
  ⟨queueOf_calm _ _ _, rfl, rfl, rfl, rfl, rfl⟩
-- the last row of a slot, and the first row past it; a queue that sends
theorem witness_QueueReads_rows : (3 : Word).toNat + (0 : BitVec 8).toNat ≤ shaped.slotsz.toNat ∧ shaped.slotsz.toNat < (3 : Word).toNat + (1 : BitVec 8).toNat
    ∧ Queue.cleared.cfg = false ∧ { shaped with spo := true }.spo = true := by decide
theorem witness_QueueWrites (a : Word) : let s := queueOf empty a 0
    let o : QwrOp := ⟨3, .reg 5, .reg 1, true, true, 0, 0⟩
    s.Calm ∧ s.srcS o.a = .ok a ∧ s.srcV o.b = .ok 0 ∧ s.iss.entry.queue o.q.val = s.me.queue o.q.val ∧ s.iss.ctx < 4 ∧ s.me.queue 3 = empty
    ∧ empty.opn = false ∧ o.o = true ∧ (empty.cfg, empty.spi, empty.spo, empty.ref) = (true, false, false, 0) :=
  ⟨queueOf_calm _ _ _, rfl, rfl, rfl, (by decide : 1 < 4), rfl, rfl, rfl, rfl⟩
theorem witness_QueueWrites_open : let y := { empty with tail := 1, opn := true }
    (y.cfg, y.spi, y.spo, y.ref) = (true, false, false, 0) ∧ y.opn = !false ∧ y.opn = true ∧ y.okind = false ∧ 3 ≤ y.slotsz.toNat := by decide
theorem witness_QueueWrites_vector (e : Word) : let s := queueOf { empty with slotsz := 0 } e 0
    let o : VPushOp := ⟨.reg 1, 3, true, 0, .i32⟩
    let p : VPopOp := ⟨4, false, .reg 5, 3, 0, true, 0, .i32⟩
    s.Calm ∧ p.q = o.q ∧ s.srcV o.a = .ok 0 ∧ s.srcS p.a = .ok e ∧ s.iss.entry.queue 3 = { empty with slotsz := 0 } ∧ s.myCore.bad = [] :=
  ⟨queueOf_calm _ _ _, rfl, rfl, rfl, rfl, rfl⟩
theorem witness_QueueWrites_refused : shaped.slotsz ≠ 0 ∧ Queue.cleared.cfg = false
    ∧ (let y := { empty with slotsz := 0, opn := true }; y.cfg = true ∧ y.slotsz = 0 ∧ y.opn = true ∧ y.okind = false) := by decide

theorem witness_QueueControl : let s := queueOf empty 3145472 0
    let o : QMemOp := ⟨3, .reg 5, 0⟩
    s.Calm ∧ s.Seated ∧ s.srcS o.a = .ok 3145472 ∧ ((3145472 : Word).toNat : Int) + o.imm.toInt = (3145472 : Nat) ∧ 3145472 % 256 = 0
    ∧ 3145472 + 256 ≤ 3145728 ∧ (empty.cfg, empty.spo, empty.spi, empty.opn) = (true, false, false, false) ∧ empty.head = empty.free
    ∧ empty.free = empty.tail ∧ s.myCore.bad = [] ∧ placedUnit.spliceOut = [] :=
  ⟨queueOf_calm _ _ _, queueOf_seated _ _ _, rfl, by decide, by decide, by decide, rfl, rfl, rfl, rfl, rfl⟩
theorem witness_QueueControl_restore : queueOfImage shaped.image = some shaped := by decide +kernel
theorem witness_QueueControl_image : shaped.cfg = true ∧ shaped.log2n.toNat ≤ 8 ∧ shaped.base.toNat % 256 = 0
    ∧ shaped.base.toNat + shaped.slots * shaped.slotBytes ≤ 3145728 ∧ (shaped.tail - shaped.head).toNat ≤ shaped.slots ∧ shaped.free = shaped.head
    ∧ shaped.fill = 0 ∧ (∀ i < 256, shaped.pres.getLsbD i = true → i = 0) ∧ shaped.spo = false ∧ shaped.spi = false ∧ shaped.ref = 0 := by decide +kernel

/-- Entry 1023 of the tag table holds the key 7. -/
def tagged : Machine.State := issuing fun x => { x.setCtx 1 (sregs [(5, 7), (6, 1023), (7, 1024)] x.ctxs[1]) with tags := [(1023, 7)] }
theorem witness_TagsAndCopies_tags : tagged.Calm ∧ tagged.srcS (.reg 5) = .ok 7 ∧ tagged.srcS (.reg 6) = .ok 1023 ∧ tagged.srcS (.reg 7) = .ok 1024
    ∧ risingKeys tagged.myCore.tags = true ∧ (∀ x ∈ tagged.myCore.tags, x.1 < 1024) ∧ tagged.iss.ctx < 4 ∧ (1023 : Word).toNat < 1024
    ∧ 1024 ≤ (1024 : Word).toNat := ⟨⟨rfl, rfl, rfl, rfl⟩, rfl, rfl, rfl, rfl, by decide, by decide, by decide, by decide⟩
-- one row of 1,024 bytes: a slot of the queue
theorem witness_TagsAndCopies : let s := queueOf empty 0x1000 0x400
    let d : CopyDesc := ⟨((0x400 : Word).extractLsb' 25 39).toInt, ((0x400 : Word).extractLsb' 17 8).toNat + 1, ((0x400 : Word).extractLsb' 0 17).toNat⟩
    s.Calm ∧ s.Seated ∧ s.srcS (.reg 5) = .ok 0x1000 ∧ s.srcS (.reg 6) = .ok 0x400 ∧ s.srcS (.reg 0) = .ok 0 ∧ 0 < d.rowb ∧ d.rowb ≤ 65536
    ∧ d.rows * d.rowb ≤ empty.slotBytes ∧ s.iss.entry.queue 3 = s.me.queue 3 ∧ (s.cpllRows s.iss.core 0x1000 d).isOk = true
    ∧ (0 : Word).toNat % 4 = 0 ∧ (0 : Word).toNat + 4 * d.rows ≤ 3145728 :=
  ⟨queueOf_calm _ _ _, queueOf_seated _ _ _, rfl, rfl, rfl, by decide, by decide, by decide, rfl, by decide +kernel, by decide, by decide⟩
theorem witness_TagsAndCopies_ranges : (0x1000 : Word).toNat + (0x400 : Word).toNat ≤ (0x1400 : Word).toNat ∧ (0x400 : Word).toNat < 2 ^ 40
    ∧ 2 ^ 40 ≤ (0x10000000000 : Word).toNat := by decide

theorem witness_IntegratorCommands (a b : Word) : let s := operands a b 0
    s.Calm ∧ s.Seated ∧ s.srcS (.reg 5) = .ok a ∧ s.srcS (.reg 6) = .ok b ∧ s.srcV (.reg 1) = .ok 0 ∧ s.myCore.dda.owner = none :=
  ⟨⟨rfl, rfl, rfl, rfl⟩, operands_seated a b 0, rfl, rfl, rfl, rfl⟩
-- the last image of the array that the scratchpad holds, the last patch entry, the last cell, the greatest divisor and count
theorem witness_IntegratorCommands_ranges : 3128832 + 16896 = 3145728 ∧ 3128832 % 256 = 0
    ∧ 3145720 + 8 * ((0 : BitVec 11).toNat + 1) = 3145728 ∧ 3145720 % 8 = 0 ∧ (510 : Word).toNat + (1 : BitVec 9).toNat < 512
    ∧ (65536 : Word).toNat ≤ 65536 ∧ (65536 : Word) ≠ 0 ∧ (0xFFFFFFFF : Word).toNat < 2 ^ 32 ∧ (448 : BitVec 9).toNat ≤ 448
    ∧ -(2 ^ 31) ≤ (0xFFFFFFFF80000000 : Word).toInt ∧ (0x7FFFFFFF : Word).toInt ≤ 2 ^ 31 - 1 := by decide
theorem witness_IntegratorCommands_busy : let s := issuing fun x => { x with dda := { x.dda with owner := some 9 } }
    s.Calm ∧ s.Seated ∧ s.myCore.dda.owner = some 9 ∧ 9 ≠ s.myUnit :=
  ⟨⟨rfl, rfl, rfl, rfl⟩, ⟨by decide, by decide, 1, placedUnit, rfl, rfl, rfl, rfl⟩, rfl, by decide⟩
theorem witness_IntegratorCommands_counts : let s := queueOf empty 0 0
    let o : DcntOp := ⟨3, true, 256, 3⟩
    s.Calm ∧ s.Seated ∧ s.iss.entry.queue o.q.val = s.me.queue o.q.val ∧ s.myCore.dda.owner = none ∧ o.cell.toNat + 64 * (o.rows.val + 1) = 512
    ∧ (empty.cfg, empty.spi, empty.spo, empty.opn) = (true, false, false, false) ∧ empty.ref = 0 ∧ o.rows.val + 1 ≤ empty.slotsz.toNat + 1 :=
  ⟨queueOf_calm _ _ _, queueOf_seated _ _ _, rfl, rfl, rfl, rfl, rfl, by decide⟩

/-- A static context of the core in column `col`, with a word at its place of stream 2 and a queue of one-row slots. -/
def streaming : Machine.State :=
  { queueOf { empty with slotsz := 0 } 0 0 with
    units := put seated.units 1 { placedUnit with static := true }
    streams := [(streamKey 0 true 2 0, 5)] }
theorem witness_StreamAndCollectiveResults : streaming.Calm ∧ streaming.Seated ∧ streaming.srcV (.reg 1) = .ok 0
    ∧ streaming.iss.entry.queue 3 = streaming.me.queue 3 ∧ streaming.isStatic streaming.iss.core streaming.iss.ctx = true
    ∧ find streaming.streams (streamKey streaming.iss.core true 2 (streaming.iss.core % 16)) = some 5 ∧ streaming.iss.core % 16 = 0
    ∧ (streaming.me.queue 3).slotsz = 0 ∧ seated.isStatic seated.iss.core seated.iss.ctx = false :=
  ⟨⟨rfl, rfl, rfl, rfl⟩, ⟨by decide, by decide, 1, { placedUnit with static := true }, rfl, rfl, rfl, rfl⟩, rfl, rfl, rfl, by decide +kernel, by decide, rfl, rfl⟩
theorem witness_StreamAndCollectiveResults_record (a b : Word) : let s := operands a b 0
    s.Calm ∧ s.Seated ∧ s.srcS (.reg 5) = .ok a ∧ s.srcS (.reg 6) = .ok b := ⟨⟨rfl, rfl, rfl, rfl⟩, operands_seated a b 0, rfl, rfl⟩
theorem witness_StreamAndCollectiveResults_result : ((3145712 : Word).toNat : Int) + (0 : BitVec 13).toInt = (3145712 : Nat) ∧ 3145712 + 16 ≤ 3145728
    ∧ 3145712 % 16 = 0 := by decide
/-- One write in flight, to a register of a class, due at a context cycle. -/
def flying (cls : RegCls) (num due : Nat) : Flight := ⟨due, .s0, some cls, num, false, 5, BitVec.allOnes 256, 1, none, true, 0, 0⟩
def inFlight (f : Flight) : Machine.State := seated.onCtx 0 1 fun c => { c with cc := 9, flights := [f] }
theorem witness_FixedLatencyLands : ∀ f ∈ [flying .s 31 9, flying .v 0 9, flying .p 15 9],
    ((inFlight f).ctx 0 1).flights = [f] ∧ f.due ≤ ((inFlight f).ctx 0 1).cc ∧ f.cls.isSome = true ∧ f.num < (if f.cls = some .p then 16 else 32) := by
  decide +kernel
theorem witness_FixedLatencyLands_later : ∀ f ∈ ((inFlight (flying .s 4 10)).ctx 0 1).flights, ((inFlight (flying .s 4 10)).ctx 0 1).cc < f.due := by
  decide +kernel

/-- The resident unit has a command, a landing or more besides. -/
def unitWith (f : Machine.Unit → Machine.Unit) : Machine.State := { seated with units := put seated.units 1 (f placedUnit) }
def holding (z : Cmd) : Machine.State := unitWith fun x => { x with cmds := [z], open_ := [(z.eng, z.n)] }
def cmd (e : Engine) (op : Instr) (st : Stage) (due : Nat) : Cmd := { Cmd.blank e op with n := 1, place := 4, stage := st, due }

def landing (e : Option (Engine × Nat)) : Landing := ⟨0, .s, 4, e, some (7, BitVec.allOnes 256, 0), 0⟩
theorem witness_LsuEvents_landing : ∀ e ∈ [none, some (Engine.mat, 1)], let s := unitWith fun x => { x with landings := [landing e] }
    s.landing 1 0 = some (landing e) ∧ (landing e).ready.isSome = true ∧ s.landBlocked 1 (landing e) = false ∧ (landing e).due ≤ s.now := by
  decide +kernel
theorem witness_LsuEvents_store : let z := cmd .lsu (.stg ⟨4, .reg 5, 0, .w, .ctx, false⟩) .taken 0
    (holding z).unit 1 = some { placedUnit with cmds := [z], open_ := [(.lsu, 1)] } ∧ Unit.cmd { placedUnit with cmds := [z] } .lsu 1 = some z
    ∧ lsuReads z.op = false ∧ z.stage = .taken ∧ z.parts = [] := ⟨rfl, rfl, rfl, rfl, rfl⟩
theorem witness_LsuEvents_start : let z := cmd .lsu (.spawn 4 (.reg 5) (.reg 0)) .queued 0
    (holding z).cmd 1 .lsu 1 = some z ∧ z.stage = .queued ∧ z.due ≤ (holding z).now := ⟨rfl, rfl, by decide⟩
theorem witness_LsuEvents_finish : let s := holding (cmd .lsu (.spawn 4 (.reg 5) (.reg 0)) .effected 0)
    s.unit 1 ≠ none ∧ (s.ctx placedUnit.core placedUnit.ctx).unit = some 1 ∧ placedUnit.ctx < 4 := by decide +kernel

/-- A unit of core 0 with a command of the matrix unit, which it leases. -/
def matrix (z : Cmd) : Machine.State := { holding z with cores := (issuing fun x => { x with mat := { x.mat with holder := some 1 } }).cores }
theorem witness_EngineEvents_matrix_start : (matrix (cmd .mat (.accz 1) .queued 0)).matNext 0 0 = some (.start 1 (cmd .mat (.accz 1) .queued 0)) := by
  decide +kernel
theorem witness_EngineEvents_matrix_begin : (matrix (cmd .mat (.accz 1) .taken 0)).matNext 0 0 = some (.begin_ 1 (cmd .mat (.accz 1) .taken 0)) := by
  decide +kernel
theorem witness_EngineEvents_matrix_done : ∀ st ∈ [Stage.effected, .taken], let z := { cmd .mat (.accz 1) st 1 with limit := 0 }
    let s := { matrix z with now := 1 }
    (s.engineCmds 0 .mat).find? (fun p => decide (p.2.place = 4)) = some (1, z) ∧ (s.unit 1).map (fun x => s.matReady 1 x z) = some true
    ∧ isPmma z.op = false := by decide +kernel
def f : Fetch := ⟨1, 1, 16, 0, 0, []⟩
theorem witness_EngineEvents_remote : let z := { cmd .mat (.mma ⟨⟨true, 0, 1, 0, false, 0⟩, ⟨false, 0, 2, 0, false, 0⟩, 0, false, 0, 0⟩) .taken 0 with fetch := some f }
    let s := fun (due : Nat) => (matrix z).onCore 0 fun x => { x with remote := [⟨0, 4, 0, 0, due⟩] }
    (∀ r ∈ ((s 9).core 0).remote, (s 9).now < r.due) ∧ ((s 0).core 0).remote = [⟨0, 4, 0, 0, 0⟩]
    ∧ ((s 0).engineCmds 0 .mat).find? (fun p => decide (p.2.place = 4) && decide (p.2.stage = .taken)) = some (1, z)
    ∧ ((s 0).sliceBytes z 0 0).isOk = true ∧ (let z := { z with fetch := some { f with got := [(0, 0)] } }; (matrix z).matNext 0 0 = some (.slice 1 z)) := by
  decide +kernel
theorem witness_EngineEvents_copy : let z := cmd .cpy (.cpmem ⟨.reg 5, .reg 6, .reg 7, false, false⟩) .queued 0
    (holding z).copyNext 0 = some (1, z) ∧ ((holding z).cmd 1 .cpy 1).isSome = true := by decide +kernel
theorem witness_EngineEvents_copy_done : let z := cmd .cpy (.cpmem ⟨.reg 5, .reg 6, .reg 7, false, false⟩) .taken 0
    Unit.cmd { placedUnit with cmds := [z] } .cpy 1 = some z ∧ z.stage = .taken := ⟨rfl, rfl⟩
theorem witness_EngineEvents_integrator : (holding (cmd .dda (.dinj (.reg 1)) .taken 0)).ddaNext 0 = some (.finish 1 (cmd .dda (.dinj (.reg 1)) .taken 0))
    ∧ (holding (cmd .dda (.dinj (.reg 1)) .taken 0)).ddaRuns 0 = true ∧ (seated.core 0).dda.step seated.now = ((seated.core 0).dda.step seated.now)
    ∧ ((seated.core 0).dda.step seated.now).2 = [] := by decide +kernel

/-- The second command of a pair, whose wait ends at core cycle 9. -/
def paired (st : Stage) : Cmd := { cmd .mat (.pmma ⟨⟨false, 0, 1, 0, false, 0⟩, ⟨false, 0, 2, 0, false, 0⟩, 0, false, 0, 0, true⟩) st 0 with limit := 9 }
theorem witness_EngineEvents_pair : ∀ st ∈ [Stage.taken, .faulted], Unit.pair { placedUnit with cmds := [paired st] } 0 = some (paired st) := by decide +kernel
theorem witness_EngineEvents_pair_over : ({ placedUnit with pairs := 1 }).pair 0 = none ∧ 0 < ({ placedUnit with pairs := 1 }).pairs ∧ placedUnit.pairs ≤ 0 := by
  decide +kernel
theorem witness_EngineEvents_pair_limit : (paired .taken).stage = .taken ∧ (paired .taken).limit ≠ 0 ∧ (holding (paired .taken)).now < (paired .taken).limit
    ∧ (paired .taken).limit ≤ ({ holding (paired .taken) with now := 9 } : Machine.State).now ∧ (∀ p ∈ placedUnit.pairIn, p.1 ≠ 0)
    ∧ (∀ a ∈ seated.agenda, a.2 ≠ .pairCommitArrive 1 0) := by decide +kernel

/-- Two units of one core, in ctx1 and ctx2; queue 3 of each is configured, and the first sends to the second. -/
def splicing (y z : Queue) : Machine.State :=
  let s := seated
  let o : Machine.Unit := { placedUnit with spliceOut := [(3, ⟨2, 3, 0⟩, 4)], deliveries := 1 }
  let t : Machine.Unit := { placedUnit with ctx := 2, spliceIn := [(3, ⟨1, 3, 0⟩)] }
  { s with
    units := put (put s.units 1 o) 2 t
    cores := put s.cores 0 (((s.core 0).setCtx 1 (((s.core 0).ctx 1).setQueue 3 y)).setCtx 2 ((((s.core 0).ctx 2).placed 2).setQueue 3 z)) }
def send : QEnd := ⟨1, 3, 0⟩
def take : QEnd := ⟨2, 3, 0⟩
theorem witness_SpliceEvents : let s := splicing { empty with spo := true } { empty with spi := true }
    (s.unit 1).map (fun x => (x.core, x.ctx, x.spliceOut)) = some (0, 1, [(3, take, 4)]) ∧ (s.unit 2).map (fun x => (x.core, x.ctx)) = some (0, 2)
    ∧ (s.ctx 0 1).unit = some send.unit ∧ (s.ctx 0 2).unit = some take.unit ∧ send.queue < 16 ∧ take.queue < 16 := by decide +kernel
-- a request that names ctx2's queue 3 is granted when that queue is empty and of the same shape, and refused when it is not configured
theorem witness_SpliceEvents_granted : (match (splicing empty { empty with rx := true }).judge send (BitVec.ofNat 64 (2048 * 3 + 512 * 2)) empty.slotsz with
    | .ok e => e
    | .error _ => send) = take := by decide +kernel
theorem witness_SpliceEvents_refused : ((splicing empty Queue.cleared).judge send (BitVec.ofNat 64 (2048 * 3 + 512 * 2)) empty.slotsz).isOk = false := by decide +kernel
/-- One page: the table at physical 0x1000 is its own next level at every level, and its entry 0 maps address 0 to itself, writable
and accessed; ASID 0 walks from it. -/
def world (s : Machine.State) : Machine.State :=
  { s with
    mem := [(2 ^ 52 + 0x1000, 0x67), (2 ^ 52 + 0x1001, 0x10)]
    asids := [(0, ⟨0x1001, 0, 0x80000005, 0⟩)]
    dtlb := [(0, [⟨0, 0, 4096, 0x1000, false, true, true, 0⟩])] }

/-- Whether a piece of device work is done, and its answer passes. -/
def done {α ε : Type} (r : Except ε α × Machine.State) (p : α → Bool) : Bool :=
  match r.1 with
  | .ok a => p a
  | .error _ => false

/-- A header of a lossy record of one level and two ranks, and its record at Halyard. -/
def header : CollHdr :=
  { op := 0, lossy := true, elt := 0, tag := 9, pb := 128, pr := 0, sbase := 0, dbase := 0x800, mask := 0, deadline := 50, xbytes := 128, srank := 0
    levels := [⟨1, 0, 0, 0⟩], group := [⟨0, 0⟩, ⟨0, 1⟩] }
def record (st : HStage) (d : Option CollHdr) : HalRec :=
  { die := 0, rid := 3, unit := 1, asid := 0, gang := none, n := 1, pc := 0, va := 0, rank := 0, stage := st, hdr := d, fresh := d.isSome, started := 0, blocks := []
    invalid := 0, written := false, dones := [], told := false, untold := [], fl := 0, ended := 0, cancelled := false }
def gathering (h : HalRec) : Machine.State := world { seated with halyard := [h] }
def asked : CollReq := { die := 1, key := ⟨false, 0, 9⟩, server := 0, requester := ⟨0, 1⟩, rid := 4, xfer := 0, src := 0, bytes := 128 }
theorem witness_CollectiveEvents_start : ∀ c ∈ [false, true], let h := { record .accepted none with cancelled := c }
    let s := gathering h
    s.hal 3 = some h ∧ s.collWaiting 0 = [] ∧ (∀ g ∈ s.halyard, s.collWritable g = false ∧ g.hdr = none) ∧ s.collNext 0 = some h := by decide +kernel
theorem witness_CollectiveEvents_request : asked ∉ (gathering (record .running (some header))).collHeld
    ∧ (gathering (record .accepted none)).server asked = none ∧ (gathering (record .accepted none)).servedOut asked = false
    ∧ (gathering (record .running (some header))).server asked = some (record .running (some header))
    ∧ (gathering (record .running (some header))).halMay (record .running (some header)) false = true ∧ canonical asked.src = true
    ∧ canonical (0x0080000000000000 : Word) = false := by decide +kernel
theorem witness_CollectiveEvents_request_waits : let s := world { unitWith (fun x => { x with
      cmds := [{ cmd .lsu (.ldg ⟨4, .reg 5, 0, .i32, .ctx, true⟩) .queued 0 with acquire := true }, { cmd .col (.coll (.reg 5) (.reg 6)) .taken 0 with before := 1, after := 1 }] })
      with halyard := [record .running (some header)] }
    s.server asked = some (record .running (some header)) ∧ s.halMay (record .running (some header)) false = false := by decide +kernel
theorem witness_CollectiveEvents_served : (match ((gathering (record .running (some header))).paged ⟨.collRequestArrive asked, .r, none⟩ 0 0 (va56 asked.src)
    asked.bytes 5).1 with
    | .ok _ => true
    | _ => false) = true := by decide +kernel
theorem witness_CollectiveEvents_block : let h := record .running (some header)
    (gathering h).hal 3 = some h ∧ h.hdr = some header ∧ h.stage = .running ∧ h.fresh = true ∧ header.lossy = true ∧ header.deadline ≠ 0
    ∧ h.started + header.deadline ≤ ({ gathering h with now := 50 } : Machine.State).now
    ∧ (({ gathering h with now := 50 } : Machine.State).halyard.find? fun h => decide (h.die = 0) && decide (h.stage ≠ .complete) && h.answers ⟨false, 0, 9⟩
        && !h.dones.contains 1) = some h ∧ (∀ g ∈ (gathering h).halyard, g.die ≠ 1) := by decide +kernel
-- the record lacks its only block, and does not
theorem witness_CollectiveEvents_settles : ∀ v ∈ [none, some (List.replicate 128 (7 : Byte))], let s := gathering (record .running (some header))
    let t := s.settle 3 0 v
    (t.hal 3).isSome = true ∧ (t.hal 3).any (fun g => (find g.blocks 0 == some v) && t.collWritable g) = true := by decide +kernel
theorem witness_CollectiveEvents_settles_some : let d := { header with pr := 1, xbytes := 256 }
    let t := (gathering (record .running (some d))).settle 3 0 none
    (t.hal 3).any (fun g => t.collWritable g) = false ∧ (t.hal 3).isSome = true := by decide +kernel

/-- A walk that one operation waits for, and a page request that it waits for. -/
def waiter : Waiter := ⟨.ifetchFill 0 1, .x, some 0⟩
theorem witness_TranslationEvents_walk : let w : Walk := ⟨8, 0, 0, 0, true, [waiter]⟩
    let s := world { seated with walks := [w] }
    (s.walks.find? fun w => decide (w.die = 0) && decide (w.id = 8)) = some w
    ∧ s.servedWalks w = [w]
    ∧ (match ((({ s with walks := [] } : Machine.State).serve waiter.retry w.page waiter.right).walkNow 0 w.asid w.page waiter.right).1 with
      | .ok _ _ => true
      | _ => false) = true := by decide +kernel
theorem witness_TranslationEvents_request : let r : PageReq := ⟨0, 5, 0x3000, .r, some 0, [waiter]⟩
    let s := { seated with pageReqs := [r], now := 0x01000000 }
    (s.takeRequest 0 0x3000 .r).1 = some r ∧ r.sent = some 0 ∧ s.regs.prqto.extractLsb' 0 32 ≠ 0 ∧ 0 + (s.regs.prqto.extractLsb' 0 32).toNat ≤ s.now := by decide +kernel
theorem witness_TranslationEvents_waits : ({ seated.regs with prqto := 0 } : Regs).prqto.extractLsb' 0 32 = 0
    ∧ (let s := { seated with pageReqs := [⟨0, 5, 0x3000, .r, some 1, [waiter]⟩], now := 0x01000000 }
       ∀ r ∈ s.pageReqs, ∀ since ∈ r.sent, s.now < since + (s.regs.prqto.extractLsb' 0 32).toNat) := by decide +kernel
theorem witness_TranslationEvents_fetch : let s := world (seatedWith fun x => { x with pc := 512 })
    (s.ctx 0 1).unit = some 1 ∧ s.fetched 0 1 = .missing 512
    ∧ (match (s.access ⟨fetchEvent 0 1, .x, some 0⟩ (dieOf 0) (s.ctx 0 1).csr.asidcur.toNat 512).1 with
      | .ok _ _ => true
      | _ => false) = true := by decide +kernel
theorem witness_TranslationEvents_invalidate : ((0 : Nat), (⟨0x1001, 0, 0x80000005, 0⟩ : AsidEntry)) ∈ (world seated).asids
    ∧ AsidEntry.pasid ⟨0x1001, 0, 0x80000005, 0⟩ = 5 := by decide
theorem witness_CoherenceEvents : risingKeys seated.l2 = true ∧ (seated.homeOf 0x1000).isHost = true ∧ risingKeys [((0 : Nat), ()), (4, ())] = true := by decide
/-- A window of device memory at 1 TiB, which the host's port 0 names. -/
def windowed : Machine.State :=
  { seated with
    regs := { seated.regs with hbmwin := 0x8000010000000000 }
    ports := Vector.replicate 2 { Port.reset with hdm := [(0, 0x400)] } }
theorem witness_CoherenceEvents_window : find (windowed.ports[(0 : Fin 2)]).hdm 0 = some 0x400
    ∧ (match windowed.homeOf 0x10000000000 with
      | .hbm .. => true
      | _ => false) = true := by decide +kernel

/-- A launch of ASID 0 placed in ctx1 and ctx2 of core 0. -/
def placed : Launch := { aLaunch with record := some ⟨false, none, 0, 65536, 1024, 64, [⟨0, 1, 4, false, 0, 255, 0, 4096⟩]⟩ }
def waitingUnit : Machine.Unit := { placedUnit with started := false, queued := some 0, number := 1, args := [1, 2, 3, 4, 5, 6, 7, 8] }
/-- The context is free, and a unit waits for it. -/
def vacant : Machine.State :=
  { (seatedWith fun x => { x with unit := none }) with units := [(2, waitingUnit)], launches := [(0, placed)] }
theorem witness_FirstResidence : vacant.refillDue 0 1 = true ∧ vacant.firstHead 0 1 = some 2 ∧ vacant.unit 2 = some waitingUnit
    ∧ waitingUnit.saved = none ∧ waitingUnit.args.length ≤ 8 ∧ find vacant.launches waitingUnit.launch = some placed ∧ placed.record.isSome = true := by
  decide +kernel

/-- The context's unit runs, another waits for the context; `on` says whether switching is enabled. -/
def contended (on : Bool) (f : Ctx → Ctx) : Machine.State :=
  { seatedWith f with
    units := [(1, { placedUnit with queued := none }), (2, waitingUnit)]
    launches := [(0, placed)]
    regs := { State.reset.regs with savebase := if on then 1 else 0 } }
theorem witness_ArbiterEvents_slice : (contended true id).sliceDue 0 1 = true ∧ (contended true id).isStatic 0 1 = false
    ∧ (contended true id).settled.firstHead 0 1 = none ∧ ({ contended true id with now := 1 } : Machine.State).settled.firstHead 0 1 = some 2
    ∧ ({ contended true id with now := 1 } : Machine.State).sliceDue 0 1 = true ∧ (contended true id).switchable = true ∧ (contended false id).sliceDue 0 1 = true
    ∧ (contended false id).switchable = false ∧ static.sliceDue 0 1 = true ∧ static.isStatic 0 1 = true := by decide +kernel
theorem witness_ArbiterEvents_overrun : let s := { contended true id with now := 70000 }
    s.overrunDue 0 1 = true ∧ (s.ctx 0 1).switch = none ∧ ({ static with now := 70000 } : Machine.State).overrunDue 0 1 = true := by decide +kernel
theorem witness_ArbiterEvents_save : let s := contended true fun x => { x with switch := some (0, some 2), draining := some 0 }
    s.drainDue 0 1 = true ∧ (s.ctx 0 1).unit = some 1 ∧ (s.unit 1).isSome = true := by decide +kernel
theorem witness_ArbiterEvents_forced : let s := { (contended true fun x => { x with switch := some (0, some 2) }) with now := 8193 }
    s.forcedDue 0 1 = true ∧ (s.ctx 0 1).unit = some 1 ∧ (s.unit 1).isSome = true := by decide +kernel
/-- The unit that the pending switch picks has run before; the other's save is complete. -/
def returning : Machine.State :=
  { (contended true fun x => { x with unit := none, saving := some 1, switch := some (0, some 2) }) with
    units := [(1, { placedUnit with queued := none }), (2, { waitingUnit with started := true, saved := some ⟨Ctx.cleared, false, 0, 0, [], none⟩ })] }
theorem witness_ArbiterEvents_restore : returning.restoreDue 0 1 = true ∧ (returning.ctx 0 1).saving = some 1 ∧ (returning.ctx 0 1).switch = some (0, some 2)
    ∧ (returning.unit 2).any (fun w => returning.mayTake 0 1 (2, w) && w.saved.any fun b => decide (b.acc = 0)) = true := by decide +kernel

theorem witness_UnitEvents_bank : let s := { (seatedWith fun x => { x with unit := none }) with now := 4096 }
    let x := s.ctx 0 1
    x.bank = .on ∧ x.unit = none ∧ x.saving = none ∧ x.idleSince + 4096 ≤ s.now
    ∧ ((seatedWith fun x => { x with bank := .rousing 0 }).ctx 0 1).bank = .rousing 0
    ∧ ((seatedWith fun x => { x with bank := .waking 0 }).ctx 0 1).bank = .waking 0 := by decide +kernel
theorem witness_UnitEvents_async : let a : AsyncTrap := ⟨⟨3, 5, 0, none, none⟩, 0, .mat, 1, 0⟩
    let s := unitWith fun x => { x with asyncs := [a] }
    s.asyncDue 0 1 = true ∧ (s.ctx 0 1).unit = some 1 ∧ ((s.unit 1).bind fun y => firstAsync y.asyncs) = some a := by decide +kernel
/-- The static context lacks its next bundle; the freeze that follows, resuming. -/
def starved : Machine.State := { static with cores := put static.cores 0 ((static.core 0).setCtx 1 { (static.core 0).ctx 1 with pc := 512 }) }
theorem witness_UnitEvents_freeze : ((find starved.launches 0).map fun y => starved.freezeDue 0 y) = some true
    ∧ (let f : Freeze := ⟨0, false, [⟨0, 1, none, 0, 0, false⟩], some 4⟩; f.resumeAt = some 4 ∧ 4 ≤ ({ starved with now := 4 } : Machine.State).now) := by
  decide +kernel
theorem witness_UnitEvents_freeze_ends : let f : Freeze := ⟨0, false, [⟨0, 1, none, 0, 0, false⟩], none⟩
    let l := fun e => { aLaunch with record := (static.launches.head?.bind fun x => x.2.record), freeze := f, ending := e }
    let s := fun e => { starved with launches := [(0, l e)] }
    (s (some (3, 0))).freezeDue 0 (l (some (3, 0))) = true ∧ (s (some (3, 0))).freezeNext 0 (l (some (3, 0))) = none
    ∧ starved.freezeNext 0 { aLaunch with record := (static.launches.head?.bind fun x => x.2.record) } ≠ none := by decide +kernel
theorem witness_UnitEvents_retire : let y := { placedUnit with life := .draining }
    let s := unitWith fun _ => y
    y.quiet = true ∧ y.cmds = [] ∧ (s.retireRecord 1 y).1 = true ∧ (s.retireRecord 1 y).2.unit 1 = some y
    ∧ (s.returnWeight (.unitRetire 1) 0 0 1).1 = true := by decide +kernel
/-- Port 0 has the semaphore, or has not. -/
def semaphore (h : Bool) : Machine.State := { windowed with regs := { windowed.regs with hsem := if h then some 0 else none } }
/-- A command waits at port 0, whose queues hold 64 entries. -/
theorem witness_HostCommands_port : let s := { seated with ports := Vector.replicate 2 { Port.reset with cqtail := 1, cqctl := 0x8000000000000000 } }
    (s.port 0).pending = [] ∧ (s.port 0).hasCommand = true ∧ (s.port 0).cplFull = false := by decide +kernel

/-- A job whose walker stands at a node, over the mapped page. -/
def job (w : Walking) : Job := { Job.fresh 0 0 0 0 w with begunJob := true, jcnt := 0x40, gcnt := 0x60 }
def walking (x : Job) : Machine.State := world { seated with jobs := [(6, x)] }
theorem witness_HostCommands_cancel : ((walking (job .node)).runningLevel 0 .job 0x40).isSome = true ∧ ((walking (job .node)).runningLevel 0 .job 0x80).isNone = true
    ∧ (0, Level.job, (0x80 : Word)) ∈ ({ walking (job .node) with ended := [(0, .job, 0x80)] } : Machine.State).ended
    ∧ (0, Level.job, (0x80 : Word)) ∉ (walking (job .node)).ended := by decide +kernel
theorem witness_HostCommands_keys : (semaphore true).holdsSem 0 = true ∧ (semaphore false).holdsSem 0 = false := by decide +kernel

/-- A gang member that is armed, waits, or has gone. -/
def gang (armed : Option Nat) (waiting : Option (Nat × Option Nat)) (gone : Bool) : Gang := ⟨0x77, some 6, 0, 0, 2, 0, armed, gone, waiting, false⟩
def member (g : Gang) : Machine.State := { walking (job (if g.gone then .wait ⟨⟨false, 2⟩, 8, 0, 0, true, 0⟩ 0 else .armed)) with gangs := [g], now := 0x08000001 }
theorem witness_HostCommands_gang : ∀ g ∈ [gang (some 0) none false, gang (some 0) (some (0, none)) true],
    (member g).gangById 0x77 = some g ∧ g.job = some 6 ∧ g.armed = some 0 ∧ 0 + (member g).gangTimeout < (member g).now
    ∧ (g.gone = true → (member g).crossSince g = some 0) := by decide +kernel

def hdr : NodeHdr := ⟨false, 2⟩
theorem witness_WalkerNodes_job : find (walking (job .node)).jobs 6 = some (job .node) ∧ (job .node).walking = .node ∧ (job .node).frames.length < 4 :=
  ⟨rfl, rfl, by decide⟩
-- the word at address 0 is not zero, the word at 8 is
theorem witness_WalkerNodes_words : done ((walking (job .node)).walkerWord (.condNode 6 ⟨hdr, 0, 1⟩) (job .node) 0) (fun w => decide (w ≠ 0)) = true
    ∧ done ((walking (job .node)).walkerWord (.whileNode 6 ⟨hdr, 8, 1, 0, 0⟩) (job .node) 8) (fun w => decide (w = 0)) = true := by decide +kernel
theorem witness_WalkerNodes_signal : done ((walking (job .node)).devUpdate (.signal 6 ⟨hdr, 8, 1, true, false⟩) 0 0 8 8
    fun b => le64 (leNat b + 1)) (fun _ => true) = true := by decide +kernel
theorem witness_WalkerNodes_wait : let n : WaitNode := ⟨hdr, 8, 0, 0, false, 5⟩
    waitHolds n 0 = true ∧ waitHolds n 1 = false ∧ (0 + n.timeout.toNat < ({ walking (job (.wait n 0)) with now := 6 } : Machine.State).now)
    ∧ n.timeout ≠ 0 ∧ n.g = false
    ∧ done (((walking (job .node)).onJob 6 fun y => { y with walking := .wait { n with timeout := 0 } 0 }).walkerWord (.waitPoll 6) (job .node) 8) (fun w => decide (w = 0)) = true := by
  decide +kernel
theorem witness_WalkerNodes_copy : done ((walking (job .node)).counterBegin (.copyNode 6 ⟨hdr, 0x100, 0x200, 8, 0x80⟩) 0 0 0x80) (fun _ => true) = true := by
  decide +kernel
theorem witness_WalkerNodes_poll : let x := job (.forLaunch 0 2 true)
    x.walking = .forLaunch 0 2 true ∧ (walking x).launchEnded 0 = true ∧ x.paged = false := by decide +kernel
/-- A loop whose body has ended, and whose condition is zero. -/
def looping : Job := { job .forPass with frames := [⟨⟨hdr, 8, 1, 0, 0⟩, 0, 0⟩] }
theorem witness_WalkerNodes_pass : (walking looping).ended_ looping 0 = true ∧ looping.walking = .forPass
    ∧ done ((walking looping).counterDone (.whilePassEnd 6) 0 0 looping.gcnt 1) (fun _ => true) = true
    ∧ done (((walking looping).counterDone (.whilePassEnd 6) 0 0 looping.gcnt 1).2.walkerWord (.whilePassEnd 6) looping 8) (fun w => decide (w = 0)) = true
    ∧ hdr.nxt < endOfBody := by decide +kernel
theorem witness_WalkerNodes_end : let x := job (.closing .job false)
    x.walking = .closing .job false ∧ x.begunJob = true
    ∧ done ((walking x).counterEnd (.graphEnd 6) 0 0 x.jcnt 1 (some 0) doneEnding) (fun _ => true) = true := by decide +kernel
/-- A copy of 8 bytes, with all or nothing of it made. -/
def copying (n : Nat) : Job := { job .node with copies := [(9, ⟨0x100, 0x200, 8, 0x80, n, none, none, false⟩)] }
theorem witness_WalkerNodes_pieces : ∀ n ∈ [0, 8], (copying n).copies.find? (fun c => decide (c.1 = 9)) = some (9, ⟨0x100, 0x200, 8, 0x80, n, none, none, false⟩)
    ∧ (walking (copying n)).copyStuck 6 (9, ⟨0x100, 0x200, 8, 0x80, n, none, none, false⟩) = false := by decide +kernel
theorem witness_WalkerNodes_piece : let s := walking (copying 0)
    done (s.devRead (.copyNodeComplete 6 9) 0 0 0x100 8) (fun _ => true) = true
    ∧ done ((s.devRead (.copyNodeComplete 6 9) 0 0 0x100 8).2.devWrite (.copyNodeComplete 6 9) 0 0 0x200 [1, 2, 3, 4, 5, 6, 7, 8]) (fun _ => true) = true := by
  decide +kernel
theorem witness_WalkerNodes_irq : (job .node).copies = [] ∧ (∃ c ∈ (copying 0).copies, c.2.done = false) ∧ (copying 0).walking = .node :=
  ⟨rfl, ⟨_, List.mem_singleton.mpr rfl, rfl⟩, rfl⟩
/-- A level's counter has still to be counted. -/
def counting : Job := { job (.closing .graph false) with counting := some (0x60, 1) }
theorem witness_WalkerNodes_counting : counting.counting = some (0x60, 1) ∧ counting.paged = false
    ∧ done ((walking counting).counterDone (.graphEnd 6) 0 0 0x60 1) (fun _ => true) = true := by decide +kernel

def node : LaunchNode := ⟨hdr, 0x100, 0x200, 0, 0x80, 0, 0, 0⟩
theorem witness_LaunchEvents_refused : find (walking (job .node)).jobs 6 = some (job .node)
    ∧ (∀ l ∈ (walking (job .node)).launches, ¬(l.2.job = 6 ∧ l.2.phase = .reserved ∧ l.2.node = node))
    ∧ (match ((walking (job .node)).accept (.launch 6 node) (job .node) node).1 with
      | .refuse 2 0 => true
      | _ => false) = true := by decide +kernel
/-- A launch at a phase, with its record. -/
def launching (p : LPhase) : Launch := { placed with phase := p, loaded := some ⟨0, 0, 0, [⟨0, 0, 0, 0, 0, 0, 0, 0⟩], 0⟩ }
def launchState (p : LPhase) : Machine.State := { (seatedWith fun x => { x with unit := none }) with units := [], launches := [(4, launching p)] }
theorem witness_LaunchEvents_phases : (launching (.refusing 3 0)).phase = .refusing 3 0
    ∧ ((launchState (.waiting 0)).onLaunch 4 fun x => { x with paged := false }).contextsFree 4 (launching (.waiting 0)) = true
    ∧ (launching (.waiting 0)).ending = none ∧ find (launchState (.waiting 0)).jobs (launching (.waiting 0)).job = none
    ∧ ((launchState (.preparing 0 0)).onLaunch 4 fun x => { x with paged := false }).readyAt (launching (.preparing 0 0)) ≤ (launchState (.preparing 0 0)).now
    ∧ (launching (.preparing 0 0)).loaded.isSome = true ∧ (launching (.preparing 0 0)).record.isSome = true := by decide +kernel
theorem witness_LaunchEvents_cores : let s := fun (r : Regs → Regs) (p : LPhase) => { launchState p with regs := r (launchState p).regs }
    (s (fun r => { r with ready := 1 }) (.waiting 0)).lostCore (launching (.waiting 0)) = false
    ∧ (s (fun r => { r with ready := 1 }) (.preparing 0 0)).lostCore (launching (.preparing 0 0)) = false
    ∧ (launchState (.waiting 0)).lostCore (launching (.waiting 0)) = true := by decide +kernel
-- the last cycle of the wait, and the first past it
theorem witness_LaunchEvents_limit : let s := launchState (.waiting 0)
    s.regs.placeLimit = some 0x100000 ∧ s.armedLaunch (launching (.waiting 0)) = false
    ∧ (∀ n ∈ [0x100000, 0x100001], ({ s with now := n } : Machine.State).now ≤ 0 + 0x100000 ∨ 0 + 0x100000 < ({ s with now := n } : Machine.State).now) := by
  decide +kernel
/-- Bytes at an address of the mapped page. -/
def written (l : List (Nat × List Byte)) (s : Machine.State) : Machine.State :=
  { s with mem := l.foldl (fun m p => m.writeBytes (2 ^ 52 + 0x1000 + p.1) p.2) s.mem }
/-- An object of one function, a native body of one bundle at offset 64 of its text, and a placement of one unit in ctx1 of core 0. -/
def offered : Machine.State :=
  let s := walking (job .node)
  written [(0x200, [0x42, 0x58, 0x43, 0x4F] ++ leBytes 1 2 ++ leBytes 2 2 ++ leBytes 1 4 ++ leBytes 0 4 ++ leBytes 32 8 ++ leBytes 0 8
      ++ (leBytes 2 2 ++ [1, 0, 6, 0, 0, 0] ++ leBytes 128 8 ++ leBytes 66 8) ++ (leBytes 5 2 ++ [1, 0, 5, 0, 0, 0] ++ leBytes 96 8 ++ leBytes 32 8)),
    (0x260, leBytes 0 4 ++ leBytes 64 4 ++ leBytes 2 4 ++ leBytes 256 4 ++ [4, 4, 2, 0] ++ leBytes 0 4 ++ leBytes 0xFFFFFFFFFFFFFFFF 8),
    (0x2C0, [0x40, 0x00]),
    (0x400, leBytes 0x10120 8 ++ leBytes 0 56 ++ leBytes (0xFFF * 2 ^ 32 + 2 ^ 9) 8 ++ leBytes (256 * 2 ^ 22) 8)]
    { s with regs := { s.regs with ready := 1, asidtab := 1 } }
-- the object and the placement are in order; whether the text can be written depends on the free address it is loaded at (log entry 13)
theorem witness_LaunchEvents_accepted : let s := offered
    (s.asidEntry 0 0).1.ok = true ∧ s.regs.asidtab.getLsbD 0 = true
    ∧ (match (s.loadObject (.launch 6 node) 0 0 0x200 ⟨0, 0, 0⟩).1, (s.readPlacement (.launch 6 node) 0 0 0x400).1 with
      | .ok p, .ok (some r) => r.wellFormed p.loaded.funcs && !s.coreMissing r && !s.shareClash 0 r && !r.tooSmall p.loaded
      | _, _ => false) = true := by decide +kernel
theorem witness_LaunchEvents_clearing : let s := issuing fun x => { x with clearing := some 0 }
    (s.core 0).clearing = some 0 ∧ 0 ≤ s.now := by decide +kernel

theorem witness_DeviceRegisters : (semaphore true).holdsSem 0 = true ∧ (semaphore false).holdsSem 0 = false ∧ (semaphore false).regs.hsem = none
    ∧ (semaphore true).regs.hsem = some 0 ∧ winOn (semaphore true).regs.hbmwin = true ∧ winOn (semaphore true).regs.ddrwin = false
    ∧ winOn ((semaphore true).regs.window 0) = true ∧ winOn ((semaphore true).regs.window 1) = false ∧ eitherPort .asidtab = false := by decide +kernel
theorem witness_DeviceRegisters_trace : (seated.tell 0).en = false ∧ (seated.tell 0).dump.getLsbD 63 = false
    ∧ (let t : Telltale := { Telltale.reset with ttctl := 0x80A01, dump := 0x8000000000000000 }; t.en = true ∧ t.dump.getLsbD 63 = true) := by decide +kernel
theorem witness_DeviceRegisters_errlog : seated.regs.errlog = [] ∧ ({ seated.regs with errlog := [5] } : Regs).errlog = 5 :: [] := ⟨rfl, rfl⟩
theorem witness_DeviceRegisters_maint : let s := { seated with regs := { seated.regs with maint := Vector.replicate 8 1 } }
    s.coreReserved 0 = false ∧ s.regs.maintBit 0 ≠ (s.core 0).maint := by decide +kernel
theorem witness_DeviceRegisters_dump : let s := seated.onTell 0 fun t => { t with dump := 0x8000000000000080 }
    s.dumpDue 0 = true ∧ (s.onCtx 0 1 fun x => { x with waits := 3 }).dumpDue 0 = false := by decide +kernel
theorem witness_DeviceEvents_errors : (⟨.core 3, 0, true⟩ : ErrorInfo).correctable = true ∧ (⟨.core 3, 0, false⟩ : ErrorInfo).correctable = false
    ∧ field seated.regs.fltthr 0 16 ≠ (find seated.errors 3).getD 0 + 1 := by decide +kernel
theorem witness_DeviceEvents_ready : seated.lost (.die 0) = false ∧ readyBit (.die 1) ≠ readyBit (.die 0) := by decide +kernel
-- a word at either end of its row, and a drive of the row
theorem witness_DeviceEvents_streams : seated.streams = [] ∧ seated.drives = [] ∧ (⟨(0 * 8 + 1) * 256, 5, 0, 1, 0, 0⟩ : Drive).key / 256 = 0 * 8 + 1 := by
  decide +kernel

theorem witness_Multiplications (x y : Word) : let s := operands x y 0
    s.Calm ∧ s.srcS (.reg 5) = .ok x ∧ s.srcS (.reg 6) = .ok y := ⟨⟨rfl, rfl, rfl, rfl⟩, rfl, rfl⟩
theorem witness_Multiplications_unassigned : 2 < (3 : BitVec 8).toNat
    ∧ (⟨.s0, 0, decodeS (wordSR 0x01 4 false 5 6 3)⟩ : Placed).syl = decodeS (wordSR 0x01 4 false 5 6 3) := ⟨by decide, rfl⟩
theorem witness_UnassignedOpcodes : decodeS 0x0C000000 = .unassigned ∧ decodeV 0x0F0000000000 = .unassigned ∧ decodeX 0x0C0000000000 = .unassigned
    ∧ decodeM 0x0B00000000000000 = .unassigned ∧ decodeQ 0x0900000000000000 = .unassigned := by decide
theorem witness_DecodeEncodeRoundTrip : let i := Instr.loopi 1 2 3
    i.wf = true ∧ encodeAlone 0 false true i = some [0x41, 0x00, 0x03, 0x80, 0x00, 0xC6] ∧ ∀ d, i.loopDisp = some d → 3 ≤ d := by
  refine ⟨by decide, by decide, ?_⟩
  intro d h
  have e : d = 3 := by
    have h : some (3 : Int) = some d := h
    exact (Option.some.inj h).symm
  omega

/-- The bundle `add s4, s5, s6` placed where the next step fetches. -/
def next : Machine.State := State.reset.placeBundle addBytes
theorem witness_StepRunsDecoded : next.plan = some [.issue 0 1] ∧ next.fetched 0 1 = .bytes addBytes
    ∧ (decodeBundle addBytes).single = some (.add ⟨4, false, .reg 5, .reg 6⟩) ∧ (next.ctx 0 1).resume = none
    ∧ (next.tell (dieOf 0)).breaks (next.ctx 0 1).csr.asidcur.toNat (next.ctx 0 1).pc (decodeBundle addBytes).hdr.pm = (0, false)
    ∧ (decodeBundle addBytes).slots.length = 1 := by decide +kernel
theorem witness_StepRunsDecoded_nop : (State.reset.placeBundle [0x40, 0x03]).plan = some [.issue 0 1]
    ∧ (State.reset.placeBundle [0x40, 0x03]).fetched 0 1 = .bytes [0x40, 0x03] ∧ (decodeBundle [0x40, 0x03]).slots = []
    ∧ (decodeBundle [0x40, 0x03]).single = some (.nop 3 false true) := by decide +kernel
theorem witness_StepRunsDecoded_event : (match ({ seated with plan := none, agenda := [(0, .faultWindowReset)] } : Machine.State).happening with
    | .event e t => decide (e = .faultWindowReset) && t.agenda.isEmpty
    | _ => false) = true := by decide +kernel
theorem witness_StepRunsDecoded_idle : (match State.reset.happening with
    | .nothing => true
    | _ => false) = true ∧ State.reset.plan = none ∧ seated.plan = some [] := ⟨by decide +kernel, by decide, by decide⟩
theorem witness_StepKeepsMemories : State.reset.memoriesWf ∧ (match step State.reset with
    | .next _ => true
    | _ => false) = true := ⟨⟨rfl, by decide⟩, by decide +kernel⟩

/-! ### One step, and the spec's worked examples -/

/-- The state after one step of a placed bundle whose context `f` prepares. -/
def ran (bytes : List Byte) (f : Ctx → Ctx) : Machine.State :=
  match step ((State.reset.placeBundle bytes).onCtx 0 1 f) with
  | .next t => t
  | _ => State.reset
/-- The bytes of a bundle of one S-slot syllable. -/
def sBytes (w : BitVec 32) : List Byte := leBytes (0x41 + 2 ^ 16 * w.toNat) 6
/-- Register writes in flight: number, value, context cycle at which they land. -/
def lands (s : Machine.State) : List (Nat × Nat × Nat) := (s.ctx 0 1).flights.map fun f => (f.num, f.value.toNat, f.due)

-- `add s4, s5, s6` with sources 7 and −1: 6 at latency 1, and the context goes on past the three parcels (R117, R176)
theorem test_step_add : let s := ran addBytes (sregs [(5, 7), (6, 0xFFFFFFFFFFFFFFFF)])
    lands s = [(4, 6, 1)] ∧ (s.ctx 0 1).pc = 6 ∧ (s.ctx 0 1).cc = 1 ∧ (s.ctx 0 1).latches.toList.all (fun l => !l.valid) = true := by decide +kernel
-- the literal of the spec's example, part by part (R180)
theorem test_step_li : lands (ran (sBytes 0x4489ABCD) id) = [(4, 0xFFFFFFFFFFF9ABCD, 1)] := by decide +kernel
theorem test_step_lim : lands (ran (sBytes 0x48845678) (sregs [(4, 0xFFFFFFFFFFF9ABCD)])) = [(4, 0x000000456789ABCD, 1)] := by decide +kernel
theorem test_step_lit : lands (ran (sBytes 0x4C800123) (sregs [(4, 0x000000456789ABCD)])) = [(4, 0x000123456789ABCD, 1)] := by decide +kernel
-- the example of R193 at context cycles 3 and 4: two levels end at one bundle
/-- The `addi` at address 6, where both levels end; level 0 starts at 4. -/
def loopBytes : List Byte := [0x40, 0, 0x40, 0, 0x40, 0] ++ sBytes 0x20A14001
def twoLoops (c1 c0 : Word) (on : Word) (x : Ctx) : Ctx :=
  { x with pc := 6, csr := { x.csr with loopst := on, ls0 := 4, le0 := 6, lc0 := c0, ls1 := 6, le1 := 6, lc1 := c1 } }
theorem test_step_inner_loop : let s := ran loopBytes (twoLoops 2 3 3)
    (s.ctx 0 1).pc = 6 ∧ (s.ctx 0 1).csr.lc1 = 1 ∧ (s.ctx 0 1).csr.loopst = 3 ∧ lands s = [(5, 1, 1)] := by decide +kernel
theorem test_step_outer_loop : let s := ran loopBytes (twoLoops 1 3 3)
    (s.ctx 0 1).pc = 4 ∧ (s.ctx 0 1).csr.lc1 = 0 ∧ (s.ctx 0 1).csr.lc0 = 2 ∧ (s.ctx 0 1).csr.loopst = 1 := by decide +kernel
theorem test_step_loops_end : let s := ran loopBytes (twoLoops 1 1 3)
    (s.ctx 0 1).pc = 12 ∧ (s.ctx 0 1).csr.loopst = 0 := by decide +kernel
-- the frame of the example of R195: the bytes below the stack pointer, and both pointers
def framed (lim : Word) (x : Ctx) : Ctx :=
  sregs [(28, 0), (30, 0x300000), (31, 0x400002006)] { x with csr := { x.csr with stklim := lim } }
theorem test_step_enter : let s := ran (sBytes 0xC8000001) (framed 0x2F0000)
    lands s = [(28, 0x300000, 1), (30, 0x2FFF00, 1)] ∧ s.myCore.spm.read 0x2FFFF0 = 0x06 ∧ s.myCore.spm.read 0x2FFFF1 = 0x20
    ∧ s.myCore.spm.read 0x2FFFF8 = 0 := by decide +kernel
-- with the limit at 0x2F_FF80 nothing is stored (an unhandled trap)
theorem test_step_enter_limit : let s := ran (sBytes 0xC8000001) (framed 0x2FFF80)
    lands s = [] ∧ s.myCore.spm = [] ∧ (s.ctx 0 1).s[30] = 0x300000 := by decide +kernel
-- `trap s5` with a handler: cause 1·32 + 8 with INTRAP, TVAL the register, the handler's address, and the record's PC (R362)
theorem test_step_trap : let s := ran (sBytes 0xE0014000) fun x => sregs [(5, 99)] { x with csr := { x.csr with tvec := 0x1000 } }
    (s.ctx 0 1).pc = 0x40000 ∧ (s.ctx 0 1).csr.cause.getLsbD 30 = true ∧ (s.ctx 0 1).csr.tval = 99 ∧ (s.ctx 0 1).csr.trappc = 0 := by decide +kernel
-- `csrc s0, fpflags, s9` clears the flags that s9 names (R197)
theorem test_step_csrc : ((ran (sBytes 0xDC024000) fun x => sregs [(9, 0x11)] { x with csr := { x.csr with fpflags := 0x1F } }).ctx 0 1).csr.fpflags = 0x0E := by
  decide +kernel
-- a pure bundle with three wait cycles (R118)
theorem test_step_nop : let s := ran [0x40, 0x03] id
    (s.ctx 0 1).pc = 2 ∧ (s.ctx 0 1).waits = 3 ∧ (s.ctx 0 1).cc = 1 := by decide +kernel
-- an unassigned opcode is no instruction: the unit's launch would end; nothing is written (R129)
theorem test_step_unassigned : lands (ran (sBytes 0x0C000000) id) = [] := by decide +kernel

-- the element results of R233's example: quotient, remainder, flags
theorem test_division_examples : [intDiv true 8 7 (-2), intDiv true 8 (-7) 2, intDiv true 8 (-128) (-1), intDiv true 8 5 0, intDiv false 8 5 0]
    = [(-3, 1, 0), (-3, -1, 0), (-128, 0, flagNV), (-1, 5, flagDZ), (255, 5, flagDZ)] := by decide
-- 300 to i8 by wrapping is 44 with no flag, and saturates to 127 with NV (R238)
theorem test_conversion_example : convElem .i32 .i8 1 300 ⟨0, 0⟩ = (44, ⟨0, 0⟩) ∧ convElem .i32 .i8 0 300 ⟨0, 0⟩ = (127, ⟨0, flagNV⟩) := by decide
-- the scales and codes of R236's example: 10.0 and 0.3 in a block, 1.0 in the next, zeros after
def quantised : VWord := BitVec.ofNat 2048 (packNat 32 ([0x41200000, 0x3E99999A] ++ List.replicate 14 0 ++ List.replicate 16 0x3F800000))
theorem test_maxexp_example : (maxexpV .f32 0 0 (BitVec.allOnes 256) quantised ⟨0, 0⟩).1 = 0x7F7F777A := by decide +kernel
theorem test_cvtq_example : let r := cvtqV .f32 .e4m3 0 0x7F7F777A .rne (BitVec.allOnes 256) quantised ⟨0, 0⟩
    (elem .e4m3 r.1 0, elem .e4m3 r.1 1, elem .e4m3 r.1 2, elem .e4m3 r.1 16, elem .e4m3 r.1 32, r.2.fl) = (0x7A, 0x52, 0, 0x78, 0, flagNX) := by
  decide +kernel
-- the rescaled sum of R221's example: 1 to 8 without 5, times 8/7
def eight : VWord := BitVec.ofNat 2048 (packNat 32 [0x3F800000, 0x40000000, 0x40400000, 0x40800000, 0x40A00000, 0x40C00000, 0x40E00000, 0x41000000])
theorem test_vrmrs_example : vrmrsV .f32 0xFFFFFFFF (BitVec.allOnes 256 &&& ~~~0xF0000) eight ⟨0, 0⟩ = (0x420DB6DC, true, ⟨0, flagNX⟩) := by decide +kernel
-- the two-segment product of R54's example: 32 · 2^−3, then 16 · 2^2, added to 1.0
theorem test_dot_product_example : matProduct ⟨.e4m3, 1, 1, 32, List.replicate 16 0x38 ++ List.replicate 16 0x30, [0x7C, 0x81]⟩
    ⟨.e4m3, 2, 1, 32, List.replicate 32 0x40, [0x7F]⟩ 0 0 (fun _ _ => 0x3F800000) = ([0x428A0000], 0) := by decide +kernel
-- device core 300 (R8 to R12)
theorem test_core_300 : (dieOf 300, rowOf 300, colOf 300, clusterOf 300, inCluster 300, partnerCore 300, clusterOf 296) = (2, 2, 12, 39, 0, 296, 38) := by
  decide
-- the walk of R63's example, and the stack that holds its page
theorem test_walk_indices : [4, 3, 2, 1].map (levelIndex 0x000123456789ABCD) = [0x01, 0x46, 0x115, 0x13C] := by decide
theorem test_walk_example : let s := { State.reset with
      mem := [(0x10008000001008, 0x07), (0x10008000001009, 0x20), (0x1000800000100C, 0x80), (0x10008000002230, 0x07), (0x10008000002231, 0x30), (0x10008000002234, 0x80),
        (0x100080000038A8, 0x07), (0x100080000038A9, 0x40), (0x100080000038AC, 0x80), (0x100080000049E0, 0xE7), (0x100080000049E2, 0x20), (0x100080000049E3, 0x01),
        (0x100080000049E5, 0x20), (0x100080000049E6, 0x50), (0x100080000049E7, 0x8A)]
      asids := [(37, ⟨0x8000001001, 0, 0x80000005, 0⟩)] }
    (match (s.walkNow 0 37 0x000123456789ABCD .w).1 with
      | .ok e 3 => e.pa + 0x9ABCD == 0x20000129ABCD && e.nx && e.w && e.d && e.dattr == 0xA5 && e.size == 0x200000
      | _ => false) = true := by decide +kernel
theorem test_home_example : ({ State.reset with regs := { State.reset.regs with hbmwin := 0x8010200000000000 } } : Machine.State).homeOf 0x20000129ABCD = .hbm 2 0x253BCD := by
  decide +kernel
-- after reset: SRSTATE is 1, no bank has power, and the walker's registers hold their table's values (R102)
theorem test_reset : (State.reset.ctx 511 3).csr.srstate = 1 ∧ (State.reset.ctx 511 3).bank = .off ∧ State.reset.regs.placeto = 0x00100000 := by decide

-- the cipher R70 names, at the examples its published standard works out: {57}·{83} = {c1}, and the S-box takes {53} to {ed}; the
-- decryption's S-box goes back
theorem test_cipher_bytes : gfMul 0x57 0x83 = 0xc1 ∧ subByte 0x53 = 0xed ∧ unsubByte 0xed = 0x53 := by decide +kernel
-- under the key it was written with a byte reads as it was written, and in clear memory too (R71)
theorem test_same_key : underKey 0x1000 0x1005 (some 7) (some 7) (fun a => BitVec.ofNat 8 a) = 5 ∧ underKey 0 5 none none (fun _ => 9) = 9 := by
  decide +kernel

end Sys2Proof.Tests
end

section
/-! SUPPORT. O47 fails at its last clause. A step of a retirement first frees the array of its core when the array's owner has been
cancelled and no command of it executes (`State.dropAll`, `State.freeArray`, R283); the clause starts from a state in which nothing has
been freed, and the release at the end (`State.retireRelease`) takes the array from the unit that goes and from no other. -/
namespace Sys2Proof.Machine

/-- A cancelled unit of no launch in a context of core 0; it drains and has nothing outstanding. -/
def drainedUnit (k : Nat) : Unit := { placedUnit with ctx := k, life := .draining }

/-- Units 1 and 2 drain in core 0, and unit 2 still owns the integrator array. -/
def drainingBesideOwner : State :=
  { State.reset with
    units := [(1, drainedUnit 1), (2, drainedUnit 2)]
    cores := [(0, { Core.cleared with dda := { Core.cleared.dda with owner := some 2 } })] }

/-- The same once unit 1 counts as recorded, as the statement reaches it: the array is as it was. -/
def recordedBesideOwner : State := drainingBesideOwner.onUnit 1 fun y => { y with life := .recorded }

/-- The owner of core 0's array in the state that an outcome gives. -/
def ownerIn : Res → Option Nat
  | .next t => (t.core 0).dda.owner
  | _ => none

/-- The retirement of unit 1 frees the array of unit 2. -/
theorem ownerIn_unitRetire : ownerIn (exec (.unitRetire 1) drainingBesideOwner) = none := by decide +kernel

/-- The state that the statement gives leaves it to unit 2. -/
theorem ownerIn_retireRelease :
    ownerIn (.next (recordedBesideOwner.retireRelease 1 { drainedUnit 1 with life := .recorded } 0)) = some 2 := by decide +kernel

/-- Refutes O47: its clause on a draining unit leaves out the freeing of the array (R283). Where the array of the core belongs to another
unit that drains and has no command in it, the retirement frees that array, and the state of the statement has it owned. -/
theorem not_unitEvents : ¬ Obligations.UnitEvents := by
  unfold Obligations.UnitEvents
  intro h
  obtain ⟨-, -, -, -, -, hretire⟩ := h drainingBesideOwner 0 0 (by decide)
  have hdrain : exec (.unitRetire 1) drainingBesideOwner
      = .next (recordedBesideOwner.retireRelease 1 { drainedUnit 1 with life := .recorded } 0) :=
    (hretire 1 (drainedUnit 1) rfl).2 drainingBesideOwner recordedBesideOwner rfl rfl rfl rfl rfl rfl
  have hnone := (congrArg ownerIn hdrain).symm.trans ownerIn_unitRetire
  exact absurd (ownerIn_retireRelease.symm.trans hnone) (by decide)

end Sys2Proof.Machine
end

section
/-! SUPPORT. A write in flight lands (R32, R123, R138, R184, R207): the byte lanes of a merged register, registers read after a write, and
what one landing leaves in its context, in one equation (`Ctx.land_of_cls`). -/
namespace Sys2Proof.Machine

/-! ### Byte lanes of a merged register (R207) -/

/-- Bit `b` of packed element `i` is bit `b` of the value packed there. -/
theorem testBit_packNat {w b : Nat} (hb : b < w) (l : List Nat) (i : Nat) :
    (packNat w l).testBit (w * i + b) = (l[i]?.getD 0).testBit b := by
  induction l generalizing i with
  | nil => simp [packNat]
  | cons x rest ih =>
    rw [packNat, Nat.add_comm, Nat.testBit_two_pow_mul_add _ (Nat.mod_lt _ (Nat.two_pow_pos w))]
    cases i with
    | zero => simp [hb, Nat.testBit_mod_two_pow]
    | succ j =>
      have hge : ¬ w * (j + 1) + b < w := by rw [Nat.mul_succ]; omega
      have hsub : w * (j + 1) + b - w = w * j + b := by rw [Nat.mul_succ]; omega
      rw [if_neg hge, hsub, ih, List.getElem?_cons_succ]

theorem getLsbD_spread (m : PWord) {i b : Nat} (hi : i < 256) (hb : b < 8) : (spread m).getLsbD (8 * i + b) = m.getLsbD i := by
  have hbyte : Nat.testBit 255 b = true := by
    rw [show 255 = 2 ^ 8 - 1 from rfl, Nat.testBit_two_pow_sub_one, decide_eq_true hb]
  have hread : ((List.range 256).map fun j => if m.getLsbD j then 255 else 0)[i]?.getD 0 = if m.getLsbD i then 255 else 0 := by
    rw [List.getElem?_map, List.getElem?_range hi, Option.map_some, Option.getD_some]
  rw [spread, BitVec.getLsbD_ofNat, testBit_packNat hb, decide_eq_true (by omega : 8 * i + b < 2048), Bool.true_and, hread]
  split
  case isTrue hm => rw [hbyte, hm]
  case isFalse hm => rw [Nat.zero_testBit, Bool.eq_false_of_not_eq_true hm]

theorem getLsbD_merge (old new : VWord) (m : PWord) {i b : Nat} (hi : i < 256) (hb : b < 8) :
    (merge old new m).getLsbD (8 * i + b) = if m.getLsbD i then new.getLsbD (8 * i + b) else old.getLsbD (8 * i + b) := by
  have hlt : 8 * i + b < 2048 := by omega
  unfold merge
  split
  case isTrue hall =>
    have hm : m.getLsbD i = true := by rw [hall, allLanes, BitVec.getLsbD_allOnes, decide_eq_true hi]
    rw [if_pos hm]
  case isFalse =>
    rw [BitVec.getLsbD_or, BitVec.getLsbD_and, BitVec.getLsbD_and, BitVec.getLsbD_not, getLsbD_spread m hi hb]
    cases m.getLsbD i <;> simp [hlt]

/-- Each byte lane of a merged register is the new one where its lane is enabled and the old one elsewhere. -/
theorem merge_byteLane (old new : VWord) (m : PWord) {i : Nat} (hi : i < 256) :
    (merge old new m).extractLsb' (8 * i) 8 = if m.getLsbD i then new.extractLsb' (8 * i) 8 else old.extractLsb' (8 * i) 8 := by
  refine BitVec.eq_of_getLsbD_eq fun b hb => ?_
  rw [BitVec.getLsbD_extractLsb', getLsbD_merge old new m hi hb]
  split <;> rw [BitVec.getLsbD_extractLsb']

/-! ### Registers after a write (R175, R206, R208) -/

@[simp] theorem Ctx.readS_writeS_same (x : Ctx) {n : Nat} (w : Word) (hn : n < 32) (h0 : n ≠ 0) : (x.writeS n w).readS n = w := by
  simp [Ctx.readS, Ctx.writeS, h0, hn]

@[simp] theorem Ctx.readV_writeV_same (x : Ctx) {n : Nat} (w : VWord) (hn : n < 32) : (x.writeV n w).readV n = w := by
  simp [Ctx.readV, Ctx.writeV, hn]

@[simp] theorem Ctx.readP_writeP_same (x : Ctx) {n : Nat} (w : PWord) (hn : n < 16) (h0 : n ≠ 0) : (x.writeP n w).readP n = w := by
  simp [Ctx.readP, Ctx.writeP, h0, hn]

theorem Ctx.readS_writeS_other (x : Ctx) {n m : Nat} (w : Word) (h : n ≠ m) : (x.writeS m w).readS n = x.readS n := by
  unfold Ctx.writeS
  split
  · rfl
  · simp [Ctx.readS, Vector.getElem?_setIfInBounds_ne (Ne.symm h)]

theorem Ctx.readV_writeV_other (x : Ctx) {n m : Nat} (w : VWord) (h : n ≠ m) : (x.writeV m w).readV n = x.readV n := by
  simp [Ctx.readV, Ctx.writeV, Vector.getElem?_setIfInBounds_ne (Ne.symm h)]

theorem Ctx.readP_writeP_other (x : Ctx) {n m : Nat} (w : PWord) (h : n ≠ m) : (x.writeP m w).readP n = x.readP n := by
  unfold Ctx.writeP
  split
  · rfl
  · simp [Ctx.readP, Vector.getElem?_setIfInBounds_ne (Ne.symm h)]

@[simp] theorem Ctx.readS_writeV (x : Ctx) (n m : Nat) (w : VWord) : (x.writeV m w).readS n = x.readS n := rfl
@[simp] theorem Ctx.readP_writeV (x : Ctx) (n m : Nat) (w : VWord) : (x.writeV m w).readP n = x.readP n := rfl
@[simp] theorem Ctx.readV_writeS (x : Ctx) (n m : Nat) (w : Word) : (x.writeS m w).readV n = x.readV n := by unfold Ctx.writeS; split <;> rfl
@[simp] theorem Ctx.readP_writeS (x : Ctx) (n m : Nat) (w : Word) : (x.writeS m w).readP n = x.readP n := by unfold Ctx.writeS; split <;> rfl
@[simp] theorem Ctx.readS_writeP (x : Ctx) (n m : Nat) (w : PWord) : (x.writeP m w).readS n = x.readS n := by unfold Ctx.writeP; split <;> rfl
@[simp] theorem Ctx.readV_writeP (x : Ctx) (n m : Nat) (w : PWord) : (x.writeP m w).readV n = x.readV n := by unfold Ctx.writeP; split <;> rfl

/-- A write of one register leaves every other register, of its own file and of the others. -/
theorem Ctx.readReg_writeReg_other (x : Ctx) {c d : RegCls} {m n : Nat} (w : VWord) (h : ¬(d = c ∧ n = m)) :
    (x.writeReg c m w).readReg d n = x.readReg d n := by
  match c, d with
  | .s, .s => exact congrArg (BitVec.setWidth 2048) (x.readS_writeS_other (w.setWidth 64) fun e => h ⟨rfl, e⟩)
  | .v, .v => exact x.readV_writeV_other w fun e => h ⟨rfl, e⟩
  | .p, .p => exact congrArg (BitVec.setWidth 2048) (x.readP_writeP_other (w.setWidth 256) fun e => h ⟨rfl, e⟩)
  | .s, .v | .s, .p | .v, .s | .v, .p | .p, .s | .p, .v => simp [Ctx.readReg, Ctx.writeReg]

/-- Writes of s0 and p0 are discarded. -/
theorem Ctx.writeReg_zero (x : Ctx) {c : RegCls} (w : VWord) (h : c ≠ .v) : x.writeReg c 0 w = x := by
  cases c with
  | s => rfl
  | v => exact absurd rfl h
  | p => rfl

/-! ### What one landing leaves (R32, R124, R184, R374) -/

/-- The whole register as the landing of `f` makes it: the value in the enabled byte lanes, the register as it stands in the others (R207). -/
def Ctx.mergedReg (x : Ctx) (c : RegCls) (f : Flight) : VWord := merge (x.readReg c f.num) f.value f.enables

/-- The context after the register write of a landing, which NW leaves out. -/
def Ctx.landReg (x : Ctx) (c : RegCls) (f : Flight) : Ctx :=
  if f.nw then x else (x.writeReg c f.num (x.mergedReg c f)).heal c f.num f.enables

/-- The latches after a landing: the one of its slot takes the merged register, if its issue group is current and no later result is in
it (R124; log entry 20). -/
def Ctx.landLatches (x : Ctx) (c : RegCls) (f : Flight) : Vector Latch 4 :=
  match slotLatch f.slot with
  | some i =>
    let old := x.latches[i]?.getD Latch.cleared
    if f.latch && decide (f.group = x.group) && (!old.valid || decide (old.stamp ≤ f.stamp)) then
      x.latches.setIfInBounds i ⟨true, c, x.mergedReg c f, f.stamp⟩
    else x.latches
  | none => x.latches

/-- A register write changes the registers only. -/
theorem Ctx.writeReg_frame (x : Ctx) (c : RegCls) (n : Nat) (w : VWord) :
    ∃ s v p, x.writeReg c n w = { x with s, v, p } := by
  cases c with
  | s =>
    by_cases h : n = 0
    · exact ⟨x.s, x.v, x.p, if_pos h⟩
    · exact ⟨_, x.v, x.p, if_neg h⟩
  | v => exact ⟨x.s, _, x.p, rfl⟩
  | p =>
    by_cases h : n = 0
    · exact ⟨x.s, x.v, x.p, if_pos h⟩
    · exact ⟨x.s, x.v, _, if_neg h⟩

/-- Healing changes the record of errors only. -/
theorem Ctx.heal_frame (x : Ctx) (c : RegCls) (n : Nat) (en : PWord) : ∃ bad, x.heal c n en = { x with bad } := by
  unfold Ctx.heal
  split
  · exact ⟨_, rfl⟩
  · exact ⟨x.bad, rfl⟩

/-- The register write of a landing changes the registers and the record of errors only. -/
theorem Ctx.landReg_frame (x : Ctx) (c : RegCls) (f : Flight) : ∃ s v p bad, x.landReg c f = { x with s, v, p, bad } := by
  unfold Ctx.landReg
  split
  · exact ⟨x.s, x.v, x.p, x.bad, rfl⟩
  · obtain ⟨s, v, p, hw⟩ := x.writeReg_frame c f.num (x.mergedReg c f)
    obtain ⟨bad, hh⟩ := (x.writeReg c f.num (x.mergedReg c f)).heal_frame c f.num f.enables
    exact ⟨s, v, p, bad, by rw [hh, hw]⟩

/-- One write to a register lands: the register write, then the scale latch, the flags and the latch of the slot. -/
theorem Ctx.land_of_cls (x : Ctx) {f : Flight} {c : RegCls} (hc : f.cls = some c) :
    x.land f = { x.landReg c f with
      scale := f.scale.getD x.scale
      csr := { x.csr with fpflags := x.csr.fpflags ||| f.flags.setWidth 64 }
      latches := x.landLatches c f } := by
  obtain ⟨s, v, p, bad, hreg⟩ := x.landReg_frame c f
  unfold Ctx.landLatches
  rw [hreg]
  unfold Ctx.landReg Ctx.mergedReg at hreg
  simp only [Ctx.land, hc, hreg, orFlags, Ctx.mergedReg]
  cases slotLatch f.slot with
  | none => cases f.scale <;> rfl
  | some i => cases f.scale <;> dsimp only <;> split <;> rfl

/-! ### The registers after a landing -/

theorem Ctx.landReg_of_nw (x : Ctx) (c : RegCls) {f : Flight} (h : f.nw = true) : x.landReg c f = x := if_pos h

theorem Ctx.landReg_of_not_nw (x : Ctx) (c : RegCls) {f : Flight} (h : f.nw = false) :
    ∃ bad, x.landReg c f = { x.writeReg c f.num (x.mergedReg c f) with bad } := by
  rw [Ctx.landReg, if_neg (by simp [h])]
  exact Ctx.heal_frame _ c f.num f.enables

theorem Ctx.readReg_landReg_of_not_nw (x : Ctx) (c d : RegCls) {f : Flight} (n : Nat) (h : f.nw = false) :
    (x.landReg c f).readReg d n = (x.writeReg c f.num (x.mergedReg c f)).readReg d n := by
  obtain ⟨bad, hreg⟩ := x.landReg_of_not_nw c h
  rw [hreg]
  rfl

theorem Ctx.readReg_landReg_other (x : Ctx) {c d : RegCls} {f : Flight} {n : Nat} (h : ¬(d = c ∧ n = f.num)) :
    (x.landReg c f).readReg d n = x.readReg d n := by
  cases hnw : f.nw with
  | true => rw [x.landReg_of_nw c hnw]
  | false => rw [x.readReg_landReg_of_not_nw c d n hnw, Ctx.readReg_writeReg_other x _ h]

/-- A landing under NW, or to s0 or p0, leaves the register it names. -/
theorem Ctx.readReg_landReg_discarded (x : Ctx) {c : RegCls} {f : Flight} (h : f.nw = true ∨ (f.num = 0 ∧ c ≠ .v)) :
    (x.landReg c f).readReg c f.num = x.readReg c f.num := by
  cases hnw : f.nw with
  | true => rw [x.landReg_of_nw c hnw]
  | false =>
    obtain ⟨h0, hcls⟩ := h.resolve_left (by simp [hnw])
    rw [x.readReg_landReg_of_not_nw c c _ hnw, h0, Ctx.writeReg_zero x _ hcls]

theorem Ctx.readV_landReg (x : Ctx) {f : Flight} (hnw : f.nw = false) (hn : f.num < 32) :
    (x.landReg .v f).readV f.num = x.mergedReg .v f := by
  obtain ⟨bad, hreg⟩ := x.landReg_of_not_nw .v hnw
  rw [hreg]
  exact x.readV_writeV_same _ hn

theorem Ctx.readS_landReg (x : Ctx) {f : Flight} (hnw : f.nw = false) (hn : f.num < 32) (h0 : f.num ≠ 0) :
    (x.landReg .s f).readS f.num = (x.mergedReg .s f).setWidth 64 := by
  obtain ⟨bad, hreg⟩ := x.landReg_of_not_nw .s hnw
  rw [hreg]
  exact x.readS_writeS_same _ hn h0

theorem Ctx.readP_landReg (x : Ctx) {f : Flight} (hnw : f.nw = false) (hn : f.num < 16) (h0 : f.num ≠ 0) :
    (x.landReg .p f).readP f.num = (x.mergedReg .p f).setWidth 256 := by
  obtain ⟨bad, hreg⟩ := x.landReg_of_not_nw .p hnw
  rw [hreg]
  exact x.readP_writeP_same _ hn h0

/-! ### The latches after a landing (R123, R124) -/

/-- The latch of the slot takes the merged register, if the write loads it in the current issue group and nothing valid is in it. -/
theorem Ctx.landLatches_loads (x : Ctx) (c : RegCls) {f : Flight} {i : Nat} {l : Latch} (hi : slotLatch f.slot = some i)
    (hl : x.latches[i]? = some l) (hlatch : f.latch = true) (hgroup : f.group = x.group) (hvalid : l.valid = false) :
    (x.landLatches c f)[i]? = some ⟨true, c, x.mergedReg c f, f.stamp⟩ := by
  have hlt : i < 4 := (Vector.getElem?_eq_some_iff.1 hl).1
  simp only [Ctx.landLatches, hi, hl, hlatch, hgroup, hvalid, Option.getD_some, Bool.not_false, Bool.true_or, Bool.and_true,
    decide_true, if_true, Vector.getElem?_setIfInBounds_self_of_lt hlt]

/-- No other latch changes, and none does when the write loads no latch or its issue group is over. -/
theorem Ctx.landLatches_keeps (x : Ctx) (c : RegCls) {f : Flight} {i : Nat}
    (h : slotLatch f.slot ≠ some i ∨ f.latch = false ∨ f.group ≠ x.group) : (x.landLatches c f)[i]? = x.latches[i]? := by
  unfold Ctx.landLatches
  split
  case h_2 => rfl
  case h_1 j hj =>
    dsimp only
    split
    case isFalse => rfl
    case isTrue hload =>
      simp only [Bool.and_eq_true, decide_eq_true_eq] at hload
      obtain ⟨⟨hlatch, hgroup⟩, -⟩ := hload
      obtain hslot | hno | hover := h
      · exact Vector.getElem?_setIfInBounds_ne fun e => hslot (e ▸ hj)
      · exact absurd hlatch (by simp [hno])
      · exact absurd hgroup hover

/-! ### The writes of a context that are due (R32, R138; log entry 22) -/

theorem Ctx.landDue_of_single (x : Ctx) {f : Flight} (hf : x.flights = [f]) (hdue : f.due ≤ x.cc) :
    x.landDue = { x.land f with flights := [] } := by
  simp [Ctx.landDue, Ctx.dueFlights, hf, hdue]

/-- The context in which the one write in flight, to a register, has landed. -/
theorem Ctx.landDue_of_single_cls (x : Ctx) {f : Flight} {c : RegCls} (hf : x.flights = [f]) (hdue : f.due ≤ x.cc) (hc : f.cls = some c) :
    x.landDue = { x.landReg c f with
      flights := []
      scale := f.scale.getD x.scale
      csr := { x.csr with fpflags := x.csr.fpflags ||| f.flags.setWidth 64 }
      latches := x.landLatches c f } := by
  rw [x.landDue_of_single hf hdue, x.land_of_cls hc]

theorem Ctx.landDue_of_none_due (x : Ctx) (h : ∀ f ∈ x.flights, x.cc < f.due) : x.landDue = x := by
  have hdue : x.flights.filter (fun f => decide (f.due ≤ x.cc)) = [] := by simpa using h
  have hkeep : x.flights.filter (fun f => !decide (f.due ≤ x.cc)) = x.flights := by simpa using h
  simp only [Ctx.landDue, Ctx.dueFlights, hdue, hkeep, List.foldl_nil]

/-! ### The event, and what it leaves of the state -/

theorem exec_fixedLatencyLand (c k : Nat) (s : State) : exec (.fixedLatencyLand c k) s = .next (s.onCtx c k Ctx.landDue) := rfl

theorem State.core_onCtx_other (s : State) {c d : Nat} (k : Nat) (f : Ctx → Ctx) (h : d ≠ c) : (s.onCtx c k f).core d = s.core d :=
  s.core_setCore_other _ h

theorem State.ctx_onCtx_other (s : State) (c : Nat) {k j : Nat} (f : Ctx → Ctx) (h : j ≠ k) : (s.onCtx c k f).ctx c j = s.ctx c j := by
  rw [State.onCtx, State.setCtx, State.ctx, State.core_setCore, Core.ctx_setCtx_other _ _ h, State.ctx]

theorem State.spm_core_onCtx (s : State) (c k : Nat) (f : Ctx → Ctx) : ((s.onCtx c k f).core c).spm = (s.core c).spm := by
  rw [State.onCtx, State.setCtx, State.core_setCore, Core.setCtx]

/-! ### The statement -/

/-- Settles O38: what a landing leaves is `Ctx.landDue_of_single_cls`, read part by part. -/
theorem fixedLatencyLands : Obligations.FixedLatencyLands := by
  unfold Obligations.FixedLatencyLands
  refine ⟨?_, ?_, fun old new m i hi => merge_byteLane old new m hi⟩
  · intro s c k f cls hk hf hdue hc hnum x whole
    have hctx : (s.onCtx c k Ctx.landDue).ctx c k = x.landDue := s.ctx_onCtx _ hk
    rw [x.landDue_of_single_cls hf hdue hc] at hctx
    refine ⟨_, exec_fixedLatencyLand c k s, State.onCtx_mem .., fun d hd => s.core_onCtx_other k _ hd,
      fun j hj => s.ctx_onCtx_other c _ hj, s.spm_core_onCtx c k _, ?_⟩
    rw [hctx]
    refine ⟨rfl, rfl, rfl, fun d n h => ?other, fun h => ?discarded, fun hnw _ hv => ?vector, fun hnw h0 hs => ?scalar,
      fun hnw h0 hp => ?predicate, fun i l hi hl hlatch hgroup hvalid => x.landLatches_loads cls hi hl hlatch hgroup hvalid,
      fun i h => x.landLatches_keeps cls h⟩
    case other => exact x.readReg_landReg_other h
    case discarded => exact x.readReg_landReg_discarded h
    case vector => subst hv; exact x.readV_landReg hnw hnum
    case scalar => subst hs; exact x.readS_landReg hnw hnum h0
    case predicate => subst hp; exact x.readP_landReg hnw hnum h0
  · intro s c k hk hlater
    refine ⟨_, exec_fixedLatencyLand c k s, ?_, State.onCtx_mem ..⟩
    rw [s.ctx_onCtx _ hk, (s.ctx c k).landDue_of_none_due hlater]

end Sys2Proof.Machine
end

section
/-! SUPPORT. O51 fails at its clause on a write of HBMWIN while the window is off. SIZE of a window register is read-only and does not
change while the device runs (R69); the model keeps it through every write (`winSize_windowWrite`), and the clause asks for a register
that holds the writable bits of the written word and nothing else, so with SIZE 0. After reset SIZE is 384. -/
namespace Sys2Proof.Machine

/-- SIZE of a window register (R69). -/
def winSize (w : Word) : Nat := field w 0 11

/-- A write of a window register keeps SIZE, whether the window is on or off, since no bit of SIZE is writable. -/
theorem winSize_windowWrite (old v : Word) {mask : Word} (h : mask.extractLsb' 0 11 = 0#11) :
    winSize (windowWrite old v mask) = winSize old := by
  have hen : (~~~(BitVec.twoPow 64 63) : Word).extractLsb' 0 11 = BitVec.allOnes 11 := by decide
  have hrest : (~~~mask).extractLsb' 0 11 = BitVec.allOnes 11 := by
    rw [BitVec.extractLsb'_not_of_lt (by decide), h]
    rfl
  unfold winSize windowWrite field withMask
  split
  case isTrue =>
    split
    case isTrue => rfl
    case isFalse => rw [BitVec.extractLsb'_and, hen, BitVec.and_allOnes]
  case isFalse =>
    rw [BitVec.extractLsb'_or, BitVec.extractLsb'_and, BitVec.extractLsb'_and, h, hrest, BitVec.and_allOnes, BitVec.and_zero, BitVec.zero_or]

theorem exec_hbmwin_of_holdsSem {s : State} {p : Fin 2} (v : Word) (h : s.holdsSem p = true) :
    exec (.hbmwin p v) s = .next (s.setRegs { s.regs with hbmwin := windowWrite s.regs.hbmwin v 0x801FFFFFC0000000 }) :=
  congrArg Host.Outcome.next (if_pos h)

/-- The device once port 0 has taken the semaphore after reset: both windows are off. -/
def claimedAfterReset : State := { State.reset with regs := { Regs.reset with hsem := some 0 } }

/-- One event leads from reset to this state. -/
theorem exec_hsemAcq_reset : exec (.hsemAcq 0) State.reset = .next claimedAfterReset := rfl

/-- Refutes O51: after reset the holder of the semaphore writes 0 to HBMWIN, whose window is off. The statement has the whole register 0
afterwards; SIZE, which is read-only (R69), is 384 as before. -/
theorem not_deviceRegisters : ¬ Obligations.DeviceRegisters := by
  unfold Obligations.DeviceRegisters
  intro h
  obtain ⟨-, -, hwrites, -⟩ := h
  have hsem : claimedAfterReset.holdsSem 0 = true := by decide
  obtain ⟨-, -, hoff, -⟩ := hwrites claimedAfterReset 0 0 hsem
  have hstates := Host.Outcome.next.inj ((exec_hbmwin_of_holdsSem 0 hsem).symm.trans (hoff (by decide)))
  have hsize : winSize (windowWrite claimedAfterReset.regs.hbmwin 0 0x801FFFFFC0000000) = 0 :=
    congrArg (fun t : State => winSize t.regs.hbmwin) hstates
  rw [winSize_windowWrite _ _ (by decide)] at hsize
  exact absurd hsize (by decide)

end Sys2Proof.Machine
end

section
/-! SUPPORT. The end of a walk, page requests, fills of instruction lines (R72 to R74, R110), and what an invalidation drops (R76): nothing
cached under an ASID lies in its range once the range has been dropped, and nothing comes back while the ASIDs after it are served. -/
namespace Sys2Proof.Machine

/-! ### The end of a walk (R72) -/

/-- A waiter whose walk has found a translation: it is installed, and the operation tries again now. -/
theorem State.settleWaiter_of_ok {s t : State} {die asid page : Nat} {x : Waiter} {e : TlbEntry} {lv : Nat}
    (h : (s.serve x.retry page x.right).walkNow die asid page x.right = (.ok e lv, t)) :
    s.settleWaiter die asid page x = (t.install x.core die 3 e).after 0 x.retry := by
  simp only [State.settleWaiter, h]

/-- A walk that serves no other miss and that one operation waits for is taken out, and settles that operation. -/
theorem execTlbWalkDone_of_alone {s : State} {die id : Nat} {w : Walk} {x : Waiter}
    (hw : s.walks.find? (fun w => decide (w.die = die) && decide (w.id = id)) = some w) (hx : w.waiters = [x])
    (hserved : s.servedWalks w = [w]) :
    execTlbWalkDone die id s
      = .next ((({ s with walks := s.walks.filter fun y => y != w } : State).settleWaiter die w.asid w.page x).startWalks die) := by
  have hgone : (fun y => !([w] : List Walk).contains y) = fun y => y != w := by
    funext y
    rw [List.contains_cons, List.contains_nil, Bool.or_false]
    rfl
  simp only [execTlbWalkDone, hw, hserved, hx, hgone, List.foldl_cons, List.foldl_nil]

/-! ### Page requests (R73, R74) -/

/-- The request that is taken is one of those sent, for the ASID, page and right that are named. -/
theorem State.takeRequest_some {s t : State} {asid page : Nat} {right : Right} {r : PageReq}
    (h : s.takeRequest asid page right = (some r, t)) :
    r ∈ s.pageReqs ∧ r.asid = asid ∧ r.page = page ∧ r.right = right := by
  have hfind := congrArg Prod.fst h
  have hsame := List.find?_some hfind
  simp only [Bool.and_eq_true, decide_eq_true_eq] at hsame
  obtain ⟨⟨⟨hasid, hpage⟩, hright⟩, -⟩ := hsame
  exact ⟨List.mem_of_find?_eq_some hfind, hasid, hpage, hright⟩

/-- The only operation that waits for a request walks again after a successful answer. -/
theorem execPageRequestResponse_success {s t : State} {asid page : Nat} {right : Right} {r : PageReq} {w : Waiter}
    (h : s.takeRequest asid page right = (some r, t)) (hw : r.waiters = [w]) :
    execPageRequestResponse asid page right .success s
      = .next (((t.countAnswer w.retry).unserve w.retry page).after 0 w.retry).sendRequests := by
  simp only [execPageRequestResponse, h, hw, List.foldl_cons, List.foldl_nil]

theorem execPageRequestResponse_of_ne_success {s t : State} {asid page : Nat} {right : Right} {r : PageReq} {ans : PrAnswer}
    (h : s.takeRequest asid page right = (some r, t)) (hans : ans ≠ .success) :
    execPageRequestResponse asid page right ans s = .next (t.failRequest r 10 0).sendRequests := by
  cases ans with
  | success => exact absurd rfl hans
  | failure | invalid => simp only [execPageRequestResponse, h]

theorem State.requestLate_iff (s : State) (r : PageReq) :
    s.requestLate r = true ↔ (s.regs.prqto.extractLsb' 0 32).toNat ≠ 0
      ∧ ∃ since, r.sent = some since ∧ since + (s.regs.prqto.extractLsb' 0 32).toNat ≤ s.now := by
  simp [State.requestLate, Option.any_eq_true]

theorem execPageRequestTimeout_of_late {s t : State} {asid page : Nat} {right : Right} {r : PageReq}
    (h : s.takeRequest asid page right = (some r, t)) (hlate : s.requestLate r = true) :
    execPageRequestTimeout asid page right s = .next (t.failRequest r 11 0).sendRequests := by
  obtain ⟨hmem, hasid, hpage, hright⟩ := State.takeRequest_some h
  have hdue : (s.pageReqs.any fun r =>
      decide (r.asid = asid) && decide (r.page = page) && decide (r.right = right) && s.requestLate r) = true :=
    List.any_eq_true.mpr ⟨r, hmem, by simp [hasid, hpage, hright, hlate]⟩
  simp only [execPageRequestTimeout, hdue, if_true, h]

theorem execPageRequestTimeout_of_none_late {s : State} (asid page : Nat) (right : Right)
    (hlate : ∀ r ∈ s.pageReqs, s.requestLate r = false) : execPageRequestTimeout asid page right s = .next s := by
  have hdue : (s.pageReqs.any fun r =>
      decide (r.asid = asid) && decide (r.page = page) && decide (r.right = right) && s.requestLate r) = false :=
    List.any_eq_false.mpr fun r hr => by simp [hlate r hr]
  simp only [execPageRequestTimeout, hdue, Bool.false_eq_true, if_false]

/-! ### Fills of instruction lines (R110) -/

/-- A fetch whose sector is translated, and whose line then holds the byte it waits for, waits no longer. -/
theorem execIfetchFill_of_filled {s t v : State} {c k u asid va lv : Nat} {e : TlbEntry} (hk : k < 4) (hu : (s.ctx c k).unit = some u)
    (hmiss : s.fetched c k = .missing va) (hasid : (s.ctx c k).csr.asidcur.toNat = asid)
    (hacc : s.access ⟨fetchEvent c u, .x, some c⟩ (dieOf c) asid va = (.ok e lv, t))
    (hv : (t.fillLine c (t.launchOf u) asid va e).forget (fetchEvent c u) = v)
    (hbyte : ((v.core c).fetchByte asid va).isSome = true) :
    execIfetchFill c k s = .next (v.onCtx c k fun y => { y with fetching := none }) := by
  have hfetcher : s.fetcher c k = some (k, u) := by rw [State.fetcher, if_pos hk, hu, Option.map_some]
  simp only [execIfetchFill, hfetcher, hmiss, hasid, hacc, hv, hbyte, if_true]

/-! ### What an invalidation drops (R76, R112) -/

/-- Nothing that is cached for an ASID lies in a range: no translation at any TLB level, no non-leaf entry of a die, and no instruction
line. -/
structure State.Cleared (s : State) (a va n : Nat) : Prop where
  nonLeaf : ∀ e ∈ s.nonLeaf, ¬(e.asid = a ∧ overlaps e.va e.size va n = true)
  dtlb : ∀ x ∈ s.dtlb, ∀ e ∈ x.2, ¬(e.asid = a ∧ overlaps e.va e.size va n = true)
  ctlb : ∀ x ∈ s.ctlb, ∀ e ∈ x.2, ¬(e.asid = a ∧ overlaps e.va e.size va n = true)
  utlb : ∀ x ∈ s.cores, ∀ e ∈ x.2.utlb, ¬(e.asid = a ∧ overlaps e.va e.size va n = true)
  icache : ∀ x ∈ s.cores, ∀ l ∈ x.2.icache, ¬(l.asid = a ∧ overlaps l.va 512 va n = true)

theorem Core.loseCapture_frame (x : Core) (p : ILine → Bool) : ∃ loopBuf lostBuf, x.loseCapture p = { x with loopBuf, lostBuf } := by
  unfold Core.loseCapture
  split
  · exact ⟨none, x.loopBuf, rfl⟩
  · exact ⟨x.loopBuf, x.lostBuf, rfl⟩

@[simp] theorem Core.dropLines_utlb (x : Core) (p : ILine → Bool) : (x.dropLines p).utlb = x.utlb := by
  obtain ⟨_, _, h⟩ := x.loseCapture_frame p
  rw [Core.dropLines, h]

@[simp] theorem Core.dropLines_icache (x : Core) (p : ILine → Bool) : (x.dropLines p).icache = x.icache.filter fun l => !p l := by
  obtain ⟨_, _, h⟩ := x.loseCapture_frame p
  rw [Core.dropLines, h]

/-- What `State.invalidate` drops before it recalls accesses. -/
def State.dropRange (s : State) (a va n : Nat) : State :=
  (s.dropTlb fun b base size => decide (b = a) && overlaps base size va n).dropLines
    fun l => decide (l.asid = a) && overlaps l.va 512 va n

theorem State.invalidate_eq (s : State) (a va n : Nat) : s.invalidate a va n = (s.dropRange a va n).recall a va n := rfl

/-- A filter that drops what lies in a range for ASID `b` leaves nothing of it for ASID `a`, if `a` is `b` or there was nothing before. -/
theorem not_stale_of_mem_filter {α : Type} {l : List α} {asid : α → Nat} {inRange : α → Bool} {a b : Nat}
    (h : b = a ∨ ∀ e ∈ l, ¬(asid e = a ∧ inRange e = true)) :
    ∀ e ∈ l.filter (fun e => !(decide (asid e = b) && inRange e)), ¬(asid e = a ∧ inRange e = true) := by
  intro e he
  obtain ⟨hmem, hkept⟩ := List.mem_filter.mp he
  rcases h with rfl | hnone
  · rintro ⟨hasid, hrange⟩
    simp [hasid, hrange] at hkept
  · exact hnone e hmem

/-- After the drop for an ASID nothing of the range is left for it, and a drop for another ASID brings nothing back. -/
theorem State.cleared_dropRange {s : State} {a b va n : Nat} (h : b = a ∨ s.Cleared a va n) : (s.dropRange b va n).Cleared a va n where
  nonLeaf := not_stale_of_mem_filter (h.imp_right fun h => h.nonLeaf)
  dtlb := List.forall_mem_map.mpr fun x hx => not_stale_of_mem_filter (h.imp_right fun h => h.dtlb x hx)
  ctlb := List.forall_mem_map.mpr fun x hx => not_stale_of_mem_filter (h.imp_right fun h => h.ctlb x hx)
  utlb := List.forall_mem_map.mpr <| List.forall_mem_map.mpr fun x hx => by
    rw [Core.dropLines_utlb]
    exact not_stale_of_mem_filter (h.imp_right fun h => h.utlb x hx)
  icache := List.forall_mem_map.mpr <| List.forall_mem_map.mpr fun x hx => by
    rw [Core.dropLines_icache]
    exact not_stale_of_mem_filter (h.imp_right fun h => h.icache x hx)

/-! ### Accesses that go back to their translation (R76) -/

/-- The recall of one access: its command goes back to its translation and tries again now. -/
def State.recallOne (s : State) (y : Nat × Cmd) : State :=
  (s.onUnit y.1 fun x => { x with cmds := x.cmds.map (Cmd.recalled y.2.n) }).after 0 (y.2.retryEvent y.1)

/-- The accesses of an ASID in a range that have begun to perform, or have not. -/
def State.staleAccesses (s : State) (a va n : Nat) (begun : Bool) : List (Nat × Cmd) :=
  (s.units.filter fun u => decide (u.2.asid = a)).flatMap fun u => (u.2.staleCmds begun va n).map fun k => (u.1, k)

theorem State.recall_eq (s : State) (a va n : Nat) :
    s.recall a va n = ((s.staleAccesses a va n true).map fun y => (y.1, y.2.n), (s.staleAccesses a va n false).foldl State.recallOne s) := rfl

/-- A recall changes units and the agenda only. -/
theorem State.recall_frame (s : State) (a va n : Nat) : ∃ units agenda, (s.recall a va n).2 = { s with units, agenda } := by
  rw [State.recall_eq]
  refine List.foldlRecOn _ State.recallOne (motive := fun t => ∃ units agenda, t = { s with units, agenda }) ⟨s.units, s.agenda, rfl⟩ ?_
  rintro _ ⟨units, agenda, rfl⟩ y -
  exact ⟨_, _, rfl⟩

/-- No command of any unit has begun to perform. -/
def State.NoneBegun (s : State) : Prop := ∀ x ∈ s.units, ∀ c ∈ x.2.cmds, c.begun = false

theorem mem_of_mem_alter {α : Type} {l : List (Nat × α)} {k : Nat} {f : α → α} {x : Nat × α} (h : x ∈ alter l k f) :
    x ∈ l ∨ ∃ y ∈ l, x.2 = f y.2 := by
  induction l with
  | nil => exact .inl h
  | cons y rest ih =>
    unfold alter at h
    split at h
    all_goals rcases List.mem_cons.mp h with rfl | hrest
    · exact .inr ⟨y, List.mem_cons_self, rfl⟩
    · exact .inl (List.mem_cons_of_mem _ hrest)
    · exact .inl List.mem_cons_self
    · exact (ih hrest).imp (List.mem_cons_of_mem _) fun ⟨z, hz, hx⟩ => ⟨z, List.mem_cons_of_mem _ hz, hx⟩

@[simp] theorem Cmd.recalled_begun (n : Nat) (c : Cmd) : (c.recalled n).begun = c.begun := by
  unfold Cmd.recalled
  split <;> rfl

theorem State.NoneBegun.recallOne {s : State} (h : s.NoneBegun) (y : Nat × Cmd) : (s.recallOne y).NoneBegun := by
  intro x hx
  rcases mem_of_mem_alter hx with hold | ⟨z, hz, hx2⟩
  · exact h x hold
  · rw [hx2]
    exact List.forall_mem_map.mpr fun c hc => (c.recalled_begun _).trans (h z hz c hc)

theorem State.NoneBegun.recall {s : State} (h : s.NoneBegun) (a va n : Nat) : (s.recall a va n).2.NoneBegun := by
  rw [State.recall_eq]
  exact List.foldlRecOn _ State.recallOne h fun t ht y _ => State.NoneBegun.recallOne ht y

theorem State.NoneBegun.recall_fst {s : State} (h : s.NoneBegun) (a va n : Nat) : (s.recall a va n).1 = [] := by
  rw [State.recall_eq, List.map_eq_nil_iff, State.staleAccesses, List.flatMap_eq_nil_iff]
  intro u hu
  rw [List.map_eq_nil_iff, Unit.staleCmds, List.filter_eq_nil_iff]
  intro c hc
  simp [h u (List.mem_of_mem_filter hu) c hc]

/-! ### An invalidation of one ASID, and of all ASIDs with a PASID (R76) -/

theorem State.cleared_invalidate {s : State} {a b va n : Nat} (h : b = a ∨ s.Cleared a va n) : (s.invalidate b va n).2.Cleared a va n := by
  obtain ⟨units, agenda, hframe⟩ := (s.dropRange b va n).recall_frame b va n
  obtain ⟨hnonLeaf, hdtlb, hctlb, hutlb, hicache⟩ := State.cleared_dropRange h
  rw [State.invalidate_eq, hframe]
  exact ⟨hnonLeaf, hdtlb, hctlb, hutlb, hicache⟩

/-- An invalidation changes no memory, sends nothing and leaves the waiting completions. -/
theorem State.invalidate_frame (s : State) (a va n : Nat) :
    (s.invalidate a va n).2.mem = s.mem ∧ (s.invalidate a va n).2.outs = s.outs ∧ (s.invalidate a va n).2.invals = s.invals := by
  obtain ⟨units, agenda, hframe⟩ := (s.dropRange a va n).recall_frame a va n
  rw [State.invalidate_eq, hframe]
  exact ⟨rfl, rfl, rfl⟩

theorem State.NoneBegun.invalidate {s : State} (h : s.NoneBegun) (a va n : Nat) :
    (s.invalidate a va n).1 = [] ∧ (s.invalidate a va n).2.NoneBegun :=
  have hdrop : (s.dropRange a va n).NoneBegun := h
  ⟨hdrop.recall_fst a va n, hdrop.recall a va n⟩

/-- One ASID of an ATS invalidate: what the completion waits for so far, and the state. -/
def State.invalidateNext (va n : Nat) (acc : List (Nat × Nat) × State) (a : Nat) : List (Nat × Nat) × State :=
  (acc.1 ++ (acc.2.invalidate a va n).1, (acc.2.invalidate a va n).2)

/-- The ASIDs one after the other, as `execAtsInvalidate` takes them. -/
def State.invalidateAll (s : State) (va n : Nat) (asids : List Nat) : List (Nat × Nat) × State :=
  asids.foldl (State.invalidateNext va n) ([], s)

/-- The ASIDs whose cached entry carries a PASID, in any die. -/
def State.asidsOf (s : State) (pasid : BitVec 20) : List Nat :=
  ((s.asids.filter fun x => x.2.pasid == pasid).map fun x => x.1 % 2048).eraseDups

theorem State.mem_asidsOf {s : State} {pasid : BitVec 20} {a : Nat × AsidEntry} (h : a ∈ s.asids) (hp : a.2.pasid = pasid) :
    a.1 % 2048 ∈ s.asidsOf pasid :=
  List.mem_eraseDups.mpr (List.mem_map.mpr ⟨a, List.mem_filter.mpr ⟨h, beq_iff_eq.mpr hp⟩, rfl⟩)

/-- The state after an ATS invalidate whose ASIDs are done: the completion is sent, or waits for the accesses named. -/
def State.answerAts (pasid : BitVec 20) (r : List (Nat × Nat) × State) : State :=
  if r.1.isEmpty then { r.2 with outs := r.2.outs ++ [.invalidated pasid] }
  else { r.2 with invals := r.2.invals ++ [⟨some pasid, none, r.1⟩] }

theorem exec_atsInvalidate (pasid : BitVec 20) (va bytes : Word) (s : State) :
    exec (.atsInvalidate pasid va bytes) s
      = .next (State.answerAts pasid (s.invalidateAll (va56 va) bytes.toNat (s.asidsOf pasid))) := rfl

/-- Every ASID that an invalidation has come to is cleared in the end, and what was clear before stays so. -/
theorem State.cleared_foldl_invalidateNext {asids : List Nat} {acc : List (Nat × Nat) × State} {a va n : Nat}
    (h : a ∈ asids ∨ acc.2.Cleared a va n) : (asids.foldl (State.invalidateNext va n) acc).2.Cleared a va n := by
  induction asids generalizing acc with
  | nil => exact h.resolve_left List.not_mem_nil
  | cons b rest ih =>
    refine ih ?_
    rcases h with hmem | hclear
    · rcases List.mem_cons.mp hmem with rfl | hrest
      · exact .inr (State.cleared_invalidate (.inl rfl))
      · exact .inl hrest
    · exact .inr (State.cleared_invalidate (.inr hclear))

theorem State.invalidateAll_frame (s : State) (va n : Nat) (asids : List Nat) :
    (s.invalidateAll va n asids).2.mem = s.mem ∧ (s.invalidateAll va n asids).2.outs = s.outs
      ∧ (s.invalidateAll va n asids).2.invals = s.invals := by
  refine List.foldlRecOn asids (State.invalidateNext va n) (b := ([], s))
    (motive := fun r => r.2.mem = s.mem ∧ r.2.outs = s.outs ∧ r.2.invals = s.invals) ⟨rfl, rfl, rfl⟩ ?_
  rintro r ⟨hmem, houts, hinvals⟩ a -
  obtain ⟨hmem', houts', hinvals'⟩ := r.2.invalidate_frame a va n
  exact ⟨hmem'.trans hmem, houts'.trans houts, hinvals'.trans hinvals⟩

theorem State.NoneBegun.invalidateAll_fst {s : State} (h : s.NoneBegun) (va n : Nat) (asids : List Nat) :
    (s.invalidateAll va n asids).1 = [] := by
  have hall : (s.invalidateAll va n asids).1 = [] ∧ (s.invalidateAll va n asids).2.NoneBegun := by
    refine List.foldlRecOn asids (State.invalidateNext va n) (b := ([], s)) (motive := fun r => r.1 = [] ∧ r.2.NoneBegun) ⟨rfl, h⟩ ?_
    rintro r ⟨hnil, hnone⟩ a -
    obtain ⟨hnil', hnone'⟩ := hnone.invalidate a va n
    exact ⟨List.append_eq_nil_iff.mpr ⟨hnil, hnil'⟩, hnone'⟩
  exact hall.1

theorem State.answerAts_nil {pasid : BitVec 20} {r : List (Nat × Nat) × State} (h : r.1 = []) :
    State.answerAts pasid r = { r.2 with outs := r.2.outs ++ [.invalidated pasid] } :=
  if_pos (List.isEmpty_iff.mpr h)

theorem State.answerAts_waits {pasid : BitVec 20} {r : List (Nat × Nat) × State} (h : r.1 ≠ []) :
    State.answerAts pasid r = { r.2 with invals := r.2.invals ++ [⟨some pasid, none, r.1⟩] } :=
  if_neg (mt List.isEmpty_iff.mp h)

/-- Whether or not the completion waits, the answer changes what is sent and what waits, and nothing else. -/
theorem State.answerAts_frame (pasid : BitVec 20) (r : List (Nat × Nat) × State) :
    ∃ outs invals, State.answerAts pasid r = { r.2 with outs, invals } := by
  by_cases h : r.1 = []
  · exact ⟨_, r.2.invals, State.answerAts_nil h⟩
  · exact ⟨r.2.outs, _, State.answerAts_waits h⟩

/-- Settles O43. The events of walks, page requests and fills are read off from their meanings; for an invalidation, each ASID with the
PASID is cleared when its turn comes and stays clear. -/
theorem translationEvents : Obligations.TranslationEvents := by
  unfold Obligations.TranslationEvents
  refine fun s => ⟨?walk, ?answer, ?waits, ?fill, ?invalidate⟩
  case walk =>
    intro die id w x e lv t hw hx hserved hwalk
    exact (execTlbWalkDone_of_alone hw hx hserved).trans (by rw [State.settleWaiter_of_ok hwalk])
  case answer =>
    intro asid page right r t htake
    refine ⟨fun w hw => execPageRequestResponse_success htake hw, fun ans hans => execPageRequestResponse_of_ne_success htake hans, ?_⟩
    intro since hsent hlimit hlate
    exact execPageRequestTimeout_of_late htake ((s.requestLate_iff r).mpr ⟨hlimit, since, hsent, hlate⟩)
  case waits =>
    intro asid page right hnot
    refine execPageRequestTimeout_of_none_late asid page right fun r hr => Bool.eq_false_of_not_eq_true fun hlate => ?_
    obtain ⟨hlimit, since, hsent, hdue⟩ := (s.requestLate_iff r).mp hlate
    rcases hnot with hzero | hearly
    · exact hlimit (congrArg BitVec.toNat hzero)
    · exact absurd hdue (Nat.not_le.mpr (hearly r hr since hsent))
  case fill =>
    intro c k u va e lv t hk hu hmiss asid hacc v hbyte
    exact execIfetchFill_of_filled hk hu hmiss rfl hacc rfl hbyte
  case invalidate =>
    intro pasid va bytes
    obtain ⟨hmem, houts, hinvals⟩ := s.invalidateAll_frame (va56 va) bytes.toNat (s.asidsOf pasid)
    refine ⟨_, exec_atsInvalidate pasid va bytes s, ?_, ?_, ?_, ?_⟩
    · obtain ⟨_, _, hframe⟩ := State.answerAts_frame pasid (s.invalidateAll (va56 va) bytes.toNat (s.asidsOf pasid))
      rw [hframe]
      exact hmem
    · intro hnone
      rw [State.answerAts_nil (State.NoneBegun.invalidateAll_fst hnone _ _ _), houts]
    · by_cases hnil : (s.invalidateAll (va56 va) bytes.toNat (s.asidsOf pasid)).1 = []
      · rw [State.answerAts_nil hnil, houts]
        exact .inl ⟨rfl, hinvals⟩
      · rw [State.answerAts_waits hnil, hinvals]
        exact .inr ⟨houts, _, hnil, rfl⟩
    · intro a ha hp
      obtain ⟨hnonLeaf, hdtlb, hctlb, hutlb, hicache⟩ : (s.invalidateAll (va56 va) bytes.toNat (s.asidsOf pasid)).2.Cleared _ _ _ :=
        State.cleared_foldl_invalidateNext (.inl (State.mem_asidsOf ha hp))
      obtain ⟨_, _, hframe⟩ := State.answerAts_frame pasid (s.invalidateAll (va56 va) bytes.toNat (s.asidsOf pasid))
      rw [hframe]
      exact ⟨hnonLeaf, hdtlb, hctlb, hutlb, hicache⟩

end Sys2Proof.Machine
end

section
/-! SUPPORT. EXIT, YIELD, CANCEL and arrivals at barriers (R91 to R94, R201, R202). -/
namespace Sys2Proof.Machine

/-! ### The issuing context, its core and its unit -/

@[simp] theorem State.myCore_onMyCore (s : State) (f : Core → Core) : (s.onMyCore f).myCore = f s.myCore := State.core_onCore s _ f

@[simp] theorem State.unit_onMyCore (s : State) (u : Nat) (f : Core → Core) : (s.onMyCore f).unit u = s.unit u := rfl

@[simp] theorem State.unit_onMyUnit (s : State) (f : Unit → Unit) : (s.onMyUnit f).unit s.myUnit = (s.unit s.myUnit).map f :=
  State.unit_onUnit s _ f

/-! ### EXIT (R91) -/

/-- A context that gives up the lease neither holds it nor asks for it. -/
theorem Mat.not_mem_giveUp (x : Mat) (k : Nat) : (x.giveUp k).holder ≠ some k ∧ k ∉ (x.giveUp k).requests := by
  unfold Mat.giveUp
  dsimp only
  split
  case isTrue => exact ⟨nofun, by simp⟩
  case isFalse h => exact ⟨h, by simp⟩

/-- The effect of EXIT. -/
def State.exitUnit (s : State) : State :=
  (s.onMyUnit fun x => { x with exited := true, life := .draining, asyncs := [] }).onMyCore fun y =>
    { y with mat := y.mat.giveUp s.iss.ctx }

theorem exec_exit {s : State} (h : s.Calm) : exec .exit s = .next s.exitUnit.slotEnd := slotOp_calm h rfl

theorem State.me_exitUnit (s : State) : s.exitUnit.me = s.me := State.me_onMyCore _ _ fun _ => rfl

theorem State.myCore_exitUnit (s : State) : s.exitUnit.myCore = { s.myCore with mat := s.myCore.mat.giveUp s.iss.ctx } :=
  State.myCore_onMyCore _ _

/-! ### YIELD (R202) -/

theorem exec_yield_dynamic {s : State} (h : s.Calm) (n : BitVec 20) (hs : s.isStatic s.iss.core s.iss.ctx = false) :
    exec (.yield n) s = .next (s.onMe fun x => { x with yielded := some n.toNat }).slotEnd :=
  slotOp_calm h (by simp [hs])

theorem exec_yield_static {s : State} (h : s.Calm) (n : BitVec 20) (hs : s.isStatic s.iss.core s.iss.ctx = true) :
    exec (.yield n) s = .next s.slotEnd :=
  slotOp_calm h (by simp [hs])

/-! ### CANCEL (R94, R201) -/

theorem bodyCancel_ok {f : State → Nat → State} {s : State} {a : Src} {x : Word} (ha : s.srcS a = .ok x) :
    bodyCancel f a s = .ok (f s (x.toNat % 2 ^ 16)) := by
  simp [bodyCancel, ha, bind, Except.bind, reasonOf]

/-! ### Arrivals at barriers (R93) -/

/-- The barrier that an arrival of the issuing unit joins. -/
def State.barrierMet (s : State) (scope n : Nat) : Option Barrier :=
  (((find s.launches (s.launchOf s.myUnit)).map (·.barriers)).getD []).find? fun b => b.joins scope (barInst scope s.iss.core) n

/-- The arrival as a barrier lists it: the unit, and the last of its accesses that comes before. -/
def State.arrival (s : State) : Nat × Nat := (s.myUnit, s.me.csr.tlLsu.toNat)

/-- The context waits at a barrier. -/
def State.waitAtBarrier (t : State) (slot : Slot) : State := t.onMe fun y => { y with arrived := true, barSlot := some slot }

section
variable {s : State} {scope : Nat} {n : Fin 32} {a : Src} {x : Word}

theorem bodyBar_opens (ha : s.srcS a = .ok x) (h0 : 0 < x.toNat) (hl : x.toNat ≤ barLimit scope) (hmet : s.barrierMet scope n.val = none) :
    bodyBar scope n a s = .ok ((s.onLaunch (s.launchOf s.myUnit) fun y => { y with
      barriers := y.barriers ++ [⟨scope, barInst scope s.iss.core, n.val, x.toNat, [s.arrival]⟩] }).waitAtBarrier s.iss.slot) := by
  have hcount : ¬(x.toNat = 0 ∨ barLimit scope < x.toNat) := by omega
  unfold State.barrierMet at hmet
  simp only [bodyBar, ha, bind, Except.bind, hcount, if_false, hmet]
  rfl

theorem bodyBar_joins {b : Barrier} (ha : s.srcS a = .ok x) (h0 : 0 < x.toNat) (hl : x.toNat ≤ barLimit scope)
    (hmet : s.barrierMet scope n.val = some b) (hb : b.count = x.toNat) :
    bodyBar scope n a s = .ok ((s.onLaunch (s.launchOf s.myUnit) fun y => { y with
      barriers := y.barriers.map (Barrier.arrive scope (barInst scope s.iss.core) n.val s.arrival) }).waitAtBarrier s.iss.slot) := by
  have hcount : ¬(x.toNat = 0 ∨ barLimit scope < x.toNat) := by omega
  unfold State.barrierMet at hmet
  simp only [bodyBar, ha, bind, Except.bind, hcount, if_false, hmet, hb, ne_eq, not_true_eq_false]
  rfl

theorem bodyBar_mismatch (ha : s.srcS a = .ok x)
    (h : x.toNat = 0 ∨ barLimit scope < x.toNat ∨ ∃ b, s.barrierMet scope n.val = some b ∧ b.count ≠ x.toNat) :
    bodyBar scope n a s = .error barrierMismatch := by
  simp only [bodyBar, ha, bind, Except.bind]
  split
  case isTrue => rfl
  case isFalse hcount =>
    obtain ⟨b, hmet, hb⟩ : ∃ b, s.barrierMet scope n.val = some b ∧ b.count ≠ x.toNat := by
      rcases h with h | h | h
      · exact absurd (.inl h) hcount
      · exact absurd (.inr h) hcount
      · exact h
    unfold State.barrierMet at hmet
    simp only [hmet, hb, ne_eq, not_false_eq_true, if_true]

end

/-- The three barrier instructions with their scopes. -/
theorem exec_bar {n : Fin 32} {a : Src} {f : Instr × Nat × Nat}
    (hf : f ∈ [(Instr.barClu n a, 0, 32), (.barDie n a, 1, 512), (.barDev n a, 2, 2048)]) (s : State) :
    exec f.1 s = slotOp true (bodyBar f.2.1 n a) s ∧ f.2.2 = barLimit f.2.1 := by
  simp only [List.mem_cons, List.not_mem_nil, or_false] at hf
  rcases hf with rfl | rfl | rfl <;> exact ⟨rfl, rfl⟩

/-- Settles O14: each operation's effect is read off from its meaning, and the barrier that an arrival meets decides its three cases. -/
theorem endsAndBarriers : Obligations.EndsAndBarriers := by
  unfold Obligations.EndsAndBarriers
  refine ⟨⟨fun s h => ⟨?exit, fun n hs => exec_yield_dynamic h n hs, fun n hs => exec_yield_static h n hs⟩, ?cancel⟩, ?barriers⟩
  case exit =>
    obtain ⟨hholder, hrequests⟩ := s.myCore.mat.not_mem_giveUp s.iss.ctx
    refine ⟨s.exitUnit, exec_exit h, fun x hx => ?_, ?_, ?_, s.me_exitUnit, rfl, ?_⟩
    · rw [State.exitUnit, State.unit_onMyCore, State.unit_onMyUnit, hx, Option.map_some]
    · rw [State.myCore_exitUnit]
      exact hholder
    · rw [State.myCore_exitUnit]
      exact hrequests
    · rw [State.myCore_exitUnit]
  case cancel =>
    intro s a x h ha
    exact ⟨slotOp_calm h (bodyCancel_ok ha), slotOp_calm h (bodyCancel_ok ha), slotOp_calm h (bodyCancel_ok ha), slotOp_calm h (bodyCancel_ok ha)⟩
  case barriers =>
    intro s n a x h ha f hf
    obtain ⟨hexec, hlimit⟩ := exec_bar hf s
    rw [hexec, hlimit]
    exact ⟨fun h0 hl hmet => slotOp_calm h (bodyBar_opens ha h0 hl hmet),
      fun b hmet h0 hl hb => slotOp_calm h (bodyBar_joins ha h0 hl hmet hb),
      fun hbad => slotOp_fault h (bodyBar_mismatch ha hbad)⟩

end Sys2Proof.Machine
end

section
/-! SUPPORT. SPAWN (R90, R105): where a unit is resident, what handing a command to an engine leaves of the context, and the weight that
the issuing unit keeps. -/
namespace Sys2Proof.Machine

/-! ### Where a unit is resident -/

/-- The core and the context of a unit. -/
def State.seatOf (s : State) (u : Nat) : Option (Nat × Nat) := (s.unit u).map fun x => (x.core, x.ctx)

theorem State.seatOf_onUnit (s : State) (u v : Nat) {f : Unit → Unit} (hf : ∀ x, (f x).core = x.core ∧ (f x).ctx = x.ctx) :
    (s.onUnit u f).seatOf v = s.seatOf v := by
  unfold State.seatOf
  by_cases hv : v = u
  · subst hv
    rw [State.unit_onUnit, Option.map_map]
    congr 1
    funext x
    exact Prod.ext (hf x).1 (hf x).2
  · rw [State.unit_onUnit_other s f hv]

/-- A change of the bank state of a resident unit is one of its context. -/
theorem State.onBank_of_resident {s : State} {u c k : Nat} (f : Ctx → Ctx) (hseat : s.seatOf u = some (c, k))
    (hres : (s.ctx c k).unit = some u) : s.onBank u f = s.onCtx c k f := by
  unfold State.seatOf at hseat
  obtain ⟨x, hx, hck⟩ := Option.map_eq_some_iff.mp hseat
  obtain ⟨rfl, rfl⟩ := Prod.mk.inj hck
  simp only [State.onBank, hx, hres, if_true]

/-! ### A command handed to an engine: the context and the unit afterwards -/

@[simp] theorem Csrs.setTl_uweight (c : Csrs) (e : Engine) (w : Word) : (c.setTl e w).uweight = c.uweight := by
  cases e <;> rfl

theorem State.me_tlNext {s : State} (hk : s.iss.ctx < 4) (e : Engine) :
    (s.tlNext e).2.me = { s.me with csr := s.me.csr.setTl e (BitVec.ofNat 64 ((s.me.csr.tl e).toNat + 1)) } := by
  unfold State.tlNext State.onMyUnit
  dsimp only
  rw [State.me_onUnit, State.me_onMe s _ hk]

theorem State.seatOf_tlNext (s : State) (e : Engine) (u : Nat) : (s.tlNext e).2.seatOf u = s.seatOf u := by
  unfold State.tlNext State.onMyUnit
  dsimp only
  rw [State.seatOf_onUnit]
  · rfl
  · exact fun _ => ⟨rfl, rfl⟩

/-- A command takes its number and a place in its core, and is the last of its unit's commands. -/
theorem State.command_eq (s : State) (e : Engine) (op : Instr) (f : Nat → Cmd → Cmd) :
    ∃ c, s.command e op f = ((s.tlNext e).2.onMyCore fun x => { x with nextPlace := x.nextPlace + 1 }).onMyUnit
      fun u => { u with cmds := u.cmds ++ [c] } := ⟨_, rfl⟩

theorem State.me_command {s : State} (hk : s.iss.ctx < 4) (e : Engine) (op : Instr) (f : Nat → Cmd → Cmd) :
    (s.command e op f).me = { s.me with csr := s.me.csr.setTl e (BitVec.ofNat 64 ((s.me.csr.tl e).toNat + 1)) } := by
  obtain ⟨c, hc⟩ := s.command_eq e op f
  rw [hc, State.onMyUnit, State.me_onUnit]
  rw [State.me_onMyCore]
  · exact State.me_tlNext hk e
  · exact fun _ => rfl

theorem State.seatOf_command (s : State) (e : Engine) (op : Instr) (f : Nat → Cmd → Cmd) (u : Nat) :
    (s.command e op f).seatOf u = s.seatOf u := by
  obtain ⟨c, hc⟩ := s.command_eq e op f
  rw [hc, State.onMyUnit, State.seatOf_onUnit]
  · exact s.seatOf_tlNext e u
  · exact fun _ => ⟨rfl, rfl⟩

theorem State.me_lsuCommand {s : State} (hk : s.iss.ctx < 4) (op : Instr) (f : Nat → Cmd → Cmd) :
    (s.lsuCommand op f).me = { s.me with csr := s.me.csr.setTl .lsu (BitVec.ofNat 64 ((s.me.csr.tl .lsu).toNat + 1)) } :=
  State.me_command (s := s.draw.2) hk .lsu op _

theorem State.seatOf_lsuCommand (s : State) (op : Instr) (f : Nat → Cmd → Cmd) (u : Nat) : (s.lsuCommand op f).seatOf u = s.seatOf u :=
  State.seatOf_command s.draw.2 .lsu op _ u

theorem State.Sends.imp {s t : State} {e : Engine} {op : Instr} {P Q : Cmd → Prop} (h : s.Sends t e op P) (hPQ : ∀ c, P c → Q c) :
    s.Sends t e op Q := by
  obtain ⟨x, y, c, hx, hy, hcmds, heng, hop, hn, hpc, hstage, htl, hopen, hP⟩ := h
  exact ⟨x, y, c, hx, hy, hcmds, heng, hop, hn, hpc, hstage, htl, hopen, hPQ c hP⟩

/-- A later change of the context that leaves the timelines leaves what has been sent. -/
theorem State.Sends.onMe {s t : State} {e : Engine} {op : Instr} {P : Cmd → Prop} (h : s.Sends t e op P) (hk : t.iss.ctx < 4)
    {g : Ctx → Ctx} (hg : ∀ x, (g x).csr.tl e = x.csr.tl e) : s.Sends (t.onMe g) e op P := by
  obtain ⟨x, y, c, hx, hy, hcmds, heng, hop, hn, hpc, hstage, htl, hopen, hP⟩ := h
  refine ⟨x, y, c, hx, hy, hcmds, heng, hop, hn, hpc, hstage, ?_, hopen, hP⟩
  rw [State.me_onMe t g hk, hg, htl]

/-- A landing that an instruction takes changes nothing of its unit's commands and timelines. -/
theorem State.sameUnit_takeLanding (s : State) (cls : RegCls) (num : Nat) (eng : Option (Engine × Nat)) :
    s.SameUnit (s.takeLanding cls num eng).2 := by
  refine ⟨rfl, rfl, fun _ => rfl, fun x hx => ⟨_, (State.unit_onMyUnit s _).trans (congrArg (Option.map _) hx), rfl, rfl⟩⟩

/-! ### SPAWN (R90, R105) -/

/-- The weight that a SPAWN gives: its source, or half of what the unit has. -/
def spawnGive (own w : Word) : Word := if w = 0 then own / 2 else w

/-- The state once the LSU has the SPAWN: it takes a landing for the unit's number, and the LSU has the address and the weight. -/
def State.spawnSent (s : State) (d : Fin 32) (a b : Src) (addr give : Word) : State :=
  let r := s.takeLanding .s d.val (some (.lsu, s.me.csr.tlLsu.toNat + 1))
  r.2.lsuCommand (.spawn d a b) fun _ c => { c with a := addr, b := give, land := some r.1, after := 0 }

section
variable {s : State} {d : Fin 32} {a b : Src} {x w : Word} (h : s.Calm) (ha : s.srcS a = .ok x) (hb : s.srcS b = .ok w)
include h ha hb

theorem exec_spawn_sends (hx : canonical x = true) (hal : x.toNat % 64 = 0) (hown : s.me.csr.uweight ≠ 1)
    (hlt : spawnGive s.me.csr.uweight w < s.me.csr.uweight) :
    exec (.spawn d a b) s = .next ((s.spawnSent d a b x (spawnGive s.me.csr.uweight w)).giveWeight
      (s.spawnSent d a b x (spawnGive s.me.csr.uweight w)).myUnit fun v => v - spawnGive s.me.csr.uweight w).slotEnd := by
  refine slotOp_calm h ?_
  have hle : ¬ s.me.csr.uweight ≤ spawnGive s.me.csr.uweight w := BitVec.not_le.mpr hlt
  unfold spawnGive at hle ⊢
  simp only [ha, hb, bind, Except.bind, hx, Bool.not_true, Bool.false_eq_true, if_false, hal, ne_eq, not_true_eq_false, hown, hle,
    or_self]
  rfl

theorem exec_spawn_descriptor (hx : canonical x = true) (hal : x.toNat % 64 ≠ 0) :
    exec (.spawn d a b) s = .next (s.slotFault spawnDescriptor) :=
  slotOp_fault h (by simp only [ha, hb, bind, Except.bind, hx, Bool.not_true, Bool.false_eq_true, if_false, hal, ne_eq,
    not_false_eq_true, if_true])

theorem exec_spawn_weight (hx : canonical x = true) (hal : x.toNat % 64 = 0)
    (hweight : s.me.csr.uweight = 1 ∨ s.me.csr.uweight ≤ spawnGive s.me.csr.uweight w) :
    exec (.spawn d a b) s = .next (s.slotFault weightExhausted) := by
  refine slotOp_fault h ?_
  unfold spawnGive at hweight
  simp only [ha, hb, bind, Except.bind, hx, Bool.not_true, Bool.false_eq_true, if_false, hal, ne_eq, not_true_eq_false, hweight, if_true]

end

theorem State.me_spawnSent {s : State} (hk : s.iss.ctx < 4) (d : Fin 32) (a b : Src) (addr give : Word) :
    (s.spawnSent d a b addr give).me = { s.me with csr := s.me.csr.setTl .lsu (BitVec.ofNat 64 ((s.me.csr.tl .lsu).toNat + 1)) } :=
  State.me_lsuCommand (s := (s.takeLanding .s d.val (some (.lsu, s.me.csr.tlLsu.toNat + 1))).2) hk _ _

/-- The command of a SPAWN carries the address of the descriptor, the weight and the landing. -/
theorem State.spawnSent_sends {s : State} (hs : s.Seated) (d : Fin 32) (a b : Src) (addr give : Word) :
    s.Sends (s.spawnSent d a b addr give) .lsu (.spawn d a b) fun c => c.a = addr ∧ c.b = give ∧ c.land.isSome = true := by
  obtain ⟨c0, hsends⟩ := State.lsuCommand_sends hs (s.sameUnit_takeLanding .s d.val (some (.lsu, s.me.csr.tlLsu.toNat + 1)))
    (.spawn d a b)
    (fun _ c => { c with
      a := addr, b := give, land := some (s.takeLanding .s d.val (some (.lsu, s.me.csr.tlLsu.toNat + 1))).1, after := 0 })
    fun _ _ => ⟨rfl, rfl, rfl, rfl, rfl⟩
  refine State.Sends.imp hsends fun c hc => ?_
  rw [hc]
  exact ⟨rfl, rfl, rfl⟩

/-- A landing leaves the unit where it is resident. -/
theorem State.seatOf_takeLanding (s : State) (cls : RegCls) (num : Nat) (eng : Option (Engine × Nat)) (u : Nat) :
    (s.takeLanding cls num eng).2.seatOf u = s.seatOf u :=
  State.seatOf_onUnit s _ u fun _ => ⟨rfl, rfl⟩

/-- After the SPAWN is with the LSU, the unit's bank state is still its context's. -/
theorem State.onBank_spawnSent {s : State} (hs : s.Seated) (d : Fin 32) (a b : Src) (addr give : Word) (f : Ctx → Ctx) :
    (s.spawnSent d a b addr give).onBank (s.spawnSent d a b addr give).myUnit f = (s.spawnSent d a b addr give).onMe f := by
  obtain ⟨-, hk, u, x, hu, hx, hcore, hctx⟩ := hs
  have hme : (s.spawnSent d a b addr give).me.unit = some u := by
    rw [State.me_spawnSent hk]
    exact hu
  have hmy : (s.spawnSent d a b addr give).myUnit = u := by rw [State.myUnit, hme]; rfl
  have hseat : (s.spawnSent d a b addr give).seatOf u = some (s.iss.core, s.iss.ctx) := by
    rw [State.spawnSent, State.seatOf_lsuCommand, State.seatOf_takeLanding, State.seatOf, hx, Option.map_some, hcore, hctx]
  rw [hmy]
  exact State.onBank_of_resident f hseat hme

/-- Settles O15: the LSU's command is `State.lsuCommand_sends`; the weight is then taken from the context, in which the unit is resident. -/
theorem spawnResults : Obligations.SpawnResults := by
  unfold Obligations.SpawnResults
  intro s d a b x w h hs ha hb
  refine ⟨?sends, exec_spawn_descriptor h ha hb, exec_spawn_weight h ha hb⟩
  case sends =>
    intro hx hal hown hlt
    refine ⟨_, exec_spawn_sends h ha hb hx hal hown hlt, ?_⟩
    have hk : s.iss.ctx < 4 := hs.2.1
    have hsent := State.spawnSent_sends hs d a b x (spawnGive s.me.csr.uweight w)
    have hme := State.me_onMe (s.spawnSent d a b x (spawnGive s.me.csr.uweight w))
      (fun y => { y with csr := y.csr.setWeight (y.csr.uweight - spawnGive s.me.csr.uweight w) }) hk
    rw [State.me_spawnSent hk] at hme
    rw [State.giveWeight, State.onBank_spawnSent hs]
    refine ⟨hsent.onMe hk fun _ => rfl, ?_, ?_, rfl⟩
    · rw [hme, Csrs.setWeight, Csrs.setTl_uweight]
      rfl
    · rw [hme]

end Sys2Proof.Machine
end

section
/-! SUPPORT. The host's commands (R76, R79 to R81, R94, R96, R97, R336, R409): a completion, and what an invalidation leaves. -/
namespace Sys2Proof.Machine

/-! ### A store at the home leaves the ports (R315, R336) -/

@[simp] theorem State.homeWrite_ports (s : State) (pa : Nat) (l : List Byte) (wk : Option (BitVec 512)) :
    (s.homeWrite pa l wk).ports = s.ports := by
  unfold State.homeWrite
  dsimp only
  split <;> rfl

@[simp] theorem State.report_ports (s : State) (kind index place : Nat) : (s.report kind index place).ports = s.ports := by
  simp only [State.report, apply_ite State.ports, State.msix, ite_self]

@[simp] theorem State.writeBackSector_ports (s : State) (pa : Nat) (l : L2Line) (i : Nat) :
    (s.writeBackSector pa l i).ports = s.ports := by
  simp only [State.writeBackSector, apply_ite State.ports, State.report_ports, State.homeWrite_ports, ite_self]

@[simp] theorem State.clean_ports (s : State) (die pa : Nat) : (s.clean die pa).ports = s.ports := by
  unfold State.clean
  split
  case h_1 l _ =>
    exact List.foldlRecOn (List.range 4) _ (motive := fun t : State => t.ports = s.ports) rfl
      fun t ht i _ => (t.writeBackSector_ports pa l i).trans ht
  case h_2 => rfl

@[simp] theorem State.evict_ports (s : State) (die pa : Nat) : (s.evict die pa).ports = s.ports := s.clean_ports die pa

theorem State.onHolders_evict_ports (s : State) (pa : Nat) : (s.onHolders pa fun s d => s.evict d pa).ports = s.ports :=
  List.foldlRecOn _ _ (motive := fun t : State => t.ports = s.ports) rfl fun t ht d _ => (t.evict_ports d pa).trans ht

@[simp] theorem State.poke_ports (s : State) (pa : Nat) (l : List Byte) (wk : Option (BitVec 512)) : (s.poke pa l wk).ports = s.ports :=
  List.foldlRecOn (sectorPieces pa l.length) _ (b := (l, s)) (motive := fun r : List Byte × State => r.2.ports = s.ports) rfl
    fun _ hr _ _ => (State.homeWrite_ports _ _ _ _).trans ((State.onHolders_evict_ports _ _).trans hr)

/-! ### Completions (R79) -/

@[simp] theorem State.port_onPort (s : State) (p : Fin 2) (f : Port → Port) : (s.onPort p f).port p = f (s.port p) := by
  simp [State.port, State.onPort]

/-- The index after a completion's. -/
def Port.nextCpl (x : Port) : BitVec 16 := BitVec.ofNat 16 ((x.cpltail.toNat % x.cplSize + 1) % x.cplSize)

theorem State.port_writeCompletion (s : State) (p : Fin 2) (tag : BitVec 16) (st : Nat) (v : Word) :
    (s.writeCompletion p tag st v).port p = { s.port p with cpltail := (s.port p).nextCpl } := by
  unfold State.writeCompletion
  dsimp only
  rw [State.port_onPort, State.port, State.poke_ports]
  rfl

/-- The only completion that waits is known and has room: it is written. -/
theorem State.port_flush_of_single {s : State} {p : Fin 2} {tag : BitVec 16} {key st : Nat} {v : Word}
    (hpending : (s.port p).pending = [⟨tag, key, some (st, v)⟩]) (hroom : (s.port p).cplFull = false) :
    (s.flush p).port p = { s.port p with cpltail := (s.port p).nextCpl, pending := [] } := by
  rw [State.flush, hpending]
  simp only [State.flushPending, hroom, Bool.false_eq_true, if_false, State.port_onPort, State.port_writeCompletion]

theorem State.port_consume {s : State} {p : Fin 2} (hcommand : (s.port p).hasCommand = true) :
    (s.consume p).port p = { s.port p with cqhead := BitVec.ofNat 16 (((s.port p).cqhead.toNat + 1) % (s.port p).cqSize) } := by
  rw [State.consume, State.port_onPort, if_pos hcommand]

/-- A command is consumed and its completion written, where none waits before it and there is room. -/
theorem State.port_answer {s : State} {p : Fin 2} (tag : BitVec 16) (st : Nat) (v : Word) (hpending : (s.port p).pending = [])
    (hcommand : (s.port p).hasCommand = true) (hroom : (s.port p).cplFull = false) :
    (s.answer p tag st v).port p = { s.port p with
      cqhead := BitVec.ofNat 16 (((s.port p).cqhead.toNat + 1) % (s.port p).cqSize)
      cpltail := (s.port p).nextCpl
      pending := [] } := by
  have hqueued : ((s.consume p).onPort p fun x => { x with pending := x.pending ++ [⟨tag, 0, some (st, v)⟩] }).port p = { s.port p with
      cqhead := BitVec.ofNat 16 (((s.port p).cqhead.toNat + 1) % (s.port p).cqSize)
      pending := [⟨tag, 0, some (st, v)⟩] } := by
    rw [State.port_onPort, State.port_consume hcommand, hpending, List.nil_append]
  rw [State.answer, State.port_flush_of_single (by rw [hqueued]) (by rw [hqueued]; exact hroom), hqueued]
  rfl

/-! ### CANCEL (R80, R94) -/

section
variable {s : State} (port : Fin 2) (tag : BitVec 16) {asid : BitVec 11} {level : Level} {va : Word} (reason : BitVec 16)

theorem exec_cancel_running {r : Running} (h : s.runningLevel asid.toNat level va = some r) :
    exec (.cancel port tag asid level va reason) s = .next ((s.cancelRunning r reason.toNat).answer port tag 0) := by
  change execCancel port tag asid level va reason s = _
  rw [execCancel, h]

theorem exec_cancel_ended (h : s.runningLevel asid.toNat level va = none) (hended : (asid.toNat, level, va) ∈ s.ended) :
    exec (.cancel port tag asid level va reason) s = .next (s.answer port tag 4) := by
  change execCancel port tag asid level va reason s = _
  simp only [execCancel, h, List.contains_iff_mem.mpr hended, if_true]

theorem exec_cancel_unknown (h : s.runningLevel asid.toNat level va = none) (hended : (asid.toNat, level, va) ∉ s.ended) :
    exec (.cancel port tag asid level va reason) s = .next (s.answer port tag 3) := by
  change execCancel port tag asid level va reason s = _
  have hnot : s.ended.contains (asid.toNat, level, va) = false := by simpa using hended
  simp only [execCancel, h, hnot, Bool.false_eq_true, if_false]

end

/-! ### ASIDINV and TLBINV (R76) -/

/-- What ASIDINV drops: the cached entry of an ASID, its translations and its instruction lines. -/
def State.dropAsid (s : State) (a : Nat) : State :=
  let t := (s.dropTlb fun x _ _ => decide (x = a)).dropLines fun l => decide (l.asid = a)
  { t with asids := t.asids.filter fun x => decide (x.1 % 2048 ≠ a) }

/-- Nothing is cached for an ASID: no entry of its own, no translation at any TLB level, no non-leaf entry, no instruction line. -/
structure State.AsidGone (s : State) (a : Nat) : Prop where
  asids : ∀ x ∈ s.asids, x.1 % 2048 ≠ a
  nonLeaf : ∀ e ∈ s.nonLeaf, e.asid ≠ a
  dtlb : ∀ x ∈ s.dtlb, ∀ e ∈ x.2, e.asid ≠ a
  ctlb : ∀ x ∈ s.ctlb, ∀ e ∈ x.2, e.asid ≠ a
  cores : ∀ x ∈ s.cores, (∀ e ∈ x.2.utlb, e.asid ≠ a) ∧ ∀ l ∈ x.2.icache, l.asid ≠ a

theorem ne_of_mem_filter_ne {α : Type} {l : List α} {asid : α → Nat} {a : Nat} :
    ∀ e ∈ l.filter (fun e => !decide (asid e = a)), asid e ≠ a := by
  intro e he
  simpa using (List.mem_filter.mp he).2

theorem State.asidGone_dropAsid (s : State) (a : Nat) : (s.dropAsid a).AsidGone a where
  asids := fun x hx => by simpa using (List.mem_filter.mp hx).2
  nonLeaf := ne_of_mem_filter_ne
  dtlb := List.forall_mem_map.mpr fun _ _ => ne_of_mem_filter_ne
  ctlb := List.forall_mem_map.mpr fun _ _ => ne_of_mem_filter_ne
  cores := List.forall_mem_map.mpr <| List.forall_mem_map.mpr fun x _ => by
    rw [Core.dropLines_utlb, Core.dropLines_icache]
    exact ⟨ne_of_mem_filter_ne, ne_of_mem_filter_ne⟩

/-- ASIDINV drops, recalls the accesses of the ASID, and completes once those that have begun have performed. -/
theorem exec_asidinv (port : Fin 2) (tag : BitVec 16) (asid : BitVec 11) (s : State) :
    exec (.asidinv port tag asid) s = .next (((s.dropAsid asid.toNat).recall asid.toNat 0 (2 ^ 56)).2.answerInval port tag
      ((s.dropAsid asid.toNat).recall asid.toNat 0 (2 ^ 56)).1) := rfl

theorem exec_tlbinv (port : Fin 2) (tag : BitVec 16) (asid : BitVec 11) (va bytes : Word) (s : State) :
    exec (.tlbinv port tag asid va bytes) s = .next ((s.invalidate asid.toNat (va56 va) bytes.toNat).2.answerInval port tag
      (s.invalidate asid.toNat (va56 va) bytes.toNat).1) := rfl

/-! ### KEYLD and KEYCLR (R409) -/

section
variable {s : State} {port : Fin 2} (tag : BitVec 16) (key : BitVec 7)

theorem exec_keyld_refused (pa : Word) (h : s.holdsSem port = false) :
    exec (.keyld port tag key pa) s = .next (s.answer port tag 2) := by
  change execKeyld port tag key pa s = _
  simp [execKeyld, h]

theorem exec_keyclr_refused (h : s.holdsSem port = false) : exec (.keyclr port tag key) s = .next (s.answer port tag 2) := by
  change execKeyclr port tag key s = _
  simp [execKeyclr, h]

theorem exec_keyld_held (pa : Word) (h : s.holdsSem port = true) :
    exec (.keyld port tag key pa) s = .next (((s.evictKey key.toNat).setKey key.toNat
      (BitVec.ofNat 512 (leNat ((s.evictKey key.toNat).peek pa.toNat 64)))).answer port tag 0) := by
  change execKeyld port tag key pa s = _
  simp [execKeyld, h]

theorem exec_keyclr_held (h : s.holdsSem port = true) :
    exec (.keyclr port tag key) s = .next (((s.evictKey key.toNat).setKey key.toNat 0).answer port tag 0) := by
  change execKeyclr port tag key s = _
  simp [execKeyclr, h]

end

/-! ### Gangs (R96, R97) -/

section
variable {s : State} {gang : Word} {g : Gang} {j : Nat} (port : Fin 2) (tag cause : BitVec 16) (hg : s.gangById gang = some g)
include hg

theorem exec_gangabort_waiting (hgone : g.gone = false) :
    exec (.gangabort port tag gang) s = .next ((s.abortMember g gangTimeoutCond.code).answer port tag 0) := by
  change execGangabort port tag gang s = _
  simp only [execGangabort, hg, hgone, Bool.false_eq_true, if_false]

theorem exec_gangabort_gone (hgone : g.gone = true) : exec (.gangabort port tag gang) s = .next (s.answer port tag 3) := by
  change execGangabort port tag gang s = _
  simp only [execGangabort, hg, hgone, if_true]

theorem exec_gangArmTimeout_late {t : Nat} (harmed : g.armed = some t) (hgone : g.gone = false) (hlate : t + s.gangTimeout < s.now) :
    exec (.gangArmTimeout gang) s = .next (s.abortMember g gangTimeoutCond.code) := by
  have harm : s.armLate g = true := by simp [State.armLate, hgone, harmed, hlate]
  change execGangArmTimeout gang s = _
  simp only [execGangArmTimeout, hg, harm, if_true]

variable (hj : g.job = some j)
include hj

theorem exec_ganggo_armed (harmed : g.armed.isSome = true) (hgone : g.gone = false) :
    exec (.ganggo port tag gang) s = .next (((s.onGang gang fun g => { g with gone := true }).onJob j fun x => { x with
      walking := .opening .job, begunJob := false, paged := false }).answer port tag 0) := by
  change execGanggo port tag gang s = _
  simp only [execGanggo, hg, hj, harmed, hgone, Bool.not_false, Bool.and_true, if_true]

theorem exec_gangCancelReceive_waiting (hgone : g.gone = false) :
    exec (.gangCancelReceive gang cause) s = .next (s.abortMember g cause.toNat) := by
  change execGangCancelReceive gang cause s = _
  simp only [execGangCancelReceive, hg, hj, hgone, Bool.false_eq_true, if_false]

theorem exec_gangCancelReceive_gone (hgone : g.gone = true) :
    exec (.gangCancelReceive gang cause) s = .next (s.cancelJob j cause.toNat) := by
  change execGangCancelReceive gang cause s = _
  simp only [execGangCancelReceive, hg, hj, hgone, if_true]

theorem exec_gangWaitTimeout_late {t : Nat} (hcross : s.crossSince g = some t) (hlate : t + s.gangTimeout < s.now) :
    exec (.gangWaitTimeout gang) s =
      .next (((s.tellGang j gangTimeoutCond.code).gangFails j).onGang gang fun g => { g with waiting := none }) := by
  have hdue : s.crossLate g = true := by simp [State.crossLate, hcross, hlate]
  change execGangWaitTimeout gang s = _
  simp only [execGangWaitTimeout, hg, hj, hdue, if_true]

end

/-- Settles O48: a completion is `State.port_answer`; an invalidation drops first, and the recall that follows brings nothing back. -/
theorem hostCommands : Obligations.HostCommands := by
  unfold Obligations.HostCommands
  refine ⟨?queues, ?commands, ?keys, ?gangs⟩
  case queues =>
    intro s port tag st v w
    refine ⟨rfl, rfl, rfl, fun hpending hcommand hroom => ?_⟩
    dsimp only
    rw [State.port_answer tag st w hpending hcommand hroom]
    exact ⟨rfl, rfl, rfl, rfl, rfl, rfl, rfl⟩
  case commands =>
    intro s port tag asid job va bytes rec_ die level reason
    refine ⟨rfl, fun r h => exec_cancel_running port tag reason h, exec_cancel_ended port tag reason, exec_cancel_unknown port tag reason,
      ?asidinv, ?tlbinv, rfl, fun r rest => rfl, rfl⟩
    case asidinv =>
      obtain ⟨units, agenda, hframe⟩ := (s.dropAsid asid.toNat).recall_frame asid.toNat 0 (2 ^ 56)
      obtain ⟨hasids, hnonLeaf, hdtlb, hctlb, hcores⟩ := s.asidGone_dropAsid asid.toNat
      refine ⟨_, _, exec_asidinv port tag asid s, fun hnone => ?_, ?_⟩
      · exact State.NoneBegun.recall_fst (s := s.dropAsid asid.toNat) hnone asid.toNat 0 (2 ^ 56)
      · rw [hframe]
        exact ⟨hasids, hnonLeaf, hdtlb, hctlb, hcores, rfl, rfl⟩
    case tlbinv =>
      obtain ⟨hnonLeaf, hdtlb, hctlb, hutlb, hicache⟩ :=
        State.cleared_invalidate (s := s) (a := asid.toNat) (va := va56 va) (n := bytes.toNat) (.inl rfl)
      obtain ⟨units, agenda, hframe⟩ := (s.dropRange asid.toNat (va56 va) bytes.toNat).recall_frame asid.toNat (va56 va) bytes.toNat
      refine ⟨_, _, exec_tlbinv port tag asid va bytes s, fun hnone => (State.NoneBegun.invalidate hnone _ _ _).1, ?_, ?_,
        hnonLeaf, hdtlb, hctlb, hutlb, hicache⟩
      · rw [State.invalidate_eq, hframe]
        rfl
      · rw [State.invalidate_eq, hframe]
        rfl
  case keys =>
    intro s port tag key pa
    exact ⟨fun h => ⟨exec_keyld_refused tag key pa h, exec_keyclr_refused tag key h⟩,
      fun h => ⟨exec_keyld_held tag key pa h, exec_keyclr_held tag key h⟩⟩
  case gangs =>
    intro s port tag gang g j cause hg hj
    exact ⟨exec_ganggo_armed port tag hg hj,
      fun hgone => ⟨exec_gangabort_waiting port tag hg hgone, exec_gangCancelReceive_waiting cause hg hj hgone⟩,
      fun hgone => ⟨exec_gangabort_gone port tag hg hgone, exec_gangCancelReceive_gone cause hg hj hgone⟩,
      fun _ harmed hgone hlate => exec_gangArmTimeout_late hg harmed hgone hlate,
      fun _ hcross hlate => exec_gangWaitTimeout_late hg hj hcross hlate⟩

end Sys2Proof.Machine
end

section
/-! SUPPORT. The graph walker (R77, R82 to R85, R413): where it goes on from a node, what each node asks for, and the ends of levels. -/
namespace Sys2Proof.Machine

/-! ### Where the walker goes on (R82, R83) -/

/-- A cancel of what a graph began changes launches and jobs only. -/
theorem State.cancelWork_frame (s : State) (j cause : Nat) : ∃ launches jobs, s.cancelWork j cause = { s with launches, jobs } := by
  unfold State.cancelWork
  split
  case h_1 => exact ⟨s.launches, s.jobs, rfl⟩
  case h_2 x _ =>
    have hlaunches : ∃ launches, x.launches.foldl (fun s l => s.endLaunch l 3 cause) s = { s with launches } := by
      refine List.foldlRecOn _ _ (motive := fun t : State => ∃ launches, t = { s with launches }) ⟨s.launches, rfl⟩ ?_
      rintro _ ⟨launches, rfl⟩ l -
      exact ⟨_, rfl⟩
    obtain ⟨launches, h⟩ := hlaunches
    rw [h]
    exact ⟨_, _, rfl⟩

/-- A graph fault changes launches and jobs only. -/
theorem State.faultGraph_frame (s : State) (j : Nat) (e : Ending) : ∃ launches jobs, s.faultGraph j e = { s with launches, jobs } := by
  unfold State.faultGraph
  obtain ⟨launches, jobs, h⟩ := State.cancelWork_frame (s.onJob j _) j e.cause
  exact ⟨launches, jobs, h⟩

/-- To go on changes launches and jobs only. (An end of a body outside every WHILE faults the graph, which cancels its launches.) -/
theorem State.goTo_frame (s : State) (j next : Nat) : ∃ launches jobs, s.goTo j next = { s with launches, jobs } := by
  unfold State.goTo
  split
  · exact ⟨s.launches, s.jobs, rfl⟩
  · split
    · exact ⟨s.launches, _, rfl⟩
    · split
      · split
        · exact s.faultGraph_frame j _
        · exact ⟨s.launches, _, rfl⟩
      · exact ⟨s.launches, _, rfl⟩

/-- At an index that is neither of the two marks the walker fetches the node. -/
theorem State.goTo_node {s : State} {j next : Nat} {x : Job} (hx : find s.jobs j = some x) (h : next < endOfBody) :
    s.goTo j next = s.onJob j fun x => { x with walking := .fetch, node := next, paged := false } := by
  have hgraph : next ≠ endOfGraph := by unfold endOfBody at h; unfold endOfGraph; omega
  simp only [State.goTo, hx, hgraph, Nat.ne_of_lt h, if_false]

@[simp] theorem State.find_onJob (s : State) (j : Nat) (f : Job → Job) : find (s.onJob j f).jobs j = (find s.jobs j).map f :=
  find_alter_same s.jobs j f

theorem State.atNode_of_node {s : State} {j : Nat} {x : Job} (hx : find s.jobs j = some x) (hw : x.walking = .node) (f : Job → State) :
    s.atNode j f = f x := by
  simp only [State.atNode, hx, hw, if_true]

/-- A walker that does not wait for a page stands as it does when its event clears the mark. -/
theorem State.find_onJob_unpaged {s : State} {j : Nat} {x : Job} (hx : find s.jobs j = some x) (hpaged : x.paged = false) :
    find (s.onJob j fun x => { x with paged := false }).jobs j = some x := by
  rw [State.find_onJob, hx, Option.map_some]
  exact congrArg some (congrArg (fun b => { x with paged := b }) hpaged).symm

theorem State.noteEnded_frame (s : State) (asid : Nat) (l : Level) (va : Word) : ∃ ended, s.noteEnded asid l va = { s with ended } := by
  unfold State.noteEnded
  split
  · exact ⟨s.ended, rfl⟩
  · exact ⟨_, rfl⟩

/-! ### The step of a WHILE (R82, R85) -/

theorem State.storeCount_none {s : State} {n : WhileNode} (h : n.count = 0) (j : Nat) (x : Job) (ev : Event) (count : Nat) (f : State → State) :
    s.storeCount j x ev n count f = f s := if_pos h

/-- The condition word is 0 and no count is asked for: the walker leaves the WHILE. -/
theorem State.whileStep_leaves {n : WhileNode} (h : n.count = 0) (s : State) (j : Nat) (x : Job) (ev : Event) (count : Nat)
    (frames : List WhileFrame) :
    s.whileStep j x ev n count frames 0 = (s.onJob j fun x => { x with frames }).goTo j n.hdr.nxt := by
  rw [State.whileStep, if_pos rfl, State.storeCount_none h]

/-- The condition word is not 0 and the loop limit is not reached: a pass begins. -/
theorem State.whileStep_passes {n : WhileNode} {w : Word} {count : Nat} (hw : w ≠ 0) (hlimit : ¬(n.maxiter ≠ 0 ∧ count = n.maxiter))
    (s : State) (j : Nat) (x : Job) (ev : Event) (frames : List WhileFrame) :
    s.whileStep j x ev n count frames w = (s.forget ev).onJob j fun x => { x with
      frames := ⟨n, count, s.nextKey⟩ :: frames, node := n.body, walking := .fetch, paged := false } := by
  rw [State.whileStep, if_neg hw, if_neg hlimit]

/-! ### The nodes (R82, R84) -/

section
variable {s t : State} {j : Nat} {x : Job} (hx : find s.jobs j = some x) (hw : x.walking = .node)
include hx hw

theorem exec_hostirq_copied (h : NodeHdr) (vec : BitVec 11) (hcopied : ∀ c ∈ x.copies, c.2.done = true) :
    exec (.hostirq j h vec) s = .next ((s.msix x.port vec.toNat).goTo j h.nxt) := by
  have hall : x.copied = true := List.all_eq_true.mpr hcopied
  change execHostirq j h vec s = _
  rw [execHostirq, State.atNode_of_node hx hw, if_pos hall]

theorem exec_hostirq_waits (h : NodeHdr) (vec : BitVec 11) (hcopying : ∃ c ∈ x.copies, c.2.done = false) :
    exec (.hostirq j h vec) s = .next (s.onJob j fun x => { x with walking := .forIrq h.nxt vec.toNat }) := by
  have hnot : ¬ x.copied = true := by
    obtain ⟨c, hc, hdone⟩ := hcopying
    intro hall
    exact Bool.false_ne_true (hdone.symm.trans (List.all_eq_true.mp hall c hc))
  change execHostirq j h vec s = _
  rw [execHostirq, State.atNode_of_node hx hw, if_neg hnot]

theorem exec_phaseend (h : NodeHdr) : exec (.phaseend j h) s = .next (s.onJob j fun x => { x with walking := .forGraph true }) := by
  change execPhaseend j h s = _
  rw [execPhaseend, State.atNode_of_node hx hw]

theorem exec_condNode (n : CondNode) {w : Word} (hword : s.walkerWord (.condNode j n) x n.cond = (.ok w, t)) :
    exec (.condNode j n) s = .next ((t.forget (.condNode j n)).goTo j (if w = 0 then n.hdr.nxt else n.taken)) := by
  change execCondNode j n s = _
  rw [execCondNode, State.atNode_of_node hx hw, hword]
  rfl

theorem exec_signal (n : SignalNode) (hupdate : s.devUpdate (.signal j n) x.die x.asid n.target 8
      (fun b => le64 (if n.add then leNat b + n.value.toNat else n.value.toNat)) = (.ok ⟨⟩, t)) :
    exec (.signal j n) s = .next ((t.forget (.signal j n)).goTo j n.hdr.nxt) := by
  change execSignal j n s = _
  rw [execSignal, State.atNode_of_node hx hw, hupdate]
  rfl

/-- A WHILE that may nest, its condition word read. -/
theorem exec_whileNode (n : WhileNode) {w : Word} (hdepth : x.frames.length < 4)
    (hword : s.walkerWord (.whileNode j n) x n.cond = (.ok w, t)) :
    exec (.whileNode j n) s = .next (t.whileStep j x (.whileNode j n) n 0 x.frames w) := by
  change execWhileNode j n s = _
  rw [execWhileNode, State.atNode_of_node hx hw, if_neg (Nat.not_le.mpr hdepth), hword]
  rfl

/-- A WAIT outside a gang begins, with its first reading. -/
theorem exec_waitNode (n : WaitNode) (hg : n.g = false) :
    exec (.waitNode j n) s
      = .next ((s.onJob j fun y => { y with walking := .wait n s.now }).readWatched j x (.waitPoll j) n) := by
  change execWaitNode j n s = _
  rw [execWaitNode, State.atNode_of_node hx hw]
  simp only [hg, Bool.false_eq_true, if_false]

end

theorem State.readWatched_holds {s t : State} {j : Nat} {x : Job} {ev : Event} {n : WaitNode} {w : Word}
    (hword : s.walkerWord ev x n.watched = (.ok w, t)) (hholds : waitHolds n w = true) :
    s.readWatched j x ev n = (t.forget ev).goTo j n.hdr.nxt := by
  rw [State.readWatched, hword]
  exact if_pos hholds

theorem State.readWatched_again {s t : State} {j : Nat} {x : Job} {ev : Event} {n : WaitNode} {w : Word}
    (hword : s.walkerWord ev x n.watched = (.ok w, t)) (hholds : waitHolds n w = false) :
    s.readWatched j x ev n = ((t.forget ev).onJob j fun y => { y with paged := false }).after 256 (.waitPoll j) := by
  rw [State.readWatched, hword]
  exact if_neg (by simp [hholds])

/-! ### COPY (R82, R83) -/

/-- A copy as its node begins it. -/
def freshCopy (n : CopyNode) : CopyJob where
  src := n.src
  dst := n.dst
  bytes := n.bytes.toNat
  counter := n.counter
  at_ := 0
  ending := none
  closing := none
  done := false

/-- The copy is one of the graph's, under a key of its own, and its first piece is scheduled. -/
def State.beginCopy (t : State) (j : Nat) (x : Job) (n : CopyNode) : State :=
  ({ ((t.forget (.copyNode j n)).noteBegun x.asid .launch n.counter).draw.2 with nextKey := t.nextKey + 1 }.onJob j fun x =>
    { x with copies := x.copies ++ [(t.nextKey, freshCopy n)], paged := false }).after (1 + Config.walkerDelay t.free)
      (.copyNodeComplete j t.nextKey)

theorem State.beginCopy_spec (t : State) (j : Nat) (x : Job) (n : CopyNode) :
    (t.beginCopy j x n).mem = t.mem ∧ (t.beginCopy j x n).nextKey = t.nextKey + 1 ∧ (t.beginCopy j x n).free = t.free + 1
      ∧ (t.beginCopy j x n).agenda = t.agenda ++ [(t.now + (1 + Config.walkerDelay t.free), .copyNodeComplete j t.nextKey)] := by
  dsimp only [State.beginCopy, State.after, State.at_, State.onJob, State.draw, State.noteBegun, State.forget]
  exact ⟨rfl, rfl, rfl, rfl⟩

/-- After a COPY the walker waits for it, or goes on. -/
def State.afterCopy (s : State) (j id : Nat) (n : CopyNode) : State :=
  if n.hdr.wc then s.onJob j fun x => { x with walking := .forCopy id n.hdr.nxt } else s.goTo j n.hdr.nxt

theorem State.afterCopy_frame (s : State) (j id : Nat) (n : CopyNode) :
    ∃ launches jobs, s.afterCopy j id n = { s with launches, jobs } := by
  unfold State.afterCopy
  split
  · exact ⟨s.launches, _, rfl⟩
  · exact s.goTo_frame j n.hdr.nxt

theorem exec_copyNode {s t : State} {j : Nat} {x : Job} (hx : find s.jobs j = some x) (hw : x.walking = .node) (n : CopyNode)
    (hbegin : s.counterBegin (.copyNode j n) x.die x.asid n.counter = (.ok ⟨⟩, t)) :
    exec (.copyNode j n) s = .next ((t.beginCopy j x n).afterCopy j t.nextKey n) := by
  change execCopyNode j n s = _
  rw [execCopyNode, State.atNode_of_node hx hw, hbegin]
  rfl

/-- One piece of a copy that has not ended, whose reads and writes succeed. -/
theorem exec_copyNodeComplete_piece {s t v : State} {j id : Nat} {x : Job} {c : CopyJob} {b : List Byte} (hx : find s.jobs j = some x)
    (hc : x.copies.find? (fun c => decide (c.1 = id)) = some (id, c)) (hdone : c.done = false) (hclosing : c.closing = none)
    (hstuck : s.copyStuck j (id, c) = false) (hmore : c.at_ < c.bytes)
    (hread : s.devRead (.copyNodeComplete j id) x.die x.asid (c.src + BitVec.ofNat 64 c.at_) (min 4096 (c.bytes - c.at_)) = (.ok b, t))
    (hwrite : t.devWrite (.copyNodeComplete j id) x.die x.asid (c.dst + BitVec.ofNat 64 c.at_) b = (.ok ⟨⟩, v)) :
    exec (.copyNodeComplete j id) s = .next (((v.forget (.copyNodeComplete j id)).draw.2.onJob j fun y => y.onCopy id fun d =>
      { d with at_ := d.at_ + min 4096 (c.bytes - c.at_) }).after (1 + Config.walkerDelay v.free) (.copyNodeComplete j id)) := by
  change execCopyNodeComplete j id s = _
  simp only [execCopyNodeComplete, hx, hc, hdone, hclosing, hstuck, Bool.false_eq_true, if_false, Option.isSome_none,
    Nat.not_le.mpr hmore, copyPiece, hread, hwrite]
  rfl

theorem exec_copyNodeComplete_end {s : State} {j id : Nat} {x : Job} {c : CopyJob} (hx : find s.jobs j = some x)
    (hc : x.copies.find? (fun c => decide (c.1 = id)) = some (id, c)) (hdone : c.done = false) (hclosing : c.closing = none)
    (hstuck : s.copyStuck j (id, c) = false) (hend : c.bytes ≤ c.at_) :
    exec (.copyNodeComplete j id) s = .next (s.endCopy j x id c true) := by
  change execCopyNodeComplete j id s = _
  simp only [execCopyNodeComplete, hx, hc, hdone, hclosing, hstuck, Bool.false_eq_true, if_false, Option.isSome_none, hend, if_true]

/-! ### The waits of the walker (R83, R84) -/

theorem exec_waitTimeout {s : State} {j since : Nat} {x : Job} {n : WaitNode} (hx : find s.jobs j = some x)
    (hw : x.walking = .wait n since) (htimeout : n.timeout ≠ 0) (hg : n.g = false) (hlate : since + n.timeout.toNat < s.now) :
    exec (.waitTimeout j) s = .next (s.faultGraph j ⟨4, waitTimeoutCond.code, 0, 0⟩) := by
  have hlimit : s.waitLimit n = some n.timeout.toNat := if_pos htimeout
  have hpassed : s.waitPassed n since = true := by rw [State.waitPassed, hlimit, Option.any_some, decide_eq_true hlate]
  change execWaitTimeout j s = _
  simp only [execWaitTimeout, hx, hw, hpassed, hg, Bool.not_true, Bool.false_eq_true, if_false]

/-- The walker after a launch that it waits for. -/
theorem exec_waitPoll_launchEnded {s : State} {j l next : Nat} {wc : Bool} {x : Job} (hx : find s.jobs j = some x) (hpaged : x.paged = false)
    (hw : x.walking = .forLaunch l next wc) (hcounting : x.counting = none) (hended : s.launchEnded l = true) :
    exec (.waitPoll j) s = .next ((s.onJob j fun x => { x with paged := false }).goTo j next) := by
  have hfind := State.find_onJob_unpaged hx hpaged
  have hthere : (s.onJob j fun x => { x with paged := false }).launchEnded l = true := hended
  have hdue : (s.onJob j fun x => { x with paged := false }).walkDue j x = true := by
    simp [State.walkDue, hpaged, hcounting, hw, hthere]
  change execWaitPoll j s = _
  simp only [execWaitPoll, hfind, hw, hdue, if_true]

/-- The visits of a WHILE as DONE counts them, unless the step waits for a page. -/
def State.countVisit (s : State) (j : Nat) : State :=
  if ((find s.jobs j).map (·.paged)).getD false then s else s.onJob j fun x => { x with visited := x.visited + 1 }

theorem State.countVisit_mem (s : State) (j : Nat) : (s.countVisit j).mem = s.mem := by
  unfold State.countVisit
  split <;> rfl

/-- A pass has ended and the condition word is 0: the walker leaves the WHILE, and the visit is counted. -/
theorem exec_whilePassEnd_leaves {s a t : State} {j : Nat} {x : Job} {f : WhileFrame} {outer : List WhileFrame}
    (hx : find s.jobs j = some x) (hpaged : x.paged = false) (hframes : x.frames = f :: outer) (hw : x.walking = .forPass)
    (hended : s.ended_ x f.mark = true)
    (hdone : (s.onJob j fun x => { x with paged := false }).counterDone (.whilePassEnd j) x.die x.asid x.gcnt (x.visited + 1) = (.ok ⟨⟩, a))
    (hword : a.walkerWord (.whilePassEnd j) x f.node.cond = (.ok 0, t)) (hcount : f.node.count = 0) :
    exec (.whilePassEnd j) s = .next (((t.onJob j fun x => { x with frames := outer }).goTo j f.node.hdr.nxt).countVisit j) := by
  have hfind := State.find_onJob_unpaged hx hpaged
  have hthere : (s.onJob j fun x => { x with paged := false }).ended_ x f.mark = true := hended
  have hdue : (s.onJob j fun x => { x with paged := false }).passDue x = true := by
    simp [State.passDue, hpaged, hw, hframes, hthere]
  change execWhilePassEnd j s = _
  simp only [execWhilePassEnd, hfind, hframes, hdue, if_true, hdone, State.walkerDoes, hword, State.whileStep_leaves hcount]
  rfl

/-- The walker that leaves a WHILE fetches the node after it. -/
theorem State.find_countVisit_goTo {s : State} {j next : Nat} {y : Job} (hy : find s.jobs j = some y) (hnext : next < endOfBody) :
    find ((s.goTo j next).countVisit j).jobs j
      = some { y with walking := .fetch, node := next, paged := false, visited := y.visited + 1 } := by
  rw [State.goTo_node hy hnext]
  simp [State.countVisit, hy]

/-! ### Ends of levels (R83, R402, R413) -/

theorem exec_graphEnd_counts {s t : State} {j n : Nat} {x : Job} {va : Word} (hx : find s.jobs j = some x) (hpaged : x.paged = false)
    (hcounting : x.counting = some (va, n))
    (hdone : (s.onJob j fun x => { x with paged := false }).counterDone (.graphEnd j) x.die x.asid va n = (.ok ⟨⟩, t)) :
    exec (.graphEnd j) s = .next ((t.forget (.graphEnd j)).onJob j fun x => { x with counting := none }) := by
  change execGraphEnd j s = _
  simp only [execGraphEnd, State.find_onJob_unpaged hx hpaged, hcounting, State.writeCount, hdone, State.closes]

/-- A job that has begun ends: its counter has its final write, and the walker forgets it. -/
theorem exec_graphEnd_job {s t : State} {j : Nat} {x : Job} (hx : find s.jobs j = some x) (hpaged : x.paged = false)
    (hw : x.walking = .closing .job false) (hbegun : x.begunJob = true) (hcounting : x.counting = none)
    (hend : (s.onJob j fun x => { x with paged := false }).counterEnd (.graphEnd j) x.die x.asid x.jcnt (incOf (x.endJob.getD doneEnding))
      (some x.phasesDone) (x.endJob.getD doneEnding) = (.ok ⟨⟩, t)) :
    ∃ v : State, exec (.graphEnd j) s = .next v ∧ v.mem = t.mem ∧ v.jobs = del t.jobs j := by
  change ∃ v, execGraphEnd j s = _ ∧ _
  simp only [execGraphEnd, State.find_onJob_unpaged hx hpaged, hcounting, hw, State.closeJob, hbegun, Bool.not_true, Bool.false_eq_true,
    if_false, hend]
  obtain ⟨ended, hnote⟩ := State.noteEnded_frame (t.forget (.graphEnd j)) x.asid .job x.jcnt
  rw [hnote]
  exact ⟨_, rfl, rfl, rfl⟩

/-- Settles O49: each node goes on where `State.goTo` says, and the writes of ends of levels come first. -/
theorem walkerNodes : Obligations.WalkerNodes := by
  unfold Obligations.WalkerNodes
  intro s j x hx
  refine ⟨fun hw => ?nodes, fun n since hw htimeout hg hlate => exec_waitTimeout hx hw htimeout hg hlate, fun hpaged => ?waits, ?copies⟩
  case nodes =>
    refine ⟨fun h vec => exec_hostirq_copied hx hw h vec, fun h vec => exec_hostirq_waits hx hw h vec, exec_phaseend hx hw,
      fun n w t hword => exec_condNode hx hw n hword, fun n t hupdate => exec_signal hx hw n hupdate, ?leaves, ?passes, ?wait,
      ?copy⟩
    case leaves =>
      intro n t hdepth hword hcount
      rw [exec_whileNode hx hw n hdepth hword, State.whileStep_leaves hcount]
    case passes =>
      intro n w t hdepth hword hne
      rw [exec_whileNode hx hw n hdepth hword, State.whileStep_passes hne fun h => h.1 h.2.symm]
    case wait =>
      intro n hg
      dsimp only
      intro w t hword
      rw [exec_waitNode hx hw n hg]
      exact ⟨fun hholds => congrArg _ (State.readWatched_holds hword hholds), fun hholds => congrArg _ (State.readWatched_again hword hholds)⟩
    case copy =>
      intro n t hbegin
      have hlater : t.now < t.now + (1 + Config.walkerDelay t.free) := by omega
      obtain ⟨launches, jobs, hframe⟩ := (t.beginCopy j x n).afterCopy_frame j t.nextKey n
      refine ⟨_, exec_copyNode hx hw n hbegin, ?_⟩
      obtain ⟨hmem, hkey, hfree, hagenda⟩ := t.beginCopy_spec j x n
      rw [hframe]
      exact ⟨hmem, hkey, hfree, _, hagenda, hlater⟩
  case waits =>
    refine ⟨fun l next wc hw hcounting hended => exec_waitPoll_launchEnded hx hpaged hw hcounting hended, ?pass,
      fun va n t hcounting hdone => exec_graphEnd_counts hx hpaged hcounting hdone,
      fun t hw hbegun hcounting hend => exec_graphEnd_job hx hpaged hw hbegun hcounting hend⟩
    case pass =>
      intro f outer a t hframes hw hended
      dsimp only
      intro hdone hword hcount hthere
      obtain ⟨y, hy⟩ := Option.isSome_iff_exists.mp hthere
      refine ⟨_, exec_whilePassEnd_leaves hx hpaged hframes hw hended hdone hword hcount, ?_, fun hnext => ?_⟩
      · obtain ⟨launches, jobs, hframe⟩ := State.goTo_frame (t.onJob j fun x => { x with frames := outer }) j f.node.hdr.nxt
        rw [State.countVisit_mem, hframe]
        rfl
      · have hleft : find (t.onJob j fun x => { x with frames := outer }).jobs j = some { y with frames := outer } := by
          rw [State.find_onJob, hy, Option.map_some]
        exact ⟨_, State.find_countVisit_goTo hleft hnext, rfl, rfl, rfl⟩
  case copies =>
    intro id c t hc hdone hclosing hstuck
    refine ⟨exec_copyNodeComplete_end hx hc hdone hclosing hstuck, fun b v hmore hread hwrite => ?_⟩
    have hlater : v.now < v.now + (1 + Config.walkerDelay v.free) := by omega
    exact ⟨_, exec_copyNodeComplete_piece hx hc hdone hclosing hstuck hmore hread hwrite, rfl, rfl, _, rfl, hlater⟩

end Sys2Proof.Machine
end

section
/-! SUPPORT. Launches (R86, R99 to R102): acceptance at a node, the advance of a launch that is not placed, and the clearing of cores. -/
namespace Sys2Proof.Machine

/-! ### Acceptance at a LAUNCH node (R86) -/

/-- The walker waits for a launch that its node has opened. -/
def State.followLaunch (j : Nat) (n : LaunchNode) (p : Nat × State) : State :=
  p.2.onJob j fun x => { x with walking := .forLaunch p.1 n.hdr.nxt n.hdr.wc }

/-- What a node that takes up no reserved launch makes of its acceptance: the walker waits for a page, or follows a launch that waits for
its contexts or is refused. -/
def State.openAs (j : Nat) (x : Job) (n : LaunchNode) : Accept × State → State
  | (.wait, s) => s.onJob j fun x => { x with paged := true }
  | (.refuse d e, s) => State.followLaunch j n ((s.forget (.launch j n)).openLaunch j x n none none (.refusing d e))
  | (.ok o r, s) => State.followLaunch j n ((s.forget (.launch j n)).openLaunch j x n (some o) (some r) (.waiting s.now))

section
variable {s t : State} {j : Nat} {x : Job} {n : LaunchNode} (hx : find s.jobs j = some x) (hw : x.walking = .node)
  (hfresh : ∀ l ∈ s.launches, ¬(l.2.job = j ∧ l.2.phase = .reserved ∧ l.2.node = n))
include hx hw hfresh

theorem exec_launch_fresh : exec (.launch j n) s = .next (State.openAs j x n (s.accept (.launch j n) x n)) := by
  have hheld : (s.launches.find? fun l => decide (l.2.job = j) && decide (l.2.phase = .reserved) && decide (l.2.node = n)) = none := by
    refine List.find?_eq_none.mpr fun l hl => ?_
    simpa [and_assoc] using hfresh l hl
  change execLaunch j n s = _
  simp only [execLaunch, hx, hw, ne_eq, not_true_eq_false, if_false, hheld]
  rfl

theorem exec_launch_accepted {o : Loaded} {r : PRecord} (h : s.accept (.launch j n) x n = (.ok o r, t)) :
    exec (.launch j n) s
      = .next (State.followLaunch j n ((t.forget (.launch j n)).openLaunch j x n (some o) (some r) (.waiting t.now))) := by
  rw [exec_launch_fresh hx hw hfresh, h]
  rfl

theorem exec_launch_refused {d e : Nat} (h : s.accept (.launch j n) x n = (.refuse d e, t)) :
    exec (.launch j n) s
      = .next (State.followLaunch j n ((t.forget (.launch j n)).openLaunch j x n none none (.refusing d e))) := by
  rw [exec_launch_fresh hx hw hfresh, h]
  rfl

end

/-! ### The advance of a launch that is not placed (R86, R99 to R101) -/

theorem exec_launchPlace {s : State} {l : Nat} {x : Launch} (hx : find s.launches l = some x) :
    exec (.launchPlace l) s = .next ((s.onLaunch l fun x => { x with paged := false }).advanceLaunch l x) := by
  change execLaunchPlace l s = _
  rw [execLaunchPlace, hx]

theorem State.claimCore_frame (s : State) (asid : Nat) (ctxs : List Nat) (c : Nat) :
    ∃ cores agenda, s.claimCore asid ctxs c = { s with cores, agenda } := by
  unfold State.claimCore
  dsimp only
  split
  · split
    · exact ⟨_, s.agenda, rfl⟩
    · exact ⟨_, _, rfl⟩
  · exact ⟨_, s.agenda, rfl⟩

/-- Reserving contexts changes cores and the agenda only. -/
theorem State.claimAll_frame (s : State) (x : Launch) : ∃ cores agenda, s.claimAll x = { s with cores, agenda } := by
  unfold State.claimAll
  split
  case h_2 => exact ⟨s.cores, s.agenda, rfl⟩
  case h_1 r _ =>
    refine List.foldlRecOn _ _ (motive := fun t : State => ∃ cores agenda, t = { s with cores, agenda }) ⟨s.cores, s.agenda, rfl⟩ ?_
    rintro _ ⟨cores, agenda, rfl⟩ c -
    exact State.claimCore_frame _ _ _ c

theorem State.armedLaunch_eq_false {s : State} {x : Launch} (h : ∀ y, find s.jobs x.job = some y → y.walking ≠ .armed) :
    s.armedLaunch x = false := by
  unfold State.armedLaunch
  cases hy : find s.jobs x.job with
  | none => rfl
  | some y => simp [h y hy]

section
variable {s : State} {l : Nat} {x : Launch}

theorem State.advanceLaunch_refusing {d e : Nat} (hphase : x.phase = .refusing d e) :
    s.advanceLaunch l x = s.endUnplaced l x ⟨5, 0, d, e⟩ := by
  rw [State.advanceLaunch, hphase]

variable (hending : x.ending = none)
include hending

theorem State.advanceLaunch_lost (hphase : (∃ t, x.phase = .waiting t) ∨ ∃ t v, x.phase = .preparing t v) (hlost : s.lostCore x = true) :
    s.advanceLaunch l x = s.onLaunch l fun x => { x with phase := .refusing 3 0 } := by
  rcases hphase with ⟨t, hphase⟩ | ⟨t, v, hphase⟩
  · simp only [State.advanceLaunch, hphase, hending, hlost, if_true]
  · simp only [State.advanceLaunch, hphase, hending, hlost, if_true]

variable (hlost : s.lostCore x = false)
include hlost

/-- A launch whose contexts are free reserves them, and prepares its cores. -/
theorem State.advanceLaunch_claims {t : Nat} (hphase : x.phase = .waiting t) (hfree : s.contextsFree l x = true)
    (harmed : s.armedLaunch x = false) :
    s.advanceLaunch l x = (s.claimAll x).onLaunch l fun y => { y with phase := .preparing t ((s.claimAll x).readyAt x) } := by
  simp only [State.advanceLaunch, hphase, hending, hlost, hfree, harmed, Bool.false_eq_true, if_false, if_true]

theorem State.advanceLaunch_starts {t until_ : Nat} {o : Loaded} {r : PRecord} (hphase : x.phase = .preparing t until_)
    (huntil : until_ ≤ s.now) (hready : s.readyAt x ≤ s.now) (hloaded : x.loaded = some o) (hrecord : x.record = some r) :
    s.advanceLaunch l x = s.startLaunch l x o r := by
  have hnow : ¬(s.now < until_ ∨ s.now < s.readyAt x) := by omega
  simp only [State.advanceLaunch, hphase, hending, hlost, Bool.false_eq_true, if_false, hnow]
  rw [hloaded, hrecord]

end

/-! ### PLACETO (R101) -/

section
variable {s : State} {l n t : Nat} {x : Launch} (hx : find s.launches l = some x) (hlimit : s.regs.placeLimit = some n)
  (hphase : x.phase = .waiting t) (harmed : s.armedLaunch x = false)
include hlimit hphase harmed

theorem State.placeLate_waiting : s.placeLate x = decide (t + n < s.now) := by
  simp only [State.placeLate, harmed, hlimit, hphase, Bool.not_false, Bool.true_and]

include hx

theorem exec_placeTimeout_late (h : t + n < s.now) :
    exec (.placeTimeout l) s = .next (s.onLaunch l fun x => { x with phase := .refusing 4 0 }) := by
  change execPlaceTimeout l s = _
  simp only [execPlaceTimeout, hx, State.placeLate_waiting hlimit hphase harmed, h, decide_true, if_true]

theorem exec_placeTimeout_early (h : s.now ≤ t + n) : exec (.placeTimeout l) s = .next s := by
  change execPlaceTimeout l s = _
  simp only [execPlaceTimeout, hx, State.placeLate_waiting hlimit hphase harmed, Nat.not_lt.mpr h, decide_false, Bool.false_eq_true, if_false]

end

/-! ### The clearing of a core (R102) -/

theorem exec_coreClear_due {s : State} {c t : Nat} (h : (s.core c).clearing = some t) (hdue : t ≤ s.now) :
    exec (.coreClear c) s
      = .next (s.onCore c fun x => x.clear (fun k => s.launches.any fun l => l.2.reserves c k) s.now) := by
  change execCoreClear c s = _
  simp only [execCoreClear, h, Nat.not_lt.mpr hdue, if_false]

/-- Each context of a cleared core is as after reset, but for its power and since when it is idle. -/
theorem Core.ctx_clear (x : Core) (held : Nat → Bool) (now : Nat) {k : Nat} (hk : k < 4) :
    (x.clear held now).ctx k = { Ctx.cleared with bank := if held k then .on else .off, idleSince := now } := by
  simp [Core.ctx, Core.clear, hk, Ctx.cleared]

/-- Settles O50: acceptance decides what a node opens; an unplaced launch advances by its phase; a cleared core's contexts are
`Core.ctx_clear`. -/
theorem launchEvents : Obligations.LaunchEvents := by
  unfold Obligations.LaunchEvents
  refine fun s => ⟨?accept, ?advance, ?clear⟩
  case accept =>
    intro j x n hx hw hfresh
    exact ⟨fun o r t h => exec_launch_accepted hx hw hfresh h, fun d e t h => exec_launch_refused hx hw hfresh h⟩
  case advance =>
    intro l x hx
    have hplace := exec_launchPlace hx
    refine ⟨fun d e hphase => ?refusing, ?claims, ?starts, ?lost, fun n t hlimit hphase harmed => ?timeout⟩
    case refusing => rw [hplace, State.advanceLaunch_refusing hphase]
    case claims =>
      intro t hphase hending hlost hfree harmed
      rw [hplace, State.advanceLaunch_claims hending hlost hphase hfree (State.armedLaunch_eq_false harmed)]
      obtain ⟨cores, agenda, hframe⟩ := (s.onLaunch l fun x => { x with paged := false }).claimAll_frame x
      refine ⟨_, rfl, by rw [hframe]; rfl, ?_⟩
      rw [hframe]
      simp [State.onLaunch, hx]
    case starts =>
      intro t at_ o r hphase hending hlost hat hready hloaded hrecord
      rw [hplace, State.advanceLaunch_starts hending hlost hphase hat hready hloaded hrecord]
    case lost =>
      intro hending hphase hlost
      rw [hplace, State.advanceLaunch_lost hending hphase hlost]
    case timeout =>
      exact ⟨exec_placeTimeout_late hx hlimit hphase harmed, exec_placeTimeout_early hx hlimit hphase harmed⟩
  case clear =>
    intro c t hclearing hdue
    refine ⟨_, exec_coreClear_due hclearing hdue, fun d hd => State.core_onCore_other s _ hd, rfl, ?_⟩
    unfold State.ctx
    rw [State.core_onCore]
    refine ⟨rfl, rfl, rfl, rfl, rfl, rfl, rfl, rfl, fun k hk => ?_⟩
    rw [Core.ctx_clear _ _ _ hk]
    exact ⟨rfl, rfl, rfl, rfl, rfl, rfl, rfl⟩

end Sys2Proof.Machine
end

section
/-! SUPPORT. The first residence of a unit (R102, R103): the registers that the device loads, and what it leaves of the bank. -/
namespace Sys2Proof.Machine

/-! ### Loads of scalar registers -/

@[simp] theorem Ctx.readS_heal (x : Ctx) (c : RegCls) (n m : Nat) (en : PWord) : (x.heal c n en).readS m = x.readS m := by
  obtain ⟨bad, h⟩ := x.heal_frame c n en
  rw [h]
  rfl

/-- Scalar registers are loaded one after the other; a load replaces what an error left there (R374). -/
def Ctx.loadS (x : Ctx) (loads : List (Nat × Word)) : Ctx := loads.foldl (fun x l => (x.writeS l.1 l.2).heal .s l.1 allLanes) x

theorem Ctx.loadS_cons (x : Ctx) (l : Nat × Word) (loads : List (Nat × Word)) :
    x.loadS (l :: loads) = ((x.writeS l.1 l.2).heal .s l.1 allLanes).loadS loads := rfl

/-- Loads change the scalar registers and the record of errors only. -/
theorem Ctx.loadS_frame (x : Ctx) (loads : List (Nat × Word)) : ∃ s bad, x.loadS loads = { x with s, bad } := by
  refine List.foldlRecOn loads _ (motive := fun t : Ctx => ∃ s bad, t = { x with s, bad }) ⟨x.s, x.bad, rfl⟩ ?_
  rintro _ ⟨s, bad, rfl⟩ l -
  obtain ⟨healed, hheal⟩ := (({ x with s, bad } : Ctx).writeS l.1 l.2).heal_frame .s l.1 allLanes
  rw [hheal, Ctx.writeS]
  split
  · exact ⟨_, _, rfl⟩
  · exact ⟨_, _, rfl⟩

theorem Ctx.readS_loadS_other (x : Ctx) {loads : List (Nat × Word)} {n : Nat} (h : n ∉ loads.map Prod.fst) :
    (x.loadS loads).readS n = x.readS n := by
  induction loads generalizing x with
  | nil => rfl
  | cons l rest ih =>
    rw [List.map_cons, List.mem_cons, not_or] at h
    rw [Ctx.loadS_cons, ih _ h.2, Ctx.readS_heal, Ctx.readS_writeS_other x l.2 h.1]

theorem Ctx.readS_loadS_of_mem (x : Ctx) {loads : List (Nat × Word)} {n : Nat} {w : Word} (hn : n < 32) (h0 : n ≠ 0)
    (hdistinct : (loads.map Prod.fst).Nodup) (h : (n, w) ∈ loads) : (x.loadS loads).readS n = w := by
  induction loads generalizing x with
  | nil => exact absurd h List.not_mem_nil
  | cons l rest ih =>
    rw [List.map_cons, List.nodup_cons] at hdistinct
    rw [Ctx.loadS_cons]
    rcases List.mem_cons.mp h with rfl | hrest
    · rw [Ctx.readS_loadS_other _ hdistinct.1, Ctx.readS_heal, Ctx.readS_writeS_same x w hn h0]
    · exact ih _ hdistinct.2 hrest

/-! ### What the device loads before a unit's first bundle (R103) -/

/-- s29, s30 and the arguments from s1 up. -/
def Unit.firstLoads (y : Unit) : List (Nat × Word) :=
  [(29, y.gp), (30, BitVec.ofNat 64 (y.privOff + y.privSize))] ++ y.args.zipIdx.map fun a => (a.2 + 1, a.1)

theorem Unit.firstLoads_keys (y : Unit) : y.firstLoads.map Prod.fst = 29 :: 30 :: List.range' 1 y.args.length := by
  have hargs : (y.args.zipIdx.map fun a => (a.2 + 1, a.1)).map Prod.fst = (y.args.zipIdx.map Prod.snd).map (· + 1) := by
    rw [List.map_map, List.map_map]
    rfl
  rw [Unit.firstLoads, List.map_append, hargs, List.zipIdx_map_snd, ← List.range'_succ_left]
  rfl

theorem Unit.firstLoads_nodup {y : Unit} (h : y.args.length ≤ 8) : (y.firstLoads.map Prod.fst).Nodup := by
  rw [Unit.firstLoads_keys, List.nodup_cons, List.nodup_cons, List.mem_cons, List.mem_range'_1, List.mem_range'_1]
  exact ⟨by omega, by omega, List.nodup_range'⟩

theorem Unit.mem_firstLoads_arg {y : Unit} {i : Nat} {w : Word} (h : y.args[i]? = some w) : (i + 1, w) ∈ y.firstLoads :=
  List.mem_append_right _ (List.mem_map.mpr ⟨(w, i), List.mem_zipIdx_iff_getElem?.mpr h, rfl⟩)

section
variable (x : Ctx) {y : Unit} (hargs : y.args.length ≤ 8)
include hargs

theorem Ctx.readS_firstLoads_arg {i : Nat} {w : Word} (h : y.args[i]? = some w) : (x.loadS y.firstLoads).readS (i + 1) = w := by
  have hi : i < y.args.length := (List.getElem?_eq_some_iff.mp h).1
  exact x.readS_loadS_of_mem (by omega) (by omega) (Unit.firstLoads_nodup hargs) (Unit.mem_firstLoads_arg h)

theorem Ctx.readS_firstLoads_gp : (x.loadS y.firstLoads).readS 29 = y.gp :=
  x.readS_loadS_of_mem (by decide) (by decide) (Unit.firstLoads_nodup hargs) (List.mem_cons_self ..)

theorem Ctx.readS_firstLoads_sp : (x.loadS y.firstLoads).readS 30 = BitVec.ofNat 64 (y.privOff + y.privSize) :=
  x.readS_loadS_of_mem (by decide) (by decide) (Unit.firstLoads_nodup hargs) (List.mem_cons_of_mem _ (List.mem_cons_self ..))

end

theorem Ctx.readS_firstLoads_other (x : Ctx) {y : Unit} {n : Nat} (hn : y.args.length < n) (h29 : n ≠ 29) (h30 : n ≠ 30) :
    (x.loadS y.firstLoads).readS n = x.readS n := by
  refine x.readS_loadS_other ?_
  rw [Unit.firstLoads_keys, List.mem_cons, List.mem_cons, List.mem_range'_1]
  omega

/-! ### The context and the state at a first residence -/

/-- Rousing a bank changes its power state only. -/
theorem Ctx.rouse_frame (x : Ctx) (now : Nat) : ∃ bank, (x.rouse now).2 = { x with bank } := by
  unfold Ctx.rouse
  split <;> exact ⟨_, rfl⟩

/-- The context in which a unit is resident for the first time: its bank is roused, and what R103 names is set. -/
def Ctx.firstResident (x : Ctx) (u : Nat) (y : Unit) (r : PRecord) (now dpmax : Nat) : Ctx :=
  ((x.rouse now).2.begin_ y r dpmax).resident u (x.rouse now).1 0

theorem Ctx.readS_firstResident (x : Ctx) (u : Nat) (y : Unit) (r : PRecord) (now dpmax n : Nat) :
    (x.firstResident u y r now dpmax).readS n = ((x.rouse now).2.loadS y.firstLoads).readS n := rfl

theorem Ctx.readS_rouse (x : Ctx) (now n : Nat) : (x.rouse now).2.readS n = x.readS n := by
  obtain ⟨bank, h⟩ := x.rouse_frame now
  rw [h]
  rfl

/-- What the previous unit left and R103 does not name: vectors, predicates, flags and the generator (R102). -/
theorem Ctx.firstResident_keeps (x : Ctx) (u : Nat) (y : Unit) (r : PRecord) (now dpmax : Nat) :
    let z := x.firstResident u y r now dpmax
    z.v = x.v ∧ z.p = x.p ∧ z.csr.fpflags = x.csr.fpflags ∧ z.csr.srstate = x.csr.srstate := by
  obtain ⟨bank, hbank⟩ := x.rouse_frame now
  obtain ⟨s, bad, hload⟩ := (x.rouse now).2.loadS_frame y.firstLoads
  rw [hbank] at hload
  change (Ctx.loadS _ y.firstLoads).v = _ ∧ (Ctx.loadS _ y.firstLoads).p = _ ∧ (Ctx.loadS _ y.firstLoads).csr.fpflags = _
    ∧ (Ctx.loadS _ y.firstLoads).csr.srstate = _
  rw [hbank, hload]
  exact ⟨rfl, rfl, rfl, rfl⟩

/-- The state in which a unit is resident for the first time. -/
def State.firstResidence (s : State) (c k u : Nat) (y : Unit) (r : PRecord) : State :=
  (s.onCtx c k fun x => x.firstResident u y r s.now s.regs.dpmax).onUnit u fun y => { y with ctx := k, queued := none, started := true }

theorem State.makeResident_first {s : State} {u : Nat} {y : Unit} {l : Launch} {r : PRecord} (c k : Nat) (hy : s.unit u = some y)
    (hsaved : y.saved = none) (hl : find s.launches y.launch = some l) (hr : l.record = some r) :
    s.makeResident c k u = s.firstResidence c k u y r := by
  simp only [State.makeResident, hy, hsaved, hl, Option.bind_some, hr, Option.getD_some]
  rfl

section
variable (s : State) (c u : Nat) (y : Unit) (r : PRecord)

theorem State.ctx_firstResidence {k : Nat} (hk : k < 4) :
    (s.firstResidence c k u y r).ctx c k = (s.ctx c k).firstResident u y r s.now s.regs.dpmax := by
  rw [State.firstResidence, State.ctx_onUnit, State.ctx_onCtx s _ hk]

theorem State.ctx_firstResidence_other {j k : Nat} (h : j ≠ k) : (s.firstResidence c k u y r).ctx c j = s.ctx c j := by
  rw [State.firstResidence, State.ctx_onUnit, State.ctx_onCtx_other s c _ h]

theorem State.core_firstResidence_other {d : Nat} (k : Nat) (h : d ≠ c) : (s.firstResidence c k u y r).core d = s.core d := by
  rw [State.firstResidence, State.core_onUnit, State.core_onCtx_other s k _ h]

theorem State.spm_core_firstResidence (k : Nat) : ((s.firstResidence c k u y r).core c).spm = (s.core c).spm := by
  rw [State.firstResidence, State.core_onUnit, State.spm_core_onCtx]

end

theorem exec_runQueueEntryTaken_due {s : State} {c k u : Nat} (hdue : s.refillDue c k = true) (hhead : s.firstHead c k = some u) :
    exec (.runQueueEntryTaken c k) s = .next (s.makeResident c k u) := by
  change execRunQueueEntryTaken c k s = _
  simp only [execRunQueueEntryTaken, hdue, hhead, if_true]

/-- Settles O45: the head that the context takes is not saved, so it becomes resident for the first time; its scalar registers are
`Unit.firstLoads` over what the bank held, and the rest of the bank is `Ctx.firstResident_keeps`. -/
theorem firstResidence : Obligations.FirstResidence := by
  unfold Obligations.FirstResidence
  intro s c k u y l r hk hdue hhead hy hsaved hargs hl hr
  have hexec := exec_runQueueEntryTaken_due hdue hhead
  rw [State.makeResident_first c k hy hsaved hl hr] at hexec
  refine ⟨_, hexec, ?bank, fun j hj => s.ctx_firstResidence_other c u y r hj, fun d hd => s.core_firstResidence_other c u y r k hd,
    s.spm_core_firstResidence c u y r k, rfl⟩
  rw [s.ctx_firstResidence c u y r hk]
  obtain ⟨hv, hp, hflags, hsr⟩ := (s.ctx c k).firstResident_keeps u y r s.now s.regs.dpmax
  refine ⟨rfl, rfl, fun i w h => ?arg, ?gp, ?sp, rfl, rfl, rfl, rfl, rfl, rfl, fun n hn h29 h30 => ?other, hv, hp, hflags, hsr⟩
  case arg => rw [Ctx.readS_firstResident, Ctx.readS_firstLoads_arg _ hargs h]
  case gp => rw [Ctx.readS_firstResident, Ctx.readS_firstLoads_gp _ hargs]
  case sp => rw [Ctx.readS_firstResident, Ctx.readS_firstLoads_sp _ hargs]
  case other => rw [Ctx.readS_firstResident, Ctx.readS_firstLoads_other _ hn h29 h30, Ctx.readS_rouse]

end Sys2Proof.Machine
end

section
/-! SUPPORT. O59 fails at its clause on HBMWIN. R69 gives EN, IL and BASE of a window register the reset value 0, and SIZE, which is
read-only, no reset column but a value: 384 for HBMWIN. The register after reset is therefore 384 and not 0, as the clause has it. -/
namespace Sys2Proof.Machine

/-- SIZE of HBMWIN is 384 GiB from reset on (R69). -/
theorem winSize_hbmwin_reset : winSize State.reset.regs.hbmwin = 384 := by decide

/-- Refutes O59: after reset HBMWIN shows SIZE 384, and the statement has the whole register 0. -/
theorem not_resetValues : ¬ Obligations.ResetValues := by
  unfold Obligations.ResetValues
  intro h
  obtain ⟨-, -, hhbmwin, -⟩ := h
  have hsize : winSize State.reset.regs.hbmwin = 0 := congrArg winSize hhbmwin
  exact absurd (winSize_hbmwin_reset.symm.trans hsize) (by decide)

end Sys2Proof.Machine
end

section
/-! SUPPORT. Error events (R373, R374), READY (R410), the power check (R412) and row streams (R308, R309). -/
namespace Sys2Proof.Machine

/-! ### Error events (R373, R374) -/

theorem exec_errorEvent_corrected {e : ErrorInfo} (h : e.correctable = true) (s : State) :
    exec (.errorEvent e) s = .next (s.countError e.res e.pa) := by
  change execErrorEvent e s = _
  rw [execErrorEvent, if_pos h]

theorem exec_errorEvent_uncorrected {e : ErrorInfo} (h : e.correctable = false) (s : State) :
    exec (.errorEvent e) s = .next ((s.spoil e.res e.pa).countError e.res e.pa) := by
  change execErrorEvent e s = _
  simp only [execErrorEvent, h, Bool.false_eq_true, if_false]

/-- A count that does not reach the threshold has no other effect. -/
theorem State.countError_below {s : State} {r : Resource} (pa : Nat)
    (h : field s.regs.fltthr 0 16 ≠ (find s.errors (resNumber r)).getD 0 + 1) :
    s.countError r pa = { s with errors := put s.errors (resNumber r) ((find s.errors (resNumber r)).getD 0 + 1) } := by
  simp only [State.countError, ne_eq, Ne.symm h, not_false_eq_true, true_or, or_true, if_true]

/-! ### READY (R410) -/

theorem readyBit_lt (f : Func) : readyBit f < 47 := by
  cases f <;> simp only [readyBit] <;> omega

theorem exec_functionReady_kept {s : State} {f : Func} (h : s.lost f = false) :
    exec (.functionReady f) s = .next (s.setRegs { s.regs with ready := s.regs.ready ||| BitVec.twoPow 47 (readyBit f) }) := by
  change execFunctionReady f s = _
  simp only [execFunctionReady, h, Bool.false_eq_true, if_false]

/-- A function is ready afterwards if it is the one that became ready, or was ready. -/
theorem State.isReady_orReady (s : State) (f g : Func) :
    (s.setRegs { s.regs with ready := s.regs.ready ||| BitVec.twoPow 47 (readyBit f) }).isReady g
      = (s.isReady g || decide (readyBit g = readyBit f)) := by
  change (s.regs.ready ||| BitVec.twoPow 47 (readyBit f)).getLsbD (readyBit g) = _
  rw [BitVec.getLsbD_or, BitVec.getLsbD_twoPow, decide_eq_true (readyBit_lt f), Bool.true_and, State.isReady]
  simp only [eq_comm]

/-! ### What leaves PWRSTAT as it is

The temperature halt disarms and cancels jobs; a completion that it writes is stored at the home, which may report errors of lines that are
written back, and so may change the error log, but no other register. -/

@[simp] theorem State.homeWrite_regs (s : State) (pa : Nat) (l : List Byte) (wk : Option (BitVec 512)) :
    (s.homeWrite pa l wk).regs = s.regs := by
  unfold State.homeWrite
  dsimp only
  split <;> rfl

@[simp] theorem State.report_pwrstat (s : State) (kind index place : Nat) :
    (s.report kind index place).regs.pwrstat = s.regs.pwrstat := by
  simp only [State.report, apply_ite State.regs, apply_ite Regs.pwrstat, State.msix, ite_self]

@[simp] theorem State.writeBackSector_pwrstat (s : State) (pa : Nat) (l : L2Line) (i : Nat) :
    (s.writeBackSector pa l i).regs.pwrstat = s.regs.pwrstat := by
  simp only [State.writeBackSector, apply_ite State.regs, apply_ite Regs.pwrstat, State.report_pwrstat, State.homeWrite_regs, ite_self]

theorem State.evict_pwrstat (s : State) (die pa : Nat) : (s.evict die pa).regs.pwrstat = s.regs.pwrstat := by
  change (s.clean die pa).regs.pwrstat = _
  unfold State.clean
  split
  case h_1 l _ =>
    exact List.foldlRecOn (List.range 4) _ (motive := fun t : State => t.regs.pwrstat = s.regs.pwrstat) rfl
      fun t ht i _ => (t.writeBackSector_pwrstat pa l i).trans ht
  case h_2 => rfl

theorem State.onHolders_evict_pwrstat (s : State) (pa : Nat) :
    (s.onHolders pa fun s d => s.evict d pa).regs.pwrstat = s.regs.pwrstat :=
  List.foldlRecOn _ _ (motive := fun t : State => t.regs.pwrstat = s.regs.pwrstat) rfl fun t ht d _ => (t.evict_pwrstat d pa).trans ht

theorem State.poke_pwrstat (s : State) (pa : Nat) (l : List Byte) (wk : Option (BitVec 512)) :
    (s.poke pa l wk).regs.pwrstat = s.regs.pwrstat :=
  List.foldlRecOn (sectorPieces pa l.length) _ (b := (l, s)) (motive := fun r : List Byte × State => r.2.regs.pwrstat = s.regs.pwrstat) rfl
    fun r hr p _ => (congrArg Regs.pwrstat (State.homeWrite_regs _ _ _ _)).trans ((r.2.onHolders_evict_pwrstat p.1).trans hr)

theorem State.writeCompletion_pwrstat (s : State) (p : Fin 2) (tag : BitVec 16) (st : Nat) (v : Word) :
    (s.writeCompletion p tag st v).regs.pwrstat = s.regs.pwrstat :=
  s.poke_pwrstat _ _ _

theorem State.flushPending_pwrstat (s : State) (p : Fin 2) (l : List Pending) :
    (s.flushPending p l).regs.pwrstat = s.regs.pwrstat := by
  induction l generalizing s with
  | nil => rfl
  | cons c rest ih =>
    unfold State.flushPending
    split
    case h_1 st v _ =>
      split
      · rfl
      · exact (ih _).trans (s.writeCompletion_pwrstat p c.tag st v)
    case h_2 => rfl

theorem State.settleCommand_pwrstat (s : State) (p : Fin 2) (key st : Nat) (v : Word) :
    (s.settleCommand p key st v).regs.pwrstat = s.regs.pwrstat :=
  State.flushPending_pwrstat _ p _

theorem State.disarm_pwrstat (s : State) (j cause : Nat) : (s.disarm j cause).regs.pwrstat = s.regs.pwrstat := by
  unfold State.disarm
  split
  case h_1 => rfl
  case h_2 x _ =>
    change (s.unanswered j x).regs.pwrstat = _
    unfold State.unanswered
    split
    · exact s.openStatus.2.settleCommand_pwrstat _ _ _ _
    · rfl

theorem State.cancelJob_pwrstat (s : State) (j cause : Nat) : (s.cancelJob j cause).regs.pwrstat = s.regs.pwrstat := by
  unfold State.cancelJob
  obtain ⟨launches, jobs, h⟩ := State.cancelWork_frame (s.onJob j _) j cause
  rw [h]
  rfl

theorem State.halt_pwrstat (s : State) : s.halt.regs.pwrstat = s.regs.pwrstat := by
  refine List.foldlRecOn s.jobs _ (motive := fun t : State => t.regs.pwrstat = s.regs.pwrstat) rfl fun t ht x _ => ?_
  split
  · exact (t.disarm_pwrstat _ _).trans ht
  · exact (t.cancelJob_pwrstat _ _).trans ht

/-! ### The power check (R412) -/

/-- The clock in MHz and the throttle count that follow a check. -/
def clockAfter (cap clk throt power temp : Nat) : Nat × Nat :=
  if cap < power ∨ 105 < temp then (max 425 (clk - 25), min 65535 (throt + 1))
  else if 100 * power < 95 * cap ∧ temp < 100 then (min 850 (clk + 25), throt)
  else (clk, throt)

theorem powerStatus_eq (cap : Nat) (old : Word) (power temp : Nat) :
    let r := clockAfter cap (field old 16 16) (field old 0 16) power temp
    powerStatus cap old power temp = BitVec.ofNat 64 (r.2 + 2 ^ 16 * r.1 + 2 ^ 32 * (power % 65536) + 2 ^ 48 * (temp % 65536)) := rfl

theorem clockAfter_throttled {cap power temp : Nat} (clk throt : Nat) (h : cap < power ∨ 105 < temp) :
    (clockAfter cap clk throt power temp).1 = max 425 (clk - 25) := by
  rw [clockAfter, if_pos h]

theorem clockAfter_raised {cap power temp : Nat} (clk throt : Nat) (hpower : 100 * power < 95 * cap) (htemp : temp < 100) :
    (clockAfter cap clk throt power temp).1 = min 850 (clk + 25) := by
  rw [clockAfter, if_neg (by omega), if_pos ⟨hpower, htemp⟩]

theorem clockAfter_kept {cap power temp : Nat} (clk throt : Nat) (hpower : power ≤ cap) (htemp : temp ≤ 105)
    (h : 95 * cap ≤ 100 * power ∨ 100 ≤ temp) : (clockAfter cap clk throt power temp).1 = clk := by
  rw [clockAfter, if_neg (by omega), if_neg (by omega)]

/-- A clock of at most 850 MHz stays so, and the throttle count fits its field. -/
theorem clockAfter_le (cap power temp : Nat) {clk throt : Nat} (hclk : clk ≤ 850) (hthrot : throt < 2 ^ 16) :
    (clockAfter cap clk throt power temp).1 ≤ 850 ∧ (clockAfter cap clk throt power temp).2 < 2 ^ 16 := by
  unfold clockAfter
  split
  · exact ⟨by dsimp only; omega, by dsimp only; omega⟩
  · split
    · exact ⟨Nat.min_le_left _ _, hthrot⟩
    · exact ⟨hclk, hthrot⟩

theorem field_ofNat (m lo n : Nat) : field (BitVec.ofNat 64 m) lo n = m % 2 ^ 64 / 2 ^ lo % 2 ^ n := by
  rw [field, BitVec.extractLsb'_toNat, BitVec.toNat_ofNat, Nat.shiftRight_eq_div_pow]

/-- The clock of PWRSTAT after a check. -/
theorem clock_powerStatus (cap : Nat) {old : Word} (power temp : Nat) (h : field old 16 16 ≤ 850) :
    field (powerStatus cap old power temp) 16 16 = (clockAfter cap (field old 16 16) (field old 0 16) power temp).1 := by
  have hthrot : field old 0 16 < 2 ^ 16 := (old.extractLsb' 0 16).isLt
  obtain ⟨hclk, hcount⟩ := clockAfter_le cap power temp h hthrot
  rw [powerStatus_eq, field_ofNat]
  omega

/-- A measurement of power and temperature is taken, and PWRSTAT follows it. -/
def State.measured (s : State) : State :=
  s.draw.2.setRegs { s.regs with
    pwrstat := powerStatus s.regs.powerCap s.regs.pwrstat (Config.measuredPower s.free) (Config.measuredTemp s.free) }

theorem exec_powerCheck (s : State) :
    exec .powerCheck s = .next (let t := if 115 ≤ Config.measuredTemp s.free then s.measured.halt else s.measured
      t.after (1000 * field t.regs.pwrstat 16 16) .powerCheck) := rfl

theorem State.halt_halted (s : State) : s.halt.halted = true ∧ s.halt.regs.ready = 0 := ⟨rfl, rfl⟩

/-- The clock follows the measurement, whether or not the device halts. -/
theorem exec_powerCheck_next (s : State) : ∃ t, exec .powerCheck s = .next t
    ∧ t.regs.pwrstat = powerStatus s.regs.powerCap s.regs.pwrstat (Config.measuredPower s.free) (Config.measuredTemp s.free)
    ∧ (Config.measuredTemp s.free < 115 → t.mem = s.mem ∧ t.free = s.free + 1)
    ∧ (115 ≤ Config.measuredTemp s.free → t.halted = true ∧ t.regs.ready = 0) := by
  refine ⟨_, exec_powerCheck s, ?_⟩
  by_cases hot : 115 ≤ Config.measuredTemp s.free
  · simp only [if_pos hot]
    exact ⟨s.measured.halt_pwrstat, fun hcool => absurd hot (Nat.not_le.mpr hcool), fun _ => s.measured.halt_halted⟩
  · simp only [if_neg hot]
    exact ⟨rfl, fun _ => ⟨rfl, rfl⟩, fun h => absurd h hot⟩

/-! ### Row streams (R308, R309) -/

/-- Key of a position of a row: direction, stream and column (R308). -/
def rowKey (die row : Nat) (west : Bool) (str col : Nat) : Nat :=
  (die * 8 + row) * 256 + ((if west then 128 else 0) + str * 16 + col)

section
variable (die row : Nat) (west : Bool) {str col : Nat} (hstr : str < 8) (hcol : col < 16)
include hstr hcol

theorem rowKey_row : rowKey die row west str col / 256 = die * 8 + row := by
  have hplace : (if west then 128 else 0) ≤ 128 := by cases west <;> decide
  unfold rowKey
  omega

/-- Streams 8 to 15 of a row are those that run west. -/
theorem rowKey_stream : rowKey die row west str col / 16 % 16 = (if west then 8 else 0) + str := by
  cases west <;> simp only [rowKey, Bool.false_eq_true, if_true, if_false] <;> omega

omit hstr in
theorem rowKey_col : rowKey die row west str col % 16 = col := by
  cases west <;> simp only [rowKey, Bool.false_eq_true, if_true, if_false] <;> omega

/-- A word leaves the row at the last column of its direction, and moves by one column elsewhere. -/
theorem streamMove_rowKey : streamMove (rowKey die row west str col)
    = if (if west then col = 0 else col = 15) then none else some (rowKey die row west str (if west then col - 1 else col + 1)) := by
  rw [streamMove, rowKey_stream die row west hstr hcol, rowKey_col die row west hcol]
  cases west with
  | false =>
    simp only [Bool.false_eq_true, if_false]
    have heast : 0 + str < 8 := by omega
    rw [if_pos heast, rowKey, rowKey, Nat.add_assoc, Nat.add_assoc]
  | true =>
    simp only [if_true]
    have hwest : ¬ 8 + str < 8 := by omega
    rw [if_neg hwest]
    split
    · rfl
    · rw [rowKey, rowKey, Nat.add_sub_assoc (by omega), Nat.add_sub_assoc (by omega)]

end

/-- The only word of the streams moves with its row. -/
theorem exec_rowStreamShift_word {s : State} {die row k : Nat} (w : VWord) (hdrives : s.drives = []) (hk : k / 256 = die * 8 + row) :
    exec (.rowStreamShift die row) { s with streams := [(k, w)] }
      = .next { s with streams := (streamMove k).toList.map fun j => (j, w), drives := [] } := by
  change execRowStreamShift die row _ = _
  unfold execRowStreamShift
  cases h : streamMove k <;> simp [hdrives, hk, h, put]

/-- A word that is driven into an empty position stands there. -/
theorem exec_rowStreamShift_drive {s : State} {die row : Nat} {d : Drive} (hstreams : s.streams = []) (hdrives : s.drives = [d])
    (hk : d.key / 256 = die * 8 + row) :
    exec (.rowStreamShift die row) s = .next { s with streams := [(d.key, d.word)], drives := [] } := by
  change execRowStreamShift die row s = _
  simp [execRowStreamShift, hstreams, hdrives, hk, find, put]

/-- Settles O52: the clock is the one of `clockAfter`, also past the temperature halt, which keeps PWRSTAT (`State.halt_pwrstat`); a word of
a row moves by `streamMove_rowKey`. -/
theorem deviceEvents : Obligations.DeviceEvents := by
  unfold Obligations.DeviceEvents
  refine ⟨fun s e => ⟨fun h => exec_errorEvent_corrected h s, fun h => exec_errorEvent_uncorrected h s, ?below⟩, fun s => rfl,
    fun s f hlost => ?ready, fun s => ?power, fun s => ⟨_, rfl, ?reset⟩, fun s die row w hstreams => ⟨?word, ?drive⟩⟩
  case below =>
    intro n hcorrected hres hcount
    rw [exec_errorEvent_corrected hcorrected, hres, State.countError_below]
    · rfl
    · exact hcount
  case ready =>
    refine ⟨_, exec_functionReady_kept hlost, ?_, fun g hg => ?_, rfl⟩
    · rw [State.isReady_orReady, decide_eq_true rfl, Bool.or_true]
    · rw [State.isReady_orReady, decide_eq_false hg, Bool.or_false]
  case power =>
    obtain ⟨t, hexec, hpwrstat, hcool, hhot⟩ := exec_powerCheck_next s
    refine ⟨t, hexec, hcool, fun hold => ?_, hhot⟩
    rw [hpwrstat, clock_powerStatus _ _ _ hold]
    exact ⟨clockAfter_throttled _ _, clockAfter_raised _ _, clockAfter_kept _ _⟩
  case reset => exact ⟨rfl, rfl, rfl, rfl, rfl, rfl, rfl, rfl, rfl, rfl, rfl, rfl, rfl, rfl, rfl, rfl⟩
  case word =>
    intro str west col hstr hcol hdrives key leaves
    have hmove := streamMove_rowKey die row west hstr hcol
    refine ⟨_, exec_rowStreamShift_word w hdrives (rowKey_row die row west hstr hcol), fun hleaves => ?leaves, fun hstays => ?stays, rfl⟩
    case leaves => exact congrArg (fun o => o.toList.map fun j => (j, w)) (hmove.trans (if_pos hleaves))
    case stays => exact congrArg (fun o => o.toList.map fun j => (j, w)) (hmove.trans (if_neg hstays))
  case drive => exact fun d hk hdrives => exec_rowStreamShift_drive hstreams hdrives hk

end Sys2Proof.Machine
end

section
/-! SUPPORT. The round trip of a bundle that holds one slot operation, or none (R117 to R132): its header and its syllable are read back
as they were encoded, and no slot operation by itself exceeds a limit of R126, R127 or R224. -/

namespace Sys2Proof.Laws.RoundTrip

/-- The encoding of a well-formed instruction in a slot is decoded there to that instruction (R128 to R132). -/
theorem statement_holds : ∀ i : Instr, Statement i
  | .nop wt dp st => nop wt dp st | .add o => add o | .sub o => sub o | .and o => and o | .or o => or o | .xor o => xor o | .andn o => andn o
  | .shl o => shl o | .shr o => shr o | .sra o => sra o | .rol o => rol o | .min o => min o | .max o => max o | .minn o => minn o
  | .maxn o => maxn o | .seq o => seq o | .sne o => sne o | .slt o => slt o | .sltn o => sltn o | .sle o => sle o | .slen o => slen o
  | .clz o => clz o | .ctz o => ctz o | .popc o => popc o | .bfx o => bfx o | .bfxn o => bfxn o | .bfi o => bfi o | .mul o => mul o
  | .mulh o => mulh o | .mulhn o => mulhn o | .fadd o => fadd o | .fsub o => fsub o | .fmul o => fmul o | .fma o => fma o | .fmin o => fmin o
  | .fmax o => fmax o | .fabs o => fabs o | .fneg o => fneg o | .feq o => feq o | .flt o => flt o | .fle o => fle o | .fcvti o => fcvti o
  | .icvtf o => icvtf o | .addi o => addi o | .andi o => andi o | .ori o => ori o | .xori o => xori o | .shli o => shli o | .shri o => shri o
  | .srai o => srai o | .slti o => slti o | .sltni o => sltni o | .li o => li o | .lim o => lim o | .lit o => lit o | .ldLI8 o => ldLI8 o
  | .ldLN8 o => ldLN8 o | .ldLI16 o => ldLI16 o | .ldLN16 o => ldLN16 o | .ldLI32 o => ldLI32 o | .ldLN32 o => ldLN32 o | .ldLD o => ldLD o
  | .stLB o => stLB o | .stLH o => stLH o | .stLW o => stLW o | .stLD o => stLD o | .ldg o => ldg o | .stg o => stg o | .amoAdd o => amoAdd o
  | .amoAnd o => amoAnd o | .amoOr o => amoOr o | .amoXor o => amoXor o | .amoMin o => amoMin o | .amoMax o => amoMax o | .amoMinn o => amoMinn o
  | .amoMaxn o => amoMaxn o | .amoSwap o => amoSwap o | .amoFadd o => amoFadd o | .amocas o => amocas o | .fence sc => fence sc
  | .fenceRel sc => fenceRel sc | .waittl a e => waittl a e | .bcz cc a disp => bcz cc a disp | .bc cc a b disp => bc cc a b disp
  | .bp p t disp => bp p t disp | .jmp disp => jmp disp | .brl d disp => brl d disp | .jr a => jr a | .jrl d a => jrl d a
  | .loop n a disp => loop n a disp | .loopi n cnt disp => loopi n cnt disp | .enter imm => enter imm | .leave => leave
  | .csrr d nw csr => csrr d nw csr | .csrw o => csrw o | .csrs o => csrs o | .csrc o => csrc o | .trap a => trap a | .sysc a => sysc a
  | .brk => brk | .tret => tret | .iclk d a b => iclk d a b | .iunlk a b => iunlk a b | .yield n => yield n | .spawn d a b => spawn d a b
  | .exit => exit | .cancelLaunch a => cancelLaunch a | .cancelGraph a => cancelGraph a | .cancelPhase a => cancelPhase a
  | .cancelJob a => cancelJob a | .barClu n a => barClu n a | .barDie n a => barDie n a | .barDev n a => barDev n a | .vadd o => vadd o
  | .vsub o => vsub o | .vmul o => vmul o | .vmad o => vmad o | .vmulh o => vmulh o | .vmin o => vmin o | .vmax o => vmax o | .vabs o => vabs o
  | .vneg o => vneg o | .vand o => vand o | .vor o => vor o | .vxor o => vxor o | .vshl o => vshl o | .vshr o => vshr o | .vsra o => vsra o
  | .vfadd o => vfadd o | .vfsub o => vfsub o | .vfmul o => vfmul o | .vfma o => vfma o | .vfmin o => vfmin o | .vfmax o => vfmax o
  | .vfabs o => vfabs o | .vfneg o => vfneg o | .vcmp o => vcmp o | .vfcmp o => vfcmp o | .vsel o => vsel o | .vbcst o => vbcst o
  | .vins o => vins o | .vext o => vext o | .vmov o => vmov o | .vld o => vld o | .vst d a imm pg ty => vst d a imm pg ty | .vlds o => vlds o
  | .vgath o => vgath o | .vscat d a b pg ty => vscat d a b pg ty | .vldg o => vldg o | .vstg o => vstg o | .vrsum o => vrsum o
  | .vrmax o => vrmax o | .vrmin o => vrmin o | .vrmrs o => vrmrs o | .vcpush o => vcpush o | .vcpop o => vcpop o | .pand o => pand o
  | .por o => por o | .pxor o => pxor o | .pandn o => pandn o | .pnot o => pnot o | .pmov o => pmov o | .pcnt o => pcnt o | .pfirst o => pfirst o
  | .psetn o => psetn o | .ppack d nw f => ppack d nw f | .punpk f a => punpk f a | .exp2 o => exp2 o | .log2 o => log2 o | .rcp o => rcp o
  | .rsqrt o => rsqrt o | .sqrt o => sqrt o | .div o => div o | .tanh o => tanh o | .sigm o => sigm o | .divs o => divs o | .rems o => rems o
  | .divn o => divn o | .remn o => remn o | .maxexp o => maxexp o | .cvtq o => cvtq o | .cvt o => cvt o | .cvtw o => cvtw o | .cvtn o => cvtn o
  | .cbld cb a => cbld cb a | .cbdec o => cbdec o | .shuf o => shuf o | .patld entry a b => patld entry a b | .patsw => patsw | .vidx o => vidx o
  | .tcfg t => tcfg t | .mma o => mma o | .pmma o => pmma o | .accz mask => accz mask | .accrd o => accrd o | .accrv o => accrv o
  | .accwr o => accwr o | .accsave o => accsave o | .accrest o => accrest o | .lease => lease | .unlease => unlease | .qcfg o => qcfg o
  | .qpop q n => qpop q n | .qrd o => qrd o | .qwr o => qwr o | .qspl q a => qspl q a | .quns q => quns q | .qsave o => qsave o
  | .qrest o => qrest o | .qstat o => qstat o | .cpld o => cpld o | .cpst o => cpst o | .cpll o => cpll o | .cpga o => cpga o | .cpmem o => cpmem o
  | .tlook d a => tlook d a | .tins a b => tins a b | .tinv a idx => tinv a idx | .sdrv w str b => sdrv w str b | .stap w str d => stap w str d
  | .stapq w str q tag => stapq w str q tag | .dpatch o => dpatch o | .dclk mask a => dclk mask a | .dset o => dset o | .dinj b => dinj b
  | .dstep mask a => dstep mask a | .dread o => dread o | .dcnt o => dcnt o | .dsave a imm rel => dsave a imm rel | .dload a imm => dload a imm
  | .coll a b => coll a b | .cqry a imm b => cqry a imm b | .fixedLatencyLand c k => fixedLatencyLand c k | .spawnComplete u n => spawnComplete u n
  | .matCommandStart c st => matCommandStart c st | .matCommandDone c id => matCommandDone c id | .remoteSliceServe c => remoteSliceServe c
  | .pairPartialArrive u idx rows cols isInt tile => pairPartialArrive u idx rows cols isInt tile
  | .pairCommitArrive u idx => pairCommitArrive u idx | .pairTimeout u idx => pairTimeout u idx
  | .spliceRequestArrive snd target slotsz => spliceRequestArrive snd target slotsz
  | .spliceAnswerArrive snd tgt reason log2n tail free => spliceAnswerArrive snd tgt reason log2n tail free
  | .spliceHeaderArrive tgt ctr => spliceHeaderArrive tgt ctr | .spliceRowArrive m => spliceRowArrive m
  | .headReportArrive snd free => headReportArrive snd free | .deliveryAckArrive u => deliveryAckArrive u
  | .spliceEndMarkerArrive tgt => spliceEndMarkerArrive tgt | .spliceTargetEnd snd tgt => spliceTargetEnd snd tgt
  | .copyCommandStart c => copyCommandStart c | .copyCommandDone u n => copyCommandDone u n | .ddaCommandExecute c => ddaCommandExecute c
  | .ddaDomainStep c => ddaDomainStep c | .collRecordStart die => collRecordStart die | .collRequestArrive r => collRequestArrive r
  | .collBlockArrive b => collBlockArrive b | .collDoneArrive die key rank => collDoneArrive die key rank
  | .collDeadline die rid => collDeadline die rid | .landingBufferWrite u id => landingBufferWrite u id
  | .storePerformAtHome u n => storePerformAtHome u n | .lsuAccessStart u n => lsuAccessStart u n | .tlbWalkDone die id => tlbWalkDone die id
  | .pageRequestResponse asid page right ans => pageRequestResponse asid page right ans
  | .pageRequestTimeout asid page right => pageRequestTimeout asid page right | .atsInvalidate pasid va bytes => atsInvalidate pasid va bytes
  | .ifetchFill c k => ifetchFill c k | .asyncTrap c k => asyncTrap c k | .domainFreeze l => domainFreeze l | .domainResume l => domainResume l
  | .sliceExpiry c k => sliceExpiry c k | .yieldOverrun c k => yieldOverrun c k | .drainSave c k => drainSave c k
  | .forcedSave c k => forcedSave c k | .unitRestore c k => unitRestore c k | .bankRetention c k => bankRetention c k
  | .bankRouseDone c k => bankRouseDone c k | .bankWake c k => bankWake c k | .unitRetire u => unitRetire u
  | .runQueueEntryTaken c k => runQueueEntryTaken c k | .cqtail port v => cqtail port v | .cplhead port v => cplhead port v
  | .malformedCommand port tag => malformedCommand port tag | .submit port tag asid job die => submit port tag asid job die
  | .cancel port tag asid level va reason => cancel port tag asid level va reason | .asidinv port tag asid => asidinv port tag asid
  | .tlbinv port tag asid va bytes => tlbinv port tag asid va bytes | .gangarm port tag rec asid die => gangarm port tag rec asid die
  | .ganggo port tag gang => ganggo port tag gang | .gangabort port tag gang => gangabort port tag gang
  | .keyld port tag key pa => keyld port tag key pa | .keyclr port tag key => keyclr port tag key | .gangArmTimeout gang => gangArmTimeout gang
  | .gangWaitTimeout gang => gangWaitTimeout gang | .gangCancelReceive gang cause => gangCancelReceive gang cause | .launch j n => launch j n
  | .launchPlace l => launchPlace l | .placeTimeout l => placeTimeout l | .coreClear c => coreClear c | .copyNode j n => copyNode j n
  | .condNode j n => condNode j n | .whileNode j n => whileNode j n | .whilePassEnd j => whilePassEnd j | .signal j n => signal j n
  | .waitNode j n => waitNode j n | .waitPoll j => waitPoll j | .waitTimeout j => waitTimeout j | .phaseend j h => phaseend j h
  | .hostirq j h vec => hostirq j h vec | .graphEnd j => graphEnd j | .hbmwin port v => hbmwin port v | .ddrwin port v => ddrwin port v
  | .hsemAcq port => hsemAcq port | .hsemRel port => hsemRel port | .registerWrite port r v => registerWrite port r v
  | .maintModeChange c => maintModeChange c | .ttctl port die v => ttctl port die v | .ttbuf port die v => ttbuf port die v
  | .ttdump port die v => ttdump port die v | .dumpRecord die => dumpRecord die | .errlog port => errlog port
  | .hdmCommit port dec base => hdmCommit port dec base | .hostSnoop pa inv => hostSnoop pa inv | .hostHdmRead port pa => hostHdmRead port pa
  | .l2LineRequest die pa own => l2LineRequest die pa own | .errorEvent e => errorEvent e | .faultWindowReset => faultWindowReset
  | .powerCheck => powerCheck | .functionReady f => functionReady f | .deviceReset => deviceReset | .portReset port => portReset port
  | .rowStreamShift die row => rowStreamShift die row | .pairAbortArrive u idx => pairAbortArrive u idx
  | .copyNodeComplete j id => copyNodeComplete j id

end Sys2Proof.Laws.RoundTrip

namespace Sys2Proof
open Laws.RoundTrip

/-! ### Bytes of a number -/

@[simp] theorem leBytes_length (v n : Nat) : (leBytes v n).length = n := by
  induction n generalizing v with
  | zero => rfl
  | succ n ih => simp only [leBytes, List.length_cons, ih]

theorem leNat_leBytes (v n : Nat) : leNat (leBytes v n) = v % 256 ^ n := by
  induction n generalizing v with
  | zero => simp only [leBytes, leNat, Nat.pow_zero, Nat.mod_one]
  | succ n ih =>
    have hbyte : (BitVec.ofNat 8 v).toNat = v % 256 := BitVec.toNat_ofNat v 8
    rw [leBytes, leNat, ih, hbyte, Nat.pow_succ', Nat.mod_mul]

theorem leNat_leBytes_of_lt {v n : Nat} (h : v < 256 ^ n) : leNat (leBytes v n) = v := by
  rw [leNat_leBytes, Nat.mod_eq_of_lt h]

/-! ### The header (R118) -/

theorem decodeHeader_encodeHeader (wt : Fin 8) (dp st : Bool) (pm : BitVec 6) :
    decodeHeader (encodeHeader wt dp st pm) = ⟨false, wt, dp, st, pm⟩ := by
  have hzero : ((0#5) != 0) = false := rfl
  simp (disch := decide) only [decodeHeader, encodeHeader, field_high, field_low, field_all, bit_high, bit_low, bit_bit,
    Nat.reduceSub, toFin_fin8, hzero]

theorem filter_mask (s : Slot) : allSlots.filter (fun t => s.mask.getLsbD t.index) = [s] := by
  cases s <;> decide

theorem filter_zero : allSlots.filter (fun t => (0 : BitVec 6).getLsbD t.index) = [] := by decide

theorem ofNat_leNat_take_leBytes (h : BitVec 16) (l : List Byte) :
    BitVec.ofNat 16 (leNat ((leBytes h.toNat 2 ++ l).take 2)) = h := by
  rw [List.take_left' (leBytes_length _ _), leNat_leBytes_of_lt h.isLt, BitVec.ofNat_toNat, BitVec.setWidth_eq]

/-! ### One slot operation in its bundle -/

/-- The bits of a syllable fit its parcels (R117). -/
theorem encodeIn_lt {s : Slot} {i : Instr} {w : Nat} (h : encodeIn s i = some w) : w < 256 ^ (2 * s.parcels) := by
  have lt : ∀ {n : Nat} {o : Option (BitVec n)}, o.map BitVec.toNat = some w → w < 2 ^ n := fun ho => by
    obtain ⟨b, -, rfl⟩ := Option.map_eq_some_iff.1 ho
    exact b.isLt
  cases s <;> exact lt h

/-- Hardware loops are operations of the S slots. -/
theorem parcels_of_loop {s : Slot} {i : Instr} {w : Nat} {d : Int} (hi : i.loopDisp = some d) (h : encodeIn s i = some w) :
    s.parcels = 2 := by
  unfold Instr.loopDisp at hi
  split at hi
  case h_1 | h_2 =>
    match s with
    | .s0 | .s1 => rfl
    | .v | .x | .m | .q => cases h
  case h_3 => cases hi

/-! ### No slot operation alone exceeds the limits of a bundle (R126, R127, R224) -/

/-- What the limits of R126 and the rule of two writes to one register (R127) ask of one syllable. -/
structure Uses.Fits (u : Uses) : Prop where
  readS : u.readCount .s ≤ 6
  readV : u.readCount .v ≤ 4
  readP : u.readCount .p ≤ 4
  writeS : u.writeCount .s ≤ 3
  writeV : u.writeCount .v ≤ 2
  writeP : u.writeCount .p ≤ 2
  access : u.access ≤ 2
  named : u.named.Nodup

theorem Uses.readCount_le (u : Uses) {c : RegCls} (hc : c ≠ .p) : u.readCount c ≤ u.srcs.length + u.reads.length := by
  unfold Uses.readCount
  rw [if_neg hc, Nat.add_zero]
  exact Nat.add_le_add (List.length_filter_le _ _) (List.length_filter_le _ _)

/-- Predicates are read through six-bit sources, the guard and what the instruction names, never through d5. -/
theorem Uses.readCount_p_le {u : Uses} (h : u.reads.all (fun x => decide (x.1 ≠ .p)) = true) :
    u.readCount .p ≤ u.srcs.length + (u.preads + if u.guard = 0 then 0 else 1) := by
  have hreads : u.reads.filter (fun x => decide (x.1 = .p) && (decide (RegCls.p = .v) || decide (x.2 ≠ 0))) = [] :=
    List.filter_eq_nil_iff.2 fun x hx => by simp [of_decide_eq_true (List.all_eq_true.1 h x hx)]
  unfold Uses.readCount
  rw [hreads, if_pos rfl]
  exact Nat.add_le_add_right (List.length_filter_le _ _) _

theorem Uses.writeCount_le {u : Uses} (h : u.pwrites = none) (c : RegCls) : u.writeCount c ≤ u.dsts.length := by
  have hcount : u.writeCount c = (u.dsts.filter fun x => decide (x.1 = c) && !x.2.2).length := by
    simp only [Uses.writeCount, h, ite_self]
  exact hcount ▸ List.length_filter_le _ _

theorem Uses.named_sublist (u : Uses) : u.named.Sublist (u.dsts.map (fun x => (x.1, x.2.1)) ++ u.lands) :=
  List.filter_sublist.trans ((List.filter_sublist.map _).append_right _)

theorem Uses.named_nodup_of_distinct {u : Uses} (h : (u.dsts.map (fun x => (x.1, x.2.1)) ++ u.lands).Nodup) : u.named.Nodup :=
  u.named_sublist.nodup h

theorem Uses.named_nodup_of_one {u : Uses} (h : u.dsts.length + u.lands.length ≤ 1) : u.named.Nodup := by
  have hle : (u.dsts.map (fun x => (x.1, x.2.1)) ++ u.lands).length ≤ 1 := by rwa [List.length_append, List.length_map]
  match hl : u.dsts.map (fun x => (x.1, x.2.1)) ++ u.lands with
  | [] => exact Uses.named_nodup_of_distinct (hl ▸ List.nodup_nil)
  | [x] => exact Uses.named_nodup_of_distinct (hl ▸ List.nodup_singleton x)
  | x :: y :: l =>
    rw [hl, List.length_cons, List.length_cons] at hle
    omega

/-- A syllable of few operands and at most two destinations fits when the destinations differ. -/
theorem Uses.fits_of_few {u : Uses} (hreads : u.srcs.length + u.reads.length ≤ 4)
    (hd5 : u.reads.all (fun x => decide (x.1 ≠ .p)) = true) (hpreads : u.srcs.length + u.preads ≤ 3) (haccess : u.access ≤ 2)
    (hpwrites : u.pwrites = none) (hwrites : u.dsts.length ≤ 2) (hnamed : u.named.Nodup) : u.Fits := by
  have hs := u.readCount_le (c := .s) (by decide)
  have hv := u.readCount_le (c := .v) (by decide)
  have hp := Uses.readCount_p_le hd5
  have hguard : (if u.guard = 0 then 0 else 1) ≤ 1 := by split <;> decide
  have hw := Uses.writeCount_le hpwrites
  exact ⟨by omega, by omega, by omega, (hw _).trans (by omega), (hw _).trans hwrites, (hw _).trans hwrites, haccess, hnamed⟩

/-- Few operands and one destination at most, as the lists of a syllable show whatever its operands are. -/
def Uses.small (u : Uses) : Bool :=
  Nat.ble (u.srcs.length + u.reads.length) 4 && u.reads.all (fun x => decide (x.1 ≠ .p)) && Nat.ble (u.srcs.length + u.preads) 3
    && Nat.ble u.access 2 && u.pwrites.isNone && Nat.ble (u.dsts.length + u.lands.length) 1

theorem Uses.fits_of_small {u : Uses} (h : u.small = true) : u.Fits := by
  simp only [Uses.small, Bool.and_eq_true, Nat.ble_eq, Option.isNone_iff_eq_none] at h
  obtain ⟨⟨⟨⟨⟨hreads, hd5⟩, hpreads⟩, haccess⟩, hpwrites⟩, hwrites⟩ := h
  exact Uses.fits_of_few hreads hd5 hpreads haccess hpwrites (by omega) (Uses.named_nodup_of_one hwrites)

theorem small_ldg (o : LdgOp) : (Instr.ldg o).uses.small = true := by
  change Uses.small { srcs := [(.s, o.a)], reads := tokReg o.tok, lands := if o.d = 0 then [] else sLand o.d } = true
  unfold tokReg
  split <;> split <;> rfl

theorem small_stg (o : StgOp) : (Instr.stg o).uses.small = true := by
  change Uses.small { srcs := [(.s, o.a)], reads := [(.s, o.d.val)], dsts := if o.tok = 0 then [] else [sDst o.tok false] } = true
  split <;> rfl

theorem small_bp (p : Fin 16) (t : PTest) (disp : BitVec 16) : (Instr.bp p t disp).uses.small = true := by
  change Uses.small { preads := if p = 0 then 0 else 1, also := [(.p, p.val)] } = true
  split <;> rfl

theorem fits_enter (imm : BitVec 14) : (Instr.enter imm).uses.Fits := by
  change (Instr.enter 0).uses.Fits
  constructor <;> decide

theorem fits_leave : Instr.leave.uses.Fits := by constructor <;> decide

/-- VRMRS writes a scalar register and a predicate register. -/
theorem fits_vrmrs (o : VRmrsOp) : (Instr.vrmrs o).uses.Fits := by
  have hnamed : (Instr.vrmrs o).uses.named.Nodup := Uses.named_nodup_of_distinct <| by
    change [(RegCls.s, o.d.val), (RegCls.p, o.pd.val)].Nodup
    simp
  exact Uses.fits_of_few (Nat.le_of_ble_eq_true rfl) rfl (Nat.le_of_ble_eq_true rfl) (Nat.le_of_ble_eq_true rfl) rfl
    (Nat.le_of_ble_eq_true rfl) hnamed

/-- PPACK reads eight predicates, counts as four, and has no guard. -/
theorem fits_ppack (d : Fin 32) (nw : Bool) (f : Fin 9) : (Instr.ppack d nw f).uses.Fits := by
  have hw := Uses.writeCount_le (u := (Instr.ppack d nw f).uses) rfl
  exact {
    readS := (Uses.readCount_le _ (by decide)).trans (Nat.le_of_ble_eq_true rfl)
    readV := (Uses.readCount_le _ (by decide)).trans (Nat.le_of_ble_eq_true rfl)
    readP := Uses.readCount_p_le rfl
    writeS := (hw .s).trans (Nat.le_of_ble_eq_true rfl)
    writeV := (hw .v).trans (Nat.le_of_ble_eq_true rfl)
    writeP := (hw .p).trans (Nat.le_of_ble_eq_true rfl)
    access := Nat.le_of_ble_eq_true rfl
    named := Uses.named_nodup_of_one (Nat.le_of_ble_eq_true rfl) }

/-- PUNPK writes eight predicates, which differ, and counts as two. -/
theorem fits_punpk (f : Fin 9) (a : Src) : (Instr.punpk f a).uses.Fits where
  readS := (Uses.readCount_le _ (by decide)).trans (Nat.le_of_ble_eq_true rfl)
  readV := (Uses.readCount_le _ (by decide)).trans (Nat.le_of_ble_eq_true rfl)
  readP := (Uses.readCount_p_le rfl).trans (Nat.le_of_ble_eq_true rfl)
  writeS := Nat.le_of_ble_eq_true rfl
  writeV := Nat.le_of_ble_eq_true rfl
  writeP := Nat.le_of_ble_eq_true rfl
  access := Nat.le_of_ble_eq_true rfl
  named := Uses.named_nodup_of_distinct <| by
    change ((List.range 8).map (fun i => (RegCls.p, f.val + i))).Nodup
    revert f
    decide

theorem Instr.uses_fits (i : Instr) : i.uses.Fits := by
  cases i
  case ldg o => exact Uses.fits_of_small (small_ldg o)
  case stg o => exact Uses.fits_of_small (small_stg o)
  case bp p t disp => exact Uses.fits_of_small (small_bp p t disp)
  case enter imm => exact fits_enter imm
  case leave => exact fits_leave
  case vrmrs o => exact fits_vrmrs o
  case ppack d nw f => exact fits_ppack d nw f
  case punpk f a => exact fits_punpk f a
  all_goals exact Uses.fits_of_small rfl

/-! ### The offending slots -/

theorem maskOf_singleton {p : Placed} {f : Placed → Bool} (h : f p = false) : maskOf [p] f = 0 := by
  simp [maskOf, h]

theorem overLimit_singleton {p : Placed} {count : Placed → Nat} {limit : Nat} (h : count p ≤ limit) : overLimit [p] count limit = 0 := by
  rw [overLimit, if_neg]
  simpa using h

/-- R224 speaks of two syllables. -/
theorem streamClash_singleton (p : Placed) : streamClash [p] = 0 := by
  by_cases hq : p.slot = .q
  · simp [streamClash, hq]
  · simp only [streamClash, List.findSome?_cons, List.findSome?_nil, if_neg hq]
    split <;> simp_all

theorem offending_singleton (s : Slot) (w : Nat) (i : Instr) : offending [⟨s, w, .op i⟩] = 0 := by
  have u : Uses.Fits (Placed.uses ⟨s, w, .op i⟩) := i.uses_fits
  have hdup : ((Placed.uses ⟨s, w, .op i⟩).named.any fun d => [(⟨s, w, .op i⟩ : Placed)].any fun q =>
      decide (q.slot ≠ s) && q.uses.named.contains d) = false := by simp
  unfold offending
  dsimp only
  rw [maskOf_singleton, maskOf_singleton, overLimit_singleton u.readS, overLimit_singleton u.writeS, overLimit_singleton u.readV,
    overLimit_singleton u.writeV, overLimit_singleton u.readP, overLimit_singleton u.writeP, overLimit_singleton u.access,
    overLimit_singleton, streamClash_singleton]
  · rfl
  · split <;> decide
  · rw [hdup, decide_eq_true u.named]; rfl
  · rfl

/-! ### A bundle of one slot operation, or of none -/

/-- The loop end of a well-formed single operation does not lie before the end of its bundle (R191). -/
theorem decodeSyllables_singleton {s : Slot} {i : Instr} {w len : Nat} {bytes : List Byte} (hw : leNat (bytes.take (2 * s.parcels)) = w)
    (hdec : decodeSyllable s w = .op i) (hloop : ∀ d, i.loopDisp = some d → (len : Int) ≤ d) :
    decodeSyllables len [s] bytes = [⟨s, w, .op i⟩] := by
  simp only [decodeSyllables, hw, hdec]
  split
  case h_1 d hd => rw [if_neg (Int.not_lt.2 (hloop d hd))]
  case h_2 => rfl

/-- A bundle whose header is encoded and whose syllables offend against no rule is legal. -/
theorem decodeBundle_header {wt : Fin 8} {dp st : Bool} {pm : BitVec 6} {rest : List Byte} {l : List Placed}
    (hl : decodeSyllables (Header.len ⟨false, wt, dp, st, pm⟩) (Header.slots ⟨false, wt, dp, st, pm⟩) rest = l) (hlegal : offending l = 0) :
    decodeBundle (leBytes (encodeHeader wt dp st pm).toNat 2 ++ rest) = ⟨⟨false, wt, dp, st, pm⟩, l, none⟩ := by
  simp only [decodeBundle, ofNat_leNat_take_leBytes, decodeHeader_encodeHeader, List.drop_left' (leBytes_length _ _), hl, hlegal]
  rfl

theorem decodeBundle_alone (wt : Fin 8) (dp st : Bool) {s : Slot} {i : Instr} {w : Nat} (hw : w < 256 ^ (2 * s.parcels))
    (hdec : decodeSyllable s w = .op i) (hloop : ∀ d, i.loopDisp = some d → ((1 + s.parcels : Nat) : Int) ≤ d) :
    decodeBundle (leBytes (encodeHeader wt dp st s.mask).toNat 2 ++ leBytes w (2 * s.parcels))
      = ⟨⟨false, wt, dp, st, s.mask⟩, [⟨s, w, .op i⟩], none⟩ := by
  have hslots : Header.slots ⟨false, wt, dp, st, s.mask⟩ = [s] := filter_mask s
  have hlen : Header.len ⟨false, wt, dp, st, s.mask⟩ = 1 + s.parcels := by rw [Header.len, hslots]; rfl
  have hbits : leNat ((leBytes w (2 * s.parcels)).take (2 * s.parcels)) = w := by
    rw [List.take_of_length_le (leBytes_length _ _).le, leNat_leBytes_of_lt hw]
  refine decodeBundle_header ?_ (offending_singleton s w i)
  rw [hslots, hlen]
  exact decodeSyllables_singleton hbits hdec hloop

/-- R118: a bundle without slot operations. -/
theorem decodeBundle_nop (wt : Fin 8) (dp st : Bool) :
    decodeBundle (leBytes (encodeHeader wt dp st 0).toNat 2) = ⟨⟨false, wt, dp, st, 0⟩, [], none⟩ := by
  have hslots : Header.slots ⟨false, wt, dp, st, 0⟩ = [] := filter_zero
  have hbundle := decodeBundle_header (wt := wt) (dp := dp) (st := st) (pm := 0) (rest := []) (l := []) (by rw [hslots]; rfl) (by decide)
  rwa [List.append_nil] at hbundle

/-- The slot, bits and bytes of an instruction that stands alone. -/
theorem encodeAlone_cases {wt : Fin 8} {dp st : Bool} {i : Instr} {bytes : List Byte} (h : encodeAlone wt dp st i = some bytes) :
    (∃ wt dp st, i = .nop wt dp st ∧ bytes = leBytes (encodeHeader wt dp st 0).toNat 2)
    ∨ ∃ s w, encodeIn s i = some w ∧ bytes = leBytes (encodeHeader wt dp st s.mask).toNat 2 ++ leBytes w (2 * s.parcels) := by
  unfold encodeAlone at h
  split at h
  case h_1 wt dp st => exact .inl ⟨wt, dp, st, rfl, (Option.some.inj h).symm⟩
  case h_2 =>
    obtain ⟨s, -, hs⟩ := List.exists_of_findSome?_eq_some h
    obtain ⟨w, hw, hbytes⟩ := Option.map_eq_some_iff.1 hs
    exact .inr ⟨s, w, hw, hbytes.symm⟩

/-- Settles O57: a syllable is read back by `Laws.RoundTrip.statement_holds`, and its bundle is legal, since no slot operation exceeds a
limit by itself (`Instr.uses_fits`). -/
theorem decodeEncodeRoundTrip : Obligations.DecodeEncodeRoundTrip := by
  unfold Obligations.DecodeEncodeRoundTrip
  intro i wt dp st bytes hwf henc hloop
  obtain ⟨wt, dp, st, rfl, rfl⟩ | ⟨s, w, hw, rfl⟩ := encodeAlone_cases henc
  · rw [decodeBundle_nop]
    rfl
  · have hend : ∀ d, i.loopDisp = some d → ((1 + s.parcels : Nat) : Int) ≤ d := fun d hd => by
      rw [parcels_of_loop hd hw]
      exact hloop d hd
    rw [decodeBundle_alone wt dp st (encodeIn_lt hw) (statement_holds i hwf s w hw) hend]
    rfl

end Sys2Proof
end

section
/-! SUPPORT. The codes that the opcode maps leave unassigned (R129 to R132), group by group and map by map, and the spec's own words
decoded. -/
namespace Sys2Proof

/-! ### Parsed words -/

@[simp] theorem parsed_ne_unassigned (i : Option Instr) : parsed i ≠ .unassigned := by cases i <;> simp [parsed]

/-- Confirming a parsed syllable turns none into an unassigned one, and leaves unassigned what is. -/
theorem confirm_eq_unassigned {n : Nat} (enc : Instr → Option (BitVec n)) (w : BitVec n) (x : Syllable) :
    confirm enc w x = .unassigned ↔ x = .unassigned := by
  cases x with
  | op i => simp only [confirm, reduceCtorEq, iff_false]; split <;> simp
  | illegal => simp [confirm]
  | unassigned => simp [confirm]

/-! ### The groups of the S slots that are told apart by fn8 -/

theorem parseAlu_eq_unassigned (w : BitVec 32) : parseAlu w = .unassigned ↔ 0x19 < (fnOf w).toNat := by
  unfold parseAlu
  split
  case h_27 => simp only [true_iff, imp_false] at *; omega
  all_goals simp [*]

theorem parseMul_eq_unassigned (w : BitVec 32) : parseMul w = .unassigned ↔ 2 < (fnOf w).toNat := by
  unfold parseMul
  split
  case h_4 => simp only [true_iff, imp_false] at *; omega
  all_goals simp [*]

theorem low4_toNat (w : BitVec 32) : (w.extractLsb' 0 4).toNat = (fnOf w).toNat % 16 := by
  simp only [fnOf, BitVec.extractLsb'_toNat, Nat.shiftRight_eq_div_pow]
  omega

theorem high4_toNat (w : BitVec 32) : (w.extractLsb' 4 4).toNat = (fnOf w).toNat / 16 := by
  simp only [fnOf, BitVec.extractLsb'_toNat, Nat.shiftRight_eq_div_pow]
  omega

theorem parseFp_eq_unassigned (w : BitVec 32) : parseFp w = .unassigned ↔ 12 < (fnOf w).toNat % 16 := by
  unfold parseFp
  rw [low4_toNat]
  split
  case h_14 => simp only [true_iff, imp_false] at *; omega
  all_goals simp [*]

theorem parseAmo_eq_unassigned (w : BitVec 32) : parseAmo w = .unassigned ↔ 9 < (fnOf w).toNat % 16 := by
  unfold parseAmo
  rw [low4_toNat]
  split
  case h_11 => simp only [true_iff, imp_false] at *; omega
  all_goals simp [*]

theorem parseSystem_eq_unassigned (w : BitVec 32) :
    parseSystem w = .unassigned ↔ 3 < (fnOf w).toNat ∧ (fnOf w).toNat ≠ 0x10 ∧ (fnOf w).toNat ≠ 0x11 := by
  unfold parseSystem
  split
  case h_7 => simp only [true_iff, imp_false] at *; omega
  all_goals simp [*]

theorem parseHier_eq_unassigned (w : BitVec 32) :
    parseHier w = .unassigned ↔ (fnOf w).toNat ∉ [0x10, 0x20, 0x31, 0x32, 0x33, 0x34, 0x41, 0x42, 0x43] := by
  unfold parseHier
  split
  case h_10 => simp_all
  all_goals simp [*]

theorem parseFence_eq_unassigned (w : BitVec 32) : parseFence w = .unassigned ↔ 0x20 ≤ (fnOf w).toNat := by
  unfold parseFence
  split
  case h_3 => simp only [true_iff, imp_false, high4_toNat] at *; omega
  all_goals simp only [high4_toNat] at *; simp; omega

/-! ### The maps -/

theorem parseS_eq_unassigned (w : BitVec 32) : parseS w = .unassigned ↔
    (let op := (opOf w).toNat
     let fn := (fnOf w).toNat
     (3 ≤ op ∧ op ≤ 7) ∨ (0x14 ≤ op ∧ op ≤ 0x17) ∨ op = 0x1F ∨ op = 0x2F ∨ 0x3C ≤ op
     ∨ (op = 0 ∧ 0x19 < fn) ∨ (op = 1 ∧ 2 < fn) ∨ (op = 2 ∧ 12 < fn % 16) ∨ (op = 0x26 ∧ 9 < fn % 16)
     ∨ (op = 0x38 ∧ 3 < fn ∧ fn ≠ 0x10 ∧ fn ≠ 0x11)
     ∨ (op = 0x3A ∧ fn ∉ [0x10, 0x20, 0x31, 0x32, 0x33, 0x34, 0x41, 0x42, 0x43])
     ∨ (op = 0x3B ∧ 0x20 ≤ fn)) := by
  unfold parseS
  split
  case h_50 =>
    have hcode : (3 ≤ (opOf w).toNat ∧ (opOf w).toNat ≤ 7) ∨ (0x14 ≤ (opOf w).toNat ∧ (opOf w).toNat ≤ 0x17) ∨ (opOf w).toNat = 0x1F
        ∨ (opOf w).toNat = 0x2F ∨ 0x3C ≤ (opOf w).toNat := by
      simp only [imp_false] at *
      omega
    exact iff_of_true rfl (hcode.imp_right <| .imp_right <| .imp_right <| .imp_right .inl)
  all_goals simp [*, parseAlu_eq_unassigned, parseMul_eq_unassigned, parseFp_eq_unassigned, parseAmo_eq_unassigned,
    parseSystem_eq_unassigned, parseHier_eq_unassigned, parseFence_eq_unassigned]

theorem parseV_eq_unassigned (f : VxFields) : parseV f = .unassigned ↔
    (let op := f.op.toNat
     op = 0x0F ∨ (0x18 ≤ op ∧ op ≤ 0x1F) ∨ (0x27 ≤ op ∧ op ≤ 0x2F) ∨ (0x37 ≤ op ∧ op ≤ 0x3F) ∨ (0x44 ≤ op ∧ op ≤ 0x47)
       ∨ (0x4A ≤ op ∧ op ≤ 0x4F) ∨ 0x5B ≤ op) := by
  unfold parseV
  split
  case h_55 => simp only [true_iff, imp_false] at *; omega
  all_goals simp [*]

theorem parseX_eq_unassigned (f : VxFields) : parseX f = .unassigned ↔
    (let op := f.op.toNat
     (0x0C ≤ op ∧ op ≤ 0x0F) ∨ (0x15 ≤ op ∧ op ≤ 0x17) ∨ (0x1A ≤ op ∧ op ≤ 0x1F) ∨ 0x24 ≤ op) := by
  unfold parseX
  split
  case h_24 => simp only [true_iff, imp_false] at *; omega
  all_goals simp [*]

theorem parseM_eq_unassigned (w : BitVec 64) : parseM w = .unassigned ↔ 0x0B ≤ (w.extractLsb' 56 8).toNat := by
  unfold parseM
  split
  case h_12 => simp only [true_iff, imp_false] at *; omega
  all_goals simp [*]

theorem parseQ_eq_unassigned (w : BitVec 64) : parseQ w = .unassigned ↔
    (let op := (w.extractLsb' 56 8).toNat
     (0x09 ≤ op ∧ op ≤ 0x0F) ∨ (0x15 ≤ op ∧ op ≤ 0x17) ∨ op = 0x1B ∨ op = 0x1F ∨ (0x29 ≤ op ∧ op ≤ 0x2F) ∨ 0x32 ≤ op) := by
  unfold parseQ
  split
  case h_32 => simp only [true_iff, imp_false] at *; omega
  all_goals simp [*]

/-- Settles O55: confirming a parsed syllable makes none unassigned, so the maps of the parser say which codes are. -/
theorem unassignedOpcodes : Obligations.UnassignedOpcodes := by
  unfold Obligations.UnassignedOpcodes
  refine ⟨fun w => ?s, fun w => ?v, fun w => ?x, fun w => ?m, fun w => ?q, fun s p last hp => ?raises⟩
  case s => exact (confirm_eq_unassigned _ _ _).trans (parseS_eq_unassigned w)
  case v => exact (confirm_eq_unassigned _ _ _).trans (parseV_eq_unassigned _)
  case x => exact (confirm_eq_unassigned _ _ _).trans (parseX_eq_unassigned _)
  case m => exact (confirm_eq_unassigned _ _ _).trans (parseM_eq_unassigned w)
  case q => exact (confirm_eq_unassigned _ _ _).trans (parseQ_eq_unassigned w)
  case raises =>
    simp only [Machine.State.slotPerforms, hp]
    cases p.slot <;> rfl

/-- Settles O56: each word decodes by computation. -/
theorem decodeWords : Obligations.DecodeWords := by
  unfold Obligations.DecodeWords
  and_intros <;> decide

end Sys2Proof
end

section
/-! SUPPORT. What a step does (R117, R127, R129, R137): the issue of a bundle of one slot operation, or of none, an event, and the end of
the cycle. -/
namespace Sys2Proof.Machine

theorem mem_decodeSyllables {len : Nat} {slots : List Slot} {bytes : List Byte} {p : Placed} (h : p ∈ decodeSyllables len slots bytes) :
    p.slot ∈ slots := by
  induction slots generalizing bytes with
  | nil => cases h
  | cons s rest ih =>
    rw [decodeSyllables] at h
    obtain rfl | hrest := List.mem_cons.1 h
    · exact List.mem_cons_self
    · exact List.mem_cons_of_mem _ (ih hrest)

/-- A syllable of a bundle stands in a slot that the header names (R117). -/
theorem pm_of_mem_slots {bytes : List Byte} {p : Placed} (h : p ∈ (decodeBundle bytes).slots) :
    (decodeBundle bytes).hdr.pm.getLsbD p.slot.index = true := by
  have hslot : p.slot ∈ (decodeBundle bytes).hdr.slots := mem_decodeSyllables h
  exact (List.mem_filter.1 hslot).2

/-- All slots of a bundle perform when none is done and none is stopped. -/
theorem filter_slots (bytes : List Byte) :
    (decodeBundle bytes).slots.filter (fun p => ((decodeBundle bytes).hdr.pm &&& ~~~0 &&& ~~~0).getLsbD p.slot.index)
      = (decodeBundle bytes).slots := by
  simp only [BitVec.ofNat_eq_ofNat, BitVec.not_zero, BitVec.and_allOnes]
  exact List.filter_eq_self.2 fun p => pm_of_mem_slots

theorem illegal_of_single {b : Bundle} {i : Instr} (h : b.single = some i) : b.illegal = none := by
  cases hb : b.illegal with
  | none => rfl
  | some m => simp [Bundle.single, hb] at h

theorem syl_of_single {b : Bundle} {i : Instr} {p : Placed} (h : b.single = some i) (hp : b.slots = [p]) : p.syl = .op i := by
  simp only [Bundle.single, illegal_of_single h, hp] at h
  split at h
  case h_1 j hj => rw [hj, Option.some.inj h]
  case h_2 => cases h

/-- A bundle of one slot, or of none, is performed without being probed. -/
theorem State.perform_few {s : State} {l : List Placed} (hl : l.length ≤ 1) (hstopped : s.iss.stopped = 0) (hany : s.iss.anyRaise = false) :
    s.perform l = runSlots l s := by
  have hs : ({ s with iss := { s.iss with anyRaise := decide (s.iss.stopped ≠ 0) } } : State) = s := by
    rw [hstopped, decide_eq_false (not_not_intro rfl), ← hany]
  rw [State.perform, if_pos hl, hs]

/-- A bundle of one operation: its meaning, in its slot, which is the last. -/
theorem runSlots_single {p : Placed} {i : Instr} (h : p.syl = .op i) (s : State) :
    runSlots [p] s = exec i { s with iss := { s.iss with slot := p.slot, last := true } } := by
  rw [runSlots, State.slotPerforms, h]

/-- The state in which a bundle that no breakpoint stops has begun to issue. -/
def State.begun (s : State) (c k : Nat) (b : Bundle) : State :=
  let x := s.ctx c k
  (s.onCore c fun y => (y.setCtx k (x.issuing s.now)).touchLines x.csr.asidcur.toNat (va56 x.pc) (2 * b.hdr.len) s.now).openIssue c k b 0

section
variable {s : State} {c k : Nat} {bytes : List Byte}
  (hfetched : s.fetched c k = .bytes bytes) (hresume : (s.ctx c k).resume = none)
  (hbreaks : (s.tell (dieOf c)).breaks (s.ctx c k).csr.asidcur.toNat (s.ctx c k).pc (decodeBundle bytes).hdr.pm = (0, false))
  (hillegal : (decodeBundle bytes).illegal = none) (hfew : (decodeBundle bytes).slots.length ≤ 1)

theorem Ctx.doneSlots_of_no_resume {x : Ctx} (h : x.resume = none) : x.doneSlots = 0 := by
  rw [Ctx.doneSlots, h]; rfl

include hfetched hresume in
theorem State.upcoming_of_bytes : s.upcoming c k = .bundle (decodeBundle bytes) ((decodeBundle bytes).hdr.pm &&& ~~~0) := by
  simp only [State.upcoming, hfetched, Ctx.doneSlots_of_no_resume hresume]

include hbreaks hfew in
theorem State.issueBundle_few : s.issueBundle c k (decodeBundle bytes) ((decodeBundle bytes).hdr.pm &&& ~~~0)
    = runSlots (decodeBundle bytes).slots (s.begun c k (decodeBundle bytes)) := by
  have hstopped : (0 : BitVec 6) &&& ((decodeBundle bytes).hdr.pm &&& ~~~0) &&& ~~~(((s.ctx c k).resume.map (·.unchecked)).getD 0) = 0 := by
    simp
  simp only [State.issueBundle, hbreaks, hstopped, Bool.false_and, Bool.false_eq_true, if_false, filter_slots]
  exact State.perform_few hfew rfl rfl

include hfetched hresume hbreaks hillegal hfew in
/-- A legal bundle of one slot, or of none, that nothing stops: its slot performs, and then the prefetcher's part (R127, R137). -/
theorem State.issue_few : s.issue c k = match runSlots (decodeBundle bytes).slots (s.begun c k (decodeBundle bytes)) with
    | .next t => .next t.afterIssue
    | r => r := by
  simp only [State.issue, State.upcoming_of_bytes hfetched hresume, hillegal, State.issueBundle_few hbreaks hfew] <;> rfl

end

theorem step_event {s t : State} {e : Event} (hplan : s.plan = none) (h : s.happening = .event e t) : step s = execEvent e t := by
  rw [step, hplan]
  dsimp only
  rw [h]

theorem step_nothing {s : State} (hplan : s.plan = none) (h : s.happening = .nothing) : step s = .next { s with plan := some s.planCycle } := by
  rw [step, hplan]
  dsimp only
  rw [h]

theorem step_act {s : State} {a : Act} {rest : List Act} (hplan : s.plan = some (a :: rest)) : step s = s.act a rest := by
  rw [step, hplan]

theorem step_cycleEnd {s : State} (hplan : s.plan = some []) : step s = .next s.tick := by
  rw [step, hplan]

/-- Settles O58: the plan's next act is the issue of a bundle that is performed as `State.issue_few` says; what happens besides it is read
off `step`, and each event's arm calls the meaning that its instruction's arm calls. -/
theorem stepRunsDecoded : Obligations.StepRunsDecoded := by
  unfold Obligations.StepRunsDecoded
  refine ⟨fun s c k rest bytes i hplan hfetched hsingle hresume hbreaks => ?issue, fun s t e => step_event, fun s e rest => step_act,
    fun s hplan => ⟨step_cycleEnd hplan, rfl⟩, fun s => step_nothing, fun s => ?events⟩
  case issue =>
    have hillegal := illegal_of_single hsingle
    have hissue := fun hfew => (step_act hplan).trans <|
      State.issue_few (s := { s with plan := some rest }) hfetched hresume hbreaks hillegal hfew
    refine ⟨fun hnone => ?_, fun p hone => ?_⟩
    · rw [hissue (by rw [hnone]; exact Nat.zero_le 1), hnone]
      rfl
    · rw [hissue (by rw [hone]; rfl), hone, runSlots_single (syl_of_single hsingle hone)]
      rfl
  case events => and_intros <;> intros <;> rfl

end Sys2Proof.Machine
end

section
/-! SUPPORT. The memories stay in canonical form (O60): for each function of the model that gives a state, one lemma says that the state it
gives has canonical memories when the one it is given has. -/
namespace Sys2Proof.Machine

/-! ### Lists by rising key -/

theorem risingKeys_iff {α : Type} {l : List (Nat × α)} : risingKeys l = true ↔ l.Pairwise (·.1 < ·.1) := by
  induction l with
  | nil => simp [risingKeys]
  | cons a rest ih =>
    cases rest with
    | nil => simp [risingKeys]
    | cons b rest =>
      rw [risingKeys, Bool.and_eq_true, decide_eq_true_eq, ih, List.pairwise_cons (a := a)]
      refine and_congr_left fun hrest => ⟨fun hab d hd => ?_, fun h => h b List.mem_cons_self⟩
      obtain rfl | hd := List.mem_cons.1 hd
      · exact hab
      · exact hab.trans (List.rel_of_pairwise_cons hrest hd)

theorem del_sublist {α : Type} (l : List (Nat × α)) (k : Nat) : (del l k).Sublist l := by
  induction l with
  | nil => exact .slnil
  | cons a rest ih =>
    unfold del
    split
    · exact List.sublist_cons_self a rest
    · split
      · exact .refl _
      · exact ih.cons_cons a

theorem risingKeys_of_sublist {α : Type} {l m : List (Nat × α)} (hm : risingKeys m = true) (h : l.Sublist m) : risingKeys l = true :=
  risingKeys_iff.2 ((risingKeys_iff.1 hm).sublist h)

theorem risingKeys_put {α : Type} {l : List (Nat × α)} (h : risingKeys l = true) (k : Nat) (x : α) : risingKeys (put l k x) = true := by
  rw [risingKeys_iff] at h ⊢
  induction l with
  | nil => exact List.pairwise_singleton _ _
  | cons a rest ih =>
    obtain ⟨hlt, hrest⟩ := List.pairwise_cons.1 h
    unfold put
    split
    next hk =>
      refine List.pairwise_cons.2 ⟨fun d hd => ?_, h⟩
      obtain rfl | hd := List.mem_cons.1 hd
      · exact hk
      · exact hk.trans (hlt d hd)
    next hk =>
      split
      next heq => exact List.pairwise_cons.2 ⟨fun d hd => heq ▸ hlt d hd, hrest⟩
      next hne =>
        refine List.pairwise_cons.2 ⟨fun d hd => ?_, ih hrest⟩
        obtain rfl | hd := mem_put hd
        · exact Nat.lt_of_le_of_ne (Nat.le_of_not_lt hk) (Ne.symm hne)
        · exact hlt d hd

theorem mem_of_find {α : Type} {l : List (Nat × α)} {k : Nat} {x : α} (h : find l k = some x) : (k, x) ∈ l := by
  induction l with
  | nil => cases h
  | cons a rest ih =>
    unfold find at h
    split at h
    next heq =>
      cases h
      exact heq ▸ List.mem_cons_self
    next => exact List.mem_cons_of_mem _ (ih h)

/-! ### The memories of a core -/

/-- The scratchpad of a core is in canonical form, and its patterns and tags are listed by rising key, the tags below 1,024. -/
def Core.Canonical (x : Core) : Prop :=
  x.spm.wf = true ∧ risingKeys x.pats = true ∧ risingKeys x.tags = true ∧ ∀ t ∈ x.tags, t.1 < 1024

theorem Core.canonical_cleared : Core.cleared.Canonical := ⟨rfl, rfl, rfl, fun _ h => nomatch h⟩

section
variable {x y : Core}

theorem Core.Canonical.ite {c : Prop} {_ : Decidable c} (hx : x.Canonical) (hy : y.Canonical) : (if c then x else y).Canonical := by
  split <;> assumption

/-- Whatever else of the core changes, its memories are as they were. -/
theorem Core.Canonical.update
    {ctxs undo icache loopBuf lostBuf unlocks bankSel cb cbPut mat dda nextPlace copyStarted maint devcyc brconf loads utlb asid
     clearing bad retired remote} (h : x.Canonical) :
    Core.Canonical ⟨ctxs, x.spm, undo, icache, loopBuf, lostBuf, unlocks, x.tags, x.pats, bankSel, cb, cbPut, mat, dda, nextPlace,
      copyStarted, maint, devcyc, brconf, loads, utlb, asid, clearing, bad, retired, remote⟩ := h

theorem Core.Canonical.foldl {α : Type} {f : Core → α → Core} {l : List α} (h : x.Canonical)
    (hf : ∀ y a, y.Canonical → (f y a).Canonical) : (l.foldl f x).Canonical :=
  List.foldlRecOn l f h fun y hy a _ => hf y a hy

theorem Core.Canonical.keepTags {l : List (Nat × Word)} (h : x.Canonical) (hl : l.Sublist x.tags) :
    ({ x with tags := l } : Core).Canonical := by
  obtain ⟨hspm, hpats, htags, hlt⟩ := h
  exact ⟨hspm, hpats, risingKeys_of_sublist htags hl, fun t ht => hlt t (hl.subset ht)⟩

theorem Core.Canonical.insertTag {i : Nat} {p : Nat × Word → Bool} (h : x.Canonical) (key : Word) (hi : i < 1024) :
    ({ x with tags := put (x.tags.filter p) i key } : Core).Canonical := by
  obtain ⟨hspm, hpats, htags, hlt⟩ := h
  refine ⟨hspm, hpats, risingKeys_put (risingKeys_of_sublist htags List.filter_sublist) i key, fun t ht => ?_⟩
  obtain rfl | ht := mem_put ht
  · exact hi
  · exact hlt t (List.mem_of_mem_filter ht)

theorem Core.Canonical.setPattern {k : Nat} {e : Option (BitVec 2560)} (h : x.Canonical) :
    ({ x with pats := setAt x.pats k e } : Core).Canonical := by
  obtain ⟨hspm, hpats, htags⟩ := h
  cases e with
  | none => exact ⟨hspm, risingKeys_of_sublist hpats (del_sublist _ _), htags⟩
  | some e => exact ⟨hspm, risingKeys_put hpats _ _, htags⟩

end

/-! ### Outcomes that keep the memories -/

/-- The state that a body gives, if it gives one, has its memories in canonical form. -/
def Kept : Except Cond State → Prop
  | .ok t => t.memoriesWf
  | .error _ => True

/-- The next state that a meaning answers, if it answers one, has its memories in canonical form. -/
def Answers : Res → Prop
  | .next t => t.memoriesWf
  | _ => True

section
variable {s t : State}

theorem State.memoriesWf.ite {c : Prop} {_ : Decidable c} (hs : s.memoriesWf) (ht : t.memoriesWf) : (if c then s else t).memoriesWf := by
  split <;> assumption

/-- Whatever else of the state changes, its memories are as they were. -/
theorem State.memoriesWf.update
    {now plan iss units launches jobs gangs ended loads nextKey keyTag bad l2 hostBits hostDir ctlb dtlb nonLeaf walks pageReqs asids
     failures answers walked invals keys streams drives halyard collHeld collDones tells samples ports regs errors retired halted
     agenda inputs outs free} (h : s.memoriesWf) :
    State.memoriesWf ⟨now, plan, iss, s.cores, units, launches, jobs, gangs, ended, loads, nextKey, s.mem, keyTag, bad, l2, hostBits,
      hostDir, ctlb, dtlb, nonLeaf, walks, pageReqs, asids, failures, answers, walked, invals, keys, streams, drives, halyard,
      collHeld, collDones, tells, samples, ports, regs, errors, retired, halted, agenda, inputs, outs, free⟩ := h

theorem State.memoriesWf.of_snd {α : Type} {p : α × State} {a : α} (e : p = (a, t)) (h : p.2.memoriesWf) : t.memoriesWf := by
  subst e
  exact h

theorem State.memoriesWf.foldl {α : Type} {f : State → α → State} {l : List α} (h : s.memoriesWf) (hf : ∀ t a, t.memoriesWf →
    (f t a).memoriesWf) : (l.foldl f s).memoriesWf :=
  List.foldlRecOn l f h fun t ht a _ => hf t a ht

theorem State.memoriesWf.foldl_snd {α β : Type} {f : β × State → α → β × State} {p : β × State} {l : List α}
    (h : p.2.memoriesWf) (hf : ∀ q a, q.2.memoriesWf → (f q a).2.memoriesWf) : (l.foldl f p).2.memoriesWf :=
  List.foldlRecOn (motive := fun q => q.2.memoriesWf) l f h fun q hq a _ => hf q a hq

theorem State.memoriesWf.foldl_snd_snd {α β γ : Type} {f : β × γ × State → α → β × γ × State} {p : β × γ × State} {l : List α}
    (h : p.2.2.memoriesWf) (hf : ∀ q a, q.2.2.memoriesWf → (f q a).2.2.memoriesWf) : (l.foldl f p).2.2.memoriesWf :=
  List.foldlRecOn (motive := fun q => q.2.2.memoriesWf) l f h fun q hq a _ => hf q a hq

theorem State.memoriesWf.mapCores {f : Nat × Core → Nat × Core} (h : s.memoriesWf) (hf : ∀ c, c.2.Canonical → (f c).2.Canonical) :
    ({ s with cores := s.cores.map f } : State).memoriesWf :=
  ⟨h.1, List.forall_mem_map.2 fun c hc => hf c (h.2 c hc)⟩

theorem Kept.pure (h : t.memoriesWf) : Kept (pure t) := h

theorem Kept.ok (h : t.memoriesWf) : Kept (.ok t) := h

theorem Kept.bind {α : Type} {e : Except Cond α} {f : α → Except Cond State} (hf : ∀ a, Kept (f a)) : Kept (e >>= f) := by
  cases e with
  | error => trivial
  | ok a => exact hf a

theorem Kept.bindKept {e : Except Cond State} {f : State → Except Cond State} (he : Kept e) (hf : ∀ t, t.memoriesWf → Kept (f t)) :
    Kept (e >>= f) := by
  cases e with
  | error => trivial
  | ok t => exact hf t he

theorem Kept.ite {a b : Except Cond State} {c : Prop} {_ : Decidable c} (ha : Kept a) (hb : Kept b) : Kept (if c then a else b) := by
  split <;> assumption

theorem Kept.of_ok {e : Except Cond State} (he : Kept e) (h : e = .ok t) : t.memoriesWf := by
  subst h
  exact he

theorem Answers.next (h : t.memoriesWf) : Answers (.next t) := h

theorem Answers.ite {a b : Res} {c : Prop} {_ : Decidable c} (ha : Answers a) (hb : Answers b) : Answers (if c then a else b) := by
  split <;> assumption

theorem Answers.of_next {r : Res} (hr : Answers r) (h : r = .next t) : t.memoriesWf := by
  subst h
  exact hr

theorem Answers.of_no_next {r : Res} (h : ∀ t, r = .next t → False) : Answers r := by
  cases r with
  | next t => exact (h t rfl).elim
  | fault | refused => trivial

end

section
variable {s : State} {x : Core}

/-! ### The parts of the state -/

theorem Core.Canonical.setCtx {k c} (h : x.Canonical) : (x.setCtx k c).Canonical := by
  unfold Core.setCtx
  exact h

theorem State.memoriesWf.core {c} (h : s.memoriesWf) : (s.core c).Canonical := by
  rw [State.core]
  cases hf : find s.cores c with
  | none => exact Core.canonical_cleared
  | some y => exact h.2 (c, y) (mem_of_find hf)

theorem State.memoriesWf.setCore {c} (h : s.memoriesWf) (hx : x.Canonical) : (s.setCore c x).memoriesWf := by
  refine ⟨h.1, fun d hd => ?_⟩
  obtain rfl | hd := mem_put hd
  · exact hx
  · exact h.2 d hd

theorem State.memoriesWf.onCore {c f} (h : s.memoriesWf) (hf : (f (s.core c)).Canonical) : (s.onCore c f).memoriesWf := h.setCore hf

theorem State.memoriesWf.setCtx {c k x} (h : s.memoriesWf) : (s.setCtx c k x).memoriesWf := h.setCore h.core.setCtx

theorem State.memoriesWf.onCtx {c k f} (h : s.memoriesWf) : (s.onCtx c k f).memoriesWf := h.setCtx

theorem State.memoriesWf.onUnit {u f} (h : s.memoriesWf) : (s.onUnit u f).memoriesWf := by
  unfold State.onUnit
  exact h

theorem State.memoriesWf.onMe {f} (h : s.memoriesWf) : (s.onMe f).memoriesWf := h.onCtx

theorem State.memoriesWf.myCore (h : s.memoriesWf) : s.myCore.Canonical := h.core

theorem State.memoriesWf.onMyCore {f} (h : s.memoriesWf) (hf : (f s.myCore).Canonical) : (s.onMyCore f).memoriesWf := h.onCore hf

theorem State.memoriesWf.onMyUnit {f} (h : s.memoriesWf) : (s.onMyUnit f).memoriesWf := h.onUnit

theorem State.memoriesWf.draw (h : s.memoriesWf) : s.draw.2.memoriesWf := by
  unfold State.draw
  exact h

theorem State.memoriesWf.at_ {t e} (h : s.memoriesWf) : (s.at_ t e).memoriesWf := by
  unfold State.at_
  exact h

theorem State.memoriesWf.after {d e} (h : s.memoriesWf) : (s.after d e).memoriesWf := h.at_

theorem State.memoriesWf.unschedule {p} (h : s.memoriesWf) : (s.unschedule p).memoriesWf := by
  unfold State.unschedule
  exact h

theorem State.memoriesWf.fly {f} (h : s.memoriesWf) : (s.fly f).memoriesWf := h.onMe

theorem State.memoriesWf.writeS {d nw w lat flags} (h : s.memoriesWf) : (s.writeS d nw w lat flags).memoriesWf := h.fly

theorem State.memoriesWf.writeV {d nw w en lat flags} (h : s.memoriesWf) : (s.writeV d nw w en lat flags).memoriesWf := h.fly

theorem State.memoriesWf.writeP {d nw w lat flags} (h : s.memoriesWf) : (s.writeP d nw w lat flags).memoriesWf := h.fly

theorem State.memoriesWf.writeNoLatch {cls n w lat flags} (h : s.memoriesWf) : (s.writeNoLatch cls n w lat flags).memoriesWf := h.fly

theorem State.memoriesWf.keepSr {a} (h : s.memoriesWf) : (s.keepSr a).memoriesWf := h.onMe

theorem Core.Canonical.storeByte {a b} (h : x.Canonical) : (x.storeByte a b).Canonical := ⟨Memory.write_wf a b h.1, h.2⟩

theorem Core.Canonical.storeBytes {a l} (h : x.Canonical) : (x.storeBytes a l).Canonical := by
  induction l generalizing x a with
  | nil => exact h
  | cons b rest ih => exact ih h.storeByte

theorem Core.Canonical.storeMasked {a l} (h : x.Canonical) : (x.storeMasked a l).Canonical := by
  induction l generalizing x a with
  | nil => exact h
  | cons b rest ih => exact ih (h.storeByte.ite h)

theorem Core.Canonical.putBytes {a l} (h : x.Canonical) : (x.putBytes a l).Canonical := ⟨Memory.writeBytes_wf a l h.1, h.2⟩

/-! ### The shared operations of the slots -/

theorem State.memoriesWf.endLaunch {l st cause} (h : s.memoriesWf) : (s.endLaunch l st cause).memoriesWf := by
  unfold State.endLaunch
  exact h

theorem State.memoriesWf.takeTrap {c k r} (h : s.memoriesWf) : (s.takeTrap c k r).memoriesWf := by
  unfold State.takeTrap
  dsimp only
  exact .ite (h.onCore h.core.putBytes).onCtx.onUnit h.onCtx.endLaunch

theorem State.memoriesWf.dropExited (h : s.memoriesWf) : s.dropExited.memoriesWf := by
  unfold State.dropExited
  exact .ite h.onMe h

theorem State.memoriesWf.finishBundle (h : s.memoriesWf) : s.finishBundle.memoriesWf := by
  unfold State.finishBundle
  dsimp only
  exact .dropExited (.onMe (h.onMyCore h.myCore))

theorem State.memoriesWf.stopBundle {r} (h : s.memoriesWf) : (s.stopBundle r).memoriesWf := h.onMe.takeTrap

theorem State.memoriesWf.completeBundle (h : s.memoriesWf) : s.completeBundle.memoriesWf := by
  unfold State.completeBundle
  split
  exacts [h.stopBundle, .ite h h.finishBundle]

theorem State.memoriesWf.raise {c} (h : s.memoriesWf) : (s.raise c).memoriesWf := by
  unfold State.raise
  dsimp only
  exact h

theorem State.memoriesWf.markDone (h : s.memoriesWf) : s.markDone.memoriesWf := by
  unfold State.markDone
  dsimp only
  exact h

theorem State.memoriesWf.complete (h : s.memoriesWf) : s.complete.memoriesWf := by
  unfold State.complete
  exact .ite h.completeBundle h

theorem State.memoriesWf.slotState {d body} (h : s.memoriesWf) (hb : Kept (body s)) : (slotState d body s).memoriesWf := by
  have hb : Kept (s.readErrors >>= fun _ => body s) := .bind fun _ => hb
  unfold Machine.slotState
  split
  · exact h.raise.complete
  next e =>
    exact h.ite (h.complete.ite (hb.of_ok e).markDone.complete)

theorem State.memoriesWf.slotOp {d body} (h : s.memoriesWf) (hb : Kept (body s)) : Answers (slotOp d body s) := h.slotState hb

/-! ### Status results -/

theorem State.memoriesWf.writeF32 {d nw r} (h : s.memoriesWf) : (s.writeF32 d nw r).memoriesWf := by
  unfold State.writeF32
  exact h.keepSr.writeS

theorem State.memoriesWf.writeVF {d nw en lat r} (h : s.memoriesWf) : (s.writeVF d nw en lat r).memoriesWf := by
  unfold State.writeVF
  exact h.keepSr.writeV

/-! ### Operand forms of the S slots -/

theorem State.memoriesWf.bodySR {f lat o} (h : s.memoriesWf) : Kept (bodySR f lat o s) := by
  unfold Machine.bodySR
  exact .bind fun _ => .bind fun _ => h.writeS

theorem State.memoriesWf.bodySR1 {f o} (h : s.memoriesWf) : Kept (bodySR1 f o s) := by
  unfold Machine.bodySR1
  exact .bind fun _ => h.writeS

theorem State.memoriesWf.bodySI {f o} (h : s.memoriesWf) : Kept (bodySI f o s) := by
  unfold Machine.bodySI
  exact .bind fun _ => h.writeS

theorem State.memoriesWf.bodySh {f o} (h : s.memoriesWf) : Kept (bodySh f o s) := by
  unfold Machine.bodySh
  exact .bind fun _ => h.writeS

theorem State.memoriesWf.bodyF3 {f o} (h : s.memoriesWf) : Kept (bodyF3 f o s) := by
  unfold Machine.bodyF3
  exact .bind fun _ => .bind fun _ => h.writeF32

theorem State.memoriesWf.bodyFN {f o} (h : s.memoriesWf) : Kept (bodyFN f o s) := by
  unfold Machine.bodyFN
  exact .bind fun _ => .bind fun _ => h.writeF32

theorem State.memoriesWf.bodyF1 {f o} (h : s.memoriesWf) : Kept (bodyF1 f o s) := by
  unfold Machine.bodyF1
  exact .bind fun _ => h.writeF32

theorem State.memoriesWf.bodyLoad {size signed o} (h : s.memoriesWf) : Kept (bodyLoad size signed o s) := by
  unfold Machine.bodyLoad
  exact .bind fun _ => .bind fun _ => .bind fun _ => h.writeS

theorem State.memoriesWf.bodyStore {size o} (h : s.memoriesWf) : Kept (bodyStore size o s) := by
  unfold Machine.bodyStore
  exact .bind fun _ => .bind fun _ => h.onMyCore h.myCore.storeBytes

theorem State.memoriesWf.take {t} (h : s.memoriesWf) : (s.take t).memoriesWf := by
  unfold State.take
  dsimp only
  split <;> exact h

theorem State.memoriesWf.putCsr {n w} (h : s.memoriesWf) : (s.putCsr n w).memoriesWf := by
  unfold State.putCsr
  dsimp only
  exact h

theorem State.memoriesWf.putLoop {p} (h : s.memoriesWf) : (s.putLoop p).memoriesWf := by
  unfold State.putLoop
  dsimp only
  exact h

theorem State.memoriesWf.bodyCsr {f o} (h : s.memoriesWf) : Kept (bodyCsr f o s) := by
  unfold Machine.bodyCsr
  refine .bind fun _ => .bind fun _ => ?_
  split
  exacts [trivial, .pure (.putCsr h.writeS)]

/-! ### The instruction cache -/

theorem Core.Canonical.loseCapture {p} (h : x.Canonical) : (x.loseCapture p).Canonical := by
  unfold Core.loseCapture
  exact .ite h h

theorem Core.Canonical.dropLines {p} (h : x.Canonical) : (x.dropLines p).Canonical := h.loseCapture.update

/-! ### Physical memory -/

theorem State.memoriesWf.homeWrite {pa l wk} (h : s.memoriesWf) : (s.homeWrite pa l wk).memoriesWf := by
  unfold State.homeWrite
  dsimp only
  refine .ite ⟨Memory.writeBytes_wf _ l h.1, h.2⟩ ⟨Memory.writeBytes_wf _ l ?_, h.2⟩
  split
  · exact h.1
  · exact Memory.writeBytes_wf _ _ h.1

theorem State.memoriesWf.msix {port vec} (h : s.memoriesWf) : (s.msix port vec).memoriesWf := by
  unfold State.msix
  exact h

theorem State.memoriesWf.report {kind index place} (h : s.memoriesWf) : (s.report kind index place).memoriesWf := by
  unfold State.report
  dsimp only
  exact .ite (.msix (.ite (.msix (.ite h h)) (.ite h h))) (.ite (.msix (.ite h h)) (.ite h h))

theorem State.memoriesWf.setLine {die pa l} (h : s.memoriesWf) : (s.setLine die pa l).memoriesWf := by
  unfold State.setLine
  exact h

theorem State.memoriesWf.dropLine {die pa} (h : s.memoriesWf) : (s.dropLine die pa).memoriesWf := by
  unfold State.dropLine
  exact h

theorem State.memoriesWf.writeBackSector {pa l i} (h : s.memoriesWf) : (s.writeBackSector pa l i).memoriesWf := by
  unfold State.writeBackSector
  exact .ite (.ite h.report h.homeWrite) h

theorem State.memoriesWf.clean {die pa} (h : s.memoriesWf) : (s.clean die pa).memoriesWf := by
  unfold State.clean
  split
  exacts [.setLine (.foldl h fun _ _ h => h.writeBackSector), h]

theorem State.memoriesWf.evict {die pa} (h : s.memoriesWf) : (s.evict die pa).memoriesWf := h.clean.dropLine

theorem State.memoriesWf.makeRoom {die pa} (h : s.memoriesWf) : (s.makeRoom die pa).memoriesWf := by
  unfold State.makeRoom
  dsimp only
  refine .ite h ?_
  split
  exacts [h.draw.evict, h.draw]

theorem State.memoriesWf.onHolders {pa f} (h : s.memoriesWf) (hf : ∀ t d, t.memoriesWf → (f t d).memoriesWf) :
    (s.onHolders pa f).memoriesWf := h.foldl hf

theorem State.memoriesWf.snoopDie {pa inv d} (h : s.memoriesWf) : (s.snoopDie pa inv d).memoriesWf := by
  unfold State.snoopDie
  dsimp only
  split
  exacts [.ite (.dropLine h.writeBackSector) (.setLine h.writeBackSector), h]

theorem State.memoriesWf.enterHostDir {pa} (h : s.memoriesWf) : (s.enterHostDir pa).memoriesWf := by
  unfold State.enterHostDir
  dsimp only
  refine .ite h (.update ?_)
  split
  exacts [.ite (.update (.onHolders h fun _ _ h => h.snoopDie)) h, h]

theorem State.memoriesWf.backSnoop {pa inv} (h : s.memoriesWf) : (s.backSnoop pa inv).memoriesWf := by
  unfold State.backSnoop
  exact .ite h h

theorem State.memoriesWf.lineRequest {die pa own} (h : s.memoriesWf) : (s.lineRequest die pa own).memoriesWf := by
  unfold State.lineRequest
  extract_lets s₁ s₂
  have h₁ : s₁.memoriesWf := h.onHolders fun _ _ h => .ite h (.ite h.evict (by
    dsimp only
    split
    exacts [h.clean.setLine, h.clean]))
  have h₂ : s₂.memoriesWf := .ite h₁ h₁.backSnoop
  split
  exacts [h₂.setLine, h₂.makeRoom.setLine]

theorem State.memoriesWf.lineUnder {die pa key own} (h : s.memoriesWf) : (s.lineUnder die pa key own).memoriesWf := by
  unfold State.lineUnder
  dsimp only
  split
  · refine .ite (.ite h.lineRequest h) ?_
    split
    exacts [h.evict.lineRequest.setLine, h.evict.lineRequest]
  · split
    exacts [h.lineRequest.setLine, h.lineRequest]

theorem State.memoriesWf.hostHeld {pa} (h : s.memoriesWf) : (s.hostHeld pa).memoriesWf := by
  unfold State.hostHeld
  exact .ite h.enterHostDir h

theorem State.memoriesWf.fillSector {die pa} (h : s.memoriesWf) : (s.fillSector die pa).memoriesWf := by
  unfold State.fillSector
  dsimp only
  split
  exacts [.ite h h.setLine.hostHeld, h]

theorem State.memoriesWf.readSector {die pa n key} (h : s.memoriesWf) : (s.readSector die pa n key).2.memoriesWf := by
  unfold State.readSector
  dsimp only
  split
  · exact h
  · split
    exacts [.ite h.lineUnder.fillSector.evict h.lineUnder.fillSector, h.lineUnder.fillSector]

theorem State.memoriesWf.writeSector {die pa l key} (h : s.memoriesWf) : (s.writeSector die pa l key).2.memoriesWf := by
  have hfilled {p : Prop} {_ : Decidable p} : (if p then s.lineUnder die pa key true else
  (s.lineUnder die pa key true).fillSector die pa).memoriesWf :=
    .ite h.lineUnder h.lineUnder.fillSector
  unfold State.writeSector
  dsimp only
  split
  · exact h
  · split
    exacts [hfilled.setLine.hostHeld.evict.ite hfilled.setLine.hostHeld, hfilled]

theorem State.memoriesWf.readPhys {die pa n key} (h : s.memoriesWf) : (s.readPhys die pa n key).2.memoriesWf := by
  unfold State.readPhys
  dsimp only
  exact .foldl_snd h fun _ _ h => h.readSector

theorem State.memoriesWf.writePhys {die pa l key} (h : s.memoriesWf) : (s.writePhys die pa l key).2.memoriesWf := by
  unfold State.writePhys
  dsimp only
  exact .foldl_snd_snd h fun _ _ h => h.writeSector

theorem State.memoriesWf.poke {pa l wk} (h : s.memoriesWf) : (s.poke pa l wk).memoriesWf := by
  unfold State.poke
  dsimp only
  exact .foldl_snd h fun _ _ h => .homeWrite (h.onHolders fun _ _ h => h.evict)

theorem State.memoriesWf.hostStore {pa l} (h : s.memoriesWf) : (s.hostStore pa l).memoriesWf := h.poke

theorem State.memoriesWf.execL2LineRequest {die pa own} (h : s.memoriesWf) : Answers (execL2LineRequest die pa own s) := h.lineRequest

theorem State.memoriesWf.execHostSnoop {pa inv} (h : s.memoriesWf) : Answers (execHostSnoop pa inv s) := by
  unfold Machine.execHostSnoop
  exact .next (.ite (h.onHolders fun _ _ h => h.snoopDie) h)

theorem State.memoriesWf.execHostHdmRead {port pa} (h : s.memoriesWf) : Answers (execHostHdmRead port pa s) := by
  unfold Machine.execHostHdmRead
  dsimp only
  refine .next (.ite (.update (h.onHolders fun _ _ h => ?_)) h)
  split
  exacts [h.clean.setLine, h.clean]

/-! ### Translation -/

theorem State.memoriesWf.asidEntry {die asid} (h : s.memoriesWf) : (s.asidEntry die asid).2.memoriesWf := by
  unfold State.asidEntry
  dsimp only
  split
  exacts [h, h]

theorem State.memoriesWf.walkEntry {die asid va level table} (h : s.memoriesWf) : (s.walkEntry die asid va level table).2.memoriesWf := by
  unfold State.walkEntry
  dsimp only
  split
  exacts [h, h.draw]

theorem State.memoriesWf.keepEntry {die asid va e} (h : s.memoriesWf) : (s.keepEntry die asid va e).memoriesWf := by
  unfold State.keepEntry
  dsimp only
  exact h

theorem State.memoriesWf.walkDown {die asid va n table} (h : s.memoriesWf) : (s.walkDown die asid va n table).2.memoriesWf := by
  induction n generalizing s table with
  | zero => exact h
  | succ n ih =>
    unfold State.walkDown
    dsimp only
    split
    exacts [h.walkEntry, ih h.walkEntry.keepEntry]

theorem State.memoriesWf.leafEntry {asid va l leaf} (h : s.memoriesWf) : (s.leafEntry asid va l leaf).2.memoriesWf := by
  unfold State.leafEntry
  dsimp only
  split
  · split
    exacts [h, h.draw]
  · exact h

theorem State.memoriesWf.walkNow {die asid va right} (h : s.memoriesWf) : (s.walkNow die asid va right).2.memoriesWf := by
  unfold State.walkNow
  dsimp only
  split
  · exact h.asidEntry
  · split
    exacts [h.asidEntry.walkDown, h.asidEntry.walkDown, .leafEntry (.ite h.asidEntry.walkDown h.asidEntry.walkDown.poke)]

theorem State.memoriesWf.install {core die level e} (h : s.memoriesWf) : (s.install core die level e).memoriesWf := by
  have hdie {t : State} {p : Prop} {_ : Decidable p} {d} (ht : t.memoriesWf) : (if p then { t with dtlb := d } else t).memoriesWf :=
    .ite ht.update ht
  have hcluster {t : State} {p : Prop} {_ : Decidable p} {d} (ht : t.memoriesWf) : (if p then { t with ctlb := d } else t).memoriesWf :=
    .ite ht.update ht
  unfold State.install
  dsimp only
  split
  · exact hdie h.draw
  · exact .ite (.onCore (hcluster (hdie h.draw)) (.update (hcluster (hdie h.draw)).core)) (hcluster (hdie h.draw))

theorem State.memoriesWf.xlate {core die asid va right} (h : s.memoriesWf) : (s.xlate core die asid va right).2.memoriesWf := by
  unfold State.xlate
  split
  · split
    exacts [h, h.install]
  · split
    next e => exact (h.walkNow.of_snd e).install
    next => exact h.walkNow

theorem State.memoriesWf.sendRequests (h : s.memoriesWf) : s.sendRequests.memoriesWf := by
  unfold State.sendRequests
  dsimp only
  refine .update (.foldl_snd_snd h fun _ _ h => ?_)
  split
  · exact h
  · split
    exacts [h, h]

theorem State.memoriesWf.requestPage {die asid page right w} (h : s.memoriesWf) : (s.requestPage die asid page right w).memoriesWf := by
  unfold State.requestPage
  dsimp only
  exact .ite h h.asidEntry.update.sendRequests

theorem State.memoriesWf.forget {e} (h : s.memoriesWf) : (s.forget e).memoriesWf := by
  unfold State.forget
  exact h

theorem State.memoriesWf.startWalks {die} (h : s.memoriesWf) : (s.startWalks die).memoriesWf := by
  unfold State.startWalks
  dsimp only
  refine .update (.foldl_snd_snd h fun _ _ h => ?_)
  split
  · exact h
  · split
    · exact h
    · split
      exacts [h.draw.after, h]

theorem State.memoriesWf.requestWalk {die asid va w} (h : s.memoriesWf) : (s.requestWalk die asid va w).memoriesWf := by
  unfold State.requestWalk
  dsimp only
  exact .ite h (.startWalks h)

theorem State.memoriesWf.access {w die asid va} (h : s.memoriesWf) : (s.access w die asid va).2.memoriesWf := by
  unfold State.access
  dsimp only
  split
  · exact h.forget
  · split
    · exact h.requestWalk
    · split
      next e => exact h.xlate.of_snd e
      next e => exact (h.xlate.of_snd e).forget
      next e =>
        have ht := h.xlate.of_snd e
        split
        exacts [ht.forget, ht.requestPage]

theorem State.memoriesWf.accessRange {w die asid va n} (h : s.memoriesWf) : (s.accessRange w die asid va n).2.memoriesWf := by
  unfold State.accessRange
  dsimp only
  refine .foldl_snd h fun _ _ h => ?_
  split
  · split
    · exact h
    · split
      next e => exact h.access.of_snd e
      next e => exact h.access.of_snd e
      next e => exact h.access.of_snd e
  · exact h

theorem State.memoriesWf.keyOf {die asid} (h : s.memoriesWf) : (s.keyOf die asid).2.memoriesWf := h.asidEntry

theorem State.memoriesWf.readPieces {die asid l} (h : s.memoriesWf) : (s.readPieces die asid l).2.2.memoriesWf := by
  unfold State.readPieces
  dsimp only
  exact .foldl_snd_snd h.keyOf fun _ _ h => h.readPhys

theorem State.memoriesWf.writePieces {die asid l b} (h : s.memoriesWf) : (s.writePieces die asid l b).2.memoriesWf := by
  unfold State.writePieces
  dsimp only
  exact .foldl_snd_snd h.keyOf fun _ _ h => h.writePhys

theorem State.memoriesWf.serve {e page right} (h : s.memoriesWf) : (s.serve e page right).memoriesWf := by
  unfold State.serve
  exact h

theorem State.memoriesWf.settleWaiter {die asid page w} (h : s.memoriesWf) : (s.settleWaiter die asid page w).memoriesWf := by
  unfold State.settleWaiter
  dsimp only
  split
  next e => exact (h.serve.walkNow.of_snd e).install.after
  next e => exact (h.serve.walkNow.of_snd e).after
  next e =>
    have ht := h.serve.walkNow.of_snd e
    exact .ite ht.after ht.requestPage

theorem State.memoriesWf.execTlbWalkDone {die id} (h : s.memoriesWf) : Answers (execTlbWalkDone die id s) := by
  unfold Machine.execTlbWalkDone
  dsimp only
  split
  exacts [.next (.startWalks (.foldl h fun _ _ h => .foldl h fun _ _ h => h.settleWaiter)), h]

theorem State.memoriesWf.takeRequest {asid page right} (h : s.memoriesWf) : (s.takeRequest asid page right).2.memoriesWf := by
  unfold State.takeRequest
  dsimp only
  exact h

theorem State.memoriesWf.countAnswer {e} (h : s.memoriesWf) : (s.countAnswer e).memoriesWf := by
  unfold State.countAnswer
  dsimp only
  exact h

theorem State.memoriesWf.unserve {e page} (h : s.memoriesWf) : (s.unserve e page).memoriesWf := by
  unfold State.unserve
  exact h

theorem State.memoriesWf.failRequest {r kind sub} (h : s.memoriesWf) : (s.failRequest r kind sub).memoriesWf := by
  unfold State.failRequest
  exact .foldl h fun _ _ h => .after h

theorem State.memoriesWf.execPageRequestResponse {asid page right ans} (h : s.memoriesWf) :
    Answers (execPageRequestResponse asid page right ans s) := by
  unfold Machine.execPageRequestResponse
  dsimp only
  split
  next e => exact h.takeRequest.of_snd e
  next e =>
    have ht := h.takeRequest.of_snd e
    refine .next (.sendRequests ?_)
    split
    exacts [.foldl ht fun _ _ h => h.countAnswer.unserve.after, ht.failRequest]

theorem State.memoriesWf.execPageRequestTimeout {asid page right} (h : s.memoriesWf) :
    Answers (execPageRequestTimeout asid page right s) := by
  unfold Machine.execPageRequestTimeout
  dsimp only
  refine .ite ?_ h
  split
  next e => exact h.takeRequest.of_snd e
  next e => exact (h.takeRequest.of_snd e).failRequest.sendRequests

theorem State.memoriesWf.dropTlb {test} (h : s.memoriesWf) : (s.dropTlb test).memoriesWf := h.mapCores fun _ hx => hx

theorem State.memoriesWf.dropLines {p} (h : s.memoriesWf) : (s.dropLines p).memoriesWf := h.mapCores fun _ hx => hx.dropLines

theorem State.memoriesWf.recall {asid va n} (h : s.memoriesWf) : (s.recall asid va n).2.memoriesWf := by
  unfold State.recall
  dsimp only
  exact .foldl h fun _ _ h => h.onUnit.after

theorem State.memoriesWf.invalidate {asid va n} (h : s.memoriesWf) : (s.invalidate asid va n).2.memoriesWf := h.dropTlb.dropLines.recall

theorem State.memoriesWf.execAtsInvalidate {pasid va bytes} (h : s.memoriesWf) : Answers (execAtsInvalidate pasid va bytes s) := by
  unfold Machine.execAtsInvalidate
  dsimp only
  exact .next (.ite (.update (.foldl_snd h fun _ _ h => h.invalidate)) (.update (.foldl_snd h fun _ _ h => h.invalidate)))

/-! ### Images and save areas -/

theorem Core.Canonical.healAcc {test} (h : x.Canonical) : (x.healAcc test).Canonical := by
  unfold Core.healAcc
  exact h

theorem State.memoriesWf.storeImage {u} (h : s.memoriesWf) : (s.storeImage u).memoriesWf := by
  unfold State.storeImage
  dsimp only
  split
  · split
    exacts [h.keyOf.poke, h]
  · exact h

/-! ### Telltale -/

theorem State.memoriesWf.onTell {d f} (h : s.memoriesWf) : (s.onTell d f).memoriesWf := by
  unfold State.onTell
  exact h

theorem State.memoriesWf.record {d b} (h : s.memoriesWf) : (s.record d b).memoriesWf := by
  unfold State.record
  dsimp only
  exact .ite h (.ite h.onTell h.poke.onTell)

theorem State.memoriesWf.deviation {c k cause slot pc cc since length mute} (h : s.memoriesWf) :
    (s.deviation c k cause slot pc cc since length mute).memoriesWf := by
  unfold State.deviation
  dsimp only
  exact .ite (.record (h.onCore h.core)) (h.onCore h.core)

theorem State.memoriesWf.onLaunch {l f} (h : s.memoriesWf) : (s.onLaunch l f).memoriesWf := by
  unfold State.onLaunch
  exact h

theorem State.memoriesWf.endFreeze {l f} (h : s.memoriesWf) : (s.endFreeze l f).memoriesWf := by
  unfold State.endFreeze
  exact .onLaunch (.foldl h fun _ _ h => h.deviation)

theorem State.memoriesWf.eventRecord {c k unit ev value ago} (h : s.memoriesWf) : (s.eventRecord c k unit ev value ago).memoriesWf := by
  unfold State.eventRecord
  exact .ite h.record h

theorem State.memoriesWf.loadSample {c k unit issue pc va level xlat hop0} (h : s.memoriesWf) :
    (s.loadSample c k unit issue pc va level xlat hop0).memoriesWf := by
  unfold State.loadSample
  dsimp only
  exact .ite h.draw.draw.draw.update h

theorem State.memoriesWf.flushSamples (h : s.memoriesWf) : s.flushSamples.memoriesWf := by
  unfold State.flushSamples
  exact .foldl h fun _ _ h => h.record

theorem State.memoriesWf.reuseAccess {l die pa} (h : s.memoriesWf) : (s.reuseAccess l die pa).memoriesWf := by
  unfold State.reuseAccess
  dsimp only
  split
  exacts [h, .ite h (.onTell h)]

theorem State.memoriesWf.reuseEnd {l} (h : s.memoriesWf) : (s.reuseEnd l).memoriesWf := by
  unfold State.reuseEnd
  dsimp only
  split
  exacts [h, .foldl h fun _ _ h => .ite h.onTell.record h.onTell]

theorem State.memoriesWf.dumpContext {c k} (h : s.memoriesWf) : (s.dumpContext c k).memoriesWf := h.record

theorem State.memoriesWf.execDumpRecord {die} (h : s.memoriesWf) : Answers (execDumpRecord die s) := by
  unfold Machine.execDumpRecord
  dsimp only
  exact .ite h.dumpContext.onTell h

theorem State.memoriesWf.execTtctl {port die v} (h : s.memoriesWf) : Answers (execTtctl port die v s) := by
  unfold Machine.execTtctl
  dsimp only
  exact .ite h (.next (.ite h.onTell h.onTell.update))

theorem State.memoriesWf.execTtbuf {port die v} (h : s.memoriesWf) : Answers (execTtbuf port die v s) := by
  unfold Machine.execTtbuf
  exact .ite h h.onTell

theorem State.memoriesWf.execTtdump {port die v} (h : s.memoriesWf) : Answers (execTtdump port die v s) := by
  unfold Machine.execTtdump
  exact .ite h h.onTell

/-! ### Trap records and images read -/

theorem State.memoriesWf.loadArea {x v} (h : s.memoriesWf) : (s.loadArea x v).2.memoriesWf := h.keyOf

theorem State.memoriesWf.onBank {u f} (h : s.memoriesWf) : (s.onBank u f).memoriesWf := by
  unfold State.onBank
  dsimp only
  split
  · refine .ite h.onCtx ?_
    split
    exacts [h.loadArea.onUnit.storeImage, h]
  · exact h

/-! ### What the engines share -/

theorem State.memoriesWf.tlNext {e} (h : s.memoriesWf) : (s.tlNext e).2.memoriesWf := h.onMe.onMyUnit

theorem State.memoriesWf.command {e op f} (h : s.memoriesWf) : (s.command e op f).memoriesWf := by
  unfold State.command
  dsimp only
  exact .onMyUnit (h.tlNext.onMyCore h.tlNext.myCore)

theorem State.memoriesWf.onCmd {u e n f} (h : s.memoriesWf) : (s.onCmd u e n f).memoriesWf := h.onUnit

theorem State.memoriesWf.note {u c} (h : s.memoriesWf) : (s.note u c).memoriesWf := by
  unfold State.note
  dsimp only
  split
  exacts [.ite h.onCtx h, h]

theorem State.memoriesWf.takeCmd {u e n f} (h : s.memoriesWf) : (s.takeCmd u e n f).memoriesWf := by
  unfold State.takeCmd
  dsimp only
  exact .ite h.onCmd.note h.onCmd

theorem State.memoriesWf.raiseFlags {u f} (h : s.memoriesWf) : (s.raiseFlags u f).memoriesWf := by
  unfold State.raiseFlags
  exact .ite h h.onBank

theorem State.memoriesWf.finish {u e n} (h : s.memoriesWf) : (s.finish u e n).memoriesWf := h.raiseFlags.onUnit.note

theorem State.memoriesWf.takeLanding {cls num eng} (h : s.memoriesWf) : (s.takeLanding cls num eng).2.memoriesWf := h.onMyUnit

theorem State.memoriesWf.landReady {u id due v en fl} (h : s.memoriesWf) : (s.landReady u id due v en fl).memoriesWf := h.onUnit

theorem State.memoriesWf.freeLanding {u l} (h : s.memoriesWf) : (s.freeLanding u l).memoriesWf := h.onUnit.note.note

theorem State.memoriesWf.writeLanding {u l v en fl} (h : s.memoriesWf) : (s.writeLanding u l v en fl).memoriesWf := h.onBank.freeLanding

theorem State.memoriesWf.asyncRaise {u e n pc c} (h : s.memoriesWf) : (s.asyncRaise u e n pc c).memoriesWf := by
  unfold State.asyncRaise
  split
  exacts [.ite h.endLaunch h.onUnit, h]

theorem State.memoriesWf.engineFault {u e n c} (h : s.memoriesWf) : (s.engineFault u e n c).memoriesWf := by
  unfold State.engineFault
  dsimp only
  split
  exacts [h.onCmd.asyncRaise, h]

/-! ### The load-store unit -/

theorem State.memoriesWf.stepSr {rm n} (h : s.memoriesWf) : (s.stepSr rm n).memoriesWf := by
  unfold State.stepSr
  exact .ite h.keepSr h

theorem State.memoriesWf.tagLoad (h : s.memoriesWf) : s.tagLoad.2.memoriesWf := by
  unfold State.tagLoad
  dsimp only
  exact h.onMyCore h.myCore

theorem State.memoriesWf.landScalar {d e} (h : s.memoriesWf) : (s.landScalar d e).2.memoriesWf := by
  unfold State.landScalar
  dsimp only
  split
  exacts [h, h.takeLanding]

theorem State.memoriesWf.lsuCommand {op f} (h : s.memoriesWf) : (s.lsuCommand op f).memoriesWf := h.draw.command

theorem State.memoriesWf.bodyAmo {i o} (h : s.memoriesWf) : Kept (bodyAmo i o s) := by
  unfold Machine.bodyAmo
  dsimp only
  exact .bind fun _ => .bind fun _ => .bind fun _ => h.takeLanding.lsuCommand

theorem State.memoriesWf.paged {w die asid va n origin} (h : s.memoriesWf) : (s.paged w die asid va n origin).2.memoriesWf := by
  unfold State.paged
  split
  next e => exact h.accessRange.of_snd e
  next e => exact h.accessRange.of_snd e
  next e => exact h.accessRange.of_snd e

theorem State.memoriesWf.soff {die asid} (h : s.memoriesWf) : (s.soff die asid).2.memoriesWf := h.asidEntry

theorem State.memoriesWf.vectorPages {w die asid load maint o a} (h : s.memoriesWf) :
    (s.vectorPages w die asid load maint o a).2.memoriesWf := by
  unfold State.vectorPages
  dsimp only
  split
  next e =>
    have ht := h.paged.of_snd e
    split
    · exact ht
    · split
      · exact ht
      · split
        next e =>
          have ht := ht.paged.of_snd e
          split <;> exact ht
        next => exact ht.paged
  next e => exact h.paged.of_snd e
  next => exact h.paged

theorem State.memoriesWf.lsuPages {w core asid c} (h : s.memoriesWf) : (s.lsuPages w core asid c).2.memoriesWf := by
  unfold State.lsuPages
  dsimp only
  split
  exacts [h.vectorPages, h.vectorPages, h.paged]

theorem State.memoriesWf.scaleWant {die asid c attr} (h : s.memoriesWf) : (s.scaleWant die asid c attr).2.memoriesWf := by
  unfold State.scaleWant
  dsimp only
  split
  exacts [h.soff, h]

theorem State.memoriesWf.scalePages {w die asid l} (h : s.memoriesWf) : (s.scalePages w die asid l).2.memoriesWf := by
  induction l generalizing s with
  | nil => exact h
  | cons a rest ih =>
    unfold State.scalePages
    split
    · exact h
    · split
      next e => exact h.paged.of_snd e
      next e => exact h.paged.of_snd e
      next e =>
        have ht := ih (h.paged.of_snd e)
        split
        next e => exact ht.of_snd e
        next => exact ht

theorem State.memoriesWf.makeParts {key write l} (h : s.memoriesWf) : (s.makeParts key write l).2.memoriesWf := by
  induction l generalizing s with
  | nil => exact h
  | cons a rest ih => exact ih h.draw

theorem State.memoriesWf.lsuTaken {u n x c l sc} (h : s.memoriesWf) : (s.lsuTaken u n x c l sc).memoriesWf :=
  h.keyOf.makeParts.forget.onCmd

theorem State.memoriesWf.lsuStart {u n x c} (h : s.memoriesWf) : (s.lsuStart u n x c).memoriesWf := by
  unfold State.lsuStart
  dsimp only
  split
  next e =>
    have ht := State.memoriesWf.of_snd e (.lsuPages (.ite h.takeCmd h))
    exact ht.engineFault
  next e =>
    have ht := State.memoriesWf.of_snd e (.lsuPages (.ite h.takeCmd h))
    exact ht
  next e =>
    have ht := State.memoriesWf.of_snd e (.lsuPages (.ite h.takeCmd h))
    split
    next e => exact ht.scaleWant.scalePages.of_snd e
    next e => exact (ht.scaleWant.scalePages.of_snd e).engineFault
    next e =>
      have ht := ht.scaleWant.scalePages.of_snd e
      exact .ite ht.engineFault ht.lsuTaken

theorem State.memoriesWf.storeMasked {die pa l key} (h : s.memoriesWf) : (s.storeMasked die pa l key).2.memoriesWf := by
  unfold State.storeMasked
  dsimp only
  refine .foldl_snd_snd h fun _ _ h => ?_
  split
  · exact h
  · split
    exacts [h.writePhys, h.readPhys.writePhys]

theorem State.memoriesWf.touch {l die pa n} (h : s.memoriesWf) : (s.touch l die pa n).memoriesWf := by
  unfold State.touch
  exact .foldl h fun _ _ h => h.reuseAccess

theorem State.memoriesWf.performPart {u x c p} (h : s.memoriesWf) : (s.performPart u x c p).memoriesWf := by
  have ht {q : Prop} {_ : Decidable q} {f l a n} :
      ((if q then s.onCmd u .lsu c.n f else s).touch l a p.pa n).memoriesWf := .touch (.ite h.onCmd h)
  unfold State.performPart
  dsimp only
  split
  · exact .ite ht.storeMasked.engineFault ht.storeMasked.raiseFlags.onCmd
  · exact .ite ht.storeMasked.engineFault ht.storeMasked.raiseFlags.onCmd
  · refine .ite ht.readPhys.engineFault ?_
    split
    · exact ht.readPhys.onCmd
    · refine .ite (.engineFault ?_) (.onCmd (.onCmd ?_))
      all_goals
        split
        exacts [ht.readPhys.writePhys, ht.readPhys]

theorem State.memoriesWf.performReady {u n} (h : s.memoriesWf) : (s.performReady u n).memoriesWf := by
  unfold State.performReady
  split
  · split
    · refine .foldl h fun _ _ h => ?_
      split
      exacts [.ite h.performPart h, h]
    · exact h
  · exact h

theorem State.memoriesWf.bindLoad {u x c} (h : s.memoriesWf) : (s.bindLoad u x c).memoriesWf := by
  unfold State.bindLoad
  dsimp only
  split
  · split
    · split
      exacts [h.soff.scaleWant.onCmd.landReady, h.soff.scaleWant.onCmd.raiseFlags.finish]
    · exact h.soff.scaleWant.engineFault
  · split
    exacts [h.onCmd.landReady, h.onCmd.raiseFlags.finish]
  · split
    exacts [h.onCmd.landReady, h.onCmd.raiseFlags.finish]

theorem State.memoriesWf.lsuSettle {u n} (h : s.memoriesWf) : (s.lsuSettle u n).memoriesWf := by
  unfold State.lsuSettle
  split
  · split
    exacts [.ite (.ite h.bindLoad h.finish) h, h]
  · exact h

theorem State.memoriesWf.sampleDone {u c} (h : s.memoriesWf) : (s.sampleDone u c).memoriesWf := by
  unfold State.sampleDone
  split
  exacts [h.loadSample, h]

theorem State.memoriesWf.execLandingBufferWrite {u id} (h : s.memoriesWf) : Answers (execLandingBufferWrite u id s) := by
  unfold Machine.execLandingBufferWrite
  extract_lets t
  have ht : t.memoriesWf := by
    unfold t
    split
    · split
      exacts [h.performReady.lsuSettle, h]
    · exact h
  clear_value t
  refine .next ?_
  split
  · split
    · refine .ite ht ?_
      dsimp only
      split
      · split
        exacts [ht.writeLanding.sampleDone.finish, ht.writeLanding.finish]
      · exact ht.writeLanding.finish
      · exact ht.writeLanding
    · exact ht
  · exact ht

theorem State.memoriesWf.execStorePerformAtHome {u n} (h : s.memoriesWf) : Answers (execStorePerformAtHome u n s) := by
  unfold Machine.execStorePerformAtHome
  dsimp only
  refine .next ?_
  split
  exacts [.ite h.performReady.lsuSettle.sampleDone h.performReady.lsuSettle, h.performReady.lsuSettle]

/-! ### Fills and locks of the instruction cache -/

theorem Core.Canonical.installLine {l} (h : x.Canonical) : (x.installLine l).Canonical := h.loseCapture.update

theorem State.memoriesWf.readLine {launch die pa first key} (h : s.memoriesWf) : (s.readLine launch die pa first key).2.2.memoriesWf := by
  unfold State.readLine
  dsimp only
  exact .foldl_snd_snd h fun _ _ h => h.touch.readPhys

theorem State.memoriesWf.fillLine {c launch asid va e} (h : s.memoriesWf) : (s.fillLine c launch asid va e).memoriesWf := by
  unfold State.fillLine
  dsimp only
  refine .onCore h.keyOf.readLine ?_
  exact .update (.installLine h.keyOf.readLine.core)

theorem State.memoriesWf.execIfetchFill {c k} (h : s.memoriesWf) : Answers (execIfetchFill c k s) := by
  unfold Machine.execIfetchFill
  dsimp only
  refine .next ?_
  split
  · exact h
  · split
    · split
      next e => exact h.access.of_snd e
      next e => exact (h.access.of_snd e).onCtx
      next e =>
        have ht := h.access.of_snd e
        exact .ite ht.fillLine.forget.onCtx ht.fillLine.forget.onCtx
    · exact h.onCtx

theorem State.memoriesWf.lockAt {c u asid va} (h : s.memoriesWf) : (s.lockAt c u asid va).memoriesWf := by
  unfold State.lockAt
  exact h.onCore h.core

theorem State.memoriesWf.lockLine {c u asid a acc} (h : s.memoriesWf) : (s.lockLine c u asid a acc).2.memoriesWf := by
  unfold State.lockLine
  dsimp only
  split
  · exact h
  · split
    · exact h
    · split
      · exact h
      · split
        next e =>
          have ht := h.xlate.of_snd e
          split
          exacts [ht, .lockAt (.ite ht ht.fillLine)]
        next e => exact h.xlate.of_snd e

theorem State.memoriesWf.execLsuAccessStart {u n} (h : s.memoriesWf) : Answers (execLsuAccessStart u n s) := by
  unfold Machine.execLsuAccessStart
  split
  · split
    exacts [.next (.ite h.lsuStart h), h]
  · exact h

/-! ### The operand queues -/

theorem State.memoriesWf.meshFrom {base src dst extra follows e} (h : s.memoriesWf) :
    (s.meshFrom base src dst extra follows e).memoriesWf :=
  h.draw.at_

theorem State.memoriesWf.mesh {src dst extra follows e} (h : s.memoriesWf) : (s.mesh src dst extra follows e).memoriesWf := h.meshFrom

theorem State.memoriesWf.reportHead {base u q} (h : s.memoriesWf) : (s.reportHead base u q).memoriesWf := by
  unfold State.reportHead
  dsimp only
  split
  · split
    exacts [.ite h h.onUnit.meshFrom, h]
  · exact h

theorem State.memoriesWf.reclaim {u q} (h : s.memoriesWf) : (s.reclaim u q).memoriesWf := by
  unfold State.reclaim
  dsimp only
  exact .ite h h.onBank.note

theorem State.memoriesWf.closeSlot {u q ctr tag} (h : s.memoriesWf) : (s.closeSlot u q ctr tag).memoriesWf := h.onBank.note.reclaim

theorem State.memoriesWf.holdSlot {u q ctr} (h : s.memoriesWf) : (s.holdSlot u q ctr).memoriesWf := h.onUnit

theorem State.memoriesWf.releaseSlot {u q ctr} (h : s.memoriesWf) : (s.releaseSlot u q ctr).memoriesWf := h.onUnit.reclaim

theorem State.memoriesWf.reserve {q} (h : s.memoriesWf) : (s.reserve q).2.memoriesWf := by
  unfold State.reserve
  dsimp only
  split
  exacts [h.onMe.mesh, h.onMe]

theorem State.memoriesWf.appendBytes {q slot off data close tag counted} (h : s.memoriesWf) :
    (s.appendBytes q slot off data close tag counted).memoriesWf := by
  unfold State.appendBytes
  dsimp only
  split
  exacts [.ite (h.onMyCore h.myCore.storeBytes).closeSlot (h.onMyCore h.myCore.storeBytes), .mesh (.ite h.onMyUnit h)]

theorem State.memoriesWf.engineFill {u c q segs tag} (h : s.memoriesWf) : (s.engineFill u c q segs tag).memoriesWf := by
  unfold State.engineFill
  split
  · exact .finish (.closeSlot (h.onCore (h.core.foldl fun _ _ hx => hx.putBytes)))
  · exact .foldl h.onCmd fun _ _ h => h.mesh

theorem State.memoriesWf.abandonSlot {u c q} (h : s.memoriesWf) : (s.abandonSlot u c q).memoriesWf := by
  unfold State.abandonSlot
  split
  exacts [h.closeSlot, h.mesh]

theorem State.memoriesWf.popQueue {q n} (h : s.memoriesWf) : (s.popQueue q n).memoriesWf := h.onMe.reclaim

theorem State.memoriesWf.execQwr {o} (h : s.memoriesWf) : Answers (execQwr o s) := by
  unfold Machine.execQwr
  dsimp only
  refine h.slotOp (.bind fun _ => .ite trivial (.bind fun _ => .ite trivial (.bind fun _ => .pure (.appendBytes (.onMe ?_)))))
  split
  exacts [h.reserve, h]

theorem State.memoriesWf.execQuns {q} (h : s.memoriesWf) : Answers (execQuns q s) := by
  unfold Machine.execQuns
  dsimp only
  refine h.slotOp (.ite trivial (.ok ?_))
  split
  exacts [h.onMe.onMyUnit, h.onMe]

theorem State.memoriesWf.queueReports {u x} (h : s.memoriesWf) : (s.queueReports u x).memoriesWf := by
  unfold State.queueReports
  dsimp only
  exact .ite (.foldl h fun _ _ h => h.reportHead) (.foldl (.onUnit (.foldl h fun _ _ h => h.reportHead)) fun _ _ h => h.mesh)

theorem State.memoriesWf.execQrest {o} (h : s.memoriesWf) : Answers (execQrest o s) := by
  unfold Machine.execQrest
  dsimp only
  refine h.slotOp (.bind fun _ => .bind fun _ => .ite trivial (.bind fun _ => ?_))
  split
  exacts [trivial, h.onMe]

theorem State.memoriesWf.pushBytes {q tag flush data n} (h : s.memoriesWf) : (s.pushBytes q tag flush data n).memoriesWf := by
  induction n generalizing s data with
  | zero => exact h
  | succ n ih =>
    unfold State.pushBytes
    dsimp only
    refine h.ite (ih (.appendBytes (.onMe ?_)))
    split
    exacts [h, h.reserve]

theorem State.memoriesWf.execSpliceRequestArrive {snd target slotsz} (h : s.memoriesWf) :
    Answers (execSpliceRequestArrive snd target slotsz s) := by
  unfold Machine.execSpliceRequestArrive
  dsimp only
  refine .next ?_
  split
  exacts [h.mesh, h.onBank.onUnit.mesh]

theorem State.memoriesWf.execSpliceAnswerArrive {snd tgt reason log2n tail free} (h : s.memoriesWf) :
    Answers (execSpliceAnswerArrive snd tgt reason log2n tail free s) := by
  unfold Machine.execSpliceAnswerArrive
  dsimp only
  refine .next (.note ?_)
  split
  exacts [h.onUnit.onUnit.onBank, h.onUnit.onBank]

theorem State.memoriesWf.execSpliceRowArrive {m} (h : s.memoriesWf) : Answers (execSpliceRowArrive m s) := by
  unfold Machine.execSpliceRowArrive
  dsimp only
  refine .next ?_
  split
  on_goal 1 => refine .ite (.finish ?_) ?_
  on_goal 3 => refine .ite ?_ (.meshFrom ?_)
  all_goals
    split
    exacts [.ite (h.onCore h.core.putBytes).closeSlot.reportHead (h.onCore h.core.putBytes), h]

theorem State.memoriesWf.execHeadReportArrive {snd free} (h : s.memoriesWf) : Answers (execHeadReportArrive snd free s) := h.onBank.note

theorem State.memoriesWf.execDeliveryAckArrive {u} (h : s.memoriesWf) : Answers (execDeliveryAckArrive u s) := h.onUnit

theorem State.memoriesWf.execSpliceEndMarkerArrive {tgt} (h : s.memoriesWf) : Answers (execSpliceEndMarkerArrive tgt s) := h.onBank.onUnit

theorem State.memoriesWf.execSpliceTargetEnd {snd tgt} (h : s.memoriesWf) : Answers (execSpliceTargetEnd snd tgt s) := by
  unfold Machine.execSpliceTargetEnd
  dsimp only
  exact .next (.ite h.onBank.onUnit h)

/-! ### The tag table, the copy engine and the row streams -/

theorem State.memoriesWf.execTins {a b} (h : s.memoriesWf) : Answers (execTins a b s) := by
  refine h.slotOp (.bind fun key => .bind fun i => ?_)
  split
  · trivial
  next hi => exact h.onMyCore (h.myCore.insertTag key (Nat.lt_of_not_le hi))

theorem State.memoriesWf.copyLoad {q op a b c} (h : s.memoriesWf) : (s.copyLoad q op a b c).memoriesWf := h.reserve.command

theorem State.memoriesWf.copyPages {u x c va n right} (h : s.memoriesWf) : (s.copyPages u x c va n right).2.memoriesWf := by
  unfold State.copyPages
  dsimp only
  split
  · exact h
  · split
    next e =>
      have ht := h.paged.of_snd e
      split <;> exact ht
    next e => exact h.paged.of_snd e
    next e => exact h.paged.of_snd e

theorem State.memoriesWf.eachWork {α β : Type} {f : State → α → Work β} {l} (h : s.memoriesWf)
    (hf : ∀ t a, t.memoriesWf → (f t a).2.memoriesWf) : (eachWork f l s).2.memoriesWf := by
  induction l generalizing s with
  | nil => exact h
  | cons a rest ih =>
    unfold Machine.eachWork
    split
    next e => exact (hf _ _ h).of_snd e
    next e =>
      have ht := ih ((hf _ _ h).of_snd e)
      split
      next e => exact ht.of_snd e
      next e => exact ht.of_snd e

theorem State.memoriesWf.copyRead {x l} (h : s.memoriesWf) : (s.copyRead x l).2.memoriesWf := by
  unfold State.copyRead
  dsimp only
  split <;> exact .readPieces (.foldl h fun _ _ h => h.touch)

theorem State.memoriesWf.copyWrite {x l b} (h : s.memoriesWf) : (s.copyWrite x l b).2.memoriesWf := by
  unfold State.copyWrite
  dsimp only
  split <;> exact .writePieces (.foldl h fun _ _ h => h.touch)

theorem State.memoriesWf.copyScales {u x c l} (h : s.memoriesWf) : (s.copyScales u x c l).2.memoriesWf := by
  unfold State.copyScales
  split
  all_goals next e =>
    refine .of_snd e (h.eachWork fun _ _ h => ?_)
    split
    next e => exact (h.copyPages.of_snd e).copyRead
    next e => exact h.copyPages.of_snd e

theorem State.memoriesWf.loadRows {u x c d addrs slotBytes} (h : s.memoriesWf) : (s.loadRows u x c d addrs slotBytes).2.memoriesWf := by
  unfold State.loadRows
  dsimp only
  split
  next e => exact (h.eachWork fun _ _ h => h.copyPages).of_snd e
  next e =>
    have ht := (h.eachWork fun _ _ h => h.copyPages).of_snd e
    split
    · exact ht
    split
    · exact ht
    split
    · exact ht
    split
    · exact ht
    split
    · exact ht.soff
    split
    next e => exact (ht.soff.eachWork fun _ _ h => h.copyRead).of_snd e
    next e =>
      have ht := (ht.soff.eachWork fun _ _ h => h.copyRead).of_snd e
      split
      next e => exact ht.copyScales.of_snd e
      next e => exact ht.copyScales.of_snd e

theorem State.memoriesWf.storeRow {u x c d tag a} (h : s.memoriesWf) : (s.storeRow u x c d tag a).2.memoriesWf := by
  unfold State.storeRow
  dsimp only
  split
  next e => exact h.copyPages.of_snd e
  next e =>
    have ht := h.copyPages.of_snd e
    split <;> exact ht

theorem State.memoriesWf.storeRows {u x c d y} (h : s.memoriesWf) : (s.storeRows u x c d y).2.memoriesWf := by
  unfold State.storeRows
  dsimp only
  split
  next e => exact (h.eachWork fun _ _ h => h.storeRow).of_snd e
  next e =>
    have ht := (h.eachWork fun _ _ h => h.storeRow).of_snd e
    split
    · exact ht.soff
    split
    · exact ht.soff
    split
    all_goals
      rename_i e
      replace ht := State.memoriesWf.of_snd e (ht.soff.eachWork fun _ _ h => by
        split
        · exact h
        · split
          next e => exact h.copyPages.of_snd e
          next e => exact h.copyPages.of_snd e)
    · exact ht
    split
    all_goals
      rename_i e
      replace ht := State.memoriesWf.of_snd e (ht.eachWork fun _ _ h => h.copyWrite)
    · exact ht
    split
    next e => exact (ht.eachWork fun _ _ h => h.copyWrite).of_snd e
    next e => exact (ht.eachWork fun _ _ h => h.copyWrite).of_snd e

theorem State.memoriesWf.memRead {u x c place va off n} (h : s.memoriesWf) : (s.memRead u x c place va off n).2.memoriesWf := by
  unfold State.memRead
  split
  · split <;> exact h
  · split
    next e => exact (h.copyPages.of_snd e).copyRead
    next e => exact h.copyPages.of_snd e

theorem State.memoriesWf.memWrite {u x c place va off b} (h : s.memoriesWf) : (s.memWrite u x c place va off b).2.memoriesWf := by
  unfold State.memWrite
  split
  · exact h.onCore h.core.putBytes
  · split
    next e => exact (h.copyPages.of_snd e).copyWrite
    next e => exact h.copyPages.of_snd e

theorem State.memoriesWf.copyChunks {u x c o} (h : s.memoriesWf) : (s.copyChunks u x c o).2.memoriesWf := by
  unfold State.copyChunks
  dsimp only
  split
  · split
    all_goals next e =>
      refine .of_snd e (h.eachWork fun _ _ h => ?_)
      split
      next e => exact h.memRead.of_snd e
      next e => exact (h.memRead.of_snd e).memWrite
  · exact h
  · exact h

theorem State.memoriesWf.runCopy {u x c} (h : s.memoriesWf) : (s.runCopy u x c).memoriesWf := by
  unfold State.runCopy
  extract_lets stop slot y
  have hstop {t e} (ht : t.memoriesWf) : (stop t e).memoriesWf := by
    cases e with
    | none => exact ht.onCmd
    | some e => exact ht.engineFault
  clear_value stop
  have hslot {q r} (hr : r.2.memoriesWf) : (slot q r).memoriesWf := by
    unfold slot
    split
    exacts [hr.engineFill, hstop hr]
  clear_value slot
  split
  · exact hslot h.loadRows
  · split
    exacts [hstop h, hslot h.loadRows]
  · split
    · exact hstop h
    · dsimp only
      split
      exacts [hstop h, h.engineFill]
  · split
    next e => exact hstop (h.storeRows.of_snd e)
    next e => exact (h.storeRows.of_snd e).releaseSlot.finish
  · split
    next e => exact hstop (h.copyChunks.of_snd e)
    next e => exact (h.copyChunks.of_snd e).finish
  · exact h

theorem State.memoriesWf.execCopyCommandStart {c} (h : s.memoriesWf) : Answers (execCopyCommandStart c s) := by
  unfold Machine.execCopyCommandStart
  dsimp only
  refine .next ?_
  split
  exacts [h.draw.takeCmd.onCore h.draw.takeCmd.core, h]

theorem State.memoriesWf.execCopyCommandDone {u n} (h : s.memoriesWf) : Answers (execCopyCommandDone u n s) := by
  unfold Machine.execCopyCommandDone
  split
  · split
    exacts [.next (.ite h.runCopy h), h]
  · exact h

theorem State.memoriesWf.execSdrv {w str b} (h : s.memoriesWf) : Answers (execSdrv w str b s) := by
  unfold Machine.execSdrv
  dsimp only
  refine h.slotOp (.bind fun _ => .ite trivial (.pure ?_))
  split
  exacts [h, h]

theorem State.memoriesWf.tap {w str} (h : s.memoriesWf) : (s.tap w str).2.memoriesWf := by
  unfold State.tap
  dsimp only
  split
  · exact h
  · dsimp only
    exact h.deviation

theorem State.memoriesWf.execRowStreamShift {die row} (h : s.memoriesWf) : Answers (execRowStreamShift die row s) := by
  unfold Machine.execRowStreamShift
  dsimp only
  exact .next (.foldl h fun _ _ h => .ite (.deviation h) h)

/-! ### The matrix engine -/

theorem State.memoriesWf.matCount (h : s.memoriesWf) : s.matCount.memoriesWf := by
  unfold State.matCount
  dsimp only
  exact h.onMyCore (.ite h.myCore (.ite h.myCore h.myCore))

theorem State.memoriesWf.matCommand {op f} (h : s.memoriesWf) : (s.matCommand op f).memoriesWf := h.command.matCount

theorem State.memoriesWf.bind_matSource {d f} (h : s.memoriesWf) (hf : ∀ a t, t.memoriesWf → Kept (f (a, t))) :
    Kept (s.matSource d >>= f) := by
  unfold State.matSource
  dsimp only
  split
  · exact hf _ _ h
  · split
    · trivial
    · split
      exacts [trivial, hf _ _ h.holdSlot]

theorem State.memoriesWf.matPops {l} (h : s.memoriesWf) : (s.matPops l).memoriesWf := by
  unfold State.matPops
  exact .foldl h fun _ _ h => .ite h.popQueue h

theorem State.memoriesWf.pairSend {src dst e} (h : s.memoriesWf) : (s.pairSend src dst e).memoriesWf := h.draw.after

theorem State.memoriesWf.dropTile {us idx} (h : s.memoriesWf) : (s.dropTile us idx).memoriesWf := by
  unfold State.dropTile
  exact .unschedule (.foldl h fun _ _ h => h.onUnit)

theorem State.memoriesWf.pairStop {u idx c} (h : s.memoriesWf) : (s.pairStop u idx c).memoriesWf := by
  unfold State.pairStop
  dsimp only
  split
  · exact h
  · split
    exacts [.ite h.dropTile.engineFault (.ite h.dropTile.onUnit h.dropTile), .ite h.dropTile.onUnit h.dropTile]

theorem State.memoriesWf.pairBoth {u idx c} (h : s.memoriesWf) : (s.pairBoth u idx c).memoriesWf := by
  unfold State.pairBoth
  dsimp only
  split
  exacts [h.pairStop.pairStop, h.pairStop]

theorem State.memoriesWf.matFault {u z c} (h : s.memoriesWf) : (s.matFault u z c).memoriesWf := by
  unfold State.matFault
  dsimp only
  refine .ite ?_ h.engineFault
  split
  exacts [h.engineFault.dropTile.pairSend, h.engineFault]

theorem State.memoriesWf.setAcc {core acc rows cols v} (h : s.memoriesWf) : (s.setAcc core acc rows cols v).memoriesWf :=
  h.onCore h.core.healAcc.update

theorem State.memoriesWf.matRelease {z} (h : s.memoriesWf) : (s.matRelease z).memoriesWf := by
  unfold State.matRelease
  dsimp only
  split
  · refine .releaseSlot ?_
    split
    exacts [h.releaseSlot, h]
  · split
    exacts [h.releaseSlot, h]

theorem State.memoriesWf.matEffect {u x z} (h : s.memoriesWf) : (s.matEffect u x z).memoriesWf := by
  unfold State.matEffect
  dsimp only
  split
  · exact (h.onCore h.core.healAcc.update).onCmd
  · exact (h.onCore h.core.healAcc.update).onCmd
  · split
    exacts [h.matFault, h.setAcc.onCmd.matRelease]
  · exact .engineFill (.onCmd (.ite h.setAcc h))
  · split
    exacts [h.onCmd.landReady, h.onCmd]
  · split
    exacts [h.setAcc.onCmd.matRelease, h.onCmd]
  · exact (h.onCore h.core.putBytes).onCmd
  · exact .onCmd (.ite (.onCore (.ite h.setAcc h) (State.memoriesWf.core (.ite h.setAcc h))) (.ite h.setAcc h))
  · exact h

theorem State.memoriesWf.matStart {u x z} (h : s.memoriesWf) : (s.matStart u x z).memoriesWf := by
  have hheld {t : State} {p : Prop} {_ : Decidable p} {v q n} (ht : t.memoriesWf) : (if p then t.holdSlot v q n else t).memoriesWf :=
    .ite ht.holdSlot ht
  unfold State.matStart
  dsimp only
  split
  · exact h.takeCmd.onUnit.engineFault
  · split
    · exact h.takeCmd
    · split
      · exact h.takeCmd.matFault
      · exact h.takeCmd.matFault
      · exact .ite (hheld (hheld h.takeCmd)).onCmd.at_ (hheld (hheld h.takeCmd)).onCmd

theorem State.memoriesWf.askSlice {core z n due} (h : s.memoriesWf) : (s.askSlice core z n due).memoriesWf := by
  unfold State.askSlice
  exact .foldl h fun _ _ h => h.onCore h.core

theorem State.memoriesWf.beginFetch {u x z busy} (h : s.memoriesWf) : (s.beginFetch u x z busy).memoriesWf := by
  unfold State.beginFetch
  dsimp only
  exact .onCmd (.ite h.askSlice (.foldl h fun _ _ h => h.askSlice))

theorem State.memoriesWf.beginSlice {u x z f} (h : s.memoriesWf) : (s.beginSlice u x z f).memoriesWf := by
  have hasked {p : Prop} {_ : Decidable p} {c i t} : (if p then s.askSlice c z i t else s).memoriesWf := .ite h.askSlice h
  exact .ite hasked.onCmd (.onCmd (hasked.onCmd.onCore (.update hasked.onCmd.core)))

theorem State.memoriesWf.matBegin {u x z} (h : s.memoriesWf) : (s.matBegin u x z).memoriesWf := by
  unfold State.matBegin
  dsimp only
  split
  exacts [h.matFault, .ite h.beginFetch (.onCmd (h.draw.onCore h.draw.core))]

theorem State.memoriesWf.execMatCommandStart {c st} (h : s.memoriesWf) : Answers (execMatCommandStart c st s) := by
  unfold Machine.execMatCommandStart
  refine .next ?_
  split
  · split
    exacts [h.matBegin, h]
  · split
    exacts [h.matStart, h]
  · split
    exacts [h.beginSlice, h]
  · exact h

theorem State.memoriesWf.serveSlice {r} (h : s.memoriesWf) : (s.serveSlice r).memoriesWf := by
  unfold State.serveSlice
  split
  · split
    exacts [h.onCmd, h.matFault, h]
  · exact h

theorem State.memoriesWf.execRemoteSliceServe {c} (h : s.memoriesWf) : Answers (execRemoteSliceServe c s) := by
  unfold Machine.execRemoteSliceServe
  dsimp only
  exact .next (.foldl (h.onCore h.core) fun _ _ h => h.serveSlice)

theorem State.memoriesWf.matCatchUp {x u z} (h : s.memoriesWf) : (s.matCatchUp x u z).memoriesWf := by
  unfold State.matCatchUp
  dsimp only
  refine .foldl h fun _ _ h => ?_
  split
  exacts [h.matEffect, h]

theorem State.memoriesWf.pairCommit {u idx} (h : s.memoriesWf) : (s.pairCommit u idx).memoriesWf := by
  unfold State.pairCommit
  dsimp only
  split
  · exact h
  · split
    · refine .ite ?_ h
      split
      · exact h.matCatchUp.matFault
      · refine .ite h.matCatchUp.pairBoth ?_
        split
        · exact h.matCatchUp.setAcc.onUnit.onCmd.matRelease.finish.pairSend
        · exact h.matCatchUp.setAcc.onUnit.onCmd.matRelease.finish
    · exact h

theorem State.memoriesWf.pairPartial {u x z} (h : s.memoriesWf) : (s.pairPartial u x z).memoriesWf := by
  unfold State.pairPartial
  dsimp only
  split
  · exact h.matFault
  · split
    exacts [h.onCmd.at_.pairSend, h.onCmd.at_]

theorem State.memoriesWf.execMatCommandDone {c id} (h : s.memoriesWf) : Answers (execMatCommandDone c id s) := by
  unfold Machine.execMatCommandDone
  dsimp only
  refine .next ?_
  split
  · split
    · refine .ite h (.ite h.finish (.ite (.ite h.pairCommit h.pairPartial) ?_))
      split
      exacts [.ite h.matCatchUp.matEffect.finish h.matCatchUp.matEffect, h.matCatchUp.matEffect]
    · exact h
  · exact h

theorem State.memoriesWf.execPairPartialArrive {u idx rows cols isInt tile} (h : s.memoriesWf) :
    Answers (execPairPartialArrive u idx rows cols isInt tile s) := by
  unfold Machine.execPairPartialArrive
  dsimp only
  exact .next (.ite h.onUnit.pairCommit h)

theorem State.memoriesWf.execPairCommitArrive {u idx} (h : s.memoriesWf) : Answers (execPairCommitArrive u idx s) := by
  unfold Machine.execPairCommitArrive
  refine .next ?_
  split
  exacts [h.matRelease.finish, h]

theorem State.memoriesWf.execPairTimeout {u idx} (h : s.memoriesWf) : Answers (execPairTimeout u idx s) := by
  unfold Machine.execPairTimeout
  dsimp only
  refine .next ?_
  split
  · split
    exacts [.ite h.pairBoth h, h]
  · exact h

theorem State.memoriesWf.execPairAbortArrive {u idx} (h : s.memoriesWf) : Answers (execPairAbortArrive u idx s) := h.pairStop

/-! ### The integrator array -/

theorem State.memoriesWf.completeSteps {core all} (h : s.memoriesWf) : (s.completeSteps core all).memoriesWf := by
  unfold State.completeSteps
  dsimp only
  exact .foldl h fun _ _ h => .ite h.finish h

theorem State.memoriesWf.putDda {core y} (h : s.memoriesWf) : (s.putDda core y).memoriesWf := by
  unfold State.putDda
  dsimp only
  split
  exacts [.ite (.storeImage (.onUnit (h.onCore h.core))) (h.onCore h.core), h.onCore h.core]

theorem State.memoriesWf.overrun {core u n pc w} (h : s.memoriesWf) : (s.overrun core u n pc w).memoriesWf :=
  h.putDda.asyncRaise.completeSteps

theorem State.memoriesWf.stepOverrun {c x o} (h : s.memoriesWf) : (s.stepOverrun c x o).memoriesWf := by
  unfold State.stepOverrun
  dsimp only
  split
  exacts [h.overrun, h.completeSteps]

theorem State.memoriesWf.execDdaDomainStep {c} (h : s.memoriesWf) : Answers (execDdaDomainStep c s) := by
  unfold Machine.execDdaDomainStep
  refine .ite h (.next (.ite h.putDda.completeSteps ?_))
  extract_lets inj s₂
  have h₂ : s₂.memoriesWf := by
    unfold s₂
    split
    exacts [.ite h.putDda.overrun h.putDda.stepOverrun, h.putDda.stepOverrun, h.putDda]
  clear_value s₂ inj
  split
  · exact .onCore h₂.finish (.update h₂.finish.core)
  · exact h₂

theorem State.memoriesWf.claim (h : s.memoriesWf) : Kept s.claim := by
  unfold State.claim
  dsimp only
  split
  exacts [h.onMyCore h.myCore, .ite h trivial]

theorem State.memoriesWf.ddaCommand {op f} (h : s.memoriesWf) : (s.ddaCommand op f).memoriesWf := h.command

theorem State.memoriesWf.ddaEffect {core u z} (h : s.memoriesWf) : (s.ddaEffect core u z).memoriesWf := by
  unfold State.ddaEffect
  dsimp only
  split
  · split
    · exact h.engineFault
    · split
      exacts [h.engineFault, h.putDda.finish]
  · exact h.putDda.finish
  · exact h.putDda.finish
  · split
    exacts [h.overrun.finish, h.putDda.finish]
  · exact .ite h.finish h.putDda.onCmd.completeSteps
  · exact .ite h.engineFault (h.onCore h.core.putBytes).finish
  · split
    exacts [h.closeSlot.finish, h]
  · exact .finish (.ite (h.onCore h.core.putBytes).putDda (h.onCore h.core.putBytes))
  · split
    exacts [.finish (h.putDda.onCore h.putDda.core), h.engineFault]
  · exact h

theorem State.memoriesWf.ddaBegin {core u z} (h : s.memoriesWf) : (s.ddaBegin core u z).memoriesWf := by
  have hcleared {p : Prop} {_ : Decidable p} {y} : (if p then s.putDda core y else s).memoriesWf := .ite h.putDda h
  unfold State.ddaBegin
  dsimp only
  split
  · refine .ite h.engineFault ?_
    split
    exacts [hcleared.onCore hcleared.core.putBytes, hcleared.engineFill]
  · exact .ite h.engineFault h.onCmd
  · split
    exacts [h.engineFault, h.onCmd]
  · exact h

theorem State.memoriesWf.freeArray {core} (h : s.memoriesWf) : (s.freeArray core).memoriesWf := by
  unfold State.freeArray
  dsimp only
  exact .ite (h.onCore h.core) h

theorem State.memoriesWf.ddaFinish {core} (h : s.memoriesWf) : (s.ddaFinish core).memoriesWf := by
  unfold State.ddaFinish
  split
  exacts [h.ddaEffect.freeArray, h]

theorem State.memoriesWf.execDdaCommandExecute {c} (h : s.memoriesWf) : Answers (execDdaCommandExecute c s) := by
  unfold Machine.execDdaCommandExecute
  dsimp only
  refine .next ?_
  split
  exacts [.ddaFinish (.ddaBegin (h.takeCmd.onCore h.takeCmd.core)), h.ddaFinish]

/-! ### Error events -/

theorem State.memoriesWf.clearReady {b} (h : s.memoriesWf) : (s.clearReady b).memoriesWf := by
  unfold State.clearReady
  dsimp only
  exact h

theorem State.memoriesWf.halFail {l c} (h : s.memoriesWf) : (s.halFail l c).memoriesWf := by
  unfold State.halFail
  dsimp only
  exact .foldl h fun _ _ h => h.engineFault

theorem State.memoriesWf.retire {r} (h : s.memoriesWf) : (s.retire r).memoriesWf := by
  unfold State.retire
  dsimp only
  split
  · exact .foldl (.onCore h (State.memoriesWf.core h)) fun _ _ h => h.endLaunch
  · exact .foldl h fun _ _ h => h.evict
  · exact .clearReady h
  · exact .halFail (.clearReady h)
  · exact h
  · exact h

theorem State.memoriesWf.countError {r pa} (h : s.memoriesWf) : (s.countError r pa).memoriesWf := by
  unfold State.countError
  dsimp only
  refine .ite h ?_
  split
  exacts [.report h, .report h, .retire (.report h)]

theorem State.memoriesWf.spoil {r pa} (h : s.memoriesWf) : (s.spoil r pa).memoriesWf := by
  unfold State.spoil
  split
  · refine .ite (h.onCore h.core) ?_
    split
    exacts [h.onCtx, h]
  · split
    exacts [h.setLine, h]
  · exact h
  · exact h.halFail
  · exact h
  · exact h

theorem State.memoriesWf.execErrorEvent {e} (h : s.memoriesWf) : Answers (execErrorEvent e s) := by
  unfold Machine.execErrorEvent
  exact .next (.ite h.countError h.spoil.countError)

theorem State.memoriesWf.execFaultWindowReset (h : s.memoriesWf) : Answers (execFaultWindowReset s) := by
  unfold Machine.execFaultWindowReset
  exact h

/-! ### Halyard -/

theorem State.memoriesWf.onGang {id f} (h : s.memoriesWf) : (s.onGang id f).memoriesWf := by
  unfold State.onGang
  exact h

theorem State.memoriesWf.crossWait {j rid} (h : s.memoriesWf) : (s.crossWait j rid).memoriesWf := by
  unfold State.crossWait
  split
  exacts [.ite h.onGang h, h]

theorem State.memoriesWf.onHal {rid f} (h : s.memoriesWf) : (s.onHal rid f).memoriesWf := by
  unfold State.onHal
  exact h

theorem State.memoriesWf.collFault {rid c} (h : s.memoriesWf) : (s.collFault rid c).memoriesWf := by
  unfold State.collFault
  split
  exacts [h.onHal.engineFault, h]

theorem State.memoriesWf.collReady {u n} (h : s.memoriesWf) : (s.collReady u n).memoriesWf := by
  unfold State.collReady
  split
  exacts [.ite h h.collFault, h]

theorem State.memoriesWf.collTake {u z} (h : s.memoriesWf) : (s.collTake u z).memoriesWf := by
  unfold State.collTake
  dsimp only
  split
  · exact h
  · split
    · exact .ite h.takeCmd.update.collReady h.takeCmd.update.collReady
    · exact (h.takeCmd.onCore h.takeCmd.core.putBytes).finish
    · exact h.takeCmd

theorem State.memoriesWf.collComplete {rid} (h : s.memoriesWf) : (s.collComplete rid).memoriesWf := by
  unfold State.collComplete
  dsimp only
  split
  · split
    exacts [.ite h.onHal.onCmd.finish h, h]
  · exact h

theorem State.memoriesWf.tell_ {z d who} (h : s.memoriesWf) : (s.tell_ z d who).memoriesWf := by
  unfold State.tell_
  dsimp only
  refine .foldl h fun _ _ h => .ite h.draw.after ?_
  split
  exacts [h, h.onHal]

theorem State.memoriesWf.sendDones {z d} (h : s.memoriesWf) : (s.sendDones z d).memoriesWf := by
  unfold State.sendDones
  exact .ite h h.onHal.tell_

theorem State.memoriesWf.tellMore {z} (h : s.memoriesWf) : (s.tellMore z).memoriesWf := by
  unfold State.tellMore
  dsimp only
  split
  exacts [.ite h h.onHal.tell_.collComplete, h]

theorem State.memoriesWf.halPages {z va n right} (h : s.memoriesWf) : (s.halPages z va n right).2.memoriesWf := by
  unfold State.halPages
  dsimp only
  split
  · exact h
  · split
    next e => exact h.paged.of_snd e
    next e => exact h.paged.of_snd e
    next e => exact h.paged.of_snd e

theorem State.memoriesWf.halTouch {z l} (h : s.memoriesWf) : (s.halTouch z l).memoriesWf := by
  unfold State.halTouch
  exact .foldl h fun _ _ h => h.touch

theorem State.memoriesWf.halRead {z va n} (h : s.memoriesWf) : (s.halRead z va n).2.memoriesWf := by
  unfold State.halRead
  dsimp only
  split
  next e => exact h.halPages.of_snd e
  next e =>
    have ht := h.halPages.of_snd e
    split <;> exact ht.halTouch.readPieces

theorem State.memoriesWf.halWrite {z va b} (h : s.memoriesWf) : (s.halWrite z va b).2.memoriesWf := by
  unfold State.halWrite
  dsimp only
  split
  next e => exact h.halPages.of_snd e
  next e =>
    have ht := h.halPages.of_snd e
    split <;> exact ht.halTouch.writePieces

theorem State.memoriesWf.writeOutput {r d o} (h : s.memoriesWf) : (s.writeOutput r d o).2.memoriesWf := by
  unfold State.writeOutput
  dsimp only
  split
  next e => exact h.halWrite.of_snd e
  next e =>
    have ht := h.halWrite.of_snd e
    split
    · exact ht
    · split
      all_goals next e =>
        refine .of_snd e (ht.eachWork fun _ _ h => ?_)
        split
        next e => exact h.halPages.of_snd e
        next e =>
          have ht := h.halPages.of_snd e
          split
          next e => exact ht.halRead.of_snd e
          next e => exact (ht.halRead.of_snd e).halWrite

theorem State.memoriesWf.collWrite {z} (h : s.memoriesWf) : (s.collWrite z).memoriesWf := by
  unfold State.collWrite
  dsimp only
  split
  · exact h
  · split
    next e => exact ((h.eachWork fun _ _ h => h.writeOutput).of_snd e).onCmd
    next e => exact ((h.eachWork fun _ _ h => h.writeOutput).of_snd e).collFault
    next e => exact ((h.eachWork fun _ _ h => h.writeOutput).of_snd e).onHal.sendDones.collComplete

theorem State.memoriesWf.settle {rid key b} (h : s.memoriesWf) : (s.settle rid key b).memoriesWf := h.onHal

theorem State.memoriesWf.collDrop {z} (h : s.memoriesWf) : (s.collDrop z).memoriesWf := h.onHal.finish

theorem State.memoriesWf.expire {z d} (h : s.memoriesWf) : (s.expire z d).memoriesWf := by
  unfold State.expire
  dsimp only
  split
  · exact .ite (.collWrite (.foldl h fun _ _ h => h.settle)) (.collComplete (.foldl h fun _ _ h => h.settle))
  · exact .foldl h fun _ _ h => h.settle

theorem State.memoriesWf.collPull {z d} (h : s.memoriesWf) : (s.collPull z d).memoriesWf := by
  unfold State.collPull
  dsimp only
  refine .foldl h fun _ _ h => .ite h.draw.after (.ite (.foldl h fun _ _ h => h.after) ?_)
  split
  exacts [h, .foldl h fun _ _ h => h.after]

theorem State.memoriesWf.endEarly {z d} (h : s.memoriesWf) : (s.endEarly z d).memoriesWf := by
  unfold State.endEarly
  exact .ite h.expire h.collDrop

theorem State.memoriesWf.collOpen {z d} (h : s.memoriesWf) : (s.collOpen z d).memoriesWf := by
  unfold State.collOpen
  refine .ite h.collFault ?_
  split
  · exact h.collFault
  · extract_lets held ranks kept s₁ s₂ s₃ s₄
    have h₃ : s₃.memoriesWf := .ite h.update.onHal h.update.onHal.at_
    have h₄ : s₄.memoriesWf := .ite h₃.crossWait h₃
    clear_value s₄
    refine .ite h₄.endEarly ?_
    split
    exacts [.ite h₄.collPull.collWrite h₄.collPull, h₄.collPull]

theorem State.memoriesWf.collBytes {z} (h : s.memoriesWf) : (s.collBytes z).2.memoriesWf := by
  unfold State.collBytes
  dsimp only
  split
  next e => exact h.halRead.of_snd e
  next e =>
    have ht := h.halRead.of_snd e
    split
    · exact ht
    · split
      next e => exact ht.halRead.of_snd e
      next e => exact ht.halRead.of_snd e

theorem State.memoriesWf.collRead {z} (h : s.memoriesWf) : (s.collRead z).memoriesWf := by
  unfold State.collRead
  dsimp only
  refine .ite h.collFault (.ite h.after ?_)
  split
  next e =>
    have ht := h.collBytes.of_snd e
    split
    exacts [ht.onCmd, ht.collFault]
  next e =>
    have ht := h.collBytes.of_snd e
    split
    · exact ht.collFault
    · split
      next e =>
        have ht := ht.halRead.of_snd e
        split
        exacts [ht.onCmd, ht.collFault]
      next e =>
        have ht := ht.halRead.of_snd e
        split
        exacts [ht.collFault, .ite ht.collOpen ht.collFault]

theorem State.memoriesWf.execCollRecordStart {die} (h : s.memoriesWf) : Answers (execCollRecordStart die s) := by
  unfold Machine.execCollRecordStart
  extract_lets s₁ s₂
  have h₂ : s₂.memoriesWf := .foldl (.foldl h fun _ _ h => h.collTake) fun _ _ h => by
    split
    exacts [.ite h.collWrite h.tellMore, h]
  clear_value s₂
  refine .next ?_
  split
  · dsimp only
    split
    exacts [h₂.onHal.collRead, h₂.onHal]
  · exact h₂

theorem State.memoriesWf.reply {r j f} (h : s.memoriesWf) : (s.reply r j f).memoriesWf := by
  unfold State.reply
  dsimp only
  refine .ite h.draw.after ?_
  split
  exacts [h, h]

theorem State.memoriesWf.serveBlock {z r l j} (h : s.memoriesWf) : (s.serveBlock z r l j).memoriesWf := by
  unfold State.serveBlock
  dsimp only
  split
  exacts [h.keyOf.touch.readPhys.reply, h.reply]

theorem State.memoriesWf.execCollRequestArrive {r} (h : s.memoriesWf) : Answers (execCollRequestArrive r s) := by
  unfold Machine.execCollRequestArrive
  dsimp only
  refine .next ?_
  split
  · refine .ite (.update h) (.ite (.foldl h fun _ _ h => h.reply) ?_)
    split
    next e =>
      have ht := State.memoriesWf.of_snd e (.paged h)
      exact ht
    next e =>
      have ht := State.memoriesWf.of_snd e (.paged h)
      exact .foldl ht fun _ _ h => h.reply
    next e =>
      have ht := State.memoriesWf.of_snd e (.paged h)
      exact .foldl ht fun _ _ h => h.serveBlock
  · exact .ite (.foldl h fun _ _ h => h.reply) (.update h)

theorem State.memoriesWf.execCollBlockArrive {b} (h : s.memoriesWf) : Answers (execCollBlockArrive b s) := by
  unfold Machine.execCollBlockArrive
  extract_lets t wait
  have ht : t.memoriesWf := by
    unfold t
    split
    exacts [h.countError, h]
  have hwait {r} (hr : r.memoriesWf) : (wait r).memoriesWf := by
    unfold wait
    split
    exacts [.ite hr.collWrite hr, hr]
  clear_value t wait
  split
  · exact ht
  · split
    · exact ht
    · refine .ite ht (.next ?_)
      split
      exacts [hwait ht.settle, .ite (hwait ht.settle) ht, .ite (hwait ht.settle) ht.collFault]

theorem State.memoriesWf.execCollDoneArrive {die key rank} (h : s.memoriesWf) : Answers (execCollDoneArrive die key rank s) := by
  unfold Machine.execCollDoneArrive
  refine .next ?_
  split
  exacts [h.onHal.collComplete, .ite h h]

theorem State.memoriesWf.execCollDeadline {rid} (h : s.memoriesWf) (die) : Answers (execCollDeadline die rid s) := by
  unfold Machine.execCollDeadline
  dsimp only
  split
  · exact h
  · refine .ite h ?_
    split
    exacts [h.collRead, .next (.ite (.ite h.expire h.collFault) (.ite h.collWrite h))]

theorem State.memoriesWf.collCancel {u} (h : s.memoriesWf) : (s.collCancel u).memoriesWf := by
  unfold State.collCancel
  dsimp only
  refine .foldl h fun _ _ h => ?_
  split
  exacts [h.onHal.endEarly, h.onHal.collDrop, h.onHal]

/-! ### The command processor and the loader -/

theorem State.memoriesWf.devPages {ev right die asid va n} (h : s.memoriesWf) : (s.devPages ev right die asid va n).2.memoriesWf := by
  unfold State.devPages
  dsimp only
  split
  · exact h
  · split
    next e => exact h.paged.of_snd e
    next e => exact h.paged.of_snd e
    next e => exact (h.paged.of_snd e).forget

theorem State.memoriesWf.devRead {ev die asid va n} (h : s.memoriesWf) : (s.devRead ev die asid va n).2.memoriesWf := by
  unfold State.devRead
  dsimp only
  split
  next e => exact h.devPages.of_snd e
  next e =>
    have ht := h.devPages.of_snd e
    split <;> exact ht.readPieces

theorem State.memoriesWf.devUpdate {ev die asid va n f} (h : s.memoriesWf) : (s.devUpdate ev die asid va n f).2.memoriesWf := by
  unfold State.devUpdate
  dsimp only
  split
  next e => exact h.devPages.of_snd e
  next e =>
    have ht := h.devPages.of_snd e
    split
    · exact ht.readPieces
    · split <;> exact ht.readPieces.writePieces

theorem State.memoriesWf.devWrite {ev die asid va b} (h : s.memoriesWf) : (s.devWrite ev die asid va b).2.memoriesWf := by
  unfold State.devWrite
  dsimp only
  split
  next e => exact h.devPages.of_snd e
  next e =>
    have ht := h.devPages.of_snd e
    split <;> exact ht.writePieces

theorem State.memoriesWf.objRead {ev die asid va off n} (h : s.memoriesWf) : (s.objRead ev die asid va off n).2.memoriesWf := by
  unfold State.objRead
  split
  next e => exact h.devRead.of_snd e
  next e => exact h.devRead.of_snd e
  next e => exact h.devRead.of_snd e

theorem State.memoriesWf.objSections {ev die asid va l} (h : s.memoriesWf) : (s.objSections ev die asid va l).2.memoriesWf := by
  induction l generalizing s with
  | nil => exact h
  | cons a rest ih =>
    unfold State.objSections
    split
    next e =>
      have ht := ih (h.objRead.of_snd e)
      split
      next e => exact ht.of_snd e
      next => exact ht
    next e => exact h.objRead.of_snd e

theorem State.memoriesWf.imagePages {ev die asid va b} (h : s.memoriesWf) : (s.imagePages ev die asid va b).2.memoriesWf := by
  unfold State.imagePages
  split
  exacts [h, h.devPages]

theorem State.memoriesWf.writeImage {ev die asid p} (h : s.memoriesWf) : (s.writeImage ev die asid p).2.memoriesWf := by
  unfold State.writeImage
  dsimp only
  split
  next e => exact h.imagePages.of_snd e
  next e => exact h.imagePages.of_snd e
  next e =>
    have ht := h.imagePages.of_snd e
    split
    next e => exact ht.imagePages.of_snd e
    next e => exact ht.imagePages.of_snd e
    next e =>
      have ht := ht.imagePages.of_snd e
      split
      exacts [ht, .update (.writePieces ht.writePieces)]

theorem State.memoriesWf.loadBody {ev die asid va bud z l} (h : s.memoriesWf) : (s.loadBody ev die asid va bud z l).2.memoriesWf := by
  unfold State.loadBody
  dsimp only
  split
  · split
    · exact h
    · split
      next e => exact h.objSections.of_snd e
      next e =>
        have ht := h.objSections.of_snd e
        split
        · exact ht
        · split
          · exact ht
          · split <;> exact ht
  · exact h

theorem State.memoriesWf.loadObject {ev die asid va bud} (h : s.memoriesWf) : (s.loadObject ev die asid va bud).2.memoriesWf := by
  unfold State.loadObject
  split
  next e => exact h.objRead.of_snd e
  next e =>
    have ht := h.objRead.of_snd e
    split
    · exact ht
    · split
      next e => exact ht.objRead.of_snd e
      next e =>
        have ht := ht.objRead.of_snd e
        split
        exacts [ht, ht.loadBody]

/-! ### The ends of launches, graphs and jobs -/

theorem State.memoriesWf.onJob {j f} (h : s.memoriesWf) : (s.onJob j f).memoriesWf := by
  unfold State.onJob
  exact h

theorem State.memoriesWf.counterBegin {ev die asid va} (h : s.memoriesWf) : (s.counterBegin ev die asid va).2.memoriesWf := by
  unfold State.counterBegin
  exact h.devWrite

theorem State.memoriesWf.counterDone {ev die asid va n} (h : s.memoriesWf) : (s.counterDone ev die asid va n).2.memoriesWf := by
  unfold State.counterDone
  exact h.devWrite

theorem State.memoriesWf.counterEnd {ev die asid va inc done e} (h : s.memoriesWf) :
    (s.counterEnd ev die asid va inc done e).2.memoriesWf :=
  h.devUpdate

theorem State.memoriesWf.noteEnded {asid l va} (h : s.memoriesWf) : (s.noteEnded asid l va).memoriesWf := by
  unfold State.noteEnded
  exact .ite h h

theorem State.memoriesWf.noteBegun {asid l va} (h : s.memoriesWf) : (s.noteBegun asid l va).memoriesWf := by
  unfold State.noteBegun
  exact h

theorem State.memoriesWf.cancelWork {j cause} (h : s.memoriesWf) : (s.cancelWork j cause).memoriesWf := by
  unfold State.cancelWork
  dsimp only
  split
  exacts [h, .onJob (.foldl h fun _ _ h => h.endLaunch)]

theorem State.memoriesWf.faultGraph {j e} (h : s.memoriesWf) : (s.faultGraph j e).memoriesWf := h.onJob.cancelWork

theorem State.memoriesWf.recordFailed {j} (h : s.memoriesWf) : (s.recordFailed j).memoriesWf := h.faultGraph

theorem State.memoriesWf.cancelGraph {j cause} (h : s.memoriesWf) : (s.cancelGraph j cause).memoriesWf := h.onJob.cancelWork

theorem State.memoriesWf.cancelPhase {j cause} (h : s.memoriesWf) : (s.cancelPhase j cause).memoriesWf := h.onJob.cancelWork

theorem State.memoriesWf.cancelJob {j cause} (h : s.memoriesWf) : (s.cancelJob j cause).memoriesWf := h.onJob.cancelWork

theorem State.memoriesWf.finishLaunch {l e} (h : s.memoriesWf) : (s.finishLaunch l e).memoriesWf := by
  unfold State.finishLaunch
  dsimp only
  split
  · exact h
  · split
    · refine .faultGraph (.noteEnded (.onLaunch (.reuseEnd ?_)))
      split
      exacts [h.endFreeze, h]
    · refine .noteEnded (.onLaunch (.reuseEnd ?_))
      split
      exacts [h.endFreeze, h]

theorem State.memoriesWf.returnWeight {ev die l w} (h : s.memoriesWf) : (s.returnWeight ev die l w).2.memoriesWf := by
  unfold State.returnWeight
  dsimp only
  split
  · exact h
  · split
    next e => exact h.devUpdate.of_snd e
    next e =>
      have ht := h.devUpdate.of_snd e
      split
      · exact .ite ht.forget.onLaunch.finishLaunch ht.forget.onLaunch
      · exact .recordFailed (.ite ht.forget.onLaunch.finishLaunch ht.forget.onLaunch)

/-! ### The arbiter, residency and saves -/

theorem State.memoriesWf.toTail {u rank} (h : s.memoriesWf) : (s.toTail u rank).memoriesWf := by
  unfold State.toTail
  exact .onUnit h

theorem State.memoriesWf.enterQueue {u rank} (h : s.memoriesWf) : (s.enterQueue u rank).memoriesWf := h.toTail.onUnit

theorem State.memoriesWf.age {l} (h : s.memoriesWf) : (s.age l).memoriesWf := by
  unfold State.age
  dsimp only
  refine .foldl h fun _ _ h => ?_
  split
  exacts [.ite h.onUnit.toTail h.onUnit, h.onUnit]

theorem State.memoriesWf.ageOthers {c pick} (h : s.memoriesWf) : (s.ageOthers c pick).memoriesWf := h.age

theorem State.memoriesWf.decide_ {c k cur n} (h : s.memoriesWf) : (s.decide_ c k cur n).memoriesWf := by
  unfold State.decide_
  dsimp only
  refine .ite ?_ ?_
  · refine .ageOthers ?_
    split
    exacts [h, h.onCtx]
  · refine .onCtx (.ageOthers ?_)
    split
    exacts [h, h.onCtx]

theorem State.memoriesWf.afterYield {c k} (h : s.memoriesWf) : (s.afterYield c k).memoriesWf := by
  unfold State.afterYield
  dsimp only
  split
  exacts [.ite h.onCtx h.onCtx.decide_, h]

theorem State.memoriesWf.pickHead {c k expiry} (h : s.memoriesWf) : (s.pickHead c k expiry).memoriesWf := by
  unfold State.pickHead
  split
  exacts [.ite h.ageOthers.onCtx (.ite h.onCtx h), .ite h.onCtx h]

theorem State.memoriesWf.execSliceExpiry {c k} (h : s.memoriesWf) : Answers (execSliceExpiry c k s) := by
  unfold Machine.execSliceExpiry
  exact .next (.ite h (.ite h.onCtx h.pickHead))

theorem State.memoriesWf.execYieldOverrun {c k} (h : s.memoriesWf) : Answers (execYieldOverrun c k s) := by
  unfold Machine.execYieldOverrun
  dsimp only
  exact .next (.ite h (.ite h.eventRecord.onCtx h.eventRecord.onCtx.pickHead))

theorem State.memoriesWf.makeResident {c k u} (h : s.memoriesWf) : (s.makeResident c k u).memoriesWf := by
  unfold State.makeResident
  dsimp only
  split
  · exact h
  · split
    exacts [(h.loadArea.onCore h.loadArea.core.setCtx.update).onUnit, h.setCtx.onUnit]

theorem State.memoriesWf.execRunQueueEntryTaken {c k} (h : s.memoriesWf) : Answers (execRunQueueEntryTaken c k s) := by
  unfold Machine.execRunQueueEntryTaken
  refine .next (.ite ?_ h)
  split
  exacts [h.makeResident, h]

theorem State.memoriesWf.save {c k forced} (h : s.memoriesWf) : (s.save c k forced).memoriesWf := by
  unfold State.save
  dsimp only
  split
  exacts [h, (h.eventRecord.onUnit.onCore h.eventRecord.onUnit.core.setCtx.update).storeImage]

theorem State.memoriesWf.execDrainSave {c k} (h : s.memoriesWf) : Answers (execDrainSave c k s) := by
  unfold Machine.execDrainSave
  exact .next (.ite h.save h)

theorem State.memoriesWf.execForcedSave {c k} (h : s.memoriesWf) : Answers (execForcedSave c k s) := by
  unfold Machine.execForcedSave
  exact .next (.ite h.save h)

theorem State.memoriesWf.recheckSwitch {c k} (h : s.memoriesWf) : (s.recheckSwitch c k).memoriesWf := by
  unfold State.recheckSwitch
  dsimp only
  split
  · refine .ite h ?_
    split <;> exact h.onCtx
  · exact h

theorem State.memoriesWf.execUnitRestore {c k} (h : s.memoriesWf) : Answers (execUnitRestore c k s) := by
  unfold Machine.execUnitRestore
  dsimp only
  refine .next (.ite h ?_)
  split
  · refine .enterQueue ?_
    split
    exacts [h.onCtx.makeResident, h.onCtx]
  · split
    exacts [h.onCtx.makeResident, h.onCtx]

theorem State.memoriesWf.grantLease {c} (h : s.memoriesWf) : (s.grantLease c).memoriesWf := by
  unfold State.grantLease
  refine .ite h ?_
  extract_lets s₁ s₂
  have h₁ : s₁.memoriesWf := h.onCore (.update h.core)
  have h₂ : s₂.memoriesWf := by
    unfold s₂
    split
    exacts [h₁.note, h₁]
  clear_value s₂
  split
  · split
    next v _ => exact .ite (.onUnit (.onCore (h₂.loadArea (v := v)) (h₂.loadArea (v := v)).core)) h₂
    next => exact h₂
  · exact h₂

theorem State.memoriesWf.execBankRetention {c k} (h : s.memoriesWf) : Answers (execBankRetention c k s) := by
  unfold Machine.execBankRetention
  exact .next (.ite h.onCtx h)

theorem State.memoriesWf.execBankRouseDone {c k} (h : s.memoriesWf) : Answers (execBankRouseDone c k s) := by
  unfold Machine.execBankRouseDone
  exact .next (.ite h.onCtx.eventRecord h)

theorem State.memoriesWf.execBankWake {c k} (h : s.memoriesWf) : Answers (execBankWake c k s) := by
  unfold Machine.execBankWake
  exact .next (.ite h.onCtx h)

/-! ### YIELD, SPAWN, EXIT, CANCEL and BAR, and retirement -/

theorem State.memoriesWf.execFixedLatencyLand {c k} (h : s.memoriesWf) : Answers (execFixedLatencyLand c k s) := h.onCtx

theorem State.memoriesWf.bodyBar {scope n a} (h : s.memoriesWf) : Kept (bodyBar scope n a s) := by
  unfold Machine.bodyBar
  dsimp only
  refine .bind fun _ => .ite trivial ?_
  split
  exacts [.ite trivial h.onLaunch.onMe, h.onLaunch.onMe]

theorem State.memoriesWf.releaseWaiter {b u} (h : s.memoriesWf) : (s.releaseWaiter b u).memoriesWf := by
  unfold State.releaseWaiter
  dsimp only
  exact .ite h.onUnit h.onBank.note

theorem State.memoriesWf.releaseBarriers (h : s.memoriesWf) : s.releaseBarriers.memoriesWf := by
  unfold State.releaseBarriers
  dsimp only
  refine .foldl h fun _ _ h => ?_
  split
  exacts [h, .onLaunch (.foldl h fun _ _ h => .foldl h fun _ _ h => h.releaseWaiter)]

theorem State.memoriesWf.bodyCancel {f a} (h : s.memoriesWf) (hf : ∀ t n, t.memoriesWf → (f t n).memoriesWf) : Kept (bodyCancel f a s) :=
  .bind fun _ => hf _ _ h

theorem State.memoriesWf.giveWeight {u f} (h : s.memoriesWf) : (s.giveWeight u f).memoriesWf := h.onBank

theorem State.memoriesWf.addUnit {x} (h : s.memoriesWf) : (s.addUnit x).2.memoriesWf := by
  unfold State.addUnit
  dsimp only
  exact .enterQueue h

theorem State.memoriesWf.spawnAnswer {u c v} (h : s.memoriesWf) : (s.spawnAnswer u c v).memoriesWf := by
  unfold State.spawnAnswer
  dsimp only
  split
  exacts [h.onCmd.landReady, h.onCmd.finish]

theorem State.memoriesWf.spawnChild {u x c b} (h : s.memoriesWf) : (s.spawnChild u x c b).memoriesWf := by
  unfold State.spawnChild
  dsimp only
  split
  · split
    · refine .ite ?_ h.giveWeight.engineFault
      split
      exacts [h.addUnit.onLaunch.spawnAnswer, h.giveWeight.spawnAnswer]
    · exact h.giveWeight.engineFault
  · exact h.giveWeight.engineFault

theorem State.memoriesWf.spawnStart {u c} (h : s.memoriesWf) : (s.spawnStart u c).memoriesWf := by
  unfold State.spawnStart
  dsimp only
  exact .ite h.draw.takeCmd (.ite h.draw.takeCmd.spawnAnswer h.draw.takeCmd.giveWeight)

theorem State.memoriesWf.spawnStop {u c e} (h : s.memoriesWf) : (s.spawnStop u c e).memoriesWf := h.giveWeight.engineFault

theorem State.memoriesWf.spawnTranslate {u x c} (h : s.memoriesWf) : (s.spawnTranslate u x c).memoriesWf := by
  unfold State.spawnTranslate
  dsimp only
  split
  next e => exact (h.paged.of_snd e).onCmd
  next e => exact (h.paged.of_snd e).spawnStop
  next e => exact (h.paged.of_snd e).keyOf.makeParts.forget.onCmd

theorem State.memoriesWf.spawnRead {u x c p} (h : s.memoriesWf) : (s.spawnRead u x c p).memoriesWf := by
  unfold State.spawnRead
  dsimp only
  exact .ite h.touch.readPhys.spawnStop h.touch.readPhys.spawnChild

theorem State.memoriesWf.execSpawnComplete {u n} (h : s.memoriesWf) : Answers (execSpawnComplete u n s) := by
  unfold Machine.execSpawnComplete
  refine .next ?_
  split
  · split
    · refine .ite (.ite h.spawnStart h) (.ite h.onCmd.spawnTranslate ?_)
      split
      exacts [h.spawnRead, h]
    · exact h
  · exact h

theorem State.memoriesWf.keepWeight {u c} (h : s.memoriesWf) : (s.keepWeight u c).memoriesWf := by
  unfold State.keepWeight
  split
  exacts [.ite h.giveWeight h, h]

theorem State.memoriesWf.closeHal {u c} (h : s.memoriesWf) : (s.closeHal u c).memoriesWf := by
  unfold State.closeHal
  dsimp only
  exact .ite h h

theorem State.memoriesWf.dropCmd {u c} (h : s.memoriesWf) : (s.dropCmd u c).memoriesWf := by
  unfold State.dropCmd
  extract_lets s₁ s₂ s₃ s₄
  have h₁ : s₁.memoriesWf := by
    unfold s₁
    split
    exacts [h.freeLanding, h]
  have h₂ : s₂.memoriesWf := by
    unfold s₂
    split
    exacts [h₁.releaseSlot, h₁.matRelease]
  have h₃ : s₃.memoriesWf := by
    unfold s₃
    split
    exacts [h₂.abandonSlot, h₂]
  exact .finish (.onCmd (.forget (.update h₃.keepWeight.closeHal)))

theorem State.memoriesWf.cancelReach {u x} (h : s.memoriesWf) : (s.cancelReach u x).memoriesWf := by
  have hhalted {p : Prop} {_ : Decidable p} {y} : (if p then (s.putDda x.core y).completeSteps x.core true else s).memoriesWf :=
    .ite h.putDda.completeSteps h
  exact .collCancel (.onUnit (.onLaunch (.ite (hhalted.onCore (.update hhalted.core.setCtx)) hhalted)))

theorem State.memoriesWf.dropAll {u} (h : s.memoriesWf) : (s.dropAll u).memoriesWf := by
  unfold State.dropAll
  split
  exacts [.freeArray (.foldl h fun _ _ h => h.dropCmd), h]

theorem State.memoriesWf.retireRecord {u x} (h : s.memoriesWf) : (s.retireRecord u x).2.memoriesWf := by
  unfold State.retireRecord
  dsimp only
  split
  · exact h
  · split
    · exact h
    · split
      next e => exact h.devUpdate.of_snd e
      next e => exact (h.devUpdate.of_snd e).forget.recordFailed
      next e => exact (h.devUpdate.of_snd e).forget

theorem State.memoriesWf.endSplices {u x} (h : s.memoriesWf) : (s.endSplices u x).memoriesWf := by
  unfold State.endSplices
  dsimp only
  exact .foldl (.foldl h fun _ _ h => h.mesh) fun _ _ h => h.mesh

theorem State.memoriesWf.retireRelease {u x weight} (h : s.memoriesWf) : (s.retireRelease u x weight).memoriesWf := by
  unfold State.retireRelease
  dsimp only
  exact .update (.forget (.onLaunch (.ite (.onCtx (h.eventRecord.endSplices.onCore h.eventRecord.endSplices.core))
    (h.eventRecord.endSplices.onCore h.eventRecord.endSplices.core))))

theorem State.memoriesWf.retireSteps {u} (h : s.memoriesWf) : (s.retireSteps u).memoriesWf := by
  unfold State.retireSteps
  extract_lets s₁ s₂ s₃
  have h₁ : s₁.memoriesWf := by
    unfold s₁
    split
    exacts [.ite h.cancelReach h, h]
  have h₂ : s₂.memoriesWf := by
    unfold s₂
    split
    exacts [.ite h₁.dropAll h₁, h₁]
  have h₃ : s₃.memoriesWf := by
    unfold s₃
    split
    · refine .ite ?_ h₂
      split
      next e => exact (h₂.retireRecord.of_snd e).onUnit
      next e => exact (h₂.retireRecord.of_snd e).onUnit
    · exact h₂
  split
  · refine .ite ?_ h₃
    dsimp only
    split
    next e => exact (h₃.returnWeight.of_snd e).retireRelease
    next e => exact (h₃.returnWeight.of_snd e).onUnit
  · exact h₃

theorem State.memoriesWf.execUnitRetire {u} (h : s.memoriesWf) : Answers (execUnitRetire u s) := h.onUnit.retireSteps

/-! ### Traps and TRET -/

theorem State.memoriesWf.releaseRecord {u r drop} (h : s.memoriesWf) : (s.releaseRecord u r drop).memoriesWf := by
  unfold State.releaseRecord
  split
  exacts [.ite h (.ite h.dropCmd h.onCmd), h]

theorem State.memoriesWf.execTret (h : s.memoriesWf) : Answers (execTret s) := by
  unfold Machine.execTret
  dsimp only
  refine h.slotOp (.ite trivial (.bind fun _ => .ite trivial (.pure (.update (.onMyUnit (.onMe ?_))))))
  split
  exacts [h.releaseRecord, h]

theorem State.memoriesWf.execAsyncTrap {c k} (h : s.memoriesWf) : Answers (execAsyncTrap c k s) := by
  unfold Machine.execAsyncTrap
  dsimp only
  refine .next (.ite h ?_)
  split
  exacts [h, h.onUnit.takeTrap.onCtx]

/-! ### Timing domains -/

theorem State.memoriesWf.execDomainFreeze {l} (h : s.memoriesWf) : Answers (execDomainFreeze l s) := by
  unfold Machine.execDomainFreeze
  refine .next ?_
  split
  · refine .ite ?_ h
    split
    exacts [h.endFreeze, h.onLaunch]
  · exact h

theorem State.memoriesWf.execDomainResume {l} (h : s.memoriesWf) : Answers (execDomainResume l s) := by
  unfold Machine.execDomainResume
  refine .next ?_
  split
  · split
    exacts [.ite h.endFreeze h, h]
  · exact h

/-! ### Launches and placement -/

theorem State.memoriesWf.openLaunch {j x n loaded record phase} (h : s.memoriesWf) :
    (s.openLaunch j x n loaded record phase).2.memoriesWf := by
  unfold State.openLaunch
  dsimp only
  exact .onJob h

theorem State.memoriesWf.readPlacement {ev die asid va} (h : s.memoriesWf) : (s.readPlacement ev die asid va).2.memoriesWf := by
  unfold State.readPlacement
  dsimp only
  split
  · exact h
  · split
    next e => exact h.devRead.of_snd e
    next e =>
      have ht := h.devRead.of_snd e
      split
      · exact ht
      · split
        next e => exact ht.devRead.of_snd e
        next e => exact ht.devRead.of_snd e

theorem State.memoriesWf.accept {ev x n} (h : s.memoriesWf) : (s.accept ev x n).2.memoriesWf := by
  unfold State.accept
  dsimp only
  split
  · exact h.asidEntry
  · split
    next e => exact h.asidEntry.loadObject.of_snd e
    next e => exact h.asidEntry.loadObject.of_snd e
    next e =>
      have ht := h.asidEntry.loadObject.of_snd e
      split
      next e => exact ht.readPlacement.of_snd e
      next e => exact ht.readPlacement.of_snd e
      next e => exact ht.readPlacement.of_snd e
      next e =>
        have ht := ht.readPlacement.of_snd e
        split
        · exact ht
        · split
          · exact ht
          · split
            next e => exact ht.writeImage.of_snd e
            next e => exact ht.writeImage.of_snd e
            next e => exact ht.writeImage.of_snd e

theorem State.memoriesWf.takeUp {l y} (h : s.memoriesWf) : (s.takeUp l y).2.memoriesWf := by
  unfold State.takeUp
  dsimp only
  exact .onJob h

theorem State.memoriesWf.execLaunch {j n} (h : s.memoriesWf) : Answers (execLaunch j n s) := by
  unfold Machine.execLaunch
  dsimp only
  refine .next ?_
  split
  · exact h
  · refine .ite h ?_
    split
    · exact h.takeUp.onJob
    · split
      next e => exact (h.accept.of_snd e).onJob
      next e => exact (h.accept.of_snd e).forget.openLaunch.onJob
      next e => exact (h.accept.of_snd e).forget.openLaunch.onJob

theorem State.memoriesWf.claimCore {asid ctxs c} (h : s.memoriesWf) : (s.claimCore asid ctxs c).memoriesWf := by
  unfold State.claimCore
  dsimp only
  split
  exacts [.ite (h.onCore h.core) (.after (h.onCore h.core)), h.onCore h.core]

theorem State.memoriesWf.claimAll {x} (h : s.memoriesWf) : (s.claimAll x).memoriesWf := by
  unfold State.claimAll
  split
  exacts [.foldl h fun _ _ h => h.claimCore, h]

theorem Core.Canonical.clear {held now} : (x.clear held now).Canonical := Core.canonical_cleared

theorem State.memoriesWf.execCoreClear {c} (h : s.memoriesWf) : Answers (execCoreClear c s) := by
  unfold Machine.execCoreClear
  refine .next ?_
  split
  exacts [.ite h (h.onCore Core.Canonical.clear), h]

theorem State.memoriesWf.placeUnits {l x o r args} (h : s.memoriesWf) : (s.placeUnits l x o r args).2.memoriesWf := by
  unfold State.placeUnits
  dsimp only
  exact .foldl_snd h fun _ _ h => h.addUnit

theorem State.memoriesWf.linkPartners {r keys} (h : s.memoriesWf) : (s.linkPartners r keys).memoriesWf := by
  unfold State.linkPartners
  refine .foldl h fun _ _ h => ?_
  split
  exacts [h.onUnit, h]

theorem State.memoriesWf.prepareCores {x o r} (h : s.memoriesWf) : (s.prepareCores x o r).memoriesWf := by
  unfold State.prepareCores
  dsimp only
  exact .foldl h fun _ _ h => h.onCore h.core.dropLines.update

theorem State.memoriesWf.placeLaunch {l x o r args} (h : s.memoriesWf) : (s.placeLaunch l x o r args).memoriesWf :=
  h.prepareCores.placeUnits.linkPartners.onLaunch.noteBegun

theorem State.memoriesWf.endUnplaced {l x e} (h : s.memoriesWf) : (s.endUnplaced l x e).memoriesWf := by
  unfold State.endUnplaced
  dsimp only
  split
  next e => exact (h.counterEnd.of_snd e).onLaunch
  next e => exact (h.counterEnd.of_snd e).forget.finishLaunch.recordFailed
  next e => exact (h.counterEnd.of_snd e).forget.finishLaunch

theorem State.memoriesWf.startLaunch {l x o r} (h : s.memoriesWf) : (s.startLaunch l x o r).memoriesWf := by
  unfold State.startLaunch
  dsimp only
  refine .ite h.onLaunch ?_
  split
  next e => exact (h.devRead.of_snd e).onLaunch
  next e => exact (h.devRead.of_snd e).forget.onLaunch
  next e =>
    have ht := h.devRead.of_snd e
    split
    next e => exact (ht.counterBegin.of_snd e).onLaunch
    next e => exact (ht.counterBegin.of_snd e).forget.endLaunch.recordFailed
    next e => exact (ht.counterBegin.of_snd e).forget.placeLaunch

theorem State.memoriesWf.advanceLaunch {l x} (h : s.memoriesWf) : (s.advanceLaunch l x).memoriesWf := by
  unfold State.advanceLaunch
  dsimp only
  split
  · exact h.endUnplaced
  · exact h
  · exact h
  · exact h.endUnplaced
  · exact .ite h.onLaunch (.ite h.claimAll.onLaunch h)
  · exact h
  · refine .ite h.onLaunch (.ite h.onLaunch ?_)
    split
    exacts [h.startLaunch, h]

theorem State.memoriesWf.execLaunchPlace {l} (h : s.memoriesWf) : Answers (execLaunchPlace l s) := by
  unfold Machine.execLaunchPlace
  refine .next ?_
  split
  exacts [h.onLaunch.advanceLaunch, h]

theorem State.memoriesWf.execPlaceTimeout {l} (h : s.memoriesWf) : Answers (execPlaceTimeout l s) := by
  unfold Machine.execPlaceTimeout
  refine .next ?_
  split
  exacts [.ite h.onLaunch h, h]

/-! ### Queues of the host ports and gangs -/

theorem State.memoriesWf.onPort {p f} (h : s.memoriesWf) : (s.onPort p f).memoriesWf := by
  unfold State.onPort
  exact h

theorem State.memoriesWf.writeCompletion {p tag status value} (h : s.memoriesWf) : (s.writeCompletion p tag status value).memoriesWf :=
  h.poke.onPort

theorem State.memoriesWf.flushPending {p l} (h : s.memoriesWf) : (s.flushPending p l).memoriesWf := by
  induction l generalizing s with
  | nil => exact h.onPort
  | cons c rest ih =>
    unfold State.flushPending
    split
    exacts [h.onPort.ite (ih h.writeCompletion), h.onPort]

theorem State.memoriesWf.flush {p} (h : s.memoriesWf) : (s.flush p).memoriesWf := h.flushPending

theorem State.memoriesWf.consume {p} (h : s.memoriesWf) : (s.consume p).memoriesWf := h.onPort

theorem State.memoriesWf.answer {p tag status value} (h : s.memoriesWf) : (s.answer p tag status value).memoriesWf :=
  h.consume.onPort.flush

theorem State.memoriesWf.defer {p tag key} (h : s.memoriesWf) : (s.defer p tag key).memoriesWf := h.consume.onPort

theorem State.memoriesWf.settleCommand {p key status value} (h : s.memoriesWf) : (s.settleCommand p key status value).memoriesWf :=
  h.onPort.flush

theorem State.memoriesWf.openStatus (h : s.memoriesWf) : s.openStatus.2.memoriesWf := h.draw

theorem State.memoriesWf.addJob {x} (h : s.memoriesWf) : (s.addJob x).2.memoriesWf := by
  unfold State.addJob
  exact h

theorem State.memoriesWf.explored {j ev more} (h : s.memoriesWf) : (s.explored j ev more).memoriesWf := h.forget.onJob

theorem State.memoriesWf.exploreRead {j x ev va n f} (h : s.memoriesWf) (hf : ∀ t b, t.memoriesWf → (f t b).memoriesWf) :
    (s.exploreRead j x ev va n f).memoriesWf := by
  unfold State.exploreRead
  split
  next e => exact (h.devRead.of_snd e).onJob
  next e => exact (h.devRead.of_snd e).explored
  next e => exact hf _ _ (h.devRead.of_snd e)

theorem State.memoriesWf.reserveLaunch {j n o r} (h : s.memoriesWf) : (s.reserveLaunch j n o r).memoriesWf := by
  unfold State.reserveLaunch
  dsimp only
  split
  exacts [h.openLaunch.onJob, h]

theorem State.memoriesWf.exploreNode {j x ev base i b} (h : s.memoriesWf) : (s.exploreNode j x ev base i b).memoriesWf := by
  unfold State.exploreNode
  dsimp only
  split
  · exact h.explored
  · split
    · split
      next e => exact (h.accept.of_snd e).onJob
      next e => exact (h.accept.of_snd e).explored.onJob
      next e => exact (h.accept.of_snd e).reserveLaunch.explored.onJob
    · exact h.explored.onJob

theorem State.memoriesWf.armFails {j x ev} (h : s.memoriesWf) : (s.armFails j x ev).memoriesWf := h.forget.openStatus.update.settleCommand

theorem State.memoriesWf.explore {j x ev} (h : s.memoriesWf) : (s.explore j x ev).memoriesWf := by
  unfold State.explore
  dsimp only
  split
  · exact h
  · split
    next e => exact (h.devRead.of_snd e).onJob
    next e => exact (h.devRead.of_snd e).armFails
    next e => exact (h.devRead.of_snd e).update.explored.onJob
  · refine h.exploreRead fun _ _ h => ?_
    split
    exacts [h.explored.onJob, h.explored]
  · refine h.exploreRead fun _ _ h => ?_
    split <;> exact h.explored
  · refine .ite h.explored (h.exploreRead fun _ _ h => ?_)
    split <;> exact h.explored
  · exact .ite h.explored (h.exploreRead fun _ _ h => h.exploreNode)

theorem State.memoriesWf.armOn {j x ev} (h : s.memoriesWf) : (s.armOn j x ev).memoriesWf := by
  unfold State.armOn
  refine .ite h.explore (.ite ?_ h)
  split
  exacts [h.onGang.settleCommand, h]

theorem State.memoriesWf.releaseReserved {j} (h : s.memoriesWf) : (s.releaseReserved j).memoriesWf := by
  unfold State.releaseReserved
  exact h

theorem State.memoriesWf.unanswered {j x} (h : s.memoriesWf) : (s.unanswered j x).memoriesWf := by
  unfold State.unanswered
  dsimp only
  exact .ite h.openStatus.settleCommand h

theorem State.memoriesWf.disarm {j cause} (h : s.memoriesWf) : (s.disarm j cause).memoriesWf := by
  unfold State.disarm
  dsimp only
  split
  exacts [h, h.unanswered.releaseReserved.onJob.update]

theorem State.memoriesWf.tellGang {j cause} (h : s.memoriesWf) : (s.tellGang j cause).memoriesWf := by
  unfold State.tellGang
  split
  exacts [h, h]

/-! ### The graph walker -/

theorem State.memoriesWf.goTo {j next} (h : s.memoriesWf) : (s.goTo j next).memoriesWf := by
  unfold State.goTo
  split
  exacts [h, .ite h.onJob (.ite (.ite h.recordFailed h.onJob) h.onJob)]

theorem State.memoriesWf.walkerWaits {j} (h : s.memoriesWf) : (s.walkerWaits j).memoriesWf := h.onJob

theorem State.memoriesWf.walkerDoes {α : Type} {r : Work α} {j ev f} (h : r.2.memoriesWf) (hf : ∀ t a, t.memoriesWf → (f t a).memoriesWf)
    :
    (State.walkerDoes j ev r f).memoriesWf := by
  unfold State.walkerDoes
  split
  exacts [h.walkerWaits, h.forget.recordFailed, hf _ _ h]

theorem State.memoriesWf.atNode {j f} (h : s.memoriesWf) (hf : ∀ x, (f x).memoriesWf) : (s.atNode j f).memoriesWf := by
  unfold State.atNode
  split
  exacts [.ite (hf _) h, h]

theorem State.memoriesWf.walkerWord {ev x va} (h : s.memoriesWf) : (s.walkerWord ev x va).2.memoriesWf := by
  unfold State.walkerWord
  split
  next e => exact h.devRead.of_snd e
  next e => exact h.devRead.of_snd e

theorem State.memoriesWf.refuseJob {j jcnt e} (h : s.memoriesWf) : (s.refuseJob j jcnt e).memoriesWf := h.onJob

theorem State.memoriesWf.openJob {j x ev} (h : s.memoriesWf) : (s.openJob j x ev).memoriesWf := by
  unfold State.openJob
  dsimp only
  split
  next e => exact (h.devRead.of_snd e).walkerWaits
  next e => exact (h.devRead.of_snd e).forget.onJob
  next e =>
    have ht := h.devRead.of_snd e
    split
    exacts [ht.forget.refuseJob, ht.counterBegin.walkerDoes fun _ _ h => h.forget.onJob.noteBegun]

theorem State.memoriesWf.openPhase {j x ev} (h : s.memoriesWf) : (s.openPhase j x ev).memoriesWf := by
  unfold State.openPhase
  refine h.devRead.walkerDoes fun _ _ h => ?_
  split
  exacts [h.forget.recordFailed, h.counterBegin.walkerDoes fun _ _ h => h.forget.onJob.noteBegun]

theorem State.memoriesWf.openGraph {j x ev} (h : s.memoriesWf) : (s.openGraph j x ev).memoriesWf := by
  unfold State.openGraph
  dsimp only
  exact h.devRead.walkerDoes fun _ _ h => .ite h.forget.recordFailed (h.counterBegin.walkerDoes fun _ _ h => .ite h.forget.onJob.noteBegun
    h.forget.onJob.noteBegun.recordFailed)

theorem State.memoriesWf.fetchNode {j x ev} (h : s.memoriesWf) : (s.fetchNode j x ev).memoriesWf := by
  unfold State.fetchNode
  dsimp only
  refine h.devRead.walkerDoes fun _ _ h => h.counterDone.walkerDoes fun _ _ h => ?_
  split
  exacts [h.forget.onJob.faultGraph, h.forget.onJob.draw.onJob.after]

theorem State.memoriesWf.execCondNode {j n} (h : s.memoriesWf) : Answers (execCondNode j n s) := by
  unfold Machine.execCondNode
  dsimp only
  exact h.atNode fun _ => h.walkerWord.walkerDoes fun _ _ h => h.forget.goTo

theorem State.memoriesWf.storeCount {j x ev n count f} (h : s.memoriesWf) (hf : ∀ t, t.memoriesWf → (f t).memoriesWf) :
    (s.storeCount j x ev n count f).memoriesWf := by
  unfold State.storeCount
  split
  · exact hf _ h
  · split
    next e => exact (h.devWrite.of_snd e).walkerWaits
    next e => exact (hf _ (h.devWrite.of_snd e).forget).recordFailed
    next e => exact hf _ (h.devWrite.of_snd e).forget

theorem State.memoriesWf.whileStep {j x ev n count frames w} (h : s.memoriesWf) : (s.whileStep j x ev n count frames w).memoriesWf := by
  unfold State.whileStep
  exact .ite (h.storeCount fun _ h => h.onJob.goTo) (.ite (h.storeCount fun _ h => h.faultGraph) h.forget.onJob)

theorem State.memoriesWf.execWhileNode {j n} (h : s.memoriesWf) : Answers (execWhileNode j n s) := by
  unfold Machine.execWhileNode
  dsimp only
  exact h.atNode fun _ => .ite h.recordFailed (h.walkerWord.walkerDoes fun _ _ h => h.whileStep)

theorem State.memoriesWf.execWhilePassEnd {j} (h : s.memoriesWf) : Answers (execWhilePassEnd j s) := by
  unfold Machine.execWhilePassEnd
  dsimp only
  refine .next ?_
  split
  · exact h.onJob
  · split
    · exact .ite (h.onJob.counterDone.walkerDoes fun _ _ h => h.walkerWord.walkerDoes fun _ _ h => .ite h.whileStep h.whileStep.onJob)
        h.onJob
    · exact h.onJob

theorem State.memoriesWf.execSignal {j n} (h : s.memoriesWf) : Answers (execSignal j n s) := by
  unfold Machine.execSignal
  dsimp only
  exact h.atNode fun _ => h.devUpdate.walkerDoes fun _ _ h => h.forget.goTo

theorem State.memoriesWf.readWatched {j x ev n} (h : s.memoriesWf) : (s.readWatched j x ev n).memoriesWf := by
  unfold State.readWatched
  dsimp only
  exact h.walkerWord.walkerDoes fun _ _ h => .ite h.forget.goTo h.forget.onJob.after

theorem State.memoriesWf.execWaitNode {j n} (h : s.memoriesWf) : Answers (execWaitNode j n s) := by
  unfold Machine.execWaitNode
  dsimp only
  exact h.atNode fun _ => .readWatched (.ite h.onJob.crossWait h.onJob)

theorem State.memoriesWf.execWaitTimeout {j} (h : s.memoriesWf) : Answers (execWaitTimeout j s) := by
  unfold Machine.execWaitTimeout
  refine .next ?_
  split
  · split
    exacts [.ite h (.ite (.faultGraph (.ite h.tellGang h)) h.faultGraph), h]
  · exact h

theorem State.memoriesWf.execHostirq {j z vec} (h : s.memoriesWf) : Answers (execHostirq j z vec s) := by
  unfold Machine.execHostirq
  exact h.atNode fun _ => .ite h.msix.goTo h.onJob

theorem State.memoriesWf.execPhaseend {j} (h : s.memoriesWf) (header) : Answers (execPhaseend j header s) := by
  unfold Machine.execPhaseend
  exact h.atNode fun _ => h.onJob

theorem State.memoriesWf.endCopy {j x id c whole} (h : s.memoriesWf) : (s.endCopy j x id c whole).memoriesWf := by
  unfold State.endCopy
  dsimp only
  split
  next e => exact h.onJob.counterEnd.of_snd e
  next e =>
    have ht := h.onJob.counterEnd.of_snd e
    refine .recordFailed ?_
    split
    exacts [ht.forget.noteEnded.onJob.faultGraph, ht.forget.noteEnded.onJob]
  next e =>
    have ht := h.onJob.counterEnd.of_snd e
    split
    exacts [ht.forget.noteEnded.onJob.faultGraph, ht.forget.noteEnded.onJob]

theorem State.memoriesWf.execCopyNode {j n} (h : s.memoriesWf) : Answers (execCopyNode j n s) := by
  unfold Machine.execCopyNode
  dsimp only
  exact h.atNode fun _ => h.counterBegin.walkerDoes fun _ _ h => .ite h.forget.noteBegun.draw.update.onJob.after.onJob
    h.forget.noteBegun.draw.update.onJob.after.goTo

theorem State.memoriesWf.execCopyNodeComplete {j id} (h : s.memoriesWf) : Answers (execCopyNodeComplete j id s) := by
  unfold Machine.execCopyNodeComplete
  dsimp only
  refine .next ?_
  split
  · exact h
  · split
    · exact h
    · refine .ite h (.ite h.endCopy (.ite (.endCopy h) (.ite h.endCopy ?_)))
      split
      next e => exact h.devRead.of_snd e
      next e => exact (h.devRead.of_snd e).forget.onJob.endCopy
      next e =>
        have ht := h.devRead.of_snd e
        split
        next e => exact ht.devWrite.of_snd e
        next e => exact (ht.devWrite.of_snd e).forget.onJob.endCopy
        next e => exact (ht.devWrite.of_snd e).forget.draw.onJob.after

theorem State.memoriesWf.execWaitPoll {j} (h : s.memoriesWf) : Answers (execWaitPoll j s) := by
  unfold Machine.execWaitPoll
  dsimp only
  refine .next ?_
  split
  · exact h.onJob
  · split
    · exact h.onJob.armOn
    · exact h.onJob.openJob
    · exact h.onJob.openPhase
    · exact h.onJob.openGraph
    · exact h.onJob
    · exact h.onJob.fetchNode
    · exact .ite h.onJob.goTo h.onJob
    · exact .ite h.onJob.goTo h.onJob
    · exact .ite h.onJob.msix.goTo h.onJob
    · exact .ite h.onJob h.onJob.readWatched
    · exact h.onJob

theorem State.memoriesWf.dropNodes {j} (h : s.memoriesWf) : (s.dropNodes j).memoriesWf := h.unschedule.update

theorem State.memoriesWf.closes {r : Work PUnit} {j ev f} (h : r.2.memoriesWf) (hf : ∀ t, t.memoriesWf → (f t).memoriesWf) :
    (State.closes j ev r f).memoriesWf := by
  unfold State.closes
  split
  exacts [h.walkerWaits, (hf _ h.forget).recordFailed, hf _ h.forget]

theorem State.memoriesWf.closeGraph {j x ev phaseEnd} (h : s.memoriesWf) : (s.closeGraph j x ev phaseEnd).memoriesWf := by
  unfold State.closeGraph
  dsimp only
  exact h.counterEnd.closes fun _ h => .onJob (.noteEnded (.foldl h.dropNodes fun _ _ h => h))

theorem State.memoriesWf.closePhase {j x ev} (h : s.memoriesWf) : (s.closePhase j x ev).memoriesWf := by
  unfold State.closePhase
  dsimp only
  exact h.counterEnd.closes fun _ h => h.releaseReserved.noteEnded.onJob

theorem State.memoriesWf.closeJob {j x ev} (h : s.memoriesWf) : (s.closeJob j x ev).memoriesWf := by
  unfold State.closeJob
  dsimp only
  refine .ite h.releaseReserved.update ?_
  split
  next e => exact (h.counterEnd.of_snd e).walkerWaits
  next e => exact (h.counterEnd.of_snd e).forget.noteEnded.releaseReserved.update

theorem State.memoriesWf.writeCount {j x ev va n} (h : s.memoriesWf) : (s.writeCount j x ev va n).memoriesWf := by
  unfold State.writeCount
  exact h.counterDone.closes fun _ h => h.onJob

theorem State.memoriesWf.execGraphEnd {j} (h : s.memoriesWf) : Answers (execGraphEnd j s) := by
  unfold Machine.execGraphEnd
  dsimp only
  refine .next ?_
  split
  · exact h.onJob
  · split
    · exact h.onJob.writeCount
    · split
      exacts [h.onJob.storeCount fun _ h => h.onJob, .ite h.onJob.onJob h.onJob]
    · exact .ite h.onJob.onJob h.onJob
    · exact h.onJob.closeGraph
    · exact h.onJob.closePhase
    · exact h.onJob.closeJob
    · exact h.onJob
    · exact h.onJob

/-! ### The host ports -/

theorem State.memoriesWf.execCqtail {port v} (h : s.memoriesWf) : Answers (execCqtail port v s) := h.onPort

theorem State.memoriesWf.execCplhead {port v} (h : s.memoriesWf) : Answers (execCplhead port v s) := h.onPort.flush

theorem State.memoriesWf.execMalformedCommand {port tag} (h : s.memoriesWf) : Answers (execMalformedCommand port tag s) := h.answer

theorem State.memoriesWf.execSubmit {port tag asid job die} (h : s.memoriesWf) : Answers (execSubmit port tag asid job die s) :=
  h.addJob.answer

theorem State.memoriesWf.cancelRunning {r reason} (h : s.memoriesWf) : (s.cancelRunning r reason).memoriesWf := by
  unfold State.cancelRunning
  split
  exacts [h.endLaunch, h.onJob, h.cancelGraph, h.cancelPhase, h.cancelJob]

theorem State.memoriesWf.execCancel {port tag asid level va reason} (h : s.memoriesWf) :
    Answers (execCancel port tag asid level va reason s) := by
  unfold Machine.execCancel
  refine .next ?_
  split
  exacts [h.cancelRunning.answer, h.answer]

theorem State.memoriesWf.answerInval {port tag l} (h : s.memoriesWf) : (s.answerInval port tag l).memoriesWf := by
  unfold State.answerInval
  dsimp only
  exact .ite h.answer h.defer.update

theorem State.memoriesWf.execAsidinv {port tag asid} (h : s.memoriesWf) : Answers (execAsidinv port tag asid s) :=
  h.dropTlb.dropLines.update.recall.answerInval

theorem State.memoriesWf.execTlbinv {port tag asid va bytes} (h : s.memoriesWf) : Answers (execTlbinv port tag asid va bytes s) :=
  h.invalidate.answerInval

theorem State.memoriesWf.execGangarm {port tag rec_ asid die} (h : s.memoriesWf) : Answers (execGangarm port tag rec_ asid die s) :=
  h.addJob.defer

theorem State.memoriesWf.execGanggo {port tag gang} (h : s.memoriesWf) : Answers (execGanggo port tag gang s) := by
  unfold Machine.execGanggo
  refine .next ?_
  split
  · split
    exacts [.ite h.onGang.onJob.answer h.answer, h.answer]
  · exact h.answer

theorem State.memoriesWf.abortMember {g cause} (h : s.memoriesWf) : (s.abortMember g cause).memoriesWf := by
  unfold State.abortMember
  split
  exacts [h.disarm, h]

theorem State.memoriesWf.execGangabort {port tag gang} (h : s.memoriesWf) : Answers (execGangabort port tag gang s) := by
  unfold Machine.execGangabort
  refine .next ?_
  split
  exacts [.ite h.answer h.abortMember.answer, h.answer]

theorem State.memoriesWf.evictKey {key} (h : s.memoriesWf) : (s.evictKey key).memoriesWf := by
  unfold State.evictKey
  exact .foldl h fun _ _ h => h.evict

theorem State.memoriesWf.setKey {key v} (h : s.memoriesWf) : (s.setKey key v).memoriesWf := by
  unfold State.setKey
  exact h

theorem State.memoriesWf.execKeyld {port tag key pa} (h : s.memoriesWf) : Answers (execKeyld port tag key pa s) := by
  unfold Machine.execKeyld
  dsimp only
  exact .ite h.answer h.evictKey.setKey.answer

theorem State.memoriesWf.execKeyclr {port tag key} (h : s.memoriesWf) : Answers (execKeyclr port tag key s) := by
  unfold Machine.execKeyclr
  exact .ite h.answer h.evictKey.setKey.answer

theorem State.memoriesWf.execGangArmTimeout {gang} (h : s.memoriesWf) : Answers (execGangArmTimeout gang s) := by
  unfold Machine.execGangArmTimeout
  refine .next ?_
  split
  exacts [.ite h.abortMember h, h]

theorem State.memoriesWf.gangFails {j} (h : s.memoriesWf) : (s.gangFails j).memoriesWf := by
  unfold State.gangFails
  split
  · split
    exacts [.ite h.faultGraph h.cancelJob, h.cancelJob]
  · exact h

theorem State.memoriesWf.execGangWaitTimeout {gang} (h : s.memoriesWf) : Answers (execGangWaitTimeout gang s) := by
  unfold Machine.execGangWaitTimeout
  refine .next ?_
  split
  · split
    exacts [.ite h.tellGang.gangFails.onGang h, h]
  · exact h

theorem State.memoriesWf.execGangCancelReceive {gang cause} (h : s.memoriesWf) : Answers (execGangCancelReceive gang cause s) := by
  unfold Machine.execGangCancelReceive
  refine .next ?_
  split
  · split
    exacts [.ite h.cancelJob h.abortMember, h]
  · exact h

theorem State.memoriesWf.setRegs {r} (h : s.memoriesWf) : (s.setRegs r).memoriesWf := by
  unfold State.setRegs
  exact h

theorem State.memoriesWf.execHbmwin {port v} (h : s.memoriesWf) : Answers (execHbmwin port v s) := by
  unfold Machine.execHbmwin
  dsimp only
  exact .next (.ite h.setRegs h)

theorem State.memoriesWf.execDdrwin {port v} (h : s.memoriesWf) : Answers (execDdrwin port v s) := by
  unfold Machine.execDdrwin
  dsimp only
  exact .next (.ite h.setRegs h)

theorem State.memoriesWf.commit {port dec base ok} (h : s.memoriesWf) : (s.commit port dec base ok).memoriesWf := h.onPort

theorem State.memoriesWf.execHdmCommit {port dec base} (h : s.memoriesWf) : Answers (execHdmCommit port dec base s) := by
  unfold Machine.execHdmCommit
  dsimp only
  exact .next (.ite h.commit (.ite h.setRegs.commit h.commit))

theorem State.memoriesWf.execHsemAcq {port} (h : s.memoriesWf) : Answers (execHsemAcq port s) := by
  unfold Machine.execHsemAcq
  dsimp only
  exact .next (.ite h.setRegs h)

theorem State.memoriesWf.releaseSem {port} (h : s.memoriesWf) : (s.releaseSem port).memoriesWf := by
  unfold State.releaseSem
  dsimp only
  exact .ite h.setRegs h

theorem State.memoriesWf.execHsemRel {port} (h : s.memoriesWf) : Answers (execHsemRel port s) := h.releaseSem

theorem State.memoriesWf.execPortReset {port} (h : s.memoriesWf) : Answers (execPortReset port s) := h.releaseSem

theorem State.memoriesWf.execRegisterWrite {port r v} (h : s.memoriesWf) : Answers (execRegisterWrite port r v s) := by
  unfold Machine.execRegisterWrite
  refine .next (.ite h ?_)
  split
  exacts [h.onPort, h.onPort.flush, h.onTell, h.onTell, h.onTell, h.setRegs]

theorem State.memoriesWf.execMaintModeChange {c} (h : s.memoriesWf) : Answers (execMaintModeChange c s) := by
  unfold Machine.execMaintModeChange
  exact .next (.ite (h.onCore h.core) h)

theorem State.memoriesWf.execErrlog {port} (h : s.memoriesWf) : Answers (execErrlog port s) := by
  unfold Machine.execErrlog
  dsimp only
  refine .next ?_
  split <;> exact h

theorem State.memoriesWf.halt (h : s.memoriesWf) : s.halt.memoriesWf := by
  unfold State.halt
  dsimp only
  exact .update (.foldl h fun _ _ h => .ite h.disarm h.cancelJob)

theorem State.memoriesWf.execPowerCheck (h : s.memoriesWf) : Answers (execPowerCheck s) := by
  unfold Machine.execPowerCheck
  dsimp only
  exact .next (.after (.ite h.draw.setRegs.halt h.draw.setRegs))

theorem State.memoriesWf.execFunctionReady {f} (h : s.memoriesWf) : Answers (execFunctionReady f s) := by
  unfold Machine.execFunctionReady
  dsimp only
  exact .next (.ite h h.setRegs)

theorem State.memoriesWf.execDeviceReset (h : s.memoriesWf) : Answers (execDeviceReset s) := ⟨h.1, by simp [State.reset]⟩

/-! ### The S slots -/

theorem State.memoriesWf.execNop {wt dp st} (h : s.memoriesWf) : Answers (execNop wt dp st s) := by
  unfold Machine.execNop
  dsimp only
  exact .next (.completeBundle h)

theorem State.memoriesWf.bodyLoop {n count disp} (h : s.memoriesWf) : Kept (bodyLoop n count disp s) := by
  unfold Machine.bodyLoop
  dsimp only
  exact .ite (.bind fun _ => h.putLoop.take) h.putLoop

/-! ### The V slots -/

theorem State.memoriesWf.bodyVB {f lat d nw a b sb pg ty} (h : s.memoriesWf) : Kept (bodyVB f lat d nw a b sb pg ty s) := by
  unfold Machine.bodyVB
  dsimp only
  exact .bind fun _ => .bind fun _ => h.writeVF

theorem State.memoriesWf.bodyVInt {f o} (h : s.memoriesWf) : Kept (bodyVInt f o s) := h.bodyVB

theorem State.memoriesWf.bodyVBin {f lat o} (h : s.memoriesWf) : Kept (bodyVBin f lat o s) := h.bodyVB

theorem State.memoriesWf.bodyVFlt {f o} (h : s.memoriesWf) : Kept (bodyVFlt f o s) := h.bodyVB

theorem State.memoriesWf.bodyVU {f lat d nw a pg ty} (h : s.memoriesWf) : Kept (bodyVU f lat d nw a pg ty s) := by
  unfold Machine.bodyVU
  dsimp only
  exact .bind fun _ => h.writeVF

theorem State.memoriesWf.writeSF {d nw lat r} (h : s.memoriesWf) : (s.writeSF d nw lat r).memoriesWf := by
  unfold State.writeSF
  exact h.keepSr.writeS

theorem State.memoriesWf.writePF {d nw lat r} (h : s.memoriesWf) : (s.writePF d nw lat r).memoriesWf := by
  unfold State.writePF
  exact h.keepSr.writeP

theorem State.memoriesWf.writeWhole {d nw en lat r} (h : s.memoriesWf) : (s.writeWhole d nw en lat r).memoriesWf := by
  unfold State.writeWhole
  exact h.writeVF

theorem State.memoriesWf.bodyP2 {f o} (h : s.memoriesWf) : Kept (bodyP2 f o s) := by
  unfold Machine.bodyP2
  exact .bind fun _ => .bind fun _ => h.writeP

theorem State.memoriesWf.bodyP1 {f o} (h : s.memoriesWf) : Kept (bodyP1 f o s) := by
  unfold Machine.bodyP1
  exact .bind fun _ => h.writeP

/-! ### The X slots -/

theorem State.memoriesWf.bodyX1 {f o} (h : s.memoriesWf) : Kept (bodyX1 f o s) := h.bodyVU

theorem State.memoriesWf.bodyIDiv {rem o} (h : s.memoriesWf) : Kept (bodyIDiv rem o s) := by
  unfold Machine.bodyIDiv
  dsimp only
  exact .bind fun _ => .bind fun _ => h.writeVF

theorem State.memoriesWf.execCvtq {o} (h : s.memoriesWf) : Answers (execCvtq o s) := by
  unfold Machine.execCvtq
  dsimp only
  refine h.slotOp (.bind fun _ => ?_)
  split
  exacts [trivial, .ite trivial h.writeVF]

theorem State.memoriesWf.bodyCvt {o} (h : s.memoriesWf) : Kept (bodyCvt o s) := by
  unfold Machine.bodyCvt
  dsimp only
  exact .bind fun _ => h.writeVF

/-! ### Events -/

theorem State.memoriesWf.execEvent {e} (h : s.memoriesWf) : Answers (execEvent e s) := by
  cases e
  case collDeadline die _ => exact h.execCollDeadline die
  case phaseend p => exact h.execPhaseend p
  exacts [h.execFixedLatencyLand, h.execSpawnComplete, h.execMatCommandStart, h.execMatCommandDone, h.execRemoteSliceServe,
    h.execPairPartialArrive, h.execPairCommitArrive, h.execPairTimeout, h.execSpliceRequestArrive, h.execSpliceAnswerArrive,
    h.onBank.note, h.execSpliceRowArrive, h.execHeadReportArrive, h.execDeliveryAckArrive, h.execSpliceEndMarkerArrive,
    h.execSpliceTargetEnd, h.execCopyCommandStart, h.execCopyCommandDone, h.execDdaCommandExecute, h.execDdaDomainStep,
    h.execCollRecordStart, h.execCollRequestArrive, h.execCollBlockArrive, h.execCollDoneArrive, h.execLandingBufferWrite,
    h.execStorePerformAtHome, h.execLsuAccessStart, h.execTlbWalkDone, h.execPageRequestResponse, h.execPageRequestTimeout,
    h.execAtsInvalidate, h.execIfetchFill, h.execAsyncTrap, h.execDomainFreeze, h.execDomainResume, h.execSliceExpiry,
    h.execYieldOverrun, h.execDrainSave, h.execForcedSave, h.execUnitRestore, h.execBankRetention, h.execBankRouseDone, h.execBankWake,
    h.execUnitRetire, h.execRunQueueEntryTaken, h.execCqtail, h.execCplhead, h.execMalformedCommand, h.execSubmit, h.execCancel,
    h.execAsidinv, h.execTlbinv, h.execGangarm, h.execGanggo, h.execGangabort, h.execKeyld, h.execKeyclr, h.execGangArmTimeout,
    h.execGangWaitTimeout, h.execGangCancelReceive, h.execLaunch, h.execLaunchPlace, h.execPlaceTimeout, h.execCoreClear, h.execCopyNode,
    h.execCondNode, h.execWhileNode, h.execWhilePassEnd, h.execSignal, h.execWaitNode, h.execWaitPoll, h.execWaitTimeout, h.execHostirq,
    h.execGraphEnd, h.execHbmwin, h.execDdrwin, h.execHsemAcq, h.execHsemRel, h.execRegisterWrite, h.execMaintModeChange, h.execTtctl,
    h.execTtbuf, h.execTtdump, h.execDumpRecord, h.execErrlog, h.execHdmCommit, h.execHostSnoop, h.execHostHdmRead, h.execL2LineRequest,
    h.execErrorEvent, h.execFaultWindowReset, h.execPowerCheck, h.execFunctionReady, h.execDeviceReset, h.execPortReset,
    h.execRowStreamShift, h.execPairAbortArrive, h.execCopyNodeComplete]

/-! ### Instructions -/

theorem State.memoriesWf.exec {i} (h : s.memoriesWf) : Answers (exec i s) := by
  cases i
  case nop => exact h.execNop
  case add | sub | and | or | xor | andn | shl | shr | sra | rol | min | max | minn | maxn | seq | sne | slt | sltn | sle | slen | bfx |
  bfxn | bfi | mul | mulh | mulhn => exact h.slotOp h.bodySR
  case clz | ctz | popc => exact h.slotOp h.bodySR1
  case fadd | fsub | fmul | fma => exact h.slotOp h.bodyF3
  case fmin | fmax | feq | flt | fle => exact h.slotOp h.bodyFN
  case fabs | fneg => exact h.slotOp h.bodyF1
  case fcvti | icvtf => exact h.slotOp (.bind fun _ => h.writeF32)
  case addi | andi | ori | xori | slti | sltni => exact h.slotOp h.bodySI
  case shli | shri | srai => exact h.slotOp h.bodySh
  case li | lim | lit => exact h.slotOp h.writeS
  case ldLI8 | ldLN8 | ldLI16 | ldLN16 | ldLI32 | ldLN32 | ldLD => exact h.slotOp h.bodyLoad
  case stLB | stLH | stLW | stLD => exact h.slotOp h.bodyStore
  case ldg => exact h.slotOp (.bind fun _ => .bind fun _ => h.tagLoad.landScalar.lsuCommand)
  case stg => exact h.slotOp (.bind fun _ => .bind fun _ => .pure (.ite h.lsuCommand h.lsuCommand.writeS))
  case amoAdd | amoAnd | amoOr | amoXor | amoMin | amoMax | amoMinn | amoMaxn | amoSwap | amoFadd | amocas => exact h.slotOp h.bodyAmo
  case fence | fenceRel => exact h.slotOp h.onMyUnit
  case waittl => exact h.slotOp (.bind fun _ => h)
  case bcz => exact h.slotOp (.bind fun _ => .pure (.ite h.take h))
  case bc => exact h.slotOp (.bind fun _ => .bind fun _ => .pure (.ite h.take h))
  case bp => exact h.slotOp (.pure (.ite h.take h))
  case jmp | brl => exact h.slotOp h.take
  case jr | jrl => exact h.slotOp (.bind fun _ => h.take)
  case loop => exact h.slotOp (.bind fun _ => h.bodyLoop)
  case loopi => exact h.slotOp h.bodyLoop
  case enter =>
    exact h.slotOp (.ite trivial (.bind fun _ => .pure (.writeNoLatch (h.onMyCore h.myCore.storeBytes.storeBytes).writeNoLatch)))
  case leave => exact h.slotOp (.bind fun _ => .bind fun _ => .bind fun _ => .pure (.writeNoLatch (.writeNoLatch h.writeNoLatch)))
  case csrr | pcnt => exact h.slotOp (.bind fun _ => h.writeS)
  case csrw | csrs | csrc => exact h.slotOp h.bodyCsr
  case trap | sysc => exact h.slotOp (.bind fun _ => trivial)
  case brk => exact h.slotOp trivial
  case tret => exact h.execTret
  case iclk =>
    exact h.slotOp (.bind fun _ => .bind fun _ => .ite trivial (.pure (.landReady (.takeLanding (.draw (.foldl_snd h fun _ _ h =>
      h.lockLine))))))
  case iunlk => exact h.slotOp (.bind fun _ => .bind fun _ => h.onMyCore h.myCore)
  case yield => exact h.slotOp (.ok (.ite h h.onMe))
  case spawn =>
    exact h.slotOp (.bind fun _ => .bind fun _ => .ite trivial (.ite trivial (.ite trivial h.takeLanding.lsuCommand.giveWeight)))
  case exit => exact h.slotOp (h.onMyUnit.onMyCore h.onMyUnit.myCore)
  case cancelLaunch => exact h.slotOp (h.bodyCancel fun _ _ h => h.endLaunch)
  case cancelGraph => exact h.slotOp (h.bodyCancel fun _ _ h => h.cancelGraph)
  case cancelPhase => exact h.slotOp (h.bodyCancel fun _ _ h => h.cancelPhase)
  case cancelJob => exact h.slotOp (h.bodyCancel fun _ _ h => h.cancelJob)
  case barClu | barDie | barDev => exact h.slotOp h.bodyBar
  case vadd | vsub | vmul => exact h.slotOp h.bodyVInt
  case vmad | vfma => exact h.slotOp (.bind fun _ => .bind fun _ => .bind fun _ => h.writeWhole)
  case vmulh | vmin | vmax | vand | vor | vxor | vshl | vshr | vsra | vfmin | vfmax => exact h.slotOp h.bodyVBin
  case vabs | vneg | vfabs | vfneg | vmov | sqrt => exact h.slotOp h.bodyVU
  case vfadd | vfsub | vfmul => exact h.slotOp h.bodyVFlt
  case vcmp | vfcmp => exact h.slotOp (.bind fun _ => .bind fun _ => h.writePF)
  case vsel | vld => exact h.slotOp (.bind fun _ => .bind fun _ => .bind fun _ => h.writeV)
  case vbcst => exact h.slotOp (.bind fun _ => h.writeV)
  case vins => exact h.slotOp (.bind fun _ => .bind fun _ => .ite h.writeV trivial)
  case vext => exact h.slotOp (.bind fun _ => .bind fun _ => .ite h.writeS trivial)
  case vst => exact h.slotOp (.bind fun _ => .bind fun _ => h.onMyCore h.myCore.storeMasked)
  case vlds | vgath => exact h.slotOp (.bind fun _ => .bind fun _ => .bind fun _ => .bind fun _ => h.writeV)
  case vscat => exact h.slotOp (.bind fun _ => .bind fun _ => .bind fun _ => .pure (.foldl h fun _ _ h => h.onMyCore h.myCore.storeBytes))
  case vldg => exact h.slotOp (.bind fun _ => h.tagLoad.stepSr.takeLanding.lsuCommand)
  case vstg => exact h.slotOp (.bind fun _ => h.stepSr.lsuCommand)
  case vrsum | vrmax | vrmin => exact h.slotOp (.bind fun _ => h.writeSF)
  case vrmrs => exact h.slotOp (.bind fun _ => .bind fun _ => .pure (.ite h.writeSF (.writeNoLatch h.writeSF)))
  case vcpush => exact h.slotOp (.bind fun _ => .ite trivial (.ite trivial (.ite trivial (.ite trivial h.pushBytes))))
  case vcpop =>
    exact h.slotOp (.bind fun _ => .ite trivial (.ite trivial (.ite trivial (.ite trivial (.bind fun _ => .pure (.ite (.popQueue h.writeV)
      h.writeV))))))
  case pand | por | pxor | pandn => exact h.slotOp h.bodyP2
  case pnot | pmov => exact h.slotOp h.bodyP1
  case pfirst | psetn => exact h.slotOp (.bind fun _ => h.writeP)
  case ppack => exact h.slotOp h.writeV
  case punpk => exact h.slotOp (.bind fun _ => .pure (.foldl h fun _ _ h => h.writeNoLatch))
  case exp2 | log2 | rcp | rsqrt | tanh | sigm => exact h.slotOp h.bodyX1
  case div => exact h.slotOp h.bodyVB
  case divs | rems | divn | remn => exact h.slotOp h.bodyIDiv
  case maxexp => exact h.slotOp (.bind fun _ => h.keepSr.fly)
  case cvtq => exact h.execCvtq
  case cvt | cvtw | cvtn => exact h.slotOp h.bodyCvt
  case cbld => exact h.slotOp (.bind fun _ => h.onMyCore h.myCore)
  case cbdec => exact h.slotOp (.bind fun _ => h.writeVF)
  case shuf | vidx => exact h.slotOp (.bind fun _ => .bind fun _ => h.writeV)
  case patld => exact h.slotOp (.bind fun _ => .bind fun _ => h.onMyCore h.myCore.setPattern)
  case patsw => exact h.slotOp (h.onMyCore h.myCore)
  case tcfg => exact h.slotOp (.ite trivial (.bind fun _ => h.matCommand))
  case mma => exact h.slotOp (.bind fun _ => h.bind_matSource fun _ _ h => h.bind_matSource fun _ _ h => h.matPops.matCommand)
  case pmma =>
    exact h.slotOp (.bind fun _ => .ite trivial (h.bind_matSource fun _ _ h => h.bind_matSource fun _ _ h =>
      h.onMyUnit.matPops.matCommand))
  case accz => exact h.slotOp (.bind fun _ => h.matCommand)
  case accrd => exact h.slotOp (.bind fun _ => .ite trivial (.pure (.matCommand (.reserve (.ite h.keepSr h)))))
  case accrv => exact h.slotOp (.bind fun _ => h.takeLanding.matCommand)
  case accwr => exact h.slotOp (.bind fun _ => h.bind_matSource fun _ _ h => h.matPops.matCommand)
  case accsave => exact h.slotOp (.bind fun _ => .bind fun _ => .bind fun _ => h.matCommand)
  case accrest => exact h.slotOp (.bind fun _ => .bind fun _ => .bind fun _ => .ite trivial h.matCommand)
  case lease => exact h.slotOp (.ite trivial (.ite h (h.onMyCore h.myCore)))
  case unlease => exact h.slotOp (.ite trivial (h.onMyCore h.myCore))
  case qcfg => exact h.slotOp (.ite trivial (.bind fun _ => .ite trivial h.onMe))
  case qpop => exact h.slotOp (.bind fun _ => h.popQueue)
  case qrd =>
    exact h.slotOp (.bind fun _ => .bind fun _ => .ite trivial (.bind fun _ => .pure (.ite (.popQueue h.writeNoLatch) h.writeNoLatch)))
  case qwr => exact h.execQwr
  case qspl => exact h.slotOp (.bind fun _ => .ite trivial (.ite trivial h.onMe.onMyUnit.mesh))
  case quns => exact h.execQuns
  case qsave => exact h.slotOp (.bind fun _ => .bind fun _ => .ite trivial (.ite trivial (h.onMyCore h.myCore.storeBytes)))
  case qrest => exact h.execQrest
  case qstat => exact h.slotOp (.bind fun _ => .bind fun _ => h.onMyCore h.myCore.storeBytes)
  case cpld => exact h.slotOp (.bind fun _ => .bind fun _ => .bind fun _ => .bind fun _ => .ite trivial h.copyLoad)
  case cpst =>
    exact h.slotOp (.bind fun _ => .bind fun _ => .bind fun _ => .bind fun _ => .ite trivial (.pure (.command (.ite h.holdSlot.popQueue
      h.holdSlot))))
  case cpll => exact h.slotOp (.bind fun _ => .bind fun _ => .bind fun _ => .bind fun _ => .bind fun _ => .ite trivial h.copyLoad)
  case cpga =>
    exact h.slotOp (.bind fun _ => .bind fun _ => .bind fun _ => .bind fun _ => .bind fun _ => .ite trivial (.ite trivial (.ite trivial
      h.copyLoad)))
  case cpmem =>
    exact h.slotOp (.bind fun _ => .bind fun _ => .bind fun _ => .ite trivial (.bind fun _ => .bind fun _ => .ite trivial h.command))
  case tlook => exact h.slotOp (.bind fun _ => h.writeNoLatch)
  case tins => exact h.execTins
  case tinv =>
    exact h.slotOp (.bind fun _ => .ite (h.onMyCore (h.myCore.keepTags List.filter_sublist)) (.ite trivial (h.onMyCore (h.myCore.keepTags
      (del_sublist _ _)))))
  case sdrv => exact h.execSdrv
  case stap => exact h.slotOp (.ite trivial h.tap.takeLanding.landReady)
  case stapq => exact h.slotOp (.ite trivial (.ite trivial (.ite trivial (.bind fun _ => h.tap.reserve.appendBytes))))
  case dpatch | dsave | dload => exact h.slotOp (.bind fun _ => .bind fun _ => h.claim.bindKept fun _ h => h.ddaCommand)
  case dclk | dstep => exact h.slotOp (.bind fun _ => h.claim.bindKept fun _ h => .ite trivial h.ddaCommand)
  case dset | dread => exact h.slotOp (.bind fun _ => .bind fun _ => h.claim.bindKept fun _ h => .ite trivial h.ddaCommand)
  case dinj => exact h.slotOp (.bind fun _ => h.claim.bindKept fun _ h => h.ddaCommand)
  case dcnt => exact h.slotOp (h.claim.bindKept fun _ h => .ite trivial (.ite trivial (.ite trivial h.reserve.ddaCommand)))
  case coll => exact h.slotOp (.bind fun _ => .bind fun _ => h.command)
  case cqry => exact h.slotOp (.bind fun _ => .bind fun _ => .ite trivial (.ite trivial h.command))
  case collDeadline die _ => exact h.execCollDeadline die
  case phaseend p => exact h.execPhaseend p
  exacts [h.execFixedLatencyLand, h.execSpawnComplete, h.execMatCommandStart, h.execMatCommandDone, h.execRemoteSliceServe,
    h.execPairPartialArrive, h.execPairCommitArrive, h.execPairTimeout, h.execSpliceRequestArrive, h.execSpliceAnswerArrive,
    h.onBank.note, h.execSpliceRowArrive, h.execHeadReportArrive, h.execDeliveryAckArrive, h.execSpliceEndMarkerArrive,
    h.execSpliceTargetEnd, h.execCopyCommandStart, h.execCopyCommandDone, h.execDdaCommandExecute, h.execDdaDomainStep,
    h.execCollRecordStart, h.execCollRequestArrive, h.execCollBlockArrive, h.execCollDoneArrive, h.execLandingBufferWrite,
    h.execStorePerformAtHome, h.execLsuAccessStart, h.execTlbWalkDone, h.execPageRequestResponse, h.execPageRequestTimeout,
    h.execAtsInvalidate, h.execIfetchFill, h.execAsyncTrap, h.execDomainFreeze, h.execDomainResume, h.execSliceExpiry,
    h.execYieldOverrun, h.execDrainSave, h.execForcedSave, h.execUnitRestore, h.execBankRetention, h.execBankRouseDone, h.execBankWake,
    h.execUnitRetire, h.execRunQueueEntryTaken, h.execCqtail, h.execCplhead, h.execMalformedCommand, h.execSubmit, h.execCancel,
    h.execAsidinv, h.execTlbinv, h.execGangarm, h.execGanggo, h.execGangabort, h.execKeyld, h.execKeyclr, h.execGangArmTimeout,
    h.execGangWaitTimeout, h.execGangCancelReceive, h.execLaunch, h.execLaunchPlace, h.execPlaceTimeout, h.execCoreClear, h.execCopyNode,
    h.execCondNode, h.execWhileNode, h.execWhilePassEnd, h.execSignal, h.execWaitNode, h.execWaitPoll, h.execWaitTimeout, h.execHostirq,
    h.execGraphEnd, h.execHbmwin, h.execDdrwin, h.execHsemAcq, h.execHsemRel, h.execRegisterWrite, h.execMaintModeChange, h.execTtctl,
    h.execTtbuf, h.execTtdump, h.execDumpRecord, h.execErrlog, h.execHdmCommit, h.execHostSnoop, h.execHostHdmRead, h.execL2LineRequest,
    h.execErrorEvent, h.execFaultWindowReset, h.execPowerCheck, h.execFunctionReady, h.execDeviceReset, h.execPortReset,
    h.execRowStreamShift, h.execPairAbortArrive, h.execCopyNodeComplete]

/-! ### The acts of a core cycle -/

theorem Core.Canonical.touchLines {asid va n now} (h : x.Canonical) : (x.touchLines asid va n now).Canonical := by
  unfold Core.touchLines
  exact h

theorem State.memoriesWf.prefetchLine {c launch asid va} (h : s.memoriesWf) : (s.prefetchLine c launch asid va).memoriesWf := by
  unfold State.prefetchLine
  refine .ite h ?_
  split
  exacts [.ite h h.fillLine, h]

theorem State.memoriesWf.prefetch {c k target} (h : s.memoriesWf) : (s.prefetch c k target).memoriesWf := by
  unfold State.prefetch
  dsimp only
  refine .ite h ?_
  split
  · exact h.prefetchLine.prefetchLine
  · exact .foldl (h.prefetchLine.prefetchLine.onCore h.prefetchLine.prefetchLine.core.touchLines) fun _ _ h => h.prefetchLine.prefetchLine

theorem State.memoriesWf.openIssue {c k b stopped} (h : s.memoriesWf) : (s.openIssue c k b stopped).memoriesWf := h.onCtx.update

theorem State.memoriesWf.slotPerforms {p last} (h : s.memoriesWf) : Answers (s.slotPerforms p last) := by
  unfold State.slotPerforms
  split
  · exact State.memoriesWf.exec h
  · exact .next (.complete (.raise h))

theorem State.memoriesWf.runSlots {l} (h : s.memoriesWf) : Answers (runSlots l s) := by
  induction l generalizing s with
  | nil => exact h.completeBundle
  | cons p rest ih =>
    cases rest with
    | nil => exact h.slotPerforms
    | cons q rest =>
      unfold Machine.runSlots
      split
      next e => exact ih (h.slotPerforms.of_next e)
      next => exact h.slotPerforms

theorem State.memoriesWf.perform {l} (h : s.memoriesWf) : Answers (s.perform l) := by
  unfold State.perform
  refine .ite (State.memoriesWf.runSlots h) ?_
  split
  next => exact State.memoriesWf.runSlots h
  next e => exact .of_no_next e

theorem State.memoriesWf.stopWhole {c k cond bad} (h : s.memoriesWf) : (s.stopWhole c k cond bad).memoriesWf := by
  unfold State.stopWhole
  dsimp only
  exact .takeTrap (.ite h h.onCtx)

theorem State.memoriesWf.issueBundle {c k b left} (h : s.memoriesWf) : Answers (s.issueBundle c k b left) := by
  have hs {p : Prop} {_ : Decidable p} : (if p then s.dumpContext c k else s).memoriesWf := .ite h.dumpContext h
  exact (hs.onCore hs.core.setCtx.touchLines).openIssue.perform

theorem State.memoriesWf.afterIssue (h : s.memoriesWf) : s.afterIssue.memoriesWf := by
  unfold State.afterIssue
  split
  exacts [h.prefetch, h]

theorem State.memoriesWf.issue {c k} (h : s.memoriesWf) : Answers (s.issue c k) := by
  unfold State.issue
  split
  · exact h
  · exact h.stopWhole
  · split
    · exact h.onCtx.stopWhole
    · split
      next e => exact (h.issueBundle.of_next e).afterIssue
      next => exact h.issueBundle

theorem Core.Canonical.endCycle (h : x.Canonical) : x.endCycle.Canonical := by
  unfold Core.endCycle
  exact h

theorem State.memoriesWf.holdSlices {c} (h : s.memoriesWf) : (s.holdSlices c).memoriesWf := by
  unfold State.holdSlices
  exact .ite h (h.onCore h.core)

theorem State.memoriesWf.countCycle {c k} (h : s.memoriesWf) : (s.countCycle c k).memoriesWf := by
  unfold State.countCycle
  dsimp only
  split
  exacts [.ite h.onUnit h.onUnit, h]

theorem State.memoriesWf.drainCheck {c k} (h : s.memoriesWf) : (s.drainCheck c k).memoriesWf := by
  unfold State.drainCheck
  dsimp only
  exact .ite h (.ite h.onCtx.deviation (.ite h.onCtx.onCtx h.onCtx))

theorem State.memoriesWf.askFetch {c k} (h : s.memoriesWf) : (s.askFetch c k).memoriesWf := by
  unfold State.askFetch
  dsimp only
  split
  · refine .ite h ?_
    split
    exacts [h.draw.onCtx.after, h]
  · exact h

theorem State.memoriesWf.endCtx {c k} (h : s.memoriesWf) : (s.endCtx c k).memoriesWf := by
  unfold State.endCtx
  dsimp only
  exact .ite (.ite h h.onCtx) h.countCycle.onCtx.afterYield.drainCheck.recheckSwitch.askFetch

theorem State.memoriesWf.endCore {c} (h : s.memoriesWf) : (s.endCore c).memoriesWf := by
  unfold State.endCore
  exact .grantLease (.foldl (h.onCore h.core.endCycle).holdSlices fun _ _ h => h.endCtx)

theorem State.memoriesWf.countQueued (h : s.memoriesWf) : s.countQueued.memoriesWf := by
  unfold State.countQueued
  dsimp only
  exact h

theorem State.memoriesWf.answerInvals (h : s.memoriesWf) : s.answerInvals.memoriesWf := by
  unfold State.answerInvals
  dsimp only
  refine .foldl h fun _ _ h => ?_
  split
  exacts [h, h.settleCommand, h]

theorem State.memoriesWf.sendReports (h : s.memoriesWf) : s.sendReports.memoriesWf := by
  unfold State.sendReports
  exact .foldl h fun _ _ h => .ite h h.queueReports

theorem State.memoriesWf.tick (h : s.memoriesWf) : s.tick.memoriesWf := by
  unfold State.tick
  extract_lets s₁ s₂ s₃
  have h₁ : s₁.memoriesWf := h.update
  have h₂ : s₂.memoriesWf := (h₁.foldl fun _ _ h => h.endCore).sendReports.releaseBarriers.countQueued.answerInvals.flushSamples
  have h₃ : s₃.memoriesWf := .ite h₂.at_ h₂
  exact h₃.update

/-! ### What happens next -/

theorem State.memoriesWf.act {a rest} (h : s.memoriesWf) : Answers (s.act a rest) := by
  unfold State.act
  dsimp only
  split
  exacts [State.memoriesWf.execEvent h, .next (.onCtx h), State.memoriesWf.issue h]

end

/-! ### The step of the machine -/

/-- An event that happens is taken from the inputs or the agenda, and no memory changes. -/
theorem State.memoriesWf.happening_event {s t : State} {e : Event} (h : s.memoriesWf) (he : s.happening = .event e t) : t.memoriesWf := by
  unfold State.happening at he
  split at he
  · split at he
    · cases he
      exact h
    · cases he
  · split at he
    · cases he
      exact h
    · split at he
      · cases he
        exact h
      · cases he

theorem State.memoriesWf.happening_stored {s t : State} (h : s.memoriesWf) (he : s.happening = .stored t) : t.memoriesWf := by
  unfold State.happening at he
  split at he
  · split at he
    · cases he
    · cases he
      exact State.memoriesWf.hostStore h
  · split at he
    · cases he
    · split at he <;> cases he

theorem State.memoriesWf.step {s : State} (h : s.memoriesWf) : Answers (step s) := by
  unfold Machine.step
  split
  · split
    next e => exact (h.happening_event e).execEvent
    next e => exact h.happening_stored e
    next => exact h
  · exact h.tick
  · exact h.act

/-- Settles O60: a step performs the event that happens, ends the core cycle, or performs the next act of its plan, and each of these keeps
the memories canonical. -/
theorem stepKeepsMemories : Obligations.StepKeepsMemories := by
  unfold Obligations.StepKeepsMemories
  exact fun s t h hstep => h.step.of_next hstep

end Sys2Proof.Machine
end

section
/-! SUPPORT. A local store (R143): what the scratchpad holds after it, and what the direct loads of the same core cycle still read. -/
namespace Sys2Proof.Machine

section
variable {x : Core} {a b : Nat} {l : List Byte}

/-- The bytes that a store replaces stay known until the cycle ends. -/
theorem Core.loadByte_storeByte (w : Byte) : (x.storeByte a w).loadByte b = x.loadByte b := by
  unfold Core.loadByte Core.storeByte
  dsimp only
  cases hu : find x.undo a with
  | some old =>
    by_cases hb : b = a
    · simp [hb, hu]
    · simp [Memory.read_write_other _ _ hb]
  | none =>
    by_cases hb : b = a
    · simp [hb, hu]
    · simp [find_put_other _ _ hb, Memory.read_write_other _ _ hb]

theorem Core.loadByte_storeBytes : (x.storeBytes a l).loadByte b = x.loadByte b := by
  induction l generalizing x a with
  | nil => rfl
  | cons w rest ih => exact ih.trans (Core.loadByte_storeByte w)

theorem Core.spm_storeBytes : (x.storeBytes a l).spm = x.spm.writeBytes a l := by
  induction l generalizing x a with
  | nil => rfl
  | cons w rest ih => exact ih

end

/-- Bytes read as they were stored. -/
theorem Memory.read_writeBytes_same {m : Memory} {a i : Nat} {l : List Byte} (h : m.wf = true) (hi : i < l.length) :
    (m.writeBytes a l).read (a + i) = l[i] := by
  induction l generalizing m a i with
  | nil => cases hi
  | cons b rest ih =>
    cases i with
    | zero =>
      calc ((m.write a b).writeBytes (a + 1) rest).read a
        _ = (m.write a b).read a := Memory.read_writeBytes_other _ _ _ (.inl (Nat.lt_succ_self a))
        _ = b := Memory.read_write_same a b h
    | succ i =>
      rw [← Nat.succ_add_eq_add_succ]
      exact ih (Memory.write_wf a b h) (Nat.lt_of_succ_lt_succ hi)

/-- Settles O6: a direct store writes its bytes to the scratchpad one after another, and a direct load reads what the first of them to
reach its byte put aside. -/
theorem scratchpadStores : Obligations.ScratchpadStores := by
  unfold Obligations.ScratchpadStores
  intro x a l h y
  have hspm : y.spm = x.spm.writeBytes a l := Core.spm_storeBytes
  rw [hspm]
  exact ⟨fun b hb => Memory.read_writeBytes_other _ a l hb, fun i hi => Memory.read_writeBytes_same h hi,
    fun b => Core.loadByte_storeBytes, Memory.writeBytes_wf a l h⟩

end Sys2Proof.Machine
end

section
/-! SUPPORT. Where a context goes on after a bundle in which no slot raises (R140, R151, R187, R193). -/
namespace Sys2Proof.Machine

/-- A level returns when its range ends at the bundle and it has passes left after this one. -/
theorem loopLevel_return (entry : Csrs) (ba : Word) (n : Nat) (c : Csrs) : (loopLevel entry ba n c).2 =
    if loopActive entry n && ba == loopEnd entry n && loopCount entry n - 1 != 0 then some (loopStart entry n) else none := by
  unfold loopLevel
  by_cases hactive : (loopActive entry n && ba == loopEnd entry n) = true
  · simp only [hactive, if_true, Bool.true_and, bne_iff_ne, ite_not]
    split <;> rfl
  · simp [hactive]

/-- The inner level, 1, is checked first. -/
theorem loopCheck_return (entry : Csrs) (ba : Word) (c : Csrs) : (loopCheck entry ba c).2 =
    if loopActive entry 1 && ba == loopEnd entry 1 && loopCount entry 1 - 1 != 0 then some (loopStart entry 1)
    else if loopActive entry 0 && ba == loopEnd entry 0 && loopCount entry 0 - 1 != 0 then some (loopStart entry 0) else none := by
  rw [← loopLevel_return entry ba 0 (loopLevel entry ba 1 c).1]
  have hinner := loopLevel_return entry ba 1 c
  unfold loopCheck
  split
  next heq =>
    rw [heq] at hinner ⊢
    split at hinner
    · simp_all
    · cases hinner
  next heq =>
    rw [heq] at hinner ⊢
    split at hinner
    · cases hinner
    · simp_all

theorem Ctx.afterBundle_pc (x : Ctx) (i : Issue) (now : Nat) (served : Word → Bool) :
    (x.afterBundle i now served).pc = (i.takenTarget x).getD (seqPc i.pc i.len) := by
  unfold Ctx.afterBundle Issue.takenTarget
  cases i.branch <;> rfl

theorem Issue.takenTarget_of_branch0 {i : Issue} {b : Taken} (x : Ctx) (h : i.branch0 = some b) : i.takenTarget x = some b.target := by
  simp [Issue.takenTarget, Issue.branch, h]

theorem Issue.takenTarget_of_branch1 {i : Issue} {b : Taken} (x : Ctx) (h₀ : i.branch0 = none) (h₁ : i.branch1 = some b) :
    i.takenTarget x = some b.target := by
  simp [Issue.takenTarget, Issue.branch, h₀, h₁]

theorem Issue.takenTarget_of_no_branch {i : Issue} (x : Ctx) (h₀ : i.branch0 = none) (h₁ : i.branch1 = none) :
    i.takenTarget x = (loopCheck i.entry.csr i.pc x.csr).2 := by
  simp [Issue.takenTarget, Issue.branch, h₀, h₁]

/-- Settles O10: the context after the bundle is `Ctx.afterBundle`, which goes on at the target taken; with no branch that is the
return of the loop check. -/
theorem bundleCompletes : Obligations.BundleCompletes := by
  unfold Obligations.BundleCompletes
  intro s hk hlive i t seq again left
  obtain ⟨hme, hmem, -⟩ := s.finishBundle_spec hk hlive
  have hpc : t.me.pc = (i.takenTarget s.me).getD seq :=
    (congrArg Ctx.pc hme).trans (s.me.afterBundle_pc i s.now (LoopBuf.serves s.myCore.loopBuf i.ctx i.pc))
  refine ⟨congrArg Ctx.cc hme, congrArg Ctx.waits hme, (congrArg Ctx.s hme :), (congrArg Ctx.v hme :), (congrArg Ctx.p hme :), hmem,
    fun b h₀ => ?_, fun b h₀ h₁ => ?_, fun h₀ h₁ => ?_⟩
  · rw [hpc, Issue.takenTarget_of_branch0 _ h₀, Option.getD_some]
  · rw [hpc, Issue.takenTarget_of_branch1 _ h₀ h₁, Option.getD_some]
  · rw [hpc, Issue.takenTarget_of_no_branch _ h₀ h₁, loopCheck_return]
    change Option.getD (if again 1 && left 1 != 0 then some i.entry.csr.ls1
      else if again 0 && left 0 != 0 then some i.entry.csr.ls0 else none) seq = _
    rw [apply_ite (Option.getD · seq), apply_ite (Option.getD · seq)]
    rfl

end Sys2Proof.Machine
end

section
/-! SUPPORT. The events of the landing buffers and of the load-store unit (R145, R315, R316, R338), and the completion of a numbered
operation (R91). -/
namespace Sys2Proof.Machine

section
variable {s : State} {u n : Nat} {x : Unit} {c : Cmd}

/-! ### Landing buffers -/

/-- A ready landing that nothing holds back writes its register, and the operation of another engine behind it completes. -/
theorem execLandingBufferWrite_ready {id : Nat} {l : Landing} {v : VWord} {en : PWord} {fl : Flags} (hl : s.landing u id = some l)
    (hready : l.ready = some (v, en, fl)) (hfree : s.landBlocked u l = false) (hdue : l.due ≤ s.now)
    (heng : ∀ n, l.eng ≠ some (.lsu, n)) : execLandingBufferWrite u id s = .next (match l.eng with
      | some (e, n) => (s.writeLanding u l v en fl).finish u e n
      | none => s.writeLanding u l v en fl) := by
  unfold execLandingBufferWrite
  simp only [hl, hready, hfree, Nat.not_lt.2 hdue, decide_false, Bool.or_self, Bool.false_eq_true, if_false]
  split
  next n h => exact absurd h (heng n)
  all_goals simp [*]

/-! ### Performing -/

theorem State.cmd_of_unit (hx : s.unit u = some x) (e : Engine) : s.cmd u e n = x.cmd e n := by
  simp [State.cmd, hx]

/-- The event of an operation that reads nothing performs what may perform. -/
theorem execStorePerformAtHome_store (hx : s.unit u = some x) (hc : x.cmd .lsu n = some c) (hstore : lsuReads c.op = false) :
    execStorePerformAtHome u n s = .next ((s.performReady u n).lsuSettle u n) := by
  simp [execStorePerformAtHome, State.cmd_of_unit hx, hc, hstore]

theorem State.readyParts_none (s : State) (x : Unit) (hparts : c.parts = []) : s.readyParts x c = [] := by
  simp [State.readyParts, hparts]

theorem State.performReady_none (hx : s.unit u = some x) (hc : x.cmd .lsu n = some c) (hparts : c.parts = []) : s.performReady u n = s := by
  simp [State.performReady, hx, hc, State.readyParts_none s x hparts]

/-- A store of which nothing is left to perform completes. -/
theorem State.lsuSettle_store (hx : s.unit u = some x) (hc : x.cmd .lsu n = some c) (hstore : lsuReads c.op = false)
    (htaken : c.stage = .taken) (hparts : c.parts = []) : s.lsuSettle u n = s.finish u .lsu n := by
  simp [State.lsuSettle, hx, hc, hstore, htaken, hparts]

theorem execLsuAccessStart_waiting (hx : s.unit u = some x) (hc : x.cmd .lsu n = some c)
    (hstage : c.stage = .queued ∨ c.stage = .replay ∨ c.stage = .paged) : execLsuAccessStart u n s = .next (s.lsuStart u n x c) := by
  have hwaits : (c.waiting || decide (c.stage = .paged)) = true := by simpa [Cmd.waiting, or_assoc] using hstage
  simp only [execLsuAccessStart, hx, hc]
  simp [hwaits]

theorem execSpawnComplete_waiting (hx : s.unit u = some x) (hc : x.cmd .lsu n = some c) (hstage : c.stage = .queued ∨ c.stage = .replay)
    (hdue : c.due ≤ s.now) : execSpawnComplete u n s = .next (s.spawnStart u c) := by
  have hwaits : c.waiting = true := by simpa [Cmd.waiting] using hstage
  simp [execSpawnComplete, hx, hc, hwaits, hdue]

/-! ### Completion -/

/-- A unit when a numbered operation of it has completed. -/
def Unit.completed (x : Unit) (e : Engine) (n : Nat) : Unit :=
  { x with
    cmds := x.cmds.filter fun c => !(decide (c.eng = e) && decide (c.n = n))
    open_ := x.open_.filter fun o => !(decide (o = (e, n))) }

theorem Unit.mem_cmds_completed (x : Unit) (e : Engine) (n : Nat) (c : Cmd) :
    c ∈ (x.completed e n).cmds ↔ c ∈ x.cmds ∧ ¬(c.eng = e ∧ c.n = n) := by
  simp [Unit.completed, imp_iff_not_or]

theorem Unit.mem_open_completed (x : Unit) (e : Engine) (n : Nat) (o : Engine × Nat) :
    o ∈ (x.completed e n).open_ ↔ o ∈ x.open_ ∧ o ≠ (e, n) := by
  simp [Unit.completed]

theorem State.note_frame (s : State) (u : Nat) (c : Clear) : (s.note u c).units = s.units ∧ (s.note u c).mem = s.mem := by
  unfold State.note
  split
  · dsimp only
    split <;> exact ⟨rfl, rfl⟩
  · exact ⟨rfl, rfl⟩

/-- The flags of a resident unit are in its context. -/
theorem State.raiseFlags_frame {k j : Nat} (f : Flags) (hseat : s.seatOf u = some (k, j)) (hres : (s.ctx k j).unit = some u) :
    (s.raiseFlags u f).units = s.units ∧ (s.raiseFlags u f).mem = s.mem := by
  unfold State.raiseFlags
  rw [State.onBank_of_resident _ hseat hres]
  split <;> exact ⟨rfl, rfl⟩

theorem State.finish_frame (e : Engine) (n : Nat) (hx : s.unit u = some x) (hres : (s.ctx x.core x.ctx).unit = some u) :
    (s.finish u e n).units = alter s.units u (·.completed e n) ∧ (s.finish u e n).mem = s.mem := by
  have hseat : s.seatOf u = some (x.core, x.ctx) := by simp [State.seatOf, hx]
  obtain ⟨hunits, hmem⟩ := State.raiseFlags_frame (((s.cmd u e n).map (·.flags)).getD 0) hseat hres
  unfold State.finish
  dsimp only
  rw [(State.note_frame ..).1, (State.note_frame ..).2, State.onUnit_units, hunits]
  exact ⟨rfl, hmem⟩

theorem State.unit_finish (e : Engine) (n : Nat) (hx : s.unit u = some x) (hres : (s.ctx x.core x.ctx).unit = some u) :
    (s.finish u e n).unit u = some (x.completed e n) := by
  rw [State.unit, (State.finish_frame e n hx hres).1, find_alter_same]
  exact congrArg (Option.map _) hx

theorem State.unit_finish_other {v : Nat} (e : Engine) (n : Nat) (hx : s.unit u = some x) (hres : (s.ctx x.core x.ctx).unit = some u)
    (hv : v ≠ u) : (s.finish u e n).unit v = s.unit v := by
  rw [State.unit, (State.finish_frame e n hx hres).1, find_alter_other _ _ hv]
  rfl

end

/-- Settles O39: each event by what it does when its operation may go on, and completion by what it leaves of the units. -/
theorem lsuEvents : Obligations.LsuEvents := by
  unfold Obligations.LsuEvents
  refine ⟨⟨fun s u id l v en fl hl hready hfree hdue => ?landings, fun s u n x c hx hc => ?operations⟩,
    fun s u x e n hx hres _ => ?completion⟩
  case landings =>
    have hwrite := execLandingBufferWrite_ready hl hready hfree hdue
    refine ⟨fun hnone => ?_, fun e n heng he => ?_⟩
    · have h := hwrite (by simp [hnone])
      rwa [hnone] at h
    · have h := hwrite (by simp [heng, he])
      rwa [heng] at h
  case operations =>
    refine ⟨execStorePerformAtHome_store hx hc, fun hstore htaken hparts => ?_, execLsuAccessStart_waiting hx hc,
      execSpawnComplete_waiting hx hc⟩
    calc execStorePerformAtHome u n s
      _ = .next ((s.performReady u n).lsuSettle u n) := execStorePerformAtHome_store hx hc hstore
      _ = .next (s.lsuSettle u n) := by rw [State.performReady_none hx hc hparts]
      _ = .next (s.finish u .lsu n) := by rw [State.lsuSettle_store hx hc hstore htaken hparts]
  case completion =>
    exact ⟨x.completed e n, State.unit_finish e n hx hres, x.mem_cmds_completed e n, x.mem_open_completed e n,
      (State.finish_frame e n hx hres).2, fun v => State.unit_finish_other e n hx hres⟩

end Sys2Proof.Machine
end

section
/-! SUPPORT. The queue instructions that the issuing context performs on its own queues (R158, R159, R164, R168 to R171, R222, R223). -/
namespace Sys2Proof.Machine

/-! ### The queues of a context (R155) -/

@[simp] theorem Ctx.queue_setQueue_same (x : Ctx) {q : Nat} (y : Queue) (hq : q < 16) : (x.setQueue q y).queue q = y := by
  simp [Ctx.queue, Ctx.setQueue, hq]

theorem Ctx.queue_setQueue_other (x : Ctx) {q r : Nat} (y : Queue) (h : r ≠ q) : (x.setQueue q y).queue r = x.queue r := by
  simp [Ctx.queue, Ctx.setQueue, Vector.getElem?_setIfInBounds_ne (Ne.symm h)]

theorem State.spm_myCore_onMe (s : State) (f : Ctx → Ctx) : (s.onMe f).myCore.spm = s.myCore.spm := State.spm_core_onCtx s _ _ f

/-- A direct load meets no uncorrectable error where the core has none (R374). -/
theorem Core.load_of_sound {x : Core} (h : x.bad = []) (origin a n : Nat) : x.load origin a n = .ok (x.loadBytes a n) := by
  simp [Core.load, h]

/-! ### QCFG (R168) -/

/-- What QCFG calls a queue in use. -/
def Queue.InUse (y : Queue) : Prop :=
  y.spo = true ∨ y.spi = true ∨ y.opn = true ∨ y.ref ≠ 0 ∨ (y.cfg = true ∧ y.tail ≠ y.free)

/-- The base address that QCFG gives a queue. -/
def qcfgBase (o : QcfgOp) (a : Word) : Nat := o.base256.toNat * 256 + a.toNat

/-- A base and a shape that the scratchpad has room for. -/
def QcfgFits (o : QcfgOp) (a : Word) : Prop :=
  qcfgBase o a % 256 = 0 ∧ qcfgBase o a + 2 ^ o.log2n.toNat * (o.slotsz.toNat + 1) * 256 ≤ 3145728 ∧ o.log2n.toNat ≤ 8

theorem qcfgFits_iff (o : QcfgOp) (a : Word) : QcfgFits o a ↔ ¬(qcfgBase o a % 256 ≠ 0
    ∨ spmSize < qcfgBase o a + 2 ^ o.log2n.toNat * (o.slotsz.toNat + 1) * 256 ∨ 8 < o.log2n.toNat) := by
  unfold QcfgFits spmSize
  omega

/-- An empty queue of the shape that QCFG gives. -/
def qcfgShape (o : QcfgOp) (a : Word) (y : Queue) : Queue :=
  { y with
    cfg := true, base := BitVec.ofNat 22 (qcfgBase o a), slotsz := o.slotsz, log2n := o.log2n, rx := o.rx, head := 0, free := 0, tail := 0,
    pres := 0, tags := 0, fill := 0 }

theorem toNat_base_qcfgShape {o : QcfgOp} {a : Word} (h : QcfgFits o a) (y : Queue) : (qcfgShape o a y).base.toNat = qcfgBase o a := by
  obtain ⟨-, hroom, -⟩ := h
  exact Nat.mod_eq_of_lt (by omega)

section
variable {s : State} {o : QcfgOp} {a : Word}

theorem Queue.inUse_iff (y : Queue) : y.InUse ↔ (y.spo || y.spi || y.opn || y.ref != 0 || (y.cfg && y.tail != y.free)) = true := by
  simp [Queue.InUse, or_assoc]

theorem exec_qcfg_busy (h : s.Calm) (hbusy : (s.iss.entry.queue o.q.val).InUse) : exec (.qcfg o) s = .next (s.slotFault queueBusy) :=
  slotOp_fault h (if_pos ((Queue.inUse_iff _).1 hbusy))

theorem exec_qcfg_fits (h : s.Calm) (ha : s.srcS o.a = .ok a) (hidle : ¬(s.iss.entry.queue o.q.val).InUse) (hfits : QcfgFits o a) :
    exec (.qcfg o) s = .next (s.onMe fun x => x.setQueue o.q.val (qcfgShape o a (x.queue o.q.val))).slotEnd := by
  rw [Queue.inUse_iff] at hidle
  refine slotOp_calm h ?_
  simp only [hidle, ha, bind, Except.bind]
  exact if_neg ((qcfgFits_iff o a).1 hfits)

theorem exec_qcfg_misfit (h : s.Calm) (ha : s.srcS o.a = .ok a) (hidle : ¬(s.iss.entry.queue o.q.val).InUse) (hfits : ¬QcfgFits o a) :
    exec (.qcfg o) s = .next (s.slotFault (queueConfiguration 4)) := by
  rw [Queue.inUse_iff] at hidle
  refine slotOp_fault h ?_
  simp only [hidle, ha, bind, Except.bind]
  exact if_pos (not_not.1 (mt (qcfgFits_iff o a).2 hfits))

end

/-- Settles O31: the three outcomes of QCFG, and the other queues by `Ctx.queue_setQueue_other`. (`queueConfiguration` is the condition
of R168.) -/
theorem queueConfiguration_holds : Obligations.QueueConfiguration := by
  unfold Obligations.QueueConfiguration
  intro s o a h hk ha
  refine ⟨fun hidle hfits => ?fits, exec_qcfg_busy h, exec_qcfg_misfit h ha⟩
  case fits =>
    have hme := s.me_onMe (fun x => x.setQueue o.q.val (qcfgShape o a (x.queue o.q.val))) hk
    refine ⟨_, exec_qcfg_fits h ha hidle hfits, ?_, fun q hq => ?_, ?_, s.spm_myCore_onMe _, rfl⟩
    · rw [hme, Ctx.queue_setQueue_same _ _ o.q.isLt]
      exact ⟨rfl, toNat_base_qcfgShape hfits _, rfl, rfl, rfl, rfl, rfl, rfl, rfl, rfl, rfl⟩
    · rw [hme, Ctx.queue_setQueue_other _ _ hq]
    · rw [hme]
      rfl

/-- What both of two instructions do. -/
theorem forall_mem_pair {α : Type} {P : α → Prop} {a b : α} (ha : P a) (hb : P b) : ∀ i ∈ [a, b], P i :=
  List.forall_mem_cons.2 ⟨ha, List.forall_mem_singleton.2 hb⟩

/-! ### Checks of a source of a queue (R144, R164) -/

section
variable {s : State} {q : Nat}

theorem State.queueSource_ok (hcfg : (s.iss.entry.queue q).cfg = true) (hspo : (s.iss.entry.queue q).spo = false) (k : Nat) :
    s.queueSource q k = .ok ((s.iss.entry.queue q).head + BitVec.ofNat 16 k) := by
  simp [State.queueSource, hcfg, hspo]

theorem State.queueSource_unconfigured (hcfg : (s.iss.entry.queue q).cfg = false) (k : Nat) :
    s.queueSource q k = .error (queueConfiguration 4) := by
  simp [State.queueSource, hcfg]

theorem State.queueSource_spliced (hcfg : (s.iss.entry.queue q).cfg = true) (hspo : (s.iss.entry.queue q).spo = true) (k : Nat) :
    s.queueSource q k = .error splicedQueue := by
  simp [State.queueSource, hcfg, hspo]

end

/-! ### QPOP and QRD (R169, R170) -/

section
variable {s : State} {c : Cond} (h : s.Calm)
include h

theorem exec_qpop {q : Fin 16} {x : BitVec 16} (hsource : s.queueSource q.val 0 = .ok x) (n : BitVec 8) :
    exec (.qpop q n) s = .next (s.popQueue q.val (n.toNat + 1)).slotEnd :=
  slotOp_calm h (by simp only [hsource, bind, Except.bind, pure, Except.pure])

theorem exec_qpop_fault {q : Fin 16} (hsource : s.queueSource q.val 0 = .error c) (n : BitVec 8) :
    exec (.qpop q n) s = .next (s.slotFault c) :=
  slotOp_fault h (by simp only [hsource, bind, Except.bind])

theorem exec_qrd_fault {o : QrdOp} (hsource : s.queueSource o.q.val o.k.val = .error c) : exec (.qrd o) s = .next (s.slotFault c) :=
  slotOp_fault h (by simp only [hsource, bind, Except.bind])

theorem exec_qrd_row {o : QrdOp} {x : BitVec 16} {a : Word} (hsource : s.queueSource o.q.val o.k.val = .ok x) (ha : s.srcS o.a = .ok a)
    (hrow : a.toNat + o.row.toNat ≤ (s.iss.entry.queue o.q.val).slotsz.toNat) (hsound : s.myCore.bad = []) :
    let t := s.writeNoLatch .v o.d.val (bytesV (s.myCore.loadBytes
      ((s.iss.entry.queue o.q.val).slotAddr x + 256 * (a.toNat + o.row.toNat)) 256)) 8
    exec (.qrd o) s = .next (if o.pop then t.popQueue o.q.val 1 else t).slotEnd :=
  slotOp_calm h (by simp only [hsource, ha, bind, Except.bind, Nat.not_lt.2 hrow, if_false, Core.load_of_sound hsound, pure, Except.pure])

theorem exec_qrd_past {o : QrdOp} {x : BitVec 16} {a : Word} (hsource : s.queueSource o.q.val o.k.val = .ok x) (ha : s.srcS o.a = .ok a)
    (hrow : (s.iss.entry.queue o.q.val).slotsz.toNat < a.toNat + o.row.toNat) : exec (.qrd o) s = .next (s.slotFault rowRange) :=
  slotOp_fault h (by simp only [hsource, ha, bind, Except.bind, hrow, if_true])

end

/-! ### Reclaiming (R159) -/

section
variable (q : Queue) (held : BitVec 16 → Bool)

/-- A queue once the slot at FREE has been reclaimed. -/
def Queue.freed : Queue := { q with pres := q.pres &&& ~~~(BitVec.twoPow 256 (q.slotOf q.free)), free := q.free + 1 }

/-- Whether the slot at FREE can be reclaimed. -/
def Queue.canFree : Bool := q.free != q.head && q.present q.free && !held q.free

theorem Queue.reclaim_succ (n : Nat) : q.reclaim held (n + 1) = if q.canFree held then q.freed.reclaim held n else q := rfl

/-- Reclaiming changes FREE and presence only. -/
theorem Queue.reclaim_frame (n : Nat) : ∃ free pres, q.reclaim held n = { q with free, pres } := by
  induction n generalizing q with
  | zero => exact ⟨q.free, q.pres, rfl⟩
  | succ n ih =>
    rw [Queue.reclaim_succ]
    split
    · exact ih q.freed
    · exact ⟨q.free, q.pres, rfl⟩

/-- Nothing is reclaimed of a queue whose slots before HEAD are free. -/
theorem Queue.reclaim_of_free_eq_head {q : Queue} (h : q.free = q.head) (n : Nat) : q.reclaim held n = q := by
  cases n with
  | zero => rfl
  | succ n => simp [Queue.reclaim_succ, Queue.canFree, h]

/-- FREE advances by at most the distance to HEAD, over slots that nothing reads. -/
theorem Queue.reclaim_advance (n : Nat) : ∃ m, (q.reclaim held n).free = q.free + BitVec.ofNat 16 m ∧ m ≤ (q.head - q.free).toNat
    ∧ ∀ k < m, held (q.free + BitVec.ofNat 16 k) = false := by
  induction n generalizing q with
  | zero => exact ⟨0, (BitVec.add_zero _).symm, Nat.zero_le _, nofun⟩
  | succ n ih =>
    rw [Queue.reclaim_succ]
    split
    case isFalse => exact ⟨0, (BitVec.add_zero _).symm, Nat.zero_le _, nofun⟩
    case isTrue hcan =>
      obtain ⟨m, hfree, hm, hheld⟩ := ih q.freed
      simp only [Queue.canFree, Bool.and_eq_true, bne_iff_ne, Bool.not_eq_true'] at hcan
      obtain ⟨⟨hne, -⟩, hfirst⟩ := hcan
      have hstep : ∀ k, q.free + 1 + BitVec.ofNat 16 k = q.free + BitVec.ofNat 16 (k + 1) := fun k => by bv_omega
      have hdist : (q.head - (q.free + 1)).toNat + 1 = (q.head - q.free).toNat := by bv_omega
      refine ⟨m + 1, hfree.trans (hstep m), hdist ▸ Nat.succ_le_succ hm, fun k hk => ?_⟩
      cases k with
      | zero => simpa using hfirst
      | succ k => exact hstep k ▸ hheld k (Nat.lt_of_succ_lt_succ hk)

end

/-- Settles O32: QPOP and QRD by their checks and their row; reclaiming by how far FREE advances (`Queue.reclaim_advance`). -/
theorem queueReads : Obligations.QueueReads := by
  unfold Obligations.QueueReads
  refine ⟨fun s q n o a h hq ha => ?instructions, fun q held n => ?reclaiming⟩
  case instructions =>
    subst hq
    refine ⟨fun hcfg hspo => ⟨exec_qpop h (State.queueSource_ok hcfg hspo 0) n,
        fun hrow hsound => exec_qrd_row h (State.queueSource_ok hcfg hspo _) ha hrow hsound,
        exec_qrd_past h (State.queueSource_ok hcfg hspo _) ha⟩,
      fun hcfg => ?_, fun hcfg hspo => ?_⟩
    · exact forall_mem_pair (exec_qpop_fault h (State.queueSource_unconfigured hcfg 0) n)
        (exec_qrd_fault h (State.queueSource_unconfigured hcfg _))
    · exact forall_mem_pair (exec_qpop_fault h (State.queueSource_spliced hcfg hspo 0) n)
        (exec_qrd_fault h (State.queueSource_spliced hcfg hspo _))
  case reclaiming =>
    obtain ⟨free, pres, hframe⟩ := q.reclaim_frame held n
    obtain ⟨m, hfree, hm, hheld⟩ := q.reclaim_advance held n
    have hlen : ((q.reclaim held n).free - q.free).toNat = m := by rw [hfree]; bv_omega
    refine ⟨by rw [hframe], fun _ => ?_, hlen ▸ hheld, fun hall => Queue.reclaim_of_free_eq_head held hall n⟩
    rw [hlen, hfree]
    bv_omega

/-! ### QWR into a queue without splices (R158, R164, R171) -/

section
variable {s : State} {q : Nat}

theorem appendCheck_ok {y : Queue} (hcfg : y.cfg = true) (hspi : y.spi = false) (href : y.ref = 0) : appendCheck y = .ok () := by
  simp [appendCheck, hcfg, hspi, href]

theorem State.reserve_local (hspo : (s.me.queue q).spo = false) : s.reserve q =
    (((s.me.queue q).tail, none), s.onMe fun x => x.setQueue q { s.me.queue q with tail := (s.me.queue q).tail + 1 }) := by
  simp [State.reserve, hspo]

theorem State.openSlotOf_local (hspo : (s.me.queue q).spo = false) : s.openSlotOf q = ((s.me.queue q).tail - 1, none) := by
  simp [State.openSlotOf, hspo]

/-- A queue whose slot QWR leaves open, or completes. -/
def State.qwrOpened (s : State) (q : Nat) (close : Bool) : State :=
  s.onMe fun x => x.setQueue q { x.queue q with opn := !close, okind := false }

end

section
variable {s : State} {o : QwrOp} {a : Word} {v : VWord} (h : s.Calm) (ha : s.srcS o.a = .ok a) (hv : s.srcV o.b = .ok v)
  (happend : appendCheck (s.iss.entry.queue o.q.val) = .ok ())
include h happend

/-- QWR with OPEN finds a slot open, QWR without it finds none, or VCPUSH has opened it. -/
theorem exec_qwr_openSlot (hopn : (s.iss.entry.queue o.q.val).opn = o.o
    ∨ (s.iss.entry.queue o.q.val).opn = true ∧ (s.iss.entry.queue o.q.val).okind = true) :
    exec (.qwr o) s = .next (s.slotFault openSlot) := by
  have hbad : (o.o && (s.iss.entry.queue o.q.val).opn || !o.o && !(s.iss.entry.queue o.q.val).opn
      || (s.iss.entry.queue o.q.val).opn && (s.iss.entry.queue o.q.val).okind) = true := by
    rcases hopn with hopn | ⟨hopn, hkind⟩
    · rw [hopn]; cases o.o <;> rfl
    · simp [hopn, hkind]
  exact slotOp_fault h (by simp only [happend, bind, Except.bind, hbad, if_true])

include ha hv

/-- QWR into the open slot. -/
theorem exec_qwr_continues (hspo : (s.me.queue o.q.val).spo = false) (ho : o.o = false) (hopn : (s.iss.entry.queue o.q.val).opn = true)
    (hkind : (s.iss.entry.queue o.q.val).okind = false) (hrow : a.toNat + o.row.toNat ≤ (s.iss.entry.queue o.q.val).slotsz.toNat) :
    exec (.qwr o) s = .next ((s.qwrOpened o.q.val o.c).appendBytes o.q.val ((s.me.queue o.q.val).tail - 1, none)
      (256 * (a.toNat + o.row.toNat)) (vbytes v) o.c o.tag.toNat).slotEnd := by
  refine slotOp_calm h ?_
  simp only [happend, bind, Except.bind, ho, hopn, hkind, ha, hv, Nat.not_lt.2 hrow, if_false, State.openSlotOf_local hspo, Bool.false_and,
    Bool.not_true, Bool.and_false, Bool.or_self, Bool.false_eq_true]
  rfl

/-- QWR that reserves its slot. -/
theorem exec_qwr_opens (hspo : (s.me.queue o.q.val).spo = false) (ho : o.o = true) (hopn : (s.iss.entry.queue o.q.val).opn = false)
    (hrow : a.toNat + o.row.toNat ≤ (s.iss.entry.queue o.q.val).slotsz.toNat) :
    exec (.qwr o) s = .next (((s.reserve o.q.val).2.qwrOpened o.q.val o.c).appendBytes o.q.val ((s.me.queue o.q.val).tail, none)
      (256 * (a.toNat + o.row.toNat)) (vbytes v) o.c o.tag.toNat).slotEnd := by
  refine slotOp_calm h ?_
  simp only [happend, bind, Except.bind, ho, hopn, ha, hv, Nat.not_lt.2 hrow, if_false, if_true, State.reserve_local hspo, Bool.and_false,
    Bool.not_true, Bool.false_and, Bool.or_self, Bool.false_eq_true]
  rfl

end

/-- The queue after a QWR that reserves its slot. -/
theorem State.queue_qwrOpened_reserve {s : State} (hk : s.iss.ctx < 4) {q : Nat} (hq : q < 16) (hspo : (s.me.queue q).spo = false)
    (close : Bool) : ((s.reserve q).2.qwrOpened q close).me.queue q
      = { s.me.queue q with tail := (s.me.queue q).tail + 1, opn := !close, okind := false } := by
  have hreserve := s.me_onMe (fun x => x.setQueue q { s.me.queue q with tail := (s.me.queue q).tail + 1 }) hk
  rw [State.reserve_local hspo, State.qwrOpened]
  dsimp only
  rw [State.me_onMe _ _ (by exact hk), hreserve, Ctx.queue_setQueue_same _ _ hq, Ctx.queue_setQueue_same _ _ hq]

/-! ### VCPUSH and VCPOP (R222, R223) -/

section
variable {s : State} (h : s.Calm)
include h

section
variable {o : VPushOp} {v : VWord} (hv : s.srcV o.a = .ok v)
include hv

theorem exec_vcpush_shape (hshape : (s.iss.entry.queue o.q.val).cfg = false ∨ (s.iss.entry.queue o.q.val).slotsz ≠ 0) :
    exec (.vcpush o) s = .next (s.slotFault (queueConfiguration 4)) := by
  have hbad : (!(s.iss.entry.queue o.q.val).cfg || (s.iss.entry.queue o.q.val).slotsz != 0) = true := by simpa using hshape
  exact slotOp_fault h (by simp only [hv, bind, Except.bind, hbad, if_true])

variable (hcfg : (s.iss.entry.queue o.q.val).cfg = true) (hsize : (s.iss.entry.queue o.q.val).slotsz = 0)
include hcfg hsize

theorem exec_vcpush_openSlot (hopn : (s.iss.entry.queue o.q.val).opn = true) (hkind : (s.iss.entry.queue o.q.val).okind = false) :
    exec (.vcpush o) s = .next (s.slotFault openSlot) :=
  slotOp_fault h (by simp [hv, bind, Except.bind, hcfg, hsize, hopn, hkind])

theorem exec_vcpush (hopen : (s.iss.entry.queue o.q.val).opn = true → (s.iss.entry.queue o.q.val).okind = true)
    (href : (s.iss.entry.queue o.q.val).ref = 0) (hspi : (s.iss.entry.queue o.q.val).spi = false) :
    exec (.vcpush o) s = .next (s.pushBytes o.q.val (pushTag o.ty) o.flush (compact o.ty (s.guard o.pg) v) 3).slotEnd := by
  have hkind : ((s.iss.entry.queue o.q.val).opn && !(s.iss.entry.queue o.q.val).okind) = false := by simpa using hopen
  exact slotOp_calm h (by simp [hv, bind, Except.bind, hcfg, hsize, hkind, href, hspi, pure, Except.pure])

end

section
variable {o : VPopOp} {e : Word} (he : s.srcS o.a = .ok e)
include he

theorem exec_vcpop_shape (hshape : (s.iss.entry.queue o.q.val).cfg = false ∨ (s.iss.entry.queue o.q.val).slotsz ≠ 0) :
    exec (.vcpop o) s = .next (s.slotFault (queueConfiguration 4)) := by
  have hbad : (!(s.iss.entry.queue o.q.val).cfg || (s.iss.entry.queue o.q.val).slotsz != 0) = true := by simpa using hshape
  exact slotOp_fault h (by simp only [he, bind, Except.bind, hbad, if_true])

variable (hcfg : (s.iss.entry.queue o.q.val).cfg = true) (hsize : (s.iss.entry.queue o.q.val).slotsz = 0)
include hcfg hsize

theorem exec_vcpop_openSlot (hopn : (s.iss.entry.queue o.q.val).opn = true) (hkind : (s.iss.entry.queue o.q.val).okind = false) :
    exec (.vcpop o) s = .next (s.slotFault openSlot) :=
  slotOp_fault h (by simp [he, bind, Except.bind, hcfg, hsize, hopn, hkind])

theorem exec_vcpop (hopen : (s.iss.entry.queue o.q.val).opn = true → (s.iss.entry.queue o.q.val).okind = true)
    (href : (s.iss.entry.queue o.q.val).ref = 0) (hspo : (s.iss.entry.queue o.q.val).spo = false) (hsound : s.myCore.bad = []) :
    let y := s.iss.entry.queue o.q.val
    let t := s.writeV o.d o.nw (expandV o.ty e.toNat
      (bytesV (s.myCore.loadBytes (y.slotAddr (y.head + BitVec.ofNat 16 o.k.val)) 256)) (s.guard o.pg)) (laneMask o.ty (s.guard o.pg)) 8
    exec (.vcpop o) s = .next (if o.pop then t.popQueue o.q.val 1 else t).slotEnd := by
  have hkind : ((s.iss.entry.queue o.q.val).opn && !(s.iss.entry.queue o.q.val).okind) = false := by simpa using hopen
  exact slotOp_calm h (by simp [he, bind, Except.bind, hcfg, hsize, hkind, href, hspo, Core.load_of_sound hsound, pure, Except.pure])

end

end

/-- Settles O33: QWR by whether it reserves its slot; VCPUSH and VCPOP by their checks in the order of R222 and R223. -/
theorem queueWrites : Obligations.QueueWrites := by
  unfold Obligations.QueueWrites
  refine ⟨fun s o a v h ha hv hentry hk => ?qwr, fun s o p v e h hq hv he => ?vectors⟩
  case qwr =>
    intro q y row hcfg hspi hspo href
    have happend : appendCheck (s.iss.entry.queue o.q.val) = .ok () := hentry ▸ appendCheck_ok hcfg hspi href
    refine ⟨fun ho hopn hkind hrow => ?_, fun hopn ho hrow => ?_, fun hopn => exec_qwr_openSlot h happend (hentry ▸ hopn)⟩
    · have hnew : o.o = false := by simpa [hopn] using ho.symm
      exact exec_qwr_continues h ha hv happend hspo hnew (hentry ▸ hopn) (hentry ▸ hkind) (hentry ▸ hrow)
    · have hreserve := State.reserve_local hspo
      refine ⟨_, exec_qwr_opens h ha hv happend hspo ho (hentry ▸ hopn) (hentry ▸ hrow),
        State.queue_qwrOpened_reserve hk o.q.isLt hspo o.c, ?_, ?_⟩
      · rw [hreserve]
        rfl
      · rw [hreserve, State.qwrOpened, State.spm_myCore_onMe, State.spm_myCore_onMe]
  case vectors =>
    obtain ⟨d, nw, a, q, k, pop, pg, ty⟩ := p
    obtain rfl : q = o.q := hq
    exact ⟨fun hcfg hsize hopen href => ⟨exec_vcpush h hv hcfg hsize hopen href, exec_vcpop h he hcfg hsize hopen href⟩,
      fun hshape => forall_mem_pair (exec_vcpush_shape h hv hshape) (exec_vcpop_shape h he hshape),
      fun hcfg hsize hopn hkind =>
        forall_mem_pair (exec_vcpush_openSlot h hv hcfg hsize hopn hkind) (exec_vcpop_openSlot h he hcfg hsize hopn hkind)⟩

end Sys2Proof.Machine
end

section
/-! SUPPORT. The messages of a splice (R161 to R165): what an event leaves of the two queues that a splice joins, when their units are
resident. -/
namespace Sys2Proof.Machine

/-! ### One end of a splice -/

/-- The queue at one end of a splice. -/
def State.queueAt (s : State) (e : QEnd) : Queue := (s.bankOf e.unit).queue e.queue

/-- A change of the queue at one end. -/
def State.onQueue (s : State) (e : QEnd) (g : Queue → Queue) : State :=
  s.onBank e.unit fun x => x.setQueue e.queue (g (x.queue e.queue))

/-- The unit of an end is resident in context `k` of core `c`. -/
structure State.EndIn (s : State) (e : QEnd) (c k : Nat) : Prop where
  seat : s.seatOf e.unit = some (c, k)
  resident : (s.ctx c k).unit = some e.unit
  isCtx : k < 4
  isQueue : e.queue < 16

section
variable {s t : State} {e : QEnd} {c k : Nat}

theorem State.endIn_of_unit {x : Unit} (hx : s.unit e.unit = some x) (hk : x.ctx < 4) (hres : (s.ctx x.core x.ctx).unit = some e.unit)
    (hq : e.queue < 16) : s.EndIn e x.core x.ctx :=
  ⟨by rw [State.seatOf, hx, Option.map_some], hres, hk, hq⟩

theorem State.EndIn.queueAt (h : s.EndIn e c k) : s.queueAt e = (s.ctx c k).queue e.queue := by
  obtain ⟨x, hx, hck⟩ := Option.map_eq_some_iff.mp h.seat
  obtain ⟨rfl, rfl⟩ := Prod.mk.inj hck
  simp only [State.queueAt, State.bankOf, hx, h.resident, if_true]

theorem State.EndIn.onQueue_eq (h : s.EndIn e c k) (g : Queue → Queue) :
    s.onQueue e g = s.onCtx c k fun x => x.setQueue e.queue (g (x.queue e.queue)) := State.onBank_of_resident _ h.seat h.resident

/-- A change of the state that leaves where the unit is, and the queues of its context, leaves the end. -/
theorem State.EndIn.same (h : s.EndIn e c k) (hseat : t.seatOf e.unit = s.seatOf e.unit) (hunit : (t.ctx c k).unit = (s.ctx c k).unit)
    (hqueues : (t.ctx c k).queues = (s.ctx c k).queues) : t.EndIn e c k ∧ t.queueAt e = s.queueAt e := by
  have ht : t.EndIn e c k := ⟨hseat.trans h.seat, hunit.trans h.resident, h.isCtx, h.isQueue⟩
  exact ⟨ht, by rw [ht.queueAt, h.queueAt, Ctx.queue, hqueues, Ctx.queue]⟩

/-! ### What the steps of an event leave -/

theorem State.EndIn.onUnit (h : s.EndIn e c k) (u : Nat) {f : Unit → Unit} (hf : ∀ x, (f x).core = x.core ∧ (f x).ctx = x.ctx) :
    (s.onUnit u f).EndIn e c k ∧ (s.onUnit u f).queueAt e = s.queueAt e := h.same (s.seatOf_onUnit u _ hf) rfl rfl

theorem State.EndIn.onCore (h : s.EndIn e c k) {f : Core → Core} (hf : ∀ x, (f x).ctxs = x.ctxs) :
    (s.onCore c f).EndIn e c k ∧ (s.onCore c f).queueAt e = s.queueAt e := by
  have hctx : (s.onCore c f).ctx c k = s.ctx c k := by rw [State.ctx, State.core_onCore, Core.ctx, hf]; rfl
  exact h.same rfl (by rw [hctx]) (by rw [hctx])

theorem State.EndIn.note (h : s.EndIn e c k) (z : Clear) : (s.note e.unit z).EndIn e c k ∧ (s.note e.unit z).queueAt e = s.queueAt e := by
  obtain ⟨x, hx, hck⟩ := Option.map_eq_some_iff.mp h.seat
  obtain ⟨rfl, rfl⟩ := Prod.mk.inj hck
  simp only [State.note, hx]
  split
  · refine h.same rfl ?_ ?_ <;> rw [State.ctx_onCtx s _ h.isCtx] <;> rfl
  · exact ⟨h, rfl⟩

theorem State.EndIn.onQueue (h : s.EndIn e c k) (g : Queue → Queue) :
    (s.onQueue e g).EndIn e c k ∧ (s.onQueue e g).queueAt e = g (s.queueAt e) := by
  have hctx := s.ctx_onCtx (fun x => x.setQueue e.queue (g (x.queue e.queue))) (c := c) h.isCtx
  have hend : (s.onQueue e g).EndIn e c k := by
    rw [h.onQueue_eq]
    exact ⟨h.seat, by rw [hctx]; exact h.resident, h.isCtx, h.isQueue⟩
  refine ⟨hend, ?_⟩
  rw [hend.queueAt, h.queueAt, h.onQueue_eq, hctx, Ctx.queue_setQueue_same _ _ h.isQueue]

theorem State.EndIn.onQueue_frame (h : s.EndIn e c k) (g : Queue → Queue) :
    (s.onQueue e g).units = s.units ∧ (s.onQueue e g).mem = s.mem ∧ (s.onQueue e g).agenda = s.agenda := by
  rw [h.onQueue_eq]
  exact ⟨rfl, rfl, rfl⟩

/-- A change of the queue of an end, and then of its unit. -/
theorem State.EndIn.onQueue_onUnit (h : s.EndIn e c k) (g : Queue → Queue) (f : Unit → Unit)
    (hf : ∀ x, (f x).core = x.core ∧ (f x).ctx = x.ctx) :
    ((s.onQueue e g).onUnit e.unit f).EndIn e c k ∧ ((s.onQueue e g).onUnit e.unit f).queueAt e = g (s.queueAt e)
      ∧ ((s.onQueue e g).onUnit e.unit f).unit e.unit = (s.unit e.unit).map f := by
  obtain ⟨hend, hqueue⟩ := h.onQueue g
  obtain ⟨hend', hqueue'⟩ := hend.onUnit e.unit hf
  obtain ⟨hunits, -, -⟩ := h.onQueue_frame g
  exact ⟨hend', hqueue'.trans hqueue, (State.unit_onUnit ..).trans (congrArg (Option.map f) (congrArg (find · e.unit) hunits))⟩

/-- Messages that go before a message do not make it earlier. -/
theorem le_foldl_max {α : Type} (f : α → Nat) (l : List α) (n : Nat) : n ≤ l.foldl (fun t x => max t (f x)) n := by
  induction l generalizing n with
  | nil => exact Nat.le_refl n
  | cons x rest ih => exact Nat.le_trans (Nat.le_max_left n (f x)) (ih _)

/-- A message of the mesh takes a free value for its delay and goes to the end of the agenda, two core cycles or more ahead. -/
theorem State.meshFrom_eq (s : State) (base src dst extra : Nat) (follows : Event → Bool) (m : Event) :
    ∃ at_, base + 2 ≤ at_
      ∧ s.meshFrom base src dst extra follows m = { s with free := s.free + 1, agenda := s.agenda ++ [(at_, m)] } := by
  refine ⟨_, Nat.le_trans ?_ (le_foldl_max ..), rfl⟩
  split <;> omega

theorem State.EndIn.meshFrom (h : s.EndIn e c k) (base src dst extra : Nat) (follows : Event → Bool) (m : Event) :
    (s.meshFrom base src dst extra follows m).EndIn e c k ∧ (s.meshFrom base src dst extra follows m).queueAt e = s.queueAt e :=
  h.same rfl rfl rfl

end

/-! ### A request and its answer (R161) -/

section
variable {s : State} {snd tgt : QEnd} {c k : Nat}

theorem exec_spliceRequestArrive_refused {w : Word} {sz : BitVec 8} {r : BitVec 3} (h : s.judge snd w sz = .error r) :
    ∃ at_, exec (.spliceRequestArrive snd w sz) s
      = .next { s with free := s.free + 1, agenda := s.agenda ++ [(at_, .spliceAnswerArrive snd none r 0 0 0)] } := by
  change ∃ at_, execSpliceRequestArrive snd w sz s = _
  simp only [execSpliceRequestArrive, h]
  exact ⟨_, rfl⟩

/-- A unit with one more splice into a queue of it, whose FREE is reported. -/
def Unit.withSpliceIn (x : Unit) (q : Nat) (snd : QEnd) (free : BitVec 16) : Unit :=
  { x with spliceIn := x.spliceIn ++ [(q, snd)], reported := put x.reported q free }

/-- The target of a request that is granted. -/
def State.spliceGranted (s : State) (snd tgt : QEnd) : State :=
  (s.onQueue tgt fun y => { y with spi := true }).onUnit tgt.unit
    (·.withSpliceIn tgt.queue snd (s.queueAt tgt).free)

theorem exec_spliceRequestArrive_granted {w : Word} {sz : BitVec 8} (h : s.judge snd w sz = .ok tgt) :
    exec (.spliceRequestArrive snd w sz) s = .next ((s.spliceGranted snd tgt).mesh (w.toNat % 512) snd.core 0 (toSender snd)
      (.spliceAnswerArrive snd (some tgt) 0 (s.queueAt tgt).log2n (s.queueAt tgt).tail (s.queueAt tgt).free)) := by
  change execSpliceRequestArrive snd w sz s = _
  simp only [execSpliceRequestArrive, h]
  rfl

theorem State.EndIn.spliceGranted (h : s.EndIn tgt c k) (snd : QEnd) :
    (s.spliceGranted snd tgt).EndIn tgt c k ∧ (s.spliceGranted snd tgt).queueAt tgt = { s.queueAt tgt with spi := true }
      ∧ (s.spliceGranted snd tgt).agenda = s.agenda := by
  obtain ⟨-, -, hagenda⟩ := h.onQueue_frame fun y => { y with spi := true }
  obtain ⟨hend, hqueue, -⟩ := h.onQueue_onUnit (fun y => { y with spi := true })
    (·.withSpliceIn tgt.queue snd (s.queueAt tgt).free) fun _ => ⟨rfl, rfl⟩
  exact ⟨hend, hqueue, hagenda⟩

/-- The sender's unit, one message less under way. -/
def State.spliceAnswered (s : State) (snd : QEnd) : State :=
  s.onUnit snd.unit fun x => { x with asking := x.asking.erase snd.queue, deliveries := x.deliveries - 1 }

/-- The sender's unit, with a splice more. -/
def State.spliceOpened (s : State) (snd tgt : QEnd) (slots : Nat) : State :=
  s.onUnit snd.unit fun x => { x with spliceOut := x.spliceOut ++ [(snd.queue, tgt, slots)] }

theorem exec_spliceAnswerArrive_granted (reason : BitVec 3) (l : BitVec 4) (tail free : BitVec 16) :
    exec (.spliceAnswerArrive snd (some tgt) reason l tail free) s
      = .next ((((s.spliceAnswered snd).spliceOpened snd tgt (2 ^ l.toNat)).onQueue snd fun y =>
          { y with spo := true, stail := tail, sfree := free, ref := 0 }).note snd.unit (.answer snd.queue)) := rfl

theorem exec_spliceAnswerArrive_refused (reason : BitVec 3) (l : BitVec 4) (tail free : BitVec 16) :
    exec (.spliceAnswerArrive snd none reason l tail free) s
      = .next (((s.spliceAnswered snd).onQueue snd fun y => { y with ref := reason }).note snd.unit (.answer snd.queue)) := rfl

theorem State.EndIn.spliceAnswered (h : s.EndIn snd c k) :
    (s.spliceAnswered snd).EndIn snd c k ∧ (s.spliceAnswered snd).queueAt snd = s.queueAt snd := h.onUnit _ fun _ => ⟨rfl, rfl⟩

theorem State.EndIn.spliceOpened (h : s.EndIn snd c k) (tgt : QEnd) (slots : Nat) :
    (s.spliceOpened snd tgt slots).EndIn snd c k ∧ (s.spliceOpened snd tgt slots).queueAt snd = s.queueAt snd :=
  h.onUnit _ fun _ => ⟨rfl, rfl⟩

/-- A change of a queue that the unit's bundle may wait for. -/
theorem State.EndIn.onQueue_note (h : s.EndIn snd c k) (g : Queue → Queue) (z : Clear) :
    ((s.onQueue snd g).note snd.unit z).queueAt snd = g (s.queueAt snd) ∧ ((s.onQueue snd g).note snd.unit z).units = s.units
      ∧ ((s.onQueue snd g).note snd.unit z).mem = s.mem := by
  obtain ⟨hend, hqueue⟩ := h.onQueue g
  obtain ⟨hunits, hmem, -⟩ := h.onQueue_frame g
  exact ⟨(hend.note z).2.trans hqueue, (State.note_frame ..).1.trans hunits, (State.note_frame ..).2.trans hmem⟩

/-! ### Rows (R162, R164) -/

/-- A row that does not close its slot is written and acknowledged. -/
theorem exec_spliceRowArrive_open {m : SpliceRow} {y : Unit} (hy : s.unit m.tgt.unit = some y) (hclose : m.close = false)
    (heng : m.eng = none) (hack : m.ack = true) : exec (.spliceRowArrive m) s
      = .next ((s.onCore y.core fun z => z.putBytes ((s.queueAt m.tgt).slotAddr m.ctr + m.off) m.data).meshFrom (s.now - 1) m.tgt.core
          m.snd.core 0 (fun _ => false) (.deliveryAckArrive m.snd.unit)) := by
  change execSpliceRowArrive m s = _
  simp only [execSpliceRowArrive, hy, hclose, heng, hack]
  rfl

/-! ### The end of a splice (R164, R165) -/

/-- A unit without the splices into, or out of, a queue of it. -/
def Unit.withoutSpliceIn (x : Unit) (q : Nat) : Unit := { x with spliceIn := x.spliceIn.filter fun y => !decide (y.1 = q) }
def Unit.withoutSpliceOut (x : Unit) (q : Nat) : Unit := { x with spliceOut := x.spliceOut.filter fun o => !decide (o.1 = q) }

/-- The target of a splice that its sender has ended. -/
def State.spliceClosed (s : State) (tgt : QEnd) : State :=
  (s.onQueue tgt fun y => { y with spi := false }).onUnit tgt.unit (·.withoutSpliceIn tgt.queue)

theorem exec_spliceEndMarkerArrive : exec (.spliceEndMarkerArrive tgt) s = .next (s.spliceClosed tgt) := rfl

theorem State.EndIn.spliceClosed (h : s.EndIn tgt c k) : (s.spliceClosed tgt).queueAt tgt = { s.queueAt tgt with spi := false }
    ∧ (s.spliceClosed tgt).unit tgt.unit = (s.unit tgt.unit).map (·.withoutSpliceIn tgt.queue) :=
  (h.onQueue_onUnit (fun y => { y with spi := false }) (·.withoutSpliceIn tgt.queue) fun _ => ⟨rfl, rfl⟩).2

/-- The sender of a splice whose target has retired. -/
def State.spliceLost (s : State) (snd : QEnd) : State :=
  (s.onQueue snd fun y => { y with spo := false, ref := 7, opn := false, okind := false, fill := 0 }).onUnit snd.unit
    (·.withoutSpliceOut snd.queue)

theorem State.EndIn.spliceLost (h : s.EndIn snd c k) : (s.spliceLost snd).queueAt snd
    = { s.queueAt snd with spo := false, ref := 7, opn := false, okind := false, fill := 0 } :=
  (h.onQueue_onUnit (fun y => { y with spo := false, ref := 7, opn := false, okind := false, fill := 0 }) (·.withoutSpliceOut snd.queue)
    fun _ => ⟨rfl, rfl⟩).2.1

/-- The end of the target reaches a sender that has the splice. -/
theorem exec_spliceTargetEnd_live {x : Unit} {n : Nat} (hx : s.unit snd.unit = some x) (hmem : (snd.queue, tgt, n) ∈ x.spliceOut) :
    exec (.spliceTargetEnd snd tgt) s = .next (s.spliceLost snd) := by
  have hany : (((s.unit snd.unit).map (·.spliceOut)).getD [] |>.any fun o => decide (o.1 = snd.queue) && decide (o.2.1 = tgt)) = true := by
    rw [hx]
    exact List.any_eq_true.2 ⟨_, hmem, by simp⟩
  exact congrArg Host.Outcome.next (if_pos hany)

end

/-- Settles O41: each message by what it changes at one end; the rest of its effects leave the queue of that end. -/
theorem spliceEvents : Obligations.SpliceEvents := by
  unfold Obligations.SpliceEvents
  intro s snd tgt x y hx hy hxk hyk hxres hyres hsq htq q
  have hsnd : s.EndIn snd x.core x.ctx := State.endIn_of_unit hx hxk hxres hsq
  have htgt : s.EndIn tgt y.core y.ctx := State.endIn_of_unit hy hyk hyres htq
  refine ⟨fun w sz r hj => ?refused, fun w sz hj => ?granted, fun l tail free => ?opens, fun r l tail free => ?recorded, fun ctr => ?header,
    fun m hm hclose heng hack => ?row, fun free => ?report, ?ack, ?marker, fun n hn => ?targetEnd⟩
  case refused =>
    obtain ⟨at_, hexec⟩ := exec_spliceRequestArrive_refused hj
    exact ⟨_, at_, hexec, rfl, rfl⟩
  case granted =>
    obtain ⟨hend, hqueue, hagenda⟩ := htgt.spliceGranted snd
    refine ⟨_, _, exec_spliceRequestArrive_granted hj, congrArg (· ++ _) hagenda, ?_⟩
    exact (hend.meshFrom ..).2.trans hqueue
  case opens =>
    obtain ⟨hend, hqueue⟩ := hsnd.spliceAnswered
    obtain ⟨hend', hqueue'⟩ := hend.spliceOpened tgt (2 ^ l.toNat)
    obtain ⟨hset, hunits, -⟩ := hend'.onQueue_note (fun y => { y with spo := true, stail := tail, sfree := free, ref := 0 }) (.answer snd.queue)
    refine ⟨_, exec_spliceAnswerArrive_granted .., hset.trans ?_, fun z hz => ?_⟩
    · rw [hqueue', hqueue]
      rfl
    · have hunit : some z = some _ := hz.symm.trans ((congrArg (find · snd.unit) hunits).trans
        ((State.unit_onUnit ..).trans (congrArg (Option.map _) ((State.unit_onUnit ..).trans (congrArg (Option.map _) hx)))))
      obtain rfl := Option.some.inj hunit
      exact ⟨rfl, rfl⟩
  case recorded =>
    obtain ⟨hend, hqueue⟩ := hsnd.spliceAnswered
    refine ⟨_, exec_spliceAnswerArrive_refused .., (hend.onQueue_note _ _).1.trans ?_⟩
    rw [hqueue]
    rfl
  case header =>
    obtain ⟨hset, -, hmem⟩ := htgt.onQueue_note (fun y => { y with tail := y.tail + 1 }) (.tail tgt.queue 1)
    exact ⟨_, rfl, hset, hmem⟩
  case row =>
    subst hm
    obtain ⟨hend, hqueue⟩ := htgt.onCore (f := fun z => z.putBytes ((s.queueAt m.tgt).slotAddr m.ctr + m.off) m.data) fun _ => rfl
    refine ⟨_, exec_spliceRowArrive_open hy hclose heng hack, ?_, (hend.meshFrom ..).2.trans hqueue, rfl⟩
    exact congrArg Core.spm (s.core_onCore y.core fun z => z.putBytes ((s.queueAt m.tgt).slotAddr m.ctr + m.off) m.data)
  case report =>
    obtain ⟨hset, -, hmem⟩ := hsnd.onQueue_note (fun y => { y with sfree := free }) (.free snd.queue (free - (s.queueAt snd).sfree).toNat)
    exact ⟨_, rfl, hset, hmem⟩
  case ack => exact ⟨_, rfl, (State.unit_onUnit ..).trans (congrArg (Option.map _) hx)⟩
  case marker =>
    obtain ⟨hqueue, hunit⟩ := htgt.spliceClosed
    refine ⟨_, exec_spliceEndMarkerArrive, hqueue, fun z hz => ?_⟩
    rw [hy, hz] at hunit
    obtain rfl := Option.some.inj hunit
    simp only [Unit.withoutSpliceIn, decide_not]
  case targetEnd => exact ⟨_, exec_spliceTargetEnd_live hx hn, hsnd.spliceLost⟩

end Sys2Proof.Machine
end

section
/-! SUPPORT. The image of a queue is read back (R167, R173). -/
namespace Sys2Proof.Machine

theorem bit_eq_toNat_mul (b : Bool) (i : Nat) : bit b i = b.toNat * 2 ^ i := by
  cases b <;> simp [bit]

theorem testBit_of_div_mod {w i : Nat} {b : Bool} (h : w / 2 ^ i % 2 = b.toNat) : w.testBit i = b := by
  rw [Nat.testBit_eq_decide_div_mod_eq, h]
  cases b <;> rfl

/-- A word of `n` bytes. -/
theorem toNat_lt_pow_bytes {n : Nat} (x : BitVec (8 * n)) : x.toNat < 256 ^ n := by
  rw [show 256 = 2 ^ 8 from rfl, ← Nat.pow_mul]
  exact x.isLt

/-- A number in the middle of a byte string is read back. -/
theorem leNat_take_drop {pre post : List Byte} {v n off : Nat} (hoff : pre.length = off) (hv : v < 256 ^ n) :
    leNat (((pre ++ (leBytes v n ++ post)).drop off).take n) = v := by
  rw [List.drop_left' hoff, List.take_left' (leBytes_length v n), leNat_leBytes_of_lt hv]

/-- The first word of an image. -/
def Queue.shapeWord (q : Queue) : Nat := q.word + 2 ^ 31
/-- The second word of an image, without a splice. -/
def Queue.counterWord (q : Queue) : Nat := q.head.toNat + 2 ^ 16 * q.tail.toNat + 2 ^ 32 * q.fill.toNat + bit q.opn 40 + bit q.okind 41
/-- The fourth word of an image. -/
def Queue.senderWord (q : Queue) : Nat := q.stail.toNat + 2 ^ 16 * q.sfree.toNat

/-- The queue whose image has these words, without a splice. -/
def queueOfWords (w c t cnt p g : Nat) : Queue :=
  { cfg := true, base := BitVec.ofNat 22 (w % 2 ^ 14 * 256), slotsz := BitVec.ofNat 8 (w / 2 ^ 18),
    log2n := BitVec.ofNat 4 (w / 2 ^ 26), rx := w.testBit 30, head := BitVec.ofNat 16 c, free := BitVec.ofNat 16 c,
    tail := BitVec.ofNat 16 (c / 2 ^ 16), pres := BitVec.ofNat 256 p, tags := BitVec.ofNat 1536 g, opn := c.testBit 40,
    okind := c.testBit 41, fill := BitVec.ofNat 8 (c / 2 ^ 32), spo := false, spi := false, ref := 0, sptgt := BitVec.ofNat 15 t,
    stail := BitVec.ofNat 16 cnt, sfree := BitVec.ofNat 16 (cnt / 2 ^ 16) }

/-- The presence bits of the slots from HEAD to TAIL. -/
def Queue.window (q : Queue) : BitVec 256 :=
  (List.range q.depth).foldl (fun m i => m ||| BitVec.twoPow 256 (q.slotOf (q.head + BitVec.ofNat 16 i))) (0 : BitVec 256)

theorem getLsbD_foldl_twoPow {w : Nat} (f : Nat → Nat) (l : List Nat) (m : BitVec w) (i : Nat) (hi : i < w) :
    (l.foldl (fun m k => m ||| BitVec.twoPow w (f k)) m).getLsbD i = (m.getLsbD i || l.any fun k => decide (i = f k)) := by
  induction l generalizing m with
  | nil => simp
  | cons k rest ih =>
    have hbit : (BitVec.twoPow w (f k)).getLsbD i = decide (i = f k) := by
      rw [BitVec.getLsbD_twoPow]
      by_cases h : i = f k
      · simp [← h, hi]
      · simp [h, Ne.symm h]
    rw [List.foldl_cons, ih, BitVec.getLsbD_or, hbit, List.any_cons, Bool.or_assoc]

theorem Queue.pres_inside {q : Queue}
    (h : ∀ i < 256, q.pres.getLsbD i = true → ∃ k < q.depth, i = q.slotOf (q.head + BitVec.ofNat 16 k)) :
    q.pres &&& ~~~q.window = 0 := by
  refine BitVec.eq_of_getLsbD_eq fun i hi => ?_
  have hwindow : q.pres.getLsbD i = true → q.window.getLsbD i = true := fun hp => by
    obtain ⟨k, hk, hi'⟩ := h i hi hp
    rw [Queue.window, getLsbD_foldl_twoPow _ _ _ _ hi, List.any_eq_true.2 ⟨k, List.mem_range.2 hk, decide_eq_true hi'⟩, Bool.or_true]
  rw [BitVec.getLsbD_and, BitVec.getLsbD_not, decide_eq_true hi, Bool.true_and]
  cases hp : q.pres.getLsbD i
  · simp
  · simp [hwindow hp]

/-- The fields of the first word, among them the reserved bits, which are 0. -/
theorem Queue.shapeWord_fields (q : Queue) : q.shapeWord % 2 ^ 14 = q.base.toNat / 256 ∧ q.shapeWord / 2 ^ 14 % 16 = 0
    ∧ q.shapeWord / 2 ^ 18 % 2 ^ 8 = q.slotsz.toNat ∧ q.shapeWord / 2 ^ 26 % 2 ^ 4 = q.log2n.toNat
    ∧ q.shapeWord / 2 ^ 30 % 2 = q.rx.toNat ∧ q.shapeWord / 2 ^ 31 % 2 = 1 ∧ q.shapeWord / 2 ^ 32 = 0 := by
  have hrx := q.rx.toNat_le
  rw [Queue.shapeWord, Queue.word, bit_eq_toNat_mul]
  omega

theorem Queue.counterWord_fields (q : Queue) : q.counterWord % 2 ^ 16 = q.head.toNat ∧ q.counterWord / 2 ^ 16 % 2 ^ 16 = q.tail.toNat
    ∧ q.counterWord / 2 ^ 32 % 2 ^ 8 = q.fill.toNat ∧ q.counterWord / 2 ^ 40 % 2 = q.opn.toNat
    ∧ q.counterWord / 2 ^ 41 % 2 = q.okind.toNat ∧ q.counterWord / 2 ^ 42 = 0 := by
  have hopn := q.opn.toNat_le
  have hkind := q.okind.toNat_le
  rw [Queue.counterWord, bit_eq_toNat_mul, bit_eq_toNat_mul]
  omega

theorem Queue.senderWord_fields (q : Queue) : q.senderWord % 2 ^ 16 = q.stail.toNat ∧ q.senderWord / 2 ^ 16 = q.sfree.toNat := by
  rw [Queue.senderWord]
  omega

/-- The words of a queue without a splice give back its fields. -/
theorem queueOfWords_image {q : Queue} (hcfg : q.cfg = true) (hbase : q.base.toNat % 256 = 0) (hfree : q.free = q.head)
    (hspo : q.spo = false) (hspi : q.spi = false) (href : q.ref = 0) :
    queueOfWords q.shapeWord q.counterWord q.sptgt.toNat q.senderWord q.pres.toNat q.tags.toNat = q := by
  obtain ⟨hbase256, -, hslotsz, hlog2n, hrx, -, -⟩ := q.shapeWord_fields
  obtain ⟨hhead, htail, hfill, hopn, hkind, -⟩ := q.counterWord_fields
  obtain ⟨hstail, hsfree⟩ := q.senderWord_fields
  have hb : BitVec.ofNat 22 (q.shapeWord % 2 ^ 14 * 256) = q.base := BitVec.eq_of_toNat_eq (by rw [BitVec.toNat_ofNat]; omega)
  have hh : BitVec.ofNat 16 q.counterWord = q.head := BitVec.eq_of_toNat_eq ((BitVec.toNat_ofNat ..).trans hhead)
  have hs : BitVec.ofNat 16 (q.senderWord / 2 ^ 16) = q.sfree := by rw [hsfree, BitVec.ofNat_toNat, BitVec.setWidth_eq]
  rw [queueOfWords, hb, hh, hs, testBit_of_div_mod hrx, testBit_of_div_mod hopn, testBit_of_div_mod hkind,
    BitVec.eq_of_toNat_eq ((BitVec.toNat_ofNat ..).trans hslotsz), BitVec.eq_of_toNat_eq ((BitVec.toNat_ofNat ..).trans hlog2n),
    BitVec.eq_of_toNat_eq ((BitVec.toNat_ofNat ..).trans htail), BitVec.eq_of_toNat_eq ((BitVec.toNat_ofNat ..).trans hfill),
    BitVec.eq_of_toNat_eq ((BitVec.toNat_ofNat ..).trans hstail)]
  simp only [BitVec.ofNat_toNat, BitVec.setWidth_eq]
  cases q
  dsimp only at hcfg hfree hspo hspi href ⊢
  rw [hcfg, hfree, hspo, hspi, href]

/-- An image is its four words, the presence bits and the tags. -/
theorem Queue.image_eq {q : Queue} (hcfg : q.cfg = true) (hspo : q.spo = false) (hspi : q.spi = false) (href : q.ref = 0) :
    q.image = leBytes q.shapeWord 8 ++ (leBytes q.counterWord 8 ++ (leBytes q.sptgt.toNat 8 ++ (leBytes q.senderWord 8
      ++ (leBytes q.pres.toNat 32 ++ leBytes q.tags.toNat 192)))) := by
  simp [Queue.image, hcfg, hspo, hspi, href, bit, le64, Queue.shapeWord, Queue.counterWord, Queue.senderWord]

theorem queueOfImage_of_words {b : List Byte} {w c t cnt p g : Nat} (hw : bitsAt b 0 0 64 = w) (hc : bitsAt b 8 0 64 = c)
    (ht : bitsAt b 16 0 64 = t) (hcnt : bitsAt b 24 0 64 = cnt) (hp : leNat ((b.drop 32).take 32) = p) (hg : leNat ((b.drop 64).take 192) = g)
    {q : Queue} (hq : queueOfWords w c t cnt p g = q) : queueOfImage b =
      if w / 2 ^ 32 ≠ 0 ∨ w / 2 ^ 14 % 16 ≠ 0 ∨ c / 2 ^ 47 ≠ 0 ∨ cnt / 2 ^ 32 ≠ 0 then none
      else if !w.testBit 31 then none
      else if 8 < q.log2n.toNat ∨ spmSize < q.base.toNat + q.slots * q.slotBytes then none
      else if c / 2 ^ 42 % 32 ≠ 0 then none
      else if q.slots < q.depth then none
      else if q.fill ≠ 0 ∧ !(q.opn && q.okind) then none
      else if q.pres &&& ~~~q.window ≠ 0 then none
      else some q := by
  subst hw hc ht hcnt hp hg hq
  rfl

/-- A field of an image, by the bytes before it. -/
theorem bitsAt_take_drop {pre post : List Byte} {w off : Nat} (hoff : pre.length = off) (hw : w < 2 ^ 64) :
    bitsAt (pre ++ (leBytes w 8 ++ post)) off 0 64 = w := by
  rw [bitsAt, leNat_take_drop hoff hw, Nat.pow_zero, Nat.div_one, Nat.mod_eq_of_lt hw]

theorem Queue.image_words {q : Queue} (hcfg : q.cfg = true) (hspo : q.spo = false) (hspi : q.spi = false) (href : q.ref = 0) :
    bitsAt q.image 0 0 64 = q.shapeWord ∧ bitsAt q.image 8 0 64 = q.counterWord ∧ bitsAt q.image 16 0 64 = q.sptgt.toNat
      ∧ bitsAt q.image 24 0 64 = q.senderWord := by
  obtain ⟨-, -, -, -, -, -, hshape⟩ := q.shapeWord_fields
  obtain ⟨-, -, -, -, -, hcounter⟩ := q.counterWord_fields
  obtain ⟨-, hsender⟩ := q.senderWord_fields
  rw [Queue.image_eq hcfg hspo hspi href]
  refine ⟨?_, ?_, ?_, ?_⟩
  · rw [← List.nil_append (leBytes q.shapeWord 8 ++ _)]
    exact bitsAt_take_drop rfl (by omega)
  · exact bitsAt_take_drop (leBytes_length _ _) (by omega)
  · rw [← List.append_assoc]
    exact bitsAt_take_drop (by simp) (by omega)
  · rw [← List.append_assoc, ← List.append_assoc]
    exact bitsAt_take_drop (by simp) (by omega)

theorem Queue.image_bits {q : Queue} (hcfg : q.cfg = true) (hspo : q.spo = false) (hspi : q.spi = false) (href : q.ref = 0) :
    leNat ((q.image.drop 32).take 32) = q.pres.toNat ∧ leNat ((q.image.drop 64).take 192) = q.tags.toNat := by
  rw [Queue.image_eq hcfg hspo hspi href, ← List.append_nil (leBytes q.tags.toNat 192), ← List.append_assoc, ← List.append_assoc,
    ← List.append_assoc]
  refine ⟨leNat_take_drop (by simp) (toNat_lt_pow_bytes (n := 32) q.pres), ?_⟩
  rw [← List.append_assoc]
  exact leNat_take_drop (by simp) (toNat_lt_pow_bytes (n := 192) q.tags)

/-- R173: the image of a queue without a splice, whose counters and presence agree, is read back. -/
theorem queueOfImage_image {q : Queue} (hcfg : q.cfg = true) (hlog : q.log2n.toNat ≤ 8) (hbase : q.base.toNat % 256 = 0)
    (hroom : q.base.toNat + q.slots * q.slotBytes ≤ 3145728) (hdepth : q.depth ≤ q.slots) (hfree : q.free = q.head)
    (hfill : q.fill = 0 ∨ (q.opn = true ∧ q.okind = true))
    (hpres : ∀ i < 256, q.pres.getLsbD i = true → ∃ k < q.depth, i = q.slotOf (q.head + BitVec.ofNat 16 k))
    (hspo : q.spo = false) (hspi : q.spi = false) (href : q.ref = 0) : queueOfImage q.image = some q := by
  obtain ⟨hw, hc, ht, hcnt⟩ := Queue.image_words hcfg hspo hspi href
  obtain ⟨hp, hg⟩ := Queue.image_bits hcfg hspo hspi href
  obtain ⟨-, hreserved, -, -, -, hset, hshape⟩ := q.shapeWord_fields
  obtain ⟨-, -, -, -, -, hcounter⟩ := q.counterWord_fields
  obtain ⟨-, hsender⟩ := q.senderWord_fields
  have hopen : ¬(q.fill ≠ 0 ∧ (!(q.opn && q.okind)) = true) := by
    rcases hfill with hzero | ⟨hopn, hkind⟩
    · simp [hzero]
    · simp [hopn, hkind]
  rw [queueOfImage_of_words hw hc ht hcnt hp hg (queueOfWords_image hcfg hbase hfree hspo hspi href), if_neg (by omega),
    testBit_of_div_mod (b := true) hset, if_neg nofun, if_neg (by unfold spmSize; omega), if_neg (by omega), if_neg (by omega),
    if_neg hopen, if_neg (not_not_intro (Queue.pres_inside hpres))]

end Sys2Proof.Machine
end

section
/-! SUPPORT. The instructions that control queues: splices asked for and ended, images and the status word (R161, R165, R172 to R174). -/
namespace Sys2Proof.Machine

/-! ### QSPL and QUNS (R161, R165, R172) -/

/-- A change of the context that leaves its unit. -/
theorem State.myUnit_onMe {s : State} (hk : s.iss.ctx < 4) (f : Ctx → Ctx) (hf : ∀ x, (f x).unit = x.unit) :
    (s.onMe f).myUnit = s.myUnit := by
  rw [State.myUnit, State.me_onMe s f hk, hf]
  rfl

/-- A queue that is empty, with no slot open and no splice: QSPL and QREST ask for one. -/
structure Queue.Idle (y : Queue) : Prop where
  spo : y.spo = false
  spi : y.spi = false
  opn : y.opn = false
  free : y.head = y.free
  empty : y.free = y.tail

/-- A context that asks for a splice of a queue. -/
def Ctx.askSplice (x : Ctx) (q : Nat) (w : Word) : Ctx := x.setQueue q { x.queue q with sptgt := w.setWidth 15, ref := 0 }

/-- The sender once it has asked for a splice. -/
def State.spliceAsked (s : State) (q : Nat) (w : Word) : State :=
  (s.onMe (·.askSplice q w)).onMyUnit fun x => { x with asking := x.asking ++ [q], deliveries := x.deliveries + 1 }

theorem State.me_spliceAsked {s : State} (hk : s.iss.ctx < 4) (q : Nat) (w : Word) :
    (s.spliceAsked q w).me = s.me.askSplice q w := by
  rw [State.spliceAsked, State.onMyUnit, State.me_onUnit, State.me_onMe s _ hk]

theorem State.myUnit_spliceAsked {s : State} (hk : s.iss.ctx < 4) (q : Nat) (w : Word) : (s.spliceAsked q w).myUnit = s.myUnit :=
  State.myUnit_onMe hk (·.askSplice q w) fun _ => rfl

theorem State.unit_spliceAsked {s : State} (hk : s.iss.ctx < 4) (q : Nat) (w : Word) {x : Unit} (hx : s.unit s.myUnit = some x) :
    (s.spliceAsked q w).unit s.myUnit = some { x with asking := x.asking ++ [q], deliveries := x.deliveries + 1 } := by
  rw [State.spliceAsked, State.onMyUnit, State.myUnit_onMe hk (·.askSplice q w) fun _ => rfl, State.unit_onUnit, State.unit_onMe, hx,
    Option.map_some]

/-- The request takes two core cycles or more to its target. -/
theorem State.mesh_spliceAsked {s : State} (hk : s.iss.ctx < 4) (q : Nat) (w : Word) (dst : Nat) (size : BitVec 8) :
    ∃ at_, s.now + 2 ≤ at_ ∧ (s.spliceAsked q w).mesh s.iss.core dst 0 (fun _ => false)
        (.spliceRequestArrive ⟨(s.spliceAsked q w).myUnit, q, s.iss.core⟩ w size)
      = { s.spliceAsked q w with
          free := s.free + 1, agenda := s.agenda ++ [(at_, .spliceRequestArrive ⟨s.myUnit, q, s.iss.core⟩ w size)] } := by
  rw [State.myUnit_spliceAsked hk]
  exact (s.spliceAsked q w).meshFrom_eq s.now s.iss.core dst 0 (fun _ => false) _

section
variable {s : State} (h : s.Calm)
include h

theorem exec_qspl (hk : s.iss.ctx < 4) {q : Fin 16} {a : Src} {w : Word} (ha : s.srcS a = .ok w)
    (hcfg : (s.iss.entry.queue q.val).cfg = true) (hidle : (s.iss.entry.queue q.val).Idle) :
    ∃ at_, s.now + 2 ≤ at_ ∧ exec (.qspl q a) s = .next ({ s.spliceAsked q.val w with
      free := s.free + 1
      agenda := s.agenda
        ++ [(at_, .spliceRequestArrive ⟨s.myUnit, q.val, s.iss.core⟩ w (s.iss.entry.queue q.val).slotsz)] } : State).slotEnd := by
  obtain ⟨at_, hat, hmesh⟩ := State.mesh_spliceAsked hk q.val w (w.toNat % 512) (s.iss.entry.queue q.val).slotsz
  refine ⟨at_, hat, slotOp_calm h ?_⟩
  simp only [ha, bind, Except.bind, hcfg, hidle.spo, hidle.spi, hidle.opn, hidle.free, hidle.empty, Bool.not_true, bne_self_eq_false,
    Bool.or_self, Bool.false_eq_true, if_false]
  exact congrArg Except.ok hmesh

theorem exec_quns_alone {q : Fin 16} (hspo : (s.iss.entry.queue q.val).spo = false)
    (halone : ∀ x, s.unit s.myUnit = some x → x.spliceOut = []) :
    exec (.quns q) s = .next (s.onMe fun x => x.setQueue q.val { x.queue q.val with spo := false, ref := 0 }).slotEnd := by
  have hout : ((s.unit s.myUnit).bind fun x => x.spliceOut.find? fun o => decide (o.1 = q.val)) = none := by
    rw [Option.bind_eq_none_iff]
    intro x hx
    rw [halone x hx, List.find?_nil]
  exact slotOp_calm h (by simp only [hspo, Bool.false_and, Bool.false_eq_true, if_false, hout])

end

/-! ### QSAVE, QREST and QSTAT (R173, R174) -/

theorem queueAddr_ok {a : Word} {imm : BitVec 13} {addr size : Nat} (haddr : (a.toNat : Int) + imm.toInt = addr)
    (halign : addr % size = 0) (hroom : addr + size ≤ 3145728) : queueAddr a imm size = .ok addr := by
  have hgood : ¬((addr : Int) < 0 ∨ (addr : Int) % size ≠ 0 ∨ (spmSize : Int) < addr + size) := by
    unfold spmSize; omega
  simp only [queueAddr, haddr, hgood, if_false, Int.toNat_natCast]

section
variable {s : State} {o : QMemOp} {a : Word} {addr : Nat} (h : s.Calm) (ha : s.srcS o.a = .ok a)
include h ha

theorem exec_qsave (haddr : queueAddr a o.imm 256 = .ok addr) (hcfg : (s.me.queue o.q.val).cfg = true)
    (hfree : (s.me.queue o.q.val).free = (s.me.queue o.q.val).head) :
    exec (.qsave o) s = .next (s.onMyCore fun x => x.storeBytes addr (s.me.queue o.q.val).image).slotEnd :=
  slotOp_calm h (by simp [ha, haddr, bind, Except.bind, hcfg, hfree, pure, Except.pure])

theorem exec_qstat (haddr : queueAddr a o.imm 8 = .ok addr) :
    exec (.qstat o) s = .next (s.onMyCore fun x => x.storeBytes addr (le64 (s.me.queue o.q.val).status)).slotEnd :=
  slotOp_calm h (by simp only [ha, haddr, bind, Except.bind, pure, Except.pure])

theorem exec_qrest {z : Queue} (haddr : queueAddr a o.imm 256 = .ok addr) (hidle : (s.iss.entry.queue o.q.val).Idle)
    (hsound : s.myCore.bad = []) (himage : queueOfImage (s.myCore.loadBytes addr 256) = some z) :
    exec (.qrest o) s = .next (s.onMe fun x => x.setQueue o.q.val z).slotEnd :=
  slotOp_calm h (by simp [ha, haddr, bind, Except.bind, hidle.spo, hidle.spi, hidle.opn, hidle.free, hidle.empty,
    Core.load_of_sound hsound, himage, pure, Except.pure])

end

/-- The unit that issues has its record. -/
theorem State.Seated.unit_myUnit {s : State} (hs : s.Seated) : ∃ x, s.unit s.myUnit = some x := by
  obtain ⟨-, -, u, x, hu, hx, -⟩ := hs
  exact ⟨x, by rw [State.myUnit, hu]; exact hx⟩

/-- Settles O34: each instruction by its checks; an image, word by word, by `queueOfImage_image`. -/
theorem queueControl : Obligations.QueueControl := by
  unfold Obligations.QueueControl
  refine ⟨fun s o a addr h hs ha haddr => ?instructions,
    fun q hcfg hlog hbase hroom hdepth hfree hfill hpres hspo hspi href =>
      queueOfImage_image hcfg hlog hbase hroom hdepth hfree hfill hpres hspo hspi href⟩
  case instructions =>
    have hk : s.iss.ctx < 4 := hs.2.1
    refine ⟨fun hcfg hspo hspi hopn hfree hempty => ?splice, fun hspo halone => exec_quns_alone h hspo halone,
      fun halign hroom hcfg hfree => exec_qsave h ha (queueAddr_ok haddr halign hroom) hcfg hfree,
      fun halign hroom => exec_qstat h ha (queueAddr_ok haddr halign hroom),
      fun halign hroom hfree hempty hspo hspi hopn hsound z hz =>
        exec_qrest h ha (queueAddr_ok haddr halign hroom) ⟨hspo, hspi, hopn, hfree, hempty⟩ hsound hz⟩
    case splice =>
      obtain ⟨x, hx⟩ := hs.unit_myUnit
      obtain ⟨at_, hat, hexec⟩ := exec_qspl h hk ha hcfg ⟨hspo, hspi, hopn, hfree, hempty⟩
      refine ⟨_, hexec, ?_, ⟨x, _, hx, State.unit_spliceAsked hk o.q.val a hx, rfl, rfl⟩, at_, rfl, hat⟩
      exact (congrArg (·.queue o.q.val) (State.me_spliceAsked hk o.q.val a)).trans (Ctx.queue_setQueue_same _ _ o.q.isLt)

end Sys2Proof.Machine
end

section
/-! SUPPORT. The scalar operations on registers and immediates, each by what its shared body does with the sources it reads (R176 to R180),
and the software traps (R201). -/
namespace Sys2Proof.Machine

/-! ### The shared bodies -/

section
variable {s : State} {a b : Word} (h : s.Calm)
include h

/-- A register-register operation puts its function of the two sources in flight. -/
theorem slotOp_bodySR {o : SR3} {f : Word → Word → Word} {lat : Nat} {w : Word} (ha : s.srcS o.a = .ok a) (hb : s.srcS o.b = .ok b)
    (hw : f a b = w) : slotOp false (bodySR f lat o) s = .next (s.writeS o.d o.nw w lat).slotEnd :=
  slotOp_calm h (by simp only [bodySR, ha, hb, hw, bind, Except.bind, pure, Except.pure])

theorem slotOp_bodySR1 {o : SR2} {f : Word → Word} {w : Word} (ha : s.srcS o.a = .ok a) (hw : f a = w) :
    slotOp false (bodySR1 f o) s = .next (s.writeS o.d o.nw w 1).slotEnd :=
  slotOp_calm h (by simp only [bodySR1, ha, hw, bind, Except.bind, pure, Except.pure])

theorem slotOp_bodySI {o : SImm} {f : Word → Word → Word} {w : Word} (ha : s.srcS o.a = .ok a) (hw : f a (o.imm.signExtend 64) = w) :
    slotOp false (bodySI f o) s = .next (s.writeS o.d o.nw w 1).slotEnd :=
  slotOp_calm h (by simp only [bodySI, sext14, ha, hw, bind, Except.bind, pure, Except.pure])

theorem slotOp_bodySh {o : SSh} {f : Word → Nat → Word} (ha : s.srcS o.a = .ok a) :
    slotOp false (bodySh f o) s = .next (s.writeS o.d o.nw (f a o.sh.toNat) 1).slotEnd :=
  slotOp_calm h (by simp only [bodySh, ha, bind, Except.bind, pure, Except.pure])

end

/-! ### Values of the integer operations (R176) -/

theorem b2w_decide (p : Prop) [Decidable p] : b2w (decide p) = if p then 1 else 0 := by simp only [b2w, decide_eq_true_eq]

theorem b2w_beq (a b : Word) : b2w (a == b) = if a = b then 1 else 0 := by simp only [b2w, beq_iff_eq]

theorem b2w_bne (a b : Word) : b2w (a != b) = if a = b then 0 else 1 := by simp only [b2w, bne_iff_ne, ne_eq, ite_not]

section
variable (a b : Word)

theorem lesser_signed : (if a.toInt ≤ b.toInt then a else b) = BitVec.ofInt 64 (min a.toInt b.toInt) := by
  rw [min_def, apply_ite (BitVec.ofInt 64), BitVec.ofInt_toInt, BitVec.ofInt_toInt]

theorem greater_signed : (if a.toInt ≤ b.toInt then b else a) = BitVec.ofInt 64 (max a.toInt b.toInt) := by
  rw [max_def, apply_ite (BitVec.ofInt 64), BitVec.ofInt_toInt, BitVec.ofInt_toInt]

theorem lesser_natural : (if a ≤ b then a else b) = BitVec.ofNat 64 (min a.toNat b.toNat) := by
  simp only [min_def, BitVec.le_def, apply_ite (BitVec.ofNat 64), BitVec.ofNat_toNat, BitVec.setWidth_eq]

theorem greater_natural : (if a ≤ b then b else a) = BitVec.ofNat 64 (max a.toNat b.toNat) := by
  simp only [max_def, BitVec.le_def, apply_ite (BitVec.ofNat 64), BitVec.ofNat_toNat, BitVec.setWidth_eq]

end

/-- Settles O1: each operation is the shared register-register body with its function. -/
theorem integerResults : Obligations.IntegerResults := by
  unfold Obligations.IntegerResults
  refine ⟨fun s o a b h ha hb => ?arithmetic, fun s o a b h ha hb => ?order⟩
  case arithmetic => and_intros <;> exact slotOp_bodySR h ha hb rfl
  case order =>
    exact ⟨slotOp_bodySR h ha hb (lesser_signed a b), slotOp_bodySR h ha hb (greater_signed a b),
      slotOp_bodySR h ha hb (lesser_natural a b), slotOp_bodySR h ha hb (greater_natural a b),
      slotOp_bodySR h ha hb (b2w_beq a b), slotOp_bodySR h ha hb (b2w_bne a b),
      slotOp_bodySR h ha hb (b2w_decide _), slotOp_bodySR h ha hb (b2w_decide _),
      slotOp_bodySR h ha hb (b2w_decide _), slotOp_bodySR h ha hb (b2w_decide _)⟩

/-! ### Immediates and constants (R179, R180) -/

/-- The low chunk of a sign-extended constant is the constant. -/
theorem low_signExtend {n : Nat} (x : BitVec n) (hn : n ≤ 64) : (x.signExtend 64).extractLsb' 0 n = x := by
  ext i hi
  simp only [BitVec.getElem_extractLsb', Nat.zero_add, BitVec.getLsbD_signExtend, hi, if_true, BitVec.getLsbD_eq_getElem,
    Bool.and_eq_right_iff_imp, decide_eq_true_eq]
  omega

section
variable {s : State} (h : s.Calm) (o : SLong)
include h

theorem exec_li : exec (.li o) s = .next (s.writeS o.d o.nw (o.imm.signExtend 64) 1).slotEnd := slotOp_calm h rfl

theorem exec_lim : exec (.lim o) s
    = .next (s.writeS o.d o.nw ((o.imm ++ (s.regS o.d.val).extractLsb' 0 20 : BitVec 40).signExtend 64) 1).slotEnd :=
  slotOp_calm h rfl

theorem exec_lit : exec (.lit o) s
    = .next (s.writeS o.d o.nw ((o.imm ++ (s.regS o.d.val).extractLsb' 0 40 : BitVec 60).signExtend 64) 1).slotEnd :=
  slotOp_calm h rfl

end

/-- Settles O3: the immediate operations are two shared bodies with their functions; LIM and LIT keep the low chunks of what they read. -/
theorem immediateResults : Obligations.ImmediateResults := by
  unfold Obligations.ImmediateResults
  refine ⟨fun s o h a hs ha hha hd hnw => ?immediates, fun s t u o p q hs ht hu hp hq => ?constants⟩
  case immediates =>
    have hshift : ∀ f : Word → Nat → Word, slotOp false (bodySh f h) s = .next (s.writeS o.d o.nw (f a h.sh.toNat) 1).slotEnd := by
      intro f
      rw [slotOp_bodySh hs (by rw [hha, ha]), hd, hnw]
    exact ⟨slotOp_bodySI hs ha rfl, slotOp_bodySI hs ha rfl, slotOp_bodySI hs ha rfl, slotOp_bodySI hs ha rfl,
      slotOp_bodySI hs ha (b2w_decide _), slotOp_bodySI hs ha (b2w_decide _), hshift _, hshift _, hshift _⟩
  case constants =>
    refine ⟨_, _, _, exec_li hs o, exec_lim ht p, exec_lit hu q, rfl, fun hx => ?_, fun hx hy => ?_⟩
    · rw [hp, hx, low_signExtend _ (by decide)]
    · rw [hq, hy, hp, hx, low_signExtend _ (by decide), low_signExtend _ (by decide)]

/-! ### Software traps (R201) -/

/-- Settles O12: the condition carries the source, and BRK's carries 0. -/
theorem softwareTraps : Obligations.SoftwareTraps := by
  unfold Obligations.SoftwareTraps
  intro s a x h ha
  exact ⟨slotOp_fault h (by rw [ha]; rfl), slotOp_fault h (by rw [ha]; rfl), slotOp_fault h rfl⟩

end Sys2Proof.Machine
end

section
/-! SUPPORT. Bit counts and bit fields by their bits (R176, R177), and a field read as an integer. -/
namespace Sys2Proof.Machine

/-! ### Bit counts (R176) -/

/-- The bits of a word above the highest one that is set are clear. -/
theorem clzWord_spec (a : Word) : clzWord a ≤ 64 ∧ (∀ i < clzWord a, a.getLsbD (63 - i) = false)
    ∧ (clzWord a < 64 → a.getLsbD (63 - clzWord a) = true) := by
  unfold clzWord
  split
  case isTrue h0 => exact ⟨Nat.le_refl 64, fun i _ => h0 ▸ BitVec.getLsbD_zero, fun h => absurd h (Nat.lt_irrefl 64)⟩
  case isFalse h0 =>
    have hne : a.toNat ≠ 0 := fun h => h0 (BitVec.eq_of_toNat_eq h)
    have hlog : a.toNat.log2 < 64 := (Nat.log2_lt hne).2 a.isLt
    refine ⟨by omega, fun i hi => ?_, fun _ => ?_⟩
    · exact Nat.testBit_lt_two_pow ((Nat.log2_lt hne).1 (by omega))
    · rw [Nat.sub_sub_self (by omega)]
      exact Nat.testBit_log2 hne

theorem ctzWord_spec (a : Word) : ctzWord a ≤ 64 ∧ (∀ i < ctzWord a, a.getLsbD i = false)
    ∧ (ctzWord a < 64 → a.getLsbD (ctzWord a) = true) := by
  unfold ctzWord
  cases hfound : (List.range 64).find? (fun i => a.getLsbD i) with
  | none =>
    have hclear := List.find?_range_eq_none.1 hfound
    exact ⟨Nat.le_refl 64, fun i hi => by simpa using hclear i hi, fun h => absurd h (Nat.lt_irrefl 64)⟩
  | some n =>
    obtain ⟨hset, hn, hclear⟩ := List.find?_range_eq_some.1 hfound
    exact ⟨(List.mem_range.1 hn).le, fun i hi => by simpa using hclear i hi, fun _ => hset⟩

/-! ### Bit fields (R177) -/

/-- A field read as an integer and kept as a word: its bits with copies of the sign, or with zeros, above them. -/
theorem word64_readInt {n : Nat} (signed : Bool) (v : Nat) (hn : 0 < n) : word64 (readInt signed n v)
    = if signed then (BitVec.ofNat n v).signExtend 64 else (BitVec.ofNat n v).setWidth 64 := by
  cases signed with
  | false =>
    have hnat : readInt false n v = ((v % 2 ^ n : Nat) : Int) := by simp [readInt]
    rw [hnat, word64, BitVec.ofInt_natCast]
    exact BitVec.eq_of_toNat_eq (by simp)
  | true =>
    have hhalf : 2 ^ n = 2 * 2 ^ (n - 1) := by rw [← Nat.pow_succ', Nat.succ_eq_add_one, Nat.sub_add_cancel hn]
    have hint : readInt true n v = (BitVec.ofNat n v).toInt := by
      have hcast : (2 : Int) ^ n = ((2 ^ n : Nat) : Int) := by push_cast; rfl
      simp only [readInt, true_and, BitVec.toInt_eq_toNat_cond, BitVec.toNat_ofNat, hcast]
      split <;> split <;> omega
    rw [hint]
    rfl

section
variable (a b old : Word) {i : Nat}

theorem fieldOf_testBit : (fieldOf a b).testBit i = (decide (i < fieldWidth b) && a.getLsbD (fieldPos b + i)) := by
  rw [fieldOf, Nat.testBit_mod_two_pow, Nat.testBit_div_two_pow, Nat.add_comm i]
  rfl

theorem bfxnWord_bit (hi : i < 64) : (bfxnWord a b).getLsbD i = (decide (i < fieldWidth b) && a.getLsbD (fieldPos b + i)) := by
  rw [bfxnWord, BitVec.getLsbD_ofNat, fieldOf_testBit, decide_eq_true hi, Bool.true_and]

theorem bfxWord_bit (hi : i < 64) :
    (bfxWord a b).getLsbD i = (decide (0 < fieldWidth b) && a.getLsbD (fieldPos b + min i (fieldWidth b - 1))) := by
  rcases Nat.eq_zero_or_pos (fieldWidth b) with h0 | hpos
  · simp [bfxWord, h0]
  · have hbit : ∀ j, (BitVec.ofNat (fieldWidth b) (fieldOf a b)).getLsbD j = (decide (j < fieldWidth b) && a.getLsbD (fieldPos b + j)) := by
      intro j
      rw [BitVec.getLsbD_ofNat, fieldOf_testBit, ← Bool.and_assoc, Bool.and_self]
    rw [bfxWord, if_neg hpos.ne', word64_readInt true _ hpos, if_pos rfl, BitVec.getLsbD_signExtend, BitVec.msb_eq_getLsbD_last, hbit, hbit]
    by_cases hin : i < fieldWidth b
    · simp [hi, hin, hpos, Nat.min_eq_left (Nat.le_sub_one_of_lt hin)]
    · simp [hi, hin, hpos, Nat.min_eq_right (show fieldWidth b - 1 ≤ i by omega)]

theorem bfiWord_bit (hi : i < 64) : (bfiWord old a b).getLsbD i
    = if fieldPos b ≤ i ∧ i < fieldPos b + fieldWidth b then a.getLsbD (i - fieldPos b) else old.getLsbD i := by
  have hmask : (BitVec.ofNat 64 ((2 ^ fieldWidth b - 1) * 2 ^ fieldPos b)).getLsbD i
      = decide (fieldPos b ≤ i ∧ i < fieldPos b + fieldWidth b) := by
    rw [BitVec.getLsbD_ofNat, Nat.testBit_mul_two_pow, Nat.testBit_two_pow_sub_one, Bool.eq_iff_iff]
    simp only [hi, decide_true, Bool.true_and, Bool.and_eq_true, decide_eq_true_eq]
    omega
  simp only [bfiWord, BitVec.getLsbD_or, BitVec.getLsbD_and, BitVec.getLsbD_not, BitVec.getLsbD_shiftLeft, hmask, hi, decide_true, Bool.true_and]
  by_cases hin : fieldPos b ≤ i ∧ i < fieldPos b + fieldWidth b
  · simp [hin, Nat.not_lt.2 hin.1]
  · simp [hin]

end

/-- Settles O2: each count by the bits that determine it, each field operation bit by bit. -/
theorem bitResults : Obligations.BitResults := by
  unfold Obligations.BitResults
  refine ⟨fun s o a h ha => ?counts, fun s o a b h ha hb => ?fields⟩
  case counts =>
    obtain ⟨hclz, hleading⟩ := clzWord_spec a
    obtain ⟨hctz, htrailing⟩ := ctzWord_spec a
    refine ⟨⟨clzWord a, hclz, ?_, hleading⟩, ⟨ctzWord a, hctz, ?_, htrailing⟩, ?_⟩
    · exact slotOp_bodySR1 h ha rfl
    · exact slotOp_bodySR1 h ha rfl
    · exact slotOp_bodySR1 h ha (congrArg (BitVec.ofNat 64) List.countP_eq_length_filter.symm)
  case fields =>
    refine ⟨bfxnWord a b, bfxWord a b, bfiWord (s.regS o.d.val) a b, ?_, ?_, ?_,
      fun i hi => ⟨bfxnWord_bit a b hi, bfxWord_bit a b hi, bfiWord_bit a b _ hi⟩⟩
    · exact slotOp_bodySR h ha hb rfl
    · exact slotOp_bodySR h ha hb rfl
    · exact slotOp_calm h (by rw [bodySR, ha, hb]; rfl)

end Sys2Proof.Machine
end

section
/-! SUPPORT. Multiplications (R178): their halves of the product, and their words. -/
namespace Sys2Proof.Machine

/-- What the encoder writes for an S-slot instruction is decoded to it. -/
theorem decodeS_of_encodeS {i : Instr} {w : BitVec 32} (hw : i.wf = true) (he : encodeS i = some w) : decodeS w = .op i := by
  have h := Laws.RoundTrip.statement_holds i hw .s0 w.toNat (by rw [encodeIn, he]; rfl)
  rwa [decodeSyllable, BitVec.ofNat_toNat, BitVec.setWidth_eq] at h

/-- Settles O53: the products by the shared register-register body, the words by the round trip of the syllables, the other codes by
the unassigned codes of the group. -/
theorem multiplications : Obligations.Multiplications := by
  unfold Obligations.Multiplications
  refine ⟨fun s o a b h ha hb => ⟨?_, ?_, ?_⟩, fun o => ⟨?_, ?_, ?_⟩, fun s p last d nw a b fn hfn hslot hsyl => ?unassigned⟩
  · exact slotOp_bodySR h ha hb (BitVec.eq_of_toNat_eq (by simp))
  · exact slotOp_bodySR h ha hb rfl
  · exact slotOp_bodySR h ha hb rfl
  · exact decodeS_of_encodeS rfl rfl
  · exact decodeS_of_encodeS rfl rfl
  · exact decodeS_of_encodeS rfl rfl
  case unassigned =>
    have hnone : p.syl = .unassigned := by
      rw [hsyl, decodeS, confirm_eq_unassigned, parseS_eq_unassigned, opOf_SR, fnOf_SR]
      simp [hfn]
    simp only [State.slotPerforms, hnone]
    rcases hslot with h | h <;> rw [h] <;> rfl

end Sys2Proof.Machine
end

section
/-! SUPPORT. The local accesses and the frames of a stack (R185, R195, R196): the address that each one checks, and what it then loads or
stores. -/
namespace Sys2Proof.Machine

/-! ### Local loads and stores (R185) -/

theorem checkLocal_outside {addr : Int} (size : Nat) (h : addr < 0 ∨ 3145728 ≤ addr) : checkLocal addr size = .error (scratchpadRange 1) :=
  if_pos h

theorem checkLocal_misaligned {addr : Int} {size : Nat} (h0 : 0 ≤ addr) (hlt : addr < 3145728) (hmis : addr.toNat % size ≠ 0) :
    checkLocal addr size = .error (misalignedAccess 1) := by
  have hin : ¬(addr < 0 ∨ (spmSize : Int) ≤ addr) := by unfold spmSize; omega
  rw [checkLocal, if_neg hin, if_pos hmis]

theorem checkLocal_ok {addr size : Nat} (hlt : addr < 3145728) (halign : addr % size = 0) : checkLocal addr size = .ok addr := by
  have hin : ¬((addr : Int) < 0 ∨ (spmSize : Int) ≤ addr) := by unfold spmSize; omega
  rw [checkLocal, if_neg hin, Int.toNat_natCast, if_neg (not_not_intro halign)]

/-- A direct load of bytes none of which holds an uncorrectable error (R374). -/
theorem Core.load_of_good {x : Core} {a n : Nat} (h : ∀ y ∈ x.bad, y < a ∨ a + n ≤ y) (origin : Nat) :
    x.load origin a n = .ok (x.loadBytes a n) := by
  have hgood : (x.bad.any fun y => decide (a ≤ y) && decide (y < a + n)) = false := by
    refine List.any_eq_false.2 fun y hy => ?_
    have := h y hy
    simp only [Bool.and_eq_true, decide_eq_true_eq]
    omega
  rw [Core.load, hgood]
  rfl

section
variable {s : State} {a : Word} {size : Nat} {c : Cond} (h : s.Calm)
include h

/-- A local load of `size` bytes, as signed or as natural. -/
theorem slotOp_bodyLoad {o : SImm} {addr : Nat} (signed : Bool) (ha : s.srcS o.a = .ok a) (haddr : (a.toNat : Int) + o.imm.toInt = addr)
    (hsize : 0 < size) (hlt : addr < 3145728) (halign : addr % size = 0) (hgood : ∀ y ∈ s.myCore.bad, y < addr ∨ addr + size ≤ y) :
    slotOp false (bodyLoad size signed o) s = .next (s.writeS o.d o.nw
      (let raw := BitVec.ofNat (8 * size) (leNat (s.myCore.loadBytes addr size))
       if signed then raw.signExtend 64 else raw.setWidth 64) 6).slotEnd := by
  refine slotOp_calm h ?_
  simp only [bodyLoad, localAddr, ha, haddr, checkLocal_ok hlt halign, Core.load_of_good hgood, word64_readInt (n := 8 * size) signed _ (Nat.mul_pos (by decide) hsize),
    bind, Except.bind, pure, Except.pure]

theorem slotOp_bodyStore {o : SSt} {addr : Nat} (ha : s.srcS o.a = .ok a) (haddr : (a.toNat : Int) + o.imm.toInt = addr)
    (hlt : addr < 3145728) (halign : addr % size = 0) : slotOp true (bodyStore size o) s
      = .next (s.onMyCore fun x => x.storeBytes addr (leBytes (s.regS o.d.val).toNat size)).slotEnd := by
  refine slotOp_calm h ?_
  simp only [bodyStore, localAddr, ha, haddr, checkLocal_ok hlt halign, bind, Except.bind, pure, Except.pure]

/-- A local load whose address fails its check raises the condition of the check. -/
theorem slotOp_bodyLoad_fault {o : SImm} (signed : Bool) (ha : s.srcS o.a = .ok a) (hc : checkLocal (localAddr a o.imm) size = .error c) :
    slotOp false (bodyLoad size signed o) s = .next (s.slotFault c) :=
  slotOp_fault h (by simp only [bodyLoad, ha, hc, bind, Except.bind])

theorem slotOp_bodyStore_fault {o : SSt} (ha : s.srcS o.a = .ok a) (hc : checkLocal (localAddr a o.imm) size = .error c) :
    slotOp true (bodyStore size o) s = .next (s.slotFault c) :=
  slotOp_fault h (by simp only [bodyStore, ha, hc, bind, Except.bind])

/-- Every local access whose address fails its check raises the condition of the check. -/
theorem exec_local_fault {o : SImm} {w : SSt} (ha : s.srcS o.a = .ok a) (hwa : w.a = o.a) (hwi : w.imm = o.imm) :
    ∀ f ∈ [(Instr.ldLI8 o, 1), (.ldLN8 o, 1), (.ldLI16 o, 2), (.ldLN16 o, 2), (.ldLI32 o, 4), (.ldLN32 o, 4), (.ldLD o, 8),
      (.stLB w, 1), (.stLH w, 2), (.stLW w, 4), (.stLD w, 8)],
      checkLocal (localAddr a o.imm) f.2 = .error c → exec f.1 s = .next (s.slotFault c) := by
  have hload : ∀ size signed, checkLocal (localAddr a o.imm) size = .error c →
      slotOp false (bodyLoad size signed o) s = .next (s.slotFault c) := fun _ signed => slotOp_bodyLoad_fault h signed ha
  have hstore : ∀ size, checkLocal (localAddr a o.imm) size = .error c → slotOp true (bodyStore size w) s = .next (s.slotFault c) :=
    fun _ hc => slotOp_bodyStore_fault h (hwa ▸ ha) (hwi ▸ hc)
  simp only [List.forall_mem_cons]
  exact ⟨hload 1 true, hload 1 false, hload 2 true, hload 2 false, hload 4 true, hload 4 false, hload 8 false, hstore 1, hstore 2, hstore 4,
    hstore 8, fun _ hf => nomatch hf⟩

end

/-- Settles O5: the loads and the stores are two shared bodies, of four sizes, behind one check of the address. -/
theorem localAccessResults : Obligations.LocalAccessResults := by
  unfold Obligations.LocalAccessResults
  refine ⟨fun s o a addr h ha haddr hlt => ?loads, fun s o w a h ha hwa hwi => ?faults, fun s o a addr h ha haddr hlt => ?stores⟩
  case loads =>
    have hload := fun size signed hsize => slotOp_bodyLoad (size := size) h signed ha haddr hsize hlt
    simp only [List.forall_mem_cons]
    exact ⟨hload 1 true (by decide), hload 1 false (by decide), hload 2 true (by decide), hload 2 false (by decide), hload 4 true (by decide),
      hload 4 false (by decide), hload 8 false (by decide), fun _ hf => nomatch hf⟩
  case faults =>
    intro addr f hf
    have hfault := fun c => exec_local_fault (c := c) h ha hwa hwi f hf
    exact ⟨fun hout => hfault _ (checkLocal_outside f.2 hout), fun h0 hlt hmis => hfault _ (checkLocal_misaligned h0 hlt hmis)⟩
  case stores =>
    have hstore := fun size => slotOp_bodyStore (size := size) h ha haddr hlt
    simp only [List.forall_mem_cons]
    exact ⟨hstore 1, hstore 2, hstore 4, hstore 8, fun _ hf => nomatch hf⟩

/-! ### Frames (R195, R196) -/

theorem frameRange_ok {a : Word} (halign : a.toNat % 8 = 0) (hlow : 16 ≤ a.toNat) (hhigh : a.toNat ≤ 3145728) : frameRange.{0} a = .ok ⟨⟩ := by
  have hin : ¬(spmSize < a.toNat ∨ a.toNat < 16) := by unfold spmSize; omega
  rw [frameRange, if_neg (not_not_intro halign), if_neg hin]

section
variable {s : State} (h : s.Calm)
include h

theorem exec_enter {imm : BitVec 14} (hframe : frameRange.{0} (s.regS 30) = .ok ⟨⟩)
    (hroom : s.iss.entry.csr.stklim.toNat + imm.toNat * 256 ≤ (s.regS 30).toNat) :
    exec (.enter imm) s = .next (((s.onMyCore fun x =>
      (x.storeBytes ((s.regS 30).toNat - 8) (leBytes (s.regS 28).toNat 8)).storeBytes ((s.regS 30).toNat - 16)
        (leBytes (s.regS 31).toNat 8)).writeNoLatch .s 28 ((s.regS 30).setWidth 2048) 1).writeNoLatch .s 30
        ((s.regS 30 - BitVec.ofNat 64 (imm.toNat * 256)).setWidth 2048) 1).slotEnd := by
  have hstack : ¬(((s.regS 30).toNat : Int) - ↑(imm.toNat * 256) < s.iss.entry.csr.stklim.toNat) := by omega
  exact slotOp_calm h (by simp only [hstack, if_false, hframe, bind, Except.bind, pure, Except.pure])

theorem exec_enter_limit {imm : BitVec 14} (hlimit : (s.regS 30).toNat < s.iss.entry.csr.stklim.toNat + imm.toNat * 256) :
    exec (.enter imm) s = .next (s.slotFault stackLimit) := by
  have hstack : ((s.regS 30).toNat : Int) - ↑(imm.toNat * 256) < s.iss.entry.csr.stklim.toNat := by omega
  exact slotOp_fault h (if_pos hstack)

theorem exec_leave (hframe : frameRange.{0} (s.regS 28) = .ok ⟨⟩) (hsound : s.myCore.bad = []) :
    exec .leave s = .next (((s.writeNoLatch .s 31 (bytesV (s.myCore.loadBytes ((s.regS 28).toNat - 16) 8)) 6).writeNoLatch .s 28
      (bytesV (s.myCore.loadBytes ((s.regS 28).toNat - 8) 8)) 6).writeNoLatch .s 30 ((s.regS 28).setWidth 2048) 6).slotEnd :=
  slotOp_calm h (by simp only [hframe, Core.load_of_sound hsound, bind, Except.bind, pure, Except.pure])

end

/-- Settles O7: the frame pointer or the stack pointer passes the check of the frame. -/
theorem frameResults : Obligations.FrameResults := by
  unfold Obligations.FrameResults
  exact ⟨fun s imm h halign hlow hhigh hroom => exec_enter h (frameRange_ok halign hlow hhigh) hroom,
    fun s imm h hlimit => exec_enter_limit h hlimit,
    fun s h hsound halign hlow hhigh => exec_leave h (frameRange_ok halign hlow hhigh) hsound⟩

end Sys2Proof.Machine
end

section
/-! SUPPORT. Branches, hardware loops and the special registers (R187 to R192, R197 to R199). -/
namespace Sys2Proof.Machine

/-! ### Conditions of branches (R188, R189) -/

theorem bne_eq_decide_ne {n : Nat} (x y : BitVec n) : (x != y) = decide (x ≠ y) := (decide_not (p := x = y)).symm

section
variable {s : State} {a b : Src} {x y : Word} (h : s.Calm)
include h

theorem exec_bcz (cc : CondZ) (disp : BitVec 16) (ha : s.srcS a = .ok x) :
    exec (.bcz cc a disp) s = .next (if condZ cc x then s.take ⟨s.target disp.toInt, none⟩ else s).slotEnd :=
  slotOp_calm h (by rw [ha]; rfl)

theorem exec_bc (cc : CondB) (disp : BitVec 11) (ha : s.srcS a = .ok x) (hb : s.srcS b = .ok y) :
    exec (.bc cc a b disp) s = .next (if condB cc x y then s.take ⟨s.target disp.toInt, none⟩ else s).slotEnd :=
  slotOp_calm h (by rw [ha, hb]; rfl)

theorem exec_bp (p : Fin 16) (t : PTest) (disp : BitVec 16) :
    exec (.bp p t disp) s = .next (if predTest t (s.guard p) then s.take ⟨s.target disp.toInt, none⟩ else s).slotEnd :=
  slotOp_calm h rfl

end

/-- Settles O8: each branch takes its target when its condition holds of the sources it reads. -/
theorem branchResults : Obligations.BranchResults := by
  unfold Obligations.BranchResults
  intro s a b x y h ha hb go
  refine ⟨fun cc disp => ?_, fun cc disp => ?_, fun p t disp => ?_, fun disp => slotOp_calm h rfl, fun d disp => slotOp_calm h rfl,
    slotOp_calm h (by rw [ha]; rfl), fun d => slotOp_calm h (by rw [ha]; rfl)⟩
  · rw [exec_bcz h cc disp ha]
    cases cc with
    | ne => rw [condZ, bne_eq_decide_ne]; rfl
    | _ => rfl
  · rw [exec_bc h cc disp ha hb]
    cases cc with
    | ne => rw [condB, bne_eq_decide_ne]; rfl
    | _ => rfl
  · rw [exec_bp h p t disp]
    cases t with
    | any | nall => rw [predTest, bne_eq_decide_ne]; rfl
    | _ => rfl

/-! ### Hardware loops (R191, R192) -/

section
variable {s : State} {n : Nat} {count : Word} {disp : Int}

theorem bodyLoop_runs (hcount : count ≠ 0) : bodyLoop n count disp s
    = .ok (s.putLoop ⟨n, seqPc s.iss.pc s.iss.len, s.target disp, count⟩) := if_neg hcount

/-- A loop with no passes branches past the bundle at its end. -/
theorem bodyLoop_skips {len : Nat} (hlen : s.lengthAt (s.target disp) = .ok len) : bodyLoop n 0 disp s
    = .ok ((s.putLoop ⟨n, seqPc s.iss.pc s.iss.len, s.target disp, 0⟩).take ⟨seqPc (s.target disp) len, none⟩) := by
  have hput : (s.putLoop ⟨n, seqPc s.iss.pc s.iss.len, s.target disp, 0⟩).lengthAt (s.target disp) = .ok len := hlen
  simp only [bodyLoop, if_true, hput, bind, Except.bind, pure, Except.pure]

end

/-- Settles O9: LOOP reads its count from a register and LOOPI from its word. -/
theorem loopResults : Obligations.LoopResults := by
  unfold Obligations.LoopResults
  intro s n a count h ha
  refine ⟨fun disp hcount => ?_, fun cnt disp hcount => ?_, fun disp len hcount hlen => ?_,
    fun disp len hlen => slotOp_calm h (bodyLoop_skips hlen)⟩
  · exact slotOp_calm h (by rw [ha]; exact bodyLoop_runs hcount)
  · have hwide : cnt.setWidth 64 ≠ 0 := by bv_omega
    exact slotOp_calm h (bodyLoop_runs hwide)
  · exact slotOp_calm h (by rw [ha, hcount]; exact bodyLoop_skips hlen)

/-! ### Special registers (R197 to R199) -/

/-- The CSRs that a context may write, by number, with their values at bundle entry (R198). -/
def State.writableCsrs (s : State) : List (Nat × Word) :=
  let c := s.iss.entry.csr
  [(0x000, c.fpflags), (0x001, c.srstate), (0x002, c.pfthresh), (0x003, c.stklim),
    (0x008, c.loopst), (0x009, c.ls0), (0x00A, c.le0), (0x00B, c.lc0), (0x00C, c.ls1), (0x00D, c.le1), (0x00E, c.lc1),
    (0x016, c.pairwin), (0x020, c.cause), (0x021, c.trappc), (0x022, c.donemask), (0x023, c.badslots), (0x024, c.tvec),
    (0x026, c.tval)]

/-- The CSRs that a context only reads (R198). -/
def State.readOnlyCsrs (s : State) : List (Nat × Word) :=
  let c := s.iss.entry.csr
  [(0x010, c.asidcur), (0x011, c.uweight), (0x012, c.slice), (0x013, c.ytol),
    (0x014, c.leasebudget), (0x015, c.dpmax), (0x017, c.unitid), (0x018, BitVec.ofNat 64 (4 * s.iss.core + s.iss.ctx)),
    (0x019, BitVec.ofNat 64 s.iss.entry.cc), (0x01A, BitVec.ofNat 64 s.now), (0x025, c.badaddr), (0x030, c.tlLsu), (0x031, c.tlCpy),
    (0x032, c.tlMat), (0x033, c.tlDda), (0x034, c.tlCol)]

theorem csrAtEntry_listed (s : State) : ∀ r ∈ s.writableCsrs ++ s.readOnlyCsrs, s.csrAtEntry r.1 = .ok r.2 := by
  simp only [State.writableCsrs, State.readOnlyCsrs, List.cons_append, List.nil_append, List.forall_mem_cons, List.not_mem_nil,
    IsEmpty.forall_iff, implies_true, and_true]
  and_intros <;> rfl

theorem csrAtEntry_unlisted (s : State) {n : Nat} (h : n ∉ (s.writableCsrs ++ s.readOnlyCsrs).map (·.1)) :
    s.csrAtEntry n = .error csrAccess := by
  have hnone : csrRead s.iss.entry (ctxNumber s.iss.core s.iss.ctx) s.now n = none := by
    unfold csrRead
    split
    case h_35 => rfl
    all_goals simp [State.writableCsrs, State.readOnlyCsrs] at h
  rw [State.csrAtEntry, hnone]

theorem csrWrite_listed (s : State) : ∀ r ∈ s.writableCsrs, ∃ d, csrWrite s.iss.entry.csr r.1 0 = some d := by
  simp only [State.writableCsrs, List.forall_mem_cons, List.not_mem_nil, IsEmpty.forall_iff, implies_true, and_true]
  and_intros <;> exact ⟨_, rfl⟩

theorem csrWrite_unlisted (s : State) {n : Nat} (h : n ∉ s.writableCsrs.map (·.1)) (c : Csrs) (w : Word) : csrWrite c n w = none := by
  unfold csrWrite
  split
  case h_19 => rfl
  all_goals simp [State.writableCsrs] at h

section
variable {s : State} {o : CsrOp} {a : Word} (h : s.Calm) (ha : s.srcS o.a = .ok a) {f : Word → Word → Word}
include h

theorem exec_csrr_listed {d : Fin 32} {nw : Bool} {csr : BitVec 12} {r : Nat × Word} (hr : r ∈ s.writableCsrs ++ s.readOnlyCsrs)
    (hcsr : csr.toNat = r.1) : exec (.csrr d nw csr) s = .next (s.writeS d nw r.2 1).slotEnd :=
  slotOp_calm h (by rw [hcsr, csrAtEntry_listed s r hr]; rfl)

theorem exec_csrr_unlisted {d : Fin 32} {nw : Bool} {csr : BitVec 12} (hcsr : csr.toNat ∉ (s.writableCsrs ++ s.readOnlyCsrs).map (·.1)) :
    exec (.csrr d nw csr) s = .next (s.slotFault csrAccess) :=
  slotOp_fault h (by rw [csrAtEntry_unlisted s hcsr]; rfl)

include ha

theorem slotOp_bodyCsr_writable {r : Nat × Word} (hr : r ∈ s.writableCsrs) (hcsr : o.csr.toNat = r.1) :
    slotOp true (bodyCsr f o) s = .next ((s.writeS o.d o.nw r.2 1).putCsr r.1 (f r.2 a)).slotEnd := by
  obtain ⟨c, hc⟩ := csrWrite_listed s r hr
  refine slotOp_calm h ?_
  simp only [bodyCsr, hcsr, csrAtEntry_listed s r (List.mem_append_left _ hr), ha, hc, bind, Except.bind, pure, Except.pure]

/-- A write is refused whether the number is unassigned or read-only. -/
theorem slotOp_bodyCsr_refused (hcsr : o.csr.toNat ∉ s.writableCsrs.map (·.1)) :
    slotOp true (bodyCsr f o) s = .next (s.slotFault csrAccess) := by
  refine slotOp_fault h ?_
  by_cases hread : o.csr.toNat ∈ (s.writableCsrs ++ s.readOnlyCsrs).map (·.1)
  · obtain ⟨r, hr, hnum⟩ := List.mem_map.1 hread
    simp only [bodyCsr, ← hnum, csrAtEntry_listed s r hr, ha, bind, Except.bind]
    rw [hnum, csrWrite_unlisted s hcsr]
  · simp only [bodyCsr, csrAtEntry_unlisted s hread, bind, Except.bind]

end

/-- What a write leaves in CAUSE: the writable bits of the value, the others as they were (R364). -/
theorem cause_bit (w old : Word) {i : Nat} (hi : i < 64) : ((w &&& 0x80FF00FF#64) ||| (old &&& ~~~0x80FF00FF#64)).getLsbD i
    = if i < 8 ∨ (16 ≤ i ∧ i < 24) ∨ i = 31 then w.getLsbD i else old.getLsbD i := by
  have hmask : ∀ j < 64, (0x80FF00FF#64).getLsbD j = decide (j < 8 ∨ (16 ≤ j ∧ j < 24) ∨ j = 31) := by decide
  simp only [BitVec.getLsbD_or, BitVec.getLsbD_and, BitVec.getLsbD_not, hmask i hi, decide_eq_true hi, Bool.true_and]
  split <;> simp [*]

/-- Settles O11: reads and writes by the two lists of numbers, and the masks of the writes by `csrWrite`. -/
theorem csrResults : Obligations.CsrResults := by
  unfold Obligations.CsrResults
  refine ⟨fun s o a h ha => ⟨fun r hr hcsr => exec_csrr_listed h hr hcsr, fun r hr hcsr => ?_, fun hcsr => exec_csrr_unlisted h hcsr,
    fun hcsr => ?_⟩, fun c d w => ?masks⟩
  · exact ⟨slotOp_bodyCsr_writable h ha hr hcsr, slotOp_bodyCsr_writable h ha hr hcsr, slotOp_bodyCsr_writable h ha hr hcsr⟩
  · exact ⟨slotOp_bodyCsr_refused h ha hcsr, slotOp_bodyCsr_refused h ha hcsr, slotOp_bodyCsr_refused h ha hcsr⟩
  case masks =>
    refine ⟨?_, ?_, ?_, ?cause, ?_, ?_⟩
    case cause =>
      rintro ⟨⟩
      exact ⟨rfl, fun i hi => cause_bit w c.cause hi⟩
    all_goals
      rintro ⟨⟩
      rfl

end Sys2Proof.Machine
end

section
/-! SUPPORT. The scalar FP32 operations (R181 to R184): exact sums and products, their one rounding, and the values that the comparisons
and the extrema pick. -/
namespace Sys2Proof.Machine

/-! ### Flags and the generator -/

@[simp] theorem RAcc.flag_zero (a : RAcc) : a.flag 0 = a := by simp [RAcc.flag]

/-- A flag that is set stays set. -/
theorem RAcc.flag_keeps {a : RAcc} {i : Nat} (h : a.fl.getLsbD i = true) (f : Flags) : (a.flag f).fl.getLsbD i = true := by
  simp [RAcc.flag, h]

theorem RAcc.flag_nv (a : RAcc) : (a.flag flagNV).fl.getLsbD 0 = true := by simp [RAcc.flag, flagNV]

@[simp] theorem RAcc.fl_mode (a : RAcc) (rm : Rm) : (a.mode rm).2.fl = a.fl := by cases rm <;> rfl

/-! ### Reading operands -/

/-- An operand that is no NaN sets no flag (R38). -/
theorem FFmt.read_number {f : FFmt} {x : Nat} (h : f.decode x ≠ .nan) (a : RAcc) : f.read x a = (f.decode x, a) := by
  have hquiet : f.isSignalling x = false := by
    have hnan : (f.decode x).isNan = false := by cases hd : f.decode x <;> simp_all [Ext.isNan]
    cases f <;> simp [FFmt.isSignalling, hnan]
  simp only [FFmt.read, hquiet, flagIf, Bool.false_eq_true, if_false, RAcc.flag_zero]

theorem FFmt.read_fin {f : FFmt} {x m : Nat} {n st : Bool} {e : Int} (h : f.decode x = .fin n m e st) (a : RAcc) :
    f.read x a = (.fin n m e st, a) := by
  rw [FFmt.read_number (by rw [h]; nofun), h]

theorem Ext.isNan_eq (x : Ext) : x.isNan = decide (x = .nan) := by cases x <;> simp [Ext.isNan]

/-- The mantissa of an FP32 encoding. -/
theorem FFmt.mant_decode_f32 {x m : Nat} {n st : Bool} {e : Int} (h : FFmt.f32.decode x = .fin n m e st) : m < 2 ^ 24 := by
  have hman : 2 ^ FFmt.f32.man = 2 ^ 23 := rfl
  have hlow : x % 2 ^ FFmt.f32.man < 2 ^ 23 := Nat.mod_lt _ (by decide)
  unfold FFmt.decode at h
  dsimp only at h
  split_ifs at h <;> cases h <;> omega

/-! ### Rounding -/

theorem roundF_eq (f : FFmt) (rm : Rm) (x : Ext) (a : RAcc) : roundF f rm x a
    = ((f.round (a.mode rm).1 x).1, (a.mode rm).2.flag (f.round (a.mode rm).1 x).2) := rfl

theorem roundI_eq (lo hi : Int) (rm : Rm) (x : Ext) (a : RAcc) : roundI lo hi rm x a
    = ((roundToInt lo hi (a.mode rm).1 x).1, (a.mode rm).2.flag (roundToInt lo hi (a.mode rm).1 x).2) := rfl

theorem roundF_keeps {a : RAcc} {i : Nat} (h : a.fl.getLsbD i = true) (f : FFmt) (rm : Rm) (x : Ext) :
    (roundF f rm x a).2.fl.getLsbD i = true := by
  rw [roundF_eq]
  exact RAcc.flag_keeps (by rw [RAcc.fl_mode, h]) _

theorem roundF_nan (rm : Rm) (a : RAcc) : (roundF .f32 rm .nan a).1 = 0x7FC00000 := rfl

theorem roundF_zero (rm : Rm) (n : Bool) (a : RAcc) : (roundF .f32 rm (.fin n 0 0 false) a).1 = if n then 0x80000000 else 0 := by
  cases n <;> rfl

/-- A number with no fraction rounds to itself in every mode. -/
theorem roundInt_whole (mode : RMode) (n : Bool) (m : Nat) : roundInt mode n m 0 false = (if n then -(m : Int) else m, 0) := by
  have hup : roundsUp mode n m 0 0 false = false := by cases mode <;> simp [roundsUp]
  have hsplit : splitAt m 0 0 = (m, 0, 0) := by simp [splitAt]
  simp [roundInt, hsplit, hup, flagIf]

/-! ### Exact sums and products (R181) -/

theorem alignTo_eq (n : Bool) (m : Nat) (e k : Int) : alignTo n m e k = (if n then -(m : Int) else m) * 2 ^ (e - k).toNat := by
  cases n <;> simp [alignTo]

theorem alignTo_not (n : Bool) (m : Nat) (e k : Int) : alignTo (!n) m e k = -alignTo n m e k := by
  cases n <;> simp [alignTo]

theorem alignTo_zero (n : Bool) (e k : Int) : alignTo n 0 e k = 0 := by cases n <;> simp [alignTo]

namespace Ext

theorem add_nan (d : Bool) {x y : Ext} (h : x = .nan ∨ y = .nan) : (add d x y).1 = .nan := by
  rcases h with rfl | rfl
  · rfl
  · cases x <;> rfl

theorem mul_nan {x y : Ext} (h : x = .nan ∨ y = .nan) : (mul x y).1 = .nan := by
  rcases h with rfl | rfl
  · rfl
  · cases x <;> rfl

theorem negate_eq_nan {x : Ext} (h : x = .nan) : x.negate = .nan := by rw [h]; rfl

theorem add_opposite_infinities (d n : Bool) : add d (.inf n) (.inf (!n)) = (.nan, flagNV) := by cases n <;> rfl

section
variable (d : Bool) {na nb sa sb : Bool} {ma mb : Nat} {ea eb : Int}

theorem add_fin (h : alignTo na ma ea (min ea eb) + alignTo nb mb eb (min ea eb) ≠ 0) :
    add d (.fin na ma ea sa) (.fin nb mb eb sb)
      = (.fin (decide (alignTo na ma ea (min ea eb) + alignTo nb mb eb (min ea eb) < 0))
          (alignTo na ma ea (min ea eb) + alignTo nb mb eb (min ea eb)).natAbs (min ea eb) false, 0) := by
  have hsome : ¬(ma = 0 ∧ mb = 0) := by
    rintro ⟨rfl, rfl⟩
    exact h (by simp only [alignTo_zero, Int.add_zero])
  simp only [add, hsome, h, if_false]

/-- Unlike terms that cancel. -/
theorem add_cancel (h : alignTo na ma ea (min ea eb) + alignTo nb mb eb (min ea eb) = 0) (hm : ma ≠ 0) :
    add d (.fin na ma ea sa) (.fin nb mb eb sb) = (.fin d 0 0 false, 0) := by
  have hsome : ¬(ma = 0 ∧ mb = 0) := fun hz => hm hz.1
  simp only [add, hsome, h, if_false, if_true]

end

/-! ### Order (R182) -/

theorem lt_irrefl (x : Ext) : x.lt x = false := by
  rcases x with _ | ⟨_ | _⟩ | ⟨n, m, e, st⟩
  case fin => cases n <;> simp [lt]
  all_goals rfl

theorem lt_asymm {x y : Ext} (h : x.lt y = true) : y.lt x = false := by
  rcases x with _ | ⟨_ | _⟩ | ⟨na, ma, ea, sa⟩ <;> rcases y with _ | ⟨_ | _⟩ | ⟨nb, mb, eb, sb⟩
  case fin.fin =>
    simp only [lt, Int.min_comm eb ea, Bool.or_eq_true, Bool.and_eq_true, decide_eq_true_eq, Bool.or_eq_false_iff, decide_eq_false_iff_not,
      Bool.and_eq_false_iff, Bool.not_eq_true'] at h ⊢
    rcases h with hlt | ⟨⟨⟨heq, -⟩, hna⟩, -⟩
    · exact ⟨by omega, .inl (.inl (.inl (by omega)))⟩
    · exact ⟨by omega, .inr (by simp [hna])⟩
  all_goals cases h <;> rfl

end Ext

/-! ### Operations of two operands -/

section
variable {f : FFmt} {rm : Rm} {op : Ext → Ext → Ext × Flags} {x y : Nat} {a : RAcc}

theorem fbin_nan (h : (op (FFmt.f32.decode x) (FFmt.f32.decode y)).1 = .nan) : (fbin .f32 rm op x y a).1 = 0x7FC00000 := by
  show (roundF .f32 rm (op (FFmt.f32.decode x) (FFmt.f32.decode y)).1 _).1 = _
  rw [h, roundF_nan]

theorem fbin_nv (h : (op (f.decode x) (f.decode y)).2 = flagNV) : (fbin f rm op x y a).2.fl.getLsbD 0 = true := by
  refine roundF_keeps ?_ f rm _
  show (RAcc.flag _ (op (f.decode x) (f.decode y)).2).fl.getLsbD 0 = true
  rw [h, RAcc.flag_nv]

/-- An operation on numbers whose exact result calls for no flag rounds it once. -/
theorem fbin_exact {z : Ext} (hx : f.decode x ≠ .nan) (hy : f.decode y ≠ .nan) (h : op (f.decode x) (f.decode y) = (z, 0)) :
    fbin f rm op x y a = roundF f rm z a := by
  simp only [fbin, FFmt.read_number hx, FFmt.read_number hy, h, RAcc.flag_zero]

/-- A sum of two numbers: rounded once, and where the terms cancel a zero of the mode's sign. -/
theorem fbin_sum {nx ny : Bool} {mx my : Nat} {ex ey v : Int} (hx : FFmt.f32.decode x ≠ .nan) (hy : FFmt.f32.decode y ≠ .nan)
    (hop : op (FFmt.f32.decode x) (FFmt.f32.decode y) = Ext.add (isDown rm) (.fin nx mx ex false) (.fin ny my ey false))
    (hv : alignTo nx mx ex (min ex ey) + alignTo ny my ey (min ex ey) = v) :
    (v ≠ 0 → fbin .f32 rm op x y a = roundF .f32 rm (.fin (decide (v < 0)) v.natAbs (min ex ey) false) a)
    ∧ (v = 0 → mx ≠ 0 → (fbin .f32 rm op x y a).1 = if rm = .rd then 0x80000000 else 0) := by
  subst hv
  refine ⟨fun h0 => fbin_exact hx hy (hop.trans (Ext.add_fin _ h0)), fun h0 hm => ?_⟩
  rw [fbin_exact hx hy (hop.trans (Ext.add_cancel _ h0 hm)), roundF_zero]
  simp only [isDown, decide_eq_true_eq]

end

/-! ### Multiply-add -/

section
variable {rm : Rm} {x y z : Nat} {a : RAcc}

theorem fmaOp_nan (h : (Ext.mul (FFmt.f32.decode x) (FFmt.f32.decode y)).1 = .nan ∨ FFmt.f32.decode z = .nan) :
    (fmaOp .f32 rm x y z a).1 = 0x7FC00000 := by
  show (roundF .f32 rm (Ext.add (isDown rm) (Ext.mul (FFmt.f32.decode x) (FFmt.f32.decode y)).1 (FFmt.f32.decode z)).1 _).1 = _
  rw [Ext.add_nan _ h, roundF_nan]

theorem fmaOp_exact {nx ny nz : Bool} {mx my mz : Nat} {ex ey ez : Int} (hx : FFmt.f32.decode x = .fin nx mx ex false)
    (hy : FFmt.f32.decode y = .fin ny my ey false) (hz : FFmt.f32.decode z = .fin nz mz ez false) {v : Int}
    (hv : alignTo (nx != ny) (mx * my) (ex + ey) (min (ex + ey) ez) + alignTo nz mz ez (min (ex + ey) ez) = v) (h0 : v ≠ 0) :
    fmaOp .f32 rm x y z a = roundF .f32 rm (.fin (decide (v < 0)) v.natAbs (min (ex + ey) ez) false) a := by
  subst hv
  simp only [fmaOp, FFmt.read_fin hx, FFmt.read_fin hy, FFmt.read_fin hz, Ext.mul,
    Ext.add_fin _ h0, BitVec.or_self, RAcc.flag_zero]

end

/-! ### Extrema, signs and comparisons (R182) -/

section
variable {lesser : Bool} {x y : Nat} {a : RAcc}

theorem fminmax_numbers (hx : FFmt.f32.decode x ≠ .nan) (hy : FFmt.f32.decode y ≠ .nan) : (fminmax .f32 lesser x y a).1
    = if lesser then (if (FFmt.f32.decode y).lt (FFmt.f32.decode x) then y else x)
      else if (FFmt.f32.decode x).lt (FFmt.f32.decode y) then y else x := by
  simp only [fminmax, FFmt.read_number hx, FFmt.read_number hy]
  cases hdx : FFmt.f32.decode x with
  | nan => exact absurd hdx hx
  | inf n | fin n m e st =>
    cases hdy : FFmt.f32.decode y with
    | nan => exact absurd hdy hy
    | inf k | fin k l i sk => rfl

theorem fminmax_nan_left (hx : FFmt.f32.decode x = .nan) :
    (fminmax .f32 lesser x y a).1 = if FFmt.f32.decode y = .nan then 0x7FC00000 else y := by
  simp only [fminmax, FFmt.read, hx]
  cases FFmt.f32.decode y <;> rfl

theorem fminmax_nan_right (hx : FFmt.f32.decode x ≠ .nan) (hy : FFmt.f32.decode y = .nan) : (fminmax .f32 lesser x y a).1 = x := by
  simp only [fminmax, FFmt.read, hy]

theorem fmin_least (hx : FFmt.f32.decode x ≠ .nan) (hy : FFmt.f32.decode y ≠ .nan) : let p := (fminmax .f32 true x y a).1
    p ∈ [x, y] ∧ (FFmt.f32.decode x).lt (FFmt.f32.decode p) = false ∧ (FFmt.f32.decode y).lt (FFmt.f32.decode p) = false := by
  rw [fminmax_numbers hx hy, if_pos rfl]
  split
  · next hlt => exact ⟨by simp, Ext.lt_asymm hlt, Ext.lt_irrefl _⟩
  · next hge => exact ⟨by simp, Ext.lt_irrefl _, by simpa using hge⟩

theorem fmax_greatest (hx : FFmt.f32.decode x ≠ .nan) (hy : FFmt.f32.decode y ≠ .nan) : let q := (fminmax .f32 false x y a).1
    q ∈ [x, y] ∧ (FFmt.f32.decode q).lt (FFmt.f32.decode x) = false ∧ (FFmt.f32.decode q).lt (FFmt.f32.decode y) = false := by
  rw [fminmax_numbers hx hy, if_neg Bool.false_ne_true]
  split
  · next hlt => exact ⟨by simp, Ext.lt_asymm hlt, Ext.lt_irrefl _⟩
  · next hge => exact ⟨by simp, Ext.lt_irrefl _, by simpa using hge⟩

theorem fsignOp_nan (neg : Bool) (hx : FFmt.f32.decode x = .nan) : (fsignOp .f32 neg x a).1 = 0x7FC00000 := by
  show (if (FFmt.f32.decode x).isNan then _ else _) = _
  rw [hx]
  rfl

theorem fsignOp_abs (hx : FFmt.f32.decode x ≠ .nan) : (fsignOp .f32 false x a).1 = x % 2 ^ 31 := by
  simp [fsignOp, FFmt.read_number hx, Ext.isNan_eq, hx, FFmt.man, FFmt.expBits]

/-- Adding a power of two to a lesser number sets its bit. -/
theorem add_two_pow_eq_xor {y n : Nat} (hy : y < 2 ^ n) : y + 2 ^ n = y ^^^ 2 ^ n := by
  refine Nat.eq_of_testBit_eq fun i => ?_
  rw [Nat.add_comm, Nat.testBit_xor, Nat.testBit_two_pow]
  rcases Nat.lt_trichotomy i n with hlt | rfl | hgt
  · rw [Nat.testBit_two_pow_add_gt hlt]
    simp [Nat.ne_of_gt hlt]
  · rw [Nat.testBit_two_pow_add_eq]
    simp
  · have htwice : 2 ^ n + y < 2 ^ i :=
      Nat.lt_of_lt_of_le (by rw [Nat.pow_succ]; omega : 2 ^ n + y < 2 ^ (n + 1)) (Nat.pow_le_pow_right (by decide) hgt)
    rw [Nat.testBit_lt_two_pow htwice, Nat.testBit_lt_two_pow (by omega)]
    simp [Nat.ne_of_lt hgt]

/-- Adding bit 31, or taking it away, changes it and no other. -/
theorem xor_top (hx : x < 2 ^ 32) : (if 2 ^ 31 ≤ x then x - 2 ^ 31 else x + 2 ^ 31) = x ^^^ 2 ^ 31 := by
  split
  · next hge =>
    have hback : x - 2 ^ 31 + 2 ^ 31 = (x - 2 ^ 31) ^^^ 2 ^ 31 := add_two_pow_eq_xor (by omega)
    rw [Nat.sub_add_cancel hge] at hback
    calc x - 2 ^ 31
      _ = (x - 2 ^ 31) ^^^ 2 ^ 31 ^^^ 2 ^ 31 := (Nat.xor_xor_cancel_right _ _).symm
      _ = x ^^^ 2 ^ 31 := by rw [← hback]
  · next hlt => exact add_two_pow_eq_xor (Nat.not_le.1 hlt)

theorem fsignOp_neg (hx : FFmt.f32.decode x ≠ .nan) (hlt : x < 2 ^ 32) : (fsignOp .f32 true x a).1 = x ^^^ 2 ^ 31 := by
  rw [← xor_top hlt]
  simp only [fsignOp, FFmt.read_number hx, Ext.isNan_eq, hx, decide_false, Bool.false_eq_true, if_false, if_true]
  rfl

theorem fcompare_nan (h : FFmt.f32.decode x = .nan ∨ FFmt.f32.decode y = .nan) {c : CmpC} (hc : c ∈ [CmpC.eq, .lt, .le]) :
    (boolResult (fcompare .f32 c x y a)).1 = 0 := by
  have hun : ((FFmt.f32.decode x).isNan || (FFmt.f32.decode y).isNan) = true := by simpa [Ext.isNan_eq] using h
  simp only [List.mem_cons, List.not_mem_nil, or_false] at hc
  rcases hc with rfl | rfl | rfl <;> simp [boolResult, fcompare, FFmt.read, hun]

theorem fcompare_nan_nv (h : FFmt.f32.decode x = .nan ∨ FFmt.f32.decode y = .nan) {c : CmpC} (hc : c ∈ [CmpC.lt, .le]) :
    (boolResult (fcompare .f32 c x y a)).2.fl.getLsbD 0 = true := by
  have hun : ((FFmt.f32.decode x).isNan || (FFmt.f32.decode y).isNan) = true := by simpa [Ext.isNan_eq] using h
  simp only [List.mem_cons, List.not_mem_nil, or_false] at hc
  rcases hc with rfl | rfl <;> simp [boolResult, fcompare, FFmt.read, hun, RAcc.flag_nv]

section
variable {nx ny : Bool} {mx my : Nat} {ex ey : Int} {sx sy : Bool} 

theorem Ext.numEq_fin : (Ext.fin nx mx ex sx).numEq (.fin ny my ey sy)
    = decide (alignTo nx mx ex (min ex ey) = alignTo ny my ey (min ex ey)) := rfl

theorem Ext.numLt_fin : (Ext.fin nx mx ex sx).numLt (.fin ny my ey sy)
    = decide (alignTo nx mx ex (min ex ey) < alignTo ny my ey (min ex ey)) := by
  rw [Bool.eq_iff_iff]
  simp only [Ext.numLt, Ext.lt, Ext.numEq_fin, Bool.and_eq_true, Bool.or_eq_true, decide_eq_true_eq, Bool.not_eq_true', decide_eq_false_iff_not]
  constructor
  · rintro ⟨hlt | ⟨⟨⟨heq, -⟩, -⟩, -⟩, hne⟩
    · exact hlt
    · exact absurd heq hne
  · exact fun hlt => ⟨.inl hlt, Int.ne_of_lt hlt⟩

theorem fcompare_numbers (hx : FFmt.f32.decode x = .fin nx mx ex sx) (hy : FFmt.f32.decode y = .fin ny my ey sy) :
    let l := alignTo nx mx ex (min ex ey)
    let r := alignTo ny my ey (min ex ey)
    (boolResult (fcompare .f32 .eq x y a)).1 = (if l = r then 1 else 0) ∧ (boolResult (fcompare .f32 .lt x y a)).1 = (if l < r then 1 else 0)
      ∧ (boolResult (fcompare .f32 .le x y a)).1 = (if l ≤ r then 1 else 0) := by
  simp [boolResult, fcompare, FFmt.read_fin hx, FFmt.read_fin hy, Ext.isNan, Ext.numEq_fin, Ext.numLt_fin, Int.le_iff_lt_or_eq]

end

end

/-! ### Conversions (R183) -/

/-- FCVTI's result: the integer's 64 bits (R41, R183). -/
def fcvtiOp (rm : Rm) (x : Nat) (a : RAcc) : Nat × RAcc :=
  let r := roundI (-(2 ^ 63)) (2 ^ 63 - 1) rm (FFmt.f32.read x a).1 (FFmt.f32.read x a).2
  (wrapInt 64 r.1, r.2)

section
variable {rm : Rm} {x : Nat} {a : RAcc}

theorem fcvtiOp_nan (hx : FFmt.f32.decode x = .nan) : (fcvtiOp rm x a).1 = 0 ∧ (fcvtiOp rm x a).2.fl.getLsbD 0 = true := by
  simp only [fcvtiOp, roundI_eq, FFmt.read, hx, roundToInt, RAcc.flag_nv]
  exact ⟨rfl, trivial⟩

theorem fcvtiOp_inf {n : Bool} (hx : FFmt.f32.decode x = .inf n) :
    BitVec.ofNat 64 (fcvtiOp rm x a).1 = (if n then BitVec.intMin 64 else BitVec.intMax 64) ∧ (fcvtiOp rm x a).2.fl.getLsbD 0 = true := by
  simp only [fcvtiOp, roundI_eq, FFmt.read, hx, roundToInt, RAcc.flag_nv]
  exact ⟨by cases n <;> rfl, trivial⟩

theorem ofNat_wrapInt (v : Int) : BitVec.ofNat 64 (wrapInt 64 v) = BitVec.ofInt 64 v := by
  apply BitVec.eq_of_toNat_eq
  rw [BitVec.toNat_ofNat, BitVec.toNat_ofInt, wrapInt]
  omega

/-- A value that is an integer as it stands. -/
theorem fcvtiOp_whole {n : Bool} {m : Nat} (hx : FFmt.f32.decode x = .fin n m 0 false) :
    BitVec.ofNat 64 (fcvtiOp rm x a).1 = BitVec.ofInt 64 (if n then -(m : Int) else m) ∧ (fcvtiOp rm x a).2.fl = a.fl := by
  have hm := FFmt.mant_decode_f32 hx
  have hlo : ¬(if n then -(m : Int) else m) < -(2 ^ 63) := by split <;> omega
  have hhi : ¬(2 ^ 63 - 1 : Int) < (if n then -(m : Int) else m) := by split <;> omega
  have hround : ∀ mode, roundToInt (-(2 ^ 63)) (2 ^ 63 - 1) mode (.fin n m 0 false) = (if n then -(m : Int) else m, 0) := by
    intro mode
    simp only [roundToInt, roundInt_whole, hlo, hhi, if_false]
  simp only [fcvtiOp, roundI_eq, FFmt.read_fin hx, hround, ofNat_wrapInt, RAcc.flag_zero, RAcc.fl_mode, and_self]

end

/-! ### The instructions -/

section
variable {s : State} {a b : Word} (h : s.Calm)
include h

theorem slotOp_bodyF3 {o : SF3} (f : Rm → Nat → Nat → RAcc → Nat × RAcc) (ha : s.srcS o.a = .ok a) (hb : s.srcS o.b = .ok b) :
    slotOp false (bodyF3 f o) s = .next (s.writeF32 o.d o.nw (f o.rm (a.toNat % 2 ^ 32) (b.toNat % 2 ^ 32) s.racc)).slotEnd :=
  slotOp_calm h (by simp only [bodyF3, ha, hb, bind, Except.bind, pure, Except.pure])

theorem exec_fma {o : SF3} (ha : s.srcS o.a = .ok a) (hb : s.srcS o.b = .ok b) : exec (.fma o) s = .next (s.writeF32 o.d o.nw
    (fmaOp .f32 o.rm (a.toNat % 2 ^ 32) (b.toNat % 2 ^ 32) ((s.regS o.d.val).toNat % 2 ^ 32) s.racc)).slotEnd :=
  slotOp_calm h (by rw [bodyF3, ha, hb]; rfl)

theorem slotOp_bodyFN {o : SR3} (f : Nat → Nat → RAcc → Nat × RAcc) (ha : s.srcS o.a = .ok a) (hb : s.srcS o.b = .ok b) :
    slotOp false (bodyFN f o) s = .next (s.writeF32 o.d o.nw (f (a.toNat % 2 ^ 32) (b.toNat % 2 ^ 32) s.racc)).slotEnd :=
  slotOp_calm h (by simp only [bodyFN, ha, hb, bind, Except.bind, pure, Except.pure])

theorem slotOp_bodyF1 {o : SR2} (f : Nat → RAcc → Nat × RAcc) (ha : s.srcS o.a = .ok a) :
    slotOp false (bodyF1 f o) s = .next (s.writeF32 o.d o.nw (f (a.toNat % 2 ^ 32) s.racc)).slotEnd :=
  slotOp_calm h (by simp only [bodyF1, ha, bind, Except.bind, pure, Except.pure])

theorem exec_fcvti {o : SF2} (ha : s.srcS o.a = .ok a) :
    exec (.fcvti o) s = .next (s.writeF32 o.d o.nw (fcvtiOp o.rm (a.toNat % 2 ^ 32) s.racc)).slotEnd :=
  slotOp_calm h (by rw [ha]; rfl)

theorem exec_icvtf {o : SF2} (ha : s.srcS o.a = .ok a) :
    exec (.icvtf o) s = .next (s.writeF32 o.d o.nw (roundF .f32 o.rm (Ext.ofInt a.toInt) s.racc)).slotEnd :=
  slotOp_calm h (by rw [ha]; rfl)

end

/-- Settles O4: the operations that round by their exact results, the others by what they pick. -/
theorem fp32Results : Obligations.Fp32Results := by
  unfold Obligations.Fp32Results
  refine ⟨fun s o a b h ha hb => ?rounded, fun s o u f a b h ha hb hu hd hnw hfa => ?picked⟩
  case rounded =>
    intro X Y Z lands val rounded zeroSum
    have hval : val = alignTo := by funext n m e k; exact (alignTo_eq n m e k).symm
    clear_value val
    subst hval
    refine ⟨_, _, _, _, slotOp_bodyF3 h _ ha hb, slotOp_bodyF3 h _ ha hb, slotOp_bodyF3 h _ ha hb, exec_fma h ha hb, fun hnan => ?nan,
      fun hnan => fmaOp_nan (.inr hnan), fun n hx hy => ?sum, fun n hx hy => ?difference, fun n m e hx hy => ?product,
      fun nx mx ex ny my ey hx hy => ?finite⟩
    case nan =>
      exact ⟨fbin_nan (Ext.add_nan _ hnan), fbin_nan (Ext.add_nan _ (hnan.imp_right Ext.negate_eq_nan)), fbin_nan (Ext.mul_nan hnan),
        fmaOp_nan (.inl (Ext.mul_nan hnan))⟩
    case sum =>
      have hop : Ext.add (isDown o.rm) X Y = (.nan, flagNV) := by rw [hx, hy, Ext.add_opposite_infinities]
      exact ⟨fbin_nan (congrArg Prod.fst hop), fbin_nv (congrArg Prod.snd hop)⟩
    case difference =>
      have hop : Ext.add (isDown o.rm) X Y.negate = (.nan, flagNV) := by rw [hx, hy, Ext.negate, Ext.add_opposite_infinities]
      exact ⟨fbin_nan (congrArg Prod.fst hop), fbin_nv (congrArg Prod.snd hop)⟩
    case product =>
      have hop : Ext.mul X Y = (.nan, flagNV) := by rw [hx, hy]; rfl
      exact ⟨fbin_nan (congrArg Prod.fst hop), fbin_nv (congrArg Prod.snd hop)⟩
    case finite =>
      intro k sum dif
      have hxn : X ≠ .nan := by rw [hx]; nofun
      have hyn : Y ≠ .nan := by rw [hy]; nofun
      have hadd : Ext.add (isDown o.rm) X Y = Ext.add (isDown o.rm) (.fin nx mx ex false) (.fin ny my ey false) := by rw [hx, hy]
      have hsub : Ext.add (isDown o.rm) X Y.negate = Ext.add (isDown o.rm) (.fin nx mx ex false) (.fin (!ny) my ey false) := by
        rw [hx, hy]; rfl
      have hdif : alignTo nx mx ex k + alignTo (!ny) my ey k = dif := by rw [alignTo_not, ← Int.sub_eq_add_neg]
      have hmul : Ext.mul X Y = (.fin (nx != ny) (mx * my) (ex + ey) false, 0) := by rw [hx, hy]; rfl
      obtain ⟨hsum, hsum0⟩ := fbin_sum hxn hyn hadd rfl
      obtain ⟨hdiff, hdiff0⟩ := fbin_sum (op := fun x y => Ext.add (isDown o.rm) x y.negate) hxn hyn hsub hdif
      exact ⟨hsum, hdiff, hsum0, hdiff0, fbin_exact hxn hyn hmul, fun nz mz ez hz => fmaOp_exact hx hy hz rfl⟩
  case picked =>
    intro x y X Y lands
    subst hu
    have hf : s.srcS f.a = .ok a := by rw [hfa, ha]
    refine ⟨_, _, _, _, _, _, _, fcvtiOp f.rm x s.racc, slotOp_bodyFN h _ ha hb, slotOp_bodyFN h _ ha hb,
      slotOp_bodyF1 h _ ha, slotOp_bodyF1 h _ ha, slotOp_bodyFN h _ ha hb,
      slotOp_bodyFN h _ ha hb, slotOp_bodyFN h _ ha hb, ?_, ?_, fun hx hy => ?numbers, fun hx => ?left,
      fun hx hy => ⟨fminmax_nan_right hx hy, fminmax_nan_right hx hy⟩, fun hx => ⟨fsignOp_abs hx, fsignOp_neg hx (Nat.mod_lt _ (by decide))⟩,
      fun hn => ?unordered, fun nx mx ex ny my ey hx hy => ?order, fun n hx => fcvtiOp_inf hx, fun n m hx => fcvtiOp_whole hx⟩
    · rw [exec_fcvti h hf, hd, hnw]
      rfl
    · rw [exec_icvtf h hf, hd, hnw]
      rfl
    case numbers =>
      obtain ⟨hmin, hminx, hminy⟩ := fmin_least (a := s.racc) hx hy
      obtain ⟨hmax, hmaxx, hmaxy⟩ := fmax_greatest (a := s.racc) hx hy
      exact ⟨hmin, hmax, hminx, hminy, hmaxx, hmaxy⟩
    case left =>
      obtain ⟨hzero, hnv⟩ := fcvtiOp_nan (rm := f.rm) (a := s.racc) hx
      exact ⟨fminmax_nan_left hx, fminmax_nan_left hx, fsignOp_nan _ hx, fsignOp_nan _ hx, hzero, hnv⟩
    case unordered =>
      exact ⟨fcompare_nan hn (by simp), fcompare_nan hn (by simp), fcompare_nan hn (by simp), fcompare_nan_nv hn (by simp),
        fcompare_nan_nv hn (by simp)⟩
    case order =>
      intro k l r
      have hl : l = alignTo nx mx ex k := (alignTo_eq nx mx ex k).symm
      have hr : r = alignTo ny my ey k := (alignTo_eq ny my ey k).symm
      rw [hl, hr]
      exact fcompare_numbers hx hy

end Sys2Proof.Machine
end

section
/-! SUPPORT. The elements of a vector register (R206 to R208): packing, the operations that fold over the lanes in ascending order, and the
operand forms of the V slot. -/
namespace Sys2Proof.Machine

/-! ### Elements and packed elements (R206) -/

theorem tyBits_pos (t : Ty) : 0 < tyBits t := by cases t <;> decide

theorem tyBits_mul_lanes (t : Ty) : tyBits t * lanes t = 2048 := by cases t <;> rfl

/-- The lanes of a type as the bits of a predicate; a type of half bytes has no whole one. -/
theorem predBits_le (t : Ty) : tyBits t / 8 * lanes t ≤ 256 := by cases t <;> decide

theorem elem_lt (t : Ty) (v : VWord) (k : Nat) : elem t v k < 2 ^ tyBits t := BitVec.isLt _

theorem elem_mod (t : Ty) (v : VWord) (k : Nat) : elem t v k % 2 ^ tyBits t = elem t v k := Nat.mod_eq_of_lt (elem_lt t v k)

theorem testBit_elem (t : Ty) (v : VWord) (k b : Nat) : (elem t v k).testBit b = (decide (b < tyBits t) && v.getLsbD (tyBits t * k + b)) :=
  BitVec.getLsbD_extractLsb' ..

/-- A place in an element of a row of equal elements is a place of the row. -/
theorem place_lt {w n k b : Nat} (hk : k < n) (hb : b < w) : w * k + b < w * n :=
  calc w * k + b < w * (k + 1) := by rw [Nat.mul_succ]; omega
    _ ≤ w * n := Nat.mul_le_mul_left w hk

theorem elem_packElems (t : Ty) (l : List Nat) {k : Nat} (hk : k < lanes t) :
    elem t (packElems (tyBits t) l) k = (l[k]?.getD 0) % 2 ^ tyBits t := by
  refine Nat.eq_of_testBit_eq fun b => ?_
  rw [testBit_elem, Nat.testBit_mod_two_pow]
  by_cases hb : b < tyBits t
  · have hplace : tyBits t * k + b < 2048 := tyBits_mul_lanes t ▸ place_lt hk hb
    rw [packElems, BitVec.getLsbD_ofNat, testBit_packNat hb, decide_eq_true hplace, Bool.true_and]
  · rw [decide_eq_false hb, Bool.false_and, Bool.false_and]

/-- Element `k` of a register packed from a function of the lanes. -/
theorem elem_packElems_map (t : Ty) (v : Nat → Nat) {k : Nat} (hk : k < lanes t) :
    elem t (packElems (tyBits t) ((List.range (lanes t)).map v)) k = v k % 2 ^ tyBits t := by
  rw [elem_packElems t _ hk, List.getElem?_map, List.getElem?_range hk, Option.map_some, Option.getD_some]

theorem elem_broadcast (t : Ty) (x : Word) {k : Nat} (hk : k < lanes t) : elem t (broadcast t x) k = x.toNat % 2 ^ tyBits t := by
  rw [broadcast, elem_packElems t _ hk, List.getElem?_replicate_of_lt hk, Option.getD_some, Nat.mod_mod]

/-! ### Folds over the lanes -/

section
variable {f : Nat → RAcc → Nat × RAcc}

theorem mapLanes_fst {v : Nat → Nat} (h : ∀ i a, (f i a).1 = v i) (l : List Nat) (a : RAcc) : (mapLanes f l a).1 = l.map v := by
  induction l generalizing a with
  | nil => rfl
  | cons i rest ih => exact congrArg₂ List.cons (h i a) (ih _)

theorem mapLanes_snd (l : List Nat) (a : RAcc) : (mapLanes f l a).2 = l.foldl (fun a i => (f i a).2) a := by
  induction l generalizing a with
  | nil => rfl
  | cons i rest ih => exact ih _

variable {t : Ty} {g : PWord}

/-- An operation whose values do not depend on the generator or the flags gives its value in each enabled lane. -/
theorem elem_vmap {v : Nat → Nat} (h : ∀ i a, (f i a).1 = v i) (a : RAcc) {k : Nat} (hk : k < lanes t) (hen : enabled t g k = true) :
    elem t (vmap t g f a).1 k = v k % 2 ^ tyBits t := by
  have hlane : ∀ i a, (if enabled t g i then f i a else (0, a)).1 = if enabled t g i then v i else 0 := by
    intro i a
    split
    · exact h i a
    · rfl
  have hlist := mapLanes_fst hlane (List.range (lanes t)) a
  show elem t (packElems (tyBits t) (mapLanes _ _ a).1) k = _
  rw [hlist, elem_packElems_map t _ hk, if_pos hen]

/-- The same, by the value that the operation gives from any generator and flags. -/
theorem elem_vmap_from (b : RAcc) (h : ∀ i a, (f i a).1 = (f i b).1) (a : RAcc) {k : Nat} (hk : k < lanes t) (hen : enabled t g k = true) :
    elem t (vmap t g f a).1 k = (f k b).1 % 2 ^ tyBits t :=
  elem_vmap (v := fun i => (f i b).1) h a hk hen

/-- The generator and the flags pass through the enabled lanes. -/
theorem vmap_snd (a : RAcc) : (vmap t g f a).2 = (enabledLanes t g).foldl (fun a i => (f i a).2) a := by
  show (mapLanes _ _ a).2 = _
  rw [mapLanes_snd, enabledLanes, List.foldl_filter]
  congr 1
  funext a i
  split <;> rfl

/-- Each enabled element steps the generator by `step`. -/
theorem sr_vmap {step : BitVec 32 → BitVec 32} (h : ∀ i a, (f i a).2.sr = step a.sr) (a : RAcc) :
    (vmap t g f a).2.sr = step^[(enabledLanes t g).length] a.sr := by
  rw [vmap_snd]
  induction enabledLanes t g generalizing a with
  | nil => rfl
  | cons i rest ih => rw [List.foldl_cons, ih, h, List.length_cons, Function.iterate_succ_apply]

theorem sr_vmap_of_kept (h : ∀ i a, (f i a).2.sr = a.sr) (a : RAcc) : (vmap t g f a).2.sr = a.sr := by
  rw [sr_vmap (step := id) h, Function.iterate_id, id]

/-- An operation that neither rounds nor flags anything. -/
theorem vmap_snd_of_kept (h : ∀ i a, (f i a).2 = a) (a : RAcc) : (vmap t g f a).2 = a := by
  rw [vmap_snd]
  simp only [h, List.foldl_fixed]

end

section
variable {t : Ty} {g : PWord} {f : Nat → RAcc → Bool × RAcc}

/-- A comparison whose answers do not depend on the generator or the flags sets every predicate bit of the enabled elements it holds of. -/
theorem getLsbD_pmap {p : Nat → Bool} (h : ∀ i a, (f i a).1 = p i) (a : RAcc) {k b : Nat} (hk : k < lanes t) (hb : b < tyBits t / 8) :
    (pmap t g f a).1.getLsbD (tyBits t / 8 * k + b) = (enabled t g k && p k) := by
  have hlane : ∀ i a, (if enabled t g i then (if (f i a).1 then 2 ^ (tyBits t / 8) - 1 else 0, (f i a).2) else (0, a)).1
      = if enabled t g i && p i then 2 ^ (tyBits t / 8) - 1 else 0 := by
    intro i a
    cases enabled t g i
    · rfl
    · simp [h]
  have hlist := mapLanes_fst hlane (List.range (lanes t)) a
  have hplace : tyBits t / 8 * k + b < 256 := Nat.lt_of_lt_of_le (place_lt hk hb) (predBits_le t)
  show (BitVec.ofNat 256 (packNat _ (mapLanes _ _ a).1)).getLsbD _ = _
  rw [hlist, BitVec.getLsbD_ofNat, testBit_packNat hb, List.getElem?_map, List.getElem?_range hk, Option.map_some, Option.getD_some,
    decide_eq_true hplace, Bool.true_and, apply_ite (Nat.testBit · b), Nat.testBit_two_pow_sub_one, decide_eq_true hb, Nat.zero_testBit]
  cases enabled t g k && p k <;> rfl

theorem pmap_snd (a : RAcc) : (pmap t g f a).2 = (enabledLanes t g).foldl (fun a i => (f i a).2) a := by
  show (mapLanes _ _ a).2 = _
  rw [mapLanes_snd, enabledLanes, List.foldl_filter]
  congr 1
  funext a i
  split <;> rfl

end

theorem mem_enabledLanes {t : Ty} {g : PWord} {k : Nat} : k ∈ enabledLanes t g ↔ k < lanes t ∧ enabled t g k = true := by
  rw [enabledLanes, List.mem_filter, List.mem_range]

/-! ### The operand forms of the V slot (R207, R208) -/

/-- What an operation keeps of the generator depends on the generator alone. -/
theorem State.keepSr_congr (s : State) {a b : RAcc} (h : a.sr = b.sr) : s.keepSr a = s.keepSr b := by
  unfold State.keepSr
  rw [h]

/-- A result that has not stepped the generator. -/
theorem State.writeVF_of_sr (s : State) {d : Fin 32} {nw : Bool} {en : PWord} {lat : Nat} {r : VWord × RAcc} (h : r.2.sr = s.racc.sr) :
    s.writeVF d nw en lat r = (s.keepSr s.racc).writeV d nw r.1 en lat r.2.fl := by
  rw [State.writeVF, s.keepSr_congr h]

/-- A result that has neither stepped the generator nor set a flag. -/
theorem State.writeVF_of_racc (s : State) {d : Fin 32} {nw : Bool} {en : PWord} {lat : Nat} {r : VWord × RAcc} (h : r.2 = s.racc) :
    s.writeVF d nw en lat r = (s.keepSr s.racc).writeV d nw r.1 en lat := by
  rw [State.writeVF, h]
  rfl

section
variable {s : State} {a b : Src} {x y : VWord} {ty : Ty} {d : Fin 32} {nw sb : Bool} {pg : Fin 16} {lat : Nat} (h : s.Calm)
  (ha : s.srcV a = .ok x)
include h ha

theorem slotOp_bodyVB (f : Ty → PWord → VWord → VWord → RAcc → VWord × RAcc) (hb : s.srcSb ty sb b = .ok y) :
    slotOp false (bodyVB f lat d nw a b sb pg ty) s
      = .next (s.writeVF d nw (laneMask ty (s.guard pg)) lat (f ty (s.guard pg) x y s.racc)).slotEnd :=
  slotOp_calm h (by simp only [bodyVB, ha, hb, bind, Except.bind, pure, Except.pure])

theorem slotOp_bodyVU (f : Ty → PWord → VWord → RAcc → VWord × RAcc) : slotOp false (bodyVU f lat d nw a pg ty) s
    = .next (s.writeVF d nw (laneMask ty (s.guard pg)) lat (f ty (s.guard pg) x s.racc)).slotEnd :=
  slotOp_calm h (by simp only [bodyVU, ha, bind, Except.bind, pure, Except.pure])

end

end Sys2Proof.Machine
end

section
/-! SUPPORT. The integer element operations (R209): results that wrap or saturate, with their flag, and those that cannot overflow. -/
namespace Sys2Proof.Machine

/-! ### Results that wrap or saturate -/

/-- `x` is outside the range of a type. -/
def outOfRange (t : Ty) (x : Int) : Bool := decide (x < intLo (tySigned t) (tyBits t)) || decide (intHi (tySigned t) (tyBits t) < x)

theorem outOfRange_eq_true {t : Ty} {x : Int} :
    outOfRange t x = true ↔ x < intLo (tySigned t) (tyBits t) ∨ intHi (tySigned t) (tyBits t) < x := by
  rw [outOfRange, Bool.or_eq_true, decide_eq_true_eq, decide_eq_true_eq]

theorem intLo_le_intHi (t : Ty) : intLo (tySigned t) (tyBits t) ≤ intHi (tySigned t) (tyBits t) := by cases t <;> decide

theorem wrapInt_mod (n : Nat) (x : Int) : wrapInt n x % 2 ^ n = wrapInt n x := by
  refine Nat.mod_eq_of_lt ?_
  have hpos : (0 : Int) < 2 ^ n := by positivity
  have hlt := Int.emod_lt_of_pos x hpos
  have hge := Int.emod_nonneg x hpos.ne'
  rw [wrapInt, ← Int.ofNat_lt, Int.toNat_of_nonneg hge]
  exact_mod_cast hlt

theorem intResult_fst (t : Ty) (sat : Bool) (x : Int) (a : RAcc) : (intResult t sat x a).1
    = wrapInt (tyBits t) (if sat then max (intLo (tySigned t) (tyBits t)) (min (intHi (tySigned t) (tyBits t)) x) else x) := by
  have hrange := intLo_le_intHi t
  have hcond : (decide (x < intLo (tySigned t) (tyBits t)) || decide (intHi (tySigned t) (tyBits t) < x)) = outOfRange t x := rfl
  cases sat with
  | false => rfl
  | true =>
    simp only [intResult, hcond, Bool.true_and, if_true]
    split
    case isTrue hout =>
      rw [outOfRange_eq_true] at hout
      exact congrArg (wrapInt _) (by split <;> omega)
    case isFalse hin =>
      rw [outOfRange_eq_true] at hin
      exact congrArg (wrapInt _) (by omega)

theorem intResult_snd (t : Ty) (sat : Bool) (x : Int) (a : RAcc) :
    (intResult t sat x a).2 = a.flag (flagIf (sat && outOfRange t x) flagNV) := by
  have hcond : (decide (x < intLo (tySigned t) (tyBits t)) || decide (intHi (tySigned t) (tyBits t) < x)) = outOfRange t x := rfl
  simp only [intResult, hcond]
  cases sat && outOfRange t x
  · exact (RAcc.flag_zero a).symm
  · rfl

/-- One flag raised by any of a list. -/
theorem foldl_flagIf (p : Nat → Bool) (f : Flags) (l : List Nat) (a : RAcc) :
    l.foldl (fun a i => a.flag (flagIf (p i) f)) a = a.flag (flagIf (l.any p) f) := by
  induction l generalizing a with
  | nil => exact (RAcc.flag_zero a).symm
  | cons i rest ih =>
    rw [List.foldl_cons, ih, List.any_cons]
    cases p i <;> cases rest.any p <;> simp [RAcc.flag, flagIf, BitVec.or_assoc]

/-- What R209 asks of the result `r` and the flags `fl` of an operation whose exact element results are `exact`: each enabled element
brought into range or wrapped, and NV exactly when an enabled element saturates. -/
def FitsElements (t : Ty) (sat : Bool) (g : PWord) (exact : Nat → Int) (r : VWord) (fl : Flags) : Prop :=
  let lo := intLo (tySigned t) (tyBits t)
  let hi := intHi (tySigned t) (tyBits t)
  (∀ k < lanes t, enabled t g k = true → elem t r k = wrapInt (tyBits t) (if sat then max lo (min hi (exact k)) else exact k))
    ∧ (fl = 0 ∨ fl = flagNV)
    ∧ (fl = flagNV ↔ sat = true ∧ ∃ k < lanes t, enabled t g k = true ∧ (exact k < lo ∨ hi < exact k))

section
variable {t : Ty} {sat : Bool} {g : PWord} (exact : Nat → Int) (a : RAcc)

theorem vmap_intResult_snd : (vmap t g (fun i a => intResult t sat (exact i) a) a).2
    = a.flag (flagIf ((enabledLanes t g).any fun i => sat && outOfRange t (exact i)) flagNV) := by
  simp only [vmap_snd, intResult_snd]
  exact foldl_flagIf _ _ _ _

theorem vmap_intResult_fits (h0 : a.fl = 0) : FitsElements t sat g exact (vmap t g (fun i a => intResult t sat (exact i) a) a).1
    (vmap t g (fun i a => intResult t sat (exact i) a) a).2.fl := by
  have hfl : (vmap t g (fun i a => intResult t sat (exact i) a) a).2.fl
      = flagIf ((enabledLanes t g).any fun i => sat && outOfRange t (exact i)) flagNV := by
    simp [vmap_intResult_snd, RAcc.flag, h0]
  refine ⟨fun k hk hen => ?value, ?none_or_nv, ?nv⟩
  case value => rw [elem_vmap (fun i a => intResult_fst t sat (exact i) a) a hk hen, wrapInt_mod]
  case none_or_nv =>
    rw [hfl]
    cases List.any _ _ <;> simp [flagIf]
  case nv =>
    have hflag : ∀ b : Bool, flagIf b flagNV = flagNV ↔ b = true := by decide
    rw [hfl, hflag]
    simp only [List.any_eq_true, mem_enabledLanes, Bool.and_eq_true, outOfRange_eq_true]
    exact ⟨fun ⟨k, ⟨hk, hen⟩, hsat, hout⟩ => ⟨hsat, k, hk, hen, hout⟩,
      fun ⟨hsat, k, hk, hen, hout⟩ => ⟨k, ⟨hk, hen⟩, hsat, hout⟩⟩

theorem sr_vmap_intResult : (vmap t g (fun i a => intResult t sat (exact i) a) a).2.sr = a.sr := by
  rw [vmap_intResult_snd]
  rfl

end

/-- Such a result, put in flight at latency 2. -/
theorem fits_lands {s : State} {t : Ty} {sat : Bool} {g en : PWord} {d : Fin 32} {nw : Bool} {i : Instr} (exact : Nat → Int)
    (hexec : exec i s = .next (s.writeVF d nw en 2 (vmap t g (fun k a => intResult t sat (exact k) a) s.racc)).slotEnd) :
    ∃ r fl, FitsElements t sat g exact r fl ∧ exec i s = .next ((s.keepSr s.racc).writeV d nw r en 2 fl).slotEnd := by
  rw [s.writeVF_of_sr (sr_vmap_intResult exact s.racc)] at hexec
  exact ⟨_, _, vmap_intResult_fits exact s.racc rfl, hexec⟩

/-- A result of a four-source operation that has not stepped the generator. -/
theorem State.writeWhole_of_sr (s : State) {d : Fin 32} {nw : Bool} {en : PWord} {lat : Nat} {r : VWord × RAcc} (h : r.2.sr = s.racc.sr) :
    s.writeWhole d nw en lat r = (s.keepSr s.racc).writeV d nw (merge (s.regV d.val) r.1 en) allLanes lat r.2.fl :=
  s.writeVF_of_sr (r := (merge (s.regV d.val) r.1 en, r.2)) h

theorem exec_vmad {s : State} {o : VMadOp} {x y z : VWord} (h : s.Calm) (ha : s.srcV o.a = .ok x) (hb : s.srcSb o.ty o.sb o.b = .ok y)
    (hc : s.srcV o.c = .ok z) : exec (.vmad o) s
      = .next (s.writeWhole o.d o.nw (laneMask o.ty (s.guard o.pg)) 2 (vmadV o.ty o.sat (s.guard o.pg) x y z s.racc)).slotEnd :=
  slotOp_calm h (by simp only [ha, hb, hc, bind, Except.bind, pure, Except.pure])

/-- Settles O19: each operation gives its exact element results, which then wrap or saturate. -/
theorem vectorArithmetic : Obligations.VectorArithmetic := by
  unfold Obligations.VectorArithmetic
  intro s o u m x y z h ha hb hu hd hnw hma hmb hsb hsat hpg hty hz
  subst hu
  have hbin := fun f => slotOp_bodyVB (d := o.d) (nw := o.nw) (pg := o.pg) (lat := 2) h ha (fun t g => vint2 f t o.sat g) hb
  have hun := fun f : Int → Int => slotOp_bodyVU (d := o.d) (nw := o.nw) (ty := o.ty) (pg := o.pg) (lat := 2) h ha
    (fun t g x => vint2 (fun p _ => f p) t o.sat g x x)
  refine ⟨fits_lands _ (hbin _), fits_lands _ (hbin _), fits_lands _ (hbin _), fits_lands _ (hun _), fits_lands _ (hun _), ?mad⟩
  case mad =>
    have hexec := exec_vmad h (hma ▸ ha) (by rw [hty, hsb, hmb, hb]) hz
    rw [hd, hnw, hsat, hpg, hty] at hexec
    refine ⟨_, _, vmap_intResult_fits _ s.racc rfl, hexec.trans ?_⟩
    rw [vmadV, s.writeWhole_of_sr (sr_vmap_intResult _ s.racc)]

/-! ### Results that cannot overflow -/

/-- An operation of the elements alone, put in flight at latency 2 with no flag. -/
theorem elements_land {s : State} {t : Ty} {g en : PWord} {d : Fin 32} {nw : Bool} {i : Instr} {v : Nat → Nat}
    (hexec : exec i s = .next (s.writeVF d nw en 2 (vmap t g (fun k a => (v k, a)) s.racc)).slotEnd) (hv : ∀ k, v k < 2 ^ tyBits t) :
    ∃ r, exec i s = .next ((s.keepSr s.racc).writeV d nw r en 2).slotEnd ∧ ∀ k < lanes t, enabled t g k = true → elem t r k = v k := by
  rw [s.writeVF_of_racc (vmap_snd_of_kept (fun _ _ => rfl) s.racc)] at hexec
  refine ⟨_, hexec, fun k hk hen => ?_⟩
  rw [elem_vmap (v := v) (fun _ _ => rfl) _ hk hen, Nat.mod_eq_of_lt (hv k)]

theorem wrapInt_lt (n : Nat) (x : Int) : wrapInt n x < 2 ^ n := wrapInt_mod n x ▸ Nat.mod_lt _ (Nat.two_pow_pos n)

/-- Settles O20: the element operations without saturation, and the operations on whole registers. -/
theorem vectorIntegerOps : Obligations.VectorIntegerOps := by
  unfold Obligations.VectorIntegerOps
  intro s o x y h ha hb g w puts lands
  have hexec := fun f => slotOp_bodyVB (d := o.d) (nw := o.nw) (pg := o.pg) (lat := 2) h ha f hb
  refine ⟨elements_land (hexec _) fun _ => wrapInt_lt .., elements_land (hexec _) fun _ => wrapInt_lt ..,
    elements_land (hexec _) fun _ => wrapInt_lt .., elements_land (hexec _) fun _ => Nat.mod_lt _ (Nat.two_pow_pos _),
    elements_land (hexec _) fun k => Nat.lt_of_le_of_lt (Nat.div_le_self ..) (elem_lt ..), elements_land (hexec _) fun _ => wrapInt_lt ..,
    hexec _, hexec _, hexec _⟩

end Sys2Proof.Machine
end

section
/-! SUPPORT. The floating element operations (R210): one rounding of the exact result in each enabled lane, and the generator's steps. -/
namespace Sys2Proof.Machine

/-! ### The generator (R43, R207) -/

theorem RAcc.sr_mode (a : RAcc) (rm : Rm) : (a.mode rm).2.sr = if rm = .sr then srStep a.sr else a.sr := by cases rm <;> rfl

/-- Only SR draws on the generator. -/
theorem RAcc.mode_fst {rm : Rm} (h : rm ≠ .sr) (a b : RAcc) : (a.mode rm).1 = (b.mode rm).1 := by
  cases rm with
  | sr => exact absurd rfl h
  | rne | rtz | ru | rd => rfl

theorem roundF_fst {rm : Rm} (h : rm ≠ .sr) (f : FFmt) (x : Ext) (a b : RAcc) : (roundF f rm x a).1 = (roundF f rm x b).1 := by
  rw [roundF_eq, roundF_eq, RAcc.mode_fst h a b]

theorem foldl_range_eq_iterate {α : Type} (f : α → α) (n : Nat) (a : α) : (List.range n).foldl (fun t _ => f t) a = f^[n] a := by
  rw [List.foldl_const, List.length_range]

/-- A rounding in each enabled lane steps the generator once there under SR, and not otherwise. -/
theorem sr_vmap_round {t : Ty} {g : PWord} {f : Nat → RAcc → Nat × RAcc} {rm : Rm}
    (h : ∀ i a, (f i a).2.sr = if rm = .sr then srStep a.sr else a.sr) (a : RAcc) : (vmap t g f a).2.sr
      = (List.range (if rm = .sr then (enabledLanes t g).length else 0)).foldl (fun t _ => srStep t) a.sr := by
  rw [foldl_range_eq_iterate]
  by_cases hrm : rm = .sr
  · simp only [hrm, if_true] at h ⊢
    exact sr_vmap h a
  · simp only [hrm, if_false] at h ⊢
    exact sr_vmap_of_kept h a

/-! ### Extrema of two values -/

namespace Ext

/-- Whether the second of two values is the lesser, or the greater. -/
def overtakes (least : Bool) (x y : Ext) : Bool := if least then y.lt x else x.lt y

theorem overtakes_irrefl (least : Bool) (x : Ext) : x.overtakes least x = false := by cases least <;> exact lt_irrefl x

theorem overtakes_asymm {least : Bool} {x y : Ext} (h : x.overtakes least y = true) : y.overtakes least x = false := by
  cases least with
  | false => exact lt_asymm (x := x) (y := y) h
  | true => exact lt_asymm (x := y) (y := x) h

end Ext

/-! ### One operation of elements -/

section
variable {f : FFmt} {rm : Rm} {op : Ext → Ext → Ext × Flags} {x y z : Nat} {a : RAcc}

theorem fbin_sr : (fbin f rm op x y a).2.sr = if rm = .sr then srStep a.sr else a.sr := RAcc.sr_mode _ rm

theorem fmaOp_sr : (fmaOp f rm x y z a).2.sr = if rm = .sr then srStep a.sr else a.sr := RAcc.sr_mode _ rm

theorem fbin_fst (h : rm ≠ .sr) : (fbin f rm op x y a).1 = (roundF f rm (op (f.decode x) (f.decode y)).1 ⟨0, 0⟩).1 := roundF_fst h ..

theorem fmaOp_fst (h : rm ≠ .sr) : (fmaOp f rm x y z a).1
    = (roundF f rm (Ext.add (isDown rm) (Ext.mul (f.decode x) (f.decode y)).1 (f.decode z)).1 ⟨0, 0⟩).1 := roundF_fst h ..

section
variable {lesser : Bool} (hx : f.decode x ≠ .nan) (hy : f.decode y ≠ .nan)
include hx hy

theorem fminmax_of_numbers : (fminmax f lesser x y a).1 = if (f.decode x).overtakes lesser (f.decode y) then y else x := by
  simp only [fminmax, FFmt.read_number hx, FFmt.read_number hy]
  cases hdx : f.decode x with
  | nan => exact absurd hdx hx
  | inf n | fin n m e st =>
    cases hdy : f.decode y with
    | nan => exact absurd hdy hy
    | inf k | fin k l i sk => cases lesser <;> rfl

theorem fminmax_mem : (fminmax f lesser x y a).1 ∈ [x, y] := by
  rw [fminmax_of_numbers hx hy, apply_ite (· ∈ [x, y])]
  simp only [List.mem_cons, true_or, or_true, ite_self]

/-- Neither operand overtakes the one picked. -/
theorem fminmax_unbeaten {u : Nat} (hu : u ∈ [x, y]) :
    (f.decode (fminmax f lesser x y a).1).overtakes lesser (f.decode u) = false := by
  rw [fminmax_of_numbers hx hy]
  simp only [List.mem_cons, List.not_mem_nil, or_false] at hu
  cases hxy : (f.decode x).overtakes lesser (f.decode y) with
  | true =>
    rcases hu with rfl | rfl
    · exact Ext.overtakes_asymm hxy
    · exact Ext.overtakes_irrefl ..
  | false =>
    rcases hu with rfl | rfl
    · exact Ext.overtakes_irrefl ..
    · exact hxy

end

/-- Adding the top bit of a number of `n + 1` bits, or taking it away, changes it and no other. -/
theorem xor_topBit {n : Nat} (hx : x < 2 ^ (n + 1)) : (if 2 ^ n ≤ x then x - 2 ^ n else x + 2 ^ n) = x ^^^ 2 ^ n := by
  rw [Nat.pow_succ] at hx
  split
  · next hge =>
    have hback : x - 2 ^ n + 2 ^ n = (x - 2 ^ n) ^^^ 2 ^ n := add_two_pow_eq_xor (by omega)
    rw [Nat.sub_add_cancel hge] at hback
    calc x - 2 ^ n
      _ = (x - 2 ^ n) ^^^ 2 ^ n ^^^ 2 ^ n := (Nat.xor_xor_cancel_right _ _).symm
      _ = x ^^^ 2 ^ n := by rw [← hback]
  · next hlt => exact add_two_pow_eq_xor (Nat.not_le.1 hlt)

theorem fsignOp_fst (neg : Bool) (hx : x < 2 ^ (f.man + f.expBits + 1)) : (fsignOp f neg x a).1
    = if f.decode x = .nan then nanCode f else if neg then x ^^^ 2 ^ (f.man + f.expBits) else x % 2 ^ (f.man + f.expBits) := by
  rw [← xor_topBit hx]
  simp only [fsignOp, FFmt.read, Ext.isNan_eq, decide_eq_true_eq]

end

/-! ### Elements of f16, bf16 and f32 -/

section
variable {t : Ty} (ht : t ∈ [Ty.f16, .bf16, .f32])
include ht

theorem tyF_bits : (tyF t).man + (tyF t).expBits = tyBits t - 1 := by revert t; decide

theorem nanCode_lt : nanCode (tyF t) < 2 ^ tyBits t := by revert t; decide

theorem roundF_nan_mod (rm : Rm) (a : RAcc) : (roundF (tyF t) rm .nan a).1 % 2 ^ tyBits t = (tyF t).nanCode.getD 0 := by
  simp only [List.mem_cons, List.not_mem_nil, or_false] at ht
  rcases ht with rfl | rfl | rfl <;> rfl

theorem fsignOp_elem (neg : Bool) (v : VWord) (k : Nat) (a : RAcc) : (fsignOp (tyF t) neg (elem t v k) a).1 % 2 ^ tyBits t
    = if (tyF t).decode (elem t v k) = .nan then nanCode (tyF t)
      else if neg then elem t v k ^^^ 2 ^ (tyBits t - 1) else elem t v k % 2 ^ (tyBits t - 1) := by
  have hsucc : tyBits t - 1 + 1 = tyBits t := Nat.sub_add_cancel (tyBits_pos t)
  have hlt : elem t v k < 2 ^ ((tyF t).man + (tyF t).expBits + 1) := by rw [tyF_bits ht, hsucc]; exact elem_lt t v k
  have hhalf : 2 ^ (tyBits t - 1) < 2 ^ tyBits t := Nat.pow_lt_pow_right (by decide) (by omega)
  rw [fsignOp_fst neg hlt, tyF_bits ht]
  refine Nat.mod_eq_of_lt ?_
  split
  · exact nanCode_lt ht
  · split
    · exact Nat.xor_lt_two_pow (elem_lt t v k) hhalf
    · exact (Nat.mod_lt _ (Nat.two_pow_pos _)).trans hhalf

end

/-- The exact sum of two finite values that do not cancel. -/
theorem Ext.add_fin_of_eq (d : Bool) {na nb : Bool} {ma mb : Nat} {ea eb v : Int}
    (hv : alignTo na ma ea (min ea eb) + alignTo nb mb eb (min ea eb) = v) (h0 : v ≠ 0) :
    (Ext.add d (.fin na ma ea false) (.fin nb mb eb false)).1 = .fin (decide (v < 0)) v.natAbs (min ea eb) false := by
  subst hv
  rw [Ext.add_fin d h0]

/-! ### Operations of registers -/

section
variable {t : Ty} {g : PWord} {rm : Rm} {x y z : VWord} {a : RAcc} {k : Nat} (hk : k < lanes t) (hen : enabled t g k = true)
include hk hen

theorem elem_vf2_fbin {op : Ext → Ext → Ext × Flags} (hrm : rm ≠ .sr) {v : Ext}
    (hv : (op ((tyF t).decode (elem t x k)) ((tyF t).decode (elem t y k))).1 = v) :
    elem t (vf2 (fun f => fbin f rm op) t g x y a).1 k = (roundF (tyF t) rm v ⟨0, 0⟩).1 % 2 ^ tyBits t := by
  refine (elem_vmap_from ⟨0, 0⟩ (fun i b => ?_) a hk hen).trans (congrArg (· % 2 ^ tyBits t) (hv ▸ fbin_fst hrm))
  exact (fbin_fst hrm).trans (fbin_fst hrm).symm

theorem elem_vmap_fmaOp (hrm : rm ≠ .sr) {v : Ext}
    (hv : (Ext.add (isDown rm) (Ext.mul ((tyF t).decode (elem t x k)) ((tyF t).decode (elem t y k))).1
      ((tyF t).decode (elem t z k))).1 = v) :
    elem t (vmap t g (fun i a => fmaOp (tyF t) rm (elem t x i) (elem t y i) (elem t z i) a) a).1 k
      = (roundF (tyF t) rm v ⟨0, 0⟩).1 % 2 ^ tyBits t := by
  refine (elem_vmap_from ⟨0, 0⟩ (fun i b => ?_) a hk hen).trans (congrArg (· % 2 ^ tyBits t) (hv ▸ fmaOp_fst hrm))
  exact (fmaOp_fst hrm).trans (fmaOp_fst hrm).symm

theorem elem_vf2_fminmax {lesser : Bool} (hx : (tyF t).decode (elem t x k) ≠ .nan) (hy : (tyF t).decode (elem t y k) ≠ .nan) :
    elem t (vf2 (fun f => fminmax f lesser) t g x y a).1 k = (fminmax (tyF t) lesser (elem t x k) (elem t y k) a).1 := by
  rw [vf2, elem_vmap_from a (fun _ _ => rfl) a hk hen]
  refine Nat.mod_eq_of_lt ?_
  have hmem := fminmax_mem (lesser := lesser) (a := a) hx hy
  simp only [List.mem_cons, List.not_mem_nil, or_false] at hmem
  rcases hmem with hp | hp <;> rw [hp] <;> exact elem_lt ..

theorem elem_vf1_fsignOp (ht : t ∈ [Ty.f16, .bf16, .f32]) (neg : Bool) : elem t (vf1 (fun f => fsignOp f neg) t g x a).1 k
    = if (tyF t).decode (elem t x k) = .nan then nanCode (tyF t)
      else if neg then elem t x k ^^^ 2 ^ (tyBits t - 1) else elem t x k % 2 ^ (tyBits t - 1) := by
  rw [vf1, elem_vmap_from a (fun _ _ => rfl) a hk hen, fsignOp_elem ht]

end

/-! ### What VFADD, VFSUB, VFMUL and VFMA give an element (R210) -/

section
variable {t : Ty} {g : PWord} {rm : Rm} {x y z : VWord} {a : RAcc} {k : Nat} (ht : t ∈ [Ty.f16, .bf16, .f32]) (hk : k < lanes t)
  (hen : enabled t g k = true) (hrm : rm ≠ .sr)
include ht hk hen hrm

/-- The result of an operation of two sources is the canonical NaN where its value is NaN. -/
theorem elem_vf2_fbin_nan {op : Ext → Ext → Ext × Flags}
    (hv : (op ((tyF t).decode (elem t x k)) ((tyF t).decode (elem t y k))).1 = .nan) :
    elem t (vf2 (fun f => fbin f rm op) t g x y a).1 k = (tyF t).nanCode.getD 0 :=
  (elem_vf2_fbin hk hen hrm hv).trans (roundF_nan_mod ht _ _)

section
variable (hnan : (tyF t).decode (elem t x k) = .nan ∨ (tyF t).decode (elem t y k) = .nan)
include hnan

theorem elem_vfadd_nan : elem t (vf2 (fun f => faddOp f rm) t g x y a).1 k = (tyF t).nanCode.getD 0 :=
  elem_vf2_fbin_nan ht hk hen hrm (Ext.add_nan _ hnan)

theorem elem_vfsub_nan : elem t (vf2 (fun f => fsubOp f rm) t g x y a).1 k = (tyF t).nanCode.getD 0 :=
  elem_vf2_fbin_nan ht hk hen hrm (Ext.add_nan _ (hnan.imp_right Ext.negate_eq_nan))

theorem elem_vfmul_nan : elem t (vf2 (fun f => fmulOp f rm) t g x y a).1 k = (tyF t).nanCode.getD 0 :=
  elem_vf2_fbin_nan ht hk hen hrm (Ext.mul_nan hnan)

theorem elem_vfma_nan : elem t (vmap t g (fun i a => fmaOp (tyF t) rm (elem t x i) (elem t y i) (elem t z i) a) a).1 k
    = (tyF t).nanCode.getD 0 :=
  (elem_vmap_fmaOp hk hen hrm (Ext.add_nan _ (.inl (Ext.mul_nan hnan)))).trans (roundF_nan_mod ht _ _)

end

end

section
variable {t : Ty} {g : PWord} {rm : Rm} {x y z : VWord} {a : RAcc} {k : Nat} (hk : k < lanes t) (hen : enabled t g k = true)
  (hrm : rm ≠ .sr) {nx ny : Bool} {mx my : Nat} {ex ey : Int} (hx : (tyF t).decode (elem t x k) = .fin nx mx ex false)
  (hy : (tyF t).decode (elem t y k) = .fin ny my ey false)
include hk hen hrm hx hy

theorem elem_vfadd {v : Int} (hv : alignTo nx mx ex (min ex ey) + alignTo ny my ey (min ex ey) = v) (h0 : v ≠ 0) :
    elem t (vf2 (fun f => faddOp f rm) t g x y a).1 k
      = (roundF (tyF t) rm (.fin (decide (v < 0)) v.natAbs (min ex ey) false) ⟨0, 0⟩).1 % 2 ^ tyBits t :=
  elem_vf2_fbin hk hen hrm (by rw [hx, hy, Ext.add_fin_of_eq _ hv h0])

theorem elem_vfsub {v : Int} (hv : alignTo nx mx ex (min ex ey) - alignTo ny my ey (min ex ey) = v) (h0 : v ≠ 0) :
    elem t (vf2 (fun f => fsubOp f rm) t g x y a).1 k
      = (roundF (tyF t) rm (.fin (decide (v < 0)) v.natAbs (min ex ey) false) ⟨0, 0⟩).1 % 2 ^ tyBits t := by
  have hsum : alignTo nx mx ex (min ex ey) + alignTo (!ny) my ey (min ex ey) = v := by rw [alignTo_not, ← Int.sub_eq_add_neg, hv]
  exact elem_vf2_fbin hk hen hrm (by rw [hx, hy, Ext.negate, Ext.add_fin_of_eq _ hsum h0])

theorem elem_vfmul : elem t (vf2 (fun f => fmulOp f rm) t g x y a).1 k
    = (roundF (tyF t) rm (.fin (nx != ny) (mx * my) (ex + ey) false) ⟨0, 0⟩).1 % 2 ^ tyBits t :=
  elem_vf2_fbin hk hen hrm (by rw [hx, hy]; rfl)

theorem elem_vfma {nz : Bool} {mz : Nat} {ez v : Int} (hz : (tyF t).decode (elem t z k) = .fin nz mz ez false)
    (hv : alignTo (nx != ny) (mx * my) (ex + ey) (min (ex + ey) ez) + alignTo nz mz ez (min (ex + ey) ez) = v) (h0 : v ≠ 0) :
    elem t (vmap t g (fun i a => fmaOp (tyF t) rm (elem t x i) (elem t y i) (elem t z i) a) a).1 k
      = (roundF (tyF t) rm (.fin (decide (v < 0)) v.natAbs (min (ex + ey) ez) false) ⟨0, 0⟩).1 % 2 ^ tyBits t :=
  elem_vmap_fmaOp hk hen hrm (by rw [hx, hy, hz, Ext.mul, Ext.add_fin_of_eq _ hv h0])

end

/-- VFMIN and VFMAX of an element. -/
theorem elem_vfextremum {t : Ty} {g : PWord} {x y : VWord} {k : Nat} (lesser : Bool) (a : RAcc) (hk : k < lanes t)
    (hen : enabled t g k = true) (hx : (tyF t).decode (elem t x k) ≠ .nan) (hy : (tyF t).decode (elem t y k) ≠ .nan) :
    let c := elem t (vf2 (fun f => fminmax f lesser) t g x y a).1 k
    c ∈ [elem t x k, elem t y k] ∧ ∀ u ∈ [elem t x k, elem t y k],
      ((tyF t).decode c).overtakes lesser ((tyF t).decode u) = false := by
  intro c
  have hc : c = (fminmax (tyF t) lesser (elem t x k) (elem t y k) a).1 := elem_vf2_fminmax hk hen hx hy
  rw [hc]
  exact ⟨fminmax_mem hx hy, fun u hu => fminmax_unbeaten hx hy hu⟩

theorem exec_vfma {s : State} {o : VFmaOp} {x y z : VWord} (h : s.Calm) (ha : s.srcV o.a = .ok x) (hb : s.srcSb o.ty o.sb o.b = .ok y)
    (hc : s.srcV o.c = .ok z) : exec (.vfma o) s = .next (s.writeWhole o.d o.nw (laneMask o.ty (s.guard o.pg)) 4
      (vmap o.ty (s.guard o.pg) (fun i a => fmaOp (tyF o.ty) o.rm (elem o.ty x i) (elem o.ty y i) (elem o.ty z i) a) s.racc)).slotEnd :=
  slotOp_calm h (by simp only [ha, hb, hc, bind, Except.bind, pure, Except.pure])

/-- Settles O21: the operations that round by the exact results of their elements, the others by what they pick. -/
theorem vectorFloatResults : Obligations.VectorFloatResults := by
  unfold Obligations.VectorFloatResults
  intro s o p u m x y z h ha hb hp hu hd hnw hma hmb hsb hrm hpg hty hz g mask F w X Y Z nan val code rounded lands steps keeps each finite
  subst hp hu
  have hval : val = alignTo := by funext n m e k; exact (alignTo_eq n m e k).symm
  clear_value val
  subst hval
  have hbin := fun f => slotOp_bodyVB (d := o.d) (nw := o.nw) (pg := o.pg) (lat := 4) h ha f hb
  have hun := fun f => slotOp_bodyVU (d := o.d) (nw := o.nw) (ty := o.ty) (pg := o.pg) (lat := 4) h ha f
  have hkeeps : ∀ f : Nat → RAcc → Nat × RAcc, (∀ i a, (f i a).2.sr = a.sr) → keeps (vmap o.ty g f s.racc) 0 :=
    fun f hf => sr_vmap_of_kept hf s.racc
  have hsteps := fun op => sr_vmap_round (t := o.ty) (g := g) (f := fun i a => fbin F o.rm op (elem o.ty x i) (elem o.ty y i) a)
    (fun _ _ => fbin_sr) s.racc
  refine ⟨⟨_, hbin _, hsteps _, fun ht k hk hen hmode => ⟨fun hnan => ?sumNan, fun nx mx ex ny my ey hx hy => ?sum⟩⟩,
    ⟨_, hbin _, hsteps _, fun ht k hk hen hmode => ⟨fun hnan => ?differenceNan, fun nx mx ex ny my ey hx hy => ?difference⟩⟩,
    ⟨_, hbin _, hsteps _, fun ht k hk hen hmode => ⟨fun hnan => ?productNan, fun nx mx ex ny my ey hx hy => ?product⟩⟩,
    ⟨_, hbin _, hkeeps _ fun _ _ => rfl, fun ht k hk hen hx hy => ?least⟩,
    ⟨_, hbin _, hkeeps _ fun _ _ => rfl, fun ht k hk hen hx hy => ?greatest⟩,
    ⟨_, hun _, hkeeps _ fun _ _ => rfl, fun ht k hk hen => elem_vf1_fsignOp hk hen ht false⟩,
    ⟨_, hun _, hkeeps _ fun _ _ => rfl, fun ht k hk hen => elem_vf1_fsignOp hk hen ht true⟩,
    ⟨vmap o.ty g (fun i a => fmaOp F o.rm (elem o.ty x i) (elem o.ty y i) (elem o.ty z i) a) s.racc, ?fma,
      sr_vmap_round (fun _ _ => fmaOp_sr) s.racc,
      fun ht k hk hen hmode => ⟨fun hnan => ?fmaNan, fun nx mx ex ny my ey hx hy => ?fmaSum⟩⟩⟩
  case sumNan => exact elem_vfadd_nan ht hk hen hmode hnan
  case differenceNan => exact elem_vfsub_nan ht hk hen hmode hnan
  case productNan => exact elem_vfmul_nan ht hk hen hmode hnan
  case fmaNan => exact elem_vfma_nan ht hk hen hmode hnan
  case sum => exact fun h0 => elem_vfadd hk hen hmode hx hy rfl h0
  case difference => exact fun h0 => elem_vfsub hk hen hmode hx hy rfl h0
  case product => exact elem_vfmul hk hen hmode hx hy
  case fmaSum => exact fun nz mz ez hz h0 => elem_vfma hk hen hmode hx hy hz rfl h0
  case least =>
    obtain ⟨hmem, hleast⟩ := elem_vfextremum true s.racc hk hen hx hy
    exact ⟨hmem, hleast _ (by simp), hleast _ (by simp)⟩
  case greatest =>
    obtain ⟨hmem, hgreatest⟩ := elem_vfextremum false s.racc hk hen hx hy
    exact ⟨hmem, hgreatest _ (by simp), hgreatest _ (by simp)⟩
  case fma =>
    have hexec := exec_vfma h (hma ▸ ha) (by rw [hty, hsb, hmb, hb]) hz
    rw [hd, hnw, hrm, hpg, hty] at hexec
    exact hexec

end Sys2Proof.Machine
end

section
/-! SUPPORT. Compares, selection, broadcast, insertion and extraction of elements (R211, R212). -/
namespace Sys2Proof.Machine

/-! ### Floating comparisons (R211) -/

section
variable {f : FFmt} {c : CmpC} {x y : Nat} {a : RAcc}

theorem fcompare_of_nan (h : f.decode x = .nan ∨ f.decode y = .nan) : (fcompare f c x y a).1 = decide (c = .ne ∨ c = .un) := by
  have hun : ((f.decode x).isNan || (f.decode y).isNan) = true := by simpa [Ext.isNan_eq] using h
  cases c <;> simp [fcompare, FFmt.read, hun]

/-- Two finite values compare as their integers at the lesser exponent. -/
theorem fcompare_of_fin {nx ny : Bool} {mx my : Nat} {ex ey : Int} (hx : f.decode x = .fin nx mx ex false)
    (hy : f.decode y = .fin ny my ey false) :
    (fcompare f c x y a).1 = icompare c (alignTo nx mx ex (min ex ey)) (alignTo ny my ey (min ex ey)) := by
  cases c <;> simp [fcompare, icompare, FFmt.read_fin hx, FFmt.read_fin hy, Ext.isNan, Ext.numEq_fin, Ext.numLt_fin, Int.le_iff_lt_or_eq,
    Int.min_comm ey ex, eq_comm]

/-- The answer does not depend on the generator or the flags. -/
theorem fcompare_fst (b : RAcc) : (fcompare f c x y a).1 = (fcompare f c x y b).1 := by simp only [fcompare, FFmt.read]

theorem fcompare_sr : (fcompare f c x y a).2.sr = a.sr := by
  show (if _ then RAcc.flag _ _ else _).sr = _
  rw [apply_ite RAcc.sr]
  exact ite_self _

end

/-! ### Predicate results -/

section
variable {t : Ty} {g : PWord} {f : Nat → RAcc → Bool × RAcc}

theorem sr_pmap_of_kept (h : ∀ i a, (f i a).2.sr = a.sr) (a : RAcc) : (pmap t g f a).2.sr = a.sr := by
  rw [pmap_snd]
  induction enabledLanes t g generalizing a with
  | nil => rfl
  | cons i rest ih => rw [List.foldl_cons, ih, h]

theorem pmap_snd_of_kept (h : ∀ i a, (f i a).2 = a) (a : RAcc) : (pmap t g f a).2 = a := by
  rw [pmap_snd]
  simp only [h, List.foldl_fixed]

end

/-- A predicate that has not stepped the generator. -/
theorem State.writePF_of_sr (s : State) {d : Fin 16} {nw : Bool} {lat : Nat} {r : PWord × RAcc} (h : r.2.sr = s.racc.sr) :
    s.writePF d nw lat r = (s.keepSr s.racc).writeP d nw r.1 lat r.2.fl := by
  rw [State.writePF, s.keepSr_congr h]

/-- The predicate bits that VFCMP gives an element. -/
theorem getLsbD_vfcmp {t : Ty} {g : PWord} {c : CmpC} {x y : VWord} {k b : Nat} (a : RAcc) (hk : k < lanes t) (hb : b < tyBits t / 8) :
    (pmap t g (fun i a => fcompare (tyF t) c (elem t x i) (elem t y i) a) a).1.getLsbD (tyBits t / 8 * k + b)
      = (enabled t g k && (fcompare (tyF t) c (elem t x k) (elem t y k) a).1) :=
  getLsbD_pmap (p := fun i => (fcompare (tyF t) c (elem t x i) (elem t y i) a).1) (fun _ _ => fcompare_fst a) a hk hb

theorem getLsbD_vcmp {t : Ty} {g : PWord} {c : CmpC} {x y : VWord} {k b : Nat} (a : RAcc) (hk : k < lanes t) (hb : b < tyBits t / 8) :
    (pmap t g (fun i a => (icompare c (ielem t x i) (ielem t y i), a)) a).1.getLsbD (tyBits t / 8 * k + b)
      = (enabled t g k && icompare c (ielem t x k) (ielem t y k)) :=
  getLsbD_pmap (p := fun i => icompare c (ielem t x i) (ielem t y i)) (fun _ _ => rfl) a hk hb

/-! ### The instructions -/

section
variable {s : State} (h : s.Calm)
include h

section
variable {o : VCmpOp} {x y : VWord} (ha : s.srcV o.a = .ok x) (hb : s.srcSb o.ty o.sb o.b = .ok y)
include ha hb

/-- An integer comparison sets no flag and leaves the generator. -/
theorem exec_vcmp : exec (.vcmp o) s = .next ((s.keepSr s.racc).writeP o.pd o.nw (pmap o.ty (s.guard o.pg)
    (fun i a => (icompare o.cc (ielem o.ty x i) (ielem o.ty y i), a)) s.racc).1 2).slotEnd := by
  have hexec : exec (.vcmp o) s = .next (s.writePF o.pd o.nw 2 (pmap o.ty (s.guard o.pg)
      (fun i a => (icompare o.cc (ielem o.ty x i) (ielem o.ty y i), a)) s.racc)).slotEnd :=
    slotOp_calm h (by simp only [ha, hb, bind, Except.bind, pure, Except.pure])
  rw [hexec, State.writePF, pmap_snd_of_kept (fun _ _ => rfl) s.racc]
  rfl

/-- A floating comparison leaves the generator. -/
theorem exec_vfcmp : exec (.vfcmp o) s = .next ((s.keepSr s.racc).writeP o.pd o.nw
    (pmap o.ty (s.guard o.pg) (fun i a => fcompare (tyF o.ty) o.cc (elem o.ty x i) (elem o.ty y i) a) s.racc).1 2
    (pmap o.ty (s.guard o.pg) (fun i a => fcompare (tyF o.ty) o.cc (elem o.ty x i) (elem o.ty y i) a) s.racc).2.fl).slotEnd := by
  rw [← s.writePF_of_sr (sr_pmap_of_kept (fun _ _ => fcompare_sr) s.racc)]
  exact slotOp_calm h (by simp only [ha, hb, bind, Except.bind, pure, Except.pure])

end

theorem exec_vsel {o : VTri} {x y : VWord} {c : PWord} (ha : s.srcV o.a = .ok x) (hb : s.srcV o.b = .ok y) (hc : s.srcP o.c = .ok c) :
    exec (.vsel o) s = .next (s.writeV o.d o.nw (vselV o.ty c x y) (laneMask o.ty (s.guard o.pg)) 2).slotEnd :=
  slotOp_calm h (by simp only [ha, hb, hc, bind, Except.bind, pure, Except.pure])

theorem exec_vbcst {o : VUn} {w : Word} (ha : s.srcS o.a = .ok w) :
    exec (.vbcst o) s = .next (s.writeV o.d o.nw (broadcast o.ty w) (laneMask o.ty (s.guard o.pg)) 2).slotEnd :=
  slotOp_calm h (by simp only [ha, bind, Except.bind, pure, Except.pure])

section
variable {o : VTwo} {x : VWord} {w i : Word} (hb : s.srcS o.b = .ok i)
include hb

theorem exec_vins (ha : s.srcS o.a = .ok w) (hi : i.toNat < lanes o.ty) : exec (.vins o) s
    = .next (s.writeV o.d o.nw (broadcast o.ty w) (insMask o.ty (s.guard o.pg) i.toNat) 2).slotEnd :=
  slotOp_calm h (by simp only [ha, hb, hi, if_true, bind, Except.bind, pure, Except.pure])

theorem exec_vins_outside (ha : s.srcS o.a = .ok w) (hi : lanes o.ty ≤ i.toNat) : exec (.vins o) s = .next (s.slotFault laneRange) :=
  slotOp_fault h (by simp only [ha, hb, Nat.not_lt.2 hi, if_false, bind, Except.bind])

theorem exec_vext (ha : s.srcV o.a = .ok x) (hi : i.toNat < lanes o.ty) : exec (.vext o) s
    = .next (s.writeS o.d o.nw (vextV o.ty x i.toNat) 2).slotEnd :=
  slotOp_calm h (by simp only [ha, hb, hi, if_true, bind, Except.bind, pure, Except.pure])

theorem exec_vext_outside (ha : s.srcV o.a = .ok x) (hi : lanes o.ty ≤ i.toNat) : exec (.vext o) s = .next (s.slotFault laneRange) :=
  slotOp_fault h (by simp only [ha, hb, Nat.not_lt.2 hi, if_false, bind, Except.bind])

end

end

theorem elem_vselV (t : Ty) (c : PWord) (x y : VWord) {k : Nat} (hk : k < lanes t) :
    elem t (vselV t c x y) k = if enabled t c k then elem t x k else elem t y k := by
  rw [vselV, elem_packElems_map t _ hk]
  split <;> exact elem_mod ..

/-- Settles O22: the compares by the bits of their predicates, the moves by their elements. -/
theorem vectorMoveResults : Obligations.VectorMoveResults := by
  unfold Obligations.VectorMoveResults
  intro s o q u v n e x y c w i h ha hb hqb hqc hv hn hqa hua hna hea heb g lands
  have hmov := slotOp_bodyVU (d := u.d) (nw := u.nw) (ty := u.ty) (pg := u.pg) (lat := 2) h (hua ▸ ha) fun _ _ x a => (x, a)
  refine ⟨?vcmp, ?vfcmp, ?vsel, ?vbcst, hmov, ?vins, exec_vins_outside h hn (hna ▸ hv),
    exec_vext h (heb ▸ hn) (hea ▸ ha), exec_vext_outside h (heb ▸ hn) (hea ▸ ha)⟩
  case vcmp => exact ⟨_, exec_vcmp h ha hb, fun k hk b hb => getLsbD_vcmp _ hk hb⟩
  case vsel => exact ⟨_, exec_vsel h (hqa ▸ ha) hqb hqc, fun k hk => elem_vselV q.ty c x y hk⟩
  case vbcst => exact ⟨_, exec_vbcst h hv, fun k hk => elem_broadcast v.ty w hk⟩
  case vins => exact fun hi => ⟨_, _, exec_vins h hn (hna ▸ hv) hi, elem_broadcast n.ty w hi, rfl⟩
  case vfcmp =>
    refine ⟨_, _, exec_vfcmp h ha hb, fun ht k hk b hb => ?_⟩
    rw [getLsbD_vfcmp s.racc hk hb]
    refine ⟨fun hen => ?_, fun hen hnan => ?_, fun nx mx ex ny my ey hen hx hy => ?_⟩
    · rw [hen, Bool.false_and]
    · rw [hen, Bool.true_and, fcompare_of_nan hnan]
    · rw [hen, Bool.true_and, fcompare_of_fin hx hy, alignTo_eq, alignTo_eq]

end Sys2Proof.Machine
end

section
/-! SUPPORT. Vector loads, stores, gathers and scatters of the scratchpad (R213 to R215): the addresses they check, and what they move. -/
namespace Sys2Proof.Machine

/-! ### Addresses (R213, R214) -/

theorem vectorAddr_ok {a : Word} {imm : BitVec 12} {addr : Nat} (h : (a.toNat : Int) + 256 * imm.toInt = addr) (hin : addr + 256 ≤ 3145728)
    (halign : addr % 256 = 0) : vectorAddr a imm = .ok addr := by
  have hrange : ¬((addr : Int) < 0 ∨ (spmSize : Int) < (addr : Int) + 256) := by rw [spmSize]; omega
  simp only [vectorAddr, h, hrange, Int.toNat_natCast, halign, ne_eq, not_true_eq_false, if_false]

section
variable {t : Ty} {g : PWord} {addr : Nat → Int}

/-- An enabled element lies outside the scratchpad. -/
def ElementOutside (t : Ty) (g : PWord) (addr : Nat → Int) : Prop :=
  ∃ k < lanes t, enabled t g k = true ∧ (addr k < 0 ∨ 3145728 < addr k + (tyBits t / 8 : Nat))

/-- An enabled element's address is no multiple of its size. -/
def ElementMisaligned (t : Ty) (g : PWord) (addr : Nat → Int) : Prop :=
  ∃ k < lanes t, enabled t g k = true ∧ (addr k).toNat % (tyBits t / 8) ≠ 0

theorem any_enabledLanes {p : Nat → Bool} {q : Nat → Prop} (h : ∀ k, p k = true ↔ q k) :
    (enabledLanes t g).any p = true ↔ ∃ k < lanes t, enabled t g k = true ∧ q k := by
  simp only [List.any_eq_true, mem_enabledLanes, h, and_assoc]

theorem any_outside : ((enabledLanes t g).any fun k => decide (addr k < 0) || decide ((spmSize : Int) - (tyBits t / 8 : Nat) < addr k)) = true
    ↔ ElementOutside t g addr := by
  refine any_enabledLanes fun k => ?_
  have hsize : (spmSize : Int) = 3145728 := rfl
  simp only [Bool.or_eq_true, decide_eq_true_eq]
  omega

theorem any_misaligned : ((enabledLanes t g).any fun k => decide ((addr k).toNat % (tyBits t / 8) ≠ 0)) = true ↔ ElementMisaligned t g addr :=
  any_enabledLanes fun _ => decide_eq_true_iff

theorem elemAddrs_outside (h : ElementOutside t g addr) : elemAddrs t g addr = .error (scratchpadRange 2) := if_pos (any_outside.2 h)

theorem elemAddrs_misaligned (hin : ¬ElementOutside t g addr) (h : ElementMisaligned t g addr) :
    elemAddrs t g addr = .error (misalignedAccess 2) :=
  (if_neg (mt any_outside.1 hin)).trans (if_pos (any_misaligned.2 h))

theorem elemAddrs_ok (hin : ¬ElementOutside t g addr) (h : ¬ElementMisaligned t g addr) :
    elemAddrs t g addr = .ok ((enabledLanes t g).map fun k => (k, (addr k).toNat)) :=
  (if_neg (mt any_outside.1 hin)).trans (if_neg (mt any_misaligned.1 h))

/-- The checks pass exactly when no enabled element is outside and none is misaligned. -/
theorem elemAddrs_eq_ok {l : List (Nat × Nat)} : elemAddrs t g addr = .ok l
    ↔ (¬ElementOutside t g addr ∧ ¬ElementMisaligned t g addr) ∧ l = (enabledLanes t g).map fun k => (k, (addr k).toNat) := by
  by_cases hout : ElementOutside t g addr
  · simp [elemAddrs_outside hout, hout]
  · by_cases hmis : ElementMisaligned t g addr
    · simp [elemAddrs_misaligned hout hmis, hmis]
    · simp [elemAddrs_ok hout hmis, hout, hmis, eq_comm]

end

/-! ### Loads and stores -/

theorem State.loadElems_of_sound {s : State} (h : s.myCore.bad = []) (t : Ty) (l : List (Nat × Nat)) : ∃ r, s.loadElems t l = .ok r := by
  refine ⟨_, if_neg ?_⟩
  simp [h]

section
variable {s : State} {a b : Word} {y : VWord} (h : s.Calm)
include h

theorem exec_vld {o : VLoc} {addr : Nat} (ha : s.srcS o.a = .ok a) (haddr : vectorAddr a o.imm = .ok addr) (hbad : s.myCore.bad = []) :
    exec (.vld o) s = .next (s.writeV o.d o.nw (bytesV (s.myCore.loadBytes addr 256)) (laneMask o.ty (s.guard o.pg)) 8).slotEnd :=
  slotOp_calm h (by simp only [ha, haddr, Core.load_of_sound hbad, bind, Except.bind, pure, Except.pure])

theorem exec_vst {d : Fin 32} {n : Src} {imm : BitVec 12} {pg : Fin 16} {t : Ty} {addr : Nat} (ha : s.srcS n = .ok a)
    (haddr : vectorAddr a imm = .ok addr) : exec (.vst d n imm pg t) s = .next (s.onMyCore fun x => x.storeMasked addr
      ((vbytes (s.regV d.val)).zip ((List.range 256).map fun k => (laneMask t (s.guard pg)).getLsbD k))).slotEnd :=
  slotOp_calm h (by simp only [ha, haddr, bind, Except.bind, pure, Except.pure])

section
variable {l : List (Nat × Nat)}

theorem exec_vlds {o : VTwo} {r : VWord} (ha : s.srcS o.a = .ok a) (hb : s.srcS o.b = .ok b)
    (hl : elemAddrs o.ty (s.guard o.pg) (fun k => (a.toNat : Int) + k * b.toInt) = .ok l) (hr : s.loadElems o.ty l = .ok r) :
    exec (.vlds o) s = .next (s.writeV o.d o.nw r (laneMask o.ty (s.guard o.pg)) 8).slotEnd :=
  slotOp_calm h (by simp only [ha, hb, hl, hr, bind, Except.bind, pure, Except.pure])

theorem exec_vgath {o : VTwo} {r : VWord} (ha : s.srcS o.a = .ok a) (hb : s.srcV o.b = .ok y)
    (hl : elemAddrs o.ty (s.guard o.pg) (gatherAddr o.ty a y) = .ok l) (hr : s.loadElems o.ty l = .ok r) :
    exec (.vgath o) s = .next (s.writeV o.d o.nw r (laneMask o.ty (s.guard o.pg)) 8).slotEnd :=
  slotOp_calm h (by simp only [ha, hb, hl, hr, bind, Except.bind, pure, Except.pure])

theorem exec_vscat {d : Fin 32} {n m : Src} {pg : Fin 16} {t : Ty} (ha : s.srcS n = .ok a) (hb : s.srcV m = .ok y)
    (hl : elemAddrs t (s.guard pg) (gatherAddr t a y) = .ok l) : exec (.vscat d n m pg t) s = .next (l.foldl (fun u p =>
      u.onMyCore fun x => x.storeBytes p.2 (leBytes (elem t (s.regV d.val) p.1) (tyBits t / 8))) s).slotEnd :=
  slotOp_calm h (by simp only [ha, hb, hl, bind, Except.bind, pure, Except.pure])

end

end

/-- Settles O23: each instruction by the addresses that pass its check; the check of several addresses by its three outcomes. -/
theorem vectorLocalResults : Obligations.VectorLocalResults := by
  unfold Obligations.VectorLocalResults
  refine ⟨⟨fun s o a addr h ha haddr hin halign => ?whole, fun s o v a b y l h ha hb hy hv => ?elements⟩, fun t g addr => ?addresses⟩
  case whole =>
    have hok := vectorAddr_ok haddr hin halign
    exact ⟨exec_vld h ha hok, exec_vst h ha hok⟩
  case elements =>
    rw [hv]
    refine ⟨fun hl hbad => ?_, fun hl hbad => ?_, fun hl => exec_vscat h ha hy hl⟩
    · obtain ⟨r, hr⟩ := State.loadElems_of_sound hbad o.ty l
      exact ⟨r, exec_vlds h ha hb hl hr, hr⟩
    · obtain ⟨r, hr⟩ := State.loadElems_of_sound hbad o.ty l
      exact ⟨r, exec_vgath h ha hy hl hr, hr⟩
  case addresses =>
    refine ⟨fun l hl => (elemAddrs_eq_ok.1 hl).2, ⟨fun ⟨l, hl⟩ k hk hen => ?sound, fun hgood => ?complete⟩,
      fun k hk hen => ⟨fun hout => elemAddrs_outside ⟨k, hk, hen, hout⟩, fun hmis hall => ?misaligned⟩⟩
    case sound =>
      obtain ⟨⟨hin, haligned⟩, -⟩ := elemAddrs_eq_ok.1 hl
      have hk_in : ¬(addr k < 0 ∨ 3145728 < addr k + (tyBits t / 8 : Nat)) := fun hout => hin ⟨k, hk, hen, hout⟩
      exact ⟨by omega, by omega, by_contra fun hmis => haligned ⟨k, hk, hen, hmis⟩⟩
    case complete =>
      refine ⟨_, elemAddrs_ok ?_ ?_⟩
      · rintro ⟨k, hk, hen, hout⟩
        obtain ⟨hlo, hhi, -⟩ := hgood k hk hen
        omega
      · rintro ⟨k, hk, hen, hmis⟩
        obtain ⟨-, -, haligned⟩ := hgood k hk hen
        exact hmis haligned
    case misaligned =>
      refine elemAddrs_misaligned ?_ ⟨k, hk, hen, hmis⟩
      rintro ⟨j, hj, henj, hout⟩
      obtain ⟨hlo, hhi⟩ := hall j hj henj
      omega

end Sys2Proof.Machine
end

section
/-! SUPPORT. Predicates (R225 to R227): the logical operations and their words, counting, the first elements, packing and unpacking. -/
namespace Sys2Proof.Machine

/-! ### Logical operations (R225) -/

section
variable {s : State} {a b : PWord} (h : s.Calm)
include h

theorem slotOp_bodyP2 {o : PBin} (f : PWord → PWord → PWord) (ha : s.srcP o.a = .ok a) (hb : s.srcP o.b = .ok b) :
    slotOp false (bodyP2 f o) s = .next (s.writeP o.pd o.nw (f a b &&& s.guard o.pg) 2).slotEnd :=
  slotOp_calm h (by simp only [bodyP2, ha, hb, bind, Except.bind, pure, Except.pure])

theorem slotOp_bodyP1 {o : PUn} (f : PWord → PWord) (ha : s.srcP o.a = .ok a) :
    slotOp false (bodyP1 f o) s = .next (s.writeP o.pd o.nw (f a &&& s.guard o.pg) 2).slotEnd :=
  slotOp_calm h (by simp only [bodyP1, ha, bind, Except.bind, pure, Except.pure])

end

/-- A word that confirms an instruction has that instruction's fields. -/
theorem confirm_encodeV_eq_illegal {i : Instr} {f : VxFields} {w : BitVec 48} (he : encodeVf i = some f) (hf : f ≠ vxFields w) :
    confirm encodeV w (.op i) = .illegal := by
  refine if_neg fun hboth => hf ?_
  rw [encodeV, he, Option.map_some, Bool.and_eq_true, beq_iff_eq, Option.some.injEq] at hboth
  rw [← hboth.2, vxFields_word]

/-- The op8 codes 0x50 to 0x55 parse to an instruction whose type field is 0. -/
theorem parseV_logic {f : VxFields} (hlo : 0x50 ≤ f.op.toNat) (hhi : f.op.toNat ≤ 0x55) :
    ∃ i e, parseV f = .op i ∧ encodeVf i = some e ∧ e.ty = 0 := by
  obtain hop | hop | hop | hop | hop | hop : f.op.toNat = 0x50 ∨ f.op.toNat = 0x51 ∨ f.op.toNat = 0x52 ∨ f.op.toNat = 0x53
      ∨ f.op.toNat = 0x54 ∨ f.op.toNat = 0x55 := by omega
  all_goals
    simp only [parseV, hop]
    exact ⟨_, _, rfl, rfl, rfl⟩

/-- Settles O54: two shared bodies with their functions; a word with a type would not encode what it parses to. -/
theorem predicateLogic : Obligations.PredicateLogic := by
  unfold Obligations.PredicateLogic
  refine ⟨fun s o u a b h ha hb hu => ?results, fun w hlo hhi hty => ?words⟩
  case results =>
    exact ⟨slotOp_bodyP2 h _ ha hb, slotOp_bodyP2 h _ ha hb, slotOp_bodyP2 h _ ha hb, slotOp_bodyP2 h _ ha hb, slotOp_bodyP1 h _ hu,
      slotOp_bodyP1 h _ hu⟩
  case words =>
    obtain ⟨i, e, hparse, hfields, he⟩ := parseV_logic (f := vxFields w) hlo hhi
    rw [decodeV, hparse]
    refine confirm_encodeV_eq_illegal hfields fun hf => hty ?_
    rw [← he, hf]
    rfl

/-! ### Counting and the first elements (R226) -/

theorem enabled_and (t : Ty) (a g : PWord) (k : Nat) : enabled t (a &&& g) k = (enabled t a k && enabled t g k) := BitVec.getLsbD_and

theorem pcntV_eq (t : Ty) (a g : PWord) :
    pcntV t a g = BitVec.ofNat 64 ((List.range (lanes t)).countP fun k => enabled t a k && enabled t g k) := by
  rw [pcntV, enabledLanes, ← List.countP_eq_length_filter, funext (enabled_and t a g)]

/-- Two elements that share a byte lane are one. -/
theorem sameElement {w i k b : Nat} (hb : b < w) : w * i ≤ w * k + b ∧ w * k + b - w * i < w ↔ k = i := by
  constructor
  · rintro ⟨hle, hlt⟩
    rcases Nat.lt_trichotomy k i with hki | heq | hik
    · have hnext : w * k + w ≤ w * i := Nat.mul_succ w k ▸ Nat.mul_le_mul_left w hki
      omega
    · exact heq
    · have hnext : w * i + w ≤ w * k := Nat.mul_succ w i ▸ Nat.mul_le_mul_left w hik
      omega
  · rintro rfl
    omega

theorem getLsbD_elemBits {t : Ty} {i k b : Nat} (hk : k < lanes t) (hb : b < tyBits t / 8) :
    (elemBits t i).getLsbD (tyBits t / 8 * k + b) = decide (k = i) := by
  have hplace : tyBits t / 8 * k + b < 256 := Nat.lt_of_lt_of_le (place_lt hk hb) (predBits_le t)
  rw [elemBits, BitVec.getLsbD_ofNat, Nat.testBit_mul_two_pow, Nat.testBit_two_pow_sub_one, decide_eq_true hplace, Bool.true_and,
    ← Bool.decide_and, decide_eq_decide]
  exact sameElement hb

theorem pfirstV_eq (t : Ty) (a g : PWord) :
    pfirstV t a g = ((List.range (lanes t)).find? (enabled t (a &&& g))).elim 0 (elemBits t) := by
  rw [← List.head?_filter, pfirstV, enabledLanes]
  cases (List.range (lanes t)).filter (enabled t (a &&& g)) <;> rfl

/-- The bits that PFIRST sets are those of the lowest element that is set and enabled. -/
theorem getLsbD_pfirstV {t : Ty} {a g : PWord} {k b : Nat} (hk : k < lanes t) (hb : b < tyBits t / 8) :
    (pfirstV t a g).getLsbD (tyBits t / 8 * k + b) = true
      ↔ enabled t (a &&& g) k = true ∧ ∀ j < k, ¬enabled t (a &&& g) j = true := by
  rw [pfirstV_eq]
  cases hfound : (List.range (lanes t)).find? (enabled t (a &&& g)) with
  | none =>
    have hnone := List.find?_range_eq_none.1 hfound k hk
    refine iff_of_false ?_ (by simp_all)
    rw [Option.elim_none, BitVec.ofNat_eq_ofNat, BitVec.getLsbD_zero]
    exact Bool.false_ne_true
  | some n =>
    obtain ⟨hset, -, hclear⟩ := List.find?_range_eq_some.1 hfound
    rw [Option.elim_some, getLsbD_elemBits hk hb, decide_eq_true_eq]
    constructor
    · rintro rfl
      exact ⟨hset, fun j hj => by simpa using hclear j hj⟩
    · rintro ⟨hkset, hkfirst⟩
      rcases Nat.lt_trichotomy k n with hlt | heq | hgt
      · exact absurd hkset (by simpa using hclear k hlt)
      · exact heq
      · exact absurd hset (hkfirst n hgt)

/-! ### Packed predicates (R227) -/

/-- Predicate `k` of eight that are packed into a vector register. -/
theorem extract_packNat (p : Nat → PWord) {k : Nat} (hk : k < 8) :
    (BitVec.ofNat 2048 (packNat 256 ((List.range 8).map fun i => (p i).toNat))).extractLsb' (256 * k) 256 = p k := by
  refine BitVec.eq_of_getLsbD_eq fun b hb => ?_
  rw [BitVec.getLsbD_extractLsb', BitVec.getLsbD_ofNat, testBit_packNat hb, List.getElem?_map, List.getElem?_range hk, Option.map_some,
    Option.getD_some, decide_eq_true hb, decide_eq_true (show 256 * k + b < 2048 by omega)]
  rfl

/-! ### The instructions -/

section
variable {s : State} (h : s.Calm)
include h

theorem exec_pcnt {o : VUn} {a : PWord} (ha : s.srcP o.a = .ok a) :
    exec (.pcnt o) s = .next (s.writeS o.d o.nw (pcntV o.ty a (s.guard o.pg)) 2).slotEnd :=
  slotOp_calm h (by simp only [ha, bind, Except.bind, pure, Except.pure])

theorem exec_pfirst {o : PElt} {a : PWord} (ha : s.srcP o.a = .ok a) :
    exec (.pfirst o) s = .next (s.writeP o.pd o.nw (pfirstV o.ty a (s.guard o.pg)) 2).slotEnd :=
  slotOp_calm h (by simp only [ha, bind, Except.bind, pure, Except.pure])

theorem exec_psetn {o : PElt} {m : Word} (ha : s.srcS o.a = .ok m) :
    exec (.psetn o) s = .next (s.writeP o.pd o.nw (psetnV o.ty m (s.guard o.pg)) 2).slotEnd :=
  slotOp_calm h (by simp only [ha, bind, Except.bind, pure, Except.pure])

theorem exec_ppack (d : Fin 32) (nw : Bool) (f : Fin 9) : exec (.ppack d nw f) s = .next (s.writeV d nw
    (BitVec.ofNat 2048 (packNat 256 ((List.range 8).map fun i => (s.iss.entry.readP (f.val + i)).toNat))) allLanes 2).slotEnd :=
  slotOp_calm h rfl

theorem exec_punpk {v : Src} {x : VWord} (f : Fin 9) (hv : s.srcV v = .ok x) : exec (.punpk f v) s = .next ((List.range 8).foldl
    (fun t k => t.writeNoLatch .p (f.val + k) ((x.extractLsb' (256 * k) 256).setWidth 2048) 2) s).slotEnd :=
  slotOp_calm h (by simp only [hv, bind, Except.bind, pure, Except.pure])

end

/-- Settles O25: each instruction by the bits of its result. -/
theorem predicateResults : Obligations.PredicateResults := by
  unfold Obligations.PredicateResults
  intro s p q n a m x v d nw f h ha hpa hm hx
  refine ⟨?count, ⟨_, exec_pfirst h (hpa ▸ ha), fun k hk i hi => ?first⟩, ⟨_, exec_psetn h hm, fun i hi => ?firstN⟩,
    ⟨_, exec_ppack h d nw f, fun k hk => extract_packNat (fun i => s.iss.entry.readP (f.val + i)) hk⟩, exec_punpk h f hx⟩
  case count => rw [exec_pcnt h ha, pcntV_eq]
  case first => simp only [getLsbD_pfirstV hk hi, enabled_and, Bool.and_eq_true, and_assoc]
  case firstN => rw [BitVec.getLsbD_ofNat, Nat.testBit_two_pow_sub_one, decide_eq_true hi, Bool.true_and]

end Sys2Proof.Machine
end

section
/-! SUPPORT. Horizontal reductions (R220, R221): exact sums and extrema of the enabled elements. -/
namespace Sys2Proof.Machine

/-! ### Integer elements -/

theorem readInt_range (signed : Bool) {n : Nat} (hn : 0 < n) (v : Nat) :
    intLo signed n ≤ readInt signed n v ∧ readInt signed n v ≤ intHi signed n := by
  have hlt : v % 2 ^ n < 2 ^ n := Nat.mod_lt _ (Nat.two_pow_pos n)
  have hhalf : 2 ^ n = 2 * 2 ^ (n - 1) := by rw [← Nat.pow_succ', Nat.succ_eq_add_one, Nat.sub_add_cancel hn]
  have hcast : ∀ k : Nat, (2 : Int) ^ k = ((2 ^ k : Nat) : Int) := fun k => by push_cast; rfl
  simp only [readInt, intLo, intHi, hcast]
  cases signed with
  | false => simp only [Bool.false_eq_true, false_and, if_false]; omega
  | true =>
    simp only [true_and, if_true]
    split <;> omega

theorem ielem_range (t : Ty) (v : VWord) (k : Nat) :
    intLo (tySigned t) (tyBits t) ≤ ielem t v k ∧ ielem t v k ≤ intHi (tySigned t) (tyBits t) := readInt_range _ (tyBits_pos t) _

section
variable (f : Nat → Int) {start : Int} {l : List Nat} (hne : l ≠ [])
include hne

/-- The greatest value on a list, from a start that is above none of them. -/
theorem foldl_max_greatest (hlo : ∀ k ∈ l, start ≤ f k) :
    ∃ k ∈ l, l.foldl (fun m i => max m (f i)) start = f k ∧ ∀ j ∈ l, f j ≤ f k := by
  have hfold : l.foldl (fun m i => max m (f i)) start = max start ((l.map f).max?.getD start) := by
    rw [← List.foldl_map, List.foldl_max]
  cases hm : (l.map f).max? with
  | none => exact absurd (List.map_eq_nil_iff.1 (List.max?_eq_none_iff.1 hm)) hne
  | some v =>
    obtain ⟨hmem, hmax⟩ := List.max?_eq_some_iff.1 hm
    obtain ⟨k, hk, rfl⟩ := List.mem_map.1 hmem
    exact ⟨k, hk, by rw [hfold, hm, Option.getD_some, max_eq_right (hlo k hk)], fun j hj => hmax _ (List.mem_map_of_mem hj)⟩

theorem foldl_min_least (hhi : ∀ k ∈ l, f k ≤ start) :
    ∃ k ∈ l, l.foldl (fun m i => min m (f i)) start = f k ∧ ∀ j ∈ l, f k ≤ f j := by
  have hfold : l.foldl (fun m i => min m (f i)) start = min start ((l.map f).min?.getD start) := by
    rw [← List.foldl_map, List.foldl_min]
  cases hm : (l.map f).min? with
  | none => exact absurd (List.map_eq_nil_iff.1 (List.min?_eq_none_iff.1 hm)) hne
  | some v =>
    obtain ⟨hmem, hmin⟩ := List.min?_eq_some_iff.1 hm
    obtain ⟨k, hk, rfl⟩ := List.mem_map.1 hmem
    exact ⟨k, hk, by rw [hfold, hm, Option.getD_some, min_eq_right (hhi k hk)], fun j hj => hmin _ (List.mem_map_of_mem hj)⟩

end

section
variable {t : Ty} (ht : tyFloat t = none) (g : PWord) (x : VWord) (a : RAcc)
include ht

theorem vrsumV_int (rm : Rm) : (vrsumV t rm g x a).1 = BitVec.ofInt 64 (((enabledLanes t g).map (ielem t x)).sum) := by
  rw [vrsumV, ht, List.sum_eq_foldl, List.foldl_map]
  rfl

theorem vrmax_int (hne : enabledLanes t g ≠ []) : ∃ k ∈ enabledLanes t g,
    (vrextV false t g x a).1 = BitVec.ofInt 64 (ielem t x k) ∧ ∀ j ∈ enabledLanes t g, ielem t x j ≤ ielem t x k := by
  obtain ⟨k, hk, hfold, hgreatest⟩ := foldl_max_greatest (ielem t x) hne fun j _ => (ielem_range t x j).1
  refine ⟨k, hk, ?_, hgreatest⟩
  rw [← hfold, vrextV, ht]
  rfl

theorem vrmin_int (hne : enabledLanes t g ≠ []) : ∃ k ∈ enabledLanes t g,
    (vrextV true t g x a).1 = BitVec.ofInt 64 (ielem t x k) ∧ ∀ j ∈ enabledLanes t g, ielem t x k ≤ ielem t x j := by
  obtain ⟨k, hk, hfold, hleast⟩ := foldl_min_least (ielem t x) hne fun j _ => (ielem_range t x j).2
  refine ⟨k, hk, ?_, hleast⟩
  rw [← hfold, vrextV, ht]
  rfl

end

/-! ### Finite values in units of 2^-149, the quantum of f32 -/

/-- A finite exact value at an exponent that f32 has. -/
def Ext.OnGrid (x : Ext) : Prop := ∃ n m e, x = .fin n m e false ∧ -149 ≤ e

/-- The value of a finite number on the grid, in units of 2^-149. -/
def Ext.units : Ext → Int
  | .fin n m e _ => alignTo n m e (-149)
  | _ => 0

theorem FFmt.decode_onGrid {t : Ty} (ht : t ∈ [Ty.f16, .bf16, .f32]) {c : Nat} {n : Bool} {m : Nat} {e : Int}
    (h : (tyF t).decode c = .fin n m e false) : ((tyF t).decode c).OnGrid := by
  refine ⟨n, m, e, h, ?_⟩
  have hquantum : ∀ t ∈ [Ty.f16, .bf16, .f32], (-149 : Int) ≤ 1 - ((tyF t).bias : Int) - (tyF t).man := by decide
  have hmin := hquantum t ht
  unfold FFmt.decode at h
  dsimp only at h
  split at h
  all_goals
    split_ifs at h <;> cases h <;> omega

/-- Alignment in two steps. -/
theorem alignTo_units {n : Bool} {m : Nat} {e k : Int} (hke : k ≤ e) (hk : -149 ≤ k) :
    alignTo n m e k * 2 ^ (k + 149).toNat = (Ext.fin n m e false).units := by
  have hexp : (e - k).toNat + (k + 149).toNat = (e - -149).toNat := by omega
  rw [Ext.units, alignTo_eq, alignTo_eq, mul_assoc, ← pow_add, hexp]

theorem units_natAbs (v : Int) {k : Int} (hk : -149 ≤ k) :
    (Ext.fin (decide (v < 0)) v.natAbs k false).units = v * 2 ^ (k + 149).toNat := by
  have hsign : alignTo (decide (v < 0)) v.natAbs k k = v := by
    rw [alignTo_eq, Int.sub_self, Int.toNat_zero, pow_zero, mul_one, Int.natCast_natAbs]
    by_cases hv : v < 0
    · simp [hv, abs_of_neg hv]
    · simp [hv, abs_of_nonneg (Int.not_lt.1 hv)]
  rw [← alignTo_units le_rfl hk, hsign]

namespace Ext

theorem OnGrid.not_nan {x : Ext} (h : x.OnGrid) : x ≠ .nan := by
  obtain ⟨n, m, e, rfl, -⟩ := h
  nofun

theorem OnGrid.not_inf {x : Ext} (h : x.OnGrid) (n : Bool) : x ≠ .inf n := by
  obtain ⟨n, m, e, rfl, -⟩ := h
  nofun

section
variable {x y : Ext} (hx : x.OnGrid) (hy : y.OnGrid)
include hx hy

/-- A sum of two numbers on the grid is exact and on the grid. -/
theorem add_onGrid (d : Bool) : (add d x y).1.OnGrid ∧ (add d x y).1.units = x.units + y.units := by
  obtain ⟨nx, mx, ex, rfl, hex⟩ := hx
  obtain ⟨ny, my, ey, rfl, hey⟩ := hy
  have hunits : (fin nx mx ex false).units + (fin ny my ey false).units
      = (alignTo nx mx ex (min ex ey) + alignTo ny my ey (min ex ey)) * 2 ^ (min ex ey + 149).toNat := by
    rw [add_mul, alignTo_units (by omega) (by omega), alignTo_units (by omega) (by omega)]
  rw [hunits]
  by_cases h0 : alignTo nx mx ex (min ex ey) + alignTo ny my ey (min ex ey) = 0
  · have hzero : ∃ n, (add d (.fin nx mx ex false) (.fin ny my ey false)).1 = .fin n 0 0 false := by
      simp only [add, h0, if_true]
      split_ifs <;> exact ⟨_, rfl⟩
    obtain ⟨n, hn⟩ := hzero
    rw [hn, h0, zero_mul, units, alignTo_zero]
    exact ⟨⟨n, 0, 0, rfl, by decide⟩, rfl⟩
  · rw [add_fin d h0]
    exact ⟨⟨_, _, _, rfl, by omega⟩, units_natAbs _ (by omega)⟩

theorem units_le_of_lt (h : x.lt y = true) : x.units ≤ y.units := by
  obtain ⟨nx, mx, ex, rfl, hex⟩ := hx
  obtain ⟨ny, my, ey, rfl, hey⟩ := hy
  rw [← alignTo_units (k := min ex ey) (by omega) (by omega), ← alignTo_units (k := min ex ey) (by omega) (by omega)]
  refine mul_le_mul_of_nonneg_right ?_ (by positivity)
  simp only [lt, Bool.or_eq_true, Bool.and_eq_true, decide_eq_true_eq] at h
  omega

theorem units_le_of_not_lt (h : x.lt y = false) : y.units ≤ x.units := by
  obtain ⟨nx, mx, ex, rfl, hex⟩ := hx
  obtain ⟨ny, my, ey, rfl, hey⟩ := hy
  rw [← alignTo_units (k := min ex ey) (by omega) (by omega), ← alignTo_units (k := min ex ey) (by omega) (by omega)]
  refine mul_le_mul_of_nonneg_right ?_ (by positivity)
  simp only [lt, Bool.or_eq_false_iff, decide_eq_false_iff_not] at h
  omega

end

theorem sumList_onGrid (d : Bool) {l : List Ext} (h : ∀ x ∈ l, x.OnGrid) : (sumList d l).OnGrid ∧ (sumList d l).units = (l.map units).sum := by
  induction l with
  | nil => exact ⟨⟨false, 0, 0, rfl, by decide⟩, rfl⟩
  | cons x rest ih =>
    obtain ⟨hx, hrest⟩ := List.forall_mem_cons.1 h
    cases rest with
    | nil => exact ⟨hx, by simp [sumList]⟩
    | cons y rest =>
      obtain ⟨hgrid, hunits⟩ := ih hrest
      obtain ⟨hgrid', hunits'⟩ := add_onGrid hx hgrid d
      exact ⟨hgrid', by rw [List.map_cons, List.sum_cons, ← hunits, ← hunits']; rfl⟩

/-- The sum of numbers on the grid raises nothing. -/
theorem sum_eq_sumList (d : Bool) {l : List Ext} (h : ∀ x ∈ l, x.OnGrid) : sum d l = (sumList d l, 0) := by
  have hinf : l.contains (.inf true) = false := by
    rw [← Bool.not_eq_true, List.contains_iff_mem]
    exact fun hmem => (h _ hmem).not_inf true rfl
  have hnan : l.any isNan = false := by
    rw [← Bool.not_eq_true, List.any_eq_true]
    rintro ⟨x, hx, hn⟩
    rw [isNan_eq, decide_eq_true_eq] at hn
    exact (h x hx).not_nan hn
  simp only [sum, hinf, hnan, Bool.false_and, Bool.or_self, Bool.false_eq_true, if_false, flagIf]

end Ext

/-- `x` is not beyond `r` as the least, or as the greatest. -/
def Ext.NotBeyond (least : Bool) (x r : Ext) : Prop := if least then r.units ≤ x.units else x.units ≤ r.units

theorem Ext.NotBeyond.refl (least : Bool) (x : Ext) : x.NotBeyond least x := by cases least <;> exact Int.le_refl _

theorem Ext.NotBeyond.trans {least : Bool} {x y z : Ext} (hxy : x.NotBeyond least y) (hyz : y.NotBeyond least z) : x.NotBeyond least z := by
  cases least with
  | false => exact Int.le_trans hxy hyz
  | true => exact Int.le_trans hyz hxy

section
variable {least : Bool} {x y : Ext} (hx : x.OnGrid) (hy : y.OnGrid)
include hx hy

theorem Ext.notBeyond_of_overtakes (h : x.overtakes least y = true) : x.NotBeyond least y := by
  cases least with
  | false => exact units_le_of_lt hx hy h
  | true => exact units_le_of_lt hy hx h

theorem Ext.notBeyond_of_not_overtakes (h : x.overtakes least y = false) : y.NotBeyond least x := by
  cases least with
  | false => exact units_le_of_not_lt hx hy h
  | true => exact units_le_of_not_lt hy hx h

end

theorem extremum_cons {least : Bool} {x r : Ext} {rest : List Ext} (h : extremum least rest = some r) :
    extremum least (x :: rest) = some (if x.overtakes least r then r else x) := by
  rw [extremum, h]
  cases least <;> rfl

/-- The extremum of a list of numbers on the grid is one of them, and none of them is beyond it. -/
theorem extremum_onGrid (least : Bool) {l : List Ext} (hne : l ≠ []) (h : ∀ x ∈ l, x.OnGrid) :
    ∃ r ∈ l, extremum least l = some r ∧ ∀ x ∈ l, x.NotBeyond least r := by
  induction l with
  | nil => exact absurd rfl hne
  | cons x rest ih =>
    obtain ⟨hx, hrest⟩ := List.forall_mem_cons.1 h
    by_cases hnil : rest = []
    · subst hnil
      exact ⟨x, List.mem_cons_self .., rfl, List.forall_mem_singleton.2 (.refl least x)⟩
    · obtain ⟨r, hmem, hext, hbest⟩ := ih hnil hrest
      rw [extremum_cons hext]
      cases hr : x.overtakes least r with
      | true =>
        have hxr := Ext.notBeyond_of_overtakes hx (hrest r hmem) hr
        exact ⟨r, List.mem_cons_of_mem _ hmem, rfl, List.forall_mem_cons.2 ⟨hxr, hbest⟩⟩
      | false =>
        have hrx := Ext.notBeyond_of_not_overtakes hx (hrest r hmem) hr
        exact ⟨x, List.mem_cons_self .., rfl, List.forall_mem_cons.2 ⟨.refl least x, fun y hy => (hbest y hy).trans hrx⟩⟩

/-! ### Floating elements (R220) -/

/-- Every enabled element is finite. -/
def FiniteLanes (t : Ty) (g : PWord) (x : VWord) : Prop :=
  t ∈ [Ty.f16, .bf16, .f32] ∧ ∀ k ∈ enabledLanes t g, ∃ n m e, (tyF t).decode (elem t x k) = .fin n m e false

/-- The value of element `k`, in units of 2^-149. -/
def laneUnits (t : Ty) (x : VWord) (k : Nat) : Int := ((tyF t).decode (elem t x k)).units

theorem tyFloat_eq {t : Ty} (ht : t ∈ [Ty.f16, .bf16, .f32]) : tyFloat t = some (tyF t) := by revert t; decide

/-- The generator alone decides a rounding. -/
theorem roundF_fst_of_sr (f : FFmt) (rm : Rm) (x : Ext) {a b : RAcc} (h : a.sr = b.sr) : (roundF f rm x a).1 = (roundF f rm x b).1 := by
  cases rm with
  | sr =>
    have hmode : (a.mode .sr).1 = (b.mode .sr).1 := by simp only [RAcc.mode, h]
    rw [roundF_eq, roundF_eq, hmode]
  | rne | rtz | ru | rd => rfl

section
variable {t : Ty} {g : PWord} {x : VWord} (h : FiniteLanes t g x) (a : RAcc)
include h

theorem FiniteLanes.onGrid : ∀ y ∈ (enabledLanes t g).map fun k => (tyF t).decode (elem t x k), y.OnGrid := by
  obtain ⟨ht, hfin⟩ := h
  refine List.forall_mem_map.2 fun k hk => ?_
  obtain ⟨n, m, e, hdec⟩ := hfin k hk
  exact FFmt.decode_onGrid ht hdec

/-- The exact sum of the elements, rounded once. -/
theorem vrsumV_finite (rm : Rm) (hne : ((enabledLanes t g).map (laneUnits t x)).sum ≠ 0) :
    ∃ v k : Int, v * 2 ^ (k + 149).toNat = ((enabledLanes t g).map (laneUnits t x)).sum ∧ -149 ≤ k
      ∧ (vrsumV t rm g x a).1 = BitVec.ofNat 64 (roundF .f32 rm (.fin (decide (v < 0)) v.natAbs k false) a).1 := by
  obtain ⟨⟨n, m, e, hsum, he⟩, hunits⟩ := Ext.sumList_onGrid (isDown rm) h.onGrid
  have hm : m ≠ 0 := by
    rintro rfl
    rw [hsum, Ext.units, alignTo_zero, List.map_map] at hunits
    exact hne hunits.symm
  have hshape : Ext.fin n m e false = .fin (decide ((if n then -(m : Int) else m) < 0)) (if n then -(m : Int) else m).natAbs e false := by
    cases n <;> simp [hm, Nat.pos_iff_ne_zero]
  refine ⟨if n then -(m : Int) else m, e, ?_, he, ?_⟩
  · rw [← units_natAbs _ he, ← hshape, ← hsum, hunits, List.map_map]
    rfl
  · rw [← hshape, vrsumV, tyFloat_eq h.1]
    simp only [readLanes, Ext.sum_eq_sumList _ h.onGrid, hsum, RAcc.flag_zero]
    exact congrArg _ (roundF_fst_of_sr _ _ _ rfl)

/-- The extremum of the elements, as f32 encodes it. -/
theorem vrextV_finite (least : Bool) (hne : enabledLanes t g ≠ []) : ∃ k ∈ enabledLanes t g,
    (vrextV least t g x a).1 = BitVec.ofNat 64 (FFmt.f32.round .rne ((tyF t).decode (elem t x k))).1
      ∧ ∀ j ∈ enabledLanes t g, if least then laneUnits t x k ≤ laneUnits t x j else laneUnits t x j ≤ laneUnits t x k := by
  obtain ⟨r, hmem, hext, hbest⟩ := extremum_onGrid least (mt List.map_eq_nil_iff.1 hne) h.onGrid
  obtain ⟨k, hk, rfl⟩ := List.mem_map.1 hmem
  refine ⟨k, hk, ?_, fun j hj => hbest _ (List.mem_map_of_mem hj)⟩
  have hnumbers : ((enabledLanes t g).map fun k => (tyF t).decode (elem t x k)).filter (fun y => !y.isNan)
      = (enabledLanes t g).map fun k => (tyF t).decode (elem t x k) := by
    refine List.filter_eq_self.2 fun y hy => ?_
    rw [Ext.isNan_eq, decide_eq_false (h.onGrid y hy).not_nan, Bool.not_false]
  rw [vrextV, tyFloat_eq h.1]
  simp only [readLanes, hnumbers, hext]

end

/-! ### The rescaled sum (R221) -/

theorem vrmrsV_valid (t : Ty) (g c : PWord) (x : VWord) (a : RAcc) : (vrmrsV t g c x a).2.1 = true
    ↔ ∃ k < lanes t, enabled t g k = true ∧ enabled t c k = true := by
  have hempty : (vrmrsV t g c x a).2.1 = !((enabledLanes t g).filter (enabled t c)).isEmpty := by
    simp only [vrmrsV]
    split
    · next he => rw [he]; rfl
    · next he => rw [Bool.eq_false_of_not_eq_true he]; rfl
  rw [hempty, Bool.not_eq_true', List.isEmpty_eq_false_iff_exists_mem]
  simp only [List.mem_filter, mem_enabledLanes, and_assoc]

/-- With no valid element the sum is +0, and nothing is rounded. -/
theorem vrmrsV_none {t : Ty} {g c : PWord} {x : VWord} {a : RAcc} (h : (vrmrsV t g c x a).2.1 = false) :
    (vrmrsV t g c x a).1 = 0 ∧ (vrmrsV t g c x a).2.2 = a := by
  simp only [vrmrsV] at h ⊢
  split
  · exact ⟨rfl, rfl⟩
  · next he => rw [if_neg he] at h; cases h

/-! ### The instructions -/

section
variable {s : State} {x : VWord} (h : s.Calm)
include h

theorem exec_vrsum {o : VRed} (ha : s.srcV o.a = .ok x) :
    exec (.vrsum o) s = .next (s.writeSF o.d o.nw 6 (vrsumV o.ty o.rm (s.guard o.pg) x s.racc)).slotEnd :=
  slotOp_calm h (by simp only [ha, bind, Except.bind, pure, Except.pure])

theorem exec_vrmax {u : VUn} (ha : s.srcV u.a = .ok x) :
    exec (.vrmax u) s = .next (s.writeSF u.d u.nw 6 (vrextV false u.ty (s.guard u.pg) x s.racc)).slotEnd :=
  slotOp_calm h (by simp only [ha, bind, Except.bind, pure, Except.pure])

theorem exec_vrmin {u : VUn} (ha : s.srcV u.a = .ok x) :
    exec (.vrmin u) s = .next (s.writeSF u.d u.nw 6 (vrextV true u.ty (s.guard u.pg) x s.racc)).slotEnd :=
  slotOp_calm h (by simp only [ha, bind, Except.bind, pure, Except.pure])

theorem exec_vrmrs {r : VRmrsOp} {c : PWord} (ha : s.srcV r.a = .ok x) (hc : s.srcP r.c = .ok c) :
    let v := vrmrsV r.ty (s.guard r.pg) c x s.racc
    let t := s.writeSF r.d r.nw 6 (v.1, v.2.2)
    exec (.vrmrs r) s = .next (if r.nw then t
      else t.writeNoLatch .p r.pd.val ((if v.2.1 then allLanes else 0).setWidth 2048) 6).slotEnd :=
  slotOp_calm h (by simp only [ha, hc, bind, Except.bind, pure, Except.pure])

end

/-- Settles O24: each reduction by its value on integer lanes and on finite ones; VRMRS by whether a lane is valid. -/
theorem reductionResults : Obligations.ReductionResults := by
  unfold Obligations.ReductionResults
  intro s o u r x c h ha hua hra hc hpg hty g l lands val finite
  have hval : val = laneUnits o.ty x := by
    funext k
    simp only [val, laneUnits]
    cases (tyF o.ty).decode (elem o.ty x k) with
    | nan | inf n => rfl
    | fin n m e st => exact (alignTo_eq n m e (-149)).symm
  clear_value val
  subst hval
  have hmax := exec_vrmax h (hua ▸ ha : s.srcV u.a = .ok x)
  have hmin := exec_vrmin h (hua ▸ ha : s.srcV u.a = .ok x)
  rw [hpg, hty] at hmax hmin
  refine ⟨_, _, _, exec_vrsum h ha, hmax, hmin, fun ht => ⟨vrsumV_int ht g x s.racc o.rm, fun hne => ?integers⟩,
    fun hfin => ⟨fun hne => vrsumV_finite hfin s.racc o.rm hne, fun hne => ?floats⟩,
    _, _, _, exec_vrmrs h (hra ▸ ha) hc, vrmrsV_valid .., vrmrsV_none⟩
  case integers => exact ⟨vrmax_int ht g x s.racc hne, vrmin_int ht g x s.racc hne⟩
  case floats => exact ⟨vrextV_finite hfin s.racc false hne, vrextV_finite hfin s.racc true hne⟩

end Sys2Proof.Machine
end

section
/-! SUPPORT. What an instruction hands to an engine (R329, R415): the command with the fields that its instruction leaves alone, and what the
handing leaves of the state. -/
namespace Sys2Proof.Machine

/-! ### The command as its instruction finds it -/

/-- A command before its instruction has filled it in: only what names and orders it is set. -/
def Cmd.fresh (c : Cmd) : Cmd :=
  { Cmd.blank c.eng c.op with
    n := c.n, place := c.place, pc := c.pc, after := c.after, fenced := c.fenced, before := c.before, due := c.due, started := c.started,
    stage := c.stage }

/-- A property that holds of what the instruction makes of every fresh command holds of the one that is sent. -/
theorem State.command_hands {s t : State} (hs : s.Seated) (ht : s.SameUnit t) {e : Engine} {op : Instr} {f : Nat → Cmd → Cmd} {P : Cmd → Prop}
    (hf : ∀ n c, (f n c).eng = c.eng ∧ (f n c).op = c.op ∧ (f n c).n = c.n ∧ (f n c).pc = c.pc ∧ (f n c).stage = c.stage)
    (hP : ∀ c : Cmd, P (f ((s.me.csr.tl e).toNat + 1) c.fresh)) : s.Sends (t.command e op f) e op P := by
  obtain ⟨c0, hsends⟩ := State.command_sends hs ht e op (fun n c => f n c.fresh) fun n c => hf n c.fresh
  exact State.Sends.imp hsends fun c hc => hc ▸ hP c0

/-! ### What the handing leaves -/

@[simp] theorem Csrs.setTl_srstate (c : Csrs) (e : Engine) (w : Word) : (c.setTl e w).srstate = c.srstate := by cases e <;> rfl

section
variable (s : State) (e : Engine) (op : Instr) (f : Nat → Cmd → Cmd)

@[simp] theorem State.mem_command : (s.command e op f).mem = s.mem := rfl
@[simp] theorem State.iss_command : (s.command e op f).iss = s.iss := rfl

theorem State.myCore_onMe (g : Ctx → Ctx) : (s.onMe g).myCore = s.myCore.setCtx s.iss.ctx (g s.me) := State.core_setCore ..

theorem State.myCore_command : ∃ n x, (s.command e op f).myCore = { s.myCore with nextPlace := n, ctxs := x } := by
  obtain ⟨c, hc⟩ := s.command_eq e op f
  have htl := s.myCore_onMe fun x => { x with csr := x.csr.setTl e (BitVec.ofNat 64 ((s.me.csr.tl e).toNat + 1)) }
  have hplace := (s.tlNext e).2.myCore_onMyCore fun x => { x with nextPlace := x.nextPlace + 1 }
  rw [hc]
  exact ⟨_, _, hplace.trans (congrArg (fun x : Core => { x with nextPlace := x.nextPlace + 1 }) htl)⟩

@[simp] theorem State.spm_command : (s.command e op f).myCore.spm = s.myCore.spm := by
  obtain ⟨n, x, h⟩ := s.myCore_command e op f
  rw [h]

@[simp] theorem State.dda_command : (s.command e op f).myCore.dda = s.myCore.dda := by
  obtain ⟨n, x, h⟩ := s.myCore_command e op f
  rw [h]


end

/-! ### States that agree in the issuing unit -/

theorem State.SameUnit.trans {s t v : State} (h : s.SameUnit t) (h' : t.SameUnit v) : s.SameUnit v := by
  refine ⟨h'.1.trans h.1, h'.2.1.trans h.2.1, fun e => (h'.2.2.1 e).trans (h.2.2.1 e), fun x hx => ?_⟩
  obtain ⟨y, hy, hcmds, hopen⟩ := h.2.2.2 x hx
  obtain ⟨z, hz, hcmds', hopen'⟩ := h'.2.2.2 y (h.myUnit ▸ hy)
  exact ⟨z, h.myUnit ▸ hz, hcmds'.trans hcmds, hopen'.trans hopen⟩

theorem State.sameUnit_onMyCore (s : State) {f : Core → Core} (hf : ∀ c, (f c).ctxs = c.ctxs) : s.SameUnit (s.onMyCore f) := by
  have hme := s.me_onMyCore f hf
  exact ⟨rfl, congrArg Ctx.unit hme, fun e => congrArg (·.csr.tl e) hme, fun x hx => ⟨x, hx, rfl, rfl⟩⟩

theorem State.sameUnit_onMe {s : State} (hk : s.iss.ctx < 4) {f : Ctx → Ctx} (hunit : (f s.me).unit = s.me.unit)
    (htl : ∀ e, (f s.me).csr.tl e = s.me.csr.tl e) : s.SameUnit (s.onMe f) := by
  have hme := s.me_onMe f hk
  exact ⟨rfl, (congrArg Ctx.unit hme).trans hunit, fun e => (congrArg (·.csr.tl e) hme).trans (htl e), fun x hx => ⟨x, hx, rfl, rfl⟩⟩

theorem State.sameUnit_onMyUnit (s : State) {f : Unit → Unit} (hf : ∀ x, (f x).cmds = x.cmds ∧ (f x).open_ = x.open_) :
    s.SameUnit (s.onMyUnit f) :=
  ⟨rfl, rfl, fun _ => rfl, fun x hx => ⟨f x, (s.unit_onMyUnit f).trans (congrArg (Option.map f) hx), hf x⟩⟩

/-! ### Steps that only prepare a command -/

/-- The step leaves where units are resident, the commands and timelines of the issuing unit, the memories and the registers. -/
structure State.Leaves (s t : State) : Prop where
  unit : s.SameUnit t
  seat : ∀ u, t.seatOf u = s.seatOf u
  mem : t.mem = s.mem
  spm : t.myCore.spm = s.myCore.spm
  regS : t.me.s = s.me.s
  regV : t.me.v = s.me.v
  flights : t.me.flights = s.me.flights

theorem State.Leaves.refl (s : State) : s.Leaves s := ⟨.refl s, fun _ => rfl, rfl, rfl, rfl, rfl, rfl⟩

theorem State.Leaves.trans {s t v : State} (h : s.Leaves t) (h' : t.Leaves v) : s.Leaves v :=
  ⟨h.unit.trans h'.unit, fun u => (h'.seat u).trans (h.seat u), h'.mem.trans h.mem, h'.spm.trans h.spm, h'.regS.trans h.regS,
    h'.regV.trans h.regV, h'.flights.trans h.flights⟩

theorem State.Leaves.ite {s t v : State} {c : Prop} [Decidable c] (ht : s.Leaves t) (hv : s.Leaves v) : s.Leaves (if c then t else v) := by
  split
  · exact ht
  · exact hv

theorem State.leaves_onMyCore (s : State) {f : Core → Core} (hf : ∀ c, (f c).ctxs = c.ctxs ∧ (f c).spm = c.spm) : s.Leaves (s.onMyCore f) := by
  have hme := s.me_onMyCore f fun c => (hf c).1
  exact ⟨s.sameUnit_onMyCore fun c => (hf c).1, fun _ => rfl, rfl, (congrArg Core.spm (s.myCore_onMyCore f)).trans (hf _).2,
    congrArg Ctx.s hme, congrArg Ctx.v hme, congrArg Ctx.flights hme⟩

theorem State.leaves_onMyUnit (s : State) {f : Unit → Unit}
    (hf : ∀ x, ((f x).cmds = x.cmds ∧ (f x).open_ = x.open_) ∧ (f x).core = x.core ∧ (f x).ctx = x.ctx) : s.Leaves (s.onMyUnit f) :=
  ⟨s.sameUnit_onMyUnit fun x => (hf x).1, fun u => s.seatOf_onUnit _ u fun x => (hf x).2, rfl, rfl, rfl, rfl, rfl⟩

theorem State.leaves_onMe {s : State} (hk : s.iss.ctx < 4) {f : Ctx → Ctx} (hunit : (f s.me).unit = s.me.unit)
    (htl : ∀ e, (f s.me).csr.tl e = s.me.csr.tl e) (hregs : (f s.me).s = s.me.s ∧ (f s.me).v = s.me.v ∧ (f s.me).flights = s.me.flights) :
    s.Leaves (s.onMe f) := by
  have hme := s.me_onMe f hk
  obtain ⟨hs, hv, hflights⟩ := hregs
  exact ⟨State.sameUnit_onMe hk hunit htl, fun _ => rfl, rfl, s.spm_myCore_onMe f, (congrArg Ctx.s hme).trans hs,
    (congrArg Ctx.v hme).trans hv, (congrArg Ctx.flights hme).trans hflights⟩

theorem State.leaves_takeLanding (s : State) (cls : RegCls) (num : Nat) (eng : Option (Engine × Nat)) :
    s.Leaves (s.takeLanding cls num eng).2 := s.leaves_onMyUnit fun _ => ⟨⟨rfl, rfl⟩, rfl, rfl⟩

theorem State.Seated.seatOf {s : State} (hs : s.Seated) : s.seatOf s.myUnit = some (s.iss.core, s.iss.ctx) := by
  obtain ⟨-, -, u, x, hu, hx, hcore, hctx⟩ := hs
  rw [State.myUnit, hu, Option.getD_some, State.seatOf, hx, Option.map_some, hcore, hctx]

theorem State.Seated.resident {s : State} (hs : s.Seated) : s.me.unit = some s.myUnit := by
  obtain ⟨-, -, u, x, hu, -⟩ := hs
  rw [State.myUnit, hu, Option.getD_some]

theorem State.Leaves.seated {s t : State} (h : s.Leaves t) (hs : s.Seated) : t.Seated := by
  have hseat := (h.seat s.myUnit).trans hs.seatOf
  obtain ⟨x, hx, hck⟩ := Option.map_eq_some_iff.mp hseat
  obtain ⟨hcore, hctx⟩ := Prod.mk.inj hck
  have hiss := h.unit.1
  exact ⟨hiss ▸ hs.1, hiss ▸ hs.2.1, s.myUnit, x, h.unit.2.1.trans hs.resident, hx, hiss ▸ hcore, hiss ▸ hctx⟩

/-- A change of the unit's bank state is one of the issuing context. -/
theorem State.Seated.onBank {s : State} (hs : s.Seated) (f : Ctx → Ctx) : s.onBank s.myUnit f = s.onMe f :=
  State.onBank_of_resident f hs.seatOf hs.resident

theorem State.Seated.bankOf {s : State} (hs : s.Seated) : s.bankOf s.myUnit = s.me := by
  obtain ⟨x, hx, hck⟩ := Option.map_eq_some_iff.mp hs.seatOf
  obtain ⟨hcore, hctx⟩ := Prod.mk.inj hck
  have hres : (s.ctx s.iss.core s.iss.ctx).unit = some s.myUnit := hs.resident
  simp only [State.bankOf, hx, hcore, hctx, hres, if_true]
  rfl

theorem State.leaves_note {s : State} {u : Nat} (hs : s.Seated) (hu : s.myUnit = u) (c : Clear) : s.Leaves (s.note u c) := by
  subst hu
  obtain ⟨x, hx, hck⟩ := Option.map_eq_some_iff.mp hs.seatOf
  obtain ⟨hcore, hctx⟩ := Prod.mk.inj hck
  simp only [State.note, hx, hcore, hctx]
  exact .ite (State.leaves_onMe hs.2.1 rfl (fun _ => rfl) ⟨rfl, rfl, rfl⟩) (.refl s)

/-! ### Pops (R158, R159) -/

theorem State.leaves_setQueue {s : State} (hk : s.iss.ctx < 4) (q : Nat) (y : Ctx → Queue) : s.Leaves (s.onMe fun x => x.setQueue q (y x)) :=
  State.leaves_onMe hk rfl (fun _ => rfl) ⟨rfl, rfl, rfl⟩

/-- Reclaiming does nothing, or sets the queue and reports what has become free. -/
theorem State.reclaim_cases (s : State) (u q : Nat) :
    s.reclaim u q = s ∨ ∃ y c, s.reclaim u q = (s.onBank u fun x => x.setQueue q y).note u c := by
  unfold State.reclaim
  dsimp only
  split
  · split
    · exact .inl rfl
    · exact .inr ⟨_, _, rfl⟩
  · split
    · exact .inl rfl
    · exact .inr ⟨_, _, rfl⟩

theorem State.leaves_reclaim {s : State} {u : Nat} (hs : s.Seated) (hu : s.myUnit = u) (q : Nat) : s.Leaves (s.reclaim u q) := by
  rcases s.reclaim_cases u q with h | ⟨y, c, h⟩
  · rw [h]
    exact .refl s
  · subst hu
    have hset := State.leaves_setQueue hs.2.1 q fun _ => y
    rw [h, hs.onBank]
    exact hset.trans (State.leaves_note (hset.seated hs) hset.unit.myUnit c)

theorem State.leaves_popQueue {s : State} (hs : s.Seated) (q n : Nat) : s.Leaves (s.popQueue q n) := by
  have hset := State.leaves_setQueue hs.2.1 q fun x => { x.queue q with head := (x.queue q).head + BitVec.ofNat 16 n }
  exact hset.trans (State.leaves_reclaim (hset.seated hs) hset.unit.myUnit q)

/-! ### A command after its preparation -/

section
variable {s t : State} (hs : s.Seated) (h : s.Leaves t) {e : Engine} {op : Instr} {f : Nat → Cmd → Cmd}
include hs h

/-- The command is sent, and the memories, the registers and the writes in flight are left. -/
theorem State.Leaves.command {P : Cmd → Prop}
    (hf : ∀ n c, (f n c).eng = c.eng ∧ (f n c).op = c.op ∧ (f n c).n = c.n ∧ (f n c).pc = c.pc ∧ (f n c).stage = c.stage)
    (hP : ∀ c : Cmd, P (f ((s.me.csr.tl e).toNat + 1) c.fresh)) :
    s.Sends (t.command e op f) e op P ∧ (t.command e op f).mem = s.mem ∧ (t.command e op f).myCore.spm = s.myCore.spm
      ∧ (t.command e op f).me.s = s.me.s ∧ (t.command e op f).me.v = s.me.v ∧ (t.command e op f).me.flights = s.me.flights := by
  have hk : t.iss.ctx < 4 := h.unit.1 ▸ hs.2.1
  rw [State.spm_command, State.me_command hk]
  exact ⟨State.command_hands hs h.unit hf hP, h.mem, h.spm, h.regS, h.regV, h.flights⟩

theorem State.Leaves.lsuCommand {P : Cmd → Prop}
    (hf : ∀ n c, (f n c).eng = c.eng ∧ (f n c).op = c.op ∧ (f n c).n = c.n ∧ (f n c).pc = c.pc ∧ (f n c).stage = c.stage)
    (hP : ∀ c : Cmd, P (f ((s.me.csr.tl .lsu).toNat + 1) c.fresh)) :
    s.Sends (t.lsuCommand op f) .lsu op P ∧ (t.lsuCommand op f).mem = s.mem ∧ (t.lsuCommand op f).myCore.spm = s.myCore.spm
      ∧ (t.lsuCommand op f).me.s = s.me.s ∧ (t.lsuCommand op f).me.v = s.me.v ∧ (t.lsuCommand op f).me.flights = s.me.flights :=
  State.Leaves.command (t := t.draw.2) hs ⟨h.unit, h.seat, h.mem, h.spm, h.regS, h.regV, h.flights⟩ (fun n _ => hf n _)
    fun c => hP { c with due := c.due + Config.lsuDelay t.draw.1 }

end

end Sys2Proof.Machine
end

section
/-! SUPPORT. Global accesses at issue: LDG, STG, VLDG, VSTG and the atomics (R43, R217, R218, R334, R338, R341, R342). -/
namespace Sys2Proof.Machine

/-! ### The checks of a raw access (R338) -/

section
variable {a : Word} {n : Nat}

theorem checkGlobal_ok (hc : canonical a = true) (hal : a.toNat % n = 0) : checkGlobal a n = .ok ⟨⟩ := by
  simp [checkGlobal, hc, hal]

theorem checkGlobal_nonCanonical (hc : canonical a = false) : checkGlobal a n = .error { nonCanonical 1 with badaddr := some a } := by
  simp [checkGlobal, hc]

theorem checkGlobal_misaligned (hc : canonical a = true) (hal : a.toNat % n ≠ 0) : checkGlobal a n = .error (misalignedAccess 1) := by
  simp [checkGlobal, hc, hal]

end

/-! ### Steps before the LSU has the command -/

theorem State.leaves_tagLoad (s : State) : s.Leaves s.tagLoad.2 := s.leaves_onMyCore (f := fun x => { x with loads := x.loads + 1 }) fun _ => ⟨rfl, rfl⟩

@[simp] theorem State.me_tagLoad (s : State) : s.tagLoad.2.me = s.me := s.me_onMyCore _ fun _ => rfl

@[simp] theorem State.myCore_tagLoad (s : State) : s.tagLoad.2.myCore = { s.myCore with loads := s.myCore.loads + 1 } := s.myCore_onMyCore _

theorem State.leaves_landScalar (s : State) (d : Fin 32) (e : Engine) : s.Leaves (s.landScalar d e).2 := by
  unfold State.landScalar
  split
  · exact .refl s
  · exact s.leaves_takeLanding ..

theorem State.landScalar_isSome (s : State) (d : Fin 32) (e : Engine) : (s.landScalar d e).1.isSome = decide (d ≠ 0) := by
  unfold State.landScalar
  split
  case isTrue h => simp [h]
  case isFalse h => simp [h]

theorem State.leaves_stepSr {s : State} (hk : s.iss.ctx < 4) (rm : Rm) (n : Nat) : s.Leaves (s.stepSr rm n) :=
  .ite (State.leaves_onMe hk rfl (fun e => by cases e <;> rfl) ⟨rfl, rfl, rfl⟩) (.refl s)

/-- Only the generator changes, and only under stochastic rounding. -/
theorem State.me_stepSr {s : State} (hk : s.iss.ctx < 4) (rm : Rm) (n : Nat) :
    ∃ w, (s.stepSr rm n).me = { s.me with csr := { s.me.csr with srstate := w } }
      ∧ (rm = .sr → w = ((List.range n).foldl (fun r _ => srStep r) (s.me.csr.srstate.setWidth 32)).setWidth 64) := by
  unfold State.stepSr
  split
  case isTrue h => exact ⟨_, s.me_onMe _ hk, fun _ => rfl⟩
  case isFalse h => exact ⟨s.me.csr.srstate, rfl, fun hrm => absurd hrm h⟩

@[simp] theorem State.cb_onMe (s : State) (g : Ctx → Ctx) : (s.onMe g).myCore.cb = s.myCore.cb := by rw [State.myCore_onMe]; rfl

theorem State.codebook_stepSr (s : State) (rm : Rm) (n k : Nat) : (s.stepSr rm n).myCore.codebook k = s.myCore.codebook k := by
  unfold State.stepSr
  split
  · exact congrArg (fun cb : Vector (BitVec 32) _ => cb[k]?.getD defaultCodebook) (s.cb_onMe _)
  · rfl

theorem State.me_fly {s : State} (hk : s.iss.ctx < 4) (f : Flight) : (s.fly f).me = { s.me with flights := s.me.flights ++ [f] } :=
  s.me_onMe _ hk

@[simp] theorem State.spm_fly (s : State) (f : Flight) : (s.fly f).myCore.spm = s.myCore.spm := s.spm_myCore_onMe _

/-! ### LDG and STG (R334, R338) -/

/-- The LSU has the LDG: it takes a landing unless its destination is s0. -/
def State.ldgSent (s : State) (o : LdgOp) (x : Word) : State :=
  let r := s.tagLoad
  let l := r.2.landScalar o.d .lsu
  l.2.lsuCommand (.ldg o) fun n c => { c with
    a := x, land := l.1, after := min (if o.tok = 0 then 0 else (s.regS o.tok.val).toNat) (n - 1), acquire := o.acq, sample := r.1 }

/-- The LSU has the STG. -/
def State.stgSent (s : State) (w : StgOp) (x : Word) : State :=
  s.lsuCommand (.stg w) fun _ c => { c with a := x, b := s.regS w.d.val, release := w.rel }

/-- The STG is done once its token, the number of its command, is on its way. -/
def State.stgDone (s : State) (w : StgOp) (x : Word) : State :=
  if w.tok = 0 then s.stgSent w x else (s.stgSent w x).writeS w.tok false (BitVec.ofNat 64 (s.me.csr.tlLsu.toNat + 1)) 1

section
variable {s : State} {o : LdgOp} {w : StgOp} {x : Word}

theorem exec_ldg (h : s.Calm) (ha : s.srcS o.a = .ok x) (hc : canonical x = true) (hal : x.toNat % ldSize o.sz = 0) :
    exec (.ldg o) s = .next (s.ldgSent o x).slotEnd :=
  slotOp_calm h (by simp only [ha, bind, Except.bind, checkGlobal_ok hc hal]; rfl)

theorem exec_stg (h : s.Calm) (ha : s.srcS w.a = .ok x) (hc : canonical x = true) (hal : x.toNat % stSize w.sz = 0) :
    exec (.stg w) s = .next (s.stgDone w x).slotEnd :=
  slotOp_calm h (by simp only [ha, bind, Except.bind, checkGlobal_ok hc hal]; rfl)

theorem exec_ldg_fault {c : Cond} (h : s.Calm) (ha : s.srcS o.a = .ok x) (hc : checkGlobal.{0} x (ldSize o.sz) = .error c) :
    exec (.ldg o) s = .next (s.slotFault c) :=
  slotOp_fault h (by simp only [ha, bind, Except.bind, hc])

theorem exec_stg_fault {c : Cond} (h : s.Calm) (ha : s.srcS w.a = .ok x) (hc : checkGlobal.{0} x (stSize w.sz) = .error c) :
    exec (.stg w) s = .next (s.slotFault c) :=
  slotOp_fault h (by simp only [ha, bind, Except.bind, hc])

theorem State.ldgSent_spec (hs : s.Seated) : s.Sends (s.ldgSent o x) .lsu (.ldg o) (fun c => c.a = x ∧ c.land.isSome = decide (o.d ≠ 0)
      ∧ c.acquire = o.acq ∧ c.release = false
      ∧ c.after = if o.tok = 0 then 0 else min (s.regS o.tok.val).toNat ((s.me.csr.tl .lsu).toNat + 1 - 1))
    ∧ (s.ldgSent o x).mem = s.mem ∧ (s.ldgSent o x).myCore.spm = s.myCore.spm ∧ (s.ldgSent o x).me.s = s.me.s
    ∧ (s.ldgSent o x).me.v = s.me.v ∧ (s.ldgSent o x).me.flights = s.me.flights := by
  refine (s.leaves_tagLoad.trans (State.leaves_landScalar ..)).lsuCommand hs (fun _ _ => ⟨rfl, rfl, rfl, rfl, rfl⟩)
    fun c => ⟨rfl, State.landScalar_isSome .., rfl, rfl, ?_⟩
  dsimp only
  split <;> simp

theorem State.stgSent_spec (hs : s.Seated) : s.Sends (s.stgSent w x) .lsu (.stg w) (fun c => c.a = x ∧ c.b = s.regS w.d.val ∧ c.land = none
      ∧ c.acquire = false ∧ c.release = w.rel)
    ∧ (s.stgSent w x).mem = s.mem ∧ (s.stgSent w x).myCore.spm = s.myCore.spm ∧ (s.stgSent w x).me.s = s.me.s
    ∧ (s.stgSent w x).me.v = s.me.v ∧ (s.stgSent w x).me.flights = s.me.flights :=
  (State.Leaves.refl s).lsuCommand hs (fun _ _ => ⟨rfl, rfl, rfl, rfl, rfl⟩) fun _ => ⟨rfl, rfl, rfl, rfl, rfl⟩

/-- The token is a write in flight; the command is sent all the same. -/
theorem State.stgDone_spec (hs : s.Seated) : s.Sends (s.stgDone w x) .lsu (.stg w) (fun c => c.a = x ∧ c.b = s.regS w.d.val ∧ c.land = none
      ∧ c.acquire = false ∧ c.release = w.rel)
    ∧ (s.stgDone w x).me.flights = (if w.tok = 0 then s.me.flights else s.me.flights
        ++ [s.flight (some .s) w.tok.val false ((BitVec.ofNat 64 ((s.me.csr.tl .lsu).toNat + 1)).setWidth 2048) allLanes 1 0 none true])
    ∧ (s.stgDone w x).mem = s.mem ∧ (s.stgDone w x).myCore.spm = s.myCore.spm ∧ (s.stgDone w x).me.s = s.me.s := by
  obtain ⟨hsent, hmem, hspm, hregs, -, hflights⟩ := State.stgSent_spec (w := w) (x := x) hs
  unfold State.stgDone
  split
  · exact ⟨hsent, hflights, hmem, hspm, hregs⟩
  · have hk : (s.stgSent w x).iss.ctx < 4 := hs.2.1
    have hme := State.me_lsuCommand hs.2.1 (.stg w) fun _ c => { c with a := x, b := s.regS w.d.val, release := w.rel }
    have hgroup : (s.stgSent w x).me.group = s.me.group := by rw [State.stgSent, hme]
    unfold State.writeS State.flight
    rw [State.me_fly hk, State.spm_fly, hgroup]
    exact ⟨hsent.onMe hk fun _ => rfl, congrArg (· ++ _) hflights, hmem, hspm, hregs⟩

end

/-! ### VLDG and VSTG (R43, R217, R218; log entry 23) -/

theorem State.vectorAddr_ok {s : State} {o : VGlob} {x : Word} (ha : s.srcS o.a = .ok x) (hc : canonical (x + o.imm.signExtend 64) = true) :
    s.vectorAddr o = .ok (x + o.imm.signExtend 64) := by
  simp only [State.vectorAddr, globalVa, ha, bind, Except.bind, hc, if_true]
  rfl

/-- The VLDG before it is handed over: it is counted, the generator has made its steps, and the destination has a landing. -/
def State.vldgReady (s : State) (o : VGlob) : Nat × State :=
  let t := s.tagLoad.2.stepSr o.rm (enabledLanes o.ty (s.guard o.pg)).length
  t.takeLanding .v o.d.val (some (.lsu, t.me.csr.tlLsu.toNat + 1))

/-- The LSU has the VLDG. -/
def State.vldgSent (s : State) (o : VGlob) (addr : Word) : State :=
  (s.vldgReady o).2.lsuCommand (.vldg o) fun _ c => { c with
    a := addr, guard := s.guard o.pg, seed := s.tagLoad.2.racc.sr, land := some (s.vldgReady o).1, after := 0, sample := s.tagLoad.1,
    tabA := (s.vldgReady o).2.myCore.codebook o.cb.val }

/-- The LSU has the VSTG. -/
def State.vstgSent (s : State) (o : VGlob) (addr : Word) : State :=
  (s.stepSr o.rm (enabledLanes o.ty (s.guard o.pg)).length).lsuCommand (.vstg o) fun _ c => { c with
    a := addr, guard := s.guard o.pg, seed := s.racc.sr, vec := s.regV o.d.val }

section
variable {s : State} {o : VGlob} {x : Word}

theorem exec_vldg (h : s.Calm) (ha : s.srcS o.a = .ok x) (hc : canonical (x + o.imm.signExtend 64) = true) :
    exec (.vldg o) s = .next (s.vldgSent o (x + o.imm.signExtend 64)).slotEnd :=
  slotOp_calm h (by simp only [State.vectorAddr_ok ha hc, bind, Except.bind]; rfl)

theorem exec_vstg (h : s.Calm) (ha : s.srcS o.a = .ok x) (hc : canonical (x + o.imm.signExtend 64) = true) :
    exec (.vstg o) s = .next (s.vstgSent o (x + o.imm.signExtend 64)).slotEnd :=
  slotOp_calm h (by simp only [State.vectorAddr_ok ha hc, bind, Except.bind]; rfl)

/-- What the generator's steps come to, whatever lies between them and the handing. -/
theorem State.srstate_stepped {t : State} {rm : Rm} {n : Nat} (hk : s.iss.ctx < 4) (ht : t.me = (s.stepSr rm n).me) (hctx : t.iss.ctx < 4)
    (op : Instr) (f : Nat → Cmd → Cmd) (hrm : rm = .sr) :
    (t.lsuCommand op f).me.csr.srstate = ((List.range n).foldl (fun r _ => srStep r) (s.me.csr.srstate.setWidth 32)).setWidth 64 := by
  obtain ⟨w, hme, hw⟩ := State.me_stepSr hk rm n
  rw [State.me_lsuCommand hctx, ht, hme]
  exact (Csrs.setTl_srstate ..).trans (hw hrm)

/-- The generator after an access of `o`, under stochastic rounding. -/
def State.steppedSr (s : State) (o : VGlob) : Word :=
  ((List.range (enabledLanes o.ty (s.guard o.pg)).length).foldl (fun r _ => srStep r) (s.me.csr.srstate.setWidth 32)).setWidth 64

theorem State.vldgSent_spec (hs : s.Seated) (addr : Word) :
    s.Sends (s.vldgSent o addr) .lsu (.vldg o) (fun c => c.a = addr ∧ c.guard = s.guard o.pg
      ∧ c.seed = s.me.csr.srstate.setWidth 32 ∧ c.tabA = s.myCore.codebook o.cb.val ∧ c.land.isSome = true)
    ∧ (o.rm = .sr → (s.vldgSent o addr).me.csr.srstate = s.steppedSr o) ∧ (s.vldgSent o addr).mem = s.mem
    ∧ (s.vldgSent o addr).me.v = s.me.v := by
  have hstep := State.leaves_stepSr (s := s.tagLoad.2) hs.2.1 o.rm (enabledLanes o.ty (s.guard o.pg)).length
  have hcb : s.tagLoad.2.myCore.codebook o.cb.val = s.myCore.codebook o.cb.val := by
    rw [s.myCore_tagLoad]
    rfl
  have hsr := State.srstate_stepped (s := s.tagLoad.2) (t := (s.vldgReady o).2) hs.2.1 rfl (hstep.unit.1 ▸ hs.2.1)
  rw [s.me_tagLoad] at hsr
  obtain ⟨hsent, hmem, -, -, hregv, -⟩ := State.Leaves.lsuCommand (op := .vldg o) hs
    ((s.leaves_tagLoad.trans hstep).trans (State.leaves_takeLanding ..))
    (P := fun c => c.a = addr ∧ c.guard = s.guard o.pg ∧ c.seed = s.me.csr.srstate.setWidth 32
      ∧ c.tabA = s.myCore.codebook o.cb.val ∧ c.land.isSome = true)
    (f := fun _ c => { c with
      a := addr, guard := s.guard o.pg, seed := s.tagLoad.2.racc.sr, land := some (s.vldgReady o).1, after := 0, sample := s.tagLoad.1,
      tabA := (s.vldgReady o).2.myCore.codebook o.cb.val }) (fun _ _ => ⟨rfl, rfl, rfl, rfl, rfl⟩)
    fun c => ⟨rfl, rfl, congrArg (fun y : Ctx => y.csr.srstate.setWidth 32) s.me_tagLoad, (State.codebook_stepSr ..).trans hcb, rfl⟩
  exact ⟨hsent, hsr _ _, hmem, hregv⟩

theorem State.vstgSent_spec (hs : s.Seated) (addr : Word) :
    s.Sends (s.vstgSent o addr) .lsu (.vstg o) (fun c => c.a = addr ∧ c.guard = s.guard o.pg
      ∧ c.seed = s.me.csr.srstate.setWidth 32 ∧ c.vec = s.regV o.d.val ∧ c.land = none)
    ∧ (o.rm = .sr → (s.vstgSent o addr).me.csr.srstate = s.steppedSr o) ∧ (s.vstgSent o addr).mem = s.mem
    ∧ (s.vstgSent o addr).me.v = s.me.v := by
  have hstep := State.leaves_stepSr hs.2.1 o.rm (enabledLanes o.ty (s.guard o.pg)).length
  obtain ⟨hsent, hmem, -, -, hregv, -⟩ := State.Leaves.lsuCommand (op := .vstg o) hs hstep
    (P := fun c => c.a = addr ∧ c.guard = s.guard o.pg ∧ c.seed = s.me.csr.srstate.setWidth 32 ∧ c.vec = s.regV o.d.val ∧ c.land = none)
    (f := fun _ c => { c with a := addr, guard := s.guard o.pg, seed := s.racc.sr, vec := s.regV o.d.val })
    (fun _ _ => ⟨rfl, rfl, rfl, rfl, rfl⟩) fun _ => ⟨rfl, rfl, rfl, rfl, rfl⟩
  exact ⟨hsent, State.srstate_stepped hs.2.1 rfl (hstep.unit.1 ▸ hs.2.1) _ _, hmem, hregv⟩

end

/-- Settles O16: each access by its check, what the LSU receives, and what the handing leaves. -/
theorem globalAccessIssue : Obligations.GlobalAccessIssue := by
  unfold Obligations.GlobalAccessIssue
  refine ⟨fun s o w x h hs ha hw => ?scalar, fun s o x h hs ha => ?vector⟩
  case scalar =>
    have haw : s.srcS w.a = .ok x := hw ▸ ha
    obtain ⟨hsent, hmem, hspm, hregs, -, hflights⟩ := State.ldgSent_spec (o := o) (x := x) hs
    refine ⟨fun hc hal => ⟨_, exec_ldg h ha hc hal, hsent, hmem, hspm, hregs, hflights⟩,
      fun hc hal => ⟨_, exec_stg h haw hc hal, State.stgDone_spec hs⟩, fun hc => ?_, fun hc => ?_⟩
    · exact forall_mem_pair (exec_ldg_fault h ha (checkGlobal_nonCanonical hc)) (exec_stg_fault h haw (checkGlobal_nonCanonical hc))
    · exact forall_mem_pair (fun hal => exec_ldg_fault h ha (checkGlobal_misaligned hc hal))
        fun hal => exec_stg_fault h haw (checkGlobal_misaligned hc hal)
  case vector =>
    intro addr steps sr
    have hsr : 0 < steps → o.rm = .sr ∧ s.steppedSr o = sr.setWidth 64 := by
      intro hpos
      by_cases hrm : o.rm = .sr
      · exact ⟨hrm, by simp only [State.steppedSr, sr, steps, if_pos hrm]⟩
      · exact absurd (if_neg hrm : steps = 0) hpos.ne'
    obtain ⟨hld, hldsr, hldframe⟩ := State.vldgSent_spec (o := o) hs addr
    obtain ⟨hst, hstsr, hstframe⟩ := State.vstgSent_spec (o := o) hs addr
    exact ⟨fun hc => ⟨_, exec_vldg h ha hc, hld, fun hpos => (hldsr (hsr hpos).1).trans (hsr hpos).2, hldframe⟩,
      fun hc => ⟨_, exec_vstg h ha hc, hst, fun hpos => (hstsr (hsr hpos).1).trans (hsr hpos).2, hstframe⟩⟩

/-! ### Atomics (R341, R342) -/

/-- The LSU has the atomic: its destination, read as the expected value, has a landing. -/
def State.amoSent (s : State) (i : Instr) (o : AmoOp) (x y : Word) : State :=
  let l := s.takeLanding .s o.d.val (some (.lsu, s.me.csr.tlLsu.toNat + 1))
  l.2.lsuCommand i fun _ c => { c with
    a := x, b := y, c := s.regS o.d.val, land := some l.1, acquire := decide (o.sc ≠ .ctx), release := decide (o.sc ≠ .ctx) }

theorem exec_of_mem_atomics {i : Instr} {o : AmoOp} (s : State)
    (hi : i ∈ [Instr.amoAdd o, .amoAnd o, .amoOr o, .amoXor o, .amoMin o, .amoMax o, .amoMinn o, .amoMaxn o, .amoSwap o, .amoFadd o,
      .amocas o]) : exec i s = slotOp false (bodyAmo i o) s := by
  simp only [List.mem_cons, List.not_mem_nil, or_false] at hi
  rcases hi with rfl | rfl | rfl | rfl | rfl | rfl | rfl | rfl | rfl | rfl | rfl <;> rfl

section
variable {s : State} {i : Instr} {o : AmoOp} {x y : Word} (ha : s.srcS o.a = .ok x) (hb : s.srcS o.b = .ok y)
include ha hb

theorem bodyAmo_ok (hc : canonical x = true) (hal : x.toNat % amoSize o = 0) : bodyAmo i o s = .ok (s.amoSent i o x y) := by
  simp only [bodyAmo, ha, hb, bind, Except.bind, checkGlobal_ok hc hal]
  rfl

theorem bodyAmo_fault {c : Cond} (hc : checkGlobal.{0} x (amoSize o) = .error c) : bodyAmo i o s = .error c := by
  simp only [bodyAmo, ha, hb, bind, Except.bind, hc]

end

theorem State.amoSent_spec {s : State} (hs : s.Seated) (i : Instr) (o : AmoOp) (x y : Word) :
    s.Sends (s.amoSent i o x y) .lsu i (fun c => c.a = x ∧ c.b = y ∧ c.c = s.regS o.d.val
      ∧ c.land.isSome = true ∧ c.acquire = decide (o.sc ≠ .ctx) ∧ c.release = decide (o.sc ≠ .ctx))
    ∧ (s.amoSent i o x y).mem = s.mem ∧ (s.amoSent i o x y).myCore.spm = s.myCore.spm ∧ (s.amoSent i o x y).me.s = s.me.s
    ∧ (s.amoSent i o x y).me.v = s.me.v ∧ (s.amoSent i o x y).me.flights = s.me.flights :=
  (s.leaves_takeLanding ..).lsuCommand hs (fun _ _ => ⟨rfl, rfl, rfl, rfl, rfl⟩) fun _ => ⟨rfl, rfl, rfl, rfl, rfl, rfl⟩

/-- A word of 64 bits read back as a signed integer. -/
theorem readInt_toNat (m : Word) : readInt true 64 m.toNat = m.toInt := by
  have h := m.isLt
  simp only [readInt, true_and, BitVec.toInt_eq_toNat_cond]
  split <;> split <;> omega

/-- The value that a selection by an order picks, and that it is the lesser. -/
theorem amoResult_min (m b x : Word) :
    ∃ v ∈ [m, b], (amoResult .min 64 m.toNat b.toNat x.toNat).1 = some v.toNat ∧ v.toInt = min m.toInt b.toInt := by
  simp only [amoResult, readInt_toNat]
  split
  case isTrue h => exact ⟨m, by simp, rfl, (min_eq_left h).symm⟩
  case isFalse h => exact ⟨b, by simp, rfl, (min_eq_right (not_le.mp h).le).symm⟩

theorem amoResult_max (m b x : Word) :
    ∃ v ∈ [m, b], (amoResult .max 64 m.toNat b.toNat x.toNat).1 = some v.toNat ∧ v.toInt = max m.toInt b.toInt := by
  simp only [amoResult, readInt_toNat]
  split
  case isTrue h => exact ⟨b, by simp, rfl, (max_eq_right h).symm⟩
  case isFalse h => exact ⟨m, by simp, rfl, (max_eq_left (not_le.mp h).le).symm⟩

theorem amoResult_minn (m b x : Word) :
    ∃ v ∈ [m, b], (amoResult .minn 64 m.toNat b.toNat x.toNat).1 = some v.toNat ∧ v.toNat = min m.toNat b.toNat := by
  rcases Nat.le_total m.toNat b.toNat with h | h
  · exact ⟨m, by simp, congrArg some (Nat.min_eq_left h), (Nat.min_eq_left h).symm⟩
  · exact ⟨b, by simp, congrArg some (Nat.min_eq_right h), (Nat.min_eq_right h).symm⟩

theorem amoResult_maxn (m b x : Word) :
    ∃ v ∈ [m, b], (amoResult .maxn 64 m.toNat b.toNat x.toNat).1 = some v.toNat ∧ v.toNat = max m.toNat b.toNat := by
  rcases Nat.le_total m.toNat b.toNat with h | h
  · exact ⟨b, by simp, congrArg some (Nat.max_eq_right h), (Nat.max_eq_right h).symm⟩
  · exact ⟨m, by simp, congrArg some (Nat.max_eq_left h), (Nat.max_eq_left h).symm⟩

/-- Settles O17: the atomics are one shared body, and each leaves what its operation names. -/
theorem atomicResults : Obligations.AtomicResults := by
  unfold Obligations.AtomicResults
  refine ⟨fun s o x y h hs ha hb i hi => ?issue, fun m b x => ?values⟩
  case issue =>
    obtain ⟨hsent, hmem, hspm, hregs, -, hflights⟩ := State.amoSent_spec hs i o x y
    rw [exec_of_mem_atomics s hi]
    exact ⟨fun hc hal => ⟨_, slotOp_calm h (bodyAmo_ok ha hb hc hal), hsent, hmem, hspm, hregs, hflights⟩,
      fun hc => slotOp_fault h (bodyAmo_fault ha hb (checkGlobal_nonCanonical hc)),
      fun hc hal => slotOp_fault h (bodyAmo_fault ha hb (checkGlobal_misaligned hc hal))⟩
  case values =>
    refine ⟨congrArg some (BitVec.toNat_add m b).symm, congrArg some (BitVec.toNat_and m b).symm, congrArg some (BitVec.toNat_or m b).symm,
      congrArg some (BitVec.toNat_xor m b).symm, amoResult_min m b x, amoResult_max m b x, amoResult_minn m b x, amoResult_maxn m b x, rfl, ?_⟩
    simp only [amoResult, BitVec.toNat_inj]

end Sys2Proof.Machine
end

section
/-! SUPPORT. Fences, waits on timelines and instruction-cache locks (R113, R114, R339, R340). -/
namespace Sys2Proof.Machine

/-! ### ICLK (R113) -/

/-- A line counts at most once. -/
theorem State.lockLine_count_le (s : State) (c u asid : Nat) (a : Word) (acc : Nat × Bool) :
    (s.lockLine c u asid a acc).1.1 ≤ acc.1 + 1 := by
  unfold State.lockLine
  dsimp only
  split
  · exact Nat.le_succ _
  · split
    · split <;> simp
    · split
      · exact Nat.le_succ _
      · split
        · split <;> simp
        · exact Nat.le_succ _

/-- A fold that counts at most once for each element counts at most as many as there are. -/
theorem foldl_count_le {α β : Type} {f : (Nat × Bool) × β → α → (Nat × Bool) × β} (hf : ∀ acc i, (f acc i).1.1 ≤ acc.1.1 + 1)
    (l : List α) (acc : (Nat × Bool) × β) : (l.foldl f acc).1.1 ≤ acc.1.1 + l.length := by
  induction l generalizing acc with
  | nil => exact Nat.le_refl _
  | cons i rest ih =>
    calc (rest.foldl f (f acc i)).1.1 ≤ (f acc i).1.1 + rest.length := ih _
      _ ≤ acc.1.1 + 1 + rest.length := Nat.add_le_add_right (hf acc i) _
      _ = acc.1.1 + (i :: rest).length := by rw [List.length_cons]; omega

/-- The lines that an ICLK locks, one after another. -/
def State.lockLines (s : State) (x : Word) (n : Nat) : (Nat × Bool) × State :=
  (List.range n).foldl (fun acc i => acc.2.lockLine s.iss.core s.myUnit s.me.csr.asidcur.toNat ((x &&& ~~~511#64) + BitVec.ofNat 64 (512 * i)) acc.1)
    ((0, false), s)

theorem State.lockLines_count_le (s : State) (x : Word) (n : Nat) : (s.lockLines x n).1.1 ≤ n :=
  (foldl_count_le (fun acc _ => acc.2.lockLine_count_le ..) _ _).trans_eq (by simp)

/-- The destination of an ICLK has a landing, whose value is ready once the lines are there. -/
def State.lockLanding (t : State) (d : Fin 32) (n : Nat) : State :=
  let l := t.draw.2.takeLanding .s d.val none
  l.2.landReady l.2.myUnit l.1 (l.2.now + 1 + Config.fillDelay t.draw.1) (BitVec.ofNat 2048 n) allLanes 0

section
variable {s : State} {d : Fin 32} {a b : Src} {x y : Word} (h : s.Calm) (ha : s.srcS a = .ok x) (hb : s.srcS b = .ok y)
include h ha hb

theorem exec_iclk (hc : canonical x = true) : exec (.iclk d a b) s
    = .next ((s.lockLines x (min y.toNat 128)).2.lockLanding d (s.lockLines x (min y.toNat 128)).1.1).slotEnd :=
  slotOp_calm h (by simp only [ha, hb, bind, Except.bind, hc, Bool.not_true, Bool.false_eq_true, if_false]; rfl)

theorem exec_iclk_nonCanonical (hc : canonical x = false) :
    exec (.iclk d a b) s = .next (s.slotFault { nonCanonical 1 with badaddr := some x }) :=
  slotOp_fault h (by simp only [ha, hb, bind, Except.bind, hc, Bool.not_false, if_true])

theorem exec_iunlk : exec (.iunlk a b) s
    = .next (s.onMyCore fun z => { z with unlocks := z.unlocks ++ [(s.myUnit, va56 (x &&& ~~~511#64), y.toNat)] }).slotEnd :=
  slotOp_calm h (by simp only [ha, hb, bind, Except.bind]; rfl)

end

theorem exec_waittl {s : State} {a : Src} {x : Word} (h : s.Calm) (ha : s.srcS a = .ok x) (e : Engine) :
    exec (.waittl a e) s = .next s.slotEnd :=
  slotOp_calm h (by simp only [ha, bind, Except.bind]; rfl)

/-- Settles O18: each operation's effect is read off from its meaning; ICLK counts a line at most once. -/
theorem fencesAndLocks : Obligations.FencesAndLocks := by
  unfold Obligations.FencesAndLocks
  refine ⟨fun s a x h ha => ⟨fun _ => slotOp_calm h rfl, fun _ => slotOp_calm h rfl, exec_waittl h ha⟩,
    fun s d a b x y h _ ha hb => ⟨fun hc => ⟨s.lockLines_count_le .., exec_iclk h ha hb hc⟩, exec_iclk_nonCanonical h ha hb,
      exec_iunlk h ha hb⟩, fun z u lo n hz => ⟨?_, rfl, rfl⟩⟩
  simp only [Core.endCycle, hz, List.foldl_cons, List.foldl_nil, ILine.unlocked]

end Sys2Proof.Machine
end

section
/-! SUPPORT. The commands of the matrix unit, and its lease (R158, R248 to R256, R261, R267, R271). -/
namespace Sys2Proof.Machine

/-! ### Acceptance (R255, R256, R271) -/

theorem State.matAllowed_ok {s : State} {accs : List Nat} (h : s.MayUse accs) : s.matAllowed accs = .ok ⟨⟩ := by
  unfold State.MayUse at h
  unfold State.matAllowed
  dsimp only
  split
  case isTrue hshare =>
    rw [if_pos hshare] at h
    obtain ⟨hk, hall⟩ := h
    rw [if_neg (by simpa [Nat.not_le.2 hk] using hall)]
  case isFalse hshare =>
    rw [if_neg hshare] at h
    rw [if_pos (by simpa using h)]

/-- Counting a command changes nothing of its core but the lease. -/
theorem State.matCount_eq (s : State) : ∃ g : Core → Core, s.matCount = s.onMyCore g ∧ ∀ x, (g x).ctxs = x.ctxs ∧ (g x).spm = x.spm := by
  refine ⟨_, rfl, fun x => ?_⟩
  dsimp only
  split
  · exact ⟨rfl, rfl⟩
  · split <;> exact ⟨rfl, rfl⟩

theorem State.me_matCommand {s : State} (hk : s.iss.ctx < 4) (op : Instr) (f : Nat → Cmd → Cmd) :
    (s.matCommand op f).me = { s.me with csr := s.me.csr.setTl .mat (BitVec.ofNat 64 ((s.me.csr.tl .mat).toNat + 1)) } := by
  obtain ⟨g, hcount, hg⟩ := (s.command .mat op f).matCount_eq
  rw [State.matCommand, hcount, State.me_onMyCore _ _ fun x => (hg x).1]
  exact State.me_command hk .mat op f

/-- A later change of the core that leaves its contexts leaves what has been sent. -/
theorem State.Sends.onMyCore {s t : State} {e : Engine} {op : Instr} {P : Cmd → Prop} (h : s.Sends t e op P)
    {g : Core → Core} (hg : ∀ x, (g x).ctxs = x.ctxs) : s.Sends (t.onMyCore g) e op P := by
  obtain ⟨x, y, c, hx, hy, hcmds, heng, hop, hn, hpc, hstage, htl, hopen, hP⟩ := h
  exact ⟨x, y, c, hx, hy, hcmds, heng, hop, hn, hpc, hstage, by rw [State.me_onMyCore _ _ hg, htl], hopen, hP⟩

/-- The matrix unit has the command, and the memories, the registers and the writes in flight are left. -/
def State.MatSent (s t : State) (op : Instr) (P : Cmd → Prop) : Prop :=
  s.Sends t .mat op P ∧ t.mem = s.mem ∧ t.myCore.spm = s.myCore.spm ∧ t.me.s = s.me.s ∧ t.me.v = s.me.v ∧ t.me.flights = s.me.flights

theorem State.Leaves.matCommand {s t : State} (h : s.Leaves t) (hs : s.Seated) {op : Instr} {f : Nat → Cmd → Cmd} {P : Cmd → Prop}
    (hf : ∀ n c, (f n c).eng = c.eng ∧ (f n c).op = c.op ∧ (f n c).n = c.n ∧ (f n c).pc = c.pc ∧ (f n c).stage = c.stage)
    (hP : ∀ c : Cmd, P (f ((s.me.csr.tl .mat).toNat + 1) c.fresh)) : s.MatSent (t.matCommand op f) op P := by
  obtain ⟨hsent, hmem, hspm, hregs, hregv, hflights⟩ := h.command hs hf hP
  obtain ⟨g, hcount, hg⟩ := (t.command .mat op f).matCount_eq
  unfold State.MatSent
  rw [State.matCommand, hcount, State.me_onMyCore _ _ fun x => (hg x).1, State.myCore_onMyCore]
  exact ⟨hsent.onMyCore fun x => (hg x).1, hmem, (hg _).2.trans hspm, hregs, hregv, hflights⟩

/-! ### Operand descriptors (R158, R164, R261) -/

/-- The slot that a descriptor names, if it is a local one. -/
def State.matSlot (s : State) (d : MDesc) : Option SlotRef :=
  if d.rem then none else some ⟨s.myUnit, d.queue.val, (s.iss.entry.queue d.queue.val).head + BitVec.ofNat 16 d.off.val⟩

/-- The read of that slot is registered. -/
def State.matHeld (s : State) (d : MDesc) : State :=
  if d.rem then s else s.holdSlot s.myUnit d.queue.val ((s.iss.entry.queue d.queue.val).head + BitVec.ofNat 16 d.off.val)

section
variable {s : State} {d : MDesc}

theorem State.matSource_ok (h : d.rem = true ∨ ((s.iss.entry.queue d.queue.val).cfg = true ∧ (s.iss.entry.queue d.queue.val).spo = false)) :
    s.matSource d = .ok (s.matSlot d, s.matHeld d) := by
  unfold State.matSource State.matSlot State.matHeld
  dsimp only
  split
  · rfl
  · next hrem =>
    obtain ⟨hcfg, hspo⟩ := h.resolve_left hrem
    simp only [hcfg, hspo, Bool.not_true, Bool.false_eq_true, if_false]

theorem State.leaves_matHeld (s : State) (d : MDesc) : s.Leaves (s.matHeld d) :=
  .ite (.refl s) (s.leaves_onMyUnit fun _ => ⟨⟨rfl, rfl⟩, rfl, rfl⟩)

@[simp] theorem State.iss_matHeld : (s.matHeld d).iss = s.iss := (s.leaves_matHeld d).unit.1

theorem State.matSlot_matHeld (s : State) (d e : MDesc) : (s.matHeld d).matSlot e = s.matSlot e := by
  unfold State.matSlot
  rw [State.iss_matHeld, (s.leaves_matHeld d).unit.myUnit]

/-- What a unit pairs with is left. -/
theorem State.unit_matHeld (s : State) (d : MDesc) {x : Unit} (hx : s.unit s.myUnit = some x) :
    ∃ r, (s.matHeld d).unit s.myUnit = some { x with qreads := r } := by
  unfold State.matHeld
  split
  · exact ⟨x.qreads, hx⟩
  · exact ⟨_, (State.unit_onUnit ..).trans (congrArg (Option.map _) hx)⟩

theorem State.leaves_matPops (hs : s.Seated) (l : List MDesc) : s.Leaves (s.matPops l) := by
  unfold State.matPops
  induction l generalizing s with
  | nil => exact .refl s
  | cons d rest ih =>
    have hpop : s.Leaves (if d.pop && !d.rem then s.popQueue d.queue.val 1 else s) := .ite (State.leaves_popQueue hs _ _) (.refl s)
    exact hpop.trans (ih (hpop.seated hs))

end

/-! ### The commands -/

section
variable {s : State} (h : s.Calm) (hs : s.Seated)
include h hs

theorem exec_tcfg_sends (hshare : s.myCore.mat.share = false) (hmay : s.MayUse []) (w : TileWord) :
    ∃ t, exec (.tcfg w) s = .next t.slotEnd ∧ s.MatSent t (.tcfg w) fun _ => True := by
  refine ⟨s.matCommand (.tcfg w) fun _ c => c, slotOp_calm h ?_, (State.Leaves.refl s).matCommand hs (fun _ _ => ⟨rfl, rfl, rfl, rfl, rfl⟩)
    fun _ => trivial⟩
  simp only [hshare, Bool.false_eq_true, if_false, State.matAllowed_ok hmay, bind, Except.bind]
  rfl

theorem exec_accz_sends {mask : BitVec 4} (hmay : s.MayUse (maskAccs mask)) :
    ∃ t, exec (.accz mask) s = .next t.slotEnd ∧ s.MatSent t (.accz mask) fun _ => True := by
  refine ⟨s.matCommand (.accz mask) fun _ c => c, slotOp_calm h ?_, (State.Leaves.refl s).matCommand hs
    (fun _ _ => ⟨rfl, rfl, rfl, rfl, rfl⟩) fun _ => trivial⟩
  simp only [State.matAllowed_ok hmay, bind, Except.bind]
  rfl

theorem exec_mma_sends {o : MmaOp} (hmay : s.MayUse [o.acc.val])
    (ha : o.da.rem = true ∨ ((s.iss.entry.queue o.da.queue.val).cfg = true ∧ (s.iss.entry.queue o.da.queue.val).spo = false))
    (hb : o.db.rem = true ∨ ((s.iss.entry.queue o.db.queue.val).cfg = true ∧ (s.iss.entry.queue o.db.queue.val).spo = false)) :
    ∃ t, exec (.mma o) s = .next t.slotEnd ∧ s.MatSent t (.mma o) fun c => c.srcA = s.matSlot o.da ∧ c.srcB = s.matSlot o.db := by
  have hheld := (s.leaves_matHeld o.da).trans ((s.matHeld o.da).leaves_matHeld o.db)
  refine ⟨_, slotOp_calm h ?_, (hheld.trans (State.leaves_matPops (hheld.seated hs) [o.da, o.db])).matCommand hs
    (f := fun _ c => { c with srcA := s.matSlot o.da, srcB := (s.matHeld o.da).matSlot o.db })
    (fun _ _ => ⟨rfl, rfl, rfl, rfl, rfl⟩) fun _ => ⟨rfl, s.matSlot_matHeld ..⟩⟩
  simp only [State.matAllowed_ok hmay, State.matSource_ok ha, State.matSource_ok (s := s.matHeld o.da) (by simpa using hb), bind, Except.bind]
  rfl

theorem exec_pmma_sends {o : PmmaOp} (hmay : s.MayUse (if o.role then [] else [o.acc.val]))
    (ha : o.da.rem = true ∨ ((s.iss.entry.queue o.da.queue.val).cfg = true ∧ (s.iss.entry.queue o.da.queue.val).spo = false))
    (hb : o.db.rem = true ∨ ((s.iss.entry.queue o.db.queue.val).cfg = true ∧ (s.iss.entry.queue o.db.queue.val).spo = false))
    {x : Unit} {p : Nat} (hx : s.unit s.myUnit = some x) (hp : x.partner = some p) :
    ∃ t, exec (.pmma o) s = .next t.slotEnd
      ∧ s.MatSent t (.pmma o) fun c => c.srcA = s.matSlot o.da ∧ c.srcB = s.matSlot o.db ∧ c.index = x.pairs := by
  let held := (s.matHeld o.da).matHeld o.db
  have hheld : s.Leaves held := (s.leaves_matHeld o.da).trans ((s.matHeld o.da).leaves_matHeld o.db)
  have hcounted : s.Leaves (held.onMyUnit fun x => { x with pairs := x.pairs + 1 }) :=
    hheld.trans (held.leaves_onMyUnit fun _ => ⟨⟨rfl, rfl⟩, rfl, rfl⟩)
  have hpairs : ((held.unit held.myUnit).map (·.pairs)).getD 0 = x.pairs := by
    obtain ⟨r, hr⟩ := s.unit_matHeld o.da hx
    rw [← (s.leaves_matHeld o.da).unit.myUnit] at hr
    obtain ⟨r', hr'⟩ := (s.matHeld o.da).unit_matHeld o.db hr
    rw [hheld.unit.myUnit, ← (s.leaves_matHeld o.da).unit.myUnit, hr']
    rfl
  refine ⟨_, slotOp_calm h ?_, (hcounted.trans (State.leaves_matPops (hcounted.seated hs) [o.da, o.db])).matCommand hs
    (f := fun _ c => { c with
      srcA := s.matSlot o.da, srcB := (s.matHeld o.da).matSlot o.db, index := ((held.unit held.myUnit).map (·.pairs)).getD 0 })
    (fun _ _ => ⟨rfl, rfl, rfl, rfl, rfl⟩) fun _ => ⟨rfl, s.matSlot_matHeld .., hpairs⟩⟩
  simp only [State.matAllowed_ok hmay, hx, Option.bind_some, hp, reduceCtorEq, if_false, State.matSource_ok ha,
    State.matSource_ok (s := s.matHeld o.da) (by simpa using hb), bind, Except.bind]
  rfl

theorem exec_accwr_sends {o : AccwrOp} (hmay : s.MayUse [o.acc.val]) (hcfg : (s.iss.entry.queue o.q.val).cfg = true)
    (hspo : (s.iss.entry.queue o.q.val).spo = false) :
    ∃ t, exec (.accwr o) s = .next t.slotEnd
      ∧ s.MatSent t (.accwr o) fun c => c.srcA = s.matSlot ⟨false, 0, o.q, o.off, o.pop, 0⟩ := by
  have hheld := s.leaves_matHeld ⟨false, 0, o.q, o.off, o.pop, 0⟩
  refine ⟨_, slotOp_calm h ?_, (hheld.trans (State.leaves_matPops (hheld.seated hs) [⟨false, 0, o.q, o.off, o.pop, 0⟩])).matCommand hs
    (f := fun _ c => { c with srcA := s.matSlot ⟨false, 0, o.q, o.off, o.pop, 0⟩ }) (fun _ _ => ⟨rfl, rfl, rfl, rfl, rfl⟩) fun _ => rfl⟩
  simp only [State.matAllowed_ok hmay, State.matSource_ok (d := ⟨false, 0, o.q, o.off, o.pop, 0⟩) (.inr ⟨hcfg, hspo⟩), bind, Except.bind]
  rfl

theorem exec_accrv_sends {o : AccrvOp} (hmay : s.MayUse [o.acc.val]) :
    ∃ t, exec (.accrv o) s = .next t.slotEnd ∧ s.MatSent t (.accrv o) fun c => c.land.isSome = true := by
  refine ⟨_, slotOp_calm h ?_, (s.leaves_takeLanding .v o.d.val (some (.mat, s.me.csr.tlMat.toNat + 1))).matCommand hs
    (f := fun _ c => { c with land := some (s.takeLanding .v o.d.val (some (.mat, s.me.csr.tlMat.toNat + 1))).1 })
    (fun _ _ => ⟨rfl, rfl, rfl, rfl, rfl⟩) fun _ => rfl⟩
  simp only [State.matAllowed_ok hmay, bind, Except.bind]
  rfl

section
variable {a : Word} {n : Nat}

theorem exec_accsave_sends {o : AccsaveOp} (hmay : s.MayUse [o.acc.val]) (ha : s.srcS o.a = .ok a) (hn : imageAddr a o.imm = .ok n) :
    ∃ t, exec (.accsave o) s = .next t.slotEnd ∧ s.MatSent t (.accsave o) fun c => c.a = BitVec.ofNat 64 n := by
  refine ⟨_, slotOp_calm h ?_, (State.Leaves.refl s).matCommand hs (f := fun _ c => { c with a := BitVec.ofNat 64 n })
    (fun _ _ => ⟨rfl, rfl, rfl, rfl, rfl⟩) fun _ => rfl⟩
  simp only [State.matAllowed_ok hmay, ha, hn, bind, Except.bind]
  rfl

theorem exec_accrest_sends {o : AccrestOp} (hmay : s.MayUse [o.acc.val]) (ha : s.srcS o.a = .ok a) (hn : imageAddr a o.imm = .ok n)
    (hcfg : o.cfg = true → s.myCore.mat.share = true) :
    ∃ t, exec (.accrest o) s = .next t.slotEnd ∧ s.MatSent t (.accrest o) fun c => c.a = BitVec.ofNat 64 n := by
  have hok : (o.cfg && !s.myCore.mat.share) = false := by simpa using hcfg
  refine ⟨_, slotOp_calm h ?_, (State.Leaves.refl s).matCommand hs (f := fun _ c => { c with a := BitVec.ofNat 64 n })
    (fun _ _ => ⟨rfl, rfl, rfl, rfl, rfl⟩) fun _ => rfl⟩
  simp only [State.matAllowed_ok hmay, ha, hn, bind, Except.bind, hok, Bool.false_eq_true, if_false]
  rfl

end

omit h in
theorem State.seed_stepSr_one (rm : Rm) :
    (s.stepSr rm 1).racc.sr = if rm = .sr then srStep (s.me.csr.srstate.setWidth 32) else s.me.csr.srstate.setWidth 32 := by
  unfold State.racc
  split
  case isTrue hrm =>
    obtain ⟨w, hme, hw⟩ := State.me_stepSr hs.2.1 rm 1
    rw [hme, hw hrm]
    exact BitVec.setWidth_setWidth_of_le _ (show 32 ≤ 64 by decide)
  case isFalse hrm => rw [State.stepSr, if_neg hrm]

/-- ACCRD: under stochastic rounding the generator steps, and then the slot at TAIL is reserved. -/
theorem exec_accrd_sends {o : AccrdOp} (hmay : s.MayUse [o.acc.val]) (hentry : s.iss.entry.queue o.q.val = s.me.queue o.q.val)
    (hcfg : (s.me.queue o.q.val).cfg = true) (hspi : (s.me.queue o.q.val).spi = false) (hspo : (s.me.queue o.q.val).spo = false)
    (href : (s.me.queue o.q.val).ref = 0) (hopn : (s.me.queue o.q.val).opn = false) :
    ∃ t, exec (.accrd o) s = .next t.slotEnd
      ∧ s.MatSent t (.accrd o) (fun c => c.ctr = (s.me.queue o.q.val).tail ∧ c.splice = none
        ∧ c.seed = if o.rm = .sr then srStep (s.me.csr.srstate.setWidth 32) else s.me.csr.srstate.setWidth 32)
      ∧ t.me.queue o.q.val = { s.me.queue o.q.val with tail := (s.me.queue o.q.val).tail + 1 } := by
  let r := s.stepSr o.rm 1
  have hr : s.Leaves r := State.leaves_stepSr hs.2.1 o.rm 1
  have hk : r.iss.ctx < 4 := hr.unit.1 ▸ hs.2.1
  have hqueue : r.me.queue o.q.val = s.me.queue o.q.val := by
    obtain ⟨w, hme, -⟩ := State.me_stepSr hs.2.1 o.rm 1
    rw [hme]
    rfl
  have hlocal := State.reserve_local (s := r) (q := o.q.val) (hqueue ▸ hspo)
  rw [hqueue] at hlocal
  have hme := State.me_onMe r (fun x => x.setQueue o.q.val { s.me.queue o.q.val with tail := (s.me.queue o.q.val).tail + 1 }) hk
  have hset := State.leaves_setQueue hk o.q.val fun _ => { s.me.queue o.q.val with tail := (s.me.queue o.q.val).tail + 1 }
  refine ⟨_, slotOp_calm h (t := (r.reserve o.q.val).2.matCommand (.accrd o) fun _ c => { c with
    ctr := (r.reserve o.q.val).1.1, splice := (r.reserve o.q.val).1.2, seed := (r.reserve o.q.val).2.racc.sr }) ?_, ?_, ?_⟩
  · have hok : (!(s.me.queue o.q.val).cfg || (s.me.queue o.q.val).spi || (s.me.queue o.q.val).ref != 0 || (s.me.queue o.q.val).opn) = false := by
      simp [hcfg, hspi, href, hopn]
    simp only [State.matAllowed_ok hmay, hentry, hok, bind, Except.bind, Bool.false_eq_true, if_false]
    rfl
  · rw [hlocal]
    refine (hr.trans hset).matCommand hs (fun _ _ => ⟨rfl, rfl, rfl, rfl, rfl⟩) fun _ => ⟨rfl, rfl, ?_⟩
    exact (congrArg (fun y : Ctx => y.csr.srstate.setWidth 32) hme).trans (State.seed_stepSr_one hs o.rm)
  · rw [hlocal, State.me_matCommand (by exact hk), hme]
    exact Ctx.queue_setQueue_same _ _ o.q.isLt

end

/-- Settles O29: each command is accepted as `State.MayUse` says; its operands name local slots or come from other cores. -/
theorem matrixCommands : Obligations.MatrixCommands := by
  unfold Obligations.MatrixCommands
  refine ⟨fun s h hs => ?commands, fun s o h hs hmay hentry => ?accrd⟩
  case commands =>
    exact ⟨fun w hshare hmay => exec_tcfg_sends h hs hshare hmay w, fun o hmay ha hb => exec_mma_sends h hs hmay ha hb,
      fun o hmay ha hb x p hx hp => exec_pmma_sends h hs hmay ha hb hx hp, fun mask hmay => exec_accz_sends h hs hmay,
      fun o hmay => exec_accrv_sends h hs hmay, fun o hmay hcfg hspo => exec_accwr_sends h hs hmay hcfg hspo,
      fun o a n hmay ha hn => exec_accsave_sends h hs hmay ha hn, fun o a n hmay ha hn hcfg => exec_accrest_sends h hs hmay ha hn hcfg⟩
  case accrd =>
    intro y hcfg hspi hspo href hopn
    obtain ⟨t, hexec, ⟨hsent, hmem, hspm, -⟩, hqueue⟩ := exec_accrd_sends h hs hmay hentry hcfg hspi hspo href hopn
    exact ⟨t, hexec, hsent, hqueue, hmem, hspm⟩

/-! ### LEASE and UNLEASE (R256, R271) -/

section
variable {s : State} (h : s.Calm)
include h

theorem exec_lease_requests (hshare : s.myCore.mat.share = false) (hholder : s.myCore.mat.holder ≠ some s.iss.ctx)
    (hrequests : s.iss.ctx ∉ s.myCore.mat.requests) : exec .lease s
      = .next (s.onMyCore fun y => { y with mat := { y.mat with requests := y.mat.requests ++ [s.iss.ctx] } }).slotEnd :=
  slotOp_calm h (by simp [hshare, hholder, hrequests])

theorem exec_lease_stands (hshare : s.myCore.mat.share = false)
    (hhas : s.myCore.mat.holder = some s.iss.ctx ∨ s.iss.ctx ∈ s.myCore.mat.requests) : exec .lease s = .next s.slotEnd :=
  slotOp_calm h (by simp [hshare, hhas])

theorem exec_unlease (hshare : s.myCore.mat.share = false) :
    exec .unlease s = .next (s.onMyCore fun y => { y with mat := y.mat.giveUp s.iss.ctx }).slotEnd :=
  slotOp_calm h (by simp [hshare])

theorem exec_lease_shared (hshare : s.myCore.mat.share = true) : exec .lease s = .next (s.slotFault matrixMode) :=
  slotOp_fault h (by simp [hshare])

theorem exec_unlease_shared (hshare : s.myCore.mat.share = true) : exec .unlease s = .next (s.slotFault matrixMode) :=
  slotOp_fault h (by simp [hshare])

theorem exec_mma_noLease (hshare : s.myCore.mat.share = false) (hholder : s.myCore.mat.holder ≠ some s.iss.ctx)
    (hrequests : s.iss.ctx ∉ s.myCore.mat.requests) (o : MmaOp) : exec (.mma o) s = .next (s.slotFault noLease) :=
  slotOp_fault h (by simp [State.matAllowed, hshare, hholder, hrequests, bind, Except.bind])

end

theorem Mat.giveUp_spec (x : Mat) (k : Nat) : (x.giveUp k).holder = (if x.holder = some k then none else x.holder)
    ∧ (x.giveUp k).requests = x.requests.filter (· ≠ k) := by
  unfold Mat.giveUp
  dsimp only
  split <;> exact ⟨rfl, rfl⟩

/-- Settles O30: LEASE and UNLEASE by whether the unit is shared and what the context holds; a command of a context with neither is refused. -/
theorem leaseResults : Obligations.LeaseResults := by
  unfold Obligations.LeaseResults
  intro s h x k
  refine ⟨exec_lease_requests h, exec_lease_stands h, fun hshare => ⟨_, exec_unlease h hshare, ?_⟩,
    fun hshare => ⟨exec_lease_shared h hshare, exec_unlease_shared h hshare⟩, exec_mma_noLease h⟩
  obtain ⟨hholder, hrequests⟩ := x.giveUp_spec k
  rw [State.myCore_onMyCore]
  exact ⟨hholder, hrequests, s.me_onMyCore _ fun _ => rfl, rfl⟩

end Sys2Proof.Machine
end

section
/-! SUPPORT. Lists by rising key: what is found after a removal, and which pairs are found. -/
namespace Sys2Proof.Machine

section
variable {α : Type} {l : List (Nat × α)}

theorem risingKeys_tail {a : Nat × α} (h : risingKeys (a :: l) = true) : risingKeys l = true :=
  risingKeys_of_sublist h (List.sublist_cons_self a l)

/-- The first key is below every other. -/
theorem risingKeys_head_lt {a : Nat × α} (h : risingKeys (a :: l) = true) : ∀ d ∈ l, a.1 < d.1 :=
  (List.pairwise_cons.1 (risingKeys_iff.1 h)).1

theorem find_eq_none_of_ne {k : Nat} (h : ∀ d ∈ l, d.1 ≠ k) : find l k = none := by
  induction l with
  | nil => rfl
  | cons a rest ih =>
    rw [find, if_neg (h a List.mem_cons_self)]
    exact ih fun d hd => h d (List.mem_cons_of_mem _ hd)

/-- With rising keys a pair is found exactly when it is listed. -/
theorem find_eq_some_iff (h : risingKeys l = true) {k : Nat} {x : α} : find l k = some x ↔ (k, x) ∈ l := by
  refine ⟨mem_of_find, fun hmem => ?_⟩
  induction l with
  | nil => cases hmem
  | cons a rest ih =>
    rcases List.mem_cons.1 hmem with heq | hmem
    · rw [← heq, find, if_pos rfl]
    · have hlt := risingKeys_head_lt h _ hmem
      rw [find, if_neg hlt.ne]
      exact ih (risingKeys_tail h) hmem

theorem find_del_same (h : risingKeys l = true) (k : Nat) : find (del l k) k = none := by
  induction l with
  | nil => rfl
  | cons a rest ih =>
    obtain ⟨j, y⟩ := a
    have hlt := risingKeys_head_lt h
    rw [del]
    split
    next heq => exact find_eq_none_of_ne fun d hd => heq ▸ (hlt d hd).ne'
    next hne =>
      split
      next hk =>
        refine find_eq_none_of_ne fun d hd => ?_
        rcases List.mem_cons.1 hd with rfl | hd
        · exact hk.ne'
        · exact (hk.trans (hlt d hd)).ne'
      next =>
        rw [find, if_neg hne]
        exact ih (risingKeys_tail h)

/-- What is found after a key has been set or cleared. -/
theorem find_setAt_same (h : risingKeys l = true) (k : Nat) (x : Option α) : find (setAt l k x) k = x := by
  cases x with
  | none => exact find_del_same h k
  | some x => exact find_put_same l k x

theorem find_setAt_other (l : List (Nat × α)) {k j : Nat} (x : Option α) (h : j ≠ k) : find (setAt l k x) j = find l j := by
  cases x with
  | none => exact find_del_other l h
  | some x => exact find_put_other l x h

end

end Sys2Proof.Machine
end

section
/-! SUPPORT. Shuffles, patterns and index generation (R242 to R246). -/
namespace Sys2Proof.Machine

/-- A field of equal packed values. -/
theorem extractLsb'_packNat {n w : Nat} (l : List Nat) {i : Nat} (hi : w * i + w ≤ n) :
    (BitVec.ofNat n (packNat w l)).extractLsb' (w * i) w = BitVec.ofNat w (l[i]?.getD 0) := by
  refine BitVec.eq_of_getLsbD_eq fun b hb => ?_
  rw [BitVec.getLsbD_extractLsb', BitVec.getLsbD_ofNat, testBit_packNat hb, BitVec.getLsbD_ofNat, decide_eq_true hb,
    decide_eq_true (show w * i + b < n by omega), Bool.true_and, Bool.true_and]

/-! ### SHUF (R242, R245) -/

/-- A byte of two registers side by side. -/
theorem extractLsb'_append_byte (x y : VWord) {k : Nat} :
    (y ++ x : BitVec 4096).extractLsb' (8 * k) 8 = if k < 256 then x.extractLsb' (8 * k) 8 else y.extractLsb' (8 * (k - 256)) 8 := by
  refine BitVec.eq_of_getLsbD_eq fun b hb => ?_
  rw [BitVec.getLsbD_extractLsb', BitVec.getLsbD_append]
  by_cases hk : k < 256
  · rw [if_pos hk, if_pos (show 8 * k + b < 2048 by omega), BitVec.getLsbD_extractLsb']
  · rw [if_neg hk, if_neg (show ¬8 * k + b < 2048 by omega), BitVec.getLsbD_extractLsb',
      show 8 * k + b - 2048 = 8 * (k - 256) + b by omega]

theorem shufV_byte (pat : BitVec 2560) (x y : VWord) {i : Nat} (hi : i < 256) :
    (shufV pat x y).extractLsb' (8 * i) 8 = if pat.getLsbD (10 * i + 9) then 0
      else (y ++ x : BitVec 4096).extractLsb' (8 * (pat.extractLsb' (10 * i) 9).toNat) 8 := by
  have hflag : (pat.extractLsb' (10 * i) 10).getLsbD 9 = pat.getLsbD (10 * i + 9) := by simp
  have hindex : (pat.extractLsb' (10 * i) 10).extractLsb' 0 9 = pat.extractLsb' (10 * i) 9 := by
    refine BitVec.eq_of_getLsbD_eq fun b hb => ?_
    simp [hb, show b < 10 by omega]
  rw [shufV, packElems, extractLsb'_packNat _ (by omega), List.getElem?_map, List.getElem?_range hi, Option.map_some, Option.getD_some,
    extractLsb'_append_byte]
  dsimp only
  rw [hflag, hindex]
  split
  · rfl
  · split <;> rw [BitVec.ofNat_toNat, BitVec.setWidth_eq]

/-! ### PATLD and PATSW (R243, R244) -/

/-- The first 128 lanes of an entry come from the first register, the others from the second. -/
theorem patEntry_lane (x y : VWord) {i : Nat} (hi : i < 128) :
    (patEntry x y).extractLsb' (10 * i) 10 = x.extractLsb' (16 * i) 10
      ∧ (patEntry x y).extractLsb' (10 * (128 + i)) 10 = y.extractLsb' (16 * i) 10 := by
  unfold patEntry
  dsimp only
  rw [extractLsb'_packNat _ (by omega), extractLsb'_packNat _ (by omega), List.getElem?_append_left (by simpa using hi),
    List.getElem?_append_right (by simp), List.length_map, List.length_range, Nat.add_sub_cancel_left, List.getElem?_map, List.getElem?_map,
    List.getElem?_range hi, Option.map_some, Option.getD_some, Option.map_some, Option.getD_some]
  simp only [BitVec.ofNat_toNat, BitVec.setWidth_eq, and_self]

/-- The core after a PATLD. -/
def Core.loadPattern (c : Core) (k : Nat) (e : BitVec 2560) : Core :=
  { c with pats := setAt c.pats (patKey (!c.bankSel) k) (if e = 0 then none else some e) }

theorem Core.ctxs_loadPattern (c : Core) (k : Nat) (e : BitVec 2560) : (c.loadPattern k e).ctxs = c.ctxs := rfl

theorem Core.pattern_loadPattern {c : Core} (h : risingKeys c.pats = true) (k : Nat) (e : BitVec 2560) :
    ({ c.loadPattern k e with bankSel := !c.bankSel } : Core).pattern k = e := by
  show (find (setAt c.pats (patKey (!c.bankSel) k) (if e = 0 then none else some e)) (patKey (!c.bankSel) k)).getD 0 = e
  rw [find_setAt_same h]
  split
  case isTrue he => exact he.symm
  case isFalse => rfl

theorem patKey_ne (b : Bool) {j k : Nat} (hj : j < 64) (hk : k < 64) : patKey b j ≠ patKey (!b) k := by
  cases b <;> simp [patKey] <;> omega

/-- The active bank is left. -/
theorem Core.pattern_active_loadPattern (c : Core) {j k : Nat} (hj : j < 64) (hk : k < 64) (e : BitVec 2560) :
    (c.loadPattern k e).pattern j = c.pattern j :=
  congrArg (·.getD 0) (find_setAt_other c.pats _ (patKey_ne c.bankSel hj hk))

/-! ### The instructions -/

section
variable {s : State} {x y : VWord} (h : s.Calm)
include h

theorem exec_shuf {o : XShuf} (ha : s.srcV o.a = .ok x) (hb : s.srcV o.b = .ok y) : exec (.shuf o) s
    = .next (s.writeV o.d o.nw (shufV (s.myCore.pattern o.entry.val) x y) (laneMask o.ty (s.guard o.pg)) 3).slotEnd :=
  slotOp_calm h (by simp only [ha, hb, bind, Except.bind, pure, Except.pure])

theorem exec_patld {a b : Src} (e : Fin 64) (ha : s.srcV a = .ok x) (hb : s.srcV b = .ok y) :
    exec (.patld e a b) s = .next (s.onMyCore fun c => c.loadPattern e.val (patEntry x y)).slotEnd :=
  slotOp_calm h (by simp only [ha, hb, bind, Except.bind]; rfl)

theorem exec_vidx {v : VTwo} {p q : Word} (ha : s.srcS v.a = .ok p) (hb : s.srcS v.b = .ok q) :
    exec (.vidx v) s = .next (s.writeV v.d v.nw (vidxV v.ty p q) (laneMask v.ty (s.guard v.pg)) 3).slotEnd :=
  slotOp_calm h (by simp only [ha, hb, bind, Except.bind, pure, Except.pure])

end

/-- Settles O28: SHUF byte by byte, PATLD lane by lane of its entry, VIDX element by element. -/
theorem shuffleResults : Obligations.ShuffleResults := by
  unfold Obligations.ShuffleResults
  intro s o v e a b x y p q h hoa hob ha hb hp hq hrising pat
  refine ⟨⟨_, exec_shuf h hoa hob, fun i hi => shufV_byte pat x y hi⟩, ⟨_, exec_patld h e ha hb, ?patld⟩, slotOp_calm h rfl,
    _, exec_vidx h hp hq, fun k hk => ?vidx⟩
  case patld =>
    have hme := s.me_onMyCore (fun c => c.loadPattern e.val (patEntry x y)) fun c => c.ctxs_loadPattern ..
    rw [State.myCore_onMyCore, Core.pattern_loadPattern hrising]
    exact ⟨fun i hi => patEntry_lane x y hi, fun j hj => s.myCore.pattern_active_loadPattern hj e.isLt _, hme, rfl⟩
  case vidx => exact (elem_packElems_map v.ty _ hk).trans (Nat.mod_mod _ _)

end Sys2Proof.Machine
end

section
/-! SUPPORT. The commands of the integrator array (R158, R282, R286 to R294). -/
namespace Sys2Proof.Machine

/-! ### The claim (R282) -/

/-- The array is free for the issuing unit. -/
def State.MayClaim (s : State) : Prop := s.myCore.dda.owner = none ∨ s.myCore.dda.owner = some s.myUnit

/-- A claim makes the unit the owner and changes nothing else. -/
theorem State.claim_ok {s : State} (h : s.MayClaim) : ∃ t, s.claim = .ok t ∧ s.Leaves t
    ∧ t.myCore.dda = { s.myCore.dda with owner := some s.myUnit } ∧ t.me = s.me := by
  unfold State.claim
  rcases h with h | h
  · rw [h]
    have hcore := s.myCore_onMyCore fun x => { x with dda := { x.dda with owner := some s.myUnit } }
    exact ⟨_, rfl, s.leaves_onMyCore fun _ => ⟨rfl, rfl⟩, congrArg Core.dda hcore, s.me_onMyCore _ fun _ => rfl⟩
  · rw [h]
    exact ⟨s, if_pos rfl, .refl s, by rw [← h], rfl⟩

theorem State.claim_busy {s : State} {u : Nat} (h : s.myCore.dda.owner = some u) (hu : u ≠ s.myUnit) : s.claim = .error integratorBusy := by
  simp only [State.claim, h, hu, if_false]

/-! ### A command for the array -/

/-- The array has the command and belongs to the unit, and the memories and the registers are left. -/
def State.DdaSent (s t : State) (op : Instr) (P : Cmd → Prop) : Prop :=
  s.Sends t .dda op P ∧ t.myCore.dda = { s.myCore.dda with owner := some s.myUnit } ∧ t.mem = s.mem ∧ t.myCore.spm = s.myCore.spm
    ∧ t.me.s = s.me.s

theorem State.Leaves.ddaCommand {s t : State} (h : s.Leaves t) (hs : s.Seated)
    (hdda : t.myCore.dda = { s.myCore.dda with owner := some s.myUnit }) {op : Instr} {f : Nat → Cmd → Cmd} {P : Cmd → Prop}
    (hf : ∀ n c, (f n c).eng = c.eng ∧ (f n c).op = c.op ∧ (f n c).n = c.n ∧ (f n c).pc = c.pc ∧ (f n c).stage = c.stage)
    (hP : ∀ c : Cmd, P (f ((s.me.csr.tl .dda).toNat + 1) c.fresh)) : s.DdaSent (t.ddaCommand op f) op P := by
  obtain ⟨hsent, hmem, hspm, hregs, -⟩ := h.command hs (e := .dda) (op := op) (f := fun n c => f n { c with due := t.now + 2 })
    (fun n _ => hf n _) fun c => hP { c with due := t.now + 2 }
  exact ⟨hsent, (State.dda_command ..).trans hdda, hmem, hspm, hregs⟩

/-- An instruction whose body hands its command over after the claim. -/
theorem State.ddaSends {s : State} (hs : s.Seated) {i : Instr} {f : Nat → Cmd → Cmd} {P : Cmd → Prop}
    (hf : ∀ n c, (f n c).eng = c.eng ∧ (f n c).op = c.op ∧ (f n c).n = c.n ∧ (f n c).pc = c.pc ∧ (f n c).stage = c.stage)
    (hP : ∀ c : Cmd, P (f ((s.me.csr.tl .dda).toNat + 1) c.fresh))
    (hexec : ∀ t, s.claim = .ok t → exec i s = .next (t.ddaCommand i f).slotEnd) (hmay : s.MayClaim) :
    ∃ t, exec i s = .next t.slotEnd ∧ s.DdaSent t i P := by
  obtain ⟨t, hclaim, hleaves, hdda, -⟩ := State.claim_ok hmay
  exact ⟨_, hexec t hclaim, hleaves.ddaCommand hs hdda hf hP⟩

/-- The bytes that a command names lie in the scratchpad and are aligned. -/
theorem ddaAddr_ok {a : Word} {imm : BitVec 13} {align n x : Nat} (hx : (a.toNat : Int) + imm.toInt = x) (hin : x + n ≤ 3145728)
    (hal : x % align = 0) : ddaAddr a imm align n = .ok x := by
  have hlo : ¬((x : Int) < 0 ∨ (spmSize : Int) < (x : Int) + n) := by
    have : spmSize = 3145728 := rfl
    omega
  have hmod : ¬(x : Int) % align ≠ 0 := by rw [← Int.natCast_mod, hal]; simp
  simp only [ddaAddr, hx, hlo, hmod, if_false, Int.toNat_natCast]

/-! ### The commands -/

section
variable {s : State} {ra rb : Src} {a b : Word} (h : s.Calm) (hs : s.Seated) (ha : s.srcS ra = .ok a)
include h hs

theorem exec_dinj_sends {rv : Src} {v : VWord} (hv : s.srcV rv = .ok v) (hmay : s.MayClaim) :
    ∃ t, exec (.dinj rv) s = .next t.slotEnd ∧ s.DdaSent t (.dinj rv) fun c => c.vec = v :=
  State.ddaSends hs (f := fun _ c => { c with vec := v }) (fun _ _ => ⟨rfl, rfl, rfl, rfl, rfl⟩) (fun _ => rfl)
    (fun t ht => slotOp_calm h (by simp only [hv, ht, bind, Except.bind]; rfl)) hmay

include ha

theorem exec_dpatch_sends {n : BitVec 11} {imm : BitVec 13} {x : Nat} (hx : ddaAddr a imm 8 (8 * (n.toNat + 1)) = .ok x)
    (hmay : s.MayClaim) : ∃ t, exec (.dpatch ⟨ra, n, imm⟩) s = .next t.slotEnd
      ∧ s.DdaSent t (.dpatch ⟨ra, n, imm⟩) fun c => c.a = BitVec.ofNat 64 x :=
  State.ddaSends hs (f := fun _ c => { c with a := BitVec.ofNat 64 x }) (fun _ _ => ⟨rfl, rfl, rfl, rfl, rfl⟩) (fun _ => rfl)
    (fun t ht => slotOp_calm h (by simp only [ha, hx, ht, bind, Except.bind]; rfl)) hmay

theorem exec_dclk_sends (mask : BitVec 4) (h0 : a ≠ 0) (hle : a.toNat ≤ 65536) (hmay : s.MayClaim) :
    ∃ t, exec (.dclk mask ra) s = .next t.slotEnd ∧ s.DdaSent t (.dclk mask ra) fun c => c.a = a :=
  State.ddaSends hs (f := fun _ c => { c with a := a }) (fun _ _ => ⟨rfl, rfl, rfl, rfl, rfl⟩) (fun _ => rfl)
    (fun t ht => slotOp_calm h (by
      simp only [ha, ht, h0, Nat.not_lt.2 hle, or_self, if_false, bind, Except.bind]
      rfl)) hmay

theorem exec_dstep_sends (mask : BitVec 4) (hlt : a.toNat < 2 ^ 32) (hmay : s.MayClaim) :
    ∃ t, exec (.dstep mask ra) s = .next t.slotEnd ∧ s.DdaSent t (.dstep mask ra) fun c => c.a = a :=
  State.ddaSends hs (f := fun _ c => { c with a := a }) (fun _ _ => ⟨rfl, rfl, rfl, rfl, rfl⟩) (fun _ => rfl)
    (fun t ht => slotOp_calm h (by
      simp only [ha, ht, Nat.not_le.2 hlt, if_false, bind, Except.bind]
      rfl)) hmay

theorem exec_dset_sends {f : CellField} {cell : BitVec 9} (hb : s.srcS rb = .ok b) (hcell : a.toNat + cell.toNat < 512)
    (hvalue : f = .cnt ∨ (f = .y ∨ f = .res) ∧ -(2 ^ 31) ≤ b.toInt ∧ b.toInt ≤ 2 ^ 31 - 1) (hmay : s.MayClaim) :
    ∃ t, exec (.dset ⟨f, ra, cell, rb⟩) s = .next t.slotEnd
      ∧ s.DdaSent t (.dset ⟨f, ra, cell, rb⟩) fun c => c.a = BitVec.ofNat 64 (a.toNat + cell.toNat) ∧ c.b = b := by
  refine State.ddaSends hs (f := fun _ c => { c with a := BitVec.ofNat 64 (a.toNat + cell.toNat), b := b })
    (fun _ _ => ⟨rfl, rfl, rfl, rfl, rfl⟩) (fun _ => ⟨rfl, rfl⟩) (fun t ht => slotOp_calm h ?_) hmay
  rcases hvalue with rfl | ⟨rfl | rfl, hlo, hhi⟩
  · simp only [ha, hb, ht, Nat.not_le.2 hcell, bind, Except.bind, Bool.false_eq_true, or_self, if_false]
    rfl
  all_goals
    simp only [ha, hb, ht, Nat.not_le.2 hcell, bind, Except.bind, Int.not_lt.2 hlo, Int.not_lt.2 hhi, decide_false, Bool.or_self,
      Bool.false_eq_true, or_self, if_false]
    rfl

section
variable {imm : BitVec 13} {x : Nat}

theorem exec_dread_sends {f : CellField} {cell : BitVec 9} (hx : ddaAddr a imm 256 256 = .ok x) (hcell : cell.toNat ≤ 448)
    (hmay : s.MayClaim) : ∃ t, exec (.dread ⟨f, ra, cell, imm⟩) s = .next t.slotEnd
      ∧ s.DdaSent t (.dread ⟨f, ra, cell, imm⟩) fun c => c.a = BitVec.ofNat 64 x :=
  State.ddaSends hs (f := fun _ c => { c with a := BitVec.ofNat 64 x }) (fun _ _ => ⟨rfl, rfl, rfl, rfl, rfl⟩) (fun _ => rfl)
    (fun t ht => slotOp_calm h (by simp only [ha, hx, ht, Nat.not_lt.2 hcell, if_false, bind, Except.bind]; rfl)) hmay

theorem exec_dsave_sends (rel : Bool) (hx : ddaAddr a imm 256 16896 = .ok x) (hmay : s.MayClaim) :
    ∃ t, exec (.dsave ra imm rel) s = .next t.slotEnd ∧ s.DdaSent t (.dsave ra imm rel) fun c => c.a = BitVec.ofNat 64 x :=
  State.ddaSends hs (f := fun _ c => { c with a := BitVec.ofNat 64 x }) (fun _ _ => ⟨rfl, rfl, rfl, rfl, rfl⟩) (fun _ => rfl)
    (fun t ht => slotOp_calm h (by simp only [ha, imageSize, hx, ht, bind, Except.bind]; rfl)) hmay

theorem exec_dload_sends (hx : ddaAddr a imm 256 16896 = .ok x) (hmay : s.MayClaim) :
    ∃ t, exec (.dload ra imm) s = .next t.slotEnd ∧ s.DdaSent t (.dload ra imm) fun c => c.a = BitVec.ofNat 64 x :=
  State.ddaSends hs (f := fun _ c => { c with a := BitVec.ofNat 64 x }) (fun _ _ => ⟨rfl, rfl, rfl, rfl, rfl⟩) (fun _ => rfl)
    (fun t ht => slotOp_calm h (by simp only [ha, imageSize, hx, ht, bind, Except.bind]; rfl)) hmay

end

end

theorem exec_dinj_busy {s : State} {rv : Src} {v : VWord} {u : Nat} (h : s.Calm) (hv : s.srcV rv = .ok v)
    (howner : s.myCore.dda.owner = some u) (hu : u ≠ s.myUnit) : exec (.dinj rv) s = .next (s.slotFault integratorBusy) :=
  slotOp_fault h (by simp only [hv, State.claim_busy howner hu, bind, Except.bind])

/-- DCNT claims the array and then reserves the slot at TAIL. -/
theorem exec_dcnt_sends {s : State} {o : DcntOp} (h : s.Calm) (hs : s.Seated) (hentry : s.iss.entry.queue o.q.val = s.me.queue o.q.val)
    (hmay : s.MayClaim) (hcell : o.cell.toNat + 64 * (o.rows.val + 1) ≤ 512) (hcfg : (s.me.queue o.q.val).cfg = true)
    (hspi : (s.me.queue o.q.val).spi = false) (hspo : (s.me.queue o.q.val).spo = false) (href : (s.me.queue o.q.val).ref = 0)
    (hopn : (s.me.queue o.q.val).opn = false) (hrows : o.rows.val + 1 ≤ (s.me.queue o.q.val).slotsz.toNat + 1) :
    ∃ t, exec (.dcnt o) s = .next t.slotEnd ∧ s.DdaSent t (.dcnt o) (fun c => c.ctr = (s.me.queue o.q.val).tail ∧ c.splice = none)
      ∧ t.me.queue o.q.val = { s.me.queue o.q.val with tail := (s.me.queue o.q.val).tail + 1 } := by
  obtain ⟨t, hclaim, hleaves, hdda, hme⟩ := State.claim_ok hmay
  have hk : t.iss.ctx < 4 := hleaves.unit.1 ▸ hs.2.1
  have hlocal := State.reserve_local (s := t) (q := o.q.val) (by rw [hme]; exact hspo)
  rw [hme] at hlocal
  have hset := State.leaves_setQueue hk o.q.val fun _ => { s.me.queue o.q.val with tail := (s.me.queue o.q.val).tail + 1 }
  have hafter := State.me_onMe t (fun x => x.setQueue o.q.val { s.me.queue o.q.val with tail := (s.me.queue o.q.val).tail + 1 }) hk
  refine ⟨_, slotOp_calm h (t := (t.reserve o.q.val).2.ddaCommand (.dcnt o) fun _ c => { c with
    ctr := (t.reserve o.q.val).1.1, splice := (t.reserve o.q.val).1.2 }) ?_, ?_, ?_⟩
  · have hok : (!(s.me.queue o.q.val).cfg || (s.me.queue o.q.val).spi || (s.me.queue o.q.val).ref != 0 || (s.me.queue o.q.val).opn) = false := by
      simp [hcfg, hspi, href, hopn]
    simp only [hclaim, hentry, hok, bind, Except.bind, Nat.not_lt.2 hcell, Nat.not_lt.2 hrows, Bool.false_eq_true, if_false]
    rfl
  · rw [hlocal]
    refine (hleaves.trans hset).ddaCommand hs ?_ (fun _ _ => ⟨rfl, rfl, rfl, rfl, rfl⟩) fun _ => ⟨rfl, rfl⟩
    exact (congrArg Core.dda (State.myCore_onMe ..)).trans hdda
  · rw [hlocal, State.ddaCommand, State.me_command (by exact hk), hafter]
    exact Ctx.queue_setQueue_same _ _ o.q.isLt

/-- Settles O36: each command passes its checks, claims the array and is handed over. -/
theorem integratorCommands : Obligations.IntegratorCommands := by
  unfold Obligations.IntegratorCommands
  refine ⟨fun s ra rb a b v rv h hs ha hb hv => ?commands, fun s o h hs hentry hmay => ?dcnt⟩
  case commands =>
    intro sends at_
    refine ⟨fun n imm x hx => exec_dpatch_sends h hs ha (ddaAddr_ok hx.1 hx.2.1 hx.2.2), fun mask h0 hle => exec_dclk_sends h hs ha mask h0 hle,
      fun cell hcell => ⟨fun f hf hlo hhi => ?_, exec_dset_sends h hs ha hb hcell (.inl rfl)⟩, exec_dinj_sends h hs hv,
      fun mask hlt => exec_dstep_sends h hs ha mask hlt, fun f cell imm x hx hcell => exec_dread_sends h hs ha (ddaAddr_ok hx.1 hx.2.1 hx.2.2) hcell,
      fun imm rel x hx => exec_dsave_sends h hs ha rel (ddaAddr_ok hx.1 hx.2.1 hx.2.2),
      fun imm x hx => exec_dload_sends h hs ha (ddaAddr_ok hx.1 hx.2.1 hx.2.2), fun u howner hu => exec_dinj_busy h hv howner hu⟩
    exact exec_dset_sends h hs ha hb hcell (.inr ⟨by simpa using hf, hlo, hhi⟩)
  case dcnt =>
    intro y hcell hcfg hspi hspo href hopn hrows
    obtain ⟨t, hexec, ⟨hsent, -, hmem, hspm, -⟩, hqueue⟩ := exec_dcnt_sends h hs hentry hmay hcell hcfg hspi hspo href hopn hrows
    exact ⟨t, hexec, hsent, hqueue, hmem, hspm⟩

end Sys2Proof.Machine
end

section
/-! SUPPORT. The tag table, and the commands of the copy engine (R158, R297 to R304; log entry 29). -/
namespace Sys2Proof.Machine

/-! ### The tag table (R297, R298) -/

section
variable {α : Type} {l : List (Nat × α)}

/-- With rising keys, what is found among the pairs whose values pass a test. -/
theorem find_filter (h : risingKeys l = true) (p : α → Bool) (n : Nat) : find (l.filter fun t => p t.2) n = (find l n).filter p := by
  have hf : risingKeys (l.filter fun t => p t.2) = true := risingKeys_of_sublist h List.filter_sublist
  refine Option.ext fun x => ?_
  rw [Option.filter_eq_some_iff, find_eq_some_iff hf, find_eq_some_iff h, List.mem_filter]

end

theorem filter_ne (l : List (Nat × Word)) (k : Word) : (l.filter fun t => !(t.2 == k)) = l.filter fun t => decide (t.2 ≠ k) := by
  congr 1
  funext t
  by_cases hk : t.2 = k <;> simp [hk]

/-- The word that TLOOK gives. -/
def Core.tagWord (x : Core) (k : Word) : Word :=
  match x.tagIndex k with
  | some i => BitVec.ofNat 64 i
  | none => BitVec.allOnes 64

theorem Core.tagWord_spec {x : Core} (hlt : ∀ t ∈ x.tags, t.1 < 1024) (k : Word) :
    ((x.tagWord k).toNat, k) ∈ x.tags ∨ (x.tagWord k = BitVec.allOnes 64 ∧ ∀ n, (n, k) ∉ x.tags) := by
  unfold Core.tagWord Core.tagIndex
  cases hfind : x.tags.find? fun t => t.2 == k with
  | some t =>
    have hmem := List.mem_of_find?_eq_some hfind
    have hkey : t.2 = k := by simpa using List.find?_some hfind
    have hindex : t.1 % 2 ^ 64 = t.1 := Nat.mod_eq_of_lt ((hlt t hmem).trans (by decide))
    refine .inl ?_
    rw [Option.map_some]
    dsimp only
    rw [BitVec.toNat_ofNat, hindex, ← hkey]
    exact hmem
  | none =>
    refine .inr ⟨rfl, fun n hn => ?_⟩
    simpa using List.find?_eq_none.1 hfind _ hn

section
variable {s : State} {a b : Src} {k i : Word} (h : s.Calm) (ha : s.srcS a = .ok k) (hb : s.srcS b = .ok i)
include h

section
include ha

theorem exec_tlook (d : Fin 32) :
    exec (.tlook d a) s = .next (s.writeNoLatch .s d.val ((s.myCore.tagWord k).setWidth 2048) 1).slotEnd :=
  slotOp_calm h (by simp only [ha, bind, Except.bind]; rfl)

theorem exec_tinv_key : exec (.tinv a false) s
    = .next (s.onMyCore fun x => { x with tags := x.tags.filter fun t => !(t.2 == k) }).slotEnd :=
  slotOp_calm h (by simp only [ha, bind, Except.bind, Bool.not_false, if_true]; rfl)

theorem exec_tinv_index (hk : k.toNat < 1024) : exec (.tinv a true) s = .next (s.onMyCore fun x => { x with tags := del x.tags k.toNat }).slotEnd :=
  slotOp_calm h (by simp only [ha, bind, Except.bind, Bool.not_true, Bool.false_eq_true, if_false, Nat.not_le.2 hk]; rfl)

theorem exec_tinv_outside (hk : 1024 ≤ k.toNat) : exec (.tinv a true) s = .next (s.slotFault tagRange) :=
  slotOp_fault h (by simp only [ha, bind, Except.bind, Bool.not_true, Bool.false_eq_true, if_false, hk, if_true])

include hb

theorem exec_tins (hi : i.toNat < 1024) : exec (.tins a b) s
    = .next (s.onMyCore fun x => { x with tags := put (x.tags.filter fun t => !(t.2 == k)) i.toNat k }).slotEnd :=
  slotOp_calm h (by simp only [ha, hb, bind, Except.bind, Nat.not_le.2 hi, if_false]; rfl)

theorem exec_tins_outside (hi : 1024 ≤ i.toNat) : exec (.tins a b) s = .next (s.slotFault tagRange) :=
  slotOp_fault h (by simp only [ha, hb, bind, Except.bind, hi, if_true])

end

end

/-! ### Copy loads (R158, R300 to R303) -/

/-- The copy engine has the command, and the memories are left. -/
def State.CopySent (s t : State) (op : Instr) (P : Cmd → Prop) : Prop := s.Sends t .cpy op P ∧ t.mem = s.mem ∧ t.myCore.spm = s.myCore.spm

/-- A copy load reserves the slot at TAIL of a queue without splices. -/
theorem State.copyLoad_spec {s : State} (hs : s.Seated) {q : Nat} (hq : q < 16) (hspo : (s.me.queue q).spo = false) (op : Instr) (a b c : Word) :
    s.CopySent (s.copyLoad q op a b c) op (fun z => z.a = a ∧ z.b = b ∧ z.ctr = (s.me.queue q).tail ∧ z.splice = none)
      ∧ (s.copyLoad q op a b c).me.queue q = { s.me.queue q with tail := (s.me.queue q).tail + 1 } := by
  have hset := State.leaves_setQueue hs.2.1 q fun _ => { s.me.queue q with tail := (s.me.queue q).tail + 1 }
  have hafter := State.me_onMe s (fun x => x.setQueue q { s.me.queue q with tail := (s.me.queue q).tail + 1 }) hs.2.1
  unfold State.copyLoad
  rw [State.reserve_local hspo]
  obtain ⟨hsent, hmem, hspm, -⟩ := hset.command hs (e := .cpy) (op := op)
    (f := fun _ z => { z with a := a, b := b, c := c, ctr := (s.me.queue q).tail, splice := none })
    (P := fun z => z.a = a ∧ z.b = b ∧ z.ctr = (s.me.queue q).tail ∧ z.splice = none)
    (fun _ _ => ⟨rfl, rfl, rfl, rfl, rfl⟩) fun _ => ⟨rfl, rfl, rfl, rfl⟩
  refine ⟨⟨hsent, hmem, hspm⟩, ?_⟩
  dsimp only
  rw [State.me_command (by exact hs.2.1), hafter]
  exact Ctx.queue_setQueue_same _ _ hq

theorem copyDesc_ok {w : Word} {d : CopyDesc} (hd : d = ⟨(w.extractLsb' 25 39).toInt, (w.extractLsb' 17 8).toNat + 1, (w.extractLsb' 0 17).toNat⟩)
    (h0 : 0 < (w.extractLsb' 0 17).toNat) (hle : (w.extractLsb' 0 17).toNat ≤ 65536) : copyDesc w = .ok d := by
  have hgood : ¬((w.extractLsb' 0 17).toNat = 0 ∨ 65536 < (w.extractLsb' 0 17).toNat) := by omega
  simp only [copyDesc, field, hgood, if_false, hd]

theorem tooBig_eq_false {y : Queue} {d : CopyDesc} (h : d.rows * d.rowb ≤ y.slotBytes) : tooBig y d = false :=
  decide_eq_false (Nat.not_lt.2 h)

section
variable {s : State} {q : Fin 16} {ra rb rc : Src} {a b c : Word} {d : CopyDesc} (h : s.Calm) (ha : s.srcS ra = .ok a) (hb : s.srcS rb = .ok b)
include h ha hb

section
variable (happend : appendCheck (s.iss.entry.queue q.val) = .ok ()) (hdesc : copyDesc b = .ok d)
  (hfits : tooBig (s.iss.entry.queue q.val) d = false)
include happend hdesc hfits

theorem exec_cpld : exec (.cpld ⟨q, ra, rb⟩) s = .next (s.copyLoad q.val (.cpld ⟨q, ra, rb⟩) a b 0).slotEnd :=
  slotOp_calm h (by simp only [happend, ha, hb, hdesc, hfits, bind, Except.bind, Bool.false_eq_true, if_false]; rfl)

theorem exec_cpll {tag : BitVec 6} (hrows : (s.cpllRows s.iss.core a d).isOk = true) :
    exec (.cpll ⟨q, ra, rb, tag⟩) s = .next (s.copyLoad q.val (.cpll ⟨q, ra, rb, tag⟩) a b 0).slotEnd := by
  cases hr : s.cpllRows s.iss.core a d with
  | error e => rw [hr] at hrows; cases hrows
  | ok l => exact slotOp_calm h (by simp only [happend, ha, hb, hdesc, hr, hfits, bind, Except.bind, Bool.false_eq_true, if_false]; rfl)

theorem exec_cpga (hc : s.srcS rc = .ok c) (halign : c.toNat % 4 = 0) (hin : c.toNat + 4 * d.rows ≤ 3145728) :
    exec (.cpga ⟨q, ra, rb, rc⟩) s = .next (s.copyLoad q.val (.cpga ⟨q, ra, rb, rc⟩) a b c).slotEnd := by
  have hroom : ¬spmSize < c.toNat + 4 * d.rows := Nat.not_lt.2 hin
  refine slotOp_calm h ?_
  simp only [happend, ha, hb, hc, hdesc, halign, hroom, hfits, ne_eq, not_true_eq_false, bind, Except.bind, Bool.false_eq_true, if_false]
  rfl

end

/-! ### CPST (R304) -/

theorem exec_cpst {k : Fin 16} {ctr : BitVec 16} (hsource : s.queueSource q.val k.val = .ok ctr) (hdesc : copyDesc b = .ok d)
    (hfits : tooBig (s.iss.entry.queue q.val) d = false) : exec (.cpst ⟨q, ra, rb, k, false⟩) s
      = .next ((s.holdSlot s.myUnit q.val ctr).command .cpy (.cpst ⟨q, ra, rb, k, false⟩) fun _ z => { z with a, b, ctr }).slotEnd :=
  slotOp_calm h (by simp only [hsource, ha, hb, hdesc, hfits, bind, Except.bind, Bool.false_eq_true, if_false]; rfl)

/-! ### CPMEM (R304; log entry 29) -/

theorem exec_cpmem (hc : s.srcS rc = .ok c) (hlt : c.toNat < 2 ^ 40) (hapart : a.toNat + c.toNat ≤ b.toNat ∨ b.toNat + c.toNat ≤ a.toNat) :
    exec (.cpmem ⟨ra, rb, rc, false, false⟩) s
      = .next (s.command .cpy (.cpmem ⟨ra, rb, rc, false, false⟩) fun _ z => { z with a, b, c }).slotEnd := by
  have hclash : overlaps a.toNat c.toNat b.toNat c.toNat = false := by
    simp only [overlaps, Bool.and_eq_false_iff, decide_eq_false_iff_not, Nat.not_lt]
    exact hapart.symm
  refine slotOp_calm h ?_
  simp only [ha, hb, hc, Nat.not_le.2 hlt, State.copyEnd, hclash, Bool.false_and, bind, Except.bind, Bool.false_eq_true, if_false]
  rfl

theorem exec_cpmem_shape (hc : s.srcS rc = .ok c) (hle : 2 ^ 40 ≤ c.toNat) (ld ls : Bool) :
    exec (.cpmem ⟨ra, rb, rc, ld, ls⟩) s = .next (s.slotFault copyShape) :=
  slotOp_fault h (by simp only [ha, hb, hc, hle, if_true, bind, Except.bind])

end

/-- Handing a command over changes the commands and the open numbers of its unit alone. -/
theorem State.unit_command {s : State} (hk : s.iss.ctx < 4) (e : Engine) (op : Instr) (f : Nat → Cmd → Cmd) {x : Unit}
    (hx : s.unit s.myUnit = some x) : ∃ cmds open_, (s.command e op f).unit s.myUnit = some { x with cmds, open_ } := by
  obtain ⟨c, hc⟩ := s.command_eq e op f
  let a := s.onMe fun x => { x with csr := x.csr.setTl e (BitVec.ofNat 64 ((s.me.csr.tl e).toNat + 1)) }
  let b := (s.tlNext e).2.onMyCore fun x => { x with nextPlace := x.nextPlace + 1 }
  have ha : a.myUnit = s.myUnit := State.myUnit_onMe hk _ fun _ => rfl
  have htl : (s.tlNext e).2.unit s.myUnit = some { x with open_ := x.open_ ++ [(e, (s.me.csr.tl e).toNat + 1)] } := by
    have := a.unit_onMyUnit fun u => { u with open_ := u.open_ ++ [(e, (s.me.csr.tl e).toNat + 1)] }
    rw [ha] at this
    exact this.trans (congrArg (Option.map _) hx)
  have hb : b.myUnit = s.myUnit := by
    have hbme : b.me = (s.tlNext e).2.me := (s.tlNext e).2.me_onMyCore (fun x => { x with nextPlace := x.nextPlace + 1 }) fun _ => rfl
    rw [State.myUnit, hbme, State.me_tlNext hk]
    rfl
  refine ⟨x.cmds ++ [c], x.open_ ++ [(e, (s.me.csr.tl e).toNat + 1)], ?_⟩
  rw [hc]
  have := b.unit_onMyUnit fun u => { u with cmds := u.cmds ++ [c] }
  rw [hb] at this
  exact this.trans (congrArg (Option.map _) htl)

/-- The source slot of a CPST is held, and the copy engine has the command. -/
theorem State.cpst_spec {s : State} (hs : s.Seated) (q : Nat) (ctr : BitVec 16) (op : Instr) (a b : Word) :
    let t := (s.holdSlot s.myUnit q ctr).command .cpy op fun _ z => { z with a, b, ctr }
    s.CopySent t op (fun z => z.a = a ∧ z.b = b ∧ z.ctr = ctr)
      ∧ ∀ x z, s.unit s.myUnit = some x → t.unit s.myUnit = some z → z.qreads = x.qreads ++ [(q, ctr)] := by
  intro t
  have hheld : s.Leaves (s.holdSlot s.myUnit q ctr) := s.leaves_onMyUnit fun _ => ⟨⟨rfl, rfl⟩, rfl, rfl⟩
  obtain ⟨hsent, hmem, hspm, -⟩ := hheld.command hs (e := .cpy) (op := op) (f := fun _ z => { z with a := a, b := b, ctr := ctr })
    (P := fun z => z.a = a ∧ z.b = b ∧ z.ctr = ctr) (fun _ _ => ⟨rfl, rfl, rfl, rfl, rfl⟩) fun _ => ⟨rfl, rfl, rfl⟩
  refine ⟨⟨hsent, hmem, hspm⟩, fun x z hx hz => ?_⟩
  have hheldx := (State.unit_onUnit s s.myUnit fun y => { y with qreads := y.qreads ++ [(q, ctr)] }).trans (congrArg (Option.map _) hx)
  obtain ⟨cmds, open_, hunit⟩ := State.unit_command (s := s.holdSlot s.myUnit q ctr) hs.2.1 .cpy op
    (fun _ z => { z with a := a, b := b, ctr := ctr }) hheldx
  obtain rfl := Option.some.inj (hz.symm.trans hunit)
  rfl

/-- Settles O35: the tags by what is found after each change; the copies by their checks and what they hand over. -/
theorem tagsAndCopies : Obligations.TagsAndCopies := by
  unfold Obligations.TagsAndCopies
  refine ⟨fun s d a b k i h ha hb hrising hlt _ => ?tags, fun s q ra rb rc a b c d h hs ha hb hc hentry => ?copies⟩
  case tags =>
    refine ⟨⟨_, exec_tlook h ha d, Core.tagWord_spec hlt k⟩, fun hi => ⟨_, exec_tins h ha hb hi, fun n => ?_⟩,
      fun hi => ⟨exec_tins_outside h ha hb hi, exec_tinv_outside h hb hi⟩, ⟨_, exec_tinv_key h ha, fun n => ?_⟩,
      fun hi => ⟨_, exec_tinv_index h hb hi, fun n => ?_⟩⟩
    all_goals rw [State.myCore_onMyCore]
    · dsimp only
      rw [filter_ne]
      by_cases hn : n = i.toNat
      · rw [if_pos hn, hn, find_put_same]
      · rw [if_neg hn, find_put_other _ _ hn]
        exact find_filter hrising (fun x => decide (x ≠ k)) n
    · dsimp only
      rw [filter_ne]
      exact find_filter hrising (fun x => decide (x ≠ k)) n
    · dsimp only
      by_cases hn : n = i.toNat
      · rw [if_pos hn, hn, find_del_same hrising]
      · rw [if_neg hn, find_del_other _ hn]
  case copies =>
    intro y rowb
    refine ⟨fun hd h0 hle hsize hcfg hspo => ⟨fun hspi href tag i hi hga hll => ?loads, fun k => ?store⟩, fun hlt hapart => ?cpmem,
      fun hle ld ls => exec_cpmem_shape h ha hb hc hle ld ls⟩
    case loads =>
      have happend : appendCheck (s.iss.entry.queue q.val) = .ok () := hentry ▸ appendCheck_ok hcfg hspi href
      have hfits : tooBig (s.iss.entry.queue q.val) d = false := hentry ▸ tooBig_eq_false hsize
      have hdesc := copyDesc_ok hd h0 hle
      simp only [List.mem_cons, List.not_mem_nil, or_false] at hi
      rcases hi with rfl | rfl | rfl
      · obtain ⟨⟨hsent, hmem, hspm⟩, hqueue⟩ := State.copyLoad_spec hs q.isLt hspo (.cpld ⟨q, ra, rb⟩) a b 0
        exact ⟨_, exec_cpld h ha hb happend hdesc hfits, hsent, hqueue, hmem, hspm⟩
      · obtain ⟨⟨hsent, hmem, hspm⟩, hqueue⟩ := State.copyLoad_spec hs q.isLt hspo (.cpll ⟨q, ra, rb, tag⟩) a b 0
        exact ⟨_, exec_cpll h ha hb happend hdesc hfits (hll rfl), hsent, hqueue, hmem, hspm⟩
      · obtain ⟨⟨hsent, hmem, hspm⟩, hqueue⟩ := State.copyLoad_spec hs q.isLt hspo (.cpga ⟨q, ra, rb, rc⟩) a b c
        exact ⟨_, exec_cpga h ha hb happend hdesc hfits hc (hga rfl).1 (hga rfl).2, hsent, hqueue, hmem, hspm⟩
    case store =>
      have hsource := State.queueSource_ok (s := s) (q := q.val) (hentry ▸ hcfg) (hentry ▸ hspo) k.val
      rw [hentry] at hsource
      obtain ⟨⟨hsent, hmem, hspm⟩, hreads⟩ := State.cpst_spec hs q.val (y.head + BitVec.ofNat 16 k.val) (.cpst ⟨q, ra, rb, k, false⟩) a b
      exact ⟨_, exec_cpst h ha hb hsource (copyDesc_ok hd h0 hle) (hentry ▸ tooBig_eq_false hsize), hsent, hreads, hmem, hspm⟩
    case cpmem =>
      obtain ⟨hsent, hmem, hspm, -⟩ := (State.Leaves.refl s).command hs (e := .cpy) (op := .cpmem ⟨ra, rb, rc, false, false⟩)
        (f := fun _ z => { z with a := a, b := b, c := c }) (P := fun z => z.a = a ∧ z.b = b ∧ z.c = c)
        (fun _ _ => ⟨rfl, rfl, rfl, rfl, rfl⟩) fun _ => ⟨rfl, rfl, rfl⟩
      exact ⟨_, exec_cpmem h ha hb hc hlt hapart, hsent, hmem, hspm⟩

end Sys2Proof.Machine
end

section
/-! SUPPORT. The row streams of a static context and the collective commands (R308 to R310, R354 to R356). -/
namespace Sys2Proof.Machine

/-! ### The word at the core's position (R309) -/

theorem State.tap_found {s : State} {west : Bool} {str : Nat} {w : VWord}
    (h : find s.streams (streamKey s.iss.core west str (s.iss.core % 16)) = some w) : s.tap west str = (w, s) := by
  have hfind : find s.streams (streamKey s.iss.core west str (colOf s.iss.core)) = some w := h
  simp only [State.tap, hfind]

/-- A landing that is taken and ready at once stands last in its unit's buffer, and nothing of the context or the memory changes. -/
theorem State.landing_taken {s : State} {x : Unit} (hx : s.unit s.myUnit = some x) (cls : RegCls) (num due : Nat) (v : VWord) :
    ∃ z l, ((s.takeLanding cls num none).2.landReady s.myUnit (s.takeLanding cls num none).1 due v allLanes 0).unit s.myUnit = some z
      ∧ z.landings.map (·.id) = x.landings.map (·.id) ++ [x.nextLand]
      ∧ l ∈ z.landings ∧ l.id = x.nextLand ∧ l.cls = cls ∧ l.num = num ∧ l.ready = some (v, allLanes, 0) := by
  have hid : (s.takeLanding cls num none).1 = x.nextLand := by simp only [State.takeLanding, hx, Option.map_some, Option.getD_some]
  have htaken := (s.unit_onMyUnit fun u => { u with
    nextLand := u.nextLand + 1
    landings := u.landings ++ [{ id := (s.takeLanding cls num none).1, cls, num, eng := none, ready := none, due := s.now + 1 }] }).trans
      (congrArg (Option.map _) hx)
  have hready := (State.unit_onUnit (s.takeLanding cls num none).2 s.myUnit fun x => { x with landings := x.landings.map fun l =>
    if l.id = (s.takeLanding cls num none).1 then { l with ready := some (v, allLanes, 0), due } else l }).trans
      (congrArg (Option.map _) htaken)
  refine ⟨_, ⟨x.nextLand, cls, num, none, some (v, allLanes, 0), due⟩, hready, ?_, ?_, rfl, rfl, rfl, rfl⟩
  · have hkeep : ∀ l : Landing, (if l.id = x.nextLand then { l with ready := some (v, allLanes, 0), due } else l).id = l.id := fun l => by
      split <;> rfl
    simp only [hid, List.map_append, List.map_map, List.map_cons, List.map_nil, Function.comp_def, hkeep, if_true]
  · simp [hid]

/-! ### The stream operations of a static context -/

section
variable {s : State} {west : Bool} {str : Fin 8} (h : s.Calm)
include h

section
variable (hst : s.isStatic s.iss.core s.iss.ctx = true)
include hst

theorem exec_sdrv {b : Src} {v : VWord} (hb : s.srcV b = .ok v) :
    let col := s.iss.core % 16
    if (if west then col = 0 else col = 15) then exec (.sdrv west str b) s = .next s.slotEnd
    else exec (.sdrv west str b) s = .next ({ s with drives := s.drives ++
      [⟨streamKey s.iss.core west str.val (if west then col - 1 else col + 1), v, s.iss.core, s.iss.ctx, s.iss.pc, s.iss.cc⟩] } :
        State).slotEnd := by
  intro col
  have hcol : colOf s.iss.core = col := rfl
  cases west with
  | true =>
    by_cases hedge : col = 0
    · simp only [hedge, if_true]
      exact slotOp_calm h (by simp only [hb, hst, hcol, hedge, if_true, bind, Except.bind, Bool.not_true, Bool.false_eq_true, if_false]; rfl)
    · simp only [hedge, if_true, if_false]
      exact slotOp_calm h (by simp only [hb, hst, hcol, hedge, if_true, bind, Except.bind, Bool.not_true, Bool.false_eq_true, if_false]; rfl)
  | false =>
    by_cases hedge : col = 15
    · simp only [hedge, if_true, Bool.false_eq_true, if_false]
      exact slotOp_calm h (by simp only [hb, hst, hcol, hedge, if_true, bind, Except.bind, Bool.not_true, Bool.false_eq_true, if_false]; rfl)
    · simp only [hedge, Bool.false_eq_true, if_false]
      exact slotOp_calm h (by simp only [hb, hst, hcol, hedge, bind, Except.bind, Bool.not_true, Bool.false_eq_true, if_false]; rfl)

variable {w : VWord} (hw : find s.streams (streamKey s.iss.core west str.val (s.iss.core % 16)) = some w)
include hw

theorem exec_stap (d : Fin 32) : exec (.stap west str d) s
    = .next ((s.takeLanding .v d.val none).2.landReady s.myUnit (s.takeLanding .v d.val none).1 (s.now + 1) w allLanes 0).slotEnd :=
  slotOp_calm h (by simp only [hst, State.tap_found hw, Bool.not_true, Bool.false_eq_true, if_false]; rfl)

theorem exec_stapq {q : Fin 16} (tag : BitVec 6) (hentry : s.iss.entry.queue q.val = s.me.queue q.val)
    (hcfg : (s.me.queue q.val).cfg = true) (hslot : (s.me.queue q.val).slotsz = 0) (hspi : (s.me.queue q.val).spi = false)
    (hspo : (s.me.queue q.val).spo = false) (href : (s.me.queue q.val).ref = 0) (hopn : (s.me.queue q.val).opn = false) :
    exec (.stapq west str q tag) s = .next ((s.onMe fun x => x.setQueue q.val { s.me.queue q.val with tail := (s.me.queue q.val).tail + 1 }
      ).appendBytes q.val ((s.me.queue q.val).tail, none) 0 (vbytes w) true tag.toNat).slotEnd :=
  slotOp_calm h (by
    simp only [hst, hentry, hcfg, hslot, hopn, appendCheck_ok hcfg hspi href, State.tap_found hw, State.reserve_local hspo, bind,
      Except.bind, bne_self_eq_false, Bool.not_true, Bool.or_self, Bool.false_and, Bool.false_eq_true, if_false]
    rfl)

end

theorem stream_outside (hst : s.isStatic s.iss.core s.iss.ctx = false) {b : Src} {v : VWord} (hb : s.srcV b = .ok v) (d : Fin 32) (q : Fin 16)
    (tag : BitVec 6) : ∀ i ∈ [Instr.sdrv west str b, .stap west str d, .stapq west str q tag], exec i s = .next (s.slotFault streamContext) := by
  intro i hi
  simp only [List.mem_cons, List.not_mem_nil, or_false] at hi
  rcases hi with rfl | rfl | rfl
  · exact slotOp_fault h (by simp only [hb, hst, bind, Except.bind, Bool.not_false, if_true])
  · exact slotOp_fault h (by simp only [hst, Bool.not_false, if_true])
  · exact slotOp_fault h (by simp only [hst, Bool.not_false, if_true])

/-! ### Collective commands (R355, R356) -/

section
variable {ra rb : Src} {a b : Word} (ha : s.srcS ra = .ok a) (hb : s.srcS rb = .ok b)
include ha hb

theorem exec_coll : exec (.coll ra rb) s = .next (s.command .col (.coll ra rb) fun _ c => { c with a, b }).slotEnd :=
  slotOp_calm h (by simp only [ha, hb, bind, Except.bind]; rfl)

theorem exec_cqry {imm : BitVec 13} {x : Nat} (hx : (a.toNat : Int) + imm.toInt = x) (hin : x + 16 ≤ 3145728) (hal : x % 16 = 0) :
    exec (.cqry ra imm rb) s = .next (s.command .col (.cqry ra imm rb) fun _ c => { c with a := BitVec.ofNat 64 x, b }).slotEnd := by
  have hrange : ¬((x : Int) < 0 ∨ (spmSize : Int) ≤ x) := by
    have : spmSize = 3145728 := rfl
    omega
  have haligned : (x : Int) % 16 = 0 := by omega
  refine slotOp_calm h ?_
  simp only [ha, hb, hx, hrange, haligned, ne_eq, not_true_eq_false, if_false, Int.toNat_natCast, bind, Except.bind]
  rfl

end

end

/-- Settles O37: the stream operations by what stands at the core's position, and the commands by what they hand over. -/
theorem streamAndCollectiveResults : Obligations.StreamAndCollectiveResults := by
  unfold Obligations.StreamAndCollectiveResults
  refine ⟨fun s west str b d q tag v w h hs hb hentry => ?stream, fun s ra rb a b imm x h hs ha hb => ?collective⟩
  case stream =>
    refine ⟨fun hst => ⟨exec_sdrv h hst hb, fun hw => ?_, fun hw hcfg hslot hspi hspo href hopn =>
      exec_stapq h hst hw tag hentry hcfg hslot hspi hspo href hopn⟩, fun hst => stream_outside h hst hb d q tag⟩
    obtain ⟨x, hx⟩ := hs.unit_myUnit
    obtain ⟨z, l, hz, hids, hl⟩ := State.landing_taken hx .v d.val (s.now + 1) w
    exact ⟨_, exec_stap h hst hw d, ⟨x, z, l, hx, hz, hids, hl⟩, rfl, rfl⟩
  case collective =>
    have hsent : ∀ (op : Instr) (a b : Word), _ := fun op a b => (State.Leaves.refl s).command hs (e := .col) (op := op)
      (f := fun _ c => { c with a := a, b := b }) (P := fun c => c.a = a ∧ c.b = b) (fun _ _ => ⟨rfl, rfl, rfl, rfl, rfl⟩) fun _ => ⟨rfl, rfl⟩
    refine ⟨?_, fun hx hin hal => ?_, fun _ _ _ => rfl⟩
    · obtain ⟨hs, hmem, hspm, hregs, -⟩ := hsent (.coll ra rb) a b
      exact ⟨_, exec_coll h ha hb, hs, hmem, hspm, hregs⟩
    · obtain ⟨hs, hmem, hspm, hregs, -⟩ := hsent (.cqry ra imm rb) (BitVec.ofNat 64 x) b
      exact ⟨_, exec_cqry h ha hb hx hin hal, hs, hmem, hspm, hregs⟩

end Sys2Proof.Machine
end

section
/-! SUPPORT. The special functions, square root and division of the X slot (R228 to R233). -/
namespace Sys2Proof.Machine

/-! ### Functions of floating elements (R228, R230, R232) -/

theorem fun1_fst {rm : Rm} (hrm : rm ≠ .sr) (f : Ext → Ext × Flags) (fmt : FFmt) (x : Nat) (a : RAcc) :
    (fun1 f rm fmt x a).1 = (roundF fmt rm (f (fmt.decode x)).1 ⟨0, 0⟩).1 := roundF_fst hrm ..

/-- An operation whose enabled elements are the values `v`, each rounded once, is put in flight. -/
theorem rounded_lands {s : State} {i : Instr} {t : Ty} {g en : PWord} {d : Fin 32} {nw : Bool} {lat : Nat} {f : Nat → RAcc → Nat × RAcc}
    {rm : Rm} {v : Nat → Ext} (hexec : exec i s = .next (s.writeVF d nw en lat (vmap t g f s.racc)).slotEnd)
    (hf : rm ≠ .sr → ∀ i a, (f i a).1 = (roundF (tyF t) rm (v i) ⟨0, 0⟩).1) :
    ∃ r : VWord × RAcc, exec i s = .next ((s.keepSr r.2).writeV d nw r.1 en lat r.2.fl).slotEnd
      ∧ (rm ≠ .sr → ∀ k < lanes t, enabled t g k = true → elem t r.1 k = (roundF (tyF t) rm (v k) ⟨0, 0⟩).1 % 2 ^ tyBits t) :=
  ⟨_, hexec, fun hrm _ hk hen => elem_vmap (hf hrm) _ hk hen⟩

/-! ### Values at the edges (R231) -/

section
variable (n : Bool) (e : Int)

theorem Ext.isZero_zero : Ext.zero.isZero = true := rfl

theorem signed_mul (j p : Nat) : (if n then -((j * p : Nat) : Int) else (j * p : Nat)) = (if n then -(j : Int) else j) * (p : Int) := by
  cases n <;> simp

/-- A power of two with an integral exponent is exact. -/
theorem Ext.exp2_int {j : Nat} (hj : j < 1024) :
    (Ext.exp2 (.fin n j 0 false)).1 = .fin false 1 (if n then -(j : Int) else j) false := by
  unfold Ext.exp2
  by_cases h0 : j = 0
  · cases n <;> simp [h0]
  · have hlog : j.log2 < 10 := (Nat.log2_lt h0).2 hj
    have hsmall : ¬(10 : Int) ≤ 0 + j.log2 := by omega
    have hsplit : toFix j 0 = j * 2 ^ fprec := by
      have hle : (0 : Int) ≤ 0 + (fprec : Int) := by omega
      have hshift : (0 + (fprec : Int) - 0).toNat = fprec := by omega
      rw [toFix, splitAt, if_pos hle, hshift]
    have hpos : (2 ^ fprec : Int) ≠ 0 := pow_ne_zero _ two_ne_zero
    simp only [h0, hsmall, if_false, hsplit, signed_mul, Nat.cast_pow, Nat.cast_ofNat, Int.mul_ediv_cancel _ hpos, Int.mul_emod_left,
      Int.toNat_zero, if_true]

theorem Ext.log2_neg {a : Nat} (ha : 0 < a) : Ext.log2 (.fin true a e false) = (.nan, flagNV) := by
  simp only [Ext.log2, ha.ne', if_true, if_false]

theorem Ext.rsqrt_neg {a : Nat} (ha : 0 < a) : Ext.rsqrt (.fin true a e false) = (.nan, flagNV) := by
  simp only [Ext.rsqrt, ha.ne', if_true, if_false]

theorem Ext.sqrt_neg {a : Nat} (ha : 0 < a) : Ext.sqrt (.fin true a e false) = (.nan, flagNV) := by
  simp only [Ext.sqrt, ha.ne', if_true, if_false]

theorem Ext.div_by_zero {a : Nat} (ha : 0 < a) (m : Bool) (f : Int) :
    Ext.div (.fin n a e false) (.fin m 0 f false) = (.inf (n != m), flagDZ) := by
  simp only [Ext.div, ha.ne', if_true, if_false]

theorem Ext.rcp_zero : Ext.rcp (.fin n 0 e false) = (.inf n, flagDZ) :=
  (Ext.div_by_zero false 0 Nat.one_pos n e).trans (by rw [Bool.false_bne])

theorem Ext.rcp_inf : (Ext.rcp (.inf n)).1 = .fin n 0 0 false := by cases n <;> rfl

end

/-- The special functions of a NaN. -/
theorem Ext.functions_nan : ∀ h ∈ [Ext.exp2, Ext.log2, Ext.rcp, Ext.rsqrt, Ext.tanh, Ext.sigm, Ext.sqrt], (h .nan).1 = .nan := by
  intro h hh
  simp only [List.mem_cons, List.not_mem_nil, or_false] at hh
  rcases hh with rfl | rfl | rfl | rfl | rfl | rfl | rfl <;> rfl

/-! ### Integer division (R233) -/

theorem wrapInt_all_ones (bits : Nat) : wrapInt bits (2 ^ bits - 1) = wrapInt bits (-1) := by
  rw [wrapInt, wrapInt, Int.sub_eq_add_neg, Int.add_emod_left]

/-- The quotient, modulo the width. -/
theorem wrapInt_intDiv_quotient (sg : Bool) (bits : Nat) (a b : Int) : wrapInt bits (intDiv sg bits a b).1
    = wrapInt bits (if b = 0 then -1 else if sg = true ∧ a = -(2 ^ (bits - 1)) ∧ b = -1 then a else a.tdiv b) := by
  unfold intDiv
  by_cases hb : b = 0
  · rw [if_pos hb, if_pos hb]
    cases sg
    · exact wrapInt_all_ones bits
    · rfl
  · rw [if_neg hb, if_neg hb]
    split <;> rfl

theorem intDiv_remainder (sg : Bool) (bits : Nat) (a b : Int) : (intDiv sg bits a b).2.1
    = if b = 0 then a else if sg = true ∧ a = -(2 ^ (bits - 1)) ∧ b = -1 then 0 else a.tmod b := by
  unfold intDiv
  by_cases hb : b = 0
  · rw [if_pos hb, if_pos hb]
  · rw [if_neg hb, if_neg hb]
    split
    · rfl
    · rw [Int.tmod_def, Int.mul_comm]

theorem mapLanes_sr_of_kept {f : Nat → RAcc → Nat × RAcc} (h : ∀ i a, (f i a).2.sr = a.sr) (l : List Nat) (a : RAcc) :
    (mapLanes f l a).2.sr = a.sr := by
  induction l generalizing a with
  | nil => rfl
  | cons i rest ih => exact (ih _).trans (h i a)

/-- One element of a division of integers. -/
def divLane (rem sg : Bool) (bits : Nat) (g : PWord) (x y : VWord) (i : Nat) (acc : RAcc) : Nat × RAcc :=
  if g.getLsbD (bits * i / 8) then
    let d := intDiv sg bits (readInt sg bits (x.extractLsb' (bits * i) bits).toNat) (readInt sg bits (y.extractLsb' (bits * i) bits).toNat)
    (wrapInt bits (if rem then d.2.1 else d.1), acc.flag d.2.2)
  else (0, acc)

theorem divLane_sr (rem sg : Bool) (bits : Nat) (g : PWord) (x y : VWord) (i : Nat) (a : RAcc) :
    (divLane rem sg bits g x y i a).2.sr = a.sr := by
  unfold divLane
  split <;> rfl

theorem divLane_fst (rem sg : Bool) (bits : Nat) (g : PWord) (x y : VWord) (i : Nat) (a b : RAcc) :
    (divLane rem sg bits g x y i a).1 = (divLane rem sg bits g x y i b).1 := by
  unfold divLane
  split <;> rfl

section
variable (rem wd : Bool) (t : Ty) (g : PWord) (x y : VWord) (a : RAcc)

theorem vdivV_eq {bits : Nat} (hbits : bits = if wd then 64 else tyBits t) : vdivV rem t wd g x y a =
    let r := mapLanes (divLane rem (tySigned t) bits g x y) (List.range (2048 / bits)) a
    (packElems bits r.1, r.2) := by
  subst hbits
  rfl

theorem sr_vdivV : (vdivV rem t wd g x y a).2.sr = a.sr := by
  rw [vdivV_eq rem wd t g x y a rfl]
  exact mapLanes_sr_of_kept (fun i a => divLane_sr rem (tySigned t) _ g x y i a) _ a

/-- The result of an enabled element. -/
theorem vdivV_elem {bits k : Nat} (hbits : bits = if wd then 64 else tyBits t) (hk : k < 2048 / bits)
    (hen : g.getLsbD (bits * k / 8) = true) : ((vdivV rem t wd g x y a).1.extractLsb' (bits * k) bits).toNat =
      let d := intDiv (tySigned t) bits (readInt (tySigned t) bits (x.extractLsb' (bits * k) bits).toNat)
        (readInt (tySigned t) bits (y.extractLsb' (bits * k) bits).toNat)
      wrapInt bits (if rem then d.2.1 else d.1) := by
  have hfits : bits * k + bits ≤ 2048 := (Nat.mul_le_mul_left bits (Nat.succ_le_of_lt hk)).trans (Nat.mul_div_le 2048 bits)
  have hlist := mapLanes_fst (fun i b => divLane_fst rem (tySigned t) bits g x y i b a) (List.range (2048 / bits)) a
  rw [vdivV_eq rem wd t g x y a hbits]
  dsimp only
  rw [hlist, packElems, extractLsb'_packNat _ hfits, List.getElem?_map, List.getElem?_range hk, Option.map_some, Option.getD_some,
    divLane, if_pos hen, BitVec.toNat_ofNat, wrapInt_mod]

end

/-- A quotient or remainder, put in flight at latency 20. -/
theorem idiv_lands {s : State} {o : XIDiv} {x y : VWord} (h : s.Calm) (ha : s.srcV o.a = .ok x) (hb : s.srcV o.b = .ok y) (rem : Bool)
    {i : Instr} (hi : exec i s = slotOp false (bodyIDiv rem o) s) {bits : Nat} (hbits : bits = if o.wd then 64 else tyBits o.ty)
    {f : Int → Int → Int} (hf : ∀ a b, wrapInt bits (f a b)
      = wrapInt bits (if rem then (intDiv (tySigned o.ty) bits a b).2.1 else (intDiv (tySigned o.ty) bits a b).1)) :
    ∃ r fl, exec i s = .next ((s.keepSr s.racc).writeV o.d o.nw r
        (if o.wd then wideMask 64 (s.guard o.pg) else laneMask o.ty (s.guard o.pg)) 20 fl).slotEnd
      ∧ ∀ k < 2048 / bits, (s.guard o.pg).getLsbD (bits * k / 8) = true → (r.extractLsb' (bits * k) bits).toNat
        = wrapInt bits (f (readInt (tySigned o.ty) bits (x.extractLsb' (bits * k) bits).toNat)
          (readInt (tySigned o.ty) bits (y.extractLsb' (bits * k) bits).toNat)) := by
  have hexec : exec i s = .next (s.writeVF o.d o.nw (if o.wd then wideMask 64 (s.guard o.pg) else laneMask o.ty (s.guard o.pg)) 20
      (vdivV rem o.ty o.wd (s.guard o.pg) x y s.racc)).slotEnd :=
    hi.trans (slotOp_calm h (by simp only [bodyIDiv, ha, hb, bind, Except.bind]; rfl))
  rw [s.writeVF_of_sr (sr_vdivV ..)] at hexec
  exact ⟨_, _, hexec, fun k hk hen => (vdivV_elem rem o.wd o.ty _ x y _ hbits hk hen).trans (hf _ _).symm⟩

/-- Settles O26: the functions by the rounding of each enabled element, the special values by their definitions, the integer divisions by
their quotient and remainder. -/
theorem divisionAndFunctionResults : Obligations.DivisionAndFunctionResults := by
  unfold Obligations.DivisionAndFunctionResults
  refine ⟨fun s o q d x y h ha hq hd hb => ?functions, fun n m a b e f ha hb => ?values, fun s o x y h ha hb => ?integers⟩
  case functions =>
    intro lands fn
    have hx1 : ∀ i f, exec i s = slotOp false (bodyX1 f o) s → fn i f := fun i f hi =>
      rounded_lands (hi.trans (slotOp_bodyVU h ha _)) fun hrm _ _ => fun1_fst hrm ..
    refine ⟨hx1 _ _ rfl, hx1 _ _ rfl, hx1 _ _ rfl, hx1 _ _ rfl, hx1 _ _ rfl, hx1 _ _ rfl, ?_, ?_⟩
    · exact rounded_lands (slotOp_bodyVU h (hq ▸ ha) _) fun hrm _ _ => fun1_fst hrm ..
    · exact rounded_lands (slotOp_bodyVB h (hd ▸ ha) _ hb) fun hrm _ _ => fbin_fst hrm
  case values =>
    intro nought
    exact ⟨Ext.functions_nan, fun j hj => Ext.exp2_int n hj, rfl, rfl, rfl, rfl, rfl, Ext.log2_neg e ha, Ext.rcp_zero n e, Ext.rcp_inf n,
      rfl, rfl, Ext.rsqrt_neg e ha, rfl, rfl, Ext.sqrt_neg e ha, rfl, rfl, rfl, rfl, rfl, rfl, Ext.div_by_zero n e ha m f, rfl, rfl⟩
  case integers =>
    intro g bits sg at_ mask lands quotient remainder
    have hquotient := fun a b => (wrapInt_intDiv_quotient sg bits a b).symm
    have hremainder := fun a b => congrArg (wrapInt bits) (intDiv_remainder sg bits a b).symm
    exact ⟨idiv_lands h ha hb false (bits := bits) rfl rfl hquotient, idiv_lands h ha hb false (bits := bits) rfl rfl hquotient,
      idiv_lands h ha hb true (bits := bits) rfl rfl hremainder, idiv_lands h ha hb true (bits := bits) rfl rfl hremainder⟩

end Sys2Proof.Machine
end

section
/-! SUPPORT. Block exponents, quantisation, conversions and codebooks (R234 to R240). -/
namespace Sys2Proof.Machine

/-! ### Scale bytes (R234, R235) -/

section
variable {tgt : Nat} {xs : List Ext}

theorem maxexpByte_special (h : ∃ x ∈ xs, x = .nan ∨ x.isInf = true) : maxexpByte tgt xs = 255 := by
  have hany : xs.any (fun x => x.isNan || x.isInf) = true := by
    obtain ⟨x, hx, hspecial⟩ := h
    refine List.any_eq_true.2 ⟨x, hx, ?_⟩
    rcases hspecial with rfl | hinf
    · rfl
    · rw [hinf, Bool.or_true]
  rw [maxexpByte, if_pos hany]

/-- A block of finite values is scaled by its values other than zero. -/
theorem maxexpByte_finite (h : ∀ x ∈ xs, (x.isNan || x.isInf) = false) : maxexpByte tgt xs =
    let nz := xs.filter fun x => !x.isZero
    if nz.isEmpty then 127
    else (min (max (nz.foldl (fun m x => max m x.expOf) (-100000) - tgtEmax tgt + 127) 0) 254).toNat := by
  have hany : ¬xs.any (fun x => x.isNan || x.isInf) = true := by
    simpa only [List.any_eq_true, not_exists, not_and, Bool.not_eq_true] using h
  rw [maxexpByte, if_neg hany]

theorem Ext.finite_of_isZero {x : Ext} (h : x.isZero = true) : (x.isNan || x.isInf) = false := by
  cases x with
  | nan | inf => cases h
  | fin => rfl

theorem maxexpByte_zeros (h : ∀ x ∈ xs, x.isZero = true) : maxexpByte tgt xs = 127 := by
  have hnone : xs.filter (fun x => !x.isZero) = [] :=
    List.filter_eq_nil_iff.2 fun x hx => by rw [h x hx, Bool.not_true]; exact Bool.false_ne_true
  rw [maxexpByte_finite fun x hx => Ext.finite_of_isZero (h x hx)]
  simp only [hnone, List.isEmpty_nil, if_true]

theorem maxexpByte_lt : maxexpByte tgt xs < 256 := by
  unfold maxexpByte
  dsimp only
  split_ifs <;> omega

theorem foldl_max_eq {α : Type} (g : α → Int) {l : List α} {start v : Int} (hstart : start ≤ v) (hle : ∀ x ∈ l, g x ≤ v)
    (hv : start = v ∨ ∃ x ∈ l, g x = v) : l.foldl (fun m x => max m (g x)) start = v := by
  induction l generalizing start with
  | nil => simpa using hv
  | cons x rest ih =>
    simp only [List.mem_cons, forall_eq_or_imp] at hle
    obtain ⟨hx, hrest⟩ := hle
    refine ih (max_le hstart hx) hrest ?_
    simp only [List.mem_cons, exists_eq_or_imp] at hv
    rcases hv with rfl | rfl | hv
    · exact .inl (max_eq_left hx)
    · exact .inl (max_eq_right hstart)
    · exact .inr hv

/-- The scale of a block is that of its greatest exponent. -/
theorem maxexpByte_greatest {x : Ext} (hx : x ∈ xs) (hzero : x.isZero = false) (hlow : -100000 ≤ x.expOf)
    (h : ∀ y ∈ xs, ∃ n m e, y = .fin n m e false ∧ (m ≠ 0 → y.expOf ≤ x.expOf)) :
    (maxexpByte tgt xs : Int) = max 0 (min 254 (x.expOf - tgtEmax tgt + 127)) := by
  have hfinite : ∀ y ∈ xs, (y.isNan || y.isInf) = false := fun y hy => by
    obtain ⟨n, m, e, rfl, -⟩ := h y hy
    rfl
  have hmem : x ∈ xs.filter fun y => !y.isZero := List.mem_filter.2 ⟨hx, by rw [hzero, Bool.not_false]⟩
  have hgreatest : ∀ y ∈ xs.filter (fun y => !y.isZero), y.expOf ≤ x.expOf := fun y hy => by
    obtain ⟨hin, hnz⟩ := List.mem_filter.1 hy
    obtain ⟨n, m, e, rfl, hle⟩ := h y hin
    refine hle fun h0 => ?_
    subst h0
    cases hnz
  have hsome : ¬(xs.filter fun y => !y.isZero).isEmpty = true := fun hempty => by
    rw [List.isEmpty_iff.1 hempty] at hmem
    exact absurd hmem List.not_mem_nil
  have hfold := foldl_max_eq Ext.expOf hlow hgreatest (.inr ⟨x, hmem, rfl⟩)
  rw [maxexpByte_finite hfinite]
  simp only [hsome, Bool.false_eq_true, if_false, hfold]
  omega

end

theorem tgtEmax_getD (tgt : Fin 4) : tgtEmax tgt.val = ([8, 15, 2, 6] : List Int).getD tgt.val 0 := by revert tgt; decide

section
variable {t : Ty} (ht : t ∈ [Ty.f16, .bf16, .f32])
include ht

/-- The exponent of a finite element is above the start of the search. -/
theorem Ext.expOf_decode {c : Nat} {n : Bool} {m : Nat} {e : Int} (h : (tyF t).decode c = .fin n m e false) :
    -100000 ≤ ((tyF t).decode c).expOf := by
  obtain ⟨n', m', e', heq, hlow⟩ := FFmt.decode_onGrid ht h
  rw [heq, Ext.expOf]
  omega

/-- The blocks of a register have a byte each in a scale word. -/
theorem scale_bytes_le {b : Nat} (hb : 16 ≤ b) : 8 * (lanes t / b) ≤ 64 := by
  have hlanes : ∀ t ∈ [Ty.f16, .bf16, .f32], lanes t / 16 ≤ 8 := by decide
  have hle := (Nat.div_le_div_left (a := lanes t) hb (by decide)).trans (hlanes t ht)
  omega

end

section
variable (t : Ty) (tgt blk : Nat) (g : PWord) (v : VWord) (a : RAcc)

theorem sr_maxexpV : (maxexpV t tgt blk g v a).2.sr = a.sr := rfl

/-- The enabled elements of block `j`. -/
def blockLanes (t : Ty) (b : Nat) (g : PWord) (j : Nat) : List Nat := ((List.range b).map fun i => j * b + i).filter (enabled t g)

theorem maxexpV_byte (ht : t ∈ [Ty.f16, .bf16, .f32]) {j : Nat} (hj : j < lanes t / (16 * 2 ^ blk)) :
    ((maxexpV t tgt blk g v a).1.extractLsb' (8 * j) 8).toNat
      = maxexpByte tgt ((blockLanes t (16 * 2 ^ blk) g j).map fun i => (tyF t).decode (elem t v i)) := by
  have hb : 16 ≤ 16 * 2 ^ blk := Nat.le_mul_of_pos_right 16 (Nat.two_pow_pos blk)
  have hfits : 8 * j + 8 ≤ 64 := (Nat.mul_le_mul_left 8 (Nat.succ_le_of_lt hj)).trans (scale_bytes_le ht hb)
  show ((BitVec.ofNat 64 (packNat 8 ((List.range _).map _))).extractLsb' _ _).toNat = _
  rw [extractLsb'_packNat _ hfits, List.getElem?_map, List.getElem?_range hj, Option.map_some, Option.getD_some, BitVec.toNat_ofNat]
  exact Nat.mod_eq_of_lt maxexpByte_lt

/-- What R235 asks of the scale byte of a block. -/
theorem maxexp_scales (ht : t ∈ [Ty.f16, .bf16, .f32]) (tgt : Fin 4) {n : Nat} (hn : n = 16 * 2 ^ blk) :
    let value := fun i => (tyF t).decode (elem t v i)
    let top := ([8, 15, 2, 6] : List Int).getD tgt.val 0
    ∀ j < lanes t / n,
      let block := ((List.range n).map fun i => j * n + i).filter (enabled t g)
      let byte := ((maxexpV t tgt.val blk g v a).1.extractLsb' (8 * j) 8).toNat
      ((∃ i ∈ block, value i = .nan ∨ (value i).isInf = true) → byte = 255)
      ∧ ((∀ i ∈ block, (value i).isZero = true) → byte = 127)
      ∧ ∀ i ∈ block, (∀ h ∈ block, ∃ t r e, value h = .fin t r e false ∧ (r ≠ 0 → (value h).expOf ≤ (value i).expOf)) →
        (value i).isZero = false → (byte : Int) = max 0 (min 254 ((value i).expOf - top + 127)) := by
  subst hn
  intro value top j hj block byte
  have hbyte : byte = maxexpByte tgt.val (block.map value) := maxexpV_byte t tgt.val blk g v a ht hj
  rw [hbyte]
  refine ⟨fun ⟨i, hi, hspecial⟩ => maxexpByte_special ⟨value i, List.mem_map_of_mem hi, hspecial⟩,
    fun hzero => maxexpByte_zeros (List.forall_mem_map.2 hzero), fun i hi hall hzero => ?_⟩
  obtain ⟨n, m, e, hfin, -⟩ := hall i hi
  rw [maxexpByte_greatest (List.mem_map_of_mem hi) hzero (Ext.expOf_decode ht hfin) (List.forall_mem_map.2 hall), tgtEmax_getD]

end

/-! ### Elements of a fold over the lanes -/

/-- Each result of a fold over the lanes is the operation's, from some generator and flags. -/
theorem mapLanes_getElem? (f : Nat → RAcc → Nat × RAcc) {l : List Nat} (a : RAcc) {i k : Nat} (hk : l[i]? = some k) :
    ∃ b, (mapLanes f l a).1[i]? = some (f k b).1 := by
  induction l generalizing a i with
  | nil => cases hk
  | cons j rest ih =>
    cases i with
    | zero =>
      obtain rfl := Option.some.inj hk
      exact ⟨a, rfl⟩
    | succ i => exact ih (f j a).2 hk

/-! ### CVTQ (R236) -/

/-- One code of CVTQ. -/
def cvtqLane (src tgtT : Ty) (blk : Nat) (scales : Word) (rm : Rm) (g : PWord) (v : VWord) (i : Nat) (a : RAcc) : Nat × RAcc :=
  if enabled src g i then
    let byte := (scales >>> (8 * (i / (16 * 2 ^ blk)))).toNat % 256
    if byte = 255 then
      let a := (a.mode rm).2
      match tyFloat tgtT with
      | some tf => (match tf.nanCode with
        | some c => (c, a)
        | none => (0, a.flag flagNV))
      | none => (0, a.flag flagNV)
    else
      let (x, a) := (tyF src).read (elem src v i) a
      let y := x.scale (127 - (byte : Int))
      match tyFloat tgtT with
      | some tf => roundF tf rm y a
      | none => let (z, a) := roundI (-128) 127 rm y a; (wrapInt 8 z, a)
  else (0, a)

section
variable {src ty : Ty} {blk : Nat} {scales : Word} {rm : Rm} {g : PWord} {v : VWord} {i : Nat} {a : RAcc}

theorem cvtqV_eq : cvtqV src ty blk scales rm g v a =
    let r := mapLanes (cvtqLane src ty blk scales rm g v) (List.range (lanes src)) a
    (packElems (tyBits ty) r.1, r.2) := rfl

theorem cvtqLane_disabled (h : enabled src g i = false) : (cvtqLane src ty blk scales rm g v i a).1 = 0 := by
  simp only [cvtqLane, h, Bool.false_eq_true, if_false]

theorem cvtqLane_enabled (h : enabled src g i = true) {byte : Nat} (hbyte : (scales >>> (8 * (i / (16 * 2 ^ blk)))).toNat % 256 = byte)
    (hnan : byte ≠ 255) (hrm : rm ≠ .sr) {f : FFmt} (hf : tyFloat ty = some f) : (cvtqLane src ty blk scales rm g v i a).1
      = (roundF f rm (((tyF src).decode (elem src v i)).scale (127 - (byte : Int))) ⟨0, 0⟩).1 := by
  simp only [cvtqLane, h, if_true, hbyte, hnan, if_false, hf]
  exact roundF_fst hrm ..

/-- The code of an element is the lowest bits of what its lane gives. -/
theorem cvtqV_code {tgt : Nat} (hsrc : src ∈ [Ty.f16, .bf16, .f32]) (hty : ty = tgtTy tgt) (hi : i < lanes src) :
    ∃ b, ((cvtqV src ty blk scales rm g v a).1.extractLsb' (tyBits ty * i) (tyBits ty)).toNat
      = (cvtqLane src ty blk scales rm g v i b).1 % 2 ^ tyBits ty := by
  obtain ⟨b, hb⟩ := mapLanes_getElem? (cvtqLane src ty blk scales rm g v) a (List.getElem?_range hi)
  have hbits : tyBits ty ≤ 8 := by
    subst hty
    unfold tgtTy
    split <;> decide
  have hlanes : ∀ t ∈ [Ty.f16, .bf16, .f32], lanes t ≤ 128 := by decide
  have hfits : tyBits ty * i + tyBits ty ≤ 2048 := by
    have hle := Nat.mul_le_mul hbits ((Nat.succ_le_of_lt hi).trans (hlanes src hsrc))
    rw [Nat.mul_succ] at hle
    omega
  refine ⟨b, ?_⟩
  rw [cvtqV_eq]
  dsimp only
  rw [packElems, extractLsb'_packNat _ hfits, hb, Option.getD_some, BitVec.toNat_ofNat]

end

/-- The type that a code of four bits names. -/
theorem findCode_encodeTy (t : Ty) : findCode encodeTy allTy (encodeTy t) = some t := by cases t <;> rfl

theorem findCode_encodeRm (rm : Rm) : findCode encodeRm allRm (encodeRm rm) = some rm := by cases rm <;> rfl

section
variable {s : State} {o : VRed} {x : VWord} (h : s.Calm) (ha : s.srcV o.a = .ok x)
include h ha

theorem exec_cvtq {src : Ty} (hsrc : encodeTy src = s.iss.entry.scale.extractLsb' 68 4) (hheld : s.iss.entry.scale.extractLsb' 68 4 ≠ 0)
    (hty : o.ty = tgtTy (s.iss.entry.scale.extractLsb' 66 2).toNat) : exec (.cvtq o) s = .next (s.writeVF o.d o.nw allLanes 4
      (cvtqV src o.ty (s.iss.entry.scale.extractLsb' 64 2).toNat (s.iss.entry.scale.extractLsb' 0 64) o.rm (s.guard o.pg) x s.racc)).slotEnd := by
  have hfind : findCode encodeTy allTy (s.iss.entry.scale.extractLsb' 68 4) = some src := hsrc ▸ findCode_encodeTy src
  have hcond : ¬(s.iss.entry.scale.extractLsb' 68 4 = 0 ∨ o.ty ≠ tgtTy (s.iss.entry.scale.extractLsb' 66 2).toNat) :=
    not_or.2 ⟨hheld, not_not.2 hty⟩
  exact slotOp_calm h (by simp only [ha, hfind, hcond, if_false, bind, Except.bind]; rfl)

theorem exec_cvtq_nothing (hnone : s.iss.entry.scale.extractLsb' 68 4 = 0 ∨ o.ty ≠ tgtTy (s.iss.entry.scale.extractLsb' 66 2).toNat) :
    exec (.cvtq o) s = .next (s.slotFault scaleLatchCond) := by
  refine slotOp_fault h ?_
  cases hfind : findCode encodeTy allTy (s.iss.entry.scale.extractLsb' 68 4) with
  | none => simp only [ha, hfind, bind, Except.bind]
  | some src => simp only [ha, hfind, hnone, if_true, bind, Except.bind]

end

/-! ### CVT, CVTW and CVTN (R237, R238) -/

theorem convElem_float {src dst : Ty} {f d : FFmt} {mode x : Nat} {rm : Rm} (hf : tyFloat src = some f) (hd : tyFloat dst = some d)
    (hmode : encodeRm rm = BitVec.ofNat 3 mode) (hrm : rm ≠ .sr) (a : RAcc) :
    (convElem src dst mode x a).1 = (roundF d rm (f.decode x) ⟨0, 0⟩).1 := by
  simp only [convElem, hf, hd, ← hmode, findCode_encodeRm, Option.getD_some]
  exact roundF_fst hrm ..

theorem getLsbD_packNat_range (p : Nat → Bool) {b : Nat} (hb : b < 256) :
    (BitVec.ofNat 256 (packNat 1 ((List.range 256).map fun b => if p b then 1 else 0))).getLsbD b = p b := by
  have hbit := testBit_packNat Nat.one_pos ((List.range 256).map fun b => if p b then 1 else 0) b
  rw [Nat.one_mul, Nat.add_zero] at hbit
  rw [BitVec.getLsbD_ofNat, decide_eq_true hb, Bool.true_and, hbit, List.getElem?_map, List.getElem?_range hb, Option.map_some,
    Option.getD_some]
  cases p b <;> rfl

/-- The element that the guard bit of an element is read for has the same guard bit, and is of the same register. -/
theorem guardBit_first (t : Ty) {i : Nat} (hi : i < lanes t) : guardBit t i < 256
    ∧ guardBit t (guardBit t i * 8 / tyBits t) = guardBit t i ∧ guardBit t i * 8 / tyBits t < lanes t := by
  have hall : tyBits t * lanes t = 2048 := tyBits_mul_lanes t
  have hwidth : tyBits t ∈ [4, 8, 16, 32] := by cases t <;> decide
  simp only [guardBit]
  simp only [List.mem_cons, List.not_mem_nil, or_false] at hwidth
  rcases hwidth with h | h | h | h <;> rw [h] at hall ⊢ <;> omega

/-- A conversion to no more elements than the source has reads the part that it names, element by element. -/
theorem cvtV_float {src dst : Ty} {f d : FFmt} {part mode : Nat} {rm : Rm} {g : PWord} {v : VWord} {a : RAcc} (hf : tyFloat src = some f)
    (hd : tyFloat dst = some d) (hmode : encodeRm rm = BitVec.ofNat 3 mode) (hrm : rm ≠ .sr) (hle : lanes dst ≤ lanes src) {i : Nat}
    (hi : i < lanes dst) (hen : enabled dst g i = true) : elem dst (cvtV src dst part mode g v a).1 i
      = (roundF d rm (f.decode (elem src v (part * lanes dst + i))) ⟨0, 0⟩).1 % 2 ^ tyBits dst := by
  obtain ⟨hbit, hsame, hlane⟩ := guardBit_first dst hi
  have hfew : ¬lanes src < lanes dst := Nat.not_lt.2 hle
  have hguard : enabled dst (BitVec.ofNat 256 (packNat 1 ((List.range 256).map fun b =>
      if g.getLsbD (guardBit dst (b * 8 / tyBits dst)) && decide (0 ≤ b * 8 / tyBits dst)
        && decide (b * 8 / tyBits dst < 0 + min (lanes src) (lanes dst)) then 1 else 0))) i = true := by
    rw [enabled, getLsbD_packNat_range _ hbit, hsame, Nat.zero_add, Nat.min_eq_right hle, decide_eq_true hlane,
      decide_eq_true (Nat.zero_le _), Bool.and_true, Bool.and_true]
    exact hen
  unfold cvtV
  simp only [hfew, hle, if_false, if_true]
  exact elem_vmap (v := fun i => (roundF d rm (f.decode (elem src v (part * lanes dst + i))) ⟨0, 0⟩).1)
    (fun _ _ => convElem_float hf hd hmode hrm _) a hi hguard

/-! ### What is put in flight -/

section
variable {s : State} {a : Src} {x : VWord} (h : s.Calm) (ha : s.srcV a = .ok x)
include h ha

theorem exec_maxexp {o : XMaxexp} (ho : o.a = a) {r : Word × RAcc} (hr : r = maxexpV o.ty o.tgt.val o.blk.val (s.guard o.pg) x s.racc) :
    exec (.maxexp o) s = .next ((s.keepSr r.2).fly ((s.keepSr r.2).flight (some .v) o.d.val o.nw (r.1.setWidth 2048) allLanes 3 r.2.fl
      (some (scaleLatch o.ty o.tgt.val o.blk.val r.1)) true)).slotEnd := by
  subst ho hr
  exact slotOp_calm h (by simp only [ha, bind, Except.bind]; rfl)

theorem slotOp_bodyCvt {o : XCvt} (ho : o.a = a) {r : VWord × PWord × RAcc}
    (hr : r = cvtV o.src o.ty o.part.val o.mode.val (s.guard o.pg) x s.racc) :
    slotOp false (bodyCvt o) s = .next ((s.keepSr r.2.2).writeV o.d o.nw r.1 r.2.1 4 r.2.2.fl).slotEnd := by
  subst ho hr
  exact slotOp_calm h (by simp only [bodyCvt, ha, bind, Except.bind]; rfl)

theorem exec_cbdec {o : XCbdec} (ho : o.a = a) {r : VWord × RAcc}
    (hr : r = cbdecV o.ty o.rm o.part.val (s.myCore.codebook o.cb.val) (s.guard o.pg) x s.racc) :
    exec (.cbdec o) s = .next ((s.keepSr r.2).writeV o.d o.nw r.1 (laneMask o.ty (s.guard o.pg)) 4 r.2.fl).slotEnd := by
  subst ho hr
  exact slotOp_calm h (by simp only [ha, bind, Except.bind]; rfl)

end

theorem cbdecV_elem {t : Ty} {rm : Rm} (hrm : rm ≠ .sr) (k : Nat) (tab : BitVec 32) {g : PWord} (v : VWord) (a : RAcc) {i : Nat}
    (hi : i < lanes t) (hen : enabled t g i = true) : elem t (cbdecV t rm k tab g v a).1 i
      = (roundF (tyF t) rm (latticeLane tab (v.extractLsb' (16 * (k * lanes t / 8 + i / 8)) 16) (i % 8)) ⟨0, 0⟩).1 % 2 ^ tyBits t :=
  elem_vmap (v := fun i => (roundF (tyF t) rm (latticeLane tab (v.extractLsb' (16 * (k * lanes t / 8 + i / 8)) 16) (i % 8)) ⟨0, 0⟩).1)
    (fun _ _ => roundF_fst hrm ..) a hi hen

theorem exec_cbld {s : State} {a : Src} {w : Word} (h : s.Calm) (hw : s.srcS a = .ok w) (k : Fin 8) :
    exec (.cbld k a) s = .next (s.onMyCore fun y => { y with cbPut := some (k.val, w.setWidth 32) }).slotEnd :=
  slotOp_calm h (by simp only [hw, bind, Except.bind]; rfl)

/-- Settles O27: the scale bytes by the elements of their blocks, the conversions and codebooks by the rounding of each element. -/
theorem quantisationResults : Obligations.QuantisationResults := by
  unfold Obligations.QuantisationResults
  intro s m q c b k a x w h ha hq hc hb hw held
  have hcvt := slotOp_bodyCvt h ha hc rfl
  refine ⟨⟨_, exec_maxexp h ha rfl rfl, sr_maxexpV .., fun ht => maxexp_scales m.ty m.blk.val (s.guard m.pg) x s.racc ht m.tgt rfl⟩,
    fun src hsrc hheld hty => ⟨_, exec_cvtq h (hq ▸ ha) hsrc hheld hty, fun i hi hfloat => ?cvtq⟩,
    exec_cvtq_nothing h (hq ▸ ha), ⟨_, _, _, hcvt, hcvt, hcvt, fun f d rm hf hd hmode hrm hle i hi hen =>
      cvtV_float hf hd hmode hrm hle hi hen⟩,
    ⟨_, exec_cbdec h ha hb rfl, fun hrm i hi hen => cbdecV_elem hrm _ _ x _ hi hen⟩, exec_cbld h hw k⟩
  case cvtq =>
    intro byte y
    obtain ⟨acc, hcode⟩ := cvtqV_code (blk := (held.extractLsb' 64 2).toNat) (scales := held.extractLsb' 0 64) (rm := q.rm)
      (g := s.guard q.pg) (v := x) (a := s.racc) hfloat hty hi
    refine ⟨fun hen => ?_, fun hen hnan hrm f hf => ?_⟩
    · rw [hcode, cvtqLane_disabled hen, Nat.zero_mod]
    · rw [hcode, cvtqLane_enabled hen rfl hnan hrm hf]

end Sys2Proof.Machine
end

section
/-! SUPPORT. The events of the engines and the messages of a pair (R248, R252, R263 to R265, R284, R299, R305). -/
namespace Sys2Proof.Machine

/-! ### What a change of a core leaves -/

section
variable (s : State) (c : Nat) {f : Core → Core}

/-- What a change of a core leaves of it, it leaves of every core. -/
theorem State.core_onCore_kept {α : Type} (p : Core → α) (hp : ∀ x, p (f x) = p x) (d : Nat) : p ((s.onCore c f).core d) = p (s.core d) := by
  by_cases hd : d = c
  · rw [hd, State.core_onCore, hp]
  · rw [State.core_onCore_other _ _ hd]

theorem State.ctx_onCore_kept (hf : ∀ x, (f x).ctxs = x.ctxs) (d k : Nat) : (s.onCore c f).ctx d k = s.ctx d k :=
  s.core_onCore_kept c (Core.ctx · k) (fun x => by rw [Core.ctx, Core.ctx, hf]) d

theorem State.asidInMemory_onCore (a : Nat) : (s.onCore c f).asidInMemory a = s.asidInMemory a := rfl

theorem State.keyOf_onCore (d a : Nat) : (s.onCore c f).keyOf d a = ((s.keyOf d a).1, (s.keyOf d a).2.onCore c f) := by
  have hasids : (s.onCore c f).asids = s.asids := rfl
  unfold State.keyOf State.asidEntry
  rw [hasids]
  cases find s.asids (asidKey d a) with
  | some e => rfl
  | none =>
    dsimp only
    rw [State.asidInMemory_onCore]
    rfl

theorem State.loadArea_onCore (x : Unit) (v : Saved) : ((s.onCore c f).loadArea x v).1 = (s.loadArea x v).1 := by
  have hbytes : ∀ (s : State) p n k, (s.onCore c f).areaBytes p n k = s.areaBytes p n k := fun _ _ _ _ => rfl
  have haddr : ∀ s : State, (s.onCore c f).saveAddr x = s.saveAddr x := fun _ => rfl
  have hkey : ∀ (s : State) k, (s.onCore c f).keyValue k = s.keyValue k := fun _ _ => rfl
  simp only [State.loadArea, State.keyOf_onCore, hbytes, haddr, hkey]

theorem State.bankOf_onCore (hf : ∀ x, (f x).ctxs = x.ctxs) (u : Nat) : (s.onCore c f).bankOf u = s.bankOf u := by
  have hunit : (s.onCore c f).unit u = s.unit u := rfl
  unfold State.bankOf
  rw [hunit]
  cases s.unit u with
  | none => rfl
  | some x =>
    dsimp only
    rw [s.ctx_onCore_kept c hf]
    cases x.saved with
    | none => rfl
    | some v =>
      dsimp only
      rw [State.loadArea_onCore]

theorem State.engineRead_onCore (hf : ∀ x, (f x).spm = x.spm ∧ (f x).bad = x.bad) (d origin a n : Nat) :
    (s.onCore c f).engineRead d origin a n = s.engineRead d origin a n := by
  unfold State.engineRead
  dsimp only
  rw [s.core_onCore_kept c Core.bad (fun x => (hf x).2), s.core_onCore_kept c Core.spm fun x => (hf x).1]

/-- The bytes of a slice are those of the scratchpads and the queues. -/
theorem State.sliceBytes_onCore (hf : ∀ x, (f x).ctxs = x.ctxs ∧ (f x).spm = x.spm ∧ (f x).bad = x.bad) (z : Cmd) (i n : Nat) :
    (s.onCore c f).sliceBytes z i n = s.sliceBytes z i n := by
  have hqueue : ∀ r, (s.onCore c f).slotQueue r = s.slotQueue r := fun r => by
    rw [State.slotQueue, s.bankOf_onCore c fun x => (hf x).1, State.slotQueue]
  have hformat : ∀ r, (s.onCore c f).tileFormat r = s.tileFormat r := fun r => by rw [State.tileFormat, hqueue, State.tileFormat]
  have hcore : ∀ u, (s.onCore c f).coreOf u = s.coreOf u := fun u => rfl
  unfold State.sliceBytes
  simp only [hqueue, hformat, hcore, s.engineRead_onCore c fun x => (hf x).2]

end

/-! ### The matrix unit (R248, R252, R263) -/

section
variable {s : State} {c : Nat}

section
variable {st u : Nat} {x : Unit} {z : Cmd} (hx : s.unit u = some x)
include hx

theorem exec_matCommandStart_begin (h : s.matNext c st = some (.begin_ u z)) : exec (.matCommandStart c st) s = .next (s.matBegin u x z) := by
  show execMatCommandStart c st s = _
  simp only [execMatCommandStart, h, hx]

theorem exec_matCommandStart_start (h : s.matNext c st = some (.start u z)) : exec (.matCommandStart c st) s = .next (s.matStart u x z) := by
  show execMatCommandStart c st s = _
  simp only [execMatCommandStart, h, hx]

theorem exec_matCommandStart_slice {f : Fetch} (h : s.matNext c st = some (.slice u z)) (hf : z.fetch = some f) :
    exec (.matCommandStart c st) s = .next (s.beginSlice u x z f) := by
  show execMatCommandStart c st s = _
  simp only [execMatCommandStart, h, hx, hf]

section
variable {id : Nat} (hfind : (s.engineCmds c .mat).find? (fun p => decide (p.2.place = id)) = some (u, z)) (hready : s.matReady u x z = true)
include hfind hready

theorem exec_matCommandDone_effected (hstage : z.stage = .effected) : exec (.matCommandDone c id) s = .next (s.finish u .mat z.n) := by
  show execMatCommandDone c id s = _
  simp only [execMatCommandDone, hfind, hx, hready, hstage, Bool.not_true, Bool.false_eq_true, if_false, if_true]

theorem exec_matCommandDone_effect (hstage : z.stage ≠ .effected) (hpair : isPmma z.op = false) :
    ∃ t : State, exec (.matCommandDone c id) s = .next t
      ∧ (t = (s.matCatchUp x u z).matEffect u x z ∨ t = ((s.matCatchUp x u z).matEffect u x z).finish u .mat z.n) := by
  refine ⟨_, show execMatCommandDone c id s = _ from rfl, ?_⟩
  simp only [hfind, hx, hready, hstage, hpair, Bool.not_true, Bool.false_eq_true, if_false]
  split
  · split
    · exact .inr rfl
    · exact .inl rfl
  · exact .inl rfl

end

end

/-- No request whose boundary has come: the core keeps them all. -/
theorem exec_remoteSliceServe_none (h : ∀ r ∈ (s.core c).remote, s.now < r.due) :
    ∃ t : State, exec (.remoteSliceServe c) s = .next t ∧ t.core c = s.core c ∧ t.units = s.units := by
  have hnone : (s.core c).remote.filter (fun r => decide (r.due ≤ s.now)) = [] :=
    List.filter_eq_nil_iff.2 fun r hr => by simpa using h r hr
  have hall : (s.core c).remote.filter (fun r => decide (s.now < r.due)) = (s.core c).remote :=
    List.filter_eq_self.2 fun r hr => decide_eq_true (h r hr)
  refine ⟨s.onCore c fun y => { y with remote := y.remote.filter fun r => decide (s.now < r.due) }, ?_, ?_, rfl⟩
  · show execRemoteSliceServe c s = _
    simp only [execRemoteSliceServe, hnone, List.foldl_nil]
  · rw [State.core_onCore, hall]

/-- A request whose boundary has come gives its command the bytes of the slice. -/
theorem exec_remoteSliceServe_due {r : SliceReq} {w : Nat} {z : Cmd} {f : Fetch} {b : List (Nat × Byte)} (hr : (s.core c).remote = [r])
    (hdue : r.due ≤ s.now)
    (hfind : (s.engineCmds r.core .mat).find? (fun p => decide (p.2.place = r.place) && decide (p.2.stage = .taken)) = some (w, z))
    (hf : z.fetch = some f) (hb : s.sliceBytes z r.oper r.slice = .ok b) :
    ∃ t : State, exec (.remoteSliceServe c) s = .next t ∧ (t.core c).remote = []
      ∧ t.units = (s.onCmd w .mat z.n fun y => { y with
          bound := y.bound ++ b, fetch := y.fetch.map fun f => { f with got := f.got ++ [(r.oper, r.slice)] } }).units := by
  let a := s.onCore c fun y => { y with remote := y.remote.filter fun r => decide (s.now < r.due) }
  have hgot : (s.core c).remote.filter (fun r => decide (r.due ≤ s.now)) = [r] := by simp [hr, hdue]
  have hbytes : a.sliceBytes z r.oper r.slice = .ok b := (s.sliceBytes_onCore c
    (f := fun y => { y with remote := y.remote.filter fun r => decide (s.now < r.due) }) (fun _ => ⟨rfl, rfl, rfl⟩) z _ _).trans hb
  have hserve : a.serveSlice r = a.onCmd w .mat z.n fun y => { y with
      bound := y.bound ++ b, fetch := y.fetch.map fun f => { f with got := f.got ++ [(r.oper, r.slice)] } } := by
    have hfind' : (a.engineCmds r.core .mat).find? (fun p => decide (p.2.place = r.place) && decide (p.2.stage = .taken)) = some (w, z) := hfind
    simp only [State.serveSlice, hfind', hf, hbytes]
  refine ⟨a.serveSlice r, ?_, ?_, ?_⟩
  · show execRemoteSliceServe c s = _
    simp only [execRemoteSliceServe, hgot, List.foldl_cons, List.foldl_nil]
    rfl
  · rw [hserve]
    show (a.core c).remote = []
    rw [State.core_onCore]
    simp [hr, Nat.not_lt.2 hdue]
  · rw [hserve]
    rfl

end

/-! ### The copy engine (R299, R305) -/

section
variable (s : State) (u : Nat) (e : Engine) (n : Nat)

/-- A command after a change of it that keeps its engine and number. -/
theorem State.cmd_onCmd {f : Cmd → Cmd} (hf : ∀ c, (f c).eng = c.eng ∧ (f c).n = c.n) :
    (s.onCmd u e n f).cmd u e n = (s.cmd u e n).map f := by
  have hkey : ∀ c : Cmd, (decide ((if decide (c.eng = e) && decide (c.n = n) then f c else c).eng = e)
      && decide ((if decide (c.eng = e) && decide (c.n = n) then f c else c).n = n)) = (decide (c.eng = e) && decide (c.n = n)) := fun c => by
    obtain ⟨heng, hn⟩ := hf c
    split
    · rw [heng, hn]
    · rfl
  have hunit := State.unit_onUnit s u fun x => { x with cmds := x.cmds.map fun c => if decide (c.eng = e) && decide (c.n = n) then f c else c }
  rw [State.cmd, State.onCmd, hunit, State.cmd]
  cases s.unit u with
  | none => rfl
  | some x =>
    simp only [Option.map_some, Option.bind_some, Unit.cmd, List.find?_map, Function.comp_def, hkey]
    cases hfind : x.cmds.find? fun c => decide (c.eng = e) && decide (c.n = n) with
    | none => rfl
    | some c =>
      have hc := List.find?_some hfind
      simp only [Option.map_some, hc, if_true]

theorem State.units_note (c : Clear) : (s.note u c).units = s.units := by
  unfold State.note
  split
  · dsimp only
    split <;> rfl
  · rfl

theorem State.free_note (c : Clear) : (s.note u c).free = s.free := by
  unfold State.note
  split
  · dsimp only
    split <;> rfl
  · rfl

theorem State.takeCmd_cases (f : Cmd → Cmd) : ∃ a, a = s.onCmd u e n (fun c => f { c with stage := .taken, started := s.now })
    ∧ (s.takeCmd u e n f = a ∨ s.takeCmd u e n f = a.note u (.cmd e)) := by
  refine ⟨_, rfl, ?_⟩
  unfold State.takeCmd
  cases s.cmd u e n with
  | none => exact .inl rfl
  | some c =>
    by_cases hqueued : c.stage = .queued
    · exact .inr (if_pos (decide_eq_true hqueued))
    · exact .inl (if_neg (by simpa using hqueued))

/-- A command that is taken: its record, and what nothing else takes part in. -/
theorem State.takeCmd_spec {f : Cmd → Cmd} (hf : ∀ c, (f c).eng = c.eng ∧ (f c).n = c.n) :
    (s.takeCmd u e n f).cmd u e n = (s.cmd u e n).map (fun c => f { c with stage := .taken, started := s.now })
      ∧ (s.takeCmd u e n f).free = s.free := by
  have hcmd := s.cmd_onCmd u e n (f := fun c => f { c with stage := .taken, started := s.now }) fun c => hf _
  obtain ⟨a, ha, h | h⟩ := s.takeCmd_cases u e n f
  · rw [h, ha]
    exact ⟨hcmd, rfl⟩
  · rw [h, State.cmd, State.unit, State.units_note, State.free_note, ha]
    exact ⟨hcmd, rfl⟩

end

theorem exec_copyCommandStart {s : State} {c u : Nat} {z : Cmd} (h : s.copyNext c = some (u, z)) :
    ∃ t : State, exec (.copyCommandStart c) s = .next t ∧ (t.core c).copyStarted = true ∧ t.free = s.free + 1
      ∧ (∀ y, s.cmd u .cpy z.n = some y → ∃ w, t.cmd u .cpy z.n = some w ∧ w.stage = .taken ∧ w.op = y.op ∧ s.now + 1 ≤ w.due) := by
  let a := s.draw.2.takeCmd u .cpy z.n fun y => { y with due := s.now + 1 + Config.copyDelay s.draw.1 }
  obtain ⟨hcmd, hfree⟩ := s.draw.2.takeCmd_spec u .cpy z.n (f := fun y => { y with due := s.now + 1 + Config.copyDelay s.draw.1 })
    fun _ => ⟨rfl, rfl⟩
  refine ⟨a.onCore c fun x => { x with copyStarted := true }, ?_, ?_, hfree, fun y hy => ?_⟩
  · show execCopyCommandStart c s = _
    simp only [execCopyCommandStart, h]
    rfl
  · rw [State.core_onCore]
  · exact ⟨_, hcmd.trans (congrArg (Option.map _) hy), rfl, rfl, Nat.le_add_right ..⟩

theorem exec_copyCommandDone {s : State} {u n : Nat} {x : Unit} {z : Cmd} (hx : s.unit u = some x) (hz : x.cmd .cpy n = some z)
    (hstage : z.stage = .taken ∨ z.stage = .paged) : exec (.copyCommandDone u n) s = .next (s.runCopy u x z) := by
  have htaken : (decide (z.stage = .taken) || decide (z.stage = .paged)) = true := by
    rwa [Bool.or_eq_true, decide_eq_true_eq, decide_eq_true_eq]
  show execCopyCommandDone u n s = _
  simp only [execCopyCommandDone, hx, hz, htaken, if_true]

/-! ### The integrator (R276 to R285) -/

section
variable {s : State} {c : Nat}

theorem exec_ddaCommandExecute_finish {u : Nat} {z : Cmd} (h : s.ddaNext c = some (.finish u z)) :
    exec (.ddaCommandExecute c) s = .next ((s.ddaEffect c u z).freeArray c) := by
  show execDdaCommandExecute c s = _
  simp only [execDdaCommandExecute, h, State.ddaFinish]

theorem exec_ddaDomainStep_clean (hruns : s.ddaRuns c = true) (hclean : ((s.core c).dda.step s.now).2 = []) :
    exec (.ddaDomainStep c) s = .next ((s.putDda c ((s.core c).dda.step s.now).1).completeSteps c false) := by
  show execDdaDomainStep c s = _
  simp only [execDdaDomainStep, hruns, hclean, Bool.not_true, Bool.false_eq_true, if_false, List.isEmpty_nil, if_true]

end

/-! ### The messages of a pair (R264, R265) -/

section
variable {s : State} {u idx : Nat} {x : Unit} (hx : s.unit u = some x)
include hx

section
variable (rows cols : Nat) (int : Bool) (tile : List (BitVec 32))

theorem exec_pairPartialArrive_live (h : (x.pair idx).isSome = true ∨ x.pairs ≤ idx) :
    exec (.pairPartialArrive u idx rows cols int tile) s = .next ((s.onUnit u fun y => { y with
      pairIn := y.pairIn.filter (fun p => !decide (p.1 = idx)) ++ [(idx, rows, cols, int, tile)] }).pairCommit u idx) := by
  have hlive : ((x.pair idx).isSome || decide (x.pairs ≤ idx)) = true := by rwa [Bool.or_eq_true, decide_eq_true_eq]
  show execPairPartialArrive u idx rows cols int tile s = _
  simp only [execPairPartialArrive, hx, hlive, if_true]

theorem exec_pairPartialArrive_over (hpair : x.pair idx = none) (hidx : idx < x.pairs) :
    exec (.pairPartialArrive u idx rows cols int tile) s = .next s := by
  show execPairPartialArrive u idx rows cols int tile s = _
  simp only [execPairPartialArrive, hx, hpair, Nat.not_le.2 hidx, Option.isSome_none, decide_false, Bool.or_self, Bool.false_eq_true,
    if_false]

end

variable {z : Cmd} (hz : x.pair idx = some z)
include hz

theorem exec_pairCommitArrive : exec (.pairCommitArrive u idx) s = .next ((s.matRelease z).finish u .mat z.n) := by
  show execPairCommitArrive u idx s = _
  simp only [execPairCommitArrive, hx, Option.bind_some, hz]

theorem exec_pairTimeout_waiting (hstage : z.stage = .taken) (h0 : z.limit ≠ 0) (hlimit : z.limit ≤ s.now) (hin : ∀ p ∈ x.pairIn, p.1 ≠ idx)
    (hcommit : ∀ a ∈ s.agenda, a.2 ≠ .pairCommitArrive u idx) : exec (.pairTimeout u idx) s = .next (s.pairBoth u idx pairTimeoutCond) := by
  have hnothere : (x.pairIn.any fun p => decide (p.1 = idx)) = false := by
    simpa only [List.any_eq_false, decide_eq_true_eq] using hin
  have hnotcommitted : (s.agenda.any fun a => match a.2 with
      | .pairCommitArrive v i => decide (v = u) && decide (i = idx)
      | _ => false) = false := by
    refine List.any_eq_false.2 fun a ha => ?_
    split
    case h_1 v i heq =>
      rw [Bool.and_eq_true, decide_eq_true_eq, decide_eq_true_eq]
      rintro ⟨rfl, rfl⟩
      exact hcommit a ha heq
    case h_2 => exact Bool.false_ne_true
  show execPairTimeout u idx s = _
  simp only [execPairTimeout, hx, hz, hnothere, hstage, hlimit, ne_eq, h0, not_false_eq_true, decide_true, Bool.and_self, Bool.not_false]
  exact congrArg _ (if_pos (congrArg (true && !·) hnotcommitted))

theorem exec_pairTimeout_early (hlimit : s.now < z.limit) : exec (.pairTimeout u idx) s = .next s := by
  show execPairTimeout u idx s = _
  simp only [execPairTimeout, hx, hz, Nat.not_le.2 hlimit, decide_false, Bool.and_false, Bool.false_and, Bool.false_eq_true, if_false]

end

/-- Settles O40: the events of the engines, then the messages of a pair. -/
theorem engineEvents : Obligations.EngineEvents := by
  unfold Obligations.EngineEvents
  refine ⟨fun s c u n x z hx => ?engines, fun s u idx x rows cols int tile hx =>
      ⟨exec_pairPartialArrive_live hx rows cols int tile, exec_pairPartialArrive_over hx rows cols int tile⟩,
    fun s u idx x z hx hz => ⟨exec_pairCommitArrive hx hz, exec_pairTimeout_waiting hx hz, exec_pairTimeout_early hx hz, rfl⟩⟩
  case engines =>
    exact ⟨fun _ => exec_matCommandStart_begin hx, fun _ => exec_matCommandStart_start hx,
      fun _ hfind hready => ⟨exec_matCommandDone_effected hx hfind hready, exec_matCommandDone_effect hx hfind hready⟩,
      fun _ _ => exec_matCommandStart_slice hx, exec_remoteSliceServe_none,
      fun _ _ _ _ hr hdue hfind hf hb => exec_remoteSliceServe_due hr hdue hfind hf hb, exec_copyCommandStart,
      exec_copyCommandDone hx, exec_ddaCommandExecute_finish, exec_ddaDomainStep_clean⟩

end Sys2Proof.Machine
end

section
/-! SUPPORT. The lines of the L2s (R311 to R313): what a clean, an eviction and a snoop leave of one, and what a home does to those that
hold it. -/
namespace Sys2Proof.Machine

/-! ### Lines -/

/-- The lines that the dies hold, in the order of their keys. -/
def State.Ordered (s : State) : Prop := risingKeys s.l2 = true

section
variable (s : State) (d pa : Nat)

theorem State.line_setLine (l : L2Line) : (s.setLine d pa l).line d pa = some l := find_put_same ..

theorem State.line_setLine_other (l : L2Line) {e p : Nat} (h : l2Key e p ≠ l2Key d pa) : (s.setLine d pa l).line e p = s.line e p :=
  find_put_other _ _ h

theorem State.line_dropLine (hs : s.Ordered) : (s.dropLine d pa).line d pa = none := find_del_same hs _

theorem State.line_dropLine_other {e p : Nat} (h : l2Key e p ≠ l2Key d pa) : (s.dropLine d pa).line e p = s.line e p := find_del_other _ h

theorem State.Ordered.setLine {s : State} (hs : s.Ordered) (l : L2Line) : (s.setLine d pa l).Ordered := risingKeys_put hs _ _

theorem State.Ordered.dropLine {s : State} (hs : s.Ordered) : (s.dropLine d pa).Ordered := risingKeys_of_sublist hs (del_sublist ..)

theorem l2Key_ne_of_die {d e : Nat} (hd : d < 4) (he : e < 4) (h : e ≠ d) (p pa : Nat) : l2Key e p ≠ l2Key d pa := by
  simp only [l2Key]
  omega

end

/-! ### What writes back -/

section
variable (s : State)

theorem State.l2_report (kind index place : Nat) : (s.report kind index place).l2 = s.l2 := by
  unfold State.report
  dsimp only
  split_ifs <;> rfl

theorem State.l2_homeWrite (pa : Nat) (l : List Byte) (k : Option (BitVec 512)) : (s.homeWrite pa l k).l2 = s.l2 := by
  unfold State.homeWrite
  dsimp only
  split <;> rfl

theorem State.l2_writeBackSector (pa : Nat) (l : L2Line) (i : Nat) : (s.writeBackSector pa l i).l2 = s.l2 := by
  unfold State.writeBackSector
  split
  · split
    · exact State.l2_report ..
    · exact State.l2_homeWrite ..
  · rfl

theorem State.l2_foldl_writeBackSector (pa : Nat) (l : L2Line) (is : List Nat) :
    (is.foldl (fun s i => s.writeBackSector pa l i) s).l2 = s.l2 := by
  induction is generalizing s with
  | nil => rfl
  | cons i rest ih => exact (ih _).trans (s.l2_writeBackSector pa l i)

end

/-! ### Steps that act on one die's line -/

/-- A step that makes `g` of the die's line and leaves every other line. -/
structure State.ActsOn (s t : State) (d pa : Nat) (g : Option L2Line → Option L2Line) : Prop where
  ordered : t.Ordered
  mine : t.line d pa = g (s.line d pa)
  others : ∀ e p, l2Key e p ≠ l2Key d pa → t.line e p = s.line e p

theorem State.ActsOn.trans {s t v : State} {d pa : Nat} {g h : Option L2Line → Option L2Line} (a : s.ActsOn t d pa g) (b : t.ActsOn v d pa h) :
    s.ActsOn v d pa (h ∘ g) :=
  ⟨b.ordered, b.mine.trans (congrArg h a.mine), fun e p hne => (b.others e p hne).trans (a.others e p hne)⟩

section
variable {s : State} (hs : s.Ordered) (d pa : Nat)
include hs

theorem State.ActsOn.none_of {t : State} (ht : t.l2 = s.l2) : s.ActsOn t d pa id :=
  ⟨(congrArg risingKeys ht).trans hs, congrArg (find · _) ht, fun _ _ _ => congrArg (find · _) ht⟩

theorem State.ActsOn.setLine (l : L2Line) : s.ActsOn (s.setLine d pa l) d pa fun _ => some l :=
  ⟨hs.setLine d pa l, s.line_setLine d pa l, fun _ _ h => s.line_setLine_other d pa l h⟩

theorem State.ActsOn.dropLine : s.ActsOn (s.dropLine d pa) d pa fun _ => none :=
  ⟨hs.dropLine d pa, s.line_dropLine d pa hs, fun _ _ h => s.line_dropLine_other d pa h⟩

theorem State.actsOn_clean : s.ActsOn (s.clean d pa) d pa (Option.map fun l => { l with dirty := 0 }) := by
  unfold State.clean
  cases hl : s.line d pa with
  | none => exact ⟨hs, by rw [hl]; rfl, fun _ _ _ => rfl⟩
  | some l =>
    have hback := State.ActsOn.none_of hs d pa (s.l2_foldl_writeBackSector pa l (List.range 4))
    have hset := hback.trans (State.ActsOn.setLine hback.ordered d pa { l with dirty := 0 })
    exact ⟨hset.ordered, by rw [hset.mine, hl]; rfl, hset.others⟩

theorem State.actsOn_evict : s.ActsOn (s.evict d pa) d pa fun _ => none :=
  have hclean := State.actsOn_clean hs d pa
  hclean.trans (State.ActsOn.dropLine hclean.ordered d pa)

/-- A line that its die has written back and owns no longer. -/
def L2Line.recalled (l : L2Line) : L2Line := { l with dirty := 0, owned := false }

/-- A die that is asked for its dirty sectors and loses the ownership of the line. -/
def State.recallLine (s : State) (pa d : Nat) : State :=
  let s := s.clean d pa
  match s.line d pa with
  | some l => s.setLine d pa { l with owned := false }
  | none => s

theorem State.actsOn_recallLine : s.ActsOn (s.recallLine pa d) d pa (Option.map L2Line.recalled) := by
  have hclean := State.actsOn_clean hs d pa
  unfold State.recallLine
  cases hl : s.line d pa with
  | none =>
    have hmine : (s.clean d pa).line d pa = none := by rw [hclean.mine, hl]; rfl
    simp only [hmine]
    exact ⟨hclean.ordered, by rw [hmine, hl]; rfl, hclean.others⟩
  | some l =>
    have hmine : (s.clean d pa).line d pa = some { l with dirty := 0 } := by rw [hclean.mine, hl]; rfl
    simp only [hmine]
    have hset := hclean.trans (State.ActsOn.setLine hclean.ordered d pa l.recalled)
    exact ⟨hset.ordered, by rw [hl]; exact hset.mine, hset.others⟩

/-- What a snoop of sector `i` leaves of a line. -/
def L2Line.snooped (l : L2Line) (i : Nat) (inv : Bool) : Option L2Line :=
  let m := BitVec.twoPow 4 i
  let dirty := l.dirty &&& ~~~m
  let valid := if inv then l.valid &&& ~~~m else l.valid
  let owned := if inv && valid != 0 then l.owned else l.owned && dirty != 0
  if valid = 0 then none else some { l with dirty, valid, owned }

theorem State.actsOn_snoopDie (inv : Bool) : s.ActsOn (s.snoopDie pa inv d) d pa (Option.bind · (·.snooped (pa % 512 / 128) inv)) := by
  unfold State.snoopDie
  cases hl : s.line d pa with
  | none => exact ⟨hs, by rw [hl]; rfl, fun _ _ _ => rfl⟩
  | some l =>
    have hback := State.ActsOn.none_of hs d pa (s.l2_writeBackSector pa l (pa % 512 / 128))
    dsimp only
    by_cases hvalid : (if inv then l.valid &&& ~~~BitVec.twoPow 4 (pa % 512 / 128) else l.valid) = 0
    · rw [if_pos hvalid]
      have hdrop := hback.trans (State.ActsOn.dropLine hback.ordered d pa)
      refine ⟨hdrop.ordered, ?_, hdrop.others⟩
      rw [hdrop.mine, hl, Option.bind_some, L2Line.snooped, if_pos hvalid]
      rfl
    · rw [if_neg hvalid]
      have hset := fun l' => hback.trans (State.ActsOn.setLine hback.ordered d pa l')
      refine ⟨(hset _).ordered, ?_, (hset _).others⟩
      rw [(hset _).mine, hl, Option.bind_some, L2Line.snooped, if_neg hvalid]
      rfl

end

theorem L2Line.snooped_spec {l y : L2Line} {i : Nat} {inv : Bool} (hi : i < 4) (h : l.snooped i inv = some y) :
    y.dirty.getLsbD i = false ∧ (inv = true → y.valid.getLsbD i = false) := by
  have hbit : ∀ x : BitVec 4, (x &&& ~~~BitVec.twoPow 4 i).getLsbD i = false := fun x => by simp [hi]
  unfold L2Line.snooped at h
  dsimp only at h
  by_cases hvalid : (if inv then l.valid &&& ~~~BitVec.twoPow 4 i else l.valid) = 0
  · rw [if_pos hvalid] at h
    cases h
  · rw [if_neg hvalid] at h
    obtain rfl := Option.some.inj h
    exact ⟨hbit _, fun hinv => by subst hinv; exact hbit _⟩

/-! ### Every die that holds a line -/

theorem State.mem_holders {s : State} {pa d : Nat} : d ∈ s.holders pa ↔ d < 4 ∧ (s.line d pa).isSome = true := by
  rw [State.holders, List.mem_filter, List.mem_range]

theorem foldl_actsOn {pa : Nat} {f : State → Nat → State} {g : Nat → Option L2Line → Option L2Line} (l : List Nat) (hl : l.Nodup)
    (hlt : ∀ d ∈ l, d < 4) (h : ∀ (s : State) d, d < 4 → s.Ordered → s.ActsOn (f s d) d pa (g d)) {s : State} (hs : s.Ordered) :
    (l.foldl f s).Ordered ∧ ∀ d, d < 4 → (l.foldl f s).line d pa = if d ∈ l then g d (s.line d pa) else s.line d pa := by
  induction l generalizing s with
  | nil => exact ⟨hs, fun d _ => (if_neg List.not_mem_nil).symm⟩
  | cons a rest ih =>
    obtain ⟨hnew, hrest⟩ := List.nodup_cons.1 hl
    have ha : a < 4 := hlt a List.mem_cons_self
    have hact := h s a ha hs
    obtain ⟨hord, hlines⟩ := ih hrest (fun d hd => hlt d (List.mem_cons_of_mem a hd)) hact.ordered
    refine ⟨hord, fun d hd => (hlines d hd).trans ?_⟩
    by_cases hda : d = a
    · subst hda
      rw [if_neg hnew, if_pos List.mem_cons_self, hact.mine]
    · rw [hact.others d pa (l2Key_ne_of_die ha hd hda pa pa)]
      simp only [List.mem_cons, hda, false_or]

/-- What is done to each holder is done to the line of every die, when nothing comes of no line. -/
theorem State.onHolders_lines {s : State} (hs : s.Ordered) {pa : Nat} {f : State → Nat → State} {g : Nat → Option L2Line → Option L2Line}
    (h : ∀ (s : State) d, d < 4 → s.Ordered → s.ActsOn (f s d) d pa (g d)) (hg : ∀ d, g d none = none) :
    (s.onHolders pa f).Ordered ∧ ∀ d, d < 4 → (s.onHolders pa f).line d pa = g d (s.line d pa) := by
  obtain ⟨hord, hlines⟩ := foldl_actsOn (s.holders pa) (List.nodup_range.filter _) (fun d hd => (State.mem_holders.1 hd).1) h hs
  refine ⟨hord, fun d hd => (hlines d hd).trans ?_⟩
  by_cases hmem : d ∈ s.holders pa
  · rw [if_pos hmem]
  · have hnone : s.line d pa = none := by simpa [State.mem_holders, hd] using hmem
    rw [if_neg hmem, hnone, hg]

/-! ### A line request (R312) -/

section
variable (s : State) (die pa : Nat) (own : Bool)

/-- What another die's request makes of the line of die `d`. -/
def State.yieldLine (s : State) (die pa : Nat) (own : Bool) (d : Nat) : State :=
  if d = die then s else if own then s.evict d pa else s.recallLine pa d

/-- What is left of a line that another die has asked for. -/
def L2Line.yielded (own : Bool) (l : L2Line) : Option L2Line := if own then none else some l.recalled

/-- The host is asked, where it may hold the line. -/
def State.askHost (s : State) (pa : Nat) (own : Bool) : State := if (s.homeOf pa).isHost then s else s.backSnoop pa own

/-- The die receives the line. -/
def State.giveLine (s : State) (die pa : Nat) (own : Bool) : State :=
  match s.line die pa with
  | some l => s.setLine die pa { l with owned := l.owned || own }
  | none => (s.makeRoom die pa).setLine die pa ⟨own, none, 0, 0, 0, List.replicate 512 0⟩

theorem State.lineRequest_eq : s.lineRequest die pa own
    = ((s.onHolders pa fun s d => s.yieldLine die pa own d).askHost pa own).giveLine die pa own := rfl

theorem State.l2_askHost : (s.askHost pa own).l2 = s.l2 := by
  unfold State.askHost State.backSnoop
  split_ifs <;> rfl

variable {s}

theorem State.actsOn_yieldLine {d : Nat} (hs : s.Ordered) : s.ActsOn (s.yieldLine die pa own d) d pa
    fun l => if d = die then l else l.bind (·.yielded own) := by
  unfold State.yieldLine
  by_cases hd : d = die
  · rw [if_pos hd]
    simp only [hd, if_true]
    exact .none_of hs die pa rfl
  · simp only [hd, if_false]
    cases own with
    | true =>
      have hevict := State.actsOn_evict hs d pa
      exact ⟨hevict.ordered, hevict.mine.trans (by cases s.line d pa <;> rfl), hevict.others⟩
    | false =>
      have hrecall := State.actsOn_recallLine hs d pa
      exact ⟨hrecall.ordered, hrecall.mine.trans (by cases s.line d pa <;> rfl), hrecall.others⟩

variable {die} (hdie : die < 4)
include hdie

/-- Making room takes nothing from another die. -/
theorem State.line_makeRoom_other (hs : s.Ordered) {e : Nat} (he : e < 4) (hne : e ≠ die) (p : Nat) :
    (s.makeRoom die pa).line e p = s.line e p := by
  unfold State.makeRoom
  dsimp only
  split
  · rfl
  · split
    · exact (State.actsOn_evict (s := s.draw.2) hs die _).others e p (l2Key_ne_of_die hdie he hne p _)
    · rfl

theorem State.giveLine_spec (hs : s.Ordered) : (∃ l, (s.giveLine die pa own).line die pa = some l ∧ (own = true → l.owned = true))
    ∧ ∀ d, d < 4 → d ≠ die → (s.giveLine die pa own).line d pa = s.line d pa := by
  unfold State.giveLine
  cases hl : s.line die pa with
  | some l =>
    refine ⟨⟨_, State.line_setLine .., fun hown => ?_⟩, fun d hd hne => State.line_setLine_other _ _ _ _ (l2Key_ne_of_die hdie hd hne pa pa)⟩
    rw [hown, Bool.or_true]
  | none =>
    refine ⟨⟨_, State.line_setLine .., id⟩, fun d hd hne => ?_⟩
    exact (State.line_setLine_other _ _ _ _ (l2Key_ne_of_die hdie hd hne pa pa)).trans (State.line_makeRoom_other pa hdie hs hd hne pa)

theorem State.lineRequest_spec (hs : s.Ordered) :
    (∃ l, (s.lineRequest die pa own).line die pa = some l ∧ (own = true → l.owned = true))
      ∧ ∀ d, d < 4 → d ≠ die → ∀ l, (s.lineRequest die pa own).line d pa = some l → own = false ∧ l.owned = false := by
  let a := s.onHolders pa fun s d => s.yieldLine die pa own d
  have hstep : ∀ (s : State) d, d < 4 → s.Ordered → s.ActsOn (s.yieldLine die pa own d) d pa
      fun l => if d = die then l else l.bind (·.yielded own) := fun _ _ _ hs => State.actsOn_yieldLine die pa own hs
  obtain ⟨hord, hlines⟩ := State.onHolders_lines hs hstep fun d => by split <;> rfl
  have hsame := a.l2_askHost pa own
  have hasked : (a.askHost pa own).Ordered := (congrArg risingKeys hsame).trans hord
  obtain ⟨hmine, hothers⟩ := State.giveLine_spec pa own hdie hasked
  rw [State.lineRequest_eq]
  refine ⟨hmine, fun d hd hne l hl => ?_⟩
  have hline : (if d = die then s.line d pa else (s.line d pa).bind (·.yielded own)) = some l :=
    (hlines d hd).symm.trans (((congrArg (find · _) hsame).symm.trans (hothers d hd hne).symm).trans hl)
  rw [if_neg hne] at hline
  obtain ⟨y, -, hy⟩ := Option.bind_eq_some_iff.1 hline
  cases own with
  | true => cases hy
  | false =>
    obtain rfl := Option.some.inj hy
    exact ⟨rfl, rfl⟩

end

/-! ### The host's snoops and reads (R313) -/

theorem State.hostSnoop_spec {s : State} (hs : s.Ordered) (pa : Nat) (inv : Bool) (hhost : (s.homeOf pa).isHost = true) :
    ∃ t : State, exec (.hostSnoop pa inv) s = .next t ∧ ∀ d, d < 4 → ∀ l, t.line d pa = some l →
      l.dirty.getLsbD (pa % 512 / 128) = false ∧ (inv = true → l.valid.getLsbD (pa % 512 / 128) = false) := by
  have hsector : pa % 512 / 128 < 4 := by omega
  obtain ⟨-, hlines⟩ := State.onHolders_lines (pa := pa) hs (f := fun s d => s.snoopDie pa inv d) 
    (g := fun _ l => l.bind (·.snooped (pa % 512 / 128) inv))
    (fun _ d _ hs => State.actsOn_snoopDie hs d pa inv) fun _ => rfl
  refine ⟨s.onHolders pa fun s d => s.snoopDie pa inv d, ?_, fun d hd l hl => ?_⟩
  · show execHostSnoop pa inv s = _
    rw [execHostSnoop, if_pos hhost]
  · obtain ⟨y, -, hy⟩ := Option.bind_eq_some_iff.1 ((hlines d hd).symm.trans hl)
    exact L2Line.snooped_spec hsector hy

/-- What a die may hold, the host has asked for: no die owns the line or holds a dirty sector. -/
theorem State.hostHdmRead_spec {s : State} (hs : s.Ordered) {pa : Nat} {port w : Fin 2} {base : BitVec 22}
    (hbase : find (s.ports[port]).hdm w.val = some base)
    (hhome : match s.homeOf pa with
      | .hbm .. => w = 0
      | .ddr .. => w = 1
      | .host _ => False) : ∃ t : State, exec (.hostHdmRead port pa) s = .next t ∧ pa / 512 ∈ t.hostBits
        ∧ ∀ d, d < 4 → ∀ l, t.line d pa = some l → l.owned = false ∧ l.dirty = 0 := by
  let a := s.onHolders pa fun s d => s.recallLine pa d
  obtain ⟨-, hlines⟩ := State.onHolders_lines (pa := pa) hs (f := fun s d => s.recallLine pa d) (g := fun _ => Option.map L2Line.recalled)
    (fun _ d _ hs => State.actsOn_recallLine hs d pa) fun _ => rfl
  have hport : s.ports[port.val]? = some s.ports[port] := by simp
  refine ⟨{ a with hostBits := if a.hostBits.contains (pa / 512) then a.hostBits else a.hostBits ++ [pa / 512] }, ?_, ?_, fun d hd l hl => ?_⟩
  · show execHostHdmRead port pa s = _
    unfold execHostHdmRead
    cases hpa : s.homeOf pa with
    | host b =>
      rw [hpa] at hhome
      exact absurd hhome id
    | hbm =>
      rw [hpa] at hhome
      subst hhome
      simp only [hport]
      exact congrArg _ (if_pos (congrArg Option.isSome hbase))
    | ddr =>
      rw [hpa] at hhome
      subst hhome
      simp only [hport]
      exact congrArg _ (if_pos (congrArg Option.isSome hbase))
  · show pa / 512 ∈ (if a.hostBits.contains (pa / 512) then a.hostBits else a.hostBits ++ [pa / 512])
    split
    case isTrue h => exact List.contains_iff_mem.1 h
    case isFalse => exact List.mem_append_right _ List.mem_cons_self
  · obtain ⟨y, -, rfl⟩ := Option.map_eq_some_iff.1 ((hlines d hd).symm.trans hl)
    exact ⟨rfl, rfl⟩

/-- Settles O44: what is done to each holder of the line, and then to the die that asked. -/
theorem coherenceEvents : Obligations.CoherenceEvents := by
  unfold Obligations.CoherenceEvents
  refine fun s pa hs => ⟨fun die own hdie => ⟨s.lineRequest die pa own, ?_, State.lineRequest_spec pa own hdie hs⟩,
    State.hostSnoop_spec hs pa, fun _ _ _ hbase hhome => State.hostHdmRead_spec hs hbase hhome⟩
  show execL2LineRequest die pa own s = _
  rw [execL2LineRequest, Nat.mod_eq_of_lt hdie]

end Sys2Proof.Machine
end

section
/-! SUPPORT. The messages of a collective record (R343, R347, R349, R350). -/
namespace Sys2Proof.Machine

/-! ### What a start event does -/

/-- Write the outputs of a record of the list when they are due, or tell its members. -/
def State.tendRecord (s : State) (rid : Nat) : State :=
  match s.hal rid with
  | some g => if s.collWritable g then s.collWrite g else s.tellMore g
  | none => s

/-- The record of a die that may start begins, and is read. -/
def State.startNext (s : State) (die : Nat) : State :=
  match s.collNext die with
  | some h =>
    let s := s.onHal h.rid fun h => { h with stage := .running, started := s.now }
    match s.hal h.rid with
    | some h => s.collRead h
    | none => s
  | none => s

theorem execCollRecordStart_eq (die : Nat) (s : State) : execCollRecordStart die s =
    let a := (s.collWaiting die).foldl (fun s p => s.collTake p.1 p.2) s
    .next (((a.halyard.filter fun h => decide (h.die = die)).foldl (fun s h => s.tendRecord h.rid) a).startNext die) := rfl

/-! ### What a request does -/

/-- Every block of a request is answered as not served. -/
def State.refuseRequest (s : State) (r : CollReq) : State := (List.range (r.bytes / 128)).foldl (fun s j => s.reply r j .notServed) s

/-- A request waits for its record, or is served block by block, or refused. -/
def State.answerRequest (s : State) (r : CollReq) : State :=
  match s.server r with
  | some h =>
    if !s.halMay h false then { s with collHeld := s.collHeld ++ [r] }
    else if !canonical r.src then s.refuseRequest r
    else match s.paged ⟨.collRequestArrive r, .r, none⟩ h.die h.asid (va56 r.src) r.bytes 5 with
      | (.wait, s) => s
      | (.fault _, s) => s.refuseRequest r
      | (.ok l, s) => (List.range (r.bytes / 128)).foldl (fun s j => s.serveBlock h r l j) s
  | none => if s.servedOut r then s.refuseRequest r else { s with collHeld := s.collHeld ++ [r] }

theorem execCollRequestArrive_eq (r : CollReq) (s : State) : execCollRequestArrive r s
    = .next (({ s with collHeld := s.collHeld.filter fun q => !decide (q = r) } : State).answerRequest r) := rfl

section
variable {s : State} {h : HalRec} (hh : s.hal h.rid = some h)
include hh

/-! ### Halyard's list -/

/-- A record after a change that keeps its identity. -/
theorem State.hal_onHal {f : HalRec → HalRec} (hf : ∀ g, (f g).rid = g.rid) : (s.onHal h.rid f).hal h.rid = some (f h) := by
  have hkey : ∀ g : HalRec, decide ((if g.rid = h.rid then f g else g).rid = h.rid) = decide (g.rid = h.rid) := fun g => by
    split
    · rw [hf]
    · rfl
  have hfind : s.halyard.find? (fun g => decide (g.rid = h.rid)) = some h := hh
  show (s.halyard.map _).find? _ = _
  rw [List.find?_map]
  simp only [Function.comp_def, hkey, hfind, Option.map_some, if_true]

/-! ### Start (R343) -/

omit hh in
theorem State.hal_mem {rid : Nat} {g : HalRec} (hg : s.hal rid = some g) : g ∈ s.halyard := List.mem_of_find?_eq_some hg

omit hh in
/-- Records that have nothing to write and no one to tell are passed over. -/
theorem State.tendAll_quiet (hquiet : ∀ g ∈ s.halyard, s.collWritable g = false ∧ ∀ e, g.hdr = some e → s.tellable g e = [])
    (l : List HalRec) : l.foldl (fun s h => s.tendRecord h.rid) s = s := by
  refine List.foldl_fixed' (fun x => ?_) l
  unfold State.tendRecord
  cases hg : s.hal x.rid with
  | none => rfl
  | some g =>
    obtain ⟨hwritable, htell⟩ := hquiet g (State.hal_mem hg)
    have hmore : s.tellMore g = s := by
      unfold State.tellMore
      cases hhdr : g.hdr with
      | none => rfl
      | some e => simp only [htell e hhdr, List.isEmpty_nil, if_true]
    simp only [hwritable, Bool.false_eq_true, if_false, hmore]

theorem State.startNext_start (hnext : s.collNext h.die = some h) : s.startNext h.die
    = (s.onHal h.rid fun g => { g with stage := .running, started := s.now }).collRead { h with stage := .running, started := s.now } := by
  have hstarted := State.hal_onHal hh (f := fun g => { g with stage := .running, started := s.now }) fun _ => rfl
  simp only [State.startNext, hnext, hstarted]

theorem exec_collRecordStart (hwaiting : s.collWaiting h.die = [])
    (hquiet : ∀ g ∈ s.halyard, s.collWritable g = false ∧ ∀ e, g.hdr = some e → s.tellable g e = []) (hnext : s.collNext h.die = some h) :
    exec (.collRecordStart h.die) s = .next ((s.onHal h.rid fun g => { g with stage := .running, started := s.now }).collRead
      { h with stage := .running, started := s.now }) := by
  show execCollRecordStart h.die s = _
  rw [execCollRecordStart_eq, hwaiting]
  dsimp only [List.foldl_nil]
  rw [State.tendAll_quiet hquiet, State.startNext_start hh hnext]

/-! ### Requests (R347) -/

section
variable {r : CollReq} (hr : r ∉ s.collHeld)
include hr

omit hh

/-- A request that is not held already arrives at the state as it is. -/
theorem exec_collRequestArrive_new {t : State} (ht : s.answerRequest r = t) : exec (.collRequestArrive r) s = .next t := by
  have hheld : s.collHeld.filter (fun q => !decide (q = r)) = s.collHeld :=
    List.filter_eq_self.2 fun q hq => by simpa using fun heq : q = r => hr (heq ▸ hq)
  have hsame : ({ s with collHeld := s.collHeld.filter fun q => !decide (q = r) } : State) = s := by rw [hheld]
  show execCollRequestArrive r s = _
  rw [execCollRequestArrive_eq, hsame, ht]

theorem exec_collRequestArrive_early (hserver : s.server r = none) (hserved : s.servedOut r = false) :
    exec (.collRequestArrive r) s = .next { s with collHeld := s.collHeld ++ [r] } :=
  exec_collRequestArrive_new hr (by simp only [State.answerRequest, hserver, hserved, Bool.false_eq_true, if_false])

section
variable (hserver : s.server r = some h)
include hserver

theorem exec_collRequestArrive_held (hmay : s.halMay h false = false) :
    exec (.collRequestArrive r) s = .next { s with collHeld := s.collHeld ++ [r] } :=
  exec_collRequestArrive_new hr (by simp only [State.answerRequest, hserver, hmay, Bool.not_false, if_true])

theorem exec_collRequestArrive_nonCanonical (hmay : s.halMay h false = true) (hsrc : canonical r.src = false) :
    exec (.collRequestArrive r) s = .next (s.refuseRequest r) :=
  exec_collRequestArrive_new hr (by
    simp only [State.answerRequest, hserver, hmay, hsrc, Bool.not_true, Bool.not_false, Bool.false_eq_true, if_false, if_true])

theorem exec_collRequestArrive_served {l : List Piece} {t : State} (hmay : s.halMay h false = true) (hsrc : canonical r.src = true)
    (hpaged : s.paged ⟨.collRequestArrive r, .r, none⟩ h.die h.asid (va56 r.src) r.bytes 5 = (.ok l, t)) :
    exec (.collRequestArrive r) s = .next ((List.range (r.bytes / 128)).foldl (fun s j => s.serveBlock h r l j) t) :=
  exec_collRequestArrive_new hr (by simp only [State.answerRequest, hserver, hmay, hsrc, hpaged, Bool.not_true, Bool.false_eq_true, if_false])

end

end

/-! ### Blocks, dones and the deadline of a running record (R346, R349, R350) -/

/-- A block that settles: the record has it, and its outputs are written when they may be. -/
def State.settledNext (s : State) (rid key : Nat) (v : Option (List Byte)) : State :=
  match (s.settle rid key v).hal rid with
  | some g => if (s.settle rid key v).collWritable g then (s.settle rid key v).collWrite g else s.settle rid key v
  | none => s.settle rid key v

/-- What settling a block does, and what follows. -/
theorem State.settle_spec (key : Nat) (v : Option (List Byte)) : ∃ g, (s.settle h.rid key v).hal h.rid = some g
    ∧ (find h.blocks key = none → find g.blocks key = some v)
    ∧ ((s.settle h.rid key v).collWritable g = false → s.settledNext h.rid key v = s.settle h.rid key v)
    ∧ ((s.settle h.rid key v).collWritable g = true → s.settledNext h.rid key v = (s.settle h.rid key v).collWrite g) := by
  have hfound : (s.settle h.rid key v).hal h.rid = some (if (find h.blocks key).isSome then h
      else { h with blocks := put h.blocks key v, invalid := h.invalid + (if v.isNone then 1 else 0) }) :=
    State.hal_onHal hh fun g => by split <;> rfl
  refine ⟨_, hfound, fun hnone => ?_, fun hwrite => ?_, fun hwrite => ?_⟩
  · simp only [hnone, Option.isSome_none, Bool.false_eq_true, if_false, find_put_same]
  · simp only [State.settledNext, hfound, hwrite, Bool.false_eq_true, if_false]
  · simp only [State.settledNext, hfound, hwrite, if_true]

section
variable {d : CollHdr} (hd : h.hdr = some d) (hrun : h.stage = .running) (hfresh : h.fresh = true)
include hd hrun hfresh

section
variable {b : CollBlock} (hb : b.rid = h.rid)
include hb

theorem exec_collBlockArrive_good {data : List Byte} (hfate : b.fate = .good data) :
    exec (.collBlockArrive b) s = .next (s.settledNext h.rid (b.xfer * d.nblk + b.blk) (some data)) := by
  show execCollBlockArrive b s = _
  simp only [execCollBlockArrive, hfate, hb, hh, hd, hrun, hfresh, ne_eq, not_true_eq_false, decide_false, Bool.not_true, Bool.or_self,
    Bool.false_eq_true, if_false]
  rfl

theorem exec_collBlockArrive_lost (hfate : b.fate = .notServed) (hlossy : d.lossy = true) :
    exec (.collBlockArrive b) s = .next (s.settledNext h.rid (b.xfer * d.nblk + b.blk) none) := by
  show execCollBlockArrive b s = _
  simp only [execCollBlockArrive, hfate, hb, hh, hd, hrun, hfresh, hlossy, ne_eq, not_true_eq_false, decide_false, Bool.not_true,
    Bool.or_self, Bool.false_eq_true, if_false, if_true]
  rfl

theorem exec_collBlockArrive_fault (hfate : b.fate = .notServed) (hexact : d.lossy = false) :
    exec (.collBlockArrive b) s = .next (s.collFault h.rid collectivePeer) := by
  show execCollBlockArrive b s = _
  simp only [execCollBlockArrive, hfate, hb, hh, hd, hrun, hfresh, hexact, ne_eq, not_true_eq_false, decide_false, Bool.not_true,
    Bool.or_self, Bool.false_eq_true, if_false]

end

theorem exec_collDeadline_past (h0 : d.deadline ≠ 0) (hpast : h.started + d.deadline ≤ s.now) :
    exec (.collDeadline h.die h.rid) s = .next (if d.lossy then s.expire h d else s.collFault h.rid collectiveDeadline) := by
  show execCollDeadline h.die h.rid s = _
  simp only [execCollDeadline, hh, hd, hrun, hfresh, ne_eq, not_true_eq_false, h0, not_false_eq_true, decide_true, hpast, Bool.and_self,
    if_false, if_true]

end

end

theorem exec_collDoneArrive_counted {s : State} {h : HalRec} {die rank : Nat} {key : CollKey}
    (hfind : (s.halyard.find? fun h => decide (h.die = die) && decide (h.stage ≠ .complete) && h.answers key && !h.dones.contains rank) = some h) :
    exec (.collDoneArrive die key rank) s = .next ((s.onHal h.rid fun h => { h with dones := h.dones ++ [rank] }).collComplete h.rid) := by
  show execCollDoneArrive die key rank s = _
  simp only [execCollDoneArrive, hfind]

/-- A done that comes before any record of its die is held. -/
theorem exec_collDoneArrive_early {s : State} {die : Nat} (key : CollKey) (rank : Nat) (hdie : ∀ g ∈ s.halyard, g.die ≠ die) :
    exec (.collDoneArrive die key rank) s = .next { s with collDones := s.collDones ++ [(die, key, rank)] } := by
  have hopen : (s.halyard.find? fun h => decide (h.die = die) && decide (h.stage ≠ .complete) && h.answers key && !h.dones.contains rank)
      = none := List.find?_eq_none.2 fun g hg => by simp [hdie g hg]
  have hcomplete : (s.halyard.any fun h => decide (h.die = die) && decide (h.stage = .complete) && h.answers key && !h.dones.contains rank)
      = false := List.any_eq_false.2 fun g hg => by simp [hdie g hg]
  show execCollDoneArrive die key rank s = _
  simp only [execCollDoneArrive, hopen, hcomplete, Bool.false_eq_true, if_false]

/-- Settles O42: each message by the record that it finds. -/
theorem collectiveEvents : Obligations.CollectiveEvents := by
  unfold Obligations.CollectiveEvents
  refine fun s h d hh => ⟨exec_collRecordStart hh, fun r hr => ⟨exec_collRequestArrive_early hr, exec_collRequestArrive_held hr,
    exec_collRequestArrive_nonCanonical hr, fun l t hserver hmay hsrc hpaged => exec_collRequestArrive_served hr hserver hmay hsrc hpaged⟩,
    fun hd hrun hfresh => ⟨fun b hb => ?blocks, fun _ _ _ hfind => exec_collDoneArrive_counted hfind, exec_collDeadline_past hh hd hrun hfresh⟩,
    fun _ key rank hdie => exec_collDoneArrive_early key rank hdie⟩
  intro settles
  have hsettles : ∀ v, exec (.collBlockArrive b) s = .next (s.settledNext h.rid (b.xfer * d.nblk + b.blk) v) → settles v := by
    intro v hexec
    obtain ⟨g, hg, hblock, hkeep, hwrite⟩ := State.settle_spec hh (b.xfer * d.nblk + b.blk) v
    exact ⟨g, hg, hblock, fun hw => hexec.trans (congrArg _ (hkeep hw)), fun hw => hexec.trans (congrArg _ (hwrite hw))⟩
  exact ⟨fun data hfate => hsettles _ (exec_collBlockArrive_good hh hd hrun hfresh hb hfate),
    fun hfate hlossy => hsettles _ (exec_collBlockArrive_lost hh hd hrun hfresh hb hfate hlossy),
    exec_collBlockArrive_fault hh hd hrun hfresh hb⟩

end Sys2Proof.Machine
end

section
/-! SUPPORT. Trap entry (R361 to R363) and the return from a trap (R366 to R370). -/
namespace Sys2Proof.Machine

/-! ### The record that trap entry writes (R365) -/

theorem getElem?_leBytes (v : Nat) {n i : Nat} (hi : i < n) : (leBytes v n)[i]? = some (BitVec.ofNat 8 (v / 256 ^ i)) := by
  induction n generalizing v i with
  | zero => cases hi
  | succ n ih =>
    cases i with
    | zero => rw [leBytes, List.getElem?_cons_zero, Nat.pow_zero, Nat.div_one]
    | succ i => rw [leBytes, List.getElem?_cons_succ, ih _ (Nat.lt_of_succ_lt_succ hi), Nat.div_div_eq_div_mul, Nat.pow_succ']

/-- A record begins with the address at which TRET resumes. -/
theorem trapRecord_pc (x : Ctx) (pc : Word) (pws : List Flight) (snaps : List Snap) :
    ∃ rest, trapRecord x pc pws snaps = leBytes pc.toNat 8 ++ rest := by
  simp only [trapRecord, trapHeader, padTo, List.append_assoc]
  exact ⟨_, rfl⟩

/-- A byte of a list that is written. -/
theorem Memory.read_writeBytes_getElem? {m : Memory} {a i : Nat} {l : List Byte} {b : Byte} (h : m.wf = true) (hb : l[i]? = some b) :
    (m.writeBytes a l).read (a + i) = b := by
  obtain ⟨hi, rfl⟩ := List.getElem?_eq_some_iff.1 hb
  exact Memory.read_writeBytes_same h hi

/-! ### Trap entry (R361 to R363) -/

theorem Core.spm_putBytes (x : Core) (a : Nat) (l : List Byte) : (x.putBytes a l).spm = x.spm.writeBytes a l := rfl

theorem Core.ctxs_putBytes (x : Core) (a : Nat) (l : List Byte) : (x.putBytes a l).ctxs = x.ctxs := rfl

section
variable {s : State} {c k : Nat} {r : TrapReport}

theorem State.takeTrap_handled (h : (s.ctx c k).trapHandled = true) : ∃ n f p, (∀ y : Core, (p y).ctxs = y.ctxs)
    ∧ (p (s.core c)).spm = (s.core c).spm.writeBytes (s.ctx c k).csr.recordAt
      (trapRecord (s.ctx c k) r.resume (landingOrder (s.ctx c k).flights) r.snaps)
    ∧ s.takeTrap c k r = ((s.onCore c p).onCtx c k fun _ => (s.ctx c k).enterTrap s.now r n).onUnit ((s.ctx c k).unit.getD 0) f := by
  unfold State.takeTrap
  rw [if_pos h]
  exact ⟨_, _, fun y => y.putBytes (s.ctx c k).csr.recordAt (trapRecord (s.ctx c k) r.resume (landingOrder (s.ctx c k).flights) r.snaps),
    fun y => y.ctxs_putBytes _ _, Core.spm_putBytes _ _ _, rfl⟩

/-- What stands after a change of a core that leaves its contexts, and then of one context. -/
theorem State.frame_onCore_onCtx (s : State) {c k : Nat} (hk : k < 4) {p : Core → Core} (hp : ∀ y, (p y).ctxs = y.ctxs) (x : Ctx) :
    ((s.onCore c p).onCtx c k fun _ => x).ctx c k = x
      ∧ (∀ d, d ≠ c → ((s.onCore c p).onCtx c k fun _ => x).core d = s.core d)
      ∧ (∀ j, j ≠ k → ((s.onCore c p).onCtx c k fun _ => x).ctx c j = s.ctx c j)
      ∧ (((s.onCore c p).onCtx c k fun _ => x).core c).spm = (p (s.core c)).spm := by
  refine ⟨State.ctx_onCtx _ _ hk, fun d hd => ?_, fun j hj => ?_, ?_⟩
  · rw [State.onCtx, State.setCtx, State.core_setCore_other _ _ hd, State.core_onCore_other _ _ hd]
  · rw [State.ctx_onCtx_other _ _ _ hj, s.ctx_onCore_kept c hp]
  · rw [State.spm_core_onCtx, State.core_onCore]

/-- The contexts, cores and memories after a trap that is handled. -/
theorem State.takeTrap_frame (hk : k < 4) (h : (s.ctx c k).trapHandled = true) :
    (∃ n, (s.takeTrap c k r).ctx c k = (s.ctx c k).enterTrap s.now r n) ∧ (s.takeTrap c k r).mem = s.mem
      ∧ (∀ d, d ≠ c → (s.takeTrap c k r).core d = s.core d) ∧ (∀ j, j ≠ k → (s.takeTrap c k r).ctx c j = s.ctx c j)
      ∧ ((s.takeTrap c k r).core c).spm = (s.core c).spm.writeBytes (s.ctx c k).csr.recordAt
        (trapRecord (s.ctx c k) r.resume (landingOrder (s.ctx c k).flights) r.snaps) := by
  obtain ⟨n, f, p, hp, hput, ht⟩ := State.takeTrap_handled (r := r) h
  obtain ⟨hctx, hcores, hctxs, hspm⟩ := s.frame_onCore_onCtx hk hp ((s.ctx c k).enterTrap s.now r n)
  rw [ht]
  simp only [State.core_onUnit, State.ctx_onUnit]
  exact ⟨⟨n, hctx⟩, rfl, hcores, hctxs, hspm.trans hput⟩

theorem latches_cleared (i : Nat) (h : i < 4) : (Vector.replicate 4 Latch.cleared)[i].valid = false := by
  rw [Vector.getElem_replicate]
  rfl

theorem trapCause_sync (h : r.async = none) : trapCause r = BitVec.ofNat 64 (r.cond.origin * 32 + r.cond.kind + 2 ^ 16 * r.cond.sub + 2 ^ 30) := by
  simp only [trapCause, h, Option.isSome_none, Bool.false_eq_true, if_false, Nat.add_zero, Cond.code]

/-- A launch that ends: what decided it first stands. -/
theorem State.find_endLaunch (s : State) {l st cause : Nat} {x : Launch} (hx : find s.launches l = some x) :
    ∃ m, find (s.endLaunch l st cause).launches l = some m
      ∧ m.ending = if x.ending.isSome then x.ending else some (st, cause) := by
  refine ⟨_, (find_alter_same ..).trans (congrArg (Option.map _) hx), ?_⟩
  dsimp only
  split <;> rfl

/-- The launch of a unit whose trap is not handled. -/
theorem State.takeTrap_unhandled {u : Nat} {x : Unit} {l : Launch} (h : (s.ctx c k).trapHandled = false)
    (hu : (s.ctx c k).unit = some u) (hx : s.unit u = some x) (hl : find s.launches x.launch = some l) :
    ∃ m, find (s.takeTrap c k r).launches x.launch = some m
      ∧ m.ending = (if l.ending.isSome then l.ending
          else some (4, if (s.ctx c k).csr.cause.getLsbD 30 then 31 else r.cond.origin * 32 + r.cond.kind))
      ∧ (s.takeTrap c k r).mem = s.mem := by
  have hlaunch : s.launchOf u = x.launch := by rw [State.launchOf, hx, Option.map_some, Option.getD_some]
  have htrap : s.takeTrap c k r = (s.onCtx c k fun x => { x with csr := x.csr.reportAddr r.cond }).endLaunch x.launch 4
      (if (s.ctx c k).csr.cause.getLsbD 30 then 31 else r.cond.origin * 32 + r.cond.kind) := by
    unfold State.takeTrap
    simp only [h, hu, Bool.false_eq_true, if_false, Option.getD_some, hlaunch]
    rfl
  obtain ⟨m, hm, hending⟩ := (s.onCtx c k fun x => { x with csr := x.csr.reportAddr r.cond }).find_endLaunch (st := 4)
    (cause := if (s.ctx c k).csr.cause.getLsbD 30 then 31 else r.cond.origin * 32 + r.cond.kind) (show find s.launches x.launch = some l from hl)
  rw [htrap]
  exact ⟨m, hm, hending, rfl⟩

end

/-! ### What is stored at the home -/

/-- What may differ is memory and the coherence of its lines, and what is reported: the contexts, the units and the time stand. -/
structure State.HomeOnly (s t : State) : Prop where
  now : t.now = s.now
  iss : t.iss = s.iss
  cores : t.cores = s.cores
  units : t.units = s.units

namespace State.HomeOnly

variable {s t v : State}

theorem refl (s : State) : s.HomeOnly s := ⟨rfl, rfl, rfl, rfl⟩

theorem trans (h : s.HomeOnly t) (h' : t.HomeOnly v) : s.HomeOnly v :=
  ⟨h'.now.trans h.now, h'.iss.trans h.iss, h'.cores.trans h.cores, h'.units.trans h.units⟩

theorem ite {c : Prop} [Decidable c] (ht : s.HomeOnly t) (hv : s.HomeOnly v) : s.HomeOnly (if c then t else v) := by
  split
  · exact ht
  · exact hv

theorem foldl {α : Type} {f : State → α → State} (hf : ∀ (s : State) a, s.HomeOnly (f s a)) (l : List α) (s : State) :
    s.HomeOnly (l.foldl f s) := by
  induction l generalizing s with
  | nil => exact refl s
  | cons a rest ih => exact (hf s a).trans (ih _)

theorem foldl_snd {α β : Type} {f : β × State → α → β × State} (hf : ∀ (b : β × State) a, b.2.HomeOnly (f b a).2) (l : List α)
    (b : β × State) : b.2.HomeOnly (l.foldl f b).2 := by
  induction l generalizing b with
  | nil => exact refl b.2
  | cons a rest ih => exact (hf b a).trans (ih _)

variable (s)

theorem report (kind index place : Nat) : s.HomeOnly (s.report kind index place) := by
  unfold State.report
  dsimp only
  split_ifs <;> exact ⟨rfl, rfl, rfl, rfl⟩

theorem homeWrite (pa : Nat) (l : List Byte) (k : Option (BitVec 512)) : s.HomeOnly (s.homeWrite pa l k) := by
  unfold State.homeWrite
  dsimp only
  split <;> exact ⟨rfl, rfl, rfl, rfl⟩

theorem writeBackSector (pa : Nat) (l : L2Line) (i : Nat) : s.HomeOnly (s.writeBackSector pa l i) :=
  .ite (.ite (report ..) (homeWrite ..)) (.refl s)

theorem clean (d pa : Nat) : s.HomeOnly (s.clean d pa) := by
  unfold State.clean
  split
  · exact (foldl (fun s i => writeBackSector s pa _ i) _ s).trans ⟨rfl, rfl, rfl, rfl⟩
  · exact .refl s

theorem evict (d pa : Nat) : s.HomeOnly (s.evict d pa) := (clean s d pa).trans ⟨rfl, rfl, rfl, rfl⟩

theorem poke (pa : Nat) (l : List Byte) (k : Option (BitVec 512)) : s.HomeOnly (s.poke pa l k) :=
  foldl_snd (fun b p => (foldl (fun s d => evict s d p.1) (b.2.holders p.1) b.2).trans (homeWrite _ _ _ _)) (sectorPieces pa l.length) (l, s)

theorem keyOf (d a : Nat) : s.HomeOnly (s.keyOf d a).2 := by
  unfold State.keyOf State.asidEntry
  cases find s.asids (asidKey d a) with
  | some e => exact .refl s
  | none => exact ⟨rfl, rfl, rfl, rfl⟩

theorem storeImage (u : Nat) : s.HomeOnly (s.storeImage u) := by
  unfold State.storeImage
  split
  · split
    · exact (keyOf s _ _).trans (poke _ _ _ _)
    · exact .refl s
  · exact .refl s

end State.HomeOnly

/-! ### What the release of a record leaves of the contexts (R370) -/

/-- What TRET goes on with of a context. -/
def Ctx.kept (x : Ctx) : Vector Word 32 × Vector VWord 32 × Vector PWord 16 × Word × Word := (x.s, x.v, x.p, x.csr.cause, x.csr.donemask)

@[simp] theorem Ctx.kept_setQueue (x : Ctx) (q : Nat) (y : Queue) : (x.setQueue q y).kept = x.kept := rfl

@[simp] theorem Ctx.kept_orFlags (x : Ctx) (f : Flags) : (orFlags x f).kept = x.kept := rfl

/-- The registers, CAUSE and DONEMASK of every context stand, and the bundle that issues. -/
structure State.KeepsRegs (s t : State) : Prop where
  iss : t.iss = s.iss
  ctx : ∀ c k, (t.ctx c k).kept = (s.ctx c k).kept

namespace State.KeepsRegs

variable {s t v : State}

theorem refl (s : State) : s.KeepsRegs s := ⟨rfl, fun _ _ => rfl⟩

theorem trans (h : s.KeepsRegs t) (h' : t.KeepsRegs v) : s.KeepsRegs v := ⟨h'.iss.trans h.iss, fun c k => (h'.ctx c k).trans (h.ctx c k)⟩

theorem of_cores (hiss : t.iss = s.iss) (hcores : t.cores = s.cores) : s.KeepsRegs t :=
  ⟨hiss, fun c k => by rw [State.ctx, State.core, hcores]; rfl⟩

theorem ite {c : Prop} [Decidable c] (ht : s.KeepsRegs t) (hv : s.KeepsRegs v) : s.KeepsRegs (if c then t else v) := by
  split
  · exact ht
  · exact hv

theorem of_home (h : s.HomeOnly t) : s.KeepsRegs t := of_cores h.iss h.cores

theorem onCtx (s : State) (c k : Nat) {f : Ctx → Ctx} (hf : ∀ x, (f x).kept = x.kept) : s.KeepsRegs (s.onCtx c k f) := by
  refine ⟨rfl, fun d j => ?_⟩
  by_cases hd : d = c
  · subst hd
    by_cases hj : j = k
    · subst hj
      by_cases hlt : j < 4
      · rw [State.ctx_onCtx _ _ hlt, hf]
      · rw [State.onCtx, State.setCtx, State.ctx, State.core_setCore, Core.setCtx, Core.ctx, State.ctx, Core.ctx]
        simp [hlt]
    · rw [State.ctx_onCtx_other _ _ _ hj]
  · exact congrArg Ctx.kept (congrArg (Core.ctx · j) (State.core_onCore_other _ (fun y => y.setCtx k _) hd))

section
variable (s : State) (u : Nat)

theorem onUnit (f : Unit → Unit) : s.KeepsRegs (s.onUnit u f) := of_cores rfl rfl

theorem onCmd (e : Engine) (n : Nat) (f : Cmd → Cmd) : s.KeepsRegs (s.onCmd u e n f) := onUnit ..

theorem note (c : Clear) : s.KeepsRegs (s.note u c) := by
  unfold State.note
  split
  · exact .ite (.onCtx _ _ _ fun _ => rfl) (.refl s)
  · exact .refl s

/-! ### The bank of a unit -/

theorem onBank {f : Ctx → Ctx} (hf : ∀ x, (f x).kept = x.kept) : s.KeepsRegs (s.onBank u f) := by
  unfold State.onBank
  split
  · refine .ite (.onCtx _ _ _ hf) ?_
    split
    · exact ((of_home (.keyOf s _ _)).trans (onUnit ..)).trans (of_home (.storeImage ..))
    · exact .refl s
  · exact .refl s

theorem reclaim (q : Nat) : s.KeepsRegs (s.reclaim u q) := by
  rcases s.reclaim_cases u q with h | ⟨y, c, h⟩
  · rw [h]
    exact .refl s
  · rw [h]
    exact (onBank s u fun x => x.kept_setQueue q y).trans (note ..)

theorem releaseSlot (q : Nat) (ctr : BitVec 16) : s.KeepsRegs (s.releaseSlot u q ctr) := (onUnit ..).trans (reclaim ..)

theorem closeSlot (q : Nat) (ctr : BitVec 16) (tag : Nat) : s.KeepsRegs (s.closeSlot u q ctr tag) := by
  unfold State.closeSlot
  exact ((onBank s u fun x => x.kept_setQueue q _).trans (note ..)).trans (reclaim ..)

theorem mesh (src dst extra : Nat) (follows : Event → Bool) (e : Event) : s.KeepsRegs (s.mesh src dst extra follows e) := of_cores rfl rfl

/-! ### A record that is dropped (R370) -/

variable (c : Cmd)

theorem freeLanding (l : Landing) : s.KeepsRegs (s.freeLanding u l) := ((onUnit ..).trans (note ..)).trans (note ..)

theorem matRelease : s.KeepsRegs (s.matRelease c) := by
  have hgo : ∀ (s : State) (r : Option SlotRef), s.KeepsRegs (match r with
      | some r => s.releaseSlot r.unit r.queue r.ctr
      | none => s) := fun s r => by
    cases r with
    | none => exact .refl s
    | some r => exact releaseSlot ..
  exact (hgo s c.srcA).trans (hgo _ c.srcB)

theorem abandonSlot (q : Nat) : s.KeepsRegs (s.abandonSlot u c q) := by
  unfold State.abandonSlot
  split
  · exact closeSlot ..
  · exact mesh ..

theorem keepWeight : s.KeepsRegs (s.keepWeight u c) := by
  unfold State.keepWeight
  split
  · exact .ite (onBank s u fun _ => rfl) (.refl s)
  · exact .refl s

theorem closeHal : s.KeepsRegs (s.closeHal u c) := .ite (of_cores rfl rfl) (.refl s)

theorem finish (e : Engine) (n : Nat) : s.KeepsRegs (s.finish u e n) := by
  have hraise : ∀ f, s.KeepsRegs (s.raiseFlags u f) := fun f => .ite (.refl s) (onBank s u fun x => x.kept_orFlags f)
  unfold State.finish
  exact ((hraise _).trans (onUnit ..)).trans (note ..)

theorem unpage (ev : Event) : s.KeepsRegs (({ s with pageReqs := s.pageReqs.map (PageReq.without ev) } : State).forget ev) := of_cores rfl rfl

theorem dropCmd : s.KeepsRegs (s.dropCmd u c) := by
  have hland : s.KeepsRegs (match c.land.bind fun id => s.landing u id with
      | some l => s.freeLanding u l
      | none => s) := by
    split
    · exact freeLanding ..
    · exact .refl s
  have hread : ∀ s : State, s.KeepsRegs (match c.op with
      | .cpst o => s.releaseSlot u o.q.val c.ctr
      | _ => s.matRelease c) := fun s => by
    split
    · exact releaseSlot ..
    · exact matRelease ..
  have hslot : ∀ s : State, s.KeepsRegs (match reservedQueue c.op with
      | some q => s.abandonSlot u c q
      | none => s) := fun s => by
    split
    · exact abandonSlot ..
    · exact .refl s
  unfold State.dropCmd
  exact hland.trans ((hread _).trans ((hslot _).trans ((keepWeight _ u c).trans ((closeHal _ u c).trans ((unpage _ _).trans
    ((onCmd ..).trans (finish ..)))))))

theorem releaseRecord (r : Engine × Nat) (drop : Bool) : s.KeepsRegs (s.releaseRecord u r drop) := by
  unfold State.releaseRecord
  split
  · exact .ite (.refl s) (.ite (dropCmd ..) (onCmd ..))
  · exact .refl s

end

end State.KeepsRegs

/-- A faulted record that is replayed stores nothing. -/
theorem State.mem_releaseRecord_replay (s : State) (u : Nat) (r : Engine × Nat) : (s.releaseRecord u r false).mem = s.mem := by
  unfold State.releaseRecord
  split
  · split <;> rfl
  · rfl

/-! ### TRET (R366, R367) -/

/-- The record of the trap is released, and the context goes on with what its record holds. -/
def State.recordReleased (s : State) : State :=
  match (trapKept s).record with
  | some r => s.releaseRecord s.myUnit r (s.me.csr.donemask.getLsbD 8)
  | none => s

/-- The unit holds no trap any more, and its bundle returns. -/
def State.trapOver (s : State) : State :=
  let t := s.onMyUnit fun y => { y with trap := none }
  { t with iss := { t.iss with ret := true } }

theorem State.me_trapOver (s : State) : s.trapOver.me = s.me := rfl

def State.returned (s : State) (b : List Byte) : State :=
  (s.recordReleased.onMe fun x => x.afterReturn (trapKept s) b).trapOver

section
variable {s : State} {b : List Byte}

theorem State.keepsRegs_recordReleased : s.KeepsRegs s.recordReleased := by
  unfold State.recordReleased
  split
  · exact State.KeepsRegs.releaseRecord ..
  · exact .refl s

theorem State.mem_recordReleased (h : s.me.csr.donemask.getLsbD 8 = false) : s.recordReleased.mem = s.mem := by
  unfold State.recordReleased
  rw [h]
  split
  · exact State.mem_releaseRecord_replay ..
  · rfl

theorem exec_tret (h : s.Calm) (halone : s.iss.slots.length ≤ 1) (htrap : s.me.csr.cause.getLsbD 30 = true)
    (hfits : s.iss.entry.csr.recordAt + 23808 ≤ 3145728) (hload : s.myCore.load 1 s.iss.entry.csr.recordAt 23808 = .ok b)
    (hok : recordOk b = true) : exec .tret s = .next (s.returned b).slotEnd := by
  have hinTrap : s.me.csr.inTrap = true := htrap
  have hread : s.myCore.load 1 s.iss.entry.csr.recordAt trapRecordSize = .ok b := hload
  have hroom : ¬spmSize < s.iss.entry.csr.recordAt + trapRecordSize := Nat.not_lt.2 hfits
  refine slotOp_calm h ?_
  simp only [hinTrap, halone, hroom, hread, hok, decide_true, decide_false, Bool.not_true, Bool.or_self, Bool.false_eq_true, if_false, bind,
    Except.bind]
  rfl

theorem exec_tret_outside (h : s.Calm) (htrap : s.me.csr.cause.getLsbD 30 = false) : exec .tret s = .next (s.slotFault trapReturn) := by
  have hinTrap : s.me.csr.inTrap = false := htrap
  exact slotOp_fault h (by simp only [hinTrap, Bool.not_false, Bool.true_or, if_true])

theorem State.me_returned (hk : s.iss.ctx < 4) : (s.returned b).me = s.recordReleased.me.afterReturn (trapKept s) b := by
  have hk' : s.recordReleased.iss.ctx < 4 := by rw [s.keepsRegs_recordReleased.iss]; exact hk
  have hme := State.me_onMe s.recordReleased (fun x => x.afterReturn (trapKept s) b) hk'
  rw [State.returned, State.me_trapOver, hme]

/-- What a context goes on with after TRET. -/
theorem State.returned_spec (hk : s.iss.ctx < 4) :
    (s.returned b).me.pc = BitVec.ofNat 64 (leNat (b.take 8))
      ∧ (s.returned b).me.csr.cause = s.me.csr.cause &&& ~~~0x40000000#64
      ∧ (s.returned b).me.csr.donemask = s.me.csr.donemask &&& ~~~0x100#64
      ∧ (s.returned b).me.csr.loopst = recWord b 6
      ∧ (s.returned b).me.flights.length = recordNpw b ∧ (s.returned b).me.s = s.me.s ∧ (s.returned b).me.v = s.me.v
      ∧ (s.returned b).me.p = s.me.p := by
  have hregs : s.recordReleased.me.kept = s.me.kept := by
    have hkeeps := s.keepsRegs_recordReleased
    rw [State.me, hkeeps.iss]
    exact hkeeps.ctx _ _
  simp only [Ctx.kept, Prod.mk.injEq] at hregs
  obtain ⟨hs, hv, hp, hcause, hdone⟩ := hregs
  rw [State.me_returned hk]
  refine ⟨rfl, ?_, ?_, rfl, ?_, hs, hv, hp⟩
  · exact congrArg (· &&& ~~~0x40000000#64) hcause
  · exact congrArg (· &&& ~~~0x100#64) hdone
  · exact (List.length_map _).trans List.length_range

end

/-- Settles O13: trap entry by the record, the CSRs and what it leaves; the unhandled trap by the end of its launch; TRET by the record it
reads. -/
theorem trapEntryAndReturn : Obligations.TrapEntryAndReturn := by
  unfold Obligations.TrapEntryAndReturn
  refine ⟨⟨fun s c k r hk hhandled hsync => ?entry, fun s c k u x l r _ hhandled hu hx hl => State.takeTrap_unhandled hhandled hu hx hl⟩,
    fun s b h hk halone htrap hfits hload hok => ?returns, fun s h htrap => exec_tret_outside h htrap⟩
  case entry =>
    intro x t y
    obtain ⟨⟨n, hctx⟩, hmem, hcores, hctxs, hspm⟩ := State.takeTrap_frame (r := r) hk hhandled
    have hy : y = x.enterTrap s.now r n := hctx
    rw [hy]
    refine ⟨rfl, trapCause_sync hsync, rfl, rfl, rfl, rfl, rfl, rfl, rfl, latches_cleared, rfl, rfl, rfl, rfl, rfl, hmem, hcores, hctxs,
      fun hwf i hi => ?_⟩
    obtain ⟨rest, hrest⟩ := trapRecord_pc x r.resume (landingOrder x.flights) r.snaps
    rw [hspm]
    refine Memory.read_writeBytes_getElem? hwf ?_
    rw [hrest, List.getElem?_append_left (by rw [leBytes_length]; exact hi), getElem?_leBytes _ hi]
  case returns =>
    obtain ⟨hpc, hcause, hdone, hloop, hflights, hs, hv, hp⟩ := State.returned_spec (b := b) hk
    exact ⟨_, exec_tret h halone htrap hfits hload hok, hpc, hcause, hdone, hloop, hflights, hs, hv, hp, State.mem_recordReleased⟩

end Sys2Proof.Machine
end

section
/-! SUPPORT. The arbiter's events (R375 to R384): slices and overruns, saves, and the restore of a unit that was saved. -/
namespace Sys2Proof.Machine

/-! ### The end of a slice, and an overrun (R375, R376) -/

section
variable {s : State} {c k : Nat}

/-- At the end of a slice with no switch, the slice starts again. -/
theorem State.pickHead_none (h : s.settled.firstHead c k = none ∨ s.switchable = false) :
    s.pickHead c k true = s.onCtx c k fun x => { x with sliceLeft := x.slice } := by
  unfold State.pickHead
  cases hfirst : s.settled.firstHead c k with
  | none => rfl
  | some u =>
    have hoff : s.switchable = false := h.resolve_left (by rw [hfirst]; nofun)
    simp only [hoff, Bool.false_eq_true, if_false, if_true]

theorem State.pickHead_some {u : Nat} (hfirst : s.settled.firstHead c k = some u) (hon : s.switchable = true) : s.pickHead c k true
    = (s.ageOthers c (some u)).onCtx c k fun x => { x with switch := some (s.now, some u), switchYield := false, expired := true } := by
  simp only [State.pickHead, hfirst, hon, Bool.or_true, if_true]

section
variable (hdue : s.sliceDue c k = true)
include hdue

theorem exec_sliceExpiry_static (hst : s.isStatic c k = true) :
    exec (.sliceExpiry c k) s = .next (s.onCtx c k fun x => { x with sliceLeft := x.slice }) := by
  show execSliceExpiry c k s = _
  simp only [execSliceExpiry, hdue, hst, Bool.not_true, Bool.false_eq_true, if_false, if_true]

theorem exec_sliceExpiry (hst : s.isStatic c k = false) : exec (.sliceExpiry c k) s = .next (s.pickHead c k true) := by
  show execSliceExpiry c k s = _
  simp only [execSliceExpiry, hdue, hst, Bool.not_true, Bool.false_eq_true, if_false]

end

/-- The state in which an overrun has been written. -/
def State.overrunSeen (s : State) (c k : Nat) : State :=
  (s.eventRecord c k (s.unitIdAt c k) 2 ((s.ctx c k).ran s.now - (s.ctx c k).overrunLimit)).onCtx c k fun x => { x with overrunSeen := true }

section
variable (hdue : s.overrunDue c k = true)
include hdue

theorem exec_yieldOverrun : exec (.yieldOverrun c k) s = .next (if (s.ctx c k).switch.isSome || (s.overrunSeen c k).isStatic c k
    then s.overrunSeen c k else (s.overrunSeen c k).pickHead c k false) := by
  show execYieldOverrun c k s = _
  simp only [execYieldOverrun, hdue, Bool.not_true, Bool.false_eq_true, if_false]
  rfl

theorem exec_yieldOverrun_seen (h : (s.ctx c k).switch.isSome = true ∨ (s.overrunSeen c k).isStatic c k = true) :
    exec (.yieldOverrun c k) s = .next (s.overrunSeen c k) := by
  rw [exec_yieldOverrun hdue, if_pos ((Bool.or_eq_true ..).mpr h)]

theorem exec_yieldOverrun_pick (hswitch : (s.ctx c k).switch = none) (hst : (s.overrunSeen c k).isStatic c k = false) :
    exec (.yieldOverrun c k) s = .next ((s.overrunSeen c k).pickHead c k false) := by
  rw [exec_yieldOverrun hdue, hswitch, hst, Option.isSome_none, Bool.or_self, if_neg Bool.false_ne_true]

end

end

/-! ### Saves (R377 to R383) -/

namespace State.HomeOnly

variable {s t : State}

theorem onTell (s : State) (d : Nat) (f : Telltale → Telltale) : s.HomeOnly (s.onTell d f) := ⟨rfl, rfl, rfl, rfl⟩

theorem record (s : State) (d : Nat) (b : List Byte) : s.HomeOnly (s.record d b) := by
  unfold State.record
  exact .ite (.refl s) (.ite (onTell ..) ((poke ..).trans (onTell ..)))

theorem eventRecord (s : State) (c k unit ev value ago : Nat) : s.HomeOnly (s.eventRecord c k unit ev value ago) :=
  .ite (record ..) (.refl s)

theorem core (h : s.HomeOnly t) (c : Nat) : t.core c = s.core c := by rw [State.core, h.cores, State.core]

theorem ctx (h : s.HomeOnly t) (c k : Nat) : t.ctx c k = s.ctx c k := congrArg (Core.ctx · k) (h.core c)

theorem unit (h : s.HomeOnly t) (u : Nat) : t.unit u = s.unit u := congrArg (find · u) h.units

end State.HomeOnly

/-- What a save keeps of the unit of a context. -/
def State.savedOf (s : State) (c k u : Nat) (forced : Bool) : Saved :=
  let m := (s.core c).mat
  { bank := { s.ctx c k with yieldAt := (s.ctx c k).ran s.now }, forced, acc := (m.saved k).1, block := m.block (m.stream k),
    elems := (m.saved k).2, dda := if (s.core c).dda.owner = some u then some (s.core c).dda else none }

/-- A save is a trace record, then a change of the unit, then one of the core, and what it stores at the home. -/
theorem State.save_eq {s : State} {c k u : Nat} (hu : (s.ctx c k).unit = some u) (forced : Bool) : ∃ (f : Unit → Unit) (g : Core → Core),
    (∀ y, (f y).saved = some (s.savedOf c k u forced)) ∧ (∀ z, (g z).ctxs = (z.setCtx k ((s.ctx c k).leave u s.now
      (moveCost (s.savedOf c k u forced).acc (s.savedOf c k u forced).dda.isSome))).ctxs)
    ∧ s.save c k forced = (((s.eventRecord c k (s.unitIdAt c k) 3 (if forced then 1 else 0)).onUnit u f).onCore c g).storeImage u := by
  have hnow := (State.HomeOnly.eventRecord s c k (s.unitIdAt c k) 3 (if forced then 1 else 0) 0).now
  have hcost : (s.savedOf c k u forced).dda.isSome = decide ((s.core c).dda.owner = some u) := by
    unfold State.savedOf
    dsimp only
    split
    case isTrue h => rw [Option.isSome_some, decide_eq_true h]
    case isFalse h => rw [Option.isSome_none, decide_eq_false h]
  rw [hcost]
  unfold State.save
  simp only [hu]
  refine ⟨_, _, ?_, ?_, rfl⟩
  · intro y
    simp only [State.savedOf, hu, decide_eq_true_eq]
  · intro z
    rw [← hnow]
    rfl

/-- What a save leaves: the context is empty while the save lasts, and the unit holds its bank. -/
theorem State.save_spec {s : State} {c k u : Nat} {y : Unit} (hk : k < 4) (hu : (s.ctx c k).unit = some u) (hy : s.unit u = some y)
    (forced : Bool) : ∃ (z : Unit) (v : Saved), ((s.save c k forced).ctx c k).unit = none ∧ ((s.save c k forced).ctx c k).saving = some u
      ∧ ((s.save c k forced).ctx c k).moving = s.now + 2048 + (if v.acc = 0 then 0 else 4096) + (if v.dda.isSome then 640 else 0)
      ∧ (s.save c k forced).unit u = some z ∧ z.saved = some v ∧ v.forced = forced
      ∧ v.bank = { s.ctx c k with yieldAt := (s.ctx c k).ran s.now } := by
  obtain ⟨f, g, hf, hg, hsave⟩ := State.save_eq hu forced
  have hevent := State.HomeOnly.eventRecord s c k (s.unitIdAt c k) 3 (if forced then 1 else 0) 0
  let a := (s.eventRecord c k (s.unitIdAt c k) 3 (if forced then 1 else 0)).onUnit u f
  have hstore := State.HomeOnly.storeImage (a.onCore c g) u
  have hctx : (s.save c k forced).ctx c k = (s.ctx c k).leave u s.now
      (moveCost (s.savedOf c k u forced).acc (s.savedOf c k u forced).dda.isSome) := by
    rw [hsave, hstore.ctx, State.ctx, State.core_onCore, Core.ctx, hg, ← Core.ctx, Core.ctx_setCtx _ _ hk]
  have hunit : (s.save c k forced).unit u = some (f y) := by
    have halter := (State.unit_onUnit (s.eventRecord c k (s.unitIdAt c k) 3 (if forced then 1 else 0)) u f).trans
      (congrArg (Option.map f) ((hevent.unit u).trans hy))
    rw [hsave, hstore.unit]
    exact halter
  refine ⟨f y, s.savedOf c k u forced, ?_, ?_, ?_, hunit, hf y, rfl, rfl⟩
  · rw [hctx, Ctx.leave]
  · rw [hctx, Ctx.leave]
  · rw [hctx, Ctx.leave, moveCost]
    dsimp only
    omega

theorem exec_drainSave {s : State} {c k : Nat} (hdue : s.drainDue c k = true) : exec (.drainSave c k) s = .next (s.save c k false) := by
  show execDrainSave c k s = _
  rw [execDrainSave, if_pos hdue]

theorem exec_forcedSave {s : State} {c k : Nat} (hdue : s.forcedDue c k = true) : exec (.forcedSave c k) s = .next (s.save c k true) := by
  show execForcedSave c k s = _
  rw [execForcedSave, if_pos hdue]

/-! ### Restores (R384) -/

/-- The architectural state of a restored unit is that of its saved bank. -/
theorem Ctx.resident_restore (x r : Ctx) (v ready ran : Nat) : ((x.restore r).resident v ready ran).unit = some v
    ∧ ((x.restore r).resident v ready ran).s = r.s ∧ ((x.restore r).resident v ready ran).v = r.v
    ∧ ((x.restore r).resident v ready ran).p = r.p ∧ ((x.restore r).resident v ready ran).pc = r.pc
    ∧ ((x.restore r).resident v ready ran).csr = r.csr ∧ ((x.restore r).resident v ready ran).queues = r.queues
    ∧ ((x.restore r).resident v ready ran).cc = r.cc ∧ ((x.restore r).resident v ready ran).flights = r.flights :=
  ⟨rfl, rfl, rfl, rfl, rfl, rfl, rfl, rfl, rfl⟩

/-- The unit that a context takes, with what its save area holds. -/
theorem State.makeResident_saved {s : State} {c k v : Nat} {w : Unit} {b : Saved} (hk : k < 4) (hw : s.unit v = some w)
    (hb : w.saved = some b) : (∃ x ready ran, (s.makeResident c k v).ctx c k = (Ctx.restore x (s.loadArea w b).1.bank).resident v ready ran)
      ∧ ∀ u, u ≠ v → (s.makeResident c k v).unit u = s.unit u := by
  unfold State.makeResident
  simp only [hw, hb]
  refine ⟨⟨((s.ctx c k).rouse s.now).2, ((s.ctx c k).rouse s.now).1 + moveCost (s.loadArea w b).1.acc (s.loadArea w b).1.dda.isSome,
    (s.loadArea w b).1.bank.yieldAt, ?_⟩, fun u hu => ?_⟩
  · rw [State.ctx_onUnit, State.ctx, State.core_onCore, Core.ctx]
    exact Core.ctx_setCtx _ _ hk
  · rw [State.unit_onUnit_other _ _ hu]
    exact (State.HomeOnly.keyOf s _ _).unit u

/-- The state in which a save is over. -/
def State.saveOver (s : State) (c k : Nat) : State :=
  s.onCtx c k fun x => { x with saving := none, switch := none, switchYield := false }

/-- At the end of a save, the unit that the switch names becomes resident and the one that was saved enters its queue. -/
theorem exec_unitRestore {s : State} {c k u v p : Nat} {y w : Unit} {b : Saved} (hk : k < 4) (hdue : s.restoreDue c k = true)
    (hsaving : (s.ctx c k).saving = some u) (hy : s.unit u = some y) (hswitch : (s.ctx c k).switch = some (p, some v)) (huv : u ≠ v)
    (hw : s.unit v = some w) (hmay : s.mayTake c k (v, w) = true) (hb : w.saved = some b) :
    exec (.unitRestore c k) s = .next (((s.saveOver c k).makeResident c k v).enterQueue u y.base) := by
  have hout : ((s.saveOver c k).makeResident c k v).unit u = some y :=
    ((State.makeResident_saved (s := s.saveOver c k) (c := c) hk hw hb).2 u huv).trans hy
  unfold State.saveOver at hout ⊢
  show execUnitRestore c k s = _
  simp only [execUnitRestore, hdue, hsaving, hswitch, hw, hmay, Option.any_some, Bool.not_true, Bool.false_eq_true, if_false, if_true,
    Option.bind_some, hout, Option.map_some]

/-! ### The obligation -/

/-- Settles O46: a slice that ends and an overrun are the lemmas of `pickHead`; a save is `State.save_spec`, which reads the save as a
trace record, a change of the unit and one of the core; a restore is `State.makeResident_saved`, by which the unit that was saved is not touched. -/
theorem arbiterEvents : Obligations.ArbiterEvents := by
  unfold Obligations.ArbiterEvents
  intro s c k hk x
  refine ⟨fun hdue => ⟨exec_sliceExpiry_static hdue, fun hst hnone => ?_, fun u hst hfirst hon => ?_⟩,
    fun hdue => ⟨exec_yieldOverrun_seen hdue, exec_yieldOverrun_pick hdue⟩, fun u y hu hy => ⟨fun hdue => ?_, fun hdue => ?_⟩,
    fun u y v w b p hdue hsaving hy hswitch huv hw hmay hb _ => ⟨exec_unitRestore hk hdue hsaving hy hswitch huv hw hmay hb, ?_⟩⟩
  · rw [exec_sliceExpiry hdue hst, State.pickHead_none hnone]
  · rw [exec_sliceExpiry hdue hst, State.pickHead_some hfirst hon]
  · obtain ⟨z, v, hspec⟩ := State.save_spec hk hu hy false
    exact ⟨_, z, v, exec_drainSave hdue, hspec⟩
  · obtain ⟨z, v, hspec⟩ := State.save_spec hk hu hy true
    exact ⟨_, z, v, exec_forcedSave hdue, hspec⟩
  · obtain ⟨x', ready, ran, hctx⟩ := (State.makeResident_saved (s := s.saveOver c k) (c := c) hk hw hb).1
    unfold State.saveOver at hctx
    rw [hctx]
    exact Ctx.resident_restore x' _ v ready ran

end Sys2Proof.Machine
end
